-- ==== Sys2Proof/Word.lean ====
section
/-!
DEFINITION. The word types of the block and their plainest arithmetic: byte strings read little-endian (R3) and
division rounded up.
-/
namespace Sys2Proof

/-- One byte. -/
abbrev Byte := BitVec 8

/-- A string of bytes, byte 0 first. -/
abbrev Bytes := List (BitVec 8)

/-- A command tag (R342). -/
abbrev Tag := BitVec 12

/-- Value of a byte string read little-endian (R3). -/
def leNat : Bytes → Nat
  | [] => 0
  | b :: bs => b.toNat + 256 * leNat bs

/-- The `n` bytes from offset `o` of a byte string, read little-endian (R3). -/
def leAt (bs : Bytes) (o n : Nat) : Nat := leNat ((bs.drop o).take n)

/-- `n` bytes of a number, little-endian (R3). -/
def leBytes : Nat → Nat → Bytes
  | 0, _ => []
  | n + 1, v => BitVec.ofNat 8 v :: leBytes n (v / 256)

/-- Quotient rounded up. -/
def ceilDiv (a b : Nat) : Nat := (a + b - 1) / b

/-- Least multiple of `g` at or above `a`. -/
def roundUp (a g : Nat) : Nat := ceilDiv a g * g

/-- One more than the index of the highest set bit below `n`; 0 when none is set. -/
def popBelow : Nat → Nat → Nat
  | 0, _ => 0
  | n + 1, v => popBelow n v + (if v.testBit n then 1 else 0)

end Sys2Proof
end

