-- ==== Sys2Proof/Syntax.lean ====
section
/-!
DEFINITION. The commands that the block takes: one constructor of `Instr` for each row of spec/opcode_table.json, with
the row's operands. A host command carries a header with its tag, stream and acceptance stamp; an event that the outside
world causes carries what the outside world shows (a voltage, an edge, a message, bytes) and its stamp; an event that the
block itself brings about names only the unit that it concerns, because its stamp stands in the state.
-/
namespace Sys2Proof

/-- What every host command carries beside its arguments (R342, 13_control_and_mailboxes.md): `t` is the stamp at which
the device takes it up, in phase steps of the epoch in force; `rsv` says that a reserved field of its entry or arguments
is not zero (R5). -/
structure Hdr where
  tag : BitVec 12 := 0
  stream : BitVec 5 := 0
  rsv : Bool := false
  t : Nat := 0
  deriving DecidableEq, Repr, Inhabited

/-- A when-block (R48, 02_timeline.md); `rsv` says that its reserved bits are not zero. -/
structure When where
  stamp : BitVec 64 := 0
  epoch : BitVec 16 := 0
  policy : BitVec 2 := 2
  rsv : Bool := false
  deriving DecidableEq, Repr, Inhabited

/-- The strap levels at the release of RST_N (R406). -/
structure Straps where
  role : BitVec 2 := 0
  boot : BitVec 2 := 0
  dram : Bool := false
  refsel : Bool := false
  deriving DecidableEq, Repr, Inhabited

/-- A completion entry (R345); `resp` lists the values of the response in the order of the command's table; `own` is no
field of the entry: it says that STAMP and EPOCH are those that the command's table names, not those of the commit; `fwd`
is no field either: a worker wrote the entry, and its SEQ and POSITION stand (R349). -/
structure Cpl where
  tag : BitVec 12 := 0
  stream : BitVec 5 := 0
  status : BitVec 4 := 0
  fin : Bool := true
  replaced : Bool := false
  late : Bool := false
  gated : Bool := false
  agg : Bool := false
  part : Bool := false
  duptag : Bool := false
  phase : Bool := false
  trunc : Bool := false
  sched : Bool := false
  tq : BitVec 4 := 0
  position : BitVec 8 := 0
  epoch : BitVec 16 := 0
  seq : BitVec 32 := 0
  stamp : Nat := 0
  opcode : BitVec 16 := 0
  a : BitVec 16 := 0
  b : BitVec 8 := 0
  c : BitVec 8 := 0
  count : BitVec 16 := 0
  respBytes : Nat := 0
  resp : List Int := []
  own : Bool := false
  fwd : Bool := false
  deriving DecidableEq, Repr, Inhabited

/-- An event entry (R346); `data` lists the DATA fields of R369 in their order; `fwd` is no field: a worker formed the event, and its
SEQ and POSITION stand (R349). -/
structure Evt where
  source : BitVec 10 := 0
  code : BitVec 8 := 0
  phase : Bool := false
  tq : BitVec 4 := 0
  position : BitVec 8 := 0
  epoch : BitVec 16 := 0
  seq : BitVec 32 := 0
  stamp : Nat := 0
  data : List Int := []
  fwd : Bool := false
  deriving DecidableEq, Repr, Inhabited

/-- A result packet (R265): the header fields and the payload words with their poison tags. -/
structure Packet where
  kind : BitVec 8 := 0
  producer : Nat := 0
  position : BitVec 8 := 0
  tq : BitVec 4 := 0
  epoch : BitVec 16 := 0
  seq : BitVec 32 := 0
  words : List (BitVec 64) := []
  poison : List Nat := []
  deriving DecidableEq, Repr, Inhabited

/-- A command entry (R342). `rsv` says that a reserved field is not zero. -/
structure Entry where
  opcode : BitVec 16 := 0
  tag : BitVec 12 := 0
  stream : BitVec 5 := 0
  perdev : Bool := false
  tkind : BitVec 2 := 0
  tid : BitVec 8 := 0
  respAddr : BitVec 64 := 0
  respLen : BitVec 32 := 0
  argLen : BitVec 32 := 0
  argAddr : BitVec 64 := 0
  rsv : Bool := false
  deriving DecidableEq, Repr, Inhabited

/-- A message on a Tyisk link (R378): down from the manager, or up from a worker. -/
inductive LinkMsg where
  /-- the warm state, with the stamp from which it holds (R36) -/
  | warm (on : Bool) (epoch : BitVec 16) (stamp : Nat)
  /-- a line is armed, with REARM, or disarmed, from a stamp (R258) -/
  | arm (line : BitVec 2) (on rearm : Bool) (epoch : BitVec 16) (stamp : Nat)
  /-- a fire of an armed line: device, fire stamp and condition (R259) -/
  | fire (line : BitVec 2) (position : BitVec 8) (stamp : Nat) (cond : BitVec 3)
  /-- the action stamp of a line with XPOS and XMERGED (R260) -/
  | action (line : BitVec 2) (stamp : Nat) (pos : BitVec 8) (merged : Nat)
  /-- an arrival of a device's site at a barrier (R176) -/
  | arrival (barrier : BitVec 5) (position : BitVec 8) (stamp : Nat)
  /-- the release of a barrier (R176) -/
  | release (barrier : BitVec 5) (stamp : Nat) (broken : Bool)
  /-- the participant count of a barrier that the manager sets up (R160, R176) -/
  | barrier (barrier : BitVec 5) (count : Nat)
  /-- a pending rewind (R40) -/
  | rewind (epoch : BitVec 16) (stamp : Nat)
  /-- a command with its arguments, for the devices behind the ports of a mask; `gated`: the flow gate holds its start (R270, R389) -/
  | command (e : Entry) (args : Bytes) (onward : BitVec 4) (gated : Bool)
  /-- the start stamp of a flow-gated SEQ.START (R270) -/
  | start (tag : BitVec 12) (stamp : Nat) (delayed : Bool)
  /-- the membership of a multicast group (R388) -/
  | members (group : BitVec 5) (set : BitVec 256)
  /-- a completion that a worker wrote (R349) -/
  | completion (c : Cpl)
  /-- an event of a worker (R349) -/
  | event (e : Evt)
  /-- a result packet of a worker (R349) -/
  | result (p : Packet)
  /-- the total delay from the manager of the device above (R391) -/
  | delay (total : Nat)
  /-- credits of a traffic class come back from the receiver (R378) -/
  | credit (cls : BitVec 2) (n : Nat)
  /-- a packet failed its check: the receiver asks for a replay (R380) -/
  | replay
  deriving DecidableEq, Repr

/-- What the device fetches of a command (R343, R344, R376): the 64 bytes of its entry, and the argument bytes that follow it or
stand in the indirect argument buffer. -/
structure Fetched where
  entry : Bytes
  args : Bytes
  deriving DecidableEq, Repr

/-- A command on its way down the tree (R389): its entry, and its arguments. -/
structure Forwarded where
  entry : Entry
  args : Bytes
  deriving DecidableEq, Repr

/-- Where a forwarded command goes (R388, R389, R270): `member` says that the group membership that the manager has sent selects
this device, `onward` names the downstream ports that lead to another device addressed, and `gated` says that the manager's flow
gate holds its start. -/
structure Route where
  member : Bool
  onward : BitVec 4
  gated : Bool
  deriving DecidableEq, Repr

/-- A read of a direct register (R362, R503): its offset, and `wide` for all 64 bits at once. -/
structure RegRead where
  off : BitVec 16
  wide : Bool
  deriving DecidableEq, Repr

/-- What the SECDED check of a microcode word finds when it is read (R201). -/
inductive WordCheck where
  | good | corrected | bad
  deriving DecidableEq, Repr

/-- A microword that a thread's context reads (R190), with what the check of it finds. -/
structure MicroRead where
  th : BitVec 6
  check : WordCheck
  deriving DecidableEq, Repr

/-- What the S10 spare-health check measures (R421): `slices` gives by bank and slice the taps that the drive and the compare
correction would need, in 2^-6 phase steps; `strings`, `spareStrings` and `forceDacs` the largest |INL| over the codes, in 2^-8 LSB;
`switches` the on-resistances of a channel's two switches in milliohm; `portLanes` the eye width in hundredths of a UI and the
height in millivolt; and `lanes`, `lsFailed`, `tiles` and `rows` the units that answered with a wrong bit. A unit that is not
named measured well. -/
structure Health where
  slices : List (BitVec 4 × BitVec 6 × Int × Int) := []
  drifts : List (BitVec 4 × BitVec 6 × Int) := []
  lanes : List (BitVec 4) := []
  lsFailed : Bool := false
  tiles : List (BitVec 4 × Nat) := []
  rows : List (BitVec 4 × BitVec 13) := []
  strings : List (BitVec 9 × BitVec 3 × Nat) := []
  spareStrings : List (BitVec 7 × Nat) := []
  forceDacs : List (BitVec 9 × Nat) := []
  switches : List (BitVec 9 × Nat × Nat) := []
  portLanes : List (BitVec 2 × BitVec 2 × Nat × Nat) := []
  figures : List (Nat × Int) := []
  deriving DecidableEq, Repr, Inhabited

/-- A quality figure set that a run measures (R332). -/
structure Figures where
  edgeRes : Nat := 0
  thrRes : Nat := 0
  eye : Option Nat := none
  pmuRes : Nat := 0
  deriving DecidableEq, Repr, Inhabited

/-- The outcome with which the work of a boot step ends (R409). -/
inductive StepWork where
  /-- it ended and fails -/
  | failed
  /-- it ended and passes, with nothing more to say -/
  | passed
  /-- S2: it ended and passes, and the start check gave this Tj (R468) -/
  | startCheck (tj : Int)
  /-- S8: the island image that the flash holds (R308) -/
  | island (image : Bytes)
  /-- S9: targets that the background run measured (R323), by tap index, and its figures (R332) -/
  | cal (targets : List (Nat × Int)) (figures : List (BitVec 9 × Figures))
  /-- S10: what the check found -/
  | health (found : Health)
  deriving DecidableEq, Repr

/-- How the serial flash answers an operation that the device runs over its port (18_flash_port.md): it carries it out,
or it reads back something else, or it never ends its poll. -/
inductive FlashAnswer where
  | done
  | differs
  | busyTooLong
  deriving DecidableEq, Repr

/-- What a worker reports when it identifies itself (R385). -/
structure Ident where
  role : BitVec 2 := 2
  boot : BitVec 2 := 0
  stepping : BitVec 8 := 0xC1
  step : Nat := 2
  port : BitVec 2 := 3
  canTrain : BitVec 4 := 0xF
  given : BitVec 8 := 0
  givenPath : List (BitVec 2) := []
  deriving DecidableEq, Repr, Inhabited

/-- What the island reads in the words of a frame (R306); the spec gives the words no layout (log entry 164). -/
inductive FrameKind where
  /-- A force word for a set of MUs. -/
  | force (mus : BitVec 16) (word : BitVec 32)
  /-- A measurement on a set of MUs: QUANTITY, N and COUNT. -/
  | measure (mus : BitVec 16) (voltage : Bool) (n : BitVec 32) (count : BitVec 16)
  /-- Any other kind. -/
  | other
  deriving DecidableEq, Repr, Inhabited

/-- A frame for the island's command port (R306): whether its CRC is good, whether ISLP or CC1 wrote it, its words and what they
carry. -/
structure Frame where
  crcOk : Bool := true
  islp : Bool := false
  words : List (BitVec 32) := []
  kind : FrameKind := .other
  deriving DecidableEq, Repr, Inhabited

/-- One page of a PAT.WRITE: its 512 words and the CRC given with them (R228). -/
structure PageData where
  words : List (BitVec 64) := []
  crc : BitVec 32 := 0
  deriving DecidableEq, Repr, Inhabited

/-- What a DSP.RUN is started by (R286): a when-block, or the record closes of a ring of the bank. -/
inductive RunStart where
  | stamp (w : When)
  | ring (r : BitVec 3)
  deriving DecidableEq, Repr

/-- What a PMU.WAVE_RUN is started by (R115): a when-block, or the start of a segment of the owning thread. -/
inductive WaveStart where
  | stamp (w : When)
  | segment (s : BitVec 12)
  deriving DecidableEq, Repr

/-- The owner that CAP.RING and DSP.CLAIM name: a thread or the host. -/
inductive OwnerArg where
  | thread (t : BitVec 6)
  | host
  deriving DecidableEq, Repr

/-- What takes its pending values (R70, R135): the channels and tables of a thread's site, or a channel that no thread
owns. -/
inductive PendUnit where
  | thread (th : BitVec 6)
  | channel (ch : BitVec 9)
  deriving DecidableEq, Repr

/-- What a barrier or forwarded marker says of a pending rewind (R390). -/
abbrev RewindNote := Option Nat

/-- The commands, in the order of spec/opcode_table.json. -/
inductive Instr where
  /-- Release of RST_N after a supply rise runs S0 to S11 and returns every state except the always-on items to power-up values (R408). -/
  | powerOnReset (s : Straps)
  /-- Release of RST_N with supplies in range keeps the journal, sequence number, shutdown latch and fuses, and resets everything else (R408). -/
  | warmReset (s : Straps)
  /-- A boot step finishes its work, writes its end mark and result, and the next step or variant starts (R409): `t10` counts 10 us after the release of RST_N. -/
  | bootStepEnd (t10 : Nat) (work : StepWork)
  /-- A boot step exceeds its bound and fails, with handling under R411 (R409). -/
  | bootStepBoundExpiry (t10 : Nat)
  /-- The main PLL locks in S2 and the timeline count starts at 0:0.0 (R28). -/
  | mainPllLock (t10 : Nat)
  /-- A worker receives no multicast image within 1.5 s of admission and fails the link source (R417). -/
  | linkImageTimeout (t10 : Nat)
  /-- The ROM waits 10 s for BOOT.IMAGE without receiving it and fails the USB4 host source (R417). -/
  | hostImageTimeout (t10 : Nat)
  /-- A worker receives the manager's firmware image by multicast (R399). -/
  | firmwareMulticastReceived (t10 : Nat) (image : Bytes)
  /-- After 1,000 consecutive equal REF_WARM samples the filtered level changes (R34). -/
  | refWarmFilterChange (t : Nat) (level : Bool)
  /-- A 10 s stability window ends and its frequency is compared with the window 10 s earlier (R35): `fig` is (f2 - f1) / f1 in units of 10^-11. -/
  | stabilityVerdict (t : Nat) (fig : Int)
  /-- A worker receives a warm-state change with its stamp and applies REF_COLD from that stamp (R36). -/
  | warmStateMessage (t : Nat) (warm : Bool) (epoch : BitVec 16) (stamp : Nat)
  /-- No REF_IN edge arrives for 40 ns; the PLL holds and records carry TL_HOLDOVER and REF_COLD (R38). -/
  | refInLoss (t : Nat)
  /-- REF_IN returns, the PLL relocks by slewing, TL_HOLDOVER clears and the stability check restarts (R38). -/
  | refInRelock (t : Nat)
  /-- A worker loses its upstream timeline and continues on holdover (R39). -/
  | upstreamTimelineLoss (t : Nat)
  /-- Holdover exceeds P.0104; threads enter CHOLD, scheduled actions abort and TL_LOCAL is set (R39). -/
  | holdoverLimitExpiry
  /-- A worker receives a timeline marker carrying epoch, grain, TQ and any pending rewind (R390). -/
  | timelineMarker (t : Nat) (epoch : BitVec 16) (grain : Nat) (tq : BitVec 4) (rewind : Option Nat)
  /-- A two-way marker exchange on the upstream hop yields t1 to t4 for hop delay and offset (R391). -/
  | tampExchange (t1 t2 t3 t4 : Nat)
  /-- At the end of each 1 ms interval the worker replaces or slews its count by the mean offset and updates ALIGNED (R392) -/
  | alignmentIntervalEnd
  /-- GRAIN passes 2^54 − 2^36 and the manager posts a timeline event (R45). -/
  | grainNearEnd
  /-- GRAIN reaches 2^54 − 2^20 with no rewind pending and the manager rewinds at the next grain (R45). -/
  | forcedRewind
  /-- The rewind stamp is reached and becomes stamp 0.0 of the next epoch on every device (R40). -/
  | rewindEffect
  /-- Returns the epoch, stamp and TQ at completion (R55). -/
  | tlNow (h : Hdr)
  /-- Schedules a rewind at stamp S after the acceptance checks and lateness policy (R41): `idle` says that no other device of the tree has a thread running, held or waiting, or a window open. -/
  | tlRewind (h : Hdr) (w : When) (idle : Bool)
  /-- Returns the timeline parameters P.0100 to P.0107 (R55). -/
  | tlStatus (h : Hdr)
  /-- Schedules a timeline mark and completes when scheduled with SCHED set (R55). -/
  | tlMark (h : Hdr) (w : When) (user : BitVec 32)
  /-- The mark stamp is reached and a timeline event carrying the user tag is posted (R55). -/
  | tlMarkEvent (tag : BitVec 12)
  /-- Removes a pending scheduled action named by tag, or completes TIMEOUT if it has been reached (R54). -/
  | tlCancel (h : Hdr) (target : BitVec 16)
  /-- Writes level words to a channel set, applying or pending them after the swing and order checks (R67). -/
  | pinLevels (h : Hdr) (chs : BitVec 512) (mask : BitVec 7) (words : List (BitVec 32))
  /-- Sets DRV_MODE and OFF_MODE on a channel set (R57). -/
  | pinDriver (h : Hdr) (chs : BitVec 512) (mode : BitVec 2) (off : Bool)
  /-- Enables or disables the active load and sets its IOL and IOH codes (R61). -/
  | pinLoad (h : Hdr) (chs : BitVec 512) (en : Bool) (iol ioh : BitVec 8)
  /-- Enables or disables the clamps of a channel set (R63). -/
  | pinClamp (h : Hdr) (chs : BitVec 512) (en : Bool)
  /-- Sets the level-DAC slew limiter STEP and INTERVAL, re-timing any ramp in progress (R69). -/
  | pinLimit (h : Hdr) (chs : BitVec 512) (mask : BitVec 7) (step interval : BitVec 16)
  /-- Configures and enables the monitor comparator of a channel set (R81). -/
  | pinMon (h : Hdr) (chs : BitVec 512) (en : Bool) (lo hi : BitVec 10) (hyst mode : BitVec 2) (n m : BitVec 4) (action : BitVec 2) (states : BitVec 3)
  /-- Returns the monitor filtered state, UNRESOLVED, TRIPPED and the suppressed count, clearing the count (R88). -/
  | pinMonRead (h : Hdr) (chs : BitVec 512)
  /-- Returns the driver, enables, levels, pending levels, limiter and owner of each channel (R88). -/
  | pinState (h : Hdr) (chs : BitVec 512)
  /-- Safety command that parks a channel set, holding its threads in CHOLD (R76). -/
  | pinPark (h : Hdr) (chs : BitVec 512)
  /-- A level-DAC slew limiter moves the applied code one STEP towards its target after INTERVAL clocks (R69). -/
  | levelRampMove (ch : BitVec 9) (lvl : BitVec 3)
  /-- Pending level spans and timing values take effect 2 sequencer clocks into a dead time or on idleness (R70): what falls due by stamp `t`. -/
  | pendingValuesEffect (t : Nat) (unit : PendUnit)
  /-- The monitor comparator takes a raw sample and updates its majority filter (R78): the voltage at the ball in nanovolts. -/
  | monitorSample (t : Nat) (ch : BitVec 9) (nv : Int)
  /-- A shut-down ends and the QUEUED enable is checked again and carried out or refused (R86). -/
  | queuedEnableRelease (t : Nat) (ch : BitVec 9)
  /-- A supply stays outside its window for 1 µs; a supply event and a line 39 report follow (R463): reading in 100 uV. -/
  | supplyOutOfRange (t : Nat) (supply : BitVec 4) (reading : Int)
  /-- A supply stays inside its window for 100 µs and is reported in range again (R463): reading in 100 uV. -/
  | supplyInRange (t : Nat) (supply : BitVec 4) (reading : Int)
  /-- Changes PMU mode, range or voltage limits through the safe-value sequence (R99). -/
  | pmuConfig (h : Hdr) (chs : BitVec 512) (w : When) (mode : BitVec 2) (range : BitVec 3) (lo hi : BitVec 16)
  /-- Connects or disconnects the PMU through the safe-value sequence (R104). -/
  | pmuConnect (h : Hdr) (chs : BitVec 512) (w : When) (on : Bool)
  /-- Stores a force target and ramps to it at the when-block stamp (R98). -/
  | pmuForce (h : Hdr) (chs : BitVec 512) (w : When) (word : BitVec 32)
  /-- Sets the force-DAC slew limiter, re-timing any ramp in progress (R96). -/
  | pmuLimit (h : Hdr) (chs : BitVec 512) (step interval : BitVec 16)
  /-- Claims the ADC and schedules COUNT averaged measurements (R109). -/
  | pmuMeasure (h : Hdr) (chs : BitVec 512) (w : When) (avg : BitVec 8) (count : BitVec 16) (dest : Bool) (bank : BitVec 4) (ring : BitVec 3)
  /-- Writes entries of a bank's force waveform table unless locked (R117). -/
  | pmuWaveLoad (h : Hdr) (bank : BitVec 4) (first : Nat) (entries : List (BitVec 64))
  /-- Starts a stored force waveform at a stamp or bound to a segment start (R115). -/
  | pmuWaveRun (h : Hdr) (chs : BitVec 512) (start : Nat) (w : WaveStart)
  /-- Ends a waveform at the next sequencer clock on the named channels (R118). -/
  | pmuWaveStop (h : Hdr) (chs : BitVec 512)
  /-- Enables or disables driver-current measurement with its range (R112). -/
  | pmuDrvi (h : Hdr) (chs : BitVec 512) (en : Bool) (range : BitVec 3)
  /-- Returns the PMU mode, range, targets, limiter, switch and sequence state per channel (R120). -/
  | pmuState (h : Hdr) (chs : BitVec 512)
  /-- A range, mode, connect or disconnect sequence starts at its effect stamp (R101). -/
  | pmuSequenceStart (ch : BitVec 9)
  /-- One of steps A to E of a PMU sequence ends and the next begins, or the command completes (R99). -/
  | pmuSequenceStepEnd (ch : BitVec 9)
  /-- The force-DAC limiter moves the applied code one STEP towards its target (R96). -/
  | forceRampMove (ch : BitVec 9)
  /-- A PMU.FORCE reaches its stamp and its ramp to the target begins (R98). -/
  | pmuForceEffect (ch : BitVec 9)
  /-- A measurement's first sample is taken at its start stamp (R108). -/
  | pmuMeasureStart (ch : BitVec 9)
  /-- A PMU ADC conversion ends and the sample is accumulated or sent to a capture ring (R106). -/
  | pmuAdcSample (ch : BitVec 9) (s : Int) (ovr compliance : Bool)
  /-- A waveform dwell ends and the next entry's code is applied, or the waveform ends at LAST (R114). -/
  | waveStepStart (ch : BitVec 9)
  /-- Writes a period table entry, applied or held pending (R126). -/
  | timPeriod (h : Hdr) (th : BitVec 6) (set : BitVec 8) (period : BitVec 32)
  /-- Writes an edge table entry for a channel set after the limit checks (R130). -/
  | timEdges (h : Hdr) (chs : BitVec 512) (set : BitVec 8) (entry : BitVec 128)
  /-- Writes drive and compare deskew values for a channel set (R132). -/
  | timDeskew (h : Hdr) (chs : BitVec 512) (drv cmp : BitVec 16)
  /-- Returns the crossbar map, NO_SLICE marks, SQUEEZE counts and slice health of a bank (R149). -/
  | timMap (h : Hdr) (bank : BitVec 4)
  /-- Claims a TDC and lines and schedules a STAMP, INTERVAL or PERIOD measurement window (R139). -/
  | tdcArm (h : Hdr) (bank : BitVec 4) (tdc : BitVec 6) (mode : BitVec 2) (startSrc : BitVec 4) (startCh : BitVec 9) (stopSrc : BitVec 4) (stopCh : BitVec 9) (w : When) (openAt close repeatLen : Nat) (k : Nat) (count : Nat)
  /-- Ends a TDC measurement, committing the result in progress with INTERRUPTED (R147). -/
  | tdcStop (h : Hdr) (bank : BitVec 4) (tdc : BitVec 6)
  /-- Returns TDC and measurement-line owners and progress for a bank (R149). -/
  | tdcState (h : Hdr) (bank : BitVec 4)
  /-- A TDC window or repeat window opens at its stamp (R139). -/
  | tdcWindowOpen (bank : BitVec 4) (tdc : BitVec 6)
  /-- A comparator crossing reaches a TDC input and is stamped or rejected within 2.5 ns (R143). -/
  | tdcEdge (bank : BitVec 4) (tdc : BitVec 6) (stop : Bool) (t : Nat)
  /-- A TDC window closes; the repeat is settled or the result is committed (R141). -/
  | tdcWindowClose (bank : BitVec 4) (tdc : BitVec 6)
  /-- Assigns lane groups to an idle thread and resets its dictionary and DEPTH (R153). -/
  | seqAssign (h : Hdr) (th : BitVec 6) (groups : BitVec 4)
  /-- Links or unlinks idle threads into one site (R153). -/
  | seqLink (h : Hdr) (lead : BitVec 6) (members : BitVec 8)
  /-- Writes segment descriptors unless active or naming an unowned TRIG_OUT ball (R167). -/
  | seqSegload (h : Hdr) (th : BitVec 6) (first : Nat) (descs : List (BitVec 128))
  /-- Writes dictionary entries of an idle thread (R157). -/
  | seqDict (h : Hdr) (th : BitVec 6) (first : Nat) (entries : List (BitVec 128))
  /-- Claims or releases TRIG_OUT balls for a thread (R165). -/
  | seqTrigout (h : Hdr) (th : BitVec 6) (claim release : BitVec 4)
  /-- Checks and arms threads to start a first segment at a stamp (R164). -/
  | seqStart (h : Hdr) (mask : BitVec 64) (seg : BitVec 12) (w : When)
  /-- Latches a jump request to a segment, taken at a qualifying segment end (R172). -/
  | seqJump (h : Hdr) (th : BitVec 6) (seg : BitVec 12)
  /-- Requests HOLD at the end of the current vector (R178). -/
  | seqHold (h : Hdr) (mask : BitVec 64)
  /-- Schedules resumption of a HOLD thread at the exact next vector (R179). -/
  | seqResume (h : Hdr) (mask : BitVec 64) (w : When)
  /-- Safety command that ends threads in any state through a dead time to IDLE (R179). -/
  | seqStop (h : Hdr) (mask : BitVec 64)
  /-- Configures or resets a tree-wide barrier on the manager (R177). -/
  | seqBarrier (h : Hdr) (barrier : BitVec 5) (count : BitVec 16) (timeout : BitVec 64) (reset : Bool)
  /-- Returns a thread's state, segment, address, depths, flags, latched jump and balls (R185). -/
  | seqStatus (h : Hdr) (th : BitVec 6)
  /-- An ARMED thread's start stamp is reached and its first segment starts (R164). -/
  | threadStart (th : BitVec 6)
  /-- A context executes one microword for LEN sequencer clocks, taking pending causes at safe points (R190). -/
  | microwordExecute (word : MicroRead)
  /-- The vector pipeline starts the next queued vector or pause, or stalls (R162). -/
  | vectorStart (th : BitVec 6)
  /-- A compare strobe judges the comparator and sets fail flags, counts and capture samples (R64): lowest and highest voltage of each pin over its strobe, in nanovolts. -/
  | compareStrobe (th : BitVec 6) (pins : List (BitVec 9 × Int × Int))
  /-- A thread's prefetch issues a 64-byte request on the bank SRAM port (R162). -/
  | prefetchRequest (th : BitVec 6)
  /-- The first grain boundary at least 2 grains after residency is reached and the thread resumes (R180). -/
  | underrunResume (th : BitVec 6)
  /-- With UR_ABORT set the segment ends by abort at the first grain boundary after the gap start (R180). -/
  | underrunAbort (th : BitVec 6)
  /-- A latched hold cause takes effect at the vector boundary or end of pause and the thread enters a held state (R178). -/
  | holdEntry (th : BitVec 6)
  /-- The resume stamp is reached and a HOLD thread restarts at its exact next vector (R179). -/
  | threadResume (th : BitVec 6)
  /-- The JFAIL pause ends L steps after the last vector and the flag test decides the jump (R170). -/
  | jfailDecision (th : BitVec 6)
  /-- A MATCH vector passes on every pin and the next instruction is placed L after it (R174). -/
  | matchFound (th : BitVec 6)
  /-- TIMEOUT vectors issue without a match; MATCH_TO and optionally FF and SF are set (R174). -/
  | matchTimeout (th : BitVec 6)
  /-- The segment start plus OFFSET is reached and the next vector starts (R175). -/
  | waittRelease (th : BitVec 6)
  /-- A site's SYNC arrival reaches the manager and counts in the barrier generation (R176). -/
  | barrierArrival (t : Nat) (barrier : BitVec 5) (position : BitVec 8) (stamp : Nat)
  /-- A barrier's TIMEOUT expires before the count is reached and the barrier breaks (R176). -/
  | barrierBreak (barrier : BitVec 5)
  /-- The release stamp is reached and every participant's first vector after SYNC starts (R176). -/
  | barrierRelease (barrier : BitVec 5) (release : Nat) (broken : Bool)
  /-- A segment ends, the next segment or flow end is chosen and the dead time starts (R166). -/
  | segmentEnd (th : BitVec 6)
  /-- The 20 ns dead time ends and the next segment starts or the flow completes (R164). -/
  | deadTimeEnd (th : BitVec 6)
  /-- A TRIG_OUT pulse ends after P.0502 sequencer clocks (R165). -/
  | trigOutPulseEnd (ball : BitVec 2)
  /-- Checks and loads the customer microcode region and dispatch entries in one step (R205). -/
  | ucLoad (h : Hdr) (words : List (BitVec 32)) (table : List (BitVec 8 × BitVec 16))
  /-- Clears the customer region and customer dispatch entries (R204). -/
  | ucClear (h : Hdr)
  /-- Returns words of the customer region of a bank's store (R200). -/
  | ucRead (h : Hdr) (bank : BitVec 4) (first count : Nat)
  /-- Returns patch state, customer digest, dispatch table and spare-row use (R208). -/
  | ucState (h : Hdr)
  /-- Maps a page range in a tier with zeroed or host contents as a remap (R516): a frame and a CRC for each page of host memory. -/
  | patMap (h : Hdr) (first : BitVec 36) (count : Nat) (tier : BitVec 2) (frames : List (BitVec 64 × BitVec 32)) (banks : BitVec 16)
  /-- Unmaps a page range unless locked (R236). -/
  | patUnmap (h : Hdr) (first : BitVec 36) (count : Nat)
  /-- Replaces LPDDR5X and tile-only page contents after CRC checks (R228). -/
  | patWrite (h : Hdr) (first : BitVec 36) (pages : List PageData)
  /-- Returns the backing contents and PTE CRC of pages (R236). -/
  | patRead (h : Hdr) (first : BitVec 36) (count : Nat)
  /-- Queues prefetch faults to make pages resident in the named banks (R219). -/
  | patPrefetch (h : Hdr) (first : BitVec 36) (count : Nat) (banks : BitVec 16) (check : Bool)
  /-- Pins or unpins resident pages in named banks (R225). -/
  | patPin (h : Hdr) (first : BitVec 36) (count : Nat) (banks : BitVec 16) (pin : Bool)
  /-- Evicts pages from named banks unless pinned, tile-only or locked (R225). -/
  | patEvict (h : Hdr) (first : BitVec 36) (count : Nat) (banks : BitVec 16)
  /-- Sets the Drip-feed lookahead DEPTH of threads (R226). -/
  | patDrip (h : Hdr) (mask : BitVec 64) (depth : Nat)
  /-- Returns a page's PTE and its tiles and tags per bank (R236). -/
  | patQuery (h : Hdr) (vpn : BitVec 36)
  /-- Returns tile usage and fault-queue depth for a bank (R236). -/
  | patState (h : Hdr) (bank : BitVec 4)
  /-- The Drip feed queues a lookahead fault for a non-resident page of a thread's window (R226). -/
  | lookaheadFault (t : Nat) (th : BitVec 6) (vpn : BitVec 36)
  /-- CC0 takes the next queued fault, reads the PTE and starts or joins a fill (R220). -/
  | faultResolutionStart (t : Nat)
  /-- A 64-byte fill granule is read from the backing frame and written into the tile (R220): the words that host memory returns for a host page; `err` says that the read failed. -/
  | fillGranule (t : Nat) (host : List (BitVec 64)) (err : Bool)
  /-- CC0 has issued its Safety actions and resumes the fill from the saved granule (R222). -/
  | fillResume (t : Nat)
  /-- The last granule is written, CRC and GEN are checked, and residency or FAULT follows (R220). -/
  | fillComplete (t : Nat)
  /-- The 80 ns tile CRC check ends, setting CHECKED or marking the tile BAD (R213): `upset` says that a bit of the tile has been lost. -/
  | tileCheckComplete (bank : BitVec 4) (upset : Bool)
  /-- A translation-buffer miss on a resident page is reloaded within 80 ns (R217). -/
  | translationReload (t : Nat) (bank : BitVec 4) (vpn : BitVec 36)
  /-- Defines, resizes or deletes a capture ring (R238). -/
  | capRing (h : Hdr) (bank : BitVec 4) (ring : BitVec 3) (base length : Nat) (owner : OwnerArg)
  /-- Sets a ring's source, mode, drain, PRE, POST and measurement settings (R239). -/
  | capConfig (h : Hdr) (bank : BitVec 4) (ring : BitVec 3) (src : BitVec 2) (ch : BitVec 9) (overwrite drain : Bool) (pre post : Nat) (measCh : BitVec 5) (measLevel measHyst : BitVec 16)
  /-- Writes a ring's eight trigger conditions and action word (R245). -/
  | capTrigger (h : Hdr) (bank : BitVec 4) (ring : BitVec 3) (conds : List (BitVec 32)) (w : When) (action : BitVec 32)
  /-- Schedules a ring to sample and record from its effect stamp (R251). -/
  | capArm (h : Hdr) (bank : BitVec 4) (ring : BitVec 3) (w : When) (records : BitVec 16)
  /-- Stops a ring, closing any record INTERRUPTED (R254). -/
  | capDisarm (h : Hdr) (bank : BitVec 4) (ring : BitVec 3)
  /-- Makes HOST conditions true at its effect stamp on the named rings (R246). -/
  | capFire (h : Hdr) (bank : BitVec 4) (rings : BitVec 8) (w : When)
  /-- Moves closed records of a DRAIN 0 ring into the Carafe (R253). -/
  | capRead (h : Hdr) (bank : BitVec 4) (ring : BitVec 3) (count : Nat)
  /-- Sets first-fail, fail-log and count-snapshot reporting for idle threads (R243). -/
  | capFailcfg (h : Hdr) (mask : BitVec 64) (ffr : Bool) (logLimit : Nat) (snap : Bool)
  /-- Returns and optionally clears per-channel fail counts (R244). -/
  | capCounts (h : Hdr) (chs : BitVec 512) (clear : Bool)
  /-- Arms or disarms a cross-chip line tree-wide from the manager (R258). -/
  | capXarm (h : Hdr) (line : BitVec 2) (w : When) (rearm arm : Bool)
  /-- Requests producers to discard their Carafe and staging packets at the next boundary (R271). -/
  | capFlush (h : Hdr) (producers : BitVec 17)
  /-- Returns ring, staging and cross-chip line states for a bank (R272). -/
  | capState (h : Hdr) (bank : BitVec 4)
  /-- A CAP.ARM effect stamp is reached and the ring starts sampling and pre-fill (R251). -/
  | captureArmEffect (bank : BitVec 4) (ring : BitVec 3)
  /-- A trigger's jump, fire or event action is taken within 30 ns of its event stamp (R249). -/
  | triggerAction (bank : BitVec 4) (ring : BitVec 3)
  /-- A record's last sample ends and closing begins (R251). -/
  | recordClose (bank : BitVec 4) (ring : BitVec 3)
  /-- 16 sequencer clocks after closing the capture record header is committed and pre-fill restarts (R251). -/
  | recordHeaderCommit (bank : BitVec 4) (ring : BitVec 3)
  /-- A fire message reaches the manager and opens or joins an arbitration window (R259). -/
  | xtrigFireMessage (t : Nat) (line : BitVec 2) (pos : BitVec 8) (cond : BitVec 3) (stamp : Nat)
  /-- The 340 ns arbitration window closes and the action stamp is sent down the tree (R260). -/
  | xtrigWindowClose (line : BitVec 2)
  /-- A device receives the action stamp, XPOS and XMERGED of a line (R260). -/
  | xtrigActionMessage (t : Nat) (line : BitVec 2) (stamp : Nat) (pos : BitVec 8) (merged : Nat)
  /-- The action stamp is reached and XTRIG conditions fire, with rearm or disarm (R260). -/
  | xtrigAction (line : BitVec 2)
  /-- CC0 reads a packet from the Carafe checking parity and marks (R267): the payload words whose parity fails. -/
  | carafePacketRead (t : Nat) (headerBad : Bool) (badWords : List Nat)
  /-- DMA2 writes a packet to the result area and advances RES_TAIL (R348). -/
  | resultPacketDma (t : Nat)
  /-- Space returns after a staging overflow and one loss marker is committed (R268). -/
  | lossMarkerCommit (t : Nat) (producer : Nat)
  /-- Four equal FLOW_IN samples change its filtered level (R269). -/
  | flowInFilterChange (t : Nat) (asserted : Bool)
  /-- At D the manager reads FLOW_IN and fixes the start stamp of a flow-gated SEQ.START (R270). -/
  | flowGateDecision (tag : BitVec 12)
  /-- A producer reaches its packet boundary, discards its packets and commits a flush marker (R271). -/
  | flushAtBoundary (t : Nat) (producer : Nat)
  /-- Gives a lane one owner or releases it (R274): none releases. -/
  | dspClaim (h : Hdr) (bank : BitVec 4) (owner : Option OwnerArg)
  /-- Loads a customer kernel image into every lane after checks (R290). -/
  | dspKload (h : Hdr) (words : List (BitVec 64)) (table : List (BitVec 8 × BitVec 11))
  /-- Writes X or Y memory of a lane (R291). -/
  | dspMem (h : Hdr) (bank : BitVec 4) (y : Bool) (first : Nat) (words : List (BitVec 48))
  /-- Schedules a kernel run at a stamp or bound to record closes (R286). -/
  | dspRun (h : Hdr) (bank : BitVec 4) (kernel : BitVec 8) (operands : List Nat) (input : BitVec 2) (source : BitVec 6) (ch : BitVec 5) (nominal : Int) (tapOnly toX : Bool) (start : RunStart)
  /-- Ends a run at the next clock (R289). -/
  | dspStop (h : Hdr) (bank : BitVec 4)
  /-- Returns words of X or Y memory (R291). -/
  | dspRead (h : Hdr) (bank : BitVec 4) (y : Bool) (first count : Nat)
  /-- Returns owner, lane, run state and kernel table of a bank (R291). -/
  | dspState (h : Hdr) (bank : BitVec 4)
  /-- A run starts at its stamp or at a record close (R286). -/
  | dspRunStart (bank : BitVec 4)
  /-- A tapped sample enters the lane input queue or is dropped (R285). -/
  | dspInputWord (bank : BitVec 4)
  /-- The lane executes one instruction per clock, ending and committing at HALT (R279). -/
  | dspInstruction (t : Nat) (bank : BitVec 4)
  /-- Changes MU mode, ranges and limits through the island safe-value sequence (R299). -/
  | miConfig (h : Hdr) (mus : BitVec 16) (w : When) (mode : BitVec 2) (irange : BitVec 3) (vrange : Bool) (ilim lo hi : BitVec 32)
  /-- Connects or disconnects MU outputs (R299). -/
  | miConnect (h : Hdr) (mus : BitVec 16) (w : When) (on : Bool)
  /-- Sets an MU force target and ramps to it (R295). -/
  | miForce (h : Hdr) (mus : BitVec 16) (w : When) (word : BitVec 32)
  /-- Sets the MU slew limiter (R299). -/
  | miLimit (h : Hdr) (mus : BitVec 16) (step interval : BitVec 32)
  /-- Claims an MU ADC and schedules COUNT measurements (R303). -/
  | miMeasure (h : Hdr) (mus : BitVec 16) (w : When) (voltage : Bool) (n : BitVec 32) (count : BitVec 16)
  /-- Ends MU measurements with INTERRUPTED (R319). -/
  | miStop (h : Hdr) (mus : BitVec 16)
  /-- Safety command that opens every MU output after step A (R307). -/
  | miPark (h : Hdr)
  /-- Returns MU mode, ranges, targets, sequence, ADC owner and switch state (R319). -/
  | miState (h : Hdr) (mus : BitVec 16)
  /-- Returns seal state, reason, SEAL_SEQ, digest and versions (R319). -/
  | miSealState (h : Hdr)
  /-- Returns a fresh 16-byte nonce (R314). -/
  | miChallenge (h : Hdr)
  /-- Installs an authorised seal record and calibration set (R315). -/
  | miSealRenew (h : Hdr) (record cal : Bytes) (answer : FlashAnswer)
  /-- Installs an authorised break record, leaving the island UNSEALED (R315). -/
  | miSealBreak (h : Hdr) (record : Bytes) (answer : FlashAnswer)
  /-- Installs an unsealed trial calibration set (R317). -/
  | miCalLoad (h : Hdr) (cal : Bytes)
  /-- Resets the island, aborting open measurements (R305). -/
  | miReset (h : Hdr)
  /-- The island takes a frame from its command port, discarding bad CRC or disallowed ISLP frames (R306). -/
  | islandFrameReceived (t : Nat) (f : Frame)
  /-- The island verifies its image and determines seal state after a reset (R312): the island image that CC1 sends from the flash. -/
  | islandStart (t : Nat) (image : Bytes)
  /-- VDD_MI is lost and the island resets (R305). -/
  | islandPowerLoss (t : Nat)
  /-- An island action reaches its grain granule and its sequence or ramp begins (R301). -/
  | islandActionEffect (mu : BitVec 4)
  /-- One of steps A to E of an MU sequence ends (R299). -/
  | muSequenceStepEnd (mu : BitVec 4)
  /-- The MU limiter moves the force code one STEP (R299). -/
  | muRampMove (mu : BitVec 4)
  /-- An MU ADC sample is taken every 5 µs and accumulated, committing a result at N (R302). -/
  | muAdcSample (mu : BitVec 4) (s : Int) (ovr compliance senseOpen : Bool)
  /-- Every 10 s the island checks its reference and sets or clears REF_DRIFT (R313): the reference in 0.1 uV, the island temperature in 0.01 degree. -/
  | islandRefCheck (t : Nat) (reference : Nat) (temp : Int)
  /-- Starts a background or full calibration run (R326). -/
  | calRun (h : Hdr) (full : Bool) (chs : BitVec 512)
  /-- Returns the calibration quality figures per channel (R332). -/
  | calQuality (h : Hdr) (chs : BitVec 512)
  /-- Returns every tap in force, its target and due state (R334). -/
  | calTaps (h : Hdr) (chs : BitVec 512)
  /-- Writes the calibration record to flash and reads it back (R333). -/
  | calSave (h : Hdr) (answer : FlashAnswer)
  /-- A background or full run ends and taps whose targets differ become due (R323). -/
  | calibrationRunEnd (t : Nat) (targets : List (Nat × Int)) (figures : List (BitVec 9 × Figures))
  /-- A due tap takes effect at its switch-over point (R327). -/
  | calSwitchOver (t : Nat) (tap : Nat)
  /-- The Command Ring doorbell is written and accepted or ignored (R344). -/
  | cmdTailWrite (t : Nat) (value : BitVec 32)
  /-- The device fetches a command entry, advances CMD_HEAD and checks its tag (R344). -/
  | commandFetch (t : Nat) (e : Fetched)
  /-- The completion doorbell is written, freeing ring space (R508). -/
  | cplHeadWrite (t : Nat) (value : BitVec 32)
  /-- The event doorbell is written, freeing ring space (R508). -/
  | evtHeadWrite (t : Nat) (value : BitVec 32)
  /-- The result-area doorbell is written, freeing space (R508). -/
  | resHeadWrite (t : Nat) (value : BitVec 32)
  /-- Enabling or disabling a ring checks geometry and resets indices and phase (R507). -/
  | ringCtrlWrite (t : Nat) (area : BitVec 2) (value : BitVec 32)
  /-- Ring space returns and a held completion is written (R347). -/
  | heldCompletionDrain (t : Nat)
  /-- Ring space returns and held events, preceded by any events-lost event, are written (R347). -/
  | heldEventDrain (t : Nat)
  /-- A DMA engine chooses its next granule by class, suspending the loser (R339): a request that arrived since the last boundary: class and granules. -/
  | dmaGranuleBoundary (t : Nat) (engine : BitVec 3) (request : Option (BitVec 2 × Nat))
  /-- A control-core watchdog expires, raising a fatal fault (R337). -/
  | watchdogExpiry (t : Nat) (core : Bool)
  /-- A vector's HOLDOFF passes since its first entry and a message is sent (R361). -/
  | irqHoldoffExpiry (t : Nat) (vector : BitVec 6)
  /-- Completes OK with no effect (R366). -/
  | ctlNop (h : Hdr)
  /-- Returns role, position, path, stepping, version, tree size and DRAM state (R366). -/
  | ctlInfo (h : Hdr)
  /-- Reads up to 16 parameters coherently, clearing RC ones (R364). -/
  | ctlPget (h : Hdr) (ids : List (BitVec 16))
  /-- Writes up to 16 parameters on all or none (R364). -/
  | ctlPset (h : Hdr) (entries : List (BitVec 16 × BitVec 256))
  /-- Registers or removes a host-memory window (R340). -/
  | ctlWindow (h : Hdr) (index : BitVec 8) (base size : BitVec 64)
  /-- Registers and enables or disables the result area (R341). -/
  | ctlResults (h : Hdr) (base : BitVec 64) (size : BitVec 32)
  /-- Maps and enables event sources on a vector (R360). -/
  | ctlEvmap (h : Hdr) (first count : BitVec 16) (vector : BitVec 8) (en : Bool)
  /-- Maps completion streams to a vector (R360). -/
  | ctlCplmap (h : Hdr) (streams : BitVec 32) (vector : BitVec 8)
  /-- Sets COUNT and HOLDOFF moderation of a vector (R361). -/
  | ctlIrqmod (h : Hdr) (vector : BitVec 8) (count holdoff : BitVec 16)
  /-- Completes PREEMPTED every unaccepted command of the named streams (R366). -/
  | ctlFlushStream (h : Hdr) (streams : BitVec 32)
  /-- The USB4 or PCIe path is lost; DMA stops and rings, tags and windows are cleared (R374). -/
  | hostAttachmentLoss (t : Nat) (mode : BitVec 3) (tunnel : Bool)
  /-- The host attachment returns and a log record is written (R374). -/
  | hostAttachmentRestored (t : Nat) (mode : BitVec 3)
  /-- The USB4 link mode changes and a host event posts (R373). -/
  | hostLinkModeChange (t : Nat) (mode : BitVec 3)
  /-- A bulk OUT transfer carries a command to the USB 2.0 recovery function (R376). -/
  | recoveryCommand (t : Nat) (e : Fetched)
  /-- A bulk IN transfer returns the completion and response (R376). -/
  | recoveryCompletionRead (t : Nat)
  /-- A Tyisk packet is received and CRC-checked, requesting replay on failure (R380): `got` is the message that it ends, none where the check fails; a command and a completion act through the rows of their own. -/
  | linkPacketReceived (t : Nat) (port : BitVec 2) (got : Option LinkMsg)
  /-- A marker block is received on both lanes; loss of both copies retrains the port (R380): an arm message, a release and a delay act here, every other marker through the row of its own. -/
  | linkMarkerReceived (t : Nat) (port : BitVec 2) (stamp : Nat) (content : LinkMsg) (goodA goodB : Bool)
  /-- A port loses block lock, exceeds replays or loses a marker and retrains (R382). -/
  | portRetrainStart (t : Nat) (port : BitVec 2) (cause : BitVec 2)
  /-- A retrain ends, latency is fixed and recent markers are resent (R382). -/
  | portRetrainEnd (t : Nat) (port : BitVec 2)
  /-- An active lane fails while READY and the port runs on one lane with DEGRADED (R381). -/
  | laneFailure (t : Nat) (port : BitVec 2) (lane : BitVec 2)
  /-- A port stays down beyond P.0E04 and commands below it complete FAULT (R383). -/
  | pathLost (t : Nat) (port : BitVec 2)
  /-- A port comes up again and unreset devices below rejoin (R383). -/
  | pathRestored (t : Nat) (port : BitVec 2)
  /-- A listening worker receives a training request and chooses its upstream port (R384): ports and parent position IDs that arrive together. -/
  | trainingRequest (t : Nat) (requests : List (BitVec 2 × BitVec 8))
  /-- A trained worker's identification is received and it is admitted or refused with a position ID (R385). -/
  | workerIdentification (t : Nat) (parent : BitVec 8) (port : BitVec 2) (id : Ident)
  /-- A Brew-up stage starts once the stage it waits on has ended on the devices concerned (R399). -/
  | brewupStageStart (t : Nat) (stage : BitVec 4)
  /-- A worker reports READY to the manager, joining the tree late with an event (R402). -/
  | deviceReadyReport (t : Nat) (position : BitVec 8) (decaf : Bool)
  /-- Every admitted device is READY or Decaf, or 1.5 s passes, and the tree-ready event posts (R402). -/
  | treeReady (t : Nat) (elapsedUs : Nat)
  /-- A device receives a command forwarded down the tree and copies it to members (R396). -/
  | forwardedCommand (t : Nat) (e : Forwarded) (way : Route)
  /-- The manager receives a worker completion, writing it and forming the aggregate (R350). -/
  | workerCompletionReceived (t : Nat) (c : Cpl)
  /-- Returns per-position tree and port state (R403). -/
  | treeState (h : Hdr)
  /-- Sets a multicast group's membership mask (R388). -/
  | treeGroup (h : Hdr) (group : BitVec 8) (members : BitVec 256)
  /-- Discovers devices on untrained and redundant ports and brings them up (R387): `idle` says that every thread of the other devices is IDLE. -/
  | treeRescan (h : Hdr) (idle : Bool)
  /-- Reports or retrains a downstream port (R403): `idle` says that every thread below the port is IDLE. -/
  | treePort (h : Hdr) (port : BitVec 8) (action : BitVec 8) (idle : Bool)
  /-- Returns the always-on or flash copy of the boot journal (R425): `readable` says that the flash copy can be read. -/
  | bootJournal (h : Hdr) (flash : Bool) (readable : Bool)
  /-- Clears STARTS, FAILS and DETAIL counts in both journal copies (R425). -/
  | bootJournalClear (h : Hdr)
  /-- Delivers an image to S3 during the USB4 host wait (R417). -/
  | bootImage (h : Hdr) (image : Bytes)
  /-- Raises the rollback counter by blowing fuses up to V (R420). -/
  | bootRollback (h : Hdr) (v : BitVec 8)
  /-- Runs the spare-health check in Decaf mode and writes the health record (R421). -/
  | bootHealth (h : Hdr) (found : Health) (answer : FlashAnswer)
  /-- Returns the spare maps, marks, figures and wear counters (R425). -/
  | bootSpares (h : Hdr)
  /-- A block's error report reaches the collector, is latched, counted and reacted to by class (R432). -/
  | errorReport (t : Nat) (line : BitVec 6) (cls : BitVec 2) (cause : BitVec 8) (unit : BitVec 16) (detail : BitVec 32)
  /-- The injection stamp is reached and the injected report is presented on its line (R437). -/
  | injectedReport
  /-- Every MU switch is open, the DECAF record is committed and wear counters are written (R440). -/
  | decafSafeStateReached (t : Nat)
  /-- Returns FC_STATUS and per-line counters and first reports (R456). -/
  | fcRead (h : Hdr)
  /-- Clears counters and first reports of the named lines (R431). -/
  | fcClear (h : Hdr) (lines : BitVec 48)
  /-- Schedules an injected report on one line (R437). -/
  | fcInject (h : Hdr) (w : When) (word : BitVec 64)
  /-- Safety command that enters Decaf mode with cause 0x3 (R440). -/
  | fcDecaf (h : Hdr)
  /-- Leaves Decaf mode for causes 0x3 and 0x8 (R444). -/
  | fcDecafExit (h : Hdr)
  /-- Returns log counts, open records and GEN values (R451). -/
  | logSummary (h : Hdr)
  /-- Returns records from the RAM or a flash area with GEN values (R451). -/
  | logRead (h : Hdr) (area : BitVec 8) (first count : Nat)
  /-- Closes and copies every log record (R448). -/
  | logSync (h : Hdr)
  /-- Returns a log-clear nonce (R454). -/
  | logChallenge (h : Hdr)
  /-- Verifies a token and clears the log except the permanent area (R455). -/
  | logClear (h : Hdr) (token : Bytes) (answer : FlashAnswer)
  /-- A report or update from the writer queue is committed as a record or merged as a repeat (R445). -/
  | logRecordCommit (t : Nat)
  /-- An open record closes after P.0D07 idle or the EXTREME window (R448). -/
  | logRecordIdleClose (t : Nat) (index : BitVec 8)
  /-- CC1 copies a closed record to the flash log areas, retrying failures (R452). -/
  | logFlashCopy (t : Nat) (answer : FlashAnswer)
  /-- A freeze held for 50 ms releases itself and commits a LOG record (R449). -/
  | logFreezeTimeout (t : Nat)
  /-- A housekeeping channel is sampled in its slot and its reading is checked (R460). -/
  | hkSample (t : Nat) (reading : Int) (valid : Bool)
  /-- A 16 ms round ends with its stamp and feeds the calibration trigger and extremes (R460). -/
  | hkRoundEnd (t : Nat)
  /-- VSS_PE is in range or 5 ms pass and PE_EN_POS goes high (R468). -/
  | peEnPosEnable (t : Nat)
  /-- Returns readings, stamps and extremes of housekeeping channels (R470). -/
  | hkRead (h : Hdr) (first : BitVec 8) (count : BitVec 8)
  /-- Returns Tj, thermal state, supply monitors and bandgap value (R470). -/
  | hkState (h : Hdr)
  /-- Restarts minima and maxima of named channels (R470). -/
  | hkMinmax (h : Hdr) (mask : BitVec 128)
  /-- Reads flash data (R485). -/
  | flashRead (h : Hdr) (addr : BitVec 32) (len : BitVec 32)
  /-- Programs a host-writable flash region and reads it back (R485). -/
  | flashWrite (h : Hdr) (addr : BitVec 32) (data : Bytes)
  /-- Erases a host-writable flash region (R485). -/
  | flashErase (h : Hdr) (addr : BitVec 32) (len : BitVec 32)
  /-- Returns Read ID, SFDP header, capacity and directory entry (R485). -/
  | flashInfo (h : Hdr)
  /-- Issues an allowed raw flash opcode and returns data (R475). -/
  | flashXfer (h : Hdr) (opcode : BitVec 8) (addr : BitVec 32) (len : BitVec 16)
  /-- The select is sensed low while mastering; the port tristates and backs off (R477). -/
  | flashSelectCollision (t : Nat)
  /-- The backoff expires and the port claims again and repeats the sequence (R477). -/
  | flashCollisionRetry (t : Nat)
  /-- The poll interval passes and Read Status is issued, ending on WIP 0 or timeout (R479): `wip` is what Read Status returns, `good` that the read-back shows what was programmed. -/
  | flashStatusPoll (t : Nat) (wip : Bool) (good : Bool)
  /-- A DQS mismatch or early select release discards a partial word and repeats once (R481). -/
  | flashBadWord (t : Nat)
  /-- A window read becomes a 64-byte 8D Read, flushing the write buffer first (R480). -/
  | xipRead (t : Nat) (addr : BitVec 32)
  /-- A window store enters the write-combining buffer or forces a program (R480). -/
  | xipStore (t : Nat) (addr : BitVec 32) (data : Bytes)
  /-- 1 µs after the last store the buffer is programmed (R480). -/
  | xipBufferFlush (t : Nat)
  /-- A low-half or 64-bit read of TL_NOW latches the high half, epoch and TQ into shadows (R506). -/
  | tlNowRead (t : Nat) (whole : Bool)
  /-- A low-half read of a 64-bit register copies its high half into the shadow and clears RC fields (R362). Every other read of a register but TL_NOW comes by this command too: of a 32-bit register, a high half, or a whole 64-bit register. -/
  | registerLowHalfRead (t : Nat) (at_ : RegRead)
  /-- A write to FC_INJECT acts as an immediate FC.INJECT or sets REFUSED (R510). -/
  | fcInjectWrite (t : Nat) (word : BitVec 64)
  /-- A write with REQ 1 and KEY 0xDECA starts hard-wired Decaf entry (R510). -/
  | decafReqWrite (t : Nat) (value : BitVec 32)
  /-- A write of 1 to a bit sends one message on that vector (R509). -/
  | irqTestWrite (t : Nat) (value : BitVec 64)
  /-- Setting or clearing FREEZE freezes the log RAM or drains the holding queue (R512). -/
  | logFreezeWrite (t : Nat) (value : BitVec 32)
  /-- Selects the RAM record shown in LOG_DATA (R512). -/
  | logIndexWrite (t : Nat) (value : BitVec 32)
  /-- A misaligned or wrong-width access reads zero, writes nothing and sets BAD_ACCESS (R502). -/
  | badRegisterAccess (t : Nat) (off : BitVec 16)
  /-- A write to any other register applies its access code, with half-write staging (R6). -/
  | registerWrite (t : Nat) (off : BitVec 16) (width64 : Bool) (value : BitVec 64)
  /-- At each 1 ms alignment interval boundary in gradual mode, every due tap whose previous step has taken effect takes one step of one unit towards its target (R329). -/
  | alignmentIntervalStart (t : Nat)
  /-- The select pin has been sensed high for 1 µs, and the port asserts it and begins mastering its sequence (R477): `busy` says that the status read at the start of the sequence is WIP 1. -/
  | flashSelectClaim (t : Nat) (busy : Bool)
  deriving DecidableEq, Repr

end Sys2Proof
end

