-- ==== Sys2Proof/Config.lean ====
section
/-!
DEFINITION. What the spec leaves open after which the block goes on: free values. Each is an opaque constant without a
body, so no proof sees a value of it, and a statement about it holds for every value.
-/
namespace Sys2Proof.Config

/-- A fresh free value for each count (a nonce, a value that a rule leaves undefined). Log entry 6. -/
opaque free : Nat → Nat

/-- SHA3-256, which the spec names and does not define (R309, R419). Log entry 7. -/
opaque sha3 : Bytes → BitVec 256

/-- ML-DSA-44 verification: key, message, signature (R202, R310, R419). Log entry 7. -/
opaque mlDsa : Bytes → Bytes → Bytes → Bool

/-- AES-256-GCM decryption under the device-class key of the fuses: nonce, additional data, ciphertext, tag; none when the
tag does not match (R202). Log entry 7. -/
opaque gcm : Bytes → Bytes → Bytes → Bytes → Option Bytes

/-- The root-key hash in ROM (R310, R419). Log entry 7. -/
opaque rootHash : BitVec 256

/-- The patch-signing public key, whose certificate chains to the vendor root in ROM (R202). Log entry 7. -/
opaque patchKey : Bytes

/-- The island-image public key (R308). Log entry 7. -/
opaque islandKey : Bytes

/-- Version that an island image states, whose layout the spec does not give (R308, R320). Log entry 7. -/
opaque islandVersion : Bytes → BitVec 16

/-- Length in bytes of a response whose layout the spec does not give: opcode and number of values (R345). Log entry 4. -/
opaque respLength : BitVec 16 → Nat → Nat

/-- Where the device begins its choice of a backing frame for a page of LPDDR5X (R216, R516). Log entry 13. -/
opaque frame : Nat → Nat

/-- Capacity of the board's LPDDR5X above 2 GiB, in GiB (R27, R218). Log entry 13. -/
opaque dramAbove : Fin 31

/-- Packets of a traffic class that a receiver gives credit for on a hop (R378). Log entry 139. -/
opaque credits : BitVec 2 → Nat

/-- Words of the microcode ROM (R200). Log entry 8. -/
opaque romWord : BitVec 13 → BitVec 32

/-- Entry of a vendor routine in the ROM (R194). Log entry 8. -/
opaque romEntry : BitVec 8 → BitVec 12

/-- Whether an entry of the NCO's sine table is rounded up (R283). Log entry 9. -/
opaque sineUp : BitVec 14 → Bool

/-- Words of the vendor ROM of program memory P (R276). Log entry 9. -/
opaque kernelRom : Nat → BitVec 64

/-- An output word of a vendor kernel run where R287 states no exact value: kernel, operands, inputs, index. Log entry 9. -/
opaque kernelWords : BitVec 8 → List Nat → List Int → Nat → BitVec 64

/-- An output word that is no complex value, as a 48-bit word of X memory (R288). Log entry 9. -/
opaque packWord : BitVec 64 → BitVec 48

/-- Capacity of the board's flash in MiB, which its SFDP gives (R474, R488). Log entry 12. -/
opaque flashMiB : Nat

end Sys2Proof.Config
end

