-- ==== Sys2Proof/Machine/Layout.lean ====
section
/-!
DEFINITION. Byte layouts (R3): bit fields, and what stands in host memory and on the wires — command entries and their arguments
(R342, R343), completion entries (R345), event entries (R346, R369), result packets (R265).
-/
namespace Sys2Proof.Machine

/-! ### Bits -/

/-- Fields packed from bit 0 upwards: each a width and a value taken modulo it. -/
def packFields : List (Nat × Nat) → Nat
  | [] => 0
  | (w, v) :: r => v % 2 ^ w + 2 ^ w * packFields r

/-- A signed value in two's complement, as the number that its bits spell in `w` bits. -/
def twos (w : Nat) (v : Int) : Nat := (v % (2 ^ w : Int)).toNat

/-- A number split into `n` words of 64 bits, the least significant first. -/
def words64 : Nat → Nat → List (BitVec 64)
  | 0, _ => []
  | n + 1, v => BitVec.ofNat 64 v :: words64 n (v / 2 ^ 64)

/-- A bit field of a number. -/
def bits (v lo w : Nat) : Nat := v / 2 ^ lo % 2 ^ w

/-- A flag as a number. -/
def bit (b : Bool) : Nat := if b then 1 else 0

/-- A signed number held in `w` bits. -/
def signed (w v : Nat) : Int := if v % 2 ^ w < 2 ^ (w - 1) then (v % 2 ^ w : Nat) else (v % 2 ^ w : Nat) - (2 ^ w : Int)

/-- The bytes of 64-bit words, little-endian (R3). -/
def wordBytes (ws : List (BitVec 64)) : Bytes := ws.flatMap fun w => leBytes 8 w.toNat

/-! ### Command entries (R342) -/

/-- A command entry as its 64 bytes spell it (R342); with indirect arguments bytes 32 to 63 are reserved. -/
def entryOf (bs : Bytes) : Entry :=
  let tag := leAt bs 2 2
  let b4 := leAt bs 4 1
  let b5 := leAt bs 5 1
  let k := leAt bs 6 2
  let argLen := leAt bs 20 4
  { opcode := BitVec.ofNat 16 (leAt bs 0 2), tag := BitVec.ofNat 12 tag, stream := BitVec.ofNat 5 b4, perdev := b5.testBit 0
    tkind := BitVec.ofNat 2 k, tid := BitVec.ofNat 8 (bits k 2 8), respAddr := BitVec.ofNat 64 (leAt bs 8 8)
    respLen := BitVec.ofNat 32 (leAt bs 16 4), argLen := BitVec.ofNat 32 argLen
    argAddr := if argLen = 0 then 0 else BitVec.ofNat 64 (leAt bs 24 8)
    rsv := decide (bits tag 12 4 ≠ 0 ∨ bits b4 5 3 ≠ 0 ∨ bits b5 1 7 ≠ 0 ∨ bits k 10 6 ≠ 0 ∨ (argLen ≠ 0 ∧ leAt bs 32 32 ≠ 0)) }

/-- The argument bytes of an entry: its own last 40, or the indirect buffer (R342). -/
def argBytes (bs indirect : Bytes) : Bytes :=
  if leAt bs 20 4 = 0 then (bs.drop 24).take 40 else indirect.take (leAt bs 20 4)

/-! ### Arguments (R343) -/

/-- One argument, as the Arguments column of a command's table names it (R343). -/
inductive Arg where
  /-- a field, mask or set of so many bits -/
  | field (bits : Nat)
  /-- a when-block -/
  | when
  /-- entries of so many bytes, as many as the argument with this index counts -/
  | list (count size : Nat)
  /-- entries of so many bytes, one for each bit set in the argument with this index -/
  | each (mask size : Nat)
  /-- as many entries of CTL.PSET as the argument with this index counts: ID and width as in R364, and the value -/
  | params (count : Nat)
  /-- the last argument: entries of so many bytes, up to the end of the buffer -/
  | rest (size : Nat)
  deriving DecidableEq, Repr

/-- Bytes of a field (R343). -/
def fieldBytes (w : Nat) : Nat := if w ≤ 8 then 1 else if w ≤ 16 then 2 else if w ≤ 32 then 4 else 8 * ceilDiv w 64

/-- End of the entries of CTL.PSET that begin at an offset. -/
def paramsEnd (bs : Bytes) : Nat → Nat → Nat
  | 0, o => o
  | n + 1, o => paramsEnd bs n (o + 8 + [8, 8, 16, 32].getD (bits (leAt bs (o + 2) 1) 0 2) 8)

/-- A field with its padding before it: the offset after it and its value, or none where the padding or a bit above the field's
width is not 0 (R5, R343). -/
def takeField (bs : Bytes) (o w : Nat) : Option (Nat × Nat) :=
  let n := fieldBytes w
  let a := roundUp o (min n 8)
  let v := leAt bs a n
  if leAt bs o (a - o) = 0 ∧ v < 2 ^ w then some (a + n, v) else none

/-- Where an argument list ends that begins at an offset; none where it is malformed. `len` is ARG_LEN of an indirect buffer. -/
def argsEnd (bs : Bytes) (len : Option Nat) : List Arg → List Nat → Nat → Option Nat
  | [], _, o => some o
  | .field w :: r, vs, o => match takeField bs o w with
    | some (o, v) => argsEnd bs len r (vs ++ [v]) o
    | none => none
  | .when :: r, vs, o => match takeField bs o 128 with
    | some (o, v) => if v / 2 ^ 82 = 0 then argsEnd bs len r (vs ++ [v]) o else none
    | none => none
  | .list k n :: r, vs, o => argsEnd bs len r (vs ++ [0]) (roundUp o (min n 8) + n * vs.getD k 0)
  | .each k n :: r, vs, o => argsEnd bs len r (vs ++ [0]) (roundUp o (min n 8) + n * popBelow 64 (vs.getD k 0))
  | .params k :: r, vs, o => argsEnd bs len r (vs ++ [0]) (paramsEnd bs (vs.getD k 0) (roundUp o 8))
  | .rest n :: _, _, o => match len with
    | some l => if roundUp o (min n 8) ≤ l ∧ (l - roundUp o (min n 8)) % n = 0 then some l else none
    | none => none

/-- The forms of a command's argument list, by opcode (the command tables; log entry 138 for the widths that no chapter gives). -/
def argForms (op : Nat) : List (List Arg) :=
  let chs := Arg.field 512
  let th := Arg.field 6
  let bank := Arg.field 4
  let ring := Arg.field 3
  let limit := [Arg.field 16, Arg.field 16]
  let pages := [Arg.field 36, Arg.field 17]
  match op with
  | 0x0002 => [[.field 5, .list 0 2]]
  | 0x0003 => [[.field 5, .params 0]]
  | 0x0004 => [[.field 8, .field 64, .field 64]]
  | 0x0005 => [[.field 64, .field 32]]
  | 0x0006 => [[.field 16, .field 16, .field 8, .field 1]]
  | 0x0007 => [[.field 32, .field 8]]
  | 0x0008 => [[.field 8, .field 16, .field 16]]
  | 0x0009 => [[.field 32]]
  | 0x0101 => [[.when]]
  | 0x0103 => [[.when, .field 32]]
  | 0x0104 => [[.field 16]]
  | 0x0200 => [[chs, .field 7, .each 1 4]]
  | 0x0201 => [[chs, .field 2, .field 1]]
  | 0x0202 => [[chs, .field 1, .field 8, .field 8]]
  | 0x0203 => [[chs, .field 1]]
  | 0x0204 => [chs :: .field 7 :: limit]
  | 0x0205 => [[chs, .field 1, .field 10, .field 10, .field 2, .field 2, .field 4, .field 4, .field 2, .field 3]]
  | 0x0206 | 0x0207 | 0x0208 | 0x0307 | 0x0309 | 0x0B01 | 0x0B02 => [[chs]]
  | 0x0300 => [[chs, .when, .field 2, .field 3, .field 16, .field 16]]
  | 0x0301 => [[chs, .when, .field 1]]
  | 0x0302 => [[chs, .when, .field 32]]
  | 0x0303 => [chs :: limit]
  | 0x0304 => [[chs, .when, .field 8, .field 16, .field 1], [chs, .when, .field 8, .field 16, .field 1, bank, ring]]
  | 0x0305 => [[bank, .field 16, .field 16, .list 2 8]]
  | 0x0306 => [[chs, .field 16, .field 1, .when], [chs, .field 16, .field 1, .field 12]]
  | 0x0308 => [[chs, .field 1, .field 3]]
  | 0x0400 => [[th, .field 8, .field 32]]
  | 0x0401 => [[chs, .field 8, .field 128]]
  | 0x0402 => [[chs, .field 16, .field 16]]
  | 0x0403 | 0x0406 | 0x0709 | 0x080B | 0x0904 | 0x0906 => [[bank]]
  | 0x0404 => [[bank, .field 6, .field 2, .field 4, .field 9, .field 4, .field 9, .when, .field 64, .field 64, .field 32, .field 32, .field 32]]
  | 0x0405 => [[bank, .field 6]]
  | 0x0500 => [[th, .field 4]]
  | 0x0501 => [[th, .field 8]]
  | 0x0502 | 0x0503 => [[th, .field 16, .field 16, .list 2 16]]
  | 0x0504 => [[th, .field 4, .field 4]]
  | 0x0505 => [[.field 64, .field 12, .when]]
  | 0x0506 => [[th, .field 12]]
  | 0x0507 | 0x0509 => [[.field 64]]
  | 0x0508 => [[.field 64, .when]]
  | 0x050A => [[.field 5, .field 16, .field 64, .field 1]]
  | 0x050B => [[th]]
  | 0x0600 => [[.field 16, .list 0 4, .rest 4]]
  | 0x0602 => [[bank, .field 16, .field 16]]
  | 0x0700 => [pages ++ [.field 2], pages ++ [.field 2, .list 1 16], pages ++ [.field 2, .field 16]]
  | 0x0701 | 0x0703 => [pages]
  | 0x0702 => [pages ++ [.list 1 4104]]
  | 0x0704 | 0x0705 => [pages ++ [.field 16, .field 1]]
  | 0x0706 => [pages ++ [.field 16]]
  | 0x0707 => [[.field 64, .field 16]]
  | 0x0708 => [[.field 36]]
  | 0x0800 => [[bank, ring, .field 32, .field 32, .field 8]]
  | 0x0801 => [[bank, ring, .field 2, .field 9, .field 1, .field 1, .field 32, .field 32, .field 5, .field 16, .field 16]]
  | 0x0802 => [[bank, ring, .field 256, .when, .field 32]]
  | 0x0803 => [[bank, ring, .when, .field 16]]
  | 0x0804 => [[bank, ring]]
  | 0x0805 => [[bank, .field 8, .when]]
  | 0x0806 => [[bank, ring, .field 16]]
  | 0x0807 => [[.field 64, .field 1, .field 16, .field 1]]
  | 0x0808 => [[chs, .field 1]]
  | 0x0809 => [[.field 2, .when, .field 1, .field 1]]
  | 0x080A => [[.field 17]]
  | 0x0900 => [[bank, .field 8]]
  | 0x0901 => [[.field 16, .list 0 8, .rest 4]]
  | 0x0902 => [[bank, .field 1, .field 16, .rest 8]]
  | 0x0903 => [[bank, .field 8, .field 16, .list 2 8, .field 2, .field 6, .field 5, .field 64, .field 1, .field 1, .field 1, .when],
      [bank, .field 8, .field 16, .list 2 8, .field 2, .field 6, .field 5, .field 64, .field 1, .field 1, .field 1, ring]]
  | 0x0905 => [[bank, .field 1, .field 16, .field 16]]
  | 0x0A00 => [[.field 16, .when, .field 2, .field 3, .field 1, .field 32, .field 32, .field 32]]
  | 0x0A01 => [[.field 16, .when, .field 1]]
  | 0x0A02 => [[.field 16, .when, .field 32]]
  | 0x0A03 => [[.field 16, .field 20, .field 16]]
  | 0x0A04 => [[.field 16, .when, .field 1, .field 32, .field 16]]
  | 0x0A05 | 0x0A07 => [[.field 16]]
  | 0x0A0A | 0x0A0B | 0x0A0C | 0x0D09 | 0x0F02 => [[.rest 1]]
  | 0x0B00 => [[.field 1], [.field 1, chs]]
  | 0x0C00 => [[.field 8, .field 8]]
  | 0x0C02 => [[.field 128]]
  | 0x0D01 => [[.field 48]]
  | 0x0D02 => [[.when, .field 64]]
  | 0x0D06 => [[.field 8, .field 16, .field 16]]
  | 0x0E01 => [[.field 8, .field 256]]
  | 0x0E03 => [[.field 8, .field 8]]
  | 0x0F00 => [[.field 1]]
  | 0x0F03 => [[.field 8]]
  | 0x1000 | 0x1002 => [[.field 32, .field 32]]
  | 0x1001 => [[.field 32, .rest 1]]
  | 0x1004 => [[.field 8, .field 32, .field 16]]
  | _ => [[]]

/-- The argument bytes do not spell a list of the command (R343): it does not end where ARG_LEN ends, it does not fit the 40 inline
bytes, or padding is not 0. The inline bytes after its end are padding (log entry 138). -/
def argsBad (e : Entry) (args : Bytes) : Bool :=
  let len := if e.argLen = 0 then none else some e.argLen.toNat
  !(argForms e.opcode.toNat).any fun f =>
    match argsEnd args len f [] 0 with
    | none => false
    | some o => match len with
      | some l => o == l
      | none => decide (o ≤ 40) && leAt args o (40 - o) == 0

/-! ### Completion entries (R345) -/

/-- The 32 bytes of a completion entry (R345). -/
def cplBytes (c : Cpl) : Bytes :=
  leBytes 32 (packFields [(12, c.tag.toNat), (5, c.stream.toNat), (4, c.status.toNat), (1, bit c.fin), (1, bit c.replaced),
    (1, bit c.late), (1, bit c.gated), (1, bit c.agg), (1, bit c.part), (1, bit c.duptag), (1, bit c.phase), (1, bit c.trunc),
    (1, bit c.sched), (1, 0), (4, c.tq.toNat), (8, c.position.toNat), (4, 0), (16, c.epoch.toNat), (32, c.seq.toNat),
    (64, c.stamp), (16, c.opcode.toNat), (16, c.a.toNat), (8, c.b.toNat), (8, c.c.toNat), (16, c.count.toNat), (32, c.respBytes)])

/-! ### Event entries (R346) -/

/-- Widths of the DATA fields of an event, from bit 0 upwards (R369, R404, R426, R457, R471, R487). -/
def eventWidths (source code : Nat) : List Nat :=
  if source < 512 then
    let j := source % 32
    if j < 4 then [[12], [3, 12], [48, 8], [64]].getD (code - 1) []
    else if j < 12 then [16, 3]
    else if j < 16 then []
    else [5, 2, 2, 1]
  else match source, code with
    | 512, 3 => [1]
    | 512, 5 => [16]
    | 512, 6 => [32]
    | 513, 2 => [16]
    | 513, 3 => [9, 2]
    | 514, 1 => [32]
    | 514, 2 => [2]
    | 515, _ => [6, 8, 16, 1, 1, 16]
    | 516, _ => [32]
    | 517, 1 => [4, 6]
    | 520, 3 => [1, 5]
    | 520, 4 => [16]
    | 520, _ => [2, 16, 7]
    | 521, _ => [4, 16]
    | 530, 2 => [32, 8]
    | 530, 4 => [16]
    | 530, _ => [32]
    | 600, 1 => [8, 8]
    | 600, 3 => [2, 8, 2]
    | 600, _ => [8]
    | 601, 3 => [32]
    | 602, 3 => [32]
    | 603, 3 => [32]
    | 604, 3 => [32]
    | 601, _ => [2]
    | 602, _ => [2]
    | 603, _ => [2]
    | 604, _ => [2]
    | 605, _ => [3]
    | 610, 1 => [4, 2, 2, 2]
    | 610, 2 => [7]
    | 610, 3 => [16]
    | _, _ => []

/-- DATA of an event as a number (R346). -/
def eventData (e : Evt) : Nat :=
  packFields (((eventWidths e.source.toNat e.code.toNat).zip e.data).map fun f => (f.1, twos f.1 f.2))

/-- The 32 bytes of an event entry (R346). -/
def evtBytes (e : Evt) : Bytes :=
  leBytes 32 (packFields [(10, e.source.toNat), (6, 0), (8, e.code.toNat), (1, bit e.phase), (3, 0), (4, e.tq.toNat),
    (8, e.position.toNat), (8, 0), (16, e.epoch.toNat), (32, e.seq.toNat), (64, e.stamp), (96, eventData e)])

/-! ### Result packets (R265) -/

/-- The header of a result packet (R265): POISON and POISON_IDX say which payload word is the first poisoned. -/
def packetHeader (p : Packet) : List (BitVec 64) :=
  let first := p.poison.foldl (fun (m : Option Nat) i => some (match m with | some x => min x i | none => i)) none
  words64 2 (packFields [(8, p.kind.toNat), (8, p.words.length), (8, p.position.toNat), (4, p.tq.toNat), (1, bit first.isSome),
    (3, 0), (16, p.epoch.toNat), (5, p.producer), (3, 0), (8, first.getD 0xFF), (32, p.seq.toNat), (32, 0)])

/-- A result packet as it lies in the result area: header and payload (R348). -/
def packetBytes (p : Packet) : Bytes := wordBytes (packetHeader p ++ p.words)

end Sys2Proof.Machine
end

