-- ==== Sys2Proof/Machine/State.lean ====
section
/-!
DEFINITION. The state of the block as plain data: every register, memory, queue, counter, mode and pin that the spec
gives it, each at its reset value as its default, and the queue of the commands that wait. A table that is mostly at its
reset value (a register file, a memory) is a `Tab`: the list of the cells that differ from it.
-/
namespace Sys2Proof.Machine

/-- A table of values by index, most of which stand at one value that the reader names: the cells that differ from it,
indices rising. -/
structure Tab (α : Type) where
  cells : List (Nat × α) := []
  deriving DecidableEq, Repr, Inhabited

/-- The table with every cell at its default. -/
def Tab.empty {α : Type} : Tab α := ⟨[]⟩

/-- What a scheduled action does when it falls due (R54). -/
inductive ActKind where
  | mark | seqStart | seqResume | pmuSeq | pmuForce | measure | wave | tdc | capArm | capFire | xarm | dspRun
  | miConfig | miForce | miMeasure | inject
  deriving DecidableEq, Repr, Inhabited

/-- The steps of the safe-value sequences of R99 and R299. -/
inductive SeqStep where
  | a | b | c | d | e
  deriving DecidableEq, Repr, Inhabited

/-- A PIN.DRIVER, PIN.LOAD or PMU.DRVI that R86 holds behind a shut-down, with its tag. -/
inductive QueuedPin where
  | driver (mode : BitVec 2) (off : Bool) (tag : BitVec 12)
  | load (iol ioh : BitVec 8) (tag : BitVec 12)
  | drvi (range : BitVec 3) (tag : BitVec 12)
  deriving DecidableEq, Repr

/-- What the driver of a channel puts on its ball. -/
inductive PinOut where
  | hiZ | vil | vih | vtt
  deriving DecidableEq, Repr, Inhabited

/-- The owner of a TDC (R146): nobody, a TDC.ARM command, or a capture ring. -/
inductive TdcOwner where
  | none
  | arm (tag : BitVec 12)
  | ring (r : BitVec 3)
  deriving DecidableEq, Repr, Inhabited

/-- The states of a thread (R151). -/
inductive ThState where
  | idle | armed | run | dead | hold | underrun | chold
  deriving DecidableEq, Repr, Inhabited

/-- The causes that stop or hold a thread (R178, R179). -/
inductive HoldCause where
  | stop | park | contained | request | lost | host | pattern
  deriving DecidableEq, Repr, Inhabited

/-- The kinds of paging fault (R219), the highest first. -/
inductive FaultKind where
  | demand | prefetch | lookahead
  deriving DecidableEq, Repr, Inhabited

/-- The owner of a capture ring or of a DSP lane: a thread or the host (R238, R274). -/
inductive CapOwner where
  | thread (t : BitVec 6)
  | host
  deriving DecidableEq, Repr, Inhabited

/-- Where a command came from: the Command Ring, the tree above, or the USB 2.0 recovery function. -/
inductive Origin where
  | ring | tree | recovery
  deriving DecidableEq, Repr, Inhabited

/-- What an operation of the flash port does (R475). -/
inductive FlashKind where
  | read | write | erase | info | xfer
  deriving DecidableEq, Repr, Inhabited

/-- Where the vectors of a block take their pin codes from (R159, R191). -/
inductive BlockKind where
  | literal | copies | indexed | matching
  deriving DecidableEq, Repr, Inhabited

/-- An entry of a context's vector queue (R196). -/
inductive QEntry where
  /-- `count` vectors of timing set `ts`: literal with dictionary entry `didx`, copies of entry `didx`, or indexed, with
  their data from address `data`; the instruction stands at `va`. -/
  | block (kind : BlockKind) (ts : BitVec 4) (didx : BitVec 8) (count data va : Nat)
  /-- entries `first` to `first + num - 1` from address `data`; with the pause of DLOAD (R159), or without one (DLDW, R191) -/
  | dload (first num data va : Nat) (pause : Bool)
  /-- the next vector starts so many steps after the start of the last vector queued (LPAUS, R191) -/
  | lpaus (steps : Nat)
  /-- JFAIL of R170: SCOPE, SENSE, CLR, MEMBER, TARGET -/
  | jfail (scope sense clr : Bool) (member : BitVec 2) (target : Nat)
  /-- TFF of R191: the site's FF, or a member's -/
  | tff (member : Option (BitVec 2))
  /-- MATCH of R174: it is being tried by the block before it; TOFAIL -/
  | matchEnd (toFail : Bool)
  /-- the next vector starts no earlier than segment start plus OFFSET (R175) -/
  | waitt (offset : Nat)
  /-- arrival at a barrier and wait for its release (R176) -/
  | sync (barrier : BitVec 5)
  /-- TRIG of R159 -/
  | trig (pulse fire : Bool)
  /-- HOLD of R159 -/
  | hold
  /-- end of the segment -/
  | segend
  /-- a program error met here: address and code -/
  | progErr (va code : Nat)
  deriving DecidableEq, Repr

/-- A scheduled action not yet taken (R54, 02_timeline.md); what it does stands in the unit that executes it. -/
structure Act where
  /-- tag of the command that scheduled it (R54). -/
  tag : BitVec 12 := 0
  /-- which unit takes it (R54). -/
  kind : ActKind := .mark
  /-- epoch of the stamp (R48). -/
  epoch : BitVec 16 := 0
  /-- stamp, rounded to its granule (R49). -/
  stamp : Nat := 0
  /-- TL.MARK user tag; the thread mask of SEQ.START; the injection word of FC.INJECT (R55). -/
  user : Nat := 0
  deriving DecidableEq, Repr, Inhabited

/-- The manager's, standalone device's or recovered timeline (02_timeline.md). -/
structure Timeline where
  /-- the count has started (main PLL lock of S2) (R28). -/
  running : Bool := false
  /-- GRAIN and PHASE as one 64-bit count of phase steps in the epoch (R11, R28). -/
  now : Nat := 0
  /-- phase steps that passed before stamp 0 of this epoch, so that durations outlive a rewind and Tamp's replacement of a count (R40). The model's own. -/
  base : Int := 0
  /-- current epoch (P.0100) (R40). -/
  epoch : BitVec 16 := 0
  /-- the reference is warm; REF_COLD is its negation (P.0101 bit 0, reset 1) (R33). -/
  warm : Bool := false
  /-- TL_LOCAL (R29, R31). -/
  tlLocal : Bool := false
  /-- TL_HOLDOVER (R31, R38). -/
  holdover : Bool := false
  /-- instant at which holdover began (R39). Reset value: DESIGN CHOICE (log 3). -/
  holdSince : Nat := 0
  /-- filtered REF_WARM level (R34). -/
  warmFiltered : Bool := false
  /-- instant from which samples of the other REF_WARM level count towards the next change of the filtered level (R34). The model's own. -/
  warmFrom : Nat := 0
  /-- REF_WARM at the last 1 us sample (TL_REF bit 0; internal pull-down) (R506). -/
  refWarmPin : Bool := false
  /-- a REF_IN edge within the last 40 ns (TL_REF bit 1) (R506). -/
  refPresent : Bool := false
  /-- a stability window is in progress (TL_REF bit 2) (R506). -/
  stabRun : Bool := false
  /-- last stability verdict passed (R35). -/
  lastPass : Bool := false
  /-- instant at which the stability check started (R35). Reset value: DESIGN CHOICE (log 3). -/
  stabSince : Nat := 0
  /-- verdicts given since the stability check started: the next window ends 1 s after the last (R35). -/
  verdicts : Nat := 0
  /-- P.0102 TL_STAB_LAST (R56). -/
  stabLast : BitVec 32 := 0x80000000
  /-- P.0103 TL_WARM_STAMP (R56). -/
  warmStamp : Nat := 0
  /-- P.0107 TL_WARM_EPOCH (R56). -/
  warmEpoch : BitVec 16 := 0
  /-- P.0104 TL_HOLDOVER_LIMIT, microseconds (R56). -/
  holdoverLimit : Nat := 10000
  /-- P.0101 bits 7:6, source of the count (R56). -/
  source : BitVec 2 := 0
  /-- pending rewind stamp S (R40, R41). -/
  rewind : Option Nat := none
  /-- tag of the TL.REWIND that waits for its effect (R55). -/
  rewindTag : Option (BitVec 12) := none
  /-- that TL.REWIND moved S under LATE_OK (R50). -/
  rewindLate : Bool := false
  /-- the end-of-count event of this epoch was posted (R45). -/
  nearEnd : Bool := false
  /-- scheduled actions not yet taken (R54). -/
  acts : List Act := []
  /-- epoch and grain of the last timeline marker received (R390). -/
  marker : Option (BitVec 16 × Nat) := none
  /-- sender's TQ of that marker (R390). -/
  upTq : BitVec 4 := 0
  /-- warm-state change received for a stamp that lies ahead: state, epoch, stamp (R36). -/
  warmPend : Option (Bool × BitVec 16 × Nat) := none
  /-- instant up to which REF_COLD last held (R31). The model's own. -/
  heldCold : Option Nat := none
  /-- instant up to which TL_LOCAL last held (R31). The model's own. -/
  heldLocal : Option Nat := none
  /-- instant up to which TL_HOLDOVER last held (R31). The model's own. -/
  heldOver : Option Nat := none
  /-- RC parameters (by ID) and W1C register bits (at 0x10000 plus the offset) as they stood when the present stamp was reached (R7, R8). The model's own. -/
  before : Tab Nat := .empty
  deriving DecidableEq, Repr, Inhabited

/-- A pending level word (R70, R71, 03_pin_channel.md). -/
structure PendLevel where
  /-- CODE (R65). -/
  code : BitVec 14 := 0
  /-- PARK (R65). -/
  park : Bool := true
  /-- SPAN (R65). -/
  span : BitVec 2 := 2
  /-- command that wrote it (R72). -/
  tag : BitVec 12 := 0
  deriving DecidableEq, Repr, Inhabited

/-- One level DAC and its slew limiter (R65 to R72, 03_pin_channel.md). -/
structure Level where
  /-- CODE in effect: the limiter's target (R65). -/
  code : BitVec 14 := 0
  /-- PARK in effect (R65). -/
  park : Bool := true
  /-- SPAN in effect (R65). -/
  span : BitVec 2 := 2
  /-- code that the string carries now (R69). Reset value: DESIGN CHOICE (log 3). -/
  applied : BitVec 14 := 0
  /-- limiter STEP (R69). -/
  step : Nat := 16383
  /-- limiter INTERVAL in sequencer clocks (R69). -/
  interval : Nat := 0
  /-- start of clock c0 plus the moves made: stamp of the last move of a ramp in progress (R69). -/
  ramp : Option Int := none
  /-- command whose value is on its way (R72). -/
  rampTag : Option (BitVec 12) := none
  /-- pending value (R70). -/
  pend : Option PendLevel := none
  deriving DecidableEq, Repr, Inhabited

/-- The monitor comparator of a channel (R77 to R84, 03_pin_channel.md). -/
structure Monitor where
  /-- enabled (R73). -/
  en : Bool := false
  /-- the start check of R81 is made on the first sample (log 10) (R81). The model's own. -/
  starting : Bool := false
  /-- MON_LO (R77). Reset value: DESIGN CHOICE (log 3). -/
  lo : BitVec 10 := 0
  /-- MON_HI (R77). Reset value: DESIGN CHOICE (log 3). -/
  hi : BitVec 10 := 0
  /-- MON_HYST (R77). -/
  hyst : BitVec 2 := 0
  /-- MON_MODE (R79). -/
  mode : BitVec 2 := 3
  /-- N (R78). Reset value: DESIGN CHOICE (log 3). -/
  n : BitVec 4 := 1
  /-- M (R78). Reset value: DESIGN CHOICE (log 3). -/
  m : BitVec 4 := 1
  /-- MON_ACTION (R83). -/
  action : BitVec 2 := 0
  /-- MON_ACT_STATES (R83). -/
  states : BitVec 3 := 7
  /-- output of the MON_LO comparator (R77). -/
  aboveLo : Bool := false
  /-- output of the MON_HI comparator (R77). -/
  aboveHi : Bool := false
  /-- filtered state (R78). Reset value: DESIGN CHOICE (log 3). -/
  filt : BitVec 2 := 0
  /-- last M raw states, newest first (R78). -/
  hist : List (BitVec 2) := []
  /-- for the last M samples: outside both bands (R81). -/
  outside : List Bool := []
  /-- UNRESOLVED (R81). -/
  unresolved : Bool := false
  /-- suppressed-event count, cleared by PIN.MON_READ (R84). -/
  suppressed : Nat := 0
  /-- instant of the last monitor event (R84). -/
  lastEvent : Option Nat := none
  /-- instant of the next sample; none before the first one (R79). -/
  next : Option Nat := none
  deriving DecidableEq, Repr, Inhabited

/-- A range, mode, connect or disconnect change (R99, 04_pmu_and_force.md). -/
structure PmuChange where
  /-- command; none for a park, Decaf mode or a fault (R101). -/
  tag : Option (BitVec 12) := none
  /-- effect stamp (R101). -/
  stamp : Nat := 0
  /-- its epoch (R101). -/
  epoch : BitVec 16 := 0
  /-- connect or disconnect; none for a PMU.CONFIG (R104). -/
  conn : Option Bool := none
  /-- PMU_MODE asked for (R90). -/
  mode : BitVec 2 := 0
  /-- PMU_RANGE asked for (R91). -/
  range : BitVec 3 := 4
  /-- V_LIM_LO asked for (R92). -/
  lo : BitVec 16 := 0
  /-- V_LIM_HI asked for (R92). -/
  hi : BitVec 16 := 65535
  deriving DecidableEq, Repr, Inhabited

/-- A sequence of R99 in progress. -/
structure PmuSeq where
  /-- step A to E (R99). -/
  step : SeqStep := .a
  /-- stamp at which the step ends (R99). -/
  ends : Nat := 0
  /-- the change it carries out (R99). -/
  change : PmuChange := {}
  /-- a second change held until step D ends (R102). -/
  held : Option PmuChange := none
  /-- the ramp of this step uses the safety ramp (R97). -/
  safety : Bool := false
  /-- end of a closing of the switch that a disconnect waits for (R102). -/
  closing : Option Nat := none
  /-- further disconnect commands that end with this one (R86, R103). -/
  also : List (BitVec 12) := []
  deriving DecidableEq, Repr, Inhabited

/-- A measurement that owns the ADC (R106 to R111, R114). -/
structure Meas where
  /-- command (R109). -/
  tag : BitVec 12 := 0
  /-- of a stored waveform (R110). -/
  wave : Bool := false
  /-- stamp of the next sample (R108). -/
  start : Nat := 0
  /-- the first sample of the command was taken (R108). -/
  began : Bool := false
  /-- AVG_LOG2 (R107). -/
  k : Nat := 0
  /-- results still to come (R109). -/
  left : Nat := 1
  /-- samples of the current result (R107). -/
  n : Nat := 0
  /-- 34-bit signed accumulator (R107). -/
  acc : Int := 0
  /-- OVER (R106). -/
  ovr : Bool := false
  /-- COMPLIANCE (R91). -/
  comp : Bool := false
  /-- RANGING (R101). -/
  ranging : Bool := false
  /-- SLEWING (R111). -/
  slewing : Bool := false
  /-- time quality gathered over the interval (R31). -/
  tq : BitVec 4 := 0
  /-- stamp of the first sample of the current result (R108). -/
  first : Nat := 0
  /-- epoch of that stamp (R108). -/
  epoch : BitVec 16 := 0
  /-- range at the first sample (R111). -/
  range : BitVec 3 := 0
  /-- mode at the first sample (R111). -/
  mode : BitVec 2 := 0
  /-- capture ring for DEST 1 (R109). -/
  ring : Option (BitVec 4 × BitVec 3) := none
  /-- STEP_INDEX (R111). -/
  index : Nat := 65535
  deriving DecidableEq, Repr, Inhabited

/-- A stored waveform pending or running on a channel (R113 to R118). -/
structure Wave where
  /-- command (R115). -/
  tag : BitVec 12 := 0
  /-- start index (R115). -/
  first : Nat := 0
  /-- entry being played (R113). -/
  idx : Nat := 0
  /-- segment that it is bound to (R115). -/
  bind : Option (BitVec 12) := none
  /-- it has started (R116). -/
  running : Bool := false
  /-- stamp of the start, or of the end of the entry being played (R114). -/
  next : Nat := 0
  deriving DecidableEq, Repr, Inhabited

/-- The per-pin PMU of a channel (04_pmu_and_force.md). -/
structure Pmu where
  /-- PMU_MODE (R90). -/
  mode : BitVec 2 := 0
  /-- PMU_RANGE (R91). -/
  range : BitVec 3 := 4
  /-- V_LIM_LO (R92). -/
  lo : BitVec 16 := 0
  /-- V_LIM_HI (R92). -/
  hi : BitVec 16 := 65535
  /-- voltage target (R94). -/
  vTarget : BitVec 16 := 12288
  /-- current target (R94). -/
  iTarget : BitVec 16 := 32768
  /-- code applied now (0 V at power-up) (R73, R95). -/
  applied : BitVec 16 := 12288
  /-- last forcing mode, whose safe value holds in OFF and MV (R95). Reset value: DESIGN CHOICE (log 3). -/
  lastForce : BitVec 2 := 1
  /-- limiter STEP (R96). -/
  step : Nat := 65535
  /-- limiter INTERVAL (R96). -/
  interval : Nat := 0
  /-- connect switch closed (R73). -/
  closed : Bool := false
  /-- the second connect switch is in use (R105). -/
  second : Bool := false
  /-- sequence in progress (R99). -/
  seq : Option PmuSeq := none
  /-- changes accepted whose effect stamp lies ahead, oldest first (R101). -/
  sched : List PmuChange := []
  /-- changes QUEUED behind a disconnect, oldest first (R103). -/
  queued : List PmuChange := []
  /-- stamp of the last move of a ramp in progress (R96). -/
  ramp : Option Int := none
  /-- PMU.FORCE whose ramp is in progress or kept over a sequence (R98). -/
  forceTag : Option (BitVec 12) := none
  /-- force words whose effect stamp lies ahead, with that stamp (R98). -/
  forceSched : List (BitVec 12 × BitVec 32 × Nat) := []
  /-- measurement that owns the ADC (R110). -/
  meas : Option Meas := none
  /-- driver-current measurement enabled (R112). -/
  drvi : Bool := false
  /-- its range (R112). Reset value: DESIGN CHOICE (log 3). -/
  drviRange : BitVec 3 := 4
  /-- waveform pending or running (R110). -/
  wave : Option Wave := none
  deriving DecidableEq, Repr, Inhabited

/-- A PIN.DRIVER setting that waits for the end of a vector (R88). -/
structure DrvPend where
  /-- DRV_MODE (R57). -/
  mode : BitVec 2 := 0
  /-- OFF_MODE (R58). -/
  off : Bool := false
  /-- its command (R88). -/
  tag : BitVec 12 := 0
  /-- stamp of the vector boundary (R88). -/
  stamp : Nat := 0
  deriving DecidableEq, Repr, Inhabited

/-- One pin channel (03_pin_channel.md, with its timing and PMU). -/
structure Chan where
  /-- DRV_MODE (R57). -/
  drvMode : BitVec 2 := 0
  /-- OFF_MODE (R58). -/
  offMode : Bool := false
  /-- PIN.DRIVER setting that waits for the next vector boundary (R88). -/
  drvPend : Option DrvPend := none
  /-- active load enable (R61). -/
  loadEn : Bool := false
  /-- IOL code (R61). -/
  iol : BitVec 8 := 0
  /-- IOH code (R61). -/
  ioh : BitVec 8 := 0
  /-- clamp enable (R63). -/
  clampEn : Bool := false
  /-- TRIPPED (R83). -/
  tripped : Bool := false
  /-- seven level DACs: VIH VIL VTT VOH VOL CLAMP_HI CLAMP_LO (unlisted: Level.reset) (R65). -/
  levels : Tab Level := .empty
  /-- monitor comparator (R77). -/
  mon : Monitor := {}
  /-- enables QUEUED behind a shut-down, oldest first (R86). -/
  queuedCmds : List QueuedPin := []
  /-- PIN.PARK commands that wait for this channel (R76). -/
  parkTags : List (BitVec 12) := []
  /-- it is parked once its thread is held (R76, R178). -/
  parkHeld : Bool := false
  /-- what the drive transitions that have passed have left: drive off, or the level VIH (R128, R129, R152). -/
  drive : Option Bool := none
  /-- drive transitions that are placed and still to come, with their stamps, rising (R128, R133). -/
  moves : List (Nat × Option Bool) := []
  /-- clock in which pending values take effect that no running thread holds back (R70, R135). -/
  pendAt : Option Nat := none
  /-- effective pin state of the previous vector (R156). -/
  eff : BitVec 4 := 2
  /-- edge table TS0 to TS15 (unlisted: 0) (R127). -/
  edges : Tab (BitVec 128) := .empty
  /-- pending edge entries with their command (R135). -/
  edgePend : Tab (Option (BitVec 128 × BitVec 12)) := .empty
  /-- DRV_DESKEW (R132). -/
  drvDeskew : Int := 0
  /-- CMP_DESKEW (R132). -/
  cmpDeskew : Int := 0
  /-- pending DRV_DESKEW (R135). -/
  drvDeskewPend : Option (Int × BitVec 12) := none
  /-- pending CMP_DESKEW (R135). -/
  cmpDeskewPend : Option (Int × BitVec 12) := none
  /-- level that the driver last drove: VIH (R128). Reset value: DESIGN CHOICE (log 3). -/
  high : Bool := false
  /-- stamp of the last drive transition placed (R131). -/
  lastDrive : Option Nat := none
  /-- timing slice when moved from the power-up slice SLj (R122). -/
  slice : Option (BitVec 6) := none
  /-- NO_SLICE (R124). -/
  noSlice : Bool := false
  /-- SQUEEZE count, cleared by TIM.MAP (R131). -/
  squeeze : Nat := 0
  /-- fail count (R244). -/
  failCount : BitVec 32 := 0
  /-- PMU (R90). -/
  pmu : Pmu := {}
  /-- levels marked DAC_FAIL (R421). -/
  dacFail : BitVec 7 := 0
  /-- PMU_FAIL (R421). -/
  pmuFail : Bool := false
  /-- SW_FAIL (R421). -/
  swFail : Bool := false
  /-- closures of the first connect switch (R105, R424). -/
  wear0 : Nat := 0
  /-- closures of the second connect switch (R105, R424). -/
  wear1 : Nat := 0
  deriving DecidableEq, Repr, Inhabited

/-- Health of a timing slice (R122, R421). -/
structure Slice where
  /-- health verdict at S10 (R122). -/
  failed : Bool := false
  /-- drift measured at S10 (R149). Reset value: DESIGN CHOICE (log 3). -/
  drift : Int := 0
  deriving DecidableEq, Repr, Inhabited

/-- The TDC of a slice, or an auxiliary TDC (R137 to R147, 05_edges_and_tdc.md). -/
structure Tdc where
  /-- owner (R146). -/
  owner : TdcOwner := .none
  /-- MODE (R140). -/
  mode : BitVec 2 := 0
  /-- START source (R137). -/
  startSrc : BitVec 4 := 0
  /-- START channel (R138). -/
  startCh : BitVec 9 := 0
  /-- STOP source (R137). -/
  stopSrc : BitVec 4 := 0
  /-- STOP channel (R138). -/
  stopCh : BitVec 9 := 0
  /-- START stamp of a TIMELINE start (R141). -/
  startAt : Nat := 0
  /-- OPEN (R139). -/
  openAt : Nat := 0
  /-- CLOSE (R139). -/
  closeAt : Nat := 0
  /-- epoch of the window (R139). -/
  epoch : BitVec 16 := 0
  /-- REPEAT (R141). -/
  rep : Nat := 0
  /-- k of 2^k repeats, or log2 of the prescale P (R140). -/
  k : Nat := 0
  /-- COUNT (R140). -/
  count : Nat := 0
  /-- OPEN was moved under LATE_OK (R139). -/
  late : Bool := false
  /-- a window is open (R139). -/
  isOpen : Bool := false
  /-- index of the repeat in progress (R141). -/
  i : Nat := 0
  /-- last edge accepted on the START input (R143). -/
  lastStart : Option Nat := none
  /-- last edge accepted on the STOP input (R143). -/
  lastStop : Option Nat := none
  /-- STOP edges seen by the prescaler (R142). -/
  passed : Nat := 0
  /-- START edge of this repeat (R141). -/
  start : Option Nat := none
  /-- STOP edge of this repeat (R141). -/
  stop : Option Nat := none
  /-- START of repeat 0 (R145). -/
  firstStart : Option Nat := none
  /-- first edge of a PERIOD measurement (R142). -/
  t0 : Option Nat := none
  /-- last edge of a PERIOD measurement (R142). -/
  tN : Nat := 0
  /-- edges reported (STAMP) or counted after t0 (PERIOD) (R140). -/
  edges : Nat := 0
  /-- 64-bit signed accumulator (R144). -/
  sum : Int := 0
  /-- intervals included (R144). -/
  c : Nat := 0
  /-- smallest interval or spacing (R145). -/
  min : Int := 0
  /-- largest interval or spacing (R145). -/
  max : Int := 0
  /-- NOSTART (R145). -/
  noStart : Bool := false
  /-- NOSTOP (R145). -/
  noStop : Bool := false
  /-- MISSED (R145). -/
  missed : Bool := false
  /-- time quality gathered (R31). -/
  tq : BitVec 4 := 0
  deriving DecidableEq, Repr, Inhabited

/-- An open pattern LOOP (R159, 06_sequencer.md). -/
structure Loop where
  /-- address of its body (R159). -/
  addr : Nat := 0
  /-- passes still to run, the present one included (R159). -/
  left : Nat := 0
  deriving DecidableEq, Repr, Inhabited

/-- A latched jump request (R172). -/
structure Jump where
  /-- segment (R172). -/
  seg : BitVec 12 := 0
  /-- latch stamp (R172). -/
  latch : Nat := 0
  /-- SEQ.JUMP command; none for a trigger action (R172). -/
  tag : Option (BitVec 12) := none
  deriving DecidableEq, Repr, Inhabited

/-- A micro-context and its vector queue (R188, R196, 07_microcode.md). -/
structure Ctx where
  /-- a routine of microwords is running (R190). -/
  active : Bool := false
  /-- micro-program counter (R188). -/
  upc : BitVec 13 := 0
  /-- U1 to U15 (unlisted: 0) (R188). -/
  u : Tab (BitVec 32) := .empty
  /-- flag Z (R188). -/
  z : Bool := false
  /-- flag N (R188). -/
  n : Bool := false
  /-- flag C (R188). -/
  c : Bool := false
  /-- IW (R188). -/
  iw : BitVec 64 := 0
  /-- address of IW (R160). -/
  iwAddr : Nat := 0
  /-- vector queue, at most 4 entries, front first, each with the earliest stamp at which it may start (R196). -/
  queue : List (QEntry × Nat) := []
  /-- stamp up to which the engine has run (R190). -/
  clock : Nat := 0
  /-- engine clocks since the last safe point (R197). -/
  sinceSafe : Nat := 0
  /-- the context stands at a safe point (R197, R198). -/
  safe : Bool := true
  /-- the context waits at a micro-operation (R197). -/
  waiting : Bool := false
  /-- outcome of the last MATCH run (R191). -/
  matched : Bool := false
  deriving DecidableEq, Repr, Inhabited

/-- What a segment gathers for its record (R182, 06_sequencer.md). -/
structure SegStat where
  /-- the segment has started and not ended (R164). -/
  isOpen : Bool := false
  /-- segment start stamp (R164). -/
  start : Nat := 0
  /-- failing vectors (R182). -/
  fails : Nat := 0
  /-- failing vectors of the thread's own pins (R243). -/
  own : Nat := 0
  /-- stall time in phase steps (R182). -/
  stall : Nat := 0
  /-- vectors issued in the segment (R243). -/
  vecs : Nat := 0
  /-- start of its first failing vector (R171). -/
  firstFail : Option Nat := none
  /-- start of its last failing vector (R171). -/
  lastFail : Option Nat := none
  /-- SF was set by something other than a vector's compare (R168). -/
  otherSf : Bool := false
  /-- ABORTED (R180). -/
  aborted : Bool := false
  /-- UNDERRUN (R182). -/
  underrun : Bool := false
  /-- SQUEEZE (R131). -/
  squeeze : Bool := false
  /-- STALL (R162). -/
  stalled : Bool := false
  /-- MATCH_TO (R174). -/
  matchTo : Bool := false
  /-- SYNC_BROKEN (R176). -/
  syncBroken : Bool := false
  /-- LATEWAIT (R175). -/
  lateWait : Bool := false
  /-- THROTTLED (R181). -/
  throttled : Bool := false
  /-- fail-log entries committed in this segment (R243). -/
  logged : Nat := 0
  deriving DecidableEq, Repr, Inhabited

/-- What a flow gathers for its summary (R184). -/
structure FlowStat where
  /-- flow start stamp (R184). -/
  start : Nat := 0
  /-- segments run (R184). -/
  segments : Nat := 0
  /-- underrun gaps (R184). -/
  gaps : Nat := 0
  /-- vectors issued (R184). -/
  vectors : Nat := 0
  /-- failing vectors (R184). -/
  fails : Nat := 0
  /-- start of the first failing vector (R184). -/
  firstFail : Option Nat := none
  /-- gap, hold and stall time (R184). -/
  paused : Nat := 0
  /-- ANYFAIL (R184). -/
  anyFail : Bool := false
  /-- OR of record bits 41:34 (R184). -/
  flags : BitVec 8 := 0
  /-- END (R184). -/
  endCode : BitVec 3 := 0
  deriving DecidableEq, Repr, Inhabited

/-- A vector that has started and whose strobes are still to be judged (R64, R155, 06_sequencer.md). -/
structure Strobe where
  /-- its start (R164). -/
  start : Nat := 0
  /-- its period (R162). -/
  period : Nat := 0
  /-- effective codes of the thread's pins (R156). -/
  codes : BitVec 128 := 0
  /-- timing set (R126). -/
  ts : Nat := 0
  /-- address of its block instruction (R243). -/
  va : Nat := 0
  /-- index in the segment (R243). -/
  index : Nat := 0
  /-- issued by MATCH (R174). -/
  isMatch : Bool := false
  /-- a MATCH tries it: it is not a further copy (R174). -/
  isTry : Bool := false
  deriving DecidableEq, Repr, Inhabited

/-- One sequencer thread (06_sequencer.md). -/
structure Thread where
  /-- state (R151). -/
  st : ThState := .idle
  /-- lane groups of its bank that it owns (R17, R153). -/
  groups : BitVec 4 := 0
  /-- lead of the link it belongs to (R153). -/
  lead : Option (BitVec 6) := none
  /-- members of the link, on its lead (R153). -/
  members : Nat := 1
  /-- first segment named by SEQ.START (R164). Reset value: DESIGN CHOICE (log 3). -/
  firstSeg : BitVec 12 := 0
  /-- stamp at which it last became idle (R327). Reset value: DESIGN CHOICE (log 3). -/
  idleAt : Nat := 0
  /-- start stamp (R164). Reset value: DESIGN CHOICE (log 3). -/
  startAt : Nat := 0
  /-- epoch of the start stamp (R164). Reset value: DESIGN CHOICE (log 3). -/
  startEpoch : BitVec 16 := 0
  /-- SEQ.START that armed it (R54). Reset value: DESIGN CHOICE (log 3). -/
  startTag : BitVec 12 := 0
  /-- current segment (R182). Reset value: DESIGN CHOICE (log 3). -/
  seg : BitVec 12 := 0
  /-- segment already chosen for the next start (R166). -/
  chosen : Option (BitVec 12) := none
  /-- address of the next instruction word (R158). Reset value: DESIGN CHOICE (log 3). -/
  pc : Nat := 0
  /-- open loops, innermost first (R164). -/
  loops : List Loop := []
  /-- call stack (R164). -/
  calls : List Nat := []
  /-- FF (R168). -/
  ff : Bool := false
  /-- SF (R168). -/
  sf : Bool := false
  /-- latched jump request (R172). -/
  jump : Option Jump := none
  /-- SEQ.JUMP that has been taken and whose segment has not yet started (R172). -/
  jumpTaken : Option (BitVec 12) := none
  /-- hold and stop causes latched and not yet taken (R178). -/
  causes : List HoldCause := []
  /-- latch stamp of the first of the hold causes that stand (R178). -/
  latch : Option Nat := none
  /-- stamp at which the SEQ.STOP that stands arrived (R199). -/
  stopAt : Option Nat := none
  /-- end of the pause that a waiting micro-operation, already settled, still keeps the thread in (R170, R199). -/
  waitEnd : Option Nat := none
  /-- SEQ.HOLD and SEQ.STOP commands that wait for this thread (R185). -/
  holdTags : List (BitVec 12) := []
  /-- SEQ.RESUME scheduled: tag, epoch, stamp (R179). -/
  resumeAt : Option (BitVec 12 × BitVec 16 × Nat) := none
  /-- stamp at which the held state was entered (R184). Reset value: DESIGN CHOICE (log 3). -/
  heldAt : Nat := 0
  /-- stamp at which the vector pipeline needs its next entry (R162). Reset value: DESIGN CHOICE (log 3). -/
  next : Nat := 0
  /-- start and period of the last vector issued since SEQ.START (R169). -/
  lastVec : Option (Nat × Nat) := none
  /-- vectors of the block at the queue's front already issued (R180). Reset value: DESIGN CHOICE (log 3). -/
  inBlock : Nat := 0
  /-- address of the block instruction of the last vector (R243). Reset value: DESIGN CHOICE (log 3). -/
  blockVa : Nat := 0
  /-- vectors whose strobes are still to be judged, oldest first (R155). -/
  strobes : List Strobe := []
  /-- a TRIG with FIRE waits for the start of the next vector (R246). -/
  fire : Bool := false
  /-- start of the last vector of MATCH tried, or of the matching one (true) (R174). -/
  matchAt : Option (Nat × Bool) := none
  /-- end of the dead time in progress (R164). Reset value: DESIGN CHOICE (log 3). -/
  deadEnd : Nat := 0
  /-- the dead time in progress ends the flow (R166). -/
  ended : Bool := false
  /-- thermal throttle was in force at the start of this segment (R181). -/
  throttle : Bool := false
  /-- stamp from which the next entry may start: 256 phase steps after the start of the last one (R162, R196). Reset value: DESIGN CHOICE (log 3). -/
  dispatchFrom : Nat := 0
  /-- segment record being gathered (R182). -/
  segStat : SegStat := {}
  /-- flow summary being gathered (R184). -/
  flow : FlowStat := {}
  /-- start and missing address of the gap in progress (R183). -/
  gap : Option (Nat × Nat) := none
  /-- stamp at which residency was confirmed (R180). -/
  residentAt : Option Nat := none
  /-- 64-byte lines in the prefetch buffer, at most 64, newest first (R162). -/
  lines : List Nat := []
  /-- dictionary (unlisted: every code 0x6) (R157). -/
  dict : Tab (BitVec 128) := .empty
  /-- segment descriptors (unlisted: 0) (R163). -/
  descs : Tab (BitVec 128) := .empty
  /-- period table (unlisted: 1,024) (R126). -/
  periods : Tab Nat := .empty
  /-- pending period entries (R135). -/
  periodPend : Tab (Option (Nat × BitVec 12)) := .empty
  /-- clock in which they take effect when no flow holds them back (R135). -/
  pendAt : Option Nat := none
  /-- Drip-feed DEPTH (P.0700 at SEQ.ASSIGN) (R226). -/
  depth : Nat := 8
  /-- items still to be committed are poisoned (R178). -/
  poison : Bool := false
  /-- barrier at which it waits (R176). -/
  barrier : Option (BitVec 5) := none
  /-- FFR (R243). -/
  ffr : Bool := false
  /-- LOG_LIMIT (R243). -/
  logLimit : Nat := 0
  /-- COUNT_SNAP (R243). -/
  snap : Bool := false
  /-- micro-context (R188). -/
  ctx : Ctx := {}
  deriving DecidableEq, Repr, Inhabited

/-- A tree-wide barrier (R176, R177). -/
structure Barrier where
  /-- participant count; 0 when not configured (R176). -/
  count : Nat := 0
  /-- TIMEOUT in grains (R176). -/
  timeout : Nat := 0
  /-- participants of the open generation (R176, R177). -/
  need : Nat := 0
  /-- first arrival stamp of the open generation (R176). -/
  opened : Option Nat := none
  /-- sites that have arrived (R176). -/
  arrived : Nat := 0
  /-- last arrival stamp (R176). -/
  last : Nat := 0
  /-- release stamp (R176). -/
  release : Option Nat := none
  /-- the generation is broken (R176). -/
  broken : Bool := false
  /-- sites released (R176). -/
  passed : Nat := 0
  deriving DecidableEq, Repr, Inhabited

/-- A TRIG_OUT ball (R165). -/
structure TrigOut where
  /-- owning thread (R165). -/
  owner : Option (BitVec 6) := none
  /-- end of the pulse in progress (R165). -/
  highUntil : Option Nat := none
  deriving DecidableEq, Repr, Inhabited

/-- A pattern SRAM tile and its tag (R210, R211, 08_pattern_store.md). -/
structure Tile where
  /-- VPN (R211). Reset value: DESIGN CHOICE (log 3). -/
  vpn : Nat := 0
  /-- VALID (R211, R235). -/
  valid : Bool := false
  /-- CHECKED (R211). -/
  checked : Bool := false
  /-- BAD (R211). -/
  bad : Bool := false
  /-- FILLING (R211). -/
  filling : Bool := false
  /-- OWN (R211). -/
  own : BitVec 4 := 0
  /-- PIN (R211). -/
  pin : Bool := false
  /-- GEN (R211). Reset value: DESIGN CHOICE (log 3). -/
  gen : BitVec 12 := 0
  /-- CRC (R211). Reset value: DESIGN CHOICE (log 3). -/
  crc : BitVec 32 := 0
  /-- order of entry of the page, for eviction (R225). Reset value: DESIGN CHOICE (log 3). -/
  entered : Nat := 0
  /-- the working tile is out of use, or stands for none (R234). -/
  out : Bool := false
  /-- 512 words (unlisted: 0) (R210). Reset value: DESIGN CHOICE (log 15). -/
  data : Tab (BitVec 64) := .empty
  deriving DecidableEq, Repr, Inhabited

/-- A queued paging fault (R219). -/
structure PFault where
  /-- page (R219). -/
  vpn : Nat := 0
  /-- bank (R219). -/
  bank : BitVec 4 := 0
  /-- highest kind that joined it (R219). -/
  kind : FaultKind := .lookahead
  /-- instant at which it was raised (R237). -/
  raised : Nat := 0
  deriving DecidableEq, Repr, Inhabited

/-- The fill in progress, with the context that pre-emption saves (R220, R222). -/
structure Fill where
  /-- page (R222). -/
  vpn : Nat := 0
  /-- target tiles by bank (R221). -/
  tiles : List (BitVec 4 × Nat) := []
  /-- next granule to write, 0 to 64 (R222). -/
  granule : Nat := 0
  /-- running CRC state (R222). -/
  crc : BitVec 32 := 0
  /-- GEN read at step 4 (R220). -/
  gen : BitVec 12 := 0
  /-- CRC read at step 4 (R220). -/
  want : BitVec 32 := 0
  /-- pre-empted (R222). -/
  suspended : Bool := false
  /-- kind of the fault that began it (R219). -/
  kind : FaultKind := .lookahead
  /-- instant of that fault (R237). -/
  raised : Nat := 0
  /-- words read so far (R220). -/
  data : Tab (BitVec 64) := .empty
  deriving DecidableEq, Repr, Inhabited

/-- A page table entry (R216). -/
structure Pte where
  /-- VALID (R216, R235). -/
  valid : Bool := false
  /-- TIER (R216). -/
  tier : BitVec 2 := 0
  /-- BAD (R216). -/
  bad : Bool := false
  /-- RES (R216). -/
  res : BitVec 16 := 0
  /-- PIN (R216). -/
  pin : BitVec 16 := 0
  /-- GEN (R216). -/
  gen : BitVec 12 := 0
  /-- CRC (R216). -/
  crc : BitVec 32 := 0
  /-- FRAME (R216). -/
  frame : BitVec 52 := 0
  deriving DecidableEq, Repr, Inhabited

/-- A PAT.PREFETCH in progress (R236). -/
structure Prefetch where
  /-- command (R236). -/
  tag : BitVec 12 := 0
  /-- bank and page not yet resident (R219). -/
  todo : List (BitVec 4 × Nat) := []
  /-- the tile check is to run (R236). -/
  check : Bool := false
  deriving DecidableEq, Repr, Inhabited

/-- Samples of a record in consecutive slots of its ring, from index `idx` of the record on (R240, R241). -/
structure Piece where
  /-- ring slot of the first of them (R240). -/
  slot : Nat := 0
  /-- its index in the record (R266). -/
  idx : Nat := 0
  /-- how many they are (R241). -/
  count : Nat := 0
  deriving DecidableEq, Repr, Inhabited

/-- A closed record whose samples are still in its ring (R242, R253). -/
structure Closed where
  /-- record number (R257). -/
  record : Nat := 0
  /-- its samples that have not moved to the Carafe, in order (R241, R253). -/
  parts : List Piece := []
  deriving DecidableEq, Repr, Inhabited

/-- The record that a ring holds in progress (R250 to R257). -/
structure Rec where
  /-- FIRST (R257). -/
  first : Nat := 0
  /-- START_SLOT (R257). -/
  slot : Nat := 0
  /-- pre-trigger samples held (R257). -/
  pre : Nat := 0
  /-- samples from the trigger sample onwards held (R257). -/
  got : Nat := 0
  /-- POST in force (R250). -/
  post : Nat := 0
  /-- TRIG_STAMP (R247). -/
  trig : Nat := 0
  /-- TSAMPLE (R247). -/
  tsample : Nat := 0
  /-- period of the trigger sample (R248). -/
  period : Nat := 0
  /-- SRCIDX (R247). -/
  srcIdx : Nat := 0
  /-- SRCMASK (R247). -/
  srcMask : BitVec 8 := 0
  /-- POSTCLAMP (R253). -/
  postClamp : Bool := false
  /-- OVERRUN (R242). -/
  overrun : Bool := false
  /-- TLATE (R247). -/
  tlate : Bool := false
  /-- XTRIG (R257). -/
  xtrig : Bool := false
  /-- XLATE (R262). -/
  xlate : Bool := false
  /-- INTERRUPTED (R254). -/
  interrupted : Bool := false
  /-- XPOS (R257). -/
  xpos : BitVec 8 := 0
  /-- XMERGED (R257). -/
  xmerged : Nat := 0
  /-- end of its last sample, once it closes (R251). -/
  ended : Nat := 0
  /-- its header waits for the 16 clocks of closing (R251). -/
  closing : Bool := false
  /-- poisoned (R178). -/
  poison : Bool := false
  /-- stamp, period and value of its samples, oldest first, for the measurements (R256). -/
  samples : List (Nat × Nat × Int) := []
  /-- its samples that have not moved to the Carafe, in order (R241, R253). -/
  parts : List Piece := []
  /-- failing vectors (R256). -/
  failVecs : Nat := 0
  /-- pauses within it: sample index and clocks (R255). -/
  pauses : List (Nat × Nat) := []
  /-- time quality gathered (R31). -/
  tq : BitVec 4 := 0
  deriving DecidableEq, Repr, Inhabited

/-- A capture ring and its trigger unit (09_acquisition.md). -/
structure Ring where
  /-- BASE (R238). Reset value: DESIGN CHOICE (log 3). -/
  base : Nat := 0
  /-- LENGTH; 0 while the ring is not defined (R238). -/
  len : Nat := 0
  /-- LENGTH that waits for the pointer to pass zero (R241). -/
  pendLen : Option Nat := none
  /-- CAP.RING that waits for it (R272). -/
  pendTag : Option (BitVec 12) := none
  /-- owner (R238). -/
  owner : Option CapOwner := none
  /-- CAP.CONFIG has been carried out (R272). -/
  configured : Bool := false
  /-- SRC (R239). Reset value: DESIGN CHOICE (log 3). -/
  src : BitVec 2 := 0
  /-- PMU channel (R239). Reset value: DESIGN CHOICE (log 3). -/
  ch : BitVec 9 := 0
  /-- MODE (R242). -/
  overwrite : Bool := false
  /-- DRAIN (R253). Reset value: DESIGN CHOICE (log 3). -/
  drain : Bool := false
  /-- PRE (R250). Reset value: DESIGN CHOICE (log 3). -/
  pre : Nat := 0
  /-- POST (R250). Reset value: DESIGN CHOICE (log 3). -/
  post : Nat := 1
  /-- MEAS_CH (R256). Reset value: DESIGN CHOICE (log 3). -/
  measCh : BitVec 5 := 0
  /-- MEAS_LEVEL (R256). Reset value: DESIGN CHOICE (log 3). -/
  measLevel : BitVec 16 := 0
  /-- MEAS_HYST (R256). Reset value: DESIGN CHOICE (log 3). -/
  measHyst : Nat := 0
  /-- condition words COND0 to COND7 (R245). -/
  conds : List (BitVec 32) := []
  /-- action word (R249). -/
  action : BitVec 32 := 0
  /-- epoch and stamp of the STAMP condition (R245). -/
  stampAt : Option (BitVec 16 × Nat) := none
  /-- armed by CAP.ARM (R251). -/
  armed : Bool := false
  /-- its effect stamp has passed (R251). -/
  running : Bool := false
  /-- sampling stopped at an unread slot (R242). -/
  stopped : Bool := false
  /-- CAP.ARM (R251). -/
  armTag : BitVec 12 := 0
  /-- RECORDS (R251). -/
  limit : Nat := 0
  /-- records since CAP.ARM (R251). -/
  records : Nat := 0
  /-- effect stamp (R251). -/
  effAt : Nat := 0
  /-- epoch of the effect stamp (R251). -/
  epoch : BitVec 16 := 0
  /-- arming stamp (R251). -/
  armedAt : Option Nat := none
  /-- end of the previous record (R252). -/
  prevEnd : Nat := 0
  /-- MISSED (R252). -/
  missed : Nat := 0
  /-- DISCARDED (R257). -/
  discarded : Nat := 0
  /-- slot size fixed at CAP.ARM (R239). -/
  slotBits : Nat := 8
  /-- write pointer (slot) (R240). -/
  wptr : Nat := 0
  /-- read pointer (slot) (R241). -/
  rptr : Nat := 0
  /-- samples written towards PRE (R251). -/
  filled : Nat := 0
  /-- stamp, period and value of the samples of the pre-fill that the ring still holds, newest first (R250, R262). -/
  recent : List (Nat × Nat × Int) := []
  /-- failing flags of those samples (R256). -/
  recentFails : List Bool := []
  /-- last PMU sample, for LEVEL conditions (R246). -/
  lastS : Option Int := none
  /-- conditions that became true, with event stamps, not yet placed in a sample (R246). -/
  events : List (BitVec 3 × Nat) := []
  /-- end of the last sample (R255). -/
  lastEnd : Option Nat := none
  /-- record in progress (R250). -/
  cur : Option Rec := none
  /-- closed records not yet moved to the Carafe (R253). -/
  closed : List Closed := []
  /-- CAP.READ commands in progress with the records each has still to move (R253). -/
  reads : List (BitVec 12 × Nat) := []
  /-- trigger actions not yet taken: TRIG_STAMP, SRCIDX, RECORD (R249). -/
  actions : List (Nat × BitVec 3 × Nat) := []
  deriving DecidableEq, Repr, Inhabited

/-- An address register of a lane (R278, 10_bank_dsp.md). -/
structure AddrReg where
  /-- PTR (R278). Reset value: DESIGN CHOICE (log 3). -/
  ptr : BitVec 13 := 0
  /-- BASE (R278). Reset value: DESIGN CHOICE (log 3). -/
  base : BitVec 13 := 0
  /-- STEP (R278). Reset value: DESIGN CHOICE (log 3). -/
  step : BitVec 13 := 0
  /-- M (R278). Reset value: DESIGN CHOICE (log 3). -/
  m : Nat := 1
  /-- MODE (R278). Reset value: DESIGN CHOICE (log 3). -/
  mode : BitVec 2 := 0
  deriving DecidableEq, Repr, Inhabited

/-- A kernel run, pending or in progress (R284 to R289). -/
structure Run where
  /-- DSP.RUN (R291). -/
  tag : BitVec 12 := 0
  /-- kernel ID (R287). -/
  kernel : BitVec 8 := 0
  /-- operands (R287). -/
  ops : List Nat := []
  /-- INPUT (R284). -/
  input : BitVec 2 := 0
  /-- ring or TDC tapped (R284). -/
  src : BitVec 6 := 0
  /-- channel index of INPUT 2 (R284). -/
  ch : BitVec 5 := 0
  /-- NOMINAL of INPUT 3 (R284). -/
  nominal : Int := 0
  /-- TAPONLY (R284). -/
  tapOnly : Bool := false
  /-- DEST 1 (R288). -/
  toX : Bool := false
  /-- ring whose record closes start runs (R286). -/
  bind : Option (BitVec 3) := none
  /-- in progress (R286). -/
  active : Bool := false
  /-- a record close has asked it to start (R286). -/
  due : Bool := false
  /-- its start was moved under LATE_OK (R50). -/
  late : Bool := false
  /-- start stamp (R286). -/
  startAt : Nat := 0
  /-- its epoch (R286). -/
  epoch : BitVec 16 := 0
  /-- run number (R288). -/
  no : Nat := 0
  /-- STAMP of the first input (R286). -/
  first : Option Nat := none
  /-- end of the interval of the last input taken (R286). -/
  inputEnd : Nat := 0
  /-- end of the interval of the last sample that the tap delivered in this run (R285). -/
  tapEnd : Option Nat := none
  /-- END (R286). -/
  ended : Nat := 0
  /-- inputs taken (R291). -/
  taken : Nat := 0
  /-- instant, on the count that no rewind moves, from which the lane executes again (R276, R287). -/
  busy : Nat := 0
  /-- SAT (R280). -/
  sat : Bool := false
  /-- OVERFLOW (R285). -/
  overflow : Bool := false
  /-- GAPPED (R285). -/
  gapped : Bool := false
  /-- THROTTLED (R276). -/
  throttled : Bool := false
  /-- time quality gathered (R31). -/
  tq : BitVec 4 := 0
  deriving DecidableEq, Repr, Inhabited

/-- A bank's DSP lane (10_bank_dsp.md). -/
structure Lane where
  /-- owner (R274). -/
  owner : Option CapOwner := none
  /-- DSP_NONE (R275). -/
  absent : Bool := false
  /-- the bank is served by LS (R275). -/
  spare : Bool := false
  /-- X memory (unlisted: 0) (R276). Reset value: DESIGN CHOICE (log 15). -/
  x : Tab (BitVec 48) := .empty
  /-- Y memory (unlisted: 0) (R276). Reset value: DESIGN CHOICE (log 15). -/
  y : Tab (BitVec 48) := .empty
  /-- A0 to A3 (unlisted: 0) (R280). Reset value: DESIGN CHOICE (log 3). -/
  acc : Tab (Int × Int) := .empty
  /-- AX0 to AX3, AY0 to AY3 (R278). Reset value: DESIGN CHOICE (log 3). -/
  ar : Tab AddrReg := .empty
  /-- NCO phase (R283). -/
  theta : BitVec 32 := 0
  /-- LDF has set the phase in this run (R283). -/
  thetaSet : Bool := false
  /-- NCO tuning word (R283). Reset value: DESIGN CHOICE (log 3). -/
  ftw : BitVec 32 := 0
  /-- program address (R276). Reset value: DESIGN CHOICE (log 3). -/
  pc : BitVec 11 := 0
  /-- open LOOPs: first, last address, repeats left (R279). -/
  loops : List (Nat × Nat × Nat) := []
  /-- loop registers of JNZ (unlisted: 0) (R279). Reset value: DESIGN CHOICE (log 3). -/
  loopRegs : Tab Nat := .empty
  /-- words that the tap has delivered and that have not yet reached the queue: start and end of the sample, word, whether a pause preceded it (R284). -/
  tap : List (Nat × Nat × Int × Bool) := []
  /-- input queue: each word with the end of its sample's interval (R285, R286). -/
  q : List (BitVec 48 × Nat) := []
  /-- inputs taken by a vendor kernel (R287). -/
  words : List Int := []
  /-- output words (R279). -/
  out : List (BitVec 64) := []
  /-- last error cause (R289). -/
  err : BitVec 8 := 0
  /-- run pending or in progress (R286). -/
  run : Option Run := none
  deriving DecidableEq, Repr, Inhabited

/-- What one bank holds (01_device_overview.md R17; its chapters). -/
structure Bank where
  /-- force waveform table (unlisted: 0) (R113). -/
  wave : Tab (BitVec 64) := .empty
  /-- TDCs SL00 to SL33 (R137). -/
  tdcs : Tab Tdc := .empty
  /-- measurement lines M0 to M3: owning TDC and routed channel (R138). -/
  lines : Tab (Option (BitVec 6 × BitVec 9)) := .empty
  /-- slice health (R122). -/
  slices : Tab Slice := .empty
  /-- 1,024 working tiles and 32 spares (R210). -/
  tiles : Tab Tile := .empty
  /-- translation buffer, VPN and tile, most recently used first (R217). -/
  tlb : List (Nat × Nat) := []
  /-- pages entered so far (R225). -/
  entered : Nat := 0
  /-- spare tiles used (R234). -/
  sparesUsed : Nat := 0
  /-- tile being checked and the stamp at which the check ends (R213). -/
  checking : Option (Nat × Nat) := none
  /-- CR0 to CR7 (R238). -/
  rings : Tab Ring := .empty
  /-- 2 MiB of capture memory (unlisted: 0) (R238). Reset value: DESIGN CHOICE (log 15). -/
  capMem : Tab (BitVec 8) := .empty
  /-- first clock in which the SRAM port can deliver the next 64 bytes (R162). Reset value: DESIGN CHOICE (log 3). -/
  portFree : Nat := 0
  /-- thread whose prefetch the port served last (R162). Reset value: DESIGN CHOICE (log 3). -/
  portLast : BitVec 2 := 3
  /-- DSP lane (R274). -/
  lane : Lane := {}
  /-- micro-addresses mapped to spare rows (R207). -/
  rows : List (BitVec 13) := []
  /-- UC_DEGRADED (R207). -/
  degraded : Bool := false
  deriving DecidableEq, Repr, Inhabited

/-- The microcode store (07_microcode.md), the same in all sixteen copies (R200). -/
structure Uc where
  /-- patch region 0x1000 onwards (unlisted: 0) (R200). -/
  patch : Tab (BitVec 32) := .empty
  /-- customer region 0x1400 onwards (unlisted: 0) (R200). -/
  cust : Tab (BitVec 32) := .empty
  /-- dispatch entries that the patch or a customer load has set (R194). -/
  disp : Tab (Option (BitVec 13)) := .empty
  /-- P.0600 bits 4:0 (R209). -/
  patchState : BitVec 5 := 0
  /-- P.0600 bits 31:16 (R209). -/
  patchVersion : BitVec 16 := 0
  /-- P.0601 (R209). -/
  custWords : Nat := 0
  /-- first 16 bytes of the customer image's SHA3-256 digest (R204). Reset value: DESIGN CHOICE (log 3). -/
  digest : BitVec 128 := 0
  /-- P.0603 (R209). -/
  corrected : Nat := 0
  /-- P.0604 (R209). -/
  pollMax : Nat := 0
  deriving DecidableEq, Repr, Inhabited

/-- Pattern store and paging (08_pattern_store.md). -/
structure Pat where
  /-- page table by VPN (R216). -/
  ptes : Tab Pte := .empty
  /-- contents of LPDDR5X pages by VPN × 512 + word (R516). Reset value: DESIGN CHOICE (log 15). -/
  pages : Tab (BitVec 64) := .empty
  /-- fault queue, at most 256, oldest first (R219). -/
  queue : List PFault := []
  /-- demand faults that wait outside a full queue (R219). -/
  outside : List PFault := []
  /-- fill in progress (R220). -/
  fill : Option Fill := none
  /-- PAT.PREFETCH commands in progress (R236). -/
  prefetches : List Prefetch := []
  /-- threads that wait on a page (R224). -/
  waiting : List (BitVec 6 × Nat) := []
  /-- pages being refilled once after a failed check (R214). -/
  refilled : List (BitVec 4 × Nat) := []
  /-- P.0706 (R237). -/
  dram : Nat := 0
  /-- P.0700 (R237). -/
  depthDefault : Nat := 8
  /-- P.0702 (R237). -/
  demands : Nat := 0
  /-- P.0703 (R237). -/
  drops : Nat := 0
  /-- P.0704 (R237). -/
  checkFails : Nat := 0
  /-- P.0705 (R237). -/
  faultMax : Nat := 0
  deriving DecidableEq, Repr, Inhabited

/-- Sequencers as a whole (06_sequencer.md). -/
structure Seq where
  /-- 64 threads (R151). -/
  threads : Tab Thread := .empty
  /-- TRIG_OUT0 to TRIG_OUT3 (R165). -/
  trig : Tab TrigOut := .empty
  /-- barriers 0 to 31 of the manager (R176). -/
  barriers : Tab Barrier := .empty
  /-- P.0502 (R186). -/
  trigWidth : Nat := 8
  /-- P.0503 (R186). -/
  segEvents : BitVec 64 := 0
  /-- P.0504 (R186). -/
  recSeg : BitVec 64 := 0
  /-- P.0505 (R186). -/
  underruns : Nat := 0
  /-- P.0506 (R186). -/
  progErrs : Nat := 0
  /-- P.0507 (R186). -/
  stallTime : Nat := 0
  deriving DecidableEq, Repr, Inhabited

/-- Pin channels, PMUs and timing as a whole. -/
structure Pins where
  /-- 512 channels (R57). -/
  chans : Tab Chan := .empty
  /-- P.0203 MON_EVENT_HOLDOFF, microseconds (R89). -/
  holdoff : Nat := 100
  /-- P.0304 (R121). -/
  limitEvents : Nat := 0
  /-- P.0402 (R150). -/
  tdcMissed : Nat := 0
  /-- closures on the device since the wear counters were last written (R424). -/
  closuresSince : Nat := 0
  deriving DecidableEq, Repr, Inhabited

/-- A cross-chip line (R258 to R261). -/
structure Xt where
  /-- armed (R258). -/
  armed : Bool := false
  /-- REARM (R258). -/
  rearm : Bool := false
  /-- effect stamp of the arm (R258). -/
  effAt : Nat := 0
  /-- epoch of that stamp (R258). -/
  effEpoch : BitVec 16 := 0
  /-- stamp at which the arbitration window closes (R259). -/
  window : Option Nat := none
  /-- fire stamp, position and condition of the candidates (R259). -/
  cands : List (Nat × BitVec 8 × BitVec 3) := []
  /-- action stamp, XPOS and XMERGED (R260). -/
  action : Option (Nat × BitVec 8 × Nat) := none
  /-- the action stamp had passed when it arrived (R262). -/
  late : Bool := false
  /-- epoch and effect stamp of a disarm (R258). -/
  offAt : Option (BitVec 16 × Nat) := none
  /-- XPOS and XMERGED of the last action taken (R257). -/
  last : BitVec 8 × Nat := (0, 0)
  /-- fire messages that this device has sent: fire stamp and condition (R259). The model's own. -/
  sent : List (Nat × BitVec 3) := []
  deriving DecidableEq, Repr, Inhabited

/-- A flow-gated SEQ.START that waits (R270). -/
structure Gate where
  /-- SEQ.START (R270). -/
  tag : BitVec 12 := 0
  /-- threads of this device (R270). -/
  mask : BitVec 64 := 0
  /-- target start stamp (R270). -/
  target : Nat := 0
  /-- FLOW_IN was asserted at D; the start waits for its release (R270). -/
  decided : Bool := false
  deriving DecidableEq, Repr, Inhabited

/-- Carafe, cross-chip lines and flow control (09_acquisition.md). -/
structure Cap where
  /-- XT0 to XT3 (R258). -/
  xt : Tab Xt := .empty
  /-- packets in the Carafe, oldest first (R263). -/
  carafe : List Packet := []
  /-- producer that the round robin granted last (R263). Reset value: DESIGN CHOICE (log 3). -/
  granted : Nat := 16
  /-- staging buffers of the 17 producers (R263). -/
  staging : Tab (List Packet) := .empty
  /-- items lost by a producer since its staging buffer overflowed (R268). -/
  lossOwed : Tab Nat := .empty
  /-- P.0801 (R273). -/
  hiMark : Nat := 12288
  /-- P.0802 (R273). -/
  loMark : Nat := 4096
  /-- FIFO_HI asserted (R269). -/
  fifoHi : Bool := false
  /-- instant at which FIFO_HI last changed (R269). -/
  fifoHiAt : Option Nat := none
  /-- SEQ.START commands that came down the tree and whose start the manager's flow gate holds (R270). -/
  heldStarts : List (BitVec 12) := []
  /-- start stamps that came down the tree before their SEQ.START was carried out: tag, stamp, delayed (R270). -/
  startNotes : List (BitVec 12 × Nat × Bool) := []
  /-- filtered FLOW_IN asserted (internal pull-up: not asserted) (R269). -/
  flowIn : Bool := false
  /-- stamp of the last release of FLOW_IN (R270). Reset value: DESIGN CHOICE (log 3). -/
  flowRelease : Nat := 0
  /-- P.0808 (R273). -/
  flowGate : Bool := false
  /-- flow-gated starts not yet decided (R270). -/
  gates : List Gate := []
  /-- producers with a flush request (R271). -/
  flush : BitVec 17 := 0
  /-- CAP.FLUSH commands: producers left and packets discarded (R271). -/
  flushTags : List (BitVec 12 × BitVec 17 × Nat) := []
  /-- P.0803 (R273). -/
  poisoned : Nat := 0
  /-- P.0804 (R273). -/
  flushed : Nat := 0
  /-- P.0805 (R273). -/
  drops : Nat := 0
  /-- P.0806 (R273). -/
  discarded : Nat := 0
  /-- P.0807 (R273). -/
  xtLost : Nat := 0
  /-- P.0809 (R273). -/
  flowDelays : Nat := 0
  /-- P.080A (R273). -/
  failLogLost : Nat := 0
  deriving DecidableEq, Repr, Inhabited

/-- DSP lanes as a whole (10_bank_dsp.md). -/
structure Dsp where
  /-- customer region of program memory P, 0x400 to 0x7FF (unlisted: 0) (R276). Reset value: DESIGN CHOICE (log 15). -/
  p : Tab (BitVec 64) := .empty
  /-- customer kernel table, ID to entry (R290). -/
  kernels : Tab (Option (BitVec 11)) := .empty
  /-- bank served by LS (R275). -/
  lsBank : Option (BitVec 4) := none
  /-- memories and registers of the lane that serves no bank: LS, or the lane that LS stands in for (R275, R276). -/
  idle : Lane := {}
  /-- LS itself failed (R275). -/
  lsFailed : Bool := false
  /-- P.0902 (R292). -/
  drops : Nat := 0
  /-- P.0903 (R292). -/
  skips : Nat := 0
  /-- P.0904 (R292). -/
  satRuns : Nat := 0
  deriving DecidableEq, Repr, Inhabited

/-- A range, mode, connect or disconnect change of an MU (R299, 11_metrology_island.md). -/
structure MuChange where
  /-- command; none for a park, SAFE or a fault (R301). -/
  tag : Option (BitVec 12) := none
  /-- effect stamp (R301). -/
  stamp : Nat := 0
  /-- its epoch (R301). -/
  epoch : BitVec 16 := 0
  /-- connect or disconnect; none for MI.CONFIG (R299). -/
  conn : Option Bool := none
  /-- mode asked for (R293). -/
  mode : BitVec 2 := 0
  /-- IRANGE asked for (R294). -/
  irange : BitVec 3 := 4
  /-- VRANGE asked for (R294). -/
  vrange : Bool := false
  /-- I_LIM asked for (R296). -/
  ilim : Nat := 68813
  /-- V_LIM_LO asked for (R296). -/
  lo : Nat := 65536
  /-- V_LIM_HI asked for (R296). -/
  hi : Nat := 753664
  deriving DecidableEq, Repr, Inhabited

/-- An MU sequence in progress (R299). -/
structure MuSeq where
  /-- step A to E (R299). -/
  step : SeqStep := .a
  /-- stamp at which the step ends (R299). -/
  ends : Nat := 0
  /-- the change (R299). -/
  change : MuChange := {}
  /-- second change held until step D ends (R301). -/
  held : Option MuChange := none
  /-- the ramp uses the safety ramp (R299). -/
  safety : Bool := false
  /-- end of a closing of the switch that a disconnect waits for (R299). -/
  closing : Option Nat := none
  /-- further disconnect commands that end with this one (R299). -/
  also : List (BitVec 12) := []
  deriving DecidableEq, Repr, Inhabited

/-- An MI.MEASURE that owns an MU's ADC (R302, R303). -/
structure MuMeas where
  /-- asked for by a frame of ISLP, so that no command waits for it (R306). -/
  islp : Bool := false
  /-- TAG (R318). -/
  tag : BitVec 12 := 0
  /-- QUANTITY (R318). -/
  volt : Bool := false
  /-- N asked for (R302). -/
  n : Nat := 1
  /-- results still to come (R303). -/
  left : Nat := 1
  /-- stamp of the next sample (R303). -/
  start : Nat := 0
  /-- its epoch (R303). -/
  epoch : BitVec 16 := 0
  /-- samples of the current result (R302). -/
  got : Nat := 0
  /-- 56-bit signed accumulator (R302). -/
  acc : Int := 0
  /-- smallest sample (R302). -/
  min : Int := 0
  /-- largest sample (R302). -/
  max : Int := 0
  /-- stamp of its first sample (R303). -/
  first : Nat := 0
  /-- OVER (R302). -/
  ovr : Bool := false
  /-- COMPLIANCE (R296). -/
  comp : Bool := false
  /-- RANGING (R301). -/
  ranging : Bool := false
  /-- SENSE_OPEN (R298). -/
  senseOpen : Bool := false
  /-- mode at the first sample (R318). -/
  mode : BitVec 2 := 0
  /-- IRANGE at the first sample (R318). -/
  irange : BitVec 3 := 0
  /-- VRANGE at the first sample (R318). -/
  vrange : Bool := false
  /-- time quality gathered (R31). -/
  tq : BitVec 4 := 0
  deriving DecidableEq, Repr, Inhabited

/-- A Metrology Unit (11_metrology_island.md). -/
structure Mu where
  /-- mode (R293). -/
  mode : BitVec 2 := 0
  /-- IRANGE (R294). -/
  irange : BitVec 3 := 4
  /-- VRANGE (R294). -/
  vrange : Bool := false
  /-- voltage target (R295). -/
  vTarget : Nat := 262144
  /-- current target (R295). -/
  iTarget : Nat := 524288
  /-- code applied now (safe value) (R307). -/
  applied : Nat := 262144
  /-- last forcing mode (R295). Reset value: DESIGN CHOICE (log 3). -/
  lastForce : BitVec 2 := 1
  /-- I_LIM (R296). -/
  ilim : Nat := 68813
  /-- V_LIM_LO (R296). -/
  lo : Nat := 65536
  /-- V_LIM_HI (R296). -/
  hi : Nat := 753664
  /-- limiter STEP (R299). -/
  step : Nat := 1048575
  /-- limiter INTERVAL in grains (R299). -/
  interval : Nat := 0
  /-- output switch closed (R307). -/
  closed : Bool := false
  /-- sequence in progress (R299). -/
  seq : Option MuSeq := none
  /-- changes whose effect stamp lies ahead (R301). -/
  sched : List MuChange := []
  /-- changes QUEUED behind a disconnect (R301). -/
  queued : List MuChange := []
  /-- stamp of the last move of a ramp in progress (R299). -/
  ramp : Option Int := none
  /-- MI.FORCE whose ramp is in progress or kept (R319). -/
  forceTag : Option (BitVec 12) := none
  /-- force words whose effect stamp lies ahead (R319). -/
  forceSched : List (BitVec 12 × BitVec 32 × Nat) := []
  /-- measurement that owns the ADC (R303). -/
  meas : Option MuMeas := none
  deriving DecidableEq, Repr, Inhabited

/-- The Metrology Island (11_metrology_island.md). -/
structure Island where
  /-- the start of the island has ended (R308). -/
  started : Bool := false
  /-- P.0A00 bit 0 (R308). -/
  ready : Bool := false
  /-- image verified (R308). -/
  verified : Bool := false
  /-- image in force, as loaded (R308). -/
  image : Bytes := []
  /-- FW_VERSION (R320). -/
  fwVersion : BitVec 16 := 0
  /-- bytes of the calibration set in force; none: nominal coefficients (UNCAL) (R309). -/
  cal : Option Bytes := none
  /-- reason code of P.0A00 (R312). -/
  reason : BitVec 4 := 0
  /-- SEALED (R312). -/
  sealedOk : Bool := false
  /-- digest in force D (R309). -/
  digest : BitVec 256 := 0
  /-- bytes of the seal record in force (R311). -/
  record : Option Bytes := none
  /-- valid nonce (R314). -/
  nonce : Option (BitVec 128) := none
  /-- island temperature at the last reference check, 0.01 degree (R304). Reset value: DESIGN CHOICE (log 3). -/
  temp : Int := 0
  /-- REF_DRIFT (R313). -/
  refDrift : Bool := false
  /-- instant of the next reference check, on the count that no rewind moves (R313). -/
  refAt : Nat := 0
  /-- RECNUM (R318). -/
  recNum : BitVec 16 := 0
  /-- SAFE asserted (R306). -/
  safeLine : Bool := false
  /-- frames at the command port, oldest first: from ISLP, words. The port queues the first 64; those behind them are held outside it (R306). -/
  port : List (Bool × List (BitVec 32)) := []
  /-- MU0 to MU15 (R293). -/
  mus : Tab Mu := .empty
  /-- MI.PARK commands that wait (R319). -/
  parkTags : List (BitVec 12) := []
  /-- MI.RESET that waits for the island to be ready (R319). -/
  resetTag : Option (BitVec 12) := none
  /-- P.0A05 (R320). -/
  crcErrors : Nat := 0
  /-- P.0A06 (R320). -/
  results : Nat := 0
  deriving DecidableEq, Repr, Inhabited

/-- A correction tap (R321, 12_calibration.md). -/
structure Tap where
  /-- value in force (nominal: zero) (R333). -/
  inForce : Int := 0
  /-- target (R323). -/
  target : Int := 0
  /-- due (R323). -/
  due : Bool := false
  /-- a gradual step has been taken up and has not yet taken effect (R329). -/
  stepping : Bool := false
  /-- stamp at which it, or its step, became due (R327). -/
  dueAt : Nat := 0
  /-- its point has come while its TDC or ADC had an owner (R328). -/
  passed : Bool := false
  deriving DecidableEq, Repr, Inhabited

/-- Quality figures of a channel (R332). -/
structure Quality where
  /-- EDGE_RES, 0.01 ps (R332). Reset value: DESIGN CHOICE (log 3). -/
  edgeRes : Nat := 0
  /-- THR_RES, uV (R332). Reset value: DESIGN CHOICE (log 3). -/
  thrRes : Nat := 0
  /-- EYE, 0.1 ps; 0 with no full run in this start (R332). -/
  eye : Nat := 0
  /-- PMU_RES, ppm (R332). Reset value: DESIGN CHOICE (log 3). -/
  pmuRes : Nat := 0
  /-- end of the run that gave them (R332). Reset value: DESIGN CHOICE (log 3). -/
  stamp : Nat := 0
  /-- epoch of that stamp (R332). Reset value: DESIGN CHOICE (log 3). -/
  epoch : BitVec 16 := 0
  /-- CAL_WARN (R332). -/
  warn : Bool := false
  deriving DecidableEq, Repr, Inhabited

/-- A calibration run in progress (R323, R326). -/
structure CalRun where
  /-- a full run (R326). -/
  full : Bool := false
  /-- channel set of a full run (R326). -/
  chs : BitVec 512 := 0
  /-- CAL.RUN commands it serves (R331). -/
  tags : List (BitVec 12) := []
  /-- junction temperature at its start (R324). -/
  tStart : Int := 0
  deriving DecidableEq, Repr, Inhabited

/-- Self-calibration (12_calibration.md). -/
structure Cal where
  /-- every tap by its index (TapId.index) (R321). -/
  taps : Tab Tap := .empty
  /-- quality figures by channel (R332). -/
  quality : Tab Quality := .empty
  /-- figures of the last run, held until its taps are in force (R331). -/
  newQuality : List (Nat × Quality) := []
  /-- run in progress (R323). -/
  run : Option CalRun := none
  /-- CAL.RUN commands that wait for the last effect (R331). -/
  waitTags : List (BitVec 12) := []
  /-- taps made due by the run that is being brought into force (R369). -/
  dueMade : Nat := 0
  /-- temperature at the start of that run (R324). -/
  pendingT : Int := 0
  /-- targets of a run are being brought into force (R331). -/
  bringing : Bool := false
  /-- stamp of the last effect (R331). Reset value: DESIGN CHOICE (log 3). -/
  lastEffect : Nat := 0
  /-- P.0B03, 0.01 degree (R335). -/
  tCal : Int := 0
  /-- CAL_STALE (R325). -/
  stale : Bool := false
  /-- CAL_NOMINAL (R333). -/
  nominal : Bool := false
  /-- P.0B00, degrees (R335). -/
  threshold : Nat := 4
  /-- P.0B01 (R335). -/
  control : BitVec 2 := 0
  /-- P.0B05 (R335). -/
  runs : Nat := 0
  deriving DecidableEq, Repr, Inhabited

/-- A ring of the mailbox interface (R341, R503, R507). -/
structure RingCfg where
  /-- base address (R503). -/
  base : BitVec 64 := 0
  /-- size in entries (R503). -/
  size : BitVec 32 := 0
  /-- EN (R507). -/
  en : Bool := false
  /-- PHASE (R507). -/
  phase : Bool := false
  /-- host's head of a completion or event ring; the device's CMD_HEAD (R503). -/
  head : Nat := 0
  /-- CMD_TAIL; the device's write index of a completion or event ring (R503). -/
  tail : Nat := 0
  deriving DecidableEq, Repr, Inhabited

/-- A command whose tag is in flight (R352, R353). -/
structure Flight where
  /-- TAG (R352). -/
  tag : BitVec 12 := 0
  /-- STREAM (R353). -/
  stream : BitVec 5 := 0
  /-- OPCODE (R345). -/
  opcode : BitVec 16 := 0
  /-- where the command came from (R349). -/
  origin : Origin := .ring
  /-- accepted (R352). -/
  accepted : Bool := false
  /-- a QUEUED completion has been written (R353). -/
  queuedOnce : Bool := false
  /-- PERDEV (R350). -/
  perdev : Bool := false
  /-- RESP_LEN, of an entry fetched from the ring (R342). -/
  respLen : Option Nat := none
  /-- host buffers that the command uses: address and length (R340). -/
  buffers : List (Nat × Nat) := []
  /-- positions whose final completion is awaited (R350). -/
  targets : List (BitVec 8) := []
  /-- TKIND GROUP or TREE: an aggregate completion is due (R350). -/
  group : Bool := false
  /-- group addressed (R388). -/
  gid : Option (BitVec 5) := none
  /-- final completions gathered for the aggregate (R350). -/
  agg : List Cpl := []
  /-- final completion formed and not yet written (R353). -/
  done : Option Cpl := none
  deriving DecidableEq, Repr, Inhabited

/-- An accepted command that acts on several channels, threads or MUs until each has ended (R515, R72, R101). -/
structure Job where
  /-- command (R357). -/
  tag : BitVec 12 := 0
  /-- channels, threads or MUs still to end (R515). -/
  left : BitVec 512 := 0
  /-- latest effect stamp so far (R72). -/
  stamp : Option Nat := none
  /-- REPLACED, or its mask (R72). -/
  replaced : BitVec 7 := 0
  /-- LATE (R50). -/
  late : Bool := false
  /-- some were cut (R515). -/
  aborted : Bool := false
  /-- lowest cut (R515). -/
  cut : Option Nat := none
  /-- values still to take effect, where one channel holds several (R136). -/
  parts : Nat := 0
  /-- values to return, by unit (R139, R178). -/
  vals : Tab Nat := .empty
  /-- REPLACED is returned as a mask (R72). -/
  mask : Bool := false
  deriving DecidableEq, Repr, Inhabited

/-- Moderation of an MSI-X vector (R361). -/
structure Irq where
  /-- COUNT (R361). -/
  count : Nat := 1
  /-- HOLDOFF, us (R361). -/
  holdoff : Nat := 0
  /-- entries since its last message (R361). -/
  n : Nat := 0
  /-- instant of the first of them (R361). Reset value: DESIGN CHOICE (log 3). -/
  first : Nat := 0
  /-- messages sent on the vector, as the host has seen (R361). The model's own. -/
  sent : Nat := 0
  /-- masked in the MSI-X table (R360). Reset value: PRESUMED, the family's (log 112). -/
  masked : Bool := true
  /-- pending bit (R361). -/
  pending : Bool := false
  deriving DecidableEq, Repr, Inhabited

/-- An event source (R360). -/
structure Src where
  /-- vector (R360). -/
  vector : Nat := 1
  /-- disabled (R360). -/
  off : Bool := false
  deriving DecidableEq, Repr, Inhabited

/-- A DMA transfer that waits or runs (R339). -/
structure DmaReq where
  /-- class of its command (R339). -/
  cls : BitVec 2 := 0
  /-- next granule index (R339). -/
  granule : Nat := 0
  /-- granules still to move (R339). -/
  left : Nat := 0
  deriving DecidableEq, Repr, Inhabited

/-- A DMA engine (R338, R339). -/
structure Dma where
  /-- transfer in progress (R339). -/
  cur : Option DmaReq := none
  /-- pending and suspended transfers, oldest first (R339). -/
  waiting : List DmaReq := []
  /-- class (2 or 3) that had the last granule of the alternation (R339). Reset value: DESIGN CHOICE (log 3). -/
  lastCls : BitVec 2 := 3
  deriving DecidableEq, Repr, Inhabited

/-- The USB 2.0 recovery function (R375, R376). -/
structure Recovery where
  /-- configured (R405). -/
  configured : Bool := false
  /-- a completion has not yet been read (R376). -/
  busy : Bool := false
  /-- tag of the command it carries (R376). Reset value: DESIGN CHOICE (log 3). -/
  tag : BitVec 12 := 0
  /-- completions that the next bulk IN transfers return, oldest first; true: of the command it carries (R376). -/
  replies : List (Bool × Cpl) := []
  /-- completion that the last bulk IN transfer returned (R376). The model's own. -/
  last : Option Cpl := none
  deriving DecidableEq, Repr, Inhabited

/-- Records formed in the control-clock cycle of this command, not yet committed (R25); empty between commands. -/
structure Outbox where
  /-- event entries (R25). The model's own. -/
  events : List Evt := []
  /-- result packets (R25). The model's own. -/
  packets : List Packet := []
  /-- QUEUED, PARTIAL and PREEMPTED entries (R357). The model's own. -/
  interim : List (Origin × Cpl) := []
  /-- messages for the Tyisk links (R36). The model's own. -/
  links : List LinkMsg := []
  /-- what DMA engines other than those of records wrote to host memory: address and bytes (R348). The model's own. -/
  written : List (Nat × Bytes) := []
  deriving DecidableEq, Repr, Inhabited

/-- A packet or marker block of a Tyisk port (R378). -/
structure LinkPkt where
  /-- traffic class: 0 M, 1 C0, 2 C1, 3 D (R378). -/
  cls : BitVec 2 := 0
  /-- message that it carries, whole or in part (R378). -/
  msg : LinkMsg := .replay
  /-- payload bytes, up to 512 (R378). -/
  bytes : Nat := 0
  /-- it ends its message (R378). -/
  last : Bool := true
  deriving DecidableEq, Repr, Inhabited

/-- The sending side of a Tyisk port (R378 to R382). -/
structure Link where
  /-- what waits, oldest first (R378). -/
  queue : List LinkPkt := []
  /-- packets sent on each class whose credit has not come back (R378). -/
  spent : Tab Nat := .empty
  /-- replay buffer, oldest first: at most 8 KiB (R380). -/
  replay : List LinkPkt := []
  /-- fire, action-stamp and barrier markers sent in the last 10 us, with their instants (R382). -/
  recent : List (Nat × LinkMsg) := []
  deriving DecidableEq, Repr, Inhabited

/-- Control complex and mailbox interface (13_control_and_mailboxes.md, 20_register_map.md). -/
structure Ctl where
  /-- device sequence number that the next record takes (R24). -/
  seq : BitVec 32 := 0
  /-- Command Ring (R341). -/
  cmd : RingCfg := {}
  /-- Completion Ring (R341). -/
  cpl : RingCfg := {}
  /-- Event Ring (R341). -/
  evt : RingCfg := {}
  /-- completion entries between the host's head and the write index (R347). -/
  cplOut : List Cpl := []
  /-- event entries between the host's head and the write index (R347). -/
  evtOut : List Evt := []
  /-- RES_BASE (R503). -/
  resBase : BitVec 64 := 0
  /-- RES_SIZE (R503). -/
  resSize : Nat := 0
  /-- RES_CTRL EN (R503). -/
  resEn : Bool := false
  /-- RES_HEAD (R503). -/
  resHead : Nat := 0
  /-- RES_TAIL (R503). -/
  resTail : Nat := 0
  /-- packets last written to the result area and not yet consumed whole (R348). -/
  resOut : List Packet := []
  /-- instant since which CC0 waits for space (R348). -/
  resStalled : Option Nat := none
  /-- packet that CC0 has read and DMA2 has not yet moved (R348). -/
  dmaPacket : Option Packet := none
  /-- windows 0 to 7: base and size (R340). -/
  windows : Tab (Option (Nat × Nat)) := .empty
  /-- tags in flight, in fetch order (R352). -/
  flights : List Flight := []
  /-- pending scheduled actions whose tag a later command carries, so that TL.CANCEL names them no more (R54). -/
  orphans : List Act := []
  /-- accepted commands that act on several units (R357). -/
  jobs : List Job := []
  /-- completions that wait for ring space, at most 1,024 (R347). -/
  heldCpl : List Cpl := []
  /-- further queue of class 0 completions, at most 32 (R347). -/
  heldCpl0 : List Cpl := []
  /-- events that wait for ring space, at most 512 (R347). -/
  heldEvt : List Evt := []
  /-- P.0004 (R370). -/
  evtLost : Nat := 0
  /-- events lost since the last events-lost event (R347). -/
  lostOwed : Nat := 0
  /-- P.0005 (R370). -/
  dupTags : Nat := 0
  /-- P.0006 (R370). -/
  preempts : Nat := 0
  /-- P.0007 (R370). -/
  resStall : Nat := 0
  /-- P.0008 (R370). -/
  dispatchMax : Nat := 0
  /-- P.0009 (R370). -/
  doorbells : Nat := 0
  /-- DMA0 to DMA4 (R338). -/
  dma : Tab Dma := .empty
  /-- vector of each completion stream (unlisted: 0) (R360). -/
  cplMap : Tab Nat := .empty
  /-- 640 event sources (R360). -/
  srcs : Tab Src := .empty
  /-- 64 MSI-X vectors (R361). -/
  irqs : Tab Irq := .empty
  /-- records formed and not yet committed (R25). The model's own. -/
  outbox : Outbox := {}
  /-- USB 2.0 recovery function (R375). -/
  recovery : Recovery := {}
  /-- completions that the last command sent on the upstream path of a worker (R349). The model's own. -/
  upCpl : List Cpl := []
  /-- events that the last command sent on the upstream path of a worker (R349). The model's own. -/
  upEvt : List Evt := []
  /-- result packet that a worker last sent on its upstream path (R349). The model's own. -/
  lastUp : Option Packet := none
  /-- records of an earlier epoch are still to be committed, and records of the present one wait for them (R43). -/
  behind : Bool := false
  /-- what waits at each Tyisk port for its turn (R378). -/
  links : Tab Link := .empty
  /-- what left on the Tyisk ports with the last command: port and packet (R378). The model's own. -/
  sent : List (Nat × LinkPkt) := []
  /-- result packets of workers that wait for DMA2 (R348, R349). -/
  downRes : List Packet := []
  /-- what the DMA engines wrote to host memory with the last command: address and bytes (R3, R345 to R348). The model's own. -/
  written : List (Nat × Bytes) := []
  deriving DecidableEq, Repr, Inhabited

/-- Direct registers with state of their own (20_register_map.md). -/
structure Regs where
  /-- SCRATCH (R503). -/
  scratch : BitVec 64 := 0
  /-- ERR_GEOM (R507). -/
  errGeom : BitVec 4 := 0
  /-- ERR_WHILE_EN (R507). -/
  errEn : BitVec 4 := 0
  /-- BAD_ACCESS (R507). -/
  badAccess : Bool := false
  /-- IRQ_SUMMARY (R509). -/
  irqSummary : BitVec 64 := 0
  /-- IRQ_TEST (R509). -/
  irqTest : BitVec 64 := 0
  /-- LOG_INDEX (R512). -/
  logIndex : BitVec 8 := 0
  /-- FC_INJ_STATUS REFUSED (R510). -/
  refused : Bool := false
  /-- FC_INJ_STATUS DONE (R510). -/
  done : Bool := false
  /-- FC_INJECT, the word last written (R503). -/
  injWord : BitVec 64 := 0
  /-- shadow of each 64-bit register by offset (unlisted: 0) (R362). -/
  shadows : Tab (BitVec 32) := .empty
  /-- shadow of TL_NOW_CTX (R506). -/
  tlCtx : BitVec 20 := 0
  /-- staged low half of a 64-bit register by offset (R363). -/
  staged : Tab (Option (BitVec 32)) := .empty
  /-- MSI-X table: address and data words by double word (unlisted: 0) (R503). Reset value: DESIGN CHOICE (log 3). -/
  msix : Tab (BitVec 32) := .empty
  /-- value that the last register read returned to the host (R362). The model's own. -/
  readData : BitVec 64 := 0
  deriving DecidableEq, Repr, Inhabited

/-- A Tyisk link port (14_tree_and_host.md). -/
structure Port where
  /-- 0 idle, 1 training, 2 up on two lanes, 3 up on one lane (R405). -/
  up : BitVec 2 := 0
  /-- spare lane in use (R405). -/
  spare : Bool := false
  /-- upstream port (R405). -/
  upstream : Bool := false
  /-- REDUNDANT (R405). -/
  redundant : Bool := false
  /-- ALIGNED of the device below (R405). -/
  aligned : Bool := false
  /-- lanes marked bad in the last lane map (R421). -/
  badLanes : BitVec 3 := 0
  /-- lanes that carry traffic (R381). -/
  active : BitVec 3 := 0
  /-- DEGRADED (R381). -/
  degraded : Bool := false
  /-- instant at which it went down or began to retrain (R383). -/
  down : Option Nat := none
  /-- its path was lost (R383). -/
  lost : Bool := false
  /-- instants of the replays of the last 1 ms (R382). -/
  replays : List Nat := []
  /-- markers received, for the discarding of duplicates (R382). -/
  seenMarks : List (Nat × LinkMsg) := []
  deriving DecidableEq, Repr, Inhabited

/-- The manager's view of an admitted device (R385, R386, R403). -/
structure Node where
  /-- position ID (R386). -/
  id : BitVec 8 := 0
  /-- position path (R10). -/
  path : List (BitVec 2) := []
  /-- stepping reported (R385). -/
  stepping : BitVec 8 := 0xC1
  /-- STRAP_ROLE reported (R385). -/
  role : BitVec 2 := 2
  /-- STRAP_BOOT reported (R385). -/
  boot : BitVec 2 := 0
  /-- boot step reached (R385). -/
  step : Nat := 0
  /-- READY (R398). -/
  ready : Bool := false
  /-- in Decaf mode (R402). -/
  decaf : Bool := false
  /-- path lost (R383). -/
  lost : Bool := false
  /-- it has been reset since the loss (R383). -/
  reset : Bool := false
  deriving DecidableEq, Repr, Inhabited

/-- Host attachment and the Tyisk tree (14_tree_and_host.md). -/
structure Tree where
  /-- position ID of this device (R10). -/
  position : BitVec 8 := 0
  /-- position path of this device (R10). -/
  path : List (BitVec 2) := []
  /-- this worker has been admitted (R385). -/
  admitted : Bool := false
  /-- parent's position ID in the training request answered (R384). -/
  parentId : Option (BitVec 8) := none
  /-- TY0 to TY3 (R377). -/
  ports : Tab Port := .empty
  /-- admitted workers, on the manager (R386). -/
  nodes : List Node := []
  /-- multicast groups 0 to 31 (unlisted: empty) (R388). -/
  groups : Tab (BitVec 256) := .empty
  /-- P.0E00 (R405). -/
  size : Nat := 1
  /-- P.0E02 bits 2:0 (R405). -/
  link : BitVec 3 := 0
  /-- PCIe tunnel up (R405). -/
  tunnel : Bool := false
  /-- the host attachment was up in this start and is lost (R374). -/
  attachLost : Bool := false
  /-- P.0E04, ms (R405). -/
  linkTimeout : Nat := 50
  /-- P.0E05 (R405). -/
  retrains : Nat := 0
  /-- P.0E06 (R405). -/
  replays : Nat := 0
  /-- P.0E07, 2^-8 phase step (R405). -/
  tampOffset : Int := 0
  /-- P.0E08, us (R405). -/
  brewTime : Nat := 0
  /-- P.0E0A (R405). -/
  notAdmitted : Nat := 0
  /-- P.0105 (R56). -/
  hopDelay : Nat := 0
  /-- P.0106 (R56). -/
  rootDelay : Nat := 0
  /-- total delay from the manager of the device above, as it has sent it (R391). -/
  aboveDelay : Nat := 0
  /-- exchanges of the interval (R391). -/
  exchanges : Nat := 0
  /-- sum of 2d over them (R391). -/
  sumD : Int := 0
  /-- sum of 2θ over them (R391). -/
  sumTheta : Int := 0
  /-- consecutive intervals with |θ| of 1 step or less (R392). -/
  good : Nat := 0
  /-- ALIGNED (R392). -/
  isAligned : Bool := false
  /-- last Brew-up stage started (R399). -/
  stage : Nat := 0
  /-- tree-ready event posted (R402). -/
  readySent : Bool := false
  /-- firmware image received by multicast (R399). -/
  multicast : Option Bytes := none
  /-- highest position ID that the discovery in progress keeps (R387). -/
  fixed : Nat := 0
  /-- TREE.RESCAN in progress and devices admitted by it (R387). -/
  rescan : Option (BitVec 12 × Nat) := none
  /-- TREE.PORT retrain commands that wait for their port (R403). -/
  resTag : List (BitVec 12 × BitVec 2) := []
  deriving DecidableEq, Repr, Inhabited

/-- A step entry of the journal (R416). -/
structure JEntry where
  /-- START (R416). -/
  start : Bool := false
  /-- END (R416). -/
  fin : Bool := false
  /-- RESULT (R416). -/
  result : BitVec 2 := 0
  /-- VARIANT (R416). -/
  variant : BitVec 2 := 0
  /-- FAILS (R416). -/
  fails : BitVec 2 := 0
  /-- DETAIL (R416). -/
  detail : BitVec 8 := 0
  /-- END_T (R416). -/
  endT : BitVec 24 := 0
  /-- START_T (R416). -/
  startT : BitVec 24 := 0
  /-- the normal form failed in the last start that ran it; R416 gives it no bit (log 64) (R411). The model's own. -/
  failed : Bool := false
  deriving DecidableEq, Repr, Inhabited

/-- A copy of the boot journal (R414, R415). -/
structure Journal where
  /-- MAGIC and CRC are valid (R414). -/
  valid : Bool := false
  /-- STARTS (R415). -/
  starts : BitVec 16 := 0
  /-- STEP (R415). -/
  step : BitVec 8 := 0
  /-- CAUSE (R415). -/
  cause : BitVec 8 := 0
  /-- STRAPS (R415). -/
  straps : BitVec 8 := 0
  /-- SOURCE (R415). -/
  source : BitVec 8 := 0
  /-- FUSES (R415). -/
  fuses : BitVec 8 := 0
  /-- SVN (R415). -/
  svn : BitVec 8 := 0
  /-- S0 to S11 (R416). -/
  entries : Tab JEntry := .empty
  /-- IMAGE_VERSION (R415). -/
  imageVersion : BitVec 16 := 0
  /-- PATCH_VERSION (R415). -/
  patchVersion : BitVec 16 := 0
  /-- source that S3 to S5 try; R415 gives it no field (log 64) (R412). The model's own. -/
  trying : BitVec 2 := 0
  deriving DecidableEq, Repr, Inhabited

/-- Boot, straps and spares (15_boot_straps_spares.md). -/
structure Boot where
  /-- time since the release of RST_N, in units of 10 us, at the last boot event (R416). -/
  t0 : Nat := 0
  /-- that time at the main PLL lock (R416). -/
  lock : Nat := 0
  /-- boot step in progress (0 to 11), 12 when S11 has ended (R409). -/
  step : Nat := 0
  /-- P.0F01 last step ended (R427). -/
  ended : Nat := 0
  /-- variant in which the step runs (R411). -/
  variant : BitVec 2 := 0
  /-- P.0F01 bits 17:6 (R427). -/
  notNormal : BitVec 12 := 0
  /-- SOURCE: image in use (R415). -/
  source : BitVec 2 := 0
  /-- source that S3 tries now (R417). -/
  srcNow : BitVec 2 := 0
  /-- sources that have failed in this start (R417). -/
  tried : BitVec 4 := 0
  /-- the ROM waits for BOOT.IMAGE (R417). -/
  waitImage : Bool := false
  /-- the worker waits for the multicast image (R417). -/
  linkImage : Bool := false
  /-- time of the worker's admission, in the units of `t0` (R417). -/
  admitAt : Nat := 0
  /-- image fetched at S3 (R418). -/
  image : Option Bytes := none
  /-- firmware runs (R413). -/
  firmware : Bool := false
  /-- the history is to be loaded from the flash copy at S3 (R414). -/
  needLoad : Bool := false
  /-- bit n: Sn does not run in its normal form in this start (R411). -/
  plan : BitVec 12 := 0
  /-- units newly failed, for the event at S11 (R426). -/
  newFails : Nat := 0
  /-- S11 reached (R505). -/
  ready : Bool := false
  /-- the main PLL is locked to the internal crystal (R409). -/
  crystal : Bool := false
  /-- P.0F05 bit 0 (R427). -/
  measured : Bool := false
  /-- P.0F05 bit 1 (R427). -/
  lastMap : Bool := false
  /-- P.0F05 bit 2 (R427). -/
  unchecked : Bool := false
  /-- P.0F05 bit 3 (R427). -/
  written : Bool := false
  /-- level DAC that each spare string stands for: channel and level (R421). -/
  strings : Tab (Option (Nat × BitVec 3)) := .empty
  /-- measured figures of S10 (R425). Reset value: DESIGN CHOICE (log 3). -/
  figures : List (Nat × Int) := []
  deriving DecidableEq, Repr, Inhabited

/-- An error report (R428). -/
structure Report where
  /-- line (R428). -/
  line : BitVec 6 := 0
  /-- class: 0 C, 1 U, 2 F, 3 unclassified (R432). -/
  cls : BitVec 2 := 0
  /-- cause code (R429). -/
  cause : BitVec 8 := 0
  /-- UNIT (R428). -/
  unit : BitVec 16 := 0
  /-- DETAIL (R428). -/
  detail : BitVec 32 := 0
  /-- stamp (R428). -/
  stamp : Nat := 0
  /-- epoch (R428). -/
  epoch : BitVec 16 := 0
  deriving DecidableEq, Repr, Inhabited

/-- Counters and first report of an error line (R431). -/
structure FcLine where
  /-- counter C (R431). -/
  c : BitVec 16 := 0
  /-- counter U (R431). -/
  u : BitVec 16 := 0
  /-- counter F (R431). -/
  f : BitVec 16 := 0
  /-- first report since cleared (R431). -/
  first : Option Report := none
  /-- instant of the last corrected-fault event (R432). -/
  lastC : Option Nat := none
  /-- epoch, sequencer clock and class of the last report counted (R431, R432). -/
  last : Option (BitVec 16 × Nat × BitVec 2) := none
  deriving DecidableEq, Repr, Inhabited

/-- An injection that is active (R437). -/
structure Inject where
  /-- FC.INJECT; none for the register (R437). -/
  tag : Option (BitVec 12) := none
  /-- injection word (R437). -/
  word : BitVec 64 := 0
  /-- stamp (R437). -/
  since : Nat := 0
  /-- the injected report has reached its line (R438). -/
  presented : Bool := false
  deriving DecidableEq, Repr, Inhabited

/-- Decaf mode (R439, R440). -/
structure Decaf where
  /-- cause (R439). -/
  cause : BitVec 4 := 0
  /-- line (R458). -/
  line : BitVec 6 := 0
  /-- NORAMP (R441). -/
  noRamp : Bool := false
  /-- stamp of the cause (R440). -/
  since : Nat := 0
  /-- step 3 has been taken (R440). -/
  clamps : Bool := false
  /-- step 6 has ended (R440). -/
  safe : Bool := false
  /-- BOOT.HEALTH ran in this Decaf mode (R444). -/
  health : Bool := false
  /-- FC.DECAF commands that wait for step 6 (R456). -/
  tags : List (BitVec 12) := []
  deriving DecidableEq, Repr, Inhabited

/-- A report or update for the Cupping Log (R436, R447). -/
structure LogItem where
  /-- KIND (R447). -/
  kind : BitVec 8 := 0
  /-- SUB (R447). -/
  sub : BitVec 8 := 0
  /-- INJ (R446). -/
  inj : Bool := false
  /-- INJ_ACTIVE (R446). -/
  injActive : Bool := false
  /-- NORAMP (R446). -/
  noRamp : Bool := false
  /-- epoch of STAMP (R446). -/
  epoch : BitVec 16 := 0
  /-- STAMP (R446). -/
  stamp : Nat := 0
  /-- LAST (R447). -/
  last : Nat := 0
  /-- TQ (R446). -/
  tq : BitVec 4 := 0
  /-- repeats merged (R436). -/
  rep : Nat := 0
  /-- key beyond KIND and SUB (R447). -/
  key : List Nat := []
  /-- fields of BODY in the order of its table (R447). -/
  body : List Int := []
  /-- due for the permanent area (R452). -/
  perm : Bool := false
  /-- event of the report, CODE and DATA, committed with its record (R457). The model's own. -/
  event : Option (Nat × List Int) := none
  /-- the FAULT record of the active injection (R437). -/
  injected : Bool := false
  /-- waited in the holding queue (R449). -/
  held : Bool := false
  deriving DecidableEq, Repr, Inhabited

/-- A record of the Cupping Log (R446). -/
structure LogRec where
  /-- what it holds (R446). -/
  item : LogItem := {}
  /-- REPEAT (R446). -/
  rep : Nat := 0
  /-- SEQ (R446). -/
  seq : BitVec 32 := 0
  /-- POSITION (R446). -/
  position : BitVec 8 := 0
  /-- CLOSED (R446). -/
  closed : Bool := false
  /-- PERM (R446). -/
  perm : Bool := false
  /-- START, once copied (R446). -/
  start : BitVec 24 := 0
  /-- copied to flash (R445). -/
  copied : Bool := false
  /-- failed copies (R453). -/
  fails : Nat := 0
  /-- instant of its last update (R448). -/
  touched : Nat := 0
  deriving DecidableEq, Repr, Inhabited

/-- The Cupping Log (16_faults_and_cupping_log.md). -/
structure Log where
  /-- queue of the writer (FAULT reports: 16 entries) (R436). -/
  queue : List LogItem := []
  /-- log RAM, 256 records (R445). -/
  ram : Tab (Option LogRec) := .empty
  /-- slot that the next record takes (R445). Reset value: DESIGN CHOICE (log 3). -/
  nextIdx : Nat := 0
  /-- LOG_NEWEST (EMPTY at reset) (R503). -/
  newest : Option Nat := none
  /-- closed records not yet copied, in the order in which they closed (R452). -/
  closing : List Nat := []
  /-- GEN (R451). -/
  gen : BitVec 32 := 0
  /-- holding queue, at most 32 (R449). -/
  hold : List LogItem := []
  /-- arrivals lost in the freeze in force (R449). -/
  holdLost : Nat := 0
  /-- FREEZE (R512). -/
  freeze : Bool := false
  /-- instant at which it was set (R449). Reset value: DESIGN CHOICE (log 3). -/
  freezeAt : Nat := 0
  /-- TIMEOUT (R512). -/
  timeout : Bool := false
  /-- P.0D05 (R458). -/
  lost : Nat := 0
  /-- P.0D06 flash write failures (R458). -/
  writeFails : Nat := 0
  /-- P.0D07, ms (R458). -/
  closeIdle : Nat := 1000
  /-- P.0D08, s (R458). -/
  extWindow : Nat := 3600
  /-- log-clear nonce (R454). -/
  nonce : Option (BitVec 128) := none
  /-- START of this start (R452). Reset value: DESIGN CHOICE (log 3). -/
  start : BitVec 24 := 0
  /-- LOG.SYNC commands that wait (R456). -/
  syncTags : List (BitVec 12) := []
  deriving DecidableEq, Repr, Inhabited

/-- The fault collector (16_faults_and_cupping_log.md). -/
structure Fc where
  /-- LINE (R430). -/
  lines : BitVec 48 := 0
  /-- C (R430). -/
  c : Bool := false
  /-- U (R430). -/
  u : Bool := false
  /-- F (R430). -/
  f : Bool := false
  /-- OVERRUN (R430). -/
  overrun : Bool := false
  /-- SELF (R430). -/
  self : Bool := false
  /-- 48 lines (R431). -/
  perLine : Tab FcLine := .empty
  /-- active injection (R437). -/
  inj : Option Inject := none
  /-- Decaf mode (R439). -/
  decaf : Option Decaf := none
  /-- P.0D00, ms (R458). -/
  holdoff : Nat := 1000
  /-- P.0D01 (R458). -/
  overruns : Nat := 0
  /-- P.0D02 (R458). -/
  injected : Nat := 0
  deriving DecidableEq, Repr, Inhabited

/-- A housekeeping channel (R459, R470). -/
structure HkCh where
  /-- latest reading (R470). Reset value: DESIGN CHOICE (log 3). -/
  value : Int := 0
  /-- its stamp (R460). Reset value: DESIGN CHOICE (log 3). -/
  stamp : Nat := 0
  /-- INVALID (R461). -/
  invalid : Bool := false
  /-- sampled in this round (for Tj) (R460). -/
  seen : Bool := false
  /-- minimum since HK.MINMAX (R470). -/
  min : Option Int := none
  /-- maximum since HK.MINMAX (R470). -/
  max : Option Int := none
  deriving DecidableEq, Repr, Inhabited

/-- Housekeeping and thermal protection (17_housekeeping_thermal.md). -/
structure Hk where
  /-- HK000 to HK127 (R459). -/
  ch : Tab HkCh := .empty
  /-- slot in progress (R460). -/
  slot : Nat := 0
  /-- start of the round in progress, on the count that no rewind moves (R460). -/
  roundAt : Nat := 0
  /-- valid temperature channels at the last decision (R470). -/
  valid : Nat := 0
  /-- instant of the last change of each supply's monitor, on that count (R463). -/
  supplyAt : Tab Nat := .empty
  /-- instant at which PE_EN_NEG went high, on that count (R468). -/
  peNegAt : Nat := 0
  /-- P.0C04 (R473). -/
  rounds : Nat := 0
  /-- P.0C00 (R473). -/
  tj : Int := 0
  /-- channel that gave Tj (R471). Reset value: DESIGN CHOICE (log 3). -/
  tjCh : Nat := 0
  /-- P.0C06 (R473). -/
  tjMax : Option Int := none
  /-- stamp of the last decision (R470). Reset value: DESIGN CHOICE (log 3). -/
  decision : Nat := 0
  /-- warning (R464). -/
  warning : Bool := false
  /-- throttle (set by Tj) (R464). -/
  throttle : Bool := false
  /-- THERM_BLIND (R462). -/
  blind : Bool := false
  /-- COOL_OK (R469). -/
  coolOk : Bool := false
  /-- P.0C02 (R473). -/
  supplyOut : BitVec 16 := 0
  /-- last reading of each supply (R472). Reset value: DESIGN CHOICE (log 3). -/
  supplyVal : Tab Int := .empty
  /-- PE_EN_POS (R468). -/
  pePos : Bool := false
  /-- PE_EN_NEG (R468). -/
  peNeg : Bool := false
  /-- MI_EN (R468). -/
  miEn : Bool := false
  /-- PE_EN_POS waits for VSS_PE or 5 ms (R468). -/
  peWait : Bool := false
  /-- P.0C05 (R473). -/
  invalids : Nat := 0
  deriving DecidableEq, Repr, Inhabited

/-- An operation of the flash port (R476 to R481). -/
structure FlashOp where
  /-- FLASH command it serves (R485). -/
  tag : Option (BitVec 12) := none
  /-- what it does (R475). -/
  kind : FlashKind := .read
  /-- address (R475). -/
  addr : Nat := 0
  /-- length in bytes (R475). -/
  len : Nat := 0
  /-- data to program (R475). -/
  data : List (BitVec 8) := []
  /-- opcode in progress (R475). -/
  opcode : BitVec 8 := 0
  /-- the select is being claimed (R477). -/
  claiming : Bool := true
  /-- it waits after a collision (R477). -/
  backoff : Bool := false
  /-- collisions in the operation (R477). -/
  collisions : Nat := 0
  /-- bad words in the operation (R481). -/
  badWords : Nat := 0
  /-- time waited in polling, us (R479). -/
  waited : Nat := 0
  /-- the program or erase has been issued (R479). -/
  issued : Bool := false
  /-- bytes programmed or erased in this sequence (R479). -/
  moved : Nat := 0
  /-- instant of the last claim, poll or collision (R477, R479). -/
  since : Nat := 0
  deriving DecidableEq, Repr, Inhabited

/-- The write-combining buffer of the window (R480). -/
structure XBuf where
  /-- page (R480). -/
  page : Nat := 0
  /-- first offset (R480). -/
  off : Nat := 0
  /-- contiguous bytes (R480). -/
  data : List (BitVec 8) := []
  /-- instant of the last store (R480). -/
  since : Nat := 0
  deriving DecidableEq, Repr, Inhabited

/-- The serial flash port (18_flash_port.md). -/
structure Flash where
  /-- P.1000 (R488). -/
  clk : Nat := 3
  /-- P.1001 (R488). -/
  dummy : Nat := 20
  /-- P.1002, us (R488). -/
  poll : Nat := 2
  /-- P.1003 FLASH_COLLIDE (R488). -/
  collide : Bool := false
  /-- P.1003 NOBLOCK (R488). -/
  noBlock : Bool := false
  /-- P.1003 directory entry found (R488). -/
  found : Bool := false
  /-- P.1003 BLOCK (R488). -/
  block : BitVec 8 := 0
  /-- P.1004 (R488). -/
  collisions : Nat := 0
  /-- P.1005 (R488). -/
  badWords : Nat := 0
  /-- P.1006, MiB (R488). -/
  capacity : Nat := 0
  /-- operation in progress (R476). -/
  op : Option FlashOp := none
  /-- operations that wait for the port (R476). -/
  ops : List FlashOp := []
  /-- write-combining buffer (R480). -/
  xbuf : Option XBuf := none
  /-- bytes that the last window read returned (R480). The model's own. -/
  xread : List (BitVec 8) := []
  deriving DecidableEq, Repr, Inhabited

/-- A directory entry (R483). -/
structure DirEntry where
  /-- PATH (R483). -/
  path : List (BitVec 2) := []
  /-- BLOCK (R483). -/
  block : BitVec 8 := 0
  deriving DecidableEq, Repr, Inhabited

/-- A health record (R423). -/
structure HealthRec where
  /-- position path (R423). -/
  path : List (BitVec 2) := []
  /-- stepping (R423). -/
  stepping : BitVec 8 := 0xC1
  /-- failed slices by bank (R421). -/
  slices : List (Nat × Nat) := []
  /-- failed lanes (R421). -/
  lanes : List (BitVec 4) := []
  /-- LS failed (R421). -/
  lsFailed : Bool := false
  /-- failed tiles (R421). -/
  tiles : List (BitVec 4 × Nat) := []
  /-- failed microcode words (R421). -/
  rows : List (BitVec 4 × BitVec 13) := []
  /-- failed level DAC strings (R421). -/
  strings : List (Nat × BitVec 3) := []
  /-- groups whose spare string failed (R421). -/
  spareStrings : List Nat := []
  /-- failed force DACs (R421). -/
  forceDacs : List Nat := []
  /-- channels that use their second switch (R421). -/
  second : List Nat := []
  /-- channels whose first switch failed (R421). -/
  switch1 : List Nat := []
  /-- channels whose second switch failed (R421). -/
  switch2 : List Nat := []
  /-- bad lanes by port (R421). -/
  portLanes : List (Nat × BitVec 3) := []
  /-- measured figures (R423). -/
  figures : List (Nat × Int) := []
  /-- wear counters by channel (R423). -/
  wear : List (Nat × Nat × Nat) := []
  deriving DecidableEq, Repr, Inhabited

/-- A calibration record (R333). -/
structure CalRec where
  /-- position path (R333). -/
  path : List (BitVec 2) := []
  /-- stepping (R333). -/
  stepping : BitVec 8 := 0xC1
  /-- T_cal (R333). -/
  tCal : Int := 0
  /-- tap values in force (R333). -/
  taps : Tab Tap := .empty
  /-- quality figures (R333). -/
  quality : Tab Quality := .empty
  deriving DecidableEq, Repr, Inhabited

/-- What the board's serial flash holds (R482 to R484, 18_flash_port.md). -/
structure Board where
  /-- bytes of the flash (unlisted: 0xFF, erased) (R482). -/
  bytes : Tab (BitVec 8) := .empty
  /-- directory (R483). Reset value: DESIGN CHOICE (log 12). -/
  dir : List DirEntry := []
  /-- flash copy of the journal (R414). Reset value: DESIGN CHOICE (log 12). -/
  journal : Option Journal := none
  /-- health record (R423). Reset value: DESIGN CHOICE (log 12). -/
  health : Option HealthRec := none
  /-- calibration record (R333). Reset value: DESIGN CHOICE (log 12). -/
  cal : Option CalRec := none
  /-- the two seal slots: a seal record and its calibration set, as bytes; an empty record where the slot holds none (R311, R484). Reset value: DESIGN CHOICE (log 12). -/
  seals : List (Bytes × Bytes) := []
  /-- permanent log area (R452). Reset value: DESIGN CHOICE (log 12). -/
  logPerm : List LogRec := []
  /-- circulating log area, oldest first (R452). Reset value: DESIGN CHOICE (log 12). -/
  logCirc : List LogRec := []
  /-- START of the log header (R452). Reset value: DESIGN CHOICE (log 12). -/
  logStart : BitVec 24 := 0
  deriving DecidableEq, Repr, Inhabited

/-- All of the device that a reset, a command or an event may change. -/
structure Dev where
  /-- timeline (R28). -/
  tl : Timeline := {}
  /-- channels (R57). -/
  pins : Pins := {}
  /-- sixteen banks (R17). -/
  banks : Tab Bank := .empty
  /-- sequencers (R151). -/
  seq : Seq := {}
  /-- microcode store (R200). -/
  uc : Uc := {}
  /-- pattern store (R216). -/
  pat : Pat := {}
  /-- capture and Carafe (R263). -/
  cap : Cap := {}
  /-- DSP lanes (R274). -/
  dsp : Dsp := {}
  /-- Metrology Island (R293). -/
  mi : Island := {}
  /-- calibration (R321). -/
  cal : Cal := {}
  /-- control complex (R341). -/
  ctl : Ctl := {}
  /-- direct registers (R503). -/
  regs : Regs := {}
  /-- tree and host attachment (R377). -/
  tree : Tree := {}
  /-- boot (R409). -/
  boot : Boot := {}
  /-- fault collector (R428). -/
  fc : Fc := {}
  /-- Cupping Log (R445). -/
  log : Log := {}
  /-- housekeeping (R459). -/
  hk : Hk := {}
  /-- flash port (R474). -/
  flash : Flash := {}
  /-- the board's flash (R482). -/
  board : Board := {}
  /-- always-on copy of the journal (R414). -/
  journal : Journal := {}
  /-- shutdown latch (R467). -/
  shutLatch : Bool := false
  /-- counter of free values handed out (log 6); no statement rests on it. The model's own. -/
  free : Nat := 0
  deriving DecidableEq, Repr, Inhabited

/-- Fuses (R420, R489). -/
structure Fuses where
  /-- fuses blown: the rollback counter, 0 to 64 (R420, R427). -/
  rollback : Nat := 0
  /-- trimmed bandgap value in 100 uV (R470, R489). Reset value: DESIGN CHOICE (log 3). -/
  bandgap : Int := 12000
  deriving DecidableEq, Repr, Inhabited

/-- The whole block with the queue of the commands that wait. -/
structure State where
  /-- straps sampled at the last release of RST_N (R406 gives defaults for STRAP_ROLE and STRAP_BOOT) (R406, R407). Reset value: DESIGN CHOICE (log 3). -/
  straps : Straps := {}
  /-- fuses (R420). -/
  fuses : Fuses := {}
  /-- everything that a reset, a command or an event may change (R408). -/
  dev : Dev := {}
  /-- commands that wait, first in, first out. The model's own. -/
  pending : List Instr := []
  deriving DecidableEq, Repr

/-- Why the machine stops: no command of the table stops it. -/
inductive Fault where
  /-- A device that stress beyond the ranges of R489 has damaged. Raised by no command: the device goes on (log entry 128). -/
  | damaged
  deriving DecidableEq, Repr

/-- Why the model refuses a command. -/
inductive Refusal where
  /-- Raised by a command of the table that has no meaning yet, with its mnemonic. Safe: nothing is claimed of it. -/
  | notModelled (mnemonic : String)
  deriving DecidableEq, Repr

/-- The block right after reset: every field at its default, the queue empty. -/
def State.reset : State := {}

end Sys2Proof.Machine
end

