-- ==== Sys2Proof/Machine/Ops.lean ====
section
/-!
DEFINITION. The named operations over the state that every family shares: tables, the units of the device, stamps and time
quality, records and their commit in the order of R25, completions and jobs, log items.
-/
namespace Sys2Proof

/-- Words of a packet in the Carafe: two of header and the payload (R265). -/
def Packet.len (p : Packet) : Nat := 2 + p.words.length

/-- The role is manager (R20). -/
def Straps.isManager (s : Straps) : Bool := s.role == 1
/-- The role is worker (R20). -/
def Straps.isWorker (s : Straps) : Bool := s.role == 2
/-- The role is standalone (R20). -/
def Straps.isStandalone (s : Straps) : Bool := s.role == 0

end Sys2Proof

namespace Sys2Proof.Machine

/-! ### Tables -/

/-- The value of a table at an index; `d` where the index is not listed. -/
def Tab.get {α : Type} (d : α) (t : Tab α) (i : Nat) : α := (t.cells.lookup i).getD d

/-- The table with a new value at an index: the cells below it, its own cell unless the value is the default, the cells above. -/
def Tab.set {α : Type} [DecidableEq α] (d : α) (t : Tab α) (i : Nat) (v : α) : Tab α :=
  ⟨t.cells.filter (fun c => decide (c.1 < i)) ++ (if v = d then [] else [(i, v)]) ++ t.cells.filter fun c => decide (i < c.1)⟩

/-- The table with the value at an index changed. -/
def Tab.mod {α : Type} [DecidableEq α] (d : α) (t : Tab α) (i : Nat) (f : α → α) : Tab α := t.set d i (f (t.get d i))

/-- The canonical form of a table: indices rise, and no cell is at the default (log entry 15). -/
def Tab.wf {α : Type} [DecidableEq α] (d : α) (t : Tab α) : Bool :=
  decide (t.cells.Pairwise fun a b => a.1 < b.1) && t.cells.all fun c => decide (c.2 ≠ d)

/-- Values of a run of indices. -/
def Tab.range {α : Type} (d : α) (t : Tab α) (first n : Nat) : List α := (List.range n).map fun i => t.get d (first + i)

/-- Every listed value changed; what comes to the default is not listed. -/
def Tab.mapAll {α : Type} [DecidableEq α] (d : α) (t : Tab α) (f : α → α) : Tab α :=
  ⟨(t.cells.map fun c => (c.1, f c.2)).filter fun c => decide (c.2 ≠ d)⟩

/-- Write a run of values from an index. -/
def Tab.fill {α : Type} [DecidableEq α] (d : α) (t : Tab α) : Nat → List α → Tab α
  | _, [] => t
  | i, v :: vs => Tab.fill d (t.set d i v) (i + 1) vs

/-! ### Sets -/

/-- The members of a set held as a mask, ascending (ch. 03, R87). -/
def members {n : Nat} (s : BitVec n) : List Nat := (List.range n).filter fun i => s.getLsbD i

/-- Run an operation for each member of a set, ascending. -/
def forEach {α : Type} (l : List Nat) (f : Nat → α → α) (a : α) : α := l.foldl (fun x i => f i x) a

/-! ### The units of the device -/

/-- A pin channel. -/
def Dev.chan (d : Dev) (i : Nat) : Chan := d.pins.chans.get {} i
/-- Change a pin channel. -/
def Dev.modChan (d : Dev) (i : Nat) (f : Chan → Chan) : Dev :=
  { d with pins := { d.pins with chans := d.pins.chans.mod {} i f } }
/-- A PMU. -/
def Dev.pmu (d : Dev) (i : Nat) : Pmu := (d.chan i).pmu
/-- Change a PMU. -/
def Dev.modPmu (d : Dev) (i : Nat) (f : Pmu → Pmu) : Dev := d.modChan i fun c => { c with pmu := f c.pmu }
/-- A level DAC of a channel. -/
def Chan.level (c : Chan) (l : Nat) : Level := c.levels.get {} l
/-- Change a level DAC of a channel. -/
def Chan.modLevel (c : Chan) (l : Nat) (f : Level → Level) : Chan := { c with levels := c.levels.mod {} l f }
/-- A bank. -/
def Dev.bank (d : Dev) (b : Nat) : Bank := d.banks.get {} b
/-- Change a bank. -/
def Dev.modBank (d : Dev) (b : Nat) (f : Bank → Bank) : Dev := { d with banks := d.banks.mod {} b f }
/-- A capture ring. -/
def Dev.ring (d : Dev) (b r : Nat) : Ring := (d.bank b).rings.get {} r
/-- Change a capture ring. -/
def Dev.modRing (d : Dev) (b r : Nat) (f : Ring → Ring) : Dev :=
  d.modBank b fun k => { k with rings := k.rings.mod {} r f }
/-- A TDC. -/
def Dev.tdc (d : Dev) (b k : Nat) : Tdc := (d.bank b).tdcs.get {} k
/-- Change a TDC. -/
def Dev.modTdc (d : Dev) (b k : Nat) (f : Tdc → Tdc) : Dev := d.modBank b fun x => { x with tdcs := x.tdcs.mod {} k f }
/-- A tile of a bank's partition. -/
def Dev.tile (d : Dev) (b k : Nat) : Tile := (d.bank b).tiles.get {} k
/-- Change a tile. -/
def Dev.modTile (d : Dev) (b k : Nat) (f : Tile → Tile) : Dev :=
  d.modBank b fun x => { x with tiles := x.tiles.mod {} k f }
/-- A DSP lane. -/
def Dev.lane (d : Dev) (b : Nat) : Lane := (d.bank b).lane
/-- Change a DSP lane. -/
def Dev.modLane (d : Dev) (b : Nat) (f : Lane → Lane) : Dev := d.modBank b fun x => { x with lane := f x.lane }
/-- A sequencer thread. -/
def Dev.thread (d : Dev) (i : Nat) : Thread := d.seq.threads.get {} i
/-- Change a sequencer thread. -/
def Dev.modThread (d : Dev) (i : Nat) (f : Thread → Thread) : Dev :=
  { d with seq := { d.seq with threads := d.seq.threads.mod {} i f } }
/-- A Metrology Unit. -/
def Dev.mu (d : Dev) (i : Nat) : Mu := d.mi.mus.get {} i
/-- Change a Metrology Unit. -/
def Dev.modMu (d : Dev) (i : Nat) (f : Mu → Mu) : Dev := { d with mi := { d.mi with mus := d.mi.mus.mod {} i f } }
/-- A page table entry. -/
def Dev.pte (d : Dev) (vpn : Nat) : Pte := d.pat.ptes.get {} vpn
/-- Change a page table entry. -/
def Dev.modPte (d : Dev) (vpn : Nat) (f : Pte → Pte) : Dev :=
  { d with pat := { d.pat with ptes := d.pat.ptes.mod {} vpn f } }
/-- A tree port. -/
def Dev.port (d : Dev) (p : Nat) : Port := d.tree.ports.get {} p
/-- Change a tree port. -/
def Dev.modPort (d : Dev) (p : Nat) (f : Port → Port) : Dev :=
  { d with tree := { d.tree with ports := d.tree.ports.mod {} p f } }
/-- Throttle is in force: set by Tj, or applied while THERM_BLIND is set (R462, R466). -/
def Hk.hot (k : Hk) : Bool := k.throttle || k.blind
/-- A cross-chip line. -/
def Dev.xt (d : Dev) (l : Nat) : Xt := d.cap.xt.get {} l
/-- Change a cross-chip line. -/
def Dev.modXt (d : Dev) (l : Nat) (f : Xt → Xt) : Dev := { d with cap := { d.cap with xt := d.cap.xt.mod {} l f } }

/-- A channel's bank (00_scope.md). -/
def bankOf (ch : Nat) : Nat := ch / 32
/-- The thread that owns a channel's lane group (R17), if one does. -/
def Dev.ownerOf (d : Dev) (ch : Nat) : Option Nat :=
  ((List.range 4).map fun k => 4 * bankOf ch + k).find? fun t => (d.thread t).groups.getLsbD (ch % 32 / 8)
/-- The channels of a thread, ascending. -/
def Dev.chansOf (d : Dev) (t : Nat) : List Nat :=
  ((List.range 32).filter fun k => (d.thread t).groups.getLsbD (k / 8)).map fun k => 32 * (t / 4) + k
/-- The lead of the site that a thread belongs to (R18). -/
def Dev.leadOf (d : Dev) (t : Nat) : Nat := match (d.thread t).lead with | some l => l.toNat | none => t
/-- The threads of the site that a lead drives, the lead first: the same index in consecutive banks (R18). -/
def Dev.site (d : Dev) (lead : Nat) : List Nat := (List.range (max 1 (d.thread lead).members)).map fun k => lead + 4 * k
/-- The channels of a site, ascending. -/
def Dev.siteChans (d : Dev) (lead : Nat) : List Nat := (d.site lead).flatMap d.chansOf

/-! ### Statuses (R356) -/

/-- OK. -/
def stOk : BitVec 4 := 0
/-- QUEUED. -/
def stQueued : BitVec 4 := 1
/-- BUSY. -/
def stBusy : BitVec 4 := 2
/-- CONFLICT. -/
def stConflict : BitVec 4 := 3
/-- LOCKED. -/
def stLocked : BitVec 4 := 4
/-- FAULT. -/
def stFault : BitVec 4 := 5
/-- DENIED. -/
def stDenied : BitVec 4 := 6
/-- BADARG. -/
def stBadarg : BitVec 4 := 7
/-- TIMEOUT. -/
def stTimeout : BitVec 4 := 8
/-- ABORTED. -/
def stAborted : BitVec 4 := 9
/-- PREEMPTED. -/
def stPreempted : BitVec 4 := 10

/-- The place of a status in the order of R350, the first FAULT and the last OK. -/
def statusRank (s : BitVec 4) : Nat :=
  match [stFault, stDenied, stConflict, stLocked, stBusy, stBadarg, stTimeout, stAborted, stPreempted].idxOf? s with
  | some i => i
  | none => 9

/-! ### Stamps and time quality (02_timeline.md) -/

/-- Phase steps in a grain (R11). -/
def grainSteps : Nat := 1024
/-- Phase steps in a sequencer clock (R49). -/
def clk : Nat := 128

/-- A stamp of the present epoch as phase steps since the count began. -/
def Timeline.monoAt (t : Timeline) (stamp : Nat) : Nat := (t.base + stamp).toNat

/-- The present as phase steps since the count began: durations are measured with it, across rewinds. -/
def Dev.mono (d : Dev) : Nat := d.tl.monoAt d.tl.now

/-- TQ of R31; holdover brings REF_COLD with it (R38, R39), and a worker's stamps have what its last timeline marker said
of the sender's (R390; log entry 70). -/
def Timeline.tq (t : Timeline) : BitVec 4 :=
  (if t.warm ∧ ¬ t.holdover then 0 else 1) ||| (if t.tlLocal then 2 else 0) ||| (if t.holdover then 4 else 0) |||
    (if t.source = 2 then t.upTq &&& 0b0110 else 0)

/-- The conditions of TQ that held at some stamp from `start` to the present (R31). -/
def Timeline.tqSince (t : Timeline) (start : Nat) : BitVec 4 :=
  let held := fun (o : Option Nat) (b : BitVec 4) => if o.any (fun x => decide (t.monoAt start ≤ x)) then b else 0
  t.tq ||| held t.heldCold 1 ||| held t.heldLocal 2 ||| held t.heldOver 4

/-- The values that a read of this stamp returns and a write of this stamp clears: RC parameters by ID, and the bits of the
W1C registers at 0x10000 plus their offset (R7, R8). -/
def Dev.clearable (d : Dev) : List (Nat × Nat) :=
  [(0x0004, d.ctl.evtLost), (0x0005, d.ctl.dupTags), (0x0006, d.ctl.preempts), (0x0007, d.ctl.resStall),
   (0x0008, d.ctl.dispatchMax), (0x0009, d.ctl.doorbells), (0x0304, d.pins.limitEvents), (0x0402, d.pins.tdcMissed),
   (0x0505, d.seq.underruns), (0x0506, d.seq.progErrs), (0x0507, d.seq.stallTime), (0x0603, d.uc.corrected),
   (0x0604, d.uc.pollMax), (0x0702, d.pat.demands), (0x0703, d.pat.drops), (0x0704, d.pat.checkFails),
   (0x0705, d.pat.faultMax), (0x0803, d.cap.poisoned), (0x0804, d.cap.flushed), (0x0805, d.cap.drops),
   (0x0806, d.cap.discarded), (0x0807, d.cap.xtLost), (0x0809, d.cap.flowDelays), (0x080A, d.cap.failLogLost),
   (0x0902, d.dsp.drops), (0x0903, d.dsp.skips), (0x0904, d.dsp.satRuns), (0x0A05, d.mi.crcErrors), (0x0A06, d.mi.results),
   (0x0B05, d.cal.runs), (0x0C05, d.hk.invalids),
   (0x0C06, match d.hk.tjMax with | some v => twos 32 v + 1 | none => 0), (0x0D01, d.fc.overruns), (0x0D02, d.fc.injected), (0x0D05, d.log.lost),
   (0x0E05, d.tree.retrains), (0x0E06, d.tree.replays), (0x1004, d.flash.collisions), (0x1005, d.flash.badWords)]

/-- The bits of the W1C registers (R430, R507, R509, R510, R512), as `Dev.clearable` lists them. -/
def Dev.clearableBits (d : Dev) : List (Nat × Nat) :=
  [(0x10180, packFields [(4, d.regs.errGeom.toNat), (4, d.regs.errEn.toNat), (4, 0), (1, bit d.regs.badAccess)]),
   (0x10200, d.regs.irqSummary.toNat),
   (0x10300, packFields [(48, d.fc.lines.toNat), (8, 0), (1, bit d.fc.c), (1, bit d.fc.u), (1, bit d.fc.f), (1, bit d.fc.overrun)]),
   (0x10310, packFields [(1, 0), (1, bit d.regs.refused), (1, bit d.regs.done)]),
   (0x10600, packFields [(1, 0), (1, bit d.log.timeout)])]

/-- What stands at the arrival at a stamp. -/
def Dev.standing (d : Dev) : Tab Nat := ⟨(d.clearable ++ d.clearableBits).filter fun c => decide (c.2 ≠ 0)⟩

/-- The count moves on to a stamp: what held until then is noted (R31), and a warm state that was sent for a stamp on the
way is taken over (R36). -/
def Timeline.move (t : Timeline) (z : Nat) : Timeline :=
  let m := some (t.monoAt z)
  let q := t.tq
  let t := { t with
    now := z, heldCold := if q.getLsbD 0 then m else t.heldCold, heldLocal := if q.getLsbD 1 then m else t.heldLocal
    heldOver := if q.getLsbD 2 then m else t.heldOver }
  match t.warmPend with
  | some (w, e, s) =>
    if e = t.epoch ∧ s ≤ z then
      { t with warm := w, warmStamp := s, warmEpoch := e, warmPend := none
               heldCold := if w ∧ ¬ t.holdover then some (t.monoAt s) else t.heldCold }
    else t
  | none => t

/-- Where the present stands when something happens at a stamp: not before it, and not past the stamp of a pending rewind,
which ends the epoch (R40). -/
def Timeline.reach (t : Timeline) (stamp : Nat) : Nat :=
  max t.now (match t.rewind with | some r => min r stamp | none => stamp)

/-- The present moves on to a stamp that is not before it, once the count has started (R28, R30, R40). -/
def Dev.advance (d : Dev) (t : Nat) : Dev :=
  if ¬ d.tl.running then { d with tl := { d.tl with before := d.standing } }
  else if d.tl.reach t = d.tl.now then d
  else { d with tl := { d.tl.move (d.tl.reach t) with before := d.standing } }

/-- TQ without REF_COLD, which voltage, current and count results do not carry (R32). -/
def noCold (q : BitVec 4) : BitVec 4 := q &&& 0b1110

/-- TQ of a result: what was gathered over it, and every condition that held from its start to the present (R31); a start in
an epoch that has ended lies before the present count. -/
def Dev.tqOver (d : Dev) (gathered : BitVec 4) (epoch : BitVec 16) (start : Nat) : BitVec 4 :=
  gathered ||| (if epoch = d.tl.epoch then d.tl.tqSince start else d.tl.tqSince 0)

/-- Number a precedes number b in a count of `n` bits (R26, R44). -/
def precedes {n : Nat} (a b : BitVec n) : Bool := decide (1 ≤ (b - a).toNat ∧ (b - a).toNat < 2 ^ (n - 1))

/-- What orders a record against others (R12, R24, R47). -/
structure RecordId where
  epoch : BitVec 16 := 0
  stamp : Nat := 0
  position : BitVec 8 := 0
  seq : BitVec 32 := 0
  deriving DecidableEq, Repr, Inhabited

/-- Commit order of the records of one device (R47). -/
def RecordId.commitsBefore (a b : RecordId) : Bool := if a.epoch ≠ b.epoch then precedes a.epoch b.epoch else precedes a.seq b.seq

/-- Event order of the records of a tree (R47). -/
def RecordId.precedes (a b : RecordId) : Bool :=
  if a.epoch ≠ b.epoch then Machine.precedes a.epoch b.epoch
  else if a.stamp ≠ b.stamp then decide (a.stamp < b.stamp)
  else if a.position ≠ b.position then decide (a.position.toNat < b.position.toNat)
  else Machine.precedes a.seq b.seq

/-! ### Balls (R501) -/

/-- Row and column, from 1, of the ball of a channel: banks run along the edges from the top clockwise, channels along a field's row
nearest the edge and then inwards, on every other ball (log entry 168). -/
def chanBall (ch : Nat) : Nat × Nat :=
  let line := ch % 32 / 4
  let i := ch / 32 % 4 * 8 + 2 * (ch % 4) + line % 2
  match ch / 128 with
  | 0 => (1 + line, 12 + i)
  | 1 => (12 + i, 54 - line)
  | 2 => (54 - line, 43 - i)
  | _ => (43 - i, 1 + line)

/-! ### Sums and byte strings -/

/-- One byte of CRC-32C, reflected (R212). -/
def crcBits : Nat → BitVec 32 → BitVec 32
  | 0, c => c
  | n + 1, c => crcBits n (if c.getLsbD 0 then (c >>> 1) ^^^ 0x82F63B78 else c >>> 1)

/-- The CRC-32C register after more bytes (R212). -/
def crcStep (c : BitVec 32) : Bytes → BitVec 32
  | [] => c
  | b :: bs => crcStep (crcBits 8 (c ^^^ b.setWidth 32)) bs

/-- CRC-32C of a byte string (R212). -/
def crc32c (bs : Bytes) : BitVec 32 := ~~~ (crcStep 0xFFFFFFFF bs)

/-- Distance rounded half up: floor(a / b + 1/2) (R107, R144, R302). -/
def roundDiv (a : Int) (b : Nat) : Int := (2 * a + b) / (2 * b : Nat)

/-- A sum that stops at the top of its counter. -/
def satAdd (top a b : Nat) : Nat := min top (a + b)

/-- A fresh free value and the device that has handed it out (log entry 6). -/
def Dev.fresh (d : Dev) : Nat × Dev := (Config.free d.free, { d with free := d.free + 1 })

/-! ### Log items (R436, R447) -/

/-- What the writer of the log gets: stamp, epoch and TQ are those of the present. -/
def Dev.logItem (d : Dev) (kind sub : Nat) (key : List Nat) (body : List Int) : LogItem :=
  { kind := BitVec.ofNat 8 kind, sub := BitVec.ofNat 8 sub, key := key, body := body, stamp := d.tl.now,
    last := d.tl.now, epoch := d.tl.epoch, tq := d.tl.tq, injActive := d.fc.inj.isSome }

/-- Hand an item to the writer's queue. -/
def Dev.pushLog (d : Dev) (i : LogItem) : Dev := { d with log := { d.log with queue := d.log.queue ++ [i] } }

/-! ### Records: the device sequence number, interrupts, completions, events, packets (R24 to R26) -/

/-- Take the next device sequence number; a wrap writes a log record (R24, R26). -/
def Dev.takeSeq (d : Dev) : Dev :=
  let d := if d.ctl.seq = 0xFFFFFFFF then d.pushLog { d.logItem 8 0 [0] [0] with perm := false } else d
  { d with ctl := { d.ctl with seq := d.ctl.seq + 1 } }

/-- Send a message on a vector, or make it pending when the vector is masked (R361, R509). -/
def Dev.message (d : Dev) (v : Nat) : Dev :=
  let q := d.ctl.irqs.get ({} : Irq) v
  let q' := { q with n := 0 }
  let c := { d.ctl with irqs := d.ctl.irqs.set {} v (if q.masked then { q' with pending := true } else { q' with sent := q.sent + 1 }) }
  { d with ctl := c, regs := if q.masked then d.regs else { d.regs with irqSummary := d.regs.irqSummary ||| (1 <<< v) } }

/-- One more entry or advance on a vector: the moderation of R361; vector 63 is not moderated (R360). -/
def Dev.signal (d : Dev) (v : Nat) : Dev :=
  let q := d.ctl.irqs.get ({} : Irq) v
  if v = 63 ∨ q.n + 1 ≥ q.count ∨ q.holdoff = 0 then d.message v
  else
    let q' := { q with n := q.n + 1, first := if q.n = 0 then d.mono else q.first }
    { d with ctl := { d.ctl with irqs := d.ctl.irqs.set {} v q' } }

/-- A ring has room for one more entry: it is enabled and the next write does not reach the head (R347, R507). -/
def RingCfg.room (r : RingCfg) : Bool := r.en && decide ((r.tail + 1) % max 1 r.size.toNat ≠ r.head)

/-- The ring after one entry: the phase inverts when the index wraps (R347). -/
def RingCfg.push (r : RingCfg) : RingCfg :=
  let t := (r.tail + 1) % max 1 r.size.toNat
  { r with tail := t, phase := if t = 0 then !r.phase else r.phase }

/-- What TL.NOW returns (R55): epoch, stamp and TQ of the present. -/
def Timeline.answer (t : Timeline) : List Int := [(t.epoch.toNat : Int), (t.now : Int), (t.tq.toNat : Int)]

/-- A completion as it is committed now: sequence number; stamp, epoch and TQ of the commit where the command table names
none; SCHED and the TQ of the commit where the named stamp lies after it (R31, R46, R345); TL.NOW returns the present of its
completion (R55). -/
def Dev.stampCpl (d : Dev) (c : Cpl) : Cpl :=
  let ahead := c.own && c.epoch == d.tl.epoch && decide (d.tl.now < c.stamp)
  let c := if c.own then c else { c with stamp := d.tl.now, epoch := d.tl.epoch, tq := d.tl.tq }
  { c with
    seq := d.ctl.seq, sched := ahead, tq := if ahead then d.tl.tq else c.tq
    resp := if c.opcode = 0x0100 ∧ c.resp ≠ [] then d.tl.answer else c.resp }

/-- Write a completion into its ring (R347); one that a worker wrote keeps its sequence number (R349). -/
def Dev.ringCpl (d : Dev) (c : Cpl) : Dev :=
  let c := { (if c.fwd then c else d.stampCpl c) with phase := d.ctl.cpl.phase }
  let d := if c.fwd then d else d.takeSeq
  let d := { d with ctl := { d.ctl with
    cpl := d.ctl.cpl.push, cplOut := d.ctl.cplOut ++ [c]
    written := d.ctl.written ++ [(d.ctl.cpl.base.toNat + 32 * d.ctl.cpl.tail, cplBytes c)] } }
  d.signal (d.ctl.cplMap.get 0 c.stream.toNat)

/-- A record of an epoch that has ended is put before the records of the present epoch that wait (R43). -/
def putOld {α : Type} (old : α → Bool) (x : α) (l : List α) : List α :=
  if old x then l.takeWhile old ++ x :: l.dropWhile old else l ++ [x]

/-- A completion carries the stamp of an epoch that has ended. -/
def Dev.oldCpl (d : Dev) (c : Cpl) : Bool := c.own && c.epoch != d.tl.epoch

/-- A record may be committed now: records of an earlier epoch come first (R43). -/
def Dev.inTurn (d : Dev) (old : Bool) : Bool := !d.ctl.behind || old

/-- Commit a completion of a command that came from `o`: into the ring or the queues of R347, up the tree (R349), or as
the reply of the recovery function (R376). -/
def Dev.commitCpl (d : Dev) (o : Origin) (c : Cpl) : Dev :=
  match o with
  | .ring =>
    if d.ctl.cpl.room ∧ d.inTurn (d.oldCpl c) ∧ d.ctl.heldCpl = [] ∧ d.ctl.heldCpl0 = [] then d.ringCpl c
    else if d.ctl.heldCpl.length < 1024 then { d with ctl := { d.ctl with heldCpl := putOld d.oldCpl c d.ctl.heldCpl } }
    else { d with ctl := { d.ctl with heldCpl0 := d.ctl.heldCpl0 ++ [c] } }
  | .tree =>
    let c := d.stampCpl c
    let d := d.takeSeq
    { d with ctl := { d.ctl with upCpl := d.ctl.upCpl ++ [c] } }
  | .recovery =>
    let c := d.stampCpl c
    let d := d.takeSeq
    { d with ctl := { d.ctl with recovery := { d.ctl.recovery with replies := d.ctl.recovery.replies ++ [(true, c)] } } }

/-- Write an event into its ring (R347); one that a worker formed keeps its sequence number (R349). -/
def Dev.ringEvt (d : Dev) (e : Evt) : Dev :=
  let e := { e with seq := if e.fwd then e.seq else d.ctl.seq, phase := d.ctl.evt.phase }
  let d := if e.fwd then d else d.takeSeq
  let d := { d with ctl := { d.ctl with
    evt := d.ctl.evt.push, evtOut := d.ctl.evtOut ++ [e]
    written := d.ctl.written ++ [(d.ctl.evt.base.toNat + 32 * d.ctl.evt.tail, evtBytes e)] } }
  d.signal (d.ctl.srcs.get ({} : Src) e.source.toNat).vector

/-- The events-lost event that is owed (R347, R369). -/
def Dev.lostEvt (d : Dev) : Evt :=
  { source := 514, code := 1, data := [d.ctl.lostOwed], position := d.tree.position, epoch := d.tl.epoch,
    stamp := d.tl.now, tq := d.tl.tq }

/-- An event goes up the tree from an admitted worker (R349). -/
def Dev.upEvent (d : Dev) (e : Evt) : Dev :=
  let e := { e with seq := if e.fwd then e.seq else d.ctl.seq }
  let d := if e.fwd then d else d.takeSeq
  { d with ctl := { d.ctl with upEvt := d.ctl.upEvt ++ [e] } }

/-- An event leaves the device: up the tree from an admitted worker, else into the ring. -/
def Dev.sendEvt (d : Dev) (e : Evt) : Dev := if d.tree.admitted then d.upEvent e else d.ringEvt e

/-- Commit an event: up the tree from an admitted worker (R349), else into the ring or its queue; an event that finds the
queue full is lost and counted (R347). What waits goes first, and so do records of an earlier epoch (R43). -/
def Dev.commitEvt (d : Dev) (e : Evt) : Dev :=
  let old := e.epoch != d.tl.epoch
  if d.inTurn old ∧ d.ctl.heldEvt = [] ∧ d.tree.admitted then d.upEvent e
  else if d.inTurn old ∧ d.ctl.heldEvt = [] ∧ d.ctl.evt.room ∧ d.ctl.lostOwed = 0 then d.ringEvt e
  else if d.ctl.heldEvt.length < 512 then
    { d with ctl := { d.ctl with heldEvt := putOld (fun x => x.epoch != d.tl.epoch) e d.ctl.heldEvt } }
  else { d with ctl := { d.ctl with evtLost := d.ctl.evtLost + 1, lostOwed := d.ctl.lostOwed + 1 } }

/-- Form an event of a source that is enabled (R360, R368); it is committed with the other records of this command. -/
def Dev.postAt (d : Dev) (source code : Nat) (data : List Int) (epoch : BitVec 16) (stamp : Nat) (tq : BitVec 4) : Dev :=
  if (d.ctl.srcs.get ({} : Src) source).off then d
  else
    let e : Evt := { source := BitVec.ofNat 10 source, code := BitVec.ofNat 8 code, data := data,
                     position := d.tree.position, epoch := epoch, stamp := stamp, tq := tq }
    { d with ctl := { d.ctl with outbox := { d.ctl.outbox with events := d.ctl.outbox.events ++ [e] } } }

/-- Form an event stamped with the present. -/
def Dev.post (d : Dev) (source code : Nat) (data : List Int) : Dev :=
  d.postAt source code data d.tl.epoch d.tl.now d.tl.tq

/-- Form a message for the Tyisk links. -/
def Dev.linkOut (d : Dev) (m : LinkMsg) : Dev :=
  { d with ctl := { d.ctl with outbox := { d.ctl.outbox with links := d.ctl.outbox.links ++ [m] } } }

/-- A DMA engine writes bytes to host memory (R338). -/
def Dev.hostWrite (d : Dev) (a : Nat) (bs : Bytes) : Dev :=
  { d with ctl := { d.ctl with outbox := { d.ctl.outbox with written := d.ctl.outbox.written ++ [(a, bs)] } } }

/-- Form a result packet (R265). -/
def Dev.packet (d : Dev) (p : Packet) : Dev :=
  let p := { p with position := d.tree.position }
  { d with ctl := { d.ctl with outbox := { d.ctl.outbox with packets := d.ctl.outbox.packets ++ [p] } } }

/-- Words in the Carafe (R269). -/
def Cap.fill (c : Cap) : Nat := (c.carafe.map Packet.len).sum

/-- Words in a producer's staging buffer. -/
def Cap.stagingFill (c : Cap) (p : Nat) : Nat := ((c.staging.get [] p).map Packet.len).sum

/-- FIFO_HI after a change of the fill at an instant (R269). -/
def Cap.marks (c : Cap) (now : Nat) : Cap :=
  let hi := if c.fill ≥ c.hiMark then true else if c.fill ≤ c.loMark then false else c.fifoHi
  { c with fifoHi := hi, fifoHiAt := if hi = c.fifoHi then c.fifoHiAt else some now }

/-- Move the front packet of a producer's staging buffer into the Carafe when it fits and its turn has come (R43); its header
takes the sequence number as it enters (R263, R265), and the producer is the last one granted. -/
def Dev.pumpOne (d : Dev) (p : Nat) : Dev :=
  match d.cap.staging.get [] p with
  | [] => d
  | k :: ks =>
    if d.cap.fill + k.len ≤ 16384 ∧ d.inTurn (k.epoch != d.tl.epoch) then
      let k := { k with seq := d.ctl.seq }
      let d := d.takeSeq
      { d with cap := { d.cap with staging := d.cap.staging.set [] p ks, carafe := d.cap.carafe ++ [k], granted := p } }
    else d

/-- Grant the producers round robin, packet by packet, as long as packets fit: a round begins after the producer that was
granted last (R263). -/
def Dev.pump : Nat → Dev → Dev
  | 0, d => d
  | n + 1, d => Dev.pump n (forEach ((List.range 17).map fun k => (d.cap.granted + 1 + k) % 17) (fun p d => d.pumpOne p) d)

/-- A packet reaches its producer's staging buffer: capture data and fail-log entries that find it full are dropped and
counted, and a loss marker is owed; other items wait (R268). -/
def Dev.stage (d : Dev) (p : Packet) : Dev :=
  if (p.kind = 0x09 ∨ p.kind = 0x0B) ∧ d.cap.stagingFill p.producer + p.len > 512 then
    { d with cap := { d.cap with
        drops := d.cap.drops + 1
        failLogLost := if p.kind = 0x0B then d.cap.failLogLost + 1 else d.cap.failLogLost
        lossOwed := d.cap.lossOwed.mod 0 p.producer (· + 1) } }
  else { d with cap := { d.cap with staging := d.cap.staging.mod [] p.producer (putOld (fun k => k.epoch != d.tl.epoch) p) } }

/-- Commit packets: to staging in the order of R25, then into the Carafe. -/
def Dev.commitPackets (d : Dev) (ps : List Packet) : Dev :=
  let d := forEach (List.range 17) (fun k d =>
    (ps.filter fun p => p.producer == k).foldl (fun d p => Dev.pump 1 (d.stage p)) d) d
  let d := d.pump 8
  { d with cap := d.cap.marks d.mono }

/-! ### Completions (R350 to R357) -/

/-- The class of a command, by its opcode (the command tables; R342). -/
def opClass (op : BitVec 16) : Nat :=
  if op ∈ [0x0009, 0x0208, 0x0509, 0x0A06, 0x0D03] then 0
  else if op ∈ [0x0100, 0x0101, 0x0103, 0x0104, 0x0307, 0x0405, 0x0505, 0x0506, 0x0507, 0x0508, 0x0803, 0x0804, 0x0805,
    0x0809, 0x080A, 0x0904, 0x0A05] then 1
  else if op ∈ [0x0305, 0x0502, 0x0503, 0x0600, 0x0702, 0x0703, 0x0704, 0x0806, 0x0901, 0x0902, 0x0905, 0x0A0C, 0x0B03,
    0x0F02, 0x1000, 0x1001] then 3
  else 2

/-- Length of a response of CTL.PGET: for each parameter its entry of 8 bytes and its value, padded to whole words (R364). -/
def pgetLen : List Int → Nat
  | _ :: w :: _ :: r => 8 + (if w = 3 then 32 else if w = 2 then 16 else 8) + pgetLen r
  | _ => 0

/-- Length of a response: given for CTL.INFO (R366), CTL.PGET (R364), TREE.STATE (R403), BOOT.JOURNAL (R415) and FLASH.READ; for the rest a free value where
there is one (log entry 4). -/
def respLen (op : BitVec 16) (r : List Int) : Nat :=
  if r = [] then 0
  else if op = 0x0001 then 64
  else if op = 0x0002 then pgetLen r
  else if op = 0x0E00 then 64 * (r.length / 27)
  else if op = 0x0F00 ∨ op = 0x1000 ∨ op = 0x1004 then r.length
  else Config.respLength op r.length

/-- The aggregate of R350 over the final completions of the devices addressed. -/
def aggregate (cs : List Cpl) : Cpl :=
  let best := cs.foldl (fun m c => min m (statusRank c.status)) 9
  let worst := cs.filter fun c => statusRank c.status == best
  { agg := true
    status := (worst.head?.map (·.status)).getD 0
    a := BitVec.ofNat 16 (worst.foldl (fun m c => min m c.position.toNat) 255)
    count := BitVec.ofNat 16 (cs.filter fun c => c.status != 0).length
    tq := cs.foldl (fun q c => q ||| c.tq) 0
    stamp := cs.foldl (fun m c => max m c.stamp) 0
    epoch := (cs.getLast?.map (·.epoch)).getD 0
    own := true }

/-- Change the flight of a tag (the first one that is not done). -/
def modFlight (tag : Tag) (f : Flight → Flight) : List Flight → List Flight
  | [] => []
  | x :: r => if x.tag = tag ∧ x.done = none then f x :: r else x :: modFlight tag f r

/-- The flight of a tag that has no final completion yet. -/
def Dev.flight (d : Dev) (tag : Tag) : Option Flight := d.ctl.flights.find? fun f => f.tag == tag && f.done == none

/-- Form an interim entry, or an entry that frees no flight (R352, R357). -/
def Dev.interim (d : Dev) (o : Origin) (c : Cpl) : Dev :=
  { d with ctl := { d.ctl with outbox := { d.ctl.outbox with interim := d.ctl.outbox.interim ++ [(o, c)] } } }

/-- A device's share of a command that names a group or the tree ends (R350). -/
def Flight.share (f : Flight) (c : Cpl) : Flight :=
  let f := { f with agg := f.agg ++ [c], targets := f.targets.erase c.position }
  if f.targets = [] then
    { f with done := some { aggregate f.agg with tag := f.tag, stream := f.stream, opcode := f.opcode } }
  else f

/-- Form the final completion of the command that holds a tag; nothing when none does (its completion was written before,
R54). -/
def Dev.finish (d : Dev) (tag : Tag) (c : Cpl) : Dev :=
  match d.flight tag with
  | none => d
  | some f =>
    let n := respLen f.opcode c.resp
    let c := { c with tag := tag, stream := f.stream, opcode := f.opcode, position := d.tree.position, respBytes := n,
                      trunc := (f.respLen.map fun l => decide (n > l)).getD false }
    if f.group then
      let d := if f.perdev then d.interim f.origin { d.stampCpl c with part := true, own := true } else d
      { d with ctl := { d.ctl with flights := modFlight tag (·.share (d.stampCpl c)) d.ctl.flights } }
    else { d with ctl := { d.ctl with flights := modFlight tag (fun f => { f with done := some c }) d.ctl.flights } }

/-- The command is accepted (R352). -/
def Dev.accept (d : Dev) (tag : Tag) : Dev :=
  { d with ctl := { d.ctl with flights := modFlight tag (fun f => { f with accepted := true }) d.ctl.flights } }

/-- Accepted and completed OK at once. -/
def Dev.ok (d : Dev) (tag : Tag) : Dev := (d.accept tag).finish tag {}

/-- Accepted and completed OK with a response. -/
def Dev.okResp (d : Dev) (tag : Tag) (r : List Int) : Dev := (d.accept tag).finish tag { resp := r }

/-- Completed without having been accepted. -/
def Dev.refuse (d : Dev) (tag : Tag) (st : BitVec 4) (a : Nat := 0) (b : Nat := 0) (c : Nat := 0) : Dev :=
  d.finish tag { status := st, a := BitVec.ofNat 16 a, b := BitVec.ofNat 8 b, c := BitVec.ofNat 8 c }

/-- A completion that names a stamp. -/
def stamped (c : Cpl) (tq : BitVec 4) (epoch : BitVec 16) (stamp : Nat) : Cpl :=
  { c with own := true, tq := tq, epoch := epoch, stamp := stamp }

/-- A QUEUED entry for a command, which keeps its place (R86, R353). -/
def Dev.queued (d : Dev) (tag : Tag) (a : Nat) : Dev :=
  match d.flight tag with
  | none => d
  | some f =>
    let d := d.interim f.origin { tag := tag, stream := f.stream, opcode := f.opcode, status := stQueued, fin := false,
                                  position := d.tree.position, a := BitVec.ofNat 16 a }
    { d with ctl := { d.ctl with
        flights := modFlight tag (fun f => { f with accepted := true, queuedOnce := true }) d.ctl.flights } }

/-- The epoch whose records wait for a pending rewind (R43). -/
def Timeline.nextEpoch (t : Timeline) : Option (BitVec 16) := t.rewind.map fun _ => t.epoch + 1

/-- A final completion belongs to no epoch that is still to come, and no record of an earlier epoch is still to be committed
before it (R43, R46). -/
def Dev.mayWrite (d : Dev) (c : Cpl) : Bool := !(c.own && d.tl.nextEpoch == some c.epoch) && d.inTurn (d.oldCpl c)

/-- The final completion of a flight is formed and may be written. -/
def Flight.settled (f : Flight) (ok : Cpl → Bool) : Bool := f.done.any ok

/-- The flights whose final completion may be written now, in entry order of their streams; class 0 and QUEUED commands
keep no place in a stream (R353, R354). -/
def writeable (ok : Cpl → Bool) (seen : List (BitVec 5)) : List Flight → List Flight
  | [] => []
  | f :: r =>
    let free := opClass f.opcode == 0 || f.queuedOnce
    if f.settled ok && (free || !seen.contains f.stream) then f :: writeable ok seen r
    else writeable ok (if free then seen else f.stream :: seen) r

/-- The flights that stay: those that `writeable` leaves. -/
def unwritten (ok : Cpl → Bool) (seen : List (BitVec 5)) : List Flight → List Flight
  | [] => []
  | f :: r =>
    let free := opClass f.opcode == 0 || f.queuedOnce
    if f.settled ok && (free || !seen.contains f.stream) then unwritten ok seen r
    else f :: unwritten ok (if free then seen else f.stream :: seen) r

/-- A record of an epoch that has ended waits for its commit, or is still being gathered: a completion, an event, a packet, a
log item, a measurement whose first sample lies in that epoch (R43). -/
def Dev.oldRecords (d : Dev) : Bool :=
  let old := fun (e : BitVec 16) => e != d.tl.epoch
  d.ctl.heldCpl.any d.oldCpl || d.ctl.heldCpl0.any d.oldCpl || d.ctl.heldEvt.any (fun e => old e.epoch) ||
    d.ctl.outbox.events.any (fun e => old e.epoch) || d.ctl.outbox.packets.any (fun p => old p.epoch) ||
    d.cap.staging.cells.any (fun c => c.2.any fun p => old p.epoch) || d.log.queue.any (fun i => old i.epoch) || d.log.hold.any (fun i => old i.epoch) ||
    d.pins.chans.cells.any (fun c => c.2.pmu.meas.any fun m => m.began && decide (m.n > 0) && old m.epoch) ||
    d.mi.mus.cells.any (fun c => c.2.meas.any fun m => decide (m.got > 0) && old m.epoch) ||
    d.banks.cells.any (fun c => c.2.lane.run.any fun r => r.active && r.first.isSome && old r.epoch)

/-- Records of an earlier epoch are no longer awaited once the last one has been committed (R43). -/
def Dev.settleEpoch (d : Dev) : Dev := { d with ctl := { d.ctl with behind := d.ctl.behind && d.oldRecords } }

/-! ### Tyisk ports (R378 to R382) -/

/-- A message that goes up the tree; every other one goes down (R36, R176, R258 to R260, R349). -/
def linkUp : LinkMsg → Bool
  | .fire .. | .arrival .. | .completion _ | .event _ | .result _ => true
  | _ => false

/-- Traffic class and payload length of a message (R378): 0 M, 1 C0, 2 C1, 3 D. The length of a message that no table lays out is
one packet's. -/
def linkTraffic : LinkMsg → BitVec 2 × Nat
  | .warm .. | .arm .. | .fire .. | .action .. | .arrival .. | .release .. | .rewind .. | .delay _ | .credit .. | .replay => (0, 0)
  | .command e args _ _ => (if opClass e.opcode ≤ 1 then 1 else 2, 64 + args.length)
  | .completion c => (if opClass c.opcode ≤ 1 then 1 else 2, 32)
  | .start .. => (1, 1)
  | .members .. | .event _ | .barrier .. => (2, 32)
  | .result p => (3, 8 * p.len)

/-- The packets of a message: at most 512 bytes each (R378). -/
def linkPackets (m : LinkMsg) : List LinkPkt :=
  let t := linkTraffic m
  if t.1 = 0 then [{ cls := 0, msg := m }]
  else
    let n := max 1 (ceilDiv t.2 512)
    (List.range n).map fun k => { cls := t.1, msg := m, bytes := min 512 (t.2 - 512 * k), last := decide (k + 1 = n) }

/-- A marker that the upstream side sends again after a retrain (R382). -/
def linkAgain : LinkMsg → Bool
  | .fire .. | .action .. | .arrival .. | .release .. => true
  | _ => false

/-- The last packets of a list that take up at most so many bytes. -/
def lastBytes (n : Nat) : List LinkPkt → List LinkPkt
  | [] => []
  | p :: ps => if ((p :: ps).map (·.bytes)).sum ≤ n then p :: ps else lastBytes n ps

/-- What waits of a traffic class, and how much of it has credits: every marker, and of C0, C1 and D what the receiver of the hop
allows (R378). -/
def Link.waiting (l : Link) (c : Nat) : List LinkPkt × Nat :=
  let q := l.queue.filter fun p => p.cls.toNat == c
  (q, if c = 0 then q.length else Config.credits (BitVec.ofNat 2 c) - l.spent.get 0 c)

/-- What may leave a port now, in the precedence of R378; a class that waits blocks no other. -/
def Link.ready (l : Link) : List LinkPkt := (List.range 4).flatMap fun c => (l.waiting c).1.take (l.waiting c).2

/-- The port after what is ready has left it. -/
def Link.depart (l : Link) (now : Nat) : Link :=
  let out := l.ready
  let data := out.filter (·.cls != 0)
  { queue := (List.range 4).flatMap fun c => (l.waiting c).1.drop (l.waiting c).2
    spent := data.foldl (fun t p => t.mod 0 p.cls.toNat (· + 1)) l.spent
    replay := lastBytes 8192 (l.replay ++ data)
    recent := (l.recent ++ (out.filter fun p => linkAgain p.msg).map fun p => (now, p.msg)).filter fun x => decide (now < x.1 + 10 * 100 * grainSteps) }

/-- The ports that a message leaves by: up by the upstream port; down by every downstream port that is in use, and a command or a
group's membership by those that lead to its devices. -/
def Dev.linkPorts (d : Dev) (m : LinkMsg) : List Nat :=
  (List.range 4).filter fun p =>
    let x := d.port p
    if linkUp m then x.upstream && d.tree.admitted
    else !x.upstream && decide (x.up ≠ 0) && (match m with | .command _ _ o _ => o.getLsbD p | _ => true)

/-- What a command formed for the links joins the queues of its ports, and every port that is up sends what is ready (R378); a port
that retrains holds everything (R382). -/
def Dev.sendLinks (d : Dev) (l : List LinkMsg) : Dev :=
  let l := l ++ d.ctl.upCpl.map .completion ++ d.ctl.upEvt.map .event
  let d := l.foldl (fun (d : Dev) m => { d with ctl := { d.ctl with
    links := forEach (d.linkPorts m) (fun p t => t.mod {} p fun x => { x with queue := x.queue ++ linkPackets m }) d.ctl.links } }) d
  forEach (List.range 4) (fun p d =>
    let x := d.ctl.links.get {} p
    if x.queue = [] ∨ (d.port p).up.toNat < 2 then d
    else { d with ctl := { d.ctl with
      sent := d.ctl.sent ++ x.ready.map fun k => (p, k), links := d.ctl.links.set {} p (x.depart d.mono) } }) d

/-- Commit everything that this command formed, in the order of R25: events, completions, result packets. -/
def Dev.commit (d : Dev) : Dev :=
  let d := d.settleEpoch
  let o := d.ctl.outbox
  let ok := d.mayWrite
  let fs := writeable ok [] d.ctl.flights
  let d := { d with ctl := { d.ctl with
    outbox := {}, upCpl := [], upEvt := [], sent := [], written := o.written, flights := unwritten ok [] d.ctl.flights } }
  let d := o.events.foldl (fun d e => d.commitEvt e) d
  let d := o.interim.foldl (fun d c => d.commitCpl c.1 c.2) d
  let d := fs.foldl (fun d f => match f.done with | some c => d.commitCpl f.origin c | none => d) d
  (d.commitPackets o.packets).sendLinks o.links

/-! ### Jobs: accepted commands that act on several units (R72, R101, R515) -/

/-- The job of a command. -/
def Dev.job (d : Dev) (tag : Tag) : Option Job := d.ctl.jobs.find? fun j => j.tag == tag

/-- Open a job. -/
def Dev.openJob (d : Dev) (j : Job) : Dev := { d with ctl := { d.ctl with jobs := d.ctl.jobs ++ [j] } }

/-- Change a job. -/
def Dev.modJob (d : Dev) (tag : Tag) (f : Job → Job) : Dev :=
  { d with ctl := { d.ctl with jobs := d.ctl.jobs.map fun j => if j.tag = tag then f j else j } }

/-- Close a job without a completion. -/
def Dev.dropJob (d : Dev) (tag : Tag) : Dev := { d with ctl := { d.ctl with jobs := d.ctl.jobs.filter fun j => j.tag != tag } }

/-- The completion of a job whose units have all ended: ABORTED, which names the lowest channel cut of a PMU.MEASURE or
PMU.WAVE_RUN (R515), or OK with the latest effect stamp. -/
def Job.cpl (j : Job) (d : Dev) : Cpl :=
  if j.aborted then
    { status := stAborted
      a := if (d.flight j.tag).any fun f => f.opcode == 0x0304 || f.opcode == 0x0306 then BitVec.ofNat 16 (j.cut.getD 0) else 0 }
  else stamped { late := j.late, replaced := decide (j.replaced ≠ 0), a := if j.mask then j.replaced.setWidth 16 else 0, resp := j.vals.cells.map (fun v => (v.2 : Int)) } d.tl.tq d.tl.epoch (j.stamp.getD d.tl.now)

/-- Finish a job whose units have all ended. -/
def Dev.settleJob (d : Dev) (tag : Tag) : Dev :=
  match d.job tag with
  | none => d
  | some j => if j.left = 0 ∧ j.parts = 0 then (d.finish tag (j.cpl d)).dropJob tag else d

/-- One unit of a job ends with its effect at a stamp. -/
def Dev.endUnitAt (d : Dev) (tag : Tag) (u stamp : Nat) : Dev :=
  (d.modJob tag fun j => { j with left := j.left &&& ~~~ (1#512 <<< u), stamp := some (max (j.stamp.getD 0) stamp) }).settleJob tag

/-- One unit of a job ends with its effect, at the present. -/
def Dev.endUnit (d : Dev) (tag : Tag) (u : Nat) : Dev := d.endUnitAt tag u d.tl.now

/-- One unit of a job is replaced at the present (R98, R102). -/
def Dev.replaceUnit (d : Dev) (tag : Tag) (u : Nat) : Dev :=
  (d.modJob tag fun j => { j with replaced := j.replaced ||| 1 }).endUnit tag u

/-- One unit of a job is cut (R515). -/
def Dev.cutUnit (d : Dev) (tag : Tag) (u : Nat) : Dev :=
  (d.modJob tag fun j => { j with left := j.left &&& ~~~ (1#512 <<< u), aborted := true,
                                  cut := some (match j.cut with | some c => min c u | none => u) }).settleJob tag

/-- The whole job of a command ends ABORTED. -/
def Dev.abortJob (d : Dev) (tag : Tag) : Dev := (d.finish tag { status := stAborted }).dropJob tag

/-! ### Scheduled actions (R54) -/

/-- Note a scheduled action. -/
def Dev.addAct (d : Dev) (a : Act) : Dev := { d with tl := { d.tl with acts := d.tl.acts ++ [a] } }

/-- A scheduled action has been taken or removed: the first of its command and kind. -/
def Dev.dropAct (d : Dev) (tag : Tag) (k : ActKind) : Dev :=
  { d with tl := { d.tl with acts := d.tl.acts.eraseP fun a => a.tag == tag && a.kind == k } }

/-- Every scheduled action of a command goes. -/
def Dev.dropActs (d : Dev) (tag : Tag) : Dev := { d with tl := { d.tl with acts := d.tl.acts.filter fun a => a.tag != tag } }

/-- The scheduled action of a command and kind. -/
def Dev.act (d : Dev) (tag : Tag) (k : ActKind) : Option Act := d.tl.acts.find? fun a => a.tag == tag && a.kind == k

/-! ### Commands -/

/-- Run an event of the device: what it forms is committed at its end. -/
def onDev (s : State) (f : Dev → Dev) : Host.Outcome State Fault Refusal := .next { s with dev := (f s.dev).commit }

/-- The state-returning commands of R358, to which R470 adds HK.READ and HK.STATE, and R485 FLASH.READ and
FLASH.INFO. -/
def stateOp (op : BitVec 16) : Bool :=
  op ∈ [0x0100, 0x0102, 0x0206, 0x0207, 0x0309, 0x0403, 0x0406, 0x050B, 0x0603, 0x0708, 0x0709, 0x080B, 0x0906, 0x0A07,
    0x0A08, 0x0B01, 0x0B02, 0x0C00, 0x0C01, 0x1000, 0x1003]

/-- The commands that a device in Decaf mode accepts (R358, R442, R485). -/
def decafOp (op : BitVec 16) : Bool :=
  decide (op < 0x0100) || stateOp op || decide (opClass op = 0) ||
    op ∈ [0x0D00, 0x0D04, 0x0D05, 0x0D06, 0x0D07, 0x0F00, 0x0F01, 0x0F04, 0x0F05]

/-- The commands that the recovery function accepts beside those (R376, R425, R485). -/
def recoveryOp (op : BitVec 16) : Bool :=
  op ∈ [0x0F00, 0x0F01, 0x0F02, 0x0F04, 0x0F05, 0x1000, 0x1001, 0x1002, 0x1003]

/-- The commands that could be accepted now (R353, R354): of those not yet accepted, every one of class 0 and the first of each
stream. -/
def acceptable (seen : List (BitVec 5)) : List Flight → List Flight
  | [] => []
  | f :: r =>
    if f.accepted ∨ f.done ≠ none then acceptable seen r
    else if opClass f.opcode = 0 then f :: acceptable seen r
    else if seen.contains f.stream then acceptable seen r
    else f :: acceptable (f.stream :: seen) r

/-- A command of the stream, of a better class, or of the same class and fetched before is still to be accepted first (R353,
R354), or the queue of held completions is full (R347). -/
def Dev.mustWait (d : Dev) (h : Hdr) (op : BitVec 16) : Bool :=
  let c := opClass op
  let before := d.ctl.flights.takeWhile fun f => !(f.tag == h.tag && f.done == none)
  decide (c ≠ 0) &&
    (decide (d.ctl.heldCpl.length ≥ 1024) ||
      (before.any fun f => f.stream == h.stream && decide (opClass f.opcode ≠ 0) && !f.accepted && f.done == none) ||
      ((acceptable [] d.ctl.flights).any fun f => decide (opClass f.opcode < c)) ||
      (acceptable [] before).any fun f => decide (opClass f.opcode = c))

/-- A command is this device's own affair. -/
def Dev.isMine (d : Dev) (f : Flight) : Bool := f.targets == [] || f.targets.contains d.tree.position

/-- Every host buffer of a command lies inside one window (R340). -/
def Ctl.inWindow (c : Ctl) (b : Nat × Nat) : Bool :=
  (List.range 8).any fun i => (c.windows.get none i).any fun w => decide (w.1 ≤ b.1) && decide (b.1 + b.2 ≤ w.1 + w.2)

/-- What turns a command away before its own checks: Decaf mode (R358, R442), in which a device without firmware serves only
what R413 lists, a device that is not READY (R398), a
non-zero reserved field (R5). -/
def Dev.gate (d : Dev) (o : Origin) (h : Hdr) (op : BitVec 16) : Option Cpl :=
  if d.fc.decaf.isSome then
    if opClass op = 0 ∧ op ≠ 0x0009 then some {}
    else if (if d.boot.firmware then decafOp op || (o == .recovery && recoveryOp op)
        else op == 0x0F00 || (o == .recovery && recoveryOp op)) then (if h.rsv then some { status := stBadarg } else none)
    else some { status := stDenied }
  else if ¬ d.boot.ready ∧ o ≠ .recovery then some { status := stBusy, a := d.tree.position.setWidth 16 }
  else if h.rsv then some { status := stBadarg }
  else none

/-- The actions that TL.CANCEL names no more once a command comes into flight with a tag: what earlier carriers of that tag
have left pending joins those of the other tags (R54). -/
def Dev.orphaned (d : Dev) (tag : Tag) : List Act :=
  d.tl.acts.filter (·.tag == tag) ++ d.ctl.orphans.filter (·.tag != tag)

/-- A command taken up outside the ring's fetch is in flight from now on (log entry 5). -/
def Dev.ensureFlight (d : Dev) (h : Hdr) (op : BitVec 16) : Dev :=
  if (d.flight h.tag).isSome then d
  else { d with ctl := { d.ctl with
    flights := d.ctl.flights ++ [{ tag := h.tag, stream := h.stream, opcode := op }], orphans := d.orphaned h.tag } }

/-- The entry has a tag that another command holds: it is not carried out (R352). -/
def Dev.dupTag (d : Dev) (o : Origin) (h : Hdr) (op : BitVec 16) : Dev :=
  let d := d.interim o { tag := h.tag, stream := h.stream, opcode := op, status := stBadarg, duptag := true,
                         position := d.tree.position }
  { d with ctl := { d.ctl with dupTags := d.ctl.dupTags + 1 } }

/-- A Safety-class command pre-empts CC0 at the granule boundary of a fill (R222). -/
def Dev.preempt (d : Dev) (op : BitVec 16) : Dev :=
  if opClass op = 0 then
    { d with pat := { d.pat with fill := d.pat.fill.map fun f => { f with suspended := true } } }
  else d

/-- End a command whose own meaning does not run: one that ends OK is accepted first (R345). -/
def Dev.turnAway (d : Dev) (g : Tag) (c : Cpl) : Dev := (if c.status = stOk then d.accept g else d).finish g c

/-- Take a host command up: its turn (R353), its tag (R352), and what turns it away. `ok` is the device on which its own
meaning runs; `error` is the device where it does not get so far. -/
def Dev.takeUp (d : Dev) (h : Hdr) (op : BitVec 16) : Except Dev Dev :=
  let d := d.advance h.t
  match d.flight h.tag with
  | some f =>
    if ¬ d.isMine f then .error d
    else if f.accepted ∨ f.opcode ≠ op then .error (d.dupTag .ring h op)
    else if d.mustWait h op then .error d
    else match d.gate f.origin h op with
      | some c => .error (d.turnAway h.tag c)
      | none =>
        if f.origin = .ring ∧ ¬ f.buffers.all d.ctl.inWindow then .error (d.finish h.tag { status := stBadarg })
        else .ok (d.preempt op)
  | none =>
    if d.mustWait h op then .error d
    else
      let d := d.ensureFlight h op
      match d.gate .ring h op with
      | some c => .error (d.turnAway h.tag c)
      | none => .ok (d.preempt op)

/-- A host command: what turns it away, or its own meaning. -/
def Dev.command (d : Dev) (h : Hdr) (op : BitVec 16) (body : Dev → Dev) : Dev :=
  match d.takeUp h op with
  | .error d => d
  | .ok d => body d

/-- Run a host command. -/
def hostCmd (s : State) (h : Hdr) (op : BitVec 16) (body : Dev → Dev) : Host.Outcome State Fault Refusal :=
  onDev s fun d => d.command h op body

end Sys2Proof.Machine
end

