-- ==== Sys2Proof/Machine/Operands.lean ====
section
/-!
DEFINITION. The operand forms that several families share: when-blocks, level words and voltages, periods and edge entries,
channel sets, responses.
-/
namespace Sys2Proof.Machine

/-! ### When-blocks (R48 to R53) -/

/-- The first granule that is not before the present (R50). -/
def Dev.firstGranule (d : Dev) (g : Nat) : Nat := roundUp d.tl.now g

/-- Where a when-block places its action on a granule of `g` phase steps: a status that turns the command away, or epoch,
stamp and LATE. `r42` says that R42 refuses this kind of action while a rewind is pending. A target before the stamp of a
pending rewind that rounds to it is an action at S, which ends ABORTED (R42). -/
def Dev.schedule (d : Dev) (w : When) (g : Nat) (r42 : Bool) : Except (BitVec 4) (BitVec 16 × Nat × Bool) :=
  if w.rsv ∨ w.policy = 3 then .error stBadarg
  else if w.policy = 2 ∧ (w.epoch ≠ 0 ∨ w.stamp ≠ 0) then .error stBadarg
  else if r42 ∧ d.tl.rewind.isSome then .error stBusy
  else if w.policy = 2 then .ok (d.tl.epoch, d.firstGranule g, false)
  else if w.epoch = d.tl.epoch then
    if d.tl.rewind.any (fun s => decide (s ≤ w.stamp.toNat)) then .error stBadarg
    else if w.stamp.toNat > d.tl.now + 2 ^ 50 then .error stBadarg
    else if d.tl.rewind.any (fun s => decide (s ≤ roundUp w.stamp.toNat g)) then .error stAborted
    else if roundUp w.stamp.toNat g ≥ d.tl.now then .ok (d.tl.epoch, roundUp w.stamp.toNat g, false)
    else if w.policy = 0 then .error stTimeout
    else .ok (d.tl.epoch, d.firstGranule g, true)
  else
    match d.tl.rewind with
    | some s =>
      if w.epoch = d.tl.epoch + 1 then
        if s - d.tl.now + w.stamp.toNat > 2 ^ 50 then .error stBadarg
        else .ok (w.epoch, roundUp w.stamp.toNat g, false)
      else if precedes w.epoch d.tl.epoch then .error stTimeout
      else .error stBadarg
    | none => if precedes w.epoch d.tl.epoch then .error stTimeout else .error stBadarg

/-- Something falls due at a stamp: unless a pending rewind comes first, the present moves on to it (R40). -/
def Dev.due (d : Dev) (t : Nat) (f : Dev → Dev) : Dev :=
  if d.tl.rewind.any (fun s => decide (s ≤ t)) then d else f (d.advance t)

/-! ### Sequencer clocks -/

/-- Start of the sequencer clock that contains a stamp. -/
def clockOf (t : Nat) : Nat := t / clk * clk
/-- Start of the sequencer clock after the one that contains a stamp. -/
def nextClock (t : Nat) : Nat := clockOf t + clk

/-- Phase steps in a microsecond. -/
def usSteps : Nat := 100 * grainSteps
/-- Phase steps in a millisecond. -/
def msSteps : Nat := 1000 * usSteps

/-! ### Levels (R65 to R67) -/

/-- A level in units of 1 mV / 16,383 (R66). -/
def levelUnits (code : BitVec 14) (park : Bool) (span : BitVec 2) : Int :=
  if park then 0
  else if span = 0 then -500 * 16383 + code.toNat * 2500
  else if span = 1 then code.toNat * 6500
  else -1500 * 16383 + code.toNat * 8000

/-- The code nearest 0 V in a span, from which a level that leaves the park ramps (R69). -/
def zeroCode (span : BitVec 2) : BitVec 14 := if span = 0 then 3277 else if span = 1 then 0 else 3072

/-- The level that the ball or comparator sees now: the applied code (R69). -/
def Level.units (l : Level) : Int := levelUnits l.applied l.park l.span

/-- The level that the registers will hold once a pending value has taken effect (R59, R67). -/
def Level.futureUnits (l : Level) : Int :=
  match l.pend with
  | some p => levelUnits p.code p.park p.span
  | none => levelUnits l.code l.park l.span

/-- PARK as it will stand once a pending value has taken effect. -/
def Level.futurePark (l : Level) : Bool := match l.pend with | some p => p.park | none => l.park

/-- The indices of the levels, in the order of R72. -/
def lvVih : Nat := 0
/-- VIL. -/
def lvVil : Nat := 1
/-- VTT. -/
def lvVtt : Nat := 2
/-- VOH. -/
def lvVoh : Nat := 3
/-- VOL. -/
def lvVol : Nat := 4
/-- CLAMP_HI. -/
def lvClampHi : Nat := 5
/-- CLAMP_LO. -/
def lvClampLo : Nat := 6

/-- Drive swing of R59 with OFF_MODE given, in units of 1 mV / 16,383. -/
def Chan.swing (c : Chan) (off : Bool) : Int :=
  let a := (c.level lvVih).futureUnits
  let b := (c.level lvVil).futureUnits
  let v := (c.level lvVtt).futureUnits
  if off then max (max a b) v - min (min a b) v else max a b - min a b

/-- Shortest vector period that a channel allows in a drive mode (R59): none in OFF and the static modes. -/
def Chan.shortest (c : Chan) (mode : BitVec 2) (off : Bool) : Nat :=
  if mode = 1 then (if c.swing off ≤ 1200 * 16383 then 32 else 64) else 0

/-- The clamp levels satisfy R63. -/
def clampsGood (c : Chan) : Bool :=
  let hi := c.level lvClampHi
  let lo := c.level lvClampLo
  !hi.futurePark && !lo.futurePark && decide (hi.futureUnits - lo.futureUnits ≥ 200 * 16383)

/-! ### Periods and edges (R126 to R130) -/

/-- The period of a timing set in force. -/
def Thread.period (t : Thread) (set : Nat) : Nat := t.periods.get 1024 set

/-- The period of a timing set once its pending value has taken effect (R60, R130). -/
def Thread.futurePeriod (t : Thread) (set : Nat) : Nat :=
  match t.periodPend.get none set with | some p => p.1 | none => t.period set

/-- The shortest PERIOD of a thread's table (R60). -/
def Thread.minPeriod (t : Thread) : Nat := (List.range 16).foldl (fun m k => min m (t.futurePeriod k)) 1048575

/-- The edge entry of a timing set once its pending value has taken effect (R130). -/
def Chan.futureEdges (c : Chan) (set : Nat) : BitVec 128 :=
  match c.edgePend.get none set with | some p => p.1 | none => c.edges.get 0 set

/-- A field of an edge entry (R127): its low bit and width. -/
def edgeField (e : BitVec 128) (lo w : Nat) : Nat := bits e.toNat lo w

/-- DFMT of an edge entry. -/
def dfmt (e : BitVec 128) : Nat := edgeField e 0 2
/-- CFMT of an edge entry. -/
def cfmt (e : BitVec 128) : Nat := edgeField e 2 2
/-- D0. -/
def edgeD0 (e : BitVec 128) : Nat := edgeField e 4 20
/-- D1. -/
def edgeD1 (e : BitVec 128) : Nat := edgeField e 24 20
/-- DZ. -/
def edgeDz (e : BitVec 128) : Nat := edgeField e 44 20
/-- C0. -/
def edgeC0 (e : BitVec 128) : Nat := edgeField e 64 20
/-- C1. -/
def edgeC1 (e : BitVec 128) : Nat := edgeField e 84 20

/-- Shortest PERIOD of a drive format (R128). -/
def formatPeriod (f : Nat) : Nat := if f = 0 then 32 else if f = 3 then 96 else 64

/-- The distinct drive offsets that a format uses (R130). -/
def driveOffsets (e : BitVec 128) : List Nat := (if dfmt e = 0 then [edgeD0 e, edgeDz e] else [edgeD0 e, edgeD1 e, edgeDz e]).dedup

/-- The limits of an edge entry that need no PERIOD (R130): reserved encodings, the order, and the separation measured
directly. -/
def edgeOrderGood (e : BitVec 128) : Bool :=
  decide (cfmt e < 2) && decide (edgeField e 104 24 = 0) &&
  (dfmt e == 0 || decide (edgeD1 e > edgeD0 e)) && (cfmt e == 0 || decide (edgeC1 e > edgeC0 e)) &&
  (driveOffsets e).all fun a => (driveOffsets e).all fun b => a == b || decide (a + 24 ≤ b) || decide (b + 24 ≤ a)

/-- Every limit of an edge entry against a PERIOD (R130), the swing left out. -/
def edgeGood (e : BitVec 128) (p : Nat) : Bool :=
  edgeOrderGood e && [edgeD0 e, edgeD1 e, edgeDz e, edgeC0 e, edgeC1 e].all (fun o => decide (o < p)) &&
  decide (p ≥ formatPeriod (dfmt e)) &&
  (driveOffsets e).all fun a => (driveOffsets e).all fun b => a == b || decide (24 ≤ (p + a - b) % p ∧ 24 ≤ (p + b - a) % p)

/-! ### Supplies (R75, R119) -/

/-- VDD_PE is driven and inside its window (R89, R463). -/
def Hk.vddPe (k : Hk) : Bool := k.pePos && !k.supplyOut.getLsbD 3
/-- VSS_PE is driven and inside its window. -/
def Hk.vssPe (k : Hk) : Bool := k.peNeg && !k.supplyOut.getLsbD 4
/-- The pin-electronics supplies are both present. -/
def Hk.pe (k : Hk) : Bool := k.vddPe && k.vssPe

/-! ### Channel sets -/

/-- The worst of R87 over a set: DENIED before CONFLICT before BADARG before BUSY, the lowest channel at fault. -/
def worstOf (l : List Nat) (check : Nat → Option (BitVec 4 × Nat)) : Option (Nat × BitVec 4 × Nat) :=
  let find := fun (st : BitVec 4) => (l.filterMap fun i => (check i).bind fun r => if r.1 = st then some (i, r) else none).head?
  (find stDenied).orElse fun _ => (find stConflict).orElse fun _ => (find stBadarg).orElse fun _ =>
    (find stLocked).orElse fun _ => find stBusy

/-- Carry a command out on all members of a set, or on none with the status of R87, naming the lowest member at fault. -/
def Dev.allOrNone (d : Dev) (tag : Tag) (l : List Nat) (check : Nat → Option (BitVec 4 × Nat)) (act : Dev → Dev) : Dev :=
  match worstOf l check with
  | some (i, st, holder) => d.refuse tag st i 0 holder
  | none => act d

/-- A full calibration run measures a channel: what R326 asks of it must stand until the run ends. -/
def Dev.inFullRun (d : Dev) (ch : Nat) : Bool := d.cal.run.any fun r => r.full && r.chs.getLsbD ch

/-- A status, or nothing. -/
def orFail (bad : Bool) (st : BitVec 4) (holder : Nat := 0) : Option (BitVec 4 × Nat) := if bad then some (st, holder) else none

/-- The status of highest precedence among the checks of one member (R87). -/
def firstOf (l : List (Option (BitVec 4 × Nat))) : Option (BitVec 4 × Nat) :=
  let l := l.filterMap id
  let find := fun (st : BitVec 4) => l.find? fun r => r.1 == st
  (find stDenied).orElse fun _ => (find stConflict).orElse fun _ => (find stBadarg).orElse fun _ =>
    (find stLocked).orElse fun _ => (find stBusy).orElse fun _ => find stTimeout

/-- The lowest argument at fault, counted from 0 in the order of the command table: what DETAIL_A of a BADARG names (R356). -/
def badArg (l : List (Nat × Bool)) : Option Nat := (l.find? (·.2)).map (·.1)

/-- A status with DETAIL_A and the holder kind of DETAIL_C, when a test fails (R356). -/
def failAt (bad : Bool) (st : BitVec 4) (a : Nat) (holder : Nat := 0) : Option (BitVec 4 × Nat × Nat) :=
  if bad then some (st, a, holder) else none

/-- Place of the when argument in the argument list of an opcode. -/
def whenArg (op : Nat) : Nat :=
  match op with
  | 0x0101 | 0x0103 | 0x0D02 => 0
  | 0x0404 => 4
  | 0x0505 | 0x0803 | 0x0805 => 2
  | 0x0802 => 3
  | 0x0306 => 2
  | 0x0903 => 6
  | _ => 1

/-- A when argument turns the command away (R50, R52): a BADARG names it. -/
def Dev.refuseWhen (d : Dev) (tag : Tag) (st : BitVec 4) : Dev :=
  d.refuse tag st (if st = stBadarg then whenArg (((d.flight tag).map fun f => f.opcode.toNat).getD 0) else 0)

/-- BADARG for the lowest argument at fault. -/
def badArgs (l : List (Nat × Bool)) : Option (BitVec 4 × Nat × Nat) := (badArg l).map fun a => (stBadarg, a, 0)

/-- The status of highest precedence among the checks of a command, with its details (R87). -/
def worst (l : List (Option (BitVec 4 × Nat × Nat))) : Option (BitVec 4 × Nat × Nat) :=
  let l := l.filterMap id
  let find := fun (st : BitVec 4) => l.find? fun r => r.1 == st
  (find stDenied).orElse fun _ => (find stConflict).orElse fun _ => (find stBadarg).orElse fun _ =>
    (find stLocked).orElse fun _ => (find stBusy).orElse fun _ => find stTimeout

/-! ### Response values -/

/-- A flag in a response. -/
def rb (b : Bool) : Int := if b then 1 else 0
/-- An optional count in a response: -1 stands for none. -/
def ro (o : Option Nat) : Int := match o with | some n => (n : Int) | none => -1

/-! ### Result items (R265, R266) -/

/-- A result packet whose payload is `n` words packed from fields (R265); a poisoned item has every word tagged (R267). -/
def itemPacket (kind producer n : Nat) (fields : List (Nat × Nat)) (tq : BitVec 4) (epoch : BitVec 16) (poison : Bool) : Packet :=
  { kind := BitVec.ofNat 8 kind, producer := producer, tq := tq, epoch := epoch,
    words := words64 n (packFields fields), poison := if poison then List.range n else [] }

/-- Form several packets. -/
def Dev.packets (d : Dev) (ps : List Packet) : Dev := ps.foldl (fun d p => d.packet p) d

end Sys2Proof.Machine
end

