-- ==== Sys2Proof/Machine/DspOps.lean ====
section
/-!
DEFINITION. The shared operations of the bank DSP lanes: what feeds a run and how it ends (10_bank_dsp.md, R284 to R289).
-/
namespace Sys2Proof.Machine

/-- Saturate to a signed range of `w` bits. -/
def clip (w : Nat) (v : Int) : Int := max (-(2 ^ (w - 1) : Int)) (min (2 ^ (w - 1) - 1) v)

/-- A complex data word of 48 bits (R276). -/
def dataWord (re im : Int) : BitVec 48 := BitVec.ofNat 48 (packFields [(24, twos 24 re), (24, twos 24 im)])

/-- The real part of a data word. -/
def wordRe (w : BitVec 48) : Int := signed 24 w.toNat
/-- The imaginary part of a data word. -/
def wordIm (w : BitVec 48) : Int := signed 24 (bits w.toNat 24 24)

/-- A word of program memory P (R276): the vendor ROM below 0x400, then the customer region. -/
def Dsp.word (k : Dsp) (pc : Nat) : BitVec 64 := if pc < 1024 then Config.kernelRom pc else k.p.get 0 pc

/-- A bank is served by another lane (R275): the memories and registers are those of the lane `onto`. -/
def Lane.onto (l onto : Lane) : Lane := { onto with owner := l.owner, absent := l.absent, spare := l.spare, run := l.run }

/-- Throttle begins: every run in progress carries THROTTLED (R276). -/
def Dev.heatRuns (d : Dev) : Dev :=
  if d.hk.hot then
    forEach (List.range 16) (fun b d =>
      d.modLane b fun l => { l with run := l.run.map fun r => { r with throttled := r.throttled || r.active } }) d
  else d

/-- The tap of a run delivers a sample (R284); from a source that may pause, the word says whether time has passed since the last
one's interval (R285). -/
def Dev.tapWord (d : Dev) (b stamp period : Nat) (w : Int) (pauses : Bool) : Dev :=
  match (d.lane b).run with
  | some r =>
    if r.active ∧ stamp ≥ r.startAt then
      d.modLane b fun l => { l with
        tap := l.tap ++ [(stamp, stamp + period, w, pauses && r.tapEnd.any fun e => decide (e < stamp))]
        run := some { r with tapEnd := some (stamp + period) } }
    else d
  | none => d

/-- A ring's source delivers a sample, armed or not: the tap of a run takes it (R284). -/
def Dev.feedRing (d : Dev) (b ring src t p : Nat) (v : Int) : Dev :=
  match (d.lane b).run with
  | none => d
  | some r =>
    if r.src.toNat ≠ ring then d
    else if r.input = 1 ∧ src = 2 then d.tapWord b t p (v * 256) false
    else if r.input = 2 ∧ src = 1 then
      d.tapWord b t p (if v.toNat.testBit (2 * r.ch.toNat) then 2 ^ 22 else -(2 ^ 22)) true
    else d

/-- A TDC in STAMP mode reports an edge: the tap of a run takes its TIE (R284). -/
def Dev.feedTdc (d : Dev) (b tdc stamp openAt index : Nat) : Dev :=
  match (d.lane b).run with
  | none => d
  | some r =>
    if r.input = 3 ∧ r.src.toNat = tdc then
      d.tapWord b stamp 1 (clip 24 (((stamp : Int) - openAt) * 256 - index * r.nominal)) false
    else d

/-- The packets of a run's output (R288): parts of up to 252 words; a run that did not halt has the header alone. -/
def Dev.runItems (d : Dev) (b : Nat) (r : Run) (out : List (BitVec 64)) (cut : Bool) : List Packet :=
  let parts := max 1 (ceilDiv out.length 252)
  (List.range parts).map fun i =>
    let h := words64 3 (packFields
      [(4, b), (7, r.kernel.toNat), (1, bit (d.lane b).spare), (1, bit r.sat), (1, bit r.overflow), (1, bit r.gapped),
       (1, bit r.throttled), (1, bit cut), (15, 0), (16, r.no % 65536), (8, i), (8, parts), (64, r.first.getD r.startAt), (64, r.ended)])
    let timed := [0x02#8, 0x04, 0x05, 0x06].contains r.kernel
    let q := d.tqOver r.tq r.epoch (r.first.getD r.startAt)
    { kind := 0x20, producer := b, tq := if timed then q else noCold q, epoch := r.epoch,
      words := h ++ (out.drop (252 * i)).take 252 }

/-- An output word as it is stored in X memory (R288): the narrowed parts of a complex word; for the other words the spec
gives no form, so it is a free value (log entry 9). -/
def Run.toWord (r : Run) (w : BitVec 64) : BitVec 48 :=
  if r.kernel = 1 ∨ r.kernel.toNat ≥ 0x40 then dataWord (signed 24 (bits w.toNat 0 24)) (signed 24 (bits w.toNat 32 24))
  else Config.packWord w

/-- A run ends (R286, R288, R289): `halted` when the kernel has reached HALT; the command completes with a status unless it
stays bound to record closes. -/
def Dev.endRun (d : Dev) (b : Nat) (halted cut : Bool) (st : BitVec 4) (stay : Bool) : Dev :=
  match (d.lane b).run with
  | none => d
  | some r =>
    let l := d.lane b
    let out := if halted then l.out else []
    let d : Dev := if r.sat ∧ r.active then
        { d with dsp := { d.dsp with satRuns := satAdd (2 ^ 32 - 1) d.dsp.satRuns 1 } } else d
    let d : Dev :=
      if !r.active then d
      else if r.toX then
        d.modLane b fun l => { l with
          x := l.x.fill 0 (l.ar.get ({} : AddrReg) 0).base.toNat (out.map r.toWord) }
      else (d.runItems b r out cut).foldl (fun d p => d.packet p) d
    let d : Dev := d.modLane b fun l => { l with q := [], tap := [], words := [], out := [], loops := [] }
    if stay ∧ r.bind.isSome then
      d.modLane b fun l => { l with run := some { r with
        active := false, due := false, no := r.no + 1, first := none, tapEnd := none, taken := 0, sat := false, overflow := false, gapped := false, throttled := false } }
    else
      ((d.modLane b fun l => { l with run := none }).dropActs r.tag).finish r.tag
        (if st = stOk then stamped { late := r.late } r.tq d.tl.epoch r.ended else { status := st })

/-- Inputs that a vendor kernel takes. -/
def kernelInputs (id : BitVec 8) (ops : List Nat) : Nat :=
  let o := fun i => ops.getD i 0
  if id = 1 then o 1 * o 2
  else if id = 2 then o 1
  else if id = 3 then o 0
  else if id = 4 ∨ id = 5 then 2 ^ o 0 * o 2
  else o 0

/-- Clocks that a vendor kernel's engine has taken with so many inputs (R287): the time of an input, of each whole frame, and
what follows the last input (log entry 165). -/
def kernelClocks (id : BitVec 8) (ops : List Nat) (i : Nat) : Nat :=
  let o := fun i => ops.getD i 0
  let spectrum := fun k => 5 * (2 ^ k / 2) * k + 4 * 2 ^ k
  let frames := if i = 0 then 0 else i / 2 ^ o 0 * spectrum (o 0)
  let ended := decide (i ≥ kernelInputs id ops)
  if id = 1 then 2 * i
  else if id = 2 ∨ id = 3 then 2 * i + if ended then 40 else 0
  else if id = 4 then frames
  else if id = 5 then frames + if ended then 2 * 2 ^ o 0 else 0
  else 3 * i + if ended ∧ o 1 ≠ 0 then spectrum (o 1) else 0

/-- A run has all its inputs: taken, queued or delivered by its tap; a customer kernel's number is not known. -/
def Lane.fed (l : Lane) (r : Run) : Bool :=
  decide (r.kernel.toNat < 0x40) && decide (r.taken + l.q.length + l.tap.length ≥ kernelInputs r.kernel r.ops)

/-- A run loses its tap before it has its inputs (R289). -/
def Dev.interruptTap (d : Dev) (b : Nat) (tdc : Bool) (src : Nat) : Dev :=
  match (d.lane b).run with
  | none => d
  | some r =>
    if r.active ∧ !(d.lane b).fed r ∧ r.src.toNat = src ∧ (if tdc then r.input = 3 else r.input = 1 ∨ r.input = 2) then
      (d.modLane b fun l => { l with run := some { r with ended := d.tl.now } }).endRun b false true stAborted true
    else d

/-- A record of a ring closes at a stamp: a run bound to the ring starts, or the close is counted when one is in progress
(R286). -/
def Dev.askRun (d : Dev) (b r stamp : Nat) : Dev :=
  match (d.lane b).run with
  | none => d
  | some x =>
    if x.bind ≠ some (BitVec.ofNat 3 r) then d
    else if x.active || x.due then { d with dsp := { d.dsp with skips := satAdd (2 ^ 32 - 1) d.dsp.skips 1 } }
    else d.modLane b fun l => { l with run := some { x with due := true, startAt := stamp, epoch := d.tl.epoch } }

/-- Every run of the device ends at once (R289). -/
def Dev.cutRuns (d : Dev) : Dev :=
  forEach (List.range 16) (fun b d =>
    (d.modLane b fun l => { l with run := l.run.map fun r => { r with ended := d.tl.now } }).endRun b false true stAborted false) d

end Sys2Proof.Machine
end

