-- ==== Sys2Proof/Machine/CapOps.lean ====
section
/-!
DEFINITION. The shared operations of capture: result items, the slots of a ring, samples, triggers and records
(09_acquisition.md).
-/
namespace Sys2Proof.Machine

/-! ### Rings (R238 to R242) -/

/-- Slots of a ring: C = LENGTH × 512 / slot size (R240). -/
def Ring.slots (g : Ring) : Nat := g.len * 512 / max 1 g.slotBits

/-- Slot size by source and number of the owner's channels (R239). -/
def slotSize (src : BitVec 2) (channels : Nat) : Nat :=
  if src = 2 then 16
  else if src = 0 then (if channels ≤ 8 then 8 else if channels ≤ 16 then 16 else 32)
  else if channels ≤ 8 then 16 else if channels ≤ 16 then 32 else 64

/-- The channels of a ring's owner (R239). -/
def Dev.ringChans (d : Dev) (g : Ring) : List Nat :=
  match g.owner with | some (.thread t) => d.chansOf t.toNat | _ => []

/-- A run of `count` slots from `first` covers a slot of a ring of `c` slots. -/
def covers (c first count slot : Nat) : Bool := decide ((slot + c - first % max 1 c) % max 1 c < count)

/-- Write a sample into its slot (R240). -/
def Dev.storeSample (d : Dev) (b : Nat) (g : Ring) (v : Int) : Dev :=
  let n := g.slotBits / 8
  d.modBank b fun k => { k with capMem := k.capMem.fill 0 (g.base * 64 + g.wptr * n) (leBytes n (twos g.slotBits v)) }

/-- The 64-bit words of a run of lines of a ring, wrapping at its end (R240). -/
def Dev.ringLines (d : Dev) (b : Nat) (g : Ring) (line n : Nat) : List (BitVec 64) :=
  (List.range n).flatMap fun i =>
    let at_ := (g.base + (line + i) % max 1 g.len) * 64
    (List.range 8).map fun w => BitVec.ofNat 64 (leNat ((d.bank b).capMem.range 0 (at_ + 8 * w) 8))

/-- Slots in a line of a ring. -/
def Ring.perLine (g : Ring) : Nat := 512 / max 1 g.slotBits

/-- Samples of some pieces. -/
def samplesOf (ps : List Piece) : Nat := (ps.map (·.count)).sum

/-- Some pieces hold a slot of a ring of `c` slots. -/
def anyCovers (c : Nat) (ps : List Piece) (slot : Nat) : Bool := ps.any fun p => covers c p.slot p.count slot

/-- One more sample of a record: index `idx` in slot `slot` of a ring of `c` slots. -/
def addSlot (c slot idx : Nat) : List Piece → List Piece
  | [] => [{ slot := slot, idx := idx, count := 1 }]
  | [p] =>
    if (p.slot + p.count) % max 1 c = slot ∧ p.idx + p.count = idx then [{ p with count := p.count + 1 }]
    else [p, { slot := slot, idx := idx, count := 1 }]
  | p :: ps => p :: addSlot c slot idx ps

/-- What a change of a ring from `c` to `n` slots leaves of a piece: its slots below the new end; those that had wrapped past the
old end stand for themselves (R241). -/
def Piece.cut (c n : Nat) (p : Piece) : List Piece :=
  let head := min p.count (c - p.slot)
  [{ p with count := min head (n - p.slot) }, { slot := 0, idx := p.idx + head, count := min (p.count - head) n }].filter
    fun q => decide (q.count > 0)

/-- The slots of a ring that are unread: those of its closed records and of the one in progress (R241). -/
def Ring.unread (g : Ring) : List Piece := g.closed.flatMap (·.parts) ++ (g.cur.map (·.parts)).getD []

/-- The next capture data packet of some pieces (R266): up to 31 lines from the one that holds their first sample, and the pieces
that are left. -/
def Dev.nextData (d : Dev) (b r : Nat) (g : Ring) (record : Nat) (poison : Bool) : List Piece → Option (Packet × List Piece)
  | [] => none
  | p :: ps =>
    let off := p.slot % g.perLine
    let lines := min 31 (ceilDiv (off + p.count) g.perLine)
    let n := min p.count (lines * g.perLine - off)
    let ws := BitVec.ofNat 64 (packFields [(3, r), (4, b), (9, 0), (16, record), (32, p.idx)])
      :: d.ringLines b g (p.slot / g.perLine) lines
    let k : Packet := {
      kind := 0x09, producer := b, tq := if g.src = 2 then noCold d.tl.tq else d.tl.tq, epoch := g.epoch, words := ws
      poison := if poison then List.range ws.length else [] }
    let rest := { p with slot := (p.slot + n) % max 1 g.slots, idx := p.idx + n, count := p.count - n }
    some (k, if rest.count = 0 then ps else rest :: ps)

/-- Every capture data packet of some pieces, in so many steps (R266). -/
def Dev.allData (d : Dev) (b r : Nat) (g : Ring) (record : Nat) (poison : Bool) : Nat → List Piece → List Packet
  | 0, _ => []
  | n + 1, ps => match d.nextData b r g record poison ps with
    | none => []
    | some x => x.1 :: Dev.allData d b r g record poison n x.2

/-- A ring that STOP has stopped resumes its pre-fill once the slot that it reached has been read (R242). -/
def Ring.resume (g : Ring) : Ring :=
  if g.stopped ∧ ¬ anyCovers g.slots g.unread g.wptr then
    { g with stopped := false, filled := 0, recent := [], recentFails := [], armedAt := if g.pre = 0 then g.lastEnd else none }
  else g

/-- A new LENGTH takes effect where the write pointer passes zero (R241): unread slots beyond the new end are discarded and counted,
and a pre-fill in progress begins anew (log entry 162). -/
def Dev.applyLength (d : Dev) (b r : Nat) : Dev :=
  let g : Ring := d.ring b r
  match g.pendLen with
  | none => d
  | some len =>
    let n := len * 512 / max 1 g.slotBits
    let cut := fun (ps : List Piece) => ps.flatMap (Piece.cut g.slots n)
    let g' : Ring := { g with
      len := len, pendLen := none, pendTag := none
      closed := (g.closed.map fun k => { k with parts := cut k.parts }).filter fun k => k.parts != []
      cur := g.cur.map fun k => { k with parts := cut k.parts }
      rptr := if g.rptr ≥ n then 0 else g.rptr }
    let gone := samplesOf g.unread - samplesOf g'.unread
    let g' : Ring := { g' with discarded := g.discarded + gone }
    let g' : Ring := if g.cur.isNone ∧ g.running ∧ len ≠ g.len then
        { g' with filled := 0, recent := [], recentFails := [], armedAt := if g.pre = 0 then g.armedAt else none }
      else g'
    let d : Dev := { d with cap := { d.cap with discarded := satAdd (2 ^ 32 - 1) d.cap.discarded gone } }
    let d : Dev := match g.pendTag with | some t => d.finish t {} | none => d
    d.modRing b r fun _ => g'

/-! ### Measurements of a record (R256) -/

/-- Rising crossings, or falling ones when `up` is false, of a PMU record: for each, the time in phase steps. The side that was
left is remembered in `armed`, and with the last sample at or below the level (above it, when falling) the one after it. -/
def pmuCross (up : Bool) (level hyst : Int) : Bool → Option ((Nat × Int) × Option (Nat × Int)) → List (Nat × Nat × Int) → List Rat
  | _, _, [] => []
  | armed, last, (t, _, v) :: r =>
    let above := if up then decide (2 * v > 2 * level + hyst) else decide (2 * v < 2 * level - hyst)
    let below := if up then decide (2 * v < 2 * level - hyst) else decide (2 * v > 2 * level + hyst)
    let under := if up then decide (v ≤ level) else decide (v ≥ level)
    let here : Nat × Int := (t, v)
    let last : Option ((Nat × Int) × Option (Nat × Int)) :=
      if under then some (here, none) else last.map fun x => (x.1, some (x.2.getD here))
    if above && armed then
      (match last with
        | some ((t0, v0), some (t1, v1)) =>
          ((t0 : Nat) : Rat) + (((level - v0) * ((t1 : Int) - t0) : Int) : Rat) / (((v1 - v0) : Int) : Rat)
        | _ => ((t : Nat) : Rat)) :: pmuCross up level hyst false last r
    else pmuCross up level hyst (armed || below) last r

/-- Changes of H on a channel of a COMPARE record to `up`, at the start of the first sample with the new value. -/
def cmpCross (up : Bool) (ch : Nat) : Option Bool → List (Nat × Nat × Int) → List Rat
  | _, [] => []
  | prev, (t, _, v) :: r =>
    let h := v.toNat.testBit (2 * ch)
    if prev = some (!up) ∧ h = up then ((t : Nat) : Rat) :: cmpCross up ch (some h) r else cmpCross up ch (some h) r

/-- Widths from each rising crossing to the next falling one. -/
def pulses : List Rat → List Rat → List Rat
  | [], _ => []
  | a :: r, fs => match fs.find? fun f => decide (f > a) with | some f => (f - a) :: pulses r fs | none => pulses r fs

/-- A time rounded half up to 2^-8 phase step. -/
def toUnits (x : Rat) : Nat := (x * 256 + 1 / 2).floor.toNat

/-- Channel number that a COMPARE record measures on, level and hysteresis of a PMU record: its crossings up and down. -/
def Ring.crossings (g : Ring) (k : Rec) : List Rat × List Rat :=
  if g.src = 2 then
    (pmuCross true (signed 16 g.measLevel.toNat) g.measHyst false none k.samples,
     pmuCross false (signed 16 g.measLevel.toNat) g.measHyst false none k.samples)
  else if g.src = 1 then (cmpCross true g.measCh.toNat none k.samples, cmpCross false g.measCh.toNat none k.samples)
  else ([], [])

/-- PERIOD of a record when it is valid. -/
def Ring.recPeriod (g : Ring) (k : Rec) : Option Nat :=
  let up := (g.crossings k).1
  if up.length < 2 then none
  else match up.head?, up.getLast? with
    | some a, some z => some (toUnits ((z - a) / ((up.length - 1 : Nat) : Rat)))
    | _, _ => none

/-- PW of a record when it is valid. -/
def Ring.recWidth (g : Ring) (k : Rec) : Option Nat :=
  let c := g.crossings k
  let ws := pulses c.1 c.2
  if ws = [] then none else some (toUnits (ws.foldl (· + ·) 0 / (ws.length : Rat)))

/-- The capture record item (R257). -/
def Dev.recordItem (d : Dev) (b r : Nat) (k : Rec) : Packet :=
  let g : Ring := d.ring b r
  let vs := k.samples.map fun s => s.2.2 * 256
  let pmu := g.src = 2
  let lo := if pmu then vs.foldl min (vs.headD 0) else 0
  let hi := if pmu then vs.foldl max (vs.headD 0) else 0
  let mean := if pmu ∧ vs ≠ [] then roundDiv vs.sum vs.length else 0
  let per := g.recPeriod k
  let pw := g.recWidth k
  let dead := (g.armedAt.getD g.prevEnd) - g.prevEnd
  let pause := fun (i : Nat) => let p := k.pauses.getD i (0, 0); [(32, p.1), (32, min p.2 (2 ^ 32 - 1))]
  itemPacket 0x08 b 16
    ([(3, r), (4, b), (6, match g.owner with | some (.thread t) => t.toNat | _ => 0), (1, bit (g.owner == some .host)),
      (2, g.src.toNat), (16, g.records), (3, k.srcIdx), (8, k.srcMask.toNat), (1, bit k.postClamp), (1, bit g.drain),
      (1, bit k.overrun), (1, bit (k.pauses.length > 0)), (1, bit (k.pauses.length > 2)), (1, bit k.xtrig),
      (1, bit k.xlate), (1, bit k.tlate), (1, bit k.interrupted), (1, bit per.isSome), (1, bit pw.isSome), (10, 0),
      (32, k.pre), (32, k.got), (64, k.trig), (64, k.tsample), (64, k.first), (42, dead), (22, min g.missed (2 ^ 22 - 1)),
      (8, if k.tlate then 0 else min 255 ((k.trig - k.tsample) * 256 / max 1 k.period)), (8, k.xpos.toNat),
      (8, min 255 k.xmerged), (32, g.discarded), (8, 0), (32, k.slot), (32, 0),
      (32, twos 32 lo), (32, twos 32 hi), (32, twos 32 mean), (32, twos 32 (hi - lo)), (64, per.getD 0), (64, pw.getD 0),
      (32, match per with | some p => if p = 0 then 0 else (2 * 2 ^ 18 * 10 ^ 8 + p) / (2 * p) | none => 0),
      (16, min 65535 (g.crossings k).1.length), (16, 0), (32, if pmu then 0 else k.failVecs), (32, 0)]
      ++ pause 0 ++ pause 1)
    (d.tqOver k.tq g.epoch k.first) g.epoch k.poison

/-! ### The course of a record (R250 to R254) -/

/-- The record in progress closes at a stamp; its header follows 16 sequencer clocks later (R251). -/
def Dev.closeRec (d : Dev) (b r ended : Nat) (f : Rec → Rec) : Dev :=
  let g : Ring := d.ring b r
  match g.cur with
  | some k =>
    if k.closing then d
    else (d.modRing b r fun g => { g with cur := some { f k with closing := true, ended := ended } }).askRun b r ended
  | none => d

/-- The TDCs that a ring's EDGE conditions own are free again (R245). -/
def Dev.freeRingTdcs (d : Dev) (b r : Nat) : Dev :=
  forEach (List.range 36) (fun k d => if (d.tdc b k).owner = .ring (BitVec.ofNat 3 r) then d.modTdc b k fun _ => {} else d) d

/-- The ring stops and its CAP.ARM completes (R251, R254). -/
def Dev.ringStop (d : Dev) (b r : Nat) (st : BitVec 4) : Dev :=
  let g : Ring := d.ring b r
  if g.armed then
    let d : Dev := d.dropActs g.armTag
    let d : Dev := (d.modRing b r fun g => { g with
      armed := false, running := false, stopped := false, events := [], armedAt := none,
      recent := [], recentFails := [], filled := 0, lastS := none, lastEnd := none }).freeRingTdcs b r
    let late := decide (st = stOk) && (d.job g.armTag).any (·.late)
    (d.finish g.armTag { status := st, late := late }).dropJob g.armTag
  else d

/-- The header of a closed record is committed, with what DRAIN 1 has not yet moved (R251, R253); pre-fill for the next
record begins, or the ring stops after RECORDS records. -/
def Dev.commitHeader (d : Dev) (b r : Nat) : Dev :=
  let g : Ring := d.ring b r
  match g.cur with
  | none => d
  | some k =>
    let d : Dev := d.packet (d.recordItem b r k)
    let d : Dev := if g.drain then d.packets (d.allData b r g g.records k.poison (samplesOf k.parts) k.parts) else d
    let d : Dev := d.modRing b r fun g => ({ g with
      cur := none, events := g.events.filter (fun e => decide (e.2 ≥ k.ended)), records := g.records + 1, prevEnd := k.ended
      missed := 0, discarded := 0, filled := 0
      armedAt := if g.pre = 0 then some (k.ended + 16 * clk) else none, recent := [], recentFails := []
      rptr := if g.drain then (k.slot + k.pre + k.got) % max 1 g.slots else g.rptr
      closed := if g.drain then g.closed else g.closed ++ [{ record := g.records % 65536, parts := k.parts }] } : Ring).resume
    if g.limit ≠ 0 ∧ g.records + 1 ≥ g.limit then d.ringStop b r stOk else d

/-- DRAIN 1: whole runs of 31 lines leave the ring as they are written (R253, R266). -/
def Dev.drainLines (d : Dev) (b r : Nat) : Dev :=
  let c : Ring := d.ring b r
  if ¬ c.drain then d
  else forEach (List.range (c.slots / (31 * c.perLine) + 1)) (fun _ d =>
    let g : Ring := d.ring b r
    match g.cur with
    | none => d
    | some k =>
      match k.parts with
      | [] => d
      | p :: _ =>
        if p.slot % g.perLine + p.count < 31 * g.perLine then d
        else match d.nextData b r g g.records k.poison k.parts with
          | none => d
          | some x => (d.packet x.1).modRing b r fun g => { g with
              cur := some { k with parts := x.2 }, rptr := (x.2.head?.map (·.slot)).getD g.wptr }) d

/-- A record starts at its trigger sample (R247, R250): the condition events that fire in it, the index `back` of that
sample among the last ones written, and whether an event before its start fell in a pause. -/
def Dev.startRec (d : Dev) (b r : Nat) (evs : List (BitVec 3 × Nat)) (back : Nat) (pause : Bool) : Dev :=
  let g : Ring := d.ring b r
  match g.recent[back]?, evs with
  | some (t, p, _), e :: es =>
    let src := es.foldl (fun m x => if x.1.toNat < m.1.toNat then x else m) e
    let pre := min g.pre (g.recent.length - back - 1)
    let held := back + 1 + pre
    let samples := (g.recent.take held).reverse
    let slot := (g.wptr + g.slots - held) % max 1 g.slots
    let post := if g.drain then g.post else min g.post (g.slots - g.pre)
    let tlate := pause && decide (src.2 < t)
    let cond := (g.conds.getD src.1.toNat 0)
    let isX := cond.extractLsb' 0 4 = 6#4
    let x := d.xt (cond.extractLsb' 4 2).toNat
    let k : Rec :=
      { first := (samples.head?.map (·.1)).getD t, slot := slot, pre := pre, got := back + 1, post := post,
        trig := src.2, tsample := t, period := p, srcIdx := src.1.toNat,
        srcMask := evs.foldl (fun m x => m ||| (1#8 <<< x.1.toNat)) 0, postClamp := decide (post < g.post), tlate := tlate,
        xtrig := isX, xlate := isX && x.late, xpos := if isX then x.last.1 else 0,
        xmerged := if isX then x.last.2 else 0, samples := samples, parts := [{ slot := slot, idx := 0, count := held }],
        failVecs := ((g.recentFails.take held).filter id).length, tq := d.tl.tq,
        pauses := ((List.range samples.length).filterMap fun i =>
          match samples[i]?, samples[i + 1]? with
          | some (a, q, _), some (c, _, _) =>
            if g.src ≠ 2 ∧ a + q < c then some (i + 1, (c - a - q) / clk) else none
          | _, _ => none) }
    let d : Dev := d.modRing b r fun g => { g with
      cur := some k, rptr := if g.drain then slot else g.rptr
      actions := if g.action.toNat % 2 = 1 ∨ bits g.action.toNat 13 1 = 1 ∨ bits g.action.toNat 16 1 = 1
                                               then g.actions ++ [(src.2, src.1, g.records)] else g.actions }
    d.drainLines b r
  | _, _ => d

/-- The sample of those that a ring holds into which an event stamp falls, as its index from the newest, and whether the stamp lies in
a pause before it (R247); a stamp older than all of them takes the oldest (log entry 163). -/
def Ring.sampleAt (g : Ring) (e : Nat) : Nat × Bool :=
  let back := (g.recent.takeWhile fun s => decide (s.1 > e)).length
  if g.src ≠ 2 ∧ back > 0 ∧ (g.recent[back]?).any fun s => decide (s.1 + s.2.1 ≤ e) then (back - 1, true)
  else (min back (g.recent.length - 1), false)

/-- A condition fires in the trigger sample of the record in progress, which has it as its reported source when it is the
lowest-numbered (R247). -/
def Rec.joined (k : Rec) (cond : BitVec 32) (x : Xt) (c : BitVec 3) (e : Nat) (tlate : Bool) : Rec :=
  let k := { k with srcMask := k.srcMask ||| (1#8 <<< c.toNat) }
  if c.toNat ≥ k.srcIdx then k
  else
    let isX := cond.extractLsb' 0 4 == 6#4
    { k with
      srcIdx := c.toNat, trig := e, tlate := tlate, xtrig := isX, xlate := isX && x.late
      xpos := if isX then x.last.1 else 0, xmerged := if isX then x.last.2 else 0 }

/-- A condition of a running ring becomes true at an event stamp (R246, R247): it selects a sample still to come, or one already
written, or fires in the trigger sample of the record in progress, or it is missed (R252). -/
def Dev.raise (d : Dev) (b r : Nat) (c : BitVec 3) (e : Nat) : Dev :=
  let g : Ring := d.ring b r
  let later := fun (d : Dev) => d.modRing b r fun g => { g with events := g.events ++ [(c, e)] }
  if !g.running then d
  else match g.cur with
    | some k =>
      if k.closing then later d
      else
        let at_ := match k.samples[k.pre + 1]? with | some z => z.1 | none => (g.lastEnd.getD k.tsample)
        let before := if k.pre = 0 then (if k.tlate then k.trig else k.tsample)
          else match k.samples[k.pre - 1]? with | some y => y.1 + y.2.1 | none => k.tsample
        let tlate := decide (e < k.tsample) && g.src != 2
        let within := decide (k.tsample ≤ e ∧ e < (if g.src = 2 then at_ else k.tsample + k.period)) || (tlate && decide (before ≤ e))
        if within ∧ g.armedAt.any fun a => decide (a ≤ e) then
          let cond := g.conds.getD c.toNat 0
          let x := d.xt (cond.extractLsb' 4 2).toNat
          d.modRing b r fun g => { g with cur := some (k.joined cond x c e tlate) }
        else d
    | none => match g.lastEnd with
      | some z =>
        if e < z then
          if g.armedAt.any (fun a => decide (a ≤ e)) then d.startRec b r [(c, e)] (g.sampleAt e).1 (g.sampleAt e).2
          else d.modRing b r fun g => { g with missed := g.missed + 1 }
        else later d
      | none => later d

/-- A condition will become true at a stamp that may lie ahead (R246). -/
def Dev.planCond (d : Dev) (b r : Nat) (c : BitVec 3) (e : Nat) : Dev :=
  if (d.ring b r).lastEnd.any (fun z => decide (e < z)) then d.raise b r c e
  else d.modRing b r fun g => { g with events := g.events ++ [(c, e)] }

/-- The conditions of a ring that satisfy a test, with their words. -/
def Ring.condsOf (g : Ring) (p : BitVec 32 → Bool) : List (BitVec 3) :=
  (List.range 8).filterMap fun i => match g.conds[i]? with
    | some w => if p w then some (BitVec.ofNat 3 i) else none
    | none => none

/-- KIND of a condition word. -/
def condKind (w : BitVec 32) : Nat := bits w.toNat 0 4

/-- Raise every condition that satisfies a test on a ring. -/
def Dev.raiseOn (d : Dev) (b r e : Nat) (p : BitVec 32 → Bool) : Dev :=
  ((d.ring b r).condsOf p).foldl (fun d c => d.raise b r c e) d

/-- Raise the conditions that satisfy a test on every ring of a bank that a thread owns. -/
def Dev.raiseThread (d : Dev) (t e : Nat) (p : BitVec 32 → Bool) : Dev :=
  forEach (List.range 8) (fun r d =>
    if (d.ring (t / 4) r).owner = some (.thread (BitVec.ofNat 6 t)) then d.raiseOn (t / 4) r e p else d) d

/-- The LEVEL conditions that a PMU sample meets (R246). -/
def Ring.levels (g : Ring) (v : Int) : List (BitVec 3) :=
  match g.lastS with
  | none => []
  | some s => g.condsOf fun w =>
      let l := signed 16 (bits w.toNat 4 16)
      condKind w == 4 && (if bits w.toNat 20 1 = 0 then decide (s < l ∧ v ≥ l) else decide (s > l ∧ v ≤ l))

/-- The oldest closed records go whole until none of them holds a slot any more, in so many steps (R242): what is left, and the
slots discarded. -/
def dropOldest (c slot : Nat) : List Closed → List Closed × Nat
  | [] => ([], 0)
  | k :: ks =>
    if (k :: ks).any fun x => anyCovers c x.parts slot then
      let r := dropOldest c slot ks
      (r.1, r.2 + samplesOf k.parts)
    else (k :: ks, 0)

/-- A sample in its slot: closed records that it overwrites are gone (R242), and it joins the last samples when it counts towards
the pre-fill. -/
def Ring.wrote (g : Ring) (t p : Nat) (v : Int) (fail counts : Bool) : Ring :=
  let left := dropOldest g.slots g.wptr g.closed
  let g := { g with closed := left.1, discarded := g.discarded + left.2, wptr := (g.wptr + 1) % max 1 g.slots }
  let g := if g.src = 2 then { g with lastS := some v } else g
  if counts then
    { g with recent := ((t, p, v) :: g.recent).take g.slots, recentFails := (fail :: g.recentFails).take g.slots }
  else g

/-- A sample of the record in progress, in a slot of a ring of `c` slots. -/
def Rec.add (k : Rec) (c slot t p : Nat) (v : Int) (fail : Bool) (gap : Option Nat) (tq : BitVec 4) : Rec :=
  let k := { k with pauses := match gap with | some n => k.pauses ++ [(k.pre + k.got, n)] | none => k.pauses }
  { k with
    got := k.got + 1, parts := addSlot c slot (k.pre + k.got) k.parts, samples := k.samples ++ [(t, p, v)], failVecs := k.failVecs + bit fail, tq := k.tq ||| tq }

/-- A sample that counts while no record is in progress: pre-fill, missed conditions and the trigger (R247, R251, R252). -/
def Dev.preSample (d : Dev) (b r t p : Nat) (here : List (BitVec 3 × Nat)) : Dev :=
  let g : Ring := d.ring b r
  let due := (g.events.filter fun e => decide (e.2 < t + p)) ++ here
  let armed := due.filter fun e => g.armedAt.any fun a => decide (a ≤ e.2)
  let d : Dev := d.modRing b r fun g => { g with
    filled := g.filled + 1, events := g.events.filter (fun e => decide (e.2 ≥ t + p)),
    missed := g.missed + (due.length - armed.length),
    armedAt := if g.armedAt = none ∧ g.filled + 1 ≥ g.pre then some (t + p) else g.armedAt }
  if armed = [] then d
  else d.startRec b r armed 0 (g.src != 2)

/-- A sample that finds its slot free (R240). A condition met in a sample that counts towards no pre-fill waits for the arming stamp,
by which it is missed (R252). -/
def Dev.takeSample (d : Dev) (b r t p : Nat) (v : Int) (fail : Bool) (here : List (BitVec 3 × Nat)) (tq : BitVec 4) : Dev :=
  let g : Ring := d.ring b r
  let d : Dev := { d with cap := { d.cap with
    discarded := satAdd (2 ^ 32 - 1) d.cap.discarded (dropOldest g.slots g.wptr g.closed).2 } }
  let counts := !(g.cur.any (·.closing)) && decide (g.records = 0 ∨ t ≥ g.prevEnd + 16 * clk)
  let d : Dev := (d.storeSample b g v).modRing b r fun g => g.wrote t p v fail counts
  let met := here ++ (g.levels v).map fun c => (c, t)
  let missed := fun (d : Dev) => d.modRing b r fun g => { g with events := g.events ++ met }
  let gap := match g.lastEnd with | some z => if z < t ∧ g.src ≠ 2 then some ((t - z) / clk) else none | none => none
  let d : Dev := match g.cur with
    | some k =>
      if k.closing then missed d
      else (d.modRing b r fun h => { h with cur := some (k.add g.slots g.wptr t p v fail gap tq) }).drainLines b r
    | none => if counts then d.preSample b r t p met else missed d
  let d : Dev := d.modRing b r fun g => { g with lastEnd := some (t + p) }
  if (d.ring b r).wptr = 0 then d.applyLength b r else d

/-- One sample of a ring's source (R239 to R252): start, period, value, whether its vector fails, the FAIL conditions that
it meets with their event stamps, and its time quality. A slot that is unread ends the record, and stops a STOP ring
(R242). -/
def Dev.sample (d : Dev) (b r t p : Nat) (v : Int) (fail : Bool) (here : List (BitVec 3 × Nat)) (tq : BitVec 4) : Dev :=
  let g : Ring := d.ring b r
  let d : Dev := d.feedRing b r g.src.toNat t p v
  if !g.running || decide (t < g.effAt) || g.stopped then d
  else
    let d : Dev := if g.cur.any (fun k => decide (k.got ≥ k.post)) then d.closeRec b r (g.lastEnd.getD t) id else d
    let g : Ring := d.ring b r
    let full := fun (d : Dev) => d.closeRec b r (g.lastEnd.getD t) fun k => { k with overrun := true }
    if g.cur.any fun k => anyCovers g.slots k.parts g.wptr then
      (full d).modRing b r fun h => { h with stopped := !g.overwrite }
    else if g.closed.any (fun k => anyCovers g.slots k.parts g.wptr) && !g.overwrite then
      (full d).modRing b r fun g => { g with stopped := true }
    else d.takeSample b r t p v fail here tq

/-- A record in progress ends early at a stamp, and a run that taps the ring ends with it (R254, R289). -/
def Dev.interruptRec (d : Dev) (b r t : Nat) : Dev :=
  (d.closeRec b r t fun k => { k with interrupted := true }).interruptTap b false r

/-- A thread becomes idle: the records of its rings close INTERRUPTED and CAP.ARM stays armed (R254). -/
def Dev.idleRings (d : Dev) (t : Nat) : Dev :=
  forEach (List.range 8) (fun r d =>
    if (d.ring (t / 4) r).owner = some (.thread (BitVec.ofNat 6 t)) then
      (d.interruptRec (t / 4) r d.tl.now).modRing (t / 4) r fun g => { g with lastEnd := none }
    else d) d

/-- The armed rings that satisfy a test end: a record in progress closes INTERRUPTED and is committed, and CAP.ARM completes
ABORTED (R42, R254). -/
def Dev.abortRingsIf (d : Dev) (p : Ring → Bool) : Dev :=
  forEach (List.range 128) (fun i d =>
    let g : Ring := d.ring (i / 8) (i % 8)
    if g.armed && p g then
      let d : Dev := d.interruptRec (i / 8) (i % 8) d.tl.now
      let d : Dev := if (d.ring (i / 8) (i % 8)).cur.isSome then d.commitHeader (i / 8) (i % 8) else d
      d.ringStop (i / 8) (i % 8) stAborted
    else d) d

/-- Decaf mode or a forced rewind ends every armed ring (R45, R254). -/
def Dev.abortRings (d : Dev) : Dev := d.abortRingsIf fun _ => true

/-- A rewind ends the rings that hold an open record at its stamp (R254; log entry 134). -/
def Dev.rewindRings (d : Dev) : Dev := d.abortRingsIf fun g => g.cur.isSome

/-! ### Reading records (R253) -/

/-- Words on their way into the Carafe: in it, in the staging buffers, and formed by this command. -/
def Dev.carafeLoad (d : Dev) : Nat :=
  d.cap.fill + ((List.range 17).map d.cap.stagingFill).sum + (d.ctl.outbox.packets.map Packet.len).sum

/-- CAP.READ moves its records packet by packet while they fit into the Carafe, and completes after the last one. -/
def Dev.feedRead (b r : Nat) : Nat → Dev → Dev
  | 0, d => d
  | n + 1, d =>
    let g : Ring := d.ring b r
    match g.reads with
    | [] => d
    | (tag, left) :: more =>
      match g.closed with
      | [] => Dev.feedRead b r n ((d.modRing b r fun g => { g with reads := more }).finish tag {})
      | k :: ks =>
        if left = 0 then Dev.feedRead b r n ((d.modRing b r fun g => { g with reads := more }).finish tag {})
        else match d.nextData b r g k.record false k.parts with
          | none => Dev.feedRead b r n (d.modRing b r fun g => { g with closed := ks, reads := (tag, left - 1) :: more })
          | some (p, rest) =>
            if d.carafeLoad + p.len ≤ 16384 then
              Dev.feedRead b r n ((d.packet p).modRing b r fun g =>
                ({ g with
                  closed := { k with parts := rest } :: ks
                  rptr := (rest.head?.map (·.slot)).getD
                    (((k.parts.getLast?.map fun q => q.slot + q.count).getD g.rptr) % max 1 g.slots) } : Ring).resume)
            else d

/-- Every CAP.READ in progress goes on as far as the Carafe has space. -/
def Dev.feedReads (d : Dev) : Dev :=
  forEach (List.range 128) (fun i d =>
    if (d.ring (i / 8) (i % 8)).reads = [] then d else Dev.feedRead (i / 8) (i % 8) 1024 d) d

/-- A packet of so many bytes fits between RES_TAIL and RES_HEAD; equal pointers mean an empty area (R348, R508). -/
def Ctl.resRoom (c : Ctl) (bytes : Nat) : Bool :=
  c.resEn && decide ((c.resTail + c.resSize - c.resHead) % max 1 c.resSize + bytes + 8 ≤ c.resSize)

/-! ### Cross-chip lines (R258 to R261) -/

/-- A line is armed at a stamp of the present epoch (R258). -/
def Dev.lineArmed (d : Dev) (l stamp : Nat) : Bool :=
  let x := d.xt l
  x.armed && x.effEpoch == d.tl.epoch && decide (x.effAt ≤ stamp) &&
    !x.offAt.any fun o => o.1 == d.tl.epoch && decide (o.2 ≤ stamp)

/-- A line is armed with REARM, or disarmed, from a stamp (R258); one that is armed already stays so from its earlier stamp. -/
def Dev.armLine (d : Dev) (l : Nat) (on rearm : Bool) (epoch : BitVec 16) (stamp : Nat) : Dev :=
  d.modXt l fun x =>
    if !on then { x with offAt := some (epoch, stamp) }
    else if x.armed ∧ x.offAt = none ∧ (x.effEpoch ≠ epoch ∨ x.effAt ≤ stamp) then { x with rearm := rearm }
    else { x with armed := true, rearm := rearm, offAt := none, effEpoch := epoch, effAt := stamp }

/-- A fire on a line: a message to the manager when the line is armed at the fire stamp, else a lost fire (R258). -/
def Dev.fireLine (d : Dev) (l stamp : Nat) (c : BitVec 3) : Dev :=
  if d.lineArmed l stamp then
    let d : Dev := d.modXt l fun x => { x with sent := x.sent ++ [(stamp, c)] }
    if d.tree.admitted then d.linkOut (.fire (BitVec.ofNat 2 l) d.tree.position stamp c) else d
  else { d with cap := { d.cap with xtLost := satAdd (2 ^ 32 - 1) d.cap.xtLost 1 } }

end Sys2Proof.Machine
end

