-- ==== Sys2Proof/Machine/PmuOps.lean ====
section
/-!
DEFINITION. The shared operations of the per-pin PMUs (04_pmu_and_force.md): ramps, the safe-value sequences of R99, what
ends a measurement or a waveform.
-/
namespace Sys2Proof.Machine

/-! ### Codes and ramps (R94 to R97) -/

/-- The safe value of a forcing mode (R95). -/
def safeOf (mode : BitVec 2) : Nat := if mode = 2 then 32768 else 12288

/-- The mode forces (R90). -/
def forcing (mode : BitVec 2) : Bool := mode == 1 || mode == 2

/-- The forcing mode whose safe value the DAC holds (R95). -/
def Pmu.forceMode (p : Pmu) : BitVec 2 := if forcing p.mode then p.mode else p.lastForce

/-- The target of a mode (R94). -/
def Pmu.target (p : Pmu) (mode : BitVec 2) : Nat := if mode = 2 then p.iTarget.toNat else p.vTarget.toNat

/-- Distance of two codes. -/
def gap (a b : Nat) : Nat := (a - b) + (b - a)

/-- One move of a limiter towards a goal (R69). -/
def moveTo (a goal step : Nat) : Nat := if gap a goal ≤ step then goal else if a < goal then a + step else a - step

/-- Duration of a ramp in phase steps (R69, R99). -/
def rampTime (dist step interval : Nat) : Nat := ceilDiv dist (max 1 step) * interval * clk

/-- STEP and INTERVAL of a ramp of a sequence: the safety ramp, unless the configured limiter is active and slower and the
device is not in Decaf mode (R97). -/
def Pmu.seqLimit (p : Pmu) (decaf : Bool) : Nat × Nat :=
  if !decaf && decide (p.interval > 0) && decide (p.step * 8 < 1024 * p.interval) then (p.step, p.interval) else (1024, 8)

/-- Settle time of a range in phase steps (R99). -/
def settleOf (range : BitVec 3) : Nat :=
  (if range = 0 then 40 else if range = 1 then 10 else if range = 2 then 4 else if range = 3 then 2 else 1) * usSteps

/-- Full-scale current range encodings of R91. -/
def rangeGood (range : BitVec 3) : Bool := decide (range.toNat ≤ 4)

/-! ### Parts of multi-channel commands -/

/-- One channel's part of an optional command ends at the present; `rep` says that it was replaced (R98, R102). -/
def Dev.pmuEnd (d : Dev) (tag : Option Tag) (ch : Nat) (rep : Bool := false) : Dev :=
  match tag with
  | none => d
  | some t => if rep then d.replaceUnit t ch else d.endUnit t ch

/-- One channel's part of an optional command is cut. -/
def Dev.pmuCut (d : Dev) (tag : Option Tag) (ch : Nat) : Dev :=
  match tag with | none => d | some t => d.cutUnit t ch

/-! ### Measurements (R107 to R111, R515) -/

/-- The result item of a measurement over `n` samples (R107, R111). -/
def Dev.pmuResult (d : Dev) (ch : Nat) (m : Meas) (n : Nat) (cut poison : Bool) : Dev :=
  let r := roundDiv (m.acc * 256) (max 1 n)
  let d : Dev := if m.comp then
      { d with pins := { d.pins with limitEvents := satAdd (2 ^ 32 - 1) d.pins.limitEvents 1 } } else d
  d.packet (itemPacket 0x01 (bankOf ch) 2
    [(24, twos 24 r), (9, ch), (3, m.range.toNat), (2, m.mode.toNat), (5, m.k), (1, bit m.ovr), (1, bit m.comp),
     (1, bit m.ranging), (1, bit m.slewing), (1, bit cut), (16, m.index), (64, m.first)] (noCold (d.tqOver m.tq m.epoch m.first)) m.epoch poison)

/-- The record of the ring that a measurement feeds closes when the measurement ends (R254). -/
def Dev.endFeed (d : Dev) (m : Meas) : Dev :=
  match m.ring with
  | some (b, r) => d.interruptRec b.toNat r.toNat d.tl.now
  | none => d

/-- A measurement is cut: it yields what its samples gave, and a PMU.MEASURE loses this channel (R111, R515). -/
def Dev.cutMeas (d : Dev) (ch : Nat) (poison : Bool := false) : Dev :=
  match (d.pmu ch).meas with
  | none => d
  | some m =>
    let d : Dev := if m.n > 0 ∧ m.ring = none then d.pmuResult ch m m.n true poison else d
    let d : Dev := (d.endFeed m).modPmu ch fun p => { p with meas := none }
    if m.wave then d else (d.dropActs m.tag).cutUnit m.tag ch

/-- A waveform ends before its LAST step (R116, R118). -/
def Dev.cutWave (d : Dev) (ch : Nat) (poison : Bool := false) : Dev :=
  match (d.pmu ch).wave with
  | none => d
  | some w =>
    let d : Dev := if ((d.pmu ch).meas.any (·.wave)) then d.cutMeas ch poison else d
    (d.modPmu ch fun p => { p with wave := none }).cutUnit w.tag ch

/-! ### Sequences (R99 to R104) -/

/-- The count of closures that is due for the board's health record is written there, once S3 has read what it holds (R424). -/
def Dev.saveWear (d : Dev) : Dev :=
  if d.boot.step < 3 then d else
  let wear := (List.range 512).filterMap fun i =>
    let c := d.chan i
    if c.wear0 + c.wear1 > 0 then some (i, c.wear0, c.wear1) else none
  { d with
    board := { d.board with health := d.board.health.map fun h => { h with wear := wear } }
    pins := { d.pins with closuresSince := 0 } }

/-- A connect switch closes (R105, R424). -/
def Dev.countClosure (d : Dev) (ch : Nat) : Dev :=
  let d : Dev := d.modChan ch fun c =>
    if c.pmu.second then { c with wear1 := c.wear1 + 1 } else { c with wear0 := c.wear0 + 1 }
  let d : Dev := { d with pins := { d.pins with closuresSince := d.pins.closuresSince + 1 } }
  if d.pins.closuresSince ≥ 65536 then d.saveWear else d

/-- A step of the sequence in progress begins at a stamp and lasts so long. -/
def Dev.setStep (d : Dev) (ch : Nat) (st : SeqStep) (t len : Nat) : Dev :=
  d.modPmu ch fun p => { p with
    seq := p.seq.map fun s => { s with step := st, ends := t + len, safety := true }
    ramp := if st = .a ∨ st = .e then some (clockOf t) else none
    meas := p.meas.map fun m => { m with ranging := true, slewing := m.slewing || st == .a || st == .e } }

/-- The DAC arrives at the target of the final step: sequence and any PMU.FORCE of it complete (R98, R101). -/
def Dev.endSeq (d : Dev) (ch : Nat) : Dev :=
  match (d.pmu ch).seq with
  | none => d
  | some s =>
    let p := d.pmu ch
    let f := p.forceTag
    let d : Dev := d.modPmu ch fun p => { p with
      seq := none, ramp := none, forceTag := none
      applied := if forcing p.mode ∧ s.change.conn ≠ some false then BitVec.ofNat 16 (p.target p.mode) else p.applied }
    ((d.pmuEnd s.change.tag ch).pmuEnd f ch)

/-- A channel's park ends when its switch is open at the safe value, once the channel itself has been parked (R76). -/
def Dev.parkDone (d : Dev) (ch : Nat) : Dev :=
  if (d.chan ch).parkHeld then d else
  let tags := (d.chan ch).parkTags
  let d : Dev := d.modChan ch fun c => { c with parkTags := [] }
  tags.foldl (fun d t => d.endUnit t ch) d

/-- Step E begins at a stamp (R99). -/
def Dev.enterE (d : Dev) (ch t : Nat) : Dev :=
  let p := d.pmu ch
  let dist := if forcing p.mode then gap p.applied.toNat (p.target p.mode) else 0
  let l := p.seqLimit d.fc.decaf.isSome
  if dist = 0 then d.endSeq ch else d.setStep ch .e t (rampTime dist l.1 l.2)

/-- Step C begins at a stamp: 2 us for the connect switch, 400 ns otherwise (R99); a disconnect waits for a closing in
progress (R102). -/
def Dev.enterC (d : Dev) (ch t : Nat) : Dev :=
  match (d.pmu ch).seq with
  | none => d
  | some s =>
    let d : Dev := if s.change.conn = some true ∧ ¬ (d.pmu ch).closed then d.countClosure ch else d
    let start := max t (s.closing.getD t)
    if s.change.conn.isSome then d.setStep ch .c t (start - t + 2 * usSteps) else d.setStep ch .c t (40 * grainSteps)

/-- Step D ends at a stamp: a change held until then restarts the sequence at step C, else step E follows (R99, R102). -/
def Dev.leaveD (d : Dev) (ch t : Nat) : Dev :=
  match (d.pmu ch).seq with
  | none => d
  | some q =>
    match q.held with
    | some h =>
      ((d.pmuEnd q.change.tag ch true).modPmu ch fun p => { p with
        seq := some { q with change := h, held := none } }).enterC ch t
    | none => d.enterE ch t

/-- Step D begins at a stamp (R99): it takes no time in OFF and MV mode. -/
def Dev.enterD (d : Dev) (ch t : Nat) : Dev :=
  let p := d.pmu ch
  if forcing p.mode then d.setStep ch .d t (settleOf p.range) else d.leaveD ch t

/-- Step B begins at a stamp (R99). -/
def Dev.enterB (d : Dev) (ch t : Nat) : Dev :=
  let p := d.pmu ch
  if p.closed ∧ forcing p.mode then d.setStep ch .b t (settleOf p.range) else d.enterC ch t

/-- Step A begins at a stamp (R99). -/
def Dev.enterA (d : Dev) (ch t : Nat) : Dev :=
  let p := d.pmu ch
  let dist := gap p.applied.toNat (safeOf p.forceMode)
  let l := p.seqLimit d.fc.decaf.isSome
  if dist = 0 then d.enterB ch t else d.setStep ch .a t (rampTime dist l.1 l.2)

/-- The PMU.FORCE whose ramp is in progress is kept, or completes REPLACED at the start of step A (R98). -/
def Dev.keepForce (d : Dev) (ch : Nat) (c : PmuChange) : Dev :=
  let p := d.pmu ch
  if c.conn = some false ∨ c.mode ≠ p.mode then
    (d.modPmu ch fun p => { p with forceTag := none }).pmuEnd p.forceTag ch true
  else d

/-- A sequence begins at a stamp. -/
def Dev.beginSeq (d : Dev) (ch t : Nat) (c : PmuChange) : Dev :=
  let d : Dev := d.keepForce ch c
  let d : Dev := d.modPmu ch fun p => { p with seq := some { step := .a, ends := t, change := c } }
  d.enterA ch t

/-- What the channel stands for now, or will stand for once its sequence and a change held behind it have ended (R102). -/
def Pmu.future (p : Pmu) : PmuChange :=
  match p.seq with
  | some s => s.held.getD s.change
  | none => { mode := p.mode, range := p.range, lo := p.lo, hi := p.hi }

/-- A change whose mode and range stand already only stores its limits (R99). -/
def Pmu.noSeq (p : Pmu) (c : PmuChange) : Bool :=
  c.conn == none && c.mode == p.future.mode && (c.range == p.future.range || !forcing c.mode)

/-- The force word that waits for step E completes REPLACED when the sequence turns to another mode (R98). -/
def Dev.turnForce (d : Dev) (ch : Nat) (mode : BitVec 2) : Dev :=
  let p := d.pmu ch
  if mode = p.future.mode then d else (d.modPmu ch fun p => { p with forceTag := none }).pmuEnd p.forceTag ch true

/-- A connect joins the sequence of a channel that is connected, or is being connected: the earlier command completes
REPLACED, and the sequence goes on as it stands (R102). -/
def Dev.joinSeq (d : Dev) (ch : Nat) (tag : Option Tag) : Dev :=
  (d.pmuEnd (d.pmu ch).future.tag ch true).modPmu ch fun p => { p with seq := p.seq.map fun s =>
    match s.held with
    | some h => { s with held := some { h with tag := tag } }
    | none => { s with change := { s.change with tag := tag } } }

/-- A disconnect reaches a channel at a stamp (R102): what is in progress, held and pending ends ABORTED. -/
def Dev.beginDisconnect (d : Dev) (ch t : Nat) (c : PmuChange) : Dev :=
  match (d.pmu ch).seq with
  | none => d.beginSeq ch t c
  | some s =>
    if s.change.conn = some false then
      d.modPmu ch fun p => { p with
        seq := p.seq.map fun s => { s with also := s.also ++ c.tag.toList, change := { s.change with mode := c.mode } } }
    else
      let d : Dev := d.pmuCut s.change.tag ch
      let d : Dev := d.pmuCut (s.held.bind (·.tag)) ch
      let closing := if s.change.conn = some true ∧ s.step = .c then some s.ends else none
      let d : Dev := d.keepForce ch c
      let d : Dev := d.modPmu ch fun p => { p with
        closed := p.closed || closing.isSome
        seq := some { step := s.step, ends := s.ends, change := c, closing := closing, safety := s.safety } }
      if s.step = .a then d else d.enterA ch t

/-- A change takes effect on a channel at a stamp (R101 to R104). One that names the mode and range that stand, or to which the
sequence in progress leads, completes at once, and the sequence goes on under its own command (log entry 148); a range that
MV mode stores is the range in effect from then on (R99, log entry 150). -/
def Dev.applyChange (d : Dev) (ch t : Nat) (c : PmuChange) : Dev :=
  let p := d.pmu ch
  let keep : PmuChange :=
    if c.conn.isSome then { p.future with tag := c.tag, stamp := c.stamp, epoch := c.epoch, conn := c.conn } else c
  if c.conn = some false then d.beginDisconnect ch t { keep with mode := p.mode, range := p.range, lo := p.lo, hi := p.hi }
  else match p.seq with
    | none =>
      if p.noSeq c then
        (d.modPmu ch fun p => { p with range := c.range, lo := c.lo, hi := c.hi }).pmuEnd c.tag ch
      else if c.conn = some true ∧ p.closed then d.pmuEnd c.tag ch
      else d.beginSeq ch t keep
    | some s =>
      if s.change.conn = some false then d.modPmu ch fun p => { p with queued := p.queued ++ [c] }
      else if p.noSeq c then
        (d.modPmu ch fun p => { p with
          lo := c.lo, hi := c.hi, seq := p.seq.map fun s => { s with
            change := { s.change with lo := c.lo, hi := c.hi, range := if s.held.isNone then c.range else s.change.range }
            held := s.held.map fun h => { h with lo := c.lo, hi := c.hi, range := c.range } } }).pmuEnd c.tag ch
      else if c.conn = some true ∧ (p.closed ∨ s.change.conn = some true ∨ p.future.conn = some true) then d.joinSeq ch c.tag
      else match s.step with
        | .a | .b =>
          let d : Dev := (d.pmuEnd s.change.tag ch true).turnForce ch keep.mode
          d.modPmu ch fun p => { p with seq := p.seq.map fun s => { s with
            change := { keep with conn := if keep.conn.isSome then keep.conn else s.change.conn } } }
        | .c | .d =>
          let d : Dev := (d.pmuEnd (s.held.bind (·.tag)) ch true).turnForce ch keep.mode
          d.modPmu ch fun p => { p with seq := p.seq.map fun s => { s with
            held := some { keep with conn := if keep.conn.isSome then keep.conn else s.held.bind (·.conn) } } }
        | .e => (d.pmuEnd s.change.tag ch true).beginSeq ch t keep

/-- A disconnect has ended: its commands and parks complete, and what was QUEUED behind it follows (R103). -/
def Dev.endDisconnect (d : Dev) (ch : Nat) : Dev :=
  match (d.pmu ch).seq with
  | none => d
  | some s =>
    let d : Dev := d.modPmu ch fun p => { p with
      seq := none, ramp := none, closed := false, mode := s.change.mode,
      range := s.change.range, lo := s.change.lo, hi := s.change.hi }
    let d : Dev := d.pmuEnd s.change.tag ch
    let d : Dev := s.also.foldl (fun d t => d.endUnit t ch) d
    d.parkDone ch

/-- Mode, range, limits and switch change at the end of step C (R99). -/
def Dev.switchOver (d : Dev) (ch : Nat) : Dev :=
  d.modPmu ch fun p => match p.seq with
    | none => p
    | some s =>
      let c := s.change
      { p with
        mode := c.mode, range := c.range, lo := c.lo, hi := c.hi, closed := p.closed || c.conn == some true
        lastForce := if forcing c.mode then c.mode else p.lastForce
        applied := if forcing c.mode then BitVec.ofNat 16 (safeOf c.mode) else p.applied }

/-- In Decaf mode a ramp to the safe value that is in progress goes on as the safety ramp, from the code applied now (R97,
R440). -/
def Dev.hasten (d : Dev) (ch : Nat) : Dev :=
  let p := d.pmu ch
  if d.fc.decaf.isSome ∧ p.seq.any (fun s => s.step == .a) ∧ p.seqLimit true ≠ p.seqLimit false then d.enterA ch (clockOf d.tl.now)
  else d

/-- A waveform of one of these channels ends at the next sequencer clock (R118). -/
def Dev.endClock (d : Dev) (chs : List Nat) : Dev :=
  if chs.any fun ch => (d.pmu ch).wave.isSome then d.advance (nextClock d.tl.now) else d

/-- A shut-down of a channel's PMU by a park, a fault or Decaf mode: the waveform and the measurement end, and it is
disconnected through R99, to be left in a mode (R73, R118, R440). -/
def Dev.shutPmu (d : Dev) (ch : Nat) (off poison : Bool) : Dev :=
  let d : Dev := (d.cutWave ch poison).cutMeas ch poison
  let p := d.pmu ch
  let c : PmuChange := { mode := if off then 0 else p.mode, range := p.range, lo := p.lo, hi := p.hi }
  if p.seq = none ∧ ¬ p.closed ∧ p.applied.toNat = safeOf p.forceMode then
    (d.modPmu ch fun p => { p with mode := c.mode, lastForce := if forcing p.mode then p.mode else p.lastForce }).parkDone ch
  else
    (d.beginDisconnect ch (clockOf d.tl.now) { c with conn := some false }).hasten ch

/-- The supplies of the pin electronics fail: the switch opens without power and every command in progress ends (R119). -/
def Dev.losePmu (d : Dev) (ch : Nat) : Dev :=
  let d : Dev := (d.cutWave ch).cutMeas ch
  let p := d.pmu ch
  let d : Dev := match p.seq with
    | some s =>
      if s.change.conn = some false then d.endDisconnect ch
      else (d.pmuCut s.change.tag ch).pmuCut (s.held.bind (·.tag)) ch
    | none => d
  let d : Dev := d.pmuCut p.forceTag ch
  d.modPmu ch fun p => { p with
    seq := none, ramp := none, forceTag := none, closed := false, mode := 0
    lastForce := if forcing p.mode then p.mode else p.lastForce
    applied := BitVec.ofNat 16 (safeOf p.forceMode) }

end Sys2Proof.Machine
end

