-- ==== Sys2Proof/Machine/MiOps.lean ====
section
/-!
DEFINITION. The shared operations of the Metrology Island (11_metrology_island.md): its records and calibration sets, ramps,
the sequences of R299, results.
-/
namespace Sys2Proof.Machine

/-! ### Bytes of records and sets (R309 to R311) -/

/-- A calibration set is well formed: its length and its MAGIC (R309; the places of the header's fields are the model's
own, log entry 16). -/
def calGood (b : Bytes) : Bool := decide (b.length = 64 + 16 * 10 * 16) && decide (leAt b 0 4 = 0x53544143)
/-- CAL_VERSION. -/
def calVersion (b : Bytes) : Nat := leAt b 4 2
/-- Calibration temperature, 0.01 degree. -/
def calTemp (b : Bytes) : Int := signed 16 (leAt b 6 2)
/-- Reference value at calibration, 0.1 uV. -/
def calReference (b : Bytes) : Nat := leAt b 8 4

/-- KIND of a seal record (R311). -/
def sealKind (b : Bytes) : Nat := leAt b 4 2
/-- SEAL_SEQ. -/
def sealSeq (b : Bytes) : Nat := leAt b 8 8
/-- DIGEST. -/
def sealDigest (b : Bytes) : Nat := leAt b 16 32
/-- NONCE. -/
def sealNonce (b : Bytes) : Nat := leAt b 64 16
/-- CERT. -/
def sealCert (b : Bytes) : Bytes := (b.drop 80).take 3748
/-- USAGE of a certificate (R310). -/
def certUsage (c : Bytes) : Nat := leAt c 6 2
/-- LAB_ID of a certificate. -/
def certLab (c : Bytes) : Nat := leAt c 8 4
/-- KEY_GEN of a certificate. -/
def certGen (c : Bytes) : Nat := leAt c 12 4
/-- PUBKEY of a certificate. -/
def certKey (c : Bytes) : Bytes := (c.drop 16).take 1312
/-- Bytes of the root key that the flash holds, at the place of R482 (R310). -/
def Dev.rootKey (d : Dev) : Bytes := d.board.bytes.range 0xFF 0x10000 1312

/-- A certificate verifies under the root key (R310). -/
def Dev.certGood (d : Dev) (c : Bytes) : Bool :=
  decide (c.length = 3748) && decide (leAt c 0 4 = 0x54524543) && decide (leAt c 4 2 = 1) && decide (certUsage c < 8) &&
  Config.mlDsa d.rootKey (c.take 1328) ((c.drop 1328).take 2420)

/-- A seal record is well formed (R311). -/
def sealForm (b : Bytes) : Bool :=
  decide (b.length = 6248) && decide (leAt b 0 4 = 0x4C414553) && (sealKind b == 1 || sealKind b == 2) &&
  decide (leAt b 6 2 = 0) && decide (leAt b 56 8 = 0)

/-- USAGE permits KIND (R312). -/
def usagePermits (b : Bytes) : Bool := (certUsage (sealCert b)).testBit (if sealKind b = 1 then 0 else 1)

/-- The signature of a seal record verifies under its certificate's key (R311). -/
def sealSigned (b : Bytes) : Bool :=
  Config.mlDsa (certKey (sealCert b)) (b.take 3828) ((b.drop 3828).take 2420)

/-- The digest prefix: bytes 0 to 15 of D (R309). -/
def prefix128 (v : BitVec 256) : Nat := (v.extractLsb' 0 128).toNat

/-! ### Ramps and sequences (R295, R299, R301) -/

/-- The safe value of a forcing mode (R295). -/
def muSafe (mode : BitVec 2) : Nat := if mode = 2 then 524288 else 262144
/-- The forcing mode whose safe value the DAC holds. -/
def Mu.forceMode (m : Mu) : BitVec 2 := if forcing m.mode then m.mode else m.lastForce
/-- The target of a mode (R295). -/
def Mu.target (m : Mu) (mode : BitVec 2) : Nat := if mode = 2 then m.iTarget else m.vTarget
/-- Settle time of a current range (R294). -/
def muSettle (r : BitVec 3) : Nat :=
  (if r = 0 then 400 else if r = 1 then 100 else if r = 2 then 30 else if r = 3 then 10 else 5) * usSteps
/-- Duration of an island ramp (R299). -/
def muRampTime (dist step interval : Nat) : Nat := ceilDiv dist (max 1 step) * interval * grainSteps
/-- STEP and INTERVAL of steps A and E (R299). -/
def Mu.seqLimit (m : Mu) (decaf : Bool) : Nat × Nat :=
  if !decaf && decide (m.interval > 0) && decide (m.step * 100 < 16384 * m.interval) then (m.step, m.interval) else (16384, 100)
/-- Full scale of the ranges whose sum R297 bounds, in milliampere. -/
def bigScale (r : BitVec 3) : Nat := if r = 5 then 32 else if r = 6 then 100 else if r = 7 then 256 else 0

/-- One MU's part of an optional command ends at the present. -/
def Dev.muEnd (d : Dev) (tag : Option Tag) (u : Nat) (rep : Bool := false) : Dev := d.pmuEnd tag u rep
/-- One MU's part of an optional command is cut. -/
def Dev.muCut (d : Dev) (tag : Option Tag) (u : Nat) : Dev := d.pmuCut tag u

/-- A step of the sequence in progress begins at a stamp. -/
def Dev.muStep (d : Dev) (u : Nat) (st : SeqStep) (t len : Nat) : Dev :=
  d.modMu u fun m => { m with
    seq := m.seq.map fun s => { s with step := st, ends := t + len, safety := true }
    ramp := if st = .a ∨ st = .e then some t else none
    meas := m.meas.map fun x => { x with ranging := true } }

/-- The sequence and any MI.FORCE of it complete. -/
def Dev.muEndSeq (d : Dev) (u : Nat) : Dev :=
  match (d.mu u).seq with
  | none => d
  | some s =>
    let f := (d.mu u).forceTag
    let d : Dev := d.modMu u fun m => { m with
      seq := none, ramp := none, forceTag := none
      applied := if forcing m.mode ∧ s.change.conn ≠ some false then m.target m.mode else m.applied }
    (d.muEnd s.change.tag u).muEnd f u

/-- Step E begins at a stamp. -/
def Dev.muEnterE (d : Dev) (u t : Nat) : Dev :=
  let m := d.mu u
  let dist := if forcing m.mode then gap m.applied (m.target m.mode) else 0
  let l := m.seqLimit d.fc.decaf.isSome
  if dist = 0 then d.muEndSeq u else d.muStep u .e t (muRampTime dist l.1 l.2)

/-- Step D begins at a stamp. -/
def Dev.muEnterD (d : Dev) (u t : Nat) : Dev :=
  let m := d.mu u
  if forcing m.mode then d.muStep u .d t (muSettle m.irange) else d.muEnterE u t

/-- Step C begins at a stamp: 1 ms for the output switch, 200 us otherwise. -/
def Dev.muEnterC (d : Dev) (u t : Nat) : Dev :=
  match (d.mu u).seq with
  | none => d
  | some s =>
    let start := max t (s.closing.getD t)
    if s.change.conn.isSome then d.muStep u .c t (start - t + msSteps) else d.muStep u .c t (200 * usSteps)

/-- Step B begins at a stamp. -/
def Dev.muEnterB (d : Dev) (u t : Nat) : Dev :=
  let m := d.mu u
  if m.closed ∧ forcing m.mode then d.muStep u .b t (muSettle m.irange) else d.muEnterC u t

/-- Step A begins at a stamp. -/
def Dev.muEnterA (d : Dev) (u t : Nat) : Dev :=
  let m := d.mu u
  let dist := gap m.applied (muSafe m.forceMode)
  let l := m.seqLimit d.fc.decaf.isSome
  if dist = 0 then d.muEnterB u t else d.muStep u .a t (muRampTime dist l.1 l.2)

/-- The MI.FORCE whose ramp is in progress is kept, or completes REPLACED at the start of step A. -/
def Dev.muKeepForce (d : Dev) (u : Nat) (c : MuChange) : Dev :=
  let m := d.mu u
  if c.conn = some false ∨ c.mode ≠ m.mode then (d.modMu u fun m => { m with forceTag := none }).muEnd m.forceTag u true else d

/-- A sequence begins at a stamp. -/
def Dev.muBegin (d : Dev) (u t : Nat) (c : MuChange) : Dev :=
  let d : Dev := (d.muKeepForce u c).modMu u fun m => { m with seq := some { step := .a, ends := t, change := c } }
  d.muEnterA u t

/-- The change that an MU stands for now or will stand for after its sequence. -/
def Mu.future (m : Mu) : MuChange :=
  match m.seq with
  | some s => s.held.getD s.change
  | none => { mode := m.mode, irange := m.irange, vrange := m.vrange, ilim := m.ilim, lo := m.lo, hi := m.hi }

/-- A change that needs no sequence: mode and ranges stand (R299). -/
def Mu.noSeq (m : Mu) (c : MuChange) : Bool :=
  c.conn == none && c.mode == m.future.mode && c.irange == m.future.irange && c.vrange == m.future.vrange

/-- The force word that waits for step E completes REPLACED when the sequence turns to another mode (R98, R301). -/
def Dev.muTurnForce (d : Dev) (u : Nat) (mode : BitVec 2) : Dev :=
  let m := d.mu u
  if mode = m.future.mode then d else (d.modMu u fun m => { m with forceTag := none }).muEnd m.forceTag u true

/-- A connect joins the sequence of an MU that is connected, or is being connected (R102, R301). -/
def Dev.muJoin (d : Dev) (u : Nat) (tag : Option Tag) : Dev :=
  (d.muEnd (d.mu u).future.tag u true).modMu u fun m => { m with seq := m.seq.map fun s =>
    match s.held with
    | some h => { s with held := some { h with tag := tag } }
    | none => { s with change := { s.change with tag := tag } } }

/-- A disconnect reaches an MU at a stamp (R102, R301). -/
def Dev.muDisconnect (d : Dev) (u t : Nat) (c : MuChange) : Dev :=
  match (d.mu u).seq with
  | none => d.muBegin u t c
  | some s =>
    if s.change.conn = some false then
      d.modMu u fun m => { m with
        seq := m.seq.map fun s => { s with also := s.also ++ c.tag.toList, change := { s.change with mode := c.mode } } }
    else
      let d : Dev := (d.muCut s.change.tag u).muCut (s.held.bind (·.tag)) u
      let closing := if s.change.conn = some true ∧ s.step = .c then some s.ends else none
      let d : Dev := (d.muKeepForce u c).modMu u fun m => { m with
        closed := m.closed || closing.isSome
        seq := some { step := s.step, ends := s.ends, change := c, closing := closing, safety := s.safety } }
      if s.step = .a then d else d.muEnterA u t

/-- A change that carries a connection only, with the settings that stand. -/
def MuChange.over (c : MuChange) (f : MuChange) : MuChange :=
  if c.conn.isSome then { f with tag := c.tag, stamp := c.stamp, epoch := c.epoch, conn := c.conn } else c

/-- A change takes effect on an MU at a stamp (R301). -/
def Dev.muApply (d : Dev) (u t : Nat) (c : MuChange) : Dev :=
  let m := d.mu u
  let store := fun (m : Mu) => { m with irange := c.irange, vrange := c.vrange, ilim := c.ilim, lo := c.lo, hi := c.hi }
  if c.conn = some false then d.muDisconnect u t (c.over { m with seq := none }.future)
  else match m.seq with
    | none =>
      if m.noSeq c then (d.modMu u store).muEnd c.tag u
      else if c.conn = some true ∧ m.closed then d.muEnd c.tag u
      else d.muBegin u t (c.over m.future)
    | some s =>
      if s.change.conn = some false then d.modMu u fun m => { m with queued := m.queued ++ [c] }
      else if m.noSeq c then
        (d.modMu u fun m => { m with
          ilim := c.ilim, lo := c.lo, hi := c.hi
          seq := m.seq.map fun s => { s with
            change := { s.change with ilim := c.ilim, lo := c.lo, hi := c.hi }
            held := s.held.map fun h => { h with ilim := c.ilim, lo := c.lo, hi := c.hi } } }).muEnd c.tag u
      else if c.conn = some true ∧ (m.closed ∨ s.change.conn = some true ∨ m.future.conn = some true) then d.muJoin u c.tag
      else
        let k := c.over m.future
        match s.step with
        | .a | .b =>
          ((d.muEnd s.change.tag u true).muTurnForce u k.mode).modMu u fun m => { m with seq := m.seq.map fun s => { s with
            change := { k with conn := if k.conn.isSome then k.conn else s.change.conn } } }
        | .c | .d =>
          ((d.muEnd (s.held.bind (·.tag)) u true).muTurnForce u k.mode).modMu u fun m => { m with
            seq := m.seq.map fun s => { s with
              held := some { k with conn := if k.conn.isSome then k.conn else s.held.bind (·.conn) } } }
        | .e => (d.muEnd s.change.tag u true).muBegin u t k

/-- Every output is open: the MI.PARK commands that wait complete (R307). -/
def Dev.muParkDone (d : Dev) : Dev :=
  if (List.range 16).any fun u => (d.mu u).closed || (d.mu u).seq.isSome then d
  else
    let tags := d.mi.parkTags
    let d : Dev := { d with mi := { d.mi with parkTags := [], safeLine := d.mi.safeLine && d.fc.decaf.isSome } }
    tags.foldl (fun d t => d.finish t {}) d

/-- A disconnect has ended. -/
def Dev.muEndDisconnect (d : Dev) (u : Nat) : Dev :=
  match (d.mu u).seq with
  | none => d
  | some s =>
    let d : Dev := d.modMu u fun m => { m with seq := none, ramp := none, closed := false, mode := s.change.mode }
    let d : Dev := (d.muEnd s.change.tag u)
    (s.also.foldl (fun d t => d.endUnit t u) d).muParkDone

/-- Mode, ranges, limits and switch change at the end of step C. -/
def Dev.muSwitch (d : Dev) (u : Nat) : Dev :=
  d.modMu u fun m => match m.seq with
    | none => m
    | some s =>
      let c := s.change
      { m with
        mode := c.mode, irange := c.irange, vrange := c.vrange, ilim := c.ilim, lo := c.lo, hi := c.hi
        closed := m.closed || c.conn == some true, lastForce := if forcing c.mode then c.mode else m.lastForce
        applied := if forcing c.mode then muSafe c.mode else m.applied }

/-! ### Results (R302, R318) -/

/-- The precision result over the samples gathered (R318). -/
def Dev.muResult (d : Dev) (u : Nat) (x : MuMeas) (cut : Bool) : Dev :=
  let i := d.mi
  let rec0 := i.record.getD []
  let dev := i.cal.any fun c => decide ((i.temp - calTemp c).natAbs > 400)
  let d : Dev := d.packet (itemPacket 0x21 16 9
    [(4, u), (2, x.mode.toNat), (3, x.irange.toNat), (1, bit x.vrange), (1, bit x.volt), (1, bit (!i.sealedOk)),
     (1, bit i.cal.isNone), (1, bit i.refDrift), (1, bit dev), (1, bit x.ovr), (1, bit x.comp), (1, bit x.ranging),
     (1, bit x.senseOpen), (1, bit cut), (12, 0), (16, x.tag.toNat), (16, i.recNum.toNat),
     (32, twos 32 (roundDiv (x.acc * 256) (max 1 x.got))), (32, x.got), (32, twos 32 (x.min * 256)),
     (32, twos 32 (x.max * 256)), (64, x.first), (64, x.first + x.got * 5 * usSteps),
     (64, sealSeq rec0), (128, prefix128 i.digest), (16, i.fwVersion.toNat),
     (16, (i.cal.map calVersion).getD 0), (32, certLab (sealCert rec0))] (noCold (d.tqOver x.tq x.epoch x.first)) x.epoch false)
  { d with mi := { d.mi with recNum := d.mi.recNum + 1, results := satAdd (2 ^ 32 - 1) d.mi.results 1 } }

/-- A measurement is cut: INTERRUPTED with what it has, and MI.MEASURE loses this MU (R303, R307). -/
def Dev.cutMu (d : Dev) (u : Nat) (result : Bool) : Dev :=
  match (d.mu u).meas with
  | none => d
  | some x =>
    let d : Dev := if result ∧ x.got > 0 then d.muResult u x true else d
    let d : Dev := d.modMu u fun m => { m with meas := none }
    if x.islp then d else (d.dropActs x.tag).cutUnit x.tag u

/-- SAFE, a park or Decaf mode shuts an MU's output: pending changes complete ABORTED (R307). -/
def Dev.shutMu (d : Dev) (u : Nat) : Dev :=
  let m := d.mu u
  let d : Dev := (d.cutMu u true)
  let d : Dev := (m.sched ++ m.queued).foldl (fun d c => (match c.tag with | some t => d.dropActs t | none => d).muCut c.tag u) d
  let d : Dev := m.forceSched.foldl (fun d f => (d.dropActs f.1).cutUnit f.1 u) d
  let d : Dev := d.modMu u fun m => { m with sched := [], queued := [], forceSched := [] }
  if m.seq = none ∧ ¬ m.closed ∧ m.applied = muSafe m.forceMode then d.muParkDone
  else d.muDisconnect u (roundUp d.tl.now grainSteps)
    ((({ conn := some false } : MuChange)).over { m with seq := none }.future)

/-- SAFE is asserted (R306, R307). -/
def Dev.assertSafe (d : Dev) : Dev :=
  forEach (List.range 16) (fun u d => d.shutMu u) { d with mi := { d.mi with safeLine := true } }

/-- The supplies of the MU outputs fail: switch open, not driven, OFF (R307). -/
def Dev.loseMu (d : Dev) (u : Nat) : Dev :=
  let d : Dev := d.cutMu u true
  let m := d.mu u
  let d : Dev := match m.seq with
    | some s =>
      if s.change.conn = some false then d.muEndDisconnect u
      else (d.muCut s.change.tag u).muCut (s.held.bind (·.tag)) u
    | none => d
  let d : Dev := d.muCut m.forceTag u
  (d.modMu u fun m => { m with
    seq := none, ramp := none, forceTag := none, closed := false, mode := 0
    lastForce := if forcing m.mode then m.mode else m.lastForce, applied := muSafe m.forceMode }).muParkDone

/-- The island resets (R305, R307): open measurements and pending changes complete ABORTED without a result. -/
def Dev.islandReset (d : Dev) : Dev :=
  let d : Dev := forEach (List.range 16) (fun u d =>
    let m := d.mu u
    let d : Dev := d.cutMu u false
    let d : Dev := match m.seq with
      | some s => (s.also.foldl (fun d t => d.cutUnit t u) ((d.muCut s.change.tag u).muCut (s.held.bind (·.tag)) u))
      | none => d
    let d : Dev := (m.sched ++ m.queued).foldl (fun d c => (match c.tag with | some t => d.dropActs t | none => d).muCut c.tag u) d
    let d : Dev := m.forceSched.foldl (fun d f => (d.dropActs f.1).cutUnit f.1 u) d
    d.muCut m.forceTag u) d
  let parks := d.mi.parkTags
  let d : Dev := { d with mi := { crcErrors := d.mi.crcErrors, results := d.mi.results, resetTag := d.mi.resetTag,
                                  safeLine := d.mi.safeLine } }
  parks.foldl (fun d t => d.finish t {}) d

/-- Two records of a seal event in the Cupping Log (R316, R450). -/
def Dev.sealLog (d : Dev) (kind : Nat) (rec0 : Bytes) (reason old new : Nat) (perm : Bool) : Dev :=
  let c := sealCert rec0
  let d : Dev := d.pushLog { d.logItem 6 0 [kind] [kind, reason, certLab c, certGen c, sealSeq rec0] with perm := perm }
  d.pushLog { d.logItem 6 1 [kind] [old, new] with perm := perm }

end Sys2Proof.Machine
end

