-- ==== Sys2Proof/Machine/FcOps.lean ====
section
/-!
DEFINITION. The fault collector's own part of a report: latches, counters, events and the details that pass to the log's
writer (R430 to R438, 16_faults_and_cupping_log.md). What the device does about a report is in FaultOps.
-/
namespace Sys2Proof.Machine

/-- The classes that a line carries, C, U and F from bit 0 (R428). -/
def lineClasses (l : Nat) : Nat :=
  if l = 21 then 0b010
  else if l ∈ [24, 25, 26, 41] then 0b101
  else if l = 39 then 0b110
  else if l ∈ [42, 46] then 0b100
  else if l < 48 then 0b011
  else 0

/-- The BODY of a FAULT record (R447). -/
def Report.body (r : Report) : List Int := [r.cls.toNat, r.cause.toNat, r.unit.toNat, r.detail.toNat]

/-- The key of a FAULT record (R447). -/
def Report.key (r : Report) (inj : Bool) : List Nat := [r.line.toNat, r.cls.toNat, r.cause.toNat, r.unit.toNat, bit inj]

/-- An open record of the log RAM whose KIND, SUB and key are those of an item (R447, R448). -/
def Log.openFor (l : Log) (i : LogItem) : Option Nat :=
  (List.range 256).find? fun k => (l.ram.get none k).any fun r =>
    !r.closed && r.item.kind == i.kind && r.item.sub == i.sub && r.item.key == i.key && r.item.epoch == i.epoch

/-- A repeat joins a record of the log RAM (R448). -/
def LogRec.again (r : LogRec) (now stamp : Nat) : LogRec :=
  { r with rep := min 65535 (r.rep + 1), touched := now, item := { r.item with last := stamp } }

/-- Change FAULT items in the writer's queue. -/
def modQueue (p : LogItem → Bool) (f : LogItem → LogItem) : List LogItem → List LogItem
  | [] => []
  | x :: r => if p x then f x :: r else x :: modQueue p f r

/-- The class bits of FC_STATUS (R430). -/
def Fc.classBit (f : Fc) (cls : BitVec 2) : Fc :=
  if cls = 0 then { f with c := true } else if cls = 1 then { f with u := true } else { f with f := true }

/-- One more report of a class on a line (R431). -/
def FcLine.count (l : FcLine) (r : Report) : FcLine :=
  let up := fun (v : BitVec 16) => if v = 0xFFFF then v else v + 1
  let l : FcLine := if r.cls = 0 then { l with c := up l.c } else if r.cls = 1 then { l with u := up l.u } else { l with f := up l.f }
  { l with
    first := (match l.first with | some x => some x | none => some r)
    last := some (r.epoch, r.stamp / clk, r.cls) }

/-- The class that a report takes: that of an earlier report of the line in the same sequencer clock when it is higher
(R432). -/
def FcLine.classOf (l : FcLine) (r : Report) : BitVec 2 :=
  match l.last with
  | some (e, t, c) => if e = r.epoch ∧ t = r.stamp / clk ∧ r.cls < c then c else r.cls
  | none => r.cls

/-- The counters of a line after a report: one count per sequencer clock, at the highest class of that clock (R431, R432). -/
def FcLine.counted (l : FcLine) (r : Report) : FcLine :=
  match l.last with
  | some (e, t, c) =>
    if e = r.epoch ∧ t = r.stamp / clk then
      if r.cls ≤ c then l
      else
        let back := fun (v : BitVec 16) => if v = 0xFFFF ∨ v = 0 then v else v - 1
        (if c = 0 then { l with c := back l.c } else { l with u := back l.u }).count r
    else l.count r
  | none => l.count r

/-- The counter of a class. -/
def FcLine.counter (l : FcLine) (cls : BitVec 2) : BitVec 16 := if cls = 0 then l.c else if cls = 1 then l.u else l.f

/-- The event of a report: every report of class U or F, and at most one of class C per line and P.0D00 interval (R432,
R457). -/
def Dev.faultEvent (d : Dev) (r : Report) (inj : Bool) : Dev × Option (Nat × List Int) :=
  let l := d.fc.perLine.get ({} : FcLine) r.line.toNat
  let quiet := r.cls = 0 ∧ l.lastC.any fun x => decide (d.mono < x + d.fc.holdoff * msSteps)
  if quiet then (d, none)
  else
    let d : Dev := if r.cls = 0 then
        { d with fc := { d.fc with
          perLine := d.fc.perLine.mod {} r.line.toNat fun l => { l with lastC := some d.mono } } }
      else d
    (d, some (if r.cls = 0 then 1 else if r.cls = 1 then 2 else 3,
      [r.line.toNat, r.cause.toNat, r.unit.toNat, bit inj, bit (d.fc.inj.isSome && !inj), (l.counter r.cls).toNat]))

/-- The injection has been dealt with (R437, R510). -/
def Dev.endInjection (d : Dev) : Dev :=
  match d.fc.inj with
  | none => d
  | some i =>
    let d : Dev := { d with
      fc := { d.fc with inj := none, injected := satAdd (2 ^ 32 - 1) d.fc.injected 1 }, regs := { d.regs with done := true } }
    match i.tag with
    | some t => d.finish t {}
    | none => d

/-- An item's event is posted with the stamp of the report. -/
def Dev.itemEvent (d : Dev) (i : LogItem) : Dev :=
  match i.event with
  | some e => d.postAt 515 e.1 e.2 i.epoch i.last i.tq
  | none => d

/-! ### The log's RAM and holding queue (R447 to R449) -/

/-- The kinds that repeat (R447). -/
def repeats (kind : BitVec 8) : Bool := [1, 2, 3, 4, 5, 7].contains kind.toNat

/-- BODY of a record that takes a repeat (R447). -/
def mergeBody (kind : BitVec 8) (a b : List Int) : List Int :=
  let at_ : List Int → Nat → Int := fun l k => l.getD k 0
  match kind.toNat with
  | 2 => (List.range 8).map fun k => min 65535 (at_ a k + at_ b k)
  | 3 => [min (at_ a 0) (at_ b 0), max (at_ a 1) (at_ b 1), if at_ b 0 < at_ a 0 then at_ b 2 else at_ a 2,
          if at_ b 1 > at_ a 1 then at_ b 3 else at_ a 3]
  | 4 => [at_ a 0 + at_ b 0, at_ a 1 + at_ b 1, at_ a 2 + at_ b 2, at_ a 3 + at_ b 3, max (at_ a 4) (at_ b 4)]
  | 5 => [at_ a 0 + at_ b 0, max (at_ a 1) (at_ b 1), at_ a 2 + at_ b 2]
  | 7 => b.take 5 ++ [at_ a 5 + at_ b 5]
  | _ => a

/-- GEN increases (R451). -/
def Dev.bumpGen (d : Dev) : Dev := { d with log := { d.log with gen := d.log.gen + 1 } }

/-- An open record closes, and waits for its copy (R448, R452). -/
def Dev.closeLog (d : Dev) (k : Nat) : Dev :=
  if (d.log.ram.get none k).any fun r => !r.closed then
    ({ d with log := { d.log with
      ram := d.log.ram.mod none k (·.map fun r => { r with closed := true }), closing := d.log.closing ++ [k] } } : Dev).bumpGen
  else d

/-- Every open record closes, of a former epoch alone where asked; in a freeze the RAM does not change (R448, R449). -/
def Dev.closeAllLog (d : Dev) (old : Bool := false) : Dev :=
  if d.log.freeze then d
  else forEach (List.range 256) (fun k d =>
    if !old || ((d.log.ram.get none k).any fun r => r.item.epoch != d.tl.epoch) then d.closeLog k else d) d

/-- What an item brings with it once it has been dealt with: its event, and the end of the injection (R437, R457). -/
def Dev.dealt (d : Dev) (i : LogItem) : Dev :=
  let d : Dev := d.itemEvent i
  if i.injected then d.endInjection else d

/-- An item waits in the holding queue: it joins an entry with its key, or is counted when the queue is full (R449). -/
def Dev.holdItem (d : Dev) (i : LogItem) : Dev :=
  let same : LogItem → Bool := fun x => x.kind == i.kind && x.sub == i.sub && x.key == i.key && x.epoch == i.epoch
  if repeats i.kind ∧ d.log.hold.any same then
    ({ d with log := { d.log with
      hold := modQueue same (fun x => { x with rep := x.rep + 1 + i.rep, last := i.last, body := mergeBody i.kind x.body i.body }) d.log.hold } } : Dev).dealt i
  else if d.log.hold.length < 32 then
    ({ d with log := { d.log with hold := d.log.hold ++ [{ i with held := true, event := none }] } } : Dev).itemEvent i
  else
    ({ d with log := { d.log with holdLost := d.log.holdLost + 1, lost := satAdd (2 ^ 32 - 1) d.log.lost 1 } } : Dev).dealt i

/-- LOG.SYNC commands complete once nothing waits for its copy (R456). -/
def Dev.endSync (d : Dev) (c : Cpl) : Dev :=
  let tags := d.log.syncTags
  tags.foldl (fun d t => d.finish t c) { d with log := { d.log with syncTags := [] } }

/-- The detail of a report goes to the writer of the log: a queue of 16 entries, beyond which only repeats survive (R436).
Its event is committed with the record, or at once where there will be none. -/
def Dev.faultItem (d : Dev) (r : Report) (inj : Bool) : Dev :=
  let e := d.faultEvent r inj
  let d : Dev := e.1
  let i : LogItem := { d.logItem 1 r.line.toNat (r.key inj) r.body with
    event := e.2, inj := inj, injected := inj, injActive := d.fc.inj.isSome && !inj }
  let faults := d.log.queue.filter fun x => x.kind == 1
  if faults.length < 16 then d.pushLog i
  else
    let d : Dev := ({ d with fc := { d.fc with overrun := true } } : Dev).itemEvent i
    let d : Dev := if inj then d.endInjection else d
    match d.log.openFor i with
    | some k =>
      if d.log.freeze then d.holdItem { i with event := none, injected := false }
      else
        let d : Dev := ({ d with log := { d.log with ram := d.log.ram.mod none k (·.map (·.again d.mono d.tl.now)) } } : Dev).bumpGen
        if (d.log.ram.get none k).any fun r => decide (r.rep ≥ 65535) then d.closeLog k else d
    | none =>
      match faults.getLast? with
      | some n =>
        if n.sub = i.sub ∧ n.key = i.key then
          { d with log := { d.log with
            queue := modQueue (fun x => x == n) (fun x => { x with rep := x.rep + 1, last := d.tl.now }) d.log.queue } }
        else { d with fc := { d.fc with overruns := satAdd (2 ^ 32 - 1) d.fc.overruns 1 } }
      | none => { d with fc := { d.fc with overruns := satAdd (2 ^ 32 - 1) d.fc.overruns 1 } }

/-- The class that a report takes on its line now (R432). -/
def Dev.classNow (d : Dev) (line cls : Nat) : Nat :=
  ((d.fc.perLine.get ({} : FcLine) line).classOf
    { cls := BitVec.ofNat 2 cls, stamp := d.tl.now, epoch := d.tl.epoch }).toNat

/-- A real report reaches the collector (R430 to R432, R438): on the line of an injection whose injected report waits for
its record, in the writer's queue or in the holding queue, it takes that record over. -/
def Dev.collect (d : Dev) (line cls cause unit detail : Nat) : Dev :=
  let r : Report := {
    line := BitVec.ofNat 6 line, cls := BitVec.ofNat 2 cls, cause := BitVec.ofNat 8 cause
    unit := BitVec.ofNat 16 unit, detail := BitVec.ofNat 32 detail, stamp := d.tl.now, epoch := d.tl.epoch }
  let r : Report := { r with cls := (d.fc.perLine.get ({} : FcLine) line).classOf r }
  let f : Fc := { d.fc with
    lines := d.fc.lines ||| (1#48 <<< line), perLine := d.fc.perLine.mod {} line (·.counted r) }
  let d : Dev := { d with fc := f.classBit r.cls }
  let mine := fun (x : LogItem) => x.injected && x.sub == BitVec.ofNat 8 line
  if (d.log.queue ++ d.log.hold).any mine ∧ d.fc.inj.any (·.presented) then
    let e := d.faultEvent r false
    let d : Dev := e.1
    let real := fun (x : LogItem) => { x with
      event := e.2, inj := false, injActive := true, key := r.key false, body := r.body, stamp := d.tl.now
      last := d.tl.now, epoch := d.tl.epoch, tq := d.tl.tq }
    { d with log := { d.log with queue := modQueue mine real d.log.queue, hold := modQueue mine real d.log.hold } }
  else d.faultItem r false

end Sys2Proof.Machine
end

