-- ==== Sys2Proof/Machine/PinOps.lean ====
section
/-!
DEFINITION. The shared operations of the pin channels (03_pin_channel.md, 05_edges_and_tdc.md): driver output, level
writes and their limiters, pending values, and the states of R73.
-/
namespace Sys2Proof.Machine

/-! ### What stands at the ball (R57, R58, R61, R83, R152) -/

/-- Where the drive transitions up to a stamp have left a channel: drive off, or a level (R128, R129). -/
def Chan.driveAt (c : Chan) (t : Nat) : Option Bool :=
  ((c.moves.filter fun m => decide (m.1 ≤ t)).getLast?.map fun m => m.2).getD c.drive

/-- The transitions up to a stamp have passed. -/
def Chan.passMoves (c : Chan) (t : Nat) : Chan :=
  { c with drive := c.driveAt t, moves := c.moves.filter fun m => decide (t < m.1) }

/-- What the driver of a channel puts on its ball at a stamp (R57, R58, R83). The drive state of the vectors stands whatever
DRV_MODE was when they were issued (log entry 141). -/
def Chan.ballAt (c : Chan) (t : Nat) : PinOut :=
  if c.tripped || c.drvMode == 0 then .hiZ
  else if c.drvMode = 2 then .vih
  else if c.drvMode = 3 then .vil
  else match c.driveAt t with
    | some high => if high then .vih else .vil
    | none => if c.offMode then .vtt else .hiZ

/-- What stands at the ball of a channel now. -/
def Dev.ball (d : Dev) (ch : Nat) : PinOut := (d.chan ch).ballAt d.tl.now

/-- The active load acts on the pin: in PATTERN mode with OFF_MODE 0, while the drive state is drive off and the supplies are
there; else its current is steered off (R61, R73). -/
def Dev.loadActs (d : Dev) (ch : Nat) : Bool :=
  let c := d.chan ch
  c.loadEn && c.drvMode == 1 && !c.offMode && (c.driveAt d.tl.now).isNone && d.hk.pe

/-- Current of an active load code in microamperes (R61). -/
def loadMicroamps (code : BitVec 8) : Nat := code.toNat * 100

/-- What the active load does to a pin at a voltage in nanovolts, in microamperes: it sinks IOL above VTT, and sources IOH
below it (R61). -/
def Dev.loadCurrent (d : Dev) (ch : Nat) (nv : Int) : Int :=
  let c := d.chan ch
  let vtt := (c.level lvVtt).units * 1000000
  if ¬ d.loadActs ch then 0
  else if nv * 16383 > vtt then loadMicroamps c.iol
  else if nv * 16383 < vtt then -(loadMicroamps c.ioh : Int)
  else 0

/-- The channel is in drive off, as it is while no thread owns it or its thread is idle (R58). -/
def Dev.releasePin (d : Dev) (ch : Nat) : Dev := d.modChan ch fun c => { c with drive := none, moves := [] }

/-- A channel has a value pending (R70, R135). -/
def Chan.hasPend (c : Chan) : Bool :=
  (c.levels.cells.any fun l => l.2.pend.isSome) || c.edgePend.cells != [] || c.drvDeskewPend.isSome || c.cmpDeskewPend.isSome

/-- The site of a channel's thread is not idle (R60, R70). -/
def Dev.busySite (d : Dev) (ch : Nat) : Bool :=
  match d.ownerOf ch with | some t => (d.thread (d.leadOf t)).st != .idle | none => false

/-- When what is pending on a channel takes effect: in the next sequencer clock where no flow holds it back, else at the point
that the flow gives it, unless its clock has been set before the flow (R70, R135). -/
def Dev.notePend (d : Dev) (ch : Nat) : Dev :=
  let busy := d.busySite ch
  d.modChan ch fun c => { c with pendAt :=
    if !c.hasPend then none else if busy then c.pendAt.filter fun a => decide (d.tl.now < a) else some (nextClock d.tl.now) }

/-- The same of a thread's pending periods. -/
def Dev.notePeriods (d : Dev) (t : Nat) : Dev :=
  let busy := (d.thread (d.leadOf t)).st != .idle
  d.modThread t fun x => { x with pendAt :=
    if x.periodPend.cells = [] then none else if busy then x.pendAt.filter fun a => decide (d.tl.now < a) else some (nextClock d.tl.now) }

/-! ### Parts of commands whose values take effect one by one (R72, R136) -/

/-- One value of a command has taken effect, or was replaced before it did (R71, R72, R136). -/
def Dev.partDone (d : Dev) (tag : Tag) (reached : Bool) (mark : Nat) : Dev :=
  (d.modJob tag fun j => { j with
    parts := j.parts - 1, stamp := if reached then some (max (j.stamp.getD 0) d.tl.now) else j.stamp
    replaced := if reached then j.replaced else j.replaced ||| (1#7 <<< mark) }).settleJob tag

/-- One value of a command was discarded by a park or by Decaf mode before it took effect (R356, R358; log entry 36). -/
def Dev.partCut (d : Dev) (tag : Tag) : Dev :=
  (d.modJob tag fun j => { j with parts := j.parts - 1, aborted := true }).settleJob tag

/-- The value of an optional command never reached its pin. -/
def Dev.partLost (d : Dev) (tag : Option Tag) (mark : Nat) : Dev :=
  match tag with | some t => d.partDone t false mark | none => d

/-! ### Levels (R65 to R72) -/

/-- A ramp of a level that a new value retargets, or that ends without its final step (R69, R72). -/
def Dev.dropRamp (d : Dev) (ch l : Nat) : Dev :=
  let v := (d.chan ch).level l
  let d : Dev := d.modChan ch fun c => c.modLevel l fun v => { v with ramp := none, rampTag := none }
  d.partLost v.rampTag l

/-- A code and PARK that act on acceptance (R68, R69). -/
def Dev.actLevel (d : Dev) (ch l : Nat) (code : BitVec 14) (park : Bool) (tag : Tag) : Dev :=
  let d : Dev := d.dropRamp ch l
  let v := (d.chan ch).level l
  if park then
    (d.modChan ch fun c => c.modLevel l fun v => { v with park := true, code := code }).partDone tag true l
  else
    let from_ := if v.park then zeroCode v.span else v.applied
    if from_ = code ∧ v.interval > 0 then
      (d.modChan ch fun c => c.modLevel l fun w => { w with park := false, code := code, applied := code }).partDone tag true l
    else d.modChan ch fun c => c.modLevel l fun w => { w with
      park := false, code := code, applied := from_, ramp := some (clockOf d.tl.now), rampTag := some tag }

/-- A ramp of a level that a park ends (R73). -/
def Dev.cutRamp (d : Dev) (ch l : Nat) : Dev :=
  let v := (d.chan ch).level l
  let d : Dev := d.modChan ch fun c => c.modLevel l fun v => { v with ramp := none, rampTag := none }
  match v.rampTag with | some t => d.partCut t | none => d

/-- A level word of a PIN.LEVELS reaches its DAC (R68 to R71). -/
def Dev.writeLevel (d : Dev) (ch l : Nat) (word : BitVec 32) (tag : Tag) : Dev :=
  let v := (d.chan ch).level l
  let code := word.extractLsb' 0 14
  let park := word.getLsbD 15
  let span := word.extractLsb' 16 2
  match v.pend with
  | some p =>
    (d.modChan ch fun c => c.modLevel l fun v => { v with
      pend := some { code := code, park := park, span := span, tag := tag } }).partDone p.tag false l
  | none =>
    if span = v.span then d.actLevel ch l code park tag
    else d.modChan ch fun c => c.modLevel l fun v => { v with
      pend := some { code := code, park := park, span := span, tag := tag } }

/-- A pending level takes effect, past the limiter (R70). -/
def Dev.takeLevel (d : Dev) (ch l : Nat) : Dev :=
  match ((d.chan ch).level l).pend with
  | none => d
  | some p =>
    let d : Dev := d.dropRamp ch l
    (d.modChan ch fun c => c.modLevel l fun v => { v with
      code := p.code, applied := p.code, park := p.park, span := p.span, pend := none }).partDone p.tag true l

/-- The pending levels of a channel are discarded (R73). -/
def Dev.dropLevels (d : Dev) (ch : Nat) : Dev :=
  forEach (List.range 7) (fun l d =>
    match ((d.chan ch).level l).pend with
    | none => d
    | some p => (d.modChan ch fun c => c.modLevel l fun v => { v with pend := none }).partCut p.tag) d

/-! ### Timing values (R135, R136) -/

/-- The pending edge entries and deskew values of a channel take effect. -/
def Dev.takeEdges (d : Dev) (ch : Nat) : Dev :=
  let d : Dev := forEach (List.range 16) (fun k d =>
    match (d.chan ch).edgePend.get none k with
    | none => d
    | some (e, tag) =>
      (d.modChan ch fun c => { c with edges := c.edges.set 0 k e, edgePend := c.edgePend.set none k none }).partDone tag true 0) d
  let d : Dev := match (d.chan ch).drvDeskewPend with
    | some (v, tag) => (d.modChan ch fun c => { c with drvDeskew := v, drvDeskewPend := none }).partDone tag true 0
    | none => d
  match (d.chan ch).cmpDeskewPend with
  | some (v, tag) => (d.modChan ch fun c => { c with cmpDeskew := v, cmpDeskewPend := none }).partDone tag true 0
  | none => d

/-- The pending edge entries and deskew values of a channel are discarded (R135). -/
def Dev.dropEdges (d : Dev) (ch : Nat) : Dev :=
  let d : Dev := forEach (List.range 16) (fun k d =>
    match (d.chan ch).edgePend.get none k with
    | none => d
    | some (_, tag) => (d.modChan ch fun c => { c with edgePend := c.edgePend.set none k none }).partCut tag) d
  let d : Dev := match (d.chan ch).drvDeskewPend with
    | some (_, tag) => (d.modChan ch fun c => { c with drvDeskewPend := none }).partCut tag
    | none => d
  match (d.chan ch).cmpDeskewPend with
  | some (_, tag) => (d.modChan ch fun c => { c with cmpDeskewPend := none }).partCut tag
  | none => d

/-- The pending periods of a thread take effect. -/
def Dev.takePeriods (d : Dev) (t : Nat) : Dev :=
  (forEach (List.range 16) (fun k d =>
    match (d.thread t).periodPend.get none k with
    | none => d
    | some (p, tag) =>
      (d.modThread t fun x => { x with periods := x.periods.set 1024 k p, periodPend := x.periodPend.set none k none }).partDone tag true 0) d).modThread
    t fun x => { x with pendAt := none }

/-- The pending periods of a thread are discarded. -/
def Dev.dropPeriods (d : Dev) (t : Nat) : Dev :=
  forEach (List.range 16) (fun k d =>
    match (d.thread t).periodPend.get none k with
    | none => d
    | some (_, tag) => (d.modThread t fun x => { x with periodPend := x.periodPend.set none k none }).partCut tag) d

/-- Every pending value of a channel takes effect (R70, R135). -/
def Dev.takeChannel (d : Dev) (ch : Nat) : Dev :=
  ((forEach (List.range 7) (fun l d => d.takeLevel ch l) d).takeEdges ch).modChan ch fun c => { c with pendAt := none }

/-! ### The driver's setting (R57, R88, R124) -/

/-- A driver setting takes effect; a channel without a slice has its driver held OFF (R124, log entry 142). -/
def Dev.applyDriver (d : Dev) (ch : Nat) (mode : BitVec 2) (off : Bool) (tag : Tag) (stamp : Nat) : Dev :=
  (d.modChan ch fun c => { c with
    drvMode := if c.noSlice then 0 else mode, offMode := off, tripped := false, drvPend := none }).endUnitAt tag ch stamp

/-- A PIN.DRIVER that waited for the end of a vector takes effect (R88). -/
def Dev.takeDriver (d : Dev) (ch : Nat) : Dev :=
  match (d.chan ch).drvPend with
  | none => d
  | some p => d.applyDriver ch p.mode p.off p.tag p.stamp

/-! ### Park, Decaf mode and loss of supply (R73, R75) -/

/-- The driver goes OFF; a PIN.DRIVER that waits for a boundary is lost. -/
def Dev.driverOff (d : Dev) (ch : Nat) : Dev :=
  let w := (d.chan ch).drvPend
  let d : Dev := d.modChan ch fun c => { c with drvMode := 0, drvPend := none }
  match w with | some p => d.cutUnit p.tag ch | none => d

/-- The "After PIN.PARK" state of a channel, but for its PMU, whose shut-down begins (R73). Enables that wait behind a
shut-down in progress keep waiting (log entry 143). -/
def Dev.parkChannel (d : Dev) (ch : Nat) : Dev :=
  let d : Dev := (d.driverOff ch).modChan ch fun c => { c with offMode := false, loadEn := false, parkHeld := false }
  let d : Dev := d.dropLevels ch
  let d : Dev := forEach (List.range 5) (fun l d =>
    (d.cutRamp ch l).modChan ch fun c => c.modLevel l fun v => { v with park := true }) d
  d.shutPmu ch false false

/-- The Decaf state of a channel, but for its clamps and its PMU (R73). -/
def Dev.decafChannel (d : Dev) (ch : Nat) : Dev :=
  let d : Dev := (d.driverOff ch).modChan ch fun c => { c with offMode := false, loadEn := false, queuedCmds := [] }
  let d : Dev := (d.dropLevels ch).dropEdges ch
  forEach (List.range 7) (fun l d =>
    if ((d.chan ch).level l).rampTag.isSome then d.modChan ch fun c => c.modLevel l fun v => { v with rampTag := none } else d) d

/-- The clamps of Decaf mode: enabled unless a clamp level is parked (R73). -/
def Dev.decafClamps (d : Dev) : Dev :=
  forEach (List.range 512) (fun ch d =>
    let c := d.chan ch
    if (c.level lvClampHi).park ∨ (c.level lvClampLo).park then d
    else d.modChan ch fun c => { c with clampEn := true }) d

/-! ### Sharing (R62, R85, R104) -/

/-- Features of a channel, as DETAIL_A of a CONFLICT names them. -/
def Chan.driverOn (c : Chan) : Bool := c.drvMode != 0
/-- VTT termination is enabled. -/
def Chan.vttOn (c : Chan) : Bool := c.drvMode == 1 && c.offMode
/-- A forcing PMU holds the channel. -/
def Chan.pmuForces (c : Chan) : Bool := c.pmu.closed && forcing c.pmu.mode
/-- The PMU is connected in MV mode. -/
def Chan.pmuMv (c : Chan) : Bool := c.pmu.closed && c.pmu.mode == 3

/-- A PMU change in a mode conflicts with what holds the channel (R85, R104): the holder, 1 driver, 2 load, 3 termination,
6 driver-current measurement. A driver setting that waits for a vector boundary holds it as well as the one in force. -/
def Chan.pmuClash (c : Chan) (mode : BitVec 2) : Option Nat :=
  if forcing mode then
    (if c.driverOn || c.drvPend.any (·.mode != 0) then some 1 else if c.loadEn then some 2
     else if c.offMode || c.drvPend.any (·.off) then some 3
     else if c.pmu.drvi then some 6 else none)
  else if mode = 3 ∧ c.pmu.drvi then some 6
  else none

/-- A PMU holds a channel or is about to: connected, or a sequence that ends connected. -/
def Pmu.held (p : Pmu) : Bool :=
  match p.seq with | some s => s.change.conn == some true || (p.closed && s.change.conn != some false) | none => p.closed

/-- The mode that a PMU will be in once the sequence in progress has ended. -/
def Pmu.futureMode (p : Pmu) : BitVec 2 :=
  match p.seq with | some s => (match s.held with | some h => h.mode | none => s.change.mode) | none => p.mode

/-- A shut-down is in progress on a channel (R86). -/
def Chan.shutting (c : Chan) : Bool := match c.pmu.seq with | some s => s.change.conn == some false | none => false

/-- The PMU holds the channel in a mode that satisfies `p`: it is connected in one, and not on its way to be disconnected, or a
sequence leads to one (R85). -/
def Chan.pmuHolds (c : Chan) (p : BitVec 2 → Bool) : Bool :=
  (c.pmu.closed && !c.shutting && p c.pmu.mode) || (c.pmu.held && p c.pmu.futureMode)

/-- A driver setting conflicts (R62, R85): 2 load, 4 forcing PMU. -/
def Chan.driverClash (c : Chan) (mode : BitVec 2) (off : Bool) : Option Nat :=
  if off ∧ c.loadEn then some 2
  else if (mode ≠ 0 ∨ off) ∧ c.pmuHolds forcing then some 4
  else none

/-- An active load conflicts (R62, R85): 3 termination, in force or about to be, 4 forcing PMU, 6 driver-current
measurement. -/
def Chan.loadClash (c : Chan) : Option Nat :=
  if c.offMode || c.drvPend.any (·.off) then some 3
  else if c.pmuHolds forcing then some 4
  else if c.pmu.drvi then some 6 else none

/-- Driver-current measurement conflicts (R85, R112): 1 driver not static, 2 load, 4 forcing PMU, 5 PMU in MV mode. -/
def Chan.drviClash (c : Chan) : Option Nat :=
  if c.drvMode.toNat < 2 then some 1
  else if c.loadEn then some 2
  else if c.pmuHolds forcing then some 4
  else if c.pmuHolds (· == 3) then some 5 else none

/-- A shut-down in progress blocks an enable (R86): one of a PMU whose mode R85 does not let share the channel with it. -/
def Chan.blocks (c : Chan) (q : QueuedPin) : Bool :=
  c.shutting && match q with | .drvi .. => c.pmu.mode != 0 | _ => forcing c.pmu.mode

/-! ### Range, mode, connect and disconnect commands (R75, R85, R101 to R104, R115, R119) -/

/-- What a change checks on a channel when it is accepted, when it takes effect and when it is released: the supplies for a
connect and for a forcing mode, what holds the channel, a waveform that needs the mode and range as they are. -/
def Dev.changeCheck (d : Dev) (c : PmuChange) (ch : Nat) : Option (BitVec 4 × Nat) :=
  let p := d.pmu ch
  let mode := if c.conn.isSome then p.futureMode else c.mode
  let enters := c.conn == some true || (p.held && c.conn.isNone)
  firstOf [orFail (!d.hk.pe && (c.conn == some true || (c.conn.isNone && forcing c.mode))) stDenied,
    if enters then ((d.chan ch).pmuClash mode).map fun k => (stConflict, k) else none,
    orFail (c.conn.isNone && p.wave.isSome && (p.future.mode != c.mode || p.future.range != c.range)) stBusy]

/-- A change of a command takes effect on its channels at a stamp, on all of them or on none (R85, R87): it is checked, it
waits behind a disconnect in progress on any of them (R103), or it is applied to each. -/
def Dev.enterChange (d : Dev) (set : List Nat) (t : Nat) (tag : Tag) (c : PmuChange) : Dev :=
  match worstOf set (d.changeCheck c) with
  | some (i, st, holder) =>
    (d.finish tag { status := st, a := BitVec.ofNat 16 i, c := BitVec.ofNat 8 holder }).dropJob tag
  | none =>
    match (if c.conn = some false then [] else set.filter fun ch => (d.chan ch).shutting) with
    | [] => set.foldl (fun d ch => d.applyChange ch t c) d
    | w :: ws =>
      let d : Dev := (w :: ws).foldl (fun d ch => d.modPmu ch fun p => { p with queued := p.queued ++ [c] }) d
      if (d.flight tag).any (·.queuedOnce) then d else d.queued tag w

/-- A change no longer waits behind the disconnect of a channel: once it waits nowhere, it takes effect (R86, R103). -/
def Dev.releaseChange (d : Dev) (ch : Nat) (c : PmuChange) : Dev :=
  let d : Dev := d.modPmu ch fun p => { p with queued := p.queued.erase c }
  if (List.range 512).any fun k => (d.pmu k).queued.contains c then d
  else match c.tag.bind d.job with
    | none => d
    | some j => d.enterChange (members j.left) (clockOf d.tl.now) j.tag c

end Sys2Proof.Machine
end

