-- ==== Sys2Proof/Machine/SeqOps.lean ====
section
/-!
DEFINITION. The shared operations of the sequencer threads (06_sequencer.md): result items, segment starts and ends, held
states, the end of a flow.
-/
namespace Sys2Proof.Machine

/-! ### Sites -/

/-- Change every member of a site. -/
def Dev.modSite (d : Dev) (lead : Nat) (f : Thread → Thread) : Dev := (d.site lead).foldl (fun d t => d.modThread t f) d

/-- A command addresses a thread that is not the lead of its link (R153). -/
def Dev.notLead (d : Dev) (t : Nat) : Bool := d.leadOf t != t

/-- The event source of a thread (R367). -/
def threadSource (t : Nat) : Nat := 32 * (t / 4) + t % 4

/-- A descriptor of a thread's segment table (R163). -/
def Thread.desc (t : Thread) (seg : BitVec 12) : Nat := (t.descs.get 0 seg.toNat).toNat
/-- START_VA of a descriptor. -/
def descVa (w : Nat) : Nat := bits w 0 48
/-- NEXT of a descriptor. -/
def descNext (w : Nat) : BitVec 12 := BitVec.ofNat 12 (bits w 48 12)
/-- END of a descriptor. -/
def descEnd (w : Nat) : Bool := w.testBit 60
/-- FAIL_EN of a descriptor. -/
def descFailEn (w : Nat) : Bool := w.testBit 61
/-- UR_ABORT of a descriptor. -/
def descUrAbort (w : Nat) : Bool := w.testBit 62
/-- VALID of a descriptor. -/
def descValid (w : Nat) : Bool := w.testBit 63
/-- NEXT_FAIL of a descriptor. -/
def descNextFail (w : Nat) : BitVec 12 := BitVec.ofNat 12 (bits w 64 12)
/-- FAIL_END of a descriptor. -/
def descFailEnd (w : Nat) : Bool := w.testBit 76
/-- TRIG_BALL of a descriptor. -/
def descBall (w : Nat) : Nat := bits w 77 2
/-- TRIG_EN of a descriptor. -/
def descTrigEn (w : Nat) : Bool := w.testBit 79

/-- The thread is running: RUN or DEAD (R151). -/
def ThState.running (s : ThState) : Bool := s == .run || s == .dead
/-- The thread is held: HOLD, UNDERRUN or CHOLD (R151). -/
def ThState.isHeld (s : ThState) : Bool := s == .hold || s == .underrun || s == .chold

/-- The fail-to-branch latency L (R169). -/
def Thread.latency (t : Thread) : Nat := match t.lastVec with | some (_, p) => max (40 * p) 2458 | none => 2458

/-- End of the last vector issued, or none before the first one. -/
def Thread.vecEnd (t : Thread) : Option Nat := t.lastVec.map fun v => v.1 + v.2

/-- A vector of the thread is in progress at a stamp. -/
def Thread.inVector (t : Thread) (now : Nat) : Bool := match t.vecEnd with | some e => decide (now < e) | none => false

/-! ### Result items (R182 to R184, R243, R244) -/

/-- Record bits 41:34 of a segment (R182). -/
def SegStat.flags (s : SegStat) : BitVec 8 :=
  BitVec.ofNat 8 (packFields [(1, bit s.aborted), (1, bit s.underrun), (1, bit s.squeeze), (1, bit s.stalled),
    (1, bit s.matchTo), (1, bit s.syncBroken), (1, bit s.lateWait), (1, bit s.throttled)])

/-- The segment record, when P.0504 asks for it (R182). -/
def Dev.segRecord (d : Dev) (lead : Nat) (ended : Nat) (next : BitVec 12) (choice : Nat) (selFail lateFail : Bool) : Dev :=
  if d.seq.recSeg.getLsbD lead then
    let t := d.thread lead
    d.packet (itemPacket 0x03 (lead / 4) 4
      [(6, lead), (12, t.seg.toNat), (12, next.toNat), (2, choice), (1, bit selFail), (1, bit lateFail),
       (8, t.segStat.flags.toNat), (22, 0), (64, t.segStat.start), (64, ended), (32, min t.segStat.fails (2 ^ 32 - 1)),
       (32, min t.segStat.stall (2 ^ 32 - 1))] d.tl.tq d.tl.epoch t.poison)
  else d

/-- A gap ends at a stamp: its record, P.0505 and the Cupping Log (R183); no member of the site waits on a page any more (R224,
R230). -/
def Dev.endGap (d : Dev) (lead : Nat) (ended : Nat) (aborted : Bool) : Dev :=
  let t := d.thread lead
  match t.gap with
  | none => d
  | some (g, va) =>
    let d : Dev := { d with pat := { d.pat with waiting := d.pat.waiting.filter fun w => !(d.site lead).contains w.1.toNat } }
    let d : Dev := d.packet (itemPacket 0x04 (lead / 4) 4
      [(6, lead), (12, t.seg.toNat), (1, bit aborted), (4, t.loops.length), (41, 0), (64, g), (64, ended), (48, va), (16, 0)]
      d.tl.tq d.tl.epoch t.poison)
    let d : Dev := { d with seq := { d.seq with underruns := satAdd (2 ^ 32 - 1) d.seq.underruns 1 } }
    let d : Dev := d.pushLog (d.logItem 5 (lead / 4) [lead / 4] [ended - g, ended - g, bit aborted])
    (d.modThread lead fun t => { t with
      flow := { t.flow with gaps := t.flow.gaps + 1, paused := t.flow.paused + (ended - g) } }).modSite lead
      fun t => { t with gap := none, residentAt := none, heldAt := ended }

/-- The bin of a flow's failing vectors (R447). -/
def failBin (n : Nat) : Nat :=
  if n = 0 then 0 else if n = 1 then 1 else if n < 10 then 2 else if n < 100 then 3 else if n < 1000 then 4
  else if n < 10000 then 5 else if n < 100000 then 6 else 7

/-- The flow summary, with what the Cupping Log counts of it (R184, R447). -/
def Dev.flowSummary (d : Dev) (lead : Nat) (ended : Nat) : Dev :=
  let t := d.thread lead
  let f := t.flow
  let d : Dev := d.packet (itemPacket 0x05 (lead / 4) 8
    [(6, lead), (2, t.members - 1), (12, t.seg.toNat), (3, f.endCode.toNat), (1, bit f.anyFail), (8, f.flags.toNat),
     (16, min f.segments 65535), (16, min f.gaps 65535), (64, f.start), (64, ended), (64, f.vectors), (64, f.fails),
     (64, f.firstFail.getD (2 ^ 64 - 1)), (64, f.paused), (64, 0)] d.tl.tq d.tl.epoch t.poison)
  d.pushLog (d.logItem 2 (lead / 4) [lead / 4] ((List.range 8).map fun i => if i = failBin f.fails then 1 else 0))

/-- The count snapshot of a thread that asks for it (R244). -/
def Dev.snapshot (d : Dev) (t : Nat) : Dev :=
  if (d.thread t).snap then
    d.packet (itemPacket 0x0C (t / 4) 32 ((List.range 32).map fun n =>
      (64, match (d.chansOf t)[n]? with | some ch => (d.chan ch).failCount.toNat | none => 0)) (noCold d.tl.tq) d.tl.epoch
      (d.thread t).poison)
  else d

/-- What a segment gathered joins its flow (R184). -/
def Thread.foldSeg (t : Thread) (selFail : Bool) : Thread :=
  if !t.segStat.isOpen then t
  else { t with
    flow := { t.flow with
      segments := t.flow.segments + 1, flags := t.flow.flags ||| t.segStat.flags, anyFail := t.flow.anyFail || selFail
      paused := t.flow.paused + t.segStat.stall }
    segStat := {} }

/-! ### TRIG_OUT (R165) -/

/-- A ball goes high at a stamp for P.0502 sequencer clocks; a pulse in progress is extended from the new start. -/
def Dev.pulse (d : Dev) (ball t : Nat) : Dev :=
  { d with seq := { d.seq with trig := d.seq.trig.mod {} ball fun b => { b with highUntil := some (t + d.seq.trigWidth * clk) } } }

/-- A thread owns a ball. -/
def Dev.ownsBall (d : Dev) (lead ball : Nat) : Bool := (d.seq.trig.get ({} : TrigOut) ball).owner == some (BitVec.ofNat 6 lead)

/-! ### Jumps (R172, R173) -/

/-- A jump request is latched: an earlier one completes OK with REPLACED. -/
def Dev.latchJump (d : Dev) (lead : Nat) (seg : BitVec 12) (tag : Option Tag) : Dev :=
  let old := ((d.thread lead).jump.bind (·.tag))
  let d : Dev := d.modThread lead fun t => { t with jump := some { seg := seg, latch := clockOf d.tl.now, tag := tag } }
  match old with | some o => d.finish o { replaced := true } | none => d

/-- A latched request ends ABORTED. -/
def Dev.dropJump (d : Dev) (lead : Nat) : Dev :=
  let old := ((d.thread lead).jump.bind (·.tag)).toList ++ (d.thread lead).jumpTaken.toList
  let d : Dev := d.modThread lead fun t => { t with jump := none, jumpTaken := none }
  old.foldl (fun d o => d.finish o { status := stAborted }) d

/-! ### The start of a segment (R164) -/

/-- A waveform that is bound to this segment starts with it (R115). -/
def Dev.startWaves (d : Dev) (t : Nat) (seg : BitVec 12) (at_ : Nat) : Dev :=
  (d.chansOf t).foldl (fun d ch => d.modPmu ch fun p => { p with
    wave := p.wave.map fun w => if w.bind = some seg ∧ ¬ w.running then { w with next := at_, bind := none } else w }) d

/-- A segment starts on a site at a stamp (R164, R165, R181). A routine that is still on its way to its next safe point from an
earlier flow ends there (log entry 156). -/
def Dev.startSegment (d : Dev) (lead : Nat) (seg : BitVec 12) (at_ : Nat) : Dev :=
  let hot := d.hk.hot
  let d : Dev := d.modSite lead fun t => { t with
    st := .run, seg := seg, chosen := none, pc := descVa (t.desc seg), loops := [], calls := [], ff := false, sf := false
    segStat := { isOpen := true, start := at_ }, next := at_, throttle := hot, inBlock := 0, ended := false, barrier := none
    matchAt := none, dispatchFrom := at_, waitEnd := none
    ctx := { t.ctx with active := false, queue := [], clock := at_ - 2048, waiting := false, sinceSafe := 0, safe := true } }
  let w := (d.thread lead).desc seg
  let d : Dev := if descTrigEn w ∧ d.ownsBall lead (descBall w) then d.pulse (descBall w) at_ else d
  let d : Dev := (d.site lead).foldl (fun d t =>
    let d : Dev := d.raiseThread t at_ fun c => condKind c == 9 && bits c.toNat 4 12 == seg.toNat
    d.startWaves t seg at_) d
  let d : Dev := if d.seq.segEvents.getLsbD lead then d.postAt (threadSource lead) 1 [seg.toNat] d.tl.epoch at_ d.tl.tq else d
  match (d.thread lead).jumpTaken with
  | some tag => (d.modThread lead fun t => { t with jumpTaken := none }).finish tag (stamped {} d.tl.tq d.tl.epoch at_)
  | none => d

/-! ### Held states (R178, R198) -/

/-- The SEQ.HOLD commands that wait for a site complete with its entry stamp, and the SEQ.STOP commands stay (R185). -/
def Dev.endHolds (d : Dev) (lead : Nat) : Dev :=
  let tags := (d.thread lead).holdTags
  let holds := tags.filter fun g => (d.flight g).any fun f => f.opcode == 0x0507
  let d : Dev := d.modThread lead fun t => { t with holdTags := tags.filter fun g => !holds.contains g }
  holds.foldl (fun d g => (d.modJob g fun j => { j with vals := j.vals.set 0 lead d.tl.now }).endUnit g lead) d

/-- Channels that a PIN.PARK left to the end of the vector are parked (R76). -/
def Dev.parkWaiting (d : Dev) (lead : Nat) : Dev :=
  let chs := (d.siteChans lead).filter fun ch => (d.chan ch).parkHeld
  chs.foldl (fun d ch => d.parkChannel ch) (d.endClock chs)

/-- The scheduled start of a SEQ.START is gone once no site waits for it any more (R54). -/
def Dev.settleStart (d : Dev) (tag : Tag) : Dev :=
  { d with tl := { d.tl with acts := d.tl.acts.filter fun a =>
      !(a.tag == tag && a.kind == .seqStart) ||
        ((List.range 64).any fun t => a.user.testBit t && (d.thread t).st == .armed && (d.thread t).startTag == tag) } }

/-- A SEQ.RESUME that waits for a site cannot resume it any more (R515). -/
def Dev.cutResume (d : Dev) (lead : Nat) : Dev :=
  match (d.thread lead).resumeAt with
  | none => d
  | some (tag, _, _) =>
    let d : Dev := (d.modThread lead fun t => { t with resumeAt := none }).cutUnit tag lead
    if (List.range 64).any fun t => (d.thread t).resumeAt.any fun r => r.1 == tag then d else d.dropAct tag .seqResume

/-- A context whose thread stops without a way back: the queue is discarded; the routine is at a safe point, or goes on to its next
one, where it is discarded, and what it queues until then is not kept (R198). -/
def Ctx.drop (c : Ctx) : Ctx := { c with active := c.active && !c.safe, queue := [], waiting := false }

/-- A site enters HOLD, or CHOLD when a cause of the contained kind is among those taken; a park and a contained fault discard
routine and queue (R198). -/
def Dev.enterHeld (d : Dev) (lead : Nat) (st : ThState) (poison : Bool) : Dev :=
  let now := d.tl.now
  let d : Dev := if st = .chold then (d.endGap lead now false).cutResume lead else d
  let d : Dev := d.modSite lead fun t => { t with
    st := st, heldAt := if t.st.isHeld then t.heldAt else now, causes := t.causes.filter (· == .stop), latch := none
    poison := t.poison || poison, ctx := if st = .chold then t.ctx.drop else t.ctx }
  ((d.endHolds lead).parkWaiting lead).settleStart (d.thread lead).startTag

/-- The held state that the latched causes ask for: CHOLD unless only SEQ.HOLD or a HOLD instruction did (R178). -/
def heldState (cs : List HoldCause) : ThState :=
  if cs.any fun c => c == .park || c == .contained || c == .request || c == .lost then .chold else .hold

/-- A park, hold request or contained fault reaches a thread at the present; its latch stamp is the start of the clock (R178). -/
def Dev.reachCause (d : Dev) (thread : Nat) (c : HoldCause) : Dev :=
  let lead := d.leadOf thread
  let t := d.thread lead
  let poison := c == .contained
  match t.st with
  | .idle => d
  | .chold => (d.modSite lead fun t => { t with poison := t.poison || poison }).parkWaiting lead
  | .armed => d.enterHeld lead .chold poison
  | .hold | .underrun => d.enterHeld lead .chold poison
  | .run | .dead =>
    let d : Dev := d.modSite lead fun t => { t with
      causes := if t.causes.contains c then t.causes else t.causes ++ [c], latch := some (t.latch.getD (clockOf d.tl.now)) }
    if t.st = .dead ∨ ¬ t.inVector d.tl.now then d.parkWaiting lead else d

/-! ### The end of a flow (R166, R184) -/

/-- A waveform whose segment can no longer start ends (R116). -/
def Dev.dropBoundWaves (d : Dev) (t : Nat) : Dev :=
  (d.chansOf t).foldl (fun d ch => if (d.pmu ch).wave.any fun w => w.bind.isSome && !w.running then d.cutWave ch else d) d

/-- The tiles that a site's segment has used are free of it again (R230). -/
def Dev.freeTiles (d : Dev) (lead : Nat) : Dev :=
  (d.site lead).foldl (fun d t => d.modBank (t / 4) fun b => { b with
    tiles := ⟨b.tiles.cells.map fun c => (c.1, { c.2 with own := c.2.own &&& ~~~ (1#4 <<< (t % 4)) })⟩ }) d

/-- The members of a site become idle: pins release, rings close, what waited for the site ends (R151, R152, R254). -/
def Dev.idleSite (d : Dev) (lead : Nat) : Dev :=
  let t := d.thread lead
  let d : Dev := (d.endHolds lead).dropJump lead
  let stops := (d.thread lead).holdTags
  let d : Dev := (d.cutResume lead).freeTiles lead
  let d : Dev := d.modSite lead fun t => { t with
    st := .idle, idleAt := d.tl.now, causes := [], latch := none, stopAt := none, waitEnd := none, holdTags := [], resumeAt := none, chosen := none, lastVec := none, inBlock := 0, strobes := []
    matchAt := none, ended := false, fire := false, barrier := none, lines := [], poison := false, loops := [], calls := []
    ctx := t.ctx.drop, segStat := {}, gap := none, residentAt := none }
  let d : Dev := (d.site lead).foldl (fun d t => (d.dropBoundWaves t).idleRings t) d
  let d : Dev := (d.siteChans lead).foldl (fun d ch => ((d.takeDriver ch).releasePin ch).notePend ch) d
  let d : Dev := (d.site lead).foldl (fun d m => d.notePeriods m) d
  let d : Dev := d.parkWaiting lead
  stops.foldl (fun d g => d.endUnit g lead) (d.settleStart t.startTag)

/-- A flow ends: summary, snapshots, event, IDLE (R166, R184). -/
def Dev.endFlow (d : Dev) (lead ended : Nat) : Dev :=
  let d : Dev := d.flowSummary lead ended
  let d : Dev := (d.site lead).foldl (fun d t => d.snapshot t) d
  let t := d.thread lead
  let d : Dev := d.postAt (threadSource lead) 2 [t.flow.endCode.toNat, t.seg.toNat] d.tl.epoch ended d.tl.tq
  d.idleSite lead

/-- A dead time begins at a stamp (R164, R179): `ended` is the END of a flow that it ends. A stop or a program error leaves no
segment end that could take a latched request (R173). -/
def Dev.beginDead (d : Dev) (lead at_ : Nat) (ended : Option Nat) : Dev :=
  let d : Dev := if ended.getD 0 = 0 then d else d.dropJump lead
  d.modSite lead fun t => { t with
    st := .dead, deadEnd := at_ + 2048, ended := ended.isSome
    flow := match ended with | some c => { t.flow with endCode := BitVec.ofNat 3 c } | none => t.flow
    stopAt := none, waitEnd := none, ctx := t.ctx.drop }

/-- SEQ.STOP reaches a site (R179). -/
def Dev.stopSite (d : Dev) (lead : Nat) (tag : Tag) : Dev :=
  let t := d.thread lead
  let now := d.tl.now
  match t.st with
  | .idle => d.endUnit tag lead
  | .armed =>
    let d : Dev := d.modSite lead fun t => { t with holdTags := t.holdTags ++ [tag], flow := { t.flow with endCode := 1 } }
    d.endFlow lead now
  | .run => d.modSite lead fun t => { t with
      holdTags := t.holdTags ++ [tag], causes := if t.causes.contains .stop then t.causes else t.causes ++ [.stop]
      stopAt := some (t.stopAt.getD now) }
  | .dead =>
    let d : Dev := d.modSite lead fun t => { t with
      holdTags := t.holdTags ++ [tag], flow := if t.ended then t.flow else { t.flow with endCode := 1 } }
    (d.modSite lead fun t => { t with ended := true }).dropJump lead
  | .hold | .underrun | .chold =>
    let d : Dev := d.endGap lead now false
    let code := if t.st = .chold then (if t.flow.endCode = 4 then 4 else 2) else 1
    let d : Dev := d.modSite lead fun t => { t with holdTags := t.holdTags ++ [tag] }
    let d : Dev := d.modThread lead fun t => t.foldSeg false
    let d : Dev := d.modThread lead fun t => { t with flow := { t.flow with paused := t.flow.paused + (now - t.heldAt) } }
    d.beginDead lead now (some code)

/-- Decaf mode ends every site and every context at once, with no dead time (R181, R199). -/
def Dev.decafThreads (d : Dev) : Dev :=
  forEach (List.range 64) (fun t d =>
    if (d.thread t).st = .idle ∨ d.leadOf t ≠ t then d
    else
      let at_ := nextClock d.tl.now
      let d : Dev := d.endGap t at_ false
      let d : Dev := d.modThread t fun x => (if x.st.isHeld then
        { x with flow := { x.flow with paused := x.flow.paused + (at_ - x.heldAt) } } else x).foldSeg false
      let d : Dev := d.modThread t fun x => { x with flow := { x.flow with endCode := 5 } }
      let d : Dev := d.modSite t fun x => { x with ctx := { x.ctx with safe := true } }
      d.endFlow t at_) d

/-- The pending timing values of every thread and channel are discarded (R135, R181). -/
def Dev.dropTiming (d : Dev) : Dev :=
  forEach (List.range 64) (fun t d => d.dropPeriods t) (forEach (List.range 512) (fun ch d => d.dropEdges ch) d)

end Sys2Proof.Machine
end

