-- ==== Sys2Proof/Machine/PatOps.lean ====
section
/-!
DEFINITION. The shared operations of the pattern store (08_pattern_store.md): residency, locks, the Drip feed's window, paging
faults, fills and tile checks.
-/
namespace Sys2Proof.Machine

/-! ### Pages and tiles (R210 to R217) -/

/-- VPN of a pattern address (R215). -/
def pageOf (va : Nat) : Nat := va / 4096

/-- The working tile of a bank that holds a page. -/
def Dev.tileOf (d : Dev) (b vpn : Nat) : Option Nat :=
  ((d.bank b).tiles.cells.find? fun c => c.2.valid && !c.2.bad && !c.2.out && c.2.vpn == vpn).map (·.1)

/-- A page is resident in a bank. -/
def Dev.resident (d : Dev) (b vpn : Nat) : Bool := (d.tileOf b vpn).isSome && (d.pte vpn).valid

/-- The 64-bit word at a pattern address, from the tile of a bank that holds its page. -/
def Dev.patWord (d : Dev) (b va : Nat) : Option (BitVec 64) :=
  (d.tileOf b (pageOf va)).map fun k => (d.tile b k).data.get 0 (va % 4096 / 8)

/-- The translation buffer of a bank with a page most recently used (R217). -/
def Dev.tlbUse (d : Dev) (b vpn : Nat) : Dev :=
  match d.tileOf b vpn with
  | none => d
  | some k => d.modBank b fun x => { x with tlb := ((vpn, k) :: x.tlb.filter fun e => e.1 != vpn).take 256 }

/-- The translation buffer of a bank without a page. -/
def Dev.tlbDrop (d : Dev) (b vpn : Nat) : Dev := d.modBank b fun x => { x with tlb := x.tlb.filter fun e => e.1 != vpn }

/-- The residency bit of a page in a bank (R216). -/
def Dev.setRes (d : Dev) (b vpn : Nat) (on : Bool) : Dev :=
  d.modPte vpn fun p => { p with res := if on then p.res ||| (1#16 <<< b) else p.res &&& ~~~ (1#16 <<< b) }

/-- A tile is free: nothing in it and not out of use. -/
def Tile.free (t : Tile) : Bool := !t.valid && !t.filling && !t.bad && !t.out

/-- What was under way for a tile's contents is over when they go: its check (R213), and the mark of its page's one refill
(R214). -/
def Dev.loseData (d : Dev) (b k : Nat) : Dev :=
  let d : Dev := if (d.bank b).checking.any fun c => c.1 == k then d.modBank b fun x => { x with checking := none } else d
  { d with pat := { d.pat with refilled := d.pat.refilled.erase (BitVec.ofNat 4 b, (d.tile b k).vpn) } }

/-- A tile gives up its page (R225, R229). -/
def Dev.freeTile (d : Dev) (b k : Nat) : Dev :=
  let t := d.tile b k
  let d : Dev := if t.valid then d.loseData b k else d
  let d : Dev := d.modTile b k fun t => { t with
    valid := false, filling := false, checked := false, own := 0, pin := false, data := .empty, vpn := 0, gen := 0, crc := 0, entered := 0 }
  if t.valid then ((d.setRes b t.vpn false).tlbDrop b t.vpn).modPte t.vpn fun p => { p with pin := p.pin &&& ~~~ (1#16 <<< b) } else d

/-- CRC-32C of the 512 words of a page (R212). -/
def pageCrc (ws : Tab (BitVec 64)) : BitVec 32 := crc32c (wordBytes (ws.range 0 0 512))

/-- A page as a table of its 512 words. -/
def pageData (ws : List (BitVec 64)) : Tab (BitVec 64) := Tab.empty.fill 0 0 ws

/-- A page of LPDDR5X as a table of its words. -/
def Dev.dramPage (d : Dev) (vpn : Nat) : Tab (BitVec 64) := pageData (d.pat.pages.range 0 (512 * vpn) 512)

/-! ### The Drip feed's window (R226) -/

/-- Words that the instruction at an address takes, its data words with it (R159); W is the width of a vector in bits. -/
def instrWords (w : BitVec 64) (width : Nat) : Nat :=
  let op := bits w.toNat 56 8
  let n := bits w.toNat 0 32
  if op = 1 then 1 + ceilDiv (n * width) 64
  else if op = 2 then 1 + ceilDiv n 8
  else if op = 4 then 1 + ceilDiv (bits w.toNat 0 9 * width) 64
  else 1

/-- The TARGETs of the JMP, CALL and JFAIL words that a thread's prefetch buffer holds from an address on. -/
def Dev.targets (d : Dev) (b width : Nat) (lines : List Nat) : Nat → Nat → List Nat
  | 0, _ => []
  | n + 1, va =>
    if lines.contains (va / 64) then
      match d.patWord b va with
      | none => []
      | some w =>
        let op := bits w.toNat 56 8
        let rest := Dev.targets d b width lines n (va + 8 * instrWords w width)
        if op = 0x0C ∨ op = 0x10 ∨ op = 0x11 then pageOf (bits w.toNat 0 48) :: rest else rest
    else []

/-- The width W of a thread's vectors in bits (R157). -/
def Dev.width (d : Dev) (t : Nat) : Nat := 4 * (d.chansOf t).length

/-- Address of the next instruction or vector word that a thread's pins need. -/
def Dev.nextVa (d : Dev) (t : Nat) : Nat :=
  let x := d.thread t
  if x.st = .armed then descVa (x.desc x.firstSeg)
  else if x.chosen.isSome then descVa (x.desc (x.chosen.getD 0))
  else match x.ctx.queue with
    | (.block .literal _ _ _ data _, _) :: _ => data + x.inBlock * d.width t / 64 * 8
    | (.block .indexed _ _ _ data _, _) :: _ => data + x.inBlock / 8 * 8
    | (.dload _ _ data _ _, _) :: _ => data
    | _ => x.pc

/-- The lookahead window of a thread; the TARGET of a JFAIL that waits in the queue is in it until it is decided (R226). -/
def Dev.window (d : Dev) (t : Nat) : List Nat :=
  let x := d.thread t
  if x.st = .idle then []
  else
    let here := pageOf (d.nextVa t)
    let w := x.desc (if x.st = .armed then x.firstSeg else x.seg)
    let seg := fun (s : BitVec 12) => pageOf (descVa (x.desc s))
    ((List.range x.depth).map fun k => here + 1 + k) ++ (if x.st = .armed then [here] else []) ++
      [seg (descNext w), seg (descNextFail w)] ++ (x.ctx.queue.filterMap fun q => match q.1 with | .jfail _ _ _ _ a => some (pageOf a) | _ => none) ++
      (match (d.thread (d.leadOf t)).jump with | some j => [seg j.seg] | none => []) ++
      d.targets (t / 4) (d.width t) x.lines 512 x.pc

/-! ### Locks (R167, R230) -/

/-- The active segments of a thread (R167). -/
def Thread.active (x : Thread) : List (BitVec 12) :=
  match x.st with
  | .idle => []
  | .armed => [x.firstSeg]
  | _ => x.seg :: x.chosen.toList

/-- A page is locked (R230). -/
def Dev.locked (d : Dev) (vpn : Nat) : Bool :=
  ((List.range 16).any fun b => (d.tileOf b vpn).any fun k => (d.tile b k).own != 0) ||
  (d.pat.waiting.any fun w => w.2 == vpn) ||
  ((List.range 64).any fun t => (d.thread t).active.any fun s => pageOf (descVa ((d.thread t).desc s)) == vpn)

/-- The lines that a thread's prefetch wants: those that its pins and its engine need come first (R162). -/
def Dev.wantedLines (d : Dev) (m : Nat) : List Nat :=
  let pins := d.nextVa m / 64
  pins :: (d.thread m).pc / 64 :: (List.range 62).map fun k => pins + 1 + k

/-- The line that a thread requests next from the bank's SRAM port, with its tile: the first one wanted, when its page is resident
and translated (R162, R217). -/
def Dev.prefetchLine (d : Dev) (m : Nat) : Option (Nat × Nat) :=
  let b := m / 4
  if (d.thread m).st = .idle then none
  else match (d.wantedLines m).find? fun n => !(d.thread m).lines.contains n with
    | none => none
    | some line =>
      let vpn := pageOf (64 * line)
      if d.resident b vpn ∧ (d.bank b).tlb.any fun e => e.1 == vpn then (d.tileOf b vpn).map fun k => (line, k) else none

/-- The thread whose request the port takes next: the threads of the bank that have one take turns (R162). -/
def Dev.portTurn (d : Dev) (b : Nat) : Option Nat :=
  ((List.range 4).map fun k => 4 * b + ((d.bank b).portLast.toNat + 1 + k) % 4).find? fun m => (d.prefetchLine m).isSome

/-- A page is locked for a command of the present sequencer clock (R230, R231): also one that a prefetch request of the same clock
reaches, which is the request that a free port takes next. -/
def Dev.barred (d : Dev) (vpn : Nat) : Bool :=
  d.locked vpn || (List.range 16).any fun b =>
    decide ((d.bank b).portFree ≤ d.tl.now) && (d.portTurn b).any fun m => (d.prefetchLine m).any fun x => pageOf (64 * x.1) == vpn

/-! ### Choosing a tile (R225) -/

/-- A tile may be evicted; `wanted` are the pages of every thread's lookahead window. -/
def Dev.evictable (d : Dev) (wanted : List Nat) (b k : Nat) : Bool :=
  let t := d.tile b k
  t.valid && !t.filling && !t.pin && t.own == 0 && !t.bad && !t.out && (d.pte t.vpn).tier != 0 && !d.locked t.vpn &&
  !wanted.contains t.vpn

/-- The tile that a page takes in a bank: a free one, else the evictable one entered least recently. -/
def Dev.chooseTile (d : Dev) (b : Nat) : Option Nat :=
  match (List.range 1024).find? fun k => (d.tile b k).free with
  | some k => some k
  | none =>
    let wanted := (List.range 64).flatMap d.window
    ((List.range 1024).filter fun k => d.evictable wanted b k).foldl
      (fun m k => match m with
        | some j => if (d.tile b k).entered < (d.tile b j).entered then some k else some j
        | none => some k) none

/-- A page enters a tile, valid and unchecked. -/
def Dev.enterTile (d : Dev) (b k vpn : Nat) (data : Tab (BitVec 64)) (pin : Bool) : Dev :=
  let p := d.pte vpn
  let n := (d.bank b).entered
  let d : Dev := d.modTile b k fun t => { t with
    vpn := vpn, valid := true, filling := false, checked := false, own := 0, pin := pin, gen := p.gen, crc := p.crc
    entered := n, data := data }
  ((d.modBank b fun x => { x with entered := x.entered + 1 }).setRes b vpn true).tlbUse b vpn

/-! ### Paging faults (R219, R224) -/

/-- Rank of a kind of fault: demand first (R219). -/
def FaultKind.rank : FaultKind → Nat
  | .demand => 0
  | .prefetch => 1
  | .lookahead => 2

/-- The longest fault-to-residency time and what the log counts of paging (R237, R447). -/
def Dev.pagingLog (d : Dev) (demand drop check fault longest : Nat) : Dev :=
  d.pushLog (d.logItem 4 0xFF [] [demand, drop, check, fault, longest])

/-- A fault is raised for a page and a bank: it joins an entry, is queued, waits outside a full queue, or is dropped (R219). A demand
fault counts in P.0702 also where it joins (R237). -/
def Dev.raiseFault (d : Dev) (b vpn : Nat) (kind : FaultKind) : Dev :=
  let same := fun (f : PFault) => f.vpn == vpn && f.bank.toNat == b
  let f : PFault := { vpn := vpn, bank := BitVec.ofNat 4 b, kind := kind, raised := d.mono }
  let d : Dev := if kind = .demand then
      { d with pat := { d.pat with demands := satAdd (2 ^ 32 - 1) d.pat.demands 1 } }.pagingLog 1 0 0 0 0 else d
  if d.pat.fill.any fun x => x.vpn == vpn && x.tiles.any (fun t => t.1.toNat == b) then
    { d with pat := { d.pat with fill := d.pat.fill.map fun x =>
      if kind.rank < x.kind.rank then { x with kind := kind, raised := d.mono } else x } }
  else if d.pat.queue.any same then
    { d with pat := { d.pat with
      queue := d.pat.queue.map fun q => if same q ∧ kind.rank < q.kind.rank then { q with kind := kind, raised := d.mono } else q } }
  else if d.pat.queue.length < 256 then { d with pat := { d.pat with queue := d.pat.queue ++ [f] } }
  else match kind with
    | .demand => if d.pat.outside.any same then d else { d with pat := { d.pat with outside := d.pat.outside ++ [f] } }
    | .prefetch => d
    | .lookahead => { d with pat := { d.pat with drops := satAdd (2 ^ 32 - 1) d.pat.drops 1 } }.pagingLog 0 1 0 0 0

/-- Entries of the fault queue free: the demand faults that wait outside enter before any other, oldest first, as far as there is
room, and one whose page and bank stand in the queue joins that entry (R219). -/
def Dev.pullOutside (d : Dev) : Dev :=
  let r := d.pat.outside.foldl (fun (r : List PFault × List PFault) f =>
    let same := fun (q : PFault) => q.vpn == f.vpn && q.bank == f.bank
    if r.1.any same then (r.1.map fun q => if same q ∧ q.kind ≠ .demand then { q with kind := .demand, raised := f.raised } else q, r.2)
    else if r.1.length < 256 then (r.1 ++ [f], r.2) else (r.1, r.2 ++ [f])) (d.pat.queue, [])
  { d with pat := { d.pat with queue := r.1, outside := r.2 } }

/-- A thread waits for a page that its bank does not hold (R219, R224). -/
def Dev.waitPage (d : Dev) (t vpn : Nat) : Dev :=
  let d : Dev := { d with pat := { d.pat with
    waiting := if d.pat.waiting.any (fun w => w.1.toNat == t) then d.pat.waiting else d.pat.waiting ++ [(BitVec.ofNat 6 t, vpn)] } }
  d.raiseFault (t / 4) vpn .demand

/-- Residency of a page in a bank is confirmed: the threads that wait on it there can resume, a site once no member waits
(R180, R220). -/
def Dev.confirm (d : Dev) (b vpn : Nat) : Dev :=
  let mine := fun (w : BitVec 6 × Nat) => w.2 == vpn && w.1.toNat / 4 == b
  let ts := (d.pat.waiting.filter mine).map fun w => w.1.toNat
  let d : Dev := { d with pat := { d.pat with waiting := d.pat.waiting.filter fun w => !mine w } }
  ts.foldl (fun d t =>
    let lead := d.leadOf t
    if (d.site lead).any fun m => d.pat.waiting.any fun w => w.1.toNat == m then d
    else d.modThread lead fun x => { x with residentAt := some d.tl.now }) d

/-- Every thread that waits on a page in one of some banks moves to CHOLD (R214, R224). -/
def Dev.failWaiters (d : Dev) (banks : List Nat) (vpn : Nat) : Dev :=
  let mine := fun (w : BitVec 6 × Nat) => w.2 == vpn && banks.contains (w.1.toNat / 4)
  let ts := (d.pat.waiting.filter mine).map fun w => w.1.toNat
  let d : Dev := { d with pat := { d.pat with waiting := d.pat.waiting.filter fun w => !mine w } }
  ts.foldl (fun d t => d.enterHeld (d.leadOf t) .chold true) d

/-- PAT.PREFETCH commands that wait for a page end FAULT (R236). -/
def Dev.failPrefetch (d : Dev) (banks : List Nat) (vpn : Nat) : Dev :=
  let hit := d.pat.prefetches.filter fun p => p.todo.any fun x => x.2 == vpn && banks.contains x.1.toNat
  let d : Dev := { d with pat := { d.pat with prefetches := d.pat.prefetches.filter fun p => !hit.contains p } }
  hit.foldl (fun d p => d.finish p.tag { status := stFault }) d

/-- A page of a PAT.PREFETCH is resident, and checked where the command asks for it; the command ends with its last page
(R236). -/
def Dev.passPrefetch (d : Dev) (b vpn : Nat) : Dev :=
  let ps := d.pat.prefetches.map fun p =>
    if p.check ∧ ¬ (d.tileOf b vpn).any (fun k => (d.tile b k).checked) then p
    else { p with todo := p.todo.filter fun x => !(x.2 == vpn && x.1.toNat == b) }
  let done := ps.filter fun p => p.todo == []
  let d : Dev := { d with pat := { d.pat with prefetches := ps.filter fun p => p.todo != [] } }
  done.foldl (fun d p => d.finish p.tag {}) d

/-- A resolution ends with status FAULT, and one contained fault of the paging is reported (R224); the cause is the one of R429 that
says what failed (log entry 161). A page that was being refilled after a failed check is so no longer (R214). -/
def Dev.faultPage (d : Dev) (banks : List Nat) (vpn cause : Nat) : Dev :=
  let p := d.pte vpn
  let d : Dev := if p.valid ∧ p.tier ≠ 0 then d.modPte vpn fun p => { p with bad := true } else d
  let d : Dev := { d with pat := { d.pat with refilled := d.pat.refilled.filter fun x => !(x.2 == vpn && banks.contains x.1.toNat) } }
  let d : Dev := (d.failWaiters banks vpn).failPrefetch banks vpn
  (d.collect 21 1 cause (banks.headD 0) 0).pagingLog 0 0 0 1 0

/-- The fill in progress ends without a page: its tiles are free (R223, R224). -/
def Dev.dropFill (d : Dev) : Dev :=
  match d.pat.fill with
  | none => d
  | some f =>
    let d : Dev := { d with pat := { d.pat with fill := none } }
    f.tiles.foldl (fun d t => d.modTile t.1.toNat t.2 fun x => { x with filling := false, vpn := 0, gen := 0, crc := 0 }) d

/-- The check of a tile ends: the CRC of the words read is the tag's, where no upset changed one of them (R213, R214). -/
def Dev.endCheck (d : Dev) (b k : Nat) (upset : Bool) : Dev :=
  let t := d.tile b k
  let good := !upset && pageCrc t.data == t.crc
  let d : Dev := d.modBank b fun x => { x with checking := none }
  if good then
    let again := d.pat.refilled.contains (BitVec.ofNat 4 b, t.vpn)
    let d : Dev := d.modTile b k fun t => { t with checked := true }
    let d : Dev := if again then
        { d with pat := { d.pat with refilled := d.pat.refilled.erase (BitVec.ofNat 4 b, t.vpn) } }.collect 20 0 3 (k + 1024 * b) 0
      else d
    (d.confirm b t.vpn).passPrefetch b t.vpn
  else
    let again := d.pat.refilled.contains (BitVec.ofNat 4 b, t.vpn)
    let d : Dev := { d with pat := { d.pat with checkFails := satAdd (2 ^ 32 - 1) d.pat.checkFails 1 } }.pagingLog 0 0 1 0 0
    let d : Dev := (d.freeTile b k).modTile b k fun t => { t with bad := true }
    if (d.pte t.vpn).tier = 0 ∨ again then
      let d : Dev := { d with pat := { d.pat with refilled := d.pat.refilled.erase (BitVec.ofNat 4 b, t.vpn) } }
      ((d.failWaiters [b] t.vpn).failPrefetch [b] t.vpn).collect 20 1 3 (k + 1024 * b) 0
    else
      let d : Dev := { d with pat := { d.pat with refilled := (BitVec.ofNat 4 b, t.vpn) :: d.pat.refilled } }
      d.raiseFault b t.vpn .demand

/-- The check of a tile begins; the bank's checker reads it in 64 sequencer clocks (R213). -/
def Dev.beginCheck (d : Dev) (b k : Nat) : Dev :=
  if (d.bank b).checking.isSome ∨ (d.tile b k).checked then d
  else d.modBank b fun x => { x with checking := some (k, d.tl.now + 64 * clk) }

end Sys2Proof.Machine
end

