-- ==== Sys2Proof/Machine/TdcOps.lean ====
section
/-!
DEFINITION. The shared operations of the time-to-digital converters (05_edges_and_tdc.md, R137 to R147).
-/
namespace Sys2Proof.Machine

/-- The timing slice of a channel: its power-up slice unless it was moved (R122). -/
def Chan.sliceOf (c : Chan) (ch : Nat) : Nat := match c.slice with | some s => s.toNat | none => ch % 32

/-- The channel that a slice of a bank carries, if it carries one (R122). -/
def Dev.sliceChan (d : Dev) (b s : Nat) : Option Nat :=
  ((List.range 32).map fun k => 32 * b + k).find? fun ch => (d.chan ch).sliceOf ch == s && !(d.chan ch).noSlice

/-- A slice of a bank carries no channel and is healthy, so that its TDC is an auxiliary one (R125, R137). -/
def Dev.isAux (d : Dev) (b s : Nat) : Bool := decide (s ≥ 32) && (d.sliceChan b s).isNone

/-- The TDC exists: it belongs to a slice that carries a channel, or is auxiliary and healthy. -/
def Dev.tdcExists (d : Dev) (b s : Nat) : Bool :=
  decide (s < 34) && ((d.sliceChan b s).isSome || (decide (s ≥ 32) && !((d.bank b).slices.get ({} : Slice) s).failed))

/-- The inputs of a measurement that route through a measurement line (R138). -/
def Dev.lineNeeds (d : Dev) (b s : Nat) (startSrc : Nat) (startCh : Nat) (stopCh : Nat) : List Nat :=
  let own := d.sliceChan b s
  (if startSrc ≠ 4 ∧ own ≠ some startCh then [startCh] else []) ++ (if own ≠ some stopCh then [stopCh] else [])

/-- The measurement lines of a bank that are free (R138). -/
def Dev.freeLines (d : Dev) (b : Nat) : List Nat := (List.range 4).filter fun l => ((d.bank b).lines.get none l).isNone

/-- Claim a line for each input that needs one. -/
def Dev.claimLines (d : Dev) (b s : Nat) (needs : List Nat) : Dev :=
  ((d.freeLines b).zip needs).foldl (fun d p => d.modBank b fun k => { k with
    lines := k.lines.set none p.1 (some (BitVec.ofNat 6 s, BitVec.ofNat 9 p.2)) }) d

/-- A measurement's lines are free again (R149). -/
def Dev.releaseLines (d : Dev) (b s : Nat) : Dev :=
  forEach (List.range 4) (fun l d =>
    if ((d.bank b).lines.get none l).any (fun x => x.1.toNat == s) then
      d.modBank b fun k => { k with lines := k.lines.set none l none }
    else d) d

/-- VALUE of a measurement (R144). -/
def Tdc.value (x : Tdc) : Int :=
  if x.mode = 1 then (if x.c = 0 then 0 else roundDiv (x.sum * 256) x.c)
  else if x.edges = 0 then 0 else roundDiv (((x.tN : Int) - x.t0.getD 0) * 256) (x.edges * 2 ^ x.k)

/-- A TDC result item (R145). -/
def Dev.tdcItem (d : Dev) (b s : Nat) (x : Tdc) (k count index : Nat) (value : Int) (stamp : Nat) (lo hi : Int) (cut : Bool) : Dev :=
  let tl := x.startSrc = 4 ∧ x.mode = 1
  d.packet (itemPacket 0x02 b 4
    [(9, if tl then 0 else x.startCh.toNat), (9, x.stopCh.toNat), (2, x.mode.toNat), (5, k), (1, bit (decide tl)),
     (1, bit x.noStart), (1, bit x.noStop), (1, bit x.missed), (1, bit (d.isAux b s)), (1, bit cut), (1, 0), (16, count),
     (16, index), (64, twos 64 value), (64, stamp), (32, twos 32 lo), (32, twos 32 hi)] (d.tqOver x.tq x.epoch (if x.mode = 0 then stamp else x.openAt)) x.epoch false)

/-- The one result of an INTERVAL or PERIOD measurement (R145). STAMP is a free value where START of repeat 0, or t0, was not
taken, and so are MIN and MAX over no interval and no spacing (log entry 154). -/
def Dev.tdcResult (d : Dev) (b s : Nat) (x : Tdc) (cut : Bool) : Dev :=
  let stamp := if x.mode = 1 then (if x.startSrc = 4 then some x.startAt else x.firstStart) else x.t0
  let n := if x.mode = 1 then x.c else x.edges
  let f := d.fresh
  let d := if stamp.isSome ∧ n > 0 then d else f.2
  let free := bits f.1 0 32
  d.tdcItem b s { x with noStop := x.noStop || decide (x.mode = 2 ∧ x.edges = 0) } x.k n 0 x.value (stamp.getD f.1)
    (if n > 0 then x.min else free) (if n > 0 then x.max else free) cut

/-- The TDC is free again, and its command completes (R146, R149). -/
def Dev.freeTdc (d : Dev) (b s : Nat) (c : Cpl) : Dev :=
  let x := d.tdc b s
  let d : Dev := ((d.modTdc b s fun _ => {}).releaseLines b s).interruptTap b true s
  match x.owner with
  | .arm tag => (d.dropActs tag).finish tag c
  | _ => d

/-- START of the repeat in progress (R141). -/
def Tdc.startNow (x : Tdc) : Option Nat := if x.startSrc = 4 then some (x.startAt + x.i * x.rep) else x.start

/-- A repeat of an INTERVAL measurement is settled (R141, R144). -/
def Tdc.settle (x : Tdc) : Tdc :=
  let y := { x with noStart := x.noStart || x.startNow.isNone, noStop := x.noStop || x.stop.isNone }
  match x.startNow, x.stop with
  | some a, some z =>
    let v : Int := (z : Int) - a
    { y with sum := x.sum + v, c := x.c + 1, min := if x.c = 0 then v else Min.min x.min v, max := if x.c = 0 then v else Max.max x.max v }
  | _, _ => y

/-- What a cut leaves of a measurement: an interval whose START and STOP are both taken is included (R145, R147). -/
def Tdc.atCut (x : Tdc) : Tdc := if x.mode = 1 ∧ x.isOpen ∧ x.startNow.isSome ∧ x.stop.isSome then x.settle else x

/-- A measurement is cut short: the result in progress is committed with INTERRUPTED (R147). -/
def Dev.cutTdc (d : Dev) (b s : Nat) : Dev :=
  let x := (d.tdc b s).atCut
  match x.owner with
  | .arm _ =>
    let d : Dev := if x.mode ≠ 0 ∧ (x.isOpen ∨ x.c > 0 ∨ x.i > 0) then d.tdcResult b s x true else d
    d.freeTdc b s { status := stAborted }
  | _ => d

/-- Stamp at which the last window of a measurement closes (R139, R141). -/
def Tdc.lastClose (x : Tdc) : Nat := x.closeAt + (if x.mode = 1 then (2 ^ x.k - 1) * x.rep else 0)

/-- A rewind at S ends the measurements whose windows would close at S or later: ABORTED, without a result (R147). -/
def Dev.rewindTdcs (d : Dev) (at_ : Nat) : Dev :=
  forEach (List.range (16 * 36)) (fun i d =>
    let x := d.tdc (i / 36) (i % 36)
    match x.owner with
    | .arm _ => if x.epoch = d.tl.epoch ∧ at_ ≤ x.lastClose then d.freeTdc (i / 36) (i % 36) { status := stAborted } else d
    | _ => d) d

/-- Every measurement of the device is cut short (R147). -/
def Dev.cutTdcs (d : Dev) : Dev :=
  forEach (List.range 16) (fun b d => forEach (List.range 36) (fun s d => d.cutTdc b s) d) d

end Sys2Proof.Machine
end

