-- ==== Sys2Proof/Machine/TreeOps.lean ====
section
/-!
DEFINITION. The shared operations of the timeline, the tree and the host attachment: the removal of scheduled actions
(R42, R54), the end of holdover (R39), retrains and lost paths (R382, R383), shares of commands that several devices carry
out (R350, R351), the loss of the host attachment (R374).
-/
namespace Sys2Proof.Machine

/-! ### Scheduled actions (R42, R54) -/

/-- What a scheduled action left in the unit that executes it is removed. -/
def Dev.unplan (d : Dev) (a : Act) : Dev :=
  match a.kind with
  | .mark => d
  | .seqStart =>
    let d : Dev := { d with cap := { d.cap with gates := d.cap.gates.filter fun g => g.tag != a.tag || g.mask.toNat != a.user } }
    forEach (List.range 64) (fun t d =>
      if a.user.testBit t ∧ (d.thread t).st = .armed ∧ (d.thread t).startTag = a.tag ∧ d.leadOf t = t then d.idleSite t else d) d
  | .seqResume => forEach (List.range 64) (fun t d =>
      if (d.thread t).resumeAt.any (fun r => r.1 == a.tag) then d.modThread t fun x => { x with resumeAt := none } else d) d
  | .pmuSeq => forEach (List.range 512) (fun ch d =>
      if (d.pmu ch).sched.any (fun c => c.tag == some a.tag) then
        d.modPmu ch fun p => { p with sched := p.sched.filter fun c => c.tag != some a.tag }
      else d) d
  | .pmuForce => forEach (List.range 512) (fun ch d =>
      if (d.pmu ch).forceSched.any (fun c => c.1 == a.tag) then
        d.modPmu ch fun p => { p with forceSched := p.forceSched.filter fun c => c.1 != a.tag }
      else d) d
  | .measure => forEach (List.range 512) (fun ch d =>
      if (d.pmu ch).meas.any (fun m => m.tag == a.tag && !m.wave) then d.modPmu ch fun p => { p with meas := none } else d) d
  | .wave => forEach (List.range 512) (fun ch d =>
      if (d.pmu ch).wave.any (fun w => w.tag == a.tag) then d.modPmu ch fun p => { p with wave := none } else d) d
  | .tdc => forEach (List.range (16 * 36)) (fun i d =>
      if (d.tdc (i / 36) (i % 36)).owner = .arm a.tag then d.freeTdc (i / 36) (i % 36) { status := stAborted } else d) d
  | .capArm => forEach (List.range 128) (fun i d =>
      if (d.ring (i / 8) (i % 8)).armed ∧ (d.ring (i / 8) (i % 8)).armTag = a.tag then d.ringStop (i / 8) (i % 8) stAborted
      else d) d
  | .capFire => forEach (List.range 8) (fun r d =>
      let b := a.user / 256
      if a.user.testBit r then
        d.modRing b r fun g => { g with events := g.events.filter fun e =>
          !(decide (e.2 = a.stamp) && decide (condKind (g.conds.getD e.1.toNat 0) = 8)) }
      else d) d
  | .xarm => d.modXt a.user fun x => if x.offAt.isSome then { x with offAt := none } else { x with armed := false }
  | .dspRun => forEach (List.range 16) (fun b d =>
      if (d.lane b).run.any (fun r => r.tag == a.tag && !r.active) then d.endRun b false true stAborted false else d) d
  | .miConfig => forEach (List.range 16) (fun u d =>
      d.modMu u fun m => { m with sched := m.sched.filter fun c => c.tag != some a.tag }) d
  | .miForce => forEach (List.range 16) (fun u d =>
      d.modMu u fun m => { m with forceSched := m.forceSched.filter fun c => c.1 != a.tag }) d
  | .miMeasure => forEach (List.range 16) (fun u d =>
      d.modMu u fun m => { m with meas := if m.meas.any (fun x => !x.islp && x.tag == a.tag) then none else m.meas }) d
  | .inject => { d with fc := { d.fc with inj := none } }

/-- The command of a scheduled action completes only when the action is taken (R54): TL.MARK, CAP.FIRE and CAP.XARM have
completed, and so has a SEQ.START that no gate holds (R270). -/
def Dev.actWaits (d : Dev) (a : Act) : Bool :=
  match a.kind with
  | .mark | .capFire | .xarm => false
  | .seqStart => d.cap.gates.any fun g => g.tag == a.tag && g.mask.toNat == a.user
  | _ => true

/-- A scheduled action is removed before it is taken; a command that would complete with it completes ABORTED (R54). -/
def Dev.removeAct (d : Dev) (a : Act) : Dev :=
  let x : Dev := d.unplan a
  let x : Dev := { x with tl := { x.tl with acts := x.tl.acts.erase a } }
  if d.actWaits a then x.abortJob a.tag else x

/-- Every scheduled action that satisfies a test is removed. -/
def Dev.removeActs (d : Dev) (p : Act → Bool) : Dev := (d.tl.acts.filter p).foldl (fun d a => d.removeAct a) d

/-- Leads of the sites that satisfy a test of their state. -/
def Dev.leads (d : Dev) (p : ThState → Bool) : List Nat :=
  (List.range 64).filter fun t => p (d.thread t).st && decide (d.leadOf t = t)

/-- The holdover limit has passed on a worker (R39): running threads enter CHOLD, scheduled actions end, TL_LOCAL is set. -/
def Dev.holdoverEnds (d : Dev) : Dev :=
  let d : Dev := (d.leads (·.running)).foldl (fun d t => d.reachCause t .lost) d
  let d : Dev := d.removeActs fun _ => true
  { d with tl := { d.tl with tlLocal := true } }

/-- The warm state follows the filtered level and the last verdict (R33, R36, R37): a change is stamped, posted by the device
that measures it, and sent down the tree by a manager. -/
def Dev.refreshWarm (d : Dev) : Dev :=
  let w := d.tl.source == 0 && d.tl.warmFiltered && d.tl.lastPass && !d.tl.holdover
  if w = d.tl.warm then d
  else
    let d : Dev := { d with tl := { d.tl with warm := w, warmStamp := d.tl.now, warmEpoch := d.tl.epoch } }
    let d : Dev := if d.tree.nodes = [] then d else d.linkOut (.warm w d.tl.epoch d.tl.now)
    d.post 512 3 [(bit w : Int)]

/-- REF_IN is lost (R35, R38): holdover, cold, and every stability window in progress discarded. P.0101[4] shows no pass until
the next verdict, and P.0102 keeps the last figure (log entry 135). -/
def Dev.loseRef (d : Dev) : Dev :=
  if d.tl.holdover then d
  else
    let d : Dev := { d with tl := { d.tl with holdover := true, holdSince := d.mono, lastPass := false, stabRun := false } }
    (d.post 512 1 []).refreshWarm

/-! ### Ports (R381 to R383) -/

/-- A port retrains (R382). -/
def Dev.retrain (d : Dev) (p cause : Nat) : Dev :=
  let d : Dev := d.modPort p fun x => { x with up := 1, down := some d.mono, replays := [] }
  let d : Dev := { d with tree := { d.tree with retrains := satAdd (2 ^ 32 - 1) d.tree.retrains 1 } }
  d.post (601 + p) 1 [cause]

/-- A device's share of a command ends with a completion that another device, or the manager on its behalf, has formed
(R350, R351). -/
def Dev.endShare (d : Dev) (tag : Tag) (c : Cpl) : Dev :=
  match d.flight tag with
  | none => d
  | some f =>
    let c := { c with tag := tag, stream := f.stream, opcode := f.opcode }
    let d : Dev := if f.group ∧ f.perdev then d.interim f.origin { c with part := true } else d
    if f.group then { d with ctl := { d.ctl with flights := modFlight tag (·.share c) d.ctl.flights } }
    else { d with ctl := { d.ctl with flights := modFlight tag (fun f => { f with done := some c, targets := [] }) d.ctl.flights } }

/-- Every command in flight to a position completes FAULT there (R351). -/
def Dev.faultPosition (d : Dev) (id : BitVec 8) : Dev :=
  let tags := (d.ctl.flights.filter fun f => f.done == none && f.targets.contains id).map (·.tag)
  tags.foldl (fun d t => d.endShare t
    (d.stampCpl { status := stFault, position := id, a := id.setWidth 16, own := true, stamp := d.tl.now, epoch := d.tl.epoch, tq := d.tl.tq })) d

/-- The positions below a port of this device. -/
def Dev.below (d : Dev) (p : Nat) : List Node :=
  d.tree.nodes.filter fun n => n.path.take (d.tree.path.length + 1) == d.tree.path ++ [BitVec.ofNat 2 p]

/-- A port has lost its path (R383). -/
def Dev.losePath (d : Dev) (p : Nat) : Dev :=
  let gone := (d.below p).filter fun n => !n.lost
  let d : Dev := d.modPort p fun x => { x with up := 0, lost := true }
  let d : Dev := { d with tree := { d.tree with
    nodes := d.tree.nodes.map fun n => if gone.any (fun m => m.id == n.id) then { n with lost := true, reset := false } else n } }
  gone.foldl (fun d n => (d.faultPosition n.id).post 600 4 [(n.id.toNat : Int)]) d

/-- Retrain commands of TREE.PORT that wait for a port complete (R403). -/
def Dev.endRetrain (d : Dev) (p : Nat) (c : Cpl) : Dev :=
  let mine := d.tree.resTag.filter fun x => x.2.toNat == p
  let d : Dev := { d with tree := { d.tree with resTag := d.tree.resTag.filter fun x => x.2.toNat != p } }
  mine.foldl (fun d x => d.finish x.1 c) d

/-! ### Host attachment (R359, R374, R514) -/

/-- A freeze of the log ends (R449): records of a former epoch close, and all of them where a LOG.SYNC waits (R448), and arrivals
that the holding queue could not take are told of. -/
def Dev.unfreeze (d : Dev) : Dev :=
  let n := d.log.holdLost
  let was := d.log.freeze
  let d : Dev := { d with log := { d.log with freeze := false, holdLost := 0 } }
  let d : Dev := if was then d.closeAllLog (decide (d.log.syncTags = [])) else d
  let d : Dev := if d.log.closing = [] then d.endSync {} else d
  if n = 0 then d else (d.pushLog (d.logItem 0x0A 2 [] [(n : Int)])).post 516 1 [(n : Int)]

/-- Rings, tags, held completions and events, and windows go, and the registers of R514 return to their reset values; a
freeze of the log is released. -/
def Dev.dropHost (d : Dev) : Dev :=
  let d : Dev := d.unfreeze
  { d with
    ctl := { d.ctl with
      cmd := {}, cpl := {}, evt := {}, cplOut := [], evtOut := [], resBase := 0, resSize := 0, resEn := false, resHead := 0
      resTail := 0, resOut := [], resStalled := none, windows := .empty, flights := d.ctl.flights.filter (fun f => f.origin != .ring), heldCpl := [], heldCpl0 := []
      heldEvt := [], lostOwed := 0, dma := .empty }
    regs := { d.regs with
      irqSummary := 0, irqTest := 0, scratch := 0, logIndex := 0, refused := false, done := false, shadows := .empty
      tlCtx := 0, staged := .empty, errGeom := 0, errEn := 0, badAccess := false }
    log := { d.log with timeout := false } }

/-- The host attachment is lost (R374): transfers stop, commands in flight run on without completions. -/
def Dev.loseHost (d : Dev) (mode : BitVec 3) (tunnel : Bool) : Dev :=
  let d : Dev := d.dropHost
  let d : Dev := { d with tree := { d.tree with link := mode, tunnel := tunnel, attachLost := true } }
  d.pushLog (d.logItem 0x0B 0 [0] [(mode.toNat : Int)])

end Sys2Proof.Machine
end

