-- ==== Sys2Proof/Machine/BootOps.lean ====
section
/-!
DEFINITION. The boot journal (R410 to R416): start and end marks, FAILS, the flash copy.
-/
namespace Sys2Proof.Machine

/-- An entry of the journal. -/
def Dev.entry (d : Dev) (k : Nat) : JEntry := d.journal.entries.get {} k

/-- Change an entry of the journal. -/
def Dev.modEntry (d : Dev) (k : Nat) (f : JEntry → JEntry) : Dev :=
  { d with journal := { d.journal with entries := d.journal.entries.mod {} k f } }

/-- A time of the journal: 24 bits, saturating (R416). -/
def time24 (t10 : Nat) : BitVec 24 := BitVec.ofNat 24 (min t10 (2 ^ 24 - 1))

/-- From S3 onwards, the flash copy is rewritten at each mark (R414). -/
def Dev.copyJournal (d : Dev) : Dev :=
  if d.boot.step ≥ 3 ∧ ¬ d.flash.noBlock then { d with board := { d.board with journal := some d.journal } } else d

/-- Time since the release of RST_N in units of 10 us: that of the last boot event, or, once the count runs, what has passed
since the main PLL lock; a worker's count does so until Tamp replaces it (R29). -/
def Dev.bootTime (d : Dev) : Nat :=
  if d.tl.running ∧ (d.tl.source ≠ 2 ∨ d.tl.tlLocal) then max d.boot.t0 (d.boot.lock + d.tl.now / (10 * usSteps)) else d.boot.t0

/-- A step begins in a variant (R416). -/
def Dev.startMark (d : Dev) (k : Nat) (variant : BitVec 2) : Dev :=
  let d : Dev := { d with
    boot := { d.boot with step := k, variant := variant, notNormal := if variant = 0 then d.boot.notNormal else d.boot.notNormal ||| (1 <<< k) }
    journal := { d.journal with valid := true, step := BitVec.ofNat 8 k } }
  (d.modEntry k fun e => { e with start := true, fin := false, result := 0, variant := variant, startT := time24 d.boot.t0, endT := 0 }).copyJournal

/-- FAILS after the end of a step in a form (R411); the sources of S3 to S5 keep theirs in DETAIL of S3 (R412). -/
def JEntry.failsAfter (e : JEntry) (k : Nat) (result : BitVec 2) : BitVec 2 :=
  if e.variant ≠ 0 ∨ (3 ≤ k ∧ k ≤ 5) then e.fails
  else if result = 1 then (if e.fails = 3 then 3 else e.fails + 1)
  else if result = 0 then 0
  else e.fails

/-- FAILS of an image source, in DETAIL of S3: source 1 flash, 2 link, 3 USB4 host (R412, R416). -/
def Dev.sourceFails (d : Dev) (src : Nat) : Nat := bits (d.entry 3).detail.toNat (2 * (src - 1)) 2

/-- Set FAILS of an image source. -/
def Dev.setSourceFails (d : Dev) (src n : Nat) : Dev :=
  d.modEntry 3 fun e =>
    let v := fun i => (2, if i = src then n else bits e.detail.toNat (2 * (i - 1)) 2)
    { e with detail := BitVec.ofNat 8 (packFields [v 1, v 2, v 3]) }

/-- A step ends with a result (R416). -/
def Dev.endMark (d : Dev) (k t10 : Nat) (result : BitVec 2) (detail : BitVec 8) : Dev :=
  let d : Dev := { d with boot := { d.boot with
    ended := k, notNormal := if result = 0 then d.boot.notNormal else d.boot.notNormal ||| (1 <<< k) } }
  (d.modEntry k fun e => { e with
    fin := true, result := result, fails := e.failsAfter k result, failed := e.failed || (result == 1 && e.variant == 0)
    detail := if k = 3 then e.detail else detail, endT := time24 t10 }).copyJournal

/-- The directory gives a path its position block: the lowest free one where it has none (R483). -/
def Board.assign (b : Board) (path : List (BitVec 2)) : Board × Option (BitVec 8) :=
  match b.dir.find? fun e => e.path == path with
  | some e => (b, some e.block)
  | none =>
    match (List.range 208).find? fun k => !(b.dir.any fun e => e.block.toNat == k) with
    | some k => ({ b with dir := b.dir ++ [{ path := path, block := BitVec.ofNat 8 k }] }, some (BitVec.ofNat 8 k))
    | none => (b, none)

/-- A position path as bytes 0 and 1 of a directory entry hold it (R483). -/
def pathCode (p : List (BitVec 2)) : Nat := packFields ((3, p.length) :: p.map fun e => (2, e.toNat))

/-- Decaf mode is entered: a step in progress ends failed (R410), and STEP reads 0xFF (R415). -/
def Dev.journalDecaf (d : Dev) : Dev :=
  let k := d.boot.step
  let d : Dev := if k < 12 ∧ (d.entry k).start ∧ ¬ (d.entry k).fin then d.endMark k d.bootTime 1 0 else d
  ({ d with journal := { d.journal with step := 0xFF } } : Dev).copyJournal

end Sys2Proof.Machine
end

