-- ==== Sys2Proof/Machine/FaultOps.lean ====
section
/-!
DEFINITION. What the device does about a fault report: the contained reactions of R428, and entry into Decaf mode (R440).
`Dev.report` is what every family calls when it detects a fault.
-/
namespace Sys2Proof.Machine

/-! ### Units -/

/-- The units that UNIT of a contained report names, `n` of them on the source (R428). -/
def unitsOf (unit n : Nat) : List Nat := if unit = 0xFFFF then List.range n else if unit < n then [unit] else []

/-- A channel is parked as by PIN.PARK: at the end of its thread's current vector where the thread runs (R76, R178). -/
def Dev.parkPin (d : Dev) (ch : Nat) : Dev :=
  match d.ownerOf ch with
  | none => d.parkChannel ch
  | some t =>
    if (d.thread (d.leadOf t)).st = .idle then d.parkChannel ch
    else (d.modChan ch fun c => { c with parkHeld := true }).reachCause t .park

/-- A ring record in progress closes INTERRUPTED and poisoned. -/
def Dev.poisonRing (d : Dev) (b r : Nat) : Dev :=
  (d.interruptRec b r d.tl.now).modRing b r fun g => { g with cur := g.cur.map fun k => { k with poison := true } }

/-- The run on a bank's lane ends (R289). -/
def Dev.cutRun (d : Dev) (b : Nat) : Dev :=
  (d.modLane b fun l => { l with run := l.run.map fun r => { r with ended := d.tl.now } }).endRun b false true stAborted false

/-- The contained reaction of a bank line (R428). -/
def Dev.containBank (d : Dev) (b unit : Nat) : Dev :=
  let d : Dev :=
    if unit = 0xFFFF then
      let d : Dev := forEach (List.range 8) (fun r d => d.poisonRing b r) d
      forEach (List.range 4) (fun k d => d.reachCause (4 * b + k) .contained) d
    else if unit / 256 = 1 then
      let r := unit % 8
      let owner := (d.ring b r).owner
      let d : Dev := d.poisonRing b r
      match owner with | some (.thread t) => d.reachCause t.toNat .contained | _ => d
    else
      let t : Option Nat := if unit / 256 = 2 then (d.sliceChan b (unit % 64)).bind d.ownerOf else some (unit % 64)
      match t with
      | none => d
      | some t =>
        let d : Dev := forEach (List.range 8) (fun r d =>
          if (d.ring (t / 4) r).owner = some (.thread (BitVec.ofNat 6 t)) then d.poisonRing (t / 4) r else d) d
        d.reachCause t .contained
  d.cutRun b

/-! ### Calibration, flash, barriers, lines -/

/-- The scheduler stops: its run and every due tap are discarded, and the taps in force are kept (R327). -/
def Dev.dropDue (d : Dev) : Dev :=
  let tags := (d.cal.run.map (·.tags)).getD [] ++ d.cal.waitTags
  let d : Dev := { d with cal := { d.cal with
    taps := d.cal.taps.mapAll {} fun x => { inForce := x.inForce, target := x.inForce }
    run := none, waitTags := [], newQuality := [], bringing := false, dueMade := 0 } }
  tags.foldl (fun d t => d.finish t { status := stAborted }) d

/-- CAL_STALE is set, with its event (R325). -/
def Dev.setStale (d : Dev) : Dev :=
  if d.cal.stale then d else ({ d with cal := { d.cal with stale := true } }).post 513 1 []

/-- The flash operation in progress ends, and the next one takes the port. -/
def Dev.endOp (d : Dev) (c : Cpl) : Dev :=
  match d.flash.op with
  | none => d
  | some o =>
    let d : Dev := match o.tag with | some t => d.finish t c | none => d
    { d with flash := { d.flash with op := d.flash.ops.head?.map fun o => { o with since := d.mono }, ops := d.flash.ops.tail } }

/-- The system trigger latency in phase steps (R260). -/
def trigLatency : Nat := 102400

/-- The release that this device has set for a barrier goes down the tree (R176). -/
def Dev.sendRelease (d : Dev) (b : Nat) : Dev :=
  let x := d.seq.barriers.get ({} : Barrier) b
  match x.release with
  | some r => d.linkOut (.release (BitVec.ofNat 5 b) r x.broken)
  | none => d

/-- A barrier's open generation breaks at a stamp, also one whose release is set where `forced`; its participants are released
after the trigger latency (R176, R177). -/
def Dev.breakBarrier (d : Dev) (b at_ : Nat) (forced : Bool) : Dev :=
  let x := d.seq.barriers.get ({} : Barrier) b
  if x.opened.isNone ∨ x.broken ∨ (x.release.isSome ∧ ¬ forced) then d
  else
    ({ d with seq := { d.seq with barriers := d.seq.barriers.mod {} b fun x =>
      { x with broken := true, release := some (roundUp (at_ + trigLatency) grainSteps) } } } : Dev).sendRelease b

/-- A cross-chip line is disarmed, on this device and on those below it (R428). -/
def Dev.disarmLine (d : Dev) (l : Nat) : Dev :=
  (d.modXt l fun x => { x with armed := false, offAt := none, window := none, cands := [], action := none }).linkOut
    (.arm (BitVec.ofNat 2 l) false false d.tl.epoch d.tl.now)

/-- A loss marker (R266, R268): cause 1, a staging overflow, from the producer's own staging buffer; cause 2, header parity,
from the device-level producer; items or words lost. -/
def Dev.lossMarker (d : Dev) (producer cause lost : Nat) : Dev :=
  d.packet (itemPacket 0x10 (if cause = 2 then 16 else producer) 1
    [(8, cause), (8, producer), (32, min lost (2 ^ 32 - 1)), (16, 0)] d.tl.tq d.tl.epoch false)

/-! ### Supplies (R75, R119, R147, R307) -/

/-- A supply leaves its range: what it feeds stops. -/
def Dev.loseSupply (d : Dev) (supply : Nat) : Dev :=
  if supply = 3 ∨ supply = 4 then
    forEach (List.range 512) (fun ch d =>
      ((d.driverOff ch).modChan ch fun c => { c with mon := { c.mon with next := none } }).losePmu ch) d.cutTdcs
  else if supply = 6 ∨ supply = 7 then forEach (List.range 16) (fun u d => d.loseMu u) d
  else d

/-- A PMU switch opens at once, the force DAC holding its code (R441). -/
def Dev.openPmu (d : Dev) (ch : Nat) : Dev :=
  let code := (d.pmu ch).applied
  (d.losePmu ch).modPmu ch fun p => { p with applied := code }

/-- An MU switch opens at once, the force DAC holding its code (R441). -/
def Dev.openMu (d : Dev) (u : Nat) : Dev :=
  let code := (d.mu u).applied
  (d.loseMu u).modMu u fun m => { m with applied := code }

/-! ### Decaf mode (R358, R440, R441) -/

/-- What is scheduled, queued or pending on a channel's PMU ends ABORTED. -/
def Dev.dropPmuPlans (d : Dev) (ch : Nat) : Dev :=
  let p := d.pmu ch
  if p.sched = [] ∧ p.queued = [] ∧ p.forceSched = [] then d
  else
    let d : Dev := (p.sched ++ p.queued).foldl (fun d c => d.pmuCut c.tag ch) d
    let d : Dev := p.forceSched.foldl (fun d f => d.cutUnit f.1 ch) d
    d.modPmu ch fun p => { p with sched := [], queued := [], forceSched := [] }

/-- Commands whose end is not Decaf mode's doing: class 0, disconnects, the control, timeline, boot and flash groups, and the
log's synchronisation. -/
def outlivesDecaf (op : BitVec 16) : Bool :=
  decide (opClass op = 0) || op ∈ [0x0301, 0x0A01, 0x0D07] || decide (op < 0x0200) || decide (op ≥ 0x0F00)

/-- Commands fetched and not accepted complete PREEMPTED; accepted ones that nothing else has ended complete ABORTED
(R358). -/
def Dev.endFlights (d : Dev) : Dev :=
  let mine := d.ctl.flights.filter fun f => f.done == none && d.isMine f
  let d : Dev := (mine.filter fun f => !f.accepted).foldl (fun d f => d.finish f.tag { status := stPreempted }) d
  let held := d.fc.inj.bind (·.tag)
  (mine.filter fun f => f.accepted && !outlivesDecaf f.opcode && !(held == some f.tag && d.fc.inj.any (·.presented))).foldl
    (fun d f => d.abortJob f.tag) d

/-- The lists of commands that wait in units and that Decaf mode has ended. -/
def Dev.clearWaits (d : Dev) : Dev :=
  let d : Dev := forEach (List.range 128) (fun i d =>
    if (d.ring (i / 8) (i % 8)).pendTag.isSome then
      d.modRing (i / 8) (i % 8) fun g => { g with pendLen := none, pendTag := none }
    else d) d
  { d with
    tl := { d.tl with acts := d.tl.acts.filter fun a => a.kind == .mark || (a.kind == .inject && d.fc.inj.any (·.presented)) }
    cap := { d.cap with gates := [], heldStarts := [], startNotes := [], flushTags := [] }
    pat := { d.pat with prefetches := [] }
    mi := { d.mi with resetTag := none }
    tree := { d.tree with rescan := none, resTag := [] }
    fc := { d.fc with inj := if d.fc.inj.any (·.presented) then d.fc.inj else none } }

/-- The pins, PMUs and MUs go to their Decaf states (R73, R307, R440, R441). -/
def Dev.safePins (d : Dev) (noRamp : Bool) : Dev :=
  let d : Dev := d.endClock (List.range 512)
  let d : Dev := forEach (List.range 512) (fun ch d => (d.dropPmuPlans ch).decafChannel ch) d
  let d : Dev := d.decafClamps
  let d : Dev := forEach (List.range 512) (fun ch d => if noRamp then d.openPmu ch else d.shutPmu ch true false) d
  let d : Dev := d.assertSafe
  if noRamp then forEach (List.range 16) (fun u d => d.openMu u) d else d

/-- Entry into Decaf mode (R440); a device that is in it stays as it is. -/
def Dev.enterDecaf (d : Dev) (cause line : Nat) (noRamp : Bool) : Dev :=
  if d.fc.decaf.isSome then d
  else
    let k : Decaf := { cause := BitVec.ofNat 4 cause, line := BitVec.ofNat 6 line, noRamp := noRamp, since := d.tl.now }
    let d : Dev := ({ d with fc := { d.fc with decaf := some k } } : Dev).journalDecaf
    let d : Dev := (d.post 517 1 [(cause : Int), (line : Int)]).message 63
    let d : Dev := ((d.decafThreads.abortRings).cutTdcs).cutRuns
    let d : Dev := d.dropTiming.safePins noRamp
    (d.dropFill.dropDue).endFlights.clearWaits

/-! ### Reactions (R428, R432) -/

/-- The transfer of a DMA engine ends, and its command completes FAULT: the earliest command of the transfer's class that is
not complete (log entry 31); a fill ends under R224. -/
def Dev.endTransfer (d : Dev) (e : Nat) : Dev :=
  let x := d.ctl.dma.get ({} : Dma) e
  let d : Dev := { d with ctl := { d.ctl with dma := d.ctl.dma.set {} e { x with cur := x.waiting.head?, waiting := x.waiting.tail } } }
  if e < 2 then
    match x.cur with
    | none => d
    | some q =>
      match d.ctl.flights.find? fun f => f.done == none && opClass f.opcode == q.cls.toNat with
      | some f => (d.finish f.tag { status := stFault, b := 8 }).dropJob f.tag
      | none => d
  else if e = 2 then { d with ctl := { d.ctl with dmaPacket := none } }
  else
    match d.pat.fill with
    | some f => d.dropFill.faultPage (f.tiles.map fun t => t.1.toNat) f.vpn 8
    | none => d

/-- The recovery function returns to its default state (R428). -/
def Dev.resetRecovery (d : Dev) : Dev :=
  { d with ctl := { d.ctl with recovery := {}, flights := d.ctl.flights.filter fun f => f.origin != .recovery } }

/-- The contained reaction of a line (R428). -/
def Dev.contain (d : Dev) (line unit : Nat) : Dev :=
  if line < 16 then d.containBank line unit
  else if line < 18 then
    let us := if unit = 0xFFFF then (List.range 256).map (· + 256 * (line - 16)) else unitsOf unit 512
    us.foldl (fun d ch => d.parkPin ch) d
  else if line = 18 then (unitsOf unit 512).foldl (fun d ch => d.shutPmu ch true true) d
  else if line = 19 then match d.dsp.lsBank with | some b => d.cutRun b.toNat | none => d
  else if line = 20 then
    let us := if unit = 0xFFFF then List.range 16384 else if unit < 16384 then [unit] else []
    us.foldl (fun d u =>
      let b := u / 1024
      let k := u % 1024
      let t := d.tile b k
      if t.valid then (((d.freeTile b k).modTile b k fun t => { t with bad := true }).failWaiters [b] t.vpn).failPrefetch [b] t.vpn
      else d.modTile b k fun t => { t with bad := true }) d
  else if line = 21 then
    let bs := unitsOf unit 16
    let ws := d.pat.waiting.filter fun w => bs.contains (w.1.toNat / 4)
    ws.foldl (fun d w => d.failWaiters bs w.2) d
  else if line = 22 then
    match d.pat.fill with
    | some f => if (d.pte f.vpn).tier = 1 then d.dropFill.faultPage (f.tiles.map fun t => t.1.toNat) f.vpn 2 else d
    | none => d
  else if line = 23 then
    match d.cap.carafe with
    | [] => d
    | k :: ks =>
      if unit = 0xFFFF ∨ k.producer = unit then
        (({ d with cap := ({ d.cap with carafe := ks } : Cap).marks d.mono } : Dev)).lossMarker k.producer 2 k.len
      else d
  else if line = 27 then (unitsOf unit 5).foldl (fun d e => d.endTransfer e) d
  else if line = 28 then d.loseHost 0 false
  else if line = 29 then d.resetRecovery
  else if 30 ≤ line ∧ line ≤ 33 then d.losePath (line - 30)
  else if line = 34 then
    if d.tree.admitted then d.holdoverEnds
    else d.loseRef
  else if line = 35 then
    if unit = 0xFFFF then
      forEach (List.range 4) (fun l d => d.disarmLine l) (forEach (List.range 32) (fun b d => d.breakBarrier b d.tl.now false) d)
    else if unit / 256 = 1 then d.disarmLine (unit % 4)
    else d.breakBarrier (unit % 32) d.tl.now false
  else if line = 36 then { d with mi := { d.mi with port := d.mi.port.tail } }
  else if line = 37 then d.islandReset
  else if line = 38 then
    (unitsOf unit 128).foldl (fun d c => { d with hk := { d.hk with ch := d.hk.ch.mod {} c fun h => { h with invalid := true } } }) d
  else if line = 39 then (if unit = 0xFFFF then [3, 6] else [unit]).foldl (fun d u => d.loseSupply u) d
  else if line = 40 then d.dropDue.setStale
  else if line = 43 then d.endOp { status := stFault, b := 8 }
  else if line = 44 then
    (unitsOf unit 256).foldl (fun d k =>
      if (d.log.ram.get none k).isSome then
        { d with log := { d.log with
          ram := d.log.ram.set none k none, closing := d.log.closing.filter (· != k), lost := satAdd (2 ^ 32 - 1) d.log.lost 1
          gen := d.log.gen + 1 } }
      else d) d
  else if line = 45 then { d with journal := { d.journal with valid := false } }
  else d

/-- The reaction of a class (R432): `cause` is the cause of R439 that an F gives. -/
def Dev.react (d : Dev) (line cls unit cause : Nat) : Dev :=
  if cls = 0 then (if 30 ≤ line ∧ line ≤ 33 then d.retrain (line - 30) 0 else d)
  else if cls = 1 then d.contain line unit
  else (d.message 63).enterDecaf cause line (decide (line = 46))

/-- A report reaches the collector, and its reaction starts (R429, R432). -/
def Dev.report (d : Dev) (line cls cause unit detail : Nat) : Dev :=
  let k := d.classNow line cls
  (d.collect line cls cause unit detail).react line k unit 1

/-- The collector's own registers fail their parity check (R434). -/
def Dev.selfFault (d : Dev) : Dev :=
  let d : Dev := { d with fc := { d.fc with self := true } }
  let d : Dev := d.pushLog (d.logItem 1 0xFF [0xFF, 3, 2, 0xFFFF, 0] [3, 2, 0xFFFF, 0])
  d.enterDecaf 2 0 false

end Sys2Proof.Machine
end

