-- ==== Sys2Proof/Machine/EngineOps.lean ====
section
/-!
DEFINITION. The shared operations of the vector pipeline (06_sequencer.md, 05_edges_and_tdc.md): drive edges, pin codes, the
issue of a vector, its judgement.
-/
namespace Sys2Proof.Machine

/-! ### Drive edges (R128 to R131) -/

/-- The drive edges of a vector in the order of their offsets: a level, or (none) the switch between drive off and drive. -/
def driveEdges (e : BitVec 128) (code : Nat) (wasOn : Bool) : List (Nat × Option Bool) :=
  let data := code == 1
  let back := if dfmt e = 1 then false else if dfmt e = 2 then true else !data
  let l :=
    if code < 2 then
      (edgeD0 e, some data) ::
        ((if dfmt e = 0 then [] else [(edgeD1 e, some back)]) ++ (if wasOn then [] else [(edgeDz e, none)]))
    else if wasOn then [(edgeDz e, none)] else []
  l.insertionSort fun a b => a.1 ≤ b.1

/-- The driver of a channel: on, level, last transition, delays of R131, transitions placed. -/
structure Drive where
  on : Bool
  high : Bool
  last : Option Nat
  delays : Nat
  moves : List (Nat × Option Bool)

/-- Edge after edge, each transition at its offset from a plane and at least 24 phase steps after the one before it (R129,
R131, R133). -/
def placeEdges (plane : Int) : List (Nat × Option Bool) → Drive → Drive
  | [], s => s
  | (o, k) :: r, s =>
    let on := if k = none then !s.on else s.on
    let high := k.getD s.high
    if on = s.on ∧ (high = s.high ∨ ¬ on) then placeEdges plane r { s with high := high }
    else
      let z := (plane + o).toNat
      let late := s.last.any fun l => decide (z < l + 24)
      let z := if late then s.last.getD 0 + 24 else z
      placeEdges plane r
        { on := on, high := high, last := some z, delays := s.delays + bit late
          moves := s.moves ++ [(z, if on then some high else none)] }

/-- The calibration correction of a channel's drive edges (`k` 0) or strobes (`k` 1) in phase steps: the tap in force, rounded
from its 1/64 phase steps (R133, R321; log entry 152). -/
def Dev.edgeFix (d : Dev) (ch k : Nat) : Int := roundDiv (d.cal.taps.get {} (32 * ch + k)).inForce 64

/-- A channel plays its code of a vector whose edges are corrected by `fix`: its drive transitions, its effective state, and the
number of delays of R131, which PATTERN mode alone makes; keep places no edge (R128, R133, R156). -/
def Chan.play (c : Chan) (start ts code : Nat) (fix : Int) : Chan × Nat :=
  let c := c.passMoves start
  if code = 7 then (c, 0)
  else
    let on := decide (c.eff.toNat < 2)
    let r := placeEdges (start + c.drvDeskew + fix) (driveEdges (c.edges.get 0 ts) code on)
      { on := on, high := c.high, last := c.lastDrive, delays := 0, moves := [] }
    let n := if c.drvMode = 1 ∧ ¬ c.tripped then r.delays else 0
    ({ c with
       eff := BitVec.ofNat 4 code, high := r.high, lastDrive := r.last, moves := c.moves ++ r.moves, squeeze := c.squeeze + n }, n)

/-! ### Pin codes (R155 to R157, R161) -/

/-- A dictionary entry with every pin masked. -/
def maskEntry : BitVec 128 := 0x66666666666666666666666666666666

/-- A pin code of a vector. -/
def nib (w n : Nat) : Nat := bits w (4 * n) 4

/-- A dictionary entry of a thread. -/
def Thread.entry (t : Thread) (k : Nat) : Nat := (t.dict.get maskEntry k).toNat

/-- Addresses of the words that hold vector `j` of a block; `w` is the width of a vector. -/
def vecVas (kind : BlockKind) (data j w : Nat) : List Nat :=
  match kind with
  | .literal => (List.range ((j * w + w - 1) / 64 + 1 - j * w / 64)).map fun k => data + 8 * (j * w / 64 + k)
  | .indexed => [data + 8 * (j / 8)]
  | _ => []

/-- A word of a thread's pattern. -/
def Dev.word (d : Dev) (m va : Nat) : Nat := ((d.patWord (m / 4) va).getD 0).toNat

/-- The codes of vector `j` of a block on a thread's pins, keep still unresolved; none where R156 makes it a program
error. -/
def Dev.vecCodes (d : Dev) (m : Nat) (kind : BlockKind) (didx data j : Nat) : Option (List Nat) :=
  let t := d.thread m
  let n := (d.chansOf m).length
  let entry := fun (k : Nat) => some ((List.range n).map (nib (t.entry k)))
  match kind with
  | .literal =>
    let cs := (List.range n).map fun k =>
      let b := j * 4 * n + 4 * k
      (k, bits (d.word m (data + b / 64 * 8)) (b % 64) 4)
    if cs.any fun c => decide (8 ≤ c.2 ∧ c.2 < 15) then none
    else some (cs.map fun c => if c.2 = 15 then nib (t.entry didx) c.1 else c.2)
  | .indexed => entry (bits (d.word m (data + j / 8 * 8)) (8 * (j % 8)) 8)
  | _ => entry didx

/-- The unused bits of a block's last data word are zero (R160, R161). -/
def Dev.tailClear (d : Dev) (m : Nat) (kind : BlockKind) (data count : Nat) : Bool :=
  let used := match kind with | .literal => count * d.width m | .indexed => count * 8 | _ => 0
  decide (used % 64 = 0) || decide (d.word m (data + used / 64 * 8) / 2 ^ (used % 64) = 0)

/-! ### Words at hand (R162, R180) -/

/-- A word is in a thread's prefetch buffer. -/
def Dev.atHand (d : Dev) (m va : Nat) : Bool := (d.thread m).lines.contains (va / 64) && d.resident (m / 4) (pageOf va)

/-- A stall delays the next vector of a site (R162). -/
def Dev.stall (d : Dev) (lead steps : Nat) : Dev :=
  let d : Dev := d.modThread lead fun t => { t with segStat := { t.segStat with stall := t.segStat.stall + steps, stalled := true } }
  let d : Dev := { d with seq := { d.seq with stallTime := satAdd (2 ^ 32 - 1) d.seq.stallTime (steps / clk) } }
  d.modSite lead fun t => { t with next := t.next + steps }

/-- A word that a site needs is not resident for some members: the site enters UNDERRUN at the end of its last vector, and each of
those members waits on the first page that it lacks (R180, R219). -/
def Dev.enterUnderrun (d : Dev) (lead va : Nat) (missing : List (Nat × Nat)) : Dev :=
  d.due (d.thread lead).next fun d =>
    let d : Dev := d.modSite lead fun t => { t with st := .underrun, gap := some (t.next, va), heldAt := t.next, residentAt := none }
    let d : Dev := d.modThread lead fun t => { t with segStat := { t.segStat with underrun := true } }
    (d.site lead).foldl (fun d m => match missing.lookup m with | some va => d.waitPage m (pageOf va) | none => d) d

/-- The site may issue vectors only when the words that `need` gives for each member are at hand: else an underrun, or one
clock of stall. -/
def Dev.withWords (d : Dev) (lead : Nat) (need : Nat → List Nat) (go : Dev → Dev) : Dev :=
  let all := (d.site lead).flatMap fun m => (need m).map fun va => (m, va)
  match all.filter fun x => !d.resident (x.1 / 4) (pageOf x.2) with
  | x :: xs => d.enterUnderrun lead x.2 (x :: xs)
  | [] =>
    if all.all fun x => d.atHand x.1 x.2 then go d
    else d.due (d.thread lead).next fun d => d.stall lead clk

/-! ### The queue (R196) -/

/-- Stamp at which the entry at the front of a site's queue starts: where the one before it ends, 256 phase steps after that one's
start, and, where it was queued too late for that, whole clocks later (R162, R196). -/
def Thread.entryStart (t : Thread) (ready : Nat) : Nat :=
  let due := max t.next t.dispatchFrom
  if ready > due then due + roundUp (ready - due) clk else due

/-- An entry of a site's queue starts at a stamp; the delay of one that takes vector or pause time is a stall (R162, R196). -/
def Dev.startEntry (d : Dev) (lead start : Nat) (timed : Bool) : Dev :=
  let d : Dev := if timed ∧ start > (d.thread lead).next then d.stall lead (start - (d.thread lead).next) else d
  d.modSite lead fun t => { t with dispatchFrom := start + 256 }

/-- The front entry of a site's queue has been played. -/
def Dev.popQueue (d : Dev) (lead : Nat) : Dev :=
  d.modSite lead fun t => { t with
    inBlock := 0
    ctx := { t.ctx with
      clock := if t.ctx.queue.length ≥ 4 then max t.ctx.clock (clockOf t.next) else t.ctx.clock
      queue := t.ctx.queue.tail } }

/-- A program error takes the front of a site's queue, and what stands behind it is never reached (R160). -/
def Dev.meetError (d : Dev) (lead va code : Nat) : Dev :=
  d.modSite lead fun t => { t with inBlock := 0, ctx := { t.ctx with queue := [(.progErr va code, t.next)], waiting := true, active := false } }

/-- A wait of the engine ends so that its next entry can be played at a stamp (R170, R174 to R176). The LEN that the engine has
already spent ends no later than the wait does, which lasts as long as the pattern-level rule requires, so the two together are
the clocks of R190 (log entry 172). TFF and VTRY set Z; no other waiting micro-operation has a flag (R191). -/
def Dev.endWait (d : Dev) (lead at_ : Nat) (z : Option Bool) : Dev :=
  d.modSite lead fun t => { t with
    ctx := { t.ctx with
      waiting := false, clock := max t.ctx.clock (clockOf (at_ - 256)), z := if t.ctx.active then z.getD t.ctx.z else t.ctx.z } }

/-- The site's FF (R154, R168). -/
def Dev.siteFf (d : Dev) (lead : Nat) : Bool := (d.site lead).any fun m => (d.thread m).ff
/-- The site's SF. -/
def Dev.siteSf (d : Dev) (lead : Nat) : Bool := (d.site lead).any fun m => (d.thread m).sf
/-- SF of every member is set by something other than a compare. -/
def Dev.setSf (d : Dev) (lead : Nat) : Dev :=
  d.modSite lead fun t => { t with sf := true, segStat := { t.segStat with otherSf := true } }
/-- FF and SF of every member are set by something other than a compare. -/
def Dev.setFlags (d : Dev) (lead : Nat) : Dev := (d.setSf lead).modSite lead fun t => { t with ff := true }

/-! ### Judging (R64, R155, R168, R243, R244) -/

/-- H, L and the mid-band of a channel's comparator over a strobe, from the lowest and highest voltage in nanovolts (R64,
R129). -/
def Chan.outputs (c : Chan) (lo hi : Int) : Bool × Bool × Bool :=
  let voh := (c.level lvVoh).units * 1000000
  let vol := (c.level lvVol).units * 1000000
  (decide (lo * 16383 > voh), decide (hi * 16383 < vol), decide (hi * 16383 ≤ voh) && decide (lo * 16383 ≥ vol))

/-- The voltages given for a channel. -/
def pinOf (pins : List (BitVec 9 × Int × Int)) (ch : Nat) : Option (Int × Int) := (pins.find? fun p => p.1.toNat == ch).map (·.2)

/-- The compare codes of a vector of a thread: index among its pins, channel, code. -/
def Dev.compares (d : Dev) (m : Nat) (s : Strobe) : List (Nat × Nat × Nat) :=
  ((d.chansOf m).zipIdx.map fun x => (x.2, x.1, nib s.codes.toNat x.2)).filter fun x => decide (3 ≤ x.2.2 ∧ x.2.2 ≤ 5)

/-- Every compare of the oldest vector of a site has voltages. -/
def Dev.canJudge (d : Dev) (lead : Nat) (pins : List (BitVec 9 × Int × Int)) : Bool :=
  (d.site lead).all fun m => match (d.thread m).strobes with
    | [] => false
    | s :: _ => (d.compares m s).all fun x => (pinOf pins x.2.1).isSome

/-- Stamp at which a channel's strobe of a vector judges (R133, R246). -/
def Dev.strobeAt (d : Dev) (ch : Nat) (s : Strobe) : Nat :=
  let e := (d.chan ch).edges.get 0 s.ts
  ((s.start + (if cfmt e = 1 then edgeC1 e else edgeC0 e) : Nat) + (d.chan ch).cmpDeskew + d.edgeFix ch 1 : Int).toNat

/-- The failing pins of a vector of a thread: index among its pins, channel, stamp of the strobe. -/
def Dev.failsOf (d : Dev) (m : Nat) (s : Strobe) (pins : List (BitVec 9 × Int × Int)) : List (Nat × Nat × Nat) :=
  (d.compares m s).filterMap fun x =>
    match pinOf pins x.2.1 with
    | none => none
    | some (lo, hi) =>
      let o := (d.chan x.2.1).outputs lo hi
      let pass := if x.2.2 = 3 then o.2.1 else if x.2.2 = 4 then o.1 else o.2.2
      if pass then none else some (x.1, x.2.1, d.strobeAt x.2.1 s)

/-- A first-fail record or a fail-log entry (R243). -/
def Dev.failPacket (d : Dev) (m kind : Nat) (s : Strobe) (fs : List (Nat × Nat × Nat)) : Packet :=
  itemPacket kind (m / 4) 4
    [(6, m), (12, (d.thread m).seg.toNat), (46, 0), (32, s.index), (32, fs.foldl (fun v f => v ||| 2 ^ f.1) 0), (64, s.start),
     (48, s.va), (16, 0)] d.tl.tq d.tl.epoch (d.thread m).poison

/-- Fail-log entries of a bank that have not entered the Carafe. -/
def Dev.logWaiting (d : Dev) (b : Nat) : Nat :=
  ((d.cap.staging.get [] b ++ d.ctl.outbox.packets.filter fun p => p.producer == b).filter fun p => p.kind == 0x0B).length

/-- What a failing vector of a thread's own pins sets and commits. -/
def Dev.noteFail (d : Dev) (m : Nat) (s : Strobe) (fs : List (Nat × Nat × Nat)) : Dev :=
  let t := d.thread m
  let d : Dev := if t.ffr ∧ t.segStat.own = 0 then d.packet (d.failPacket m 0x0A s fs) else d
  let d : Dev :=
    if t.segStat.own < t.logLimit then
      if d.logWaiting (m / 4) < 64 then d.packet (d.failPacket m 0x0B s fs)
      else { d with cap := { d.cap with failLogLost := satAdd (2 ^ 32 - 1) d.cap.failLogLost 1 } }
    else d
  let d : Dev := d.modThread m fun t => { t with ff := true, sf := true, segStat := { t.segStat with own := t.segStat.own + 1 } }
  fs.foldl (fun d f => d.modChan f.2.1 fun c => { c with failCount := if c.failCount = 0xFFFFFFFF then c.failCount else c.failCount + 1 }) d

/-- The sample of a COMPARE ring: H and L of each pin; free where the vector places no strobe (log entry 6). -/
def Dev.compareWord (d : Dev) (m : Nat) (s : Strobe) (pins : List (BitVec 9 × Int × Int)) (free : Nat) : Nat :=
  let strobed := (d.compares m s).map fun x => x.1
  (d.chansOf m).zipIdx.foldl (fun v x =>
    let two := if strobed.contains x.2 then
        match pinOf pins x.1 with
        | some (lo, hi) => bit ((d.chan x.1).outputs lo hi).1 + 2 * bit ((d.chan x.1).outputs lo hi).2.1
        | none => 0
      else bits free (2 * x.2) 2
    v + two * 4 ^ x.2) 0

/-- The FAIL conditions that a failing vector meets on a ring, with the stamps of their strobes (R245, R246). -/
def Ring.failConds (g : Ring) (fs : List (Nat × Nat × Nat)) : List (BitVec 3 × Nat) :=
  (List.range 8).filterMap fun i =>
    match g.conds[i]? with
    | none => none
    | some w =>
      if condKind w ≠ 1 then none
      else
        let hit := if w.getLsbD 9 then fs else fs.filter fun f => f.1 == bits w.toNat 4 5
        match hit with
        | [] => none
        | f :: r => some (BitVec.ofNat 3 i, r.foldl (fun t x => min t x.2.2) f.2.2)

/-- A vector of a thread reaches the rings that sample it (R239). -/
def Dev.sampleVector (d : Dev) (m : Nat) (s : Strobe) (fs : List (Nat × Nat × Nat)) (pins : List (BitVec 9 × Int × Int)) : Dev :=
  forEach (List.range 8) (fun r d =>
    let g : Ring := d.ring (m / 4) r
    if g.owner ≠ some (.thread (BitVec.ofNat 6 m)) then d
    else if g.src = 0 then
      d.sample (m / 4) r s.start s.period (fs.foldl (fun v f => v ||| 2 ^ f.1) 0 : Nat) (fs != []) (g.failConds fs) d.tl.tq
    else if g.src = 1 then
      let f := d.fresh
      f.2.sample (m / 4) r s.start s.period (f.2.compareWord m s pins f.1 : Nat) (fs != []) (g.failConds fs) d.tl.tq
    else d) d

/-- The oldest vector of a site is judged: fails of its members, counts, records, samples, and the match that it may be. -/
def Dev.judge (d : Dev) (lead : Nat) (pins : List (BitVec 9 × Int × Int)) : Dev :=
  match (d.thread lead).strobes with
  | [] => d
  | s :: _ =>
    let ms := (d.site lead).filterMap fun m => (d.thread m).strobes.head?.map fun s => (m, s, d.failsOf m s pins)
    let bad := ms.any fun x => x.2.2 != []
    let d : Dev := d.modSite lead fun t => { t with strobes := t.strobes.tail }
    let d : Dev := ms.foldl (fun d x =>
      let fs := if s.isMatch then [] else x.2.2
      let d : Dev := if fs = [] then d else d.noteFail x.1 x.2.1 fs
      d.sampleVector x.1 x.2.1 fs pins) d
    if s.isMatch then
      if s.isTry ∧ ¬ bad ∧ ¬ (d.thread lead).matchAt.any (fun x => x.2) then
        d.modThread lead fun t => { t with matchAt := some (s.start, true) }
      else d
    else if bad then
      d.modThread lead fun t => { t with
        segStat := { t.segStat with
          fails := t.segStat.fails + 1, firstFail := some (t.segStat.firstFail.getD s.start), lastFail := some s.start }
        flow := { t.flow with fails := t.flow.fails + 1, firstFail := some (t.flow.firstFail.getD s.start) } }
    else d

/-! ### The issue of a vector (R156, R162, R174, R181) -/

/-- The period of a vector: twice its own where the throttled limit of R59 asks for it; the second part says so. -/
def Dev.vecPeriod (d : Dev) (lead ts : Nat) : Nat × Bool :=
  let t := d.thread lead
  let p := t.period ts
  let slow := t.throttle && (d.siteChans lead).any fun ch => let c := d.chan ch; decide (2 * c.shortest c.drvMode c.offMode > p)
  (if slow then 2 * p else p, slow)

/-- A member plays its codes of a vector; the vector waits to be judged. -/
def Dev.playMember (d : Dev) (m : Nat) (s : Strobe) (codes : List Nat) : Dev :=
  let chans := d.chansOf m
  let d : Dev := (chans.zip codes).foldl (fun d x =>
    let r := (d.chan x.1).play s.start s.ts x.2 (d.edgeFix x.1 0)
    let d : Dev := d.modChan x.1 fun _ => r.1
    if r.2 = 0 then d
    else d.modThread (d.leadOf m) fun t => { t with segStat := { t.segStat with squeeze := true } }) d
  let s := { s with codes := BitVec.ofNat 128 (packFields (chans.map fun ch => (4, (d.chan ch).eff.toNat))) }
  d.modThread m fun t => { t with strobes := t.strobes ++ [s] }

/-- A vector of a site starts at a stamp with the codes of each member. -/
def Dev.issue (d : Dev) (lead : Nat) (s : Strobe) (slow : Bool) (codes : List (Nat × List Nat)) : Dev :=
  let first := (d.site lead).all fun m => (d.thread m).strobes == []
  let d : Dev := (d.siteChans lead).foldl (fun d ch => d.takeDriver ch) d
  let d : Dev := codes.foldl (fun d c => d.playMember c.1 s c.2) d
  let d : Dev := if (d.thread lead).fire then
      (d.site lead).foldl (fun d m => d.raiseThread m s.start fun c => condKind c == 2) (d.modSite lead fun t => { t with fire := false })
    else d
  let d : Dev := d.modSite lead fun t => { t with
    lastVec := some (s.start, s.period), next := s.start + s.period, inBlock := t.inBlock + 1, blockVa := s.va
    matchAt := if s.isTry then some (s.start, false) else t.matchAt }
  let d : Dev := d.modThread lead fun t => { t with
    segStat := { t.segStat with vecs := t.segStat.vecs + 1, throttled := t.segStat.throttled || slow }
    flow := { t.flow with vectors := t.flow.vectors + 1 } }
  if first && (d.site lead).all (fun m => (d.thread m).strobes.all fun x => d.compares m x == []) then d.judge lead [] else d

/-- A block at the front of a site's queue issues its next vector. -/
def Dev.blockVector (d : Dev) (lead : Nat) (kind : BlockKind) (ts : BitVec 4) (count va ready : Nat) : Dev :=
  let t := d.thread lead
  let j := t.inBlock
  let blocks := (d.site lead).map fun m => (m, match (d.thread m).ctx.queue with
    | (.block _ _ x _ a _, _) :: _ => (x.toNat, a)
    | _ => (0, 0))
  let at_ := fun (m : Nat) => (blocks.lookup m).getD (0, 0)
  d.withWords lead (fun m => vecVas kind (at_ m).2 j (d.width m)) fun d =>
    let start := if j = 0 then t.entryStart ready else t.next
    let p := d.vecPeriod lead ts.toNat
    let try_ := kind == .matching && decide (j < count) && !t.matchAt.any (fun x => x.2)
    let copyEnd := match t.matchAt with | some x => x.1 + max (40 * p.1) 2458 | none => start
    if kind = .matching ∧ ¬ try_ ∧ start + p.1 > copyEnd then d
    else d.due start fun d =>
      let codes := (d.site lead).map fun m => (m, d.vecCodes m kind (at_ m).1 (at_ m).2 j)
      if codes.any fun c => c.2.isNone then d.meetError lead va 0
      else
        let d : Dev := if j = 0 then d.startEntry lead start true else d
        let s : Strobe := { start := start, period := p.1, ts := ts.toNat, va := va, index := t.segStat.vecs,
                            isMatch := kind == .matching, isTry := try_ }
        let d : Dev := d.issue lead s p.2 (codes.map fun c => (c.1, c.2.getD []))
        if kind = .matching ∨ j + 1 < count then d
        else if (d.site lead).all fun m => d.tailClear m kind (at_ m).2 count then d.popQueue lead
        else d.meetError lead va 0

/-! ### Other entries of the queue -/

/-- Dictionary entries from the pattern stream (R159, R160): a code that an entry may not hold is a program error. -/
def Dev.loadDict (d : Dev) (lead first num va : Nat) (datas : List (Nat × Nat)) (pause : Bool) (start : Nat) : Dev :=
  let d : Dev := d.startEntry lead start pause
  let entries := datas.map fun x =>
    let w := d.width x.1
    let n := (d.chansOf x.1).length
    (x.1, (List.range num).map fun k => (List.range n).map fun i =>
      let b := k * w + 4 * i
      bits (d.word x.1 (x.2 + b / 64 * 8)) (b % 64) 4)
  let good := (entries.all fun e => e.2.all fun v => v.all fun c => decide (c < 8)) &&
    datas.all fun x => d.tailClear x.1 .literal x.2 num
  if good then
    let d : Dev := entries.foldl (fun d e => d.modThread e.1 fun t => { t with
      dict := t.dict.fill maskEntry first (e.2.map fun v => BitVec.ofNat 128 (packFields (v.map fun c => (4, c)))) }) d
    let d : Dev := d.popQueue lead
    if pause then d.modSite lead fun t => { t with next := t.next + (4 + num) * clk } else d
  else d.meetError lead va 0

/-- A site arrives at a barrier of the manager or a standalone device: the first arrival opens a generation of as many participants
as the barrier then has, and the last one sets its release (R176, R177). -/
def Dev.arrive (d : Dev) (b stamp : Nat) : Dev :=
  let x := d.seq.barriers.get ({} : Barrier) b
  let x := { x with
    need := if x.opened.isSome then x.need else x.count, opened := some (x.opened.getD stamp), arrived := x.arrived + 1
    last := max x.last stamp }
  let full := decide (¬ x.broken ∧ x.release = none ∧ x.arrived ≥ x.need)
  let x := if full then { x with release := some (roundUp (x.last + trigLatency) grainSteps) } else x
  let d : Dev := { d with seq := { d.seq with barriers := d.seq.barriers.set {} b x } }
  if full then d.sendRelease b else d

/-- Sites pass a barrier; its generation closes when every participant has passed (R176). -/
def Dev.passBarrier (d : Dev) (b n : Nat) : Dev :=
  { d with seq := { d.seq with barriers := d.seq.barriers.mod {} b fun x =>
    if x.opened.isSome then
      if x.passed + n ≥ x.need then { count := x.count, timeout := x.timeout } else { x with passed := x.passed + n }
    else x } }

/-- A site leaves a barrier at a stamp, with SYNC_BROKEN where it broke (R176). -/
def Dev.leaveBarrier (d : Dev) (lead at_ : Nat) (broken : Bool) : Dev :=
  let d : Dev := if broken then (d.setFlags lead).modThread lead fun t => { t with segStat := { t.segStat with syncBroken := true } } else d
  let d : Dev := (d.popQueue lead).modSite lead fun t => { t with barrier := none, next := max t.next at_ }
  d.endWait lead at_ none

/-- The SYNC at the front of a site's queue: the site arrives at the end of its last vector, and a worker's arrival travels to the
manager; one that comes to a barrier already broken passes at the next grain. -/
def Dev.reachSync (d : Dev) (lead : Nat) (b : BitVec 5) (ready : Nat) : Dev :=
  let t := d.thread lead
  if t.barrier.isSome then d
  else d.due (t.entryStart ready) fun d =>
    let d : Dev := d.startEntry lead (t.entryStart ready) false
    let x := d.seq.barriers.get ({} : Barrier) b.toNat
    let stamp := t.vecEnd.getD t.next
    if d.tree.admitted then
      (d.linkOut (.arrival b d.tree.position stamp)).modSite lead fun t => { t with barrier := some b }
    else if x.broken then
      ((d.arrive b.toNat stamp).leaveBarrier lead (roundUp (max stamp d.tl.now + 1) grainSteps) true).passBarrier b.toNat 1
    else (d.arrive b.toNat stamp).modSite lead fun t => { t with barrier := some b }

/-- TRIG at the front of a site's queue (R159, R165). -/
def Dev.playTrig (d : Dev) (lead : Nat) (pulse fire : Bool) (ready : Nat) : Dev :=
  let start := (d.thread lead).entryStart ready
  d.due start fun d =>
    let d : Dev := d.startEntry lead start false
    let d : Dev := if pulse then forEach (List.range 4) (fun b d => if d.ownsBall lead b then d.pulse b start else d) d else d
    (d.popQueue lead).modSite lead fun t => { t with fire := t.fire || fire }

/-- Causes latched keep the site from issuing (R178): the loss of the upstream timeline only at a block's end. -/
def Thread.stopped (t : Thread) : Bool := t.causes.any (fun c => c != .lost) || (t.causes != [] && t.inBlock == 0)

/-- Nothing is queued: the site is in UNDERRUN when the word that its engine needs next is not resident (R180). -/
def Dev.starve (d : Dev) (lead : Nat) (wants : Nat → Bool) : Dev :=
  let miss := (d.site lead).filterMap fun m =>
    if wants m && !d.resident (m / 4) (pageOf (d.thread m).pc) then some (m, (d.thread m).pc) else none
  match miss with
  | [] => d
  | x :: _ => d.enterUnderrun lead x.2 miss

end Sys2Proof.Machine
end

