-- ==== Sys2Proof/Machine/UcOps.lean ====
section
/-!
DEFINITION. The microcode engine (07_microcode.md): what a vendor instruction does at pattern level (R159, R195), what a
microword does (R191), and how a site's contexts run them in step (R206).
-/
namespace Sys2Proof.Machine

/-! ### Results of an instruction or microword -/

/-- What an instruction or a microword does on one member: entries for the queue and the thread after it, or a program error
with its code (R193). -/
abbrev FlowResult := Except Nat (List QEntry × Thread)

/-- What members must agree on: an entry without its vector data and dictionary index (R154). -/
def QEntry.shape : QEntry → QEntry
  | .block k ts i n _ _ => .block k ts (if k = .literal then 0 else i) n 0 0
  | .dload f n _ _ p => .dload f n 0 0 p
  | .progErr _ c => .progErr 0 c
  | e => e

/-- Micro-register of a context: U0 reads as zero (R188). -/
def Ctx.reg (c : Ctx) (i : Nat) : BitVec 32 := if i = 0 then 0 else c.u.get 0 i
/-- Write a micro-register: U0 ignores it. -/
def Ctx.setReg (c : Ctx) (i : Nat) (v : BitVec 32) : Ctx := if i = 0 then c else { c with u := c.u.set 0 i v }
/-- The 48-bit value of a pair of registers (R191). -/
def Ctx.pair (c : Ctx) (i : Nat) : Nat := (c.reg i).toNat + 2 ^ 32 * ((c.reg (i + 1)).toNat % 2 ^ 16)
/-- A is a pair register (R191). -/
def pairGood (i : Nat) : Bool := decide (i % 2 = 0) && decide (2 ≤ i) && decide (i ≤ 14)

/-- Engine clocks pass on a context, which then stands at a safe point or not; a safe point ends the interval that P.0604 reports
(R190, R197, R209). -/
def Dev.spend (d : Dev) (m n : Nat) (safe : Bool) : Dev :=
  let s := (d.thread m).ctx.sinceSafe + n
  let d : Dev := d.modThread m fun t => { t with ctx := { t.ctx with clock := t.ctx.clock + n * clk, sinceSafe := if safe then 0 else s, safe := safe } }
  if safe then { d with uc := { d.uc with pollMax := max d.uc.pollMax s } } else d

/-- The results of a site's members enter their queues (R154, R196): an entry may start two clocks after the clock that
queues it; a full queue makes the contexts wait at a safe point. -/
def Dev.pushFlow (d : Dev) (lead : Nat) (rs : List (Nat × FlowResult)) (cost : Nat) (wait safe : Bool) (va : Nat) : Dev :=
  let at_ := (d.site lead).foldl (fun c m => max c (d.thread m).ctx.clock) 0
  let shapes := rs.map fun r => match r.2 with | .ok (es, _) => some (es.map QEntry.shape) | .error _ => none
  let code := rs.findSome? fun r => match r.2 with | .error c => some c | .ok _ => none
  let fail := if code.isSome then code else if shapes.all (fun s => s == shapes.headD none) then none else some 0
  let used := (d.thread lead).ctx.queue.length
  let n := if fail.isSome then 1 else match shapes.headD none with | some es => es.length | none => 0
  if used + n > 4 then (d.site lead).foldl (fun d m => d.spend m 0 true) d
  else
    let d : Dev := match fail with
      | some c => d.modSite lead fun t => { t with ctx := { t.ctx with
          queue := t.ctx.queue ++ [(.progErr va c, at_ + 2 * clk)], waiting := true, active := false } }
      | none => rs.foldl (fun d r => match r.2 with
          | .ok (es, t) => d.modThread r.1 fun _ => { t with ctx := { t.ctx with
              queue := t.ctx.queue ++ es.map fun e => (e, at_ + 2 * clk), waiting := wait } }
          | .error _ => d) d
    (d.site lead).foldl (fun d m => (d.modThread m fun t => { t with ctx := { t.ctx with clock := at_ } }).spend m cost safe) d

/-! ### Vendor instructions (R158 to R160, R195) -/

/-- The bits below the opcode that an instruction does not use (R159). -/
def reservedBits (op : Nat) : Nat :=
  if op = 0x01 ∨ op = 0x03 then 0x000F00FF00000000
  else if op = 0x02 then 0x000FFFFF00000000
  else if op = 0x04 then 0x00FF00FFFFFFFE00
  else if op = 0x08 then 0x00FFFFFF00000000
  else if op = 0x0C ∨ op = 0x10 ∨ op = 0x18 then 0x00FF000000000000
  else if op = 0x11 then 0x0007000000000000
  else if op = 0x14 then 0x000700FF00000000
  else if op = 0x19 then 0x00E0FFFFFFFFFFFF
  else if op = 0x1C then 0x00FCFFFFFFFFFFFF
  else 0x00FFFFFFFFFFFFFF

/-- A TARGET is aligned (R158). -/
def targetGood (t : Nat) : Bool := decide (t % 8 = 0)

/-- Open a loop of a thread (R159, R160): depth 8, at least one pass. -/
def Thread.openLoop (t : Thread) (body n : Nat) : Except Nat Thread :=
  if n = 0 ∨ t.loops.length ≥ 8 then .error 0 else .ok { t with pc := body, loops := { addr := body, left := n } :: t.loops }

/-- Close the innermost loop: another pass, or on past it. -/
def Thread.closeLoop (t : Thread) (next : Nat) : Except Nat Thread :=
  match t.loops with
  | [] => .error 0
  | l :: r => if l.left > 1 then .ok { t with pc := l.addr, loops := { l with left := l.left - 1 } :: r } else .ok { t with pc := next, loops := r }

/-- Call a subroutine: depth 16; the call stack keeps the address of the word that follows. -/
def Thread.callTo (t : Thread) (target next : Nat) : Except Nat Thread :=
  if ¬ targetGood target ∨ t.calls.length ≥ 16 then .error 0 else .ok { t with pc := target, calls := next :: t.calls }

/-- Return from a subroutine. -/
def Thread.ret (t : Thread) : Except Nat Thread :=
  match t.calls with | [] => .error 0 | a :: r => .ok { t with pc := a, calls := r }

/-- Jump. -/
def Thread.jumpTo (t : Thread) (target : Nat) : Except Nat Thread := if targetGood target then .ok { t with pc := target } else .error 0

/-- A flow operation without entries. -/
def flowOnly (r : Except Nat Thread) : FlowResult := r.map fun t => ([], t)

/-- A vendor instruction on a member whose pattern address stands on it (R159, R160). -/
def Dev.vendorFlow (d : Dev) (m : Nat) (iw : Nat) (members : Nat) : FlowResult :=
  let t := d.thread m
  let op := bits iw 56 8
  let va := t.pc
  let next := va + 8
  let n := bits iw 0 32
  let ts := BitVec.ofNat 4 (bits iw 52 4)
  let i := BitVec.ofNat 8 (bits iw 40 8)
  let w := d.width m
  let num := bits iw 0 9
  let target := bits iw 0 48
  if iw &&& reservedBits op ≠ 0 then .error 0
  else if op = 0x01 then
    if n = 0 then .error 0 else .ok ([.block .literal ts i n next va], { t with pc := next + 8 * ceilDiv (n * w) 64 })
  else if op = 0x02 then
    if n = 0 then .error 0 else .ok ([.block .indexed ts 0 n next va], { t with pc := next + 8 * ceilDiv n 8 })
  else if op = 0x03 then
    if n = 0 then .error 0 else .ok ([.block .copies ts i n 0 va], { t with pc := next })
  else if op = 0x04 then
    if num = 0 ∨ num > 256 ∨ i.toNat + num > 256 then .error 0
    else .ok ([.dload i.toNat num next va true], { t with pc := next + 8 * ceilDiv (num * w) 64 })
  else if op = 0x08 then flowOnly (t.openLoop next n)
  else if op = 0x09 then flowOnly (t.closeLoop next)
  else if op = 0x0C then flowOnly (t.callTo target next)
  else if op = 0x0D then flowOnly t.ret
  else if op = 0x10 then flowOnly (t.jumpTo target)
  else if op = 0x11 then
    if ¬ targetGood target ∨ bits iw 51 2 ≥ members then .error 0
    else .ok ([.jfail (iw.testBit 55) (iw.testBit 54) (iw.testBit 53) (BitVec.ofNat 2 (bits iw 51 2)) target], { t with pc := next })
  else if op = 0x14 then
    if n = 0 then .error 0 else .ok ([.block .matching ts i n 0 va, .matchEnd (iw.testBit 51)], { t with pc := next })
  else if op = 0x18 then .ok ([.waitt target], { t with pc := next })
  else if op = 0x19 then
    let b := BitVec.ofNat 5 (bits iw 48 5)
    if (d.seq.barriers.get ({} : Barrier) b.toNat).count = 0 then .error 0
    else .ok ([.sync b], { t with pc := next })
  else if op = 0x1C then .ok ([.trig (iw.testBit 48) (iw.testBit 49)], { t with pc := next })
  else if op = 0x1D then .ok ([.hold], { t with pc := next })
  else if op = 0x1F then .ok ([.segend], { t with pc := next })
  else .error 0

/-- The engine waits after these until the pins have come so far (R195). -/
def vendorWaits (op : Nat) : Bool := [0x11, 0x14, 0x18, 0x19, 0x1F].contains op

/-- The routine of a pattern opcode that stands in the store: the customer's, or one of the patch (R194). -/
def Dev.routine (d : Dev) (op : Nat) : Option (BitVec 13) := d.uc.disp.get none op

/-- The members of a site dispatch the instruction at their pattern addresses, each with its own word (R154, R156, R194, R195). -/
def Dev.dispatch (d : Dev) (lead : Nat) : Dev :=
  let ms := d.site lead
  if ms.any fun m => !d.resident (m / 4) (pageOf (d.thread m).pc) then d
  else if ms.any fun m => !d.atHand m (d.thread m).pc then ms.foldl (fun d m => d.spend m 1 true) d
  else
    let iws := ms.map fun m => (m, d.word m (d.thread m).pc)
    let iw := (iws.lookup lead).getD 0
    let op := bits iw 56 8
    let va := (d.thread lead).pc
    let plain := fun (w : Nat) => if bits w 56 8 = 1 then w - bits w 40 8 * 2 ^ 40 else w
    d.due (d.thread lead).ctx.clock fun d =>
      let d : Dev := iws.foldl (fun d x => d.modThread x.1 fun t => { t with
        ctx := { t.ctx with iw := BitVec.ofNat 64 x.2, iwAddr := t.pc, u := .empty, z := false, n := false, c := false } }) d
      if iws.any fun x => plain x.2 != plain iw then d.pushFlow lead [(lead, .error 0)] 2 true true va
      else match d.routine op with
        | some e => d.modSite lead fun t => { t with pc := t.pc + 8, ctx := { t.ctx with active := true, upc := e, sinceSafe := 0, safe := false } }
        | none =>
          if op ≥ 0xC0 then d.pushFlow lead [(lead, .error 0)] 2 true true va
          else d.pushFlow lead (iws.map fun x => (x.1, d.vendorFlow x.1 x.2 ms.length)) (if op = 4 then 4 + bits iw 0 9 else 2) (vendorWaits op) true va

/-! ### Microwords (R189 to R193) -/

/-- A word of the store (R200). -/
def Dev.microWord (d : Dev) (a : BitVec 13) : BitVec 32 :=
  if a.toNat < 0x1000 then Config.romWord a
  else if a.toNat < 0x1400 then d.uc.patch.get 0 (a.toNat - 0x1000)
  else d.uc.cust.get 0 (a.toNat - 0x1400)

/-- MOP of a microword. -/
def mop (w : BitVec 32) : Nat := bits w.toNat 26 6
/-- Clocks of a microword. -/
def mlen (w : BitVec 32) : Nat := bits w.toNat 24 2 + 1
/-- A. -/
def mA (w : BitVec 32) : Nat := bits w.toNat 20 4
/-- The register that OPERAND[19:16] names. -/
def mB (w : BitVec 32) : Nat := bits w.toNat 16 4
/-- The register that OPERAND[15:12] names. -/
def mC (w : BitVec 32) : Nat := bits w.toNat 12 4
/-- T. -/
def mT (w : BitVec 32) : BitVec 13 := BitVec.ofNat 13 (bits w.toNat 0 13)

/-- The micro-operations at which the members of a linked site wait for each other: those that queue, wait or steer the
pattern (R206). -/
def syncOp (o : Nat) : Bool := o == 0x12 || (decide (0x18 ≤ o) && decide (o ≤ 0x1C)) || o == 0x1E || o == 0x20 ||
  (decide (0x23 ≤ o) && decide (o ≤ 0x2D))

/-- The micro-operations at which the engine waits for the pins. -/
def waitOp (o : Nat) : Bool := [0x1B, 0x20, 0x28, 0x2A, 0x2B, 0x2D].contains o

/-- The condition of an MBR (R192); none where it is reserved. -/
def Dev.condition (d : Dev) (m : Nat) (k : Nat) : Option Bool :=
  let c := (d.thread m).ctx
  let lead := d.leadOf m
  [c.z, !c.z, c.n, !c.n, c.c, !c.c, d.siteFf lead, !d.siteFf lead, d.siteSf lead, !d.siteSf lead][k]?

/-- Flags of a sum or a difference (R192). -/
def Ctx.flags (c : Ctx) (r : BitVec 32) (carry : Bool) : Ctx := { c with z := r == 0, n := r.msb, c := carry }

/-- A micro-operation on registers and micro-addresses alone; none is a program error (R191, R193). The vendor micro-operations pass:
ISLP writes the island's port (`Dev.microSide`); USTW and DCTL change nothing, since only boot, a load or a spare row writes the
store and only a load a dispatch entry (R194, R200); what SOVR does beyond its name no rule says (log entry 159). -/
def Dev.microLocal (d : Dev) (m : Nat) (w : BitVec 32) : Option Ctx :=
  let t := d.thread m
  let c := { t.ctx with upc := t.ctx.upc + 1 }
  let a := c.reg (mA w)
  let b := c.reg (mB w)
  let imm := BitVec.ofNat 32 (twos 32 (signed 20 w.toNat))
  let op := mop w
  if op = 0x00 ∨ op = 0x04 then some c
  else if op = 0x01 then some { c with upc := mT w }
  else if op = 0x02 then (d.condition m (mA w)).map fun k => if k then { c with upc := mT w } else c
  else if op = 0x03 then
    let r := a - 1
    let c := c.setReg (mA w) r
    some (if r = 0 then c else { c with upc := mT w })
  else if op = 0x05 then some { c with active := false }
  else if op = 0x08 then some (c.setReg (mA w) (BitVec.ofNat 32 (bits w.toNat 0 20)))
  else if op = 0x09 then some (c.setReg (mA w) (BitVec.ofNat 32 (a.toNat % 2 ^ 20 + 2 ^ 20 * bits w.toNat 0 12)))
  else if op = 0x0A then some (c.setReg (mA w) b)
  else if op = 0x0B then some ((c.setReg (mA w) (a + b)).flags (a + b) (decide (a.toNat + b.toNat ≥ 2 ^ 32)))
  else if op = 0x0C then some ((c.setReg (mA w) (a + imm)).flags (a + imm) (decide (a.toNat + imm.toNat ≥ 2 ^ 32)))
  else if op = 0x0D then
    let r := a &&& b
    some { c.setReg (mA w) r with z := r == 0, n := r.msb }
  else if op = 0x0E then
    let r := a ||| b
    some { c.setReg (mA w) r with z := r == 0, n := r.msb }
  else if op = 0x0F then some (c.flags (a - b) (decide (a.toNat < b.toNat)))
  else if op = 0x10 then some (c.flags (a - imm) (decide (a.toNat < imm.toNat)))
  else if op = 0x11 then
    let lo := bits w.toNat 0 6
    let n := bits w.toNat 6 5 + 1
    if lo + n > 64 then none else some (c.setReg (mA w) (BitVec.ofNat 32 (bits c.iw.toNat lo n)))
  else if op = 0x1D then some (c.setReg (mA w) (BitVec.ofNat 32 t.latency))
  else if op = 0x21 ∨ op = 0x22 then some c
  else if 0x30 ≤ op ∧ op ≤ 0x33 ∧ t.ctx.upc.toNat < 0x1400 then some c
  else none

/-- A micro-operation that queues, waits or steers the pattern, on one member (R191, R193). -/
def Dev.microFlow (d : Dev) (m : Nat) (w : BitVec 32) (members : Nat) : FlowResult :=
  let t := d.thread m
  let c := { t.ctx with upc := t.ctx.upc + 1 }
  let t' := { t with ctx := c }
  let a := (c.reg (mA w)).toNat
  let b := (c.reg (mB w)).toNat
  let k := (c.reg (mC w)).toNat
  let op := mop w
  let va := c.iwAddr
  let width := d.width m
  let isPair := op = 0x12 ∨ op = 0x23 ∨ op = 0x24 ∨ op = 0x2A
  if isPair ∧ ¬ pairGood (mA w) then .error 0
  else if op = 0x12 then
    let v := d.word m t.pc
    .ok ([], { t' with pc := t.pc + 8, ctx := (c.setReg (mA w) (BitVec.ofNat 32 v)).setReg (mA w + 1) (BitVec.ofNat 32 (v / 2 ^ 32)) })
  else if op = 0x18 then
    if a = 0 ∨ b > 15 ∨ k > 255 then .error 0
    else .ok ([.block .literal (BitVec.ofNat 4 b) (BitVec.ofNat 8 k) a t.pc va], { t' with pc := t.pc + 8 * ceilDiv (a * width) 64 })
  else if op = 0x19 then
    if a = 0 ∨ b > 255 ∨ k > 15 then .error 0 else .ok ([.block .copies (BitVec.ofNat 4 k) (BitVec.ofNat 8 b) a 0 va], t')
  else if op = 0x1A then
    if a = 0 ∨ b > 15 then .error 0
    else .ok ([.block .indexed (BitVec.ofNat 4 b) 0 a t.pc va], { t' with pc := t.pc + 8 * ceilDiv a 8 })
  else if op = 0x1B then
    if a = 0 ∨ b > 255 ∨ k > 15 then .error 0
    else .ok ([.block .matching (BitVec.ofNat 4 k) (BitVec.ofNat 8 b) a 0 va, .matchEnd false], t')
  else if op = 0x1C then
    if a > 255 then .error 0 else .ok ([.dload a 1 t.pc va false], { t' with pc := t.pc + 8 * ceilDiv width 64 })
  else if op = 0x1E then .ok ([.lpaus a], t')
  else if op = 0x20 then
    if w.getLsbD 0 then
      if bits w.toNat 1 2 ≥ members then .error 0 else .ok ([.tff (some (BitVec.ofNat 2 (bits w.toNat 1 2)))], t')
    else .ok ([.tff none], t')
  else if op = 0x23 then flowOnly (t'.jumpTo (c.pair (mA w)))
  else if op = 0x24 then flowOnly (t'.callTo (c.pair (mA w)) t.pc)
  else if op = 0x25 then flowOnly t'.ret
  else if op = 0x26 then flowOnly (t'.openLoop t.pc a)
  else if op = 0x27 then flowOnly (t'.closeLoop t.pc)
  else if op = 0x28 then .ok ([.segend], t')
  else if op = 0x29 then .ok ([.hold], t')
  else if op = 0x2A then .ok ([.waitt (c.pair (mA w))], t')
  else if op = 0x2B then
    let x := BitVec.ofNat 5 (bits w.toNat 0 5)
    if (d.seq.barriers.get ({} : Barrier) x.toNat).count = 0 then .error 0 else .ok ([.sync x], t')
  else if op = 0x2C then .ok ([.trig (w.getLsbD 0) (w.getLsbD 1)], t')
  else .error (bits w.toNat 0 8)

/-- A word that NXW takes (R191). -/
def Dev.nextWord (d : Dev) (m : Nat) : Bool :=
  let c := (d.thread m).ctx
  c.active && mop (d.microWord c.upc) == 0x12

/-- The effects of a local micro-operation beyond the context: FF, SF and the island's command port (R191). -/
def Dev.microSide (d : Dev) (m : Nat) (w : BitVec 32) : Dev :=
  let op := mop w
  if op = 0x21 then d.modThread m fun t => { t with ff := false }
  else if op = 0x22 then d.modThread m fun t => { t with ff := true, sf := true, segStat := { t.segStat with otherSf := true } }
  else if op = 0x30 then
    let f := d.fresh
    { f.2 with mi := { f.2.mi with port := f.2.mi.port ++ [(true, [BitVec.ofNat 32 f.1])] } }
  else d

/-- A context executes one microword that reads well (R190, R206). -/
def Dev.microStep (d : Dev) (m : Nat) : Dev :=
  let lead := d.leadOf m
  let ms := d.site lead
  let t := d.thread m
  let w := d.microWord t.ctx.upc
  let va := t.ctx.iwAddr
  if syncOp (mop w) then
    if ms.all fun k => (d.thread k).ctx.active && syncOp (mop (d.microWord (d.thread k).ctx.upc)) then
      if ms.any fun k => (d.thread k).ctx.upc != t.ctx.upc then d.pushFlow lead [(lead, .error 0)] (mlen w) true true va
      else if mop w = 0x12 ∧ ms.any fun k => !d.atHand k (d.thread k).pc then
        if ms.any fun k => !d.resident (k / 4) (pageOf (d.thread k).pc) then ms.foldl (fun d k => d.spend k 0 true) d
        else ms.foldl (fun d k => d.spend k 1 true) d
      else
        d.due t.ctx.clock fun d =>
          d.pushFlow lead (ms.map fun k => (k, d.microFlow k w ms.length)) (mlen w) (waitOp (mop w)) (waitOp (mop w) || mop w == 0x12) va
    else d.spend m 0 true
  else
    d.due t.ctx.clock fun d =>
      match d.microLocal m w with
      | none => d.pushFlow lead [(lead, .error 0)] (mlen w) true true va
      | some c => ((d.modThread m fun t => { t with ctx := c }).microSide m w).spend m (mlen w) (mop w == 0x04 || mop w == 0x05)

/-- A context whose thread no longer runs executes one microword on its way to its next safe point, where the routine is discarded;
nothing that it would queue or steer is kept, and what it does to the flags stands (R198). -/
def Dev.dropStep (d : Dev) (m : Nat) : Dev :=
  let t := d.thread m
  let w := d.microWord t.ctx.upc
  let apart := (d.site (d.leadOf m)).any fun k => !((d.thread k).ctx.active && syncOp (mop (d.microWord (d.thread k).ctx.upc)))
  let leave := fun (d : Dev) => d.modThread m fun t => { t with ctx := { t.ctx with active := false, safe := true } }
  d.due t.ctx.clock fun d =>
    if syncOp (mop w) then
      if waitOp (mop w) ∨ mop w = 0x12 ∨ apart then leave (d.spend m 0 true)
      else (d.modThread m fun t => { t with ctx := { t.ctx with upc := t.ctx.upc + 1 } }).spend m (mlen w) false
    else match d.microLocal m w with
      | none => leave d
      | some c =>
        let safe := mop w == 0x04 || mop w == 0x05
        let d : Dev := ((d.modThread m fun t => { t with ctx := c }).microSide m w).spend m (mlen w) safe
        if safe then leave d else d

/-- A word that cannot be corrected is executed as a POLL of one clock, and the contained fault that it raises holds the thread at
that safe point (R201; log entry 155). A vendor routine's word stands for the routine. -/
def Dev.badWord (d : Dev) (m : Nat) : Dev :=
  d.due (d.thread m).ctx.clock fun d =>
    let d : Dev := (d.modThread m fun t => { t with ctx := { t.ctx with upc := t.ctx.upc + 1 } }).spend m 1 true
    d.report (m / 4) 1 2 m 0

/-- A word corrected on read counts in P.0603 and is a corrected fault (R201). -/
def Dev.correctWord (d : Dev) (m : Nat) : Dev :=
  ({ d with uc := { d.uc with corrected := satAdd (2 ^ 32 - 1) d.uc.corrected 1 } } : Dev).report (m / 4) 0 1 m 0

/-- One step of a thread's engine (R190, R194): a cause that is pending when the context stands at a safe point keeps it there; in a
resumable hold it goes on to its next safe point, and in a state without a way back it leaves its routine there (R198). -/
def Dev.engineStep (d : Dev) (m : Nat) (check : WordCheck) : Dev :=
  let lead := d.leadOf m
  let t := d.thread m
  let midway := t.ctx.active && !t.ctx.safe
  let runs := (t.st == .run && (t.causes == [] || midway)) || (t.st == .hold && midway)
  let drops := midway && !runs && t.st != .underrun
  let first := m == lead && (d.site lead).all fun k => !(d.thread k).ctx.active
  if (¬ runs ∧ ¬ drops) ∨ t.ctx.waiting ∨ (¬ t.ctx.active ∧ ¬ first) then d
  else if check = .bad then d.badWord m
  else
    let d : Dev := if check = .corrected then d.correctWord m else d
    if drops then d.dropStep m else if t.ctx.active then d.microStep m else d.dispatch lead

/-! ### Waits (R170, R174 to R176) -/

/-- What the engine needs next of the pattern: an instruction word, or the word of NXW. -/
def Dev.wantsWord (d : Dev) (m : Nat) : Bool :=
  let c := (d.thread m).ctx
  !c.waiting && (!c.active || d.nextWord m)

/-- JFAIL or TFF at the front of a site's queue is decided, once every vector before it has been judged (R169, R170, R191). -/
def Dev.decideFail (d : Dev) (lead : Nat) : Dev :=
  let t := d.thread lead
  let flag := fun (k : Option (BitVec 2)) => match k with
    | none => d.siteFf lead
    | some i => (d.thread ((d.site lead).getD i.toNat lead)).ff
  let place := match t.lastVec with
    | some v => if t.segStat.vecs = 0 then t.next else max t.next (v.1 + t.latency)
    | none => t.next
  match t.ctx.queue with
  | (.jfail scope sense clr member target, ready) :: _ =>
    d.due (t.entryStart ready) fun d =>
      let d : Dev := d.startEntry lead (t.entryStart ready) false
      let jump := flag (if scope then some member else none) != sense
      let d : Dev := if ¬ clr then d
        else if scope then d.modThread ((d.site lead).getD member.toNat lead) fun t => { t with ff := false }
        else d.modSite lead fun t => { t with ff := false }
      let d : Dev := (d.popQueue lead).modSite lead fun t => { t with
        next := place, waitEnd := some place, pc := if jump then target else t.pc }
      d.endWait lead place none
  | (.tff member, ready) :: _ =>
    d.due (t.entryStart ready) fun d =>
      let z := !flag member
      let d : Dev := ((d.startEntry lead (t.entryStart ready) false).popQueue lead).modSite lead fun t => { t with waitEnd := some place }
      d.endWait lead place (some z)
  | _ => d

/-- MATCH is over (R174): the next vector starts L after the matching vector, or after the last one tried. -/
def Dev.endMatch (d : Dev) (lead at_ : Nat) (found : Bool) : Dev :=
  let toFail := match (d.thread lead).ctx.queue with | _ :: (.matchEnd f, _) :: _ => f | _ => false
  let d : Dev := if found then d
    else
      let d : Dev := d.modThread lead fun t => { t with segStat := { t.segStat with matchTo := true } }
      if toFail then d.setFlags lead else d
  let d : Dev := ((d.popQueue lead).popQueue lead).modSite lead fun t => { t with
    next := at_, matchAt := none, ctx := { t.ctx with matched := found } }
  d.endWait lead at_ (some found)

/-- The front of a site's queue is a MATCH, and no further whole copy of its vector ends within L of the start of the matching
vector, or of the last one tried: the stamp at which it is over (R174). A hold that outlasts L leaves it over at once. -/
def Dev.matchPlace (d : Dev) (l : Nat) (found : Bool) : Option Nat :=
  let t := d.thread l
  match t.ctx.queue, t.matchAt with
  | (.block .matching ts _ count _ _, _) :: _, some (m, f) =>
    let at_ := m + t.latency
    if f = found ∧ t.next + (d.vecPeriod l ts.toNat).1 > at_ ∧
        (found ∨ (t.inBlock ≥ count ∧ t.strobes.all fun x => !x.isTry)) then some (max at_ t.next)
    else none
  | _, _ => none

/-- A site is in a pause that its hold causes leave to its end: they were latched after the last vector, and the pause of JFAIL, TFF
or WAITT, or the one after the last copy of MATCH, stands at the queue's front; or the site has arrived at a barrier (R178). -/
def Dev.inPause (d : Dev) (l : Nat) : Bool :=
  let t := d.thread l
  let after := t.latch.any fun z => t.vecEnd.all (· < z)
  match t.ctx.queue with
  | (.jfail _ _ _ _ _, _) :: _ => after
  | (.tff _, _) :: _ => after
  | (.waitt _, _) :: _ => after
  | (.block .matching _ _ _ _ _, _) :: _ => after && ((d.matchPlace l true).isSome || (d.matchPlace l false).isSome)
  | (.sync _, _) :: _ => t.barrier.isSome
  | _ => false

/-- The hold causes of a site take effect before anything else that its pins do (R178). -/
def Dev.holdDue (d : Dev) (l : Nat) : Bool := (d.thread l).stopped && !d.inPause l

end Sys2Proof.Machine
end

