-- ==== Sys2Proof/Machine/Sequencer.lean ====
section
/-!
DEFINITION. The meanings of the sequencer commands and events (06_sequencer.md).
-/
namespace Sys2Proof.Machine

/-! ### Checks -/

/-- Every member of a site has a VALID descriptor for a segment (R163). -/
def Dev.segValid (d : Dev) (lead : Nat) (seg : BitVec 12) : Bool := (d.site lead).all fun m => descValid ((d.thread m).desc seg)

/-- The stamp at which a site starts is set anew (R270). -/
def Dev.moveStart (d : Dev) (tag : Tag) (leads : List Nat) (stamp : Nat) : Dev :=
  let d : Dev := leads.foldl (fun d l =>
    if (d.thread l).st = .armed ∧ (d.thread l).startTag = tag then
      (d.modSite l fun t => { t with startAt := stamp }).modThread l fun t => { t with flow := { t.flow with start := stamp } }
    else d) d
  { d with tl := { d.tl with acts := d.tl.acts.map fun a => if a.tag = tag ∧ a.kind = .seqStart ∧ leads.any (a.user.testBit ·) then { a with stamp := stamp } else a } }

/-- Filtered FLOW_IN is asserted (R269): the board's, or the device's own FIFO_HI after four equal samples, one a grain. -/
def Dev.flowAsserted (d : Dev) : Bool :=
  d.cap.flowIn || (if d.cap.fifoHiAt.all fun z => decide (z + 4 * grainSteps ≤ d.mono) then d.cap.fifoHi else !d.cap.fifoHi)

/-- A flow-gated start is placed (R270): at its target, or at a later stamp, which each device that is delayed posts and counts;
SEQ.START completes where this device has a part in it. -/
def Dev.placeStart (d : Dev) (g : Gate) (stamp : Nat) (delayed : Bool) : Dev :=
  let d : Dev := { d with cap := { d.cap with gates := d.cap.gates.filter fun x => x.tag != g.tag } }
  if g.mask = 0 then d
  else if ¬ delayed then d.finish g.tag (stamped {} d.tl.tq d.tl.epoch g.target)
  else
    let d : Dev := d.moveStart g.tag (members g.mask) stamp
    let d : Dev := (members g.mask).foldl (fun d l => d.postAt (threadSource l) 4 [g.target] d.tl.epoch stamp d.tl.tq) d
    let d : Dev := { d with cap := { d.cap with flowDelays := satAdd (2 ^ 32 - 1) d.cap.flowDelays 1 } }
    d.finish g.tag (stamped { gated := true } d.tl.tq d.tl.epoch stamp)

/-- The manager's decision on a flow-gated start (R270): taken at its target; or FLOW_IN was asserted at D, and it is placed once
FLOW_IN has been released. The stamp goes down the tree. -/
def Dev.decideGate (d : Dev) (g : Gate) : Dev :=
  if ¬ g.decided ∧ ¬ d.flowAsserted then (d.linkOut (.start g.tag g.target false)).placeStart g g.target false
  else if ¬ g.decided ∨ d.flowAsserted then
    { d with cap := { d.cap with gates := d.cap.gates.map fun x => if x.tag = g.tag then { x with decided := true } else x } }
  else
    let stamp := g.target + roundUp (d.cap.flowRelease + 100 * grainSteps - g.target) grainSteps
    (d.linkOut (.start g.tag stamp true)).placeStart g stamp true

/-- A flow-gated start comes to wait, or is decided at once when D has passed (R270); one that the manager also forwards shares its
gate. -/
def Dev.openGate (d : Dev) (g : Gate) : Dev :=
  let d : Dev := { d with cap := { d.cap with gates := (d.cap.gates.filter fun x => x.tag != g.tag) ++ [g] } }
  if d.tl.now + 100 * grainSteps ≥ g.target then d.decideGate g else d

/-- A start stamp comes down the tree to a worker (R270): the start that waits for it is placed, or the stamp waits for the start. -/
def Dev.takeStart (d : Dev) (tag : Tag) (stamp : Nat) (delayed : Bool) : Dev :=
  match d.cap.gates.find? fun g => g.tag == tag with
  | some g => d.placeStart g stamp delayed
  | none =>
    if d.cap.heldStarts.contains tag then { d with cap := { d.cap with startNotes := d.cap.startNotes ++ [(tag, stamp, delayed)] } }
    else d

/-! ### Configuration commands (R153, R157, R163, R165, R185) -/

/-- SEQ.ASSIGN (R17, R153): the dictionary is all mask again (R157), and DEPTH takes its default (R226). -/
def execSeqAssign (h : Hdr) (th : BitVec 6) (groups : BitVec 4) (s : State) : Host.Outcome State Fault Refusal :=
  hostCmd s h 0x0500 fun d =>
    let t := th.toNat
    let clash := (List.range 4).any fun k => 4 * (t / 4) + k != t && (d.thread (4 * (t / 4) + k)).groups &&& groups != 0
    match worst [failAt clash stConflict t 7, badArgs [(0, d.notLead t)], failAt ((d.thread t).st != .idle) stBusy t] with
    | some (st, a, c) => d.refuse h.tag st a 0 c
    | none => (d.modThread t fun x => { x with groups := groups, dict := .empty, depth := d.pat.depthDefault }).ok h.tag

/-- SEQ.LINK (R18, R153). -/
def execSeqLink (h : Hdr) (lead : BitVec 6) (members : BitVec 8) (s : State) : Host.Outcome State Fault Refusal :=
  hostCmd s h 0x0501 fun d =>
    let l := lead.toNat
    let n := members.toNat
    let named := (List.range n).map fun k => l + 4 * k
    let old := if (d.thread l).lead.isSome then d.site l else [l]
    let linked := named.find? fun m => decide (m < 64) && (d.thread m).lead.any fun x => x.toNat != l
    let active := (named ++ old).find? fun m => (d.thread m).st != .idle
    match worst [badArgs [(1, n == 0 || decide (n > 4) || decide (l / 4 + n > 16))], linked.map fun m => (stConflict, m, 7),
        active.map fun m => (stBusy, m, 0)] with
    | some (st, a, c) => d.refuse h.tag st a 0 c
    | none =>
      let d : Dev := old.foldl (fun d m => d.modThread m fun t => { t with lead := none, members := 1 }) d
      let d : Dev := if n = 1 then d else named.foldl (fun d m => d.modThread m fun t => { t with lead := some lead }) d
      (d.modThread l fun t => { t with members := n }).ok h.tag

/-- SEQ.SEGLOAD (R163, R165, R167). -/
def execSeqSegload (h : Hdr) (th : BitVec 6) (first : Nat) (descs : List (BitVec 128)) (s : State) :
    Host.Outcome State Fault Refusal :=
  hostCmd s h 0x0502 fun d =>
    let t := th.toNat
    let ball := (descs.find? fun w => descTrigEn w.toNat && !d.ownsBall t (descBall w.toNat)).map fun w => descBall w.toNat
    let locked := ((d.thread t).active.map fun g => g.toNat).filter fun g => decide (first ≤ g ∧ g < first + descs.length)
    match worst [ball.map fun b => (stConflict, b, 0x0C),
        badArgs [(0, d.notLead t), (2, descs == [] || decide (first + descs.length > 4096)),
          (3, descs.any fun w => decide (w.toNat / 2 ^ 80 ≠ 0))],
        locked.min?.map fun g => (stLocked, g, 0)] with
    | some (st, a, c) => d.refuse h.tag st a 0 c
    | none => (d.modThread t fun x => { x with descs := x.descs.fill 0 first descs }).ok h.tag

/-- SEQ.DICT (R157). -/
def execSeqDict (h : Hdr) (th : BitVec 6) (first : Nat) (entries : List (BitVec 128)) (s : State) :
    Host.Outcome State Fault Refusal :=
  hostCmd s h 0x0503 fun d =>
    let t := th.toNat
    let n := (d.chansOf t).length
    let bad := fun (w : BitVec 128) => ((List.range n).any fun k => decide (nib w.toNat k > 7)) || decide (w.toNat / 2 ^ (4 * n) ≠ 0)
    match worst [badArgs [(0, d.notLead t), (2, entries == [] || decide (first + entries.length > 256)), (3, entries.any bad)],
        failAt ((d.thread t).st != .idle) stBusy t] with
    | some (st, a, c) => d.refuse h.tag st a 0 c
    | none =>
      let mask := maskEntry - maskEntry % BitVec.ofNat 128 (2 ^ (4 * n))
      (d.modThread t fun x => { x with dict := x.dict.fill maskEntry first (entries.map fun w => w ||| mask) }).ok h.tag

/-- SEQ.TRIGOUT (R165). -/
def execSeqTrigout (h : Hdr) (th : BitVec 6) (claim release : BitVec 4) (s : State) : Host.Outcome State Fault Refusal :=
  hostCmd s h 0x0504 fun d =>
    let t := th.toNat
    let taken := (members claim).find? fun b => (d.seq.trig.get ({} : TrigOut) b).owner.any fun o => o != th
    let used := (members release).find? fun b => d.ownsBall t b && (d.thread t).descs.cells.any fun c =>
      descValid c.2.toNat && descTrigEn c.2.toNat && descBall c.2.toNat == b
    match worst [(taken.orElse fun _ => used).map fun b => (stConflict, b, 0x0C), badArgs [(0, d.notLead t)]] with
    | some (st, a, c) => d.refuse h.tag st a 0 c
    | none =>
      let d : Dev := (members claim).foldl (fun d b => { d with seq := { d.seq with trig := d.seq.trig.mod {} b fun x => { x with owner := some th } } }) d
      let d : Dev := (members release).foldl (fun d b => if d.ownsBall t b then
        { d with seq := { d.seq with trig := d.seq.trig.mod {} b fun x => { x with owner := none } } } else d) d
      d.ok h.tag

/-! ### Starting, jumping, holding, stopping (R164, R172, R178, R179, R185) -/

/-- What SEQ.START checks on a thread (R19, R60, R124, R130, R153, R207), each with what its completion names: the channel at
fault, or the thread. A linked site plays the periods of its lead (log entry 153). -/
def Dev.startChecks (d : Dev) (seg : BitVec 12) (t : Nat) : List (Option (BitVec 4 × Nat × Nat)) :=
  let ms := d.site t
  let chans := d.siteChans t
  let x := d.thread t
  let edges := fun (ch : Nat) =>
    let c := d.chan ch
    (List.range 16).all fun k =>
      edgeGood (c.futureEdges k) (x.futurePeriod k) && decide (c.shortest c.drvMode c.offMode ≤ x.futurePeriod k)
  [(chans.find? fun ch => (d.chan ch).noSlice).map fun ch => (stDenied, ch, 0),
    failAt (ms.any fun m => (d.bank (m / 4)).degraded) stDenied t,
    failAt (d.notLead t || ms.any (fun m => (d.thread m).groups == 0) || !d.segValid t seg) stBadarg t,
    (chans.find? fun ch => !edges ch).map fun ch => (stBadarg, ch, 0),
    failAt (x.st != .idle) stBusy t, (chans.find? fun ch => d.inFullRun ch).map fun ch => (stBusy, ch, 0)]

/-- A site is armed (R151): its flow begins, its fail counts clear (R244), keep means drive off at its first vector
(R156). -/
def Dev.armSite (d : Dev) (tag : Tag) (seg : BitVec 12) (epoch : BitVec 16) (stamp lead : Nat) : Dev :=
  let d : Dev := d.modSite lead fun t => { t with
    st := .armed, firstSeg := seg, startAt := stamp, startEpoch := epoch, startTag := tag, lastVec := none, chosen := none
    causes := [], poison := false, flow := { start := stamp }, segStat := {}, strobes := [], jump := none, jumpTaken := none }
  (d.siteChans lead).foldl (fun d ch => d.modChan ch fun c => { c with eff := 2, failCount := 0 }) d

/-- SEQ.START: the threads are ARMED, and it completes with the start stamp, or at D when it is flow-gated (R164, R270). -/
def execSeqStart (h : Hdr) (mask : BitVec 64) (seg : BitVec 12) (w : When) (s : State) : Host.Outcome State Fault Refusal :=
  hostCmd s h 0x0505 fun d =>
    let place := d.schedule w 1 true
    let bad := match place with | .error st => st == stBadarg | .ok _ => false
    match worst ((members mask).flatMap (d.startChecks seg) ++ [failAt bad stBadarg 2]) with
    | some (st, a, c) => d.refuse h.tag st a 0 c
    | none => match place with
      | .error st => d.refuseWhen h.tag st
      | .ok (epoch, stamp, late) =>
        let d : Dev := (d.accept h.tag).addAct { tag := h.tag, kind := .seqStart, epoch := epoch, stamp := stamp, user := mask.toNat }
        let d : Dev := (members mask).foldl (fun d l => d.armSite h.tag seg epoch stamp l) d
        let g : Gate := { tag := h.tag, mask := mask, target := stamp }
        if s.straps.isManager ∧ d.cap.flowGate then d.openGate g
        else if d.cap.heldStarts.contains h.tag then
          let d : Dev := { d with cap := { d.cap with
            gates := d.cap.gates ++ [g], heldStarts := d.cap.heldStarts.filter (· != h.tag) } }
          match d.cap.startNotes.find? fun n => n.1 == h.tag with
          | some n => ({ d with cap := { d.cap with startNotes := d.cap.startNotes.filter fun n => n.1 != h.tag } } : Dev).placeStart g n.2.1 n.2.2
          | none => d
        else d.finish h.tag (stamped { late := late } d.tl.tq epoch stamp)

/-- SEQ.JUMP (R172, R173). -/
def execSeqJump (h : Hdr) (th : BitVec 6) (seg : BitVec 12) (s : State) : Host.Outcome State Fault Refusal :=
  hostCmd s h 0x0506 fun d =>
    let t := th.toNat
    let st := (d.thread t).st
    match badArg [(0, d.notLead t || st == .idle || st == .armed), (1, !d.segValid t seg)] with
    | some a => d.refuse h.tag stBadarg a
    | none => (d.accept h.tag).latchJump t seg (some h.tag)

/-- SEQ.HOLD: it completes with the entry stamp of each thread (R178, R185). -/
def execSeqHold (h : Hdr) (mask : BitVec 64) (s : State) : Host.Outcome State Fault Refusal :=
  hostCmd s h 0x0507 fun d =>
    d.allOrNone h.tag (members mask) (fun t => orFail (d.notLead t || !(d.thread t).st.running) stBadarg) fun d =>
      let d : Dev := (d.accept h.tag).openJob { tag := h.tag, left := mask.setWidth 512 }
      ((members mask).foldl (fun d t =>
        (d.modThread t fun x => { x with holdTags := x.holdTags ++ [h.tag] }).reachCause t .host) d).settleJob h.tag

/-- SEQ.RESUME (R179): it completes when the threads resume, with the resume stamp. -/
def execSeqResume (h : Hdr) (mask : BitVec 64) (w : When) (s : State) : Host.Outcome State Fault Refusal :=
  hostCmd s h 0x0508 fun d =>
    d.allOrNone h.tag (members mask)
      (fun t =>
        let x := d.thread t
        firstOf [orFail (x.st == .chold || x.st == .underrun) stDenied, orFail (d.notLead t || x.st != .hold) stBadarg,
          orFail x.resumeAt.isSome stBusy])
      fun d => match d.schedule w 1 true with
        | .error st => d.refuseWhen h.tag st
        | .ok (epoch, stamp, late) =>
          let d : Dev := (d.accept h.tag).openJob { tag := h.tag, left := mask.setWidth 512, stamp := some stamp, late := late }
          let d : Dev := d.addAct { tag := h.tag, kind := .seqResume, epoch := epoch, stamp := stamp }
          ((members mask).foldl (fun d t => d.modThread t fun x => { x with resumeAt := some (h.tag, epoch, stamp) }) d).settleJob h.tag

/-- SEQ.STOP: it completes when every thread is IDLE (R179, R199). -/
def execSeqStop (h : Hdr) (mask : BitVec 64) (s : State) : Host.Outcome State Fault Refusal :=
  hostCmd s h 0x0509 fun d =>
    d.allOrNone h.tag (members mask) (fun t => orFail (d.notLead t) stBadarg) fun d =>
      let d : Dev := (d.accept h.tag).openJob { tag := h.tag, left := mask.setWidth 512 }
      ((members mask).foldl (fun d t => d.stopSite t h.tag) d).settleJob h.tag

/-- SEQ.BARRIER (R176, R177): the participant count goes down the tree, so that a SYNC to a barrier with no configuration is the
program error of R160 on every device (log entry 157). -/
def execSeqBarrier (h : Hdr) (barrier : BitVec 5) (count : BitVec 16) (timeout : BitVec 64) (reset : Bool) (s : State) :
    Host.Outcome State Fault Refusal :=
  hostCmd s h 0x050A fun d =>
    let b := barrier.toNat
    let x := d.seq.barriers.get ({} : Barrier) b
    match worst [failAt s.straps.isWorker stDenied b, badArgs [(1, count == 0 || decide (count.toNat > 12352))],
        failAt (x.opened.isSome && !reset) stBusy b] with
    | some (st, a, c) => d.refuse h.tag st a 0 c
    | none =>
      let d : Dev := if reset then d.breakBarrier b (roundUp (d.tl.now + 1) grainSteps) true else d
      let d : Dev := { d with seq := { d.seq with barriers := d.seq.barriers.mod {} b fun x =>
          { x with count := count.toNat, timeout := timeout.toNat } } }
      (d.linkOut (.barrier barrier count.toNat)).ok h.tag

/-- The number of a state in a response (R151). -/
def ThState.code : ThState → Int
  | .idle => 0 | .armed => 1 | .run => 2 | .dead => 3 | .hold => 4 | .underrun => 5 | .chold => 6

/-- SEQ.STATUS (R185). -/
def execSeqStatus (h : Hdr) (th : BitVec 6) (s : State) : Host.Outcome State Fault Refusal :=
  hostCmd s h 0x050B fun d =>
    let t := th.toNat
    let x := d.thread t
    if d.notLead t then d.refuse h.tag stBadarg 0
    else d.okResp h.tag
      [x.st.code, (x.seg.toNat : Int), (d.nextVa t : Int), (x.loops.length : Int), (x.calls.length : Int), rb (d.siteFf t),
       rb (d.siteSf t), ro (x.jump.map fun j => j.seg.toNat),
       ((List.range 4).foldl (fun v b => v + if d.ownsBall t b then 2 ^ b else 0) 0 : Nat)]

/-! ### Vectors and the engine -/

/-- The start stamp of an ARMED site passes (R151, R164); a flow-gated start waits for its decision (R270). -/
def execThreadStart (th : BitVec 6) (s : State) : Host.Outcome State Fault Refusal :=
  onDev s fun d =>
    let l := th.toNat
    let t := d.thread l
    if t.st ≠ .armed ∨ d.notLead l ∨ t.startEpoch ≠ d.tl.epoch ∨ d.cap.gates.any (fun g => g.tag == t.startTag) then d
    else d.due t.startAt fun d => (d.startSegment l t.firstSeg t.startAt).settleStart t.startTag

/-- A context executes one microword, or a site dispatches an instruction (R190, R194, R195). -/
def execMicrowordExecute (word : MicroRead) (s : State) : Host.Outcome State Fault Refusal :=
  onDev s fun d => d.engineStep word.th.toNat word.check

/-- The vector pipeline of a site plays a vector, or an entry of its queue that takes no vector (R162, R196). -/
def execVectorStart (th : BitVec 6) (s : State) : Host.Outcome State Fault Refusal :=
  onDev s fun d =>
    let l := th.toNat
    let t := d.thread l
    if t.st ≠ .run ∨ d.notLead l ∨ t.stopped then d
    else match t.ctx.queue with
      | [] => d.starve l d.wantsWord
      | (.block kind ts _ count _ va, ready) :: _ => d.blockVector l kind ts count va ready
      | (.dload first num data _ pause, ready) :: _ =>
        let datas := (d.site l).map fun m => (m, match (d.thread m).ctx.queue with | (.dload _ _ a _ _, _) :: _ => a | _ => data)
        let words := fun (m : Nat) => (List.range (ceilDiv (num * d.width m) 64)).map fun k => (datas.lookup m).getD data + 8 * k
        d.withWords l words fun d => d.due (t.entryStart ready) fun d =>
          d.loadDict l first num t.ctx.iwAddr datas pause (t.entryStart ready)
      | (.lpaus n, ready) :: _ =>
        let at_ := match t.lastVec with | some v => max t.next (v.1 + n) | none => t.next
        d.due (t.entryStart ready) fun d =>
          ((d.startEntry l (t.entryStart ready) false).popQueue l).modSite l fun x => { x with next := at_ }
      | (.trig pulse fire, ready) :: _ => d.playTrig l pulse fire ready
      | (.sync b, ready) :: _ => d.reachSync l b ready
      | _ => d

/-- The strobes of a site's oldest vector are judged (R64, R129, R168). -/
def execCompareStrobe (th : BitVec 6) (pins : List (BitVec 9 × Int × Int)) (s : State) : Host.Outcome State Fault Refusal :=
  onDev s fun d =>
    let l := th.toNat
    if d.notLead l ∨ ¬ d.canJudge l pins then d
    else
      let at_ := (d.site l).foldl (fun v m => match (d.thread m).strobes with
        | [] => v
        | x :: _ => (d.compares m x).foldl (fun v c => max v (d.strobeAt c.2.1 x)) (max v x.start)) 0
      (d.advance at_).judge l pins

/-- A line of 64 bytes reaches a thread's prefetch buffer (R162): the threads of the bank take the port in turn, and it delivers
one line in a sequencer clock. A tile that is not checked is checked first (R213), and a page that the translation buffer does not
hold waits for it (R217). -/
def execPrefetchRequest (th : BitVec 6) (s : State) : Host.Outcome State Fault Refusal :=
  onDev s fun d =>
    let m := th.toNat
    let b := m / 4
    match d.prefetchLine m with
    | none => d
    | some (line, k) =>
      if d.portTurn b ≠ some m then d
      else
        d.due (d.bank b).portFree fun d =>
          let d : Dev := d.modBank b fun x => { x with portFree := clockOf d.tl.now + clk, portLast := BitVec.ofNat 2 (m % 4) }
          let d : Dev := (d.modTile b k fun x => { x with own := x.own ||| (1#4 <<< (m % 4)) }).tlbUse b (pageOf (64 * line))
          if (d.tile b k).checked then
            let wanted := d.wantedLines m
            d.modThread m fun x => { x with
              lines := ((line :: x.lines.filter (wanted.contains ·)) ++ x.lines.filter (!wanted.contains ·)).take 64 }
          else d.beginCheck b k

/-! ### Underrun (R180) -/

/-- The missing word is resident: the site goes on at the first grain boundary at least 2 grains later (R180). -/
def execUnderrunResume (th : BitVec 6) (s : State) : Host.Outcome State Fault Refusal :=
  onDev s fun d =>
    let l := th.toNat
    let t := d.thread l
    match t.residentAt with
    | none => d
    | some r =>
      let at_ := roundUp (r + 2 * grainSteps) grainSteps
      if t.st ≠ .underrun ∨ d.notLead l ∨ descUrAbort (t.desc t.seg) then d
      else d.due at_ fun d =>
        (d.endGap l at_ false).modSite l fun x => { x with
          st := .run, next := at_, ctx := { x.ctx with clock := max x.ctx.clock (clockOf at_) } }

/-- The choice at a segment end (R166, R171, R172): jump tag and segment, whether SELFAIL chose, or the flow's end. -/
def Dev.endSegment (d : Dev) (lead e : Nat) (abort : Bool) : Dev :=
  let t := d.thread lead
  let w := t.desc t.seg
  let g := t.segStat
  let cut := (e + 2048 : Int) - t.latency
  let other := (d.site lead).any fun m => (d.thread m).segStat.otherSf
  let selFail := abort || (if g.vecs = 0 then d.siteSf lead else other || g.firstFail.any fun v => decide ((v : Int) ≤ cut))
  let lateFail := g.lastFail.any fun v => decide ((v : Int) > cut)
  let issue := clockOf (if g.vecs = 0 then g.start else (t.lastVec.map (·.1)).getD g.start)
  let jump := t.jump.filter fun j => decide (j.latch ≤ issue)
  let pick : Nat × Option (BitVec 12) :=
    match jump with
    | some j => (2, some j.seg)
    | none =>
      if descFailEn w ∧ selFail then (1, if descFailEnd w then none else some (descNextFail w))
      else (0, if descEnd w then none else some (descNext w))
  let d : Dev := d.segRecord lead e (pick.2.getD 0) (if pick.2.isNone then 3 else pick.1) selFail lateFail
  let d : Dev := (d.modThread lead fun x => x.foldSeg selFail).freeTiles lead
  match pick.2 with
  | none => d.beginDead lead e (some 0)
  | some seg =>
    if d.segValid lead seg then
      let d : Dev := match jump with
        | some j => d.modThread lead fun x => { x with jump := none, jumpTaken := j.tag }
        | none => d
      (d.modSite lead fun x => { x with chosen := some seg }).beginDead lead e none
    else
      let d : Dev := d.postAt (threadSource lead) 3 [t.pc, 0] d.tl.epoch e d.tl.tq
      ({ d with seq := { d.seq with progErrs := satAdd (2 ^ 32 - 1) d.seq.progErrs 1 } } : Dev).beginDead lead e (some 3)

/-- UR_ABORT: the segment ends by abort at the first grain boundary after the gap's start (R180). -/
def execUnderrunAbort (th : BitVec 6) (s : State) : Host.Outcome State Fault Refusal :=
  onDev s fun d =>
    let l := th.toNat
    let t := d.thread l
    match t.gap with
    | none => d
    | some (g, _) =>
      let at_ := roundUp (g + 1) grainSteps
      if t.st ≠ .underrun ∨ d.notLead l ∨ ¬ descUrAbort (t.desc t.seg) then d
      else d.due at_ fun d =>
        let d : Dev := (d.endGap l at_ true).setSf l
        let d : Dev := d.modThread l fun x => { x with segStat := { x.segStat with aborted := true } }
        d.endSegment l at_ true

/-! ### Holds (R178, R179, R198) -/

/-- A site enters its held state (R178): at the end of the vector in which a cause was latched, or of the pause; or by a HOLD
instruction. -/
def execHoldEntry (th : BitVec 6) (s : State) : Host.Outcome State Fault Refusal :=
  onDev s fun d =>
    let l := th.toNat
    let t := d.thread l
    if t.st ≠ .run ∨ d.notLead l ∨ t.causes.contains .stop then d
    else if d.holdDue l then
      let inVector := t.vecEnd.any fun e => t.latch.all (· ≤ e)
      d.due (if inVector then t.vecEnd.getD 0 else max t.next (clockOf d.tl.now)) fun d =>
        let d : Dev := (d.siteChans l).foldl (fun d ch => d.takeDriver ch) d
        d.enterHeld l (heldState t.causes) (t.causes.contains .contained)
    else match t.ctx.queue with
      | (.hold, ready) :: _ =>
        if t.causes ≠ [] then d
        else d.due (t.entryStart ready) fun d =>
          let d : Dev := (d.siteChans l).foldl (fun d ch => d.takeDriver ch) d
          ((d.startEntry l (t.entryStart ready) false).popQueue l).enterHeld l .hold false
      | _ => d

/-- A SEQ.RESUME takes effect (R179): the exact next vector, or the segment whose start the hold delayed (R178). -/
def execThreadResume (th : BitVec 6) (s : State) : Host.Outcome State Fault Refusal :=
  onDev s fun d =>
    let l := th.toNat
    let t := d.thread l
    match t.resumeAt with
    | none => d
    | some (tag, epoch, at_) =>
      if t.st ≠ .hold ∨ d.notLead l ∨ epoch ≠ d.tl.epoch then d
      else d.due at_ fun d =>
        let d : Dev := d.modSite l fun x => { x with
          st := .run, next := at_, resumeAt := none, ctx := { x.ctx with clock := max x.ctx.clock (clockOf at_) } }
        let d : Dev := d.modThread l fun x => { x with flow := { x.flow with paused := x.flow.paused + (at_ - t.heldAt) } }
        let d : Dev := match t.chosen with | some seg => d.startSegment l seg at_ | none => d
        let d : Dev := if (List.range 64).any fun k => (d.thread k).resumeAt.any fun r => r.1 == tag then d else d.dropAct tag .seqResume
        d.endUnit tag l

/-! ### Decisions and waits (R170, R174 to R176) -/

/-- JFAIL is decided: its pause ends L after the start of the last vector before it (R170). -/
def execJfailDecision (th : BitVec 6) (s : State) : Host.Outcome State Fault Refusal :=
  onDev s fun d =>
    let l := th.toNat
    let t := d.thread l
    if t.st ≠ .run ∨ d.notLead l ∨ t.strobes ≠ [] ∨ t.causes.contains .stop ∨ d.holdDue l then d else d.decideFail l

/-- A vector of MATCH has passed on every pin (R174). -/
def execMatchFound (th : BitVec 6) (s : State) : Host.Outcome State Fault Refusal :=
  onDev s fun d =>
    let l := th.toNat
    let t := d.thread l
    if t.st ≠ .run ∨ d.notLead l ∨ t.causes.contains .stop ∨ d.holdDue l then d
    else match d.matchPlace l true with
      | none => d
      | some at_ => d.due at_ fun d => d.endMatch l at_ true

/-- TIMEOUT vectors of MATCH have been issued without a match (R174). -/
def execMatchTimeout (th : BitVec 6) (s : State) : Host.Outcome State Fault Refusal :=
  onDev s fun d =>
    let l := th.toNat
    let t := d.thread l
    if t.st ≠ .run ∨ d.notLead l ∨ t.causes.contains .stop ∨ d.holdDue l then d
    else match d.matchPlace l false with
      | none => d
      | some at_ => d.due at_ fun d => d.endMatch l at_ false

/-- WAITT ends at its segment's start plus OFFSET, or at once with LATEWAIT when that stamp has passed (R175). -/
def execWaittRelease (th : BitVec 6) (s : State) : Host.Outcome State Fault Refusal :=
  onDev s fun d =>
    let l := th.toNat
    let t := d.thread l
    match t.ctx.queue with
    | (.waitt off, ready) :: _ =>
      let at_ := t.segStat.start + off
      let start := t.entryStart ready
      if t.st ≠ .run ∨ d.notLead l ∨ t.causes.contains .stop ∨ d.holdDue l then d
      else if start > at_ then
        d.due start fun d =>
          let d : Dev := d.modThread l fun x => { x with segStat := { x.segStat with lateWait := true } }
          ((d.startEntry l start false).popQueue l).endWait l start none
      else d.due at_ fun d =>
        (((d.startEntry l start false).popQueue l).modSite l fun x => { x with next := at_ }).endWait l at_ none
    | _ => d

/-- An arrival at a barrier comes from another device (R176): a worker passes it on upwards, and it counts at the manager, which
answers one that comes after the break with a release of its own. The sites of this device arrive as they reach SYNC. -/
def execBarrierArrival (t : Nat) (barrier : BitVec 5) (position : BitVec 8) (stamp : Nat) (s : State) :
    Host.Outcome State Fault Refusal :=
  onDev s fun d =>
    let d : Dev := d.advance t
    let x := d.seq.barriers.get ({} : Barrier) barrier.toNat
    if d.tree.admitted then d.linkOut (.arrival barrier position stamp)
    else if s.straps.isWorker ∨ position = d.tree.position ∨ x.count = 0 then d
    else
      let d : Dev := d.arrive barrier.toNat stamp
      if x.broken then
        (d.linkOut (.release barrier (roundUp (max stamp d.tl.now + 1) grainSteps) true)).passBarrier barrier.toNat 1
      else d

/-- A barrier whose count was not reached in time breaks (R176). -/
def execBarrierBreak (barrier : BitVec 5) (s : State) : Host.Outcome State Fault Refusal :=
  onDev s fun d =>
    let x := d.seq.barriers.get ({} : Barrier) barrier.toNat
    match x.opened with
    | none => d
    | some first =>
      if x.timeout = 0 ∨ x.broken ∨ x.release.isSome then d
      else
        let at_ := first + x.timeout * grainSteps
        d.due at_ fun d => d.breakBarrier barrier.toNat at_ false

/-- A barrier's release stamp is reached (R176): the sites that wait at it go on. The manager and a standalone device have set it
themselves, and a worker has had it from above. -/
def execBarrierRelease (barrier : BitVec 5) (release : Nat) (broken : Bool) (s : State) : Host.Outcome State Fault Refusal :=
  onDev s fun d =>
    let b := barrier.toNat
    let x := d.seq.barriers.get ({} : Barrier) b
    if x.release ≠ some release ∨ x.broken ≠ broken then d
    else d.due release fun d =>
      let waiting := (List.range 64).filter fun t => !d.notLead t && (d.thread t).st == .run && (d.thread t).barrier == some barrier &&
        !(d.thread t).causes.contains .stop
      let d : Dev := waiting.foldl (fun d l => d.leaveBarrier l release broken) d
      if d.tree.admitted then
        { d with seq := { d.seq with barriers := d.seq.barriers.mod {} b fun x => { x with release := none, broken := false } } }
      else d.passBarrier b (x.arrived - x.passed)

/-! ### Ends (R160, R164, R166, R179) -/

/-- A segment ends: SEGEND, a program error, or SEQ.STOP at the end of the current vector, or in a wait at the next sequencer
clock (R160, R164, R166, R179, R199). -/
def execSegmentEnd (th : BitVec 6) (s : State) : Host.Outcome State Fault Refusal :=
  onDev s fun d =>
    let l := th.toNat
    let t := d.thread l
    if t.st ≠ .run ∨ d.notLead l ∨ (d.site l).any (fun m => (d.thread m).strobes != []) then d
    else if t.causes.contains .stop then
      let z := t.stopAt.getD d.tl.now
      let e := if t.inVector z then t.vecEnd.getD z
        else if t.ctx.waiting ∨ t.waitEnd.any (z < ·) then nextClock z else max t.next (clockOf z)
      d.due e fun d =>
        let d : Dev := (d.siteChans l).foldl (fun d ch => d.takeDriver ch) d
        let d : Dev := (d.modThread l fun x => x.foldSeg false).freeTiles l
        (d.modSite l fun x => { x with causes := x.causes.filter (· != .stop), barrier := none }).beginDead l e (some 1)
    else if t.causes ≠ [] then d
    else match t.ctx.queue with
      | (.progErr va code, _) :: _ =>
        d.due t.next fun d =>
          let d : Dev := d.postAt (threadSource l) 3 [va, code] d.tl.epoch t.next d.tl.tq
          let d : Dev := { d with seq := { d.seq with progErrs := satAdd (2 ^ 32 - 1) d.seq.progErrs 1 } }
          let d : Dev := (d.modThread l fun x => x.foldSeg false).freeTiles l
          (d.modSite l fun x => { x with loops := [], calls := [] }).beginDead l t.next (some 3)
      | (.segend, _) :: _ =>
        d.due t.next fun d => ((d.siteChans l).foldl (fun d ch => d.takeDriver ch) d).endSegment l t.next false
      | _ => d

/-- A dead time ends (R164, R166, R178): the flow ends with it, or a hold cause delays the next segment, or that segment
starts. -/
def execDeadTimeEnd (th : BitVec 6) (s : State) : Host.Outcome State Fault Refusal :=
  onDev s fun d =>
    let l := th.toNat
    let t := d.thread l
    if t.st ≠ .dead ∨ d.notLead l then d
    else d.due t.deadEnd fun d =>
      if t.ended then d.endFlow l t.deadEnd
      else if t.causes ≠ [] then d.enterHeld l (heldState t.causes) (t.causes.contains .contained)
      else d.startSegment l (t.chosen.getD 0) t.deadEnd

/-- A TRIG_OUT pulse ends (R165). -/
def execTrigOutPulseEnd (ball : BitVec 2) (s : State) : Host.Outcome State Fault Refusal :=
  onDev s fun d =>
    match (d.seq.trig.get ({} : TrigOut) ball.toNat).highUntil with
    | none => d
    | some t => d.due t fun d => { d with seq := { d.seq with trig := d.seq.trig.mod {} ball.toNat fun b => { b with highUntil := none } } }

end Sys2Proof.Machine
end

