-- ==== Sys2Proof/Machine/Capture.lean ====
section
/-!
DEFINITION. The meanings of the capture, trigger and Carafe commands and events (09_acquisition.md).
-/
namespace Sys2Proof.Machine

/-! ### Rings (R238 to R242) -/

/-- The owner that a command names. -/
def capOwner : OwnerArg → CapOwner
  | .thread t => .thread t
  | .host => .host

/-- Two runs of lines overlap. -/
def linesMeet (a n b m : Nat) : Bool := decide (a < b + m) && decide (b < a + n)

/-- BASE, LENGTH and owner break R238. -/
def Dev.ringArgs (d : Dev) (b r base length : Nat) (owner : OwnerArg) : List (Nat × Bool) :=
  [(2, (List.range 8).any fun k =>
      let g : Ring := d.ring b k
      decide (k ≠ r) && decide (g.len > 0) && linesMeet base length g.base (max g.len (g.pendLen.getD 0))),
   (3, decide (length < 64) || decide (base + length > 32768)),
   (4, match owner with | .thread t => decide (t.toNat / 4 ≠ b) | .host => false)]

/-- Unread samples of a ring go, and are counted (R241). -/
def Dev.dropUnread (d : Dev) (b r : Nat) : Dev :=
  let gone := samplesOf ((d.ring b r).closed.flatMap (·.parts))
  let d : Dev := { d with cap := { d.cap with discarded := satAdd (2 ^ 32 - 1) d.cap.discarded gone } }
  d.modRing b r fun g => { g with closed := [], wptr := 0, rptr := 0, discarded := g.discarded + gone }

/-- CAP.RING defines, resizes or deletes a ring (R238, R241). -/
def execCapRing (h : Hdr) (bank : BitVec 4) (ring : BitVec 3) (base length : Nat) (owner : OwnerArg) (s : State) :
    Host.Outcome State Fault Refusal :=
  hostCmd s h 0x0800 fun d =>
    let b := bank.toNat
    let r := ring.toNat
    let g : Ring := d.ring b r
    let clash := decide (g.len > 0) && g.owner != some (capOwner owner)
    let bad := (if length = 0 then [] else d.ringArgs b r base length owner) ++ [(2, g.armed && decide (length ≠ 0 ∧ base ≠ g.base))]
    match worst [failAt clash stConflict r 0x0A, (badArg bad).map fun a => (stBadarg, a, 0),
        failAt (decide (length = 0) && g.armed) stBusy r] with
    | some (st, a, k) => d.refuse h.tag st a 0 k
    | none =>
      if length = 0 then
        let tags := g.reads.map (·.1)
        let d : Dev := (d.dropUnread b r).modRing b r fun _ => {}
        (tags.foldl (fun d t => d.finish t { status := stAborted }) d).ok h.tag
      else if g.armed then
        let d : Dev := d.accept h.tag
        let d : Dev := match g.pendTag with | some t => d.finish t { replaced := true } | none => d
        let d : Dev := d.modRing b r fun g => { g with pendLen := some length, pendTag := some h.tag }
        if g.wptr = 0 ∧ ¬ g.running then d.applyLength b r else d
      else if g.len = 0 ∨ base ≠ g.base then
        ((d.dropUnread b r).modRing b r fun g => { g with base := base, len := length, owner := some (capOwner owner) }).ok h.tag
      else
        let d : Dev := (d.accept h.tag).modRing b r fun g => { g with pendLen := some length, pendTag := some h.tag }
        (d.applyLength b r).modRing b r fun g => { g with wptr := g.wptr % max 1 g.slots }

/-- Slots of a ring as its next CAP.ARM would find them (R240). -/
def Dev.slotsAt (d : Dev) (g : Ring) (src : BitVec 2) : Nat := g.len * 512 / slotSize src (d.ringChans g).length

/-- CAP.CONFIG (R239, R250, R256). -/
def execCapConfig (h : Hdr) (bank : BitVec 4) (ring : BitVec 3) (src : BitVec 2) (ch : BitVec 9) (overwrite drain : Bool)
    (pre post : Nat) (measCh : BitVec 5) (measLevel measHyst : BitVec 16) (s : State) : Host.Outcome State Fault Refusal :=
  hostCmd s h 0x0801 fun d =>
    let b := bank.toNat
    let r := ring.toNat
    let g : Ring := d.ring b r
    let threaded := match g.owner with | some (.thread _) => true | _ => false
    match worst [badArgs [(1, decide (g.len = 0)), (2, src == 3 || (src != 2 && !threaded)), (6, decide (pre ≥ d.slotsAt g src)),
          (7, decide (post < 1 ∨ post ≥ 2 ^ 32)), (8, src == 1 && decide (measCh.toNat ≥ (d.ringChans g).length)),
          (10, decide (measHyst.toNat > 4095))],
        failAt g.armed stBusy r] with
    | some (st, a, _) => d.refuse h.tag st a
    | none =>
      (d.modRing b r fun g => { g with
        configured := true, src := src, ch := ch, overwrite := overwrite, drain := drain, pre := pre, post := post
        measCh := measCh, measLevel := measLevel, measHyst := measHyst.toNat }).ok h.tag

/-! ### Triggers (R245 to R249) -/

/-- The TDC of the slice that carries a channel of a bank. -/
def Dev.sliceTdc (d : Dev) (b k : Nat) : Tdc := d.tdc b ((d.chan (32 * b + k)).sliceOf (32 * b + k))

/-- A condition word breaks R245 on a ring: a reserved bit, a kind that the ring does not allow, a pin out of range. -/
def Dev.condBad (d : Dev) (g : Ring) (w : BitVec 32) : Bool :=
  let threaded := match g.owner with | some (.thread _) => true | _ => false
  let k := condKind w
  let arg := w.toNat / 16
  if k = 0 ∨ k = 7 ∨ k = 8 then decide (arg ≠ 0)
  else if k = 1 then decide (arg ≥ 64) || !threaded || (decide (arg < 32) && decide (arg ≥ (d.ringChans g).length))
  else if k = 2 then decide (arg ≠ 0) || !threaded
  else if k = 3 then decide (arg ≥ 256)
  else if k = 4 then decide (arg ≥ 2 ^ 17) || g.src != 2
  else if k = 5 then decide (arg ≥ 128)
  else if k = 6 then decide (arg ≥ 4)
  else if k = 9 then decide (arg ≥ 4096) || !threaded
  else true

/-- The channels of the bank that EDGE conditions name, with their crossing sources. -/
def edgeConds (conds : List (BitVec 32)) : List (Nat × Nat) :=
  conds.filterMap fun w => if condKind w = 5 then some (bits w.toNat 4 5, bits w.toNat 9 2) else none

/-- CAP.TRIGGER (R245, R249). -/
def execCapTrigger (h : Hdr) (bank : BitVec 4) (ring : BitVec 3) (conds : List (BitVec 32)) (w : When) (action : BitVec 32)
    (s : State) : Host.Outcome State Fault Refusal :=
  hostCmd s h 0x0802 fun d =>
    let b := bank.toNat
    let r := ring.toNat
    let g : Ring := d.ring b r
    let edges := edgeConds conds
    let stamps := (conds.filter fun c => condKind c == 7).length
    let clash := edges.any fun e =>
      ((d.sliceTdc b e.1).owner != .none && (d.sliceTdc b e.1).owner != .ring ring) || edges.any fun f => f.1 == e.1 && f.2 != e.2
    match worst [failAt (edges.any fun e => (d.chan (32 * b + e.1)).noSlice) stDenied r, failAt clash stConflict r 8,
        badArgs [(3, match d.schedule w clk true with | .error st => st == stBadarg | .ok _ => false),
          (2, decide (conds.length ≠ 8) || conds.any (fun c => d.condBad g c) || decide (stamps > 1)),
          (4, decide (action.toNat ≥ 2 ^ 17) || (action.getLsbD 0 && g.owner == some .host))],
        failAt g.armed stBusy r] with
    | some (st, a, k) => d.refuse h.tag st a 0 k
    | none =>
      if stamps = 0 then
        (d.modRing b r fun g => { g with conds := conds, action := action, stampAt := none }).ok h.tag
      else match d.schedule w clk true with
        | .error st => d.refuseWhen h.tag st
        | .ok (epoch, stamp, late) =>
          ((d.modRing b r fun g => { g with conds := conds, action := action, stampAt := some (epoch, stamp) }).accept
            h.tag).finish h.tag { late := late }

/-- CAP.ARM (R239, R245, R251). -/
def execCapArm (h : Hdr) (bank : BitVec 4) (ring : BitVec 3) (w : When) (records : BitVec 16) (s : State) :
    Host.Outcome State Fault Refusal :=
  hostCmd s h 0x0803 fun d =>
    let b := bank.toNat
    let r := ring.toNat
    let g : Ring := d.ring b r
    let edges := edgeConds g.conds
    match worst [failAt (!g.armed && edges.any fun e => (d.sliceTdc b e.1).owner != .none) stConflict r 8,
        badArgs [(1, decide (g.len = 0) || !g.configured || decide (g.pre ≥ d.slotsAt g g.src))], failAt g.armed stBusy r] with
    | some (st, a, k) => d.refuse h.tag st a 0 k
    | none => match d.schedule w clk true with
      | .error st => d.refuseWhen h.tag st
      | .ok (epoch, stamp, late) =>
        let size := slotSize g.src (d.ringChans g).length
        let d : Dev := if size = g.slotBits then d else d.dropUnread b r
        let d : Dev := edges.foldl (fun d e =>
          d.modTdc b ((d.chan (32 * b + e.1)).sliceOf (32 * b + e.1)) fun _ =>
            { owner := .ring ring, stopSrc := BitVec.ofNat 4 e.2, stopCh := BitVec.ofNat 9 (32 * b + e.1) }) d
        let d : Dev := (d.accept h.tag).addAct { tag := h.tag, kind := .capArm, epoch := epoch, stamp := stamp }
        let d : Dev := d.openJob { tag := h.tag, late := late, parts := 1 }
        d.modRing b r fun g => { g with
          armed := true, running := false, stopped := false, armTag := h.tag, limit := records.toNat, records := 0
          effAt := stamp, epoch := epoch, armedAt := none, prevEnd := stamp, missed := 0, discarded := 0, slotBits := size
          filled := 0, recent := [], recentFails := [], lastS := none, lastEnd := none, events := [], cur := none, actions := [] }

/-- A CAP.ARM takes effect: the ring samples from its effect stamp (R251), and the conditions whose stamps were named before
stand ready (R246). -/
def execCaptureArmEffect (bank : BitVec 4) (ring : BitVec 3) (s : State) : Host.Outcome State Fault Refusal :=
  onDev s fun d =>
    let b := bank.toNat
    let r := ring.toNat
    let g : Ring := d.ring b r
    if !g.armed || g.running || g.epoch != d.tl.epoch then d
    else d.due g.effAt fun d =>
      let named := match g.stampAt with
        | some (e, t) => if e = g.epoch ∧ t ≥ g.effAt then (g.condsOf fun c => condKind c == 7).map fun c => (c, t) else []
        | none => []
      let fires := (d.tl.acts.filter fun a => a.kind == .capFire && a.epoch == g.epoch && decide (a.stamp ≥ g.effAt) &&
        decide (a.user / 256 = b) && a.user.testBit r).flatMap fun a =>
          (g.condsOf fun c => condKind c == 8).map fun c => (c, a.stamp)
      (d.dropAct g.armTag .capArm).modRing b r fun g => { g with
        running := true, prevEnd := g.effAt, armedAt := if g.pre = 0 then some g.effAt else none, events := named ++ fires }

/-- CAP.DISARM (R251, R254): the record in progress closes INTERRUPTED, its header is committed, and CAP.ARM completes OK. -/
def execCapDisarm (h : Hdr) (bank : BitVec 4) (ring : BitVec 3) (s : State) : Host.Outcome State Fault Refusal :=
  hostCmd s h 0x0804 fun d =>
    let b := bank.toNat
    let r := ring.toNat
    if !(d.ring b r).armed then d.refuse h.tag stBadarg 1
    else
      let d : Dev := d.interruptRec b r d.tl.now
      let d : Dev := if (d.ring b r).cur.isSome then d.commitHeader b r else d
      (d.ringStop b r stOk).ok h.tag

/-- CAP.FIRE: HOST conditions of the named rings become true at its effect stamp (R246, R272). -/
def execCapFire (h : Hdr) (bank : BitVec 4) (rings : BitVec 8) (w : When) (s : State) : Host.Outcome State Fault Refusal :=
  hostCmd s h 0x0805 fun d =>
    match d.schedule w clk true with
    | .error st => d.refuseWhen h.tag st
    | .ok (epoch, stamp, late) =>
      let b := bank.toNat
      let d : Dev := (d.accept h.tag).addAct
        { tag := h.tag, kind := .capFire, epoch := epoch, stamp := stamp, user := b * 256 + rings.toNat }
      let d : Dev := (members rings).foldl (fun d r =>
        let g : Ring := d.ring b r
        if g.running ∧ epoch = g.epoch then
          (g.condsOf fun c => condKind c == 8).foldl (fun d c => d.planCond b r c stamp) d
        else d) d
      d.finish h.tag (stamped { late := late } d.tl.tq epoch stamp)

/-- The actions of a trigger: JUMP, FIRE and EVENT of the action word (R249). -/
def execTriggerAction (bank : BitVec 4) (ring : BitVec 3) (s : State) : Host.Outcome State Fault Refusal :=
  onDev s fun d =>
    let b := bank.toNat
    let r := ring.toNat
    let g : Ring := d.ring b r
    match g.actions with
    | [] => d
    | (stamp, src, record) :: rest =>
      let d : Dev := d.modRing b r fun g => { g with actions := rest }
      let d : Dev := match g.owner with
        | some (.thread t) =>
          let l := d.leadOf t.toNat
          if g.action.getLsbD 0 && (d.thread l).st != .idle && (d.thread l).st != .armed && d.segValid l (g.action.extractLsb' 1 12) then
            d.latchJump l (g.action.extractLsb' 1 12) none
          else d
        | _ => d
      let d : Dev := if g.action.getLsbD 13 then d.fireLine (bits g.action.toNat 14 2) stamp src else d
      if g.action.getLsbD 16 then
        d.postAt (32 * b + 4 + r) 1 [((record % 65536 : Nat) : Int), (src.toNat : Int)] g.epoch stamp d.tl.tq
      else d

/-! ### Records (R251, R253) -/

/-- The last sample of a record ends: closing begins (R251). -/
def execRecordClose (bank : BitVec 4) (ring : BitVec 3) (s : State) : Host.Outcome State Fault Refusal :=
  onDev s fun d =>
    let g : Ring := d.ring bank.toNat ring.toNat
    match g.cur, g.lastEnd with
    | some k, some z =>
      if k.closing || decide (k.got < k.post) then d else d.due z fun d => d.closeRec bank.toNat ring.toNat z id
    | _, _ => d

/-- 16 sequencer clocks after the close the header is committed (R251). -/
def execRecordHeaderCommit (bank : BitVec 4) (ring : BitVec 3) (s : State) : Host.Outcome State Fault Refusal :=
  onDev s fun d =>
    match (d.ring bank.toNat ring.toNat).cur with
    | some k => if k.closing then d.due (k.ended + 16 * clk) fun d => d.commitHeader bank.toNat ring.toNat else d
    | none => d

/-- CAP.READ moves the oldest closed records of a DRAIN 0 ring into the Carafe (R253). -/
def execCapRead (h : Hdr) (bank : BitVec 4) (ring : BitVec 3) (count : Nat) (s : State) : Host.Outcome State Fault Refusal :=
  hostCmd s h 0x0806 fun d =>
    let b := bank.toNat
    let r := ring.toNat
    let g : Ring := d.ring b r
    if g.len = 0 ∨ !g.configured ∨ g.drain then d.refuse h.tag stBadarg 1
    else
      let d : Dev := (d.accept h.tag).modRing b r fun g => { g with reads := g.reads ++ [(h.tag, min count g.closed.length)] }
      Dev.feedRead b r 4096 d

/-! ### Fail reports and counts (R243, R244) -/

/-- CAP.FAILCFG (R243). -/
def execCapFailcfg (h : Hdr) (mask : BitVec 64) (ffr : Bool) (logLimit : Nat) (snap : Bool) (s : State) :
    Host.Outcome State Fault Refusal :=
  hostCmd s h 0x0807 fun d =>
    if logLimit > 1024 then d.refuse h.tag stBadarg 2
    else d.allOrNone h.tag (members mask)
        (fun t => firstOf [orFail (d.notLead t) stBadarg, orFail ((d.thread t).st != .idle) stBusy]) fun d =>
      ((members mask).foldl (fun d t => d.modThread t fun x => { x with ffr := ffr, logLimit := logLimit, snap := snap }) d).ok h.tag

/-- CAP.COUNTS (R244). -/
def execCapCounts (h : Hdr) (chs : BitVec 512) (clear : Bool) (s : State) : Host.Outcome State Fault Refusal :=
  hostCmd s h 0x0808 fun d =>
    let r := (members chs).map fun ch => ((d.chan ch).failCount.toNat : Int)
    let d : Dev := if clear then (members chs).foldl (fun d ch => d.modChan ch fun c => { c with failCount := 0 }) d else d
    d.okResp h.tag r

/-! ### Cross-chip lines (R258 to R262) -/

/-- CAP.XARM arms or disarms a line on the manager or a standalone device (R258, R272). -/
def execCapXarm (h : Hdr) (line : BitVec 2) (w : When) (rearm arm : Bool) (s : State) : Host.Outcome State Fault Refusal :=
  hostCmd s h 0x0809 fun d =>
    if s.straps.isWorker then d.refuse h.tag stDenied line.toNat
    else match d.schedule w 1 true with
      | .error st => d.refuseWhen h.tag st
      | .ok (epoch, stamp, late) =>
        let d : Dev := (d.accept h.tag).addAct
          { tag := h.tag, kind := .xarm, epoch := epoch, stamp := stamp, user := line.toNat }
        let d : Dev := (d.armLine line.toNat arm rearm epoch stamp).linkOut (.arm line arm rearm epoch stamp)
        d.finish h.tag (stamped { late := late } d.tl.tq epoch stamp)

/-- Phase steps of the arbitration window: 340 ns (R259). -/
def windowSteps : Nat := 34816

/-- A fire message reaches the manager: it joins the window that is open, opens one, or is lost (R259, R261). A worker passes it on
upwards. -/
def execXtrigFireMessage (t : Nat) (line : BitVec 2) (pos : BitVec 8) (cond : BitVec 3) (stamp : Nat) (s : State) :
    Host.Outcome State Fault Refusal :=
  onDev s fun d =>
    if d.tree.admitted then (d.advance t).linkOut (.fire line pos stamp cond)
    else if s.straps.isWorker then d
    else
      let d : Dev := d.advance t
      let l := line.toNat
      let x := d.xt l
      let opens := match x.action with
        | some a => x.rearm && decide (stamp ≥ a.1)
        | none => d.lineArmed l stamp
      if x.window.any (fun z => decide (d.tl.now < z)) then d.modXt l fun x => { x with cands := x.cands ++ [(stamp, pos, cond)] }
      else if x.window.isNone && opens then
        d.modXt l fun x => { x with window := some (d.tl.now + windowSteps), cands := [(stamp, pos, cond)] }
      else { d with cap := { d.cap with xtLost := satAdd (2 ^ 32 - 1) d.cap.xtLost 1 } }

/-- A candidate comes before another (R259): lowest fire stamp, then position ID, then condition index. -/
def candBefore (a b : Nat × BitVec 8 × BitVec 3) : Bool :=
  decide (a.1 < b.1) || (a.1 == b.1 && (decide (a.2.1.toNat < b.2.1.toNat) || (a.2.1 == b.2.1 && decide (a.2.2.toNat < b.2.2.toNat))))

/-- The window closes: the winner's fire stamp gives the action stamp, which goes down the tree with XPOS and XMERGED (R260). -/
def execXtrigWindowClose (line : BitVec 2) (s : State) : Host.Outcome State Fault Refusal :=
  onDev s fun d =>
    let x := d.xt line.toNat
    match x.window, x.cands with
    | some z, c :: cs => d.due z fun d =>
        let w := cs.foldl (fun m c => if candBefore c m then c else m) c
        let d : Dev := d.linkOut (.action line (w.1 + trigLatency) w.2.1 (min 255 (cs.length + 1)))
        d.modXt line.toNat fun x => { x with
          window := none, cands := [], action := some (w.1 + trigLatency, w.2.1, cs.length + 1), late := false }
    | _, _ => d

/-- A device below the manager receives an action stamp and passes it on (R260, R262). -/
def execXtrigActionMessage (t : Nat) (line : BitVec 2) (stamp : Nat) (pos : BitVec 8) (merged : Nat) (s : State) :
    Host.Outcome State Fault Refusal :=
  onDev s fun d =>
    if ¬ s.straps.isWorker then d
    else
      let d : Dev := (d.advance t).linkOut (.action line stamp pos merged)
      d.modXt line.toNat fun x => { x with action := some (stamp, pos, merged), late := decide (stamp < d.tl.now) }

/-- The action stamp of a line falls, or has passed when it arrived: XTRIG conditions become true (R260), and the line is
disarmed or armed again (R261). -/
def execXtrigAction (line : BitVec 2) (s : State) : Host.Outcome State Fault Refusal :=
  onDev s fun d =>
    let l := line.toNat
    let x := d.xt l
    match x.action with
    | none => d
    | some (at_, pos, merged) =>
      let act := fun (d : Dev) =>
        let d : Dev := d.modXt l fun x => { x with
          action := none, last := (pos, merged), armed := x.rearm && x.armed, effAt := if x.rearm then max x.effAt at_ else x.effAt
          offAt := if x.rearm then x.offAt else none }
        forEach (List.range 128) (fun i d =>
          if (d.ring (i / 8) (i % 8)).running then
            d.raiseOn (i / 8) (i % 8) at_ fun c => condKind c == 6 && bits c.toNat 4 2 == l
          else d) d
      if x.late then act d else d.due at_ act

/-! ### The Carafe (R263 to R268) -/

/-- CC0 reads a packet from the Carafe when host memory has room for it (R267, R348): a payload word with bad parity is
poisoned, and each is reported as corrected; a bad header discards the packet, with a loss marker, as a contained fault (R268). -/
def execCarafePacketRead (t : Nat) (headerBad : Bool) (badWords : List Nat) (s : State) : Host.Outcome State Fault Refusal :=
  onDev s fun d =>
    let d : Dev := d.advance t
    match d.cap.carafe with
    | [] => d
    | k :: ks =>
      if d.ctl.dmaPacket.isSome then d
      else if headerBad then (d.report 23 1 2 k.producer 0).feedReads
      else if ¬ d.tree.admitted ∧ ¬ d.ctl.resRoom (8 * k.len) then
        { d with ctl := { d.ctl with resStalled := some (d.ctl.resStalled.getD d.mono) } }
      else
        let bad := badWords.dedup.filter fun i => decide (i < k.words.length)
        let d : Dev := { d with
          cap := ({ d.cap with
            carafe := ks, poisoned := satAdd (2 ^ 32 - 1) d.cap.poisoned bad.length } : Cap).marks d.mono
          ctl := { d.ctl with
            dmaPacket := some { k with poison := (List.range k.words.length).filter fun i => bad.contains i || k.poison.contains i }
            resStalled := none
            resStall := match d.ctl.resStalled with
              | some z => satAdd (2 ^ 32 - 1) d.ctl.resStall ((d.mono - z) / usSteps)
              | none => d.ctl.resStall } }
        (bad.foldl (fun d _ => d.report 23 0 2 k.producer 0) d).feedReads

/-- Space returns after a staging overflow: one loss marker with cause 1 (R268). -/
def execLossMarkerCommit (t : Nat) (producer : Nat) (s : State) : Host.Outcome State Fault Refusal :=
  onDev s fun d =>
    let d : Dev := d.advance t
    let lost := d.cap.lossOwed.get 0 producer
    if producer > 16 ∨ lost = 0 ∨ d.cap.stagingFill producer + 3 > 512 then d
    else
      let d : Dev := { d with cap := { d.cap with lossOwed := d.cap.lossOwed.set 0 producer 0 } }
      d.lossMarker producer 1 lost

/-! ### Flow control (R269, R270) -/

/-- The filtered level of FLOW_IN changes (R269), which the manager's own FIFO_HI also pulls low: flow-gated starts that wait
for its release are placed (R270). -/
def execFlowInFilterChange (t : Nat) (asserted : Bool) (s : State) : Host.Outcome State Fault Refusal :=
  onDev s fun d =>
    if s.straps.isWorker || (d.cap.flowIn == asserted && !(!asserted && d.cap.gates.any (·.decided))) || (d.cap.fifoHi && !asserted) then d
    else
      let d : Dev := d.advance t
      let d : Dev := { d with cap := { d.cap with
        flowIn := asserted, flowRelease := if asserted then d.cap.flowRelease else d.tl.now } }
      if asserted then d else (d.cap.gates.filter (·.decided)).foldl (fun d g => d.decideGate g) d

/-- The manager reads FLOW_IN at D for a flow-gated start (R270). -/
def execFlowGateDecision (tag : BitVec 12) (s : State) : Host.Outcome State Fault Refusal :=
  onDev s fun d =>
    match d.cap.gates.find? fun g => g.tag == tag with
    | none => d
    | some g => if g.decided then d else d.due (g.target - 100 * grainSteps) fun d => d.decideGate g

/-! ### Flush (R271) -/

/-- CAP.FLUSH asks producers to discard their packets (R271). -/
def execCapFlush (h : Hdr) (producers : BitVec 17) (s : State) : Host.Outcome State Fault Refusal :=
  hostCmd s h 0x080A fun d =>
    if producers = 0 then d.okResp h.tag [0]
    else
      let d : Dev := d.accept h.tag
      { d with cap := { d.cap with
        flush := d.cap.flush ||| producers, flushTags := d.cap.flushTags ++ [(h.tag, producers, 0)] } }

/-- A producer reaches its packet boundary with a flush request (R271): its packets go, a flush marker says how many, and a
CAP.FLUSH whose producers have all acted completes. SEQ numbers of packets that had none yet are free values. -/
def execFlushAtBoundary (t : Nat) (producer : Nat) (s : State) : Host.Outcome State Fault Refusal :=
  onDev s fun d =>
    if producer > 16 ∨ ¬ d.cap.flush.getLsbD producer then d
    else
      let d : Dev := d.advance t
      let gone := d.cap.carafe.filter fun k => k.producer == producer
      let n := gone.length + (d.cap.staging.get [] producer).length
      let (x, d) := d.fresh
      let d : Dev := { d with cap := ({ d.cap with
        carafe := d.cap.carafe.filter fun k => k.producer != producer
        staging := d.cap.staging.set [] producer [], flush := d.cap.flush &&& ~~~ (1#17 <<< producer)
        flushed := satAdd (2 ^ 32 - 1) d.cap.flushed n } : Cap).marks d.mono }
      let first := match gone.head? with | some k => k.seq.toNat | none => x
      let last := match gone.getLast? with | some k => k.seq.toNat | none => x
      let d : Dev := if n = 0 then d
        else d.packet (itemPacket 0x11 producer 2 [(64, n), (32, first), (32, last)] d.tl.tq d.tl.epoch false)
      let tags := d.cap.flushTags.map fun f =>
        if f.2.1.getLsbD producer then (f.1, f.2.1 &&& ~~~ (1#17 <<< producer), f.2.2 + n) else f
      let d : Dev := { d with cap := { d.cap with flushTags := tags.filter fun f => f.2.1 != 0 } }
      let d : Dev := (tags.filter fun f => f.2.1 == 0).foldl (fun d f => d.finish f.1 { resp := [(f.2.2 : Int)] }) d
      d.feedReads

/-! ### State (R272) -/

/-- CAP.STATE. -/
def execCapState (h : Hdr) (bank : BitVec 4) (s : State) : Host.Outcome State Fault Refusal :=
  hostCmd s h 0x080B fun d =>
    let b := bank.toNat
    d.okResp h.tag (((List.range 8).flatMap fun r =>
        let g : Ring := d.ring b r
        [(g.base : Int), (g.len : Int), ro g.pendLen,
         (match g.owner with | some (.thread t) => (t.toNat : Int) | some .host => 64 | none => -1),
         (if !g.armed then 0 else if !g.running then 1 else if g.armedAt.isNone then 2 else 3),
         (g.wptr : Int), (g.rptr : Int), (samplesOf g.unread : Int),
         (g.records : Int)]) ++
      [(d.cap.stagingFill b : Int)] ++
      ((List.range 4).map fun l => (bit (d.lineArmed l d.tl.now) : Int)))

end Sys2Proof.Machine
end

