-- ==== Sys2Proof/Machine/Dsp.lean ====
section
/-!
DEFINITION. The meanings of the DSP lane commands and events, and the lane's instructions (10_bank_dsp.md).
-/
namespace Sys2Proof.Machine

/-! ### Instruction words (R277) -/

/-- OP. -/
def kOp (w : BitVec 64) : Nat := bits w.toNat 58 6
/-- AD. -/
def kAd (w : BitVec 64) : Nat := bits w.toNat 56 2
/-- Number of the X address register. -/
def kXa (w : BitVec 64) : Nat := bits w.toNat 54 2
/-- Number of the Y address register, after the four of X. -/
def kYa (w : BitVec 64) : Nat := 4 + bits w.toNat 51 2
/-- IMM. -/
def kImm (w : BitVec 64) : Nat := bits w.toNat 0 32

/-- The bits that an operation uses (R277, R279); every other bit is reserved. -/
def kUsed (op : Nat) : Nat :=
  let op6 := 0x3F * 2 ^ 58
  let ad := 3 * 2 ^ 56
  let x := 7 * 2 ^ 53
  let y := 7 * 2 ^ 50
  let conj := 2 ^ 49
  let neg := 2 ^ 48
  op6 + (if op = 1 ∨ op = 2 then ad + x + y + conj + neg
    else if op = 3 ∨ op = 4 ∨ op = 5 then ad + x + neg
    else if op = 6 then ad + x + 0x3F
    else if op = 7 then ad + y + 0x3F
    else if op = 8 then ad
    else if op = 9 ∨ op = 0x0E then ad + 0x3F
    else if op = 0x0A then 0x7FFFFFFF
    else if op = 0x0B then 0x1FFFF
    else if op = 0x0C then 0xFFFFFFFF
    else if op = 0x0D then x
    else if op = 0x0F then 0x0FFFFFFF
    else if op = 0x10 then 0x7FF
    else if op = 0x11 then 0x1FFF
    else 0)

/-- An instruction is listed and its reserved bits are zero. -/
def kGood (w : BitVec 64) : Bool := decide (kOp w ≤ 0x12) && decide (w.toNat &&& kUsed (kOp w) = w.toNat)

/-! ### Address registers (R278) -/

/-- The low `n` bits of a number in reverse order. -/
def revBits : Nat → Nat → Nat
  | 0, _ => 0
  | n + 1, v => v % 2 * 2 ^ n + revBits n (v / 2)

/-- The register after an access with its update bit set; none is a kernel error. -/
def AddrReg.update (r : AddrReg) : Option AddrReg :=
  let off := r.ptr.toNat - r.base.toNat
  if r.mode = 0 then some { r with ptr := r.ptr + r.step }
  else if r.mode = 3 ∨ r.ptr.toNat < r.base.toNat ∨ off ≥ r.m then none
  else if r.mode = 1 then
    some { r with ptr := r.base + BitVec.ofNat 13 (((off : Int) + r.step.toInt) % r.m).toNat }
  else if r.m ≠ 2 ^ Nat.log2 r.m then none
  else
    let k := Nat.log2 r.m
    some { r with ptr := r.base + BitVec.ofNat 13 (revBits k (((revBits k off : Int) + r.step.toInt) % r.m).toNat) }

/-- An address register of a lane. -/
def Lane.reg (l : Lane) (i : Nat) : AddrReg := l.ar.get {} i

/-- The update of an address register when an instruction asks for it. -/
def Lane.bump (l : Lane) (i : Nat) (on : Bool) : Option Lane :=
  if on then (l.reg i).update.map fun r => { l with ar := l.ar.set {} i r } else some l

/-! ### Arithmetic (R280, R281, R283) -/

/-- Saturation of one part of an accumulator, and whether it happened. -/
def sat64 (v : Int) : Int × Bool :=
  if v > 2 ^ 63 - 1 then (2 ^ 63 - 1, true) else if v < -(2 ^ 63) then (-(2 ^ 63), true) else (v, false)

/-- A complex product. -/
def cmul (x y : Int × Int) : Int × Int := (x.1 * y.1 - x.2 * y.2, x.1 * y.2 + x.2 * y.1)

/-- An accumulator plus a term, and whether it saturated. -/
def accAdd (a p : Int × Int) : (Int × Int) × Bool :=
  (((sat64 (a.1 + p.1)).1, (sat64 (a.2 + p.2)).1), (sat64 (a.1 + p.1)).2 || (sat64 (a.2 + p.2)).2)

/-- floor(A / 2^SH + 1/2). -/
def shiftRound (a : Int) (sh : Nat) : Int := roundDiv a (2 ^ sh)

/-- Narrowing: the two parts, and whether one clipped. -/
def narrow (a : Int × Int) (sh : Nat) : (Int × Int) × Bool :=
  let re := shiftRound a.1 sh
  let im := shiftRound a.2 sh
  ((clip 24 re, clip 24 im), clip 24 re != re || clip 24 im != im)

/-- An output word of two narrowed parts, sign-extended. -/
def outWord (p : Int × Int) : BitVec 64 := BitVec.ofNat 64 (packFields [(32, twos 32 p.1), (32, twos 32 p.2)])

/-- Terms of the sine's series in units of 2^-64, the square of the angle being `xx` in units of 2^-128. -/
def sineTerms (xx : Int) : Nat → Nat → Int → Int
  | 0, _, _ => 0
  | n + 1, k, t => t + sineTerms xx n (k + 2) (-(t * xx) / (2 ^ 128 * ((k + 1) * (k + 2) : Nat)))

/-- The sine of `k` parts of 4,096 of a quarter turn, in units of 2^-64; 57952155664616982739 is pi in these units. -/
def quarterSine (k : Nat) : Int :=
  let x : Int := (k * 57952155664616982739 / 8192 : Nat)
  sineTerms (x * x) 13 1 x

/-- The sine of `i` parts of 16,384 of a turn, in units of 2^-64. -/
def turnSine (i : BitVec 14) : Int :=
  let k := i.toNat % 4096
  let s := if i.getLsbD 12 then quarterSine (4096 - k) else quarterSine k
  if i.getLsbD 13 then -s else s

/-- An entry of the NCO's sine table (R283): 24 bits at 14 bits of phase, rounded up or down (log entry 9). -/
def sineEntry (i : BitVec 14) : Int :=
  clip 24 (turnSine i / 2 ^ 41 + if turnSine i = 0 then 0 else bit (Config.sineUp i))

/-- The conjugate of the NCO's value at a phase (R283). -/
def ncoConj (theta : BitVec 32) : Int × Int :=
  let i := theta.extractLsb' 18 14
  (sineEntry (i + 4096), -(sineEntry i))

/-- A data word as a pair. -/
def wordPair (w : BitVec 48) : Int × Int := (wordRe w, wordIm w)

/-! ### One instruction (R279 to R283) -/

/-- What an instruction does: goes on at an address, waits for input, ends, or is a kernel error. -/
inductive LaneStep where
  | goesOn (l : Lane) (next : Nat) (jumped : Bool) (sat : Bool)
  | waits
  | halts
  | errs

/-- An instruction of a customer kernel, `w` at the lane's program address and `after` the word that follows it. -/
def Lane.exec (l : Lane) (w after : BitVec 64) : LaneStep :=
  let op := kOp w
  let pc := l.pc.toNat
  let imm := kImm w
  let xr := l.reg (kXa w)
  let yr := l.reg (kYa w)
  let x := wordPair (l.x.get 0 xr.ptr.toNat)
  let yv := wordPair (l.y.get 0 yr.ptr.toNat)
  let y := if w.getLsbD 49 then (yv.1, -yv.2) else yv
  let sign : Int := if w.getLsbD 48 then -1 else 1
  let a := l.acc.get (0, 0) (kAd w)
  let put := fun (v : Int × Int) => { l with acc := l.acc.set (0, 0) (kAd w) v }
  let bump := fun (l : Lane) (sat : Bool) =>
    match (l.bump (kXa w) (w.getLsbD 53)).bind fun l => l.bump (kYa w) (w.getLsbD 50) with
    | some l => LaneStep.goesOn l (pc + 1) false sat
    | none => .errs
  let add := fun (p : Int × Int) =>
    let r := accAdd a (sign * p.1, sign * p.2)
    bump (put r.1) r.2
  if !kGood w then .errs
  else if op = 0x00 then .goesOn l (pc + 1) false false
  else if op = 0x01 then add (cmul x y)
  else if op = 0x02 then
    let p := cmul x y
    bump (put (sign * p.1, sign * p.2)) false
  else if op = 0x03 then
    let p := cmul x (ncoConj l.theta)
    let r := accAdd a (sign * p.1, sign * p.2)
    bump { put r.1 with theta := l.theta + l.ftw } r.2
  else if op = 0x04 then add (x.1 * x.1 + x.2 * x.2, 0)
  else if op = 0x05 then add (x.1 * 2 ^ 23, x.2 * 2 ^ 23)
  else if op = 0x06 then
    let n := narrow a (imm % 64)
    bump { l with x := l.x.set 0 xr.ptr.toNat (dataWord n.1.1 n.1.2) } n.2
  else if op = 0x07 then
    let n := narrow a (imm % 64)
    bump { l with y := l.y.set 0 yr.ptr.toNat (dataWord n.1.1 n.1.2) } n.2
  else if op = 0x08 then .goesOn (put (0, 0)) (pc + 1) false false
  else if op = 0x09 then .goesOn (put (shiftRound a.1 (imm % 64), shiftRound a.2 (imm % 64))) (pc + 1) false false
  else if op = 0x0A then
    .goesOn { l with ar := l.ar.mod {} (imm % 8) fun r => { r with
      ptr := BitVec.ofNat 13 (bits imm 3 13), base := BitVec.ofNat 13 (bits imm 3 13)
      step := BitVec.ofNat 13 (bits imm 16 13), mode := BitVec.ofNat 2 (bits imm 29 2) } } (pc + 1) false false
  else if op = 0x0B then .goesOn { l with ar := l.ar.mod {} (imm % 8) fun r => { r with m := bits imm 3 14 } } (pc + 1) false false
  else if op = 0x0C then
    .goesOn { l with ftw := BitVec.ofNat 32 imm, theta := BitVec.ofNat 32 (kImm after), thetaSet := true } (pc + 2) false false
  else if op = 0x0D then
    match l.q with
    | [] => .waits
    | v :: vs => bump { l with x := l.x.set 0 xr.ptr.toNat v.1, q := vs } false
  else if op = 0x0E then
    let n := narrow a (imm % 64)
    .goesOn { l with out := l.out ++ [outWord n.1] } (pc + 1) false n.2
  else if op = 0x0F then
    if l.loops.length ≥ 2 then .errs
    else .goesOn { l with loops := (pc + 1, pc + 1 + bits imm 16 12, bits imm 0 16 + 1) :: l.loops } (pc + 1) true false
  else if op = 0x10 then .goesOn l (imm % 2048) true false
  else if op = 0x11 then
    let r := bits imm 11 2
    let v := (l.loopRegs.get 0 r + 65535) % 65536
    let l := { l with loopRegs := l.loopRegs.set 0 r v }
    .goesOn l (if v ≠ 0 then imm % 2048 else pc + 1) (decide (v ≠ 0)) false
  else .halts

/-- The end of the instructions that a LOOP repeats: back to the first of them, or out of the LOOP (R279). -/
def Lane.loopEnd (l : Lane) (pc : Nat) : Nat → Nat → Lane × Nat
  | 0, next => (l, next)
  | n + 1, next =>
    match l.loops with
    | [] => (l, next)
    | (first, last, left) :: more =>
      if pc ≠ last then (l, next)
      else if left > 1 then ({ l with loops := (first, last, left - 1) :: more }, first)
      else Lane.loopEnd { l with loops := more } pc n next

/-! ### Kernels (R287) -/

/-- Output words of a vendor kernel. -/
def kernelOutputs (id : BitVec 8) (ops : List Nat) : Nat :=
  let o := fun i => ops.getD i 0
  if id = 1 then o 2
  else if id = 2 then 4
  else if id = 3 then 2
  else if id = 4 then 2 ^ o 0 / 4
  else if id = 5 then 1 + o 5
  else 2 + (if o 1 = 0 then 0 else 2 ^ o 1 / 4)

/-- The operands of a vendor kernel, in the order of the table, are in range. JITTER takes its NOMINAL from the argument of
the tap. -/
def operandsGood (id : BitVec 8) (ops : List Nat) : Bool :=
  let o := fun i => ops.getD i 0
  let span := fun (i lo hi : Nat) => decide (lo ≤ o i ∧ o i ≤ hi)
  if id = 1 then decide (ops.length = 4) && span 0 0 (2 ^ 32 - 1) && span 1 1 4096 && span 2 1 8192 && span 3 0 63
  else if id = 2 then decide (ops.length = 2) && span 0 0 (2 ^ 32 - 1) && span 1 16 65536
  else if id = 3 then decide (ops.length = 2) && span 0 16 65536 && span 1 0 1
  else if id = 4 then decide (ops.length = 4) && span 0 6 13 && span 1 0 2 && span 2 1 256 && span 3 0 63
  else if id = 5 then
    decide (ops.length = 6) && span 0 6 13 && span 1 0 2 && span 2 1 256 && span 3 0 63 &&
      decide (o 4 < 2 ^ o 0 / 2) && span 5 1 16
  else if id = 6 then decide (ops.length = 2) && span 0 16 65536 && (o 1 == 0 || span 1 6 13)
  else false

/-- The sums of D products with conj(NCO), narrowed, and whether anything saturated (DDC, R280, R281). -/
def ddcWords (ftw : BitVec 32) (dec sh : Nat) : Nat → BitVec 32 → (Int × Int) → List (Int × Int) → List (BitVec 64) × Bool
  | _, _, _, [] => ([], false)
  | i, theta, a, x :: r =>
    let s := accAdd a (cmul x (ncoConj theta))
    if i + 1 = dec then
      let n := narrow s.1 sh
      let t := ddcWords ftw dec sh 0 (theta + ftw) (0, 0) r
      (outWord n.1 :: t.1, s.2 || n.2 || t.2)
    else
      let t := ddcWords ftw dec sh (i + 1) (theta + ftw) s.1 r
      (t.1, s.2 || t.2)

/-- A quotient rounded down, or up where it is not exact: R287 does not say which (log entry 9). -/
def nearQuot (num : Int) (den : Nat) (up : Bool) : Int := num / den + if num % den = 0 then 0 else bit up

/-- The square root of a quotient, rounded in the same way. -/
def nearRoot (num den : Nat) (up : Bool) : Nat :=
  let r := Nat.sqrt (num / den)
  if r * r * den = num then r else r + bit up

/-- The sum of the products of the inputs with conj(NCO), whose phase starts at 0 (TONE, R283, R287). -/
def toneSum (ftw : BitVec 32) : BitVec 32 → List (Int × Int) → Int × Int
  | _, [] => (0, 0)
  | theta, x :: r =>
    let p := cmul x (ncoConj theta)
    let t := toneSum ftw (theta + ftw) r
    (p.1 + t.1, p.2 + t.2)

/-- The output of a vendor kernel over its inputs, each a 48-bit word: what R287 gives a formula of is computed, but for a rounding
that it does not give; the rest (a phase, the spectra, a mean removed, the mean period) are free values (log entry 9). -/
def vendorOut (id : BitVec 8) (ops : List Nat) (ins : List Int) : List (BitVec 64) × Bool :=
  let xs := ins.map fun v => wordPair (BitVec.ofInt 48 v)
  let re := xs.map fun p => p.1
  let lo := re.foldl min (re.headD 0)
  let hi := re.foldl max (re.headD 0)
  let sum := re.foldl (· + ·) 0
  let squares := re.foldl (fun a v => a + v.natAbs ^ 2) 0
  let c := if id = 2 then toneSum (BitVec.ofNat 32 (ops.getD 0 0)) 0 xs else (0, 0)
  let turns := 2 ^ 23 * xs.length
  if id = 1 then ddcWords (BitVec.ofNat 32 (ops.getD 0 0)) (ops.getD 1 1) (ops.getD 3 0) 0 0 (0, 0) xs
  else
    ((List.range (kernelOutputs id ops)).map fun i =>
      let w := Config.kernelWords id ops ins i
      if id = 2 ∧ i = 0 then BitVec.ofInt 64 (nearQuot sum xs.length (w.getLsbD 0))
      else if id = 2 ∧ i = 1 then
        BitVec.ofNat 64 (packFields [(32, twos 32 (nearQuot c.1 turns (w.getLsbD 0))), (32, twos 32 (nearQuot c.2 turns (w.getLsbD 1)))])
      else if id = 2 ∧ i = 2 then
        BitVec.ofNat 64 (nearRoot (4 * (c.1.natAbs ^ 2 + c.2.natAbs ^ 2)) (turns ^ 2) (w.getLsbD 0))
      else if id = 2 then BitVec.ofNat 64 (w.toNat % 2 ^ 32)
      else if id = 3 ∧ i = 0 then
        BitVec.ofNat 64 (packFields [(32, twos 32 (nearQuot sum xs.length (w.getLsbD 0))),
          (32, if ops.getD 1 0 = 0 then nearRoot squares xs.length (w.getLsbD 1) else bits w.toNat 32 32)])
      else if id = 3 ∧ i = 1 then BitVec.ofNat 64 (packFields [(32, twos 32 lo), (32, twos 32 hi)])
      else if id = 6 ∧ i = 0 then BitVec.ofNat 64 (packFields [(32, w.toNat), (32, twos 32 (hi - lo))])
      else w, false)

/-! ### Commands (R274, R290, R291) -/

/-- DSP.CLAIM (R274, R275). -/
def execDspClaim (h : Hdr) (bank : BitVec 4) (owner : Option OwnerArg) (s : State) : Host.Outcome State Fault Refusal :=
  hostCmd s h 0x0900 fun d =>
    let b := bank.toNat
    let l := d.lane b
    match owner with
    | none =>
      match worst [failAt l.absent stDenied b, failAt l.run.isSome stBusy b] with
      | some (st, a, k) => d.refuse h.tag st a 0 k
      | none => (d.modLane b fun l => { l with owner := none }).ok h.tag
    | some o =>
      let foreign := match o with | .thread t => decide (t.toNat / 4 ≠ b) | .host => false
      match worst [failAt l.absent stDenied b, failAt (l.owner.any fun x => x != capOwner o) stConflict b 0x0B,
          badArgs [(1, foreign)]] with
      | some (st, a, k) => d.refuse h.tag st a 0 k
      | none => (d.modLane b fun l => { l with owner := some (capOwner o) }).ok h.tag

/-- The indices that may follow a word of a customer kernel image; HALT ends it. -/
def kernelNext (i : Nat) (w : BitVec 64) : List Nat :=
  let t := kImm w % 2048 - 1024
  if kOp w = 0x10 then [t]
  else if kOp w = 0x11 then [t, i + 1]
  else if kOp w = 0x12 then []
  else if kOp w = 0x0C then [i + 2]
  else [i + 1]

/-- The indices reached from a set, after so many steps. -/
def kernelReach (ws : Array (BitVec 64)) : Nat → Array Bool → Array Bool
  | 0, s => s
  | n + 1, s => kernelReach ws n ((List.range ws.size).foldl (fun s i =>
      if s.getD i false then (kernelNext i (ws.getD i 0)).foldl (fun s j => s.setIfInBounds j true) s else s) s)

/-- The indices from which HALT is reached. -/
def kernelEnds (ws : Array (BitVec 64)) : Nat → Array Bool → Array Bool
  | 0, s => s
  | n + 1, s => kernelEnds ws n ((List.range ws.size).map fun i =>
      s.getD i false || kernelNext i (ws.getD i 0) == [] || (kernelNext i (ws.getD i 0)).any fun j => s.getD j false).toArray

/-- The checks of R290 on a customer kernel image; the word after LDF carries a phase and nothing else. -/
def kernelImageGood (words : List (BitVec 64)) (table : List (BitVec 8 × BitVec 11)) : Bool :=
  let n := words.length
  let ws := words.toArray
  let data := fun (i : Nat) => decide (i > 0) && decide (kOp (ws.getD (i - 1) 0) = 0x0C)
  let shape := decide (1 ≤ n ∧ n ≤ 1024) &&
    table.all fun e => decide (0x40 ≤ e.1.toNat ∧ e.1.toNat ≤ 0x7F) && decide (1024 ≤ e.2.toNat ∧ e.2.toNat < 1024 + n)
  let fields := (List.range n).all fun i =>
    let w := ws.getD i 0
    if data i then decide (w.toNat < 2 ^ 32)
    else kGood w && (!(kOp w == 0x10 || kOp w == 0x11) || decide (kImm w % 2048 ≥ 1024))
  let start := table.foldl (fun (s : Array Bool) e => s.setIfInBounds (e.2.toNat - 1024) true) (List.replicate n false).toArray
  let seen := kernelReach ws n start
  let ends := kernelEnds ws n (List.replicate n false).toArray
  shape && fields && (List.range n).all fun i =>
    !seen.getD i false || (ends.getD i false && (kernelNext i (ws.getD i 0)).all fun j => decide (j < n))

/-- DSP.KLOAD (R290). -/
def execDspKload (h : Hdr) (words : List (BitVec 64)) (table : List (BitVec 8 × BitVec 11)) (s : State) :
    Host.Outcome State Fault Refusal :=
  hostCmd s h 0x0901 fun d =>
    if !kernelImageGood words table then d.refuse h.tag stBadarg 0
    else if (List.range 16).any fun b => (d.lane b).run.isSome then d.refuse h.tag stBusy
    else
      let d : Dev := { d with dsp := { d.dsp with
        p := d.dsp.p.fill 0 1024 words
        kernels := table.foldl (fun t e => t.set none e.1.toNat (some e.2)) .empty } }
      d.ok h.tag

/-- A run is in progress on a bank's lane. -/
def Dev.laneBusy (d : Dev) (b : Nat) : Bool := (d.lane b).run.any (·.active)

/-- DSP.MEM. -/
def execDspMem (h : Hdr) (bank : BitVec 4) (y : Bool) (first : Nat) (words : List (BitVec 48)) (s : State) :
    Host.Outcome State Fault Refusal :=
  hostCmd s h 0x0902 fun d =>
    let b := bank.toNat
    if first + words.length > 8192 then d.refuse h.tag stBadarg (if first < 8192 then 3 else 2)
    else if d.laneBusy b then d.refuse h.tag stBusy b
    else
      (d.modLane b fun l =>
        if y then { l with y := l.y.fill 0 first words } else { l with x := l.x.fill 0 first words }).ok h.tag

/-- The tap of a DSP.RUN has another owner than the lane (R274). -/
def Dev.tapClash (d : Dev) (b : Nat) (input : BitVec 2) (source : Nat) : Bool :=
  let own := (d.lane b).owner
  if input = 0 then false
  else if input = 3 then
    match (d.tdc b source).owner with
    | .none => false
    | .ring _ => true
    | .arm _ => own != some .host && own != (d.ownerOf (d.tdc b source).stopCh.toNat).map fun t => .thread (BitVec.ofNat 6 t)
  else (d.ring b (source % 8)).owner != own

/-- The tap of a DSP.RUN does not exist or delivers something else (R284). -/
def Dev.tapBad (d : Dev) (b : Nat) (input : BitVec 2) (source ch : Nat) : Bool :=
  let g : Ring := d.ring b (source % 8)
  if input = 0 then false
  else if input = 3 then decide ((d.tdc b source).owner = .none) || (d.tdc b source).mode != 0
  else decide (source ≥ 8) || decide (g.len = 0) || !g.configured || decide (g.src ≠ if input = 1 then 2 else 1) ||
    (input == 2 && decide (ch ≥ (d.ringChans g).length))

/-- The kernel of a DSP.RUN, its operands or its input break R287. -/
def Dev.kernelBad (d : Dev) (kernel : BitVec 8) (operands : List Nat) (input : BitVec 2) : Bool :=
  if kernel.toNat ≥ 0x40 then (d.dsp.kernels.get none kernel.toNat).isNone || operands != []
  else !operandsGood kernel operands || ((kernel == 6) != (input == 3)) ||
    (input == 0 && decide (kernelInputs kernel operands > 8192))

/-- DSP.RUN (R274, R275, R284, R286, R287). -/
def execDspRun (h : Hdr) (bank : BitVec 4) (kernel : BitVec 8) (operands : List Nat) (input : BitVec 2) (source : BitVec 6)
    (ch : BitVec 5) (nominal : Int) (tapOnly toX : Bool) (start : RunStart) (s : State) : Host.Outcome State Fault Refusal :=
  hostCmd s h 0x0903 fun d =>
    let b := bank.toNat
    let l := d.lane b
    let bound := match start with | .ring r => some r | .stamp _ => none
    let unbound := match bound with | some r => decide ((d.ring b r.toNat).len = 0) | none => false
    match worst [failAt l.absent stDenied b,
        failAt (l.owner.isSome && d.tapClash b input source.toNat) stConflict source.toNat (if input = 3 then 8 else 0x0A),
        badArgs [(0, l.owner.isNone), (1, d.kernelBad kernel operands input), (3, d.tapBad b input source.toNat ch.toNat),
          (6, unbound)],
        failAt l.run.isSome stBusy b] with
    | some (st, a, k) => d.refuse h.tag st a 0 k
    | none =>
      let r : Run := { tag := h.tag, kernel := kernel, ops := operands, input := input, src := source, ch := ch,
                       nominal := nominal, tapOnly := tapOnly, toX := toX, bind := bound, epoch := d.tl.epoch }
      match start with
      | .ring _ => (d.accept h.tag).modLane b fun l => { l with run := some r }
      | .stamp w =>
        match d.schedule w clk false with
        | .error st => d.refuseWhen h.tag st
        | .ok (epoch, stamp, late) =>
          let d : Dev := (d.accept h.tag).addAct { tag := h.tag, kind := .dspRun, epoch := epoch, stamp := stamp }
          d.modLane b fun l => { l with run := some { r with startAt := stamp, epoch := epoch, late := late } }

/-- DSP.STOP: the run ends at the next clock (R289). -/
def execDspStop (h : Hdr) (bank : BitVec 4) (s : State) : Host.Outcome State Fault Refusal :=
  hostCmd s h 0x0904 fun d =>
    let b := bank.toNat
    if (d.lane b).run.isNone then d.refuse h.tag stBadarg 0
    else
      let d : Dev := d.modLane b fun l => { l with run := l.run.map fun r => { r with ended := nextClock d.tl.now } }
      (d.endRun b false true stAborted false).ok h.tag

/-- DSP.READ. -/
def execDspRead (h : Hdr) (bank : BitVec 4) (y : Bool) (first count : Nat) (s : State) : Host.Outcome State Fault Refusal :=
  hostCmd s h 0x0905 fun d =>
    let b := bank.toNat
    let l := d.lane b
    if count < 1 ∨ first + count > 8192 then d.refuse h.tag stBadarg (if first < 8192 then 3 else 2)
    else if d.laneBusy b then d.refuse h.tag stBusy b
    else d.okResp h.tag (((if y then l.y else l.x).range 0 first count).map fun w => (w.toNat : Int))

/-- DSP.STATE. -/
def execDspState (h : Hdr) (bank : BitVec 4) (s : State) : Host.Outcome State Fault Refusal :=
  hostCmd s h 0x0906 fun d =>
    let l := d.lane bank.toNat
    d.okResp h.tag ([(match l.owner with | some (.thread t) => (t.toNat : Int) | some .host => 64 | none => -1), rb l.spare,
        rb l.absent, (match l.run with | some r => if r.active then 2 else 1 | none => 0),
        ro (l.run.map fun r => r.kernel.toNat), ro (l.run.map fun r => r.taken), (l.err.toNat : Int)] ++
      (d.dsp.kernels.cells.flatMap fun e => [(e.1 : Int), ro (e.2.map fun v => v.toNat)]))

/-! ### Events (R284 to R289) -/

/-- A run starts: at its stamp, or because a record has closed (R286). The NCO's phase is 0 (R283). -/
def execDspRunStart (bank : BitVec 4) (s : State) : Host.Outcome State Fault Refusal :=
  onDev s fun d =>
    let b := bank.toNat
    match (d.lane b).run with
    | none => d
    | some r =>
      if r.active || (r.bind.isSome && !r.due) || r.epoch != d.tl.epoch then d
      else d.due r.startAt fun d =>
        let d : Dev := if r.bind.isNone then d.dropAct r.tag .dspRun else d
        d.modLane b fun l => { l with
          theta := 0, thetaSet := false, ftw := if r.kernel = 1 ∨ r.kernel = 2 then BitVec.ofNat 32 (r.ops.getD 0 0) else l.ftw
          pc := (d.dsp.kernels.get none r.kernel.toNat).getD 0, loops := [], tap := [], q := [], words := [], out := []
          run := some { r with active := true, due := false, taken := 0, busy := 0, tapEnd := none, tq := d.tl.tq, throttled := d.hk.hot } }

/-- The oldest word of the tap reaches the input queue, or finds it full and is dropped (R285); what a vendor kernel does not
take any more is left. -/
def execDspInputWord (bank : BitVec 4) (s : State) : Host.Outcome State Fault Refusal :=
  onDev s fun d =>
    let b := bank.toNat
    let l := d.lane b
    match l.run, l.tap with
    | some r, (stamp, ends, v, gapped) :: rest =>
      let full := decide (r.kernel.toNat < 0x40) && decide (r.taken + l.q.length ≥ kernelInputs r.kernel r.ops)
      let r : Run := { r with gapped := r.gapped || gapped, first := some (r.first.getD stamp), tq := r.tq ||| d.tl.tq }
      if full then d.modLane b fun l => { l with tap := rest }
      else if l.q.length ≥ 256 then
        let d : Dev := { d with dsp := { d.dsp with drops := satAdd (2 ^ 32 - 1) d.dsp.drops 1 } }
        d.modLane b fun l => { l with tap := rest, run := some { r with overflow := true } }
      else d.modLane b fun l => { l with tap := rest, q := l.q ++ [(dataWord (clip 24 v) 0, ends)], run := some r }
    | _, _ => d

/-- The run halts (R279, R286, R288): END is the end of the last input's interval, or the present without a tap. -/
def Dev.haltRun (d : Dev) (b : Nat) : Dev :=
  let d : Dev := d.modLane b fun l => { l with run := l.run.map fun r => { r with
    first := some (r.first.getD r.startAt), ended := if r.input = 0 then d.tl.now else r.inputEnd } }
  d.endRun b true false stOk true

/-- The period of a lane's clock: throttle halves the clock (R276). -/
def Dev.laneClk (d : Dev) : Nat := if d.hk.hot then 2 * clk else clk

/-- A vendor kernel takes its next input, all of X memory's without a tap, or ends with its output once the engine is through
with the last one (R287). -/
def Dev.vendorStep (d : Dev) (b : Nat) (r : Run) : Dev :=
  let l := d.lane b
  let n := kernelInputs r.kernel r.ops
  let take := fun k : Nat => { r with
    taken := r.taken + k
    busy := d.mono + d.laneClk * (kernelClocks r.kernel r.ops (r.taken + k) - kernelClocks r.kernel r.ops r.taken) }
  if r.taken ≥ n then
    let o := vendorOut r.kernel r.ops l.words
    (d.modLane b fun l => { l with out := o.1, run := some { r with sat := r.sat || o.2 } }).haltRun b
  else if r.input = 0 then
    d.modLane b fun l => { l with words := (l.x.range 0 0 n).map fun w => (w.toNat : Int), run := some (take n) }
  else match l.q with
    | [] => d
    | v :: vs =>
      d.modLane b fun l => { l with q := vs, words := l.words ++ [(v.1.toNat : Int)], run := some { take 1 with inputEnd := v.2 } }

/-- A customer kernel executes one instruction, which takes one clock (R276, R279); the NCO's phase is 0 at the run's first input unless LDF has set it
(R283). -/
def Dev.laneStep (d : Dev) (b : Nat) (r : Run) : Dev :=
  let l := d.lane b
  let pc := l.pc.toNat
  let err := fun (d : Dev) =>
    (d.modLane b fun l => { l with
      err := 1, run := l.run.map fun r => { r with ended := d.tl.now } }).endRun b false true stAborted true
  if pc < 1024 then err d
  else match l.exec (d.dsp.word pc) (d.dsp.word (pc + 1)) with
    | .waits => d
    | .errs => err d
    | .halts => d.haltRun b
    | .goesOn m next jumped sat =>
      let took := decide (m.q.length < l.q.length)
      let (m, next) := if jumped then (m, next) else m.loopEnd (next - 1) 2 next
      let last := match l.q with | v :: _ => if took then v.2 else r.inputEnd | [] => r.inputEnd
      if next < 1024 ∨ next > 2047 then err d
      else d.modLane b fun _ => { m with
        pc := BitVec.ofNat 11 next, theta := if took && r.taken == 0 && !m.thetaSet then 0 else m.theta
        run := some { r with busy := d.mono + d.laneClk, sat := r.sat || sat, taken := r.taken + bit took, inputEnd := last } }

/-- A lane executes, as soon as it is through with what it last did: one instruction of a customer kernel, one input of a vendor
kernel, or the vendor kernel's end (R276, R279, R287). -/
def execDspInstruction (t : Nat) (bank : BitVec 4) (s : State) : Host.Outcome State Fault Refusal :=
  onDev s fun d =>
    let b := bank.toNat
    match (d.lane b).run with
    | none => d
    | some r =>
      if !r.active then d
      else
        let d : Dev := d.advance t
        d.due (d.tl.now + (r.busy - d.mono)) fun d =>
          if r.kernel.toNat < 0x40 then d.vendorStep b r else d.laneStep b r

end Sys2Proof.Machine
end

