-- ==== Sys2Proof/Machine/Pins.lean ====
section
/-!
DEFINITION. The meanings of the pin channel commands and events (03_pin_channel.md).
-/
namespace Sys2Proof.Machine

/-! ### Checks -/

/-- The bits of a level word that are reserved are zero, and SPAN is defined (R65). -/
def wordGood (w : BitVec 32) : Bool := w.extractLsb' 14 1 == 0#1 && w.extractLsb' 18 14 == 0#14 && w.extractLsb' 16 2 != 3#2

/-- The channel as it would stand with level words written. -/
def Chan.withWords (c : Chan) (ws : List (Nat × BitVec 32)) : Chan :=
  ws.foldl (fun c x =>
    let p : PendLevel := { code := x.2.extractLsb' 0 14, park := x.2.getLsbD 15, span := x.2.extractLsb' 16 2 }
    c.modLevel x.1 fun v => { v with pend := some p }) c

/-- The swing rule of R60 for a channel in a drive mode. -/
def Dev.swingGood (d : Dev) (ch : Nat) (c : Chan) (mode : BitVec 2) (off : Bool) : Bool :=
  match d.ownerOf ch with
  | some t => !d.busySite ch || decide (c.shortest mode off ≤ (d.thread (d.leadOf t)).minPeriod)
  | none => true

/-- The clamp levels in force satisfy R63. -/
def Chan.clampsNow (c : Chan) : Bool :=
  let hi := c.level lvClampHi
  let lo := c.level lvClampLo
  !hi.park && !lo.park && decide (levelUnits hi.code hi.park hi.span - levelUnits lo.code lo.park lo.span ≥ 200 * 16383)

/-- What PIN.LEVELS checks on a channel (R60, R63, R67, R422). -/
def Dev.levelsCheck (d : Dev) (ws : List (Nat × BitVec 32)) (ch : Nat) : Option (BitVec 4 × Nat) :=
  let c := (d.chan ch).withWords ws
  firstOf [orFail (ws.any fun x => !x.2.getLsbD 15 && (d.chan ch).dacFail.getLsbD x.1) stDenied,
    orFail (decide ((c.level lvVol).futureUnits > (c.level lvVoh).futureUnits) || (c.clampEn && !clampsGood c) ||
    !d.swingGood ch c c.drvMode c.offMode) stBadarg]

/-! ### Commands (R88) -/

/-- PIN.LEVELS: level words reach the DACs of a channel set; complete when every level has taken effect or was replaced. -/
def execPinLevels (h : Hdr) (chs : BitVec 512) (mask : BitVec 7) (words : List (BitVec 32)) (s : State) :
    Host.Outcome State Fault Refusal :=
  hostCmd s h 0x0200 fun d =>
    let ws := (members mask).zip words
    if words.length ≠ (members mask).length ∨ ¬ (words.all wordGood) then d.refuse h.tag stBadarg 2
    else d.allOrNone h.tag (members chs) (d.levelsCheck ws) fun d =>
      let d : Dev := (d.accept h.tag).openJob
        { tag := h.tag, parts := (members chs).length * ws.length, mask := true }
      let d : Dev := (members chs).foldl (fun d ch => (ws.foldl (fun d x => d.writeLevel ch x.1 x.2 h.tag) d).notePend ch) d
      d.settleJob h.tag

/-- A driver setting on a channel, at once, or at the end of the vector that a running thread issues (R57, R83, R88). One that
waits there ends with the next one, whose setting takes its place (log entry 144). -/
def Dev.setDriver (d : Dev) (ch : Nat) (mode : BitVec 2) (off : Bool) (tag : Tag) : Dev :=
  let t := (d.ownerOf ch).map fun t => d.thread (d.leadOf t)
  match t.bind fun t => if t.st.running && t.inVector d.tl.now then t.vecEnd else none with
  | some e =>
    let old := (d.chan ch).drvPend
    let d : Dev := d.modChan ch fun c => { c with drvPend := some { mode := mode, off := off, tag := tag, stamp := e } }
    match old with | some o => d.endUnit o.tag ch | none => d
  | none => d.applyDriver ch mode off tag d.tl.now

/-- What PIN.DRIVER checks on a channel, but for a shut-down in progress (R60, R62, R75, R85,
R124). -/
def Dev.driverCheck (d : Dev) (mode : BitVec 2) (off : Bool) (ch : Nat) : Option (BitVec 4 × Nat) :=
  let c := d.chan ch
  firstOf [orFail (((mode != 0 || off) && !d.hk.pe) || (mode == 1 && c.noSlice)) stDenied, (c.driverClash mode off).map fun k => (stConflict, k),
    orFail (!d.swingGood ch c mode off) stBadarg, orFail ((mode != 0 || off) && d.inFullRun ch) stBusy]

/-- What PIN.LOAD checks on a channel (R62, R75, R85). -/
def Dev.loadCheck (d : Dev) (ch : Nat) : Option (BitVec 4 × Nat) :=
  firstOf [orFail (!d.hk.pe) stDenied, (d.chan ch).loadClash.map fun k => (stConflict, k), orFail (d.inFullRun ch) stBusy]

/-- What PMU.DRVI checks on a channel of which it enables the measurement (R85, R110, R112). -/
def Dev.drviCheck (d : Dev) (range : BitVec 3) (ch : Nat) : Option (BitVec 4 × Nat) :=
  let c := d.chan ch
  let p := c.pmu
  firstOf [orFail ((p.meas.isSome || p.wave.isSome) && !(p.drvi && p.drviRange == range)) stConflict 0x0D,
    c.drviClash.map fun k => (stConflict, k), orFail (range.toNat < 2 || decide (range.toNat > 4)) stBadarg,
    orFail (d.inFullRun ch) stBusy]

/-- The tag of a queued enable. -/
def QueuedPin.tag : QueuedPin → BitVec 12
  | .driver _ _ t => t
  | .load _ _ t => t
  | .drvi _ t => t

/-- Carry an enable out on a channel. -/
def Dev.runPin (d : Dev) (ch : Nat) (q : QueuedPin) : Dev :=
  match q with
  | .driver mode off tag => d.setDriver ch mode off tag
  | .load iol ioh tag => (d.modChan ch fun c => { c with loadEn := true, iol := iol, ioh := ioh }).endUnit tag ch
  | .drvi range tag => (d.modPmu ch fun p => { p with drvi := true, drviRange := range }).endUnit tag ch

/-- The check of an enable on a channel. -/
def Dev.checkPin (d : Dev) (q : QueuedPin) (ch : Nat) : Option (BitVec 4 × Nat) :=
  match q with
  | .driver mode off _ => d.driverCheck mode off ch
  | .load _ _ _ => d.loadCheck ch
  | .drvi range _ => d.drviCheck range ch

/-- An enable over a channel set: refused, QUEUED behind shut-downs still in progress, or carried out (R85 to R87). -/
def Dev.enablePins (d : Dev) (chs : BitVec 512) (q : QueuedPin) : Dev :=
  d.allOrNone q.tag (members chs) (d.checkPin q) fun d =>
    let d : Dev := (d.accept q.tag).openJob { tag := q.tag, left := chs }
    let wait := (members chs).filter fun ch => (d.chan ch).blocks q
    match wait with
    | [] => ((members chs).foldl (fun d ch => d.runPin ch q) d).settleJob q.tag
    | w :: _ =>
      (wait.foldl (fun d ch => d.modChan ch fun c => { c with queuedCmds := c.queuedCmds ++ [q] }) d).queued q.tag w

/-- PIN.DRIVER. -/
def execPinDriver (h : Hdr) (chs : BitVec 512) (mode : BitVec 2) (off : Bool) (s : State) :
    Host.Outcome State Fault Refusal :=
  hostCmd s h 0x0201 fun d =>
    if mode ≠ 0 ∨ off then d.enablePins chs (.driver mode off h.tag)
    else
      let d : Dev := (d.accept h.tag).openJob { tag := h.tag, left := chs }
      ((members chs).foldl (fun d ch => d.setDriver ch 0 false h.tag) d).settleJob h.tag

/-- PIN.LOAD. -/
def execPinLoad (h : Hdr) (chs : BitVec 512) (en : Bool) (iol ioh : BitVec 8) (s : State) :
    Host.Outcome State Fault Refusal :=
  hostCmd s h 0x0202 fun d =>
    if en then d.enablePins chs (.load iol ioh h.tag)
    else ((members chs).foldl (fun d ch => d.modChan ch fun c => { c with loadEn := false, iol := iol, ioh := ioh }) d).ok h.tag

/-- PIN.CLAMP. -/
def execPinClamp (h : Hdr) (chs : BitVec 512) (en : Bool) (s : State) : Host.Outcome State Fault Refusal :=
  hostCmd s h 0x0203 fun d =>
    d.allOrNone h.tag (members chs)
      (fun ch => if en then firstOf [orFail (!d.hk.pe) stDenied,
        orFail (!(d.chan ch).clampsNow || !clampsGood (d.chan ch)) stBadarg] else none)
      fun d => ((members chs).foldl (fun d ch => d.modChan ch fun c => { c with clampEn := en }) d).ok h.tag

/-- PIN.LIMIT: a ramp in progress goes on from the code applied now (R69). -/
def execPinLimit (h : Hdr) (chs : BitVec 512) (mask : BitVec 7) (step interval : BitVec 16) (s : State) :
    Host.Outcome State Fault Refusal :=
  hostCmd s h 0x0204 fun d =>
    if step = 0 ∨ step.toNat > 16383 then d.refuse h.tag stBadarg 2
    else
      ((members chs).foldl (fun d ch => d.modChan ch fun c => (members mask).foldl (fun c l => c.modLevel l fun v => { v with
        step := step.toNat, interval := interval.toNat, ramp := v.ramp.map fun _ => (clockOf d.tl.now : Int) }) c) d).ok h.tag

/-- Half of the hysteresis, in nV × 1,023 (R77). -/
def halfHyst (hyst : BitVec 2) : Int :=
  (if hyst = 0 then 0 else if hyst = 1 then 5000000 else if hyst = 2 then 15000000 else 50000000) * 1023

/-- A monitor threshold in nV × 1,023 (R77). -/
def monLevel (code : BitVec 10) : Int := -1500000000 * 1023 + code.toNat * 8000000000

/-- PIN.MON (R77 to R83). With the supplies absent, an enable is DENIED also where the monitor is enabled already, as those of
PIN.CLAMP and PIN.LOAD are (log entry 145). -/
def execPinMon (h : Hdr) (chs : BitVec 512) (en : Bool) (lo hi : BitVec 10) (hyst mode : BitVec 2) (n m : BitVec 4)
    (action : BitVec 2) (states : BitVec 3) (s : State) : Host.Outcome State Fault Refusal :=
  hostCmd s h 0x0205 fun d =>
    let bad := decide (monLevel hi - monLevel lo < 2 * halfHyst hyst) || decide (m = 0) || decide (2 * n.toNat ≤ m.toNat) ||
      decide (n > m) || decide (action = 3)
    d.allOrNone h.tag (members chs)
      (fun _ => firstOf [orFail (en && !d.hk.pe) stDenied, orFail bad stBadarg]) fun d =>
      ((members chs).foldl (fun d ch => d.modChan ch fun c =>
        let o := c.mon
        let again := o.en && (o.n != n || o.m != m || o.mode != mode)
        { c with mon := { o with
          en := en, starting := en && (o.starting || !o.en), next := if en && o.en then o.next else none, lo := lo, hi := hi, hyst := hyst, mode := mode, n := n, m := m
          action := action, states := states
          hist := if again then List.replicate m.toNat o.filt else o.hist
          outside := if again then List.replicate m.toNat false else o.outside } }) d).ok h.tag

/-- PIN.MON_READ: the suppressed-event counts clear (R88). While the supplies are absent the state reads UNRESOLVED
(R73). -/
def execPinMonRead (h : Hdr) (chs : BitVec 512) (s : State) : Host.Outcome State Fault Refusal :=
  hostCmd s h 0x0206 fun d =>
    let r := (members chs).flatMap fun ch =>
      let c := d.chan ch
      [(c.mon.filt.toNat : Int), rb (c.mon.unresolved || !d.hk.pe), rb c.tripped, (c.mon.suppressed : Int)]
    ((members chs).foldl (fun d ch => d.modChan ch fun c => { c with mon := { c.mon with suppressed := 0 } }) d).okResp h.tag r

/-- A level word (R65). -/
def levelWord (code : BitVec 14) (park : Bool) (span : BitVec 2) : Nat := packFields [(14, code.toNat), (1, 0), (1, bit park), (2, span.toNat)]

/-- PIN.STATE. -/
def execPinState (h : Hdr) (chs : BitVec 512) (s : State) : Host.Outcome State Fault Refusal :=
  hostCmd s h 0x0207 fun d =>
    d.okResp h.tag ((members chs).flatMap fun ch =>
      let c := d.chan ch
      [(c.drvMode.toNat : Int), rb c.offMode, rb c.loadEn, rb c.clampEn, rb c.mon.en] ++
      ((List.range 7).map fun l => (levelWord (c.level l).code (c.level l).park (c.level l).span : Int)) ++
      ((List.range 7).map fun l => match (c.level l).pend with
        | some p => (levelWord p.code p.park p.span : Int) | none => -1) ++
      ((List.range 7).flatMap fun l => [((c.level l).step : Int), ((c.level l).interval : Int)]) ++ [ro (d.ownerOf ch)])

/-- PIN.PARK (R76). -/
def execPinPark (h : Hdr) (chs : BitVec 512) (s : State) : Host.Outcome State Fault Refusal :=
  hostCmd s h 0x0208 fun d =>
    let d : Dev := (d.accept h.tag).openJob { tag := h.tag, left := chs }
    let d : Dev := (members chs).foldl (fun d ch => d.modChan ch fun c => { c with parkTags := c.parkTags ++ [h.tag] }) d
    let d : Dev := d.endClock ((members chs).filter fun ch => !(d.busySite ch))
    ((members chs).foldl (fun d ch => d.parkPin ch) d).settleJob h.tag

/-! ### Events -/

/-- A move of a level's ramp falls due (R69, R72). -/
def execLevelRampMove (ch : BitVec 9) (lvl : BitVec 3) (s : State) : Host.Outcome State Fault Refusal :=
  onDev s fun d =>
    let i := ch.toNat
    let l := lvl.toNat
    let v := (d.chan i).level l
    match v.ramp with
    | none => d
    | some t0 =>
      d.due (t0 + max 1 v.interval * clk : Int).toNat fun d =>
        let a := if v.interval = 0 then v.code.toNat else moveTo v.applied.toNat v.code.toNat v.step
        if a = v.code.toNat then
          let d : Dev := d.modChan i fun c => c.modLevel l fun v => { v with applied := v.code, ramp := none, rampTag := none }
          match v.rampTag with | some t => d.partDone t true l | none => d
        else d.modChan i fun c => c.modLevel l fun v => { v with
          applied := BitVec.ofNat 14 a, ramp := some (t0 + max 1 v.interval * clk) }

/-- Pending values take effect (R70, R88, R135): on a channel a driver setting at the end of its vector, or values in their
clock; on a site what has its clock, or everything, 2 sequencer clocks after the start of its dead time. Nothing that falls due
after stamp `t` is taken. What is accepted in a dead time after that point waits for the next one (log entry 146). -/
def execPendingValuesEffect (t : Nat) (unit : PendUnit) (s : State) : Host.Outcome State Fault Refusal :=
  onDev s fun d =>
    let due := fun (z : Nat) (f : Dev → Dev) => if z ≤ t then d.due z f else d
    match unit with
    | .channel ch =>
      let c := d.chan ch.toNat
      match c.drvPend, c.pendAt with
      | some p, _ => due p.stamp fun d => d.takeDriver ch.toNat
      | none, some a => due a fun d => d.takeChannel ch.toNat
      | none, none => d
    | .thread th =>
      let lead := d.leadOf th.toNat
      let x := d.thread lead
      let ms := (d.site lead).filter fun m => (d.thread m).pendAt.isSome
      let chs := (d.siteChans lead).filter fun ch => (d.chan ch).pendAt.isSome
      let take := fun (ms chs : List Nat) (d : Dev) => chs.foldl (fun d ch => d.takeChannel ch) (ms.foldl (fun d m => d.takePeriods m) d)
      match (ms.filterMap (fun m => (d.thread m).pendAt) ++ chs.filterMap fun ch => (d.chan ch).pendAt).max? with
      | some a => due a (take ms chs)
      | none =>
        if x.st = .dead ∧ d.tl.now ≤ x.deadEnd - 1792 then due (x.deadEnd - 1792) (take (d.site lead) (d.siteChans lead)) else d

/-- The comparators of a monitor after a sample, in nV × 1,023 (R77). -/
def Monitor.compare (m : Monitor) (v : Int) : Bool × Bool :=
  let out := fun (code : BitVec 10) (old : Bool) =>
    if v > monLevel code + halfHyst m.hyst then true else if v < monLevel code - halfHyst m.hyst then false else old
  (out m.lo m.aboveLo, out m.hi m.aboveHi)

/-- The input lies inside a hysteresis band (R81). -/
def Monitor.inBand (m : Monitor) (v : Int) : Bool :=
  [m.lo, m.hi].any fun c => decide (monLevel c - halfHyst m.hyst ≤ v ∧ v ≤ monLevel c + halfHyst m.hyst)

/-- Raw state of two comparator outputs (R78). -/
def rawState (a : Bool × Bool) : BitVec 2 := if !a.1 then 0 else if a.2 then 2 else 1

/-- The filtered state of a channel changes: event, log, action, trigger conditions (R83, R84). -/
def Dev.monitorChange (d : Dev) (ch : Nat) (new : BitVec 2) (resolved : Bool) : Dev :=
  let c := d.chan ch
  let m := c.mon
  let old := m.filt
  let quiet := m.lastEvent.any fun x => decide (d.mono < x + d.pins.holdoff * usSteps)
  let act := m.states.getLsbD new.toNat
  let trip := act && m.action == 1
  let d : Dev := d.modChan ch fun c => { c with
    tripped := c.tripped || trip
    mon := { c.mon with
      filt := new, suppressed := if quiet then c.mon.suppressed + 1 else c.mon.suppressed
      lastEvent := if quiet then c.mon.lastEvent else some d.mono } }
  let d : Dev := if quiet then d else
    d.post (32 * bankOf ch + 16 + ch % 32 / 2) 1 [((ch % 32 : Nat) : Int), (new.toNat : Int), (old.toNat : Int), rb resolved]
  let d : Dev := d.pushLog (d.logItem 7 (bankOf ch) [ch] [(ch : Int), (new.toNat : Int), (old.toNat : Int), rb resolved,
    rb (c.tripped || trip), 1])
  let d : Dev := forEach (List.range 8) (fun r d => d.raiseOn (bankOf ch) r d.tl.now fun w =>
    condKind w == 3 && bits w.toNat 4 5 == ch % 32 && w.toNat.testBit (9 + new.toNat)) d
  if act ∧ m.action = 2 then
    match d.ownerOf ch with | some t => d.reachCause t .request | none => d
  else d

/-- Sample period of a power mode in phase steps (R79). -/
def monPeriod (mode : BitVec 2) : Nat := if mode = 0 then 256 else if mode = 1 then 2048 else if mode = 2 then 20480 else 512000

/-- The monitor of a channel takes a sample at the present, in nanovolts (R77 to R83). When UNRESOLVED clears, the filtered state
becomes the raw state of the newest of the samples outside both bands (log entry 147). -/
def Dev.monitorTake (d : Dev) (i : Nat) (nv : Int) : Dev :=
  let m := (d.chan i).mon
  let d : Dev := d.modChan i fun c => { c with mon := { c.mon with next := some (d.mono + monPeriod m.mode) } }
  let v := nv * 1023
  let band := m.inBand v
  if m.starting then
    let a := if band then (false, false) else m.compare v
    let st : BitVec 2 := if band then 0 else rawState a
    d.modChan i fun c => { c with mon := { c.mon with
      starting := false, aboveLo := a.1, aboveHi := a.2, filt := st, unresolved := band
      hist := List.replicate m.m.toNat st, outside := List.replicate m.m.toNat false } }
  else
    let a := m.compare v
    let raw := rawState a
    let hist := (raw :: m.hist).take m.m.toNat
    let outside := ((!band) :: m.outside).take m.m.toNat
    let d : Dev := d.modChan i fun c => { c with mon := { c.mon with
      aboveLo := a.1, aboveHi := a.2, hist := hist, outside := outside } }
    if m.unresolved then
      if (outside.filter id).length ≥ m.n.toNat then
        let d : Dev := d.modChan i fun c => { c with mon := { c.mon with unresolved := false } }
        if raw ≠ 0 then d.monitorChange i raw true else d
      else d
    else if raw ≠ m.filt ∧ (hist.filter (· == raw)).length ≥ m.n.toNat then d.monitorChange i raw false
    else d

/-- A sample of a monitor comparator: the first one when it comes, the others one sample period apart (R77 to R83); without its
supplies it takes none. -/
def execMonitorSample (t : Nat) (ch : BitVec 9) (nv : Int) (s : State) : Host.Outcome State Fault Refusal :=
  onDev s fun d =>
    let m := (d.chan ch.toNat).mon
    if !m.en || !d.hk.pe then d
    else match m.next with
      | none => (d.advance t).monitorTake ch.toNat nv
      | some z => d.due (z - d.tl.base).toNat fun d => d.monitorTake ch.toNat nv

/-- A queued enable is carried out once no channel of its command waits behind a shut-down: it is checked again as the table
of R85 stands now (R86). -/
def Dev.releasePinCmd (d : Dev) (ch : Nat) (q : QueuedPin) : Dev :=
  let d : Dev := d.modChan ch fun c => { c with queuedCmds := c.queuedCmds.filter fun x => x != q }
  match d.job q.tag with
  | none => d
  | some j =>
    let set := members j.left
    if set.any fun i => (d.chan i).queuedCmds.contains q then d
    else match worstOf set (d.checkPin q) with
      | some (i, st, holder) =>
        (d.finish q.tag { status := st, a := BitVec.ofNat 16 i, c := BitVec.ofNat 8 holder }).dropJob q.tag
      | none => set.foldl (fun d i => d.runPin i q) d

/-- A shut-down on a channel has ended: what was QUEUED behind it is checked again and carried out (R86, R103). -/
def execQueuedEnableRelease (t : Nat) (ch : BitVec 9) (s : State) : Host.Outcome State Fault Refusal :=
  onDev s fun d =>
    let i := ch.toNat
    if (d.chan i).shutting then d
    else
      let d : Dev := d.advance t
      let d : Dev := (d.chan i).queuedCmds.foldl (fun d q => d.releasePinCmd i q) d
      (d.pmu i).queued.foldl (fun d c => d.releaseChange i c) d

end Sys2Proof.Machine
end

