-- ==== Sys2Proof/Machine/Pmus.lean ====
section
/-!
DEFINITION. The meanings of the per-pin PMU commands and events (04_pmu_and_force.md).
-/
namespace Sys2Proof.Machine

/-! ### Scheduled commands over a channel set -/

/-- A command over a set is accepted with a scheduled action at the granule of its when-block, or turned away (R50, R52). -/
def Dev.plan (d : Dev) (h : Hdr) (w : When) (set : BitVec 512) (k : ActKind) (g : Nat)
    (body : Dev → BitVec 16 → Nat → Dev) : Dev :=
  match d.schedule w g false with
  | .error st => d.refuseWhen h.tag st
  | .ok (epoch, stamp, late) =>
    let d : Dev := (d.accept h.tag).openJob { tag := h.tag, left := set, late := late }
    if set = 0 then d.settleJob h.tag
    else body (d.addAct { tag := h.tag, kind := k, epoch := epoch, stamp := stamp }) epoch stamp

/-- A scheduled action has been taken on one unit: it is gone once no unit of its command still waits for it. -/
def Dev.tookAct (d : Dev) (tag : Tag) (k : ActKind) (waits : Nat → Bool) (n : Nat) : Dev :=
  if (List.range n).any waits then d else d.dropAct tag k

/-- The item of a list with the earliest stamp, the first of equals. -/
def earliest {α : Type} (key : α → Nat) : List α → Option α
  | [] => none
  | a :: r => match earliest key r with
    | none => some a
    | some b => if key b < key a then some b else some a

/-- A change is planned on every channel of a set; one whose stamp is the present is QUEUED where a disconnect is in progress
(R101, R103). -/
def Dev.planChange (d : Dev) (h : Hdr) (w : When) (chs : BitVec 512) (c : PmuChange) : Dev :=
  d.plan h w chs .pmuSeq clk fun d epoch stamp =>
    let c := { c with tag := some h.tag, epoch := epoch, stamp := stamp }
    if epoch = d.tl.epoch ∧ stamp ≤ d.firstGranule clk ∧ c.conn ≠ some false ∧ (members chs).any fun ch => (d.chan ch).shutting then
      (d.dropAct h.tag .pmuSeq).enterChange (members chs) (clockOf stamp) h.tag c
    else (members chs).foldl (fun d ch => d.modPmu ch fun p => { p with sched := p.sched ++ [c] }) d

/-! ### Commands (R120) -/

/-- PMU.CONFIG (R91, R92, R101 to R104, R115, R119, R422). -/
def execPmuConfig (h : Hdr) (chs : BitVec 512) (w : When) (mode : BitVec 2) (range : BitVec 3) (lo hi : BitVec 16)
    (s : State) : Host.Outcome State Fault Refusal :=
  hostCmd s h 0x0300 fun d =>
    let bad := !rangeGood range || decide (hi.toNat < lo.toNat + 1639)
    let c : PmuChange := { mode := mode, range := range, lo := lo, hi := hi }
    d.allOrNone h.tag (members chs)
      (fun ch => firstOf [orFail (forcing mode && (d.chan ch).pmuFail) stDenied, d.changeCheck c ch, orFail bad stBadarg])
      fun d => d.planChange h w chs c

/-- PMU.CONNECT (R101 to R104, R119, R422). -/
def execPmuConnect (h : Hdr) (chs : BitVec 512) (w : When) (on : Bool) (s : State) : Host.Outcome State Fault Refusal :=
  hostCmd s h 0x0301 fun d =>
    d.allOrNone h.tag (members chs)
      (fun ch => firstOf [orFail (d.chan ch).swFail stDenied, d.changeCheck { conn := some on } ch, orFail (on && d.inFullRun ch) stBusy])
      fun d => d.planChange h w chs { conn := some on }

/-- PMU.FORCE (R93, R98). -/
def execPmuForce (h : Hdr) (chs : BitVec 512) (w : When) (word : BitVec 32) (s : State) : Host.Outcome State Fault Refusal :=
  hostCmd s h 0x0302 fun d =>
    if word.extractLsb' 17 15 ≠ 0 then d.refuse h.tag stBadarg 2
    else d.plan h w chs .pmuForce clk fun d _ stamp =>
      (members chs).foldl (fun d ch => d.modPmu ch fun p => { p with forceSched := p.forceSched ++ [(h.tag, word, stamp)] }) d

/-- PMU.LIMIT: a ramp in progress goes on at the new setting (R96). -/
def execPmuLimit (h : Hdr) (chs : BitVec 512) (step interval : BitVec 16) (s : State) : Host.Outcome State Fault Refusal :=
  hostCmd s h 0x0303 fun d =>
    if step = 0 then d.refuse h.tag stBadarg 1
    else
      ((members chs).foldl (fun d ch =>
        let d : Dev := d.modPmu ch fun p => { p with
          step := step.toNat, interval := interval.toNat, ramp := p.ramp.map fun _ => (clockOf d.tl.now : Int) }
        let p := d.pmu ch
        match p.seq with
        | some q =>
          let l := p.seqLimit d.fc.decaf.isSome
          let goal := if q.step = .a then safeOf p.forceMode else p.target p.mode
          if q.step = .a ∨ q.step = .e then
            d.modPmu ch fun p => { p with
              seq := some { q with ends := clockOf d.tl.now + rampTime (gap p.applied.toNat goal) l.1 l.2 } }
          else d
        | none => d) d).ok h.tag

/-- A capture ring takes the raw samples of a PMU.MEASURE on a channel (R109, R239). -/
def Dev.feedGood (d : Dev) (b r ch : Nat) : Bool :=
  let g : Ring := d.ring b r
  g.configured && g.src == 2 && g.ch.toNat == ch && b == bankOf ch &&
  match g.owner with
  | some .host => true
  | some (.thread t) => d.ownerOf ch == some t.toNat
  | none => false

/-- PMU.MEASURE (R107 to R112). -/
def execPmuMeasure (h : Hdr) (chs : BitVec 512) (w : When) (avg : BitVec 8) (count : BitVec 16) (dest : Bool)
    (bank : BitVec 4) (ring : BitVec 3) (s : State) : Host.Outcome State Fault Refusal :=
  hostCmd s h 0x0304 fun d =>
    let bad := decide (avg.toNat > 16) || decide (count = 0)
    d.allOrNone h.tag (members chs)
      (fun ch =>
        let p := d.pmu ch
        firstOf [orFail (p.meas.isSome || p.wave.isSome) stConflict 0x0D,
          orFail (bad || (!p.drvi && (!p.closed || p.mode == 0)) || (dest && !d.feedGood bank.toNat ring.toNat ch)) stBadarg])
      fun d => d.plan h w chs .measure clk fun d epoch stamp =>
        (members chs).foldl (fun d ch => d.modPmu ch fun p => { p with meas := some {
          tag := h.tag, start := stamp, k := avg.toNat, left := count.toNat, epoch := epoch
          ring := if dest then some (bank, ring) else none } }) d

/-- A waveform entry is valid (R113, R114). -/
def waveGood (e : BitVec 64) : Bool :=
  let dwell := bits e.toNat 16 24
  let k := bits e.toNat 40 5
  decide (dwell ≥ 400) && decide (k ≤ 16) && decide (e.toNat / 2 ^ 47 = 0) && (!e.getLsbD 45 || decide (2 ^ k * 400 ≤ dwell))

/-- Index of the LAST entry of a waveform from an index on, when every entry up to it is valid and lies in the table. -/
def Bank.waveLast (b : Bank) : Nat → Nat → Option Nat
  | 0, _ => none
  | n + 1, i =>
    let e := b.wave.get 0 i
    if i > 2047 ∨ ¬ waveGood e then none else if e.getLsbD 46 then some i else b.waveLast n (i + 1)

/-- An entry of a bank's table belongs to a waveform pending or running there (R117). -/
def Dev.waveLocked (d : Dev) (b i : Nat) : Bool :=
  (List.range 32).any fun k => (d.pmu (32 * b + k)).wave.any fun w =>
    decide (w.first ≤ i) && match (d.bank b).waveLast 2048 w.first with | some l => decide (i ≤ l) | none => false

/-- PMU.WAVE_LOAD (R113, R117). -/
def execPmuWaveLoad (h : Hdr) (bank : BitVec 4) (first : Nat) (entries : List (BitVec 64)) (s : State) :
    Host.Outcome State Fault Refusal :=
  hostCmd s h 0x0305 fun d =>
    let b := bank.toNat
    if first + entries.length > 2048 ∨ ¬ entries.all waveGood then d.refuse h.tag stBadarg (if first + entries.length > 2048 then 1 else 3)
    else match ((List.range entries.length).map (first + ·)).find? fun i => d.waveLocked b i with
      | some i => d.refuse h.tag stLocked i
      | none => (d.modBank b fun k => { k with wave := k.wave.fill 0 first entries }).ok h.tag

/-- PMU.WAVE_RUN (R115, R116). -/
def execPmuWaveRun (h : Hdr) (chs : BitVec 512) (start : Nat) (w : WaveStart) (s : State) :
    Host.Outcome State Fault Refusal :=
  hostCmd s h 0x0306 fun d =>
    let l := members chs
    let b := bankOf (l.headD 0)
    let seg := match w with | .segment _ => true | .stamp _ => false
    let bad := (l.any fun ch => bankOf ch != b) || ((d.bank b).waveLast 2048 start).isNone
    d.allOrNone h.tag l
      (fun ch =>
        let p := d.pmu ch
        firstOf [orFail (p.meas.isSome || p.wave.isSome || p.drvi) stConflict 0x0D,
          orFail (bad || !p.closed || !forcing p.mode || (seg && (d.ownerOf ch).isNone)) stBadarg])
      fun d => match w with
        | .stamp w => d.plan h w chs .wave clk fun d _ stamp =>
          l.foldl (fun d ch => d.modPmu ch fun p => { p with wave := some { tag := h.tag, first := start, idx := start, next := stamp } }) d
        | .segment sg =>
          let d : Dev := (d.accept h.tag).openJob { tag := h.tag, left := chs }
          (l.foldl (fun d ch => d.modPmu ch fun p => { p with
            wave := some { tag := h.tag, first := start, idx := start, bind := some sg } }) d).settleJob h.tag

/-- PMU.WAVE_STOP: the waveforms end at the next sequencer clock, and the DAC keeps the code applied (R118); a PMU.FORCE whose
ramp that ends completes REPLACED (log entry 149). -/
def execPmuWaveStop (h : Hdr) (chs : BitVec 512) (s : State) : Host.Outcome State Fault Refusal :=
  hostCmd s h 0x0307 fun d =>
    let l := (members chs).filter fun ch => (d.pmu ch).wave.isSome
    if l = [] then d.refuse h.tag stBadarg 0
    else
      let d : Dev := d.endClock l
      (l.foldl (fun d ch =>
        let ran := (d.pmu ch).wave.any (·.running)
        let tag := ((d.pmu ch).wave.map (·.tag)).getD 0
        let d : Dev := d.cutWave ch
        let d : Dev := d.tookAct tag .wave (fun i => (d.pmu i).wave.any fun w => w.tag == tag && !w.running) 512
        if ran && (d.pmu ch).seq.isNone then
          (d.pmuEnd (d.pmu ch).forceTag ch true).modPmu ch fun p => { p with
            ramp := none, forceTag := none, vTarget := if p.mode = 1 then p.applied else p.vTarget
            iTarget := if p.mode = 2 then p.applied else p.iTarget }
        else d) d).ok h.tag

/-- PMU.DRVI (R110, R112). -/
def execPmuDrvi (h : Hdr) (chs : BitVec 512) (en : Bool) (range : BitVec 3) (s : State) : Host.Outcome State Fault Refusal :=
  hostCmd s h 0x0308 fun d =>
    if en then d.enablePins chs (.drvi range h.tag)
    else d.allOrNone h.tag (members chs)
      (fun ch =>
        let p := d.pmu ch
        firstOf [orFail (p.drvi && (p.meas.isSome || p.wave.isSome)) stConflict 0x0D,
          orFail (range.toNat < 2 || decide (range.toNat > 4)) stBadarg])
      fun d => ((members chs).foldl (fun d ch => d.modPmu ch fun p => { p with drvi := false }) d).ok h.tag

/-- A step of a sequence in a response. -/
def SeqStep.code : SeqStep → Int
  | .a => 1
  | .b => 2
  | .c => 3
  | .d => 4
  | .e => 5

/-- PMU.STATE. -/
def execPmuState (h : Hdr) (chs : BitVec 512) (s : State) : Host.Outcome State Fault Refusal :=
  hostCmd s h 0x0309 fun d =>
    d.okResp h.tag ((members chs).flatMap fun ch =>
      let p := d.pmu ch
      [(p.mode.toNat : Int), (p.range.toNat : Int), (p.vTarget.toNat : Int), (p.iTarget.toNat : Int), (p.applied.toNat : Int),
       (p.step : Int), (p.interval : Int), (p.lo.toNat : Int), (p.hi.toNat : Int), rb p.second, rb p.closed,
       (match p.seq with | some q => q.step.code | none => 0),
       (if p.drvi then 3 else if p.wave.isSome then 2 else if p.meas.isSome then 1 else 0),
       (match p.wave with | some w => (w.idx : Int) | none => -1)])

/-! ### Events -/

/-- A planned change reaches its effect stamp (R101 to R104), on all channels of its command: it is checked once more against
what holds them then. -/
def execPmuSequenceStart (ch : BitVec 9) (s : State) : Host.Outcome State Fault Refusal :=
  onDev s fun d =>
    let i := ch.toNat
    match earliest (·.stamp) ((d.pmu i).sched.filter fun c => c.epoch == d.tl.epoch) with
    | none => d
    | some c =>
      d.due c.stamp fun d =>
        let set := (List.range 512).filter fun k => (d.pmu k).sched.contains c
        let d : Dev := set.foldl (fun d k => d.modPmu k fun p => { p with sched := p.sched.erase c }) d
        match c.tag with
        | some t => (d.dropAct t .pmuSeq).enterChange set (clockOf c.stamp) t c
        | none => d

/-- The step of the sequence in progress ends (R99, R102). -/
def execPmuSequenceStepEnd (ch : BitVec 9) (s : State) : Host.Outcome State Fault Refusal :=
  onDev s fun d =>
    let i := ch.toNat
    match (d.pmu i).seq with
    | none => d
    | some q =>
      d.due q.ends fun d =>
        match q.step with
        | .a =>
          (d.modPmu i fun p => { p with applied := BitVec.ofNat 16 (safeOf p.forceMode), ramp := none }).enterB i q.ends
        | .b => d.enterC i q.ends
        | .c => if q.change.conn = some false then d.endDisconnect i else (d.switchOver i).enterD i q.ends
        | .d => d.leaveD i q.ends
        | .e => d.endSeq i

/-- A move of a force ramp falls due (R96, R97). -/
def execForceRampMove (ch : BitVec 9) (s : State) : Host.Outcome State Fault Refusal :=
  onDev s fun d =>
    let i := ch.toNat
    let p := d.pmu i
    match p.ramp with
    | none => d
    | some t0 =>
      let l := if p.seq.isSome then p.seqLimit d.fc.decaf.isSome else (p.step, p.interval)
      let goal := match p.seq with
        | some q => if q.step = .a then safeOf p.forceMode else p.target p.mode
        | none => p.target p.mode
      d.due (t0 + max 1 l.2 * clk : Int).toNat fun d =>
        let a := if l.2 = 0 then goal else moveTo p.applied.toNat goal l.1
        let d : Dev := d.modPmu i fun p => { p with
          applied := BitVec.ofNat 16 a, ramp := if a = goal then none else some (t0 + max 1 l.2 * clk) }
        if a = goal ∧ p.seq = none then
          (d.modPmu i fun p => { p with forceTag := none }).pmuEnd p.forceTag i
        else d

/-- A target of the channel takes a new code (R94). -/
def Pmu.setTarget (p : Pmu) (word : BitVec 32) : Pmu :=
  if word.getLsbD 16 then { p with iTarget := word.extractLsb' 0 16 } else { p with vTarget := word.extractLsb' 0 16 }

/-- A ramp starts, or is retargeted, at a stamp; at the target already, it is over (R96, R98). The one move of a bypassed limiter
counts as a ramp in progress until it is made, also where it leaves the code as it is (R111, log entry 151). -/
def Dev.startForce (d : Dev) (i t : Nat) (tag : Option Tag) : Dev :=
  let d : Dev := d.pmuEnd (d.pmu i).forceTag i true
  let p := d.pmu i
  if p.applied.toNat = p.target p.mode ∧ p.interval > 0 then
    (d.modPmu i fun p => { p with ramp := none, forceTag := none }).pmuEnd tag i
  else d.modPmu i fun p => { p with
    ramp := some (clockOf t), forceTag := tag, meas := p.meas.map fun m => { m with slewing := true } }

/-- A PMU.FORCE reaches its effect stamp (R98, R102). -/
def execPmuForceEffect (ch : BitVec 9) (s : State) : Host.Outcome State Fault Refusal :=
  onDev s fun d =>
    let i := ch.toNat
    match earliest (fun f => f.2.2) ((d.pmu i).forceSched.filter fun f =>
        !(d.act f.1 .pmuForce).any fun a => a.epoch != d.tl.epoch) with
    | none => d
    | some f =>
      d.due f.2.2 fun d =>
        let d : Dev := d.modPmu i fun p => { p with forceSched := p.forceSched.erase f }
        let d : Dev := d.tookAct f.1 .pmuForce (fun k => (d.pmu k).forceSched.any fun x => x.1 == f.1) 512
        let kind : BitVec 2 := if f.2.1.getLsbD 16 then 2 else 1
        let p := d.pmu i
        let d : Dev := d.modPmu i fun p => p.setTarget f.2.1
        match p.seq with
        | none => if p.mode = kind then d.startForce i f.2.2 (some f.1) else d.pmuEnd (some f.1) i true
        | some q =>
          if q.change.conn = some false ∨ p.futureMode ≠ kind then d.pmuEnd (some f.1) i true
          else
            let d : Dev := (d.pmuEnd p.forceTag i true).modPmu i fun p => { p with forceTag := some f.1 }
            if q.step = .e then d.enterE i (clockOf f.2.2) else d

/-- A measurement takes its first sample (R108, R114). -/
def execPmuMeasureStart (ch : BitVec 9) (s : State) : Host.Outcome State Fault Refusal :=
  onDev s fun d =>
    let i := ch.toNat
    match (d.pmu i).meas with
    | none => d
    | some m =>
      if m.began ∨ m.epoch ≠ d.tl.epoch then d
      else d.due m.start fun d =>
        let d : Dev := d.modPmu i fun p => { p with meas := some { m with
          began := true, first := m.start, tq := d.tl.tq, range := if p.drvi then p.drviRange else p.range
          mode := if p.drvi then 0 else p.mode, ranging := p.seq.isSome
          slewing := p.ramp.isSome } }
        if m.wave then d
        else d.tookAct m.tag .measure (fun k => (d.pmu k).meas.any fun x => x.tag == m.tag && !x.wave && !x.began) 512

/-- The conversion of an ADC sample ends (R106 to R111): `smp` is the sample, `ovr` and `compliance` what the stage saw. -/
def execPmuAdcSample (ch : BitVec 9) (smp : Int) (ovr compliance : Bool) (s : State) : Host.Outcome State Fault Refusal :=
  onDev s fun d =>
    let i := ch.toNat
    match (d.pmu i).meas with
    | none => d
    | some m0 =>
      if !m0.began then d
      else d.due (m0.start + 400 * clk) fun d =>
        let v := clip 16 smp
        let p := d.pmu i
        let m := { m0 with
          start := m0.start + 400 * clk, n := m0.n + 1, acc := m0.acc + v, tq := m0.tq ||| d.tl.tq
          ovr := m0.ovr || ovr || decide (v = 32767) || decide (v = -32768), comp := m0.comp || compliance
          ranging := m0.ranging || p.seq.isSome, slewing := m0.slewing || p.ramp.isSome }
        let d : Dev := d.modPmu i fun p => { p with meas := some m }
        let d : Dev := match m.ring with
          | some (b, r) => d.sample b.toNat r.toNat m0.start (400 * clk) v false [] m.tq
          | none => d
        if m.n < 2 ^ m.k then d
        else
          let d : Dev := if m.ring = none then d.pmuResult i m m.n false false else d
          if m.left ≤ 1 then
            let d : Dev := (d.endFeed m).modPmu i fun p => { p with meas := none }
            if m.wave then d else d.endUnit m.tag i
          else d.modPmu i fun p => { p with meas := some { m with
            left := m.left - 1, n := 0, acc := 0, ovr := false, comp := false, ranging := p.seq.isSome
            slewing := p.ramp.isSome, tq := d.tl.tq, first := m.start, epoch := d.tl.epoch
            range := if p.drvi then p.drviRange else p.range, mode := if p.drvi then 0 else p.mode } }

/-- An entry of a waveform starts at a stamp (R114). -/
def Dev.playEntry (d : Dev) (i idx t : Nat) (w : Wave) : Dev :=
  let e := (d.bank (bankOf i)).wave.get 0 idx
  let code := e.extractLsb' 0 16
  let dwell := bits e.toNat 16 24
  let k := bits e.toNat 40 5
  let d : Dev := d.modPmu i fun p => { p with
    wave := some { w with running := true, idx := idx, next := t + dwell * clk }
    vTarget := if p.mode = 1 then code else p.vTarget, iTarget := if p.mode = 2 then code else p.iTarget
    meas := if e.getLsbD 45 then some {
        tag := w.tag, wave := true, start := t + (dwell - 2 ^ k * 400) * clk, k := k, epoch := d.tl.epoch, index := idx }
      else p.meas }
  if (d.pmu i).seq = none then d.startForce i t none else d

/-- A waveform starts, goes on to its next entry, or ends with its LAST one (R114, R116). -/
def execWaveStepStart (ch : BitVec 9) (s : State) : Host.Outcome State Fault Refusal :=
  onDev s fun d =>
    let i := ch.toNat
    match (d.pmu i).wave with
    | none => d
    | some w =>
      if w.bind.isSome ∨ (d.pmu i).meas.any (·.wave) ∨ d.tl.acts.any (fun a => a.tag == w.tag && a.kind == .wave && a.epoch != d.tl.epoch) then d
      else d.due w.next fun d =>
        if !w.running then
          let d : Dev := d.playEntry i w.first w.next w
          d.tookAct w.tag .wave (fun k => (d.pmu k).wave.any fun x => x.tag == w.tag && !x.running) 512
        else if ((d.bank (bankOf i)).wave.get 0 w.idx).getLsbD 46 then
          (d.modPmu i fun p => { p with wave := none }).endUnit w.tag i
        else d.playEntry i (w.idx + 1) w.next w

end Sys2Proof.Machine
end

