-- ==== Sys2Proof/Machine/Island.lean ====
section
/-!
DEFINITION. The meanings of the Metrology Island's commands and events (11_metrology_island.md).
-/
namespace Sys2Proof.Machine

/-! ### What turns an island command away (R308) -/

/-- A command of the island that needs its firmware. -/
def Dev.miCommand (d : Dev) (h : Hdr) (body : Dev → Dev) : Dev :=
  if d.mi.started && d.mi.verified then body d else d.refuse h.tag stDenied

/-- A disconnect is in progress on an MU (R86, R301). -/
def Mu.shutting (m : Mu) : Bool := m.seq.any fun s => s.change.conn == some false

/-- An MU is connected, or a connect of it is in progress or planned. -/
def Mu.joined (m : Mu) : Bool :=
  (m.closed || m.seq.any (fun s => s.change.conn == some true) || m.sched.any fun c => c.conn == some true) && !m.shutting

/-- The range that an MU will stand in once what is planned on it has taken effect. -/
def Mu.nextRange (m : Mu) : BitVec 3 :=
  match (m.sched.filter fun c => c.conn.isNone).getLast? with
  | some c => c.irange
  | none => m.future.irange

/-- Full scales of the large ranges of the connected MUs, in milliampere, with a range or a connection changed on a set
(R297). -/
def Dev.budget (d : Dev) (set : BitVec 16) (range : Option (BitVec 3)) (joins : Bool) : Nat :=
  ((List.range 16).map fun u =>
    let m := d.mu u
    let on := m.joined || (joins && set.getLsbD u)
    let r := if set.getLsbD u then range.getD m.nextRange else m.nextRange
    if on then bigScale r else 0).sum

/-- A change of the connected MUs exceeds 512 mA (R297). -/
def Dev.overBudget (d : Dev) (set : BitVec 16) (range : Option (BitVec 3)) (joins : Bool) : Bool :=
  let before := d.budget 0 none false
  let after := d.budget set range joins
  decide (after > 512) && decide (after > before)

/-- A change is planned on every MU of a set; where a disconnect is in progress now, it is QUEUED (R301). -/
def Dev.planMu (d : Dev) (h : Hdr) (w : When) (mus : BitVec 16) (c : MuChange) : Dev :=
  d.plan h w (mus.setWidth 512) .miConfig grainSteps fun d epoch stamp =>
    let c := { c with tag := some h.tag, epoch := epoch, stamp := stamp }
    let now := decide (epoch = d.tl.epoch ∧ stamp ≤ d.firstGranule grainSteps) && c.conn != some false
    let wait := fun (u : Nat) => now && (d.mu u).shutting
    let d' : Dev := (members mus).foldl (fun d' u =>
      if wait u then d'.modMu u fun m => { m with queued := m.queued ++ [c] }
      else d'.modMu u fun m => { m with sched := m.sched ++ [c] }) d
    match (members mus).filter wait with
    | [] => d'
    | u :: _ => (d'.queued h.tag u).tookAct h.tag .miConfig (fun i => (d'.mu i).sched.any fun c => c.tag == some h.tag) 16

/-! ### Commands of the Metrology Units (R319) -/

/-- MI.CONFIG (R293 to R297, R301). -/
def execMiConfig (h : Hdr) (mus : BitVec 16) (w : When) (mode : BitVec 2) (irange : BitVec 3) (vrange : Bool)
    (ilim lo hi : BitVec 32) (s : State) : Host.Outcome State Fault Refusal :=
  hostCmd s h 0x0A00 fun d => d.miCommand h fun d =>
    let code := fun (v : BitVec 32) => decide (65536 ≤ v.toNat ∧ v.toNat ≤ 753664)
    match worst [failAt (d.overBudget mus (some irange) false) stConflict ((members mus).headD 0) 0x0E,
        badArgs [(5, decide (ilim.toNat < 655 ∨ ilim.toNat > 68813)), (6, !code lo),
          (7, !code hi || decide (hi.toNat < lo.toNat + 16384))]] with
    | some (st, a, k) => d.refuse h.tag st a 0 k
    | none => d.planMu h w mus { mode := mode, irange := irange, vrange := vrange, ilim := ilim.toNat, lo := lo.toNat, hi := hi.toNat }

/-- MI.CONNECT (R297, R299, R301). -/
def execMiConnect (h : Hdr) (mus : BitVec 16) (w : When) (on : Bool) (s : State) : Host.Outcome State Fault Refusal :=
  hostCmd s h 0x0A01 fun d => d.miCommand h fun d =>
    let dark := d.hk.supplyOut.getLsbD 6 || d.hk.supplyOut.getLsbD 7
    match firstOf [orFail (on && dark) stDenied, orFail (on && d.overBudget mus none true) stConflict 0x0E] with
    | some (st, k) => d.refuse h.tag st ((members mus).headD 0) 0 k
    | none => d.planMu h w mus { conn := some on }

/-- A force word has a reserved bit, or a voltage code outside the accepted ones (R295). -/
def muWordBad (word : BitVec 32) : Bool :=
  let code := bits word.toNat 0 20
  decide (word.toNat ≥ 2 ^ 21) || (!word.getLsbD 20 && decide (code < 65536 ∨ code > 753664))

/-- MI.FORCE (R295, R301). -/
def execMiForce (h : Hdr) (mus : BitVec 16) (w : When) (word : BitVec 32) (s : State) : Host.Outcome State Fault Refusal :=
  hostCmd s h 0x0A02 fun d => d.miCommand h fun d =>
    if muWordBad word then d.refuse h.tag stBadarg 2
    else d.plan h w (mus.setWidth 512) .miForce grainSteps fun d _ stamp =>
      (members mus).foldl (fun d u => d.modMu u fun m => { m with forceSched := m.forceSched ++ [(h.tag, word, stamp)] }) d

/-- MI.LIMIT: a ramp in progress goes on at the new setting (R69, R299). -/
def execMiLimit (h : Hdr) (mus : BitVec 16) (step interval : BitVec 32) (s : State) : Host.Outcome State Fault Refusal :=
  hostCmd s h 0x0A03 fun d => d.miCommand h fun d =>
    match badArg [(1, decide (step = 0 ∨ step.toNat > 1048575)), (2, decide (interval.toNat > 65535))] with
    | some a => d.refuse h.tag stBadarg a
    | none =>
      ((members mus).foldl (fun d u =>
        let now := d.tl.now / grainSteps * grainSteps
        let d : Dev := d.modMu u fun m => { m with
          step := step.toNat, interval := interval.toNat, ramp := m.ramp.map fun _ => (now : Int) }
        let m := d.mu u
        match m.seq with
        | some q =>
          let l := m.seqLimit d.fc.decaf.isSome
          let goal := if q.step = .a then muSafe m.forceMode else m.target m.mode
          if q.step = .a ∨ q.step = .e then
            d.modMu u fun m => { m with seq := some { q with ends := now + muRampTime (gap m.applied goal) l.1 l.2 } }
          else d
        | none => d) d).ok h.tag

/-- What turns a measurement away from an MU (R42, R293, R303). -/
def Dev.muTurnsAway (d : Dev) (voltage : Bool) (u : Nat) : Option (BitVec 4 × Nat) :=
  let m := d.mu u
  firstOf [orFail m.meas.isSome stConflict 0x0E,
    orFail (decide (m.future.mode = 0) || (!voltage && decide (m.future.mode = 3))) stBadarg, orFail d.tl.rewind.isSome stBusy]

/-- MI.MEASURE (R42, R293, R302, R303). -/
def execMiMeasure (h : Hdr) (mus : BitVec 16) (w : When) (voltage : Bool) (n : BitVec 32) (count : BitVec 16) (s : State) :
    Host.Outcome State Fault Refusal :=
  hostCmd s h 0x0A04 fun d => d.miCommand h fun d =>
    let bad := decide (n.toNat < 1 ∨ n.toNat > 16777216) || decide (count = 0)
    d.allOrNone h.tag (members mus)
      (fun u => firstOf [orFail (d.mu u).meas.isSome stConflict 0x0E, orFail bad stBadarg, d.muTurnsAway voltage u])
      fun d => d.plan h w (mus.setWidth 512) .miMeasure grainSteps fun d epoch stamp =>
        (members mus).foldl (fun d u => d.modMu u fun m => { m with meas := some {
          tag := h.tag, volt := voltage, n := n.toNat, left := count.toNat, start := stamp, epoch := epoch } }) d

/-- MI.STOP. -/
def execMiStop (h : Hdr) (mus : BitVec 16) (s : State) : Host.Outcome State Fault Refusal :=
  hostCmd s h 0x0A05 fun d => d.miCommand h fun d =>
    ((members mus).foldl (fun d u => d.cutMu u true) d).ok h.tag

/-- MI.PARK: SAFE is asserted, and it completes when every output is open (R306, R307). -/
def execMiPark (h : Hdr) (s : State) : Host.Outcome State Fault Refusal :=
  hostCmd s h 0x0A06 fun d => d.miCommand h fun d =>
    let d : Dev := d.accept h.tag
    let d : Dev := { d with mi := { d.mi with parkTags := d.mi.parkTags ++ [h.tag] } }
    d.assertSafe.muParkDone

/-- MI.STATE. -/
def execMiState (h : Hdr) (mus : BitVec 16) (s : State) : Host.Outcome State Fault Refusal :=
  hostCmd s h 0x0A07 fun d =>
    if !d.mi.started then d.refuse h.tag stDenied
    else d.okResp h.tag ((members mus).flatMap fun u =>
      let m := d.mu u
      [(m.mode.toNat : Int), (m.irange.toNat : Int), rb m.vrange, (m.vTarget : Int), (m.iTarget : Int), (m.applied : Int),
       (match m.seq with | some q => q.step.code | none => 0), ro (m.meas.map fun x => x.tag.toNat), rb m.closed])

/-! ### The seal (R309 to R317) -/

/-- SEAL_SEQ of the record in force; 0 when none. -/
def Island.seq (i : Island) : Nat := match i.record with | some r => sealSeq r | none => 0

/-- The digest over an image and a set. -/
def digestOf (image cal : Bytes) : BitVec 256 := Config.sha3 (image ++ cal)

/-- MI.SEAL_STATE. -/
def execMiSealState (h : Hdr) (s : State) : Host.Outcome State Fault Refusal :=
  hostCmd s h 0x0A08 fun d =>
    let i := d.mi
    let c := sealCert (i.record.getD [])
    if !i.started then d.refuse h.tag stDenied
    else d.okResp h.tag [rb i.sealedOk, (i.reason.toNat : Int), (i.seq : Int), (certLab c : Int), (certGen c : Int),
      (i.digest.toNat : Int), (i.fwVersion.toNat : Int), (((i.cal.map calVersion).getD 0 : Nat) : Int)]

/-- MI.CHALLENGE: a fresh nonce replaces the valid one (R314). -/
def execMiChallenge (h : Hdr) (s : State) : Host.Outcome State Fault Refusal :=
  hostCmd s h 0x0A09 fun d => d.miCommand h fun d =>
    let (x, d) := d.fresh
    let n := BitVec.ofNat 128 x
    let d : Dev := { d with mi := { d.mi with nonce := some n } }
    d.okResp h.tag [(n.toNat : Int)]

/-- The conditions of R314 on a seal record. -/
def Dev.sealAllowed (d : Dev) (r : Bytes) (kind bitNo : Nat) (digest : Option (BitVec 256)) : Bool :=
  sealForm r && decide (sealKind r = kind) && d.mi.nonce.any (fun n => decide (n.toNat = sealNonce r)) &&
  decide (sealSeq r = d.mi.seq + 1) && decide (Config.sha3 d.rootKey = Config.rootHash) && d.certGood (sealCert r) &&
  sealSigned r && (certUsage (sealCert r)).testBit bitNo &&
  (match digest with | some v => decide (sealDigest r = v.toNat) | none => true)

/-- A refused attempt consumes the nonce and is logged (R314, R316). -/
def Dev.sealRefused (d : Dev) (h : Hdr) (r : Bytes) : Dev :=
  let p := prefix128 d.mi.digest
  let d : Dev := d.sealLog 3 r d.mi.reason.toNat p p false
  ({ d with mi := { d.mi with nonce := none } } : Dev).refuse h.tag stDenied

/-- The slot that a new record takes: the one with the lower SEAL_SEQ, an empty one before any (R315). -/
def lowerSlot (slots : List (Bytes × Bytes)) : Nat :=
  let seq := fun (i : Nat) => match slots[i]? with
    | some x => if sealForm x.1 then sealSeq x.1 + 1 else 0
    | none => 0
  if seq 0 ≤ seq 1 then 0 else 1

/-- A record goes into a slot, with a new set or beside the one that stands there. -/
def Dev.writeSeal (d : Dev) (r : Bytes) (cal : Option Bytes) : Dev :=
  let slots := [d.board.seals.getD 0 ([], []), d.board.seals.getD 1 ([], [])]
  let k := lowerSlot slots
  let old := (slots.getD k ([], [])).2
  { d with board := { d.board with seals := slots.set k (r, cal.getD old) } }

/-- MI.SEAL_RENEW (R314 to R316). -/
def execMiSealRenew (h : Hdr) (record cal : Bytes) (answer : FlashAnswer) (s : State) : Host.Outcome State Fault Refusal :=
  hostCmd s h 0x0A0A fun d => d.miCommand h fun d =>
    let dg := digestOf d.mi.image cal
    if !calGood cal || !d.sealAllowed record 1 0 (some dg) then d.sealRefused h record
    else if (List.range 16).any fun u => (d.mu u).closed || (d.mu u).seq.isSome then d.refuse h.tag stBusy
    else
      let d : Dev := { d.accept h.tag with mi := { d.mi with nonce := none } }
      if answer ≠ .done then d.finish h.tag { status := stFault, b := if answer = .differs then 3 else 4 }
      else
        let old := prefix128 d.mi.digest
        let d : Dev := (d.writeSeal record (some cal)).advance (roundUp d.tl.now grainSteps)
        let d : Dev := { d with mi := { d.mi with
          cal := some cal, digest := dg, record := some record, sealedOk := true, reason := 0 } }
        (d.sealLog 1 record 0 old (prefix128 dg) true).finish h.tag { resp := [(prefix128 dg : Int)] }

/-- MI.SEAL_BREAK (R314 to R316). -/
def execMiSealBreak (h : Hdr) (record : Bytes) (answer : FlashAnswer) (s : State) : Host.Outcome State Fault Refusal :=
  hostCmd s h 0x0A0B fun d => d.miCommand h fun d =>
    if !d.sealAllowed record 2 1 none then d.sealRefused h record
    else if (List.range 16).any fun u => (d.mu u).meas.isSome then d.refuse h.tag stBusy
    else
      let d : Dev := { d.accept h.tag with mi := { d.mi with nonce := none } }
      if answer ≠ .done then d.finish h.tag { status := stFault, b := if answer = .differs then 3 else 4 }
      else
        let p := prefix128 d.mi.digest
        let d : Dev := (d.writeSeal record none).advance (roundUp d.tl.now grainSteps)
        let d : Dev := { d with mi := { d.mi with record := some record, sealedOk := false, reason := 6 } }
        (d.sealLog 2 record 6 p p true).finish h.tag { resp := [(p : Int)] }

/-- MI.CAL_LOAD (R317). -/
def execMiCalLoad (h : Hdr) (cal : Bytes) (s : State) : Host.Outcome State Fault Refusal :=
  hostCmd s h 0x0A0C fun d => d.miCommand h fun d =>
    if d.mi.sealedOk ∨ (d.mi.reason ≠ 6 ∧ d.mi.reason ≠ 7) then d.refuse h.tag stDenied
    else if !calGood cal then d.refuse h.tag stBadarg 0
    else if (List.range 16).any fun u => (d.mu u).closed || (d.mu u).seq.isSome then d.refuse h.tag stBusy
    else
      let dg := digestOf d.mi.image cal
      let d : Dev := { d with mi := { d.mi with cal := some cal, digest := dg } }
      d.okResp h.tag [(prefix128 dg : Int)]

/-! ### The island as a whole (R305 to R313) -/

/-- MI.RESET: it completes when the island is ready again. -/
def execMiReset (h : Hdr) (s : State) : Host.Outcome State Fault Refusal :=
  hostCmd s h 0x0A0D fun d =>
    if !d.mi.started then d.refuse h.tag stDenied
    else
      let d : Dev := (d.accept h.tag).islandReset
      { d with mi := { d.mi with resetTag := some h.tag } }

/-- What the checks of R312 give over the two slots: the record in force and the reason. -/
def Dev.sealVerdict (d : Dev) (slots : List (Bytes × Bytes)) (cal : Option Bytes) (dg : BitVec 256) : Option Bytes × Nat :=
  let rs := (slots.map fun x => x.1).filter sealForm
  let cs := rs.filter fun r => d.certGood (sealCert r) && usagePermits r
  let vs := cs.filter sealSigned
  let root := decide (Config.sha3 d.rootKey = Config.rootHash)
  let best := if root then vs.foldl (fun m r => match m with
    | some x => if sealSeq x < sealSeq r then some r else some x
    | none => some r) none else none
  let reason :=
    if cal.isNone then 7
    else if !root then 2
    else if rs = [] then 1
    else if cs = [] then 3
    else match best with
      | none => 4
      | some r => if sealKind r = 2 then 6 else if sealDigest r = dg.toNat then 0 else 5
  (best, reason)

/-- The set that a start loads: that of the slot with the highest SEAL_SEQ among the slots whose set is well formed. -/
def slotCal (slots : List (Bytes × Bytes)) : Option Bytes :=
  ((slots.filter fun x => calGood x.2).foldl (fun (m : Option (Bytes × Bytes)) x => match m with
    | some y => if sealSeq y.1 < sealSeq x.1 then some x else some y
    | none => some x) none).map fun x => x.2

/-- The island starts with the image that CC1 sends (R308, R312, R316): a signature of 2,420 bytes stands at its end. -/
def Dev.startIsland (d : Dev) (image : Bytes) : Dev :=
  let n := image.length - 2420
  let good := decide (image.length > 2420) && Config.mlDsa Config.islandKey (image.take n) (image.drop n)
  if !good then
    let d : Dev := { d with mi := { d.mi with started := true, ready := false, verified := false } }
    match d.mi.resetTag with
    | some t => ({ d with mi := { d.mi with resetTag := none } } : Dev).finish t { status := stFault, b := 3 }
    | none => d
  else
    let cal := slotCal d.board.seals
    let dg := digestOf image (cal.getD [])
    let v := d.sealVerdict d.board.seals cal dg
    let d : Dev := { d with mi := { d.mi with
      started := true, ready := true, refAt := d.mono, verified := true, image := image, fwVersion := Config.islandVersion image, cal := cal
      digest := dg, record := v.1, reason := BitVec.ofNat 4 v.2, sealedOk := decide (v.2 = 0) } }
    let d : Dev := d.sealLog 4 (v.1.getD []) v.2 0 (prefix128 dg) false
    match d.mi.resetTag with
    | some t => ({ d with mi := { d.mi with resetTag := none } } : Dev).finish t {}
    | none => d

/-- ISLAND_START. -/
def execIslandStart (t : Nat) (image : Bytes) (s : State) : Host.Outcome State Fault Refusal :=
  onDev s fun d => if d.mi.started then d else (d.advance t).startIsland image

/-- VDD_MI is lost: the island resets (R305, R307). -/
def execIslandPowerLoss (t : Nat) (s : State) : Host.Outcome State Fault Refusal :=
  onDev s fun d => (d.advance t).islandReset

/-- A reference check, at the island's start and then once in 10 s (R304, R313): more than 20 ppm from the recorded value sets REF_DRIFT. -/
def execIslandRefCheck (t : Nat) (reference : Nat) (temp : Int) (s : State) : Host.Outcome State Fault Refusal :=
  onDev s fun d =>
    if !d.mi.ready ∨ (d.advance t).mono < d.mi.refAt then d
    else
      let d : Dev := d.advance t
      let drift := match d.mi.cal with
        | some c => decide (((reference : Int) - calReference c).natAbs * 1000000 > 20 * calReference c)
        | none => false
      { d with mi := { d.mi with temp := temp, refDrift := drift, refAt := d.mono + 10000 * msSteps } }

/-! ### Actions, sequences and ramps (R299 to R301) -/

/-- A change reaches an MU (R86, R297, R301). -/
def Dev.muChangeNow (d : Dev) (u t : Nat) (c : MuChange) : Dev :=
  let m := d.mu u
  let set : BitVec 16 := 1#16 <<< u
  let clash := c.conn != some false &&
    d.overBudget set (if c.conn.isSome then none else some c.irange) (c.conn == some true)
  if c.conn ≠ some false ∧ m.shutting then
    let d : Dev := d.muApply u t c
    match c.tag with
    | some g => if (d.flight g).any (·.queuedOnce) then d else d.queued g u
    | none => d
  else match clash, c.tag with
    | true, some g => (d.finish g { status := stConflict, a := BitVec.ofNat 16 u, c := 0x0E }).dropJob g
    | _, _ => d.muApply u t c

/-- A target takes a new code, and a ramp starts or is retargeted at a stamp (R295, R299). -/
def Dev.muForceNow (d : Dev) (u t : Nat) (tag : Option Tag) (word : BitVec 32) : Dev :=
  let code := bits word.toNat 0 20
  let kind : BitVec 2 := if word.getLsbD 20 then 2 else 1
  let d : Dev := d.modMu u fun m => if word.getLsbD 20 then { m with iTarget := code } else { m with vTarget := code }
  let m := d.mu u
  match m.seq with
  | none =>
    if m.mode ≠ kind then d.muEnd tag u true
    else
      let d : Dev := d.muEnd m.forceTag u true
      if m.applied = code ∧ m.interval > 0 then
        (d.modMu u fun m => { m with ramp := none, forceTag := none }).muEnd tag u
      else d.modMu u fun m => { m with ramp := some t, forceTag := tag }
  | some q =>
    if q.change.conn = some false ∨ m.future.mode ≠ kind then d.muEnd tag u true
    else
      let d : Dev := (d.muEnd m.forceTag u true).modMu u fun m => { m with forceTag := tag }
      if q.step = .e then d.muEnterE u t else d

/-- What a frame of ISLP asks of the MUs: a force word or a measurement, from the next grain on, with no command to complete
(R306). Where MI.FORCE or MI.MEASURE would be turned away, nothing happens. -/
def Dev.islpFrame (d : Dev) (k : FrameKind) : Dev :=
  let at_ := roundUp d.tl.now grainSteps
  match k with
  | .force mus word =>
    if muWordBad word then d else (members mus).foldl (fun d u => d.muForceNow u at_ none word) d
  | .measure mus voltage n count =>
    if n.toNat < 1 ∨ n.toNat > 16777216 ∨ count = 0 ∨ (members mus).any (fun u => (d.muTurnsAway voltage u).isSome) then d
    else (members mus).foldl (fun d u => d.modMu u fun m => { m with meas := some {
      islp := true, volt := voltage, n := n.toNat, left := count.toNat, start := at_, epoch := d.tl.epoch } }) d
  | .other => d

/-- A frame is discarded (R306, R320). -/
def Dev.dropFrame (d : Dev) : Dev :=
  { d with mi := { d.mi with crcErrors := satAdd (2 ^ 32 - 1) d.mi.crcErrors 1 } }

/-- The island takes a frame from its command port (R14, R306): one with a bad CRC or length is discarded, its command completes
FAULT, and line 36 reports it. A good frame of ISLP acts, or is discarded when it is neither a force nor a measure frame; a good
frame of CC1 is the command of its own row (log entry 164). -/
def execIslandFrameReceived (t : Nat) (f : Frame) (s : State) : Host.Outcome State Fault Refusal :=
  onDev s fun d =>
    let d : Dev := d.advance t
    if f.crcOk && decide (1 ≤ f.words.length ∧ f.words.length ≤ 256) then
      if !f.islp then d
      else
        let d : Dev := { d with mi := { d.mi with port := d.mi.port.tail } }
        if f.kind = .other then d.dropFrame else if d.mi.started && d.mi.verified then d.islpFrame f.kind else d
    else
      let d : Dev := d.dropFrame
      if f.islp then d.report 36 1 3 0xFFFF 0
      else
        let d : Dev := match d.ctl.flights.find? fun x => x.done == none && decide (x.opcode.toNat / 256 = 0x0A) with
          | some x => (d.finish x.tag { status := stFault, b := 3 }).dropJob x.tag
          | none => d
        let d : Dev := { d with mi := { d.mi with port := (false, f.words) :: d.mi.port } }
        d.report 36 1 3 0xFFFF 0

/-- An action of an MU takes effect (R301): a change QUEUED behind a disconnect that has ended, or the planned change or
force word with the earliest stamp. -/
def execIslandActionEffect (mu : BitVec 4) (s : State) : Host.Outcome State Fault Refusal :=
  onDev s fun d =>
    let u := mu.toNat
    let m := d.mu u
    let change := earliest (·.stamp) (m.sched.filter fun c => c.epoch == d.tl.epoch)
    let force := earliest (fun f => f.2.2) (m.forceSched.filter fun f =>
      !(d.act f.1 .miForce).any fun a => a.epoch != d.tl.epoch)
    match (if m.shutting then none else m.queued.head?) with
    | some c => (d.modMu u fun m => { m with queued := m.queued.tail }).muChangeNow u (roundUp d.tl.now grainSteps) c
    | none =>
      let takeForce := match change, force with
        | some c, some f => decide (f.2.2 < c.stamp)
        | none, some _ => true
        | _, none => false
      match takeForce, change, force with
      | true, _, some f => d.due f.2.2 fun d =>
          let d : Dev := d.modMu u fun m => { m with forceSched := m.forceSched.erase f }
          let d : Dev := d.tookAct f.1 .miForce (fun k => (d.mu k).forceSched.any fun x => x.1 == f.1) 16
          d.muForceNow u f.2.2 (some f.1) f.2.1
      | _, some c, _ => d.due c.stamp fun d =>
          let d : Dev := d.modMu u fun m => { m with sched := m.sched.erase c }
          let d : Dev := match c.tag with
            | some t => d.tookAct t .miConfig (fun k => (d.mu k).sched.any fun x => x.tag == some t) 16
            | none => d
          d.muChangeNow u c.stamp c
      | _, _, _ => d

/-- The step of an MU's sequence ends (R299). -/
def execMuSequenceStepEnd (mu : BitVec 4) (s : State) : Host.Outcome State Fault Refusal :=
  onDev s fun d =>
    let u := mu.toNat
    match (d.mu u).seq with
    | none => d
    | some q =>
      d.due q.ends fun d =>
        match q.step with
        | .a => (d.modMu u fun m => { m with applied := muSafe m.forceMode, ramp := none }).muEnterB u q.ends
        | .b => d.muEnterC u q.ends
        | .c => if q.change.conn = some false then d.muEndDisconnect u else (d.muSwitch u).muEnterD u q.ends
        | .d =>
          match q.held with
          | some h =>
            ((d.muEnd q.change.tag u true).modMu u fun m => { m with
              seq := some { q with change := h, held := none } }).muEnterC u q.ends
          | none => d.muEnterE u q.ends
        | .e => d.muEndSeq u

/-- A move of an MU's ramp falls due (R299). -/
def execMuRampMove (mu : BitVec 4) (s : State) : Host.Outcome State Fault Refusal :=
  onDev s fun d =>
    let u := mu.toNat
    let m := d.mu u
    match m.ramp with
    | none => d
    | some t0 =>
      let l := if m.seq.isSome then m.seqLimit d.fc.decaf.isSome else (m.step, m.interval)
      let goal := match m.seq with
        | some q => if q.step = .a then muSafe m.forceMode else m.target m.mode
        | none => m.target m.mode
      let next : Int := t0 + max 1 l.2 * grainSteps
      d.due next.toNat fun d =>
        let a := if l.2 = 0 then goal else moveTo m.applied goal l.1
        let d : Dev := d.modMu u fun m => { m with applied := a, ramp := if a = goal then none else some next }
        if a = goal ∧ m.seq = none then (d.modMu u fun m => { m with forceTag := none }).muEnd m.forceTag u else d

/-- A sample of an MU's ADC ends (R302, R303): at N samples the result is committed. -/
def execMuAdcSample (mu : BitVec 4) (smp : Int) (ovr compliance senseOpen : Bool) (s : State) :
    Host.Outcome State Fault Refusal :=
  onDev s fun d =>
    let u := mu.toNat
    match (d.mu u).meas with
    | none => d
    | some x0 =>
      if x0.epoch ≠ d.tl.epoch ∧ x0.got = 0 then d
      else d.due (x0.start + 5 * usSteps) fun d =>
        let v := clip 24 smp
        let m := d.mu u
        let head := x0.got == 0
        let x : MuMeas := { x0 with
          start := x0.start + 5 * usSteps, got := x0.got + 1, acc := x0.acc + v, tq := x0.tq ||| d.tl.tq
          min := if head then v else min x0.min v, max := if head then v else max x0.max v
          first := if head then x0.start else x0.first, epoch := if head then d.tl.epoch else x0.epoch
          mode := if head then m.mode else x0.mode, irange := if head then m.irange else x0.irange
          vrange := if head then m.vrange else x0.vrange
          ovr := x0.ovr || ovr || decide (v = 8388607) || decide (v = -8388608), comp := x0.comp || compliance
          ranging := x0.ranging || m.seq.isSome, senseOpen := x0.senseOpen || senseOpen }
        let d : Dev := d.modMu u fun m => { m with meas := some x }
        let d : Dev := if x.islp then d else d.tookAct x.tag .miMeasure (fun k => (d.mu k).meas.any fun y =>
          y.tag == x.tag && decide (y.got = 0) && decide (y.left = x.left)) 16
        if x.got < x.n then d
        else
          let d : Dev := d.muResult u x false
          if x.left ≤ 1 then (d.modMu u fun m => { m with meas := none }).muEnd (if x.islp then none else some x.tag) u
          else d.modMu u fun m => { m with meas := some { x with
            left := x.left - 1, got := 0, acc := 0, ovr := false, comp := false, ranging := false, senseOpen := false, tq := 0 } }

end Sys2Proof.Machine
end

