-- ==== Sys2Proof/Machine/Calibration.lean ====
section
/-!
DEFINITION. The meanings of the self-calibration commands and events (12_calibration.md).
-/
namespace Sys2Proof.Machine

/-! ### Taps (R321): channel ch has taps 32 ch + k, the TDC of a slice 16,384 + 32 (34 bank + slice) + w -/

/-- Index of the first weight of a slice's TDC. -/
def tdcTap (b slice : Nat) : Nat := 16384 + (b * 34 + slice) * 32

/-- A number names a tap: 22 for each channel, 32 for each slice with the spares. -/
def tapExists (i : Nat) : Bool :=
  if i < 16384 then decide (i % 32 < 22) else decide (i < tdcTap 16 0)

/-- Width of a tap in bits. -/
def tapWidth (i : Nat) : Nat := if i ≥ 16384 then 8 else if i % 32 < 2 then 14 else 10

/-- A value lies in the range of a tap (R321). -/
def tapFits (i : Nat) (v : Int) : Bool := clip (tapWidth i) v == v

/-- A tap. -/
def Dev.tap (d : Dev) (i : Nat) : Tap := d.cal.taps.get {} i
/-- Change a tap. -/
def Dev.modTap (d : Dev) (i : Nat) (f : Tap → Tap) : Dev := { d with cal := { d.cal with taps := d.cal.taps.mod {} i f } }

/-- The channel that a tap belongs to; a spare slice that carries none has no channel (R327). -/
def Dev.tapChan (d : Dev) (i : Nat) : Option Nat :=
  if i < 16384 then some (i / 32) else d.sliceChan ((i - 16384) / 32 / 34) ((i - 16384) / 32 % 34)

/-- Taps that are due. -/
def Dev.dueTaps (d : Dev) : List Nat := (d.cal.taps.cells.filter fun c => c.2.due).map fun c => c.1

/-- Gradual mode is in force (R329). -/
def Dev.gradual (d : Dev) : Bool := decide (d.tree.size ≥ 17) || d.cal.control.getLsbD 1

/-- No owner holds the TDC or the ADC of a tap (R328). -/
def Dev.tapFree (d : Dev) (i : Nat) : Bool :=
  let tdc := decide (i < 16384) || decide ((d.tdc ((i - 16384) / 32 / 34) ((i - 16384) / 32 % 34)).owner = .none)
  let adc := !(decide (i < 16384) && decide (i % 32 ≥ 20)) || ((d.pmu (i / 32)).meas.isNone && (d.pmu (i / 32)).wave.isNone)
  tdc && adc

/-- The first grain boundary after a stamp, and not before the present (R327). -/
def Dev.grainPoint (d : Dev) (stamp : Nat) : Nat := max ((stamp / grainSteps + 1) * grainSteps) (roundUp d.tl.now grainSteps)

/-- The switch-over point of a due tap (R49, R327): the first grain boundary on a channel whose thread is idle or that has none,
the point of the dead time in progress, or none yet. -/
def Dev.switchPoint (d : Dev) (i : Nat) : Option Nat :=
  let x := d.tap i
  match ((d.tapChan i).bind d.ownerOf).map fun t => d.thread (d.leadOf t) with
  | none => some (d.grainPoint x.dueAt)
  | some t =>
    if t.st = .idle then some (d.grainPoint (max x.dueAt t.idleAt))
    else if t.st = .dead ∧ x.dueAt ≤ t.deadEnd - 1792 ∧ d.tl.now ≤ t.deadEnd - 1792 then some (t.deadEnd - 1792)
    else none

/-! ### Runs (R323 to R331) -/

/-- A background run starts, unless a run is in progress, which takes its place (R323). -/
def Dev.startRun (d : Dev) : Dev :=
  if d.cal.run.isSome then d else { d with cal := { d.cal with run := some { tStart := d.hk.tj } } }

/-- The figures of a channel that stand beyond their limits (R332). -/
def Quality.beyond (q : Quality) : List Nat :=
  (if q.edgeRes > 400 then [0] else []) ++ (if q.thrRes > 500 then [1] else []) ++
  (if q.eye ≠ 0 ∧ q.eye < 2000 then [2] else []) ++ (if q.pmuRes > 200 then [3] else [])

/-- Every tap of a run has taken effect: the event, T_cal, the quality figures, CAL_STALE and the CAL.RUN commands (R325,
R331, R332). -/
def Dev.inForce (d : Dev) : Dev :=
  let c := d.cal
  let d : Dev := d.postAt 513 2 [(c.dueMade : Int)] d.tl.epoch c.lastEffect d.tl.tq
  let d : Dev := { d with cal := { c with
    bringing := false, tCal := c.pendingT, stale := false, waitTags := [], newQuality := []
    quality := c.newQuality.foldl (fun t q => t.set {} q.1 { q.2 with warn := decide (q.2.beyond ≠ []) }) c.quality } }
  let d : Dev := c.newQuality.foldl (fun d q =>
    q.2.beyond.foldl (fun d f => d.post 513 3 [(q.1 : Int), (f : Int)]) d) d
  c.waitTags.foldl (fun d t => d.finish t (stamped {} d.tl.tq d.tl.epoch c.lastEffect)) d

/-- When no tap is due any more, what the run gave is in force. -/
def Dev.settleTaps (d : Dev) : Dev := if d.cal.bringing ∧ d.dueTaps = [] then d.inForce else d

/-- A run ends: its targets replace earlier ones, and taps whose targets differ from their values are due (R323, R330). -/
def Dev.endCalRun (d : Dev) (targets : List (Nat × Int)) (figures : List (BitVec 9 × Figures)) : Dev :=
  match d.cal.run with
  | none => d
  | some r =>
    let ts := targets.filter fun t => tapExists t.1 && tapFits t.1 t.2 &&
      (!r.full || (d.tapChan t.1).any fun ch => r.chs.getLsbD ch)
    let d : Dev := ts.foldl (fun d t => d.modTap t.1 fun x => { x with
      target := t.2, due := decide (t.2 ≠ x.inForce), stepping := x.stepping && decide (t.2 ≠ x.inForce)
      dueAt := if t.2 = x.inForce then 0 else if x.due then x.dueAt else d.tl.now
      passed := x.passed && decide (t.2 ≠ x.inForce) }) d
    let made := (ts.filter fun t => (d.tap t.1).due).length
    let quality := figures.map fun f =>
      let old := d.cal.quality.get ({} : Quality) f.1.toNat
      (f.1.toNat, ({ edgeRes := f.2.edgeRes, thrRes := f.2.thrRes, pmuRes := f.2.pmuRes, stamp := d.tl.now
                     epoch := d.tl.epoch, eye := if r.full then f.2.eye.getD old.eye else old.eye } : Quality))
    let d : Dev := { d with cal := { d.cal with
      run := none, runs := satAdd (2 ^ 32 - 1) d.cal.runs 1, bringing := true, dueMade := made, lastEffect := d.tl.now
      waitTags := d.cal.waitTags ++ r.tags, pendingT := if r.full then d.cal.tCal else r.tStart, newQuality := quality } }
    d.settleTaps

/-- What R326 asks of a channel of a full run. -/
def Dev.fullReady (d : Dev) (ch : Nat) : Bool :=
  let c := d.chan ch
  (match d.ownerOf ch with | some t => (d.thread (d.leadOf t)).st == .idle | none => true) &&
  c.drvMode == 0 && !c.offMode && !c.loadEn && !c.pmu.closed && c.pmu.seq.isNone && !c.pmu.drvi

/-! ### Commands (R334) -/

/-- CAL.RUN (R323, R326, R331). -/
def execCalRun (h : Hdr) (full : Bool) (chs : BitVec 512) (s : State) : Host.Outcome State Fault Refusal :=
  hostCmd s h 0x0B00 fun d =>
    match d.cal.run with
    | some r =>
      if full || r.full then d.refuse h.tag stBusy
      else ({ d with cal := { d.cal with run := some { r with tags := r.tags ++ [h.tag] } } } : Dev).accept h.tag
    | none =>
      if full ∧ chs = 0 then d.refuse h.tag stBadarg 1
      else match (if full then (members chs).find? fun ch => !d.fullReady ch else none) with
        | some ch => d.refuse h.tag stBusy ch
        | none =>
          let r : CalRun := { full := full, chs := if full then chs else 0, tags := [h.tag], tStart := d.hk.tj }
          ({ d with cal := { d.cal with run := some r } } : Dev).accept h.tag

/-- CAL.QUALITY (R332). -/
def execCalQuality (h : Hdr) (chs : BitVec 512) (s : State) : Host.Outcome State Fault Refusal :=
  hostCmd s h 0x0B01 fun d =>
    d.okResp h.tag ((members chs).flatMap fun ch =>
      let q := d.cal.quality.get ({} : Quality) ch
      [(q.edgeRes : Int), (q.thrRes : Int), (q.eye : Int), (q.pmuRes : Int), (q.stamp : Int), (q.epoch.toNat : Int), rb q.warn])

/-- CAL.TAPS: the taps of each channel, and those of the TDC of its slice. -/
def execCalTaps (h : Hdr) (chs : BitVec 512) (s : State) : Host.Outcome State Fault Refusal :=
  hostCmd s h 0x0B02 fun d =>
    d.okResp h.tag ((members chs).flatMap fun ch =>
      (((List.range 22).map (32 * ch + ·)) ++
        ((List.range 32).map (tdcTap (bankOf ch) ((d.chan ch).sliceOf ch) + ·))).flatMap fun i =>
          [(d.tap i).inForce, (d.tap i).target, rb (d.tap i).due])

/-- CAL.SAVE (R333). -/
def execCalSave (h : Hdr) (answer : FlashAnswer) (s : State) : Host.Outcome State Fault Refusal :=
  hostCmd s h 0x0B03 fun d =>
    if d.dueTaps ≠ [] then d.refuse h.tag stBusy
    else if answer ≠ .done then (d.accept h.tag).finish h.tag { status := stFault, b := if answer = .differs then 3 else 4 }
    else
      let d : Dev := { d with
        board := { d.board with cal := some {
          path := d.tree.path, stepping := 0xC1, tCal := d.cal.tCal, taps := d.cal.taps, quality := d.cal.quality } }
        cal := { d.cal with nominal := false } }
      d.ok h.tag

/-! ### Events -/

/-- A run ends (R323, R326). -/
def execCalibrationRunEnd (t : Nat) (targets : List (Nat × Int)) (figures : List (BitVec 9 × Figures)) (s : State) :
    Host.Outcome State Fault Refusal :=
  onDev s fun d => if d.cal.run.isNone then d else (d.advance t).endCalRun targets figures

/-- A due tap takes effect at its switch-over point (R327 to R331): whole, or by one unit in gradual mode. One whose TDC or ADC has
an owner then takes effect in the clock after it is released, of which the row tells. -/
def execCalSwitchOver (t : Nat) (tap : Nat) (s : State) : Host.Outcome State Fault Refusal :=
  onDev s fun d =>
    let x := d.tap tap
    if !x.due || (d.gradual && !x.stepping) then d
    else match (if x.passed then some (nextClock (d.advance t).tl.now) else d.switchPoint tap) with
    | none => d
    | some p => d.due p fun d =>
      if !d.tapFree tap then d.modTap tap fun x => { x with passed := true }
      else
      let v := if !d.gradual then x.target else if x.target > x.inForce then x.inForce + 1 else x.inForce - 1
      let d : Dev := d.modTap tap fun x => { inForce := v, target := x.target, due := decide (v ≠ x.target) }
      ({ d with cal := { d.cal with lastEffect := d.tl.now } } : Dev).settleTaps

/-- An alignment interval starts: in gradual mode every due tap whose previous step has taken effect takes up one step
(R329). -/
def execAlignmentIntervalStart (t : Nat) (s : State) : Host.Outcome State Fault Refusal :=
  onDev s fun d =>
    let d : Dev := d.advance t
    if !d.gradual then d
    else { d with cal := { d.cal with
      taps := d.cal.taps.mapAll {} fun x => if x.due && !x.stepping then { x with stepping := true, dueAt := d.tl.now, passed := false } else x } }

end Sys2Proof.Machine
end

