-- ==== Sys2Proof/Machine/Microcode.lean ====
section
/-!
DEFINITION. The meanings of the microcode commands, with the checks of the customer-region loader (07_microcode.md).
-/
namespace Sys2Proof.Machine

/-! ### The loader's checks (R205) -/

/-- First micro-address of the customer region (R200). -/
def ucBase : Nat := 0x1400

/-- MOPs that R191 lists and does not mark vendor. -/
def mopListed (o : Nat) : Bool :=
  decide (o ≤ 5) || (decide (0x08 ≤ o) && decide (o ≤ 0x12)) || (decide (0x18 ≤ o) && decide (o ≤ 0x1E)) ||
  (decide (0x20 ≤ o) && decide (o ≤ 0x2D))

/-- Bits of A and OPERAND that a MOP does not use (R191). -/
def mopReserved (o : Nat) : Nat :=
  if o = 0x00 ∨ o = 0x04 ∨ o = 0x05 ∨ o = 0x21 ∨ o = 0x22 ∨ o = 0x25 ∨ o = 0x27 ∨ o = 0x28 ∨ o = 0x29 then 0xFFFFFF
  else if o = 0x01 then 0xFFE000
  else if o = 0x02 ∨ o = 0x03 then 0x0FE000
  else if o = 0x08 ∨ o = 0x0C ∨ o = 0x10 then 0
  else if o = 0x09 then 0x0FF000
  else if o = 0x0A ∨ o = 0x0B ∨ o = 0x0D ∨ o = 0x0E ∨ o = 0x0F ∨ o = 0x1A then 0x00FFFF
  else if o = 0x11 then 0x0FF800
  else if o = 0x18 ∨ o = 0x19 ∨ o = 0x1B then 0x000FFF
  else if o = 0x20 then 0xFFFFF8
  else if o = 0x2B then 0xFFFFE0
  else if o = 0x2C then 0xFFFFFC
  else if o = 0x2D then 0xFFFF00
  else 0x0FFFFF

/-- Least LEN of a MOP (R191). -/
def mopMinLen (o : Nat) : Nat := if [0x12, 0x18, 0x19, 0x1A, 0x1B, 0x23, 0x24, 0x25].contains o then 2 else 1

/-- Reserved fields are zero, and LEN is at least its minimum. -/
def fieldsGood (w : BitVec 32) : Bool :=
  decide (w.toNat &&& mopReserved (mop w) = 0) && decide (mlen w ≥ mopMinLen (mop w)) && (mop w != 2 || decide (mA w < 10))

/-- A jump target, as an index in the image. -/
def jumpIndex (w : BitVec 32) : Option Int :=
  if mop w = 1 ∨ mop w = 2 ∨ mop w = 3 then some (((mT w).toNat : Int) - ucBase) else none

/-- The indices that may follow a word; ENDR and PERR end a routine. -/
def wordNext (i : Nat) (w : BitVec 32) : List Nat :=
  let t := ((jumpIndex w).map fun v => v.toNat).toList
  if mop w = 1 then t
  else if mop w = 2 ∨ mop w = 3 then t ++ [i + 1]
  else if mop w = 5 ∨ mop w = 0x2D then []
  else [i + 1]

/-- A word that is a safe point wherever it stands (R197). -/
def safeWord (w : BitVec 32) : Bool := [0x04, 0x05, 0x12, 0x1B, 0x20, 0x2A, 0x2B].contains (mop w)

/-- The set of indices after one more step along the words. -/
def reachStep (ws : Array (BitVec 32)) (seen : Array Bool) : Array Bool :=
  (List.range ws.size).foldl (fun s i =>
    if s.getD i false then (wordNext i (ws.getD i 0)).foldl (fun s j => s.setIfInBounds j true) s else s) seen

/-- The indices that are reached from a set. -/
def reachAll (ws : Array (BitVec 32)) : Nat → Array Bool → Array Bool
  | 0, s => s
  | n + 1, s => reachAll ws n (reachStep ws s)

/-- The indices from which ENDR or PERR is reached, after one more step back. -/
def endStep (ws : Array (BitVec 32)) (ends : Array Bool) : Array Bool :=
  ((List.range ws.size).map fun i =>
    ends.getD i false || wordNext i (ws.getD i 0) == [] || (wordNext i (ws.getD i 0)).any fun j => ends.getD j false).toArray

/-- The indices from which ENDR or PERR is reached. -/
def endAll (ws : Array (BitVec 32)) : Nat → Array Bool → Array Bool
  | 0, s => s
  | n + 1, s => endAll ws n (endStep ws s)

/-- Longest engine time from a word to the end of the next safe point, over paths of one more word; 40,001 stands for
more. -/
def timeStep (ws : Array (BitVec 32)) (cost : Array Nat) : Array Nat :=
  ((List.range ws.size).map fun i =>
    let w := ws.getD i 0
    min 40001 (mlen w + if safeWord w then 0 else (wordNext i w).foldl (fun m j => max m (cost.getD j 0)) 0)).toArray

/-- The costs after so many steps. -/
def timeAll (ws : Array (BitVec 32)) : Nat → Array Nat → Array Nat
  | 0, s => s
  | n + 1, s => timeAll ws n (timeStep ws s)

/-- The first index that fails a test. -/
def firstBad (n : Nat) (bad : Nat → Bool) : Option Nat := (List.range n).find? bad

/-- The check that an image fails first, with the first micro-address at fault (R205). On a loop without a safe point the
longest time over twice as many words as the image has exceeds that over once as many. -/
def loadFault (words : List (BitVec 32)) (table : List (BitVec 8 × BitVec 16)) : Option (Nat × Nat) :=
  let n := words.length
  let ws := words.toArray
  let entry := fun (e : BitVec 8 × BitVec 16) => decide (ucBase ≤ e.2.toNat ∧ e.2.toNat < ucBase + n)
  let shape := decide (1 ≤ n ∧ n ≤ 3072 ∧ 1 ≤ table.length ∧ table.length ≤ 64) &&
    table.all (fun e => decide (0xC0 ≤ e.1.toNat) && entry e) && decide ((table.map fun e => e.1).Nodup)
  let at_ := fun (r : Nat) (o : Option Nat) => o.map fun i => (r, ucBase + i)
  let outside := fun (i : Nat) => match jumpIndex (ws.getD i 0) with | some v => decide (v < 0 ∨ v ≥ (n : Int)) | none => false
  let start := table.foldl (fun (s : Array Bool) e => s.setIfInBounds (e.2.toNat - ucBase) true) (List.replicate n false).toArray
  let seen := reachAll ws n start
  let ends := endAll ws n (List.replicate n false).toArray
  let once := timeAll ws n (List.replicate n 0).toArray
  let twice := timeAll ws n once
  if !shape then some (1, ucBase)
  else
    (at_ 2 (firstBad n fun i => !mopListed (mop (ws.getD i 0)))).orElse fun _ =>
    (at_ 3 (firstBad n fun i => !fieldsGood (ws.getD i 0))).orElse fun _ =>
    (at_ 4 (firstBad n outside)).orElse fun _ =>
    (at_ 5 (firstBad n fun i => seen.getD i false && ((wordNext i (ws.getD i 0)).any (fun j => decide (j ≥ n)) || !ends.getD i false))).orElse
      fun _ => at_ 6 (firstBad n fun i => seen.getD i false && (decide (once.getD i 0 > 40000) || once.getD i 0 != twice.getD i 0))

/-! ### Commands (R204, R208) -/

/-- Every thread of the device is IDLE. -/
def Dev.allIdle (d : Dev) : Bool := (List.range 64).all fun t => (d.thread t).st == .idle

/-- The customer region and entries are replaced in one step (R204). -/
def Uc.install (u : Uc) (words : List (BitVec 32)) (table : List (BitVec 8 × BitVec 16)) : Uc :=
  let kept : Tab (Option (BitVec 13)) := ⟨u.disp.cells.filter fun c => decide (c.1 < 0xC0)⟩
  { u with
    cust := Tab.empty.fill 0 0 words, custWords := words.length
    disp := table.foldl (fun t e => t.set none e.1.toNat (some (e.2.setWidth 13))) kept
    digest := if words = [] then 0 else (Config.sha3 (words.flatMap fun w => leBytes 4 w.toNat)).extractLsb' 0 128 }

/-- UC.LOAD (R204, R205): DETAIL_A of a BADARG is the first micro-address at fault, DETAIL_B the reason (log entry 20). -/
def execUcLoad (h : Hdr) (words : List (BitVec 32)) (table : List (BitVec 8 × BitVec 16)) (s : State) :
    Host.Outcome State Fault Refusal :=
  hostCmd s h 0x0600 fun d =>
    match loadFault words table with
    | some (reason, a) => d.refuse h.tag stBadarg a reason
    | none =>
      if ¬ d.allIdle then d.refuse h.tag stBusy
      else
        let u := d.uc.install words table
        ({ d with uc := u } : Dev).okResp h.tag [(u.digest.toNat : Int)]

/-- UC.CLEAR (R204). -/
def execUcClear (h : Hdr) (s : State) : Host.Outcome State Fault Refusal :=
  hostCmd s h 0x0601 fun d =>
    if ¬ d.allIdle then d.refuse h.tag stBusy
    else ({ d with uc := d.uc.install [] [] } : Dev).ok h.tag

/-- UC.READ (R200). -/
def execUcRead (h : Hdr) (_bank : BitVec 4) (first count : Nat) (s : State) : Host.Outcome State Fault Refusal :=
  hostCmd s h 0x0602 fun d =>
    if count = 0 ∨ count > 256 ∨ first + count > 0x2000 then d.refuse h.tag stBadarg (if first < 0x2000 then 2 else 1)
    else if first < ucBase then d.refuse h.tag stDenied
    else d.okResp h.tag ((d.uc.cust.range 0 (first - ucBase) count).map fun w => (w.toNat : Int))

/-- The vendor opcodes of R159. -/
def vendorListed (op : Nat) : Bool :=
  [0x01, 0x02, 0x03, 0x04, 0x08, 0x09, 0x0C, 0x0D, 0x10, 0x11, 0x14, 0x18, 0x19, 0x1C, 0x1D, 0x1F].contains op

/-- A dispatch entry (R194). -/
def Dev.dispEntry (d : Dev) (op : Nat) : Nat :=
  match d.routine op with
  | some e => 0x8000 + e.toNat
  | none => if vendorListed op then 0x8000 + (Config.romEntry (BitVec.ofNat 8 op)).toNat else 0

/-- P.0600 (R209). -/
def Uc.patchWord (u : Uc) : Nat := u.patchState.toNat + 2 ^ 16 * u.patchVersion.toNat

/-- UC.STATE. -/
def execUcState (h : Hdr) (s : State) : Host.Outcome State Fault Refusal :=
  hostCmd s h 0x0603 fun d =>
    d.okResp h.tag ([(d.uc.patchWord : Int), (d.uc.custWords : Int), (d.uc.digest.toNat : Int)] ++
      ((List.range 256).map fun op => (d.dispEntry op : Int)) ++
      ((List.range 16).flatMap fun b => [((d.bank b).rows.length : Int), rb (d.bank b).degraded]))

end Sys2Proof.Machine
end

