-- ==== Sys2Proof/Machine/Flags.lean ====
section
/-!
DEFINITION. The status words of the block, field by field, and the parameters of R364: width, access, value, what a read
clears and what a write stores.
-/
namespace Sys2Proof.Machine

/-! ### Status words -/

/-- P.0101, TL_STATE (R56). -/
def Timeline.state (t : Timeline) : Nat :=
  packFields [(1, bit (t.tq.getLsbD 0)), (1, bit (t.tq.getLsbD 1)), (1, bit (t.tq.getLsbD 2)), (1, bit t.warmFiltered), (1, bit t.lastPass),
    (1, bit t.rewind.isSome), (2, t.source.toNat)]

/-- TL_REF (R506). -/
def Timeline.ref (t : Timeline) : Nat := packFields [(1, bit t.refWarmPin), (1, bit t.refPresent), (1, bit t.stabRun)]

/-- P.0200, PIN_SUPPLY_STATE (R89). PE_EN is high where both its balls are (DESIGN CHOICE, log entry 169). -/
def Hk.pinSupply (k : Hk) : Nat :=
  packFields [(1, bit k.vddPe), (1, bit k.vssPe), (1, bit (k.pePos && k.peNeg))]

/-- P.0A00, MI_STATE (R320). -/
def Island.state (i : Island) : Nat :=
  packFields [(1, bit i.ready), (1, bit i.sealedOk), (1, bit (i.started && i.cal.isNone)), (1, bit i.refDrift), (4, i.reason.toNat),
    (1, bit i.verified)]

/-- P.0B02, CAL_STATE (R335). -/
def Dev.calState (d : Dev) : Nat :=
  packFields [(1, bit d.cal.run.isSome), (1, bit (d.cal.run.any (·.full))), (1, bit d.gradual), (1, bit d.cal.stale),
    (1, bit d.cal.nominal)]

/-- P.0C01, HK_THERMAL_STATE (R473). -/
def Dev.thermalState (d : Dev) : Nat :=
  packFields [(1, bit d.hk.warning), (1, bit d.hk.hot), (1, bit d.shutLatch), (1, bit d.hk.blind), (1, bit d.hk.coolOk)]

/-- P.0C03, HK_ENABLES (R473). -/
def Hk.enables (k : Hk) : Nat := packFields [(1, bit k.pePos), (1, bit k.peNeg), (1, bit k.miEn)]

/-- P.0D03, DECAF_STATE (R458). -/
def Fc.decafState (f : Fc) : Nat :=
  match f.decaf with
  | none => 0
  | some k => packFields [(1, 1), (4, k.cause.toNat), (6, k.line.toNat), (1, bit k.noRamp)]

/-- FC_STATUS (R430). -/
def Fc.status (f : Fc) : Nat :=
  packFields [(48, f.lines.toNat), (8, 0), (1, bit f.c), (1, bit f.u), (1, bit f.f), (1, bit f.overrun),
    (1, bit f.inj.isSome), (1, bit f.self)]

/-- A byte of P.0E03, PORT_STATE (R405). -/
def Port.byte (p : Port) : Nat :=
  packFields [(2, p.up.toNat), (1, bit p.spare), (1, bit p.upstream), (1, bit p.redundant), (1, bit p.aligned)]

/-- P.0E02, HOST_LINK (R405). -/
def Dev.hostLink (d : Dev) : Nat :=
  packFields [(3, d.tree.link.toNat), (1, bit d.tree.tunnel), (1, bit d.ctl.recovery.configured)]

/-- P.0F00, BOOT_STRAPS (R427). -/
def strapsWord (s : Straps) : Nat := packFields [(2, s.role.toNat), (2, s.boot.toNat), (1, bit s.dram), (1, bit s.refsel)]

/-- P.0F01, BOOT_STATE (R427). -/
def Boot.state (b : Boot) : Nat := packFields [(4, b.ended), (2, b.source.toNat), (12, b.notNormal.toNat)]

/-- P.0F05, HEALTH_STATE (R427). -/
def Boot.health (b : Boot) : Nat := packFields [(1, bit b.measured), (1, bit b.lastMap), (1, bit b.unchecked), (1, bit b.written)]

/-- P.1003, FLASH_STATE (R488). -/
def Flash.state (f : Flash) : Nat :=
  packFields [(1, bit (f.op.any fun o => !o.claiming)), (1, bit f.collide), (1, bit f.noBlock), (1, bit f.found), (8, f.block.toNat)]

/-- VERSION of an image (R418); 0 where there is none. -/
def Boot.version (b : Boot) : Nat := match b.image with | some i => leAt i 6 2 | none => 0
/-- SVN of an image (R418); 0 where there is none. -/
def Boot.svn (b : Boot) : Nat := match b.image with | some i => leAt i 8 1 | none => 0

/-! ### Counts -/

/-- Channels that satisfy a test. -/
def Dev.countChans (d : Dev) (p : Chan → Bool) : Nat := ((List.range 512).filter fun ch => p (d.chan ch)).length
/-- Threads that satisfy a test. -/
def Dev.countThreads (d : Dev) (p : Thread → Bool) : Nat := ((List.range 64).filter fun t => p (d.thread t)).length
/-- Sum of a figure over the channels. -/
def Dev.sumChans (d : Dev) (f : Chan → Nat) : Nat := ((List.range 512).map fun ch => f (d.chan ch)).sum

/-- Cells of a table that satisfy a test. -/
def countCells {α : Type} (t : Tab α) (p : α → Bool) : Nat := (t.cells.filter fun c => p c.2).length

/-- P.0400: period entries, edge entries and deskew values with a pending value (R150). -/
def Dev.pendingTiming (d : Dev) : Nat :=
  ((List.range 64).map fun t => countCells (d.thread t).periodPend (·.isSome)).sum +
  d.sumChans fun c => countCells c.edgePend (·.isSome) + bit c.drvDeskewPend.isSome + bit c.cmpDeskewPend.isSome

/-- TDCs with an owner (R150). -/
def Dev.ownedTdcs (d : Dev) : Nat := ((List.range 16).map fun b => countCells (d.bank b).tdcs fun t => t.owner != .none).sum

/-- P.0403: channels of each bank that a spare slice carries (R150). -/
def Dev.spareSlices (d : Dev) : Nat :=
  packFields ((List.range 16).map fun b =>
    (2, ((List.range 32).filter fun k => decide ((d.chan (32 * b + k)).sliceOf (32 * b + k) ≥ 32) && !(d.chan (32 * b + k)).noSlice).length))

/-- P.0602: spare rows in use, and the bank with the most (R209). -/
def Dev.spareRows (d : Dev) : Nat :=
  let n := fun b => (d.bank b).rows.length
  let most := (List.range 16).foldl (fun m b => if n b > n m then b else m) 0
  packFields [(13, ((List.range 16).map n).sum), (4, most), (9, n most)]

/-- P.0701: working tiles usable in each bank, once the check of S10 has been made (R234, R237). -/
def Dev.workingTiles (d : Dev) : Nat :=
  if d.boot.step ≤ 10 then 0
  else packFields ((List.range 16).map fun b =>
    (16, 1024 - countCells ⟨(d.bank b).tiles.cells.filter fun c => decide (c.1 < 1024)⟩ fun t => t.out || t.bad))

/-- P.0901, DSP_SPARE_MAP (R292). -/
def Dev.dspMap (d : Dev) : Nat :=
  packFields [(5, match d.dsp.lsBank with | some b => b.toNat | none => 0x1F),
    (16, packFields ((List.range 16).map fun b => (1, bit (d.lane b).absent)))]

/-- P.0F04, SPARE_MARKS (R427). -/
def Dev.spareMarks (d : Dev) : Nat :=
  packFields [(8, countCells d.boot.strings (·.isSome)), (8, d.sumChans fun c => popBelow 7 c.dacFail.toNat),
    (9, d.countChans fun c => c.pmuFail || c.swFail)]

/-! ### Parameters (R364) -/

/-- Access to a parameter. -/
inductive Access where
  | ro | rw | rc
  deriving DecidableEq, Repr

/-- Width in bits and access of a parameter; none for an ID that the spec does not define. -/
def paramKind (id : Nat) : Option (Nat × Access) :=
  if id ∈ [0x0503, 0x0504] then some (64, .rw)
  else if id ∈ [0x0103, 0x0A02] then some (64, .ro)
  else if id = 0x0701 then some (256, .ro)
  else if id = 0x0A03 then some (128, .ro)
  else if id ∈ [0x0104, 0x0203, 0x0502, 0x0700, 0x0801, 0x0802, 0x0808, 0x0B00, 0x0B01, 0x0D00, 0x0D07, 0x0D08, 0x0E04,
    0x1000, 0x1001, 0x1002] then some (32, .rw)
  else if id ∈ [0x0004, 0x0005, 0x0006, 0x0007, 0x0008, 0x0009, 0x0304, 0x0402, 0x0505, 0x0506, 0x0507, 0x0603, 0x0604,
    0x0702, 0x0703, 0x0704, 0x0705, 0x0803, 0x0804, 0x0805, 0x0806, 0x0807, 0x0809, 0x080A, 0x0902, 0x0903, 0x0904,
    0x0A05, 0x0A06, 0x0B05, 0x0C05, 0x0C06, 0x0D01, 0x0D02, 0x0D05, 0x0E05, 0x0E06, 0x1004, 0x1005] then some (32, .rc)
  else if id ∈ [0x0000, 0x0001, 0x0002, 0x0003, 0x0100, 0x0101, 0x0102, 0x0105, 0x0106, 0x0107, 0x0200, 0x0201, 0x0202,
    0x0300, 0x0301, 0x0302, 0x0303, 0x0400, 0x0401, 0x0403, 0x0404, 0x0500, 0x0501, 0x0600, 0x0601, 0x0602, 0x0706,
    0x0800, 0x0900, 0x0901, 0x0A00, 0x0A01, 0x0A04, 0x0B02, 0x0B03, 0x0B04, 0x0B06, 0x0C00, 0x0C01, 0x0C02, 0x0C03,
    0x0C04, 0x0D03, 0x0D04, 0x0D06, 0x0E00, 0x0E01, 0x0E02, 0x0E03, 0x0E07, 0x0E08, 0x0E09, 0x0E0A, 0x0F00, 0x0F01,
    0x0F02, 0x0F03, 0x0F04, 0x0F05, 0x1003, 0x1006] then some (32, .ro)
  else none

/-- Firmware version (R370). -/
def ctlVersion : Nat := 0x00030001
/-- Silicon stepping (R370). -/
def ctlStepping : Nat := 0xC1
/-- Alignment interval in grains (R405). -/
def tampInterval : Nat := 100000

/-- Parameters of group 0x00. -/
def Dev.param00 (d : Dev) (n : Nat) : Nat :=
  match n with
  | 0 => ctlVersion
  | 1 => ctlStepping
  | 2 => d.ctl.flights.length
  | 3 => d.ctl.heldCpl.length + d.ctl.heldCpl0.length
  | 4 => d.ctl.evtLost
  | 5 => d.ctl.dupTags
  | 6 => d.ctl.preempts
  | 7 => d.ctl.resStall
  | 8 => d.ctl.dispatchMax
  | 9 => d.ctl.doorbells
  | _ => 0

/-- Parameters of group 0x01. -/
def Dev.param01 (d : Dev) (n : Nat) : Nat :=
  match n with
  | 0 => d.tl.epoch.toNat
  | 1 => d.tl.state
  | 2 => d.tl.stabLast.toNat
  | 3 => d.tl.warmStamp
  | 4 => d.tl.holdoverLimit
  | 5 => d.tree.hopDelay
  | 6 => d.tree.rootDelay
  | 7 => d.tl.warmEpoch.toNat
  | _ => 0

/-- Parameters of group 0x02. -/
def Dev.param02 (d : Dev) (n : Nat) : Nat :=
  match n with
  | 0 => d.hk.pinSupply
  | 1 => d.sumChans fun c => countCells c.levels fun l => l.pend.isSome
  | 2 => d.countChans (·.tripped)
  | 3 => d.pins.holdoff
  | _ => 0

/-- Parameters of group 0x03. -/
def Dev.param03 (d : Dev) (n : Nat) : Nat :=
  match n with
  | 0 => d.countChans fun c => c.pmu.seq.isSome
  | 1 => d.countChans fun c => c.pmu.closed
  | 2 => d.countChans fun c => c.pmu.wave.isSome
  | 3 => d.countChans fun c => c.pmu.second
  | 4 => d.pins.limitEvents
  | _ => 0

/-- Parameters of group 0x04. -/
def Dev.param04 (d : Dev) (n : Nat) : Nat :=
  match n with
  | 0 => d.pendingTiming
  | 1 => d.ownedTdcs
  | 2 => d.pins.tdcMissed
  | 3 => d.spareSlices
  | 4 => d.countChans (·.noSlice)
  | _ => 0

/-- Parameters of group 0x05. -/
def Dev.param05 (d : Dev) (n : Nat) : Nat :=
  match n with
  | 0 => d.countThreads fun t => t.st != .idle
  | 1 => d.countThreads fun t => t.st == .hold || t.st == .underrun || t.st == .chold
  | 2 => d.seq.trigWidth
  | 3 => d.seq.segEvents.toNat
  | 4 => d.seq.recSeg.toNat
  | 5 => d.seq.underruns
  | 6 => d.seq.progErrs
  | 7 => d.seq.stallTime
  | _ => 0

/-- Parameters of group 0x06. -/
def Dev.param06 (d : Dev) (n : Nat) : Nat :=
  match n with
  | 0 => d.uc.patchWord
  | 1 => d.uc.custWords
  | 2 => d.spareRows
  | 3 => d.uc.corrected
  | 4 => d.uc.pollMax
  | _ => 0

/-- Parameters of group 0x07. -/
def Dev.param07 (d : Dev) (n : Nat) : Nat :=
  match n with
  | 0 => d.pat.depthDefault
  | 1 => d.workingTiles
  | 2 => d.pat.demands
  | 3 => d.pat.drops
  | 4 => d.pat.checkFails
  | 5 => d.pat.faultMax
  | 6 => d.pat.dram
  | _ => 0

/-- Parameters of group 0x08. -/
def Dev.param08 (d : Dev) (n : Nat) : Nat :=
  match n with
  | 0 => d.cap.fill
  | 1 => d.cap.hiMark
  | 2 => d.cap.loMark
  | 3 => d.cap.poisoned
  | 4 => d.cap.flushed
  | 5 => d.cap.drops
  | 6 => d.cap.discarded
  | 7 => d.cap.xtLost
  | 8 => bit d.cap.flowGate
  | 9 => d.cap.flowDelays
  | 10 => d.cap.failLogLost
  | _ => 0

/-- Parameters of group 0x09. -/
def Dev.param09 (d : Dev) (n : Nat) : Nat :=
  match n with
  | 0 => ((List.range 16).filter fun b => d.laneBusy b).length
  | 1 => d.dspMap
  | 2 => d.dsp.drops
  | 3 => d.dsp.skips
  | 4 => d.dsp.satRuns
  | _ => 0

/-- Parameters of group 0x0A. -/
def Dev.param0A (d : Dev) (n : Nat) : Nat :=
  match n with
  | 0 => d.mi.state
  | 1 => packFields [(16, d.mi.fwVersion.toNat), (16, (d.mi.cal.map calVersion).getD 0)]
  | 2 => d.mi.seq
  | 3 => prefix128 d.mi.digest
  | 4 => min 64 d.mi.port.length
  | 5 => d.mi.crcErrors
  | 6 => d.mi.results
  | _ => 0

/-- Parameters of group 0x0B. -/
def Dev.param0B (d : Dev) (n : Nat) : Nat :=
  match n with
  | 0 => d.cal.threshold
  | 1 => d.cal.control.toNat
  | 2 => d.calState
  | 3 => twos 32 d.cal.tCal
  | 4 => d.dueTaps.length
  | 5 => d.cal.runs
  | 6 => countCells d.cal.quality (·.warn)
  | _ => 0

/-- Parameters of group 0x0C. -/
def Dev.param0C (d : Dev) (n : Nat) : Nat :=
  match n with
  | 0 => twos 32 d.hk.tj
  | 1 => d.thermalState
  | 2 => d.hk.supplyOut.toNat
  | 3 => d.hk.enables
  | 4 => d.hk.rounds % 2 ^ 32
  | 5 => d.hk.invalids
  | 6 => twos 32 (d.hk.tjMax.getD 0)
  | _ => 0

/-- Parameters of group 0x0D. -/
def Dev.param0D (d : Dev) (n : Nat) : Nat :=
  match n with
  | 0 => d.fc.holdoff
  | 1 => d.fc.overruns
  | 2 => d.fc.injected
  | 3 => d.fc.decafState
  | 4 => d.log.gen.toNat
  | 5 => d.log.lost
  | 6 => packFields [(8, d.board.logPerm.length), (8, min 255 d.log.writeFails), (16, d.log.closing.length)]
  | 7 => d.log.closeIdle
  | 8 => d.log.extWindow
  | _ => 0

/-- Parameters of group 0x0E. -/
def Dev.param0E (d : Dev) (n : Nat) : Nat :=
  match n with
  | 0 => d.tree.size
  | 1 => (d.tree.nodes.map fun n => n.path.length).foldl max 0
  | 2 => d.hostLink
  | 3 => packFields ((List.range 4).map fun p => (8, (d.port p).byte))
  | 4 => d.tree.linkTimeout
  | 5 => d.tree.retrains
  | 6 => d.tree.replays
  | 7 => twos 32 d.tree.tampOffset
  | 8 => d.tree.brewTime
  | 9 => tampInterval
  | 10 => d.tree.notAdmitted
  | _ => 0

/-- Parameters of group 0x0F. -/
def Dev.param0F (d : Dev) (straps : Straps) (fuses : Fuses) (n : Nat) : Nat :=
  match n with
  | 0 => strapsWord straps
  | 1 => d.boot.state
  | 2 => fuses.rollback
  | 3 => packFields [(16, d.boot.version), (8, d.boot.svn)]
  | 4 => d.spareMarks
  | 5 => d.boot.health
  | _ => 0

/-- Parameters of group 0x10. -/
def Dev.param10 (d : Dev) (n : Nat) : Nat :=
  match n with
  | 0 => d.flash.clk
  | 1 => d.flash.dummy
  | 2 => d.flash.poll
  | 3 => d.flash.state
  | 4 => d.flash.collisions
  | 5 => d.flash.badWords
  | 6 => d.flash.capacity
  | _ => 0

/-- The value of a parameter before it is cut to its width. -/
def Dev.paramRaw (d : Dev) (straps : Straps) (fuses : Fuses) (id : Nat) : Nat :=
  match id / 256 with
  | 0 => d.param00 (id % 256)
  | 1 => d.param01 (id % 256)
  | 2 => d.param02 (id % 256)
  | 3 => d.param03 (id % 256)
  | 4 => d.param04 (id % 256)
  | 5 => d.param05 (id % 256)
  | 6 => d.param06 (id % 256)
  | 7 => d.param07 (id % 256)
  | 8 => d.param08 (id % 256)
  | 9 => d.param09 (id % 256)
  | 10 => d.param0A (id % 256)
  | 11 => d.param0B (id % 256)
  | 12 => d.param0C (id % 256)
  | 13 => d.param0D (id % 256)
  | 14 => d.param0E (id % 256)
  | 15 => d.param0F straps fuses (id % 256)
  | 16 => d.param10 (id % 256)
  | _ => 0

/-- The value of a parameter, within its width. -/
def Dev.param (d : Dev) (straps : Straps) (fuses : Fuses) (id : Nat) : Nat :=
  let v := d.paramRaw straps fuses id
  match paramKind id with
  | some (w, _) => v % 2 ^ w
  | none => 0

/-- What a count holds after a read that clears it: what was counted at this stamp and the read did not return (R8). -/
def Dev.kept (d : Dev) (id cur : Nat) : Nat := cur - d.tl.before.get 0 id

/-- What a maximum holds after a read that clears it: a maximum set at this stamp, which the read did not return (R8). -/
def Dev.keptMax (d : Dev) (id cur : Nat) : Nat := if d.tl.before.get 0 id = cur then 0 else cur

/-- What stood in a field that a read clears, before the sets of this stamp (R8): the value that the read returns. -/
def Dev.rcValue (d : Dev) (id : Nat) : Nat :=
  let v := d.tl.before.get 0 id
  if id = 0x0C06 then v - 1 else v

/-- The bits that a W1C write clears: those that stood when the present stamp was reached (R7). -/
def Dev.w1c (d : Dev) (off : Nat) (v : Nat) : Nat := v &&& d.tl.before.get 0 (0x10000 + off)

/-- What a read returned or a write cleared no longer stands. -/
def Dev.spent (d : Dev) (key : Nat) (left : Nat) : Dev := { d with tl := { d.tl with before := d.tl.before.set 0 key left } }

/-- RC parameters of group 0x00 clear. -/
def Dev.clearParam00 (d : Dev) (n : Nat) : Dev :=
  match n with
  | 4 => { d with ctl := { d.ctl with evtLost := d.kept 0x0004 d.ctl.evtLost } }
  | 5 => { d with ctl := { d.ctl with dupTags := d.kept 0x0005 d.ctl.dupTags } }
  | 6 => { d with ctl := { d.ctl with preempts := d.kept 0x0006 d.ctl.preempts } }
  | 7 => { d with ctl := { d.ctl with resStall := d.kept 0x0007 d.ctl.resStall } }
  | 8 => { d with ctl := { d.ctl with dispatchMax := d.keptMax 0x0008 d.ctl.dispatchMax } }
  | 9 => { d with ctl := { d.ctl with doorbells := d.kept 0x0009 d.ctl.doorbells } }
  | _ => d

/-- RC parameters of group 0x03 clear. -/
def Dev.clearParam03 (d : Dev) (n : Nat) : Dev :=
  match n with
  | 4 => { d with pins := { d.pins with limitEvents := d.kept 0x0304 d.pins.limitEvents } }
  | _ => d

/-- RC parameters of group 0x04 clear. -/
def Dev.clearParam04 (d : Dev) (n : Nat) : Dev :=
  match n with
  | 2 => { d with pins := { d.pins with tdcMissed := d.kept 0x0402 d.pins.tdcMissed } }
  | _ => d

/-- RC parameters of group 0x05 clear. -/
def Dev.clearParam05 (d : Dev) (n : Nat) : Dev :=
  match n with
  | 5 => { d with seq := { d.seq with underruns := d.kept 0x0505 d.seq.underruns } }
  | 6 => { d with seq := { d.seq with progErrs := d.kept 0x0506 d.seq.progErrs } }
  | 7 => { d with seq := { d.seq with stallTime := d.kept 0x0507 d.seq.stallTime } }
  | _ => d

/-- RC parameters of group 0x06 clear. -/
def Dev.clearParam06 (d : Dev) (n : Nat) : Dev :=
  match n with
  | 3 => { d with uc := { d.uc with corrected := d.kept 0x0603 d.uc.corrected } }
  | 4 => { d with uc := { d.uc with pollMax := d.keptMax 0x0604 d.uc.pollMax } }
  | _ => d

/-- RC parameters of group 0x07 clear. -/
def Dev.clearParam07 (d : Dev) (n : Nat) : Dev :=
  match n with
  | 2 => { d with pat := { d.pat with demands := d.kept 0x0702 d.pat.demands } }
  | 3 => { d with pat := { d.pat with drops := d.kept 0x0703 d.pat.drops } }
  | 4 => { d with pat := { d.pat with checkFails := d.kept 0x0704 d.pat.checkFails } }
  | 5 => { d with pat := { d.pat with faultMax := d.keptMax 0x0705 d.pat.faultMax } }
  | _ => d

/-- RC parameters of group 0x08 clear. -/
def Dev.clearParam08 (d : Dev) (n : Nat) : Dev :=
  match n with
  | 3 => { d with cap := { d.cap with poisoned := d.kept 0x0803 d.cap.poisoned } }
  | 4 => { d with cap := { d.cap with flushed := d.kept 0x0804 d.cap.flushed } }
  | 5 => { d with cap := { d.cap with drops := d.kept 0x0805 d.cap.drops } }
  | 6 => { d with cap := { d.cap with discarded := d.kept 0x0806 d.cap.discarded } }
  | 7 => { d with cap := { d.cap with xtLost := d.kept 0x0807 d.cap.xtLost } }
  | 9 => { d with cap := { d.cap with flowDelays := d.kept 0x0809 d.cap.flowDelays } }
  | 10 => { d with cap := { d.cap with failLogLost := d.kept 0x080A d.cap.failLogLost } }
  | _ => d

/-- RC parameters of group 0x09 clear. -/
def Dev.clearParam09 (d : Dev) (n : Nat) : Dev :=
  match n with
  | 2 => { d with dsp := { d.dsp with drops := d.kept 0x0902 d.dsp.drops } }
  | 3 => { d with dsp := { d.dsp with skips := d.kept 0x0903 d.dsp.skips } }
  | 4 => { d with dsp := { d.dsp with satRuns := d.kept 0x0904 d.dsp.satRuns } }
  | _ => d

/-- RC parameters of group 0x0A clear. -/
def Dev.clearParam0A (d : Dev) (n : Nat) : Dev :=
  match n with
  | 5 => { d with mi := { d.mi with crcErrors := d.kept 0x0A05 d.mi.crcErrors } }
  | 6 => { d with mi := { d.mi with results := d.kept 0x0A06 d.mi.results } }
  | _ => d

/-- RC parameters of group 0x0B clear. -/
def Dev.clearParam0B (d : Dev) (n : Nat) : Dev :=
  match n with
  | 5 => { d with cal := { d.cal with runs := d.kept 0x0B05 d.cal.runs } }
  | _ => d

/-- RC parameters of group 0x0C clear. -/
def Dev.clearParam0C (d : Dev) (n : Nat) : Dev :=
  match n with
  | 5 => { d with hk := { d.hk with invalids := d.kept 0x0C05 d.hk.invalids } }
  | 6 => if d.kept 0x0C06 (match d.hk.tjMax with | some v => twos 32 v + 1 | none => 0) = 0 then
      { d with hk := { d.hk with tjMax := none } } else d
  | _ => d

/-- RC parameters of group 0x0D clear. -/
def Dev.clearParam0D (d : Dev) (n : Nat) : Dev :=
  match n with
  | 1 => { d with fc := { d.fc with overruns := d.kept 0x0D01 d.fc.overruns } }
  | 2 => { d with fc := { d.fc with injected := d.kept 0x0D02 d.fc.injected } }
  | 5 => { d with log := { d.log with lost := d.kept 0x0D05 d.log.lost } }
  | _ => d

/-- RC parameters of group 0x0E clear. -/
def Dev.clearParam0E (d : Dev) (n : Nat) : Dev :=
  match n with
  | 5 => { d with tree := { d.tree with retrains := d.kept 0x0E05 d.tree.retrains } }
  | 6 => { d with tree := { d.tree with replays := d.kept 0x0E06 d.tree.replays } }
  | _ => d

/-- RC parameters of group 0x10 clear. -/
def Dev.clearParam10 (d : Dev) (n : Nat) : Dev :=
  match n with
  | 4 => { d with flash := { d.flash with collisions := d.kept 0x1004 d.flash.collisions } }
  | 5 => { d with flash := { d.flash with badWords := d.kept 0x1005 d.flash.badWords } }
  | _ => d

/-- An RC parameter clears as it is read (R6, R364), but for what was set at this very stamp (R8). -/
def Dev.clearRc (d : Dev) (id : Nat) : Dev :=
  match id / 256 with
  | 0 => d.clearParam00 (id % 256)
  | 3 => d.clearParam03 (id % 256)
  | 4 => d.clearParam04 (id % 256)
  | 5 => d.clearParam05 (id % 256)
  | 6 => d.clearParam06 (id % 256)
  | 7 => d.clearParam07 (id % 256)
  | 8 => d.clearParam08 (id % 256)
  | 9 => d.clearParam09 (id % 256)
  | 10 => d.clearParam0A (id % 256)
  | 11 => d.clearParam0B (id % 256)
  | 12 => d.clearParam0C (id % 256)
  | 13 => d.clearParam0D (id % 256)
  | 14 => d.clearParam0E (id % 256)
  | 16 => d.clearParam10 (id % 256)
  | _ => d

/-- CTL.PGET has read a parameter: an RC parameter clears. -/
def Dev.clearParam (d : Dev) (id : Nat) : Dev :=
  match paramKind id with
  | some (_, .rc) => (d.clearRc id).spent id 0
  | _ => d

/-- The value of a parameter that CTL.PGET returns (R8, R364). -/
def Dev.readParam (d : Dev) (straps : Straps) (fuses : Fuses) (id : Nat) : Nat :=
  match paramKind id with
  | some (w, .rc) => d.rcValue id % 2 ^ w
  | _ => d.param straps fuses id

/-- A value within a range is stored. -/
def ranged (lo hi v : Nat) (d : Dev) : Option Dev := if lo ≤ v ∧ v ≤ hi then some d else none

/-- RW parameters of group 0x01. -/
def Dev.setParam01 (d : Dev) (n v : Nat) : Option Dev :=
  match n with
  | 4 => ranged 1000 1000000 v { d with tl := { d.tl with holdoverLimit := v } }
  | _ => none

/-- RW parameters of group 0x02. -/
def Dev.setParam02 (d : Dev) (n v : Nat) : Option Dev :=
  match n with
  | 3 => ranged 1 1000000 v { d with pins := { d.pins with holdoff := v } }
  | _ => none

/-- RW parameters of group 0x05. -/
def Dev.setParam05 (d : Dev) (n v : Nat) : Option Dev :=
  match n with
  | 2 => ranged 1 255 v { d with seq := { d.seq with trigWidth := v } }
  | 3 => ranged 0 (2 ^ 64 - 1) v { d with seq := { d.seq with segEvents := BitVec.ofNat 64 v } }
  | 4 => ranged 0 (2 ^ 64 - 1) v { d with seq := { d.seq with recSeg := BitVec.ofNat 64 v } }
  | _ => none

/-- RW parameters of group 0x07. -/
def Dev.setParam07 (d : Dev) (n v : Nat) : Option Dev :=
  match n with
  | 0 => ranged 0 64 v { d with pat := { d.pat with depthDefault := v } }
  | _ => none

/-- RW parameters of group 0x08. -/
def Dev.setParam08 (d : Dev) (n v : Nat) : Option Dev :=
  match n with
  | 1 => ranged (max 256 (d.cap.loMark + 256)) 16128 v { d with cap := ({ d.cap with hiMark := v } : Cap).marks d.mono }
  | 2 => ranged 0 (d.cap.hiMark - 256) v { d with cap := ({ d.cap with loMark := v } : Cap).marks d.mono }
  | 8 => ranged 0 1 v { d with cap := { d.cap with flowGate := v == 1 } }
  | _ => none

/-- RW parameters of group 0x0B. -/
def Dev.setParam0B (d : Dev) (n v : Nat) : Option Dev :=
  match n with
  | 0 => ranged 1 16 v { d with cal := { d.cal with threshold := v } }
  | 1 => ranged 0 3 v { d with cal := { d.cal with control := BitVec.ofNat 2 v } }
  | _ => none

/-- RW parameters of group 0x0D. -/
def Dev.setParam0D (d : Dev) (n v : Nat) : Option Dev :=
  match n with
  | 0 => ranged 1 60000 v { d with fc := { d.fc with holdoff := v } }
  | 7 => ranged 100 60000 v { d with log := { d.log with closeIdle := v } }
  | 8 => ranged 60 86400 v { d with log := { d.log with extWindow := v } }
  | _ => none

/-- RW parameters of group 0x0E. -/
def Dev.setParam0E (d : Dev) (n v : Nat) : Option Dev :=
  match n with
  | 4 => ranged 5 1000 v { d with tree := { d.tree with linkTimeout := v } }
  | _ => none

/-- RW parameters of group 0x10. -/
def Dev.setParam10 (d : Dev) (n v : Nat) : Option Dev :=
  match n with
  | 0 => ranged 0 3 v { d with flash := { d.flash with clk := v } }
  | 1 => ranged 4 31 v { d with flash := { d.flash with dummy := v } }
  | 2 => ranged 1 100 v { d with flash := { d.flash with poll := v } }
  | _ => none

/-- A write to an RW parameter; none where the value is out of its range or a reserved field of it is not zero (R364). -/
def Dev.setParam (d : Dev) (id v : Nat) : Option Dev :=
  match id / 256 with
  | 1 => d.setParam01 (id % 256) v
  | 2 => d.setParam02 (id % 256) v
  | 5 => d.setParam05 (id % 256) v
  | 7 => d.setParam07 (id % 256) v
  | 8 => d.setParam08 (id % 256) v
  | 11 => d.setParam0B (id % 256) v
  | 13 => d.setParam0D (id % 256) v
  | 14 => d.setParam0E (id % 256) v
  | 16 => d.setParam10 (id % 256) v
  | _ => none

/-- Code of a width in an entry of CTL.PGET (R364). -/
def widthCode (w : Nat) : Nat := if w = 256 then 3 else if w = 128 then 2 else if w = 64 then 1 else 0

end Sys2Proof.Machine
end

