-- ==== Sys2Proof/Machine/Control.lean ====
section
/-!
DEFINITION. The meanings of the mailbox interface and of the control commands (13_control_and_mailboxes.md): rings and
doorbells, the fetch of entries, held completions and events, DMA, interrupts, windows, parameters.
-/
namespace Sys2Proof.Machine

/-- BAR0 exists: not in the worker role, while firmware runs and the host attachment is up (R504). -/
def barUp (s : State) : Bool := !s.straps.isWorker && s.dev.boot.firmware && s.dev.tree.tunnel && !s.dev.tree.attachLost

/-- An access to BAR0 at a stamp; nothing where BAR0 does not exist. -/
def onBar (s : State) (t : Nat) (f : Dev → Dev) : Host.Outcome State Fault Refusal :=
  onDev s fun d => if barUp s then f (d.advance t) else d

/-! ### Opcodes (R365) -/

/-- Highest opcode of each group. -/
def lastOpcode (g : Nat) : Nat :=
  [0x09, 0x04, 0x08, 0x09, 0x06, 0x0B, 0x03, 0x09, 0x0B, 0x06, 0x0D, 0x03, 0x02, 0x09, 0x03, 0x05, 0x04].getD g 0

/-- The opcode is defined (R365). -/
def opcodeDefined (op : BitVec 16) : Bool := decide (op.toNat / 256 ≤ 0x10 ∧ op.toNat % 256 ≤ lastOpcode (op.toNat / 256))

/-- Commands that act only on the device that owns the rings, or only on the manager (R366, R403). -/
def ownerOnly (op : BitVec 16) : Bool := op ∈ [0x0004, 0x0005, 0x0006, 0x0007, 0x0008, 0x0009, 0x0E01, 0x0E02]

/-! ### Rings (R341, R344, R507, R508) -/

/-- Base and size of a ring satisfy R341. -/
def ringGood (area : Nat) (r : RingCfg) : Bool :=
  let n := r.size.toNat
  decide (r.base.toNat % 4096 = 0) && n.isPowerOfTwo &&
    (if area = 0 then decide (64 ≤ n ∧ n ≤ 4096) else decide (256 ≤ n ∧ n ≤ 65536))

/-- A ring after a write to its control register; none where its enable fails. -/
def RingCfg.control (r : RingCfg) (area : Nat) (en : Bool) : Option RingCfg :=
  if !en then some { r with en := false }
  else if r.en then some r
  else if ringGood area r then some { r with en := true, head := 0, tail := 0, phase := decide (area ≠ 0) }
  else none

/-- A write to CMD_CTRL, CPL_CTRL or EVT_CTRL (R341, R507). -/
def Dev.writeRingCtrl (d : Dev) (area : BitVec 2) (value : BitVec 32) : Dev :=
    let en := value.getLsbD 0
    let ring := if area = 0 then d.ctl.cmd else if area = 1 then d.ctl.cpl else d.ctl.evt
    if area = 3 then d
    else match ring.control area.toNat en with
      | none => { d with regs := { d.regs with errGeom := d.regs.errGeom ||| (1 <<< area.toNat) } }
      | some r =>
        let fresh := en && !ring.en
        if area = 0 then { d with ctl := { d.ctl with cmd := r } }
        else if area = 1 then { d with ctl := { d.ctl with cpl := r, cplOut := if fresh then [] else d.ctl.cplOut } }
        else { d with ctl := { d.ctl with evt := r, evtOut := if fresh then [] else d.ctl.evtOut } }

/-- CMD_CTRL, CPL_CTRL or EVT_CTRL is written. -/
def execRingCtrlWrite (t : Nat) (area : BitVec 2) (value : BitVec 32) (s : State) : Host.Outcome State Fault Refusal :=
  onBar s t fun d => d.writeRingCtrl area value

/-- A doorbell write is ignored: it counts and posts its event (R344, R508). -/
def Dev.badDoorbell (d : Dev) (ring : Nat) : Dev :=
  let d : Dev := { d with ctl := { d.ctl with doorbells := satAdd (2 ^ 32 - 1) d.ctl.doorbells 1 } }
  d.post 514 2 [(ring : Int)]

/-- A write to CMD_TAIL. Indices count modulo the ring, so that every index of the ring lies between CMD_HEAD and itself:
only a value of the ring size or more moves past it (R344; log entry 60). -/
def Dev.writeCmdTail (d : Dev) (value : BitVec 32) : Dev :=
    if ¬ d.ctl.cmd.en ∨ value.toNat ≥ d.ctl.cmd.size.toNat then d.badDoorbell 0
    else { d with ctl := { d.ctl with cmd := { d.ctl.cmd with tail := value.toNat } } }

/-- CMD_TAIL is written. -/
def execCmdTailWrite (t : Nat) (value : BitVec 32) (s : State) : Host.Outcome State Fault Refusal :=
  onBar s t fun d => d.writeCmdTail value

/-- Distance between two indices of a ring. -/
def ringDist (size a b : Nat) : Nat := (b + size - a) % max 1 size

/-- A head doorbell frees so many entries; none where the write is ignored. -/
def RingCfg.freed (r : RingCfg) (v : Nat) : Option Nat :=
  let n := r.size.toNat
  if r.en && decide (v < n ∧ ringDist n r.head v ≤ ringDist n r.head r.tail) then some (ringDist n r.head v) else none

/-- A write to CPL_HEAD (R508). -/
def Dev.writeCplHead (d : Dev) (value : BitVec 32) : Dev :=
    match d.ctl.cpl.freed value.toNat with
    | none => d.badDoorbell 1
    | some n => { d with ctl := { d.ctl with cpl := { d.ctl.cpl with head := value.toNat }, cplOut := d.ctl.cplOut.drop n } }

/-- CPL_HEAD is written. -/
def execCplHeadWrite (t : Nat) (value : BitVec 32) (s : State) : Host.Outcome State Fault Refusal :=
  onBar s t fun d => d.writeCplHead value

/-- A write to EVT_HEAD (R508). -/
def Dev.writeEvtHead (d : Dev) (value : BitVec 32) : Dev :=
    match d.ctl.evt.freed value.toNat with
    | none => d.badDoorbell 2
    | some n => { d with ctl := { d.ctl with evt := { d.ctl.evt with head := value.toNat }, evtOut := d.ctl.evtOut.drop n } }

/-- EVT_HEAD is written. -/
def execEvtHeadWrite (t : Nat) (value : BitVec 32) (s : State) : Host.Outcome State Fault Refusal :=
  onBar s t fun d => d.writeEvtHead value

/-- The packets that reach into the last `n` bytes written to the result area. -/
def lastPackets (n : Nat) : List Packet → List Packet
  | [] => []
  | p :: ps => if (ps.map fun q => 8 * q.len).sum ≥ n then lastPackets n ps else p :: ps

/-- A write to RES_HEAD (R508). -/
def Dev.writeResHead (d : Dev) (value : BitVec 32) : Dev :=
    let c := d.ctl
    let v := value.toNat
    if !c.resEn || decide (v ≥ c.resSize ∨ v % 8 ≠ 0 ∨ ringDist c.resSize c.resHead v > ringDist c.resSize c.resHead c.resTail) then
      d.badDoorbell 3
    else
      { d with ctl := { c with resHead := v, resOut := lastPackets (ringDist c.resSize v c.resTail) c.resOut } }

/-- RES_HEAD is written. -/
def execResHeadWrite (t : Nat) (value : BitVec 32) (s : State) : Host.Outcome State Fault Refusal :=
  onBar s t fun d => d.writeResHead value

/-! ### Fetch (R340, R342, R344, R349 to R352) -/

/-- What is malformed in an entry whatever the state (R5, R342, R365). -/
def entryBad (e : Entry) : Bool :=
  e.rsv || !opcodeDefined e.opcode || decide (e.respAddr.toNat % 64 ≠ 0 ∨ e.respLen.toNat % 64 ≠ 0) ||
  (e.argLen != 0 && decide (e.argAddr.toNat % 64 ≠ 0))

/-- The host buffers that an entry names. -/
def entryBuffers (e : Entry) : List (Nat × Nat) :=
  (if e.respLen = 0 then [] else [(e.respAddr.toNat, e.respLen.toNat)]) ++
  (if e.argLen = 0 then [] else [(e.argAddr.toNat, e.argLen.toNat)])

/-- The positions that an entry addresses (R349): none for this device itself. -/
def Dev.entryTargets (d : Dev) (e : Entry) : List (BitVec 8) :=
  let ids := 0 :: d.tree.nodes.map (·.id)
  if e.tkind = 0 then []
  else if e.tkind = 1 then (if e.tid = 0 then [] else [e.tid])
  else if e.tkind = 2 then ids.filter fun i => (d.tree.groups.get 0 e.tid.toNat).getLsbD i.toNat
  else ids

/-- The target of an entry names something (R349), and its command may act there (R350, R366). -/
def Dev.targetGood (d : Dev) (standalone : Bool) (e : Entry) : Bool :=
  if e.tkind = 0 ∨ (e.tkind = 1 ∧ e.tid = 0) then true
  else if standalone || ownerOnly e.opcode then false
  else if e.tkind = 1 then d.tree.nodes.any fun n => n.id == e.tid
  else (e.tkind == 3 || decide (e.tid.toNat < 32)) && d.entryTargets e != [] && e.respLen == 0

/-- A command in flight ends as a whole. -/
def Dev.endWhole (d : Dev) (tag : Tag) (st : BitVec 4) : Dev :=
  { d with ctl := { d.ctl with flights := modFlight tag (fun f => { f with
      targets := []
      done := some { tag := tag, stream := f.stream, opcode := f.opcode, status := st, position := d.tree.position } }) d.ctl.flights } }

/-- A device's share that the manager itself completes (R351, R398). -/
def Dev.shareFor (d : Dev) (tag : Tag) (id : BitVec 8) (st : BitVec 4) : Dev :=
  d.endShare tag (d.stampCpl { status := st, position := id, a := id.setWidth 16 })

/-- The shares of a command that go down the tree: those of lost devices end FAULT, those of devices that are not READY end
BUSY (R351, R398), the rest are awaited. -/
def Dev.forward (d : Dev) (tag : Tag) (ids : List (BitVec 8)) : Dev :=
  ids.foldl (fun d id =>
    match d.tree.nodes.find? fun n => n.id == id with
    | none => d
    | some n =>
      if n.lost then d.shareFor tag id stFault
      else if !n.ready && !n.decaf then d.shareFor tag id stBusy
      else d) d

/-- The downstream ports of this device behind which positions lie, as a mask (R389). -/
def Dev.portsTo (d : Dev) (ids : List (BitVec 8)) : BitVec 4 :=
  (List.range 4).foldl (fun m p =>
    if (d.tree.nodes.any fun n => ids.contains n.id && n.path.head? == some (BitVec.ofNat 2 p)) then m ||| (1 <<< p) else m) 0

/-- The flow gate of a SEQ.START that the manager forwards and has no part in (R270): its threads are the workers'; the target of an IMMEDIATE one is
the present (log entry 140). -/
def Dev.gateForward (d : Dev) (e : Entry) (args : Bytes) : Dev :=
  if ¬ d.cap.flowGate ∨ e.opcode ≠ 0x0505 ∨ (d.flight e.tag).any d.isMine then d
  else
    d.openGate { tag := e.tag, mask := 0, target := if bits (leAt args 26 1) 0 2 = 2 then d.tl.now else leAt args 16 8 }

/-- A command goes down the tree (R389, R396): one copy on each port that leads to a device addressed. -/
def Dev.sendDown (d : Dev) (e : Entry) (args : Bytes) (ids : List (BitVec 8)) : Dev :=
  let d : Dev := d.linkOut (.command e args (d.portsTo ids) (d.cap.flowGate && e.opcode == 0x0505))
  (d.forward e.tag ids).gateForward e args

/-- The flight of an entry. -/
def Dev.newFlight (d : Dev) (e : Entry) (o : Origin) : Flight :=
  { tag := e.tag, stream := e.stream, opcode := e.opcode, origin := o, perdev := e.perdev, respLen := some e.respLen.toNat
    buffers := entryBuffers e, targets := if o = .ring then d.entryTargets e else [], group := o = .ring && decide (2 ≤ e.tkind.toNat)
    gid := if e.tkind = 2 then some (e.tid.setWidth 5) else none }

/-- A command comes into flight from its entry; one that another command's tag keeps out, a malformed one and one for no
device complete at once; one for other devices is sent down the tree. -/
def Dev.takeEntry (d : Dev) (standalone : Bool) (e : Entry) (args : Bytes) (o : Origin) : Dev :=
  let h : Hdr := { tag := e.tag, stream := e.stream, rsv := e.rsv }
  if (d.flight e.tag).isSome then d.dupTag o h e.opcode
  else
    let f : Flight := d.newFlight e o
    let d : Dev := { d with ctl := { d.ctl with flights := d.ctl.flights ++ [f], orphans := d.orphaned e.tag } }
    let mine := d.isMine f
    if entryBad e || (o == .ring && (argsBad e args || !d.targetGood standalone e)) then
      match d.gate o { h with rsv := false } e.opcode with
      | some c => if mine && c.status != stOk then d.finish e.tag c else d.endWhole e.tag stBadarg
      | none => d.endWhole e.tag stBadarg
    else
      let others := f.targets.filter (· != d.tree.position)
      if others = [] then d
      else if d.fc.decaf.isSome ∧ opClass e.opcode ≠ 0 ∧ ¬ decafOp e.opcode then d.endWhole e.tag stDenied
      else if ¬ f.buffers.all d.ctl.inWindow then d.endWhole e.tag stBadarg
      else (if mine then d else d.accept e.tag).sendDown e args others

/-- The device fetches the entry at CMD_HEAD (R344, R352). The length of the dispatch step is a free value within 5 us
(R355; log entry 61). -/
def execCommandFetch (t : Nat) (e : Fetched) (s : State) : Host.Outcome State Fault Refusal :=
  onBar s t fun d =>
    let r := d.ctl.cmd
    if ¬ r.en ∨ r.head = r.tail then d
    else
      let (x, d) := d.fresh
      let d : Dev := { d with ctl := { d.ctl with
        cmd := { r with head := (r.head + 1) % max 1 r.size.toNat }, dispatchMax := max d.ctl.dispatchMax (x % 501) } }
      d.takeEntry s.straps.isStandalone (entryOf e.entry) (argBytes e.entry e.args) .ring

/-! ### Held completions and events, results (R347, R348) -/

/-- The entry that has just been written is part of what this command writes (R347). -/
def Dev.keepWritten (d : Dev) : Dev :=
  match d.ctl.written.getLast? with
  | some w => d.hostWrite w.1 w.2
  | none => d

/-- Ring space returns and a held completion is written, in the turn that R43 gives it; those of class 0 first. -/
def execHeldCompletionDrain (t : Nat) (s : State) : Host.Outcome State Fault Refusal :=
  onDev s fun d =>
    if ¬ d.ctl.cpl.room then d
    else match d.ctl.heldCpl0, d.ctl.heldCpl with
      | c :: cs, _ =>
        if d.mayWrite c then (({ d.advance t with ctl := { d.ctl with heldCpl0 := cs } } : Dev).ringCpl c).keepWritten else d
      | [], c :: cs =>
        if d.mayWrite c then (({ d.advance t with ctl := { d.ctl with heldCpl := cs } } : Dev).ringCpl c).keepWritten else d
      | [], [] => d

/-- Ring space returns and a held event is written, the events-lost event before any other; on a worker that has been
admitted the events held before go up the tree (R16, R349). -/
def execHeldEventDrain (t : Nat) (s : State) : Host.Outcome State Fault Refusal :=
  onDev s fun d =>
    if ¬ (d.ctl.evt.room ∨ d.tree.admitted) ∨ (d.ctl.lostOwed = 0 ∧ d.ctl.heldEvt = []) then d
    else if d.ctl.lostOwed = 0 ∧ ¬ d.ctl.heldEvt.any (fun e => d.inTurn (e.epoch != d.tl.epoch)) then d
    else
      let d : Dev := d.advance t
      if d.ctl.lostOwed ≠ 0 then
        let e : Evt := d.lostEvt
        let d : Dev := { d with ctl := { d.ctl with lostOwed := 0 } }
        if (d.ctl.srcs.get ({} : Src) 514).off then d else (d.sendEvt e).keepWritten
      else match d.ctl.heldEvt with
        | e :: es => (({ d with ctl := { d.ctl with heldEvt := es } } : Dev).sendEvt e).keepWritten
        | [] => d

/-- Bytes go to RES_TAIL and may wrap from the end of the result area to its start (R348). -/
def Dev.resultBytes (d : Dev) (bs : Bytes) : Dev :=
  let a := d.ctl.resBase.toNat
  let n := d.ctl.resSize - d.ctl.resTail
  let d : Dev := d.hostWrite (a + d.ctl.resTail) (bs.take n)
  if bs.length ≤ n then d else d.hostWrite a (bs.drop n)

/-- DMA2 has moved a packet, this device's own before those of its workers: into the result area, where RES_TAIL advances past it and the area's vector signals (R348,
R360), or, on an admitted worker, up the tree (R349). -/
def execResultPacketDma (t : Nat) (s : State) : Host.Outcome State Fault Refusal :=
  onDev s fun d =>
    match (d.ctl.dmaPacket.toList ++ d.ctl.downRes).head? with
    | none => d
    | some p =>
      if d.tree.admitted then
        ({ d.advance t with ctl := { d.ctl with dmaPacket := none, lastUp := some p } } : Dev).linkOut (.result p)
      else if ¬ d.ctl.resRoom (8 * p.len) then d
      else
        let d : Dev := d.advance t
        let d : Dev := d.resultBytes (packetBytes p)
        ({ d with ctl := { d.ctl with
            dmaPacket := none, downRes := if d.ctl.dmaPacket.isSome then d.ctl.downRes else d.ctl.downRes.tail
            resTail := (d.ctl.resTail + 8 * p.len) % max 1 d.ctl.resSize
            resOut := d.ctl.resOut ++ [p] } } : Dev).signal 2

/-! ### DMA engines, watchdogs, interrupts (R337 to R339, R361) -/

/-- The request that wins a granule boundary (R339): the lowest class; classes 2 and 3 alternate; within a class, the oldest. -/
def dmaWinner (last : BitVec 2) (l : List DmaReq) : Option DmaReq :=
  let low := l.filter fun r => decide (r.cls < 2)
  match low with
  | r :: rs => some (rs.foldl (fun m x => if x.cls < m.cls then x else m) r)
  | [] => match l.find? fun r => r.cls != last with
    | some r => some r
    | none => l.head?

/-- A granule boundary of a DMA engine, with a request that arrived since the last one: the winner moves one granule
(R339). -/
def execDmaGranuleBoundary (t : Nat) (engine : BitVec 3) (request : Option (BitVec 2 × Nat)) (s : State) :
    Host.Outcome State Fault Refusal :=
  onDev s fun d =>
    let x := d.ctl.dma.get ({} : Dma) engine.toNat
    let new : List DmaReq := match request with
      | some (c, n) => if n = 0 then [] else [{ cls := c, granule := 0, left := n }]
      | none => []
    let all := x.cur.toList ++ x.waiting ++ new
    match dmaWinner x.lastCls all with
    | none => d
    | some w =>
      if engine.toNat > 4 then d
      else
        let d : Dev := d.advance t
        let lost := x.cur.any (fun c => c != w) && decide (w.cls < 2)
        let w' : DmaReq := { w with granule := w.granule + 1, left := w.left - 1 }
        let x' : Dma := {
          cur := if w'.left = 0 then none else some w'
          waiting := all.erase w
          lastCls := if w.cls < 2 then x.lastCls else w.cls }
        { d with ctl := { d.ctl with
          dma := d.ctl.dma.set {} engine.toNat x', preempts := satAdd (2 ^ 32 - 1) d.ctl.preempts (bit lost) } }

/-- A control core's watchdog expires: a fatal fault of its line (R337). -/
def execWatchdogExpiry (t : Nat) (core : Bool) (s : State) : Host.Outcome State Fault Refusal :=
  onDev s fun d => if ¬ d.boot.firmware then d else (d.advance t).report (24 + bit core) 2 4 0xFFFF 0

/-- HOLDOFF of a vector has passed since the first entry after its last message (R361). -/
def execIrqHoldoffExpiry (t : Nat) (vector : BitVec 6) (s : State) : Host.Outcome State Fault Refusal :=
  onDev s fun d =>
    let q := d.ctl.irqs.get ({} : Irq) vector.toNat
    if q.n = 0 ∨ (d.advance t).mono < q.first + q.holdoff * usSteps then d else (d.advance t).message vector.toNat

/-! ### Control commands (R366) -/

/-- CTL.NOP. -/
def execCtlNop (h : Hdr) (s : State) : Host.Outcome State Fault Refusal := hostCmd s h 0x0000 fun d => d.ok h.tag

/-- CTL.INFO. -/
def execCtlInfo (h : Hdr) (s : State) : Host.Outcome State Fault Refusal :=
  hostCmd s h 0x0001 fun d =>
    d.okResp h.tag [(s.straps.role.toNat : Int), (d.tree.position.toNat : Int), (pathCode d.tree.path : Int), (ctlStepping : Int),
      (ctlVersion : Int), (d.tree.size : Int), (d.pat.dram : Int)]

/-- CTL.PGET (R364): each value coherently, in list order; an RC parameter clears as it is read. -/
def execCtlPget (h : Hdr) (ids : List (BitVec 16)) (s : State) : Host.Outcome State Fault Refusal :=
  hostCmd s h 0x0002 fun d =>
    if ids.length = 0 ∨ ids.length > 16 then d.refuse h.tag stBadarg
    else match ids.findIdx? fun i => (paramKind i.toNat).isNone with
      | some k => d.refuse h.tag stBadarg k
      | none =>
        let r := ids.foldl (fun (a : Dev × List Int) i =>
          let w := ((paramKind i.toNat).map (·.1)).getD 32
          (a.1.clearParam i.toNat,
            a.2 ++ [(i.toNat : Int), (widthCode w : Int), (a.1.readParam s.straps s.fuses i.toNat : Int)])) (d, [])
        r.1.okResp h.tag r.2

/-- CTL.PSET writes an entry: the new state, or the status that turns the command away. -/
def Dev.pset (d : Dev) (id : Nat) (v : Nat) : Except (BitVec 4) Dev :=
  match paramKind id with
  | none => .error stBadarg
  | some (w, a) =>
    if a ≠ .rw then .error stDenied
    else if v ≥ 2 ^ w then .error stBadarg
    else match d.setParam id v with
      | some d => .ok d
      | none => .error stBadarg

/-- The entries of CTL.PSET in list order, or the first one that is turned away. -/
def Dev.psetAll (d : Dev) : Nat → List (BitVec 16 × BitVec 256) → Except (BitVec 4 × Nat) Dev
  | _, [] => .ok d
  | k, e :: es =>
    match d.pset e.1.toNat e.2.toNat with
    | .ok d => Dev.psetAll d (k + 1) es
    | .error st => .error (st, k)

/-- CTL.PSET (R364): all of its entries or none. -/
def execCtlPset (h : Hdr) (entries : List (BitVec 16 × BitVec 256)) (s : State) : Host.Outcome State Fault Refusal :=
  hostCmd s h 0x0003 fun d =>
    if entries.length = 0 ∨ entries.length > 16 then d.refuse h.tag stBadarg
    else match d.psetAll 0 entries with
      | .ok d => d.ok h.tag
      | .error (st, k) => d.refuse h.tag st k

/-- A window holds the result area, a mapped host page or a buffer of an accepted command (R366). -/
def Dev.windowUsed (d : Dev) (i : Nat) : Bool :=
  match d.ctl.windows.get none i with
  | none => false
  | some w =>
    let has := fun (a n : Nat) => decide (w.1 ≤ a) && decide (a + n ≤ w.1 + w.2)
    (d.ctl.resEn && has d.ctl.resBase.toNat d.ctl.resSize) ||
    (d.pat.ptes.cells.any fun c => c.2.valid && c.2.tier == 2 && has (4096 * c.2.frame.toNat) 4096) ||
    (d.ctl.flights.any fun f => f.accepted && f.buffers.any fun b => has b.1 b.2)

/-- CTL.WINDOW (R340). -/
def execCtlWindow (h : Hdr) (index : BitVec 8) (base size : BitVec 64) (s : State) : Host.Outcome State Fault Refusal :=
  hostCmd s h 0x0004 fun d =>
    let i := index.toNat
    let a := base.toNat
    let n := size.toNat
    let meets := (List.range 8).any fun k => k != i && (d.ctl.windows.get none k).any fun w =>
      decide (a < w.1 + w.2) && decide (w.1 < a + n)
    if s.straps.isWorker then d.refuse h.tag stBadarg
    else if i > 7 then d.refuse h.tag stBadarg 0
    else if n ≠ 0 ∧ a % 4096 ≠ 0 then d.refuse h.tag stBadarg 1
    else if n % 4096 ≠ 0 ∨ n > 2 ^ 48 ∨ a + n > 2 ^ 64 then d.refuse h.tag stBadarg 2
    else if n ≠ 0 ∧ meets then d.refuse h.tag stBadarg 1
    else if d.windowUsed i then d.refuse h.tag stBusy i
    else ({ d with ctl := { d.ctl with windows := d.ctl.windows.set none i (if n = 0 then none else some (a, n)) } } : Dev).ok h.tag

/-- CTL.RESULTS (R341). A packet that DMA2 still holds while the area is disabled is not being written. -/
def execCtlResults (h : Hdr) (base : BitVec 64) (size : BitVec 32) (s : State) : Host.Outcome State Fault Refusal :=
  hostCmd s h 0x0005 fun d =>
    let n := size.toNat
    if s.straps.isWorker then d.refuse h.tag stBadarg
    else if n ≠ 0 ∧ (base.toNat % 4096 ≠ 0 ∨ ¬ d.ctl.inWindow (base.toNat, n)) then d.refuse h.tag stBadarg 0
    else if n ≠ 0 ∧ (¬ n.isPowerOfTwo ∨ n < 65536 ∨ n > 2 ^ 30) then d.refuse h.tag stBadarg 1
    else if d.cap.carafe ≠ [] ∨ (d.ctl.resEn ∧ d.ctl.dmaPacket.isSome) then d.refuse h.tag stBusy
    else
      let d : Dev := { d with ctl := { d.ctl with
        resBase := if n = 0 then d.ctl.resBase else base, resSize := if n = 0 then d.ctl.resSize else n
        resEn := decide (n ≠ 0), resHead := 0, resTail := 0, resOut := [] } }
      d.ok h.tag

/-- CTL.EVMAP (R360). -/
def execCtlEvmap (h : Hdr) (first count : BitVec 16) (vector : BitVec 8) (en : Bool) (s : State) :
    Host.Outcome State Fault Refusal :=
  hostCmd s h 0x0006 fun d =>
    let a := first.toNat
    let n := count.toNat
    if s.straps.isWorker then d.refuse h.tag stBadarg
    else if a > 639 then d.refuse h.tag stBadarg 0
    else if a + n > 640 then d.refuse h.tag stBadarg 1
    else if vector.toNat > 62 then d.refuse h.tag stBadarg 2
    else
      let d : Dev := { d with ctl := { d.ctl with
        srcs := forEach ((List.range n).map (a + ·)) (fun k t => t.set {} k { vector := vector.toNat, off := !en }) d.ctl.srcs } }
      d.ok h.tag

/-- CTL.CPLMAP (R360). -/
def execCtlCplmap (h : Hdr) (streams : BitVec 32) (vector : BitVec 8) (s : State) : Host.Outcome State Fault Refusal :=
  hostCmd s h 0x0007 fun d =>
    if s.straps.isWorker then d.refuse h.tag stBadarg
    else if vector.toNat > 62 then d.refuse h.tag stBadarg 1
    else
      let d : Dev := { d with ctl := { d.ctl with
        cplMap := forEach (members streams) (fun k t => t.set 0 k vector.toNat) d.ctl.cplMap } }
      d.ok h.tag

/-- CTL.IRQMOD (R361). -/
def execCtlIrqmod (h : Hdr) (vector : BitVec 8) (count holdoff : BitVec 16) (s : State) : Host.Outcome State Fault Refusal :=
  hostCmd s h 0x0008 fun d =>
    if s.straps.isWorker then d.refuse h.tag stBadarg
    else if vector.toNat > 62 then d.refuse h.tag stBadarg 0
    else if count = 0 ∨ count.toNat > 255 then d.refuse h.tag stBadarg 1
    else
      let d : Dev := { d with ctl := { d.ctl with
        irqs := d.ctl.irqs.mod {} vector.toNat fun q => { q with count := count.toNat, holdoff := holdoff.toNat } } }
      d.ok h.tag

/-- CTL.FLUSH_STREAM (R366): every fetched command of the streams that has not been accepted completes PREEMPTED. -/
def execCtlFlushStream (h : Hdr) (streams : BitVec 32) (s : State) : Host.Outcome State Fault Refusal :=
  hostCmd s h 0x0009 fun d =>
    if s.straps.isWorker then d.refuse h.tag stBadarg
    else
      let l := d.ctl.flights.filter fun f =>
        f.done == none && !f.accepted && f.tag != h.tag && streams.getLsbD f.stream.toNat && decide (opClass f.opcode ≠ 0)
      let d : Dev := l.foldl (fun d f => d.endWhole f.tag stPreempted) d
      d.okResp h.tag [(l.length : Int)]

end Sys2Proof.Machine
end

