-- ==== Sys2Proof/Machine/Tree.lean ====
section
/-!
DEFINITION. The meanings of the host attachment, the recovery function, the Tyisk ports and the tree
(14_tree_and_host.md).
-/
namespace Sys2Proof.Machine

/-! ### Host attachment (R373, R374) -/

/-- A host event of a new link mode (R373). -/
def Dev.linkMode (d : Dev) (mode : BitVec 3) : Dev :=
  if mode = d.tree.link then d
  else ({ d with tree := { d.tree with link := mode } } : Dev).post 605 1 [(mode.toNat : Int)]

/-- The host attachment is up. -/
def Tree.attached (t : Tree) : Bool := t.tunnel && !t.attachLost

/-- The host attachment is lost (R374). -/
def execHostAttachmentLoss (t : Nat) (mode : BitVec 3) (tunnel : Bool) (s : State) : Host.Outcome State Fault Refusal :=
  onDev s fun d =>
    if ¬ d.tree.attached ∨ mode.toNat > 4 then d
    else
      let d : Dev := d.advance t
      (d.loseHost d.tree.link tunnel).linkMode mode

/-- The host attachment comes up, or returns with a record (R374). -/
def execHostAttachmentRestored (t : Nat) (mode : BitVec 3) (s : State) : Host.Outcome State Fault Refusal :=
  onDev s fun d =>
    if s.straps.isWorker ∨ d.tree.attached ∨ mode = 0 ∨ mode.toNat > 4 then d
    else
      let d : Dev := d.advance t
      let d : Dev := if d.tree.attachLost then d.pushLog (d.logItem 0x0B 1 [0] [(mode.toNat : Int)]) else d
      ({ d with tree := { d.tree with tunnel := true, attachLost := false } } : Dev).linkMode mode

/-- The link mode changes while the attachment stands, or before it comes up (R373). -/
def execHostLinkModeChange (t : Nat) (mode : BitVec 3) (s : State) : Host.Outcome State Fault Refusal :=
  onDev s fun d =>
    if s.straps.isWorker ∨ mode.toNat > 4 ∨ mode = d.tree.link ∨ (mode = 0 ∧ d.tree.attached) then d
    else (d.advance t).linkMode mode

/-! ### Recovery function (R375, R376) -/

/-- The recovery function answers a command at once; `carried` says that it is the one that the function carries. -/
def Dev.recoveryReply (d : Dev) (carried : Bool) (c : Cpl) : Dev :=
  let c := d.stampCpl { c with position := d.tree.position }
  let d : Dev := d.takeSeq
  { d with ctl := { d.ctl with recovery := { d.ctl.recovery with replies := d.ctl.recovery.replies ++ [(carried, c)] } } }

/-- The recovery function accepts an opcode now (R376). -/
def Dev.recoveryTakes (d : Dev) (service : Bool) (op : BitVec 16) : Bool :=
  if d.ctl.cmd.en && d.fc.decaf.isNone && !service then op == 0x0001 || stateOp op
  else decafOp op || recoveryOp op

/-- A bulk OUT transfer carries a command (R376). -/
def execRecoveryCommand (t : Nat) (f : Fetched) (s : State) : Host.Outcome State Fault Refusal :=
  onDev s fun d =>
    if s.straps.isWorker then d
    else
      let e := entryOf f.entry
      let d : Dev := d.advance t
      let c : Cpl := { tag := e.tag, stream := e.stream, opcode := e.opcode }
      let d : Dev := { d with ctl := { d.ctl with recovery := { d.ctl.recovery with configured := true } } }
      if d.ctl.recovery.busy then d.recoveryReply false { c with status := stBusy }
      else
        let d : Dev := { d with ctl := { d.ctl with recovery := { d.ctl.recovery with busy := true, tag := e.tag } } }
        if (d.flight e.tag).isSome then
          ({ d with ctl := { d.ctl with dupTags := satAdd (2 ^ 32 - 1) d.ctl.dupTags 1 } } : Dev).recoveryReply true
            { c with status := stBadarg, duptag := true }
        else if entryBad e ∨ argsBad e (argBytes f.entry f.args) ∨ e.respAddr ≠ 0 ∨ e.argAddr ≠ 0 ∨ e.tkind ≠ 0 then d.recoveryReply true { c with status := stBadarg }
        else if ¬ d.recoveryTakes (s.straps.role == 3) e.opcode then d.recoveryReply true { c with status := stDenied }
        else { d with ctl := { d.ctl with flights := d.ctl.flights ++
          [{ tag := e.tag, stream := e.stream, opcode := e.opcode, origin := .recovery }], orphans := d.orphaned e.tag } }

/-- A bulk IN transfer returns a completion (R376). -/
def execRecoveryCompletionRead (t : Nat) (s : State) : Host.Outcome State Fault Refusal :=
  onDev s fun d =>
    let r := d.ctl.recovery
    match r.replies with
    | [] => d
    | (carried, c) :: rest =>
      let d : Dev := d.advance t
      { d with ctl := { d.ctl with recovery := { r with replies := rest, last := some c, busy := r.busy && !(carried && c.fin) } } }

/-! ### Ports (R380 to R383) -/

/-- A port carries traffic. -/
def Port.isUp (p : Port) : Bool := decide (2 ≤ p.up.toNat)

/-- Up on two lanes, or on one. -/
def Port.raised (p : Port) : Port :=
  { p with up := if popBelow 3 p.active.toNat ≥ 2 then 2 else if p.active = 0 then 0 else 3, down := none, lost := false }

/-- The lanes that training brings up (R381): L0 and L1, with L2 in the place of one that the lane map marks bad. -/
def Port.train (p : Port) : Port :=
  let good := (List.range 3).filter fun l => !p.badLanes.getLsbD l
  let act : BitVec 3 := (good.take 2).foldl (fun m l => m ||| (1 <<< l)) 0
  ({ p with active := act, spare := act.getLsbD 2, degraded := decide ((good.take 2).length = 1), redundant := false } : Port).raised

/-- The receiver of a bad packet asks for a replay (R380): the request leaves with the next marker blocks of that port. -/
def Dev.askReplay (d : Dev) (p : Nat) : Dev :=
  { d with ctl := { d.ctl with links := d.ctl.links.mod {} p fun x => { x with queue := { cls := 0, msg := .replay } :: x.queue } } }

/-- After a retrain the upstream side sends again the fires, action stamps and barrier markers of the 10 us before it began
(R382). -/
def Dev.sendAgain (d : Dev) (p : Nat) : Dev :=
  let began := (d.port p).down.getD d.mono
  if (d.port p).upstream then d
  else { d with ctl := { d.ctl with links := d.ctl.links.mod {} p fun x => { x with
    queue := ((x.recent.filter fun m => decide (began < m.1 + usSteps * 10)).map fun m => { cls := 0, msg := m.2 }) ++ x.queue } } }

/-- A worker learns that a cross-chip line is armed, or disarmed, from a stamp, and passes it on (R258). -/
def Dev.takeArm (d : Dev) (l : Nat) (on rearm : Bool) (epoch : BitVec 16) (stamp : Nat) : Dev :=
  let d : Dev := d.linkOut (.arm (BitVec.ofNat 2 l) on rearm epoch stamp)
  d.armLine l on rearm epoch stamp

/-- A barrier's release comes down the tree to a worker: it goes on downwards, and its stamp waits here (R176). -/
def Dev.takeRelease (d : Dev) (b : BitVec 5) (stamp : Nat) (broken : Bool) : Dev :=
  let d : Dev := d.linkOut (.release b stamp broken)
  { d with seq := { d.seq with barriers := d.seq.barriers.mod {} b.toNat fun x => { x with release := some stamp, broken := broken } } }

/-- A packet that has come in whole (R349, R378): from below, an event and a result packet of a worker go into the manager's Event
Ring and result area, or on upwards; from above, a start stamp and a group's membership concern this device and those below it; a
credit and a request for a replay concern the port. Commands and completions act through the rows of their own. -/
def Dev.linkIn (d : Dev) (p : Nat) (m : LinkMsg) : Dev :=
  match m with
  | .event e =>
    if d.tree.admitted then d.linkOut (.event e)
    else if (d.ctl.srcs.get ({} : Src) e.source.toNat).off then d
    else { d with ctl := { d.ctl with outbox := { d.ctl.outbox with events := d.ctl.outbox.events ++ [{ e with fwd := true }] } } }
  | .result k =>
    if d.tree.admitted then d.linkOut (.result k) else { d with ctl := { d.ctl with downRes := d.ctl.downRes ++ [k] } }
  | .start tag stamp delayed => (d.linkOut m).takeStart tag stamp delayed
  | .barrier b n => { d.linkOut m with seq := { d.seq with
      barriers := d.seq.barriers.mod {} b.toNat fun x => { x with count := n } } }
  | .members g set => { d.linkOut m with tree := { d.tree with groups := d.tree.groups.set 0 g.toNat set } }
  | .credit c n => { d with ctl := { d.ctl with
      links := d.ctl.links.mod {} p fun x => { x with spent := x.spent.mod 0 c.toNat (· - n) } } }
  | .replay => { d with ctl := { d.ctl with
      links := d.ctl.links.mod {} p fun x => { x with
        queue := x.replay ++ x.queue, replay := []
        spent := x.replay.foldl (fun t k => t.mod 0 k.cls.toNat (· - 1)) x.spent } } }
  | _ => d

/-- A packet is received; one that fails its check is replayed, and more than 16 replays within 1 ms retrain the port (R380,
R382). -/
def execLinkPacketReceived (t : Nat) (port : BitVec 2) (got : Option LinkMsg) (s : State) : Host.Outcome State Fault Refusal :=
  onDev s fun d =>
    let p := port.toNat
    if ¬ (d.port p).isUp then d
    else
      let d : Dev := d.advance t
      match got with
      | some m => d.linkIn p m
      | none =>
        let d : Dev := d.askReplay p
        let l := d.mono :: (d.port p).replays.filter fun x => decide (x + msSteps > d.mono)
        let d : Dev := { d with tree := { d.tree with replays := satAdd (2 ^ 32 - 1) d.tree.replays 1 } }
        if l.length > 16 then d.retrain p 1 else d.modPort p fun x => { x with replays := l }

/-- A marker block is received: one good copy is enough; when both fail, the marker is lost and the port retrains (R380). A
duplicate is discarded by its stamp (R382). -/
def execLinkMarkerReceived (t : Nat) (port : BitVec 2) (stamp : Nat) (content : LinkMsg) (goodA goodB : Bool) (s : State) :
    Host.Outcome State Fault Refusal :=
  onDev s fun d =>
    let p := port.toNat
    if ¬ (d.port p).isUp then d
    else
      let d : Dev := d.advance t
      if !goodA && !goodB then d.retrain p 2
      else if (d.port p).seenMarks.contains (stamp, content) then d
      else
        let d : Dev := d.modPort p fun x => { x with
          seenMarks := (stamp, content) :: x.seenMarks.filter fun m => decide (m.1 + 4 * msSteps ≥ stamp) }
        match content with
        | .arm line on rearm epoch at_ => if (d.port p).upstream then d.takeArm line.toNat on rearm epoch at_ else d
        | .release barrier at_ broken => if (d.port p).upstream then d.takeRelease barrier at_ broken else d
        | .delay total => if (d.port p).upstream then { d with tree := { d.tree with aboveDelay := total } } else d
        | _ => d

/-- A port begins to retrain (R382): cause 3 belongs to TREE.PORT. -/
def execPortRetrainStart (t : Nat) (port : BitVec 2) (cause : BitVec 2) (s : State) : Host.Outcome State Fault Refusal :=
  onDev s fun d =>
    if ¬ (d.port port.toNat).isUp ∨ cause = 3 then d else (d.advance t).retrain port.toNat cause.toNat

/-- A retrain ends (R382). -/
def execPortRetrainEnd (t : Nat) (port : BitVec 2) (s : State) : Host.Outcome State Fault Refusal :=
  onDev s fun d =>
    let p := port.toNat
    if (d.port p).up ≠ 1 then d
    else
      let d : Dev := ((d.advance t).sendAgain p).modPort p Port.raised
      d.endRetrain p { resp := [((d.port p).byte : Int)] }

/-- An active lane fails while the device is READY (R381): the port goes on with the other one, or is down. -/
def execLaneFailure (t : Nat) (port : BitVec 2) (lane : BitVec 2) (s : State) : Host.Outcome State Fault Refusal :=
  onDev s fun d =>
    let p := port.toNat
    let x := d.port p
    if ¬ d.boot.ready ∨ ¬ x.isUp ∨ lane = 3 ∨ ¬ x.active.getLsbD lane.toNat then d
    else
      let d : Dev := d.advance t
      let left : BitVec 3 := x.active &&& ~~~ (1#3 <<< lane.toNat)
      let d : Dev := d.modPort p fun x => { x with
        active := left, degraded := true, up := if left = 0 then 0 else 1, down := some d.mono, replays := [] }
      if left = 0 then d else d.post (601 + p) 2 [(lane.toNat : Int)]

/-- A port has stayed down for P.0E04 (R383). -/
def execPathLost (t : Nat) (port : BitVec 2) (s : State) : Host.Outcome State Fault Refusal :=
  onDev s fun d =>
    let p := port.toNat
    let x := d.port p
    match x.down with
    | none => d
    | some z =>
      if x.isUp ∨ x.lost ∨ (d.advance t).mono < z + d.tree.linkTimeout * msSteps then d
      else ((d.advance t).losePath p).endRetrain p { status := stFault, a := BitVec.ofNat 16 p }

/-- A lost port is up again: the devices below it that have not been reset since rejoin (R383). -/
def execPathRestored (t : Nat) (port : BitVec 2) (s : State) : Host.Outcome State Fault Refusal :=
  onDev s fun d =>
    let p := port.toNat
    if ¬ (d.port p).lost then d
    else
      let d : Dev := (d.advance t).modPort p fun x => if x.active = 0 then x.train else x.raised
      let back := (d.below p).filter fun n => n.lost && !n.reset
      let d : Dev := { d with tree := { d.tree with
        nodes := d.tree.nodes.map fun n => if back.any (fun m => m.id == n.id) then { n with lost := false } else n } }
      back.foldl (fun d n => d.post 600 5 [(n.id.toNat : Int)]) d

/-! ### Discovery (R384 to R387) -/

/-- A worker receives training requests (R384): in link-listen it answers the lowest parent position ID, then the lowest
port; once admitted, it holds the port REDUNDANT. -/
def execTrainingRequest (t : Nat) (requests : List (BitVec 2 × BitVec 8)) (s : State) : Host.Outcome State Fault Refusal :=
  onDev s fun d =>
    if ¬ s.straps.isWorker ∨ d.boot.step < 3 then d
    else if d.tree.admitted then
      (requests.filter fun r => !(d.port r.1.toNat).upstream && !(d.port r.1.toNat).isUp).foldl (fun d r =>
        d.modPort r.1.toNat fun x => { x with redundant := true, up := 0 }) (d.advance t)
    else if d.tree.parentId.isSome then d
    else match requests with
      | [] => d
      | r :: rs =>
        let best := rs.foldl (fun m x => if x.2 < m.2 ∨ (x.2 = m.2 ∧ x.1 < m.1) then x else m) r
        let d : Dev := (d.advance t).modPort best.1.toNat fun x => { x.train with upstream := true }
        { d with tree := { d.tree with parentId := some best.2 } }

/-- Position ID of the device at a path; the manager's is 0. -/
def Tree.idAt (t : Tree) (path : List (BitVec 2)) : Nat :=
  if path = [] then 0 else ((t.nodes.find? fun n => n.path == path).map fun n => n.id.toNat).getD 0

/-- Path of an admitted position. -/
def Tree.pathOf (t : Tree) (id : BitVec 8) : Option (List (BitVec 2)) :=
  if id = 0 then some [] else (t.nodes.find? fun n => n.id == id).map (·.path)

/-- Place of a device in the order of R386: level, parent position ID, parent port. -/
def Tree.orderOf (t : Tree) (n : Node) : Nat :=
  n.path.length * 2 ^ 16 + t.idAt n.path.dropLast * 4 + ((n.path.getLast?).map (·.toNat)).getD 0

/-- Position IDs of the devices that the discovery in progress has found, upwards from the highest that it keeps (R386,
R387). -/
def Tree.numbered (t : Tree) : Tree :=
  let old := t.nodes.filter fun n => decide (n.id.toNat ≤ t.fixed)
  let new := (t.nodes.filter fun n => decide (n.id.toNat > t.fixed)).insertionSort fun a b => t.orderOf a ≤ t.orderOf b
  { t with nodes := old ++ new.zipIdx.map fun x => { x.1 with id := BitVec.ofNat 8 (t.fixed + 1 + x.2) } }

/-- A device is not admitted (R386): cause, parent position, parent port. -/
def Dev.notAdmit (d : Dev) (cause parent port : Nat) : Dev :=
  ({ d with tree := { d.tree with notAdmitted := d.tree.notAdmitted + 1 } } : Dev).post 600 3
    [(cause : Int), (parent : Int), (port : Int)]

/-- A device is admitted at a path (R385 to R387), and the directory has an entry for it (R483); beyond 192 devices the last in the order of R386 is refused. -/
def Dev.takeIn (d : Dev) (path : List (BitVec 2)) (x : Ident) : Dev :=
  let count : Dev → Dev := fun d => { d with tree := { d.tree with rescan := d.tree.rescan.map fun r => (r.1, r.2 + 1) } }
  if d.tree.nodes.any (fun n => n.path == path) then
    count { d with tree := { d.tree with nodes := d.tree.nodes.map fun n => if n.path = path then
      { n with stepping := x.stepping, role := x.role, boot := x.boot, step := x.step, ready := false, decaf := false, lost := false, reset := false }
      else n } }
  else
    let n : Node := { id := 255, path := path, stepping := x.stepping, role := x.role, boot := x.boot, step := x.step }
    let tr : Tree := ({ d.tree with nodes := d.tree.nodes ++ [n] } : Tree).numbered
    let d : Dev := count { d with
      tree := { tr with nodes := tr.nodes.take 192 }
      board := if tr.nodes.length ≤ 192 then (d.board.assign path).1 else d.board }
    match tr.nodes[192]? with
    | some z => ({ d with tree := { d.tree with rescan := d.tree.rescan.map fun r => (r.1, r.2 - 1) } } : Dev).notAdmit 1
        (d.tree.idAt z.path.dropLast) (((z.path.getLast?).map fun p => p.toNat).getD 0)
    | none => d

/-- A trained worker's identification (R385): the manager admits or refuses the device; on the worker itself it is the
answer, with the position ID and the path that it is given (0: refused; log entry 62). -/
def execWorkerIdentification (t : Nat) (parent : BitVec 8) (port : BitVec 2) (id : Ident) (s : State) :
    Host.Outcome State Fault Refusal :=
  onDev s fun d =>
    if s.straps.isWorker then
      if d.tree.admitted ∨ d.tree.parentId.isNone then d
      else if id.given = 0 then
        let d : Dev := d.advance t
        { d with tree := { d.tree with
          parentId := none, ports := ⟨d.tree.ports.cells.map fun c => (c.1, if c.2.upstream then { c.2 with upstream := false, up := 0 } else c.2)⟩ } }
      else
        let d : Dev := d.advance t
        { d with
          tree := { d.tree with admitted := true, position := id.given, path := id.givenPath }
          boot := { d.boot with admitAt := d.bootTime } }
    else if ¬ s.straps.isManager then d
    else match d.tree.pathOf parent with
      | none => d
      | some up =>
        let path := up ++ [port]
        let known := d.tree.nodes.find? fun n => n.path == path
        if d.tree.stage ≠ 3 then
          if known.any (fun n => n.lost) then
            let d : Dev := d.advance t
            { d with tree := { d.tree with nodes := d.tree.nodes.map fun n => if n.path = path then { n with reset := true } else n } }
          else d
        else
          let d : Dev := d.advance t
          if id.role ≠ 2 then d.notAdmit 2 parent.toNat port.toNat
          else if path.length ≥ 7 then d.notAdmit 0 parent.toNat port.toNat
          else if known.any (fun n => !n.lost && !n.reset) then d.notAdmit 3 parent.toNat port.toNat
          else
            let d : Dev := d.takeIn path id
            if parent = 0 then d.modPort port.toNat Port.train else d

/-! ### Brew-up (R399 to R402) -/

/-- A worker reports READY, or Decaf mode (R402): after the tree-ready event it joins the tree with an event. -/
def execDeviceReadyReport (t : Nat) (position : BitVec 8) (decaf : Bool) (s : State) : Host.Outcome State Fault Refusal :=
  onDev s fun d =>
    match d.tree.nodes.find? fun n => n.id == position with
    | none => d
    | some n =>
      if ¬ s.straps.isManager ∨ n.lost then d
      else
        let d : Dev := d.advance t
        let d : Dev := { d with tree := { d.tree with nodes := d.tree.nodes.map fun m =>
          if m.id = position then { m with ready := !decaf, decaf := decaf, step := if decaf then m.step else 11 } else m } }
        if d.tree.readySent ∧ ¬ decaf ∧ ¬ n.ready then d.post 600 2 [(position.toNat : Int)] else d

/-- The tree-ready event (R402), `elapsedUs` after the release of RST_N. -/
def execTreeReady (t : Nat) (elapsedUs : Nat) (s : State) : Host.Outcome State Fault Refusal :=
  onDev s fun d =>
    let all := (d.boot.ready || d.fc.decaf.isSome) && d.tree.nodes.all fun n => n.ready || n.decaf
    if ¬ s.straps.isManager ∨ d.tree.readySent ∨ ¬ d.boot.firmware ∨ ¬ (all ∨ elapsedUs ≥ 1500000) then d
    else
      let d : Dev := d.advance t
      let ready := (d.tree.nodes.filter (·.ready)).length
      let size := ready + bit (d.boot.ready && d.fc.decaf.isNone)
      let d : Dev := { d with tree := { d.tree with readySent := true, brewTime := elapsedUs, size := size } }
      d.post 600 1 [(size : Int), (d.tree.nodes.length - ready : Int)]

/-! ### Commands across the tree (R349 to R351, R396) -/

/-- The manager's flow gate holds the start that a forwarded SEQ.START asks for (R270). -/
def Dev.gateTaken (d : Dev) (e : Entry) (gated : Bool) : Dev :=
  let rest := d.cap.heldStarts.filter (· != e.tag)
  { d with cap := { d.cap with
    heldStarts := if gated ∧ (d.flight e.tag).isSome then rest ++ [e.tag] else rest
    startNotes := d.cap.startNotes.filter fun n => n.1 != e.tag } }

/-- A worker receives a command that the manager forwards: it copies it to the ports that lead to other devices addressed, and
takes up its own share (R389, R396). -/
def execForwardedCommand (t : Nat) (f : Forwarded) (way : Route) (s : State) : Host.Outcome State Fault Refusal :=
  onDev s fun d =>
    let e := f.entry
    let mine := (e.tkind == 1 && e.tid == d.tree.position) || (e.tkind == 2 && way.member) || e.tkind == 3
    if ¬ d.tree.admitted ∨ (¬ mine ∧ way.onward = 0) then d
    else
      let d : Dev := d.advance t
      let d : Dev := if way.onward = 0 then d else d.linkOut (.command e f.args way.onward way.gated)
      if mine then (d.takeEntry false { e with perdev := false } f.args .tree).gateTaken e way.gated else d

/-- The manager receives a completion that a worker wrote (R349, R350). -/
def execWorkerCompletionReceived (t : Nat) (c : Cpl) (s : State) : Host.Outcome State Fault Refusal :=
  onDev s fun d =>
    match d.flight c.tag with
    | none => d
    | some f =>
      if ¬ s.straps.isManager ∨ c.position = d.tree.position ∨ ¬ f.targets.contains c.position then d
      else
        let d : Dev := d.advance t
        let c := { c with fwd := true, own := true, tag := f.tag, stream := f.stream, opcode := f.opcode }
        if c.fin then d.endShare c.tag c
        else if f.group ∧ ¬ f.perdev then d
        else d.interim f.origin { c with part := f.group }

/-! ### Commands (R403) -/

/-- The ports of a position in TREE.STATE: state, lanes, DEGRADED, REDUNDANT. -/
def Port.figures (p : Port) : List Int := [(p.up.toNat : Int), (p.active.toNat : Int), rb p.degraded, rb p.redundant]

/-- The groups that name a position, as a mask. -/
def Tree.groupsOf (t : Tree) (id : Nat) : Nat := packFields ((List.range 32).map fun g => (1, bit ((t.groups.get 0 g).getLsbD id)))

/-- TREE.STATE: 27 values per position. What other devices report of their ports and delays is a free value (log entry
63). -/
def execTreeState (h : Hdr) (s : State) : Host.Outcome State Fault Refusal :=
  hostCmd s h 0x0E00 fun d =>
    let me : List Int := [(d.tree.position.toNat : Int), (pathCode d.tree.path : Int), (s.straps.role.toNat : Int),
        (ctlStepping : Int), (d.boot.ended : Int), rb (d.boot.ready && d.fc.decaf.isNone), rb d.fc.decaf.isSome] ++
      ((List.range 4).flatMap fun p => (d.port p).figures) ++
      [(d.tree.hopDelay : Int), (d.tree.rootDelay : Int), rb d.tree.isAligned, (d.tree.groupsOf d.tree.position.toNat : Int)]
    let r := d.tree.nodes.foldl (fun (a : Dev × List Int) n =>
      let x := a.1.fresh
      (x.2, a.2 ++ [(n.id.toNat : Int), (pathCode n.path : Int), (n.role.toNat : Int), (n.stepping.toNat : Int),
          (n.step : Int), rb n.ready, rb n.decaf] ++
        ((List.range 4).flatMap fun p =>
          [(bits x.1 (8 * p) 2 : Int), (bits x.1 (8 * p + 2) 3 : Int), (bits x.1 (8 * p + 5) 1 : Int), (bits x.1 (8 * p + 6) 1 : Int)]) ++
        [(bits x.1 32 32 : Int), (bits x.1 64 32 : Int), (bits x.1 96 1 : Int), (d.tree.groupsOf n.id.toNat : Int)])) (d, me)
    r.1.okResp h.tag r.2

/-- TREE.GROUP (R388): the membership goes down the tree. -/
def execTreeGroup (h : Hdr) (group : BitVec 8) (members : BitVec 256) (s : State) : Host.Outcome State Fault Refusal :=
  hostCmd s h 0x0E01 fun d =>
    let ok := (List.range 256).all fun i => !members.getLsbD i || i == 0 || d.tree.nodes.any fun n => n.id.toNat == i
    if s.straps.isWorker then d.refuse h.tag stBadarg
    else if ¬ s.straps.isManager then d.refuse h.tag stDenied
    else if group.toNat > 31 then d.refuse h.tag stBadarg 0
    else if ¬ ok then d.refuse h.tag stBadarg 1
    else if d.ctl.flights.any (fun f => f.done == none && f.gid == some (group.setWidth 5)) then d.refuse h.tag stBusy group.toNat
    else
      let d : Dev := d.linkOut (.members (group.setWidth 5) members)
      ({ d with tree := { d.tree with groups := d.tree.groups.set 0 group.toNat members } } : Dev).ok h.tag

/-- TREE.RESCAN (R387): discovery begins again, every ID kept. -/
def execTreeRescan (h : Hdr) (idle : Bool) (s : State) : Host.Outcome State Fault Refusal :=
  hostCmd s h 0x0E02 fun d =>
    if s.straps.isWorker then d.refuse h.tag stBadarg
    else if ¬ s.straps.isManager then d.refuse h.tag stDenied
    else if ¬ idle ∨ ¬ d.allIdle ∨ d.tree.rescan.isSome then d.refuse h.tag stBusy
    else
      let top := (d.tree.nodes.map fun n => n.id.toNat).foldl max 0
      let d : Dev := { d with tree := { d.tree with stage := 3, fixed := top, notAdmitted := 0, rescan := some (h.tag, 0) } }
      d.accept h.tag

/-- TREE.PORT (R403): the state of a downstream port, or its retrain. -/
def execTreePort (h : Hdr) (port : BitVec 8) (action : BitVec 8) (idle : Bool) (s : State) : Host.Outcome State Fault Refusal :=
  hostCmd s h 0x0E03 fun d =>
    let p := port.toNat
    if p > 3 ∨ (d.port p).upstream then d.refuse h.tag stBadarg 0
    else if action.toNat > 1 then d.refuse h.tag stBadarg 1
    else if action = 0 ∨ ¬ (d.port p).isUp then d.okResp h.tag [((d.port p).byte : Int)]
    else if ¬ idle then d.refuse h.tag stBusy p
    else
      let d : Dev := { d with tree := { d.tree with resTag := d.tree.resTag ++ [(h.tag, BitVec.ofNat 2 p)] } }
      (d.accept h.tag).retrain p 3

end Sys2Proof.Machine
end

