-- ==== Sys2Proof/Machine/Boot.lean ====
section
/-!
DEFINITION. The meanings of reset, the boot steps S0 to S11, Brew-up's stages and the boot commands
(15_boot_straps_spares.md).
-/
namespace Sys2Proof.Machine

/-! ### Time and the journal of a start (R407 to R416) -/

/-- A boot event at a time after the release of RST_N: the count follows it unless Tamp has given it the manager's. -/
def Dev.bootAt (d : Dev) (t10 : Nat) : Dev :=
  let d : Dev := { d with boot := { d.boot with t0 := max d.boot.t0 t10 } }
  if d.tl.source ≠ 2 ∨ d.tl.tlLocal then d.advance ((d.boot.t0 - d.boot.lock) * (10 * usSteps)) else d

/-- The entry of a step as the next start finds it: a start that died in the step counts as a failure of its normal form,
and the marks of this start are still to come (R410, R411). -/
def JEntry.opened (e : JEntry) (k : Nat) : JEntry :=
  let died := e.start && !e.fin && e.variant == 0
  { fails := if died && !(decide (3 ≤ k) && decide (k ≤ 5)) then (if e.fails = 3 then 3 else e.fails + 1) else e.fails
    failed := e.failed || died
    detail := if k = 3 then e.detail else 0 }

/-- A copy of the journal as a new start opens it: FAILS of the source that S3 to S5 died with is charged (R412). -/
def Journal.openStart (j : Journal) : Journal :=
  let at_ : Nat → JEntry := fun k => j.entries.get {} k
  let died : Nat → Bool := fun k => (at_ k).start && !(at_ k).fin
  let srcDied := died 3 || died 4 || died 5
  let es : Tab JEntry := (List.range 12).foldl (fun t k => t.set {} k ((at_ k).opened k)) .empty
  let src := j.trying.toNat
  let charge : JEntry → JEntry := fun e =>
    let v := fun i =>
      let n := bits e.detail.toNat (2 * (i - 1)) 2
      (2, if i = src then min 3 (n + 1) else n)
    { e with detail := BitVec.ofNat 8 (packFields [v 1, v 2, v 3]) }
  { j with
    valid := true, starts := if j.starts = 0xFFFF then 0xFFFF else j.starts + 1, step := 0
    entries := if srcDied ∧ src ≠ 0 then es.mod {} 3 charge else es
    source := 0, fuses := 0, svn := 0, imageVersion := 0, patchVersion := 0, trying := 0 }

/-- Steps among some that do not run in their normal form in this start (R411): FAILS 3, or a failure in the last start
that ran it; a step that leads to Decaf mode, only FAILS 3. What is read is cleared for the next start. -/
def Dev.planSteps (d : Dev) (manager : Bool) (ks : List Nat) : Dev :=
  ks.foldl (fun d k =>
    let e := d.entry k
    let decafStep := k = 1 ∨ (k = 2 ∧ manager)
    let off := e.fails = 3 ∨ (e.failed ∧ ¬ decafStep)
    let d : Dev := if off then { d with boot := { d.boot with plan := d.boot.plan ||| (1 <<< k) } } else d
    d.modEntry k fun e => { e with failed := false }) d

/-- The power-up state with what every reset keeps: the board's flash (R408). -/
def Dev.powerUp (d : Dev) (straps : Straps) (j : Journal) (cause : Nat) : Dev :=
  ({ board := d.board, free := d.free
     journal := { j with cause := BitVec.ofNat 8 cause, straps := BitVec.ofNat 8 (strapsWord straps) } } : Dev)

/-- Everything of an MU that carries a stamp of the old count moves back with it, and no command of the old start is
known any more. -/
def Mu.forget (m : Mu) (was : Nat) : Mu :=
  { m with
    seq := m.seq.map fun s => { s with ends := s.ends - was, closing := s.closing.map (· - was), also := [], held := none,
                                       change := { s.change with tag := none, stamp := s.change.stamp - was } }
    sched := [], queued := [], ramp := m.ramp.map fun t => t - (was : Int), forceTag := none, forceSched := [], meas := none }

/-- What a warm reset keeps of the island: everything but what the main device's commands have left in it (R305). -/
def Dev.keptIsland (d : Dev) : Island :=
  let i := d.mi
  { i with
    mus := ⟨i.mus.cells.map fun c => (c.1, c.2.forget d.tl.now)⟩
    parkTags := [], resetTag := none, port := [] }

/-- A power-on reset (R408): S0 begins. -/
def execPowerOnReset (straps : Straps) (s : State) : Host.Outcome State Fault Refusal :=
  let d : Dev := (s.dev.powerUp straps { valid := true, starts := 1 } 0)
  let d : Dev := { d with boot := { d.boot with needLoad := true } }
  .next { s with straps := straps, dev := d.startMark 0 0 }

/-- A warm reset (R408): the journal, the device sequence number, the shutdown latch and the island stay; SAFE is asserted
to the island (R305, R306). -/
def execWarmReset (straps : Straps) (s : State) : Host.Outcome State Fault Refusal :=
  let o := s.dev
  let d : Dev := o.powerUp straps (if o.journal.valid then o.journal.openStart else { valid := true, starts := 1 }) 1
  let d : Dev := { d with
    ctl := { d.ctl with seq := o.ctl.seq }, shutLatch := o.shutLatch, mi := o.keptIsland
    boot := { d.boot with needLoad := !o.journal.valid } }
  let d : Dev := d.planSteps straps.isManager (if o.journal.valid then List.range 12 else [])
  onDev { s with straps := straps, dev := d.startMark 0 0 } fun d => d.assertSafe

/-! ### S3: history, directory, sources (R412, R414, R417, R452, R483) -/

/-- The journal of this start takes over the history of the flash copy (R414): S0 to S2 keep their marks and RESULT, and
their FAILS go on from the loaded ones. -/
def Dev.loadHistory (d : Dev) (manager : Bool) : Dev :=
  if ¬ d.boot.needLoad then d
  else
    let d : Dev := { d with boot := { d.boot with needLoad := false } }
    match d.board.journal with
    | none => d
    | some old =>
      let o := old.openStart
      let now := d.journal
      let own : Nat → JEntry := fun k =>
        let e := now.entries.get {} k
        let f := (o.entries.get {} k).fails
        let normalFailed := e.failed || e.variant != 0
        { e with fails := if normalFailed then (if f = 3 then 3 else f + 1) else 0 }
      let es : Tab JEntry := (List.range 3).foldl (fun t k => t.set {} k (own k)) o.entries
      let d : Dev := { d with journal := { o with
        entries := es, step := now.step, cause := now.cause, straps := now.straps } }
      d.planSteps manager [6, 7, 8, 9, 10]

/-- The directory is searched for this device's path, and an entry is written where there is none (R483). -/
def Dev.findBlock (d : Dev) : Dev :=
  let r := d.board.assign d.tree.path
  match r.2 with
  | some b => { d with board := r.1, flash := { d.flash with found := true, block := b } }
  | none =>
    let d : Dev := { d with flash := { d.flash with noBlock := true } }
    (d.pushLog (d.logItem 0x11 3 [0, 0] [0, 0])).post 530 4 [(pathCode d.tree.path : Int)]

/-- The health record that a device reads: that of its own path and stepping (R423). -/
def Dev.ownHealth (d : Dev) : Option HealthRec :=
  if d.flash.noBlock then none
  else d.board.health.filter fun h => h.path == d.tree.path && h.stepping == 0xC1

/-- The wear counters that the health record holds (R105, R424). -/
def Dev.loadWear (d : Dev) : Dev :=
  ((d.ownHealth.map (·.wear)).getD []).foldl (fun d w => d.modChan w.1 fun c => { c with wear0 := w.2.1, wear1 := w.2.2 }) d

/-- The log area is opened: its START increases once per start (R452). -/
def Dev.openLog (d : Dev) : Dev :=
  if d.flash.noBlock then d
  else
    let n := d.board.logStart + 1
    { d with board := { d.board with logStart := n }, log := { d.log with start := n } }

/-- The sources in the order of R417, those that the role lacks left out: 1 flash, 2 link, 3 USB4 host. -/
def imageSources (s : Straps) : List Nat :=
  let first := if s.boot = 1 then 2 else if s.boot = 2 then 3 else 1
  (first :: [1, 2, 3].erase first).filter fun k => if s.isWorker then k != 3 else k != 2

/-- S3 turns to the next source that this start has not tried and that has not failed three times (R412, R417); with none
left, Decaf mode. -/
def Dev.nextSource (d : Dev) (straps : Straps) : Dev :=
  let d : Dev := { d with
    boot := { d.boot with waitImage := false, linkImage := false, image := none, source := 0, srcNow := 0 }
    journal := { d.journal with source := 0, trying := 0 } }
  let d : Dev := d.startMark 3 0
  match (imageSources straps).find? fun k => !d.boot.tried.getLsbD k with
  | none => d.enterDecaf 5 0 false
  | some k =>
    { d with
      boot := { d.boot with
        srcNow := BitVec.ofNat 2 k, waitImage := decide (k = 3), linkImage := decide (k = 2) && d.tree.multicast.isNone }
      journal := { d.journal with trying := BitVec.ofNat 2 k } }

/-- S3 begins: the history, the directory and the log are opened, and the first source is tried. -/
def Dev.beginS3 (d : Dev) (straps : Straps) : Dev :=
  let d : Dev := ({ d with flash := { d.flash with capacity := Config.flashMiB } } : Dev).loadHistory straps.isManager
  let d : Dev := (d.findBlock).loadWear.openLog
  let passed : BitVec 4 := [1, 2, 3].foldl (fun m k => if d.sourceFails k = 3 then m ||| (1 <<< k) else m) 0
  ({ d with boot := { d.boot with tried := passed } } : Dev).nextSource straps

/-! ### S4 and S6: checks of images (R202, R418, R419) -/

/-- The main image in the flash: the header, and the body that it names (R418, R482). -/
def Board.mainImage (b : Board) : Bytes :=
  let head := b.bytes.range 0xFF 0x400000 7544
  let n := leAt head 12 4
  head ++ (if n ≤ 0x400000 then b.bytes.range 0xFF (0x400000 + 7544) n else [])

/-- The first check of R419 that an image fails; 0 when it passes them all. -/
def imageFault (i : Bytes) (rollback : Nat) : Nat :=
  let len := leAt i 12 4
  let cert := (i.drop 1376).take 3748
  let root := (i.drop 64).take 1312
  let body := (i.drop 7544).take len
  if leAt i 0 4 ≠ 0x4946564E ∨ leAt i 4 2 ≠ 0xC1 ∨ leAt i 8 1 > 64 ∨ len < 65536 ∨ len > 0x400000 ∨ len % 64 ≠ 0 ∨
      i.length < 7544 + len then 1
  else if Config.sha3 root ≠ Config.rootHash then 2
  else if certUsage cert ≠ 0 ∨ certLab cert ≠ 0 ∨ ¬ Config.mlDsa root (cert.take 1328) (cert.drop 1328) then 3
  else if ¬ Config.mlDsa (certKey cert) (i.take 5124) ((i.drop 5124).take 2420) then 4
  else if Config.sha3 body ≠ BitVec.ofNat 256 (leAt i 16 32) then 5
  else if leAt i 8 1 < rollback then 6
  else 0

/-- The patch image in the flash: as long as its header says (R203, R482). -/
def Board.patchImage (b : Board) : Bytes :=
  let head := b.bytes.range 0xFF 0x20000 24
  let n := leAt head 8 2
  let o := leAt head 10 2
  if n ≤ 1024 ∧ o ≤ 192 then b.bytes.range 0xFF 0x20000 (24 + 4 * o + 4 * n + 16 + 2420) else head

/-- The 32-bit words of a byte string, little-endian. -/
def words32 (b : Bytes) : Nat → List (BitVec 32)
  | 0 => []
  | n + 1 => words32 b n ++ [BitVec.ofNat 32 (leAt b (4 * n) 4)]

/-- Load a patch image: P.0600 bits 4:0, and the words with their overrides where every check passes (R202, R203). -/
def loadPatch (i : Bytes) : BitVec 5 × Option (List (BitVec 32) × List (BitVec 32)) :=
  let n := leAt i 8 2
  let o := leAt i 10 2
  let over_ := words32 ((i.drop 24).take (4 * o)) o
  let entryGood := fun (w : BitVec 32) => decide (bits w.toNat 0 8 ≤ 0xBF) && decide (bits w.toNat 8 13 ≤ 0x13FF)
  let text := (i.drop (24 + 4 * o)).take (4 * n)
  let tag := (i.drop (24 + 4 * o + 4 * n)).take 16
  let signedLen := 24 + 4 * o + 4 * n + 16
  if leAt i 0 4 ≠ 0x50434D55 ∨ leAt i 4 2 ≠ 0xC1 ∨ n = 0 ∨ n > 1024 ∨ o > 192 ∨ i.length < signedLen + 2420 ∨
      ¬ over_.all entryGood then (8, none)
  else if ¬ Config.mlDsa Config.patchKey (i.take signedLen) ((i.drop signedLen).take 2420) then (2, none)
  else match Config.gcm ((i.drop 12).take 12) (i.take (24 + 4 * o)) text tag with
    | none => (4, none)
    | some plain => (1, some (words32 plain n, over_))

/-- The patch region and the vendor entries after S6 (R202). -/
def Uc.withPatch (u : Uc) (st : BitVec 5) (version : Nat) (loaded : Option (List (BitVec 32) × List (BitVec 32))) : Uc :=
  let kept : Tab (Option (BitVec 13)) := ⟨u.disp.cells.filter fun c => decide (c.1 ≥ 0xC0)⟩
  match loaded with
  | none => { u with patch := .empty, disp := kept, patchState := st, patchVersion := 0 }
  | some (ws, over_) =>
    { u with
      patch := Tab.empty.fill 0 0 ws, patchState := st, patchVersion := BitVec.ofNat 16 version
      disp := over_.foldl (fun t w => t.set none (bits w.toNat 0 8) (some (BitVec.ofNat 13 (bits w.toNat 8 13)))) kept }

/-! ### S10: spares (R421 to R424) -/

/-- The units of R421 whose measured figure is outside its limit: taps of 96 phase steps, 2 LSB of a level DAC string, 4 LSB of
a force DAC, 25 ohm of a connect switch, and an eye 0.15 UI wide and 15 mV high. -/
def beyond {α : Type} (xs : List (α × Nat)) (limit : Nat) : List α := (xs.filter fun x => decide (x.2 > limit)).map fun x => x.1

/-- A channel uses its second switch: it is within the limit, and the first is not or has more resistance (R421; log entry
166). -/
def secondUsed (x : BitVec 9 × Nat × Nat) : Bool := decide (x.2.2 ≤ 25000) && decide (x.2.1 > 25000 ∨ x.2.2 < x.2.1)

/-- What the check finds, as the record of R423 holds it; a tile that is marked BAD counts with those that fail (R234). -/
def Dev.measure (d : Dev) (f : Health) : HealthRec :=
  let bads := (List.range 16).flatMap fun b =>
    ((d.bank b).tiles.cells.filter fun c => decide (c.1 < 1024) && c.2.bad).map fun c => (BitVec.ofNat 4 b, c.1)
  { path := d.tree.path, stepping := 0xC1
    slices := (f.slices.filter fun x => decide (max x.2.2.1.natAbs x.2.2.2.natAbs > 6144)).map fun x => (x.1.toNat, x.2.1.toNat)
    lanes := f.lanes, lsFailed := f.lsFailed
    tiles := (f.tiles ++ bads).dedup
    rows := f.rows.dedup
    strings := (f.strings.filter fun x => decide (x.2.2 > 512)).map fun x => (x.1.toNat, x.2.1)
    spareStrings := (beyond f.spareStrings 512).map fun m => m.toNat
    forceDacs := (beyond f.forceDacs 1024).map fun c => c.toNat
    second := (f.switches.filter secondUsed).map fun x => x.1.toNat
    switch1 := (beyond (f.switches.map fun x => (x.1, x.2.1)) 25000).map fun c => c.toNat
    switch2 := (beyond (f.switches.map fun x => (x.1, x.2.2)) 25000).map fun c => c.toNat
    portLanes := (f.portLanes.filter fun x => decide (x.2.2.1 < 15 ∨ x.2.2.2 < 15)).map fun x => (x.1.toNat, 1#3 <<< x.2.1.toNat)
    figures := f.figures }

/-- Every unit that a record names as failed: its resource and its place. -/
def HealthRec.units (h : HealthRec) : List (Nat × Nat × Nat) :=
  h.slices.map (fun x => (0, x.1, x.2)) ++ h.lanes.map (fun b => (1, b.toNat, 0)) ++ (if h.lsFailed then [(2, 0, 0)] else []) ++
  h.tiles.map (fun x => (3, x.1.toNat, x.2)) ++ h.rows.map (fun x => (4, x.1.toNat, x.2.toNat)) ++
  h.strings.map (fun x => (5, x.1, x.2.toNat)) ++ h.spareStrings.map (fun m => (6, m, 0)) ++ h.forceDacs.map (fun c => (7, c, 0)) ++
  h.switch1.map (fun c => (8, c, 0)) ++ h.switch2.map (fun c => (9, c, 0)) ++
  h.portLanes.flatMap fun x => (members x.2).map fun l => (10, x.1, l)

/-- The channels of a bank take their slices (R122, R124): a channel whose slice fails takes a healthy spare, SL32 first, from
the lowest-numbered channel up; the rest are NO_SLICE. -/
def Dev.mapSlices (d : Dev) (b : Nat) (fails : List Nat) : Dev :=
  let spare := [32, 33].filter fun s => !fails.contains s
  let moved := (List.range 32).filter fun k => fails.contains k
  forEach (List.range 32) (fun k d =>
    d.modChan (32 * b + k) fun c =>
      match moved.idxOf? k with
      | none => { c with slice := none, noSlice := false }
      | some i => match spare[i]? with
        | some s => { c with slice := some (BitVec.ofNat 6 s), noSlice := false }
        | none => { c with slice := none, noSlice := true, drvMode := 0 }) d

/-- The tiles of a bank take their spares (R234). -/
def Dev.mapTiles (d : Dev) (b : Nat) (fails : List Nat) : Dev :=
  let spares := 32 - (fails.filter fun k => decide (1024 ≤ k ∧ k < 1056)).length
  let bad := ((List.range 1024).filter fun k => fails.contains k)
  let d : Dev := { d with banks := d.banks.mod {} b fun x => { x with
    tiles := ⟨x.tiles.cells.map fun c => (c.1, { c.2 with out := false, bad := false })⟩
    sparesUsed := min spares bad.length } }
  let d : Dev := (bad.drop spares).foldl (fun d k => d.modTile b k fun t => { t with out := true }) d
  { d with banks := d.banks.mod {} b fun x => { x with tiles := ⟨x.tiles.cells.filter fun c => c.2 != ({} : Tile)⟩ } }

/-- The level DACs of a group of four channels take the group's spare string (R421). -/
def Dev.mapStrings (d : Dev) (m : Nat) (fails : List (Nat × BitVec 3)) (spareBad : Bool) : Dev :=
  let mine := (List.range 28).filterMap fun i =>
    let x := (4 * m + i / 7, BitVec.ofNat 3 (i % 7))
    if fails.contains x then some x else none
  let first := if spareBad then none else mine.head?
  let rest := if spareBad then mine else mine.tail
  let d : Dev := { d with boot := { d.boot with strings := d.boot.strings.set none m first } }
  forEach (List.range 4) (fun k d => d.modChan (4 * m + k) fun c => { c with
    dacFail := (rest.filter fun x => x.1 == 4 * m + k).foldl (fun v x => v ||| (1 <<< x.2.toNat)) 0 }) d

/-- The lane map, the microcode rows and the channels' marks of a record (R207, R275, R421). A bank that goes to LS, or comes back
from it, meets the memories of that lane. -/
def Dev.applyHealth (d : Dev) (h : HealthRec) : Dev :=
  let lanes := (List.range 16).filter fun b => h.lanes.contains (BitVec.ofNat 4 b)
  let viaLs := if h.lsFailed then none else lanes.head?
  let serves := fun (d : Dev) (x : Option Nat) => match x with
    | some b =>
      let l := d.lane b
      ({ d with dsp := { d.dsp with idle := l } } : Dev).modLane b fun m => m.onto d.dsp.idle
    | none => d
  let was := d.dsp.lsBank.map BitVec.toNat
  let d : Dev := if was = viaLs then d else serves (serves d was) viaLs
  let d : Dev := { d with dsp := { d.dsp with lsBank := viaLs.map fun b => BitVec.ofNat 4 b, lsFailed := h.lsFailed } }
  let d : Dev := forEach (List.range 16) (fun b d =>
    let fs := (h.slices.filter fun x => x.1 == b).map fun x => x.2
    let ws := ((h.rows.filter fun x => x.1.toNat == b).map fun x => x.2)
    let d : Dev := (d.mapSlices b fs).mapTiles b ((h.tiles.filter fun x => x.1.toNat == b).map fun x => x.2)
    let d : Dev := d.modLane b fun l => { l with spare := viaLs == some b, absent := lanes.contains b && viaLs != some b }
    d.modBank b fun x => { x with
      rows := ws.take 256, degraded := decide (ws.length > 256)
      slices := (List.range 34).foldl (fun t s => t.mod {} s fun v => { v with failed := fs.contains s }) x.slices }) d
  let d : Dev := forEach (List.range 128) (fun m d => d.mapStrings m h.strings (h.spareStrings.contains m)) d
  let d : Dev := forEach (List.range 512) (fun ch d => d.modChan ch fun c => { c with
    pmuFail := h.forceDacs.contains ch, swFail := h.switch1.contains ch && h.switch2.contains ch
    pmu := { c.pmu with second := h.second.contains ch } }) d
  forEach (List.range 4) (fun p d => d.modPort p fun x => { x with
    badLanes := ((h.portLanes.filter fun y => y.1 == p).map fun y => y.2).foldl (· ||| ·) 0 }) d

/-- A microcode word of which no bank holds a good copy: a patch word discards the patch as under R202, S6 with it (R207; log entry
158), and a ROM word is fatal. -/
def Dev.lostWords (d : Dev) (rows : List (BitVec 4 × BitVec 13)) : Dev :=
  let all := fun (a : BitVec 13) => (List.range 16).all fun b => rows.contains (BitVec.ofNat 4 b, a)
  let lost := (rows.map fun x => x.2).dedup.filter all
  let d : Dev := if d.uc.patchState.getLsbD 0 ∧ lost.any fun a => decide (0x1000 ≤ a.toNat ∧ a.toNat < 0x1400) then
      let d : Dev := { d with
        uc := d.uc.withPatch 16 0 none, journal := { d.journal with patchVersion := 0 }
        boot := { d.boot with notNormal := d.boot.notNormal ||| (1 <<< 6) } }
      (d.modEntry 6 fun e => { e with
        result := 1, fails := e.failsAfter 6 1, failed := e.failed || e.variant == 0, detail := 16 }).copyJournal
    else d
  if lost.any fun a => decide (a.toNat < 0x1000) then d.report 41 2 2 0xFFFF 0 else d

/-- The measured check: units, spares, figures, and the number of units newly failed (R421, R426). -/
def Dev.checkHealth (d : Dev) (f : Health) : Dev × Nat :=
  let h := d.measure f
  let old := (d.ownHealth.map (·.units)).getD []
  let n := (h.units.filter fun u => !old.contains u).length
  let d : Dev := d.applyHealth h
  let d : Dev := f.drifts.foldl (fun d x => d.modBank x.1.toNat fun b => { b with
    slices := b.slices.mod {} x.2.1.toNat fun s => { s with drift := x.2.2 } }) d
  let d : Dev := { d with boot := { d.boot with figures := f.figures, measured := true } }
  (d.lostWords h.rows, n)

/-- The health record is written, the wear counters with it (R423, R424). -/
def Dev.writeHealth (d : Dev) (f : Health) : Dev :=
  if d.flash.noBlock then d
  else
    let h := d.measure f
    (({ d with
        board := { d.board with health := some h }, boot := { d.boot with written := true } } : Dev)).saveWear

/-! ### The chain of steps (R409, R411) -/

/-- A step that starts this time in its variant, or is skipped (R411). -/
def Dev.planned (d : Dev) (k : Nat) : Bool := d.boot.plan.getLsbD k

/-- A step is skipped: its marks with RESULT skipped (R411, R416). -/
def Dev.skip (d : Dev) (k : Nat) : Dev := (d.startMark k 0).endMark k d.boot.t0 2 0

/-- A step that leads to Decaf mode is not attempted (R411). -/
def Dev.notTried (d : Dev) (k cause : Nat) : Dev :=
  ((d.startMark k 0).endMark k d.boot.t0 3 0).enterDecaf cause 0 false

/-- S9 begins: the taps of the calibration record, or nominal ones, and then the background run (R323, R333). -/
def Dev.beginS9 (d : Dev) (variant : BitVec 2) : Dev :=
  let d : Dev := d.startMark 9 variant
  let own := if variant ≠ 0 ∨ d.flash.noBlock then none
    else d.board.cal.filter fun r => r.path == d.tree.path && r.stepping == 0xC1
  let d : Dev := match own with
    | some r => { d with cal := { d.cal with taps := r.taps, tCal := r.tCal, nominal := false } }
    | none => { d with cal := { d.cal with taps := .empty, nominal := true } }
  d.startRun

/-- S8 begins, or is skipped (R411). -/
def Dev.beginS8 (d : Dev) : Dev :=
  if d.planned 8 then (d.skip 8).beginS9 (if d.planned 9 then 1 else 0) else d.startMark 8 0

/-- S7 begins; with no LPDDR5X fitted it is skipped (R407, R411). -/
def Dev.beginS7 (d : Dev) (straps : Straps) : Dev :=
  if ¬ straps.dram then (d.skip 7).beginS8 else d.startMark 7 (if d.planned 7 then 1 else 0)

/-- The device stands before a step that waits for a stage of Brew-up (R399). -/
def Dev.waitStep (d : Dev) (k : Nat) : Dev := { d with boot := { d.boot with step := k } }

/-- S6 has ended: a worker's S7 waits for stage 6 (R399). -/
def Dev.afterS6 (d : Dev) (straps : Straps) : Dev := if straps.isWorker then d.waitStep 7 else d.beginS7 straps

/-- S6 begins, or is skipped. -/
def Dev.beginS6 (d : Dev) (straps : Straps) : Dev :=
  if d.planned 6 then (d.skip 6).afterS6 straps else d.startMark 6 0

/-- S9 has ended: a worker's S10 waits for stage 8 (R399). -/
def Dev.afterS9 (d : Dev) (straps : Straps) : Dev :=
  if straps.isWorker then d.waitStep 10 else d.startMark 10 (if d.planned 10 then 1 else 0)

/-- S2 has ended: a worker's S3 waits for its admission (R399). -/
def Dev.afterS2 (d : Dev) (straps : Straps) : Dev := if straps.isWorker then d.waitStep 3 else d.beginS3 straps

/-- A source fails at S3, S4 or S5: the step ends failed, and S3 goes on with the next source (R412, R417). -/
def Dev.failSource (d : Dev) (straps : Straps) (k t10 detail : Nat) : Dev :=
  let d : Dev := d.endMark k t10 1 (BitVec.ofNat 8 detail)
  let src := d.boot.srcNow.toNat
  let d : Dev := d.setSourceFails src (min 3 (d.sourceFails src + 1))
  ({ d with boot := { d.boot with tried := d.boot.tried ||| (1 <<< src) } } : Dev).nextSource straps

/-- S2 begins, on the source of R28: STRAP_REFSEL is read in the standalone and service-boot roles alone (R22); a manager whose
S2 has failed three times does not attempt it (R411). -/
def Dev.beginS2 (d : Dev) (straps : Straps) : Dev :=
  if d.planned 2 then
    let d : Dev := { d with boot := { d.boot with crystal := true } }
    if straps.isManager then d.notTried 2 9 else d.startMark 2 1
  else ({ d with boot := { d.boot with crystal := straps.refsel && !straps.isWorker && !straps.isManager } } : Dev).startMark 2 0

/-- A step fails (R409, R411). -/
def Dev.failStep (d : Dev) (straps : Straps) (k t10 : Nat) : Dev :=
  let v := d.boot.variant
  if k = 1 then (d.endMark 1 t10 1 0).enterDecaf 4 0 false
  else if k = 2 then
    if v ≠ 0 then d
    else
      let d : Dev := d.endMark 2 t10 1 0
      let d : Dev := { d with boot := { d.boot with crystal := true } }
      if straps.isManager then d.enterDecaf 9 0 false else d.startMark 2 1
  else if 3 ≤ k ∧ k ≤ 5 then d.failSource straps k t10 0
  else if k = 6 then
    let d : Dev := { d with uc := d.uc.withPatch (if d.uc.patchState = 0 then 8 else d.uc.patchState) 0 none }
    (d.endMark 6 t10 1 (d.uc.patchState.setWidth 8)).afterS6 straps
  else if k = 7 then
    if v = 2 then d else (d.endMark 7 t10 1 0).startMark 7 (v + 1)
  else if k = 8 then (d.endMark 8 t10 1 0).beginS9 (if d.planned 9 then 1 else 0)
  else if k = 9 then
    if v ≠ 0 then d
    else (({ d with cal := { d.cal with run := none } } : Dev).endMark 9 t10 1 0).beginS9 1
  else if k = 10 then
    if v ≠ 0 then d else (d.endMark 10 t10 1 0).startMark 10 1
  else d

/-- S3 has an image: S4 begins (R417). -/
def Dev.takeImage (d : Dev) (t10 : Nat) (i : Bytes) : Dev :=
  let src := d.boot.srcNow
  let d : Dev := { d with
    boot := { d.boot with image := some i, source := src, waitImage := false, linkImage := false }
    journal := { d.journal with source := src.setWidth 8 } }
  (d.endMark 3 t10 0 0).startMark 4 0

/-- S11 ends: READY, with an event for each step that did not run in its normal form and for the units newly failed (R409,
R426). -/
def Dev.becomeReady (d : Dev) (t10 : Nat) : Dev :=
  let d : Dev := d.endMark 11 t10 0 0
  let d : Dev := { d with boot := { d.boot with step := 12, ready := true } }
  let d : Dev := (members d.boot.notNormal).foldl (fun d k =>
    let e := d.entry k
    d.post 610 1 [(k : Int), (e.result.toNat : Int), (e.variant.toNat : Int), (e.fails.toNat : Int)]) d
  if d.boot.newFails > 0 then d.post 610 3 [(d.boot.newFails : Int)] else d

/-- A step ends its work and passes, where what it did passes (R409). -/
def Dev.passStep (d : Dev) (straps : Straps) (fuses : Fuses) (k t10 : Nat) (work : StepWork) : Dev :=
  if k = 0 then
    let d : Dev := d.endMark 0 t10 0 0
    if d.planned 1 then d.notTried 1 4 else d.startMark 1 0
  else if k = 1 then (d.endMark 1 t10 0 0).beginS2 straps
  else if k = 2 then
    match work with
    | .startCheck tj =>
      let d : Dev := { d with hk := { d.hk with tj := tj } }
      let d : Dev := d.endMark 2 t10 0 0
      if tj ≥ 12100 ∨ d.shutLatch then d.waitStep 3 |>.enterDecaf 7 0 false
      else ({ d with hk := { d.hk with miEn := true } } : Dev).afterS2 straps
    | _ => d
  else if k = 3 then
    if d.boot.srcNow = 1 then d.takeImage t10 d.board.mainImage
    else match d.tree.multicast with
      | some i => if d.boot.srcNow = 2 ∧ ¬ d.boot.linkImage then d.takeImage t10 i else d
      | none => d
  else if k = 4 then
    let i := d.boot.image.getD []
    let n := imageFault i fuses.rollback
    let d : Dev := { d with journal := { d.journal with fuses := BitVec.ofNat 8 fuses.rollback } }
    if n ≠ 0 then d.failSource straps 4 t10 n
    else
      let d : Dev := { d with journal := { d.journal with
        svn := BitVec.ofNat 8 (leAt i 8 1), imageVersion := BitVec.ofNat 16 (leAt i 6 2) } }
      (d.endMark 4 t10 0 0).startMark 5 0
  else if k = 5 then
    let d : Dev := (d.endMark 5 t10 0 0).setSourceFails d.boot.srcNow.toNat 0
    let d : Dev := { d with boot := { d.boot with firmware := true } }
    if straps.role = 3 then d.waitStep 6 |>.enterDecaf 6 0 false
    else ({ d with hk := { d.hk with peNeg := true, peWait := true, peNegAt := d.mono } } : Dev).beginS6 straps
  else if k = 6 then
    let i := d.board.patchImage
    let r := loadPatch i
    let version := leAt i 6 2
    let low := version < leAt (d.boot.image.getD []) 10 2
    match r.2 with
    | none => ({ d with uc := d.uc.withPatch r.1 0 none } : Dev).failStep straps 6 t10
    | some _ =>
      if low then ({ d with uc := d.uc.withPatch 8 0 none } : Dev).failStep straps 6 t10
      else
        let d : Dev := { d with
          uc := d.uc.withPatch r.1 version r.2, journal := { d.journal with patchVersion := BitVec.ofNat 16 version } }
        (d.endMark 6 t10 0 (r.1.setWidth 8)).afterS6 straps
  else if k = 7 then
    let n := 1 + d.boot.variant.toNat
    (({ d with pat := { d.pat with dram := n } } : Dev).endMark 7 t10 0 (BitVec.ofNat 8 n)).beginS8
  else if k = 8 then
    let d : Dev := if d.mi.started ∧ d.mi.verified then d
      else d.startIsland (match work with | .island i => i | _ => [])
    if d.mi.verified then (d.endMark 8 t10 0 0).beginS9 (if d.planned 9 then 1 else 0) else d.failStep straps 8 t10
  else if k = 9 then
    let d : Dev := match work with | .cal ts fs => d.endCalRun ts fs | _ => d.endCalRun [] []
    (d.endMark 9 t10 0 0).afterS9 straps
  else if k = 10 then
    let d : Dev :=
      if d.boot.variant ≠ 0 then
        match d.ownHealth with
        | some h => ({ d with boot := { d.boot with lastMap := true } } : Dev).applyHealth h
        | none => ({ d with boot := { d.boot with unchecked := true } } : Dev)
      else
        let f := match work with | .health f => f | _ => {}
        let r := d.checkHealth f
        ({ r.1 with boot := { r.1.boot with newFails := r.2 } } : Dev).writeHealth f
    if d.fc.decaf.isSome then d else (d.endMark 10 t10 0 0).startMark 11 0
  else d.becomeReady t10

/-- The bound of a step in units of 10 us from its start mark (R409); none where nothing bounds it: S0 and S11 never fail,
and S3 waits for an image under R417. -/
def Dev.bound (d : Dev) : Option Nat :=
  let v := d.boot.variant
  match d.boot.step with
  | 1 => some 1000
  | 2 => some 2500
  | 3 => if d.boot.waitImage || d.boot.linkImage then none else some (if d.boot.srcNow = 2 then 200 else 1200)
  | 4 => some 1000
  | 5 => some 1000
  | 6 => some 500
  | 7 => some (if v = 1 then 55000 else 25000)
  | 8 => some 20000
  | 9 => some 4000
  | 10 => some 40000
  | _ => none

/-- A boot step is in progress. -/
def Dev.inStep (d : Dev) : Bool :=
  decide (d.boot.step < 12) && (d.entry d.boot.step).start && !(d.entry d.boot.step).fin && d.fc.decaf.isNone

/-- Start mark of the step in progress, in units of 10 us; for a link image, the time at which it was received (R409). -/
def Dev.stepStart (d : Dev) : Nat :=
  if d.boot.step = 3 ∧ d.boot.srcNow = 2 then d.boot.t0 else (d.entry d.boot.step).startT.toNat

/-- BOOT_STEP_END (R409). -/
def execBootStepEnd (t10 : Nat) (work : StepWork) (s : State) : Host.Outcome State Fault Refusal :=
  onDev s fun d =>
    let k := d.boot.step
    let waits := k = 3 ∧ (d.boot.waitImage || d.boot.linkImage)
    let noLock := k = 2 ∧ ¬ d.tl.running ∧ work ≠ .failed
    let noCheck := decide (k = 2) && (match work with | .startCheck _ => false | .failed => false | _ => true)
    if ¬ d.inStep ∨ waits ∨ noLock ∨ noCheck = true ∨ t10 < d.boot.t0 then d
    else
      let late := d.bound.any fun b => decide (t10 > d.stepStart + b)
      let d : Dev := d.bootAt t10
      let variantEnds := k = 7 ∧ d.boot.variant = 2 ∨ (k = 2 ∨ k = 9 ∨ k = 10) ∧ d.boot.variant ≠ 0
      if (late ∨ work = .failed) ∧ ¬ variantEnds ∧ k ≠ 0 ∧ k ≠ 11 ∧ k ≠ 4 then d.failStep s.straps k t10
      else d.passStep s.straps s.fuses k t10 work

/-- BOOT_STEP_BOUND_EXPIRY (R409). -/
def execBootStepBoundExpiry (t10 : Nat) (s : State) : Host.Outcome State Fault Refusal :=
  onDev s fun d =>
    let k := d.boot.step
    if ¬ d.inStep ∨ ¬ (d.bound.any fun b => decide (t10 ≥ d.stepStart + b)) then d
    else (d.bootAt t10).failStep s.straps k t10

/-- The main PLL locks in S2, or for Decaf mode on a manager whose S2 failed: the count starts at 0:0.0 (R28, R29, R409). -/
def execMainPllLock (t10 : Nat) (s : State) : Host.Outcome State Fault Refusal :=
  onDev s fun d =>
    if d.tl.running ∨ d.boot.step ≠ 2 ∨ ¬ (d.inStep ∨ d.fc.decaf.any fun k => k.cause == 9) ∨ t10 < d.boot.t0 then d
    else
      let ref := !s.straps.isWorker && !d.boot.crystal
      { d with
        boot := { d.boot with t0 := t10, lock := t10 }
        tl := { d.tl with
          running := true, now := 0, epoch := 0, tlLocal := s.straps.isWorker, refPresent := ref, stabRun := ref
          source := if s.straps.isWorker then 2 else if d.boot.crystal then 1 else 0 } }

/-- No image arrived within 1.5 s of the worker's admission (R417), so not before that time. -/
def execLinkImageTimeout (t10 : Nat) (s : State) : Host.Outcome State Fault Refusal :=
  onDev s fun d =>
    if ¬ s.straps.isWorker ∨ ¬ d.tree.admitted ∨ d.tree.multicast.isSome ∨ d.fc.decaf.isSome ∨ t10 < max d.boot.t0 (d.boot.admitAt + 150000) ∨
        d.boot.step ≠ 3 then d
    else
      let d : Dev := d.bootAt t10
      let d : Dev := if d.inStep then d else d.beginS3 s.straps
      if d.inStep ∧ d.boot.linkImage then d.failStep s.straps 3 t10 else d

/-- The ROM has waited 10 s for BOOT.IMAGE (R417). -/
def execHostImageTimeout (t10 : Nat) (s : State) : Host.Outcome State Fault Refusal :=
  onDev s fun d =>
    if ¬ d.inStep ∨ ¬ d.boot.waitImage ∨ t10 < d.stepStart + 1000000 then d
    else (d.bootAt t10).failStep s.straps 3 t10

/-- A worker receives the firmware by multicast, and holds it (R399, R417). -/
def execFirmwareMulticastReceived (t10 : Nat) (image : Bytes) (s : State) : Host.Outcome State Fault Refusal :=
  onDev s fun d =>
    if ¬ d.tree.admitted ∨ ¬ (s.straps.boot = 1 ∨ s.straps.boot = 3) ∨ t10 < d.boot.t0 then d
    else
      let d : Dev := d.bootAt t10
      { d with tree := { d.tree with multicast := some image }, boot := { d.boot with linkImage := false } }

/-! ### Stages of Brew-up (R399) -/

/-- What a stage of Brew-up waits for on this device (R399). -/
def Dev.stageReady (d : Dev) (straps : Straps) (n : Nat) : Bool :=
  let waits := fun k => decide (d.boot.step = k) && !d.inStep && d.fc.decaf.isNone
  if straps.isWorker then
    decide (n > d.tree.stage) &&
      (if n = 5 then d.tree.admitted && waits 3 && (straps.boot != 1 || decide (d.tree.stage = 4))
       else if n = 6 then waits 7
       else if n = 8 then waits 10
       else true)
  else
    straps.isManager && decide (n = d.tree.stage + 1) &&
      (if n = 2 then decide (d.boot.step ≥ 3) else if n = 3 then d.boot.firmware else true)

/-- A stage of Brew-up starts: stage 3 begins the manager's discovery, and stage 4 ends it, a TREE.RESCAN with it; on a
worker, stages 5, 6 and 8 begin S3, S7 and S10 (R386, R387, R399). -/
def execBrewupStageStart (t : Nat) (stage : BitVec 4) (s : State) : Host.Outcome State Fault Refusal :=
  onDev s fun d =>
    let n := stage.toNat
    if n = 0 ∨ n > 8 ∨ ¬ d.stageReady s.straps n then d
    else
      let d : Dev := d.advance t
      let d : Dev := { d with tree := { d.tree with stage := n } }
      if s.straps.isWorker then
        let d : Dev := { d with boot := { d.boot with t0 := d.bootTime } }
        if n = 5 then d.beginS3 s.straps
        else if n = 6 then d.beginS7 s.straps
        else if n = 8 then d.startMark 10 (if d.planned 10 then 1 else 0)
        else d
      else
        let d : Dev := if n = 3 then { d with tree := { d.tree with nodes := [], notAdmitted := 0, fixed := 0 } } else d
        match d.tree.rescan with
        | some r => if n = 4 then ({ d with tree := { d.tree with rescan := none } } : Dev).finish r.1 { resp := [(r.2 : Int)] } else d
        | none => d

/-! ### Commands (R425) -/

/-- A step entry as 64 bits (R416). -/
def JEntry.word (e : JEntry) : Nat :=
  packFields [(1, bit e.start), (1, bit e.fin), (2, e.result.toNat), (2, e.variant.toNat), (2, e.fails.toNat),
    (8, e.detail.toNat), (24, e.endT.toNat), (24, e.startT.toNat)]

/-- A copy of the journal as its 128 bytes (R415). -/
def Journal.bytes (j : Journal) : Bytes :=
  let head := leBytes 4 0x4C4E524A ++ leBytes 2 j.starts.toNat ++ [j.step, j.cause, j.straps, j.source, j.fuses, j.svn] ++ leBytes 4 0
  let body := (List.range 12).flatMap fun k => leBytes 8 (j.entries.get {} k).word
  let all := head ++ body ++ leBytes 2 j.imageVersion.toNat ++ leBytes 2 j.patchVersion.toNat ++ leBytes 8 0
  all ++ leBytes 4 (crc32c all).toNat

/-- BOOT.JOURNAL. -/
def execBootJournal (h : Hdr) (flash readable : Bool) (s : State) : Host.Outcome State Fault Refusal :=
  hostCmd s h 0x0F00 fun d =>
    let copy := if flash then (if readable then d.board.journal else none) else some d.journal
    match copy with
    | some j => d.okResp h.tag (j.bytes.map fun b => (b.toNat : Int))
    | none => (d.accept h.tag).finish h.tag { status := stFault, b := 8 }

/-- STARTS, FAILS and the counts in DETAIL become 0 (R425). -/
def Journal.cleared (j : Journal) : Journal :=
  { j with
    starts := 0
    entries := (List.range 12).foldl (fun t k =>
      t.mod {} k fun e => { e with fails := 0, detail := if k = 3 then 0 else e.detail }) j.entries }

/-- BOOT.JOURNAL_CLEAR. -/
def execBootJournalClear (h : Hdr) (s : State) : Host.Outcome State Fault Refusal :=
  hostCmd s h 0x0F01 fun d =>
    ({ d with journal := d.journal.cleared, board := { d.board with journal := d.board.journal.map (·.cleared) } } : Dev).ok h.tag

/-- BOOT.IMAGE (R417). -/
def execBootImage (h : Hdr) (image : Bytes) (s : State) : Host.Outcome State Fault Refusal :=
  hostCmd s h 0x0F02 fun d =>
    if ¬ d.inStep ∨ ¬ d.boot.waitImage then d.refuse h.tag stDenied
    else
      let t10 := d.bootTime
      (d.bootAt t10).takeImage t10 image |>.ok h.tag

/-- BOOT.ROLLBACK (R420): the only command that blows fuses. -/
def execBootRollback (h : Hdr) (v : BitVec 8) (s : State) : Host.Outcome State Fault Refusal :=
  let n := v.toNat
  match s.dev.takeUp h 0x0F03 with
  | .error d => .next { s with dev := d.commit }
  | .ok d =>
    if n > d.boot.svn then .next { s with dev := (d.refuse h.tag stDenied).commit }
    else if n ≤ s.fuses.rollback ∨ n > 64 then .next { s with dev := (d.refuse h.tag stBadarg).commit }
    else
      let d : Dev := (d.okResp h.tag [(n : Int)]).post 610 2 [(n : Int)]
      .next { s with dev := d.commit, fuses := { s.fuses with rollback := n } }

/-- BOOT.HEALTH (R207, R234, R421): the check of S10 again, in Decaf mode. -/
def execBootHealth (h : Hdr) (found : Health) (answer : FlashAnswer) (s : State) : Host.Outcome State Fault Refusal :=
  hostCmd s h 0x0F04 fun d =>
    match d.fc.decaf with
    | none => d.refuse h.tag stDenied
    | some k =>
      let d : Dev := { d with fc := { d.fc with decaf := some { k with health := true } }, uc := d.uc.install [] [] }
      let r := d.checkHealth found
      let d : Dev := forEach (List.range 16) (fun b d =>
        let d : Dev := (d.bank b).tiles.cells.foldl (fun d c => d.freeTile b c.1) d
        d.modBank b fun x => { x with tlb := [] }) r.1
      let d : Dev := if r.2 > 0 then d.post 610 3 [(r.2 : Int)] else d
      if answer ≠ .done ∨ d.flash.noBlock then
        (d.accept h.tag).finish h.tag { status := stFault, b := if answer = .busyTooLong then 4 else 3 }
      else (d.writeHealth found).ok h.tag

/-- BOOT.SPARES (R423): the maps, marks, measured figures and wear counters. -/
def execBootSpares (h : Hdr) (s : State) : Host.Outcome State Fault Refusal :=
  hostCmd s h 0x0F05 fun d =>
    let slices := (List.range 512).map fun ch => if (d.chan ch).noSlice then -1 else ((d.chan ch).sliceOf ch : Int)
    let lanes := (match d.dsp.lsBank with | some b => (b.toNat : Int) | none => -1) :: (List.range 16).map fun b => rb (d.lane b).absent
    let tiles := (List.range 16).flatMap fun b =>
      [((d.bank b).sparesUsed : Int), (countCells (d.bank b).tiles (·.out) : Int), ((d.bank b).rows.length : Int), rb (d.bank b).degraded]
    let strings := (List.range 128).map fun m => match d.boot.strings.get none m with
      | some x => (x.1 * 8 + x.2.toNat : Nat)
      | none => (-1 : Int)
    let marks := (List.range 512).flatMap fun ch =>
      let c := d.chan ch
      [(c.dacFail.toNat : Int), rb c.pmuFail, rb c.swFail, rb c.pmu.second, (c.wear0 : Int), (c.wear1 : Int)]
    let ports := (List.range 4).map fun p => ((d.port p).badLanes.toNat : Int)
    d.okResp h.tag (slices ++ lanes ++ tiles ++ strings ++ marks ++ ports ++ d.boot.figures.flatMap fun f => [(f.1 : Int), f.2])

end Sys2Proof.Machine
end

