-- ==== Sys2Proof/Machine/Faults.lean ====
section
/-!
DEFINITION. The meanings of error reports, injections, Decaf mode and the Cupping Log (16_faults_and_cupping_log.md).
-/
namespace Sys2Proof.Machine

/-! ### Records (R445 to R450) -/

/-- Widths of the fields of BODY, from byte 32 of a record, or from byte 24 for the parts of a seal record (R447, R450). -/
def bodyWidths (kind sub : Nat) : List Nat :=
  match kind with
  | 1 => [8, 8, 16, 32]
  | 2 => [16, 16, 16, 16, 16, 16, 16, 16]
  | 3 => [32, 32, 64, 64]
  | 4 => [32, 32, 32, 32, 32]
  | 5 => [64, 64, 32]
  | 6 => if sub = 0 then [16, 16, 32, 32, 64] else [128, 128]
  | 7 => [16, 2, 6, 2, 6, 32]
  | 8 => [32]
  | 9 => [8, 8, 8, 8, 64]
  | 0x0A => [32, 32, 32]
  | 0x0B => [8]
  | 0x0C => [16]
  | 0x10 => [16, 8, 8]
  | 0x11 => [32, 8]
  | _ => []

/-- The BODY values of an item, one for each width; a MONITOR record packs its two flags. -/
def LogItem.values (i : LogItem) : List Int :=
  if i.kind = 7 then
    [i.body.getD 0 0, i.body.getD 1 0, i.body.getD 2 0, i.body.getD 3 0 + 2 * i.body.getD 4 0, 0, i.body.getD 5 0]
  else i.body

/-- Bytes 24 to 55 of a record as one number: LAST of a repeating kind, and the fields of BODY (R447, R450). -/
def LogItem.bodyBits (i : LogItem) : Nat :=
  let fields := ((bodyWidths i.kind.toNat i.sub.toNat).zip i.values).map fun x => (x.1, twos x.1 x.2)
  if i.kind = 6 then packFields fields else packFields ((64, if repeats i.kind then i.last else 0) :: fields)

/-- FLAGS of a record (R446). -/
def LogRec.flags (r : LogRec) : Nat :=
  packFields [(1, bit r.item.inj), (1, bit r.item.injActive), (1, bit r.closed), (1, bit r.perm), (1, bit r.item.held),
    (1, bit r.item.noRamp)]

/-- The 64 bytes of a record (R446). -/
def LogRec.bytes (r : LogRec) : Bytes :=
  let head := [r.item.kind, r.item.sub, BitVec.ofNat 8 r.flags, r.position] ++ leBytes 2 r.item.epoch.toNat ++ leBytes 2 r.rep ++
    leBytes 4 r.seq.toNat ++ leBytes 4 (packFields [(4, r.item.tq.toNat), (4, 0), (24, r.start.toNat)]) ++ leBytes 8 r.item.stamp ++
    leBytes 32 r.item.bodyBits
  head ++ leBytes 4 (if r.closed then (crc32c head).toNat else 0) ++ [0, 0, 0, 0xA5]

/-- What a slot that holds no record reads as: erased (R446; log entry 65). -/
def erasedRec : Bytes := List.replicate 64 0xFF

/-- The record of a slot of the RAM as bytes. -/
def Log.slotBytes (l : Log) (k : Nat) : Bytes := match l.ram.get none k with | some r => r.bytes | none => erasedRec

/-- A record is due for the permanent area (R452, R471). -/
def LogItem.duePerm (i : LogItem) : Bool := i.perm || ((i.kind == 0x0A || i.kind == 9) && i.sub == 0) || (i.kind == 0x10 && i.sub == 2)

/-- The slot that the next record takes: a free one, else that of the oldest copied record (R445). -/
def Log.freeSlot (l : Log) : Option Nat :=
  let from_ := (List.range 256).map fun i => (l.nextIdx + i) % 256
  match from_.find? fun k => (l.ram.get none k).isNone with
  | some k => some k
  | none => (from_.filter fun k => (l.ram.get none k).any (·.copied)).foldl (fun m k => match m with
      | none => some k
      | some j => if precedes (((l.ram.get none k).map (·.seq)).getD 0) (((l.ram.get none j).map (·.seq)).getD 0) then some k else m) none

/-- The oldest open record (R445). -/
def Log.oldestOpen (l : Log) : Option Nat :=
  ((List.range 256).filter fun k => (l.ram.get none k).any fun r => !r.closed).foldl (fun m k => match m with
    | none => some k
    | some j => if precedes (((l.ram.get none k).map (·.seq)).getD 0) (((l.ram.get none j).map (·.seq)).getD 0) then some k else m) none

/-- An item is written into a slot: a record takes its sequence number (R24, R445). -/
def Dev.putRecord (d : Dev) (k : Nat) (i : LogItem) : Dev :=
  let last := repeats i.kind
  let gone := (d.log.ram.get none k).any fun r => !r.copied
  let r : LogRec := { item := i, rep := min 65535 i.rep, seq := d.ctl.seq, position := d.tree.position, touched := d.mono }
  let d : Dev := d.takeSeq
  let d : Dev := { d with log := { d.log with
    ram := d.log.ram.set none k (some r), newest := some k, nextIdx := (k + 1) % 256
    lost := if gone then satAdd (2 ^ 32 - 1) d.log.lost 1 else d.log.lost } }
  let d : Dev := d.bumpGen
  let d : Dev := if last ∧ r.rep < 65535 then d else d.closeLog k
  d.dealt i

/-- An item reaches the RAM: it joins an open record, or takes a slot; with none free, the oldest open record closes and the
item waits (R445, R448). -/
def Dev.writeLog (d : Dev) (i : LogItem) : Dev :=
  let open_ := if repeats i.kind then d.log.openFor i else none
  match open_ with
  | some k =>
    let d : Dev := ({ d with log := { d.log with ram := d.log.ram.mod none k (·.map fun r => { r with
      rep := min 65535 (r.rep + 1 + i.rep), touched := d.mono
      item := { r.item with last := i.last, body := mergeBody i.kind r.item.body i.body } }) } } : Dev).bumpGen
    let d : Dev := if (d.log.ram.get none k).any fun r => decide (r.rep ≥ 65535) then d.closeLog k else d
    d.dealt i
  | none =>
    match d.log.freeSlot with
    | some k => d.putRecord k i
    | none =>
      let d : Dev := match d.log.oldestOpen with | some k => d.closeLog k | none => d
      d.holdItem i

/-- The next arrival: the holding queue drains first, unless the RAM is frozen (R449). -/
def Dev.commitLog (d : Dev) : Dev :=
  match d.log.freeze, d.log.hold, d.log.queue with
  | false, i :: r, _ =>
    if (if repeats i.kind then d.log.openFor i else none).isNone ∧ d.log.freeSlot.isNone then d
    else ({ d with log := { d.log with hold := r } } : Dev).writeLog i
  | false, [], i :: r => ({ d with log := { d.log with queue := r } } : Dev).writeLog i
  | true, _, i :: r => ({ d with log := { d.log with queue := r } } : Dev).holdItem i
  | _, _, [] => d

/-- LOG_RECORD_COMMIT (R43, R445, R449); the two parts of a seal record are committed in one cycle (R450). -/
def execLogRecordCommit (t : Nat) (s : State) : Host.Outcome State Fault Refusal :=
  onDev s fun d =>
    let d : Dev := d.advance t
    let next := if d.log.freeze then d.log.queue.head? else (d.log.hold ++ d.log.queue).head?
    match next with
    | none => d
    | some i =>
      if ¬ d.inTurn (i.epoch != d.tl.epoch) then d
      else if i.kind = 6 ∧ i.sub = 0 then d.commitLog.commitLog else d.commitLog

/-- An open record closes after P.0D07 with no update, or EXTREME after P.0D08 from its STAMP (R448). -/
def execLogRecordIdleClose (t : Nat) (index : BitVec 8) (s : State) : Host.Outcome State Fault Refusal :=
  onDev s fun d =>
    let now := (d.advance t).tl.now
    let due := (d.log.ram.get none index.toNat).any fun r => !r.closed &&
      (decide ((d.advance t).mono ≥ r.touched + d.log.closeIdle * msSteps) ||
        (r.item.kind == 3 && decide (now ≥ r.item.stamp + d.log.extWindow * 1000 * msSteps)))
    if d.log.freeze ∨ ¬ due then d else (d.advance t).closeLog index.toNat

/-! ### Copies to the flash (R452, R453) -/

/-- The circulating area after one more record: the block that it enters is erased first (R452). -/
def circulate (l : List LogRec) (r : LogRec) : List LogRec := (if l.length ≥ 896 then l.drop 64 else l) ++ [r]

/-- A record has a place in the permanent area: both parts of a seal record, or neither (R450, R452). -/
def Board.permRoom (b : Board) (r : LogRec) : Bool :=
  r.item.duePerm && !r.perm &&
    (if r.item.kind ≠ 6 then decide (b.logPerm.length < 128)
     else if r.item.sub = 0 then decide (b.logPerm.length + 2 ≤ 128)
     else b.logPerm.getLast?.any fun p => p.item.kind == 6 && p.item.sub == 0 && p.seq + 1 == r.seq)

/-- The log area of the flash can be written. -/
def Dev.logReachable (d : Dev) : Bool := decide (d.boot.step ≥ 3) && !d.flash.noBlock

/-- LOG_FLASH_COPY: the next closed record is copied, or its copy fails (R452, R453). -/
def execLogFlashCopy (t : Nat) (answer : FlashAnswer) (s : State) : Host.Outcome State Fault Refusal :=
  onDev s fun d =>
    match d.log.closing with
    | [] => d
    | k :: ks =>
      match d.log.ram.get none k with
      | none => d
      | some r =>
        if d.log.freeze ∨ ¬ d.logReachable then d
        else
          let d : Dev := d.advance t
          if answer = .done then
            let toPerm := d.board.permRoom r
            let r : LogRec := { r with start := d.log.start, copied := true, perm := r.perm || toPerm }
            let d : Dev := { d with
              log := { d.log with ram := d.log.ram.set none k (some { r with start := 0 }), closing := ks }
              board := { d.board with
                logCirc := circulate d.board.logCirc r
                logPerm := if toPerm then d.board.logPerm ++ [r] else d.board.logPerm } }
            if ks = [] then d.endSync {} else d
          else
            let d : Dev := { d with log := { d.log with
              ram := d.log.ram.set none k (some { r with fails := r.fails + 1 }), writeFails := d.log.writeFails + 1 } }
            if r.fails + 1 = 3 then (d.post 516 2 [(r.seq.toNat : Int)]).endSync { status := stFault, b := 3 } else d

/-- A freeze of 50 ms releases itself (R449). -/
def execLogFreezeTimeout (t : Nat) (s : State) : Host.Outcome State Fault Refusal :=
  onDev s fun d =>
    if ¬ d.log.freeze ∨ (d.advance t).mono < d.log.freezeAt + 50 * msSteps then d
    else
      let d : Dev := (d.advance t).unfreeze
      ({ d with log := { d.log with timeout := true } } : Dev).pushLog (d.logItem 0x0A 3 [] [])

/-! ### Reports and injections (R429 to R438) -/

/-- ERROR_REPORT: class 3 is the collector's own fault (R434); a class that the line does not carry cannot be reported. -/
def execErrorReport (t : Nat) (line : BitVec 6) (cls : BitVec 2) (cause : BitVec 8) (unit : BitVec 16) (detail : BitVec 32)
    (s : State) : Host.Outcome State Fault Refusal :=
  onDev s fun d =>
    if cls = 3 then (d.advance t).selfFault
    else if ¬ (lineClasses line.toNat).testBit cls.toNat then d
    else (d.advance t).report line.toNat cls.toNat cause.toNat unit.toNat detail.toNat

/-- LINE of an injection word (R437). -/
def injLine (w : BitVec 64) : Nat := bits w.toNat 0 6
/-- CLASS of an injection word. -/
def injClass (w : BitVec 64) : Nat := bits w.toNat 6 2
/-- CAUSE of an injection word. -/
def injCause (w : BitVec 64) : Nat := bits w.toNat 8 8
/-- UNIT of an injection word. -/
def injUnit (w : BitVec 64) : Nat := bits w.toNat 16 16

/-- An injection word that R437 accepts. -/
def injGood (w : BitVec 64) : Bool :=
  decide (injLine w < 48) && (lineClasses (injLine w)).testBit (injClass w) && decide (1 ≤ injCause w ∧ injCause w ≤ 9) &&
    decide (bits w.toNat 33 31 = 0)

/-- The injected report reaches its line at its stamp (R437, R438). -/
def execInjectedReport (s : State) : Host.Outcome State Fault Refusal :=
  onDev s fun d =>
    match d.fc.inj with
    | none => d
    | some i =>
      if i.presented then d
      else d.due i.since fun d =>
        let w := i.word
        let line := injLine w
        let d : Dev := { d with fc := { d.fc with inj := some { i with presented := true } } }
        let d : Dev := match i.tag with | some t => d.dropAct t .inject | none => d
        let r : Report := {
          line := BitVec.ofNat 6 line, cls := BitVec.ofNat 2 (injClass w), cause := BitVec.ofNat 8 (injCause w)
          unit := BitVec.ofNat 16 (injUnit w), stamp := d.tl.now, epoch := d.tl.epoch }
        let same := (d.fc.perLine.get ({} : FcLine) line).last.any fun x => x.1 == d.tl.epoch && decide (x.2.1 = d.tl.now / clk)
        let acts := w.getLsbD 32 && !same
        let d : Dev := if acts then
            { d with fc := ({ d.fc with lines := d.fc.lines ||| (1#48 <<< line) } : Fc).classBit r.cls } else d
        let d : Dev := d.faultItem r true
        if acts then d.react line (injClass w) (injUnit w) 8 else d

/-- FC.READ: FC_STATUS and, per line, the counters and the first report. -/
def execFcRead (h : Hdr) (s : State) : Host.Outcome State Fault Refusal :=
  hostCmd s h 0x0D00 fun d =>
    d.okResp h.tag ((d.fc.status : Int) :: (List.range 48).flatMap fun k =>
      let l := d.fc.perLine.get ({} : FcLine) k
      [(l.c.toNat : Int), (l.u.toNat : Int), (l.f.toNat : Int)] ++ (match l.first with
        | some r => [(1 : Int), r.cls.toNat, r.cause.toNat, r.unit.toNat, r.detail.toNat, r.epoch.toNat, r.stamp]
        | none => [0, 0, 0, 0, 0, 0, 0]))

/-- FC.CLEAR: counters and first reports of the lines named (R431). -/
def execFcClear (h : Hdr) (lines : BitVec 48) (s : State) : Host.Outcome State Fault Refusal :=
  hostCmd s h 0x0D01 fun d =>
    let t := (members lines).foldl (fun t k => t.mod {} k fun (l : FcLine) => { l with c := 0, u := 0, f := 0, first := none }) d.fc.perLine
    ({ d with fc := { d.fc with perLine := t } } : Dev).ok h.tag

/-- FC.INJECT (R437). -/
def execFcInject (h : Hdr) (w : When) (word : BitVec 64) (s : State) : Host.Outcome State Fault Refusal :=
  hostCmd s h 0x0D02 fun d =>
    if ¬ injGood word then d.refuse h.tag stBadarg 1
    else if d.fc.inj.isSome then d.refuse h.tag stBusy
    else match d.schedule w clk false with
      | .error st => d.refuseWhen h.tag st
      | .ok (e, t, _) =>
        let d : Dev := (d.accept h.tag).addAct { tag := h.tag, kind := .inject, epoch := e, stamp := t }
        { d with fc := { d.fc with inj := some { tag := some h.tag, word := word, since := t } } }

/-! ### Decaf mode (R439 to R444) -/

/-- FC.DECAF: it completes when step 6 of R440 has ended. -/
def execFcDecaf (h : Hdr) (s : State) : Host.Outcome State Fault Refusal :=
  hostCmd s h 0x0D03 fun d =>
    let d : Dev := (d.accept h.tag).enterDecaf 3 0 false
    { d with fc := { d.fc with decaf := d.fc.decaf.map fun k => { k with tags := k.tags ++ [h.tag] } } }

/-- Every switch of the PMUs and MUs is open, and no sequence of theirs is in progress. -/
def Dev.switchesOpen (d : Dev) : Bool :=
  ((List.range 512).all fun ch => !(d.pmu ch).closed) && (List.range 16).all fun u => !(d.mu u).closed

/-- Step 6 of R440 has ended: the DECAF record, the wear counters, and the FC.DECAF commands. -/
def execDecafSafeStateReached (t : Nat) (s : State) : Host.Outcome State Fault Refusal :=
  onDev s fun d =>
    match d.fc.decaf with
    | none => d
    | some k =>
      if k.safe ∨ ¬ d.switchesOpen then d
      else
        let d : Dev := d.advance t
        let i : LogItem := d.logItem 9 0 [] [(k.cause.toNat : Int), (k.line.toNat : Int), (d.boot.step : Int), 0, (d.tl.now : Int)]
        let d : Dev := d.pushLog { i with stamp := k.since, noRamp := k.noRamp }
        let d : Dev := ({ d with fc := { d.fc with decaf := some { k with safe := true, clamps := true, tags := [] } } } : Dev).saveWear
        k.tags.foldl (fun d t => d.finish t {}) d

/-- FC.DECAF_EXIT (R444): BUSY until step 6 of R440 has ended (log entry 66). -/
def execFcDecafExit (h : Hdr) (s : State) : Host.Outcome State Fault Refusal :=
  hostCmd s h 0x0D04 fun d =>
    match d.fc.decaf with
    | none => d.refuse h.tag stDenied
    | some k =>
      if k.cause ≠ 3 ∧ k.cause ≠ 8 then d.refuse h.tag stDenied
      else if ¬ k.safe then d.refuse h.tag stBusy
      else
        let d : Dev := forEach (List.range 512) (fun ch d => d.modPmu ch fun p => { p with
          lastForce := if forcing p.mode then p.mode else p.lastForce, mode := 0 }) d
        let d : Dev := forEach (List.range 16) (fun u d => d.modMu u fun m => { m with
          lastForce := if forcing m.mode then m.mode else m.lastForce, mode := 0 }) d
        let d : Dev := { d with
          fc := { d.fc with decaf := none }, mi := { d.mi with safeLine := false }
          boot := { d.boot with ready := true, step := 12 }, journal := { d.journal with step := 11 } }
        ((d.pushLog (d.logItem 9 1 [] [(k.cause.toNat : Int), (k.line.toNat : Int), 12, 0, 0])).post 517 2 []).ok h.tag

/-! ### Log commands (R451 to R456) -/

/-- The kinds of records (R447, R464, R486). -/
def logKinds : List Nat := [1, 2, 3, 4, 5, 6, 7, 8, 9, 0x0A, 0x0B, 0x0C, 0x10, 0x11]

/-- Records of each kind in a list. -/
def kindCounts (l : List LogRec) : List Int := logKinds.map fun k => ((l.filter fun r => r.item.kind.toNat == k).length : Int)

/-- The records of the RAM. -/
def Log.records (l : Log) : List LogRec := l.ram.cells.filterMap fun c => c.2

/-- LOG.SUMMARY. -/
def execLogSummary (h : Hdr) (s : State) : Host.Outcome State Fault Refusal :=
  hostCmd s h 0x0D05 fun d =>
    let g := (d.log.gen.toNat : Int)
    d.okResp h.tag ([g] ++ kindCounts d.log.records ++ kindCounts d.board.logPerm ++ kindCounts d.board.logCirc ++
      [((d.log.records.filter fun r => !r.closed).length : Int), (d.log.lost : Int), (d.param0D 6 : Int), g])

/-- LOG.READ. -/
def execLogRead (h : Hdr) (area : BitVec 8) (first count : Nat) (s : State) : Host.Outcome State Fault Refusal :=
  hostCmd s h 0x0D06 fun d =>
    let size := if area = 0 then 256 else if area = 1 then 128 else 896
    match badArg [(0, decide (area.toNat > 2)), (1, decide (first ≥ size)), (2, decide (count = 0 ∨ count > 64 ∨ first + count > size))] with
    | some a => d.refuse h.tag stBadarg a
    | none =>
      let g := (d.log.gen.toNat : Int)
      let at_ := fun (k : Nat) =>
        if area = 0 then d.log.slotBytes k
        else match (if area = 1 then d.board.logPerm else d.board.logCirc)[k]? with
          | some r => r.bytes
          | none => erasedRec
      d.okResp h.tag ([g] ++ ((List.range count).flatMap fun i => (at_ (first + i)).map fun b => (b.toNat : Int)) ++ [g])

/-- LOG.SYNC: every record closes, and the command waits for the copies (R448, R453, R456). -/
def execLogSync (h : Hdr) (s : State) : Host.Outcome State Fault Refusal :=
  hostCmd s h 0x0D07 fun d =>
    let d : Dev := d.closeAllLog
    if d.log.closing = [] ∧ (!d.log.freeze || d.log.records.all (·.closed)) then d.ok h.tag
    else if ¬ d.logReachable then (d.accept h.tag).finish h.tag { status := stFault, b := 3 }
    else
      let d : Dev := d.accept h.tag
      { d with log := { d.log with syncTags := d.log.syncTags ++ [h.tag] } }

/-- LOG.CHALLENGE (R454). -/
def execLogChallenge (h : Hdr) (s : State) : Host.Outcome State Fault Refusal :=
  hostCmd s h 0x0D08 fun d =>
    let r := d.fresh
    let n := BitVec.ofNat 128 r.1
    ({ r.2 with log := { r.2.log with nonce := some n } } : Dev).okResp h.tag [(n.toNat : Int)]

/-- A token that LOG.CLEAR accepts (R454, R455). -/
def Dev.tokenGood (d : Dev) (t : Bytes) : Bool :=
  let cert := (t.drop 24).take 3748
  decide (t.length = 6192) && decide (leAt t 0 4 = 0x524C4347) && decide (leAt t 4 2 = 1) &&
  d.log.nonce == some (BitVec.ofNat 128 (leAt t 8 16)) && Config.sha3 d.rootKey == Config.rootHash && d.certGood cert &&
  (certUsage cert).testBit 2 && Config.mlDsa (certKey cert) (t.take 3772) ((t.drop 3772).take 2420)

/-- The records due for the permanent area reach it, while it has room (R455). -/
def Dev.savePerm (d : Dev) : Dev :=
  d.log.closing.foldl (fun d k => match d.log.ram.get none k with
    | some r =>
      if d.board.permRoom r then
        let r : LogRec := { r with perm := true }
        { d with
          board := { d.board with logPerm := d.board.logPerm ++ [{ r with start := d.log.start }] }
          log := { d.log with ram := d.log.ram.set none k (some r) } }
      else d
    | none => d) d

/-- LOG.CLEAR (R454, R455). -/
def execLogClear (h : Hdr) (token : Bytes) (answer : FlashAnswer) (s : State) : Host.Outcome State Fault Refusal :=
  hostCmd s h 0x0D09 fun d =>
    if d.log.freeze then d.refuse h.tag stBusy
    else
      let good := d.tokenGood token
      let d : Dev := { d with log := { d.log with nonce := none } }
      if ¬ good then (d.pushLog (d.logItem 0x0A 1 [] [])).refuse h.tag stDenied
      else if ¬ d.logReachable then (d.accept h.tag).finish h.tag { status := stFault, b := 4 }
      else
        let n := d.log.records.length + d.log.hold.length + d.board.logPerm.length
        let d : Dev := (d.accept h.tag).savePerm
        let n := n - d.board.logPerm.length
        if answer ≠ .done then d.finish h.tag { status := stFault, b := if answer = .differs then 3 else 4 }
        else
          let lostInj := d.log.hold.any (·.injected)
          let cert := (token.drop 24).take 3748
          let d : Dev := { d with
            log := { d.log with ram := .empty, newest := none, nextIdx := 0, closing := [], hold := [], gen := d.log.gen + 1 }
            board := { d.board with logCirc := [] } }
          let d : Dev := if lostInj then d.endInjection else d
          let d : Dev := d.endSync {}
          let d : Dev := d.pushLog (d.logItem 0x0A 0 [] [(certLab cert : Int), (certGen cert : Int), (n : Int)])
          (d.post 516 3 [(n : Int)]).finish h.tag {}

end Sys2Proof.Machine
end

