-- ==== Sys2Proof/Machine/Housekeeping.lean ====
section
/-!
DEFINITION. The meanings of housekeeping, thermal protection, the enables and the supply monitors
(17_housekeeping_thermal.md, R489).
-/
namespace Sys2Proof.Machine

/-! ### Supply windows (R463, R489) -/

/-- The window of a supply monitor in 100 uV, in the order of HK024 to HK038; the bandgap's own stands in the fuses. -/
def supplyWindow (supply : Nat) (bandgap : Int) : Rat × Rat :=
  match supply with
  | 0 => (7275, 7725)
  | 1 => (8245, 8755)
  | 2 => (17100, 18900)
  | 3 => (77600, 82400)
  | 4 => (-30900, -29100)
  | 5 => (17460, 18540)
  | 6 => (155000, 165000)
  | 7 => (-75000, -65000)
  | 8 => (17000, 19500)
  | 9 => (10100, 11200)
  | 10 => (8700, 9700)
  | 11 => (4700, 5700)
  | 12 => (7275, 7725)
  | 13 => (11400, 12600)
  | 14 => (11880, 12120)
  | _ => (bandgap * 99 / 100, bandgap * 101 / 100)

/-- The absolute range of a supply in 100 uV; none for the two references (R489). -/
def supplyAbsolute (supply : Nat) : Option (Int × Int) :=
  match supply with
  | 0 => some (-3000, 9000)
  | 1 => some (-3000, 10000)
  | 2 => some (-3000, 21000)
  | 3 => some (-3000, 90000)
  | 4 => some (-36000, 3000)
  | 5 => some (-3000, 21000)
  | 6 => some (-3000, 175000)
  | 7 => some (-85000, 3000)
  | 8 => some (-3000, 21000)
  | 9 => some (-3000, 13000)
  | 10 => some (-3000, 11000)
  | 11 => some (-3000, 7000)
  | 12 => some (-3000, 9000)
  | 13 => some (-3000, 14500)
  | _ => none

/-- A reading lies inside the window of its supply. -/
def supplyGood (supply : Nat) (bandgap reading : Int) : Bool :=
  decide ((supplyWindow supply bandgap).1 ≤ (reading : Rat)) && decide ((reading : Rat) ≤ (supplyWindow supply bandgap).2)

/-- A reading lies beyond the absolute range of its supply, which may damage the device (R489): the device goes on, and what its
monitor reads is a free value (DESIGN CHOICE, log entry 128). -/
def supplyDamages (supply : Nat) (reading : Int) : Bool :=
  (supplyAbsolute supply).any fun r => decide (reading < r.1) || decide (reading > r.2)

/-- The device itself holds the enable of a supply low (R463, R468). -/
def Hk.heldLow (k : Hk) (supply : Nat) : Bool :=
  if supply = 3 then !k.pePos else if supply = 4 then !k.peNeg else if 5 ≤ supply ∧ supply ≤ 7 then !k.miEn else false

/-- The monitor state of a supply changes, with its event (R463, R472). -/
def Dev.supplyEvent (d : Dev) (supply : Nat) (reading : Int) (out : Bool) : Dev :=
  let m := d.hk.supplyOut
  let d : Dev := { d with hk := { d.hk with
    supplyOut := if out then m ||| (1#16 <<< supply) else m &&& ~~~ (1#16 <<< supply)
    supplyVal := d.hk.supplyVal.set 0 supply reading, supplyAt := d.hk.supplyAt.set 0 supply d.mono } }
  d.post 521 (if out then 1 else 2) [(supply : Int), reading]

/-- A supply has stood on one side of its window for a time, since its monitor last changed (R463). -/
def Dev.supplyStood (d : Dev) (t supply len : Nat) : Bool :=
  !d.tl.running || decide ((d.advance t).mono ≥ d.hk.supplyAt.get 0 supply + len)

/-- SUPPLY_OUT_OF_RANGE (R463), after 1 us outside the window: line 39 reports it, unless the device holds its enable low. -/
def execSupplyOutOfRange (t : Nat) (supply : BitVec 4) (reading : Int) (s : State) : Host.Outcome State Fault Refusal :=
  let n := supply.toNat
  onDev s fun d =>
    if d.hk.supplyOut.getLsbD n ∨ supplyGood n s.fuses.bandgap reading ∨ ¬ d.supplyStood t n usSteps then d
    else
      let held := d.hk.heldLow n
      let (read, d) := if supplyDamages n reading then let f := d.fresh; ((f.1 : Int), f.2) else (reading, d)
      let d : Dev := (d.advance t).supplyEvent n read true
      if held then d.loseSupply n else d.report 39 (if n ∈ [3, 4, 6, 7] then 1 else 2) 6 n 0

/-- SUPPLY_IN_RANGE (R463), after 100 us inside the window. -/
def execSupplyInRange (t : Nat) (supply : BitVec 4) (reading : Int) (s : State) : Host.Outcome State Fault Refusal :=
  let n := supply.toNat
  onDev s fun d =>
    if ¬ d.hk.supplyOut.getLsbD n ∨ ¬ supplyGood n s.fuses.bandgap reading ∨ ¬ d.supplyStood t n (100 * usSteps) then d
    else (d.advance t).supplyEvent n reading false

/-- PE_EN_POS goes high: VSS_PE is in range, or 5 ms have passed (R468). -/
def execPeEnPosEnable (t : Nat) (s : State) : Host.Outcome State Fault Refusal :=
  onDev s fun d =>
    if ¬ d.hk.peWait ∨ ¬ d.hk.peNeg ∨ d.shutLatch ∨ d.fc.decaf.isSome ∨
        (d.hk.supplyOut.getLsbD 4 ∧ (d.advance t).mono < d.hk.peNegAt + 5 * msSteps) then d
    else
      let d : Dev := d.advance t
      { d with hk := { d.hk with pePos := true, peWait := false } }

/-! ### Thermal levels (R462 to R469) -/

/-- A THERMAL record (R471). -/
def Dev.thermalLog (d : Dev) (sub : Nat) : Dev :=
  d.pushLog (d.logItem 0x10 sub [] [d.hk.tj, (d.hk.tjCh : Int), rb d.hk.blind])

/-- A thermal level changes, with its record and its event (R464, R472); `quiet` leaves the event out. -/
def Dev.levelChange (d : Dev) (level : Nat) (on quiet : Bool) : Dev :=
  let d : Dev := d.thermalLog (if on then level else 0x80 + level)
  if quiet then d else d.post 520 (if on then 1 else 2) [(level : Int), d.hk.tj, (d.hk.tjCh : Int)]

/-- Thermal shutdown (R467): Decaf mode, the enables low, and what they fed gone. -/
def Dev.shutdown (d : Dev) : Dev :=
  let d : Dev := ({ d with shutLatch := true } : Dev).levelChange 2 true false
  let d : Dev := d.enterDecaf 7 0 true
  let d : Dev := { d with hk := { d.hk with pePos := false, peNeg := false, miEn := false, peWait := false, coolOk := false } }
  (d.loseSupply 3).loseSupply 6

/-- The valid temperature channels of this round. -/
def Hk.temps (k : Hk) : List Nat := (List.range 24).filter fun c => (k.ch.get {} c).seen

/-- The first channel with the largest reading. -/
def Hk.hottest (k : Hk) : Option Nat :=
  k.temps.foldl (fun m c => match m with
    | none => some c
    | some b => if (k.ch.get {} b).value < (k.ch.get {} c).value then some c else some b) none

/-- The decision at the end of slot 23 (R462, R464, R469). -/
def Dev.thermalDecision (d : Dev) : Dev :=
  let n := d.hk.temps.length
  let c := d.hk.hottest.getD d.hk.tjCh
  let tj := if n = 0 then d.hk.tj else (d.hk.ch.get {} c).value
  let blind := decide (n < 12)
  let was := d.hk
  let shut := !d.shutLatch && (n == 0 || decide (tj ≥ 12500))
  let warning := if tj ≥ 10000 then true else if tj < 9600 then false else was.warning
  let throttle := if tj ≥ 10800 then true else if tj < 10400 then false else was.throttle
  let d : Dev := { d with hk := { d.hk with
    tj := tj, tjCh := c, decision := d.tl.now, valid := n, blind := blind, warning := warning, throttle := throttle
    tjMax := if n = 0 then was.tjMax else some (match was.tjMax with | some m => max m tj | none => tj) } }
  let d : Dev := if blind ≠ was.blind then d.post 520 3 [rb blind, (n : Int)] else d
  let d : Dev := if warning ≠ was.warning then d.levelChange 0 warning false else d
  let d : Dev := if throttle ≠ was.throttle then d.levelChange 1 throttle (throttle && shut) else d
  let d : Dev := d.heatRuns
  if shut then d.shutdown
  else if d.fc.decaf.any (fun k => k.cause == 7) ∧ ¬ d.shutLatch then
    if tj ≥ 12100 then { d with hk := { d.hk with coolOk := false } }
    else if d.hk.coolOk then d
    else (({ d with hk := { d.hk with coolOk := true } } : Dev).thermalLog 3).post 520 4 [tj]
  else d

/-! ### Rounds (R459 to R462) -/

/-- The next channel of the round is sampled, 100 us into its slot, and the slot ends 25 us later (R460, R461); slot 23 ends with
the thermal decision. -/
def execHkSample (t : Nat) (reading : Int) (valid : Bool) (s : State) : Host.Outcome State Fault Refusal :=
  onDev s fun d =>
    let k := d.hk.slot
    let due := d.hk.roundAt + (125 * k + 100) * usSteps
    if ¬ d.tl.running ∨ k ≥ 128 ∨ (d.advance t).mono < due then d
    else
      let at_ := (d.advance t).tl.now - ((d.advance t).mono - due)
      let d : Dev := d.advance (at_ + 25 * usSteps)
      let good := valid && (decide (k ≥ 24) || decide (-4000 ≤ reading ∧ reading ≤ 15000))
      let d : Dev := { d with hk := { d.hk with
        slot := k + 1, invalids := if good then d.hk.invalids else satAdd (2 ^ 32 - 1) d.hk.invalids 1
        ch := d.hk.ch.mod {} k fun h => if good then
            { h with value := reading, stamp := at_, invalid := false, seen := true
                     min := some (match h.min with | some m => min m reading | none => reading)
                     max := some (match h.max with | some m => max m reading | none => reading) }
          else { h with value := reading, stamp := at_, invalid := true, seen := false } } }
      let d : Dev := if good then d else d.report 38 1 6 k 0
      if k = 23 then d.thermalDecision else d

/-- The temperature trigger, once S9 has ended (R324, R325). -/
def Dev.tempTrigger (d : Dev) : Dev :=
  let diff := d.hk.tj - d.cal.tCal
  if d.boot.step < 10 ∨ d.fc.decaf.isSome ∨ ¬ (diff.natAbs > d.cal.threshold * 100) then d
  else if d.cal.control.getLsbD 0 then d.setStale
  else d.startRun

/-- A round ends: its readings update the EXTREME records, and the calibration trigger is looked at (R324, R447, R460). -/
def execHkRoundEnd (t : Nat) (s : State) : Host.Outcome State Fault Refusal :=
  onDev s fun d =>
    if d.hk.slot < 128 then d
    else
      let d : Dev := d.advance t
      let d : Dev := forEach (List.range 128) (fun c d =>
        let h := d.hk.ch.get ({} : HkCh) c
        if h.invalid then d
        else d.pushLog (d.logItem 3 c [c] [h.value, h.value, (h.stamp : Int), (h.stamp : Int)])) d
      let d : Dev := { d with hk := { d.hk with
        slot := 0, rounds := d.hk.rounds + 1, roundAt := d.hk.roundAt + 16 * msSteps
        ch := ⟨d.hk.ch.cells.map fun c => (c.1, { c.2 with seen := false })⟩ } }
      let d : Dev := { d with hk := { d.hk with ch := ⟨d.hk.ch.cells.filter fun c => c.2 != ({} : HkCh)⟩ } }
      d.tempTrigger

/-! ### Commands (R470) -/

/-- HK.READ. -/
def execHkRead (h : Hdr) (first count : BitVec 8) (s : State) : Host.Outcome State Fault Refusal :=
  hostCmd s h 0x0C00 fun d =>
    let n := count.toNat
    if n = 0 ∨ n > 128 ∨ first.toNat + n > 128 then d.refuse h.tag stBadarg (if first.toNat < 128 then 1 else 0)
    else d.okResp h.tag ((List.range n).flatMap fun i =>
      let c := d.hk.ch.get ({} : HkCh) (first.toNat + i)
      [c.value, (c.stamp : Int), rb c.invalid, c.min.getD 0, c.max.getD 0])

/-- HK.STATE. -/
def execHkState (h : Hdr) (s : State) : Host.Outcome State Fault Refusal :=
  hostCmd s h 0x0C01 fun d =>
    d.okResp h.tag [d.hk.tj, (d.thermalState : Int), (d.hk.decision : Int), (d.hk.valid : Int), (d.hk.supplyOut.toNat : Int), s.fuses.bandgap]

/-- HK.MINMAX. -/
def execHkMinmax (h : Hdr) (mask : BitVec 128) (s : State) : Host.Outcome State Fault Refusal :=
  hostCmd s h 0x0C02 fun d =>
    let t := (members mask).foldl (fun t c => t.mod {} c fun (x : HkCh) => { x with min := none, max := none }) d.hk.ch
    ({ d with hk := { d.hk with ch := t } } : Dev).ok h.tag

end Sys2Proof.Machine
end

