-- ==== Sys2Proof/Machine/FlashPort.lean ====
section
/-!
DEFINITION. The meanings of the serial flash port (18_flash_port.md): the FLASH commands, the port's sequences, the window.
-/
namespace Sys2Proof.Machine

/-! ### Bytes of the flash -/

/-- A directory entry as its 8 bytes (R483). -/
def DirEntry.bytes (e : DirEntry) : Bytes :=
  let head := leBytes 2 (pathCode e.path) ++ [e.block]
  head ++ [0xA5] ++ leBytes 4 (crc32c head).toNat

/-- The directory as bytes; an erased entry is all ones (R483). -/
def Board.dirBytes (b : Board) : Bytes := b.dir.flatMap DirEntry.bytes

/-- A byte of the flash: the directory, the host's regions, and the position blocks, whose records the spec does not all lay
out as bytes and which answer free bytes where no store through the window put one (log entry 12). -/
def Board.byteAt (b : Board) (free a : Nat) : BitVec 8 :=
  if a < 4096 then b.dirBytes.getD a 0xFF
  else if 0x2000000 ≤ a ∧ a < 0x2000000 + 208 * 0x40000 then
    (b.bytes.cells.lookup a).getD (BitVec.ofNat 8 (Config.free (free + a)))
  else b.bytes.get 0xFF a

/-- `n` free bytes, answers of the flash that the spec leaves to it (log entry 12). -/
def Dev.freeBytes (d : Dev) (n : Nat) : Bytes := (List.range n).map fun i => BitVec.ofNat 8 (Config.free (d.free + i))

/-- `n` bytes of the flash from an address. -/
def Dev.flashBytes (d : Dev) (a n : Nat) : Bytes := (List.range n).map fun i => d.board.byteAt d.free (a + i)

/-- The counter of free values moves on by `n`. -/
def Dev.skipFree (d : Dev) (n : Nat) : Dev := { d with free := d.free + n }

/-- Program bytes from an address: a bit that is 0 stays 0 until an erase (R475 has 0xFF leave a byte unchanged; the rest is
PRESUMED of NOR flash, log entry 67). -/
def Dev.programBytes (d : Dev) : Nat → Bytes → Dev
  | _, [] => d
  | a, v :: vs =>
    let d : Dev := { d with board := { d.board with bytes := d.board.bytes.mod 0xFF a fun w => w &&& v } }
    d.programBytes (a + 1) vs

/-- Erase `n` bytes from an address. -/
def Dev.eraseBytes (d : Dev) (a n : Nat) : Dev :=
  let keep := d.board.bytes.cells.filter fun c => decide (c.1 < a) || decide (a + n ≤ c.1)
  { d with board := { d.board with bytes := ⟨keep⟩ } }

/-! ### Commands (R475, R485) -/

/-- The regions that the host may write (R482): offset and size. -/
def hostRegions : List (Nat × Nat) := [(0x10000, 0x1000), (0x20000, 0x10000), (0x40000, 0x100000), (0x400000, 0x800000)]

/-- A range lies inside one host-writable region. -/
def hostWritable (a n : Nat) : Bool := hostRegions.any fun r => decide (r.1 ≤ a) && decide (a + n ≤ r.1 + r.2)

/-- This device's S3 is in progress. -/
def Dev.inS3 (d : Dev) : Bool := d.boot.step == 3 && (d.entry 3).start && !(d.entry 3).fin

/-- A range ends beyond the capacity, once that is known. -/
def Flash.beyond (f : Flash) (a n : Nat) : Bool := f.capacity != 0 && decide (a + n > f.capacity * 0x100000)

/-- An operation takes the port, or waits for it. -/
def Dev.flashQueue (d : Dev) (tag : Tag) (o : FlashOp) : Dev :=
  let o : FlashOp := { o with tag := some tag, since := d.mono }
  let d : Dev := d.accept tag
  if d.flash.op.isNone then { d with flash := { d.flash with op := some o } }
  else { d with flash := { d.flash with ops := d.flash.ops ++ [o] } }

/-- FLASH.READ (R485). -/
def execFlashRead (h : Hdr) (addr len : BitVec 32) (s : State) : Host.Outcome State Fault Refusal :=
  hostCmd s h 0x1000 fun d =>
    let n := len.toNat
    match badArg [(0, decide (addr.toNat % 2 ≠ 0)),
        (1, decide (n < 64 ∨ n > 0x100000 ∨ n % 64 ≠ 0 ∨ d.flash.beyond addr.toNat n))] with
    | some a => d.refuse h.tag stBadarg a
    | none => d.flashQueue h.tag { kind := .read, addr := addr.toNat, len := n, opcode := 0xEE }

/-- FLASH.WRITE (R485). -/
def execFlashWrite (h : Hdr) (addr : BitVec 32) (data : Bytes) (s : State) : Host.Outcome State Fault Refusal :=
  hostCmd s h 0x1001 fun d =>
    if ¬ hostWritable addr.toNat data.length then d.refuse h.tag stDenied
    else if addr.toNat % 2 ≠ 0 ∨ data = [] then d.refuse h.tag stBadarg (if addr.toNat % 2 ≠ 0 then 0 else 1)
    else if d.inS3 then d.refuse h.tag stBusy
    else d.flashQueue h.tag { kind := .write, addr := addr.toNat, len := data.length, data := data, opcode := 0x12 }

/-- FLASH.ERASE (R485). -/
def execFlashErase (h : Hdr) (addr len : BitVec 32) (s : State) : Host.Outcome State Fault Refusal :=
  hostCmd s h 0x1002 fun d =>
    if ¬ hostWritable addr.toNat len.toNat then d.refuse h.tag stDenied
    else if addr.toNat % 4096 ≠ 0 ∨ len.toNat % 4096 ≠ 0 ∨ len = 0 then d.refuse h.tag stBadarg (if addr.toNat % 4096 ≠ 0 then 0 else 1)
    else if d.inS3 then d.refuse h.tag stBusy
    else d.flashQueue h.tag { kind := .erase, addr := addr.toNat, len := len.toNat, opcode := 0x21 }

/-- FLASH.INFO (R485). -/
def execFlashInfo (h : Hdr) (s : State) : Host.Outcome State Fault Refusal :=
  hostCmd s h 0x1003 fun d => d.flashQueue h.tag { kind := .info, opcode := 0x9F }

/-- FLASH.XFER (R475, R485). -/
def execFlashXfer (h : Hdr) (opcode : BitVec 8) (addr : BitVec 32) (len : BitVec 16) (s : State) :
    Host.Outcome State Fault Refusal :=
  hostCmd s h 0x1004 fun d =>
    if opcode ∉ [0x05, 0x9F, 0x5A] then d.refuse h.tag stDenied
    else if len.toNat < 2 ∨ len.toNat > 256 then d.refuse h.tag stBadarg 2
    else d.flashQueue h.tag { kind := .xfer, addr := addr.toNat, len := len.toNat, opcode := opcode }

/-! ### Sequences (R476 to R481) -/

/-- Change the operation that has the port. -/
def Dev.modOp (d : Dev) (f : FlashOp → FlashOp) : Dev := { d with flash := { d.flash with op := d.flash.op.map f } }

/-- Bytes of the program or erase in progress: up to the end of a page; a 64 KiB block where it is aligned; a 4 KiB sector. -/
def FlashOp.unit (o : FlashOp) : Nat :=
  let a := o.addr + o.moved
  let left := o.len - o.moved
  if o.kind = .write then min left (256 - a % 256)
  else if a % 0x10000 = 0 ∧ left ≥ 0x10000 then 0x10000
  else 0x1000

/-- The opcode of that program or erase (R475). -/
def FlashOp.code (o : FlashOp) : BitVec 8 := if o.kind = .write then 0x12 else if o.unit = 0x10000 then 0xDC else 0x21

/-- The limit of a wait in us (R479). -/
def FlashOp.limit (o : FlashOp) : Nat :=
  if ¬ o.issued then 3000000 else if o.opcode = 0x12 then 5000 else if o.opcode = 0x21 then 500000 else 3000000

/-- The next program or erase of the operation is issued. -/
def Dev.issueUnit (d : Dev) : Dev := d.modOp fun o => { o with issued := true, opcode := o.code, waited := 0, since := d.mono }

/-- This device's directory entry as bytes; an erased one where it has none. -/
def Dev.ownEntry (d : Dev) : Bytes :=
  match d.board.dir.find? fun e => e.path == d.tree.path with
  | some e => e.bytes
  | none => List.replicate 8 0xFF

/-- The bytes that a device answers as a response. -/
def respBytes (b : Bytes) : List Int := b.map fun v => (v.toNat : Int)

/-- The status is free: reads run and end their operation, programs and erases are issued. -/
def Dev.startUnit (d : Dev) (o : FlashOp) : Dev :=
  match o.kind with
  | .read => (d.endOp { resp := respBytes (d.flashBytes o.addr o.len) }).skipFree (o.addr + o.len)
  | .info =>
    (d.endOp { resp := respBytes (d.freeBytes 14) ++ [(d.flash.capacity : Int), (d.flash.state : Int)] ++
                       respBytes d.ownEntry }).skipFree 14
  | .xfer =>
    let r := d.freeBytes o.len
    let r := if o.opcode = 0x05 then match r with | [] => [] | b :: bs => (b &&& 0xFE) :: bs else r
    (d.endOp { resp := respBytes r }).skipFree o.len
  | .write | .erase => d.issueUnit

/-- The operation that has the port ends FAULT, and its cause is reported as class U on line 43 (R477, R479, R481), with
its record and its event (R486, R487). -/
def Dev.failOp (d : Dev) (o : FlashOp) (sub code cause : Nat) : Dev :=
  let a := o.addr + o.moved
  let d : Dev := match o.tag with | some t => d.finish t { status := stFault, b := 8 } | none => d
  let d : Dev := d.modOp fun o => { o with tag := none }
  let d : Dev := d.pushLog (d.logItem 0x11 sub [a, o.opcode.toNat] [(a : Int), (o.opcode.toNat : Int)])
  (d.post 530 code (if code = 2 then [(a : Int), (o.opcode.toNat : Int)] else [(a : Int)])).report 43 1 cause 0xFFFF 0

/-- FLASH_SELECT_CLAIM (R477, R479): the select has been high for 1 us, and the sequence begins with its status read. -/
def execFlashSelectClaim (t : Nat) (busy : Bool) (s : State) : Host.Outcome State Fault Refusal :=
  onDev s fun d =>
    match d.flash.op with
    | none => d
    | some o =>
      if ¬ o.claiming ∨ o.backoff ∨ (d.advance t).mono < o.since + usSteps then d
      else
        let d : Dev := d.advance t
        let o : FlashOp := { o with claiming := false, since := d.mono, waited := 0, issued := false }
        let d : Dev := d.modOp fun _ => o
        if busy then d else d.startUnit o

/-- FLASH_SELECT_COLLISION (R477): another master has pulled the select during the sequence. -/
def execFlashSelectCollision (t : Nat) (s : State) : Host.Outcome State Fault Refusal :=
  onDev s fun d =>
    match d.flash.op with
    | none => d
    | some o =>
      if o.claiming then d
      else
        let d : Dev := d.advance t
        let o : FlashOp := { o with collisions := o.collisions + 1 }
        let d : Dev := { d with flash := { d.flash with collide := true, collisions := d.flash.collisions + 1 } }
        if o.collisions ≥ 3 then d.failOp o 0 1 8
        else
          let o : FlashOp := { o with claiming := true, backoff := true, moved := 0, issued := false, since := d.mono }
          (d.modOp fun _ => o).report 43 0 8 0xFFFF 0

/-- FLASH_COLLISION_RETRY (R477): the wait of (position ID + 1) x 10 us is over, and the port claims again. -/
def execFlashCollisionRetry (t : Nat) (s : State) : Host.Outcome State Fault Refusal :=
  onDev s fun d =>
    match d.flash.op with
    | none => d
    | some o =>
      if ¬ o.backoff ∨ (d.advance t).mono < o.since + (d.tree.position.toNat + 1) * 10 * usSteps then d
      else
        let d : Dev := d.advance t
        d.modOp fun o => { o with backoff := false, since := d.mono }

/-- A program or erase has ended: its bytes change, and the next one is issued, or the operation ends after its read-back
(R479, R485). -/
def Dev.unitDone (d : Dev) (o : FlashOp) (good : Bool) : Dev :=
  let a := o.addr + o.moved
  let n := o.unit
  let d : Dev := if o.kind = .write then d.programBytes a ((o.data.drop o.moved).take n) else d.eraseBytes a n
  let moved := o.moved + n
  if moved < o.len then (d.modOp fun o => { o with moved := moved }).issueUnit
  else if o.kind = .write ∧ (¬ good ∨ d.board.bytes.range 0xFF o.addr o.len ≠ o.data) then
    d.endOp { status := stFault, b := 8 }
  else d.endOp {}

/-- FLASH_STATUS_POLL (R479): WIP 1 waits on, up to the limit; WIP 0 ends the wait. -/
def execFlashStatusPoll (t : Nat) (wip good : Bool) (s : State) : Host.Outcome State Fault Refusal :=
  onDev s fun d =>
    match d.flash.op with
    | none => d
    | some o =>
      if o.claiming ∨ (d.advance t).mono < o.since + d.flash.poll * usSteps then d
      else
        let d : Dev := d.advance t
        if wip then
          let o : FlashOp := { o with waited := o.waited + (d.mono - o.since) / usSteps, since := d.mono }
          if o.waited > o.limit then d.failOp o 1 2 4 else d.modOp fun _ => o
        else if ¬ o.issued then d.startUnit o
        else d.unitDone o good

/-- FLASH_BAD_WORD (R481): the operation is repeated once from its start. -/
def execFlashBadWord (t : Nat) (s : State) : Host.Outcome State Fault Refusal :=
  onDev s fun d =>
    match d.flash.op with
    | none => d
    | some o =>
      if o.claiming then d
      else
        let d : Dev := d.advance t
        let o : FlashOp := { o with badWords := o.badWords + 1 }
        let d : Dev := { d with flash := { d.flash with badWords := d.flash.badWords + 1 } }
        if o.badWords ≥ 2 then d.failOp o 2 3 5
        else
          let o : FlashOp := { o with claiming := true, moved := 0, issued := false, since := d.mono }
          (d.modOp fun _ => o).report 43 0 5 0xFFFF 0

/-! ### The window (R480; its sequences are taken whole, log entry 68) -/

/-- Bytes that the window maps. -/
def windowSize : Nat := 0x20000000

/-- The write-combining buffer is programmed. -/
def Dev.flushXbuf (d : Dev) : Dev :=
  match d.flash.xbuf with
  | none => d
  | some b => ({ d with flash := { d.flash with xbuf := none } } : Dev).programBytes (b.page * 256 + b.off) b.data

/-- One byte of a store: it extends the buffer, or the buffer is programmed first. -/
def Dev.storeByte (d : Dev) (a : Nat) (v : BitVec 8) : Dev :=
  let fresh : XBuf := { page := a / 256, off := a % 256, data := [v], since := d.mono }
  let next : Option XBuf := match d.flash.xbuf with
    | some b => if b.page = a / 256 ∧ b.off + b.data.length = a % 256 then
        some { b with data := b.data ++ [v], since := d.mono } else none
    | none => none
  match next with
  | some b => { d with flash := { d.flash with xbuf := some b } }
  | none => let d : Dev := d.flushXbuf; { d with flash := { d.flash with xbuf := some fresh } }

/-- The bytes of a store, ascending. -/
def Dev.storeBytes (d : Dev) : Nat → Bytes → Dev
  | _, [] => d
  | a, v :: vs => (d.storeByte a v).storeBytes (a + 1) vs

/-- XIP_READ (R480): the buffer is programmed, and 64 aligned bytes are read; it stalls while the port has an operation. -/
def execXipRead (t : Nat) (addr : BitVec 32) (s : State) : Host.Outcome State Fault Refusal :=
  onDev s fun d =>
    if addr.toNat ≥ windowSize ∨ d.flash.op.isSome then d
    else
      let d : Dev := (d.advance t).flushXbuf
      let a := addr.toNat / 64 * 64
      let r := d.flashBytes a 64
      ({ d with flash := { d.flash with xread := r } } : Dev).skipFree (a + 64)

/-- XIP_STORE (R480). -/
def execXipStore (t : Nat) (addr : BitVec 32) (data : Bytes) (s : State) : Host.Outcome State Fault Refusal :=
  onDev s fun d =>
    if addr.toNat + data.length > windowSize ∨ d.flash.op.isSome then d
    else (d.advance t).storeBytes addr.toNat data

/-- XIP_BUFFER_FLUSH (R480): 1 us has passed since the last store. -/
def execXipBufferFlush (t : Nat) (s : State) : Host.Outcome State Fault Refusal :=
  onDev s fun d =>
    match d.flash.xbuf with
    | none => d
    | some b => if (d.advance t).mono < b.since + usSteps ∨ d.flash.op.isSome then d else (d.advance t).flushXbuf

end Sys2Proof.Machine
end

