-- ==== Sys2Proof/Machine/Pattern.lean ====
section
/-!
DEFINITION. The meanings of the pattern store commands and of the paging events (08_pattern_store.md).
-/
namespace Sys2Proof.Machine

/-! ### What waits (R213, R219) -/

/-- The bank's checker takes up the next tile: one that a thread waits on, or one that a PAT.PREFETCH asks to check (R213,
R236). -/
def Dev.feedCheck (d : Dev) (b : Nat) : Dev :=
  let waits := (d.pat.waiting.filter fun w => w.1.toNat / 4 == b).map fun w => w.2
  let asked := d.pat.prefetches.flatMap fun p => if p.check then (p.todo.filter fun x => x.1.toNat == b).map fun x => x.2 else []
  match (waits ++ asked).findSome? fun v => (d.tileOf b v).bind fun k => if (d.tile b k).checked then none else some k with
  | some k => d.beginCheck b k
  | none => d

/-- PAT.PREFETCH commands queue their faults as entries of the queue free (R219). -/
def Dev.feedPrefetch (d : Dev) : Dev :=
  (d.pat.prefetches.flatMap fun p => p.todo).foldl (fun d x =>
    if d.resident x.1.toNat x.2 ∨ d.pat.queue.length ≥ 256 then d else d.raiseFault x.1.toNat x.2 .prefetch) d

/-- Pages have been freed or rewritten: what PAT.PREFETCH and the waiting threads still ask of them is asked again (R213, R219). -/
def Dev.refetch (d : Dev) : Dev := (List.range 16).foldl (fun d b => d.feedCheck b) d.feedPrefetch

/-! ### Ranges and checks -/

/-- The pages of a range. -/
def pageList (first : BitVec 36) (count : Nat) : List Nat := (List.range count).map fun i => first.toNat + i

/-- A page range is well formed (R236). -/
def pagesGood (first : BitVec 36) (count : Nat) : Bool := decide (1 ≤ count ∧ count ≤ 65536 ∧ first.toNat + count ≤ 2 ^ 36)

/-- Pages that are mapped. -/
def Dev.mapped (d : Dev) : Nat := (d.pat.ptes.cells.filter fun c => c.2.valid).length

/-- LPDDR5X is there (R218). -/
def Dev.hasDram (d : Dev) : Bool := d.pat.dram == 1 || d.pat.dram == 2

/-- Frames of LPDDR5X that are addressable: all but the firmware reserve of the top 576 MiB (R27, R218). -/
def dramFrames : Nat := (2 + Config.dramAbove.val) * 2 ^ 18 - 576 * 256

/-- Frames that back other pages than those given. -/
def Dev.framesUsed (d : Dev) (except : List Nat) : List Nat :=
  (d.pat.ptes.cells.filter fun c => c.2.valid && c.2.tier == 1 && !except.contains c.1).map fun c => c.2.frame.toNat

/-- The first frame from one on that backs no page, in so many steps. -/
def freeFrame (used : List Nat) : Nat → Nat → Nat
  | 0, f => f
  | n + 1, f => if used.contains f then freeFrame used n ((f + 1) % dramFrames) else f

/-- The backing frame that the device chooses for a page of LPDDR5X: a free one of those addressable (R218, R516). -/
def Dev.backing (d : Dev) (vpn : Nat) : Nat :=
  let used := d.framesUsed [vpn]
  freeFrame used used.length (Config.frame vpn % dramFrames)

/-- Pages that a device maps at most (R216, R218). -/
def Dev.maxPages (d : Dev) : Nat := if d.hasDram then 2 ^ 24 else 2 ^ 16

/-- A tile rewritten in place: the new GEN and CRC, CHECKED clear (R229). -/
def Dev.rewriteTile (d : Dev) (b k : Nat) (gen : BitVec 12) (crc : BitVec 32) (data : Tab (BitVec 64)) : Dev :=
  (d.loseData b k).modTile b k fun t => { t with gen := gen, crc := crc, checked := false, data := data }

/-- The words of a host page that the device reads for a tile rewritten in place: no operand carries them, so they are free
(log entry 21). -/
def Dev.freePage (d : Dev) : Tab (BitVec 64) × Dev :=
  (Tab.empty.fill 0 0 ((List.range 512).map fun i => BitVec.ofNat 64 (Config.free (d.free + i))), { d with free := d.free + 512 })

/-- What a write or remap does to the tiles of a page in the banks: freed, or rewritten in place where `keep` says so
(R229). -/
def Dev.retile (d : Dev) (vpn : Nat) (keep : Nat → Bool) (gen : BitVec 12) (crc : BitVec 32) (data : Tab (BitVec 64)) : Dev :=
  forEach (List.range 16) (fun b d =>
    match d.tileOf b vpn with
    | none => d
    | some k => if keep b then d.rewriteTile b k gen crc data else d.freeTile b k) d

/-- The contents of an LPDDR5X page. -/
def Dev.setDram (d : Dev) (vpn : Nat) (words : List (BitVec 64)) : Dev :=
  { d with pat := { d.pat with pages := d.pat.pages.fill 0 (512 * vpn) words } }

/-! ### PAT.MAP and PAT.UNMAP (R216, R225, R229, R516) -/

/-- A tile for a tile-only page in a bank: the one that it has, or a free or evicted one; none where the bank has none. -/
def Dev.tileOnly (d : Dev) (vpn b : Nat) (gen : BitVec 12) (crc : BitVec 32) : Option Dev :=
  match d.tileOf b vpn with
  | some k => some (d.rewriteTile b k gen crc .empty)
  | none =>
    match d.chooseTile b with
    | none => none
    | some k => some ((d.freeTile b k).enterTile b k vpn .empty false)

/-- Map a page; none where a named bank cannot give a tile (R225). -/
def Dev.mapPage (d : Dev) (vpn : Nat) (tier : BitVec 2) (host : Option (BitVec 64 × BitVec 32)) (banks : BitVec 16) : Option Dev :=
  let old := d.pte vpn
  let gen := if old.valid then old.gen + 1 else old.gen
  let crc := match host with | some x => x.2 | none => pageCrc .empty
  let frame := match host with | some x => x.1.setWidth 52 | none => if tier = 1 then BitVec.ofNat 52 (d.backing vpn) else 0
  let f : Tab (BitVec 64) × Dev := if tier = 2 then d.freePage else (Tab.empty, d)
  let d : Dev := f.2.retile vpn (fun b => if tier = 0 ∧ old.tier = 0 then banks.getLsbD b else old.pin.getLsbD b) gen crc f.1
  let d : Dev := d.modPte vpn fun p => { p with valid := true, tier := tier, bad := false, gen := gen, crc := crc, frame := frame }
  let d : Dev := if tier = 1 then d.setDram vpn (List.replicate 512 0) else d
  if tier = 0 then (members banks).foldl (fun o b => o.bind fun d => d.tileOnly vpn b gen crc) (some d) else some d

/-- PAT.MAP (R216, R218, R225, R230): also a range for which the LPDDR5X has no frames left completes BADARG (log entry 160). -/
def execPatMap (h : Hdr) (first : BitVec 36) (count : Nat) (tier : BitVec 2) (frames : List (BitVec 64 × BitVec 32))
    (banks : BitVec 16) (s : State) : Host.Outcome State Fault Refusal :=
  hostCmd s h 0x0700 fun d =>
    let pages := pageList first count
    let fresh := (pages.filter fun v => !(d.pte v).valid).length
    match worst [failAt (tier == 1 && !d.hasDram) stDenied 0,
        badArgs [(0, !pagesGood first count || decide (d.mapped + fresh > d.maxPages) ||
            (tier == 1 && decide ((d.framesUsed pages).length + count > dramFrames))), (1, tier == 3),
          (2, tier == 2 && (frames.length != count || frames.any fun f =>
            decide (f.1.toNat ≥ 2 ^ 52) || (!d.tree.admitted && !d.ctl.inWindow (4096 * f.1.toNat, 4096))))],
        (pages.find? d.barred).map fun v => (stLocked, v, 0)] with
    | some (st, a, _) => d.refuse h.tag st a
    | none =>
      let hosts := fun (i : Nat) => if tier = 2 then frames[i]? else none
      match pages.zipIdx.foldl (fun (o : Option Dev) v => o.bind fun d => d.mapPage v.1 tier (hosts v.2) banks) (some d) with
      | none => d.refuse h.tag stBadarg 3
      | some d => d.refetch.ok h.tag

/-- PAT.UNMAP. -/
def execPatUnmap (h : Hdr) (first : BitVec 36) (count : Nat) (s : State) : Host.Outcome State Fault Refusal :=
  hostCmd s h 0x0701 fun d =>
    let pages := pageList first count
    match worst [badArgs [(0, !pagesGood first count)], (pages.find? d.barred).map fun v => (stLocked, v, 0)] with
    | some (st, a, _) => d.refuse h.tag st a
    | none =>
      (pages.foldl (fun d v => (d.retile v (fun _ => false) 0 0 .empty).modPte v fun p => { gen := p.gen }) d).refetch.ok h.tag

/-! ### PAT.WRITE and PAT.READ (R228, R229) -/

/-- Write a page: GEN and CRC, the backing memory, the tiles. -/
def Dev.writePage (d : Dev) (vpn : Nat) (x : PageData) : Dev :=
  let p := d.pte vpn
  let gen := p.gen + 1
  let d : Dev := d.modPte vpn fun p => { p with gen := gen, crc := x.crc, bad := false }
  let d : Dev := if p.tier = 1 then d.setDram vpn x.words else d
  d.retile vpn (fun b => p.tier == 0 || p.pin.getLsbD b) gen x.crc (pageData x.words)

/-- PAT.WRITE: it completes with the new GEN of each page. -/
def execPatWrite (h : Hdr) (first : BitVec 36) (pages : List PageData) (s : State) : Host.Outcome State Fault Refusal :=
  hostCmd s h 0x0702 fun d =>
    let l := (pageList first pages.length).zip pages
    let bad := [(0, !pagesGood first pages.length || l.any fun x => !(d.pte x.1).valid || decide ((d.pte x.1).tier.toNat > 1)),
      (1, l.any fun x => x.2.words.length != 512 || crc32c (wordBytes x.2.words) != x.2.crc)]
    match worst [badArgs bad, (l.find? fun x => d.barred x.1).map fun x => (stLocked, x.1, 0)] with
    | some (st, a, _) => d.refuse h.tag st a
    | none =>
      let d : Dev := (l.foldl (fun d x => d.writePage x.1 x.2) d).refetch
      d.okResp h.tag (l.map fun x => ((d.pte x.1).gen.toNat : Int))

/-- The backing contents of a page: LPDDR5X, a tile of a tile-only page; of a host page they are free (log entry 21). -/
def Dev.contents (d : Dev) (vpn : Nat) : List (BitVec 64) :=
  let p := d.pte vpn
  let free := (List.range 512).map fun i => BitVec.ofNat 64 (Config.free (d.free + i))
  if p.tier = 1 then d.pat.pages.range 0 (512 * vpn) 512
  else if p.tier = 0 then
    match (List.range 16).findSome? fun b => (d.tileOf b vpn).map fun k => (b, k) with
    | some x => (d.tile x.1 x.2).data.range 0 0 512
    | none => free
  else free

/-- PAT.READ. -/
def execPatRead (h : Hdr) (first : BitVec 36) (count : Nat) (s : State) : Host.Outcome State Fault Refusal :=
  hostCmd s h 0x0703 fun d =>
    let pages := pageList first count
    if ¬ pagesGood first count ∨ pages.any fun v => !(d.pte v).valid then d.refuse h.tag stBadarg 0
    else
      let r := pages.foldl (fun (x : Dev × List Int) v =>
        ({ x.1 with free := x.1.free + 512 },
          x.2 ++ (x.1.contents v).map (fun w => (w.toNat : Int)) ++ [((x.1.pte v).crc.toNat : Int)])) (d, [])
      r.1.okResp h.tag r.2

/-! ### Prefetching, pinning, eviction (R219, R225, R236) -/

/-- PAT.PREFETCH. -/
def execPatPrefetch (h : Hdr) (first : BitVec 36) (count : Nat) (banks : BitVec 16) (check : Bool) (s : State) :
    Host.Outcome State Fault Refusal :=
  hostCmd s h 0x0704 fun d =>
    if ¬ pagesGood first count then d.refuse h.tag stBadarg 0
    else
      let all := (pageList first count).flatMap fun v => (members banks).map fun b => (BitVec.ofNat 4 b, v)
      let todo := all.filter fun x => !(d.resident x.1.toNat x.2 &&
        (!check || (d.tileOf x.1.toNat x.2).any fun k => (d.tile x.1.toNat k).checked))
      if todo = [] then d.ok h.tag
      else
        let d : Dev := d.accept h.tag
        let d : Dev := { d with pat := { d.pat with prefetches := d.pat.prefetches ++ [{ tag := h.tag, todo := todo, check := check }] } }
        (members banks).foldl (fun d b => d.feedCheck b) d.feedPrefetch

/-- Working tiles of a bank that are in use and not pinned. -/
def Dev.unpinned (d : Dev) (b : Nat) : Nat := ((List.range 1024).filter fun k => !(d.tile b k).out && !(d.tile b k).pin).length

/-- PAT.PIN. -/
def execPatPin (h : Hdr) (first : BitVec 36) (count : Nat) (banks : BitVec 16) (pin : Bool) (s : State) :
    Host.Outcome State Fault Refusal :=
  hostCmd s h 0x0705 fun d =>
    let pages := pageList first count
    let each := (members banks).flatMap fun b => pages.map fun v => (b, v)
    if ¬ pagesGood first count ∨ each.any fun x => !d.resident x.1 x.2 then d.refuse h.tag stBadarg 0
    else
      let d' : Dev := each.foldl (fun d x =>
        let d : Dev := match d.tileOf x.1 x.2 with
          | some k => d.modTile x.1 k fun t => { t with pin := pin }
          | none => d
        d.modPte x.2 fun p => { p with pin := if pin then p.pin ||| (1#16 <<< x.1) else p.pin &&& ~~~ (1#16 <<< x.1) }) d
      if pin ∧ (members banks).any fun b => decide (d'.unpinned b < 64) then d.refuse h.tag stBadarg 1 else d'.ok h.tag

/-- PAT.EVICT. -/
def execPatEvict (h : Hdr) (first : BitVec 36) (count : Nat) (banks : BitVec 16) (s : State) : Host.Outcome State Fault Refusal :=
  hostCmd s h 0x0706 fun d =>
    let pages := pageList first count
    let bad := !pagesGood first count || pages.any fun v =>
      (d.pte v).pin &&& banks != 0 || ((d.pte v).valid && (d.pte v).tier == 0)
    match worst [badArgs [(0, bad)], (pages.find? d.barred).map fun v => (stLocked, v, 0)] with
    | some (st, a, _) => d.refuse h.tag st a
    | none =>
      (pages.foldl (fun d v => (members banks).foldl (fun d b =>
        match d.tileOf b v with | some k => d.freeTile b k | none => d) d) d).refetch.ok h.tag

/-- PAT.DRIP. -/
def execPatDrip (h : Hdr) (mask : BitVec 64) (depth : Nat) (s : State) : Host.Outcome State Fault Refusal :=
  hostCmd s h 0x0707 fun d =>
    if depth > 64 then d.refuse h.tag stBadarg 1
    else ((members mask).foldl (fun d t => d.modThread t fun x => { x with depth := depth }) d).ok h.tag

/-- The fields of a tag (R211). -/
def Tile.fields (t : Tile) : List Int :=
  [(t.vpn : Int), rb t.valid, rb t.checked, rb t.bad, rb t.filling, (t.own.toNat : Int), rb t.pin, (t.gen.toNat : Int), (t.crc.toNat : Int)]

/-- PAT.QUERY: the PTE (R216), and for each bank that holds the page its tile and tag. -/
def execPatQuery (h : Hdr) (vpn : BitVec 36) (s : State) : Host.Outcome State Fault Refusal :=
  hostCmd s h 0x0708 fun d =>
    let p := d.pte vpn.toNat
    d.okResp h.tag ([rb p.valid, (p.tier.toNat : Int), rb p.bad, (p.res.toNat : Int), (p.pin.toNat : Int), (p.gen.toNat : Int),
        (p.crc.toNat : Int), (p.frame.toNat : Int)] ++
      (List.range 16).flatMap fun b => match d.tileOf b vpn.toNat with
        | some k => (b : Int) :: (k : Int) :: (d.tile b k).fields
        | none => [])

/-- PAT.STATE. -/
def execPatState (h : Hdr) (bank : BitVec 4) (s : State) : Host.Outcome State Fault Refusal :=
  hostCmd s h 0x0709 fun d =>
    let b := bank.toNat
    let n := fun (p : Tile → Bool) => (((List.range 1024).filter fun k => p (d.tile b k)).length : Int)
    d.okResp h.tag [n (·.free), n (·.pin), n (fun t => t.own != 0), n (·.filling), n (·.bad), ((d.bank b).sparesUsed : Int),
      (d.pat.queue.length : Int)]

/-! ### Faults and fills (R219 to R226) -/

/-- The Drip feed queues a lookahead fault for a page of a thread's window (R226). -/
def execLookaheadFault (t : Nat) (th : BitVec 6) (vpn : BitVec 36) (s : State) : Host.Outcome State Fault Refusal :=
  onDev s fun d =>
    let d : Dev := d.advance t
    let b := th.toNat / 4
    let queued := d.pat.queue.any (fun q => q.vpn == vpn.toNat && q.bank.toNat == b) ||
      d.pat.fill.any fun f => f.vpn == vpn.toNat && f.tiles.any fun x => x.1.toNat == b
    if (d.window th.toNat).contains vpn.toNat ∧ ¬ d.resident b vpn.toNat ∧ ¬ queued ∧ d.fc.decaf.isNone then
      d.raiseFault b vpn.toNat .lookahead
    else d

/-- The fault that is served next: demand faults first, then prefetch and lookahead faults, each kind oldest first (R219). -/
def nextFault (q : List PFault) : Option PFault :=
  (q.find? fun f => f.kind == .demand).orElse fun _ =>
    (q.find? fun f => f.kind == .prefetch).orElse fun _ => q.head?

/-- A fault leaves the queue, and what waits for room enters it (R219). -/
def Dev.unqueue (d : Dev) (gone : PFault → Bool) : Dev :=
  let d : Dev := { d with pat := { d.pat with queue := d.pat.queue.filter fun f => !gone f } }
  d.pullOutside.feedPrefetch

/-- A fault leaves the queue with status FAULT, before what waits for room enters it; a lookahead fault for a page that cannot be
fetched ends with no action (R224). -/
def Dev.failFault (d : Dev) (f : PFault) : Dev :=
  let d : Dev := { d with pat := { d.pat with queue := d.pat.queue.filter fun q => q != f } }
  (if f.kind = .lookahead then d else d.faultPage [f.bank.toNat] f.vpn 8).pullOutside.feedPrefetch

/-- A page is resident when its fault is served, or its fill has ended: its waiters go on, once the check has run where a
thread waits or a PAT.PREFETCH asks for it (R213, R220). -/
def Dev.arrivePage (d : Dev) (b vpn : Nat) : Dev :=
  let checked := (d.tileOf b vpn).any fun k => (d.tile b k).checked
  let d : Dev := if checked then d.confirm b vpn else d
  (d.passPrefetch b vpn).feedCheck b

/-- A fill of a page starts into a tile of each bank that has a fault for it queued and can give one (R220, R221). -/
def Dev.startFill (d : Dev) (f : PFault) : Dev :=
  let p := d.pte f.vpn
  let same := d.pat.queue.filter fun q => q.vpn == f.vpn
  let tiles := same.filterMap fun q => (d.chooseTile q.bank.toNat).map fun k => (q.bank, k)
  if tiles.any fun x => x.1 == f.bank then
    let d : Dev := tiles.foldl (fun d x =>
      (d.freeTile x.1.toNat x.2).modTile x.1.toNat x.2 fun t => { t with vpn := f.vpn, filling := true, gen := p.gen }) d
    let fill : Fill := { vpn := f.vpn, tiles := tiles, crc := 0xFFFFFFFF, gen := p.gen, want := p.crc, kind := f.kind, raised := f.raised }
    let d : Dev := { d with pat := { d.pat with fill := some fill } }
    d.unqueue fun q => q.vpn == f.vpn && tiles.any fun x => x.1 == q.bank
  else if f.kind = .lookahead then
    ({ d with pat := { d.pat with drops := satAdd (2 ^ 32 - 1) d.pat.drops 1 } }.pagingLog 0 1 0 0 0).unqueue fun q => q == f
  else d

/-- CC0 takes the next fault up: steps 1 to 4 of R220. -/
def execFaultResolutionStart (t : Nat) (s : State) : Host.Outcome State Fault Refusal :=
  onDev s fun d =>
    let d : Dev := d.advance t
    if d.fc.decaf.isSome ∨ d.pat.fill.isSome then d
    else match nextFault d.pat.queue with
      | none => d
      | some f =>
        let p := d.pte f.vpn
        let b := f.bank.toNat
        if ¬ p.valid ∨ p.bad then d.failFault f
        else if d.resident b f.vpn then ((d.unqueue fun q => q == f).tlbUse b f.vpn).arrivePage b f.vpn
        else if p.tier = 0 then d.failFault f
        else d.startFill f

/-- One granule of 64 bytes is read from the backing frame and written (R220 step 5); `err` is a read error, which ends the
fill FAULT (R224). -/
def execFillGranule (t : Nat) (host : List (BitVec 64)) (err : Bool) (s : State) : Host.Outcome State Fault Refusal :=
  onDev s fun d =>
    let d : Dev := d.advance t
    match d.pat.fill with
    | none => d
    | some f =>
      if f.suspended ∨ f.granule ≥ 64 then d
      else if err then (d.dropFill).faultPage (f.tiles.map fun x => x.1.toNat) f.vpn (if (d.pte f.vpn).tier = 1 then 2 else 8)
      else
        let ws := if (d.pte f.vpn).tier = 2 then host else d.pat.pages.range 0 (512 * f.vpn + 8 * f.granule) 8
        if ws.length ≠ 8 then d
        else { d with pat := { d.pat with fill := some { f with
          granule := f.granule + 1, crc := crcStep f.crc (wordBytes ws), data := f.data.fill 0 (8 * f.granule) ws } } }

/-- CC0 has issued the actions of the Safety-class command, and the fill goes on (R222). -/
def execFillResume (t : Nat) (s : State) : Host.Outcome State Fault Refusal :=
  onDev s fun d =>
    let d : Dev := d.advance t
    { d with pat := { d.pat with fill := d.pat.fill.map fun f => { f with suspended := false } } }

/-- Steps 6 to 8 of R220. -/
def Dev.endFill (d : Dev) (f : Fill) : Dev :=
  let p := d.pte f.vpn
  let banks := f.tiles.map fun x => x.1.toNat
  let d : Dev := d.dropFill
  if p.gen ≠ f.gen ∨ ¬ p.valid then
    { d with pat := { d.pat with
      queue := (f.tiles.map fun x => { vpn := f.vpn, bank := x.1, kind := f.kind, raised := f.raised }) ++ d.pat.queue } }
  else if ~~~ f.crc ≠ f.want then d.faultPage banks f.vpn 3
  else
    let waits := d.pat.waiting.any fun w => w.2 == f.vpn && banks.contains (w.1.toNat / 4)
    let took := (d.mono - f.raised) / clk + if waits then 64 else 0
    let d : Dev := { d with pat := { d.pat with faultMax := min (2 ^ 32 - 1) (max d.pat.faultMax took) } }
    let d : Dev := d.pagingLog 0 0 0 0 took
    f.tiles.foldl (fun d x =>
      (d.enterTile x.1.toNat x.2 f.vpn f.data (p.pin.getLsbD x.1.toNat)).arrivePage x.1.toNat f.vpn) d

/-- A fill has all its granules (R220). -/
def execFillComplete (t : Nat) (s : State) : Host.Outcome State Fault Refusal :=
  onDev s fun d =>
    let d : Dev := d.advance t
    match d.pat.fill with
    | none => d
    | some f => if f.suspended ∨ f.granule < 64 then d else d.endFill f

/-- The bank's checker has read its tile (R213, R214). -/
def execTileCheckComplete (bank : BitVec 4) (upset : Bool) (s : State) : Host.Outcome State Fault Refusal :=
  onDev s fun d =>
    match (d.bank bank.toNat).checking with
    | none => d
    | some (k, at_) => d.due at_ fun d => (d.endCheck bank.toNat k upset).feedCheck bank.toNat

/-- The translation unit of a bank reloads an entry of a resident page (R217). -/
def execTranslationReload (t : Nat) (bank : BitVec 4) (vpn : BitVec 36) (s : State) : Host.Outcome State Fault Refusal :=
  onDev s fun d =>
    let d : Dev := d.advance t
    if d.resident bank.toNat vpn.toNat then d.tlbUse bank.toNat vpn.toNat else d

end Sys2Proof.Machine
end

