-- ==== Sys2Proof/Machine/Registers.lean ====
section
/-!
DEFINITION. The meanings of the accesses to the direct registers (20_register_map.md; R362, R363).
-/
namespace Sys2Proof.Machine

/-! ### Values -/

/-- DEV_INFO (R505). -/
def devInfo (s : State) : Nat :=
  packFields [(32, ctlVersion), (8, ctlStepping), (2, s.straps.role.toNat), (8, s.dev.tree.position.toNat)]

/-- A word of 8 bytes of a byte string. -/
def word8 (b : Bytes) (k : Nat) : Nat := leAt b (8 * k) 8

/-- Bytes of a RAM record as LOG_DATA shows them (R446, R512). -/
def Dev.logData (d : Dev) : Bytes := d.log.slotBytes d.regs.logIndex.toNat

/-- The value of a 64-bit register by its offset; none where no 64-bit register begins (R503, R511, R513). -/
def reg64 (s : State) (d : Dev) (off : Nat) : Option Nat :=
  if off = 0x0000 then some (devInfo s)
  else if off = 0x0018 then some d.regs.scratch.toNat
  else if off = 0x0040 then some (d.tl.now % 2 ^ 64)
  else if off = 0x0050 then some (d.tl.warmStamp % 2 ^ 64)
  else if off = 0x0100 then some d.ctl.cmd.base.toNat
  else if off = 0x0120 then some d.ctl.cpl.base.toNat
  else if off = 0x0140 then some d.ctl.evt.base.toNat
  else if off = 0x0160 then some d.ctl.resBase.toNat
  else if off = 0x0200 then some d.regs.irqSummary.toNat
  else if off = 0x0208 then some d.regs.irqTest.toNat
  else if off = 0x0300 then some d.fc.status
  else if off = 0x0308 then some d.regs.injWord.toNat
  else if 0x0400 ≤ off ∧ off < 0x0400 + 8 * 48 ∧ off % 8 = 0 then
    let l := d.fc.perLine.get ({} : FcLine) ((off - 0x0400) / 8)
    some (packFields [(16, l.c.toNat), (16, l.u.toNat), (16, l.f.toNat)])
  else if 0x0640 ≤ off ∧ off < 0x0680 ∧ off % 8 = 0 then some (word8 d.logData ((off - 0x0640) / 8))
  else if 0x0780 ≤ off ∧ off < 0x0800 ∧ off % 8 = 0 then some (word8 d.journal.bytes ((off - 0x0780) / 8))
  else none

/-- A 64-bit register begins at an offset. -/
def isReg64 (off : Nat) : Bool :=
  [0x0000, 0x0018, 0x0040, 0x0050, 0x0100, 0x0120, 0x0140, 0x0160, 0x0200, 0x0208, 0x0300, 0x0308].contains off ||
    (off % 8 == 0 && (decide (0x0400 ≤ off ∧ off < 0x0580) || decide (0x0640 ≤ off ∧ off < 0x0680) ||
      decide (0x0780 ≤ off ∧ off < 0x0800)))

/-- A 32-bit register lies at an offset (R503). -/
def isReg32 (off : Nat) : Bool :=
  [0x0008, 0x000C, 0x0010, 0x0048, 0x004C, 0x0058, 0x005C, 0x0060, 0x0080, 0x0084, 0x0088, 0x008C, 0x0090, 0x0108, 0x010C,
    0x0110, 0x0114, 0x0128, 0x012C, 0x0130, 0x0148, 0x014C, 0x0150, 0x0168, 0x016C, 0x0170, 0x0174, 0x0180, 0x0310, 0x0314,
    0x0318, 0x0600, 0x0604, 0x0608, 0x060C, 0x0700].contains off

/-- DEV_STATE (R505). -/
def Dev.stateWord (d : Dev) : Nat :=
  packFields [(4, d.boot.ended), (1, bit (d.boot.ready && d.fc.decaf.isNone)), (1, bit d.fc.decaf.isSome),
    (4, (d.fc.decaf.map fun k => k.cause.toNat).getD 0)]

/-- RING_STATUS (R507). -/
def Dev.ringStatus (d : Dev) : Nat :=
  packFields [(4, d.regs.errGeom.toNat), (4, d.regs.errEn.toNat), (1, bit d.ctl.cmd.en), (1, bit d.ctl.cpl.en),
    (1, bit d.ctl.evt.en), (1, bit d.ctl.resEn), (1, bit d.regs.badAccess)]

/-- CMD_CTRL, CPL_CTRL or EVT_CTRL (R507): PHASE reads 0 in CMD_CTRL. -/
def RingCfg.ctrl (r : RingCfg) (command : Bool) : Nat := packFields [(1, bit r.en), (1, bit (r.phase && !command))]

/-- FC_INJ_STATUS (R510). -/
def Dev.injStatus (d : Dev) : Nat := packFields [(1, bit d.fc.inj.isSome), (1, bit d.regs.refused), (1, bit d.regs.done)]

/-- LOG_FREEZE (R512). FROZEN stands from the write on, within the 64 clocks that R512 allows (log entry 137). -/
def Log.freezeWord (l : Log) : Nat :=
  packFields [(1, bit l.freeze), (1, bit l.timeout), (1, bit l.freeze), (5, 0), (6, l.hold.length)]

/-- LOG_NEWEST (R503). -/
def Log.newestWord (l : Log) : Nat := packFields [(8, l.newest.getD 0), (1, bit l.newest.isNone)]

/-- The value of a 32-bit register by its offset (R503): its reserved bits read as zero (R4). -/
def reg32 (s : State) (d : Dev) (off : Nat) : Nat :=
  let mirror := fun (id : Nat) => d.param s.straps s.fuses id
  if off = 0x0008 then d.stateWord
  else if off = 0x000C then d.ctl.seq.toNat
  else if off = 0x0010 then mirror 0x0F00
  else if off = 0x0048 then d.regs.tlCtx.toNat
  else if off = 0x004C then mirror 0x0101
  else if off = 0x0058 then d.tl.epoch.toNat
  else if off = 0x005C then d.tl.ref
  else if off = 0x0060 then mirror 0x0107
  else if off = 0x0080 then mirror 0x0C00
  else if off = 0x0084 then mirror 0x0C01
  else if off = 0x0088 then mirror 0x0C02
  else if off = 0x008C then mirror 0x0C03
  else if off = 0x0090 then mirror 0x0800
  else if off = 0x0108 then d.ctl.cmd.size.toNat
  else if off = 0x010C then d.ctl.cmd.ctrl true
  else if off = 0x0110 then d.ctl.cmd.tail
  else if off = 0x0114 then d.ctl.cmd.head
  else if off = 0x0128 then d.ctl.cpl.size.toNat
  else if off = 0x012C then d.ctl.cpl.ctrl false
  else if off = 0x0130 then d.ctl.cpl.head
  else if off = 0x0148 then d.ctl.evt.size.toNat
  else if off = 0x014C then d.ctl.evt.ctrl false
  else if off = 0x0150 then d.ctl.evt.head
  else if off = 0x0168 then d.ctl.resSize
  else if off = 0x016C then bit d.ctl.resEn
  else if off = 0x0170 then d.ctl.resHead
  else if off = 0x0174 then d.ctl.resTail
  else if off = 0x0180 then d.ringStatus
  else if off = 0x0310 then d.injStatus
  else if off = 0x0314 then mirror 0x0D03
  else if off = 0x0318 then bit d.fc.decaf.isSome
  else if off = 0x0600 then d.log.freezeWord
  else if off = 0x0604 then mirror 0x0D04
  else if off = 0x0608 then d.log.newestWord
  else if off = 0x060C then d.regs.logIndex.toNat
  else if off = 0x0700 then mirror 0x0F01
  else 0

/-- A double word of the MSI-X table (R503): address and data, or the mask of a vector. -/
def Dev.msixWord (d : Dev) (k : Nat) : Nat :=
  if k % 4 ≠ 3 then (d.regs.msix.get 0 k).toNat else bit (d.ctl.irqs.get ({} : Irq) (k / 4)).masked

/-- The pending bits of vectors `first` to `first + n - 1` (R361, R503). -/
def Dev.pendingBits (d : Dev) (first n : Nat) : Nat :=
  packFields ((List.range n).map fun k => (1, bit (d.ctl.irqs.get ({} : Irq) (first + k)).pending))

/-- The host gets a value from a register. -/
def Dev.answer (d : Dev) (v : Nat) : Dev := { d with regs := { d.regs with readData := BitVec.ofNat 64 v } }

/-! ### Reads (R362, R506) -/

/-- A read of TL_NOW, whole or of its low half, with its shadows (R506). -/
def Dev.readNow (d : Dev) (whole : Bool) : Dev :=
  let v := d.tl.now % 2 ^ 64
  let d : Dev := { d with regs := { d.regs with
    shadows := d.regs.shadows.set 0 0x0040 (BitVec.ofNat 32 (v / 2 ^ 32))
    tlCtx := BitVec.ofNat 20 (packFields [(16, d.tl.epoch.toNat), (4, d.tl.tq.toNat)]) } }
  d.answer (if whole then v else v % 2 ^ 32)

/-- TL_NOW_READ (R506). -/
def execTlNowRead (t : Nat) (whole : Bool) (s : State) : Host.Outcome State Fault Refusal :=
  onBar s t fun d => d.readNow whole

/-- An access of a wrong width or alignment (R502). -/
def Dev.badAccess (d : Dev) : Dev := { d with regs := { d.regs with badAccess := true } }

/-- A 32-bit read of the low half of a 64-bit register: the high half goes to the register's shadow (R362). -/
def Dev.readLow (d : Dev) (off v : Nat) : Dev :=
  let d : Dev := { d with regs := { d.regs with shadows := d.regs.shadows.set 0 off (BitVec.ofNat 32 (v / 2 ^ 32)) } }
  d.answer (v % 2 ^ 32)

/-- A read of a register (R6, R362, R502, R503): a 64-bit register whole or by halves, the high half from its shadow; a 32-bit
register; the MSI-X table and pending bits; zero elsewhere. -/
def Dev.readReg (d : Dev) (s : State) (off : Nat) (wide : Bool) : Dev :=
  if off % (if wide then 8 else 4) ≠ 0 then d.badAccess.answer 0
  else if 0x8000 ≤ off ∧ off < 0x8400 then
    let k := (off - 0x8000) / 4
    d.answer (if wide then packFields [(32, d.msixWord k), (32, d.msixWord (k + 1))] else d.msixWord k)
  else if 0x9000 ≤ off ∧ off < 0x9008 then d.answer (d.pendingBits (8 * (off - 0x9000)) (if wide then 64 else 32))
  else if off = 0x0040 then d.readNow wide
  else match reg64 s d off with
    | some v => if wide then d.answer v else d.readLow off v
    | none =>
      if isReg32 off then (if wide then d.badAccess.answer 0 else d.answer (reg32 s d off))
      else if ¬ wide ∧ 4 ≤ off ∧ isReg64 (off - 4) then d.answer (d.regs.shadows.get 0 (off - 4)).toNat
      else d.answer 0

/-- REGISTER_LOW_HALF_READ (R362), and every other read of a register (R503; log entry 111): none of the direct registers of
R503 is RC. -/
def execRegisterLowHalfRead (t : Nat) (at_ : RegRead) (s : State) : Host.Outcome State Fault Refusal :=
  onBar s t fun d => d.readReg s at_.off.toNat at_.wide

/-- BAD_REGISTER_ACCESS (R502): it reads as zero and writes nothing. -/
def execBadRegisterAccess (t : Nat) (_off : BitVec 16) (s : State) : Host.Outcome State Fault Refusal :=
  onBar s t fun d => d.badAccess.answer 0

/-! ### Registers whose write acts (R509, R510, R512) -/

/-- A W1C write ends: the bits that it cleared stood before this stamp and stand no longer (R7). -/
def Dev.wroteBits (d : Dev) (off m : Nat) : Dev := d.spent (0x10000 + off) (d.tl.before.get 0 (0x10000 + off) - m)

/-- A write to FC_INJECT: FC.INJECT with POLICY IMMEDIATE, or REFUSED (R510). -/
def Dev.writeInject (d : Dev) (word : BitVec 64) : Dev :=
  if ¬ injGood word ∨ d.fc.inj.isSome ∨ d.fc.decaf.isSome then { d with regs := { d.regs with refused := true } }
  else
    { d with
      regs := { d.regs with injWord := word }
      fc := { d.fc with inj := some { tag := none, word := word, since := d.firstGranule clk } } }

/-- FC_INJECT_WRITE (R510). -/
def execFcInjectWrite (t : Nat) (word : BitVec 64) (s : State) : Host.Outcome State Fault Refusal :=
  onBar s t fun d => d.writeInject word

/-- A write to DECAF_REQ (R510). -/
def Dev.writeDecafReq (d : Dev) (value : BitVec 32) : Dev :=
  if value.getLsbD 0 ∧ value >>> 16 = 0xDECA then d.enterDecaf 3 0 false else d

/-- DECAF_REQ_WRITE (R510). -/
def execDecafReqWrite (t : Nat) (value : BitVec 32) (s : State) : Host.Outcome State Fault Refusal :=
  onBar s t fun d => d.writeDecafReq value

/-- A write to IRQ_TEST: one message on each vector named, vector 63 left out (R509). -/
def Dev.writeIrqTest (d : Dev) (value : BitVec 64) : Dev :=
  ((members value).filter fun v => v != 63).foldl (fun d v => d.message v) d

/-- IRQ_TEST_WRITE (R509). -/
def execIrqTestWrite (t : Nat) (value : BitVec 64) (s : State) : Host.Outcome State Fault Refusal :=
  onBar s t fun d => d.writeIrqTest value

/-- A write to LOG_FREEZE: FREEZE is set or cleared, TIMEOUT is cleared by a 1 (R449, R512). -/
def Dev.writeLogFreeze (d : Dev) (value : BitVec 32) : Dev :=
  let m := d.w1c 0x0600 (if value.getLsbD 1 then 2 else 0)
  let d : Dev := if m ≠ 0 then ({ d with log := { d.log with timeout := false } } : Dev).wroteBits 0x0600 m else d
  if value.getLsbD 0 then
    if d.log.freeze then d else { d with log := { d.log with freeze := true, freezeAt := d.mono } }
  else if d.log.freeze then d.unfreeze
  else d

/-- LOG_FREEZE_WRITE (R512). -/
def execLogFreezeWrite (t : Nat) (value : BitVec 32) (s : State) : Host.Outcome State Fault Refusal :=
  onBar s t fun d => d.writeLogFreeze value

/-- A write to LOG_INDEX (R512). -/
def Dev.writeLogIndex (d : Dev) (value : BitVec 32) : Dev := { d with regs := { d.regs with logIndex := value.setWidth 8 } }

/-- LOG_INDEX_WRITE (R512). -/
def execLogIndexWrite (t : Nat) (value : BitVec 32) (s : State) : Host.Outcome State Fault Refusal :=
  onBar s t fun d => d.writeLogIndex value

/-! ### The other registers (R6, R341, R363, R507) -/

/-- A write to the base or size of an area that is enabled: ignored, with its error bit (R507). -/
def Dev.whileEnabled (d : Dev) (area : Nat) : Dev := { d with regs := { d.regs with errEn := d.regs.errEn ||| (1 <<< area) } }

/-- A write to the base or size of a ring (R341, R507). -/
def Dev.writeRing (d : Dev) (area : Nat) (f : RingCfg → RingCfg) : Dev :=
  let r := if area = 0 then d.ctl.cmd else if area = 1 then d.ctl.cpl else d.ctl.evt
  if r.en then d.whileEnabled area
  else if area = 0 then { d with ctl := { d.ctl with cmd := f r } }
  else if area = 1 then { d with ctl := { d.ctl with cpl := f r } }
  else { d with ctl := { d.ctl with evt := f r } }

/-- A write to FC_STATUS (R430): 1 clears LINE, C, U, F and OVERRUN bits; a bit set at this very stamp stays (R7). -/
def Dev.writeFcStatus (d : Dev) (v : BitVec 64) : Dev :=
  let m := d.w1c 0x0300 v.toNat
  ({ d with fc := { d.fc with
    lines := d.fc.lines &&& ~~~ (BitVec.ofNat 48 m), c := d.fc.c && !m.testBit 56, u := d.fc.u && !m.testBit 57
    f := d.fc.f && !m.testBit 58, overrun := d.fc.overrun && !m.testBit 59 } } : Dev).wroteBits 0x0300 m

/-- A write to IRQ_SUMMARY (R7, R509). -/
def Dev.writeIrqSummary (d : Dev) (v : BitVec 64) : Dev :=
  let m := d.w1c 0x0200 v.toNat
  ({ d with regs := { d.regs with irqSummary := d.regs.irqSummary &&& ~~~ (BitVec.ofNat 64 m) } } : Dev).wroteBits 0x0200 m

/-- A write to FC_INJ_STATUS (R7, R510). -/
def Dev.writeInjStatus (d : Dev) (v : BitVec 32) : Dev :=
  let m := d.w1c 0x0310 v.toNat
  ({ d with regs := { d.regs with
    refused := d.regs.refused && !m.testBit 1, done := d.regs.done && !m.testBit 2 } } : Dev).wroteBits 0x0310 m

/-- A 64-bit value reaches a 64-bit register. -/
def Dev.write64 (d : Dev) (off : Nat) (v : BitVec 64) : Dev :=
  if off = 0x0018 then { d with regs := { d.regs with scratch := v } }
  else if off = 0x0100 then d.writeRing 0 fun r => { r with base := v }
  else if off = 0x0120 then d.writeRing 1 fun r => { r with base := v }
  else if off = 0x0140 then d.writeRing 2 fun r => { r with base := v }
  else if off = 0x0160 then (if d.ctl.resEn then d.whileEnabled 3 else d)
  else if off = 0x0200 then d.writeIrqSummary v
  else if off = 0x0208 then d.writeIrqTest v
  else if off = 0x0300 then d.writeFcStatus v
  else if off = 0x0308 then d.writeInject v
  else d

/-- A write to RING_STATUS (R507): 1 clears ERR_GEOM, ERR_WHILE_EN and BAD_ACCESS bits; a bit set at this very stamp stays
(R7). -/
def Dev.writeRingStatus (d : Dev) (v : BitVec 32) : Dev :=
  let m := d.w1c 0x0180 v.toNat
  ({ d with regs := { d.regs with
    errGeom := d.regs.errGeom &&& ~~~ (BitVec.ofNat 4 m), errEn := d.regs.errEn &&& ~~~ (BitVec.ofNat 4 (m / 16))
    badAccess := d.regs.badAccess && !m.testBit 12 } } : Dev).wroteBits 0x0180 m

/-- A value reaches a 32-bit register. -/
def Dev.write32 (d : Dev) (off : Nat) (v : BitVec 32) : Dev :=
  if off = 0x0108 then d.writeRing 0 fun r => { r with size := v }
  else if off = 0x0128 then d.writeRing 1 fun r => { r with size := v }
  else if off = 0x0148 then d.writeRing 2 fun r => { r with size := v }
  else if off = 0x0168 then (if d.ctl.resEn then d.whileEnabled 3 else d)
  else if off = 0x010C then d.writeRingCtrl 0 v
  else if off = 0x012C then d.writeRingCtrl 1 v
  else if off = 0x014C then d.writeRingCtrl 2 v
  else if off = 0x0110 then d.writeCmdTail v
  else if off = 0x0130 then d.writeCplHead v
  else if off = 0x0150 then d.writeEvtHead v
  else if off = 0x0170 then d.writeResHead v
  else if off = 0x0180 then d.writeRingStatus v
  else if off = 0x0310 then
    d.writeInjStatus v
  else if off = 0x0318 then d.writeDecafReq v
  else if off = 0x0600 then d.writeLogFreeze v
  else if off = 0x060C then d.writeLogIndex v
  else d

/-- The RW registers of 64 bits, whose low half is staged (R363). -/
def stagedRegs : List Nat := [0x0018, 0x0100, 0x0120, 0x0140, 0x0308]

/-- A 32-bit write to half of a 64-bit register: the low half of an RW register is staged, and takes effect with the high
half (R363), a low half that was never written being a free value (log entry 69); a half of a W1C or W1S register acts on
its own bits. -/
def Dev.writeHalf (d : Dev) (off : Nat) (high : Bool) (v : BitVec 32) : Dev :=
  if stagedRegs.contains off then
    if high then
      let lo := d.regs.staged.get none off
      let x := d.fresh
      let d : Dev := if lo.isNone then x.2 else d
      let low : BitVec 32 := lo.getD (BitVec.ofNat 32 x.1)
      let d : Dev := { d with regs := { d.regs with staged := d.regs.staged.set none off none } }
      d.write64 off (v ++ low)
    else { d with regs := { d.regs with staged := d.regs.staged.set none off (some v) } }
  else d.write64 off (if high then v ++ 0#32 else 0#32 ++ v)

/-- A double word of the MSI-X table is written: address and data, or the mask of a vector; a pending message goes out when
its vector is unmasked (R361, R503). -/
def Dev.writeMsix (d : Dev) (k : Nat) (v : BitVec 32) : Dev :=
  if k % 4 ≠ 3 then { d with regs := { d.regs with msix := d.regs.msix.set 0 k v } }
  else
    let q := d.ctl.irqs.get ({} : Irq) (k / 4)
    let send := q.pending && !v.getLsbD 0
    let q' : Irq := { q with masked := v.getLsbD 0, pending := q.pending && !send, sent := if send then q.sent + 1 else q.sent }
    let d : Dev := { d with ctl := { d.ctl with irqs := d.ctl.irqs.set {} (k / 4) q' } }
    if send then { d with regs := { d.regs with irqSummary := d.regs.irqSummary ||| (1 <<< (k / 4)) } } else d

/-- A write to BAR0 that R502 allows. -/
def Dev.barWrite (d : Dev) (off : Nat) (wide : Bool) (v : BitVec 64) : Dev :=
  if 0x8000 ≤ off ∧ off < 0x8400 then
    let k := (off - 0x8000) / 4
    if wide then (d.writeMsix k (v.setWidth 32)).writeMsix (k + 1) ((v >>> 32).setWidth 32) else d.writeMsix k (v.setWidth 32)
  else if wide then (if isReg64 off then d.write64 off v else if isReg32 off then d.badAccess else d)
  else if isReg32 off then d.write32 off (v.setWidth 32)
  else if isReg64 off then d.writeHalf off false (v.setWidth 32)
  else if off ≥ 4 ∧ isReg64 (off - 4) then d.writeHalf (off - 4) true (v.setWidth 32)
  else d

/-- REGISTER_WRITE (R6, R363, R502). -/
def execRegisterWrite (t : Nat) (off : BitVec 16) (width64 : Bool) (value : BitVec 64) (s : State) :
    Host.Outcome State Fault Refusal :=
  onBar s t fun d =>
    if off.toNat % (if width64 then 8 else 4) ≠ 0 then d.badAccess else d.barWrite off.toNat width64 value

end Sys2Proof.Machine
end

