-- ==== Sys2Proof/Machine/TimelineCmds.lean ====
section
/-!
DEFINITION. The meanings of the timeline (02_timeline.md): reference, holdover, Tamp (14_tree_and_host.md, R390 to R393),
epochs and rewinds, the TL commands.
-/
namespace Sys2Proof.Machine

/-! ### A count that is replaced (R30, R40) -/

/-- A stamp of the old count as one of the new. -/
def shift (δ : Int) (t : Nat) : Nat := (t + δ).toNat

/-- A level's ramp on a shifted count. -/
def Level.shifted (δ : Int) (l : Level) : Level := { l with ramp := l.ramp.map (· + δ) }

/-- A measurement on a shifted count; the stamp of a sample already taken keeps its epoch. -/
def Meas.shifted (δ : Int) (old new : BitVec 16) (m : Meas) : Meas :=
  if m.epoch ≠ old ∧ ¬ m.began then m
  else
    let kept := m.began && decide (m.n > 0)
    { m with start := shift δ m.start, first := if kept then m.first else shift δ m.first, epoch := if kept then m.epoch else new }

/-- A PMU on a shifted count. -/
def Pmu.shifted (δ : Int) (old new : BitVec 16) (p : Pmu) : Pmu :=
  { p with
    seq := p.seq.map fun q => { q with ends := shift δ q.ends, closing := q.closing.map (shift δ) }
    ramp := p.ramp.map (· + δ), meas := p.meas.map (Meas.shifted δ old new)
    wave := p.wave.map fun w => if w.running then { w with next := shift δ w.next } else w }

/-- A channel on a shifted count. -/
def Chan.shifted (δ : Int) (old new : BitVec 16) (c : Chan) : Chan :=
  { c with
    levels := c.levels.mapAll {} (Level.shifted δ), pmu := c.pmu.shifted δ old new, lastDrive := c.lastDrive.map (shift δ)
    drvPend := c.drvPend.map fun p => { p with stamp := shift δ p.stamp }, moves := c.moves.map fun m => (shift δ m.1, m.2)
    pendAt := c.pendAt.map (shift δ) }

/-- A Metrology Unit on a shifted count. -/
def Mu.shifted (δ : Int) (old new : BitVec 16) (m : Mu) : Mu :=
  { m with
    seq := m.seq.map fun q => { q with ends := shift δ q.ends, closing := q.closing.map (shift δ) }
    ramp := m.ramp.map (· + δ)
    meas := m.meas.map fun x =>
      if x.epoch ≠ old ∧ x.got = 0 then x
      else { x with start := shift δ x.start, epoch := if x.got = 0 then new else x.epoch } }

/-- A thread on a shifted count; what an ARMED thread waits for is named by its epoch. -/
def Thread.shifted (δ : Int) (t : Thread) : Thread :=
  { t with
    idleAt := shift δ t.idleAt, startAt := if t.st = .armed then t.startAt else shift δ t.startAt, heldAt := shift δ t.heldAt, next := shift δ t.next
    pendAt := t.pendAt.map (shift δ)
    jump := t.jump.map fun j => { j with latch := shift δ j.latch }
    lastVec := t.lastVec.map fun v => (shift δ v.1, v.2), deadEnd := shift δ t.deadEnd
    matchAt := t.matchAt.map fun v => (shift δ v.1, v.2), dispatchFrom := shift δ t.dispatchFrom
    latch := t.latch.map (shift δ), stopAt := t.stopAt.map (shift δ), waitEnd := t.waitEnd.map (shift δ)
    strobes := t.strobes.map fun s => { s with start := shift δ s.start }
    gap := t.gap.map fun g => (shift δ g.1, g.2), residentAt := t.residentAt.map (shift δ)
    segStat := { t.segStat with
      start := shift δ t.segStat.start, firstFail := t.segStat.firstFail.map (shift δ), lastFail := t.segStat.lastFail.map (shift δ) }
    flow := { t.flow with start := shift δ t.flow.start, firstFail := t.flow.firstFail.map (shift δ) }
    ctx := { t.ctx with clock := shift δ t.ctx.clock, queue := t.ctx.queue.map fun q => (q.1, shift δ q.2) } }

/-- A TDC's edges on a shifted count; its window is what its command named. -/
def Tdc.shifted (δ : Int) (x : Tdc) : Tdc :=
  { x with
    lastStart := x.lastStart.map (shift δ), lastStop := x.lastStop.map (shift δ), start := x.start.map (shift δ)
    stop := x.stop.map (shift δ), firstStart := x.firstStart.map (shift δ), t0 := x.t0.map (shift δ), tN := shift δ x.tN }

/-- A ring whose effect stamp has passed, on a shifted count. -/
def Ring.shifted (δ : Int) (new : BitVec 16) (g : Ring) : Ring :=
  if ¬ g.running then g
  else
    { g with
      effAt := shift δ g.effAt, epoch := new, armedAt := g.armedAt.map (shift δ), prevEnd := shift δ g.prevEnd
      recent := g.recent.map fun x => (shift δ x.1, x.2), events := g.events.map fun e => (e.1, shift δ e.2)
      lastEnd := g.lastEnd.map (shift δ), actions := g.actions.map fun a => (shift δ a.1, a.2)
      cur := g.cur.map fun r => { r with
        trig := shift δ r.trig, tsample := shift δ r.tsample, ended := shift δ r.ended
        samples := r.samples.map fun x => (shift δ x.1, x.2) } }

/-- A lane's run on a shifted count. -/
def Lane.shifted (δ : Int) (new : BitVec 16) (l : Lane) : Lane :=
  { l with
    tap := l.tap.map fun w => (shift δ w.1, shift δ w.2.1, w.2.2), q := l.q.map fun w => (w.1, shift δ w.2)
    run := l.run.map fun r =>
      if r.active then
        { r with startAt := shift δ r.startAt, inputEnd := shift δ r.inputEnd, ended := shift δ r.ended
                 tapEnd := r.tapEnd.map (shift δ), epoch := if r.first.isSome then r.epoch else new }
      else if r.due then { r with startAt := shift δ r.startAt, epoch := new }
      else r }

/-- A bank on a shifted count. -/
def Bank.shifted (δ : Int) (new : BitVec 16) (b : Bank) : Bank :=
  { b with
    tdcs := b.tdcs.mapAll {} (Tdc.shifted δ), rings := b.rings.mapAll {} (Ring.shifted δ new), lane := b.lane.shifted δ new
    portFree := shift δ b.portFree, checking := b.checking.map fun c => (c.1, shift δ c.2) }

/-- A barrier on a shifted count. -/
def Barrier.shifted (δ : Int) (b : Barrier) : Barrier :=
  { b with opened := b.opened.map (shift δ), last := shift δ b.last, release := b.release.map (shift δ) }

/-- A cross-chip line on a shifted count. -/
def Xt.shifted (δ : Int) (old new : BitVec 16) (x : Xt) : Xt :=
  { x with
    effAt := if x.effEpoch = old then shift δ x.effAt else x.effAt, effEpoch := if x.effEpoch = old then new else x.effEpoch
    window := x.window.map (shift δ), cands := x.cands.map fun c => (shift δ c.1, c.2)
    action := x.action.map fun a => (shift δ a.1, a.2), offAt := x.offAt.map fun o => if o.1 = old then (new, shift δ o.2) else o }

/-- The count moves by `δ` phase steps into an epoch: what is in progress keeps its instants, and what a command named in the
new count keeps its stamp. -/
def Dev.shiftCount (d : Dev) (δ : Int) (new : BitVec 16) : Dev :=
  let old := d.tl.epoch
  { d with
    tl := { d.tl with now := shift δ d.tl.now, base := d.tl.base - δ, epoch := new }
    pins := { d.pins with chans := d.pins.chans.mapAll {} (Chan.shifted δ old new) }
    banks := d.banks.mapAll {} (Bank.shifted δ new)
    seq := { d.seq with
      threads := d.seq.threads.mapAll {} (Thread.shifted δ), barriers := d.seq.barriers.mapAll {} (Barrier.shifted δ)
      trig := d.seq.trig.mapAll {} fun o => { o with highUntil := o.highUntil.map (shift δ) } }
    cap := { d.cap with xt := d.cap.xt.mapAll {} (Xt.shifted δ old new), flowRelease := shift δ d.cap.flowRelease }
    mi := { d.mi with mus := d.mi.mus.mapAll {} (Mu.shifted δ old new) }
    cal := { d.cal with
      lastEffect := shift δ d.cal.lastEffect
      taps := d.cal.taps.mapAll {} fun x => if x.due then { x with dueAt := shift δ x.dueAt } else x }
    ctl := { d.ctl with jobs := d.ctl.jobs.map fun j => { j with stamp := j.stamp.map (shift δ) } }
    tree := { d.tree with
      ports := d.tree.ports.mapAll {} fun p => { p with seenMarks := p.seenMarks.map fun m => (shift δ m.1, m.2) } }
    fc := { d.fc with
      decaf := d.fc.decaf.map fun k => { k with since := shift δ k.since }
      inj := d.fc.inj.map fun i => if i.tag.isSome ∧ ¬ i.presented then i else { i with since := shift δ i.since } } }

/-! ### Reference (R33 to R38) -/

/-- REF_WARM_FILTER_CHANGE (R34): 1,000 samples, one a microsecond, have shown the level, so it can change no sooner than
1 ms after the last change or the start of the count; only a device that runs from REF_IN looks at the level (R37). -/
def execRefWarmFilterChange (t : Nat) (level : Bool) (s : State) : Host.Outcome State Fault Refusal :=
  onDev s fun d =>
    if ¬ d.tl.running ∨ d.tl.source ≠ 0 ∨ d.tl.warmFiltered = level ∨ (d.advance t).mono < d.tl.warmFrom + 1000 * usSteps then d
    else
      let d : Dev := d.advance t
      ({ d with tl := { d.tl with warmFiltered := level, refWarmPin := level, warmFrom := d.mono } } : Dev).refreshWarm

/-- Instant of the next verdict of the stability check: windows of 10 s start 1 s apart, and the first verdict compares the
windows that end 10 s and 20 s after the check began (R35). -/
def Timeline.verdictAt (t : Timeline) : Nat := t.stabSince + (20000 + 1000 * t.verdicts) * msSteps

/-- STABILITY_VERDICT (R35): the figure is a pass below 1e-8. -/
def execStabilityVerdict (t : Nat) (fig : Int) (s : State) : Host.Outcome State Fault Refusal :=
  onDev s fun d =>
    if ¬ d.tl.running ∨ d.tl.source ≠ 0 ∨ ¬ d.tl.stabRun ∨ (d.advance t).mono < d.tl.verdictAt then d
    else
      let d : Dev := d.advance t
      ({ d with tl := { d.tl with
        stabLast := BitVec.ofInt 32 fig, lastPass := decide (fig.natAbs < 1000), verdicts := d.tl.verdicts + 1 } } : Dev).refreshWarm

/-- WARM_STATE_MESSAGE (R36): a worker takes the warm state from the manager and applies it from the stamp that the message
names: at once when it has passed, else when it is reached. -/
def execWarmStateMessage (t : Nat) (warm : Bool) (epoch : BitVec 16) (stamp : Nat) (s : State) :
    Host.Outcome State Fault Refusal :=
  onDev s fun d =>
    if ¬ d.tl.running ∨ d.tl.source ≠ 2 then d
    else
      let d : Dev := (d.advance t).linkOut (.warm warm epoch stamp)
      if epoch = d.tl.epoch ∧ d.tl.now < stamp ∨ precedes d.tl.epoch epoch then
        { d with tl := { d.tl with warmPend := some (warm, epoch, stamp) } }
      else { d with tl := { d.tl with warm := warm, warmStamp := stamp, warmEpoch := epoch, warmPend := none } }

/-- REF_IN_LOSS (R38): no edge for 40 ns, after the main PLL locked to REF_IN. -/
def execRefInLoss (t : Nat) (s : State) : Host.Outcome State Fault Refusal :=
  onDev s fun d =>
    if ¬ d.tl.running ∨ d.tl.source ≠ 0 ∨ ¬ d.tl.refPresent then d
    else
      let d : Dev := d.advance t
      ({ d with tl := { d.tl with refPresent := false } } : Dev).loseRef

/-- REF_IN_RELOCK (R38): holdover ends and the stability check starts again. -/
def execRefInRelock (t : Nat) (s : State) : Host.Outcome State Fault Refusal :=
  onDev s fun d =>
    if ¬ d.tl.running ∨ d.tl.source ≠ 0 ∨ ¬ d.tl.holdover then d
    else
      let d : Dev := d.advance t
      let d : Dev := { d with tl := { d.tl with refPresent := true, holdover := false, stabRun := true, stabSince := d.mono, verdicts := 0 } }
      (d.post 512 2 []).refreshWarm

/-! ### The upstream timeline and Tamp (R39, R390 to R393) -/

/-- UPSTREAM_TIMELINE_LOSS (R39): an aligned worker goes on in holdover. -/
def execUpstreamTimelineLoss (t : Nat) (s : State) : Host.Outcome State Fault Refusal :=
  onDev s fun d =>
    if ¬ d.tl.running ∨ d.tl.source ≠ 2 ∨ d.tl.tlLocal ∨ d.tl.holdover then d
    else
      let d : Dev := d.advance t
      let d : Dev := { d with tl := { d.tl with holdover := true, holdSince := d.mono } }
      d.post 512 1 []

/-- HOLDOVER_LIMIT_EXPIRY (R39): a contained fault of line 34, whose reaction holds the threads, ends the scheduled actions and
sets TL_LOCAL. -/
def execHoldoverLimitExpiry (s : State) : Host.Outcome State Fault Refusal :=
  onDev s fun d =>
    if ¬ d.tl.running ∨ d.tl.source ≠ 2 ∨ ¬ d.tl.holdover ∨ d.tl.tlLocal then d
    else d.due (d.tl.holdSince + d.tl.holdoverLimit * usSteps - d.tl.base : Int).toNat fun d =>
      let d : Dev := (d.report 34 1 7 0xFFFF 0).holdoverEnds
      d.pushLog (d.logItem 0x0C 1 [] [(d.tl.epoch.toNat : Int)])

/-- A rewind is pending from now on: scheduled actions of this epoch at S or later end ABORTED (R42), and so do TDC
measurements that would close then (R147). -/
def Dev.beginRewind (d : Dev) (at_ : Nat) : Dev :=
  let e := d.tl.epoch
  let d : Dev := (d.removeActs fun a => a.epoch == e && decide (a.stamp ≥ at_)).rewindTdcs at_
  { d with tl := { d.tl with rewind := some at_ } }

/-- TIMELINE_MARKER (R390): a worker receives a marker, with the sender's TQ and a rewind that is pending. -/
def execTimelineMarker (t : Nat) (epoch : BitVec 16) (grain : Nat) (tq : BitVec 4) (rewind : Option Nat) (s : State) :
    Host.Outcome State Fault Refusal :=
  onDev s fun d =>
    if ¬ d.tl.running ∨ d.tl.source ≠ 2 ∨ grain % 1024 ≠ 0 then d
    else
      let d : Dev := d.advance t
      let d : Dev := { d with tl := { d.tl with marker := some (epoch, grain), upTq := tq } }
      match rewind with
      | none => d
      | some r => if d.tl.tlLocal ∨ epoch ≠ d.tl.epoch ∨ d.tl.rewind.isSome ∨ r ≤ d.tl.now then d else d.beginRewind r

/-- TAMP_EXCHANGE (R391): one two-way exchange; the sums hold twice the hop delay and twice the offset. -/
def execTampExchange (t1 t2 t3 t4 : Nat) (s : State) : Host.Outcome State Fault Refusal :=
  onDev s fun d =>
    if ¬ d.tl.running ∨ d.tl.source ≠ 2 ∨ d.tree.exchanges ≥ 256 ∨ t4 < t1 then d
    else
      let d : Dev := d.advance t4
      let two : Int := ((t4 : Int) - t1) - ((t3 : Int) - t2)
      { d with tree := { d.tree with
        exchanges := d.tree.exchanges + 1, sumD := d.tree.sumD + two, sumTheta := d.tree.sumTheta + (2 * ((t2 : Int) - t1) - two) } }

/-- Grains of an alignment interval as phase steps (R392). -/
def intervalSteps : Nat := 100000 * grainSteps

/-- ALIGNED of the worker, as P.0E03 shows it at its upstream port. -/
def Dev.setAligned (d : Dev) (on : Bool) : Dev :=
  let d : Dev := { d with tree := { d.tree with isAligned := on } }
  forEach (List.range 4) (fun p d => if (d.port p).upstream then d.modPort p fun x => { x with aligned := on } else d) d

/-- What the means of an interval do (R391, R392): `sum` is 512 times the mean offset. The total delay from the manager is that
of the device above, which is 0 for the manager itself, and the worker's own hop (R56); the devices below are told it (log entry 71). -/
def Dev.align (d : Dev) (sum : Int) : Dev :=
  let hop := (roundDiv d.tree.sumD 512).toNat
  let d : Dev := { d with tree := { d.tree with
    hopDelay := hop, rootDelay := hop + (if d.tree.path.length > 1 then d.tree.aboveDelay else 0), tampOffset := sum / 2
    good := if sum.natAbs ≤ 512 then d.tree.good + 1 else 0 } }
  let d : Dev := d.linkOut (.delay d.tree.rootDelay)
  let back := d.tl.holdover
  let d : Dev :=
    if d.tl.tlLocal then
      match d.tl.marker with
      | none => d
      | some m =>
        let d : Dev := d.shiftCount (max (roundDiv sum 512) (-(d.tl.now : Int))) m.1
        { d with tl := { d.tl with tlLocal := false } }
    else d
  let d : Dev := if back ∧ ¬ d.tl.tlLocal then
      ({ d with tl := { d.tl with holdover := false } } : Dev).post 512 2 [] else d
  if sum.natAbs > 2048 then
    if d.tree.isAligned then
      let d : Dev := d.setAligned false
      forEach (List.range 4) (fun p d => if (d.port p).upstream then d.post (601 + p) 3 [d.tree.tampOffset] else d) d
    else d
  else if d.tree.good ≥ 4 ∧ ¬ d.tree.isAligned then d.setAligned true
  else d

/-- ALIGNMENT_INTERVAL_END (R392): the worker acts on the means of its 256 exchanges. -/
def execAlignmentIntervalEnd (s : State) : Host.Outcome State Fault Refusal :=
  onDev s fun d =>
    if ¬ d.tl.running ∨ d.tl.source ≠ 2 then d
    else d.due ((d.tl.now / intervalSteps + 1) * intervalSteps) fun d =>
      let d : Dev := if d.tree.exchanges = 256 then d.align d.tree.sumTheta else d
      { d with tree := { d.tree with exchanges := 0, sumD := 0, sumTheta := 0 } }

/-! ### Epochs and rewinds (R40 to R45) -/

/-- The instant S becomes stamp 0 of the next epoch (R40): records open across S close (R254), open log records close (R448),
a wrap of the epoch is recorded by the device that keeps the count (R44), a new alignment interval starts (R392), and what is
still to be committed of the old epoch goes first (R43). -/
def Dev.rewindNow (d : Dev) (at_ : Nat) : Dev :=
  let d : Dev := (d.advance at_).rewindRings.closeAllLog
  let d : Dev := d.shiftCount (-(d.tl.now : Int)) (d.tl.epoch + 1)
  let d : Dev := { d with
    ctl := { d.ctl with behind := true }
    tl := { d.tl with now := 0, rewind := none, nearEnd := false }
    tree := { d.tree with exchanges := 0, sumD := 0, sumTheta := 0 } }
  if d.tl.epoch = 0 ∧ d.tl.source ≠ 2 then d.pushLog { d.logItem 8 1 [] [0] with perm := false } else d

/-- The TL.REWIND that waits for the effect completes (R55). -/
def Dev.endRewind (d : Dev) (at_ : Nat) : Dev :=
  match d.tl.rewindTag with
  | none => d
  | some tag =>
    ({ d with tl := { d.tl with rewindTag := none } } : Dev).finish tag
      { late := d.tl.rewindLate, resp := [(d.tl.epoch.toNat : Int), (at_ : Int)] }

/-- REWIND_EFFECT (R40): every action scheduled before S has been taken (R42). -/
def execRewindEffect (s : State) : Host.Outcome State Fault Refusal :=
  onDev s fun d =>
    match d.tl.rewind with
    | none => d
    | some r =>
      if d.tl.acts.any fun a => a.epoch == d.tl.epoch && decide (a.stamp < r) then d
      else (d.rewindNow r).endRewind r

/-- GRAIN_NEAR_END (R45): once in an epoch, the manager says that the count comes to its end. -/
def execGrainNearEnd (s : State) : Host.Outcome State Fault Refusal :=
  onDev s fun d =>
    if ¬ d.tl.running ∨ d.tl.source = 2 ∨ d.tl.nearEnd then d
    else d.due ((2 ^ 54 - 2 ^ 36) * grainSteps) fun d =>
      ({ d with tl := { d.tl with nearEnd := true } } : Dev).post 512 4 []

/-- A running site enters CHOLD for a forced rewind: a contained fault of its thread, reported on the line of its bank (R45;
log entry 136), and END 0b100 of its flow (R184). -/
def Dev.rewindThread (d : Dev) (t : Nat) : Dev :=
  (d.modThread t fun x => { x with flow := { x.flow with endCode := 4 } }).report (t / 4) 1 9 t 0

/-- FORCED_REWIND (R45): at the next grain, without the conditions of R41: scheduled actions and measurements end ABORTED,
running threads hold with a contained fault, and the log records it. -/
def execForcedRewind (s : State) : Host.Outcome State Fault Refusal :=
  onDev s fun d =>
    if ¬ d.tl.running ∨ d.tl.source = 2 ∨ d.tl.rewind.isSome then d
    else d.due ((2 ^ 54 - 2 ^ 20) * grainSteps) fun d =>
      let d : Dev := ((d.removeActs fun _ => true).rewindTdcs 0).abortRings
      let d : Dev := (d.leads (·.running)).foldl Dev.rewindThread d
      let d : Dev := d.rewindNow ((d.tl.now / grainSteps + 1) * grainSteps)
      let d : Dev := d.pushLog (d.logItem 0x0C 0 [] [(d.tl.epoch.toNat : Int)])
      d.post 512 5 [(d.tl.epoch.toNat : Int)]

/-! ### Commands (R54, R55) -/

/-- TL.NOW: what it returns is taken again when its completion is written (R55; `Dev.stampCpl`). -/
def execTlNow (h : Hdr) (s : State) : Host.Outcome State Fault Refusal :=
  hostCmd s h 0x0100 fun d => d.okResp h.tag d.tl.answer

/-- Something stands against a rewind in this device (R41). -/
def Dev.rewindBusy (d : Dev) : Bool :=
  d.countThreads (fun t => t.st != .idle) != 0 || !d.cap.gates.isEmpty ||
    (List.range 128).any (fun i => (d.ring (i / 8) (i % 8)).running) ||
    (List.range (16 * 36)).any fun i => (d.tdc (i / 36) (i % 36)).isOpen

/-- Where a TL.REWIND places S: a status that turns it away, or S and LATE (R41, R50, R52, R53). -/
def Dev.rewindStamp (d : Dev) (w : When) : Except (BitVec 4) (Nat × Bool) :=
  let first := roundUp (d.tl.now + 10000 * grainSteps) grainSteps
  if w.policy = 2 then .ok (first, false)
  else if w.epoch ≠ d.tl.epoch then .error (if precedes w.epoch d.tl.epoch then stTimeout else stBadarg)
  else if w.stamp.toNat > d.tl.now + 2 ^ 50 then .error stBadarg
  else if w.stamp.toNat ≥ d.tl.now + 10000 * grainSteps then .ok (w.stamp.toNat, false)
  else if w.policy = 0 then .error stTimeout
  else .ok (first, true)

/-- TL.REWIND (R41). -/
def execTlRewind (h : Hdr) (w : When) (idle : Bool) (s : State) : Host.Outcome State Fault Refusal :=
  hostCmd s h 0x0101 fun d =>
    if ¬ s.straps.isManager ∧ ¬ s.straps.isStandalone then d.refuse h.tag stDenied
    else if w.rsv ∨ w.policy = 3 ∨ (w.policy = 2 ∧ (w.epoch ≠ 0 ∨ w.stamp ≠ 0)) ∨ w.stamp.toNat % grainSteps ≠ 0 then
      d.refuse h.tag stBadarg
    else if d.tl.rewind.isSome then d.refuse h.tag stConflict
    else if d.rewindBusy ∨ ¬ idle then d.refuse h.tag stBusy
    else match d.rewindStamp w with
      | .error st => d.refuseWhen h.tag st
      | .ok (at_, late) =>
        let d : Dev := ((d.accept h.tag).beginRewind at_).linkOut (.rewind d.tl.epoch at_)
        { d with tl := { d.tl with rewindTag := some h.tag, rewindLate := late } }

/-- TL.STATUS. -/
def execTlStatus (h : Hdr) (s : State) : Host.Outcome State Fault Refusal :=
  hostCmd s h 0x0102 fun d => d.okResp h.tag ((List.range 8).map fun n => (d.param s.straps s.fuses (0x0100 + n) : Int))

/-- TL.MARK. -/
def execTlMark (h : Hdr) (w : When) (user : BitVec 32) (s : State) : Host.Outcome State Fault Refusal :=
  hostCmd s h 0x0103 fun d =>
    match d.schedule w grainSteps false with
    | .error st => d.refuseWhen h.tag st
    | .ok (epoch, stamp, late) =>
      let d : Dev := (d.accept h.tag).addAct { tag := h.tag, kind := .mark, epoch := epoch, stamp := stamp, user := user.toNat }
      d.finish h.tag (stamped { late := late } d.tl.tq epoch stamp)

/-- TL_MARK_EVENT: the mark stamp is reached; of several marks under one tag, the earliest. -/
def execTlMarkEvent (tag : BitVec 12) (s : State) : Host.Outcome State Fault Refusal :=
  onDev s fun d =>
    let marks := d.tl.acts.filter fun a => a.tag == tag && a.kind == .mark && a.epoch == d.tl.epoch
    match marks.find? fun a => marks.all fun b => decide (a.stamp ≤ b.stamp) with
    | none => d
    | some a =>
      d.due a.stamp fun d =>
        let d : Dev := { d with tl := { d.tl with acts := d.tl.acts.erase a } }
        d.postAt 512 6 [(a.user : Int)] d.tl.epoch a.stamp d.tl.tq

/-- TL.CANCEL (R54): the pending action that the command which last carried the tag has left. -/
def execTlCancel (h : Hdr) (target : BitVec 16) (s : State) : Host.Outcome State Fault Refusal :=
  hostCmd s h 0x0104 fun d =>
    match ((d.tl.acts.filter fun a => a.tag.toNat == target.toNat).diff d.ctl.orphans).getLast? with
    | none => d.refuse h.tag stBadarg 0
    | some a =>
      if a.epoch = d.tl.epoch ∧ a.stamp ≤ d.tl.now then (d.accept h.tag).finish h.tag { status := stTimeout }
      else (d.removeAct a).ok h.tag

end Sys2Proof.Machine
end

