-- ==== Sys2Proof/Machine/Timing.lean ====
section
/-!
DEFINITION. The meanings of the timing and TDC commands and events (05_edges_and_tdc.md).
-/
namespace Sys2Proof.Machine

/-! ### Timing values (R126 to R136) -/

/-- TIM.PERIOD: the new value is pending until its effect point (R126, R130, R135, R136). -/
def execTimPeriod (h : Hdr) (th : BitVec 6) (set : BitVec 8) (period : BitVec 32) (s : State) :
    Host.Outcome State Fault Refusal :=
  hostCmd s h 0x0400 fun d =>
    let t := th.toNat
    let k := set.toNat
    let p := period.toNat
    match badArg [(0, d.notLead t), (1, decide (k > 15)), (2, decide (p < 32 ∨ p > 1048575))] with
    | some a => d.refuse h.tag stBadarg a
    | none => d.allOrNone h.tag (d.siteChans t)
      (fun ch =>
        let c := d.chan ch
        orFail (!edgeGood (c.futureEdges k) p || decide (p < c.shortest c.drvMode c.offMode)) stBadarg)
      fun d =>
        let d : Dev := (d.accept h.tag).openJob { tag := h.tag, parts := 1 }
        let old := (d.thread t).periodPend.get none k
        let d : Dev := (d.modThread t fun x => { x with periodPend := x.periodPend.set none k (some (p, h.tag)) }).notePeriods t
        match old with | some (_, g) => d.partDone g false 0 | none => d

/-- TIM.EDGES (R127, R130, R135, R136). -/
def execTimEdges (h : Hdr) (chs : BitVec 512) (set : BitVec 8) (entry : BitVec 128) (s : State) :
    Host.Outcome State Fault Refusal :=
  hostCmd s h 0x0401 fun d =>
    let k := set.toNat
    d.allOrNone h.tag (members chs)
      (fun ch =>
        let c := d.chan ch
        firstOf [orFail c.noSlice stDenied, orFail (decide (k > 15)) stBadarg,
          match d.ownerOf ch with
          | some t =>
            let l := d.leadOf t
            let p := (d.thread l).futurePeriod k
            let swing := (d.siteChans l).any fun i => let x := d.chan i; decide (p < x.shortest x.drvMode x.offMode)
            orFail (!edgeGood entry p || swing) stBadarg
          | none => orFail (!edgeOrderGood entry) stBadarg])
      fun d =>
        let d : Dev := (d.accept h.tag).openJob { tag := h.tag, parts := (members chs).length }
        ((members chs).foldl (fun d ch =>
          let old := (d.chan ch).edgePend.get none k
          let d : Dev := (d.modChan ch fun c => { c with edgePend := c.edgePend.set none k (some (entry, h.tag)) }).notePend ch
          match old with | some (_, g) => d.partDone g false 0 | none => d) d).settleJob h.tag

/-- TIM.DESKEW (R132, R135, R136). -/
def execTimDeskew (h : Hdr) (chs : BitVec 512) (drv cmp : BitVec 16) (s : State) : Host.Outcome State Fault Refusal :=
  hostCmd s h 0x0402 fun d =>
    let bad := fun (v : BitVec 16) => decide (v.toInt < -2048 ∨ v.toInt > 2047)
    d.allOrNone h.tag (members chs)
      (fun ch => firstOf [orFail (d.chan ch).noSlice stDenied, orFail (bad drv || bad cmp) stBadarg])
      fun d =>
        let d : Dev := (d.accept h.tag).openJob { tag := h.tag, parts := 2 * (members chs).length }
        ((members chs).foldl (fun d ch =>
          let c := d.chan ch
          let d : Dev := (d.modChan ch fun c => { c with
            drvDeskewPend := some (drv.toInt, h.tag), cmpDeskewPend := some (cmp.toInt, h.tag) }).notePend ch
          let d : Dev := match c.drvDeskewPend with | some (_, g) => d.partDone g false 0 | none => d
          match c.cmpDeskewPend with | some (_, g) => d.partDone g false 0 | none => d) d).settleJob h.tag

/-- TIM.MAP: the SQUEEZE counts clear (R131, R149). -/
def execTimMap (h : Hdr) (bank : BitVec 4) (s : State) : Host.Outcome State Fault Refusal :=
  hostCmd s h 0x0403 fun d =>
    let b := bank.toNat
    let chs := (List.range 32).map (32 * b + ·)
    let r := (chs.flatMap fun ch =>
        let c := d.chan ch
        [(c.sliceOf ch : Int), rb c.noSlice, (c.squeeze : Int)]) ++
      ((List.range 34).flatMap fun k =>
        let x := (d.bank b).slices.get ({} : Slice) k
        [rb x.failed, x.drift]) ++
      [rb (d.isAux b 32 && d.tdcExists b 32), rb (d.isAux b 33 && d.tdcExists b 33)]
    (chs.foldl (fun d ch => d.modChan ch fun c => { c with squeeze := 0 }) d).okResp h.tag r

/-! ### TDC commands (R137 to R149) -/

/-- TDC.ARM (R137 to R146). The when-block places START of a TIMELINE start, and OPEN otherwise; OPEN of a TIMELINE start is
an argument of its own (log entry 19). -/
def execTdcArm (h : Hdr) (bank : BitVec 4) (tdc : BitVec 6) (mode : BitVec 2) (startSrc : BitVec 4) (startCh : BitVec 9)
    (stopSrc : BitVec 4) (stopCh : BitVec 9) (w : When) (openAt close repeatLen : Nat) (k : Nat) (count : Nat) (s : State) :
    Host.Outcome State Fault Refusal :=
  hostCmd s h 0x0404 fun d =>
    let b := bank.toNat
    let x := tdc.toNat
    let line := decide (startSrc = 4)
    let crossing := mode == 1 && !line
    let needs := d.lineNeeds b x (if crossing then startSrc.toNat else 4) startCh.toNat stopCh.toNat
    let bad := badArg [(0, !d.tdcExists b x), (1, mode == 3),
      (2, decide (startSrc.toNat > 4) || (crossing && decide (bankOf startCh.toNat ≠ b))),
      (3, decide (stopSrc.toNat > 3) || decide (bankOf stopCh.toNat ≠ b)),
      (7, (mode == 1 && decide (k > 16)) || (mode == 2 && decide (k > 8))), (8, mode != 1 && decide (count < 1 ∨ count > 65535))]
    if (d.chan stopCh.toNat).noSlice || (crossing && (d.chan startCh.toNat).noSlice) then d.refuse h.tag stDenied
    else if (d.tdc b x).owner ≠ .none then d.refuse h.tag stConflict x 0 8
    else if bad.isSome then d.refuse h.tag stBadarg (bad.getD 0)
    else if needs.length > (d.freeLines b).length then d.refuse h.tag stConflict x 0 9
    else match d.schedule w 1 true with
      | .error st => d.refuseWhen h.tag st
      | .ok (epoch, at_, late) =>
        let shift := if late then at_ - w.stamp.toNat else 0
        let opens := if mode = 1 ∧ line then openAt + shift else at_
        let closes := close + shift
        let start := if mode = 1 ∧ line then at_ else opens
        if closes ≤ opens ∨ closes - opens > 2 ^ 40 ∨ start > opens ∨ (mode = 1 ∧ repeatLen < closes - start + 128) then
          d.refuse h.tag stBadarg (if closes ≤ opens ∨ closes - opens > 2 ^ 40 then 5 else if start > opens then 4 else 6)
        else
          let d : Dev := (d.accept h.tag).addAct { tag := h.tag, kind := .tdc, epoch := epoch, stamp := at_ }
          (d.claimLines b x needs).modTdc b x fun _ => {
            owner := .arm h.tag, mode := mode, startSrc := startSrc, startCh := startCh, stopSrc := stopSrc
            stopCh := stopCh, startAt := start, openAt := opens, closeAt := closes, epoch := epoch, rep := repeatLen
            k := if mode = 0 then 0 else k, count := count, late := late }

/-- TDC.STOP (R147). -/
def execTdcStop (h : Hdr) (bank : BitVec 4) (tdc : BitVec 6) (s : State) : Host.Outcome State Fault Refusal :=
  hostCmd s h 0x0405 fun d =>
    match (d.tdc bank.toNat tdc.toNat).owner with
    | .arm _ => (d.cutTdc bank.toNat tdc.toNat).ok h.tag
    | _ => d.refuse h.tag stBadarg 0

/-- TDC.STATE. -/
def execTdcState (h : Hdr) (bank : BitVec 4) (s : State) : Host.Outcome State Fault Refusal :=
  hostCmd s h 0x0406 fun d =>
    let b := bank.toNat
    d.okResp h.tag (((List.range 34).flatMap fun k =>
        let x := d.tdc b k
        [(match x.owner with | .none => 0 | .arm _ => 1 | .ring r => (2 + r.toNat : Int)), (x.mode.toNat : Int), rb x.isOpen,
         ((if x.mode = 1 then x.i else x.edges : Nat) : Int)]) ++
      ((List.range 4).flatMap fun l => match (d.bank b).lines.get none l with
        | some (t, ch) => [(t.toNat : Int), (ch.toNat : Int)]
        | none => [-1, -1]))

/-! ### TDC events -/

/-- The completion of a TDC.ARM after its last result: the OPEN and CLOSE used (R149). -/
def Tdc.cpl (x : Tdc) : Cpl := { late := x.late, resp := [(x.openAt : Int), (x.closeAt : Int)] }

/-- A measurement has its last result. -/
def Dev.endTdc (d : Dev) (b k : Nat) : Dev := d.freeTdc b k (d.tdc b k).cpl

/-- A TDC owned by a command, in its epoch. -/
def Tdc.live (x : Tdc) (e : BitVec 16) : Bool := (match x.owner with | .arm _ => true | _ => false) && x.epoch == e

/-- A window opens (R139, R141). -/
def execTdcWindowOpen (bank : BitVec 4) (tdc : BitVec 6) (s : State) : Host.Outcome State Fault Refusal :=
  onDev s fun d =>
    let b := bank.toNat
    let k := tdc.toNat
    let x := d.tdc b k
    if !x.live d.tl.epoch || x.isOpen then d
    else d.due (x.openAt + x.i * x.rep) fun d =>
      let d : Dev := d.modTdc b k fun x => { x with isOpen := true, start := none, stop := none, tq := x.tq ||| d.tl.tq }
      match x.owner with | .arm tag => d.dropAct tag .tdc | _ => d

/-- An edge comes too soon after the last one that its input accepted (R143): 2.5 ns, 256 phase steps. -/
def tooSoon (last : Option Nat) (t : Nat) : Bool := last.any fun z => decide (t < z + 256)

/-- An edge is rejected (R143). -/
def Dev.missEdge (d : Dev) (b k : Nat) : Dev :=
  let d : Dev := d.modTdc b k fun x => { x with missed := true }
  { d with pins := { d.pins with tdcMissed := satAdd (2 ^ 32 - 1) d.pins.tdcMissed 1 } }

/-- An accepted STOP edge of a PERIOD measurement (R142, R144). -/
def Tdc.periodEdge (x : Tdc) (t : Nat) : Tdc :=
  match x.t0 with
  | none => { x with t0 := some t, tN := t }
  | some _ =>
    let v : Int := (t : Int) - x.tN
    { x with
      tN := t, edges := x.edges + 1
      min := if x.edges = 0 then v else Min.min x.min v, max := if x.edges = 0 then v else Max.max x.max v }

/-- The run on the bank's lane takes the edges of a TDC for itself alone (TAPONLY, R284). -/
def Dev.tapsOnly (d : Dev) (b k : Nat) : Bool :=
  (d.lane b).run.any fun r => r.active && r.tapOnly && r.input == 3 && r.src.toNat == k

/-- An edge at a STOP input inside the window (R140 to R144). -/
def Dev.stopEdge (d : Dev) (b k t : Nat) : Dev :=
  let x := d.tdc b k
  if x.mode = 2 then
    let pass := decide ((x.passed + 1) % 2 ^ x.k = 0)
    let d : Dev := d.modTdc b k fun x => { x with passed := x.passed + 1 }
    if !pass then d
    else if tooSoon x.lastStop t then d.missEdge b k
    else
      let d : Dev := d.modTdc b k fun x => { x.periodEdge t with lastStop := some t }
      let y := d.tdc b k
      if y.edges ≥ y.count then (d.tdcResult b k y false).endTdc b k else d
  else if tooSoon x.lastStop t then d.missEdge b k
  else
    let d : Dev := d.modTdc b k fun x => { x with lastStop := some t }
    if x.mode = 0 then
      let d : Dev := if d.tapsOnly b k then d else d.tdcItem b k x 0 1 x.edges (((t : Int) - x.openAt) * 256) t 0 0 false
      let d : Dev := (d.feedTdc b k t x.openAt x.edges).modTdc b k fun x => { x with edges := x.edges + 1 }
      if x.edges + 1 ≥ x.count then d.endTdc b k else d
    else
      let takes := x.stop.isNone &&
        (if x.startSrc = 4 ∨ x.startCh ≠ x.stopCh then true else x.start.any fun a => decide (t > a))
      if takes then d.modTdc b k fun x => { x with stop := some t } else d

/-- An edge at a START input inside the window (R141, R143). -/
def Dev.startEdge (d : Dev) (b k t : Nat) : Dev :=
  let x := d.tdc b k
  if x.mode ≠ 1 ∨ x.startSrc = 4 then d
  else if tooSoon x.lastStart t then d.missEdge b k
  else d.modTdc b k fun x => { x with
    lastStart := some t, start := (match x.start with | some a => some a | none => some t)
    firstStart := if x.i = 0 ∧ x.start = none then some t else x.firstStart }

/-- An edge reaches an input of a TDC (R139 to R144), or a TDC that a capture ring owns for an EDGE condition (R245, R246). -/
def execTdcEdge (bank : BitVec 4) (tdc : BitVec 6) (stop : Bool) (t : Nat) (s : State) : Host.Outcome State Fault Refusal :=
  onDev s fun d =>
    let b := bank.toNat
    let k := tdc.toNat
    let x := d.tdc b k
    match x.owner with
    | .none => d
    | .ring r =>
      let d : Dev := d.advance t
      if tooSoon x.lastStop t then d.missEdge b k
      else
        (d.modTdc b k fun x => { x with lastStop := some t }).raiseOn b r.toNat t fun w =>
          condKind w == 5 && d.sliceChan b k == some (32 * b + bits w.toNat 4 5)
    | .arm _ =>
      let d : Dev := d.advance t
      if !x.live d.tl.epoch || !x.isOpen || decide (t < x.openAt + x.i * x.rep) || decide (t ≥ x.closeAt + x.i * x.rep) then d
      else
        let d : Dev := d.modTdc b k fun x => { x with tq := x.tq ||| d.tl.tq }
        if stop then d.stopEdge b k t else d.startEdge b k t

/-- A window closes (R139 to R142). -/
def execTdcWindowClose (bank : BitVec 4) (tdc : BitVec 6) (s : State) : Host.Outcome State Fault Refusal :=
  onDev s fun d =>
    let b := bank.toNat
    let k := tdc.toNat
    let x := d.tdc b k
    if !x.live d.tl.epoch || !x.isOpen then d
    else d.due (x.closeAt + x.i * x.rep) fun d =>
      if x.mode = 1 then
        let y := x.settle
        let y : Tdc := { y with
          isOpen := false, i := x.i + 1, start := none, stop := none, tq := y.tq ||| d.tl.tq }
        let d : Dev := d.modTdc b k fun _ => y
        if y.i ≥ 2 ^ y.k then (d.tdcResult b k y false).endTdc b k else d
      else if x.mode = 2 then (d.tdcResult b k { x with tq := x.tq ||| d.tl.tq } false).endTdc b k
      else d.endTdc b k

end Sys2Proof.Machine
end

