-- ==== Sys2Proof/Machine/Dispatch.lean ====
section
/-!
DEFINITION. The dispatch: one arm for each command of the table, in its order, each one direct call of its meaning.
-/
namespace Sys2Proof.Machine

/-- The effect of a command on everything but the queue. -/
def exec (i : Instr) (s : State) : Host.Outcome State Fault Refusal :=
  match i with
  | .powerOnReset s0 => Sys2Proof.Machine.execPowerOnReset s0 s
  | .warmReset s0 => Sys2Proof.Machine.execWarmReset s0 s
  | .bootStepEnd t10 work => Sys2Proof.Machine.execBootStepEnd t10 work s
  | .bootStepBoundExpiry t10 => Sys2Proof.Machine.execBootStepBoundExpiry t10 s
  | .mainPllLock t10 => Sys2Proof.Machine.execMainPllLock t10 s
  | .linkImageTimeout t10 => Sys2Proof.Machine.execLinkImageTimeout t10 s
  | .hostImageTimeout t10 => Sys2Proof.Machine.execHostImageTimeout t10 s
  | .firmwareMulticastReceived t10 image => Sys2Proof.Machine.execFirmwareMulticastReceived t10 image s
  | .refWarmFilterChange t level => Sys2Proof.Machine.execRefWarmFilterChange t level s
  | .stabilityVerdict t fig => Sys2Proof.Machine.execStabilityVerdict t fig s
  | .warmStateMessage t warm epoch stamp => Sys2Proof.Machine.execWarmStateMessage t warm epoch stamp s
  | .refInLoss t => Sys2Proof.Machine.execRefInLoss t s
  | .refInRelock t => Sys2Proof.Machine.execRefInRelock t s
  | .upstreamTimelineLoss t => Sys2Proof.Machine.execUpstreamTimelineLoss t s
  | .holdoverLimitExpiry => Sys2Proof.Machine.execHoldoverLimitExpiry s
  | .timelineMarker t epoch grain tq rewind => Sys2Proof.Machine.execTimelineMarker t epoch grain tq rewind s
  | .tampExchange t1 t2 t3 t4 => Sys2Proof.Machine.execTampExchange t1 t2 t3 t4 s
  | .alignmentIntervalEnd => Sys2Proof.Machine.execAlignmentIntervalEnd s
  | .grainNearEnd => Sys2Proof.Machine.execGrainNearEnd s
  | .forcedRewind => Sys2Proof.Machine.execForcedRewind s
  | .rewindEffect => Sys2Proof.Machine.execRewindEffect s
  | .tlNow h => Sys2Proof.Machine.execTlNow h s
  | .tlRewind h w idle => Sys2Proof.Machine.execTlRewind h w idle s
  | .tlStatus h => Sys2Proof.Machine.execTlStatus h s
  | .tlMark h w user => Sys2Proof.Machine.execTlMark h w user s
  | .tlMarkEvent tag => Sys2Proof.Machine.execTlMarkEvent tag s
  | .tlCancel h target => Sys2Proof.Machine.execTlCancel h target s
  | .pinLevels h chs mask words => Sys2Proof.Machine.execPinLevels h chs mask words s
  | .pinDriver h chs mode off => Sys2Proof.Machine.execPinDriver h chs mode off s
  | .pinLoad h chs en iol ioh => Sys2Proof.Machine.execPinLoad h chs en iol ioh s
  | .pinClamp h chs en => Sys2Proof.Machine.execPinClamp h chs en s
  | .pinLimit h chs mask step interval => Sys2Proof.Machine.execPinLimit h chs mask step interval s
  | .pinMon h chs en lo hi hyst mode n m action states => Sys2Proof.Machine.execPinMon h chs en lo hi hyst mode n m action states s
  | .pinMonRead h chs => Sys2Proof.Machine.execPinMonRead h chs s
  | .pinState h chs => Sys2Proof.Machine.execPinState h chs s
  | .pinPark h chs => Sys2Proof.Machine.execPinPark h chs s
  | .levelRampMove ch lvl => Sys2Proof.Machine.execLevelRampMove ch lvl s
  | .pendingValuesEffect t unit => Sys2Proof.Machine.execPendingValuesEffect t unit s
  | .monitorSample t ch nv => Sys2Proof.Machine.execMonitorSample t ch nv s
  | .queuedEnableRelease t ch => Sys2Proof.Machine.execQueuedEnableRelease t ch s
  | .supplyOutOfRange t supply reading => Sys2Proof.Machine.execSupplyOutOfRange t supply reading s
  | .supplyInRange t supply reading => Sys2Proof.Machine.execSupplyInRange t supply reading s
  | .pmuConfig h chs w mode range lo hi => Sys2Proof.Machine.execPmuConfig h chs w mode range lo hi s
  | .pmuConnect h chs w on => Sys2Proof.Machine.execPmuConnect h chs w on s
  | .pmuForce h chs w word => Sys2Proof.Machine.execPmuForce h chs w word s
  | .pmuLimit h chs step interval => Sys2Proof.Machine.execPmuLimit h chs step interval s
  | .pmuMeasure h chs w avg count dest bank ring => Sys2Proof.Machine.execPmuMeasure h chs w avg count dest bank ring s
  | .pmuWaveLoad h bank first entries => Sys2Proof.Machine.execPmuWaveLoad h bank first entries s
  | .pmuWaveRun h chs start w => Sys2Proof.Machine.execPmuWaveRun h chs start w s
  | .pmuWaveStop h chs => Sys2Proof.Machine.execPmuWaveStop h chs s
  | .pmuDrvi h chs en range => Sys2Proof.Machine.execPmuDrvi h chs en range s
  | .pmuState h chs => Sys2Proof.Machine.execPmuState h chs s
  | .pmuSequenceStart ch => Sys2Proof.Machine.execPmuSequenceStart ch s
  | .pmuSequenceStepEnd ch => Sys2Proof.Machine.execPmuSequenceStepEnd ch s
  | .forceRampMove ch => Sys2Proof.Machine.execForceRampMove ch s
  | .pmuForceEffect ch => Sys2Proof.Machine.execPmuForceEffect ch s
  | .pmuMeasureStart ch => Sys2Proof.Machine.execPmuMeasureStart ch s
  | .pmuAdcSample ch s0 ovr compliance => Sys2Proof.Machine.execPmuAdcSample ch s0 ovr compliance s
  | .waveStepStart ch => Sys2Proof.Machine.execWaveStepStart ch s
  | .timPeriod h th set period => Sys2Proof.Machine.execTimPeriod h th set period s
  | .timEdges h chs set entry => Sys2Proof.Machine.execTimEdges h chs set entry s
  | .timDeskew h chs drv cmp => Sys2Proof.Machine.execTimDeskew h chs drv cmp s
  | .timMap h bank => Sys2Proof.Machine.execTimMap h bank s
  | .tdcArm h bank tdc mode startSrc startCh stopSrc stopCh w openAt close repeatLen k count => Sys2Proof.Machine.execTdcArm h bank tdc mode startSrc startCh stopSrc stopCh w openAt close repeatLen k count s
  | .tdcStop h bank tdc => Sys2Proof.Machine.execTdcStop h bank tdc s
  | .tdcState h bank => Sys2Proof.Machine.execTdcState h bank s
  | .tdcWindowOpen bank tdc => Sys2Proof.Machine.execTdcWindowOpen bank tdc s
  | .tdcEdge bank tdc stop t => Sys2Proof.Machine.execTdcEdge bank tdc stop t s
  | .tdcWindowClose bank tdc => Sys2Proof.Machine.execTdcWindowClose bank tdc s
  | .seqAssign h th groups => Sys2Proof.Machine.execSeqAssign h th groups s
  | .seqLink h lead members => Sys2Proof.Machine.execSeqLink h lead members s
  | .seqSegload h th first descs => Sys2Proof.Machine.execSeqSegload h th first descs s
  | .seqDict h th first entries => Sys2Proof.Machine.execSeqDict h th first entries s
  | .seqTrigout h th claim release => Sys2Proof.Machine.execSeqTrigout h th claim release s
  | .seqStart h mask seg w => Sys2Proof.Machine.execSeqStart h mask seg w s
  | .seqJump h th seg => Sys2Proof.Machine.execSeqJump h th seg s
  | .seqHold h mask => Sys2Proof.Machine.execSeqHold h mask s
  | .seqResume h mask w => Sys2Proof.Machine.execSeqResume h mask w s
  | .seqStop h mask => Sys2Proof.Machine.execSeqStop h mask s
  | .seqBarrier h barrier count timeout reset => Sys2Proof.Machine.execSeqBarrier h barrier count timeout reset s
  | .seqStatus h th => Sys2Proof.Machine.execSeqStatus h th s
  | .threadStart th => Sys2Proof.Machine.execThreadStart th s
  | .microwordExecute word => Sys2Proof.Machine.execMicrowordExecute word s
  | .vectorStart th => Sys2Proof.Machine.execVectorStart th s
  | .compareStrobe th pins => Sys2Proof.Machine.execCompareStrobe th pins s
  | .prefetchRequest th => Sys2Proof.Machine.execPrefetchRequest th s
  | .underrunResume th => Sys2Proof.Machine.execUnderrunResume th s
  | .underrunAbort th => Sys2Proof.Machine.execUnderrunAbort th s
  | .holdEntry th => Sys2Proof.Machine.execHoldEntry th s
  | .threadResume th => Sys2Proof.Machine.execThreadResume th s
  | .jfailDecision th => Sys2Proof.Machine.execJfailDecision th s
  | .matchFound th => Sys2Proof.Machine.execMatchFound th s
  | .matchTimeout th => Sys2Proof.Machine.execMatchTimeout th s
  | .waittRelease th => Sys2Proof.Machine.execWaittRelease th s
  | .barrierArrival t barrier position stamp => Sys2Proof.Machine.execBarrierArrival t barrier position stamp s
  | .barrierBreak barrier => Sys2Proof.Machine.execBarrierBreak barrier s
  | .barrierRelease barrier release broken => Sys2Proof.Machine.execBarrierRelease barrier release broken s
  | .segmentEnd th => Sys2Proof.Machine.execSegmentEnd th s
  | .deadTimeEnd th => Sys2Proof.Machine.execDeadTimeEnd th s
  | .trigOutPulseEnd ball => Sys2Proof.Machine.execTrigOutPulseEnd ball s
  | .ucLoad h words table => Sys2Proof.Machine.execUcLoad h words table s
  | .ucClear h => Sys2Proof.Machine.execUcClear h s
  | .ucRead h bank first count => Sys2Proof.Machine.execUcRead h bank first count s
  | .ucState h => Sys2Proof.Machine.execUcState h s
  | .patMap h first count tier frames banks => Sys2Proof.Machine.execPatMap h first count tier frames banks s
  | .patUnmap h first count => Sys2Proof.Machine.execPatUnmap h first count s
  | .patWrite h first pages => Sys2Proof.Machine.execPatWrite h first pages s
  | .patRead h first count => Sys2Proof.Machine.execPatRead h first count s
  | .patPrefetch h first count banks check => Sys2Proof.Machine.execPatPrefetch h first count banks check s
  | .patPin h first count banks pin => Sys2Proof.Machine.execPatPin h first count banks pin s
  | .patEvict h first count banks => Sys2Proof.Machine.execPatEvict h first count banks s
  | .patDrip h mask depth => Sys2Proof.Machine.execPatDrip h mask depth s
  | .patQuery h vpn => Sys2Proof.Machine.execPatQuery h vpn s
  | .patState h bank => Sys2Proof.Machine.execPatState h bank s
  | .lookaheadFault t th vpn => Sys2Proof.Machine.execLookaheadFault t th vpn s
  | .faultResolutionStart t => Sys2Proof.Machine.execFaultResolutionStart t s
  | .fillGranule t host err => Sys2Proof.Machine.execFillGranule t host err s
  | .fillResume t => Sys2Proof.Machine.execFillResume t s
  | .fillComplete t => Sys2Proof.Machine.execFillComplete t s
  | .tileCheckComplete bank upset => Sys2Proof.Machine.execTileCheckComplete bank upset s
  | .translationReload t bank vpn => Sys2Proof.Machine.execTranslationReload t bank vpn s
  | .capRing h bank ring base length owner => Sys2Proof.Machine.execCapRing h bank ring base length owner s
  | .capConfig h bank ring src ch overwrite drain pre post measCh measLevel measHyst => Sys2Proof.Machine.execCapConfig h bank ring src ch overwrite drain pre post measCh measLevel measHyst s
  | .capTrigger h bank ring conds w action => Sys2Proof.Machine.execCapTrigger h bank ring conds w action s
  | .capArm h bank ring w records => Sys2Proof.Machine.execCapArm h bank ring w records s
  | .capDisarm h bank ring => Sys2Proof.Machine.execCapDisarm h bank ring s
  | .capFire h bank rings w => Sys2Proof.Machine.execCapFire h bank rings w s
  | .capRead h bank ring count => Sys2Proof.Machine.execCapRead h bank ring count s
  | .capFailcfg h mask ffr logLimit snap => Sys2Proof.Machine.execCapFailcfg h mask ffr logLimit snap s
  | .capCounts h chs clear => Sys2Proof.Machine.execCapCounts h chs clear s
  | .capXarm h line w rearm arm => Sys2Proof.Machine.execCapXarm h line w rearm arm s
  | .capFlush h producers => Sys2Proof.Machine.execCapFlush h producers s
  | .capState h bank => Sys2Proof.Machine.execCapState h bank s
  | .captureArmEffect bank ring => Sys2Proof.Machine.execCaptureArmEffect bank ring s
  | .triggerAction bank ring => Sys2Proof.Machine.execTriggerAction bank ring s
  | .recordClose bank ring => Sys2Proof.Machine.execRecordClose bank ring s
  | .recordHeaderCommit bank ring => Sys2Proof.Machine.execRecordHeaderCommit bank ring s
  | .xtrigFireMessage t line pos cond stamp => Sys2Proof.Machine.execXtrigFireMessage t line pos cond stamp s
  | .xtrigWindowClose line => Sys2Proof.Machine.execXtrigWindowClose line s
  | .xtrigActionMessage t line stamp pos merged => Sys2Proof.Machine.execXtrigActionMessage t line stamp pos merged s
  | .xtrigAction line => Sys2Proof.Machine.execXtrigAction line s
  | .carafePacketRead t headerBad badWords => Sys2Proof.Machine.execCarafePacketRead t headerBad badWords s
  | .resultPacketDma t => Sys2Proof.Machine.execResultPacketDma t s
  | .lossMarkerCommit t producer => Sys2Proof.Machine.execLossMarkerCommit t producer s
  | .flowInFilterChange t asserted => Sys2Proof.Machine.execFlowInFilterChange t asserted s
  | .flowGateDecision tag => Sys2Proof.Machine.execFlowGateDecision tag s
  | .flushAtBoundary t producer => Sys2Proof.Machine.execFlushAtBoundary t producer s
  | .dspClaim h bank owner => Sys2Proof.Machine.execDspClaim h bank owner s
  | .dspKload h words table => Sys2Proof.Machine.execDspKload h words table s
  | .dspMem h bank y first words => Sys2Proof.Machine.execDspMem h bank y first words s
  | .dspRun h bank kernel operands input source ch nominal tapOnly toX start => Sys2Proof.Machine.execDspRun h bank kernel operands input source ch nominal tapOnly toX start s
  | .dspStop h bank => Sys2Proof.Machine.execDspStop h bank s
  | .dspRead h bank y first count => Sys2Proof.Machine.execDspRead h bank y first count s
  | .dspState h bank => Sys2Proof.Machine.execDspState h bank s
  | .dspRunStart bank => Sys2Proof.Machine.execDspRunStart bank s
  | .dspInputWord bank => Sys2Proof.Machine.execDspInputWord bank s
  | .dspInstruction t bank => Sys2Proof.Machine.execDspInstruction t bank s
  | .miConfig h mus w mode irange vrange ilim lo hi => Sys2Proof.Machine.execMiConfig h mus w mode irange vrange ilim lo hi s
  | .miConnect h mus w on => Sys2Proof.Machine.execMiConnect h mus w on s
  | .miForce h mus w word => Sys2Proof.Machine.execMiForce h mus w word s
  | .miLimit h mus step interval => Sys2Proof.Machine.execMiLimit h mus step interval s
  | .miMeasure h mus w voltage n count => Sys2Proof.Machine.execMiMeasure h mus w voltage n count s
  | .miStop h mus => Sys2Proof.Machine.execMiStop h mus s
  | .miPark h => Sys2Proof.Machine.execMiPark h s
  | .miState h mus => Sys2Proof.Machine.execMiState h mus s
  | .miSealState h => Sys2Proof.Machine.execMiSealState h s
  | .miChallenge h => Sys2Proof.Machine.execMiChallenge h s
  | .miSealRenew h record cal answer => Sys2Proof.Machine.execMiSealRenew h record cal answer s
  | .miSealBreak h record answer => Sys2Proof.Machine.execMiSealBreak h record answer s
  | .miCalLoad h cal => Sys2Proof.Machine.execMiCalLoad h cal s
  | .miReset h => Sys2Proof.Machine.execMiReset h s
  | .islandFrameReceived t f => Sys2Proof.Machine.execIslandFrameReceived t f s
  | .islandStart t image => Sys2Proof.Machine.execIslandStart t image s
  | .islandPowerLoss t => Sys2Proof.Machine.execIslandPowerLoss t s
  | .islandActionEffect mu => Sys2Proof.Machine.execIslandActionEffect mu s
  | .muSequenceStepEnd mu => Sys2Proof.Machine.execMuSequenceStepEnd mu s
  | .muRampMove mu => Sys2Proof.Machine.execMuRampMove mu s
  | .muAdcSample mu s0 ovr compliance senseOpen => Sys2Proof.Machine.execMuAdcSample mu s0 ovr compliance senseOpen s
  | .islandRefCheck t reference temp => Sys2Proof.Machine.execIslandRefCheck t reference temp s
  | .calRun h full chs => Sys2Proof.Machine.execCalRun h full chs s
  | .calQuality h chs => Sys2Proof.Machine.execCalQuality h chs s
  | .calTaps h chs => Sys2Proof.Machine.execCalTaps h chs s
  | .calSave h answer => Sys2Proof.Machine.execCalSave h answer s
  | .calibrationRunEnd t targets figures => Sys2Proof.Machine.execCalibrationRunEnd t targets figures s
  | .calSwitchOver t tap => Sys2Proof.Machine.execCalSwitchOver t tap s
  | .cmdTailWrite t value => Sys2Proof.Machine.execCmdTailWrite t value s
  | .commandFetch t e => Sys2Proof.Machine.execCommandFetch t e s
  | .cplHeadWrite t value => Sys2Proof.Machine.execCplHeadWrite t value s
  | .evtHeadWrite t value => Sys2Proof.Machine.execEvtHeadWrite t value s
  | .resHeadWrite t value => Sys2Proof.Machine.execResHeadWrite t value s
  | .ringCtrlWrite t area value => Sys2Proof.Machine.execRingCtrlWrite t area value s
  | .heldCompletionDrain t => Sys2Proof.Machine.execHeldCompletionDrain t s
  | .heldEventDrain t => Sys2Proof.Machine.execHeldEventDrain t s
  | .dmaGranuleBoundary t engine request => Sys2Proof.Machine.execDmaGranuleBoundary t engine request s
  | .watchdogExpiry t core => Sys2Proof.Machine.execWatchdogExpiry t core s
  | .irqHoldoffExpiry t vector => Sys2Proof.Machine.execIrqHoldoffExpiry t vector s
  | .ctlNop h => Sys2Proof.Machine.execCtlNop h s
  | .ctlInfo h => Sys2Proof.Machine.execCtlInfo h s
  | .ctlPget h ids => Sys2Proof.Machine.execCtlPget h ids s
  | .ctlPset h entries => Sys2Proof.Machine.execCtlPset h entries s
  | .ctlWindow h index base size => Sys2Proof.Machine.execCtlWindow h index base size s
  | .ctlResults h base size => Sys2Proof.Machine.execCtlResults h base size s
  | .ctlEvmap h first count vector en => Sys2Proof.Machine.execCtlEvmap h first count vector en s
  | .ctlCplmap h streams vector => Sys2Proof.Machine.execCtlCplmap h streams vector s
  | .ctlIrqmod h vector count holdoff => Sys2Proof.Machine.execCtlIrqmod h vector count holdoff s
  | .ctlFlushStream h streams => Sys2Proof.Machine.execCtlFlushStream h streams s
  | .hostAttachmentLoss t mode tunnel => Sys2Proof.Machine.execHostAttachmentLoss t mode tunnel s
  | .hostAttachmentRestored t mode => Sys2Proof.Machine.execHostAttachmentRestored t mode s
  | .hostLinkModeChange t mode => Sys2Proof.Machine.execHostLinkModeChange t mode s
  | .recoveryCommand t e => Sys2Proof.Machine.execRecoveryCommand t e s
  | .recoveryCompletionRead t => Sys2Proof.Machine.execRecoveryCompletionRead t s
  | .linkPacketReceived t port got => Sys2Proof.Machine.execLinkPacketReceived t port got s
  | .linkMarkerReceived t port stamp content goodA goodB => Sys2Proof.Machine.execLinkMarkerReceived t port stamp content goodA goodB s
  | .portRetrainStart t port cause => Sys2Proof.Machine.execPortRetrainStart t port cause s
  | .portRetrainEnd t port => Sys2Proof.Machine.execPortRetrainEnd t port s
  | .laneFailure t port lane => Sys2Proof.Machine.execLaneFailure t port lane s
  | .pathLost t port => Sys2Proof.Machine.execPathLost t port s
  | .pathRestored t port => Sys2Proof.Machine.execPathRestored t port s
  | .trainingRequest t requests => Sys2Proof.Machine.execTrainingRequest t requests s
  | .workerIdentification t parent port id => Sys2Proof.Machine.execWorkerIdentification t parent port id s
  | .brewupStageStart t stage => Sys2Proof.Machine.execBrewupStageStart t stage s
  | .deviceReadyReport t position decaf => Sys2Proof.Machine.execDeviceReadyReport t position decaf s
  | .treeReady t elapsedUs => Sys2Proof.Machine.execTreeReady t elapsedUs s
  | .forwardedCommand t e way => Sys2Proof.Machine.execForwardedCommand t e way s
  | .workerCompletionReceived t c => Sys2Proof.Machine.execWorkerCompletionReceived t c s
  | .treeState h => Sys2Proof.Machine.execTreeState h s
  | .treeGroup h group members => Sys2Proof.Machine.execTreeGroup h group members s
  | .treeRescan h idle => Sys2Proof.Machine.execTreeRescan h idle s
  | .treePort h port action idle => Sys2Proof.Machine.execTreePort h port action idle s
  | .bootJournal h flash readable => Sys2Proof.Machine.execBootJournal h flash readable s
  | .bootJournalClear h => Sys2Proof.Machine.execBootJournalClear h s
  | .bootImage h image => Sys2Proof.Machine.execBootImage h image s
  | .bootRollback h v => Sys2Proof.Machine.execBootRollback h v s
  | .bootHealth h found answer => Sys2Proof.Machine.execBootHealth h found answer s
  | .bootSpares h => Sys2Proof.Machine.execBootSpares h s
  | .errorReport t line cls cause unit detail => Sys2Proof.Machine.execErrorReport t line cls cause unit detail s
  | .injectedReport => Sys2Proof.Machine.execInjectedReport s
  | .decafSafeStateReached t => Sys2Proof.Machine.execDecafSafeStateReached t s
  | .fcRead h => Sys2Proof.Machine.execFcRead h s
  | .fcClear h lines => Sys2Proof.Machine.execFcClear h lines s
  | .fcInject h w word => Sys2Proof.Machine.execFcInject h w word s
  | .fcDecaf h => Sys2Proof.Machine.execFcDecaf h s
  | .fcDecafExit h => Sys2Proof.Machine.execFcDecafExit h s
  | .logSummary h => Sys2Proof.Machine.execLogSummary h s
  | .logRead h area first count => Sys2Proof.Machine.execLogRead h area first count s
  | .logSync h => Sys2Proof.Machine.execLogSync h s
  | .logChallenge h => Sys2Proof.Machine.execLogChallenge h s
  | .logClear h token answer => Sys2Proof.Machine.execLogClear h token answer s
  | .logRecordCommit t => Sys2Proof.Machine.execLogRecordCommit t s
  | .logRecordIdleClose t index => Sys2Proof.Machine.execLogRecordIdleClose t index s
  | .logFlashCopy t answer => Sys2Proof.Machine.execLogFlashCopy t answer s
  | .logFreezeTimeout t => Sys2Proof.Machine.execLogFreezeTimeout t s
  | .hkSample t reading valid => Sys2Proof.Machine.execHkSample t reading valid s
  | .hkRoundEnd t => Sys2Proof.Machine.execHkRoundEnd t s
  | .peEnPosEnable t => Sys2Proof.Machine.execPeEnPosEnable t s
  | .hkRead h first count => Sys2Proof.Machine.execHkRead h first count s
  | .hkState h => Sys2Proof.Machine.execHkState h s
  | .hkMinmax h mask => Sys2Proof.Machine.execHkMinmax h mask s
  | .flashRead h addr len => Sys2Proof.Machine.execFlashRead h addr len s
  | .flashWrite h addr data => Sys2Proof.Machine.execFlashWrite h addr data s
  | .flashErase h addr len => Sys2Proof.Machine.execFlashErase h addr len s
  | .flashInfo h => Sys2Proof.Machine.execFlashInfo h s
  | .flashXfer h opcode addr len => Sys2Proof.Machine.execFlashXfer h opcode addr len s
  | .flashSelectCollision t => Sys2Proof.Machine.execFlashSelectCollision t s
  | .flashCollisionRetry t => Sys2Proof.Machine.execFlashCollisionRetry t s
  | .flashStatusPoll t wip good => Sys2Proof.Machine.execFlashStatusPoll t wip good s
  | .flashBadWord t => Sys2Proof.Machine.execFlashBadWord t s
  | .xipRead t addr => Sys2Proof.Machine.execXipRead t addr s
  | .xipStore t addr data => Sys2Proof.Machine.execXipStore t addr data s
  | .xipBufferFlush t => Sys2Proof.Machine.execXipBufferFlush t s
  | .tlNowRead t whole => Sys2Proof.Machine.execTlNowRead t whole s
  | .registerLowHalfRead t at_ => Sys2Proof.Machine.execRegisterLowHalfRead t at_ s
  | .fcInjectWrite t word => Sys2Proof.Machine.execFcInjectWrite t word s
  | .decafReqWrite t value => Sys2Proof.Machine.execDecafReqWrite t value s
  | .irqTestWrite t value => Sys2Proof.Machine.execIrqTestWrite t value s
  | .logFreezeWrite t value => Sys2Proof.Machine.execLogFreezeWrite t value s
  | .logIndexWrite t value => Sys2Proof.Machine.execLogIndexWrite t value s
  | .badRegisterAccess t off => Sys2Proof.Machine.execBadRegisterAccess t off s
  | .registerWrite t off width64 value => Sys2Proof.Machine.execRegisterWrite t off width64 value s
  | .alignmentIntervalStart t => Sys2Proof.Machine.execAlignmentIntervalStart t s
  | .flashSelectClaim t busy => Sys2Proof.Machine.execFlashSelectClaim t busy s

end Sys2Proof.Machine
end

