-- ==== Sys2Proof/Safety.lean ====
section
/-!
DEFINITION. The terms in which statements about the block are made: which parts of the device a command leaves alone, what
it means that a host command is answered, and the invariants of a device between two commands.
-/
namespace Sys2Proof.Machine

/-! ### Frames -/

/-- The parts of the block that a frame names. -/
inductive Part where
  | tl | pins | banks | seq | uc | pat | cap | dsp | mi | cal | ctl | regs | tree | boot | fc | log | hk | flash | board | journal
  | latch
  deriving DecidableEq, Repr

/-- The timeline but for the present itself, which any row may move to its stamp, what it notes as it moves (R7, R8, R31), and the
warm state. -/
def Timeline.setting (t : Timeline) : Timeline :=
  { t with
    now := 0, before := .empty, heldCold := none, heldLocal := none, heldOver := none
    warm := false, warmStamp := 0, warmEpoch := 0, warmPend := none }

/-- The warm state, and the one that waits for its stamp (R36). -/
def Timeline.warmth (t : Timeline) : Bool × Nat × BitVec 16 × Option (Bool × BitVec 16 × Nat) :=
  (t.warm, t.warmStamp, t.warmEpoch, t.warmPend)

/-- A timeline is left alone: its setting stands, and so does the warm state, unless the one that waited for its stamp has
come into force (R36). -/
def Timeline.kept (a b : Timeline) : Prop :=
  a.setting = b.setting ∧
    (a.warmth = b.warmth ∨ ∃ w e s, a.warmPend = some (w, e, s) ∧ b.warmth = (w, s, e, none))

/-- Capture and Carafe but for the way of the result packets: staging, Carafe, FIFO_HI and the counts of what they dropped. -/
def Cap.setting (c : Cap) : Cap :=
  { c with staging := .empty, carafe := [], granted := 0, fifoHi := false, fifoHiAt := none, drops := 0, failLogLost := 0, lossOwed := .empty }

/-- The control complex but for the way of the records: rings, queues, flights, jobs, vectors and counters. -/
def Ctl.setting (c : Ctl) : Ctl :=
  { ({} : Ctl) with
    cmd := c.cmd, resBase := c.resBase, resSize := c.resSize, resEn := c.resEn, resHead := c.resHead, resTail := c.resTail
    resOut := c.resOut, windows := c.windows, dma := c.dma, cplMap := c.cplMap, srcs := c.srcs, doorbells := c.doorbells }

/-- The direct registers but for the summary of pending interrupts. -/
def Regs.setting (r : Regs) : Regs := { r with irqSummary := 0 }

/-- The Cupping Log but for the queue of items that wait for its writer. -/
def Log.setting (l : Log) : Log := { l with queue := [] }

/-- Two devices agree on a part. -/
def Part.same : Part → Dev → Dev → Prop
  | .tl, a, b => a.tl.kept b.tl
  | .pins, a, b => a.pins = b.pins
  | .banks, a, b => a.banks = b.banks
  | .seq, a, b => a.seq = b.seq
  | .uc, a, b => a.uc = b.uc
  | .pat, a, b => a.pat = b.pat
  | .cap, a, b => a.cap.setting = b.cap.setting
  | .dsp, a, b => a.dsp = b.dsp
  | .mi, a, b => a.mi = b.mi
  | .cal, a, b => a.cal = b.cal
  | .ctl, a, b => a.ctl.setting = b.ctl.setting
  | .regs, a, b => a.regs.setting = b.regs.setting
  | .tree, a, b => a.tree = b.tree
  | .boot, a, b => a.boot = b.boot
  | .fc, a, b => a.fc = b.fc
  | .log, a, b => a.log.setting = b.log.setting
  | .hk, a, b => a.hk = b.hk
  | .flash, a, b => a.flash = b.flash
  | .board, a, b => a.board = b.board
  | .journal, a, b => a.journal = b.journal
  | .latch, a, b => a.shutLatch = b.shutLatch

/-- Two devices agree on every part but those listed. -/
def SameBut (l : List Part) (a b : Dev) : Prop := ∀ p : Part, p ∉ l → p.same a b

/-- Two states agree on straps, fuses and queue, and their devices on every part but those listed. -/
def Keeps (l : List Part) (s t : State) : Prop :=
  t.straps = s.straps ∧ t.fuses = s.fuses ∧ t.pending = s.pending ∧ SameBut l s.dev t.dev

/-! ### Answers to host commands -/

/-- The device takes host commands (R358, R398), none is in flight or held back (R347, R353), no record of an ended epoch is
awaited (R43), and the command's reserved fields are 0 (R5). -/
structure Idle (s : State) (h : Hdr) : Prop where
  ready : s.dev.boot.ready = true
  normal : s.dev.fc.decaf = none
  flights : s.dev.ctl.flights = []
  jobs : s.dev.ctl.jobs = []
  held : s.dev.ctl.heldCpl = []
  held0 : s.dev.ctl.heldCpl0 = []
  behind : s.dev.ctl.behind = false
  room : s.dev.ctl.cpl.room = true
  outbox : s.dev.ctl.outbox = {}
  rsv : h.rsv = false

/-- The same in Decaf mode, on a device that has loaded its firmware (R358, R413, R442). -/
structure IdleDecaf (s : State) (h : Hdr) : Prop where
  decaf : s.dev.fc.decaf.isSome = true
  firmware : s.dev.boot.firmware = true
  flights : s.dev.ctl.flights = []
  jobs : s.dev.ctl.jobs = []
  held : s.dev.ctl.heldCpl = []
  held0 : s.dev.ctl.heldCpl0 = []
  behind : s.dev.ctl.behind = false
  room : s.dev.ctl.cpl.room = true
  outbox : s.dev.ctl.outbox = {}
  rsv : h.rsv = false

/-- The device as it has taken up a command (R352, R353). -/
def Dev.takenUp (d : Dev) (h : Hdr) (op : BitVec 16) : Dev := ((d.advance h.t).ensureFlight h op).preempt op

/-- The device has written the final completion of a command, with a status and a response, as the next entry of the
Completion Ring (R345, R347). -/
def Answers (s t : State) (h : Hdr) (op : BitVec 16) (status : BitVec 4) (resp : List Int) : Prop :=
  ∃ c : Cpl, t.dev.ctl.cplOut = s.dev.ctl.cplOut ++ [c] ∧ c.tag = h.tag ∧ c.stream = h.stream ∧ c.opcode = op ∧
    c.status = status ∧ c.fin = true ∧ c.resp = resp

/-- The command has been accepted and has not ended: it is the one command in flight, and no completion is written. -/
def Waits (s t : State) (h : Hdr) (op : BitVec 16) : Prop :=
  t.dev.ctl.cplOut = s.dev.ctl.cplOut ∧
    ∃ f : Flight, t.dev.ctl.flights = [f] ∧ f.tag = h.tag ∧ f.opcode = op ∧ f.accepted = true ∧ f.done = none

/-- One command is in flight, accepted and not ended; its completion may be written as it ends, and no record waits (R43, R347). -/
structure Open (s : State) (f : Flight) : Prop where
  flights : s.dev.ctl.flights = [f]
  accepted : f.accepted = true
  done : f.done = none
  group : f.group = false
  origin : f.origin = .ring
  respLen : f.respLen = none
  held : s.dev.ctl.heldCpl = []
  held0 : s.dev.ctl.heldCpl0 = []
  behind : s.dev.ctl.behind = false
  room : s.dev.ctl.cpl.room = true
  outbox : s.dev.ctl.outbox = {}
  rewind : s.dev.tl.rewind = none

/-- That command has ended: the device has written its final completion. -/
def Ends (s t : State) (f : Flight) (status : BitVec 4) (resp : List Int) : Prop :=
  ∃ c : Cpl, t.dev.ctl.cplOut = s.dev.ctl.cplOut ++ [c] ∧ t.dev.ctl.flights = [] ∧ c.tag = f.tag ∧ c.stream = f.stream ∧
    c.opcode = f.opcode ∧ c.status = status ∧ c.fin = true ∧ c.resp = resp

/-- A thread that is linked to no other: it is a site of its own (R18). -/
def Dev.alone (d : Dev) (t : Nat) : Prop := (d.thread t).lead = none ∧ (d.thread t).members = 1

/-- A running site of one thread at which nothing waits to be judged, held or stopped, with an entry at its queue's front (R178,
R196). -/
structure Dev.plays (d : Dev) (t : Nat) (e : QEntry × Nat) (rest : List (QEntry × Nat)) : Prop where
  alone : d.alone t
  st : (d.thread t).st = .run
  causes : (d.thread t).causes = []
  strobes : (d.thread t).strobes = []
  queue : (d.thread t).ctx.queue = e :: rest
  rewind : d.tl.rewind = none

/-! ### Invariants -/

/-- The addressed memories of the device stand in their canonical form: indices rising, and nothing listed that an unlisted
place reads as (log entry 15): the pattern pages (R216), the bytes of the board's flash (R482), the program memories of DSP
lanes and microcode, the data memories of the lane that serves no bank, and the memories of each bank. -/
def Memory.wf (d : Dev) : Bool :=
  d.pat.pages.wf 0 && d.board.bytes.wf 0xFF && d.dsp.p.wf 0 && d.uc.cust.wf 0 && d.uc.patch.wf 0 && d.dsp.idle.x.wf 0 &&
  d.dsp.idle.y.wf 0 &&
  d.banks.cells.all fun c =>
    c.2.capMem.wf 0 && c.2.wave.wf 0 && c.2.lane.x.wf 0 && c.2.lane.y.wf 0 && c.2.tiles.cells.all fun t => t.2.data.wf 0

/-- What holds of the block between two commands: everything that a command formed has been committed (R25), no final completion
that may be written is kept back (R353), and the rollback counter is in its range (R420). -/
def State.Inv (s : State) : Prop :=
  s.dev.ctl.outbox = {} ∧ writeable s.dev.mayWrite [] s.dev.ctl.flights = [] ∧ s.fuses.rollback ≤ 64

end Sys2Proof.Machine
end

