-- ==== Sys2Proof/Certificates/Slice0/Obligations.lean ====
section
/-!
DEFINITION. The statements about the block that its provers prove. Each says which rules of spec/ it formalises; what rests on
a choice of the model names its log entry; the form of a response as a list of values is log entry 4's throughout, and that an
event may move the present to its stamp log entry 2's. -/

open Sys2Proof Sys2Proof.Machine

/-! ### The block as a whole -/

/-- A step takes the command at the front of the queue and runs it with the queue's rest. -/
def Obligations.StepRunsFront : Prop :=
  ∀ (s : State) (c : Instr) (r : List Instr), s.pending = c :: r → step s = exec c { s with pending := r }

/-- An empty queue: one idle grain passes, and nothing but the present changes (log entry 1). -/
def Obligations.StepIdles : Prop :=
  ∀ s : State, s.pending = [] → ∃ t, step s = .next t ∧ Keeps [] s t ∧ t.dev.ctl = s.dev.ctl ∧
    (s.dev.tl.running = false → t.dev.tl.now = s.dev.tl.now) ∧
    (s.dev.tl.running = true → s.dev.tl.rewind = none → t.dev.tl.now = s.dev.tl.now + 1024)

/-- No command is refused and none stops the block: every command, on every state, answers a next state with the same queue. -/
def Obligations.ExecGoesOn : Prop :=
  ∀ (c : Instr) (s : State), ∃ t, exec c s = .next t ∧ t.pending = s.pending

/-- What every command leaves behind: nothing that it formed is left uncommitted (R25), no final completion that may be written is
kept back (R353), and the rollback counter is in its range (R420). -/
def Obligations.InvariantKept : Prop :=
  ∀ s t : State, s.Inv → step s = .next t → t.Inv

/-- The state after reset meets the invariant. -/
def Obligations.InvariantAtReset : Prop := State.reset.Inv

/-- The straps, the role among them, are sampled at the two resets and change at nothing else (R20, R406). BOOT.ROLLBACK is the
only command that blows fuses, and the counter only rises (R420). -/
def Obligations.FusesAndStraps : Prop :=
  ∀ (c : Instr) (s t : State), exec c s = .next t →
    s.fuses.rollback ≤ t.fuses.rollback ∧ t.fuses.bandgap = s.fuses.bandgap ∧
    (t.fuses ≠ s.fuses → ∃ h v, c = .bootRollback h v) ∧
    (∀ x, c = .powerOnReset x ∨ c = .warmReset x → t.straps = x) ∧
    ((∀ x, c ≠ .powerOnReset x ∧ c ≠ .warmReset x) → t.straps = s.straps)

/-! ### Timeline (02_timeline.md) -/

/-- TL.NOW, TL.STATUS, TL.MARK, TL.CANCEL (R46, R49, R54, R55): the answers, the mark scheduled or removed, and nothing else; a
tag that a later command, be it the TL.CANCEL itself, has carried names no action any more. -/
def Obligations.TimelineCommands : Prop :=
  ∀ (s : State) (h : Hdr), Idle s h → s.dev.tl.rewind = none →
    (∃ t, exec (.tlNow h) s = .next t ∧ Keeps [] s t ∧ t.dev.tl.epoch = s.dev.tl.epoch ∧
      Answers s t h 0x0100 stOk [(t.dev.tl.epoch.toNat : Int), (t.dev.tl.now : Int), (t.dev.tl.tq.toNat : Int)]) ∧
    (∃ t r, exec (.tlStatus h) s = .next t ∧ Keeps [] s t ∧ Answers s t h 0x0102 stOk r ∧ r.length = 8 ∧
      r.head? = some (s.dev.tl.epoch.toNat : Int)) ∧
    (∀ w user e st late, (s.dev.advance h.t).schedule w 1024 false = .ok (e, st, late) →
      ∃ t, exec (.tlMark h w user) s = .next t ∧ Keeps [.tl] s t ∧ Answers s t h 0x0103 stOk [] ∧
        t.dev.tl.acts = s.dev.tl.acts ++ [{ tag := h.tag, kind := .mark, epoch := e, stamp := st, user := user.toNat }]) ∧
    (∀ (target : BitVec 16), h.tag.toNat = target.toNat ∨ (∀ a ∈ s.dev.tl.acts, a.tag.toNat ≠ target.toNat) →
      ∃ t, exec (.tlCancel h target) s = .next t ∧ Keeps [] s t ∧ Answers s t h 0x0104 stBadarg []) ∧
    (∀ (target : BitVec 16) (a : Act), s.dev.tl.acts = [a] → a ∉ s.dev.ctl.orphans → a.tag.toNat = target.toNat →
      a.tag ≠ h.tag → a.kind = .mark → a.epoch = s.dev.tl.epoch → max s.dev.tl.now h.t < a.stamp →
      ∃ t, exec (.tlCancel h target) s = .next t ∧ Keeps [.tl] s t ∧ Answers s t h 0x0104 stOk [] ∧ t.dev.tl.acts = [])

/-- TL.REWIND is accepted on a manager or a standalone device when nothing stands against it, and waits for its effect at S,
at least 10,000 grains on (R41); the conditions of R41 are tested in the order DENIED, BADARG, CONFLICT, BUSY.
TL.REWIND on a worker completes DENIED, and a TL.REWIND while another is pending completes CONFLICT (R41). -/
def Obligations.Rewinds : Prop :=
  (∀ (s : State) (h : Hdr), Idle s h → s.straps.isManager = true ∨ s.straps.isStandalone = true → s.dev.tl.rewind = none →
     s.dev.tl.acts = [] → (∀ b k g, (s.dev.tdc b k).owner ≠ .arm g) → (s.dev.advance h.t).rewindBusy = false →
     ∃ t at_, exec (.tlRewind h {} true) s = .next t ∧ Keeps [.tl] s t ∧ Waits s t h 0x0101 ∧
       t.dev.tl.rewind = some at_ ∧ at_ % 1024 = 0 ∧ t.dev.tl.now + 10000 * 1024 ≤ at_ ∧ t.dev.tl.rewindTag = some h.tag) ∧
  (∀ (s : State) (h : Hdr) (w : When) (idle : Bool), Idle s h →
     (s.straps.isManager = false → s.straps.isStandalone = false →
       ∃ t, exec (.tlRewind h w idle) s = .next t ∧ Keeps [] s t ∧ Answers s t h 0x0101 stDenied []) ∧
     (s.straps.isManager = true → s.dev.tl.rewind.isSome = true →
       ∃ t, exec (.tlRewind h {} idle) s = .next t ∧ Keeps [] s t ∧ Answers s t h 0x0101 stConflict []))

/-- REWIND_EFFECT, FORCED_REWIND and GRAIN_NEAR_END (R40, R44, R45): the count starts anew at 0 in the next epoch, and the near
end of the count is noted once in an epoch.
TL.MARK's event (R54): at the mark stamp the action is taken. -/
def Obligations.EpochEvents : Prop :=
  (∀ s : State, s.dev.tl.running = true →
     (∀ r, s.dev.tl.rewind = some r → s.dev.tl.acts = [] →
       ∃ t, exec .rewindEffect s = .next t ∧ t.dev.tl.epoch = s.dev.tl.epoch + 1 ∧ t.dev.tl.now = 0 ∧ t.dev.tl.rewind = none) ∧
     (s.dev.tl.rewind = none → s.dev.tl.source ≠ 2 →
       (s.dev.tl.acts = [] → s.dev.leads (·.running) = [] →
         ∃ t, exec .forcedRewind s = .next t ∧ t.dev.tl.epoch = s.dev.tl.epoch + 1 ∧ t.dev.tl.now = 0) ∧
       (s.dev.tl.nearEnd = false → ∃ t, exec .grainNearEnd s = .next t ∧ Keeps [.tl] s t ∧ t.dev.tl.nearEnd = true ∧
         (2 ^ 54 - 2 ^ 36) * 1024 ≤ t.dev.tl.now))) ∧
  (∀ (s : State) (a : Act), s.dev.tl.running = true → s.dev.tl.rewind = none → s.dev.tl.acts = [a] → a.kind = .mark →
     a.epoch = s.dev.tl.epoch → ∃ t, exec (.tlMarkEvent a.tag) s = .next t ∧ Keeps [.tl] s t ∧ t.dev.tl.acts = [] ∧
       t.dev.tl.now = max s.dev.tl.now a.stamp)

/-- The reference of a device that runs from REF_IN (R33 to R35, R38): the filtered level, 1 ms after the last change at the
soonest, the verdict of the stability check, loss and relock, and the warm state that follows from them.
The timeline of a worker (R36, R39, R390 to R392): the manager's warm state, from the stamp that its message names, the loss
of the upstream timeline, the holdover limit, markers, Tamp's exchanges and the end of an alignment interval. -/
def Obligations.ReferenceEvents : Prop :=
  (∀ (s : State) (n : Nat), s.dev.tl.running = true → s.dev.tl.source = 0 →
     (∀ level, s.dev.tl.warmFiltered ≠ level → s.dev.tl.warmFrom + 1000 * 102400 ≤ (s.dev.advance n).mono →
       ∃ t, exec (.refWarmFilterChange n level) s = .next t ∧ Keeps [.tl] s t ∧ t.dev.tl.warmFiltered = level ∧
         t.dev.tl.warm = (level && s.dev.tl.lastPass && !s.dev.tl.holdover)) ∧
     (∀ fig : Int, s.dev.tl.stabRun = true →
       s.dev.tl.stabSince + (20000 + 1000 * s.dev.tl.verdicts) * (1024 * 100000) ≤ (s.dev.advance n).mono →
       ∃ t, exec (.stabilityVerdict n fig) s = .next t ∧ Keeps [.tl] s t ∧ t.dev.tl.lastPass = decide (fig.natAbs < 1000) ∧
         t.dev.tl.verdicts = s.dev.tl.verdicts + 1 ∧
         t.dev.tl.warm = (s.dev.tl.warmFiltered && decide (fig.natAbs < 1000) && !s.dev.tl.holdover)) ∧
     (s.dev.tl.refPresent = true → s.dev.tl.holdover = false →
       ∃ t, exec (.refInLoss n) s = .next t ∧ Keeps [.tl] s t ∧ t.dev.tl.holdover = true ∧ t.dev.tl.refPresent = false ∧
         t.dev.tl.warm = false) ∧
     (s.dev.tl.holdover = true →
       ∃ t, exec (.refInRelock n) s = .next t ∧ Keeps [.tl] s t ∧ t.dev.tl.holdover = false ∧ t.dev.tl.stabRun = true)) ∧
  (∀ (s : State) (n : Nat), s.dev.tl.running = true → s.dev.tl.source = 2 → s.dev.tl.rewind = none →
     (∀ warm e st, ∃ t, exec (.warmStateMessage n warm e st) s = .next t ∧ Keeps [.tl] s t ∧
       (if e = s.dev.tl.epoch ∧ max s.dev.tl.now n < st ∨ precedes s.dev.tl.epoch e = true then
         t.dev.tl.warmPend = some (warm, e, st)
       else t.dev.tl.warm = warm ∧ t.dev.tl.warmStamp = st ∧ t.dev.tl.warmEpoch = e ∧ t.dev.tl.warmPend = none)) ∧
     (s.dev.tl.tlLocal = false → s.dev.tl.holdover = false →
       ∃ t, exec (.upstreamTimelineLoss n) s = .next t ∧ Keeps [.tl] s t ∧ t.dev.tl.holdover = true ∧
         t.dev.tl.holdSince = t.dev.mono) ∧
     (s.dev.tl.tlLocal = false → s.dev.tl.holdover = true →
       ∃ t, exec .holdoverLimitExpiry s = .next t ∧ t.dev.tl.tlLocal = true) ∧
     (∀ e g q, g % 1024 = 0 →
       ∃ t, exec (.timelineMarker n e g q none) s = .next t ∧ Keeps [.tl] s t ∧ t.dev.tl.marker = some (e, g) ∧
         t.dev.tl.upTq = q) ∧
     (∀ t1 t2 t3 t4, s.dev.tree.exchanges < 256 → t1 ≤ t4 →
       ∃ t, exec (.tampExchange t1 t2 t3 t4) s = .next t ∧ Keeps [.tree] s t ∧ t.dev.tree.exchanges = s.dev.tree.exchanges + 1 ∧
         t.dev.tree.sumD = s.dev.tree.sumD + (((t4 : Int) - t1) - ((t3 : Int) - t2))) ∧
     (∃ t, exec .alignmentIntervalEnd s = .next t ∧
       t.dev.tree.exchanges = 0 ∧ t.dev.tree.sumD = 0 ∧ t.dev.tree.sumTheta = 0 ∧
       (s.dev.tree.exchanges = 256 → t.dev.tree.tampOffset = s.dev.tree.sumTheta / 2 ∧
         t.dev.tree.hopDelay = (roundDiv s.dev.tree.sumD 512).toNat ∧
         (s.dev.tree.path.length > 1 → t.dev.tree.rootDelay = t.dev.tree.hopDelay + s.dev.tree.aboveDelay))))

/-! ### Resets and boot (15_boot_straps_spares.md) -/

/-- A power-on reset (R408): S0 begins on a device whose every part is at its reset value; fuses and the board's flash stay.
A warm reset (R305, R306, R408, R410): beside fuses and flash, the shutdown latch stays, the journal counts one more start,
and SAFE is asserted to the island, which opens every output that is closed; the main device begins anew at S0. -/
def Obligations.Resets : Prop :=
  (∀ (s : State) (x : Straps), ∃ t, exec (.powerOnReset x) s = .next t ∧ t.straps = x ∧ t.fuses = s.fuses ∧
     t.pending = s.pending ∧ t.dev.board = s.dev.board ∧ t.dev.boot.step = 0 ∧ t.dev.boot.ready = false ∧ t.dev.tl = {} ∧
     t.dev.pins = {} ∧ t.dev.banks = .empty ∧ t.dev.seq = {} ∧ t.dev.uc = {} ∧ t.dev.pat = {} ∧ t.dev.cap = {} ∧ t.dev.dsp = {} ∧
     t.dev.mi = {} ∧ t.dev.cal = {} ∧ t.dev.ctl = {} ∧ t.dev.regs = {} ∧ t.dev.tree = {} ∧ t.dev.fc = {} ∧ t.dev.log = {} ∧
     t.dev.hk = {} ∧ t.dev.flash = {} ∧ t.dev.shutLatch = false ∧ t.dev.journal.starts = 1) ∧
  (∀ (s : State) (x : Straps), ∃ t, exec (.warmReset x) s = .next t ∧ t.straps = x ∧ t.fuses = s.fuses ∧
     t.pending = s.pending ∧ t.dev.board = s.dev.board ∧ t.dev.shutLatch = s.dev.shutLatch ∧
     (∀ u, u < 16 → (s.dev.mu u).closed = true → t.dev.mi.safeLine = true ∧ (t.dev.mu u).shutting = true) ∧
     t.dev.boot.step = 0 ∧ t.dev.boot.ready = false ∧ t.dev.pins = {} ∧ t.dev.seq = {} ∧ t.dev.pat = {} ∧
     t.dev.journal.starts = (if s.dev.journal.valid then (if s.dev.journal.starts = 0xFFFF then 0xFFFF else s.dev.journal.starts + 1)
       else 1))

/-- The chain of boot steps (R409, R411, R417): S0 ends and S1 begins, S11 ends with READY, S7 and S10 run out of time and go on
in their next variant, the main PLL locks in S2, and S3 turns to its next source when no image comes. -/
def Obligations.BootSteps : Prop :=
  ∀ (s : State) (t10 : Nat), s.dev.boot.t0 ≤ t10 →
    (s.dev.inStep = true →
      (s.dev.boot.step = 0 → s.dev.planned 1 = false →
        ∃ t, exec (.bootStepEnd t10 .passed) s = .next t ∧ t.dev.boot.step = 1 ∧ (t.dev.entry 0).fin = true ∧
          (t.dev.entry 0).result = 0 ∧ (t.dev.entry 1).start = true) ∧
      (s.dev.boot.step = 11 →
        ∃ t, exec (.bootStepEnd t10 .passed) s = .next t ∧ t.dev.boot.ready = true ∧ t.dev.boot.step = 12) ∧
      (s.dev.boot.step = 7 → s.dev.boot.variant = 0 → s.dev.stepStart + 25000 ≤ t10 →
        ∃ t, exec (.bootStepBoundExpiry t10) s = .next t ∧ t.dev.boot.step = 7 ∧ t.dev.boot.variant = 1) ∧
      (s.dev.boot.step = 10 → s.dev.boot.variant = 0 → s.dev.stepStart + 40000 ≤ t10 →
        ∃ t, exec (.bootStepBoundExpiry t10) s = .next t ∧ t.dev.boot.step = 10 ∧ t.dev.boot.variant = 1) ∧
      (s.dev.boot.step = 2 → s.dev.tl.running = false →
        ∃ t, exec (.mainPllLock t10) s = .next t ∧ t.dev.tl.running = true ∧ t.dev.tl.now = 0 ∧ t.dev.tl.epoch = 0 ∧
          t.dev.tl.tlLocal = s.straps.isWorker) ∧
      (∀ k, (imageSources s.straps).find? (fun j => !(s.dev.boot.tried ||| (1#4 <<< s.dev.boot.srcNow.toNat)).getLsbD j) = some k →
        s.dev.boot.step = 3 →
        (s.straps.isWorker = true → s.dev.tree.admitted = true → s.dev.tree.multicast = none → s.dev.boot.linkImage = true →
          s.dev.boot.admitAt + 150000 ≤ t10 →
          ∃ t, exec (.linkImageTimeout t10) s = .next t ∧ t.dev.boot.step = 3 ∧ t.dev.boot.srcNow = BitVec.ofNat 2 k) ∧
        (s.dev.boot.waitImage = true → s.dev.stepStart + 1000000 ≤ t10 →
          ∃ t, exec (.hostImageTimeout t10) s = .next t ∧ t.dev.boot.step = 3 ∧ t.dev.boot.srcNow = BitVec.ofNat 2 k))) ∧
    (∀ image, s.dev.tree.admitted = true → s.straps.boot = 1 ∨ s.straps.boot = 3 →
      ∃ t, exec (.firmwareMulticastReceived t10 image) s = .next t ∧ Keeps [.tree, .boot] s t ∧
        t.dev.tree.multicast = some image) ∧
    (∀ n : BitVec 4, 1 ≤ n.toNat → n.toNat ≤ 8 → s.straps.isManager = true → s.dev.stageReady s.straps n.toNat = true →
      ∃ t, exec (.brewupStageStart t10 n) s = .next t ∧ Keeps [.tree] s t ∧ t.dev.tree.stage = n.toNat)

/-- The boot commands (R415, R417, R420, R425): the journal read and cleared, an image taken in S3, the fuses blown, the spares
reported. -/
def Obligations.BootCommands : Prop :=
  ∀ (s : State) (h : Hdr),
    (Idle s h →
      (∃ t, exec (.bootJournal h false true) s = .next t ∧ Keeps [] s t ∧
        Answers s t h 0x0F00 stOk (s.dev.journal.bytes.map fun b => (b.toNat : Int)) ∧ s.dev.journal.bytes.length = 128) ∧
      (∃ t, exec (.bootJournalClear h) s = .next t ∧ Keeps [.journal, .board] s t ∧ Answers s t h 0x0F01 stOk [] ∧
        t.dev.journal.starts = 0) ∧
      (∀ v : BitVec 8, s.fuses.rollback < v.toNat → v.toNat ≤ 64 → v.toNat ≤ s.dev.boot.svn →
        ∃ t, exec (.bootRollback h v) s = .next t ∧ t.fuses = { s.fuses with rollback := v.toNat } ∧ t.straps = s.straps ∧
          t.pending = s.pending ∧ SameBut [] s.dev t.dev ∧ Answers s t h 0x0F03 stOk [(v.toNat : Int)]) ∧
      (∀ v : BitVec 8, s.dev.boot.svn < v.toNat →
        ∃ t, exec (.bootRollback h v) s = .next t ∧ Keeps [] s t ∧ Answers s t h 0x0F03 stDenied []) ∧
      (∃ t r, exec (.bootSpares h) s = .next t ∧ Keeps [] s t ∧ Answers s t h 0x0F05 stOk r ∧
        ∀ ch, ch < 512 → r[ch]? = some (if (s.dev.chan ch).noSlice then -1 else ((s.dev.chan ch).sliceOf ch : Int)))) ∧
    (∀ (f : Flight) (image : Bytes), s.dev.ctl.flights = [f] → f.tag = h.tag → f.opcode = 0x0F02 → f.origin = .recovery →
      f.accepted = false → f.done = none → f.targets = [] → s.dev.ctl.heldCpl = [] → h.rsv = false → s.dev.inStep = true →
      s.dev.boot.waitImage = true → s.dev.boot.step = 3 →
      ∃ t, exec (.bootImage h image) s = .next t ∧ t.dev.boot.step = 4 ∧ t.dev.boot.image = some image) ∧
    (∀ answer, IdleDecaf s h → answer = .done → s.dev.flash.noBlock = false →
      ∃ t, exec (.bootHealth h {} answer) s = .next t ∧ t.dev.boot.measured = true ∧ t.dev.boot.written = true)

/-! ### Host attachment, recovery and ports (14_tree_and_host.md) -/

/-- The host attachment is lost, returns, or changes its mode (R373, R374); a loss leaves the pins and the threads alone but for
the reaction that the rule states, so nothing is said of them here.
The recovery function (R376): a command that it takes is in flight with its origin, one that comes while it carries another
is answered BUSY at once, and a bulk IN transfer takes the next answer. -/
def Obligations.HostAttachment : Prop :=
  (∀ (s : State) (n : Nat) (mode : BitVec 3), mode.toNat ≤ 4 →
     (s.dev.tree.attached = true →
       ∃ t, exec (.hostAttachmentLoss n mode true) s = .next t ∧ t.dev.tree.attached = false ∧ t.dev.tree.link = mode) ∧
     (s.straps.isWorker = false → s.dev.tree.attached = false → mode ≠ 0 →
       ∃ t, exec (.hostAttachmentRestored n mode) s = .next t ∧ Keeps [.tree] s t ∧ t.dev.tree.attached = true ∧
         t.dev.tree.link = mode) ∧
     (s.straps.isWorker = false → mode ≠ s.dev.tree.link → mode ≠ 0 →
       ∃ t, exec (.hostLinkModeChange n mode) s = .next t ∧ Keeps [.tree] s t ∧ t.dev.tree.link = mode)) ∧
  (∀ (s : State) (n : Nat), s.straps.isWorker = false →
     (∀ (entry args : Bytes) (e : Entry), entryOf entry = e → s.dev.ctl.recovery.busy = false → s.dev.ctl.flights = [] →
       s.dev.ctl.outbox = {} → entryBad e = false → argsBad e (argBytes entry args) = false → e.respAddr = 0 → e.argAddr = 0 →
       e.tkind = 0 → s.dev.recoveryTakes (s.straps.role == 3) e.opcode = true →
       ∃ t f, exec (.recoveryCommand n ⟨entry, args⟩) s = .next t ∧ Keeps [] s t ∧ t.dev.ctl.recovery.busy = true ∧
         t.dev.ctl.recovery.tag = e.tag ∧ t.dev.ctl.flights = [f] ∧ f.tag = e.tag ∧ f.opcode = e.opcode ∧ f.origin = .recovery) ∧
     (∀ (entry args : Bytes) (e : Entry), entryOf entry = e → s.dev.ctl.recovery.busy = true → s.dev.ctl.flights = [] →
       s.dev.ctl.outbox = {} →
       ∃ t c, exec (.recoveryCommand n ⟨entry, args⟩) s = .next t ∧ Keeps [] s t ∧ t.dev.ctl.recovery.busy = true ∧
         t.dev.ctl.recovery.replies = s.dev.ctl.recovery.replies ++ [(false, c)] ∧ c.status = stBusy ∧ c.tag = e.tag) ∧
     (∀ carried c rest, s.dev.ctl.recovery.replies = (carried, c) :: rest →
       s.dev.ctl.outbox = {} → s.dev.ctl.flights = [] →
       ∃ t, exec (.recoveryCompletionRead n) s = .next t ∧ Keeps [] s t ∧ t.dev.ctl.recovery.replies = rest ∧
         t.dev.ctl.recovery.last = some c ∧ t.dev.ctl.recovery.busy = (s.dev.ctl.recovery.busy && !(carried && c.fin))))

/-- The Tyisk ports (R176, R258, R349, R380 to R383, R388): what packets and markers carry takes its place, a replay is counted, a
lost marker and a retrain take the port down, a retrain brings it up again, a lane that fails is left, and a path lost or
restored is noted.
Discovery and Brew-up's reports (R384 to R386, R402): a worker takes its training request and its ID, the manager refuses a
device of another role, notes who is READY and posts the tree-ready event once. -/
def Obligations.TreeEvents : Prop :=
  (∀ (s : State) (n : Nat) (p : BitVec 2),
     ((s.dev.port p.toNat).isUp = true →
       (∀ k, s.dev.tree.admitted = false → ∃ t, exec (.linkPacketReceived n p (some (.result k))) s = .next t ∧ Keeps [] s t ∧
         t.dev.ctl.downRes = s.dev.ctl.downRes ++ [k]) ∧
       (∀ g set, ∃ t, exec (.linkPacketReceived n p (some (.members g set))) s = .next t ∧ Keeps [.tree] s t ∧
         t.dev.tree.groups.get 0 g.toNat = set) ∧
       (∀ b c, ∃ t, exec (.linkPacketReceived n p (some (.barrier b c))) s = .next t ∧ Keeps [.seq] s t ∧
         (t.dev.seq.barriers.get {} b.toNat).count = c) ∧
       (∃ t, exec (.linkPacketReceived n p none) s = .next t ∧ Keeps [.tree] s t ∧
         t.dev.tree.replays = min (2 ^ 32 - 1) (s.dev.tree.replays + 1)) ∧
       (∀ a m, ∃ t, exec (.linkMarkerReceived n p a m false false) s = .next t ∧ Keeps [.tree] s t ∧
         (t.dev.port p.toNat).up = 1) ∧
       (∀ a m g, (s.dev.port p.toNat).upstream = false →
         ∃ t, exec (.linkMarkerReceived n p a m true g) s = .next t ∧ Keeps [.tree] s t ∧
           (t.dev.port p.toNat).seenMarks.contains (a, m) = true ∧ (t.dev.port p.toNat).up = (s.dev.port p.toNat).up) ∧
       (∀ a b z br g, (s.dev.port p.toNat).upstream = true → (s.dev.port p.toNat).seenMarks.contains (a, .release b z br) = false →
         ∃ t, exec (.linkMarkerReceived n p a (.release b z br) true g) s = .next t ∧ Keeps [.tree, .seq] s t ∧
           (t.dev.seq.barriers.get {} b.toNat).release = some z) ∧
       (∀ a l r e z g, (s.dev.port p.toNat).upstream = true → (s.dev.port p.toNat).seenMarks.contains
         (a, .arm l true r e z) = false →
         (s.dev.cap.xt.get {} l.toNat).armed = false →
         ∃ t, exec (.linkMarkerReceived n p a (.arm l true r e z) true g) s = .next t ∧ Keeps [.tree, .cap] s t ∧
           (t.dev.cap.xt.get {} l.toNat).armed = true ∧ (t.dev.cap.xt.get {} l.toNat).effAt = z) ∧
       (∀ a z g, (s.dev.port p.toNat).upstream = true → (s.dev.port p.toNat).seenMarks.contains (a, .delay z) = false →
         ∃ t, exec (.linkMarkerReceived n p a (.delay z) true g) s = .next t ∧ Keeps [.tree] s t ∧
           t.dev.tree.aboveDelay = z) ∧
       (∀ cause : BitVec 2, cause ≠ 3 → ∃ t, exec (.portRetrainStart n p cause) s = .next t ∧ Keeps [.tree] s t ∧
         (t.dev.port p.toNat).up = 1 ∧ t.dev.tree.retrains = min (2 ^ 32 - 1) (s.dev.tree.retrains + 1)) ∧
       (∀ lane : BitVec 2, s.dev.boot.ready = true → lane ≠ 3 → (s.dev.port p.toNat).active.getLsbD lane.toNat = true →
         ∃ t, exec (.laneFailure n p lane) s = .next t ∧ Keeps [.tree] s t ∧ (t.dev.port p.toNat).degraded = true ∧
           (t.dev.port p.toNat).active.getLsbD lane.toNat = false)) ∧
     ((s.dev.port p.toNat).up = 1 → s.dev.tree.resTag = [] →
       ∃ t, exec (.portRetrainEnd n p) s = .next t ∧ Keeps [.tree] s t ∧ (t.dev.port p.toNat).down = none ∧
         (t.dev.port p.toNat).up = (s.dev.port p.toNat).raised.up) ∧
     (∀ z, (s.dev.port p.toNat).down = some z → (s.dev.port p.toNat).isUp = false → (s.dev.port p.toNat).lost = false →
       z + s.dev.tree.linkTimeout * msSteps ≤ (s.dev.advance n).mono →
       ∃ t, exec (.pathLost n p) s = .next t ∧ (t.dev.port p.toNat).lost = true) ∧
     ((s.dev.port p.toNat).lost = true →
       ∃ t, exec (.pathRestored n p) s = .next t ∧ Keeps [.tree] s t ∧ (t.dev.port p.toNat).lost = false)) ∧
  (∀ (s : State) (n : Nat),
     (s.straps.isWorker = true → s.dev.tree.admitted = false → 3 ≤ s.dev.boot.step → s.dev.tree.parentId = none →
       ∀ r : BitVec 2 × BitVec 8, ∃ t, exec (.trainingRequest n [r]) s = .next t ∧ Keeps [.tree] s t ∧
         t.dev.tree.parentId = some r.2 ∧ (t.dev.port r.1.toNat).upstream = true) ∧
     (s.straps.isWorker = true → s.dev.tree.admitted = false → s.dev.tree.parentId.isSome = true →
       ∀ parent port, ∀ id : Ident, id.given ≠ 0 → ∃ t, exec (.workerIdentification n parent port id) s = .next t ∧
         Keeps [.tree, .boot] s t ∧ t.dev.tree.admitted = true ∧ t.dev.tree.position = id.given ∧ t.dev.tree.path = id.givenPath) ∧
     (s.straps.isManager = true → s.dev.tree.stage = 3 →
       ∀ (port : BitVec 2) (id : Ident), id.role ≠ 2 → ∃ t, exec (.workerIdentification n 0 port id) s = .next t ∧
         Keeps [.tree] s t ∧ t.dev.tree.notAdmitted = s.dev.tree.notAdmitted + 1 ∧ t.dev.tree.nodes = s.dev.tree.nodes) ∧
     (s.straps.isManager = true → ∀ (m : Node) (decaf : Bool), s.dev.tree.nodes = [m] → m.lost = false →
       ∃ t m', exec (.deviceReadyReport n m.id decaf) s = .next t ∧ Keeps [.tree] s t ∧ t.dev.tree.nodes = [m'] ∧
         m'.ready = !decaf ∧ m'.decaf = decaf) ∧
     (s.straps.isManager = true → s.dev.tree.readySent = false → s.dev.boot.firmware = true →
       ∀ us, 1500000 ≤ us → ∃ t, exec (.treeReady n us) s = .next t ∧ Keeps [.tree] s t ∧ t.dev.tree.readySent = true ∧
         t.dev.tree.brewTime = us))

/-! ### Discovery and the tree (14_tree_and_host.md) -/

/-- Commands across the tree (R349 to R351, R396): a worker takes up what is forwarded to its position, and the manager carries
a worker's final completion of a command that names that position alone to the ring.
The tree commands (R387, R388, R403): the state of every position, a group set, a rescan begun, a port reported or
retrained. -/
def Obligations.TreeCommands : Prop :=
  (∀ (s : State) (n : Nat),
     (∀ (e : Entry) args member onward gated, s.dev.tree.admitted = true → e.tkind = 1 → e.tid = s.dev.tree.position →
       s.dev.ctl.flights = [] → entryBad e = false →
       ∃ t f, exec (.forwardedCommand n ⟨e, args⟩ ⟨member, onward, gated⟩) s = .next t ∧ Keeps [.cap] s t ∧
         t.dev.ctl.flights = [f] ∧
         f.tag = e.tag ∧ f.opcode = e.opcode ∧ f.origin = .tree ∧ f.accepted = false ∧
         t.dev.cap.heldStarts.contains e.tag = gated) ∧
     (∀ (c : Cpl) (f : Flight), s.straps.isManager = true → s.dev.ctl.flights = [f] → f.tag = c.tag → f.done = none →
       f.group = false →
       f.origin = .ring → f.targets = [c.position] → s.dev.ctl.behind = false → c.position ≠ s.dev.tree.position →
         c.fin = true → s.dev.tl.rewind = none →
       s.dev.ctl.cpl.room = true → s.dev.ctl.heldCpl = [] → s.dev.ctl.heldCpl0 = [] → s.dev.ctl.outbox = {} →
       ∃ t x, exec (.workerCompletionReceived n c) s = .next t ∧ Keeps [] s t ∧ t.dev.ctl.cplOut = s.dev.ctl.cplOut ++ [x] ∧
         x.tag = c.tag ∧ x.status = c.status ∧ x.resp = c.resp ∧ x.seq = c.seq ∧ x.position = c.position)) ∧
  (∀ (s : State) (h : Hdr), Idle s h →
     (∃ t r, exec (.treeState h) s = .next t ∧ Keeps [] s t ∧ Answers s t h 0x0E00 stOk r ∧
       r.length = 27 * (1 + s.dev.tree.nodes.length) ∧ r.head? = some (s.dev.tree.position.toNat : Int)) ∧
     (∀ (g : BitVec 8) (m : BitVec 256), s.straps.isManager = true → g.toNat ≤ 31 →
       (∀ i, i < 256 → m.getLsbD i = true → i = 0 ∨ ∃ x ∈ s.dev.tree.nodes, x.id.toNat = i) →
       ∃ t, exec (.treeGroup h g m) s = .next t ∧ Keeps [.tree] s t ∧ Answers s t h 0x0E01 stOk [] ∧
         t.dev.tree.groups.get 0 g.toNat = m) ∧
     (s.straps.isManager = true → s.dev.allIdle = true → s.dev.tree.rescan = none →
       ∃ t, exec (.treeRescan h true) s = .next t ∧ Keeps [.tree] s t ∧ Waits s t h 0x0E02 ∧ t.dev.tree.stage = 3 ∧
         t.dev.tree.rescan = some (h.tag, 0)) ∧
     (∀ p : BitVec 8, p.toNat ≤ 3 → (s.dev.port p.toNat).upstream = false →
       (∃ t, exec (.treePort h p 0 false) s = .next t ∧ Keeps [] s t ∧
         Answers s t h 0x0E03 stOk [((s.dev.port p.toNat).byte : Int)]) ∧
       ((s.dev.port p.toNat).isUp = true → ∃ t, exec (.treePort h p 1 true) s = .next t ∧ Keeps [.tree] s t ∧ Waits s t h 0x0E03 ∧
         (t.dev.port p.toNat).up = 1)))

/-! ### Mailboxes and control (13_control_and_mailboxes.md) -/

/-- A doorbell write takes effect, or it is ignored, counts in P.0009 and posts the doorbell-error event (R344, R508): the tail
is taken, a head frees what it passes. That a tail below the ring size is never past CMD_HEAD is the model's reading (log entry
60). -/
def Obligations.Doorbells : Prop :=
  ∀ (s : State) (n : Nat) (v : BitVec 32), barUp s = true → s.dev.ctl.flights = [] → s.dev.ctl.outbox = {} →
    (s.dev.ctl.cmd.en = true → v.toNat < s.dev.ctl.cmd.size.toNat →
      ∃ t, exec (.cmdTailWrite n v) s = .next t ∧ Keeps [.ctl] s t ∧ t.dev.ctl.cmd = { s.dev.ctl.cmd with tail := v.toNat }) ∧
    (∀ k, s.dev.ctl.cpl.freed v.toNat = some k →
      ∃ t, exec (.cplHeadWrite n v) s = .next t ∧ Keeps [] s t ∧ t.dev.ctl.cpl = { s.dev.ctl.cpl with head := v.toNat } ∧
        t.dev.ctl.cplOut = s.dev.ctl.cplOut.drop k) ∧
    (∀ k, s.dev.ctl.evt.freed v.toNat = some k →
      ∃ t, exec (.evtHeadWrite n v) s = .next t ∧ Keeps [] s t ∧ t.dev.ctl.evt = { s.dev.ctl.evt with head := v.toNat } ∧
        t.dev.ctl.evtOut = s.dev.ctl.evtOut.drop k) ∧
    (s.dev.ctl.resEn = true → v.toNat < s.dev.ctl.resSize → v.toNat % 8 = 0 →
      ringDist s.dev.ctl.resSize s.dev.ctl.resHead v.toNat ≤ ringDist s.dev.ctl.resSize s.dev.ctl.resHead s.dev.ctl.resTail →
      ∃ t, exec (.resHeadWrite n v) s = .next t ∧ Keeps [.ctl] s t ∧ t.dev.ctl.resHead = v.toNat) ∧
    (∀ (c : Instr) (ring : Nat), s.dev.tree.admitted = false → s.dev.ctl.evt.room = true → s.dev.ctl.heldEvt = [] →
      s.dev.ctl.lostOwed = 0 → s.dev.ctl.behind = false → (s.dev.ctl.srcs.get {} 514).off = false →
      (c = .cmdTailWrite n v ∧ ring = 0 ∧ (s.dev.ctl.cmd.en = false ∨ s.dev.ctl.cmd.size.toNat ≤ v.toNat)) ∨
        (c = .cplHeadWrite n v ∧ ring = 1 ∧ (s.dev.ctl.cpl.en = false ∨ s.dev.ctl.cpl.size.toNat ≤ v.toNat ∨
          ringDist s.dev.ctl.cpl.size.toNat s.dev.ctl.cpl.head s.dev.ctl.cpl.tail <
            ringDist s.dev.ctl.cpl.size.toNat s.dev.ctl.cpl.head v.toNat)) ∨
        (c = .evtHeadWrite n v ∧ ring = 2 ∧ (s.dev.ctl.evt.en = false ∨ s.dev.ctl.evt.size.toNat ≤ v.toNat ∨
          ringDist s.dev.ctl.evt.size.toNat s.dev.ctl.evt.head s.dev.ctl.evt.tail <
            ringDist s.dev.ctl.evt.size.toNat s.dev.ctl.evt.head v.toNat)) ∨
        (c = .resHeadWrite n v ∧ ring = 3 ∧ (s.dev.ctl.resEn = false ∨ s.dev.ctl.resSize ≤ v.toNat ∨ v.toNat % 8 ≠ 0 ∨
          ringDist s.dev.ctl.resSize s.dev.ctl.resHead s.dev.ctl.resTail < ringDist s.dev.ctl.resSize s.dev.ctl.resHead v.toNat)) →
      ∃ t x, exec c s = .next t ∧ Keeps [.ctl] s t ∧ t.dev.ctl.cmd = s.dev.ctl.cmd ∧ t.dev.ctl.cpl = s.dev.ctl.cpl ∧
        t.dev.ctl.evt.head = s.dev.ctl.evt.head ∧ t.dev.ctl.resHead = s.dev.ctl.resHead ∧ t.dev.ctl.cplOut = s.dev.ctl.cplOut ∧
        t.dev.ctl.doorbells = min (2 ^ 32 - 1) (s.dev.ctl.doorbells + 1) ∧
        t.dev.ctl.evtOut = s.dev.ctl.evtOut ++ [x] ∧ x.source = 514 ∧ x.code = 2 ∧ x.data = [(ring : Int)])

/-- Ring control (R341, R507): a ring that satisfies R341 is enabled empty, and a disabled one stops. -/
def Obligations.RingControl : Prop :=
  ∀ (s : State) (n : Nat) (v : BitVec 32), barUp s = true → s.dev.ctl.flights = [] → s.dev.ctl.outbox = {} →
    (v.getLsbD 0 = true → s.dev.ctl.cmd.en = false → ringGood 0 s.dev.ctl.cmd = true →
      ∃ t, exec (.ringCtrlWrite n 0 v) s = .next t ∧ Keeps [.ctl] s t ∧ t.dev.ctl.cmd.en = true ∧ t.dev.ctl.cmd.head = 0 ∧
        t.dev.ctl.cmd.tail = 0) ∧
    (v.getLsbD 0 = true → s.dev.ctl.cpl.en = false → ringGood 1 s.dev.ctl.cpl = true →
      ∃ t, exec (.ringCtrlWrite n 1 v) s = .next t ∧ Keeps [] s t ∧ t.dev.ctl.cpl.en = true ∧ t.dev.ctl.cpl.phase = true ∧
        t.dev.ctl.cplOut = []) ∧
    (v.getLsbD 0 = false → ∃ t, exec (.ringCtrlWrite n 2 v) s = .next t ∧ Keeps [] s t ∧ t.dev.ctl.evt.en = false)

/-- A fetch takes the entry at CMD_HEAD into flight and moves CMD_HEAD on (R344, R352).
Held records and result packets, a worker's behind the device's own, go out when there is room (R347 to R349), and DMA moves
the granule of its winner (R339). -/
def Obligations.ControlRings : Prop :=
  (∀ (s : State) (n : Nat) (entry args : Bytes) (e : Entry), entryOf entry = e → barUp s = true → s.dev.ctl.flights = [] →
     s.dev.ctl.outbox = {} → s.dev.ctl.cmd.en = true → s.dev.ctl.cmd.head ≠ s.dev.ctl.cmd.tail → entryBad e = false →
     argsBad e (argBytes entry args) = false → e.tkind = 0 →
     ∃ t f, exec (.commandFetch n ⟨entry, args⟩) s = .next t ∧ Keeps [.ctl] s t ∧
       t.dev.ctl.cmd.head = (s.dev.ctl.cmd.head + 1) % max 1 s.dev.ctl.cmd.size.toNat ∧ t.dev.ctl.flights = [f] ∧
       f.tag = e.tag ∧ f.stream = e.stream ∧ f.opcode = e.opcode ∧ f.origin = .ring ∧ f.accepted = false ∧ f.done = none) ∧
  (∀ (s : State) (n : Nat), s.dev.ctl.flights = [] → s.dev.ctl.outbox = {} →
     (∀ c cs, s.dev.ctl.cpl.room = true → s.dev.ctl.heldCpl0 = [] → s.dev.ctl.heldCpl = c :: cs → s.dev.mayWrite c = true →
       ∃ t x, exec (.heldCompletionDrain n) s = .next t ∧ Keeps [] s t ∧ t.dev.ctl.heldCpl = cs ∧
         t.dev.ctl.cplOut = s.dev.ctl.cplOut ++ [x] ∧ x.tag = c.tag ∧ x.status = c.status ∧ (c.opcode ≠ 0x0100 →
           x.resp = c.resp)) ∧
     (∀ e es, s.dev.ctl.lostOwed = 0 → s.dev.ctl.heldEvt = e :: es → s.dev.ctl.behind = false →
       (s.dev.tree.admitted = true → ∃ t, exec (.heldEventDrain n) s = .next t ∧ Keeps [] s t ∧ t.dev.ctl.heldEvt = es ∧
         t.dev.ctl.evtOut = s.dev.ctl.evtOut) ∧
       (s.dev.tree.admitted = false → s.dev.ctl.evt.room = true →
         ∃ t x, exec (.heldEventDrain n) s = .next t ∧ Keeps [] s t ∧ t.dev.ctl.heldEvt = es ∧
           t.dev.ctl.evtOut = s.dev.ctl.evtOut ++ [x] ∧ x.source = e.source ∧ x.code = e.code ∧ x.data = e.data)) ∧
     (∀ p, (s.dev.ctl.dmaPacket.toList ++ s.dev.ctl.downRes).head? = some p → s.dev.tree.admitted = false →
       s.dev.ctl.resRoom (8 * p.len) = true →
       ∃ t, exec (.resultPacketDma n) s = .next t ∧ Keeps [.ctl] s t ∧ t.dev.ctl.dmaPacket = none ∧
         t.dev.ctl.downRes = (if s.dev.ctl.dmaPacket.isSome then s.dev.ctl.downRes else s.dev.ctl.downRes.tail) ∧
         t.dev.ctl.resOut = s.dev.ctl.resOut ++ [p] ∧
         t.dev.ctl.resTail = (s.dev.ctl.resTail + 8 * p.len) % max 1 s.dev.ctl.resSize) ∧
     (∀ (e : BitVec 3) c k, e.toNat ≤ 4 → (s.dev.ctl.dma.get {} e.toNat).cur = none → (s.dev.ctl.dma.get {} e.toNat).waiting = [] →
       2 ≤ k → ∃ t, exec (.dmaGranuleBoundary n e (some (c, k))) s = .next t ∧ Keeps [.ctl] s t ∧
         (t.dev.ctl.dma.get {} e.toNat).cur = some { cls := c, granule := 1, left := k - 1 }) ∧
     (∀ v : BitVec 6, (s.dev.ctl.irqs.get {} v.toNat).n ≠ 0 →
       (s.dev.ctl.irqs.get {} v.toNat).first + (s.dev.ctl.irqs.get {} v.toNat).holdoff * usSteps ≤ (s.dev.advance n).mono →
       ∃ t, exec (.irqHoldoffExpiry n v) s = .next t ∧ Keeps [] s t ∧ (t.dev.ctl.irqs.get {} v.toNat).n = 0 ∧
         ((s.dev.ctl.irqs.get {} v.toNat).masked = true → (t.dev.ctl.irqs.get {} v.toNat).pending = true) ∧
         ((s.dev.ctl.irqs.get {} v.toNat).masked = false →
           (t.dev.ctl.irqs.get {} v.toNat).sent = (s.dev.ctl.irqs.get {} v.toNat).sent + 1)))

/-- The control commands that ask (R364, R366): NOP, the device's identity, and a parameter's ID, width and value.
CTL.PSET (R364, R186): an entry that names P.0502 in its range sets it, and a list with an entry that cannot be written has
no effect. -/
def Obligations.ControlValues : Prop :=
  (∀ (s : State) (h : Hdr), Idle s h →
     (∃ t, exec (.ctlNop h) s = .next t ∧ Keeps [] s t ∧ Answers s t h 0x0000 stOk []) ∧
     (∃ t r, exec (.ctlInfo h) s = .next t ∧ Keeps [] s t ∧ Answers s t h 0x0001 stOk r ∧
       r.take 3 = [(s.straps.role.toNat : Int), (s.dev.tree.position.toNat : Int), (pathCode s.dev.tree.path : Int)]) ∧
     (∀ (i : BitVec 16) w a, paramKind i.toNat = some (w, a) →
       ∃ t, exec (.ctlPget h [i]) s = .next t ∧ Answers s t h 0x0002 stOk
         [(i.toNat : Int), (widthCode w : Int), ((s.dev.takenUp h 0x0002).readParam s.straps s.fuses i.toNat : Int)])) ∧
  (∀ (s : State) (h : Hdr), Idle s h →
     (∀ v : BitVec 256, 1 ≤ v.toNat → v.toNat ≤ 255 →
       ∃ t, exec (.ctlPset h [(0x0502, v)]) s = .next t ∧ Keeps [.seq] s t ∧ Answers s t h 0x0003 stOk [] ∧
         t.dev.seq.trigWidth = v.toNat) ∧
     (∀ l st k, l.length ≤ 16 → Dev.psetAll (s.dev.takenUp h 0x0003) 0 l = .error (st, k) → l ≠ [] →
       ∃ t, exec (.ctlPset h l) s = .next t ∧ Keeps [] s t ∧ Answers s t h 0x0003 st []))

/-- The control commands that set up windows, the result area and the interrupt maps (R340, R341, R360, R361).
CTL.FLUSH_STREAM (R366): a fetched command of the stream that has not been accepted completes PREEMPTED, and the flush
completes with their number. -/
def Obligations.ControlSetup : Prop :=
  (∀ (s : State) (h : Hdr), Idle s h → s.straps.isWorker = false →
     (∀ (i : BitVec 8) (base size : BitVec 64), i.toNat ≤ 7 → base.toNat % 4096 = 0 → size.toNat % 4096 = 0 → size ≠ 0 →
       size.toNat ≤ 2 ^ 48 → base.toNat + size.toNat ≤ 2 ^ 64 → s.dev.ctl.windows = .empty →
       ∃ t, exec (.ctlWindow h i base size) s = .next t ∧ Keeps [.ctl] s t ∧ Answers s t h 0x0004 stOk [] ∧
         t.dev.ctl.windows.get none i.toNat = some (base.toNat, size.toNat)) ∧
     (∀ (base : BitVec 64) (size : BitVec 32), base.toNat % 4096 = 0 → s.dev.ctl.inWindow (base.toNat, size.toNat) = true →
       size.toNat.isPowerOfTwo → 65536 ≤ size.toNat → size.toNat ≤ 2 ^ 30 → s.dev.cap.carafe = [] →
       s.dev.ctl.dmaPacket = none →
       ∃ t, exec (.ctlResults h base size) s = .next t ∧ Keeps [.ctl] s t ∧ Answers s t h 0x0005 stOk [] ∧
         t.dev.ctl.resEn = true ∧ t.dev.ctl.resBase = base ∧ t.dev.ctl.resSize = size.toNat ∧ t.dev.ctl.resHead = 0 ∧
         t.dev.ctl.resTail = 0) ∧
     (∀ (k : BitVec 16) (v : BitVec 8) (en : Bool), k.toNat ≤ 639 → v.toNat ≤ 62 →
       ∃ t, exec (.ctlEvmap h k 1 v en) s = .next t ∧ Keeps [.ctl] s t ∧ Answers s t h 0x0006 stOk [] ∧
         t.dev.ctl.srcs.get {} k.toNat = { vector := v.toNat, off := !en } ∧
         ∀ j, j ≠ k.toNat → t.dev.ctl.srcs.get {} j = s.dev.ctl.srcs.get {} j) ∧
     (∀ (m : BitVec 32) (v : BitVec 8), v.toNat ≤ 62 →
       ∃ t, exec (.ctlCplmap h m v) s = .next t ∧ Keeps [.ctl] s t ∧ Answers s t h 0x0007 stOk [] ∧
         ∀ k, k < 32 → t.dev.ctl.cplMap.get 0 k = if m.getLsbD k then v.toNat else s.dev.ctl.cplMap.get 0 k) ∧
     (∀ (v : BitVec 8) (count holdoff : BitVec 16), v.toNat ≤ 62 → 1 ≤ count.toNat →
       count.toNat ≤ 255 →
       ∃ t, exec (.ctlIrqmod h v count holdoff) s = .next t ∧ Keeps [] s t ∧ Answers s t h 0x0008 stOk [] ∧
         (t.dev.ctl.irqs.get {} v.toNat).count = count.toNat ∧ (t.dev.ctl.irqs.get {} v.toNat).holdoff = holdoff.toNat)) ∧
  (∀ (s : State) (h : Hdr) (m : BitVec 32) (f : Flight), s.straps.isWorker = false → s.dev.boot.ready = true →
     s.dev.fc.decaf = none → h.rsv = false → s.dev.ctl.behind = false → s.dev.ctl.outbox = {} → s.dev.ctl.heldCpl = [] →
       s.dev.ctl.heldCpl0 = [] →
     s.dev.ctl.cpl.room = true → s.dev.ctl.cpl.push.room = true → s.dev.ctl.flights = [f] → f.accepted = false → f.done = none →
     f.tag ≠ h.tag → f.origin = .ring → f.group = false → opClass f.opcode ≠ 0 → m.getLsbD f.stream.toNat = true →
     ∃ t x y, exec (.ctlFlushStream h m) s = .next t ∧ t.dev.ctl.cplOut = s.dev.ctl.cplOut ++ [x, y] ∧ x.tag = f.tag ∧
       x.status = stPreempted ∧ y.tag = h.tag ∧ y.status = stOk ∧ y.resp = [1] ∧ t.dev.ctl.flights = [])

/-! ### Faults, Decaf mode and the log (16_faults_and_cupping_log.md) -/

/-- A report reaches the collector (R430, R431): its line and class bits are set, its counter rises by one, and a line that has no
first report takes this one. A corrected fault does nothing else; an uncorrected one takes the line's reaction, here the
journal's (line 45) and a housekeeping channel's (line 38).
Where reports complete: in Decaf mode a fatal report changes only the collector (R440), and so does a watchdog's (R337), and
a fault of the collector's own registers (R434). -/
def Obligations.FaultReports : Prop :=
  (∀ (s : State) (n : Nat) (line : BitVec 6) (cls : BitVec 2) (cause : BitVec 8) (unit : BitVec 16) (detail : BitVec 32),
     cls ≠ 3 → (lineClasses line.toNat).testBit cls.toNat = true → s.dev.fc.inj = none →
     (s.dev.log.queue.filter fun x => x.kind == 1).length < 16 → (s.dev.fc.perLine.get {} line.toNat).last = none →
     (cls = 0 → line.toNat < 30 ∨ 33 < line.toNat → ∃ t, exec (.errorReport n line cls cause unit detail) s = .next t ∧
       Keeps [.fc] s t ∧ t.dev.fc.lines = s.dev.fc.lines ||| (1#48 <<< line.toNat) ∧ t.dev.fc.c = true ∧
       t.dev.fc.decaf = s.dev.fc.decaf ∧ (t.dev.fc.perLine.get {} line.toNat).c =
         (if (s.dev.fc.perLine.get {} line.toNat).c = 0xFFFF then 0xFFFF else (s.dev.fc.perLine.get {} line.toNat).c + 1) ∧
       ((s.dev.fc.perLine.get {} line.toNat).first = none → ∃ r, (t.dev.fc.perLine.get {} line.toNat).first = some r ∧
         r.cls = 0 ∧ r.cause = cause ∧ r.unit = unit ∧ r.detail = detail ∧ r.epoch = s.dev.tl.epoch)) ∧
     (cls = 1 → line = 45 → ∃ t, exec (.errorReport n line cls cause unit detail) s = .next t ∧
       Keeps [.fc, .journal] s t ∧ t.dev.journal.valid = false ∧ t.dev.fc.u = true) ∧
     (cls = 1 → line = 38 → unit.toNat < 128 → ∃ t, exec (.errorReport n line cls cause unit detail) s = .next t ∧
       Keeps [.fc, .hk] s t ∧ (t.dev.hk.ch.get {} unit.toNat).invalid = true ∧ t.dev.fc.u = true)) ∧
  (∀ (s : State) (n : Nat), s.dev.fc.decaf.isSome = true → s.dev.fc.inj = none →
     (s.dev.log.queue.filter fun x => x.kind == 1).length < 16 →
     (∀ cause unit detail, (s.dev.fc.perLine.get {} 41).last = none →
       ∃ t, exec (.errorReport n 41 2 cause unit detail) s = .next t ∧ Keeps [.fc] s t ∧ t.dev.fc.f = true ∧
         t.dev.fc.lines.getLsbD 41 = true ∧ t.dev.fc.decaf = s.dev.fc.decaf) ∧
     (∀ cause unit detail, ∃ t, exec (.errorReport n 5 3 cause unit detail) s = .next t ∧ Keeps [.fc] s t ∧
       t.dev.fc.self = true ∧ t.dev.fc.decaf = s.dev.fc.decaf) ∧
     (∀ core, s.dev.boot.firmware = true →
       ∃ t, exec (.watchdogExpiry n core) s = .next t ∧ Keeps [.fc] s t ∧
         t.dev.fc.lines.getLsbD (if core then 25 else 24) = true ∧ t.dev.fc.decaf = s.dev.fc.decaf))

/-- FC.INJECT is accepted and waits for its stamp, and the injected report reaches its line and, with no ACT in its word, goes to
the log's writer and does nothing else (R437, R438). -/
def Obligations.Injection : Prop :=
  (∀ (s : State) (h : Hdr) (w : When) (word : BitVec 64) e st late, Idle s h → injGood word = true → s.dev.fc.inj = none →
    (s.dev.advance h.t).schedule w clk false = .ok (e, st, late) →
    ∃ t, exec (.fcInject h w word) s = .next t ∧ Keeps [.fc, .tl] s t ∧ Waits s t h 0x0D02 ∧
      t.dev.fc = { s.dev.fc with inj := some { tag := some h.tag, word := word, since := st } }) ∧
  (∀ (s : State) (i : Inject), s.dev.tl.rewind = none → s.dev.fc.inj = some i → i.presented = false → i.tag = none →
    i.word.getLsbD 32 = false → (s.dev.log.queue.filter fun x => x.kind == 1).length < 16 →
    ∃ t, exec .injectedReport s = .next t ∧ Keeps [.fc] s t ∧ t.dev.fc.inj = some { i with presented := true } ∧
      t.dev.fc.lines = s.dev.fc.lines ∧ t.dev.fc.u = s.dev.fc.u ∧ t.dev.fc.f = s.dev.fc.f ∧ t.dev.fc.decaf = s.dev.fc.decaf ∧
      ∃ x ∈ t.dev.log.queue, x.kind = 1 ∧ x.sub.toNat = injLine i.word ∧ x.injected = true ∧ x.inj = true)

/-- Entry into Decaf mode (R439, R440): FC.DECAF, the register DECAF_REQ and a fatal report enter it with their cause.
Decaf mode goes on and ends (R440, R444, R456): FC.DECAF completes at once, the end of step 6 makes the
state safe, and FC.DECAF_EXIT leaves the mode for a cause of the host's making only. -/
def Obligations.DecafMode : Prop :=
  (∀ (s : State) (h : Hdr) (n : Nat), s.dev.fc.decaf = none →
     (Idle s h → ∃ t k, exec (.fcDecaf h) s = .next t ∧ t.dev.fc.decaf = some k ∧ k.cause = 3 ∧ k.safe = false ∧ h.tag ∈ k.tags) ∧
     (barUp s = true → ∃ t k, exec (.decafReqWrite n 0xDECA0001) s = .next t ∧ t.dev.fc.decaf = some k ∧ k.cause = 3 ∧
       k.safe = false) ∧
     (∀ cause unit detail, s.dev.fc.inj = none → (s.dev.fc.perLine.get {} 42).last = none →
       ∃ t k, exec (.errorReport n 42 2 cause unit detail) s = .next t ∧ t.dev.fc.decaf = some k ∧ k.cause = 1 ∧ k.line = 42 ∧
         k.noRamp = false)) ∧
  (∀ (s : State) (k : Decaf), s.dev.fc.decaf = some k →
     (∀ h, IdleDecaf s h → ∃ t, exec (.fcDecaf h) s = .next t ∧ Keeps [] s t ∧ Answers s t h 0x0D03 stOk []) ∧
     (∀ n, k.safe = false → k.tags = [] → s.dev.switchesOpen = true →
       ∃ t, exec (.decafSafeStateReached n) s = .next t ∧ Keeps [.fc, .board, .pins] s t ∧
         t.dev.fc.decaf = some { k with safe := true, clamps := true, tags := [] } ∧
         ∃ x ∈ t.dev.log.queue, x.kind = 9 ∧ x.sub = 0 ∧ x.stamp = k.since) ∧
     (∀ h, IdleDecaf s h → k.cause = 3 ∨ k.cause = 8 → k.safe = true →
       ∃ t, exec (.fcDecafExit h) s = .next t ∧ Keeps [.fc, .pins, .mi, .boot, .journal] s t ∧ Answers s t h 0x0D04 stOk [] ∧
         t.dev.fc.decaf = none ∧ t.dev.boot.ready = true ∧ t.dev.mi.safeLine = false ∧
         (∀ ch, ch < 512 → (t.dev.pmu ch).mode = 0)) ∧
     (∀ h, IdleDecaf s h → k.cause ≠ 3 → k.cause ≠ 8 →
       ∃ t, exec (.fcDecafExit h) s = .next t ∧ Keeps [] s t ∧ Answers s t h 0x0D04 stDenied []))

/-- FC.READ and FC.CLEAR (R431, R456): the status with every line's counters and first report, and the lines that are cleared.
The Cupping Log's commands (R449 to R456): counts by kind, records as 64 bytes each, a LOG.SYNC with nothing to copy and one
that waits in a freeze, a fresh nonce, and LOG.CLEAR with a good and with a bad token. -/
def Obligations.FaultCommands : Prop :=
  (∀ (s : State) (h : Hdr), Idle s h →
     (∃ t r, exec (.fcRead h) s = .next t ∧ Keeps [] s t ∧ Answers s t h 0x0D00 stOk r ∧ r.length = 481 ∧
       r.head? = some (s.dev.fc.status : Int)) ∧
     (∀ m : BitVec 48, ∃ t, exec (.fcClear h m) s = .next t ∧ Keeps [.fc] s t ∧ Answers s t h 0x0D01 stOk [] ∧
       t.dev.fc.lines = s.dev.fc.lines ∧ ∀ k, k < 48 →
         (m.getLsbD k = true → (t.dev.fc.perLine.get {} k).c = 0 ∧ (t.dev.fc.perLine.get {} k).u = 0 ∧
           (t.dev.fc.perLine.get {} k).f = 0 ∧ (t.dev.fc.perLine.get {} k).first = none) ∧
         (m.getLsbD k = false → t.dev.fc.perLine.get {} k = s.dev.fc.perLine.get {} k))) ∧
  (∀ (s : State) (h : Hdr), Idle s h →
     (∃ t r, exec (.logSummary h) s = .next t ∧ Keeps [] s t ∧ Answers s t h 0x0D05 stOk r ∧ r.length = 47 ∧
       r.head? = some (s.dev.log.gen.toNat : Int)) ∧
     (∀ first count, 1 ≤ count → count ≤ 64 → first + count ≤ 256 →
       ∃ t r, exec (.logRead h 0 first count) s = .next t ∧ Keeps [] s t ∧ Answers s t h 0x0D06 stOk r ∧
         r.length = 64 * count + 2 ∧ r.head? = r.getLast?) ∧
     (s.dev.log.closing = [] → s.dev.log.ram = .empty →
       ∃ t, exec (.logSync h) s = .next t ∧ Keeps [] s t ∧ Answers s t h 0x0D07 stOk []) ∧
     (s.dev.log.freeze = true → s.dev.log.records.all (·.closed) = false → s.dev.logReachable = true →
       ∃ t, exec (.logSync h) s = .next t ∧ Keeps [.log] s t ∧ Waits s t h 0x0D07 ∧ t.dev.log.ram = s.dev.log.ram ∧
         t.dev.log.syncTags = s.dev.log.syncTags ++ [h.tag]) ∧
     (∃ t v, exec (.logChallenge h) s = .next t ∧ Keeps [.log] s t ∧ t.dev.log.nonce = some v ∧
       Answers s t h 0x0D08 stOk [(v.toNat : Int)]) ∧
     (∀ token, s.dev.log.freeze = false → s.dev.log.syncTags = [] → s.dev.log.hold = [] →
       (s.dev.takenUp h 0x0D09).tokenGood token = true → s.dev.logReachable = true →
       ∃ t, exec (.logClear h token .done) s = .next t ∧ Keeps [.log, .board] s t ∧ Answers s t h 0x0D09 stOk [] ∧
         t.dev.log.nonce = none ∧ t.dev.log.ram = .empty ∧ t.dev.board.logCirc = [] ∧ t.dev.log.gen = s.dev.log.gen + 1) ∧
     (∀ token answer, s.dev.log.freeze = false → (s.dev.takenUp h 0x0D09).tokenGood token = true → s.dev.logReachable = false →
       ∃ t, exec (.logClear h token answer) s = .next t ∧ Keeps [.log] s t ∧ Answers s t h 0x0D09 stFault [] ∧
         t.dev.log.nonce = none ∧ t.dev.log.ram = s.dev.log.ram) ∧
     (∀ token answer, s.dev.log.freeze = false → (s.dev.takenUp h 0x0D09).tokenGood token = false →
       ∃ t, exec (.logClear h token answer) s = .next t ∧ Keeps [.log] s t ∧ Answers s t h 0x0D09 stDenied [] ∧
         t.dev.log.nonce = none ∧ t.dev.log.ram = s.dev.log.ram))

/-- The log's writer (R445, R448, R449, R452): an item becomes a record with the next device sequence number, an idle record
closes, a closed record is copied, and a freeze releases itself after 50 ms. -/
def Obligations.LogEvents : Prop :=
  ∀ (s : State) (n : Nat), s.dev.ctl.flights = [] → s.dev.ctl.outbox = {} →
    (∀ i r, s.dev.log.freeze = false → s.dev.log.hold = [] → s.dev.log.queue = i :: r → s.dev.log.ram = .empty →
      i.kind ≠ 6 → i.injected = false → s.dev.log.nextIdx < 256 → s.dev.ctl.behind = false →
      ∃ t x, exec (.logRecordCommit n) s = .next t ∧ Keeps [.log] s t ∧ t.dev.log.newest = some s.dev.log.nextIdx ∧
        t.dev.log.ram.get none s.dev.log.nextIdx = some x ∧ x.item = i ∧ x.seq = s.dev.ctl.seq) ∧
    (∀ (k : BitVec 8) (x : LogRec), s.dev.log.freeze = false → s.dev.log.ram.get none k.toNat = some x → x.closed = false →
      x.touched + s.dev.log.closeIdle * msSteps ≤ (s.dev.advance n).mono →
      ∃ t, exec (.logRecordIdleClose n k) s = .next t ∧ Keeps [.log] s t ∧
        t.dev.log.ram.get none k.toNat = some { x with closed := true } ∧
        t.dev.log.closing = s.dev.log.closing ++ [k.toNat] ∧ t.dev.log.gen = s.dev.log.gen + 1) ∧
    (∀ k ks x, s.dev.log.closing = k :: ks → ks ≠ [] → s.dev.log.ram.get none k = some x → s.dev.log.freeze = false →
      s.dev.logReachable = true →
      ∃ t y, exec (.logFlashCopy n .done) s = .next t ∧ Keeps [.log, .board] s t ∧ t.dev.log.closing = ks ∧
        t.dev.log.ram.get none k = some y ∧ y.copied = true ∧ y.item = x.item ∧
        t.dev.board.logCirc = circulate s.dev.board.logCirc { y with start := s.dev.log.start }) ∧
    (s.dev.log.freeze = true → s.dev.log.freezeAt + 50 * msSteps ≤ (s.dev.advance n).mono →
      ∃ t, exec (.logFreezeTimeout n) s = .next t ∧ Keeps [.log] s t ∧ t.dev.log.freeze = false ∧ t.dev.log.timeout = true)

/-! ### Housekeeping and supplies (17_housekeeping_thermal.md, R489) -/

/-- A supply beyond its absolute range: the device goes on, and what its monitor reads is a free value (R463, R489; log entry
128).
Supplies and enables (R463, R468): a supply that the device holds low leaves its window without a report, another one is
reported on line 39, each once it has stood outside for 1 us, each comes back with its event after 100 us inside, and PE_EN_POS
goes high, VSS_PE being in range or 5 ms having passed. -/
def Obligations.SupplyEvents : Prop :=
  (∀ (s : State) (n : Nat) (supply : BitVec 4) (reading : Int), supplyDamages supply.toNat reading = true →
     s.dev.hk.supplyOut.getLsbD supply.toNat = false → supplyGood supply.toNat s.fuses.bandgap reading = false →
     s.dev.supplyStood n supply.toNat usSteps = true → s.dev.hk.heldLow supply.toNat = true → supply = 5 →
     ∃ t, exec (.supplyOutOfRange n supply reading) s = .next t ∧ Keeps [.hk] s t ∧
       t.dev.hk.supplyOut = s.dev.hk.supplyOut ||| (1#16 <<< supply.toNat) ∧
       t.dev.hk.supplyVal.get 0 supply.toNat = (s.dev.fresh.1 : Int)) ∧
  (∀ (s : State) (n : Nat) (supply : BitVec 4) (reading : Int), supplyDamages supply.toNat reading = false →
     (s.dev.hk.supplyOut.getLsbD supply.toNat = false → supplyGood supply.toNat s.fuses.bandgap reading = false →
       s.dev.supplyStood n supply.toNat usSteps = true → s.dev.hk.heldLow supply.toNat = true → supply = 5 →
       ∃ t, exec (.supplyOutOfRange n supply reading) s = .next t ∧ Keeps [.hk] s t ∧
         t.dev.hk.supplyOut = s.dev.hk.supplyOut ||| (1#16 <<< supply.toNat) ∧ t.dev.hk.supplyVal.get 0 supply.toNat = reading) ∧
     (s.dev.hk.supplyOut.getLsbD supply.toNat = false → supplyGood supply.toNat s.fuses.bandgap reading = false →
       s.dev.supplyStood n supply.toNat usSteps = true → s.dev.hk.heldLow supply.toNat = false → s.dev.fc.decaf.isSome = true →
         s.dev.fc.inj = none →
       (s.dev.fc.perLine.get {} 39).last = none → supply = 8 →
       ∃ t, exec (.supplyOutOfRange n supply reading) s = .next t ∧
         t.dev.hk.supplyOut = s.dev.hk.supplyOut ||| (1#16 <<< supply.toNat) ∧ t.dev.fc.lines.getLsbD 39 = true ∧
         t.dev.fc.f = true) ∧
     (s.dev.hk.supplyOut.getLsbD supply.toNat = true → supplyGood supply.toNat s.fuses.bandgap reading = true →
       s.dev.supplyStood n supply.toNat (100 * usSteps) = true →
       ∃ t, exec (.supplyInRange n supply reading) s = .next t ∧ Keeps [.hk] s t ∧
         t.dev.hk.supplyOut = s.dev.hk.supplyOut &&& ~~~ (1#16 <<< supply.toNat)) ∧
     (s.dev.hk.peWait = true → s.dev.hk.peNeg = true → s.dev.shutLatch = false → s.dev.fc.decaf = none →
       s.dev.hk.supplyOut.getLsbD 4 = false ∨ s.dev.hk.peNegAt + 5 * msSteps ≤ (s.dev.advance n).mono →
       ∃ t, exec (.peEnPosEnable n) s = .next t ∧ Keeps [.hk] s t ∧ t.dev.hk.pePos = true ∧ t.dev.hk.peWait = false))

/-- The rounds of housekeeping (R460, R461): a good sample goes to its channel, stamped 100 us into its slot of 125 us, and the
end of a round begins the next, 16 ms after it.
HK.READ, HK.STATE, HK.MINMAX (R470). -/
def Obligations.Housekeeping : Prop :=
  (∀ (s : State) (n : Nat), s.dev.tl.running = true →
     (∀ (reading : Int) due, s.dev.hk.slot < 128 → s.dev.hk.slot ≠ 23 → -4000 ≤ reading → reading ≤ 15000 →
       due = s.dev.hk.roundAt + (125 * s.dev.hk.slot + 100) * usSteps → due ≤ (s.dev.advance n).mono →
       ∃ t, exec (.hkSample n reading true) s = .next t ∧ Keeps [.hk] s t ∧ t.dev.hk.slot = s.dev.hk.slot + 1 ∧
         (t.dev.hk.ch.get {} s.dev.hk.slot).value = reading ∧
         (t.dev.hk.ch.get {} s.dev.hk.slot).stamp = (s.dev.advance n).tl.now - ((s.dev.advance n).mono - due) ∧
         (t.dev.hk.ch.get {} s.dev.hk.slot).invalid = false ∧
         ∀ c, c ≠ s.dev.hk.slot → t.dev.hk.ch.get {} c = s.dev.hk.ch.get {} c) ∧
     (128 ≤ s.dev.hk.slot → s.dev.boot.step < 10 →
       ∃ t, exec (.hkRoundEnd n) s = .next t ∧ Keeps [.hk] s t ∧ t.dev.hk.slot = 0 ∧ t.dev.hk.rounds = s.dev.hk.rounds + 1 ∧
         t.dev.hk.roundAt = s.dev.hk.roundAt + 16 * msSteps)) ∧
  (∀ (s : State) (h : Hdr), Idle s h →
     (∀ first count : BitVec 8, 1 ≤ count.toNat → first.toNat + count.toNat ≤ 128 →
       ∃ t r, exec (.hkRead h first count) s = .next t ∧ Keeps [] s t ∧ Answers s t h 0x0C00 stOk r ∧
         r.length = 5 * count.toNat ∧ r.head? = some (s.dev.hk.ch.get {} first.toNat).value) ∧
     (∃ t r, exec (.hkState h) s = .next t ∧ Keeps [] s t ∧ Answers s t h 0x0C01 stOk r ∧ r.head? = some s.dev.hk.tj ∧
       r.getLast? = some s.fuses.bandgap) ∧
     (∀ m : BitVec 128, ∃ t, exec (.hkMinmax h m) s = .next t ∧ Keeps [.hk] s t ∧ Answers s t h 0x0C02 stOk [] ∧
       ∀ k, k < 128 → (t.dev.hk.ch.get {} k).value = (s.dev.hk.ch.get {} k).value ∧
         (t.dev.hk.ch.get {} k).max = if m.getLsbD k then none else (s.dev.hk.ch.get {} k).max))

/-! ### Serial flash (18_flash_port.md) -/

/-- The flash commands (R475, R482, R485): accepted, each takes the idle port; a write outside the host's regions is DENIED. -/
def Obligations.FlashCommands : Prop :=
  ∀ (s : State) (h : Hdr), Idle s h → s.dev.flash.op = none →
    (∀ a n : BitVec 32, a.toNat % 2 = 0 → 64 ≤ n.toNat → n.toNat ≤ 0x100000 → n.toNat % 64 = 0 →
      s.dev.flash.beyond a.toNat n.toNat = false →
      ∃ t o, exec (.flashRead h a n) s = .next t ∧ Keeps [.flash] s t ∧ Waits s t h 0x1000 ∧ t.dev.flash.op = some o ∧
        o.tag = some h.tag ∧ o.kind = .read ∧ o.addr = a.toNat ∧ o.len = n.toNat ∧ o.claiming = true) ∧
    (∀ (a : BitVec 32) (data : Bytes), hostWritable a.toNat data.length = true → a.toNat % 2 = 0 → data ≠ [] →
      s.dev.inS3 = false →
      ∃ t o, exec (.flashWrite h a data) s = .next t ∧ Keeps [.flash] s t ∧ Waits s t h 0x1001 ∧ t.dev.flash.op = some o ∧
        o.kind = .write ∧ o.addr = a.toNat ∧ o.data = data) ∧
    (∀ (a : BitVec 32) (data : Bytes), hostWritable a.toNat data.length = false →
      ∃ t, exec (.flashWrite h a data) s = .next t ∧ Keeps [] s t ∧ Answers s t h 0x1001 stDenied []) ∧
    (∀ a n : BitVec 32, hostWritable a.toNat n.toNat = true → a.toNat % 4096 = 0 → n.toNat % 4096 = 0 → n ≠ 0 →
      s.dev.inS3 = false →
      ∃ t o, exec (.flashErase h a n) s = .next t ∧ Keeps [.flash] s t ∧ Waits s t h 0x1002 ∧ t.dev.flash.op = some o ∧
        o.kind = .erase ∧ o.addr = a.toNat ∧ o.len = n.toNat) ∧
    (∃ t o, exec (.flashInfo h) s = .next t ∧ Keeps [.flash] s t ∧ Waits s t h 0x1003 ∧ t.dev.flash.op = some o ∧
      o.kind = .info) ∧
    (∀ (op : BitVec 8) (a : BitVec 32) (n : BitVec 16), op ∈ [0x05, 0x9F, 0x5A] → 2 ≤ n.toNat → n.toNat ≤ 256 →
      ∃ t o, exec (.flashXfer h op a n) s = .next t ∧ Keeps [.flash] s t ∧ Waits s t h 0x1004 ∧ t.dev.flash.op = some o ∧
        o.kind = .xfer ∧ o.opcode = op)

/-- The port's sequences (R477, R479, R481): the select is claimed 1 us after it went high; a collision backs off for
(position + 1) x 10 us; a busy status is polled; a bad word repeats the operation; an erase that ends frees the port.
The flash window (R480): 64 aligned bytes are read, a store opens the write-combining buffer, and 1 us later the buffer is
programmed. -/
def Obligations.FlashEvents : Prop :=
  (∀ (s : State) (n : Nat) (o : FlashOp), s.dev.flash.op = some o → s.dev.fc.inj = none →
     (s.dev.fc.perLine.get {} 43).last = none → (s.dev.log.queue.filter fun x => x.kind == 1).length < 16 →
     (o.claiming = true → o.backoff = false → o.since + usSteps ≤ (s.dev.advance n).mono →
       ∃ t, exec (.flashSelectClaim n true) s = .next t ∧ Keeps [.flash] s t ∧
         t.dev.flash.op = some { o with claiming := false, since := (s.dev.advance n).mono, waited := 0, issued := false }) ∧
     (o.claiming = false →
       (o.collisions < 2 → ∃ t, exec (.flashSelectCollision n) s = .next t ∧ Keeps [.flash, .fc] s t ∧
         t.dev.flash.collide = true ∧ t.dev.flash.collisions = s.dev.flash.collisions + 1 ∧
         t.dev.flash.op = some { o with collisions := o.collisions + 1, claiming := true, backoff := true, moved := 0,
                                        issued := false, since := (s.dev.advance n).mono }) ∧
       (o.badWords = 0 → ∃ t, exec (.flashBadWord n) s = .next t ∧ Keeps [.flash, .fc] s t ∧
         t.dev.flash.badWords = s.dev.flash.badWords + 1 ∧
         t.dev.flash.op = some { o with badWords := 1, claiming := true, moved := 0, issued := false,
                                        since := (s.dev.advance n).mono }) ∧
       (o.since + s.dev.flash.poll * usSteps ≤ (s.dev.advance n).mono →
         (∀ good w, w = o.waited + ((s.dev.advance n).mono - o.since) / usSteps → w ≤ o.limit →
           ∃ t, exec (.flashStatusPoll n true good) s = .next t ∧ Keeps [.flash] s t ∧
             t.dev.flash.op = some { o with waited := w, since := (s.dev.advance n).mono }) ∧
         (∀ good, o.issued = true → o.kind = .erase → o.tag = none → o.len ≤ o.moved + o.unit →
           ∃ t, exec (.flashStatusPoll n false good) s = .next t ∧ Keeps [.flash, .board] s t ∧
             t.dev.flash.op = (s.dev.flash.ops.head?.map fun x => { x with since := (s.dev.advance n).mono }) ∧
             (∀ a, a < o.addr + o.moved ∨ o.addr + o.moved + o.unit ≤ a →
               t.dev.board.bytes.get 0xFF a = s.dev.board.bytes.get 0xFF a) ∧
             ∀ a, o.addr + o.moved ≤ a → a < o.addr + o.moved + o.unit → t.dev.board.bytes.get 0xFF a = 0xFF))) ∧
     (o.backoff = true → o.since + (s.dev.tree.position.toNat + 1) * 10 * usSteps ≤ (s.dev.advance n).mono →
       ∃ t, exec (.flashCollisionRetry n) s = .next t ∧ Keeps [.flash] s t ∧
         t.dev.flash.op = some { o with backoff := false, since := (s.dev.advance n).mono })) ∧
  (∀ (s : State) (n : Nat), s.dev.flash.op = none →
     (∀ a : BitVec 32, a.toNat < windowSize → s.dev.flash.xbuf = none →
       ∃ t, exec (.xipRead n a) s = .next t ∧ Keeps [.flash] s t ∧
         t.dev.flash.xread = (List.range 64).map fun i => s.dev.board.byteAt s.dev.free (a.toNat / 64 * 64 + i)) ∧
     (∀ (a : BitVec 32) (v : BitVec 8), a.toNat < windowSize → s.dev.flash.xbuf = none →
       ∃ t, exec (.xipStore n a [v]) s = .next t ∧ Keeps [.flash] s t ∧
         t.dev.flash.xbuf = some { page := a.toNat / 256, off := a.toNat % 256, data := [v], since := (s.dev.advance n).mono }) ∧
     (∀ (b : XBuf) (v : BitVec 8), s.dev.flash.xbuf = some b → b.data = [v] → b.since + usSteps ≤ (s.dev.advance n).mono →
       ∃ t, exec (.xipBufferFlush n) s = .next t ∧ Keeps [.flash, .board] s t ∧ t.dev.flash.xbuf = none ∧
         ∀ a, t.dev.board.bytes.get 0xFF a =
           (if a = b.page * 256 + b.off then s.dev.board.bytes.get 0xFF a &&& v else s.dev.board.bytes.get 0xFF a)))

/-! ### Direct registers (20_register_map.md) -/

/-- Accesses to the direct registers of a device whose BAR0 exists (R362, R363, R502, R506, R509, R510, R512): reads latch their
high half, a bad access reads 0 and is noted, a write of 64 bits acts at once and one of two halves with its high half, W1C bits
that stood before the write's stamp clear and the others stay (R7), FC_INJECT takes a good word and refuses another, DECAF_REQ
needs its key, a test interrupt is sent, the log freezes. -/
def Obligations.DirectRegisters : Prop :=
  ∀ (s : State) (n : Nat), barUp s = true →
    (∃ t, exec (.tlNowRead n true) s = .next t ∧ Keeps [.regs] s t ∧
      t.dev.regs.readData = BitVec.ofNat 64 (s.dev.advance n).tl.now) ∧
    (∃ t, exec (.registerLowHalfRead n ⟨0x0018, false⟩) s = .next t ∧ Keeps [.regs] s t ∧
      t.dev.regs.readData = (s.dev.regs.scratch.setWidth 32).setWidth 64 ∧
      t.dev.regs.shadows.get 0 0x18 = (s.dev.regs.scratch >>> 32).setWidth 32) ∧
    (∃ t, exec (.registerLowHalfRead n ⟨0x001C, false⟩) s = .next t ∧ Keeps [.regs] s t ∧
      t.dev.regs.readData = (s.dev.regs.shadows.get 0 0x18).setWidth 64) ∧
    (∃ t, exec (.registerLowHalfRead n ⟨0x0018, true⟩) s = .next t ∧ Keeps [.regs] s t ∧
      t.dev.regs.readData = s.dev.regs.scratch) ∧
    (∃ t, exec (.registerLowHalfRead n ⟨0x0058, false⟩) s = .next t ∧ Keeps [.regs] s t ∧
      t.dev.regs.readData = s.dev.tl.epoch.setWidth 64) ∧
    (∀ off, ∃ t, exec (.badRegisterAccess n off) s = .next t ∧ Keeps [.regs] s t ∧ t.dev.regs.badAccess = true ∧
      t.dev.regs.readData = 0) ∧
    (∀ v : BitVec 64, ∃ t, exec (.registerWrite n 0x0018 true v) s = .next t ∧ Keeps [.regs] s t ∧
      t.dev.regs.setting = { s.dev.regs.setting with scratch := v }) ∧
    (∀ v : BitVec 64, s.dev.regs.staged.get none 0x18 = some (v.setWidth 32) →
      ∃ t, exec (.registerWrite n 0x001C false (v >>> 32)) s = .next t ∧ Keeps [.regs] s t ∧ t.dev.regs.scratch = v) ∧
    (∀ v : BitVec 64, s.dev.tl.running = true →
      (s.dev.tl.rewind = none → s.dev.tl.now < n →
        ∃ t, exec (.registerWrite n 0x0300 true v) s = .next t ∧ Keeps [.fc] s t ∧
          t.dev.fc.lines = s.dev.fc.lines &&& ~~~ (v.setWidth 48) ∧ t.dev.fc.perLine = s.dev.fc.perLine) ∧
      (n ≤ s.dev.tl.now → ∃ t, exec (.registerWrite n 0x0300 true v) s = .next t ∧ Keeps [.fc] s t ∧
        ∀ k, k < 48 → (s.dev.tl.before.get 0 0x10300).testBit k = false → t.dev.fc.lines.getLsbD k = s.dev.fc.lines.getLsbD k)) ∧
    (∀ word, injGood word = true → s.dev.fc.inj = none → s.dev.fc.decaf = none →
      ∃ t, exec (.fcInjectWrite n word) s = .next t ∧ Keeps [.regs, .fc] s t ∧ t.dev.regs.injWord = word ∧
        t.dev.fc.inj.map (·.word) = some word ∧ t.dev.fc.inj.bind (·.tag) = none) ∧
    (∀ word, injGood word = false →
      ∃ t, exec (.fcInjectWrite n word) s = .next t ∧ Keeps [.regs] s t ∧ t.dev.regs.refused = true) ∧
    (∀ v : BitVec 32, v >>> 16 ≠ 0xDECA → ∃ t, exec (.decafReqWrite n v) s = .next t ∧ Keeps [] s t) ∧
    (∀ v : BitVec 6, v ≠ 63 → s.dev.ctl.outbox = {} → s.dev.ctl.flights = [] → (s.dev.ctl.irqs.get {} v.toNat).masked = false →
      ∃ t, exec (.irqTestWrite n (1#64 <<< v.toNat)) s = .next t ∧ Keeps [] s t ∧ t.dev.regs.irqSummary.getLsbD v.toNat = true ∧
        (t.dev.ctl.irqs.get {} v.toNat).sent = (s.dev.ctl.irqs.get {} v.toNat).sent + 1) ∧
    (s.dev.log.freeze = false → ∃ t, exec (.logFreezeWrite n 1) s = .next t ∧ Keeps [.log] s t ∧ t.dev.log.freeze = true) ∧
    (s.dev.log.freeze = true → ∃ t, exec (.logFreezeWrite n 0) s = .next t ∧ Keeps [.log] s t ∧ t.dev.log.freeze = false) ∧
    (∀ v : BitVec 32, ∃ t, exec (.logIndexWrite n v) s = .next t ∧ Keeps [.regs] s t ∧ t.dev.regs.logIndex = v.setWidth 8)

/-! ### Pin channels (03_pin_channel.md) -/

/-- PIN.LEVELS on one level of a channel (R65, R68, R69, R72): a parked word acts at once and completes the command; another
code starts a ramp and the command waits for its end. -/
def Obligations.PinLevels : Prop :=
  ∀ (s : State) (h : Hdr) (ch l : Nat) (w : BitVec 32), Idle s h → ch < 512 → l < 7 → wordGood w = true →
    (s.dev.takenUp h 0x0200).levelsCheck [(l, w)] ch = none → ((s.dev.chan ch).level l).pend = none →
    ((s.dev.chan ch).level l).rampTag = none → w.extractLsb' 16 2 = ((s.dev.chan ch).level l).span →
    (w.getLsbD 15 = true →
      ∃ t, exec (.pinLevels h (1#512 <<< ch) (1#7 <<< l) [w]) s = .next t ∧ Keeps [.pins] s t ∧ Answers s t h 0x0200 stOk [] ∧
        ((t.dev.chan ch).level l).park = true ∧ ((t.dev.chan ch).level l).code = w.extractLsb' 0 14 ∧
        ∀ k, k ≠ ch → t.dev.chan k = s.dev.chan k) ∧
    (w.getLsbD 15 = false → ((s.dev.chan ch).level l).park = false → ((s.dev.chan ch).level l).applied ≠ w.extractLsb' 0 14 →
      ∃ t, exec (.pinLevels h (1#512 <<< ch) (1#7 <<< l) [w]) s = .next t ∧ Keeps [.pins] s t ∧ Waits s t h 0x0200 ∧
        ((t.dev.chan ch).level l).code = w.extractLsb' 0 14 ∧
        ((t.dev.chan ch).level l).applied = ((s.dev.chan ch).level l).applied ∧
        ((t.dev.chan ch).level l).ramp.isSome = true ∧ ∀ k, k ≠ ch → t.dev.chan k = s.dev.chan k)

/-- PIN.DRIVER and PIN.LOAD (R57, R61, R75, R85, R88, R124): a driver goes off at once, an enable that nothing stands against
takes effect on a channel without a thread, and without the supplies of the pin electronics an enable is DENIED.
The settings of channel sets (R61, R63, R69): a load is disabled, clamps are enabled where their levels allow it or
disabled, and limiters are set; a channel outside the set stays as it is. A load and VTT termination exclude each other (R62). -/
def Obligations.PinSettings : Prop :=
  (∀ (s : State) (h : Hdr) (ch : Nat), Idle s h → ch < 512 → s.dev.ownerOf ch = none →
     (∃ t, exec (.pinDriver h (1#512 <<< ch) 0 false) s = .next t ∧ Keeps [.pins] s t ∧ Answers s t h 0x0201 stOk [] ∧
       (t.dev.chan ch).drvMode = 0 ∧ (t.dev.chan ch).offMode = false ∧ (t.dev.chan ch).tripped = false ∧
       t.dev.ball ch = .hiZ ∧ ∀ k, k ≠ ch → t.dev.chan k = s.dev.chan k) ∧
     (∀ mode off, mode ≠ 0 → (s.dev.takenUp h 0x0201).driverCheck mode off ch = none → (s.dev.chan ch).shutting = false →
       ∃ t, exec (.pinDriver h (1#512 <<< ch) mode off) s = .next t ∧ Keeps [.pins] s t ∧ Answers s t h 0x0201 stOk [] ∧
         (t.dev.chan ch).drvMode = (if (s.dev.chan ch).noSlice then 0 else mode) ∧ (t.dev.chan ch).offMode = off ∧
         ((s.dev.chan ch).noSlice = false → (mode = 2 → t.dev.ball ch = .vih) ∧ (mode = 3 → t.dev.ball ch = .vil)) ∧
           ∀ k, k ≠ ch → t.dev.chan k = s.dev.chan k) ∧
     (∀ mode off, mode ≠ 0 → s.dev.hk.pe = false →
       ∃ t, exec (.pinDriver h (1#512 <<< ch) mode off) s = .next t ∧ Keeps [] s t ∧ Answers s t h 0x0201 stDenied []) ∧
     (∀ iol ioh, (s.dev.takenUp h 0x0202).loadCheck ch = none → (s.dev.chan ch).shutting = false →
       ∃ t, exec (.pinLoad h (1#512 <<< ch) true iol ioh) s = .next t ∧ Keeps [.pins] s t ∧ Answers s t h 0x0202 stOk [] ∧
         t.dev.chan ch = { s.dev.chan ch with loadEn := true, iol := iol, ioh := ioh } ∧
         ∀ k, k ≠ ch → t.dev.chan k = s.dev.chan k)) ∧
  (∀ (s : State) (h : Hdr) (chs : BitVec 512), Idle s h →
     (∀ iol ioh, ∃ t, exec (.pinLoad h chs false iol ioh) s = .next t ∧ Keeps [.pins] s t ∧ Answers s t h 0x0202 stOk [] ∧
       ∀ k, k < 512 → t.dev.chan k =
         if chs.getLsbD k then { s.dev.chan k with loadEn := false, iol := iol, ioh := ioh } else s.dev.chan k) ∧
     (∀ en, (en = true → s.dev.hk.pe = true) →
       (en = true → ∀ k, k < 512 → chs.getLsbD k = true → (s.dev.chan k).clampsNow = true ∧ clampsGood (s.dev.chan k) = true) →
       ∃ t, exec (.pinClamp h chs en) s = .next t ∧ Keeps [.pins] s t ∧ Answers s t h 0x0203 stOk [] ∧
         ∀ k, k < 512 → t.dev.chan k = if chs.getLsbD k then { s.dev.chan k with clampEn := en } else s.dev.chan k) ∧
     (∀ (mask : BitVec 7) (step interval : BitVec 16), 1 ≤ step.toNat → step.toNat ≤ 16383 →
       ∃ t, exec (.pinLimit h chs mask step interval) s = .next t ∧ Keeps [.pins] s t ∧ Answers s t h 0x0204 stOk [] ∧
         ∀ k l, k < 512 → l < 7 →
           (chs.getLsbD k = true → mask.getLsbD l = true → ((t.dev.chan k).level l).step = step.toNat ∧
             ((t.dev.chan k).level l).interval = interval.toNat ∧
             ((t.dev.chan k).level l).code = ((s.dev.chan k).level l).code) ∧
           (chs.getLsbD k = false ∨ mask.getLsbD l = false → (t.dev.chan k).level l = (s.dev.chan k).level l)) ∧
     (s.dev.hk.pe = true → ∀ ch, ch < 512 →
       (∀ iol ioh, (s.dev.chan ch).offMode = true →
         ∃ t, exec (.pinLoad h (1#512 <<< ch) true iol ioh) s = .next t ∧ Keeps [] s t ∧ Answers s t h 0x0202 stConflict []) ∧
       (∀ mode, (s.dev.chan ch).loadEn = true → (mode = 1 → (s.dev.chan ch).noSlice = false) →
         ∃ t, exec (.pinDriver h (1#512 <<< ch) mode true) s = .next t ∧ Keeps [] s t ∧ Answers s t h 0x0201 stConflict [])))

/-- The monitor comparator and what a channel reports (R77 to R79, R81, R84, R88): PIN.MON sets one channel's monitor alone,
PIN.MON_READ answers and clears the count of suppressed events, PIN.STATE answers 34 values, the first sample of an enabled
monitor decides UNRESOLVED, and samples follow one sample period of its mode apart. -/
def Obligations.PinMonitor : Prop :=
  ∀ (s : State) (h : Hdr) (ch : BitVec 9), Idle s h →
    (∀ en lo hi hyst mode n m action states, (en = true → s.dev.hk.pe = true) →
      2 * halfHyst hyst ≤ monLevel hi - monLevel lo → m ≠ 0 → m.toNat < 2 * n.toNat → n ≤ m → action ≠ 3 →
      ∃ t, exec (.pinMon h (1#512 <<< ch.toNat) en lo hi hyst mode n m action states) s = .next t ∧ Keeps [.pins] s t ∧
        Answers s t h 0x0205 stOk [] ∧ (t.dev.chan ch.toNat).mon.en = en ∧ (t.dev.chan ch.toNat).mon.lo = lo ∧
        (t.dev.chan ch.toNat).mon.hi = hi ∧ (t.dev.chan ch.toNat).mon.hyst = hyst ∧ (t.dev.chan ch.toNat).mon.mode = mode ∧
        (t.dev.chan ch.toNat).mon.n = n ∧ (t.dev.chan ch.toNat).mon.m = m ∧ (t.dev.chan ch.toNat).mon.action = action ∧
        (t.dev.chan ch.toNat).mon.states = states ∧ ∀ k, k ≠ ch.toNat → t.dev.chan k = s.dev.chan k) ∧
    (∃ t r, exec (.pinMonRead h (1#512 <<< ch.toNat)) s = .next t ∧ Keeps [.pins] s t ∧ Answers s t h 0x0206 stOk r ∧
      r.length = 4 ∧ r.head? = some ((s.dev.chan ch.toNat).mon.filt.toNat : Int) ∧
      r.getLast? = some ((s.dev.chan ch.toNat).mon.suppressed : Int) ∧
      (t.dev.chan ch.toNat).mon = { (s.dev.chan ch.toNat).mon with suppressed := 0 }) ∧
    (∃ t r, exec (.pinState h (1#512 <<< ch.toNat)) s = .next t ∧ Keeps [] s t ∧ Answers s t h 0x0207 stOk r ∧ r.length = 34 ∧
      r.head? = some ((s.dev.chan ch.toNat).drvMode.toNat : Int)) ∧
    (∀ n nv z, (s.dev.chan ch.toNat).mon.en = true → (s.dev.chan ch.toNat).mon.starting = false → s.dev.hk.pe = true →
      (s.dev.chan ch.toNat).mon.action ≠ 2 → (s.dev.chan ch.toNat).mon.next = some z → s.dev.tl.rewind = none →
      ∃ t, exec (.monitorSample n ch nv) s = .next t ∧
        (t.dev.chan ch.toNat).mon.next = some (t.dev.mono + monPeriod (s.dev.chan ch.toNat).mon.mode)) ∧
    (∀ n nv, (s.dev.chan ch.toNat).mon.en = true → (s.dev.chan ch.toNat).mon.starting = true → s.dev.hk.pe = true →
      (s.dev.chan ch.toNat).mon.next = none →
      ∃ t, exec (.monitorSample n ch nv) s = .next t ∧ Keeps [.pins] s t ∧ (t.dev.chan ch.toNat).mon.starting = false ∧
        (t.dev.chan ch.toNat).mon.unresolved = (s.dev.chan ch.toNat).mon.inBand (nv * 1023))

/-- PIN.PARK on a channel that no thread owns and whose PMU rests (R73, R76): driver and load off, the levels of driver and
comparators parked, and the command is complete.
Events of a channel (R69, R70, R86, R88): a ramp without an interval arrives, a driver setting takes effect at the end of its
vector, a pending level at the instant that it waits for, and a queued enable is carried out once its shut-down has ended. -/
def Obligations.PinEvents : Prop :=
  (∀ (s : State) (h : Hdr) (ch : Nat), Idle s h → ch < 512 → s.dev.ownerOf ch = none → (s.dev.chan ch).drvPend = none →
     (∀ l, l < 7 → ((s.dev.chan ch).level l).pend = none ∧ ((s.dev.chan ch).level l).rampTag = none) →
     (s.dev.pmu ch).wave = none → (s.dev.pmu ch).meas = none → (s.dev.pmu ch).seq = none → (s.dev.pmu ch).closed = false →
     (s.dev.pmu ch).applied.toNat = safeOf (s.dev.pmu ch).forceMode →
     ∃ t, exec (.pinPark h (1#512 <<< ch)) s = .next t ∧ Answers s t h 0x0208 stOk [] ∧ (t.dev.chan ch).drvMode = 0 ∧
       (t.dev.chan ch).offMode = false ∧ (t.dev.chan ch).loadEn = false ∧ t.dev.ball ch = .hiZ ∧
       (∀ l, l < 5 → ((t.dev.chan ch).level l).park = true) ∧ ∀ k, k ≠ ch → t.dev.chan k = s.dev.chan k) ∧
  (∀ (s : State) (n : Nat) (ch : BitVec 9),
     (∀ (l : BitVec 3) t0, l.toNat < 7 → s.dev.tl.rewind = none → ((s.dev.chan ch.toNat).level l.toNat).ramp = some t0 →
       ((s.dev.chan ch.toNat).level l.toNat).interval = 0 →
       ∃ t, exec (.levelRampMove ch l) s = .next t ∧ Keeps [.pins] s t ∧
         ((t.dev.chan ch.toNat).level l.toNat).applied = ((s.dev.chan ch.toNat).level l.toNat).code ∧
         ((t.dev.chan ch.toNat).level l.toNat).ramp = none) ∧
     (∀ p, (s.dev.chan ch.toNat).drvPend = some p → p.stamp ≤ n → s.dev.tl.rewind = none → (s.dev.chan ch.toNat).noSlice = false →
       ∃ t, exec (.pendingValuesEffect n (.channel ch)) s = .next t ∧ Keeps [.pins] s t ∧ (t.dev.chan ch.toNat).drvMode = p.mode ∧
         (t.dev.chan ch.toNat).offMode = p.off ∧ (t.dev.chan ch.toNat).drvPend = none) ∧
     (∀ l p a, l < 7 → (s.dev.chan ch.toNat).drvPend = none → (s.dev.chan ch.toNat).pendAt = some a → a ≤ n →
       s.dev.tl.rewind = none →
       ((s.dev.chan ch.toNat).level l).pend = some p →
       ∃ t, exec (.pendingValuesEffect n (.channel ch)) s = .next t ∧ Keeps [.pins] s t ∧ t.dev.tl.now = (s.dev.advance a).tl.now ∧
         ((t.dev.chan ch.toNat).level l).code = p.code ∧ ((t.dev.chan ch.toNat).level l).applied = p.code ∧
         ((t.dev.chan ch.toNat).level l).park = p.park ∧ ((t.dev.chan ch.toNat).level l).span = p.span ∧
         ((t.dev.chan ch.toNat).level l).pend = none) ∧
     (∀ iol ioh tag j, (s.dev.chan ch.toNat).shutting = false → (s.dev.chan ch.toNat).queuedCmds = [.load iol ioh tag] →
       (s.dev.pmu ch.toNat).queued = [] → s.dev.job tag = some j → j.left = 1#512 <<< ch.toNat →
       s.dev.loadCheck ch.toNat = none →
       ∃ t, exec (.queuedEnableRelease n ch) s = .next t ∧ Keeps [.pins] s t ∧ (t.dev.chan ch.toNat).loadEn = true ∧
         (t.dev.chan ch.toNat).iol = iol ∧ (t.dev.chan ch.toNat).ioh = ioh ∧ (t.dev.chan ch.toNat).queuedCmds = []))

/-! ### Per-pin PMUs (04_pmu_and_force.md) -/

/-- The PMU commands that plan a change (R93, R98, R101, R107, R115): accepted with a scheduled action, and waiting for its
stamp. -/
def Obligations.PmuPlans : Prop :=
  ∀ (s : State) (h : Hdr) (ch : Nat) (w : When) e st late, Idle s h → ch < 512 →
    (s.dev.advance h.t).schedule w clk false = .ok (e, st, late) → (s.dev.chan ch).shutting = false →
    (∀ (mode : BitVec 2) (range : BitVec 3) (lo hi : BitVec 16), (forcing mode = true → (s.dev.chan ch).pmuFail = false) →
      (s.dev.takenUp h 0x0300).changeCheck { mode := mode, range := range, lo := lo, hi := hi } ch = none →
      range.toNat ≤ 4 → lo.toNat + 1639 ≤ hi.toNat →
      ∃ t, exec (.pmuConfig h (1#512 <<< ch) w mode range lo hi) s = .next t ∧ Keeps [.pins, .tl] s t ∧ Waits s t h 0x0300 ∧
        (t.dev.pmu ch).sched = (s.dev.pmu ch).sched ++
          [{ tag := some h.tag, stamp := st, epoch := e, mode := mode, range := range, lo := lo, hi := hi }] ∧
        t.dev.tl.acts = s.dev.tl.acts ++ [{ tag := h.tag, kind := .pmuSeq, epoch := e, stamp := st }]) ∧
    (∀ on, (s.dev.chan ch).swFail = false → (s.dev.takenUp h 0x0301).changeCheck { conn := some on } ch = none →
      (on = true → s.dev.inFullRun ch = false) →
      ∃ t, exec (.pmuConnect h (1#512 <<< ch) w on) s = .next t ∧ Keeps [.pins, .tl] s t ∧ Waits s t h 0x0301 ∧
        (t.dev.pmu ch).sched = (s.dev.pmu ch).sched ++ [{ tag := some h.tag, stamp := st, epoch := e, conn := some on }]) ∧
    (∀ word : BitVec 32, word.extractLsb' 17 15 = 0 →
      ∃ t, exec (.pmuForce h (1#512 <<< ch) w word) s = .next t ∧ Keeps [.pins, .tl] s t ∧ Waits s t h 0x0302 ∧
        (t.dev.pmu ch).forceSched = (s.dev.pmu ch).forceSched ++ [(h.tag, word, st)]) ∧
    (∀ (avg : BitVec 8) (count : BitVec 16) bank ring, avg.toNat ≤ 16 → count ≠ 0 →
      (s.dev.pmu ch).drvi = true ∨ (s.dev.pmu ch).closed = true ∧ (s.dev.pmu ch).mode ≠ 0 → (s.dev.pmu ch).wave = none →
      (s.dev.pmu ch).meas = none →
      ∃ t, exec (.pmuMeasure h (1#512 <<< ch) w avg count false bank ring) s = .next t ∧ Keeps [.pins, .tl] s t ∧
        Waits s t h 0x0304 ∧ (t.dev.pmu ch).meas =
          some { tag := h.tag, start := st, k := avg.toNat, left := count.toNat, epoch := e }) ∧
    (∀ start, ((s.dev.bank (bankOf ch)).waveLast 2048 start).isSome = true → (s.dev.pmu ch).closed = true →
      forcing (s.dev.pmu ch).mode = true → (s.dev.pmu ch).meas = none → (s.dev.pmu ch).wave = none →
      (s.dev.pmu ch).drvi = false →
      ∃ t, exec (.pmuWaveRun h (1#512 <<< ch) start (.stamp w)) s = .next t ∧ Keeps [.pins, .tl] s t ∧ Waits s t h 0x0306 ∧
        (t.dev.pmu ch).wave = some { tag := h.tag, first := start, idx := start, next := st })

/-- The PMU commands that act at once (R96, R112, R113, R115, R117, R118, R120): PMU.LIMIT sets the limiter, PMU.WAVE_LOAD writes
entries or completes LOCKED where a waveform uses one, PMU.WAVE_RUN binds a waveform to a segment, PMU.WAVE_STOP stops one and
leaves the DAC at the code applied, PMU.DRVI switches, and PMU.STATE reports. -/
def Obligations.PmuSettings : Prop :=
  ∀ (s : State) (h : Hdr) (ch : Nat), Idle s h → ch < 512 →
    (∀ step interval : BitVec 16, step ≠ 0 → (s.dev.pmu ch).seq = none →
      ∃ t, exec (.pmuLimit h (1#512 <<< ch) step interval) s = .next t ∧ Keeps [.pins] s t ∧ Answers s t h 0x0303 stOk [] ∧
        (t.dev.pmu ch).step = step.toNat ∧ (t.dev.pmu ch).interval = interval.toNat ∧
        (t.dev.pmu ch).applied = (s.dev.pmu ch).applied) ∧
    (∀ (bank : BitVec 4) first entries, first + entries.length ≤ 2048 → entries.all waveGood = true →
      (∀ i, s.dev.waveLocked bank.toNat i = false) →
      ∃ t, exec (.pmuWaveLoad h bank first entries) s = .next t ∧ Keeps [.banks] s t ∧ Answers s t h 0x0305 stOk [] ∧
        ∀ i, (t.dev.bank bank.toNat).wave.get 0 i =
          if first ≤ i ∧ i < first + entries.length then entries.getD (i - first) 0
          else (s.dev.bank bank.toNat).wave.get 0 i) ∧
    (∀ (bank : BitVec 4) first (entries : List (BitVec 64)) i, first + entries.length ≤ 2048 → entries.all waveGood = true →
      first ≤ i → i < first + entries.length → s.dev.waveLocked bank.toNat i = true →
      ∃ t, exec (.pmuWaveLoad h bank first entries) s = .next t ∧ Keeps [] s t ∧ Answers s t h 0x0305 stLocked []) ∧
    (∀ start sg, ((s.dev.bank (bankOf ch)).waveLast 2048 start).isSome = true → (s.dev.pmu ch).closed = true →
      forcing (s.dev.pmu ch).mode = true → (s.dev.ownerOf ch).isSome = true → (s.dev.pmu ch).meas = none →
      (s.dev.pmu ch).wave = none → (s.dev.pmu ch).drvi = false →
      ∃ t, exec (.pmuWaveRun h (1#512 <<< ch) start (.segment sg)) s = .next t ∧ Keeps [.pins] s t ∧ Waits s t h 0x0306 ∧
        (t.dev.pmu ch).wave = some { tag := h.tag, first := start, idx := start, bind := some sg }) ∧
    (∀ w, (s.dev.pmu ch).wave = some w → (s.dev.pmu ch).meas = none →
      ∃ t, exec (.pmuWaveStop h (1#512 <<< ch)) s = .next t ∧ Keeps [.pins, .tl] s t ∧ Answers s t h 0x0307 stOk [] ∧
        (t.dev.pmu ch).wave = none ∧ (t.dev.pmu ch).applied = (s.dev.pmu ch).applied) ∧
    ((s.dev.pmu ch).wave = none → ∃ t, exec (.pmuWaveStop h (1#512 <<< ch)) s = .next t ∧ Keeps [] s t ∧
      Answers s t h 0x0307 stBadarg []) ∧
    (∀ range : BitVec 3, (s.dev.pmu ch).meas = none → (s.dev.pmu ch).wave = none →
      ∃ t, exec (.pmuDrvi h (1#512 <<< ch) false range) s = .next t ∧
        if 2 ≤ range.toNat ∧ range.toNat ≤ 4 then Keeps [.pins] s t ∧ Answers s t h 0x0308 stOk [] ∧
          (t.dev.pmu ch) = { s.dev.pmu ch with drvi := false }
        else Keeps [] s t ∧ Answers s t h 0x0308 stBadarg []) ∧
    (∀ range, (s.dev.takenUp h 0x0308).drviCheck range ch = none → (s.dev.chan ch).shutting = false →
      ∃ t, exec (.pmuDrvi h (1#512 <<< ch) true range) s = .next t ∧ Keeps [.pins] s t ∧ Answers s t h 0x0308 stOk [] ∧
        t.dev.pmu ch = { s.dev.pmu ch with drvi := true, drviRange := range }) ∧
    (∃ t r, exec (.pmuState h (1#512 <<< ch)) s = .next t ∧ Keeps [] s t ∧ Answers s t h 0x0309 stOk r ∧ r.length = 14 ∧
      r.head? = some ((s.dev.pmu ch).mode.toNat : Int))

/-- The events of the safe-value sequence, of a force and of a ramp (R96, R98, R99).
The events of measurements and waveforms (R106 to R108, R114, R116): the first sample, a sample that does not end its result,
and the end of a waveform after its LAST entry. -/
def Obligations.PmuEvents : Prop :=
  (∀ (s : State) (ch : BitVec 9), s.dev.tl.rewind = none →
     (∀ c g, (s.dev.pmu ch.toNat).sched = [c] → c.epoch = s.dev.tl.epoch → c.tag = some g → c.conn = some false →
       (∀ k, k ≠ ch.toNat → c ∉ (s.dev.pmu k).sched) → (s.dev.pmu ch.toNat).seq = none → (s.dev.pmu ch.toNat).closed = false →
       (s.dev.pmu ch.toNat).applied.toNat = safeOf (s.dev.pmu ch.toNat).forceMode →
       ∃ t q, exec (.pmuSequenceStart ch) s = .next t ∧ Keeps [.pins, .tl] s t ∧ (t.dev.pmu ch.toNat).sched = [] ∧
         (t.dev.pmu ch.toNat).seq = some q ∧ q.step = .c ∧ q.change.conn = some false ∧
         q.ends = clockOf c.stamp + 2 * usSteps) ∧
     (∀ q, (s.dev.pmu ch.toNat).seq = some q → q.step = .c → q.change.conn = some false →
       ∃ t, exec (.pmuSequenceStepEnd ch) s = .next t ∧ Keeps [.pins] s t ∧ (t.dev.pmu ch.toNat).seq = none ∧
         (t.dev.pmu ch.toNat).closed = false ∧ (t.dev.pmu ch.toNat).mode = q.change.mode ∧
         (t.dev.pmu ch.toNat).range = q.change.range) ∧
     (∀ t0, (s.dev.pmu ch.toNat).ramp = some t0 → (s.dev.pmu ch.toNat).seq = none → (s.dev.pmu ch.toNat).interval = 0 →
       ∃ t, exec (.forceRampMove ch) s = .next t ∧ Keeps [.pins] s t ∧ (t.dev.pmu ch.toNat).ramp = none ∧
         (t.dev.pmu ch.toNat).applied.toNat = (s.dev.pmu ch.toNat).target (s.dev.pmu ch.toNat).mode) ∧
     (∀ tag word st, (s.dev.pmu ch.toNat).forceSched = [(tag, word, st)] → s.dev.tl.acts = [] → word.getLsbD 16 = false →
       (s.dev.pmu ch.toNat).seq = none → (s.dev.pmu ch.toNat).mode = 1 → (s.dev.pmu ch.toNat).interval = 0 →
       ∃ t, exec (.pmuForceEffect ch) s = .next t ∧ Keeps [.pins] s t ∧ (t.dev.pmu ch.toNat).forceSched = [] ∧
         (t.dev.pmu ch.toNat).vTarget = word.extractLsb' 0 16 ∧ (t.dev.pmu ch.toNat).forceTag = some tag ∧
         (t.dev.pmu ch.toNat).ramp = some (clockOf st : Int))) ∧
  (∀ (s : State) (ch : BitVec 9), s.dev.tl.rewind = none →
     (∀ m, (s.dev.pmu ch.toNat).meas = some m → m.began = false → m.epoch = s.dev.tl.epoch → m.wave = true →
       ∃ t x, exec (.pmuMeasureStart ch) s = .next t ∧ Keeps [.pins] s t ∧ (t.dev.pmu ch.toNat).meas = some x ∧ x.began = true ∧
         x.first = m.start ∧ x.tag = m.tag ∧ x.acc = m.acc) ∧
     (∀ m smp ovr comp, (s.dev.pmu ch.toNat).meas = some m → m.began = true → m.ring = none → m.n + 1 < 2 ^ m.k →
       ∃ t x, exec (.pmuAdcSample ch smp ovr comp) s = .next t ∧ Keeps [.pins] s t ∧ (t.dev.pmu ch.toNat).meas = some x ∧
         x.n = m.n + 1 ∧ x.acc = m.acc + clip 16 smp ∧ x.start = m.start + 400 * clk ∧
         (x.ovr = true ↔ m.ovr = true ∨ ovr = true ∨ clip 16 smp = 32767 ∨ clip 16 smp = -32768)) ∧
     (∀ w, (s.dev.pmu ch.toNat).wave = some w → w.bind = none → (s.dev.pmu ch.toNat).meas = none → s.dev.tl.acts = [] →
       w.running = true → ((s.dev.bank (bankOf ch.toNat)).wave.get 0 w.idx).getLsbD 46 = true →
       ∃ t, exec (.waveStepStart ch) s = .next t ∧ Keeps [.pins] s t ∧ (t.dev.pmu ch.toNat).wave = none))

/-! ### Timing and TDCs (05_edges_and_tdc.md) -/

/-- The timing commands (R126, R127, R130, R132, R135, R149, R153): values in their ranges are pending, and the command waits
for their effect point; TIM.MAP reports and clears the SQUEEZE counts. -/
def Obligations.TimingCommands : Prop :=
  ∀ (s : State) (h : Hdr), Idle s h →
    (∀ (th : BitVec 6) (k : BitVec 8) (p : BitVec 32), s.dev.notLead th.toNat = true →
      ∃ t, exec (.timPeriod h th k p) s = .next t ∧ Keeps [] s t ∧ Answers s t h 0x0400 stBadarg []) ∧
    (∀ (th : BitVec 6) (k : BitVec 8) (p : BitVec 32), s.dev.notLead th.toNat = false → k.toNat ≤ 15 → 32 ≤ p.toNat →
      p.toNat ≤ 1048575 →
      (∀ ch ∈ s.dev.siteChans th.toNat, edgeGood ((s.dev.chan ch).futureEdges k.toNat) p.toNat = true ∧
        (s.dev.chan ch).shortest (s.dev.chan ch).drvMode (s.dev.chan ch).offMode ≤ p.toNat) →
      (s.dev.thread th.toNat).periodPend.get none k.toNat = none →
      ∃ t, exec (.timPeriod h th k p) s = .next t ∧ Keeps [.seq] s t ∧ Waits s t h 0x0400 ∧
        (t.dev.thread th.toNat).periodPend.get none k.toNat = some (p.toNat, h.tag) ∧
        (t.dev.thread th.toNat).periods = (s.dev.thread th.toNat).periods) ∧
    (∀ ch (k : BitVec 8) (e : BitVec 128), ch < 512 → (s.dev.chan ch).noSlice = false → k.toNat ≤ 15 →
      (s.dev.ownerOf ch = none → edgeOrderGood e = true) →
      (∀ o, s.dev.ownerOf ch = some o → edgeGood e ((s.dev.thread (s.dev.leadOf o)).futurePeriod k.toNat) = true ∧
        ∀ i ∈ s.dev.siteChans (s.dev.leadOf o), (s.dev.chan i).shortest (s.dev.chan i).drvMode (s.dev.chan i).offMode ≤
          (s.dev.thread (s.dev.leadOf o)).futurePeriod k.toNat) →
      (s.dev.chan ch).edgePend.get none k.toNat = none →
      ∃ t, exec (.timEdges h (1#512 <<< ch) k e) s = .next t ∧ Keeps [.pins] s t ∧ Waits s t h 0x0401 ∧
        (t.dev.chan ch).edgePend.get none k.toNat = some (e, h.tag) ∧ (t.dev.chan ch).edges = (s.dev.chan ch).edges ∧
        ∀ j, j ≠ ch → t.dev.chan j = s.dev.chan j) ∧
    (∀ ch (drv cmp : BitVec 16), ch < 512 → (s.dev.chan ch).noSlice = false → -2048 ≤ drv.toInt → drv.toInt ≤ 2047 →
      -2048 ≤ cmp.toInt → cmp.toInt ≤ 2047 → (s.dev.chan ch).drvDeskewPend = none → (s.dev.chan ch).cmpDeskewPend = none →
      ∃ t, exec (.timDeskew h (1#512 <<< ch) drv cmp) s = .next t ∧ Keeps [.pins] s t ∧ Waits s t h 0x0402 ∧
        (t.dev.chan ch).drvDeskewPend = some (drv.toInt, h.tag) ∧ (t.dev.chan ch).cmpDeskewPend = some (cmp.toInt, h.tag) ∧
        (t.dev.chan ch).drvDeskew = (s.dev.chan ch).drvDeskew ∧ (t.dev.chan ch).cmpDeskew = (s.dev.chan ch).cmpDeskew ∧
        ∀ j, j ≠ ch → t.dev.chan j = s.dev.chan j) ∧
    (∀ b : BitVec 4, ∃ t r, exec (.timMap h b) s = .next t ∧ Keeps [.pins] s t ∧ Answers s t h 0x0403 stOk r ∧ r.length = 166 ∧
      ∀ k, k < 32 → (t.dev.chan (32 * b.toNat + k)).squeeze = 0)

/-- The TDC commands (R137 to R139, R141, R142, R146, R147, R149): a measurement is armed on a free TDC, one that a command owns
is stopped, and the state of a bank's TDCs is reported.
The events of a TDC that a command owns (R139, R141, R143): its window opens, an accepted edge of an INTERVAL measurement is
its START or its STOP, an edge within 2.5 ns of the last is rejected, and a window with more repeats to come closes. -/
def Obligations.Tdcs : Prop :=
  (∀ (s : State) (h : Hdr) (b : BitVec 4) (k : BitVec 6), Idle s h →
     (∀ (mode : BitVec 2) (src0 : BitVec 4) (ch0 : BitVec 9) (src : BitVec 4) (ch : BitVec 9) w openAt close rep n count e st o,
       s.dev.tdcExists b.toNat k.toNat = true → (s.dev.tdc b.toNat k.toNat).owner = .none → mode ≠ 3 → src0.toNat ≤ 4 →
       (mode = 1 → src0 ≠ 4 → bankOf ch0.toNat = b.toNat ∧ (s.dev.chan ch0.toNat).noSlice = false) →
       src.toNat ≤ 3 → bankOf ch.toNat = b.toNat → (s.dev.chan ch.toNat).noSlice = false → (mode = 1 → n ≤ 16) →
       (mode = 2 → n ≤ 8) → (mode ≠ 1 → 1 ≤ count ∧ count ≤ 65535) →
       (s.dev.lineNeeds b.toNat k.toNat (if mode = 1 ∧ src0 ≠ 4 then src0.toNat else 4) ch0.toNat ch.toNat).length ≤
         (s.dev.freeLines b.toNat).length →
       (s.dev.advance h.t).schedule w 1 true = .ok (e, st, false) → o = (if mode = 1 ∧ src0 = 4 then openAt else st) →
       st ≤ o → o < close → close - o ≤ 2 ^ 40 → (mode = 1 → close - st + 128 ≤ rep) →
       ∃ t, exec (.tdcArm h b k mode src0 ch0 src ch w openAt close rep n count) s = .next t ∧ Keeps [.banks, .tl] s t ∧
         Waits s t h 0x0404 ∧ (t.dev.tdc b.toNat k.toNat).owner = .arm h.tag ∧ (t.dev.tdc b.toNat k.toNat).mode = mode ∧
         (t.dev.tdc b.toNat k.toNat).startAt = st ∧ (t.dev.tdc b.toNat k.toNat).openAt = o ∧
         (t.dev.tdc b.toNat k.toNat).closeAt = close ∧ (t.dev.tdc b.toNat k.toNat).count = count ∧
         (t.dev.tdc b.toNat k.toNat).rep = rep ∧ (t.dev.tdc b.toNat k.toNat).k = (if mode = 0 then 0 else n) ∧
         t.dev.tl.acts = s.dev.tl.acts ++ [{ tag := h.tag, kind := .tdc, epoch := e, stamp := st }]) ∧
     (∀ tag, (s.dev.tdc b.toNat k.toNat).owner = .arm tag → tag ≠ h.tag →
       ∃ t, exec (.tdcStop h b k) s = .next t ∧ Answers s t h 0x0405 stOk [] ∧ t.dev.tdc b.toNat k.toNat = {}) ∧
     ((s.dev.tdc b.toNat k.toNat).owner = .none →
       ∃ t, exec (.tdcStop h b k) s = .next t ∧ Keeps [] s t ∧ Answers s t h 0x0405 stBadarg []) ∧
     (∃ t r, exec (.tdcState h b) s = .next t ∧ Keeps [] s t ∧ Answers s t h 0x0406 stOk r ∧ r.length = 144)) ∧
  (∀ (s : State) (b : BitVec 4) (k : BitVec 6) (tag : BitVec 12) (x : Tdc), s.dev.tl.rewind = none →
     s.dev.tdc b.toNat k.toNat = x → x.owner = .arm tag → x.epoch = s.dev.tl.epoch →
     (x.isOpen = false →
       ∃ t, exec (.tdcWindowOpen b k) s = .next t ∧ Keeps [.banks, .tl] s t ∧ (t.dev.tdc b.toNat k.toNat).isOpen = true ∧
         (t.dev.tdc b.toNat k.toNat).start = none ∧ (t.dev.tdc b.toNat k.toNat).stop = none) ∧
     (∀ n, x.isOpen = true → x.mode = 1 → x.openAt + x.i * x.rep ≤ n → n < x.closeAt + x.i * x.rep →
       (x.startSrc ≠ 4 → x.lastStart = none → x.start = none →
         ∃ t, exec (.tdcEdge b k false n) s = .next t ∧ Keeps [.banks] s t ∧ (t.dev.tdc b.toNat k.toNat).start = some n ∧
           (t.dev.tdc b.toNat k.toNat).lastStart = some n ∧ (t.dev.tdc b.toNat k.toNat).stop = x.stop) ∧
       (x.startSrc = 4 → x.lastStop = none → x.stop = none →
         ∃ t, exec (.tdcEdge b k true n) s = .next t ∧ Keeps [.banks] s t ∧ (t.dev.tdc b.toNat k.toNat).stop = some n ∧
           (t.dev.tdc b.toNat k.toNat).lastStop = some n) ∧
       (∀ z, x.lastStop = some z → n < z + 256 →
         ∃ t, exec (.tdcEdge b k true n) s = .next t ∧ Keeps [.banks, .pins] s t ∧ (t.dev.tdc b.toNat k.toNat).missed = true ∧
           (t.dev.tdc b.toNat k.toNat).stop = x.stop ∧
           t.dev.pins.tdcMissed = min (2 ^ 32 - 1) (s.dev.pins.tdcMissed + 1))) ∧
     (x.isOpen = true → x.mode = 1 → x.i + 1 < 2 ^ x.k →
       ∃ t, exec (.tdcWindowClose b k) s = .next t ∧ Keeps [.banks] s t ∧ (t.dev.tdc b.toNat k.toNat).isOpen = false ∧
         (t.dev.tdc b.toNat k.toNat).i = x.i + 1 ∧ (t.dev.tdc b.toNat k.toNat).sum = x.settle.sum ∧
         (t.dev.tdc b.toNat k.toNat).c = x.settle.c))

/-! ### Sequencer (06_sequencer.md) -/

/-- The configuration of idle threads (R17, R18, R153, R157, R163, R165, R185): SEQ.ASSIGN gives lane groups that no other
thread of the bank has and empties the dictionary, SEQ.LINK joins threads of consecutive banks, SEQ.SEGLOAD and SEQ.DICT write
descriptors and dictionary entries, SEQ.TRIGOUT sets owners of TRIG_OUT balls, and SEQ.STATUS reports. -/
def Obligations.SequencerSetup : Prop :=
  ∀ (s : State) (h : Hdr) (th : BitVec 6), Idle s h → s.dev.alone th.toNat → (s.dev.thread th.toNat).st = .idle →
    (∀ g : BitVec 4, (∀ k, k < 4 → 4 * (th.toNat / 4) + k ≠ th.toNat →
        (s.dev.thread (4 * (th.toNat / 4) + k)).groups &&& g = 0) →
      ∃ t, exec (.seqAssign h th g) s = .next t ∧ Keeps [.seq] s t ∧ Answers s t h 0x0500 stOk [] ∧
        t.dev.thread th.toNat = { s.dev.thread th.toNat with groups := g, dict := .empty, depth := s.dev.pat.depthDefault } ∧
        ∀ k, k ≠ th.toNat → t.dev.thread k = s.dev.thread k) ∧
    (∀ n : BitVec 8, 1 ≤ n.toNat → n.toNat ≤ 4 → th.toNat / 4 + n.toNat ≤ 16 →
      (∀ k, k < n.toNat → (s.dev.thread (th.toNat + 4 * k)).lead = none ∧ (s.dev.thread (th.toNat + 4 * k)).st = .idle) →
      ∃ t, exec (.seqLink h th n) s = .next t ∧ Keeps [.seq] s t ∧ Answers s t h 0x0501 stOk [] ∧
        (t.dev.thread th.toNat).members = n.toNat ∧
        ∀ k, k < n.toNat → (t.dev.thread (th.toNat + 4 * k)).lead = if n = 1 then none else some th) ∧
    (∀ first descs, descs ≠ [] → first + descs.length ≤ 4096 → (∀ w ∈ descs, w.toNat / 2 ^ 80 = 0 ∧ descTrigEn w.toNat = false) →
      ∃ t, exec (.seqSegload h th first descs) s = .next t ∧ Keeps [.seq] s t ∧ Answers s t h 0x0502 stOk [] ∧
        ∀ i, (t.dev.thread th.toNat).descs.get 0 i =
          if first ≤ i ∧ i < first + descs.length then descs.getD (i - first) 0 else (s.dev.thread th.toNat).descs.get 0 i) ∧
    (∀ first (e : BitVec 128) n, first < 256 → (s.dev.chansOf th.toNat).length = n → (∀ k, k < n → nib e.toNat k ≤ 7) →
      e.toNat / 2 ^ (4 * n) = 0 →
      ∃ t, exec (.seqDict h th first [e]) s = .next t ∧ Keeps [.seq] s t ∧ Answers s t h 0x0503 stOk [] ∧
        (t.dev.thread th.toNat).dict.get maskEntry first = e ||| (maskEntry - maskEntry % BitVec.ofNat 128 (2 ^ (4 * n)))) ∧
    (∀ m : BitVec 4, (∀ k, k < 4 → (s.dev.seq.trig.get {} k).owner = none) →
      ∃ t, exec (.seqTrigout h th m 0) s = .next t ∧ Keeps [.seq] s t ∧ Answers s t h 0x0504 stOk [] ∧
        ∀ k, k < 4 → (t.dev.seq.trig.get {} k).owner = if m.getLsbD k then some th else none) ∧
    (∃ t r, exec (.seqStatus h th) s = .next t ∧ Keeps [] s t ∧ Answers s t h 0x050B stOk r ∧ r.length = 9 ∧ r.head? = some 0)

/-- SEQ.START and SEQ.STOP (R164, R179, R185): a thread that nothing stands against is ARMED with its start stamp; a stop
completes at once on an idle thread, is latched on a running one, and ends the flow with a dead time in progress.
SEQ.JUMP, SEQ.HOLD, SEQ.RESUME and SEQ.BARRIER (R172, R176 to R179). -/
def Obligations.SequencerControl : Prop :=
  (∀ (s : State) (h : Hdr) (th : BitVec 6), Idle s h → s.dev.alone th.toNat →
     (∀ seg w e st late, worst ((s.dev.takenUp h 0x0505).startChecks seg th.toNat) = none → s.dev.cap.flowGate = false →
       h.tag ∉ s.dev.cap.heldStarts → (s.dev.advance h.t).schedule w 1 true = .ok (e, st, late) → e = s.dev.tl.epoch →
       ∃ t, exec (.seqStart h (1#64 <<< th.toNat) seg w) s = .next t ∧ Keeps [.seq, .tl, .pins] s t ∧
         Answers s t h 0x0505 stOk [] ∧ (t.dev.thread th.toNat).st = .armed ∧ (t.dev.thread th.toNat).firstSeg = seg ∧
         (t.dev.thread th.toNat).startAt = st ∧ (t.dev.thread th.toNat).startEpoch = e ∧
         t.dev.tl.acts = s.dev.tl.acts ++
           [{ tag := h.tag, kind := .seqStart, epoch := e, stamp := st, user := (1#64 <<< th.toNat).toNat }]) ∧
     ((s.dev.thread th.toNat).st = .idle →
       ∃ t, exec (.seqStop h (1#64 <<< th.toNat)) s = .next t ∧ Keeps [.pat] s t ∧ Answers s t h 0x0509 stOk []) ∧
     ((s.dev.thread th.toNat).st = .run →
       ∃ t, exec (.seqStop h (1#64 <<< th.toNat)) s = .next t ∧ Keeps [.seq, .pat] s t ∧ Waits s t h 0x0509 ∧
         (t.dev.thread th.toNat).st = .run ∧ HoldCause.stop ∈ (t.dev.thread th.toNat).causes ∧
         h.tag ∈ (t.dev.thread th.toNat).holdTags) ∧
     ((s.dev.thread th.toNat).st = .dead → (s.dev.thread th.toNat).jump = none → (s.dev.thread th.toNat).jumpTaken = none →
       ∃ t, exec (.seqStop h (1#64 <<< th.toNat)) s = .next t ∧ Keeps [.seq, .pat] s t ∧ Waits s t h 0x0509 ∧
         (t.dev.thread th.toNat).st = .dead ∧ (t.dev.thread th.toNat).deadEnd = (s.dev.thread th.toNat).deadEnd ∧
         (t.dev.thread th.toNat).ended = true ∧ h.tag ∈ (t.dev.thread th.toNat).holdTags)) ∧
  (∀ (s : State) (h : Hdr) (th : BitVec 6), Idle s h → s.dev.alone th.toNat →
     (∀ seg, (s.dev.thread th.toNat).st = .run → s.dev.segValid th.toNat seg = true → (s.dev.thread th.toNat).jump = none →
       ∃ t j, exec (.seqJump h th seg) s = .next t ∧ Keeps [.seq] s t ∧ Waits s t h 0x0506 ∧
         (t.dev.thread th.toNat).jump = some j ∧ j.seg = seg ∧ j.tag = some h.tag) ∧
     (∀ seg, (s.dev.thread th.toNat).st = .idle →
       ∃ t, exec (.seqJump h th seg) s = .next t ∧ Keeps [] s t ∧ Answers s t h 0x0506 stBadarg []) ∧
     ((s.dev.thread th.toNat).st = .run → (∀ ch ∈ s.dev.chansOf th.toNat, (s.dev.chan ch).parkHeld = false) →
       ∃ t, exec (.seqHold h (1#64 <<< th.toNat)) s = .next t ∧ Keeps [.seq] s t ∧ Waits s t h 0x0507 ∧
         HoldCause.host ∈ (t.dev.thread th.toNat).causes ∧ h.tag ∈ (t.dev.thread th.toNat).holdTags) ∧
     (∀ w e st late, (s.dev.thread th.toNat).st = .hold → (s.dev.thread th.toNat).resumeAt = none →
       (s.dev.advance h.t).schedule w 1 true = .ok (e, st, late) →
       ∃ t, exec (.seqResume h (1#64 <<< th.toNat) w) s = .next t ∧ Keeps [.seq, .tl] s t ∧ Waits s t h 0x0508 ∧
         (t.dev.thread th.toNat).resumeAt = some (h.tag, e, st) ∧
         t.dev.tl.acts = s.dev.tl.acts ++ [{ tag := h.tag, kind := .seqResume, epoch := e, stamp := st }]) ∧
     (∀ (b : BitVec 5) (n : BitVec 16) (timeout : BitVec 64) reset, s.straps.isWorker = false → 1 ≤ n.toNat →
       n.toNat ≤ 12352 → (s.dev.seq.barriers.get {} b.toNat).opened = none →
       ∃ t, exec (.seqBarrier h b n timeout reset) s = .next t ∧ Keeps [.seq] s t ∧ Answers s t h 0x050A stOk [] ∧
         (t.dev.seq.barriers.get {} b.toNat).count = n.toNat ∧
         (t.dev.seq.barriers.get {} b.toNat).timeout = timeout.toNat ∧
         ∀ k, k ≠ b.toNat → t.dev.seq.barriers.get {} k = s.dev.seq.barriers.get {} k) ∧
     (∀ (b : BitVec 5) (n : BitVec 16) (timeout : BitVec 64),
       (∀ reset, s.straps.isWorker = true →
         ∃ t, exec (.seqBarrier h b n timeout reset) s = .next t ∧ Keeps [] s t ∧ Answers s t h 0x050A stDenied []) ∧
       (s.straps.isWorker = false → 1 ≤ n.toNat → n.toNat ≤ 12352 → (s.dev.seq.barriers.get {} b.toNat).opened.isSome = true →
         (∃ t, exec (.seqBarrier h b n timeout false) s = .next t ∧ Keeps [] s t ∧ Answers s t h 0x050A stBusy []) ∧
         (∃ t, exec (.seqBarrier h b n timeout true) s = .next t ∧ Keeps [.seq] s t ∧ Answers s t h 0x050A stOk [] ∧
           (t.dev.seq.barriers.get {} b.toNat).count = n.toNat ∧ (t.dev.seq.barriers.get {} b.toNat).timeout = timeout.toNat ∧
           ((s.dev.seq.barriers.get {} b.toNat).broken = false →
             (t.dev.seq.barriers.get {} b.toNat).broken = true ∧ (t.dev.seq.barriers.get {} b.toNat).release =
               some (roundUp (roundUp (t.dev.tl.now + 1) 1024 + 102400) 1024))))))

/-- A flow's segments (R151, R164, R166): an ARMED thread starts its first segment at its stamp, SEGEND leaves 20 ns of dead time,
and a dead time ends with the segment that was chosen. -/
def Obligations.SegmentEvents : Prop :=
  ∀ (s : State) (th : BitVec 6), s.dev.alone th.toNat → s.dev.tl.rewind = none →
    ((s.dev.thread th.toNat).st = .armed → (s.dev.thread th.toNat).startEpoch = s.dev.tl.epoch → s.dev.cap.gates = [] →
      ∃ t, exec (.threadStart th) s = .next t ∧ (t.dev.thread th.toNat).st = .run ∧
        (t.dev.thread th.toNat).seg = (s.dev.thread th.toNat).firstSeg ∧
        (t.dev.thread th.toNat).pc = descVa ((s.dev.thread th.toNat).desc (s.dev.thread th.toNat).firstSeg) ∧
        (t.dev.thread th.toNat).next = (s.dev.thread th.toNat).startAt ∧ (t.dev.thread th.toNat).loops = [] ∧
        (t.dev.thread th.toNat).calls = [] ∧ (t.dev.thread th.toNat).ff = false ∧ (t.dev.thread th.toNat).sf = false) ∧
    (∀ r rest, s.dev.plays th.toNat (.segend, r) rest →
      ∃ t, exec (.segmentEnd th) s = .next t ∧ Keeps [.seq, .banks, .pins] s t ∧ (t.dev.thread th.toNat).st = .dead ∧
        (t.dev.thread th.toNat).deadEnd = (s.dev.thread th.toNat).next + 2048 ∧ (t.dev.thread th.toNat).ctx.queue = []) ∧
    (∀ seg, (s.dev.thread th.toNat).st = .dead → (s.dev.thread th.toNat).ended = false → (s.dev.thread th.toNat).causes = [] →
      (s.dev.thread th.toNat).chosen = some seg →
      ∃ t, exec (.deadTimeEnd th) s = .next t ∧ (t.dev.thread th.toNat).st = .run ∧ (t.dev.thread th.toNat).seg = seg ∧
        (t.dev.thread th.toNat).pc = descVa ((s.dev.thread th.toNat).desc seg) ∧
        (t.dev.thread th.toNat).next = (s.dev.thread th.toNat).deadEnd) ∧
    (∀ b : BitVec 2, ∀ u, (s.dev.seq.trig.get {} b.toNat).highUntil = some u →
      ∃ t, exec (.trigOutPulseEnd b) s = .next t ∧ Keeps [.seq] s t ∧ (t.dev.seq.trig.get {} b.toNat).highUntil = none ∧
        (t.dev.seq.trig.get {} b.toNat).owner = (s.dev.seq.trig.get {} b.toNat).owner)

/-- The engine and the pins of a site (R162, R169, R191, R196, R201): a register load of the microcode, and the same from a
word corrected on read, an entry of the queue that takes no vector, the judgement of the oldest vector, and the fetch of the next
line of the pattern. -/
def Obligations.EngineEvents : Prop :=
  ∀ (s : State) (th : BitVec 6), s.dev.alone th.toNat → s.dev.tl.rewind = none →
    (∀ w, (s.dev.thread th.toNat).st = .run → (s.dev.thread th.toNat).causes = [] →
      (s.dev.thread th.toNat).ctx.waiting = false → (s.dev.thread th.toNat).ctx.active = true →
        s.dev.microWord (s.dev.thread th.toNat).ctx.upc = w → mop w = 0x08 → mA w ≠ 0 →
      (∃ t, exec (.microwordExecute ⟨th, .corrected⟩) s = .next t ∧
        t.dev.uc.corrected = min (2 ^ 32 - 1) (s.dev.uc.corrected + 1)) ∧
      ∃ t, exec (.microwordExecute ⟨th, .good⟩) s = .next t ∧ Keeps [.seq] s t ∧
        (t.dev.thread th.toNat).ctx.reg (mA w) = BitVec.ofNat 32 (bits w.toNat 0 20) ∧
        (t.dev.thread th.toNat).ctx.upc = (s.dev.thread th.toNat).ctx.upc + 1 ∧
        (t.dev.thread th.toNat).ctx.clock = (s.dev.thread th.toNat).ctx.clock + mlen w * clk ∧
        (t.dev.thread th.toNat).pc = (s.dev.thread th.toNat).pc) ∧
    (∀ n r rest v, s.dev.plays th.toNat (.lpaus n, r) rest → (s.dev.thread th.toNat).lastVec = some v →
      ∃ t, exec (.vectorStart th) s = .next t ∧ Keeps [.seq] s t ∧ (t.dev.thread th.toNat).ctx.queue = rest ∧
        (t.dev.thread th.toNat).next = max (s.dev.thread th.toNat).next (v.1 + n)) ∧
    (∀ v rest pins, (s.dev.thread th.toNat).strobes = v :: rest → s.dev.canJudge th.toNat pins = true → v.isMatch = false →
      ∃ t, exec (.compareStrobe th pins) s = .next t ∧ (t.dev.thread th.toNat).strobes = rest ∧
        (s.dev.failsOf th.toNat v pins ≠ [] → (t.dev.thread th.toNat).ff = true ∧ (t.dev.thread th.toNat).sf = true ∧
          (t.dev.thread th.toNat).segStat.fails = (s.dev.thread th.toNat).segStat.fails + 1) ∧
        (s.dev.failsOf th.toNat v pins = [] → (t.dev.thread th.toNat).ff = (s.dev.thread th.toNat).ff ∧
          (t.dev.thread th.toNat).sf = (s.dev.thread th.toNat).sf)) ∧
    (∀ line k, s.dev.prefetchLine th.toNat = some (line, k) → s.dev.portTurn (th.toNat / 4) = some th.toNat →
      (s.dev.tile (th.toNat / 4) k).checked = true →
      ∃ t, exec (.prefetchRequest th) s = .next t ∧ Keeps [.seq, .banks] s t ∧
        (t.dev.thread th.toNat).lines.head? = some line ∧
        (t.dev.bank (th.toNat / 4)).portFree = clockOf (s.dev.advance (s.dev.bank (th.toNat / 4)).portFree).tl.now + 128)

/-- Decisions and waits of a site (R170, R174, R175).
Holds and gaps of a site (R178 to R180): a latched SEQ.HOLD is taken at a vector boundary, a resume and the end of an
underrun start the next vector at their stamp, and UR_ABORT ends the segment. -/
def Obligations.WaitEvents : Prop :=
  (∀ (s : State) (th : BitVec 6),
     (∀ sense clr m target r rest, s.dev.plays th.toNat (.jfail false sense clr m target, r) rest →
       ∃ t, exec (.jfailDecision th) s = .next t ∧ Keeps [.seq] s t ∧ (t.dev.thread th.toNat).ctx.queue = rest ∧
         (t.dev.thread th.toNat).ctx.waiting = false ∧
         (t.dev.thread th.toNat).pc =
           (if (s.dev.thread th.toNat).ff = sense then (s.dev.thread th.toNat).pc else target) ∧
         (t.dev.thread th.toNat).ff = ((s.dev.thread th.toNat).ff && !clr)) ∧
     (∀ e rest at_, s.dev.plays th.toNat e rest → s.dev.matchPlace th.toNat true = some at_ →
       ∃ t, exec (.matchFound th) s = .next t ∧ Keeps [.seq] s t ∧ (t.dev.thread th.toNat).next = at_ ∧
         (t.dev.thread th.toNat).ctx.matched = true ∧ (t.dev.thread th.toNat).ctx.queue = rest.tail ∧
         (t.dev.thread th.toNat).matchAt = none) ∧
     (∀ e rest at_, s.dev.plays th.toNat e rest → s.dev.matchPlace th.toNat false = some at_ →
       ∃ t, exec (.matchTimeout th) s = .next t ∧ Keeps [.seq] s t ∧ (t.dev.thread th.toNat).next = at_ ∧
         (t.dev.thread th.toNat).ctx.matched = false ∧ (t.dev.thread th.toNat).ctx.queue = rest.tail ∧
         (t.dev.thread th.toNat).segStat.matchTo = true) ∧
     (∀ off r rest, s.dev.plays th.toNat (.waitt off, r) rest →
       (s.dev.thread th.toNat).entryStart r ≤ (s.dev.thread th.toNat).segStat.start + off →
       ∃ t, exec (.waittRelease th) s = .next t ∧ Keeps [.seq] s t ∧ (t.dev.thread th.toNat).ctx.queue = rest ∧
         (t.dev.thread th.toNat).next = (s.dev.thread th.toNat).segStat.start + off ∧
         (t.dev.thread th.toNat).segStat.lateWait = (s.dev.thread th.toNat).segStat.lateWait)) ∧
  (∀ (s : State) (th : BitVec 6), s.dev.alone th.toNat → s.dev.tl.rewind = none →
     ((s.dev.thread th.toNat).st = .run → (s.dev.thread th.toNat).causes = [.host] → (s.dev.thread th.toNat).ctx.queue = [] →
       (∀ ch ∈ s.dev.chansOf th.toNat, (s.dev.chan ch).parkHeld = false) →
       ∃ t, exec (.holdEntry th) s = .next t ∧ Keeps [.seq, .pins, .tl] s t ∧ (t.dev.thread th.toNat).st = .hold ∧
         (t.dev.thread th.toNat).causes = [] ∧ (t.dev.thread th.toNat).pc = (s.dev.thread th.toNat).pc ∧
         (t.dev.thread th.toNat).next = (s.dev.thread th.toNat).next) ∧
     (∀ tag st, (s.dev.thread th.toNat).st = .hold → (s.dev.thread th.toNat).resumeAt = some (tag, s.dev.tl.epoch, st) →
       (s.dev.thread th.toNat).chosen = none →
       ∃ t, exec (.threadResume th) s = .next t ∧ Keeps [.seq, .tl] s t ∧ (t.dev.thread th.toNat).st = .run ∧
         (t.dev.thread th.toNat).next = st ∧ (t.dev.thread th.toNat).resumeAt = none) ∧
     (∀ g r, (s.dev.thread th.toNat).st = .underrun → (s.dev.thread th.toNat).gap = some g →
       (descUrAbort ((s.dev.thread th.toNat).desc (s.dev.thread th.toNat).seg) = false →
         (s.dev.thread th.toNat).residentAt = some r →
         ∃ t, exec (.underrunResume th) s = .next t ∧ Keeps [.seq, .pat] s t ∧ (t.dev.thread th.toNat).st = .run ∧
           (t.dev.thread th.toNat).next = roundUp (r + 2048) 1024 ∧ (t.dev.thread th.toNat).gap = none ∧
           t.dev.seq.underruns = min (2 ^ 32 - 1) (s.dev.seq.underruns + 1)) ∧
       (descUrAbort ((s.dev.thread th.toNat).desc (s.dev.thread th.toNat).seg) = true →
         ∃ t, exec (.underrunAbort th) s = .next t ∧ Keeps [.seq, .banks, .pat] s t ∧ (t.dev.thread th.toNat).st = .dead ∧
           (t.dev.thread th.toNat).deadEnd = roundUp (g.1 + 1) 1024 + 2048 ∧ (t.dev.thread th.toNat).gap = none)))

/-- Barriers (R176): an arrival from another device counts at the manager, and a worker passes it on, a generation whose time is
over breaks, and its release lets a waiting site go on at the release stamp. -/
def Obligations.BarrierEvents : Prop :=
  ∀ (s : State) (b : BitVec 5), s.dev.tl.rewind = none →
    (∀ n pos st, s.dev.tree.admitted = true → ∃ t, exec (.barrierArrival n b pos st) s = .next t ∧ Keeps [] s t) ∧
    (∀ n pos st, s.dev.tree.admitted = false → s.straps.isWorker = false → pos ≠ s.dev.tree.position →
      (s.dev.seq.barriers.get {} b.toNat).count ≠ 0 →
      (s.dev.seq.barriers.get {} b.toNat).broken = false →
      ∃ t, exec (.barrierArrival n b pos st) s = .next t ∧ Keeps [.seq] s t ∧
        (t.dev.seq.barriers.get {} b.toNat).arrived = (s.dev.seq.barriers.get {} b.toNat).arrived + 1 ∧
        (t.dev.seq.barriers.get {} b.toNat).opened = some ((s.dev.seq.barriers.get {} b.toNat).opened.getD st)) ∧
    (∀ f, (s.dev.seq.barriers.get {} b.toNat).opened = some f → (s.dev.seq.barriers.get {} b.toNat).timeout ≠ 0 →
      (s.dev.seq.barriers.get {} b.toNat).broken = false → (s.dev.seq.barriers.get {} b.toNat).release = none →
      ∃ t, exec (.barrierBreak b) s = .next t ∧ Keeps [.seq] s t ∧ (t.dev.seq.barriers.get {} b.toNat).broken = true ∧
        (t.dev.seq.barriers.get {} b.toNat).release =
          some (roundUp (f + (s.dev.seq.barriers.get {} b.toNat).timeout * 1024 + 102400) 1024)) ∧
    (∀ (th : BitVec 6) st, (s.dev.seq.barriers.get {} b.toNat).release = some st →
      (s.dev.seq.barriers.get {} b.toNat).broken = false → s.dev.alone th.toNat → (s.dev.thread th.toNat).st = .run →
      (s.dev.thread th.toNat).barrier = some b → (s.dev.thread th.toNat).causes = [] →
      (∀ k, k ≠ th.toNat → (s.dev.thread k).barrier ≠ some b) →
      ∃ t, exec (.barrierRelease b st false) s = .next t ∧ Keeps [.seq] s t ∧ (t.dev.thread th.toNat).barrier = none ∧
        (t.dev.thread th.toNat).next = max (s.dev.thread th.toNat).next st)

/-! ### Microcode (07_microcode.md) -/

/-- The microcode commands (R200, R204, R205, R208): a good image replaces the customer region and its entries while every
thread is idle, a bad one changes nothing, the region is cleared and read, and the vendor's regions are not readable. -/
def Obligations.MicrocodeCommands : Prop :=
  ∀ (s : State) (h : Hdr), Idle s h →
    (∀ words table, loadFault words table = none → s.dev.allIdle = true →
      ∃ t, exec (.ucLoad h words table) s = .next t ∧ Keeps [.uc] s t ∧
        Answers s t h 0x0600 stOk [(t.dev.uc.digest.toNat : Int)] ∧ t.dev.uc.custWords = words.length ∧
        (∀ i, i < words.length → t.dev.uc.cust.get 0 i = words.getD i 0) ∧ t.dev.uc.patch = s.dev.uc.patch) ∧
    (∀ words table x, loadFault words table = some x →
      ∃ t, exec (.ucLoad h words table) s = .next t ∧ Keeps [] s t ∧ Answers s t h 0x0600 stBadarg []) ∧
    (s.dev.allIdle = true →
      ∃ t, exec (.ucClear h) s = .next t ∧ Keeps [.uc] s t ∧ Answers s t h 0x0601 stOk [] ∧ t.dev.uc.cust = .empty ∧
        t.dev.uc.custWords = 0 ∧ ∀ op, 0xC0 ≤ op → t.dev.uc.disp.get none op = none) ∧
    (∀ b first count, 0x1400 ≤ first → 1 ≤ count → count ≤ 256 → first + count ≤ 0x2000 →
      ∃ t, exec (.ucRead h b first count) s = .next t ∧ Keeps [] s t ∧ Answers s t h 0x0602 stOk
        ((List.range count).map fun i => ((s.dev.uc.cust.get 0 (first - 0x1400 + i)).toNat : Int))) ∧
    (∀ b first count, first < 0x1400 → 1 ≤ count → count ≤ 256 →
      ∃ t, exec (.ucRead h b first count) s = .next t ∧ Keeps [] s t ∧ Answers s t h 0x0602 stDenied []) ∧
    (∃ t r, exec (.ucState h) s = .next t ∧ Keeps [] s t ∧ Answers s t h 0x0603 stOk r ∧ r.length = 291)

/-! ### Pattern store (08_pattern_store.md) -/

/-- Pages of the pattern store (R216, R218, R228 to R231, R236): an LPDDR5X page is mapped, unmapped, written and read; an unmap
of a page that is locked, or that a prefetch request of the same clock reaches, completes LOCKED. -/
def Obligations.PatternPages : Prop :=
  ∀ (s : State) (h : Hdr) (v : BitVec 36), Idle s h →
    ((s.dev.advance h.t).barred v.toNat = false →
      (s.dev.hasDram = true → (s.dev.framesUsed [v.toNat]).length < dramFrames → s.dev.mapped < s.dev.maxPages →
        (s.dev.pte v.toNat).valid = false →
        (∀ b, b < 16 → s.dev.tileOf b v.toNat = none) →
        ∃ t, exec (.patMap h v 1 1 [] 0) s = .next t ∧ Keeps [.pat, .banks] s t ∧ Answers s t h 0x0700 stOk [] ∧
          (t.dev.pte v.toNat).valid = true ∧ (t.dev.pte v.toNat).tier = 1 ∧ (t.dev.pte v.toNat).bad = false ∧
          (t.dev.pte v.toNat).gen = (s.dev.pte v.toNat).gen ∧ (∀ i, i < 512 → t.dev.pat.pages.get 0 (512 * v.toNat + i) = 0) ∧
          ∀ w, w ≠ v.toNat → t.dev.pte w = s.dev.pte w) ∧
      (∃ t, exec (.patUnmap h v 1) s = .next t ∧ Keeps [.pat, .banks] s t ∧ Answers s t h 0x0701 stOk [] ∧
        (t.dev.pte v.toNat).valid = false ∧ (t.dev.pte v.toNat).gen = (s.dev.pte v.toNat).gen) ∧
      (∀ x : PageData, (s.dev.pte v.toNat).valid = true → (s.dev.pte v.toNat).tier = 1 → x.words.length = 512 →
        crc32c (wordBytes x.words) = x.crc →
        ∃ t, exec (.patWrite h v [x]) s = .next t ∧ Keeps [.pat, .banks] s t ∧
          Answers s t h 0x0702 stOk [(((s.dev.pte v.toNat).gen + 1).toNat : Int)] ∧
          (t.dev.pte v.toNat).gen = (s.dev.pte v.toNat).gen + 1 ∧ (t.dev.pte v.toNat).crc = x.crc ∧
          (t.dev.pte v.toNat).bad = false ∧
          (∀ i, i < 512 → t.dev.pat.pages.get 0 (512 * v.toNat + i) = x.words.getD i 0) ∧
          ∀ i, i < 512 * v.toNat ∨ 512 * v.toNat + 512 ≤ i → t.dev.pat.pages.get 0 i = s.dev.pat.pages.get 0 i)) ∧
    ((s.dev.advance h.t).barred v.toNat = true →
      ∃ t, exec (.patUnmap h v 1) s = .next t ∧ Keeps [] s t ∧ Answers s t h 0x0701 stLocked []) ∧
    ((s.dev.pte v.toNat).valid = true → (s.dev.pte v.toNat).tier = 1 →
      ∃ t, exec (.patRead h v 1) s = .next t ∧ Keeps [] s t ∧ Answers s t h 0x0703 stOk
        (((List.range 512).map fun i => ((s.dev.pat.pages.get 0 (512 * v.toNat + i)).toNat : Int)) ++
          [((s.dev.pte v.toNat).crc.toNat : Int)]))

/-- What the host does about residency (R219, R225, R226, R236): PAT.PREFETCH queues a fault for a page that is not resident and
completes at once for one that is, PAT.PIN pins and unpins, PAT.EVICT frees the tile and keeps the page mapped, PAT.DRIP sets
a depth, PAT.QUERY and PAT.STATE report. -/
def Obligations.PatternResidency : Prop :=
  ∀ (s : State) (h : Hdr) (v : BitVec 36) (b : BitVec 4), Idle s h →
    (s.dev.resident b.toNat v.toNat = false → s.dev.pat.queue = [] → s.dev.pat.prefetches = [] → s.dev.pat.fill = none →
      ∃ t f, exec (.patPrefetch h v 1 (1#16 <<< b.toNat) false) s = .next t ∧ Keeps [.pat, .banks] s t ∧ Waits s t h 0x0704 ∧
        t.dev.pat.queue = [f] ∧ f.vpn = v.toNat ∧ f.bank = b ∧ f.kind = .prefetch) ∧
    (s.dev.resident b.toNat v.toNat = true →
      ∃ t, exec (.patPrefetch h v 1 (1#16 <<< b.toNat) false) s = .next t ∧ Keeps [] s t ∧ Answers s t h 0x0704 stOk []) ∧
    (∀ pin, s.dev.resident b.toNat v.toNat = true → 65 ≤ s.dev.unpinned b.toNat →
      ∃ t, exec (.patPin h v 1 (1#16 <<< b.toNat) pin) s = .next t ∧ Keeps [.pat, .banks] s t ∧ Answers s t h 0x0705 stOk [] ∧
        (t.dev.pte v.toNat).pin.getLsbD b.toNat = pin ∧ (t.dev.pte v.toNat).valid = (s.dev.pte v.toNat).valid) ∧
    (∀ k, (s.dev.advance h.t).barred v.toNat = false → (s.dev.pte v.toNat).pin = 0 → (s.dev.pte v.toNat).tier ≠ 0 →
      s.dev.tileOf b.toNat v.toNat = some k →
      ∃ t, exec (.patEvict h v 1 (1#16 <<< b.toNat)) s = .next t ∧ Keeps [.pat, .banks] s t ∧ Answers s t h 0x0706 stOk [] ∧
        (t.dev.tile b.toNat k).valid = false ∧ (t.dev.pte v.toNat).valid = (s.dev.pte v.toNat).valid) ∧
    (∀ (m : BitVec 64) depth, depth ≤ 64 →
      ∃ t, exec (.patDrip h m depth) s = .next t ∧ Keeps [.seq] s t ∧ Answers s t h 0x0707 stOk [] ∧
        ∀ k, k < 64 → t.dev.thread k = if m.getLsbD k then { s.dev.thread k with depth := depth } else s.dev.thread k) ∧
    (∃ t r, exec (.patQuery h v) s = .next t ∧ Keeps [] s t ∧ Answers s t h 0x0708 stOk r ∧
      r.take 3 = [rb (s.dev.pte v.toNat).valid, ((s.dev.pte v.toNat).tier.toNat : Int), rb (s.dev.pte v.toNat).bad]) ∧
    (∃ t r, exec (.patState h b) s = .next t ∧ Keeps [] s t ∧ Answers s t h 0x0709 stOk r ∧ r.length = 7 ∧
      r.getLast? = some (s.dev.pat.queue.length : Int))

/-- Faults and fills (R213, R214, R217, R219 to R222, R226): a lookahead fault is queued, CC0 starts a fill into a tile, a
granule joins the fill and its running CRC, a good fill enters its tile, the checker marks a good tile and puts a bad one out of
use, and the translation buffer takes the entry it needs. -/
def Obligations.PagingEvents : Prop :=
  ∀ (s : State) (n : Nat), s.dev.tl.rewind = none → s.dev.pat.waiting = [] → s.dev.pat.prefetches = [] →
    (s.dev.fc.decaf = none → s.dev.pat.fill = none → s.dev.pat.outside = [] →
      (∀ (th : BitVec 6) (v : BitVec 36), s.dev.pat.queue = [] → (s.dev.window th.toNat).contains v.toNat = true →
        s.dev.resident (th.toNat / 4) v.toNat = false →
        ∃ t f, exec (.lookaheadFault n th v) s = .next t ∧ Keeps [.pat] s t ∧ t.dev.pat.queue = [f] ∧ f.vpn = v.toNat ∧
          f.bank.toNat = th.toNat / 4 ∧ f.kind = .lookahead) ∧
      (∀ f k, s.dev.pat.queue = [f] → (s.dev.pte f.vpn).valid = true → (s.dev.pte f.vpn).bad = false →
        (s.dev.pte f.vpn).tier = 1 → s.dev.resident f.bank.toNat f.vpn = false → s.dev.chooseTile f.bank.toNat = some k →
        ∃ t x, exec (.faultResolutionStart n) s = .next t ∧ Keeps [.pat, .banks] s t ∧ t.dev.pat.fill = some x ∧
          x.vpn = f.vpn ∧ x.tiles = [(f.bank, k)] ∧ x.granule = 0 ∧ x.crc = 0xFFFFFFFF ∧ x.want = (s.dev.pte f.vpn).crc ∧
          t.dev.pat.queue = [])) ∧
    (∀ f, s.dev.pat.fill = some f →
      (f.granule < 64 → f.suspended = false → (s.dev.pte f.vpn).tier = 1 →
        ∃ t x, exec (.fillGranule n [] false) s = .next t ∧ Keeps [.pat] s t ∧ t.dev.pat.fill = some x ∧
          x.granule = f.granule + 1 ∧
          x.crc = crcStep f.crc (wordBytes (s.dev.pat.pages.range 0 (512 * f.vpn + 8 * f.granule) 8))) ∧
      (∃ t, exec (.fillResume n) s = .next t ∧ Keeps [.pat] s t ∧ t.dev.pat.fill = some { f with suspended := false }) ∧
      (∀ b k, f.granule = 64 → f.suspended = false → f.tiles = [(b, k)] → (s.dev.pte f.vpn).valid = true →
        (s.dev.pte f.vpn).gen = f.gen → ~~~ f.crc = f.want →
        ∃ t, exec (.fillComplete n) s = .next t ∧ Keeps [.pat, .banks] s t ∧ t.dev.pat.fill = none ∧
          (t.dev.tile b.toNat k).valid = true ∧ (t.dev.tile b.toNat k).vpn = f.vpn ∧ (t.dev.tile b.toNat k).data = f.data ∧
          (t.dev.tile b.toNat k).checked = false ∧ (t.dev.pte f.vpn).res.getLsbD b.toNat = true)) ∧
    (∀ (b : BitVec 4) k at_, (s.dev.bank b.toNat).checking = some (k, at_) → s.dev.pat.refilled = [] →
      (pageCrc (s.dev.tile b.toNat k).data = (s.dev.tile b.toNat k).crc →
        ∃ t, exec (.tileCheckComplete b false) s = .next t ∧ Keeps [.pat, .banks] s t ∧ (t.dev.bank b.toNat).checking = none ∧
          (t.dev.tile b.toNat k).checked = true) ∧
      ∃ t, exec (.tileCheckComplete b true) s = .next t ∧ (t.dev.tile b.toNat k).valid = false ∧
        (t.dev.tile b.toNat k).bad = true ∧ t.dev.pat.checkFails = min (2 ^ 32 - 1) (s.dev.pat.checkFails + 1)) ∧
    (∀ (b : BitVec 4) (v : BitVec 36) k, s.dev.resident b.toNat v.toNat = true → s.dev.tileOf b.toNat v.toNat = some k →
      ∃ t, exec (.translationReload n b v) s = .next t ∧ Keeps [.banks] s t ∧
        (t.dev.bank b.toNat).tlb.head? = some (v.toNat, k))

/-! ### Acquisition (09_acquisition.md) -/

/-- Setting a ring up (R238, R239, R241, R245, R250): a free ring is defined, and an unarmed one is deleted, configured and given
its conditions. -/
def Obligations.RingSetup : Prop :=
  ∀ (s : State) (h : Hdr) (b : BitVec 4) (r : BitVec 3), Idle s h → (s.dev.ring b.toNat r.toNat).armed = false →
    (∀ base length owner, (s.dev.ring b.toNat r.toNat).len = 0 → 64 ≤ length → base + length ≤ 32768 →
      (∀ t, owner = .thread t → t.toNat / 4 = b.toNat) →
      (∀ k, k < 8 → k ≠ r.toNat → (s.dev.ring b.toNat k).len = 0 ∨ base + length ≤ (s.dev.ring b.toNat k).base ∨
        (s.dev.ring b.toNat k).base + max (s.dev.ring b.toNat k).len ((s.dev.ring b.toNat k).pendLen.getD 0) ≤ base) →
      ∃ t, exec (.capRing h b r base length owner) s = .next t ∧ Keeps [.banks, .cap] s t ∧ Answers s t h 0x0800 stOk [] ∧
        (t.dev.ring b.toNat r.toNat).base = base ∧ (t.dev.ring b.toNat r.toNat).len = length ∧
        (t.dev.ring b.toNat r.toNat).owner = some (capOwner owner) ∧ (t.dev.ring b.toNat r.toNat).wptr = 0 ∧
        ∀ k, k ≠ r.toNat → t.dev.ring b.toNat k = s.dev.ring b.toNat k) ∧
    (∀ base owner, (s.dev.ring b.toNat r.toNat).owner = some (capOwner owner) → (s.dev.ring b.toNat r.toNat).reads = [] →
      ∃ t, exec (.capRing h b r base 0 owner) s = .next t ∧ Keeps [.banks, .cap] s t ∧ Answers s t h 0x0800 stOk [] ∧
        t.dev.ring b.toNat r.toNat = {}) ∧
    (∀ src ch overwrite drain pre post mc ml (mh : BitVec 16), (s.dev.ring b.toNat r.toNat).len ≠ 0 → src ≠ 3 →
      (src = 2 ∨ ∃ t, (s.dev.ring b.toNat r.toNat).owner = some (.thread t)) →
      pre < s.dev.slotsAt (s.dev.ring b.toNat r.toNat) src → 1 ≤ post → post < 2 ^ 32 →
      (src = 1 → mc.toNat < (s.dev.ringChans (s.dev.ring b.toNat r.toNat)).length) → mh.toNat ≤ 4095 →
      ∃ t, exec (.capConfig h b r src ch overwrite drain pre post mc ml mh) s = .next t ∧ Keeps [.banks] s t ∧
        Answers s t h 0x0801 stOk [] ∧ t.dev.ring b.toNat r.toNat = { s.dev.ring b.toNat r.toNat with
          configured := true, src := src, ch := ch, overwrite := overwrite, drain := drain, pre := pre, post := post,
          measCh := mc, measLevel := ml, measHyst := mh.toNat }) ∧
    (∀ conds w (action : BitVec 32), conds.length = 8 →
      (∀ c ∈ conds, s.dev.condBad (s.dev.ring b.toNat r.toNat) c = false) → action.toNat < 2 ^ 17 →
      ((s.dev.ring b.toNat r.toNat).owner = some .host → action.getLsbD 0 = false) →
      (∀ e ∈ edgeConds conds, (s.dev.chan (32 * b.toNat + e.1)).noSlice = false ∧
        ((s.dev.sliceTdc b.toNat e.1).owner = .none ∨ (s.dev.sliceTdc b.toNat e.1).owner = .ring r) ∧
        ∀ f ∈ edgeConds conds, f.1 = e.1 → f.2 = e.2) →
      (∀ x, (s.dev.advance h.t).schedule w clk true = .error x → x ≠ stBadarg) →
      ((conds.filter fun c => condKind c == 7) = [] →
        ∃ t, exec (.capTrigger h b r conds w action) s = .next t ∧ Keeps [.banks] s t ∧ Answers s t h 0x0802 stOk [] ∧
          t.dev.ring b.toNat r.toNat =
            { s.dev.ring b.toNat r.toNat with conds := conds, action := action, stampAt := none }) ∧
      (∀ e st late, (conds.filter fun c => condKind c == 7).length = 1 →
        (s.dev.advance h.t).schedule w clk true = .ok (e, st, late) →
        ∃ t, exec (.capTrigger h b r conds w action) s = .next t ∧ Keeps [.banks] s t ∧ Answers s t h 0x0802 stOk [] ∧
          t.dev.ring b.toNat r.toNat =
            { s.dev.ring b.toNat r.toNat with conds := conds, action := action, stampAt := some (e, st) }))

/-- The course of a ring's records (R251, R253, R254): CAP.ARM waits for its stamp and then samples, a record closes after its
last sample, its header follows, CAP.DISARM stops the ring, and CAP.READ moves a closed record to the Carafe, here one that fits
one packet. -/
def Obligations.RingRecords : Prop :=
  ∀ (s : State) (b : BitVec 4) (r : BitVec 3) (g : Ring), s.dev.ring b.toNat r.toNat = g →
    (∀ (h : Hdr) w (n : BitVec 16) e st late, Idle s h → g.armed = false → g.len ≠ 0 → g.configured = true →
      g.pre < s.dev.slotsAt g g.src → (∀ c ∈ edgeConds g.conds, (s.dev.sliceTdc b.toNat c.1).owner = .none) →
      (s.dev.advance h.t).schedule w clk true = .ok (e, st, late) →
      ∃ t, exec (.capArm h b r w n) s = .next t ∧ Keeps [.banks, .tl, .cap] s t ∧ Waits s t h 0x0803 ∧
        (t.dev.ring b.toNat r.toNat).armed = true ∧ (t.dev.ring b.toNat r.toNat).running = false ∧
        (t.dev.ring b.toNat r.toNat).effAt = st ∧ (t.dev.ring b.toNat r.toNat).epoch = e ∧
        (t.dev.ring b.toNat r.toNat).limit = n.toNat ∧ (t.dev.ring b.toNat r.toNat).records = 0 ∧
        t.dev.tl.acts = s.dev.tl.acts ++ [{ tag := h.tag, kind := .capArm, epoch := e, stamp := st }]) ∧
    (s.dev.tl.rewind = none → g.armed = true → g.running = false → g.epoch = s.dev.tl.epoch →
      ∃ t, exec (.captureArmEffect b r) s = .next t ∧ Keeps [.banks, .tl] s t ∧
        (t.dev.ring b.toNat r.toNat).running = true ∧ (t.dev.ring b.toNat r.toNat).prevEnd = g.effAt ∧
        (t.dev.ring b.toNat r.toNat).armedAt = if g.pre = 0 then some g.effAt else none) ∧
    (∀ k z, s.dev.tl.rewind = none → g.cur = some k → g.lastEnd = some z → k.closing = false → k.post ≤ k.got →
      ∃ t, exec (.recordClose b r) s = .next t ∧ Keeps [.banks, .dsp] s t ∧
        t.dev.ring b.toNat r.toNat = { g with cur := some { k with closing := true, ended := z } }) ∧
    (∀ k, s.dev.tl.rewind = none → g.cur = some k → k.closing = true →
      ∃ t, exec (.recordHeaderCommit b r) s = .next t ∧ Keeps [.banks, .tl] s t ∧
        (t.dev.ring b.toNat r.toNat).cur = none ∧ (t.dev.ring b.toNat r.toNat).records = g.records + 1 ∧
        (t.dev.ring b.toNat r.toNat).prevEnd = k.ended ∧
        (t.dev.ring b.toNat r.toNat).armed = (g.armed && (g.limit == 0 || decide (g.records + 1 < g.limit))) ∧
        (t.dev.ring b.toNat r.toNat).closed = (if g.drain then g.closed
          else g.closed ++ [{ record := g.records % 65536, parts := k.parts }])) ∧
    (∀ h : Hdr, Idle s h → g.armed = true → g.cur = none → g.armTag ≠ h.tag → (s.dev.lane b.toNat).run = none →
      ∃ t, exec (.capDisarm h b r) s = .next t ∧ Keeps [.banks, .tl] s t ∧ Answers s t h 0x0804 stOk [] ∧
        (t.dev.ring b.toNat r.toNat).armed = false ∧ (t.dev.ring b.toNat r.toNat).running = false ∧
        (t.dev.ring b.toNat r.toNat).closed = g.closed) ∧
    (∀ h : Hdr, Idle s h → g.armed = false →
      ∃ t, exec (.capDisarm h b r) s = .next t ∧ Keeps [] s t ∧ Answers s t h 0x0804 stBadarg []) ∧
    (∀ (h : Hdr) n, Idle s h → g.len ≠ 0 → g.configured = true → g.drain = false → g.reads = [] → (n = 0 ∨ g.closed = []) →
      ∃ t, exec (.capRead h b r n) s = .next t ∧ Keeps [.banks] s t ∧ Answers s t h 0x0806 stOk [] ∧
        t.dev.ring b.toNat r.toNat = g) ∧
    (∀ (h : Hdr) n k p, Idle s h → g.len ≠ 0 → g.configured = true → g.drain = false → g.reads = [] → 1 ≤ n → g.closed = [k] →
      k.parts = [p] → 0 < p.count → p.slot % g.perLine + p.count ≤ 31 * g.perLine → s.dev.carafeLoad + 251 ≤ 16384 →
      ∃ t, exec (.capRead h b r n) s = .next t ∧ Keeps [.banks] s t ∧ Answers s t h 0x0806 stOk [] ∧
        (t.dev.ring b.toNat r.toNat).closed = [] ∧ (t.dev.ring b.toNat r.toNat).reads = [] ∧
        (t.dev.ring b.toNat r.toNat).rptr = (p.slot + p.count) % max 1 g.slots) ∧
    (∀ stamp src n rest, g.actions = (stamp, src, n) :: rest → g.action.getLsbD 0 = false →
      ∃ t, exec (.triggerAction b r) s = .next t ∧ Keeps [.banks, .cap] s t ∧
        t.dev.ring b.toNat r.toNat = { g with actions := rest } ∧
        (g.action.getLsbD 13 = true → s.dev.lineArmed (bits g.action.toNat 14 2) stamp = true →
          (t.dev.xt (bits g.action.toNat 14 2)).sent = (s.dev.xt (bits g.action.toNat 14 2)).sent ++ [(stamp, src)]))

/-- The other commands of acquisition (R243, R244, R271, R272): CAP.FIRE schedules a trigger, CAP.FAILCFG sets idle threads,
CAP.COUNTS reads fail counts and clears those of its set, CAP.XARM arms and disarms a cross-chip line, CAP.FLUSH asks producers
to flush, and CAP.STATE reports. -/
def Obligations.CaptureCommands : Prop :=
  ∀ (s : State) (h : Hdr), Idle s h →
    (∀ (b : BitVec 4) rings w e st late, (s.dev.advance h.t).schedule w clk true = .ok (e, st, late) → e = s.dev.tl.epoch →
      ∃ t, exec (.capFire h b rings w) s = .next t ∧ Keeps [.banks, .tl] s t ∧ Answers s t h 0x0805 stOk [] ∧
        t.dev.tl.acts = s.dev.tl.acts ++
          [{ tag := h.tag, kind := .capFire, epoch := e, stamp := st, user := b.toNat * 256 + rings.toNat }]) ∧
    (∀ (m : BitVec 64) ffr limit snap, limit ≤ 1024 → (∀ k ∈ members m, s.dev.notLead k = false ∧ (s.dev.thread k).st = .idle) →
      ∃ t, exec (.capFailcfg h m ffr limit snap) s = .next t ∧ Keeps [.seq] s t ∧ Answers s t h 0x0807 stOk [] ∧
        ∀ k, k < 64 → t.dev.thread k =
          if m.getLsbD k then { s.dev.thread k with ffr := ffr, logLimit := limit, snap := snap } else s.dev.thread k) ∧
    (∀ (m : BitVec 512) clear, ∃ t, exec (.capCounts h m clear) s = .next t ∧ Keeps [.pins] s t ∧
      Answers s t h 0x0808 stOk ((members m).map fun ch => ((s.dev.chan ch).failCount.toNat : Int)) ∧
      ∀ ch, ch < 512 → t.dev.chan ch =
        if clear = true ∧ m.getLsbD ch = true then { s.dev.chan ch with failCount := 0 } else s.dev.chan ch) ∧
    (∀ (l : BitVec 2) w rearm arm, s.straps.isWorker = true →
      ∃ t, exec (.capXarm h l w rearm arm) s = .next t ∧ Keeps [] s t ∧ Answers s t h 0x0809 stDenied []) ∧
    (∀ (l : BitVec 2) w rearm e st late, s.straps.isWorker = false →
      (s.dev.advance h.t).schedule w 1 true = .ok (e, st, late) → e = s.dev.tl.epoch →
      ((s.dev.xt l.toNat).armed = false →
        ∃ t, exec (.capXarm h l w rearm true) s = .next t ∧ Keeps [.cap, .tl] s t ∧ Answers s t h 0x0809 stOk [] ∧
          (t.dev.xt l.toNat).armed = true ∧ (t.dev.xt l.toNat).rearm = rearm ∧ (t.dev.xt l.toNat).effAt = st ∧
          (t.dev.xt l.toNat).effEpoch = e ∧ (t.dev.xt l.toNat).offAt = none ∧ ∀ k, k ≠ l.toNat → t.dev.xt k = s.dev.xt k) ∧
      ∃ t, exec (.capXarm h l w rearm false) s = .next t ∧ Keeps [.cap, .tl] s t ∧ Answers s t h 0x0809 stOk [] ∧
        t.dev.xt l.toNat = { s.dev.xt l.toNat with offAt := some (e, st) } ∧ ∀ k, k ≠ l.toNat → t.dev.xt k = s.dev.xt k) ∧
    (∃ t, exec (.capFlush h 0) s = .next t ∧ Keeps [] s t ∧ Answers s t h 0x080A stOk [0]) ∧
    (∀ p : BitVec 17, p ≠ 0 → ∃ t, exec (.capFlush h p) s = .next t ∧ Keeps [.cap] s t ∧ Waits s t h 0x080A ∧
      t.dev.cap.flush = s.dev.cap.flush ||| p ∧ t.dev.cap.flushTags = s.dev.cap.flushTags ++ [(h.tag, p, 0)]) ∧
    (∀ b : BitVec 4, ∃ t r, exec (.capState h b) s = .next t ∧ Keeps [] s t ∧ Answers s t h 0x080B stOk r ∧ r.length = 77)

/-- A cross-chip line (R258 to R262): a fire that reaches a worker goes on upwards, and at the manager it opens the arbitration
window, the window's end picks the winner and gives the action stamp, a worker takes the stamp it is sent, and the action
disarms a line that does not re-arm.
The Carafe and the flow line (R267 to R271): the oldest packet is read when its turn comes, the marker of lost items leaves,
a producer flushes at its boundary, and the level of FLOW_IN decides the starts that wait for it. -/
def Obligations.TriggersAndCarafe : Prop :=
  (∀ (s : State) (l : BitVec 2),
     (∀ n pos c stamp, s.dev.tree.admitted = true → ∃ t, exec (.xtrigFireMessage n l pos c stamp) s = .next t ∧ Keeps [] s t) ∧
     (∀ n pos c stamp, s.dev.tree.admitted = false → s.straps.isWorker = false → (s.dev.xt l.toNat).action = none →
       (s.dev.xt l.toNat).window = none →
       ((s.dev.advance n).lineArmed l.toNat stamp = true →
         ∃ t, exec (.xtrigFireMessage n l pos c stamp) s = .next t ∧ Keeps [.cap] s t ∧
           (t.dev.xt l.toNat).window = some (t.dev.tl.now + 34816) ∧ (t.dev.xt l.toNat).cands = [(stamp, pos, c)] ∧
           t.dev.cap.xtLost = s.dev.cap.xtLost) ∧
       ((s.dev.advance n).lineArmed l.toNat stamp = false →
         ∃ t, exec (.xtrigFireMessage n l pos c stamp) s = .next t ∧ Keeps [.cap] s t ∧ t.dev.xt l.toNat = s.dev.xt l.toNat ∧
           t.dev.cap.xtLost = min (2 ^ 32 - 1) (s.dev.cap.xtLost + 1))) ∧
     (∀ z, s.dev.tl.rewind = none → (s.dev.xt l.toNat).window = some z → (s.dev.xt l.toNat).cands ≠ [] →
       ∃ t w, exec (.xtrigWindowClose l) s = .next t ∧ Keeps [.cap] s t ∧ w ∈ (s.dev.xt l.toNat).cands ∧
         (∀ c ∈ (s.dev.xt l.toNat).cands, candBefore c w = false) ∧ (t.dev.xt l.toNat).window = none ∧
         (t.dev.xt l.toNat).action = some (w.1 + 102400, w.2.1, (s.dev.xt l.toNat).cands.length)) ∧
     (∀ n stamp pos merged, s.straps.isWorker = true →
       ∃ t, exec (.xtrigActionMessage n l stamp pos merged) s = .next t ∧ Keeps [.cap] s t ∧
         (t.dev.xt l.toNat).action = some (stamp, pos, merged) ∧ (t.dev.xt l.toNat).late = decide (stamp < t.dev.tl.now) ∧
         (t.dev.xt l.toNat).armed = (s.dev.xt l.toNat).armed) ∧
     (∀ a pos merged, s.dev.tl.rewind = none → (s.dev.xt l.toNat).action = some (a, pos, merged) →
       ∃ t, exec (.xtrigAction l) s = .next t ∧ Keeps [.cap, .banks] s t ∧ (t.dev.xt l.toNat).action = none ∧
         (t.dev.xt l.toNat).last = (pos, merged) ∧
         (t.dev.xt l.toNat).armed = ((s.dev.xt l.toNat).rearm && (s.dev.xt l.toNat).armed))) ∧
  (∀ s : State,
     (∀ n k ks, s.dev.cap.carafe = k :: ks → s.dev.ctl.dmaPacket = none →
       (s.dev.tree.admitted = true ∨ s.dev.ctl.resRoom (8 * k.len) = true) →
       ∃ t p more, exec (.carafePacketRead n false []) s = .next t ∧ Keeps [.cap, .banks] s t ∧ t.dev.ctl.dmaPacket = some p ∧
         p.words = k.words ∧ p.kind = k.kind ∧ p.seq = k.seq ∧ t.dev.cap.carafe = ks ++ more ∧
         t.dev.cap.poisoned = min (2 ^ 32 - 1) s.dev.cap.poisoned) ∧
     (∀ n p, p ≤ 16 → s.dev.cap.lossOwed.get 0 p ≠ 0 → s.dev.cap.stagingFill p + 3 ≤ 512 →
       ∃ t, exec (.lossMarkerCommit n p) s = .next t ∧ Keeps [] s t ∧ t.dev.cap.lossOwed.get 0 p = 0) ∧
     (∀ n p, p ≤ 16 → s.dev.cap.flush.getLsbD p = true →
       ∃ t, exec (.flushAtBoundary n p) s = .next t ∧ Keeps [.cap, .banks] s t ∧ t.dev.cap.flush.getLsbD p = false ∧
         ∀ q, q ≠ p → t.dev.cap.flush.getLsbD q = s.dev.cap.flush.getLsbD q) ∧
     (∀ n on, s.straps.isWorker = false → s.dev.cap.flowIn = !on → (on = true ∨ s.dev.cap.fifoHi = false ∧ s.dev.cap.gates = []) →
       ∃ t, exec (.flowInFilterChange n on) s = .next t ∧ Keeps [.cap] s t ∧ t.dev.cap.flowIn = on ∧
         t.dev.cap.flowRelease = (if on then s.dev.cap.flowRelease else t.dev.tl.now)) ∧
     (∀ (tag : BitVec 12) g, s.dev.tl.rewind = none → (s.dev.cap.gates.find? fun g => g.tag == tag) = some g → g.decided = false →
       ∃ t, exec (.flowGateDecision tag) s = .next t ∧ Keeps [.cap] s t ∧
         t.dev.cap.gates = (if (s.dev.advance (g.target - 102400)).flowAsserted then
             s.dev.cap.gates.map fun x => if x.tag = tag then { x with decided := true } else x
           else s.dev.cap.gates.filter fun x => x.tag != tag)))

/-! ### Bank DSP lanes (10_bank_dsp.md) -/

/-- The DSP commands (R274 to R276, R286, R287, R289 to R291): a lane is claimed and released unless the bank has none, a
customer image replaces the upper half of the program memory or is refused whole, X and Y memory are written and read while no
run is active, DSP.RUN leaves a run bound to a ring or to a stamp, DSP.STOP ends it, and DSP.STATE reports. -/
def Obligations.DspCommands : Prop :=
  ∀ (s : State) (h : Hdr) (b : BitVec 4), Idle s h →
    (∀ o, (s.dev.lane b.toNat).absent = false →
      ((s.dev.lane b.toNat).owner = none ∨ (s.dev.lane b.toNat).owner = some (capOwner o)) →
      (∀ t, o = .thread t → t.toNat / 4 = b.toNat) →
      ∃ t, exec (.dspClaim h b (some o)) s = .next t ∧ Keeps [.banks] s t ∧ Answers s t h 0x0900 stOk [] ∧
        t.dev.lane b.toNat = { s.dev.lane b.toNat with owner := some (capOwner o) }) ∧
    (∀ o, (s.dev.lane b.toNat).absent = true →
      ∃ t, exec (.dspClaim h b o) s = .next t ∧ Keeps [] s t ∧ Answers s t h 0x0900 stDenied []) ∧
    ((s.dev.lane b.toNat).absent = false → (s.dev.lane b.toNat).run = none →
      ∃ t, exec (.dspClaim h b none) s = .next t ∧ Keeps [.banks] s t ∧ Answers s t h 0x0900 stOk [] ∧
        t.dev.lane b.toNat = { s.dev.lane b.toNat with owner := none }) ∧
    (∀ words table, (∀ k, k < 16 → (s.dev.lane k).run = none) →
      (kernelImageGood words table = true →
        ∃ t, exec (.dspKload h words table) s = .next t ∧ Keeps [.dsp] s t ∧ Answers s t h 0x0901 stOk [] ∧
          (∀ i, i < words.length → t.dev.dsp.p.get 0 (1024 + i) = words.getD i 0) ∧
          ∀ i, i < 1024 → t.dev.dsp.p.get 0 i = s.dev.dsp.p.get 0 i) ∧
      (kernelImageGood words table = false →
        ∃ t, exec (.dspKload h words table) s = .next t ∧ Keeps [] s t ∧ Answers s t h 0x0901 stBadarg [])) ∧
    (∀ first words, first + words.length ≤ 8192 → s.dev.laneBusy b.toNat = false →
      ∃ t, exec (.dspMem h b false first words) s = .next t ∧ Keeps [.banks] s t ∧ Answers s t h 0x0902 stOk [] ∧
        (t.dev.lane b.toNat).y = (s.dev.lane b.toNat).y ∧
        ∀ i, (t.dev.lane b.toNat).x.get 0 i = if first ≤ i ∧ i < first + words.length then words.getD (i - first) 0
          else (s.dev.lane b.toNat).x.get 0 i) ∧
    (∀ first words, first + words.length ≤ 8192 → s.dev.laneBusy b.toNat = false →
      ∃ t, exec (.dspMem h b true first words) s = .next t ∧ Keeps [.banks] s t ∧ Answers s t h 0x0902 stOk [] ∧
        (t.dev.lane b.toNat).x = (s.dev.lane b.toNat).x ∧
        ∀ i, (t.dev.lane b.toNat).y.get 0 i = if first ≤ i ∧ i < first + words.length then words.getD (i - first) 0
          else (s.dev.lane b.toNat).y.get 0 i) ∧
    (∀ y first count, 1 ≤ count → first + count ≤ 8192 → s.dev.laneBusy b.toNat = false →
      ∃ t, exec (.dspRead h b y first count) s = .next t ∧ Keeps [] s t ∧ Answers s t h 0x0905 stOk
        ((List.range count).map fun i =>
          (((if y then (s.dev.lane b.toNat).y else (s.dev.lane b.toNat).x).get 0 (first + i)).toNat : Int))) ∧
    (∀ kernel ops input src ch nominal tapOnly toX, (s.dev.lane b.toNat).absent = false →
      (s.dev.lane b.toNat).owner.isSome = true → s.dev.tapClash b.toNat input src.toNat = false →
      s.dev.kernelBad kernel ops input = false → s.dev.tapBad b.toNat input src.toNat ch.toNat = false →
      (s.dev.lane b.toNat).run = none →
      (∀ r : BitVec 3, (s.dev.ring b.toNat r.toNat).len ≠ 0 →
        ∃ t x, exec (.dspRun h b kernel ops input src ch nominal tapOnly toX (.ring r)) s = .next t ∧ Keeps [.banks] s t ∧
          Waits s t h 0x0903 ∧ (t.dev.lane b.toNat).run = some x ∧ x.tag = h.tag ∧ x.kernel = kernel ∧ x.ops = ops ∧
          x.bind = some r ∧ x.active = false) ∧
      (∀ w e st late, (s.dev.advance h.t).schedule w clk false = .ok (e, st, late) →
        ∃ t x, exec (.dspRun h b kernel ops input src ch nominal tapOnly toX (.stamp w)) s = .next t ∧
          Keeps [.banks, .tl] s t ∧ Waits s t h 0x0903 ∧ (t.dev.lane b.toNat).run = some x ∧ x.tag = h.tag ∧
          x.kernel = kernel ∧ x.ops = ops ∧ x.bind = none ∧ x.startAt = st ∧ x.epoch = e ∧ x.active = false ∧
          t.dev.tl.acts = s.dev.tl.acts ++ [{ tag := h.tag, kind := .dspRun, epoch := e, stamp := st }])) ∧
    (∀ r, (s.dev.lane b.toNat).run = some r → r.tag ≠ h.tag →
      ∃ t, exec (.dspStop h b) s = .next t ∧ Keeps [.banks, .tl, .dsp] s t ∧ Answers s t h 0x0904 stOk [] ∧
        (t.dev.lane b.toNat).run = none ∧ (t.dev.lane b.toNat).owner = (s.dev.lane b.toNat).owner) ∧
    ((s.dev.lane b.toNat).run = none →
      ∃ t, exec (.dspStop h b) s = .next t ∧ Keeps [] s t ∧ Answers s t h 0x0904 stBadarg []) ∧
    (∃ t r, exec (.dspState h b) s = .next t ∧ Keeps [] s t ∧ Answers s t h 0x0906 stOk r ∧
      r.length = 7 + 2 * s.dev.dsp.kernels.cells.length)

/-- The events of a lane (R276, R279, R280, R283, R285 to R287): a run starts, a word of the tap reaches the input queue or
finds it full, a MAC adds its product, HALT ends the run, and a vendor kernel takes an input and ends after its last one. -/
def Obligations.DspEvents : Prop :=
  ∀ (s : State) (b : BitVec 4) (l : Lane) (r : Run), s.dev.lane b.toNat = l → l.run = some r →
    (s.dev.tl.rewind = none → r.active = false → (r.bind = none ∨ r.due = true) → r.epoch = s.dev.tl.epoch →
      ∃ t x, exec (.dspRunStart b) s = .next t ∧ Keeps [.banks, .tl] s t ∧ (t.dev.lane b.toNat).run = some x ∧
        x.active = true ∧ x.taken = 0 ∧ x.kernel = r.kernel ∧ x.startAt = r.startAt ∧ (t.dev.lane b.toNat).theta = 0 ∧
        (t.dev.lane b.toNat).q = [] ∧ (t.dev.lane b.toNat).out = [] ∧ (t.dev.lane b.toNat).x = l.x) ∧
    (∀ st z v g rest, l.tap = (st, z, v, g) :: rest → 0x40 ≤ r.kernel.toNat →
      (l.q.length < 256 →
        ∃ t, exec (.dspInputWord b) s = .next t ∧ Keeps [.banks] s t ∧ (t.dev.lane b.toNat).tap = rest ∧
          (t.dev.lane b.toNat).q = l.q ++ [(dataWord (clip 24 v) 0, z)]) ∧
      (256 ≤ l.q.length →
        ∃ t x, exec (.dspInputWord b) s = .next t ∧ Keeps [.banks, .dsp] s t ∧ (t.dev.lane b.toNat).tap = rest ∧
          (t.dev.lane b.toNat).q = l.q ∧ (t.dev.lane b.toNat).run = some x ∧ x.overflow = true ∧
          t.dev.dsp.drops = min (2 ^ 32 - 1) (s.dev.dsp.drops + 1))) ∧
    (∀ n w, s.dev.tl.rewind = none → r.active = true → 0x40 ≤ r.kernel.toNat → 1024 ≤ l.pc.toNat →
      s.dev.dsp.p.get 0 l.pc.toNat = w → kGood w = true →
      (kOp w = 0x01 → w.getLsbD 53 = false → w.getLsbD 50 = false → l.pc.toNat < 2047 → l.loops = [] →
        ∃ t, exec (.dspInstruction n b) s = .next t ∧ Keeps [.banks] s t ∧ (t.dev.lane b.toNat).pc = l.pc + 1 ∧
          (t.dev.lane b.toNat).x = l.x ∧ (t.dev.lane b.toNat).y = l.y ∧ (t.dev.lane b.toNat).ar = l.ar ∧
          (t.dev.lane b.toNat).acc.get (0, 0) (kAd w) =
            (let x := wordPair (l.x.get 0 (l.reg (kXa w)).ptr.toNat);
             let y := wordPair (l.y.get 0 (l.reg (kYa w)).ptr.toNat);
             let p := cmul x (if w.getLsbD 49 then (y.1, -y.2) else y);
             let g : Int := if w.getLsbD 48 then -1 else 1;
             (accAdd (l.acc.get (0, 0) (kAd w)) (g * p.1, g * p.2)).1)) ∧
      (kOp w = 0x12 → r.bind = none →
        ∃ t, exec (.dspInstruction n b) s = .next t ∧ Keeps [.banks, .tl, .dsp] s t ∧ (t.dev.lane b.toNat).run = none ∧
          (t.dev.lane b.toNat).y = l.y ∧ (t.dev.lane b.toNat).acc = l.acc)) ∧
    (∀ n, s.dev.tl.rewind = none → r.active = true → r.kernel.toNat < 0x40 → kernelInputs r.kernel r.ops ≤ r.taken →
      r.bind = none →
      ∃ t, exec (.dspInstruction n b) s = .next t ∧ Keeps [.banks, .tl, .dsp] s t ∧ (t.dev.lane b.toNat).run = none ∧
        (t.dev.lane b.toNat).y = l.y) ∧
    (∀ n v vs, s.dev.tl.rewind = none → r.active = true → r.kernel.toNat < 0x40 → r.input ≠ 0 → l.q = v :: vs →
      r.taken + 1 < kernelInputs r.kernel r.ops →
      ∃ t x, exec (.dspInstruction n b) s = .next t ∧ Keeps [.banks] s t ∧ (t.dev.lane b.toNat).q = vs ∧
        (t.dev.lane b.toNat).words = l.words ++ [(v.1.toNat : Int)] ∧ (t.dev.lane b.toNat).run = some x ∧
        x.taken = r.taken + 1 ∧ x.inputEnd = v.2)

/-! ### Metrology Island (11_metrology_island.md) -/

/-- The commands of the Metrology Units on a started island (R293 to R303, R306, R308, R319): MI.CONFIG, MI.CONNECT, MI.FORCE and
MI.MEASURE are scheduled and leave the unit as it is until their stamp, MI.LIMIT and MI.STOP act at once, MI.PARK completes
when every unit rests and waits otherwise with SAFE asserted, and MI.STATE reports. -/
def Obligations.MetrologyCommands : Prop :=
  ∀ (s : State) (h : Hdr) (u : Nat), Idle s h → s.dev.mi.started = true → s.dev.mi.verified = true → u < 16 →
    (∀ w e st late, (s.dev.advance h.t).schedule w grainSteps false = .ok (e, st, late) → (s.dev.mu u).shutting = false →
      (∀ mode irange vrange (ilim lo hi : BitVec 32), s.dev.overBudget (1#16 <<< u) (some irange) false = false →
        655 ≤ ilim.toNat → ilim.toNat ≤ 68813 → 65536 ≤ lo.toNat → lo.toNat + 16384 ≤ hi.toNat → hi.toNat ≤ 753664 →
        ∃ t, exec (.miConfig h (1#16 <<< u) w mode irange vrange ilim lo hi) s = .next t ∧ Keeps [.mi, .tl] s t ∧
          Waits s t h 0x0A00 ∧ (t.dev.mu u).sched = (s.dev.mu u).sched ++
            [{ tag := some h.tag, stamp := st, epoch := e, mode := mode, irange := irange, vrange := vrange,
               ilim := ilim.toNat, lo := lo.toNat, hi := hi.toNat }] ∧
          (t.dev.mu u).mode = (s.dev.mu u).mode ∧
          t.dev.tl.acts = s.dev.tl.acts ++ [{ tag := h.tag, kind := .miConfig, epoch := e, stamp := st }]) ∧
      (∀ on, (on = true → s.dev.hk.supplyOut.getLsbD 6 = false ∧ s.dev.hk.supplyOut.getLsbD 7 = false ∧
          s.dev.overBudget (1#16 <<< u) none true = false) →
        ∃ t, exec (.miConnect h (1#16 <<< u) w on) s = .next t ∧ Keeps [.mi, .tl] s t ∧ Waits s t h 0x0A01 ∧
          (t.dev.mu u).sched = (s.dev.mu u).sched ++ [{ tag := some h.tag, stamp := st, epoch := e, conn := some on }] ∧
          (t.dev.mu u).closed = (s.dev.mu u).closed) ∧
      (∀ word : BitVec 32, word.toNat < 2 ^ 21 →
        (word.getLsbD 20 = true ∨ 65536 ≤ bits word.toNat 0 20 ∧ bits word.toNat 0 20 ≤ 753664) →
        ∃ t, exec (.miForce h (1#16 <<< u) w word) s = .next t ∧ Keeps [.mi, .tl] s t ∧ Waits s t h 0x0A02 ∧
          (t.dev.mu u).forceSched = (s.dev.mu u).forceSched ++ [(h.tag, word, st)] ∧
          (t.dev.mu u).vTarget = (s.dev.mu u).vTarget) ∧
      (∀ volt (n : BitVec 32) (count : BitVec 16), (s.dev.mu u).meas = none → 1 ≤ n.toNat → n.toNat ≤ 16777216 → count ≠ 0 →
        (s.dev.mu u).future.mode ≠ 0 → (volt = true ∨ (s.dev.mu u).future.mode ≠ 3) → s.dev.tl.rewind = none →
        ∃ t, exec (.miMeasure h (1#16 <<< u) w volt n count) s = .next t ∧ Keeps [.mi, .tl] s t ∧ Waits s t h 0x0A04 ∧
          (t.dev.mu u).meas =
            some { tag := h.tag, volt := volt, n := n.toNat, left := count.toNat, start := st, epoch := e })) ∧
    (∀ step interval : BitVec 32, step ≠ 0 → step.toNat ≤ 1048575 → interval.toNat ≤ 65535 → (s.dev.mu u).seq = none →
      ∃ t, exec (.miLimit h (1#16 <<< u) step interval) s = .next t ∧ Keeps [.mi] s t ∧ Answers s t h 0x0A03 stOk [] ∧
        (t.dev.mu u).step = step.toNat ∧ (t.dev.mu u).interval = interval.toNat ∧ (t.dev.mu u).applied = (s.dev.mu u).applied) ∧
    (∃ t, exec (.miStop h (1#16 <<< u)) s = .next t ∧ Keeps [.mi, .tl] s t ∧ Answers s t h 0x0A05 stOk [] ∧
      (t.dev.mu u).meas = none ∧ (t.dev.mu u).closed = (s.dev.mu u).closed) ∧
    (s.dev.mi.parkTags = [] →
      (∀ v, v < 16 → (s.dev.mu v).closed = false ∧ (s.dev.mu v).seq = none ∧
        (s.dev.mu v).applied = muSafe (s.dev.mu v).forceMode) →
      ∃ t, exec (.miPark h) s = .next t ∧ Keeps [.mi, .pat, .tl] s t ∧ Answers s t h 0x0A06 stOk [] ∧ t.dev.mi.parkTags = []) ∧
    (s.dev.mi.parkTags = [] → (s.dev.mu u).closed = true →
      ∃ t, exec (.miPark h) s = .next t ∧ Keeps [.mi, .pat, .tl] s t ∧ Waits s t h 0x0A06 ∧ t.dev.mi.parkTags = [h.tag] ∧
        t.dev.mi.safeLine = true) ∧
    (∃ t r, exec (.miState h (1#16 <<< u)) s = .next t ∧ Keeps [] s t ∧ Answers s t h 0x0A07 stOk r ∧ r.length = 9 ∧
      r.head? = some ((s.dev.mu u).mode.toNat : Int) ∧ r.getLast? = some (rb (s.dev.mu u).closed))

/-- The commands of the seal (R308, R309, R312, R314 to R317): MI.SEAL_STATE and MI.CHALLENGE answer, MI.SEAL_RENEW and
MI.SEAL_BREAK take effect with a good record and use up the nonce either way, MI.CAL_LOAD installs a trial set on a broken seal
only, and MI.RESET resets the island and completes at its next start. A signature is what Config.mlDsa says of it (log entry 7).
-/
def Obligations.SealCommands : Prop :=
  ∀ (s : State) (h : Hdr), Idle s h → s.dev.mi.started = true → s.dev.mi.verified = true →
    (∃ t r, exec (.miSealState h) s = .next t ∧ Keeps [] s t ∧ Answers s t h 0x0A08 stOk r ∧ r.length = 8 ∧
      r.take 2 = [rb s.dev.mi.sealedOk, (s.dev.mi.reason.toNat : Int)]) ∧
    (∃ t n, exec (.miChallenge h) s = .next t ∧ Keeps [.mi] s t ∧ t.dev.mi = { s.dev.mi with nonce := some n } ∧
      Answers s t h 0x0A09 stOk [(n.toNat : Int)]) ∧
    ((∀ v, v < 16 → (s.dev.mu v).closed = false ∧ (s.dev.mu v).seq = none) →
      (∀ record cal, calGood cal = true → s.dev.sealAllowed record 1 0 (some (digestOf s.dev.mi.image cal)) = true →
        ∃ t, exec (.miSealRenew h record cal .done) s = .next t ∧ Keeps [.mi, .board] s t ∧
          Answers s t h 0x0A0A stOk [(prefix128 (digestOf s.dev.mi.image cal) : Int)] ∧ t.dev.mi = { s.dev.mi with
            nonce := none, cal := some cal, digest := digestOf s.dev.mi.image cal, record := some record, sealedOk := true,
            reason := 0 }) ∧
      (∀ cal, s.dev.mi.sealedOk = false → (s.dev.mi.reason = 6 ∨ s.dev.mi.reason = 7) → calGood cal = true →
        ∃ t, exec (.miCalLoad h cal) s = .next t ∧ Keeps [.mi] s t ∧
          Answers s t h 0x0A0C stOk [(prefix128 (digestOf s.dev.mi.image cal) : Int)] ∧
          t.dev.mi = { s.dev.mi with cal := some cal, digest := digestOf s.dev.mi.image cal })) ∧
    (∀ record, (∀ v, v < 16 → (s.dev.mu v).meas = none) → s.dev.sealAllowed record 2 1 none = true →
      ∃ t, exec (.miSealBreak h record .done) s = .next t ∧ Keeps [.mi, .board] s t ∧
        Answers s t h 0x0A0B stOk [(prefix128 s.dev.mi.digest : Int)] ∧ t.dev.mi = { s.dev.mi with
          nonce := none, record := some record, sealedOk := false, reason := 6 }) ∧
    (∀ record cal answer, (calGood cal && s.dev.sealAllowed record 1 0 (some (digestOf s.dev.mi.image cal))) = false →
      ∃ t, exec (.miSealRenew h record cal answer) s = .next t ∧ Keeps [.mi] s t ∧ Answers s t h 0x0A0A stDenied [] ∧
        t.dev.mi = { s.dev.mi with nonce := none }) ∧
    (∀ record answer, s.dev.sealAllowed record 2 1 none = false →
      ∃ t, exec (.miSealBreak h record answer) s = .next t ∧ Keeps [.mi] s t ∧ Answers s t h 0x0A0B stDenied [] ∧
        t.dev.mi = { s.dev.mi with nonce := none }) ∧
    (∀ cal, s.dev.mi.sealedOk = true →
      ∃ t, exec (.miCalLoad h cal) s = .next t ∧ Keeps [] s t ∧ Answers s t h 0x0A0C stDenied []) ∧
    (s.dev.mi.parkTags = [] →
      ∃ t, exec (.miReset h) s = .next t ∧ Keeps [.mi, .tl] s t ∧ Waits s t h 0x0A0D ∧ t.dev.mi.started = false ∧
        t.dev.mi.resetTag = some h.tag ∧ t.dev.mi.nonce = none ∧ ∀ v, t.dev.mu v = {})

/-- The events of the island as a whole (R304 to R308, R312, R313): a start, which also ends MI.RESET, power loss, command
frames, the reference check. That an image ends with its signature of 2,420 bytes is the model's choice (log entry 7), and so is
what the words of a frame say (log entry 164).
The events of one Metrology Unit (R295, R299, R301 to R303): scheduled actions, steps of a sequence, ramps, samples. -/
def Obligations.IslandEvents : Prop :=
  (∀ (s : State) (n : Nat),
     (∀ image, s.dev.mi.started = false →
       ∃ t, exec (.islandStart n image) s = .next t ∧ Keeps [.mi] s t ∧ t.dev.mi.started = true ∧
         t.dev.mi.verified = (decide (image.length > 2420) &&
           Config.mlDsa Config.islandKey (image.take (image.length - 2420)) (image.drop (image.length - 2420))) ∧
         t.dev.mi.ready = t.dev.mi.verified ∧
         (t.dev.mi.verified = true → t.dev.mi.image = image ∧ t.dev.mi.digest = digestOf image (t.dev.mi.cal.getD []) ∧
           (t.dev.mi.sealedOk = true ↔ t.dev.mi.reason = 0))) ∧
     (∀ image f, s.dev.mi.started = false → s.dev.mi.resetTag = some f.tag → Open s f → image.length > 2420 →
       Config.mlDsa Config.islandKey (image.take (image.length - 2420)) (image.drop (image.length - 2420)) = true →
       ∃ t, exec (.islandStart n image) s = .next t ∧ Keeps [.mi] s t ∧ Ends s t f stOk [] ∧ t.dev.mi.ready = true ∧
         t.dev.mi.resetTag = none) ∧
     (∃ t, exec (.islandPowerLoss n) s = .next t ∧ Keeps [.mi, .tl] s t ∧ t.dev.mi.started = false ∧ t.dev.mi.ready = false ∧
       t.dev.mi.nonce = none ∧ t.dev.mi.crcErrors = s.dev.mi.crcErrors ∧ ∀ u, t.dev.mu u = {}) ∧
     (∀ words, 1 ≤ words.length → words.length ≤ 256 →
       (∃ t, exec (.islandFrameReceived n { words := words, crcOk := true, islp := true }) s = .next t ∧ Keeps [.mi] s t ∧
         t.dev.mi = { s.dev.mi with
           port := s.dev.mi.port.tail, crcErrors := min (2 ^ 32 - 1) (s.dev.mi.crcErrors + 1) }) ∧
       (∀ kind, ∃ t, exec (.islandFrameReceived n { words := words, crcOk := true, kind := kind }) s = .next t ∧ Keeps [] s t) ∧
       (∀ (u : Nat) (word : BitVec 32), u < 16 → s.dev.mi.started = true → s.dev.mi.verified = true → (s.dev.mu u).seq = none →
         (s.dev.mu u).mode = 1 → (s.dev.mu u).interval = 0 → word.toNat < 2 ^ 20 → 65536 ≤ word.toNat → word.toNat ≤ 753664 →
         ∃ t, exec (.islandFrameReceived n
             { words := words, crcOk := true, islp := true, kind := .force (1#16 <<< u) word }) s = .next t ∧
           Keeps [.mi] s t ∧ t.dev.mi.crcErrors = s.dev.mi.crcErrors ∧ t.dev.mu u = { s.dev.mu u with
             vTarget := word.toNat, forceTag := none, ramp := some (roundUp (s.dev.advance n).tl.now 1024 : Nat) }) ∧
       (∀ (u : Nat) volt (k : BitVec 32) (count : BitVec 16), u < 16 → s.dev.mi.started = true → s.dev.mi.verified = true →
         (s.dev.mu u).meas = none → (s.dev.mu u).future.mode ≠ 0 → (volt = true ∨ (s.dev.mu u).future.mode ≠ 3) →
         s.dev.tl.rewind = none → 1 ≤ k.toNat → k.toNat ≤ 16777216 → count ≠ 0 →
         ∃ t x, exec (.islandFrameReceived n
             { words := words, crcOk := true, islp := true, kind := .measure (1#16 <<< u) volt k count }) s = .next t ∧
           Keeps [.mi] s t ∧ (t.dev.mu u).meas = some x ∧ x.islp = true ∧ x.volt = volt ∧ x.n = k.toNat ∧ x.left = count.toNat)) ∧
     (∀ words f kind, Open s f → f.opcode.toNat / 256 = 0x0A → (s.dev.advance n).classNow 36 1 = 1 →
       ∃ t, exec (.islandFrameReceived n { words := words, crcOk := false, kind := kind }) s = .next t ∧ Ends s t f stFault [] ∧
         t.dev.mi.crcErrors = min (2 ^ 32 - 1) (s.dev.mi.crcErrors + 1) ∧ t.dev.mi.mus = s.dev.mi.mus) ∧
     (∀ words kind, (s.dev.advance n).classNow 36 1 = 1 →
       ∃ t, exec (.islandFrameReceived n { words := words, crcOk := false, islp := true, kind := kind }) s = .next t ∧
         t.dev.mi.crcErrors = min (2 ^ 32 - 1) (s.dev.mi.crcErrors + 1) ∧ t.dev.mi.mus = s.dev.mi.mus) ∧
     (∀ reference temp, s.dev.mi.ready = true → s.dev.mi.refAt ≤ (s.dev.advance n).mono →
       ∃ t, exec (.islandRefCheck n reference temp) s = .next t ∧ Keeps [.mi] s t ∧ t.dev.mi.temp = temp ∧
         t.dev.mi.refAt = (s.dev.advance n).mono + 10000 * msSteps ∧
         (∀ c, s.dev.mi.cal = some c → t.dev.mi.refDrift =
           decide (20 * calReference c < ((reference : Int) - calReference c).natAbs * 1000000)) ∧
         (s.dev.mi.cal = none → t.dev.mi.refDrift = false))) ∧
  (∀ (s : State) (u : BitVec 4) (m : Mu), s.dev.tl.rewind = none → s.dev.mu u.toNat = m →
     (∀ tag word st, m.forceSched = [(tag, word, st)] → m.sched = [] → m.queued = [] → s.dev.tl.acts = [] →
       word.getLsbD 20 = false → m.seq = none → m.mode = 1 → m.interval = 0 →
       ∃ t, exec (.islandActionEffect u) s = .next t ∧ Keeps [.mi] s t ∧ (t.dev.mu u.toNat).forceSched = [] ∧
         (t.dev.mu u.toNat).vTarget = bits word.toNat 0 20 ∧ (t.dev.mu u.toNat).forceTag = some tag ∧
         (t.dev.mu u.toNat).ramp = some (st : Int)) ∧
     (∀ c, m.sched = [c] → m.forceSched = [] → m.queued = [] → m.seq = none → c.epoch = s.dev.tl.epoch → c.tag = none →
       c.conn = none → c.mode = m.mode → c.irange = m.irange → c.vrange = m.vrange →
       ∃ t, exec (.islandActionEffect u) s = .next t ∧ Keeps [.mi] s t ∧ t.dev.mu u.toNat = { m with
         sched := [], ilim := c.ilim, lo := c.lo, hi := c.hi }) ∧
     (∀ q, m.seq = some q → q.step = .c → q.change.conn = some false →
       ∃ t, exec (.muSequenceStepEnd u) s = .next t ∧ Keeps [.mi] s t ∧ (t.dev.mu u.toNat).seq = none ∧
         (t.dev.mu u.toNat).closed = false ∧ (t.dev.mu u.toNat).mode = q.change.mode) ∧
     (∀ q, m.seq = some q → q.step = .e → forcing m.mode = true → q.change.conn ≠ some false →
       ∃ t, exec (.muSequenceStepEnd u) s = .next t ∧ Keeps [.mi] s t ∧ (t.dev.mu u.toNat).seq = none ∧
         (t.dev.mu u.toNat).applied = m.target m.mode ∧ (t.dev.mu u.toNat).closed = m.closed) ∧
     (∀ t0, m.ramp = some t0 → m.seq = none → m.interval = 0 →
       ∃ t, exec (.muRampMove u) s = .next t ∧ Keeps [.mi] s t ∧ (t.dev.mu u.toNat).ramp = none ∧
         (t.dev.mu u.toNat).applied = m.target m.mode) ∧
     (∀ x smp ovr comp senseOpen, m.meas = some x → (x.epoch = s.dev.tl.epoch ∨ x.got ≠ 0) →
       (x.got + 1 < x.n →
         ∃ t y, exec (.muAdcSample u smp ovr comp senseOpen) s = .next t ∧ Keeps [.mi, .tl] s t ∧
           (t.dev.mu u.toNat).meas = some y ∧ y.got = x.got + 1 ∧ y.acc = x.acc + clip 24 smp ∧
           y.start = x.start + 512000 ∧ y.left = x.left ∧ t.dev.mi.results = s.dev.mi.results) ∧
       (x.n ≤ x.got + 1 → x.left ≤ 1 →
         ∃ t, exec (.muAdcSample u smp ovr comp senseOpen) s = .next t ∧ Keeps [.mi, .tl] s t ∧
           (t.dev.mu u.toNat).meas = none ∧ t.dev.mi.results = min (2 ^ 32 - 1) (s.dev.mi.results + 1) ∧
           t.dev.mi.recNum = s.dev.mi.recNum + 1)))

/-! ### Self-calibration (12_calibration.md) -/

/-- The calibration commands (R323, R325, R326, R331 to R334).
The events of calibration (R321, R323, R327 to R330): a run's end sets the targets that it gives, a tap takes its target at
its switch-over point, whole or by one unit, and an alignment interval lets every due tap take one step in gradual mode. -/
def Obligations.Calibration : Prop :=
  (∀ (s : State) (h : Hdr), Idle s h →
     (∀ full chs, s.dev.cal.run = none → (full = true → chs ≠ 0 ∧ ∀ ch ∈ members chs, s.dev.fullReady ch = true) →
       ∃ t, exec (.calRun h full chs) s = .next t ∧ Keeps [.cal] s t ∧ Waits s t h 0x0B00 ∧ t.dev.cal = { s.dev.cal with
         run := some { full := full, chs := if full then chs else 0, tags := [h.tag], tStart := s.dev.hk.tj } }) ∧
     (∀ r chs, s.dev.cal.run = some r → r.full = false →
       ∃ t, exec (.calRun h false chs) s = .next t ∧ Keeps [.cal] s t ∧ Waits s t h 0x0B00 ∧
         t.dev.cal = { s.dev.cal with run := some { r with tags := r.tags ++ [h.tag] } }) ∧
     (∀ chs : BitVec 512, ∃ t r, exec (.calQuality h chs) s = .next t ∧ Keeps [] s t ∧ Answers s t h 0x0B01 stOk r ∧
       r.length = 7 * (members chs).length) ∧
     (∀ chs : BitVec 512, ∃ t r, exec (.calTaps h chs) s = .next t ∧ Keeps [] s t ∧ Answers s t h 0x0B02 stOk r ∧
       r.length = 162 * (members chs).length) ∧
     (s.dev.dueTaps = [] →
       ∃ t, exec (.calSave h .done) s = .next t ∧ Keeps [.board, .cal] s t ∧ Answers s t h 0x0B03 stOk [] ∧
         t.dev.board = { s.dev.board with cal := some {
           path := s.dev.tree.path, stepping := 0xC1, tCal := s.dev.cal.tCal, taps := s.dev.cal.taps,
           quality := s.dev.cal.quality } } ∧
         t.dev.cal = { s.dev.cal with nominal := false })) ∧
  (∀ (s : State) (n : Nat),
     (∀ r i v, s.dev.cal.run = some r → r.full = false → tapExists i = true → tapFits i v = true →
       ∃ t, exec (.calibrationRunEnd n [(i, v)] []) s = .next t ∧ Keeps [.cal] s t ∧ t.dev.cal.run = none ∧
         t.dev.cal.runs = min (2 ^ 32 - 1) (s.dev.cal.runs + 1) ∧ (t.dev.tap i).target = v ∧
         (t.dev.tap i).inForce = (s.dev.tap i).inForce ∧ (t.dev.tap i).due = decide (v ≠ (s.dev.tap i).inForce) ∧
         ∀ j, j ≠ i → t.dev.tap j = s.dev.tap j) ∧
     (∀ i, (s.dev.tap i).due = true → s.dev.tapFree i = true → s.dev.tl.rewind = none →
       ((s.dev.tap i).passed = true ∨ (s.dev.switchPoint i).isSome = true) →
       (s.dev.gradual = false →
         ∃ t, exec (.calSwitchOver n i) s = .next t ∧ Keeps [.cal] s t ∧ (t.dev.tap i).inForce = (s.dev.tap i).target ∧
           (t.dev.tap i).due = false ∧ ∀ j, j ≠ i → t.dev.tap j = s.dev.tap j) ∧
       (s.dev.gradual = true → (s.dev.tap i).stepping = true → (s.dev.tap i).inForce < (s.dev.tap i).target →
         ∃ t, exec (.calSwitchOver n i) s = .next t ∧ Keeps [.cal] s t ∧
           (t.dev.tap i).inForce = (s.dev.tap i).inForce + 1 ∧ (t.dev.tap i).stepping = false ∧
           ∀ j, j ≠ i → t.dev.tap j = s.dev.tap j)) ∧
     (∃ t, exec (.alignmentIntervalStart n) s = .next t ∧ Keeps [.cal] s t ∧ ∀ i, t.dev.tap i =
       if s.dev.gradual = true ∧ (s.dev.tap i).due = true ∧ (s.dev.tap i).stepping = false then
         { s.dev.tap i with stepping := true, dueAt := (s.dev.advance n).tl.now, passed := false }
       else s.dev.tap i) ∧
     (∀ i p, (s.dev.tap i).due = true → s.dev.gradual = false → s.dev.tl.rewind = none → (s.dev.tap i).passed = false →
       s.dev.switchPoint i = some p → s.dev.tapFree i = false →
       ∃ t, exec (.calSwitchOver n i) s = .next t ∧ Keeps [.cal] s t ∧ t.dev.tap i = { s.dev.tap i with passed := true }))
end

