-- ==== Sys2Proof/Laws/State.lean ====
section
/-!
SUPPORT. What each shared update leaves alone: one lemma per part of the device, so that no later proof unfolds a record
update. Each name says the update and the part.
-/
namespace Sys2Proof.Machine

/-! ### Changes of one unit -/

@[simp] theorem Dev.modChan_tl (d : Dev) (i : Nat) (f : Chan → Chan) : (d.modChan i f).tl = d.tl := rfl
@[simp] theorem Dev.modChan_banks (d : Dev) (i : Nat) (f : Chan → Chan) : (d.modChan i f).banks = d.banks := rfl
@[simp] theorem Dev.modChan_seq (d : Dev) (i : Nat) (f : Chan → Chan) : (d.modChan i f).seq = d.seq := rfl
@[simp] theorem Dev.modChan_uc (d : Dev) (i : Nat) (f : Chan → Chan) : (d.modChan i f).uc = d.uc := rfl
@[simp] theorem Dev.modChan_pat (d : Dev) (i : Nat) (f : Chan → Chan) : (d.modChan i f).pat = d.pat := rfl
@[simp] theorem Dev.modChan_cap (d : Dev) (i : Nat) (f : Chan → Chan) : (d.modChan i f).cap = d.cap := rfl
@[simp] theorem Dev.modChan_dsp (d : Dev) (i : Nat) (f : Chan → Chan) : (d.modChan i f).dsp = d.dsp := rfl
@[simp] theorem Dev.modChan_mi (d : Dev) (i : Nat) (f : Chan → Chan) : (d.modChan i f).mi = d.mi := rfl
@[simp] theorem Dev.modChan_cal (d : Dev) (i : Nat) (f : Chan → Chan) : (d.modChan i f).cal = d.cal := rfl
@[simp] theorem Dev.modChan_ctl (d : Dev) (i : Nat) (f : Chan → Chan) : (d.modChan i f).ctl = d.ctl := rfl
@[simp] theorem Dev.modChan_regs (d : Dev) (i : Nat) (f : Chan → Chan) : (d.modChan i f).regs = d.regs := rfl
@[simp] theorem Dev.modChan_tree (d : Dev) (i : Nat) (f : Chan → Chan) : (d.modChan i f).tree = d.tree := rfl
@[simp] theorem Dev.modChan_boot (d : Dev) (i : Nat) (f : Chan → Chan) : (d.modChan i f).boot = d.boot := rfl
@[simp] theorem Dev.modChan_fc (d : Dev) (i : Nat) (f : Chan → Chan) : (d.modChan i f).fc = d.fc := rfl
@[simp] theorem Dev.modChan_log (d : Dev) (i : Nat) (f : Chan → Chan) : (d.modChan i f).log = d.log := rfl
@[simp] theorem Dev.modChan_hk (d : Dev) (i : Nat) (f : Chan → Chan) : (d.modChan i f).hk = d.hk := rfl
@[simp] theorem Dev.modChan_flash (d : Dev) (i : Nat) (f : Chan → Chan) : (d.modChan i f).flash = d.flash := rfl
@[simp] theorem Dev.modChan_board (d : Dev) (i : Nat) (f : Chan → Chan) : (d.modChan i f).board = d.board := rfl
@[simp] theorem Dev.modChan_journal (d : Dev) (i : Nat) (f : Chan → Chan) : (d.modChan i f).journal = d.journal := rfl
@[simp] theorem Dev.modChan_shutLatch (d : Dev) (i : Nat) (f : Chan → Chan) : (d.modChan i f).shutLatch = d.shutLatch := rfl
@[simp] theorem Dev.modChan_free (d : Dev) (i : Nat) (f : Chan → Chan) : (d.modChan i f).free = d.free := rfl
@[simp] theorem Dev.modPmu_tl (d : Dev) (i : Nat) (f : Pmu → Pmu) : (d.modPmu i f).tl = d.tl := rfl
@[simp] theorem Dev.modPmu_banks (d : Dev) (i : Nat) (f : Pmu → Pmu) : (d.modPmu i f).banks = d.banks := rfl
@[simp] theorem Dev.modPmu_seq (d : Dev) (i : Nat) (f : Pmu → Pmu) : (d.modPmu i f).seq = d.seq := rfl
@[simp] theorem Dev.modPmu_uc (d : Dev) (i : Nat) (f : Pmu → Pmu) : (d.modPmu i f).uc = d.uc := rfl
@[simp] theorem Dev.modPmu_pat (d : Dev) (i : Nat) (f : Pmu → Pmu) : (d.modPmu i f).pat = d.pat := rfl
@[simp] theorem Dev.modPmu_cap (d : Dev) (i : Nat) (f : Pmu → Pmu) : (d.modPmu i f).cap = d.cap := rfl
@[simp] theorem Dev.modPmu_dsp (d : Dev) (i : Nat) (f : Pmu → Pmu) : (d.modPmu i f).dsp = d.dsp := rfl
@[simp] theorem Dev.modPmu_mi (d : Dev) (i : Nat) (f : Pmu → Pmu) : (d.modPmu i f).mi = d.mi := rfl
@[simp] theorem Dev.modPmu_cal (d : Dev) (i : Nat) (f : Pmu → Pmu) : (d.modPmu i f).cal = d.cal := rfl
@[simp] theorem Dev.modPmu_ctl (d : Dev) (i : Nat) (f : Pmu → Pmu) : (d.modPmu i f).ctl = d.ctl := rfl
@[simp] theorem Dev.modPmu_regs (d : Dev) (i : Nat) (f : Pmu → Pmu) : (d.modPmu i f).regs = d.regs := rfl
@[simp] theorem Dev.modPmu_tree (d : Dev) (i : Nat) (f : Pmu → Pmu) : (d.modPmu i f).tree = d.tree := rfl
@[simp] theorem Dev.modPmu_boot (d : Dev) (i : Nat) (f : Pmu → Pmu) : (d.modPmu i f).boot = d.boot := rfl
@[simp] theorem Dev.modPmu_fc (d : Dev) (i : Nat) (f : Pmu → Pmu) : (d.modPmu i f).fc = d.fc := rfl
@[simp] theorem Dev.modPmu_log (d : Dev) (i : Nat) (f : Pmu → Pmu) : (d.modPmu i f).log = d.log := rfl
@[simp] theorem Dev.modPmu_hk (d : Dev) (i : Nat) (f : Pmu → Pmu) : (d.modPmu i f).hk = d.hk := rfl
@[simp] theorem Dev.modPmu_flash (d : Dev) (i : Nat) (f : Pmu → Pmu) : (d.modPmu i f).flash = d.flash := rfl
@[simp] theorem Dev.modPmu_board (d : Dev) (i : Nat) (f : Pmu → Pmu) : (d.modPmu i f).board = d.board := rfl
@[simp] theorem Dev.modPmu_journal (d : Dev) (i : Nat) (f : Pmu → Pmu) : (d.modPmu i f).journal = d.journal := rfl
@[simp] theorem Dev.modPmu_shutLatch (d : Dev) (i : Nat) (f : Pmu → Pmu) : (d.modPmu i f).shutLatch = d.shutLatch := rfl
@[simp] theorem Dev.modPmu_free (d : Dev) (i : Nat) (f : Pmu → Pmu) : (d.modPmu i f).free = d.free := rfl
@[simp] theorem Dev.modBank_tl (d : Dev) (i : Nat) (f : Bank → Bank) : (d.modBank i f).tl = d.tl := rfl
@[simp] theorem Dev.modBank_pins (d : Dev) (i : Nat) (f : Bank → Bank) : (d.modBank i f).pins = d.pins := rfl
@[simp] theorem Dev.modBank_seq (d : Dev) (i : Nat) (f : Bank → Bank) : (d.modBank i f).seq = d.seq := rfl
@[simp] theorem Dev.modBank_uc (d : Dev) (i : Nat) (f : Bank → Bank) : (d.modBank i f).uc = d.uc := rfl
@[simp] theorem Dev.modBank_pat (d : Dev) (i : Nat) (f : Bank → Bank) : (d.modBank i f).pat = d.pat := rfl
@[simp] theorem Dev.modBank_cap (d : Dev) (i : Nat) (f : Bank → Bank) : (d.modBank i f).cap = d.cap := rfl
@[simp] theorem Dev.modBank_dsp (d : Dev) (i : Nat) (f : Bank → Bank) : (d.modBank i f).dsp = d.dsp := rfl
@[simp] theorem Dev.modBank_mi (d : Dev) (i : Nat) (f : Bank → Bank) : (d.modBank i f).mi = d.mi := rfl
@[simp] theorem Dev.modBank_cal (d : Dev) (i : Nat) (f : Bank → Bank) : (d.modBank i f).cal = d.cal := rfl
@[simp] theorem Dev.modBank_ctl (d : Dev) (i : Nat) (f : Bank → Bank) : (d.modBank i f).ctl = d.ctl := rfl
@[simp] theorem Dev.modBank_regs (d : Dev) (i : Nat) (f : Bank → Bank) : (d.modBank i f).regs = d.regs := rfl
@[simp] theorem Dev.modBank_tree (d : Dev) (i : Nat) (f : Bank → Bank) : (d.modBank i f).tree = d.tree := rfl
@[simp] theorem Dev.modBank_boot (d : Dev) (i : Nat) (f : Bank → Bank) : (d.modBank i f).boot = d.boot := rfl
@[simp] theorem Dev.modBank_fc (d : Dev) (i : Nat) (f : Bank → Bank) : (d.modBank i f).fc = d.fc := rfl
@[simp] theorem Dev.modBank_log (d : Dev) (i : Nat) (f : Bank → Bank) : (d.modBank i f).log = d.log := rfl
@[simp] theorem Dev.modBank_hk (d : Dev) (i : Nat) (f : Bank → Bank) : (d.modBank i f).hk = d.hk := rfl
@[simp] theorem Dev.modBank_flash (d : Dev) (i : Nat) (f : Bank → Bank) : (d.modBank i f).flash = d.flash := rfl
@[simp] theorem Dev.modBank_board (d : Dev) (i : Nat) (f : Bank → Bank) : (d.modBank i f).board = d.board := rfl
@[simp] theorem Dev.modBank_journal (d : Dev) (i : Nat) (f : Bank → Bank) : (d.modBank i f).journal = d.journal := rfl
@[simp] theorem Dev.modBank_shutLatch (d : Dev) (i : Nat) (f : Bank → Bank) : (d.modBank i f).shutLatch = d.shutLatch := rfl
@[simp] theorem Dev.modBank_free (d : Dev) (i : Nat) (f : Bank → Bank) : (d.modBank i f).free = d.free := rfl
@[simp] theorem Dev.modThread_tl (d : Dev) (i : Nat) (f : Thread → Thread) : (d.modThread i f).tl = d.tl := rfl
@[simp] theorem Dev.modThread_pins (d : Dev) (i : Nat) (f : Thread → Thread) : (d.modThread i f).pins = d.pins := rfl
@[simp] theorem Dev.modThread_banks (d : Dev) (i : Nat) (f : Thread → Thread) : (d.modThread i f).banks = d.banks := rfl
@[simp] theorem Dev.modThread_uc (d : Dev) (i : Nat) (f : Thread → Thread) : (d.modThread i f).uc = d.uc := rfl
@[simp] theorem Dev.modThread_pat (d : Dev) (i : Nat) (f : Thread → Thread) : (d.modThread i f).pat = d.pat := rfl
@[simp] theorem Dev.modThread_cap (d : Dev) (i : Nat) (f : Thread → Thread) : (d.modThread i f).cap = d.cap := rfl
@[simp] theorem Dev.modThread_dsp (d : Dev) (i : Nat) (f : Thread → Thread) : (d.modThread i f).dsp = d.dsp := rfl
@[simp] theorem Dev.modThread_mi (d : Dev) (i : Nat) (f : Thread → Thread) : (d.modThread i f).mi = d.mi := rfl
@[simp] theorem Dev.modThread_cal (d : Dev) (i : Nat) (f : Thread → Thread) : (d.modThread i f).cal = d.cal := rfl
@[simp] theorem Dev.modThread_ctl (d : Dev) (i : Nat) (f : Thread → Thread) : (d.modThread i f).ctl = d.ctl := rfl
@[simp] theorem Dev.modThread_regs (d : Dev) (i : Nat) (f : Thread → Thread) : (d.modThread i f).regs = d.regs := rfl
@[simp] theorem Dev.modThread_tree (d : Dev) (i : Nat) (f : Thread → Thread) : (d.modThread i f).tree = d.tree := rfl
@[simp] theorem Dev.modThread_boot (d : Dev) (i : Nat) (f : Thread → Thread) : (d.modThread i f).boot = d.boot := rfl
@[simp] theorem Dev.modThread_fc (d : Dev) (i : Nat) (f : Thread → Thread) : (d.modThread i f).fc = d.fc := rfl
@[simp] theorem Dev.modThread_log (d : Dev) (i : Nat) (f : Thread → Thread) : (d.modThread i f).log = d.log := rfl
@[simp] theorem Dev.modThread_hk (d : Dev) (i : Nat) (f : Thread → Thread) : (d.modThread i f).hk = d.hk := rfl
@[simp] theorem Dev.modThread_flash (d : Dev) (i : Nat) (f : Thread → Thread) : (d.modThread i f).flash = d.flash := rfl
@[simp] theorem Dev.modThread_board (d : Dev) (i : Nat) (f : Thread → Thread) : (d.modThread i f).board = d.board := rfl
@[simp] theorem Dev.modThread_journal (d : Dev) (i : Nat) (f : Thread → Thread) : (d.modThread i f).journal = d.journal := rfl
@[simp] theorem Dev.modThread_shutLatch (d : Dev) (i : Nat) (f : Thread → Thread) : (d.modThread i f).shutLatch = d.shutLatch := rfl
@[simp] theorem Dev.modThread_free (d : Dev) (i : Nat) (f : Thread → Thread) : (d.modThread i f).free = d.free := rfl
@[simp] theorem Dev.modMu_tl (d : Dev) (i : Nat) (f : Mu → Mu) : (d.modMu i f).tl = d.tl := rfl
@[simp] theorem Dev.modMu_pins (d : Dev) (i : Nat) (f : Mu → Mu) : (d.modMu i f).pins = d.pins := rfl
@[simp] theorem Dev.modMu_banks (d : Dev) (i : Nat) (f : Mu → Mu) : (d.modMu i f).banks = d.banks := rfl
@[simp] theorem Dev.modMu_seq (d : Dev) (i : Nat) (f : Mu → Mu) : (d.modMu i f).seq = d.seq := rfl
@[simp] theorem Dev.modMu_uc (d : Dev) (i : Nat) (f : Mu → Mu) : (d.modMu i f).uc = d.uc := rfl
@[simp] theorem Dev.modMu_pat (d : Dev) (i : Nat) (f : Mu → Mu) : (d.modMu i f).pat = d.pat := rfl
@[simp] theorem Dev.modMu_cap (d : Dev) (i : Nat) (f : Mu → Mu) : (d.modMu i f).cap = d.cap := rfl
@[simp] theorem Dev.modMu_dsp (d : Dev) (i : Nat) (f : Mu → Mu) : (d.modMu i f).dsp = d.dsp := rfl
@[simp] theorem Dev.modMu_cal (d : Dev) (i : Nat) (f : Mu → Mu) : (d.modMu i f).cal = d.cal := rfl
@[simp] theorem Dev.modMu_ctl (d : Dev) (i : Nat) (f : Mu → Mu) : (d.modMu i f).ctl = d.ctl := rfl
@[simp] theorem Dev.modMu_regs (d : Dev) (i : Nat) (f : Mu → Mu) : (d.modMu i f).regs = d.regs := rfl
@[simp] theorem Dev.modMu_tree (d : Dev) (i : Nat) (f : Mu → Mu) : (d.modMu i f).tree = d.tree := rfl
@[simp] theorem Dev.modMu_boot (d : Dev) (i : Nat) (f : Mu → Mu) : (d.modMu i f).boot = d.boot := rfl
@[simp] theorem Dev.modMu_fc (d : Dev) (i : Nat) (f : Mu → Mu) : (d.modMu i f).fc = d.fc := rfl
@[simp] theorem Dev.modMu_log (d : Dev) (i : Nat) (f : Mu → Mu) : (d.modMu i f).log = d.log := rfl
@[simp] theorem Dev.modMu_hk (d : Dev) (i : Nat) (f : Mu → Mu) : (d.modMu i f).hk = d.hk := rfl
@[simp] theorem Dev.modMu_flash (d : Dev) (i : Nat) (f : Mu → Mu) : (d.modMu i f).flash = d.flash := rfl
@[simp] theorem Dev.modMu_board (d : Dev) (i : Nat) (f : Mu → Mu) : (d.modMu i f).board = d.board := rfl
@[simp] theorem Dev.modMu_journal (d : Dev) (i : Nat) (f : Mu → Mu) : (d.modMu i f).journal = d.journal := rfl
@[simp] theorem Dev.modMu_shutLatch (d : Dev) (i : Nat) (f : Mu → Mu) : (d.modMu i f).shutLatch = d.shutLatch := rfl
@[simp] theorem Dev.modMu_free (d : Dev) (i : Nat) (f : Mu → Mu) : (d.modMu i f).free = d.free := rfl
@[simp] theorem Dev.modPte_tl (d : Dev) (i : Nat) (f : Pte → Pte) : (d.modPte i f).tl = d.tl := rfl
@[simp] theorem Dev.modPte_pins (d : Dev) (i : Nat) (f : Pte → Pte) : (d.modPte i f).pins = d.pins := rfl
@[simp] theorem Dev.modPte_banks (d : Dev) (i : Nat) (f : Pte → Pte) : (d.modPte i f).banks = d.banks := rfl
@[simp] theorem Dev.modPte_seq (d : Dev) (i : Nat) (f : Pte → Pte) : (d.modPte i f).seq = d.seq := rfl
@[simp] theorem Dev.modPte_uc (d : Dev) (i : Nat) (f : Pte → Pte) : (d.modPte i f).uc = d.uc := rfl
@[simp] theorem Dev.modPte_cap (d : Dev) (i : Nat) (f : Pte → Pte) : (d.modPte i f).cap = d.cap := rfl
@[simp] theorem Dev.modPte_dsp (d : Dev) (i : Nat) (f : Pte → Pte) : (d.modPte i f).dsp = d.dsp := rfl
@[simp] theorem Dev.modPte_mi (d : Dev) (i : Nat) (f : Pte → Pte) : (d.modPte i f).mi = d.mi := rfl
@[simp] theorem Dev.modPte_cal (d : Dev) (i : Nat) (f : Pte → Pte) : (d.modPte i f).cal = d.cal := rfl
@[simp] theorem Dev.modPte_ctl (d : Dev) (i : Nat) (f : Pte → Pte) : (d.modPte i f).ctl = d.ctl := rfl
@[simp] theorem Dev.modPte_regs (d : Dev) (i : Nat) (f : Pte → Pte) : (d.modPte i f).regs = d.regs := rfl
@[simp] theorem Dev.modPte_tree (d : Dev) (i : Nat) (f : Pte → Pte) : (d.modPte i f).tree = d.tree := rfl
@[simp] theorem Dev.modPte_boot (d : Dev) (i : Nat) (f : Pte → Pte) : (d.modPte i f).boot = d.boot := rfl
@[simp] theorem Dev.modPte_fc (d : Dev) (i : Nat) (f : Pte → Pte) : (d.modPte i f).fc = d.fc := rfl
@[simp] theorem Dev.modPte_log (d : Dev) (i : Nat) (f : Pte → Pte) : (d.modPte i f).log = d.log := rfl
@[simp] theorem Dev.modPte_hk (d : Dev) (i : Nat) (f : Pte → Pte) : (d.modPte i f).hk = d.hk := rfl
@[simp] theorem Dev.modPte_flash (d : Dev) (i : Nat) (f : Pte → Pte) : (d.modPte i f).flash = d.flash := rfl
@[simp] theorem Dev.modPte_board (d : Dev) (i : Nat) (f : Pte → Pte) : (d.modPte i f).board = d.board := rfl
@[simp] theorem Dev.modPte_journal (d : Dev) (i : Nat) (f : Pte → Pte) : (d.modPte i f).journal = d.journal := rfl
@[simp] theorem Dev.modPte_shutLatch (d : Dev) (i : Nat) (f : Pte → Pte) : (d.modPte i f).shutLatch = d.shutLatch := rfl
@[simp] theorem Dev.modPte_free (d : Dev) (i : Nat) (f : Pte → Pte) : (d.modPte i f).free = d.free := rfl
@[simp] theorem Dev.modPort_tl (d : Dev) (i : Nat) (f : Port → Port) : (d.modPort i f).tl = d.tl := rfl
@[simp] theorem Dev.modPort_pins (d : Dev) (i : Nat) (f : Port → Port) : (d.modPort i f).pins = d.pins := rfl
@[simp] theorem Dev.modPort_banks (d : Dev) (i : Nat) (f : Port → Port) : (d.modPort i f).banks = d.banks := rfl
@[simp] theorem Dev.modPort_seq (d : Dev) (i : Nat) (f : Port → Port) : (d.modPort i f).seq = d.seq := rfl
@[simp] theorem Dev.modPort_uc (d : Dev) (i : Nat) (f : Port → Port) : (d.modPort i f).uc = d.uc := rfl
@[simp] theorem Dev.modPort_pat (d : Dev) (i : Nat) (f : Port → Port) : (d.modPort i f).pat = d.pat := rfl
@[simp] theorem Dev.modPort_cap (d : Dev) (i : Nat) (f : Port → Port) : (d.modPort i f).cap = d.cap := rfl
@[simp] theorem Dev.modPort_dsp (d : Dev) (i : Nat) (f : Port → Port) : (d.modPort i f).dsp = d.dsp := rfl
@[simp] theorem Dev.modPort_mi (d : Dev) (i : Nat) (f : Port → Port) : (d.modPort i f).mi = d.mi := rfl
@[simp] theorem Dev.modPort_cal (d : Dev) (i : Nat) (f : Port → Port) : (d.modPort i f).cal = d.cal := rfl
@[simp] theorem Dev.modPort_ctl (d : Dev) (i : Nat) (f : Port → Port) : (d.modPort i f).ctl = d.ctl := rfl
@[simp] theorem Dev.modPort_regs (d : Dev) (i : Nat) (f : Port → Port) : (d.modPort i f).regs = d.regs := rfl
@[simp] theorem Dev.modPort_boot (d : Dev) (i : Nat) (f : Port → Port) : (d.modPort i f).boot = d.boot := rfl
@[simp] theorem Dev.modPort_fc (d : Dev) (i : Nat) (f : Port → Port) : (d.modPort i f).fc = d.fc := rfl
@[simp] theorem Dev.modPort_log (d : Dev) (i : Nat) (f : Port → Port) : (d.modPort i f).log = d.log := rfl
@[simp] theorem Dev.modPort_hk (d : Dev) (i : Nat) (f : Port → Port) : (d.modPort i f).hk = d.hk := rfl
@[simp] theorem Dev.modPort_flash (d : Dev) (i : Nat) (f : Port → Port) : (d.modPort i f).flash = d.flash := rfl
@[simp] theorem Dev.modPort_board (d : Dev) (i : Nat) (f : Port → Port) : (d.modPort i f).board = d.board := rfl
@[simp] theorem Dev.modPort_journal (d : Dev) (i : Nat) (f : Port → Port) : (d.modPort i f).journal = d.journal := rfl
@[simp] theorem Dev.modPort_shutLatch (d : Dev) (i : Nat) (f : Port → Port) : (d.modPort i f).shutLatch = d.shutLatch := rfl
@[simp] theorem Dev.modPort_free (d : Dev) (i : Nat) (f : Port → Port) : (d.modPort i f).free = d.free := rfl
@[simp] theorem Dev.modXt_tl (d : Dev) (i : Nat) (f : Xt → Xt) : (d.modXt i f).tl = d.tl := rfl
@[simp] theorem Dev.modXt_pins (d : Dev) (i : Nat) (f : Xt → Xt) : (d.modXt i f).pins = d.pins := rfl
@[simp] theorem Dev.modXt_banks (d : Dev) (i : Nat) (f : Xt → Xt) : (d.modXt i f).banks = d.banks := rfl
@[simp] theorem Dev.modXt_seq (d : Dev) (i : Nat) (f : Xt → Xt) : (d.modXt i f).seq = d.seq := rfl
@[simp] theorem Dev.modXt_uc (d : Dev) (i : Nat) (f : Xt → Xt) : (d.modXt i f).uc = d.uc := rfl
@[simp] theorem Dev.modXt_pat (d : Dev) (i : Nat) (f : Xt → Xt) : (d.modXt i f).pat = d.pat := rfl
@[simp] theorem Dev.modXt_dsp (d : Dev) (i : Nat) (f : Xt → Xt) : (d.modXt i f).dsp = d.dsp := rfl
@[simp] theorem Dev.modXt_mi (d : Dev) (i : Nat) (f : Xt → Xt) : (d.modXt i f).mi = d.mi := rfl
@[simp] theorem Dev.modXt_cal (d : Dev) (i : Nat) (f : Xt → Xt) : (d.modXt i f).cal = d.cal := rfl
@[simp] theorem Dev.modXt_ctl (d : Dev) (i : Nat) (f : Xt → Xt) : (d.modXt i f).ctl = d.ctl := rfl
@[simp] theorem Dev.modXt_regs (d : Dev) (i : Nat) (f : Xt → Xt) : (d.modXt i f).regs = d.regs := rfl
@[simp] theorem Dev.modXt_tree (d : Dev) (i : Nat) (f : Xt → Xt) : (d.modXt i f).tree = d.tree := rfl
@[simp] theorem Dev.modXt_boot (d : Dev) (i : Nat) (f : Xt → Xt) : (d.modXt i f).boot = d.boot := rfl
@[simp] theorem Dev.modXt_fc (d : Dev) (i : Nat) (f : Xt → Xt) : (d.modXt i f).fc = d.fc := rfl
@[simp] theorem Dev.modXt_log (d : Dev) (i : Nat) (f : Xt → Xt) : (d.modXt i f).log = d.log := rfl
@[simp] theorem Dev.modXt_hk (d : Dev) (i : Nat) (f : Xt → Xt) : (d.modXt i f).hk = d.hk := rfl
@[simp] theorem Dev.modXt_flash (d : Dev) (i : Nat) (f : Xt → Xt) : (d.modXt i f).flash = d.flash := rfl
@[simp] theorem Dev.modXt_board (d : Dev) (i : Nat) (f : Xt → Xt) : (d.modXt i f).board = d.board := rfl
@[simp] theorem Dev.modXt_journal (d : Dev) (i : Nat) (f : Xt → Xt) : (d.modXt i f).journal = d.journal := rfl
@[simp] theorem Dev.modXt_shutLatch (d : Dev) (i : Nat) (f : Xt → Xt) : (d.modXt i f).shutLatch = d.shutLatch := rfl
@[simp] theorem Dev.modXt_free (d : Dev) (i : Nat) (f : Xt → Xt) : (d.modXt i f).free = d.free := rfl
@[simp] theorem Dev.modLane_tl (d : Dev) (i : Nat) (f : Lane → Lane) : (d.modLane i f).tl = d.tl := rfl
@[simp] theorem Dev.modLane_pins (d : Dev) (i : Nat) (f : Lane → Lane) : (d.modLane i f).pins = d.pins := rfl
@[simp] theorem Dev.modLane_seq (d : Dev) (i : Nat) (f : Lane → Lane) : (d.modLane i f).seq = d.seq := rfl
@[simp] theorem Dev.modLane_uc (d : Dev) (i : Nat) (f : Lane → Lane) : (d.modLane i f).uc = d.uc := rfl
@[simp] theorem Dev.modLane_pat (d : Dev) (i : Nat) (f : Lane → Lane) : (d.modLane i f).pat = d.pat := rfl
@[simp] theorem Dev.modLane_cap (d : Dev) (i : Nat) (f : Lane → Lane) : (d.modLane i f).cap = d.cap := rfl
@[simp] theorem Dev.modLane_dsp (d : Dev) (i : Nat) (f : Lane → Lane) : (d.modLane i f).dsp = d.dsp := rfl
@[simp] theorem Dev.modLane_mi (d : Dev) (i : Nat) (f : Lane → Lane) : (d.modLane i f).mi = d.mi := rfl
@[simp] theorem Dev.modLane_cal (d : Dev) (i : Nat) (f : Lane → Lane) : (d.modLane i f).cal = d.cal := rfl
@[simp] theorem Dev.modLane_ctl (d : Dev) (i : Nat) (f : Lane → Lane) : (d.modLane i f).ctl = d.ctl := rfl
@[simp] theorem Dev.modLane_regs (d : Dev) (i : Nat) (f : Lane → Lane) : (d.modLane i f).regs = d.regs := rfl
@[simp] theorem Dev.modLane_tree (d : Dev) (i : Nat) (f : Lane → Lane) : (d.modLane i f).tree = d.tree := rfl
@[simp] theorem Dev.modLane_boot (d : Dev) (i : Nat) (f : Lane → Lane) : (d.modLane i f).boot = d.boot := rfl
@[simp] theorem Dev.modLane_fc (d : Dev) (i : Nat) (f : Lane → Lane) : (d.modLane i f).fc = d.fc := rfl
@[simp] theorem Dev.modLane_log (d : Dev) (i : Nat) (f : Lane → Lane) : (d.modLane i f).log = d.log := rfl
@[simp] theorem Dev.modLane_hk (d : Dev) (i : Nat) (f : Lane → Lane) : (d.modLane i f).hk = d.hk := rfl
@[simp] theorem Dev.modLane_flash (d : Dev) (i : Nat) (f : Lane → Lane) : (d.modLane i f).flash = d.flash := rfl
@[simp] theorem Dev.modLane_board (d : Dev) (i : Nat) (f : Lane → Lane) : (d.modLane i f).board = d.board := rfl
@[simp] theorem Dev.modLane_journal (d : Dev) (i : Nat) (f : Lane → Lane) : (d.modLane i f).journal = d.journal := rfl
@[simp] theorem Dev.modLane_shutLatch (d : Dev) (i : Nat) (f : Lane → Lane) : (d.modLane i f).shutLatch = d.shutLatch := rfl
@[simp] theorem Dev.modLane_free (d : Dev) (i : Nat) (f : Lane → Lane) : (d.modLane i f).free = d.free := rfl
@[simp] theorem Dev.modRing_tl (d : Dev) (i j : Nat) (f : Ring → Ring) : (d.modRing i j f).tl = d.tl := rfl
@[simp] theorem Dev.modRing_pins (d : Dev) (i j : Nat) (f : Ring → Ring) : (d.modRing i j f).pins = d.pins := rfl
@[simp] theorem Dev.modRing_seq (d : Dev) (i j : Nat) (f : Ring → Ring) : (d.modRing i j f).seq = d.seq := rfl
@[simp] theorem Dev.modRing_uc (d : Dev) (i j : Nat) (f : Ring → Ring) : (d.modRing i j f).uc = d.uc := rfl
@[simp] theorem Dev.modRing_pat (d : Dev) (i j : Nat) (f : Ring → Ring) : (d.modRing i j f).pat = d.pat := rfl
@[simp] theorem Dev.modRing_cap (d : Dev) (i j : Nat) (f : Ring → Ring) : (d.modRing i j f).cap = d.cap := rfl
@[simp] theorem Dev.modRing_dsp (d : Dev) (i j : Nat) (f : Ring → Ring) : (d.modRing i j f).dsp = d.dsp := rfl
@[simp] theorem Dev.modRing_mi (d : Dev) (i j : Nat) (f : Ring → Ring) : (d.modRing i j f).mi = d.mi := rfl
@[simp] theorem Dev.modRing_cal (d : Dev) (i j : Nat) (f : Ring → Ring) : (d.modRing i j f).cal = d.cal := rfl
@[simp] theorem Dev.modRing_ctl (d : Dev) (i j : Nat) (f : Ring → Ring) : (d.modRing i j f).ctl = d.ctl := rfl
@[simp] theorem Dev.modRing_regs (d : Dev) (i j : Nat) (f : Ring → Ring) : (d.modRing i j f).regs = d.regs := rfl
@[simp] theorem Dev.modRing_tree (d : Dev) (i j : Nat) (f : Ring → Ring) : (d.modRing i j f).tree = d.tree := rfl
@[simp] theorem Dev.modRing_boot (d : Dev) (i j : Nat) (f : Ring → Ring) : (d.modRing i j f).boot = d.boot := rfl
@[simp] theorem Dev.modRing_fc (d : Dev) (i j : Nat) (f : Ring → Ring) : (d.modRing i j f).fc = d.fc := rfl
@[simp] theorem Dev.modRing_log (d : Dev) (i j : Nat) (f : Ring → Ring) : (d.modRing i j f).log = d.log := rfl
@[simp] theorem Dev.modRing_hk (d : Dev) (i j : Nat) (f : Ring → Ring) : (d.modRing i j f).hk = d.hk := rfl
@[simp] theorem Dev.modRing_flash (d : Dev) (i j : Nat) (f : Ring → Ring) : (d.modRing i j f).flash = d.flash := rfl
@[simp] theorem Dev.modRing_board (d : Dev) (i j : Nat) (f : Ring → Ring) : (d.modRing i j f).board = d.board := rfl
@[simp] theorem Dev.modRing_journal (d : Dev) (i j : Nat) (f : Ring → Ring) : (d.modRing i j f).journal = d.journal := rfl
@[simp] theorem Dev.modRing_shutLatch (d : Dev) (i j : Nat) (f : Ring → Ring) : (d.modRing i j f).shutLatch = d.shutLatch := rfl
@[simp] theorem Dev.modRing_free (d : Dev) (i j : Nat) (f : Ring → Ring) : (d.modRing i j f).free = d.free := rfl
@[simp] theorem Dev.modTdc_tl (d : Dev) (i j : Nat) (f : Tdc → Tdc) : (d.modTdc i j f).tl = d.tl := rfl
@[simp] theorem Dev.modTdc_pins (d : Dev) (i j : Nat) (f : Tdc → Tdc) : (d.modTdc i j f).pins = d.pins := rfl
@[simp] theorem Dev.modTdc_seq (d : Dev) (i j : Nat) (f : Tdc → Tdc) : (d.modTdc i j f).seq = d.seq := rfl
@[simp] theorem Dev.modTdc_uc (d : Dev) (i j : Nat) (f : Tdc → Tdc) : (d.modTdc i j f).uc = d.uc := rfl
@[simp] theorem Dev.modTdc_pat (d : Dev) (i j : Nat) (f : Tdc → Tdc) : (d.modTdc i j f).pat = d.pat := rfl
@[simp] theorem Dev.modTdc_cap (d : Dev) (i j : Nat) (f : Tdc → Tdc) : (d.modTdc i j f).cap = d.cap := rfl
@[simp] theorem Dev.modTdc_dsp (d : Dev) (i j : Nat) (f : Tdc → Tdc) : (d.modTdc i j f).dsp = d.dsp := rfl
@[simp] theorem Dev.modTdc_mi (d : Dev) (i j : Nat) (f : Tdc → Tdc) : (d.modTdc i j f).mi = d.mi := rfl
@[simp] theorem Dev.modTdc_cal (d : Dev) (i j : Nat) (f : Tdc → Tdc) : (d.modTdc i j f).cal = d.cal := rfl
@[simp] theorem Dev.modTdc_ctl (d : Dev) (i j : Nat) (f : Tdc → Tdc) : (d.modTdc i j f).ctl = d.ctl := rfl
@[simp] theorem Dev.modTdc_regs (d : Dev) (i j : Nat) (f : Tdc → Tdc) : (d.modTdc i j f).regs = d.regs := rfl
@[simp] theorem Dev.modTdc_tree (d : Dev) (i j : Nat) (f : Tdc → Tdc) : (d.modTdc i j f).tree = d.tree := rfl
@[simp] theorem Dev.modTdc_boot (d : Dev) (i j : Nat) (f : Tdc → Tdc) : (d.modTdc i j f).boot = d.boot := rfl
@[simp] theorem Dev.modTdc_fc (d : Dev) (i j : Nat) (f : Tdc → Tdc) : (d.modTdc i j f).fc = d.fc := rfl
@[simp] theorem Dev.modTdc_log (d : Dev) (i j : Nat) (f : Tdc → Tdc) : (d.modTdc i j f).log = d.log := rfl
@[simp] theorem Dev.modTdc_hk (d : Dev) (i j : Nat) (f : Tdc → Tdc) : (d.modTdc i j f).hk = d.hk := rfl
@[simp] theorem Dev.modTdc_flash (d : Dev) (i j : Nat) (f : Tdc → Tdc) : (d.modTdc i j f).flash = d.flash := rfl
@[simp] theorem Dev.modTdc_board (d : Dev) (i j : Nat) (f : Tdc → Tdc) : (d.modTdc i j f).board = d.board := rfl
@[simp] theorem Dev.modTdc_journal (d : Dev) (i j : Nat) (f : Tdc → Tdc) : (d.modTdc i j f).journal = d.journal := rfl
@[simp] theorem Dev.modTdc_shutLatch (d : Dev) (i j : Nat) (f : Tdc → Tdc) : (d.modTdc i j f).shutLatch = d.shutLatch := rfl
@[simp] theorem Dev.modTdc_free (d : Dev) (i j : Nat) (f : Tdc → Tdc) : (d.modTdc i j f).free = d.free := rfl
@[simp] theorem Dev.modTile_tl (d : Dev) (i j : Nat) (f : Tile → Tile) : (d.modTile i j f).tl = d.tl := rfl
@[simp] theorem Dev.modTile_pins (d : Dev) (i j : Nat) (f : Tile → Tile) : (d.modTile i j f).pins = d.pins := rfl
@[simp] theorem Dev.modTile_seq (d : Dev) (i j : Nat) (f : Tile → Tile) : (d.modTile i j f).seq = d.seq := rfl
@[simp] theorem Dev.modTile_uc (d : Dev) (i j : Nat) (f : Tile → Tile) : (d.modTile i j f).uc = d.uc := rfl
@[simp] theorem Dev.modTile_pat (d : Dev) (i j : Nat) (f : Tile → Tile) : (d.modTile i j f).pat = d.pat := rfl
@[simp] theorem Dev.modTile_cap (d : Dev) (i j : Nat) (f : Tile → Tile) : (d.modTile i j f).cap = d.cap := rfl
@[simp] theorem Dev.modTile_dsp (d : Dev) (i j : Nat) (f : Tile → Tile) : (d.modTile i j f).dsp = d.dsp := rfl
@[simp] theorem Dev.modTile_mi (d : Dev) (i j : Nat) (f : Tile → Tile) : (d.modTile i j f).mi = d.mi := rfl
@[simp] theorem Dev.modTile_cal (d : Dev) (i j : Nat) (f : Tile → Tile) : (d.modTile i j f).cal = d.cal := rfl
@[simp] theorem Dev.modTile_ctl (d : Dev) (i j : Nat) (f : Tile → Tile) : (d.modTile i j f).ctl = d.ctl := rfl
@[simp] theorem Dev.modTile_regs (d : Dev) (i j : Nat) (f : Tile → Tile) : (d.modTile i j f).regs = d.regs := rfl
@[simp] theorem Dev.modTile_tree (d : Dev) (i j : Nat) (f : Tile → Tile) : (d.modTile i j f).tree = d.tree := rfl
@[simp] theorem Dev.modTile_boot (d : Dev) (i j : Nat) (f : Tile → Tile) : (d.modTile i j f).boot = d.boot := rfl
@[simp] theorem Dev.modTile_fc (d : Dev) (i j : Nat) (f : Tile → Tile) : (d.modTile i j f).fc = d.fc := rfl
@[simp] theorem Dev.modTile_log (d : Dev) (i j : Nat) (f : Tile → Tile) : (d.modTile i j f).log = d.log := rfl
@[simp] theorem Dev.modTile_hk (d : Dev) (i j : Nat) (f : Tile → Tile) : (d.modTile i j f).hk = d.hk := rfl
@[simp] theorem Dev.modTile_flash (d : Dev) (i j : Nat) (f : Tile → Tile) : (d.modTile i j f).flash = d.flash := rfl
@[simp] theorem Dev.modTile_board (d : Dev) (i j : Nat) (f : Tile → Tile) : (d.modTile i j f).board = d.board := rfl
@[simp] theorem Dev.modTile_journal (d : Dev) (i j : Nat) (f : Tile → Tile) : (d.modTile i j f).journal = d.journal := rfl
@[simp] theorem Dev.modTile_shutLatch (d : Dev) (i j : Nat) (f : Tile → Tile) : (d.modTile i j f).shutLatch = d.shutLatch := rfl
@[simp] theorem Dev.modTile_free (d : Dev) (i j : Nat) (f : Tile → Tile) : (d.modTile i j f).free = d.free := rfl

/-! ### Records that a command forms -/

@[simp] theorem Dev.pushLog_tl (d : Dev) (i : LogItem) : (d.pushLog i).tl = d.tl := rfl
@[simp] theorem Dev.pushLog_pins (d : Dev) (i : LogItem) : (d.pushLog i).pins = d.pins := rfl
@[simp] theorem Dev.pushLog_banks (d : Dev) (i : LogItem) : (d.pushLog i).banks = d.banks := rfl
@[simp] theorem Dev.pushLog_seq (d : Dev) (i : LogItem) : (d.pushLog i).seq = d.seq := rfl
@[simp] theorem Dev.pushLog_uc (d : Dev) (i : LogItem) : (d.pushLog i).uc = d.uc := rfl
@[simp] theorem Dev.pushLog_pat (d : Dev) (i : LogItem) : (d.pushLog i).pat = d.pat := rfl
@[simp] theorem Dev.pushLog_cap (d : Dev) (i : LogItem) : (d.pushLog i).cap = d.cap := rfl
@[simp] theorem Dev.pushLog_dsp (d : Dev) (i : LogItem) : (d.pushLog i).dsp = d.dsp := rfl
@[simp] theorem Dev.pushLog_mi (d : Dev) (i : LogItem) : (d.pushLog i).mi = d.mi := rfl
@[simp] theorem Dev.pushLog_cal (d : Dev) (i : LogItem) : (d.pushLog i).cal = d.cal := rfl
@[simp] theorem Dev.pushLog_ctl (d : Dev) (i : LogItem) : (d.pushLog i).ctl = d.ctl := rfl
@[simp] theorem Dev.pushLog_regs (d : Dev) (i : LogItem) : (d.pushLog i).regs = d.regs := rfl
@[simp] theorem Dev.pushLog_tree (d : Dev) (i : LogItem) : (d.pushLog i).tree = d.tree := rfl
@[simp] theorem Dev.pushLog_boot (d : Dev) (i : LogItem) : (d.pushLog i).boot = d.boot := rfl
@[simp] theorem Dev.pushLog_fc (d : Dev) (i : LogItem) : (d.pushLog i).fc = d.fc := rfl
@[simp] theorem Dev.pushLog_hk (d : Dev) (i : LogItem) : (d.pushLog i).hk = d.hk := rfl
@[simp] theorem Dev.pushLog_flash (d : Dev) (i : LogItem) : (d.pushLog i).flash = d.flash := rfl
@[simp] theorem Dev.pushLog_board (d : Dev) (i : LogItem) : (d.pushLog i).board = d.board := rfl
@[simp] theorem Dev.pushLog_journal (d : Dev) (i : LogItem) : (d.pushLog i).journal = d.journal := rfl
@[simp] theorem Dev.pushLog_shutLatch (d : Dev) (i : LogItem) : (d.pushLog i).shutLatch = d.shutLatch := rfl
@[simp] theorem Dev.pushLog_free (d : Dev) (i : LogItem) : (d.pushLog i).free = d.free := rfl
@[simp] theorem Dev.interim_tl (d : Dev) (o : Origin) (c : Cpl) : (d.interim o c).tl = d.tl := rfl
@[simp] theorem Dev.interim_pins (d : Dev) (o : Origin) (c : Cpl) : (d.interim o c).pins = d.pins := rfl
@[simp] theorem Dev.interim_banks (d : Dev) (o : Origin) (c : Cpl) : (d.interim o c).banks = d.banks := rfl
@[simp] theorem Dev.interim_seq (d : Dev) (o : Origin) (c : Cpl) : (d.interim o c).seq = d.seq := rfl
@[simp] theorem Dev.interim_uc (d : Dev) (o : Origin) (c : Cpl) : (d.interim o c).uc = d.uc := rfl
@[simp] theorem Dev.interim_pat (d : Dev) (o : Origin) (c : Cpl) : (d.interim o c).pat = d.pat := rfl
@[simp] theorem Dev.interim_cap (d : Dev) (o : Origin) (c : Cpl) : (d.interim o c).cap = d.cap := rfl
@[simp] theorem Dev.interim_dsp (d : Dev) (o : Origin) (c : Cpl) : (d.interim o c).dsp = d.dsp := rfl
@[simp] theorem Dev.interim_mi (d : Dev) (o : Origin) (c : Cpl) : (d.interim o c).mi = d.mi := rfl
@[simp] theorem Dev.interim_cal (d : Dev) (o : Origin) (c : Cpl) : (d.interim o c).cal = d.cal := rfl
@[simp] theorem Dev.interim_regs (d : Dev) (o : Origin) (c : Cpl) : (d.interim o c).regs = d.regs := rfl
@[simp] theorem Dev.interim_tree (d : Dev) (o : Origin) (c : Cpl) : (d.interim o c).tree = d.tree := rfl
@[simp] theorem Dev.interim_boot (d : Dev) (o : Origin) (c : Cpl) : (d.interim o c).boot = d.boot := rfl
@[simp] theorem Dev.interim_fc (d : Dev) (o : Origin) (c : Cpl) : (d.interim o c).fc = d.fc := rfl
@[simp] theorem Dev.interim_log (d : Dev) (o : Origin) (c : Cpl) : (d.interim o c).log = d.log := rfl
@[simp] theorem Dev.interim_hk (d : Dev) (o : Origin) (c : Cpl) : (d.interim o c).hk = d.hk := rfl
@[simp] theorem Dev.interim_flash (d : Dev) (o : Origin) (c : Cpl) : (d.interim o c).flash = d.flash := rfl
@[simp] theorem Dev.interim_board (d : Dev) (o : Origin) (c : Cpl) : (d.interim o c).board = d.board := rfl
@[simp] theorem Dev.interim_journal (d : Dev) (o : Origin) (c : Cpl) : (d.interim o c).journal = d.journal := rfl
@[simp] theorem Dev.interim_shutLatch (d : Dev) (o : Origin) (c : Cpl) : (d.interim o c).shutLatch = d.shutLatch := rfl
@[simp] theorem Dev.interim_free (d : Dev) (o : Origin) (c : Cpl) : (d.interim o c).free = d.free := rfl
@[simp] theorem Dev.accept_tl (d : Dev) (g : Tag) : (d.accept g).tl = d.tl := rfl
@[simp] theorem Dev.accept_pins (d : Dev) (g : Tag) : (d.accept g).pins = d.pins := rfl
@[simp] theorem Dev.accept_banks (d : Dev) (g : Tag) : (d.accept g).banks = d.banks := rfl
@[simp] theorem Dev.accept_seq (d : Dev) (g : Tag) : (d.accept g).seq = d.seq := rfl
@[simp] theorem Dev.accept_uc (d : Dev) (g : Tag) : (d.accept g).uc = d.uc := rfl
@[simp] theorem Dev.accept_pat (d : Dev) (g : Tag) : (d.accept g).pat = d.pat := rfl
@[simp] theorem Dev.accept_cap (d : Dev) (g : Tag) : (d.accept g).cap = d.cap := rfl
@[simp] theorem Dev.accept_dsp (d : Dev) (g : Tag) : (d.accept g).dsp = d.dsp := rfl
@[simp] theorem Dev.accept_mi (d : Dev) (g : Tag) : (d.accept g).mi = d.mi := rfl
@[simp] theorem Dev.accept_cal (d : Dev) (g : Tag) : (d.accept g).cal = d.cal := rfl
@[simp] theorem Dev.accept_regs (d : Dev) (g : Tag) : (d.accept g).regs = d.regs := rfl
@[simp] theorem Dev.accept_tree (d : Dev) (g : Tag) : (d.accept g).tree = d.tree := rfl
@[simp] theorem Dev.accept_boot (d : Dev) (g : Tag) : (d.accept g).boot = d.boot := rfl
@[simp] theorem Dev.accept_fc (d : Dev) (g : Tag) : (d.accept g).fc = d.fc := rfl
@[simp] theorem Dev.accept_log (d : Dev) (g : Tag) : (d.accept g).log = d.log := rfl
@[simp] theorem Dev.accept_hk (d : Dev) (g : Tag) : (d.accept g).hk = d.hk := rfl
@[simp] theorem Dev.accept_flash (d : Dev) (g : Tag) : (d.accept g).flash = d.flash := rfl
@[simp] theorem Dev.accept_board (d : Dev) (g : Tag) : (d.accept g).board = d.board := rfl
@[simp] theorem Dev.accept_journal (d : Dev) (g : Tag) : (d.accept g).journal = d.journal := rfl
@[simp] theorem Dev.accept_shutLatch (d : Dev) (g : Tag) : (d.accept g).shutLatch = d.shutLatch := rfl
@[simp] theorem Dev.accept_free (d : Dev) (g : Tag) : (d.accept g).free = d.free := rfl
@[simp] theorem Dev.packet_tl (d : Dev) (p : Packet) : (d.packet p).tl = d.tl := rfl
@[simp] theorem Dev.packet_pins (d : Dev) (p : Packet) : (d.packet p).pins = d.pins := rfl
@[simp] theorem Dev.packet_banks (d : Dev) (p : Packet) : (d.packet p).banks = d.banks := rfl
@[simp] theorem Dev.packet_seq (d : Dev) (p : Packet) : (d.packet p).seq = d.seq := rfl
@[simp] theorem Dev.packet_uc (d : Dev) (p : Packet) : (d.packet p).uc = d.uc := rfl
@[simp] theorem Dev.packet_pat (d : Dev) (p : Packet) : (d.packet p).pat = d.pat := rfl
@[simp] theorem Dev.packet_cap (d : Dev) (p : Packet) : (d.packet p).cap = d.cap := rfl
@[simp] theorem Dev.packet_dsp (d : Dev) (p : Packet) : (d.packet p).dsp = d.dsp := rfl
@[simp] theorem Dev.packet_mi (d : Dev) (p : Packet) : (d.packet p).mi = d.mi := rfl
@[simp] theorem Dev.packet_cal (d : Dev) (p : Packet) : (d.packet p).cal = d.cal := rfl
@[simp] theorem Dev.packet_regs (d : Dev) (p : Packet) : (d.packet p).regs = d.regs := rfl
@[simp] theorem Dev.packet_tree (d : Dev) (p : Packet) : (d.packet p).tree = d.tree := rfl
@[simp] theorem Dev.packet_boot (d : Dev) (p : Packet) : (d.packet p).boot = d.boot := rfl
@[simp] theorem Dev.packet_fc (d : Dev) (p : Packet) : (d.packet p).fc = d.fc := rfl
@[simp] theorem Dev.packet_log (d : Dev) (p : Packet) : (d.packet p).log = d.log := rfl
@[simp] theorem Dev.packet_hk (d : Dev) (p : Packet) : (d.packet p).hk = d.hk := rfl
@[simp] theorem Dev.packet_flash (d : Dev) (p : Packet) : (d.packet p).flash = d.flash := rfl
@[simp] theorem Dev.packet_board (d : Dev) (p : Packet) : (d.packet p).board = d.board := rfl
@[simp] theorem Dev.packet_journal (d : Dev) (p : Packet) : (d.packet p).journal = d.journal := rfl
@[simp] theorem Dev.packet_shutLatch (d : Dev) (p : Packet) : (d.packet p).shutLatch = d.shutLatch := rfl
@[simp] theorem Dev.packet_free (d : Dev) (p : Packet) : (d.packet p).free = d.free := rfl
@[simp] theorem Dev.postAt_tl (d : Dev) (a b : Nat) (l : List Int) (e : BitVec 16) (t : Nat) (q : BitVec 4) : (d.postAt a b l e t q).tl = d.tl := by unfold Dev.postAt; split <;> rfl
@[simp] theorem Dev.postAt_pins (d : Dev) (a b : Nat) (l : List Int) (e : BitVec 16) (t : Nat) (q : BitVec 4) : (d.postAt a b l e t q).pins = d.pins := by unfold Dev.postAt; split <;> rfl
@[simp] theorem Dev.postAt_banks (d : Dev) (a b : Nat) (l : List Int) (e : BitVec 16) (t : Nat) (q : BitVec 4) : (d.postAt a b l e t q).banks = d.banks := by unfold Dev.postAt; split <;> rfl
@[simp] theorem Dev.postAt_seq (d : Dev) (a b : Nat) (l : List Int) (e : BitVec 16) (t : Nat) (q : BitVec 4) : (d.postAt a b l e t q).seq = d.seq := by unfold Dev.postAt; split <;> rfl
@[simp] theorem Dev.postAt_uc (d : Dev) (a b : Nat) (l : List Int) (e : BitVec 16) (t : Nat) (q : BitVec 4) : (d.postAt a b l e t q).uc = d.uc := by unfold Dev.postAt; split <;> rfl
@[simp] theorem Dev.postAt_pat (d : Dev) (a b : Nat) (l : List Int) (e : BitVec 16) (t : Nat) (q : BitVec 4) : (d.postAt a b l e t q).pat = d.pat := by unfold Dev.postAt; split <;> rfl
@[simp] theorem Dev.postAt_cap (d : Dev) (a b : Nat) (l : List Int) (e : BitVec 16) (t : Nat) (q : BitVec 4) : (d.postAt a b l e t q).cap = d.cap := by unfold Dev.postAt; split <;> rfl
@[simp] theorem Dev.postAt_dsp (d : Dev) (a b : Nat) (l : List Int) (e : BitVec 16) (t : Nat) (q : BitVec 4) : (d.postAt a b l e t q).dsp = d.dsp := by unfold Dev.postAt; split <;> rfl
@[simp] theorem Dev.postAt_mi (d : Dev) (a b : Nat) (l : List Int) (e : BitVec 16) (t : Nat) (q : BitVec 4) : (d.postAt a b l e t q).mi = d.mi := by unfold Dev.postAt; split <;> rfl
@[simp] theorem Dev.postAt_cal (d : Dev) (a b : Nat) (l : List Int) (e : BitVec 16) (t : Nat) (q : BitVec 4) : (d.postAt a b l e t q).cal = d.cal := by unfold Dev.postAt; split <;> rfl
@[simp] theorem Dev.postAt_regs (d : Dev) (a b : Nat) (l : List Int) (e : BitVec 16) (t : Nat) (q : BitVec 4) : (d.postAt a b l e t q).regs = d.regs := by unfold Dev.postAt; split <;> rfl
@[simp] theorem Dev.postAt_tree (d : Dev) (a b : Nat) (l : List Int) (e : BitVec 16) (t : Nat) (q : BitVec 4) : (d.postAt a b l e t q).tree = d.tree := by unfold Dev.postAt; split <;> rfl
@[simp] theorem Dev.postAt_boot (d : Dev) (a b : Nat) (l : List Int) (e : BitVec 16) (t : Nat) (q : BitVec 4) : (d.postAt a b l e t q).boot = d.boot := by unfold Dev.postAt; split <;> rfl
@[simp] theorem Dev.postAt_fc (d : Dev) (a b : Nat) (l : List Int) (e : BitVec 16) (t : Nat) (q : BitVec 4) : (d.postAt a b l e t q).fc = d.fc := by unfold Dev.postAt; split <;> rfl
@[simp] theorem Dev.postAt_log (d : Dev) (a b : Nat) (l : List Int) (e : BitVec 16) (t : Nat) (q : BitVec 4) : (d.postAt a b l e t q).log = d.log := by unfold Dev.postAt; split <;> rfl
@[simp] theorem Dev.postAt_hk (d : Dev) (a b : Nat) (l : List Int) (e : BitVec 16) (t : Nat) (q : BitVec 4) : (d.postAt a b l e t q).hk = d.hk := by unfold Dev.postAt; split <;> rfl
@[simp] theorem Dev.postAt_flash (d : Dev) (a b : Nat) (l : List Int) (e : BitVec 16) (t : Nat) (q : BitVec 4) : (d.postAt a b l e t q).flash = d.flash := by unfold Dev.postAt; split <;> rfl
@[simp] theorem Dev.postAt_board (d : Dev) (a b : Nat) (l : List Int) (e : BitVec 16) (t : Nat) (q : BitVec 4) : (d.postAt a b l e t q).board = d.board := by unfold Dev.postAt; split <;> rfl
@[simp] theorem Dev.postAt_journal (d : Dev) (a b : Nat) (l : List Int) (e : BitVec 16) (t : Nat) (q : BitVec 4) : (d.postAt a b l e t q).journal = d.journal := by unfold Dev.postAt; split <;> rfl
@[simp] theorem Dev.postAt_shutLatch (d : Dev) (a b : Nat) (l : List Int) (e : BitVec 16) (t : Nat) (q : BitVec 4) : (d.postAt a b l e t q).shutLatch = d.shutLatch := by unfold Dev.postAt; split <;> rfl
@[simp] theorem Dev.postAt_free (d : Dev) (a b : Nat) (l : List Int) (e : BitVec 16) (t : Nat) (q : BitVec 4) : (d.postAt a b l e t q).free = d.free := by unfold Dev.postAt; split <;> rfl
@[simp] theorem Dev.post_tl (d : Dev) (a b : Nat) (l : List Int) : (d.post a b l).tl = d.tl := by simp [Dev.post]
@[simp] theorem Dev.post_pins (d : Dev) (a b : Nat) (l : List Int) : (d.post a b l).pins = d.pins := by simp [Dev.post]
@[simp] theorem Dev.post_banks (d : Dev) (a b : Nat) (l : List Int) : (d.post a b l).banks = d.banks := by simp [Dev.post]
@[simp] theorem Dev.post_seq (d : Dev) (a b : Nat) (l : List Int) : (d.post a b l).seq = d.seq := by simp [Dev.post]
@[simp] theorem Dev.post_uc (d : Dev) (a b : Nat) (l : List Int) : (d.post a b l).uc = d.uc := by simp [Dev.post]
@[simp] theorem Dev.post_pat (d : Dev) (a b : Nat) (l : List Int) : (d.post a b l).pat = d.pat := by simp [Dev.post]
@[simp] theorem Dev.post_cap (d : Dev) (a b : Nat) (l : List Int) : (d.post a b l).cap = d.cap := by simp [Dev.post]
@[simp] theorem Dev.post_dsp (d : Dev) (a b : Nat) (l : List Int) : (d.post a b l).dsp = d.dsp := by simp [Dev.post]
@[simp] theorem Dev.post_mi (d : Dev) (a b : Nat) (l : List Int) : (d.post a b l).mi = d.mi := by simp [Dev.post]
@[simp] theorem Dev.post_cal (d : Dev) (a b : Nat) (l : List Int) : (d.post a b l).cal = d.cal := by simp [Dev.post]
@[simp] theorem Dev.post_regs (d : Dev) (a b : Nat) (l : List Int) : (d.post a b l).regs = d.regs := by simp [Dev.post]
@[simp] theorem Dev.post_tree (d : Dev) (a b : Nat) (l : List Int) : (d.post a b l).tree = d.tree := by simp [Dev.post]
@[simp] theorem Dev.post_boot (d : Dev) (a b : Nat) (l : List Int) : (d.post a b l).boot = d.boot := by simp [Dev.post]
@[simp] theorem Dev.post_fc (d : Dev) (a b : Nat) (l : List Int) : (d.post a b l).fc = d.fc := by simp [Dev.post]
@[simp] theorem Dev.post_log (d : Dev) (a b : Nat) (l : List Int) : (d.post a b l).log = d.log := by simp [Dev.post]
@[simp] theorem Dev.post_hk (d : Dev) (a b : Nat) (l : List Int) : (d.post a b l).hk = d.hk := by simp [Dev.post]
@[simp] theorem Dev.post_flash (d : Dev) (a b : Nat) (l : List Int) : (d.post a b l).flash = d.flash := by simp [Dev.post]
@[simp] theorem Dev.post_board (d : Dev) (a b : Nat) (l : List Int) : (d.post a b l).board = d.board := by simp [Dev.post]
@[simp] theorem Dev.post_journal (d : Dev) (a b : Nat) (l : List Int) : (d.post a b l).journal = d.journal := by simp [Dev.post]
@[simp] theorem Dev.post_shutLatch (d : Dev) (a b : Nat) (l : List Int) : (d.post a b l).shutLatch = d.shutLatch := by simp [Dev.post]
@[simp] theorem Dev.post_free (d : Dev) (a b : Nat) (l : List Int) : (d.post a b l).free = d.free := by simp [Dev.post]
/-- The final completion of a command is a change of the control complex alone. -/
theorem Dev.finish_eq (d : Dev) (g : Tag) (c : Cpl) : ∃ x, d.finish g c = { d with ctl := x } := by
  unfold Dev.finish
  split
  · exact ⟨_, rfl⟩
  · by_cases hg : (‹Flight›).group = true
    · by_cases hp : (‹Flight›).perdev = true
      · simp only [hg, hp, if_true]; exact ⟨_, rfl⟩
      · simp only [hg, hp, if_true]; exact ⟨_, rfl⟩
    · simp only [hg]; exact ⟨_, rfl⟩

@[simp] theorem Dev.finish_tl (d : Dev) (g : Tag) (c : Cpl) : (d.finish g c).tl = d.tl := by obtain ⟨x, h⟩ := d.finish_eq g c; rw [h]
@[simp] theorem Dev.finish_pins (d : Dev) (g : Tag) (c : Cpl) : (d.finish g c).pins = d.pins := by obtain ⟨x, h⟩ := d.finish_eq g c; rw [h]
@[simp] theorem Dev.finish_banks (d : Dev) (g : Tag) (c : Cpl) : (d.finish g c).banks = d.banks := by obtain ⟨x, h⟩ := d.finish_eq g c; rw [h]
@[simp] theorem Dev.finish_seq (d : Dev) (g : Tag) (c : Cpl) : (d.finish g c).seq = d.seq := by obtain ⟨x, h⟩ := d.finish_eq g c; rw [h]
@[simp] theorem Dev.finish_uc (d : Dev) (g : Tag) (c : Cpl) : (d.finish g c).uc = d.uc := by obtain ⟨x, h⟩ := d.finish_eq g c; rw [h]
@[simp] theorem Dev.finish_pat (d : Dev) (g : Tag) (c : Cpl) : (d.finish g c).pat = d.pat := by obtain ⟨x, h⟩ := d.finish_eq g c; rw [h]
@[simp] theorem Dev.finish_cap (d : Dev) (g : Tag) (c : Cpl) : (d.finish g c).cap = d.cap := by obtain ⟨x, h⟩ := d.finish_eq g c; rw [h]
@[simp] theorem Dev.finish_dsp (d : Dev) (g : Tag) (c : Cpl) : (d.finish g c).dsp = d.dsp := by obtain ⟨x, h⟩ := d.finish_eq g c; rw [h]
@[simp] theorem Dev.finish_mi (d : Dev) (g : Tag) (c : Cpl) : (d.finish g c).mi = d.mi := by obtain ⟨x, h⟩ := d.finish_eq g c; rw [h]
@[simp] theorem Dev.finish_cal (d : Dev) (g : Tag) (c : Cpl) : (d.finish g c).cal = d.cal := by obtain ⟨x, h⟩ := d.finish_eq g c; rw [h]
@[simp] theorem Dev.finish_regs (d : Dev) (g : Tag) (c : Cpl) : (d.finish g c).regs = d.regs := by obtain ⟨x, h⟩ := d.finish_eq g c; rw [h]
@[simp] theorem Dev.finish_tree (d : Dev) (g : Tag) (c : Cpl) : (d.finish g c).tree = d.tree := by obtain ⟨x, h⟩ := d.finish_eq g c; rw [h]
@[simp] theorem Dev.finish_boot (d : Dev) (g : Tag) (c : Cpl) : (d.finish g c).boot = d.boot := by obtain ⟨x, h⟩ := d.finish_eq g c; rw [h]
@[simp] theorem Dev.finish_fc (d : Dev) (g : Tag) (c : Cpl) : (d.finish g c).fc = d.fc := by obtain ⟨x, h⟩ := d.finish_eq g c; rw [h]
@[simp] theorem Dev.finish_log (d : Dev) (g : Tag) (c : Cpl) : (d.finish g c).log = d.log := by obtain ⟨x, h⟩ := d.finish_eq g c; rw [h]
@[simp] theorem Dev.finish_hk (d : Dev) (g : Tag) (c : Cpl) : (d.finish g c).hk = d.hk := by obtain ⟨x, h⟩ := d.finish_eq g c; rw [h]
@[simp] theorem Dev.finish_flash (d : Dev) (g : Tag) (c : Cpl) : (d.finish g c).flash = d.flash := by obtain ⟨x, h⟩ := d.finish_eq g c; rw [h]
@[simp] theorem Dev.finish_board (d : Dev) (g : Tag) (c : Cpl) : (d.finish g c).board = d.board := by obtain ⟨x, h⟩ := d.finish_eq g c; rw [h]
@[simp] theorem Dev.finish_journal (d : Dev) (g : Tag) (c : Cpl) : (d.finish g c).journal = d.journal := by obtain ⟨x, h⟩ := d.finish_eq g c; rw [h]
@[simp] theorem Dev.finish_shutLatch (d : Dev) (g : Tag) (c : Cpl) : (d.finish g c).shutLatch = d.shutLatch := by obtain ⟨x, h⟩ := d.finish_eq g c; rw [h]
@[simp] theorem Dev.finish_free (d : Dev) (g : Tag) (c : Cpl) : (d.finish g c).free = d.free := by obtain ⟨x, h⟩ := d.finish_eq g c; rw [h]
@[simp] theorem Dev.ok_tl (d : Dev) (g : Tag) : (d.ok g).tl = d.tl := by simp [Dev.ok]
@[simp] theorem Dev.ok_pins (d : Dev) (g : Tag) : (d.ok g).pins = d.pins := by simp [Dev.ok]
@[simp] theorem Dev.ok_banks (d : Dev) (g : Tag) : (d.ok g).banks = d.banks := by simp [Dev.ok]
@[simp] theorem Dev.ok_seq (d : Dev) (g : Tag) : (d.ok g).seq = d.seq := by simp [Dev.ok]
@[simp] theorem Dev.ok_uc (d : Dev) (g : Tag) : (d.ok g).uc = d.uc := by simp [Dev.ok]
@[simp] theorem Dev.ok_pat (d : Dev) (g : Tag) : (d.ok g).pat = d.pat := by simp [Dev.ok]
@[simp] theorem Dev.ok_cap (d : Dev) (g : Tag) : (d.ok g).cap = d.cap := by simp [Dev.ok]
@[simp] theorem Dev.ok_dsp (d : Dev) (g : Tag) : (d.ok g).dsp = d.dsp := by simp [Dev.ok]
@[simp] theorem Dev.ok_mi (d : Dev) (g : Tag) : (d.ok g).mi = d.mi := by simp [Dev.ok]
@[simp] theorem Dev.ok_cal (d : Dev) (g : Tag) : (d.ok g).cal = d.cal := by simp [Dev.ok]
@[simp] theorem Dev.ok_regs (d : Dev) (g : Tag) : (d.ok g).regs = d.regs := by simp [Dev.ok]
@[simp] theorem Dev.ok_tree (d : Dev) (g : Tag) : (d.ok g).tree = d.tree := by simp [Dev.ok]
@[simp] theorem Dev.ok_boot (d : Dev) (g : Tag) : (d.ok g).boot = d.boot := by simp [Dev.ok]
@[simp] theorem Dev.ok_fc (d : Dev) (g : Tag) : (d.ok g).fc = d.fc := by simp [Dev.ok]
@[simp] theorem Dev.ok_log (d : Dev) (g : Tag) : (d.ok g).log = d.log := by simp [Dev.ok]
@[simp] theorem Dev.ok_hk (d : Dev) (g : Tag) : (d.ok g).hk = d.hk := by simp [Dev.ok]
@[simp] theorem Dev.ok_flash (d : Dev) (g : Tag) : (d.ok g).flash = d.flash := by simp [Dev.ok]
@[simp] theorem Dev.ok_board (d : Dev) (g : Tag) : (d.ok g).board = d.board := by simp [Dev.ok]
@[simp] theorem Dev.ok_journal (d : Dev) (g : Tag) : (d.ok g).journal = d.journal := by simp [Dev.ok]
@[simp] theorem Dev.ok_shutLatch (d : Dev) (g : Tag) : (d.ok g).shutLatch = d.shutLatch := by simp [Dev.ok]
@[simp] theorem Dev.ok_free (d : Dev) (g : Tag) : (d.ok g).free = d.free := by simp [Dev.ok]
@[simp] theorem Dev.okResp_tl (d : Dev) (g : Tag) (r : List Int) : (d.okResp g r).tl = d.tl := by simp [Dev.okResp]
@[simp] theorem Dev.okResp_pins (d : Dev) (g : Tag) (r : List Int) : (d.okResp g r).pins = d.pins := by simp [Dev.okResp]
@[simp] theorem Dev.okResp_banks (d : Dev) (g : Tag) (r : List Int) : (d.okResp g r).banks = d.banks := by simp [Dev.okResp]
@[simp] theorem Dev.okResp_seq (d : Dev) (g : Tag) (r : List Int) : (d.okResp g r).seq = d.seq := by simp [Dev.okResp]
@[simp] theorem Dev.okResp_uc (d : Dev) (g : Tag) (r : List Int) : (d.okResp g r).uc = d.uc := by simp [Dev.okResp]
@[simp] theorem Dev.okResp_pat (d : Dev) (g : Tag) (r : List Int) : (d.okResp g r).pat = d.pat := by simp [Dev.okResp]
@[simp] theorem Dev.okResp_cap (d : Dev) (g : Tag) (r : List Int) : (d.okResp g r).cap = d.cap := by simp [Dev.okResp]
@[simp] theorem Dev.okResp_dsp (d : Dev) (g : Tag) (r : List Int) : (d.okResp g r).dsp = d.dsp := by simp [Dev.okResp]
@[simp] theorem Dev.okResp_mi (d : Dev) (g : Tag) (r : List Int) : (d.okResp g r).mi = d.mi := by simp [Dev.okResp]
@[simp] theorem Dev.okResp_cal (d : Dev) (g : Tag) (r : List Int) : (d.okResp g r).cal = d.cal := by simp [Dev.okResp]
@[simp] theorem Dev.okResp_regs (d : Dev) (g : Tag) (r : List Int) : (d.okResp g r).regs = d.regs := by simp [Dev.okResp]
@[simp] theorem Dev.okResp_tree (d : Dev) (g : Tag) (r : List Int) : (d.okResp g r).tree = d.tree := by simp [Dev.okResp]
@[simp] theorem Dev.okResp_boot (d : Dev) (g : Tag) (r : List Int) : (d.okResp g r).boot = d.boot := by simp [Dev.okResp]
@[simp] theorem Dev.okResp_fc (d : Dev) (g : Tag) (r : List Int) : (d.okResp g r).fc = d.fc := by simp [Dev.okResp]
@[simp] theorem Dev.okResp_log (d : Dev) (g : Tag) (r : List Int) : (d.okResp g r).log = d.log := by simp [Dev.okResp]
@[simp] theorem Dev.okResp_hk (d : Dev) (g : Tag) (r : List Int) : (d.okResp g r).hk = d.hk := by simp [Dev.okResp]
@[simp] theorem Dev.okResp_flash (d : Dev) (g : Tag) (r : List Int) : (d.okResp g r).flash = d.flash := by simp [Dev.okResp]
@[simp] theorem Dev.okResp_board (d : Dev) (g : Tag) (r : List Int) : (d.okResp g r).board = d.board := by simp [Dev.okResp]
@[simp] theorem Dev.okResp_journal (d : Dev) (g : Tag) (r : List Int) : (d.okResp g r).journal = d.journal := by simp [Dev.okResp]
@[simp] theorem Dev.okResp_shutLatch (d : Dev) (g : Tag) (r : List Int) : (d.okResp g r).shutLatch = d.shutLatch := by simp [Dev.okResp]
@[simp] theorem Dev.okResp_free (d : Dev) (g : Tag) (r : List Int) : (d.okResp g r).free = d.free := by simp [Dev.okResp]
@[simp] theorem Dev.refuse_tl (d : Dev) (g : Tag) (st : BitVec 4) (a b c : Nat) : (d.refuse g st a b c).tl = d.tl := by simp [Dev.refuse]
@[simp] theorem Dev.refuse_pins (d : Dev) (g : Tag) (st : BitVec 4) (a b c : Nat) : (d.refuse g st a b c).pins = d.pins := by simp [Dev.refuse]
@[simp] theorem Dev.refuse_banks (d : Dev) (g : Tag) (st : BitVec 4) (a b c : Nat) : (d.refuse g st a b c).banks = d.banks := by simp [Dev.refuse]
@[simp] theorem Dev.refuse_seq (d : Dev) (g : Tag) (st : BitVec 4) (a b c : Nat) : (d.refuse g st a b c).seq = d.seq := by simp [Dev.refuse]
@[simp] theorem Dev.refuse_uc (d : Dev) (g : Tag) (st : BitVec 4) (a b c : Nat) : (d.refuse g st a b c).uc = d.uc := by simp [Dev.refuse]
@[simp] theorem Dev.refuse_pat (d : Dev) (g : Tag) (st : BitVec 4) (a b c : Nat) : (d.refuse g st a b c).pat = d.pat := by simp [Dev.refuse]
@[simp] theorem Dev.refuse_cap (d : Dev) (g : Tag) (st : BitVec 4) (a b c : Nat) : (d.refuse g st a b c).cap = d.cap := by simp [Dev.refuse]
@[simp] theorem Dev.refuse_dsp (d : Dev) (g : Tag) (st : BitVec 4) (a b c : Nat) : (d.refuse g st a b c).dsp = d.dsp := by simp [Dev.refuse]
@[simp] theorem Dev.refuse_mi (d : Dev) (g : Tag) (st : BitVec 4) (a b c : Nat) : (d.refuse g st a b c).mi = d.mi := by simp [Dev.refuse]
@[simp] theorem Dev.refuse_cal (d : Dev) (g : Tag) (st : BitVec 4) (a b c : Nat) : (d.refuse g st a b c).cal = d.cal := by simp [Dev.refuse]
@[simp] theorem Dev.refuse_regs (d : Dev) (g : Tag) (st : BitVec 4) (a b c : Nat) : (d.refuse g st a b c).regs = d.regs := by simp [Dev.refuse]
@[simp] theorem Dev.refuse_tree (d : Dev) (g : Tag) (st : BitVec 4) (a b c : Nat) : (d.refuse g st a b c).tree = d.tree := by simp [Dev.refuse]
@[simp] theorem Dev.refuse_boot (d : Dev) (g : Tag) (st : BitVec 4) (a b c : Nat) : (d.refuse g st a b c).boot = d.boot := by simp [Dev.refuse]
@[simp] theorem Dev.refuse_fc (d : Dev) (g : Tag) (st : BitVec 4) (a b c : Nat) : (d.refuse g st a b c).fc = d.fc := by simp [Dev.refuse]
@[simp] theorem Dev.refuse_log (d : Dev) (g : Tag) (st : BitVec 4) (a b c : Nat) : (d.refuse g st a b c).log = d.log := by simp [Dev.refuse]
@[simp] theorem Dev.refuse_hk (d : Dev) (g : Tag) (st : BitVec 4) (a b c : Nat) : (d.refuse g st a b c).hk = d.hk := by simp [Dev.refuse]
@[simp] theorem Dev.refuse_flash (d : Dev) (g : Tag) (st : BitVec 4) (a b c : Nat) : (d.refuse g st a b c).flash = d.flash := by simp [Dev.refuse]
@[simp] theorem Dev.refuse_board (d : Dev) (g : Tag) (st : BitVec 4) (a b c : Nat) : (d.refuse g st a b c).board = d.board := by simp [Dev.refuse]
@[simp] theorem Dev.refuse_journal (d : Dev) (g : Tag) (st : BitVec 4) (a b c : Nat) : (d.refuse g st a b c).journal = d.journal := by simp [Dev.refuse]
@[simp] theorem Dev.refuse_shutLatch (d : Dev) (g : Tag) (st : BitVec 4) (a b c : Nat) : (d.refuse g st a b c).shutLatch = d.shutLatch := by simp [Dev.refuse]
@[simp] theorem Dev.refuse_free (d : Dev) (g : Tag) (st : BitVec 4) (a b c : Nat) : (d.refuse g st a b c).free = d.free := by simp [Dev.refuse]
@[simp] theorem Dev.queued_tl (d : Dev) (g : Tag) (a : Nat) : (d.queued g a).tl = d.tl := by unfold Dev.queued; split <;> rfl
@[simp] theorem Dev.queued_pins (d : Dev) (g : Tag) (a : Nat) : (d.queued g a).pins = d.pins := by unfold Dev.queued; split <;> rfl
@[simp] theorem Dev.queued_banks (d : Dev) (g : Tag) (a : Nat) : (d.queued g a).banks = d.banks := by unfold Dev.queued; split <;> rfl
@[simp] theorem Dev.queued_seq (d : Dev) (g : Tag) (a : Nat) : (d.queued g a).seq = d.seq := by unfold Dev.queued; split <;> rfl
@[simp] theorem Dev.queued_uc (d : Dev) (g : Tag) (a : Nat) : (d.queued g a).uc = d.uc := by unfold Dev.queued; split <;> rfl
@[simp] theorem Dev.queued_pat (d : Dev) (g : Tag) (a : Nat) : (d.queued g a).pat = d.pat := by unfold Dev.queued; split <;> rfl
@[simp] theorem Dev.queued_cap (d : Dev) (g : Tag) (a : Nat) : (d.queued g a).cap = d.cap := by unfold Dev.queued; split <;> rfl
@[simp] theorem Dev.queued_dsp (d : Dev) (g : Tag) (a : Nat) : (d.queued g a).dsp = d.dsp := by unfold Dev.queued; split <;> rfl
@[simp] theorem Dev.queued_mi (d : Dev) (g : Tag) (a : Nat) : (d.queued g a).mi = d.mi := by unfold Dev.queued; split <;> rfl
@[simp] theorem Dev.queued_cal (d : Dev) (g : Tag) (a : Nat) : (d.queued g a).cal = d.cal := by unfold Dev.queued; split <;> rfl
@[simp] theorem Dev.queued_regs (d : Dev) (g : Tag) (a : Nat) : (d.queued g a).regs = d.regs := by unfold Dev.queued; split <;> rfl
@[simp] theorem Dev.queued_tree (d : Dev) (g : Tag) (a : Nat) : (d.queued g a).tree = d.tree := by unfold Dev.queued; split <;> rfl
@[simp] theorem Dev.queued_boot (d : Dev) (g : Tag) (a : Nat) : (d.queued g a).boot = d.boot := by unfold Dev.queued; split <;> rfl
@[simp] theorem Dev.queued_fc (d : Dev) (g : Tag) (a : Nat) : (d.queued g a).fc = d.fc := by unfold Dev.queued; split <;> rfl
@[simp] theorem Dev.queued_log (d : Dev) (g : Tag) (a : Nat) : (d.queued g a).log = d.log := by unfold Dev.queued; split <;> rfl
@[simp] theorem Dev.queued_hk (d : Dev) (g : Tag) (a : Nat) : (d.queued g a).hk = d.hk := by unfold Dev.queued; split <;> rfl
@[simp] theorem Dev.queued_flash (d : Dev) (g : Tag) (a : Nat) : (d.queued g a).flash = d.flash := by unfold Dev.queued; split <;> rfl
@[simp] theorem Dev.queued_board (d : Dev) (g : Tag) (a : Nat) : (d.queued g a).board = d.board := by unfold Dev.queued; split <;> rfl
@[simp] theorem Dev.queued_journal (d : Dev) (g : Tag) (a : Nat) : (d.queued g a).journal = d.journal := by unfold Dev.queued; split <;> rfl
@[simp] theorem Dev.queued_shutLatch (d : Dev) (g : Tag) (a : Nat) : (d.queued g a).shutLatch = d.shutLatch := by unfold Dev.queued; split <;> rfl
@[simp] theorem Dev.queued_free (d : Dev) (g : Tag) (a : Nat) : (d.queued g a).free = d.free := by unfold Dev.queued; split <;> rfl
@[simp] theorem Dev.openJob_tl (d : Dev) (j : Job) : (d.openJob j).tl = d.tl := rfl
@[simp] theorem Dev.openJob_pins (d : Dev) (j : Job) : (d.openJob j).pins = d.pins := rfl
@[simp] theorem Dev.openJob_banks (d : Dev) (j : Job) : (d.openJob j).banks = d.banks := rfl
@[simp] theorem Dev.openJob_seq (d : Dev) (j : Job) : (d.openJob j).seq = d.seq := rfl
@[simp] theorem Dev.openJob_uc (d : Dev) (j : Job) : (d.openJob j).uc = d.uc := rfl
@[simp] theorem Dev.openJob_pat (d : Dev) (j : Job) : (d.openJob j).pat = d.pat := rfl
@[simp] theorem Dev.openJob_cap (d : Dev) (j : Job) : (d.openJob j).cap = d.cap := rfl
@[simp] theorem Dev.openJob_dsp (d : Dev) (j : Job) : (d.openJob j).dsp = d.dsp := rfl
@[simp] theorem Dev.openJob_mi (d : Dev) (j : Job) : (d.openJob j).mi = d.mi := rfl
@[simp] theorem Dev.openJob_cal (d : Dev) (j : Job) : (d.openJob j).cal = d.cal := rfl
@[simp] theorem Dev.openJob_regs (d : Dev) (j : Job) : (d.openJob j).regs = d.regs := rfl
@[simp] theorem Dev.openJob_tree (d : Dev) (j : Job) : (d.openJob j).tree = d.tree := rfl
@[simp] theorem Dev.openJob_boot (d : Dev) (j : Job) : (d.openJob j).boot = d.boot := rfl
@[simp] theorem Dev.openJob_fc (d : Dev) (j : Job) : (d.openJob j).fc = d.fc := rfl
@[simp] theorem Dev.openJob_log (d : Dev) (j : Job) : (d.openJob j).log = d.log := rfl
@[simp] theorem Dev.openJob_hk (d : Dev) (j : Job) : (d.openJob j).hk = d.hk := rfl
@[simp] theorem Dev.openJob_flash (d : Dev) (j : Job) : (d.openJob j).flash = d.flash := rfl
@[simp] theorem Dev.openJob_board (d : Dev) (j : Job) : (d.openJob j).board = d.board := rfl
@[simp] theorem Dev.openJob_journal (d : Dev) (j : Job) : (d.openJob j).journal = d.journal := rfl
@[simp] theorem Dev.openJob_shutLatch (d : Dev) (j : Job) : (d.openJob j).shutLatch = d.shutLatch := rfl
@[simp] theorem Dev.openJob_free (d : Dev) (j : Job) : (d.openJob j).free = d.free := rfl
@[simp] theorem Dev.modJob_tl (d : Dev) (g : Tag) (f : Job → Job) : (d.modJob g f).tl = d.tl := rfl
@[simp] theorem Dev.modJob_pins (d : Dev) (g : Tag) (f : Job → Job) : (d.modJob g f).pins = d.pins := rfl
@[simp] theorem Dev.modJob_banks (d : Dev) (g : Tag) (f : Job → Job) : (d.modJob g f).banks = d.banks := rfl
@[simp] theorem Dev.modJob_seq (d : Dev) (g : Tag) (f : Job → Job) : (d.modJob g f).seq = d.seq := rfl
@[simp] theorem Dev.modJob_uc (d : Dev) (g : Tag) (f : Job → Job) : (d.modJob g f).uc = d.uc := rfl
@[simp] theorem Dev.modJob_pat (d : Dev) (g : Tag) (f : Job → Job) : (d.modJob g f).pat = d.pat := rfl
@[simp] theorem Dev.modJob_cap (d : Dev) (g : Tag) (f : Job → Job) : (d.modJob g f).cap = d.cap := rfl
@[simp] theorem Dev.modJob_dsp (d : Dev) (g : Tag) (f : Job → Job) : (d.modJob g f).dsp = d.dsp := rfl
@[simp] theorem Dev.modJob_mi (d : Dev) (g : Tag) (f : Job → Job) : (d.modJob g f).mi = d.mi := rfl
@[simp] theorem Dev.modJob_cal (d : Dev) (g : Tag) (f : Job → Job) : (d.modJob g f).cal = d.cal := rfl
@[simp] theorem Dev.modJob_regs (d : Dev) (g : Tag) (f : Job → Job) : (d.modJob g f).regs = d.regs := rfl
@[simp] theorem Dev.modJob_tree (d : Dev) (g : Tag) (f : Job → Job) : (d.modJob g f).tree = d.tree := rfl
@[simp] theorem Dev.modJob_boot (d : Dev) (g : Tag) (f : Job → Job) : (d.modJob g f).boot = d.boot := rfl
@[simp] theorem Dev.modJob_fc (d : Dev) (g : Tag) (f : Job → Job) : (d.modJob g f).fc = d.fc := rfl
@[simp] theorem Dev.modJob_log (d : Dev) (g : Tag) (f : Job → Job) : (d.modJob g f).log = d.log := rfl
@[simp] theorem Dev.modJob_hk (d : Dev) (g : Tag) (f : Job → Job) : (d.modJob g f).hk = d.hk := rfl
@[simp] theorem Dev.modJob_flash (d : Dev) (g : Tag) (f : Job → Job) : (d.modJob g f).flash = d.flash := rfl
@[simp] theorem Dev.modJob_board (d : Dev) (g : Tag) (f : Job → Job) : (d.modJob g f).board = d.board := rfl
@[simp] theorem Dev.modJob_journal (d : Dev) (g : Tag) (f : Job → Job) : (d.modJob g f).journal = d.journal := rfl
@[simp] theorem Dev.modJob_shutLatch (d : Dev) (g : Tag) (f : Job → Job) : (d.modJob g f).shutLatch = d.shutLatch := rfl
@[simp] theorem Dev.modJob_free (d : Dev) (g : Tag) (f : Job → Job) : (d.modJob g f).free = d.free := rfl
@[simp] theorem Dev.dropJob_tl (d : Dev) (g : Tag) : (d.dropJob g).tl = d.tl := rfl
@[simp] theorem Dev.dropJob_pins (d : Dev) (g : Tag) : (d.dropJob g).pins = d.pins := rfl
@[simp] theorem Dev.dropJob_banks (d : Dev) (g : Tag) : (d.dropJob g).banks = d.banks := rfl
@[simp] theorem Dev.dropJob_seq (d : Dev) (g : Tag) : (d.dropJob g).seq = d.seq := rfl
@[simp] theorem Dev.dropJob_uc (d : Dev) (g : Tag) : (d.dropJob g).uc = d.uc := rfl
@[simp] theorem Dev.dropJob_pat (d : Dev) (g : Tag) : (d.dropJob g).pat = d.pat := rfl
@[simp] theorem Dev.dropJob_cap (d : Dev) (g : Tag) : (d.dropJob g).cap = d.cap := rfl
@[simp] theorem Dev.dropJob_dsp (d : Dev) (g : Tag) : (d.dropJob g).dsp = d.dsp := rfl
@[simp] theorem Dev.dropJob_mi (d : Dev) (g : Tag) : (d.dropJob g).mi = d.mi := rfl
@[simp] theorem Dev.dropJob_cal (d : Dev) (g : Tag) : (d.dropJob g).cal = d.cal := rfl
@[simp] theorem Dev.dropJob_regs (d : Dev) (g : Tag) : (d.dropJob g).regs = d.regs := rfl
@[simp] theorem Dev.dropJob_tree (d : Dev) (g : Tag) : (d.dropJob g).tree = d.tree := rfl
@[simp] theorem Dev.dropJob_boot (d : Dev) (g : Tag) : (d.dropJob g).boot = d.boot := rfl
@[simp] theorem Dev.dropJob_fc (d : Dev) (g : Tag) : (d.dropJob g).fc = d.fc := rfl
@[simp] theorem Dev.dropJob_log (d : Dev) (g : Tag) : (d.dropJob g).log = d.log := rfl
@[simp] theorem Dev.dropJob_hk (d : Dev) (g : Tag) : (d.dropJob g).hk = d.hk := rfl
@[simp] theorem Dev.dropJob_flash (d : Dev) (g : Tag) : (d.dropJob g).flash = d.flash := rfl
@[simp] theorem Dev.dropJob_board (d : Dev) (g : Tag) : (d.dropJob g).board = d.board := rfl
@[simp] theorem Dev.dropJob_journal (d : Dev) (g : Tag) : (d.dropJob g).journal = d.journal := rfl
@[simp] theorem Dev.dropJob_shutLatch (d : Dev) (g : Tag) : (d.dropJob g).shutLatch = d.shutLatch := rfl
@[simp] theorem Dev.dropJob_free (d : Dev) (g : Tag) : (d.dropJob g).free = d.free := rfl
@[simp] theorem Dev.settleJob_tl (d : Dev) (g : Tag) : (d.settleJob g).tl = d.tl := by unfold Dev.settleJob; (repeat' split) <;> simp
@[simp] theorem Dev.settleJob_pins (d : Dev) (g : Tag) : (d.settleJob g).pins = d.pins := by unfold Dev.settleJob; (repeat' split) <;> simp
@[simp] theorem Dev.settleJob_banks (d : Dev) (g : Tag) : (d.settleJob g).banks = d.banks := by unfold Dev.settleJob; (repeat' split) <;> simp
@[simp] theorem Dev.settleJob_seq (d : Dev) (g : Tag) : (d.settleJob g).seq = d.seq := by unfold Dev.settleJob; (repeat' split) <;> simp
@[simp] theorem Dev.settleJob_uc (d : Dev) (g : Tag) : (d.settleJob g).uc = d.uc := by unfold Dev.settleJob; (repeat' split) <;> simp
@[simp] theorem Dev.settleJob_pat (d : Dev) (g : Tag) : (d.settleJob g).pat = d.pat := by unfold Dev.settleJob; (repeat' split) <;> simp
@[simp] theorem Dev.settleJob_cap (d : Dev) (g : Tag) : (d.settleJob g).cap = d.cap := by unfold Dev.settleJob; (repeat' split) <;> simp
@[simp] theorem Dev.settleJob_dsp (d : Dev) (g : Tag) : (d.settleJob g).dsp = d.dsp := by unfold Dev.settleJob; (repeat' split) <;> simp
@[simp] theorem Dev.settleJob_mi (d : Dev) (g : Tag) : (d.settleJob g).mi = d.mi := by unfold Dev.settleJob; (repeat' split) <;> simp
@[simp] theorem Dev.settleJob_cal (d : Dev) (g : Tag) : (d.settleJob g).cal = d.cal := by unfold Dev.settleJob; (repeat' split) <;> simp
@[simp] theorem Dev.settleJob_regs (d : Dev) (g : Tag) : (d.settleJob g).regs = d.regs := by unfold Dev.settleJob; (repeat' split) <;> simp
@[simp] theorem Dev.settleJob_tree (d : Dev) (g : Tag) : (d.settleJob g).tree = d.tree := by unfold Dev.settleJob; (repeat' split) <;> simp
@[simp] theorem Dev.settleJob_boot (d : Dev) (g : Tag) : (d.settleJob g).boot = d.boot := by unfold Dev.settleJob; (repeat' split) <;> simp
@[simp] theorem Dev.settleJob_fc (d : Dev) (g : Tag) : (d.settleJob g).fc = d.fc := by unfold Dev.settleJob; (repeat' split) <;> simp
@[simp] theorem Dev.settleJob_log (d : Dev) (g : Tag) : (d.settleJob g).log = d.log := by unfold Dev.settleJob; (repeat' split) <;> simp
@[simp] theorem Dev.settleJob_hk (d : Dev) (g : Tag) : (d.settleJob g).hk = d.hk := by unfold Dev.settleJob; (repeat' split) <;> simp
@[simp] theorem Dev.settleJob_flash (d : Dev) (g : Tag) : (d.settleJob g).flash = d.flash := by unfold Dev.settleJob; (repeat' split) <;> simp
@[simp] theorem Dev.settleJob_board (d : Dev) (g : Tag) : (d.settleJob g).board = d.board := by unfold Dev.settleJob; (repeat' split) <;> simp
@[simp] theorem Dev.settleJob_journal (d : Dev) (g : Tag) : (d.settleJob g).journal = d.journal := by unfold Dev.settleJob; (repeat' split) <;> simp
@[simp] theorem Dev.settleJob_shutLatch (d : Dev) (g : Tag) : (d.settleJob g).shutLatch = d.shutLatch := by unfold Dev.settleJob; (repeat' split) <;> simp
@[simp] theorem Dev.settleJob_free (d : Dev) (g : Tag) : (d.settleJob g).free = d.free := by unfold Dev.settleJob; (repeat' split) <;> simp
@[simp] theorem Dev.endUnitAt_tl (d : Dev) (g : Tag) (u z : Nat) : (d.endUnitAt g u z).tl = d.tl := by simp [Dev.endUnitAt]
@[simp] theorem Dev.endUnitAt_pins (d : Dev) (g : Tag) (u z : Nat) : (d.endUnitAt g u z).pins = d.pins := by simp [Dev.endUnitAt]
@[simp] theorem Dev.endUnitAt_banks (d : Dev) (g : Tag) (u z : Nat) : (d.endUnitAt g u z).banks = d.banks := by simp [Dev.endUnitAt]
@[simp] theorem Dev.endUnitAt_seq (d : Dev) (g : Tag) (u z : Nat) : (d.endUnitAt g u z).seq = d.seq := by simp [Dev.endUnitAt]
@[simp] theorem Dev.endUnitAt_uc (d : Dev) (g : Tag) (u z : Nat) : (d.endUnitAt g u z).uc = d.uc := by simp [Dev.endUnitAt]
@[simp] theorem Dev.endUnitAt_pat (d : Dev) (g : Tag) (u z : Nat) : (d.endUnitAt g u z).pat = d.pat := by simp [Dev.endUnitAt]
@[simp] theorem Dev.endUnitAt_cap (d : Dev) (g : Tag) (u z : Nat) : (d.endUnitAt g u z).cap = d.cap := by simp [Dev.endUnitAt]
@[simp] theorem Dev.endUnitAt_dsp (d : Dev) (g : Tag) (u z : Nat) : (d.endUnitAt g u z).dsp = d.dsp := by simp [Dev.endUnitAt]
@[simp] theorem Dev.endUnitAt_mi (d : Dev) (g : Tag) (u z : Nat) : (d.endUnitAt g u z).mi = d.mi := by simp [Dev.endUnitAt]
@[simp] theorem Dev.endUnitAt_cal (d : Dev) (g : Tag) (u z : Nat) : (d.endUnitAt g u z).cal = d.cal := by simp [Dev.endUnitAt]
@[simp] theorem Dev.endUnitAt_regs (d : Dev) (g : Tag) (u z : Nat) : (d.endUnitAt g u z).regs = d.regs := by simp [Dev.endUnitAt]
@[simp] theorem Dev.endUnitAt_tree (d : Dev) (g : Tag) (u z : Nat) : (d.endUnitAt g u z).tree = d.tree := by simp [Dev.endUnitAt]
@[simp] theorem Dev.endUnitAt_boot (d : Dev) (g : Tag) (u z : Nat) : (d.endUnitAt g u z).boot = d.boot := by simp [Dev.endUnitAt]
@[simp] theorem Dev.endUnitAt_fc (d : Dev) (g : Tag) (u z : Nat) : (d.endUnitAt g u z).fc = d.fc := by simp [Dev.endUnitAt]
@[simp] theorem Dev.endUnitAt_log (d : Dev) (g : Tag) (u z : Nat) : (d.endUnitAt g u z).log = d.log := by simp [Dev.endUnitAt]
@[simp] theorem Dev.endUnitAt_hk (d : Dev) (g : Tag) (u z : Nat) : (d.endUnitAt g u z).hk = d.hk := by simp [Dev.endUnitAt]
@[simp] theorem Dev.endUnitAt_flash (d : Dev) (g : Tag) (u z : Nat) : (d.endUnitAt g u z).flash = d.flash := by simp [Dev.endUnitAt]
@[simp] theorem Dev.endUnitAt_board (d : Dev) (g : Tag) (u z : Nat) : (d.endUnitAt g u z).board = d.board := by simp [Dev.endUnitAt]
@[simp] theorem Dev.endUnitAt_journal (d : Dev) (g : Tag) (u z : Nat) : (d.endUnitAt g u z).journal = d.journal := by simp [Dev.endUnitAt]
@[simp] theorem Dev.endUnitAt_shutLatch (d : Dev) (g : Tag) (u z : Nat) : (d.endUnitAt g u z).shutLatch = d.shutLatch := by simp [Dev.endUnitAt]
@[simp] theorem Dev.endUnitAt_free (d : Dev) (g : Tag) (u z : Nat) : (d.endUnitAt g u z).free = d.free := by simp [Dev.endUnitAt]
@[simp] theorem Dev.endUnit_tl (d : Dev) (g : Tag) (u : Nat) : (d.endUnit g u).tl = d.tl := by simp [Dev.endUnit]
@[simp] theorem Dev.endUnit_pins (d : Dev) (g : Tag) (u : Nat) : (d.endUnit g u).pins = d.pins := by simp [Dev.endUnit]
@[simp] theorem Dev.endUnit_banks (d : Dev) (g : Tag) (u : Nat) : (d.endUnit g u).banks = d.banks := by simp [Dev.endUnit]
@[simp] theorem Dev.endUnit_seq (d : Dev) (g : Tag) (u : Nat) : (d.endUnit g u).seq = d.seq := by simp [Dev.endUnit]
@[simp] theorem Dev.endUnit_uc (d : Dev) (g : Tag) (u : Nat) : (d.endUnit g u).uc = d.uc := by simp [Dev.endUnit]
@[simp] theorem Dev.endUnit_pat (d : Dev) (g : Tag) (u : Nat) : (d.endUnit g u).pat = d.pat := by simp [Dev.endUnit]
@[simp] theorem Dev.endUnit_cap (d : Dev) (g : Tag) (u : Nat) : (d.endUnit g u).cap = d.cap := by simp [Dev.endUnit]
@[simp] theorem Dev.endUnit_dsp (d : Dev) (g : Tag) (u : Nat) : (d.endUnit g u).dsp = d.dsp := by simp [Dev.endUnit]
@[simp] theorem Dev.endUnit_mi (d : Dev) (g : Tag) (u : Nat) : (d.endUnit g u).mi = d.mi := by simp [Dev.endUnit]
@[simp] theorem Dev.endUnit_cal (d : Dev) (g : Tag) (u : Nat) : (d.endUnit g u).cal = d.cal := by simp [Dev.endUnit]
@[simp] theorem Dev.endUnit_regs (d : Dev) (g : Tag) (u : Nat) : (d.endUnit g u).regs = d.regs := by simp [Dev.endUnit]
@[simp] theorem Dev.endUnit_tree (d : Dev) (g : Tag) (u : Nat) : (d.endUnit g u).tree = d.tree := by simp [Dev.endUnit]
@[simp] theorem Dev.endUnit_boot (d : Dev) (g : Tag) (u : Nat) : (d.endUnit g u).boot = d.boot := by simp [Dev.endUnit]
@[simp] theorem Dev.endUnit_fc (d : Dev) (g : Tag) (u : Nat) : (d.endUnit g u).fc = d.fc := by simp [Dev.endUnit]
@[simp] theorem Dev.endUnit_log (d : Dev) (g : Tag) (u : Nat) : (d.endUnit g u).log = d.log := by simp [Dev.endUnit]
@[simp] theorem Dev.endUnit_hk (d : Dev) (g : Tag) (u : Nat) : (d.endUnit g u).hk = d.hk := by simp [Dev.endUnit]
@[simp] theorem Dev.endUnit_flash (d : Dev) (g : Tag) (u : Nat) : (d.endUnit g u).flash = d.flash := by simp [Dev.endUnit]
@[simp] theorem Dev.endUnit_board (d : Dev) (g : Tag) (u : Nat) : (d.endUnit g u).board = d.board := by simp [Dev.endUnit]
@[simp] theorem Dev.endUnit_journal (d : Dev) (g : Tag) (u : Nat) : (d.endUnit g u).journal = d.journal := by simp [Dev.endUnit]
@[simp] theorem Dev.endUnit_shutLatch (d : Dev) (g : Tag) (u : Nat) : (d.endUnit g u).shutLatch = d.shutLatch := by simp [Dev.endUnit]
@[simp] theorem Dev.endUnit_free (d : Dev) (g : Tag) (u : Nat) : (d.endUnit g u).free = d.free := by simp [Dev.endUnit]
@[simp] theorem Dev.replaceUnit_tl (d : Dev) (g : Tag) (u : Nat) : (d.replaceUnit g u).tl = d.tl := by simp [Dev.replaceUnit]
@[simp] theorem Dev.replaceUnit_pins (d : Dev) (g : Tag) (u : Nat) : (d.replaceUnit g u).pins = d.pins := by simp [Dev.replaceUnit]
@[simp] theorem Dev.replaceUnit_banks (d : Dev) (g : Tag) (u : Nat) : (d.replaceUnit g u).banks = d.banks := by simp [Dev.replaceUnit]
@[simp] theorem Dev.replaceUnit_seq (d : Dev) (g : Tag) (u : Nat) : (d.replaceUnit g u).seq = d.seq := by simp [Dev.replaceUnit]
@[simp] theorem Dev.replaceUnit_uc (d : Dev) (g : Tag) (u : Nat) : (d.replaceUnit g u).uc = d.uc := by simp [Dev.replaceUnit]
@[simp] theorem Dev.replaceUnit_pat (d : Dev) (g : Tag) (u : Nat) : (d.replaceUnit g u).pat = d.pat := by simp [Dev.replaceUnit]
@[simp] theorem Dev.replaceUnit_cap (d : Dev) (g : Tag) (u : Nat) : (d.replaceUnit g u).cap = d.cap := by simp [Dev.replaceUnit]
@[simp] theorem Dev.replaceUnit_dsp (d : Dev) (g : Tag) (u : Nat) : (d.replaceUnit g u).dsp = d.dsp := by simp [Dev.replaceUnit]
@[simp] theorem Dev.replaceUnit_mi (d : Dev) (g : Tag) (u : Nat) : (d.replaceUnit g u).mi = d.mi := by simp [Dev.replaceUnit]
@[simp] theorem Dev.replaceUnit_cal (d : Dev) (g : Tag) (u : Nat) : (d.replaceUnit g u).cal = d.cal := by simp [Dev.replaceUnit]
@[simp] theorem Dev.replaceUnit_regs (d : Dev) (g : Tag) (u : Nat) : (d.replaceUnit g u).regs = d.regs := by simp [Dev.replaceUnit]
@[simp] theorem Dev.replaceUnit_tree (d : Dev) (g : Tag) (u : Nat) : (d.replaceUnit g u).tree = d.tree := by simp [Dev.replaceUnit]
@[simp] theorem Dev.replaceUnit_boot (d : Dev) (g : Tag) (u : Nat) : (d.replaceUnit g u).boot = d.boot := by simp [Dev.replaceUnit]
@[simp] theorem Dev.replaceUnit_fc (d : Dev) (g : Tag) (u : Nat) : (d.replaceUnit g u).fc = d.fc := by simp [Dev.replaceUnit]
@[simp] theorem Dev.replaceUnit_log (d : Dev) (g : Tag) (u : Nat) : (d.replaceUnit g u).log = d.log := by simp [Dev.replaceUnit]
@[simp] theorem Dev.replaceUnit_hk (d : Dev) (g : Tag) (u : Nat) : (d.replaceUnit g u).hk = d.hk := by simp [Dev.replaceUnit]
@[simp] theorem Dev.replaceUnit_flash (d : Dev) (g : Tag) (u : Nat) : (d.replaceUnit g u).flash = d.flash := by simp [Dev.replaceUnit]
@[simp] theorem Dev.replaceUnit_board (d : Dev) (g : Tag) (u : Nat) : (d.replaceUnit g u).board = d.board := by simp [Dev.replaceUnit]
@[simp] theorem Dev.replaceUnit_journal (d : Dev) (g : Tag) (u : Nat) : (d.replaceUnit g u).journal = d.journal := by simp [Dev.replaceUnit]
@[simp] theorem Dev.replaceUnit_shutLatch (d : Dev) (g : Tag) (u : Nat) : (d.replaceUnit g u).shutLatch = d.shutLatch := by simp [Dev.replaceUnit]
@[simp] theorem Dev.replaceUnit_free (d : Dev) (g : Tag) (u : Nat) : (d.replaceUnit g u).free = d.free := by simp [Dev.replaceUnit]
@[simp] theorem Dev.cutUnit_tl (d : Dev) (g : Tag) (u : Nat) : (d.cutUnit g u).tl = d.tl := by simp [Dev.cutUnit]
@[simp] theorem Dev.cutUnit_pins (d : Dev) (g : Tag) (u : Nat) : (d.cutUnit g u).pins = d.pins := by simp [Dev.cutUnit]
@[simp] theorem Dev.cutUnit_banks (d : Dev) (g : Tag) (u : Nat) : (d.cutUnit g u).banks = d.banks := by simp [Dev.cutUnit]
@[simp] theorem Dev.cutUnit_seq (d : Dev) (g : Tag) (u : Nat) : (d.cutUnit g u).seq = d.seq := by simp [Dev.cutUnit]
@[simp] theorem Dev.cutUnit_uc (d : Dev) (g : Tag) (u : Nat) : (d.cutUnit g u).uc = d.uc := by simp [Dev.cutUnit]
@[simp] theorem Dev.cutUnit_pat (d : Dev) (g : Tag) (u : Nat) : (d.cutUnit g u).pat = d.pat := by simp [Dev.cutUnit]
@[simp] theorem Dev.cutUnit_cap (d : Dev) (g : Tag) (u : Nat) : (d.cutUnit g u).cap = d.cap := by simp [Dev.cutUnit]
@[simp] theorem Dev.cutUnit_dsp (d : Dev) (g : Tag) (u : Nat) : (d.cutUnit g u).dsp = d.dsp := by simp [Dev.cutUnit]
@[simp] theorem Dev.cutUnit_mi (d : Dev) (g : Tag) (u : Nat) : (d.cutUnit g u).mi = d.mi := by simp [Dev.cutUnit]
@[simp] theorem Dev.cutUnit_cal (d : Dev) (g : Tag) (u : Nat) : (d.cutUnit g u).cal = d.cal := by simp [Dev.cutUnit]
@[simp] theorem Dev.cutUnit_regs (d : Dev) (g : Tag) (u : Nat) : (d.cutUnit g u).regs = d.regs := by simp [Dev.cutUnit]
@[simp] theorem Dev.cutUnit_tree (d : Dev) (g : Tag) (u : Nat) : (d.cutUnit g u).tree = d.tree := by simp [Dev.cutUnit]
@[simp] theorem Dev.cutUnit_boot (d : Dev) (g : Tag) (u : Nat) : (d.cutUnit g u).boot = d.boot := by simp [Dev.cutUnit]
@[simp] theorem Dev.cutUnit_fc (d : Dev) (g : Tag) (u : Nat) : (d.cutUnit g u).fc = d.fc := by simp [Dev.cutUnit]
@[simp] theorem Dev.cutUnit_log (d : Dev) (g : Tag) (u : Nat) : (d.cutUnit g u).log = d.log := by simp [Dev.cutUnit]
@[simp] theorem Dev.cutUnit_hk (d : Dev) (g : Tag) (u : Nat) : (d.cutUnit g u).hk = d.hk := by simp [Dev.cutUnit]
@[simp] theorem Dev.cutUnit_flash (d : Dev) (g : Tag) (u : Nat) : (d.cutUnit g u).flash = d.flash := by simp [Dev.cutUnit]
@[simp] theorem Dev.cutUnit_board (d : Dev) (g : Tag) (u : Nat) : (d.cutUnit g u).board = d.board := by simp [Dev.cutUnit]
@[simp] theorem Dev.cutUnit_journal (d : Dev) (g : Tag) (u : Nat) : (d.cutUnit g u).journal = d.journal := by simp [Dev.cutUnit]
@[simp] theorem Dev.cutUnit_shutLatch (d : Dev) (g : Tag) (u : Nat) : (d.cutUnit g u).shutLatch = d.shutLatch := by simp [Dev.cutUnit]
@[simp] theorem Dev.cutUnit_free (d : Dev) (g : Tag) (u : Nat) : (d.cutUnit g u).free = d.free := by simp [Dev.cutUnit]
@[simp] theorem Dev.abortJob_tl (d : Dev) (g : Tag) : (d.abortJob g).tl = d.tl := by simp [Dev.abortJob]
@[simp] theorem Dev.abortJob_pins (d : Dev) (g : Tag) : (d.abortJob g).pins = d.pins := by simp [Dev.abortJob]
@[simp] theorem Dev.abortJob_banks (d : Dev) (g : Tag) : (d.abortJob g).banks = d.banks := by simp [Dev.abortJob]
@[simp] theorem Dev.abortJob_seq (d : Dev) (g : Tag) : (d.abortJob g).seq = d.seq := by simp [Dev.abortJob]
@[simp] theorem Dev.abortJob_uc (d : Dev) (g : Tag) : (d.abortJob g).uc = d.uc := by simp [Dev.abortJob]
@[simp] theorem Dev.abortJob_pat (d : Dev) (g : Tag) : (d.abortJob g).pat = d.pat := by simp [Dev.abortJob]
@[simp] theorem Dev.abortJob_cap (d : Dev) (g : Tag) : (d.abortJob g).cap = d.cap := by simp [Dev.abortJob]
@[simp] theorem Dev.abortJob_dsp (d : Dev) (g : Tag) : (d.abortJob g).dsp = d.dsp := by simp [Dev.abortJob]
@[simp] theorem Dev.abortJob_mi (d : Dev) (g : Tag) : (d.abortJob g).mi = d.mi := by simp [Dev.abortJob]
@[simp] theorem Dev.abortJob_cal (d : Dev) (g : Tag) : (d.abortJob g).cal = d.cal := by simp [Dev.abortJob]
@[simp] theorem Dev.abortJob_regs (d : Dev) (g : Tag) : (d.abortJob g).regs = d.regs := by simp [Dev.abortJob]
@[simp] theorem Dev.abortJob_tree (d : Dev) (g : Tag) : (d.abortJob g).tree = d.tree := by simp [Dev.abortJob]
@[simp] theorem Dev.abortJob_boot (d : Dev) (g : Tag) : (d.abortJob g).boot = d.boot := by simp [Dev.abortJob]
@[simp] theorem Dev.abortJob_fc (d : Dev) (g : Tag) : (d.abortJob g).fc = d.fc := by simp [Dev.abortJob]
@[simp] theorem Dev.abortJob_log (d : Dev) (g : Tag) : (d.abortJob g).log = d.log := by simp [Dev.abortJob]
@[simp] theorem Dev.abortJob_hk (d : Dev) (g : Tag) : (d.abortJob g).hk = d.hk := by simp [Dev.abortJob]
@[simp] theorem Dev.abortJob_flash (d : Dev) (g : Tag) : (d.abortJob g).flash = d.flash := by simp [Dev.abortJob]
@[simp] theorem Dev.abortJob_board (d : Dev) (g : Tag) : (d.abortJob g).board = d.board := by simp [Dev.abortJob]
@[simp] theorem Dev.abortJob_journal (d : Dev) (g : Tag) : (d.abortJob g).journal = d.journal := by simp [Dev.abortJob]
@[simp] theorem Dev.abortJob_shutLatch (d : Dev) (g : Tag) : (d.abortJob g).shutLatch = d.shutLatch := by simp [Dev.abortJob]
@[simp] theorem Dev.abortJob_free (d : Dev) (g : Tag) : (d.abortJob g).free = d.free := by simp [Dev.abortJob]
@[simp] theorem Dev.ensureFlight_tl (d : Dev) (h : Hdr) (op : BitVec 16) : (d.ensureFlight h op).tl = d.tl := by unfold Dev.ensureFlight; split <;> rfl
@[simp] theorem Dev.ensureFlight_pins (d : Dev) (h : Hdr) (op : BitVec 16) : (d.ensureFlight h op).pins = d.pins := by unfold Dev.ensureFlight; split <;> rfl
@[simp] theorem Dev.ensureFlight_banks (d : Dev) (h : Hdr) (op : BitVec 16) : (d.ensureFlight h op).banks = d.banks := by unfold Dev.ensureFlight; split <;> rfl
@[simp] theorem Dev.ensureFlight_seq (d : Dev) (h : Hdr) (op : BitVec 16) : (d.ensureFlight h op).seq = d.seq := by unfold Dev.ensureFlight; split <;> rfl
@[simp] theorem Dev.ensureFlight_uc (d : Dev) (h : Hdr) (op : BitVec 16) : (d.ensureFlight h op).uc = d.uc := by unfold Dev.ensureFlight; split <;> rfl
@[simp] theorem Dev.ensureFlight_pat (d : Dev) (h : Hdr) (op : BitVec 16) : (d.ensureFlight h op).pat = d.pat := by unfold Dev.ensureFlight; split <;> rfl
@[simp] theorem Dev.ensureFlight_cap (d : Dev) (h : Hdr) (op : BitVec 16) : (d.ensureFlight h op).cap = d.cap := by unfold Dev.ensureFlight; split <;> rfl
@[simp] theorem Dev.ensureFlight_dsp (d : Dev) (h : Hdr) (op : BitVec 16) : (d.ensureFlight h op).dsp = d.dsp := by unfold Dev.ensureFlight; split <;> rfl
@[simp] theorem Dev.ensureFlight_mi (d : Dev) (h : Hdr) (op : BitVec 16) : (d.ensureFlight h op).mi = d.mi := by unfold Dev.ensureFlight; split <;> rfl
@[simp] theorem Dev.ensureFlight_cal (d : Dev) (h : Hdr) (op : BitVec 16) : (d.ensureFlight h op).cal = d.cal := by unfold Dev.ensureFlight; split <;> rfl
@[simp] theorem Dev.ensureFlight_regs (d : Dev) (h : Hdr) (op : BitVec 16) : (d.ensureFlight h op).regs = d.regs := by unfold Dev.ensureFlight; split <;> rfl
@[simp] theorem Dev.ensureFlight_tree (d : Dev) (h : Hdr) (op : BitVec 16) : (d.ensureFlight h op).tree = d.tree := by unfold Dev.ensureFlight; split <;> rfl
@[simp] theorem Dev.ensureFlight_boot (d : Dev) (h : Hdr) (op : BitVec 16) : (d.ensureFlight h op).boot = d.boot := by unfold Dev.ensureFlight; split <;> rfl
@[simp] theorem Dev.ensureFlight_fc (d : Dev) (h : Hdr) (op : BitVec 16) : (d.ensureFlight h op).fc = d.fc := by unfold Dev.ensureFlight; split <;> rfl
@[simp] theorem Dev.ensureFlight_log (d : Dev) (h : Hdr) (op : BitVec 16) : (d.ensureFlight h op).log = d.log := by unfold Dev.ensureFlight; split <;> rfl
@[simp] theorem Dev.ensureFlight_hk (d : Dev) (h : Hdr) (op : BitVec 16) : (d.ensureFlight h op).hk = d.hk := by unfold Dev.ensureFlight; split <;> rfl
@[simp] theorem Dev.ensureFlight_flash (d : Dev) (h : Hdr) (op : BitVec 16) : (d.ensureFlight h op).flash = d.flash := by unfold Dev.ensureFlight; split <;> rfl
@[simp] theorem Dev.ensureFlight_board (d : Dev) (h : Hdr) (op : BitVec 16) : (d.ensureFlight h op).board = d.board := by unfold Dev.ensureFlight; split <;> rfl
@[simp] theorem Dev.ensureFlight_journal (d : Dev) (h : Hdr) (op : BitVec 16) : (d.ensureFlight h op).journal = d.journal := by unfold Dev.ensureFlight; split <;> rfl
@[simp] theorem Dev.ensureFlight_shutLatch (d : Dev) (h : Hdr) (op : BitVec 16) : (d.ensureFlight h op).shutLatch = d.shutLatch := by unfold Dev.ensureFlight; split <;> rfl
@[simp] theorem Dev.ensureFlight_free (d : Dev) (h : Hdr) (op : BitVec 16) : (d.ensureFlight h op).free = d.free := by unfold Dev.ensureFlight; split <;> rfl
@[simp] theorem Dev.dupTag_tl (d : Dev) (o : Origin) (h : Hdr) (op : BitVec 16) : (d.dupTag o h op).tl = d.tl := rfl
@[simp] theorem Dev.dupTag_pins (d : Dev) (o : Origin) (h : Hdr) (op : BitVec 16) : (d.dupTag o h op).pins = d.pins := rfl
@[simp] theorem Dev.dupTag_banks (d : Dev) (o : Origin) (h : Hdr) (op : BitVec 16) : (d.dupTag o h op).banks = d.banks := rfl
@[simp] theorem Dev.dupTag_seq (d : Dev) (o : Origin) (h : Hdr) (op : BitVec 16) : (d.dupTag o h op).seq = d.seq := rfl
@[simp] theorem Dev.dupTag_uc (d : Dev) (o : Origin) (h : Hdr) (op : BitVec 16) : (d.dupTag o h op).uc = d.uc := rfl
@[simp] theorem Dev.dupTag_pat (d : Dev) (o : Origin) (h : Hdr) (op : BitVec 16) : (d.dupTag o h op).pat = d.pat := rfl
@[simp] theorem Dev.dupTag_cap (d : Dev) (o : Origin) (h : Hdr) (op : BitVec 16) : (d.dupTag o h op).cap = d.cap := rfl
@[simp] theorem Dev.dupTag_dsp (d : Dev) (o : Origin) (h : Hdr) (op : BitVec 16) : (d.dupTag o h op).dsp = d.dsp := rfl
@[simp] theorem Dev.dupTag_mi (d : Dev) (o : Origin) (h : Hdr) (op : BitVec 16) : (d.dupTag o h op).mi = d.mi := rfl
@[simp] theorem Dev.dupTag_cal (d : Dev) (o : Origin) (h : Hdr) (op : BitVec 16) : (d.dupTag o h op).cal = d.cal := rfl
@[simp] theorem Dev.dupTag_regs (d : Dev) (o : Origin) (h : Hdr) (op : BitVec 16) : (d.dupTag o h op).regs = d.regs := rfl
@[simp] theorem Dev.dupTag_tree (d : Dev) (o : Origin) (h : Hdr) (op : BitVec 16) : (d.dupTag o h op).tree = d.tree := rfl
@[simp] theorem Dev.dupTag_boot (d : Dev) (o : Origin) (h : Hdr) (op : BitVec 16) : (d.dupTag o h op).boot = d.boot := rfl
@[simp] theorem Dev.dupTag_fc (d : Dev) (o : Origin) (h : Hdr) (op : BitVec 16) : (d.dupTag o h op).fc = d.fc := rfl
@[simp] theorem Dev.dupTag_log (d : Dev) (o : Origin) (h : Hdr) (op : BitVec 16) : (d.dupTag o h op).log = d.log := rfl
@[simp] theorem Dev.dupTag_hk (d : Dev) (o : Origin) (h : Hdr) (op : BitVec 16) : (d.dupTag o h op).hk = d.hk := rfl
@[simp] theorem Dev.dupTag_flash (d : Dev) (o : Origin) (h : Hdr) (op : BitVec 16) : (d.dupTag o h op).flash = d.flash := rfl
@[simp] theorem Dev.dupTag_board (d : Dev) (o : Origin) (h : Hdr) (op : BitVec 16) : (d.dupTag o h op).board = d.board := rfl
@[simp] theorem Dev.dupTag_journal (d : Dev) (o : Origin) (h : Hdr) (op : BitVec 16) : (d.dupTag o h op).journal = d.journal := rfl
@[simp] theorem Dev.dupTag_shutLatch (d : Dev) (o : Origin) (h : Hdr) (op : BitVec 16) : (d.dupTag o h op).shutLatch = d.shutLatch := rfl
@[simp] theorem Dev.dupTag_free (d : Dev) (o : Origin) (h : Hdr) (op : BitVec 16) : (d.dupTag o h op).free = d.free := rfl

@[simp] theorem Dev.linkOut_tl (d : Dev) (m : LinkMsg) : (d.linkOut m).tl = d.tl := rfl
@[simp] theorem Dev.linkOut_pins (d : Dev) (m : LinkMsg) : (d.linkOut m).pins = d.pins := rfl
@[simp] theorem Dev.linkOut_banks (d : Dev) (m : LinkMsg) : (d.linkOut m).banks = d.banks := rfl
@[simp] theorem Dev.linkOut_seq (d : Dev) (m : LinkMsg) : (d.linkOut m).seq = d.seq := rfl
@[simp] theorem Dev.linkOut_uc (d : Dev) (m : LinkMsg) : (d.linkOut m).uc = d.uc := rfl
@[simp] theorem Dev.linkOut_pat (d : Dev) (m : LinkMsg) : (d.linkOut m).pat = d.pat := rfl
@[simp] theorem Dev.linkOut_cap (d : Dev) (m : LinkMsg) : (d.linkOut m).cap = d.cap := rfl
@[simp] theorem Dev.linkOut_dsp (d : Dev) (m : LinkMsg) : (d.linkOut m).dsp = d.dsp := rfl
@[simp] theorem Dev.linkOut_mi (d : Dev) (m : LinkMsg) : (d.linkOut m).mi = d.mi := rfl
@[simp] theorem Dev.linkOut_cal (d : Dev) (m : LinkMsg) : (d.linkOut m).cal = d.cal := rfl
@[simp] theorem Dev.linkOut_regs (d : Dev) (m : LinkMsg) : (d.linkOut m).regs = d.regs := rfl
@[simp] theorem Dev.linkOut_tree (d : Dev) (m : LinkMsg) : (d.linkOut m).tree = d.tree := rfl
@[simp] theorem Dev.linkOut_boot (d : Dev) (m : LinkMsg) : (d.linkOut m).boot = d.boot := rfl
@[simp] theorem Dev.linkOut_fc (d : Dev) (m : LinkMsg) : (d.linkOut m).fc = d.fc := rfl
@[simp] theorem Dev.linkOut_log (d : Dev) (m : LinkMsg) : (d.linkOut m).log = d.log := rfl
@[simp] theorem Dev.linkOut_hk (d : Dev) (m : LinkMsg) : (d.linkOut m).hk = d.hk := rfl
@[simp] theorem Dev.linkOut_flash (d : Dev) (m : LinkMsg) : (d.linkOut m).flash = d.flash := rfl
@[simp] theorem Dev.linkOut_board (d : Dev) (m : LinkMsg) : (d.linkOut m).board = d.board := rfl
@[simp] theorem Dev.linkOut_journal (d : Dev) (m : LinkMsg) : (d.linkOut m).journal = d.journal := rfl
@[simp] theorem Dev.linkOut_shutLatch (d : Dev) (m : LinkMsg) : (d.linkOut m).shutLatch = d.shutLatch := rfl
@[simp] theorem Dev.linkOut_free (d : Dev) (m : LinkMsg) : (d.linkOut m).free = d.free := rfl
@[simp] theorem Dev.hostWrite_tl (d : Dev) (a : Nat) (b : Bytes) : (d.hostWrite a b).tl = d.tl := rfl
@[simp] theorem Dev.hostWrite_pins (d : Dev) (a : Nat) (b : Bytes) : (d.hostWrite a b).pins = d.pins := rfl
@[simp] theorem Dev.hostWrite_banks (d : Dev) (a : Nat) (b : Bytes) : (d.hostWrite a b).banks = d.banks := rfl
@[simp] theorem Dev.hostWrite_seq (d : Dev) (a : Nat) (b : Bytes) : (d.hostWrite a b).seq = d.seq := rfl
@[simp] theorem Dev.hostWrite_uc (d : Dev) (a : Nat) (b : Bytes) : (d.hostWrite a b).uc = d.uc := rfl
@[simp] theorem Dev.hostWrite_pat (d : Dev) (a : Nat) (b : Bytes) : (d.hostWrite a b).pat = d.pat := rfl
@[simp] theorem Dev.hostWrite_cap (d : Dev) (a : Nat) (b : Bytes) : (d.hostWrite a b).cap = d.cap := rfl
@[simp] theorem Dev.hostWrite_dsp (d : Dev) (a : Nat) (b : Bytes) : (d.hostWrite a b).dsp = d.dsp := rfl
@[simp] theorem Dev.hostWrite_mi (d : Dev) (a : Nat) (b : Bytes) : (d.hostWrite a b).mi = d.mi := rfl
@[simp] theorem Dev.hostWrite_cal (d : Dev) (a : Nat) (b : Bytes) : (d.hostWrite a b).cal = d.cal := rfl
@[simp] theorem Dev.hostWrite_regs (d : Dev) (a : Nat) (b : Bytes) : (d.hostWrite a b).regs = d.regs := rfl
@[simp] theorem Dev.hostWrite_tree (d : Dev) (a : Nat) (b : Bytes) : (d.hostWrite a b).tree = d.tree := rfl
@[simp] theorem Dev.hostWrite_boot (d : Dev) (a : Nat) (b : Bytes) : (d.hostWrite a b).boot = d.boot := rfl
@[simp] theorem Dev.hostWrite_fc (d : Dev) (a : Nat) (b : Bytes) : (d.hostWrite a b).fc = d.fc := rfl
@[simp] theorem Dev.hostWrite_log (d : Dev) (a : Nat) (b : Bytes) : (d.hostWrite a b).log = d.log := rfl
@[simp] theorem Dev.hostWrite_hk (d : Dev) (a : Nat) (b : Bytes) : (d.hostWrite a b).hk = d.hk := rfl
@[simp] theorem Dev.hostWrite_flash (d : Dev) (a : Nat) (b : Bytes) : (d.hostWrite a b).flash = d.flash := rfl
@[simp] theorem Dev.hostWrite_board (d : Dev) (a : Nat) (b : Bytes) : (d.hostWrite a b).board = d.board := rfl
@[simp] theorem Dev.hostWrite_journal (d : Dev) (a : Nat) (b : Bytes) : (d.hostWrite a b).journal = d.journal := rfl
@[simp] theorem Dev.hostWrite_shutLatch (d : Dev) (a : Nat) (b : Bytes) : (d.hostWrite a b).shutLatch = d.shutLatch := rfl
@[simp] theorem Dev.hostWrite_free (d : Dev) (a : Nat) (b : Bytes) : (d.hostWrite a b).free = d.free := rfl

/-! ### The timeline -/

@[simp] theorem Dev.addAct_pins (d : Dev) (a : Act) : (d.addAct a).pins = d.pins := rfl
@[simp] theorem Dev.addAct_banks (d : Dev) (a : Act) : (d.addAct a).banks = d.banks := rfl
@[simp] theorem Dev.addAct_seq (d : Dev) (a : Act) : (d.addAct a).seq = d.seq := rfl
@[simp] theorem Dev.addAct_uc (d : Dev) (a : Act) : (d.addAct a).uc = d.uc := rfl
@[simp] theorem Dev.addAct_pat (d : Dev) (a : Act) : (d.addAct a).pat = d.pat := rfl
@[simp] theorem Dev.addAct_cap (d : Dev) (a : Act) : (d.addAct a).cap = d.cap := rfl
@[simp] theorem Dev.addAct_dsp (d : Dev) (a : Act) : (d.addAct a).dsp = d.dsp := rfl
@[simp] theorem Dev.addAct_mi (d : Dev) (a : Act) : (d.addAct a).mi = d.mi := rfl
@[simp] theorem Dev.addAct_cal (d : Dev) (a : Act) : (d.addAct a).cal = d.cal := rfl
@[simp] theorem Dev.addAct_ctl (d : Dev) (a : Act) : (d.addAct a).ctl = d.ctl := rfl
@[simp] theorem Dev.addAct_regs (d : Dev) (a : Act) : (d.addAct a).regs = d.regs := rfl
@[simp] theorem Dev.addAct_tree (d : Dev) (a : Act) : (d.addAct a).tree = d.tree := rfl
@[simp] theorem Dev.addAct_boot (d : Dev) (a : Act) : (d.addAct a).boot = d.boot := rfl
@[simp] theorem Dev.addAct_fc (d : Dev) (a : Act) : (d.addAct a).fc = d.fc := rfl
@[simp] theorem Dev.addAct_log (d : Dev) (a : Act) : (d.addAct a).log = d.log := rfl
@[simp] theorem Dev.addAct_hk (d : Dev) (a : Act) : (d.addAct a).hk = d.hk := rfl
@[simp] theorem Dev.addAct_flash (d : Dev) (a : Act) : (d.addAct a).flash = d.flash := rfl
@[simp] theorem Dev.addAct_board (d : Dev) (a : Act) : (d.addAct a).board = d.board := rfl
@[simp] theorem Dev.addAct_journal (d : Dev) (a : Act) : (d.addAct a).journal = d.journal := rfl
@[simp] theorem Dev.addAct_shutLatch (d : Dev) (a : Act) : (d.addAct a).shutLatch = d.shutLatch := rfl
@[simp] theorem Dev.addAct_free (d : Dev) (a : Act) : (d.addAct a).free = d.free := rfl
@[simp] theorem Dev.dropAct_pins (d : Dev) (g : Tag) (k : ActKind) : (d.dropAct g k).pins = d.pins := rfl
@[simp] theorem Dev.dropAct_banks (d : Dev) (g : Tag) (k : ActKind) : (d.dropAct g k).banks = d.banks := rfl
@[simp] theorem Dev.dropAct_seq (d : Dev) (g : Tag) (k : ActKind) : (d.dropAct g k).seq = d.seq := rfl
@[simp] theorem Dev.dropAct_uc (d : Dev) (g : Tag) (k : ActKind) : (d.dropAct g k).uc = d.uc := rfl
@[simp] theorem Dev.dropAct_pat (d : Dev) (g : Tag) (k : ActKind) : (d.dropAct g k).pat = d.pat := rfl
@[simp] theorem Dev.dropAct_cap (d : Dev) (g : Tag) (k : ActKind) : (d.dropAct g k).cap = d.cap := rfl
@[simp] theorem Dev.dropAct_dsp (d : Dev) (g : Tag) (k : ActKind) : (d.dropAct g k).dsp = d.dsp := rfl
@[simp] theorem Dev.dropAct_mi (d : Dev) (g : Tag) (k : ActKind) : (d.dropAct g k).mi = d.mi := rfl
@[simp] theorem Dev.dropAct_cal (d : Dev) (g : Tag) (k : ActKind) : (d.dropAct g k).cal = d.cal := rfl
@[simp] theorem Dev.dropAct_ctl (d : Dev) (g : Tag) (k : ActKind) : (d.dropAct g k).ctl = d.ctl := rfl
@[simp] theorem Dev.dropAct_regs (d : Dev) (g : Tag) (k : ActKind) : (d.dropAct g k).regs = d.regs := rfl
@[simp] theorem Dev.dropAct_tree (d : Dev) (g : Tag) (k : ActKind) : (d.dropAct g k).tree = d.tree := rfl
@[simp] theorem Dev.dropAct_boot (d : Dev) (g : Tag) (k : ActKind) : (d.dropAct g k).boot = d.boot := rfl
@[simp] theorem Dev.dropAct_fc (d : Dev) (g : Tag) (k : ActKind) : (d.dropAct g k).fc = d.fc := rfl
@[simp] theorem Dev.dropAct_log (d : Dev) (g : Tag) (k : ActKind) : (d.dropAct g k).log = d.log := rfl
@[simp] theorem Dev.dropAct_hk (d : Dev) (g : Tag) (k : ActKind) : (d.dropAct g k).hk = d.hk := rfl
@[simp] theorem Dev.dropAct_flash (d : Dev) (g : Tag) (k : ActKind) : (d.dropAct g k).flash = d.flash := rfl
@[simp] theorem Dev.dropAct_board (d : Dev) (g : Tag) (k : ActKind) : (d.dropAct g k).board = d.board := rfl
@[simp] theorem Dev.dropAct_journal (d : Dev) (g : Tag) (k : ActKind) : (d.dropAct g k).journal = d.journal := rfl
@[simp] theorem Dev.dropAct_shutLatch (d : Dev) (g : Tag) (k : ActKind) : (d.dropAct g k).shutLatch = d.shutLatch := rfl
@[simp] theorem Dev.dropAct_free (d : Dev) (g : Tag) (k : ActKind) : (d.dropAct g k).free = d.free := rfl
@[simp] theorem Dev.dropActs_pins (d : Dev) (g : Tag) : (d.dropActs g).pins = d.pins := rfl
@[simp] theorem Dev.dropActs_banks (d : Dev) (g : Tag) : (d.dropActs g).banks = d.banks := rfl
@[simp] theorem Dev.dropActs_seq (d : Dev) (g : Tag) : (d.dropActs g).seq = d.seq := rfl
@[simp] theorem Dev.dropActs_uc (d : Dev) (g : Tag) : (d.dropActs g).uc = d.uc := rfl
@[simp] theorem Dev.dropActs_pat (d : Dev) (g : Tag) : (d.dropActs g).pat = d.pat := rfl
@[simp] theorem Dev.dropActs_cap (d : Dev) (g : Tag) : (d.dropActs g).cap = d.cap := rfl
@[simp] theorem Dev.dropActs_dsp (d : Dev) (g : Tag) : (d.dropActs g).dsp = d.dsp := rfl
@[simp] theorem Dev.dropActs_mi (d : Dev) (g : Tag) : (d.dropActs g).mi = d.mi := rfl
@[simp] theorem Dev.dropActs_cal (d : Dev) (g : Tag) : (d.dropActs g).cal = d.cal := rfl
@[simp] theorem Dev.dropActs_ctl (d : Dev) (g : Tag) : (d.dropActs g).ctl = d.ctl := rfl
@[simp] theorem Dev.dropActs_regs (d : Dev) (g : Tag) : (d.dropActs g).regs = d.regs := rfl
@[simp] theorem Dev.dropActs_tree (d : Dev) (g : Tag) : (d.dropActs g).tree = d.tree := rfl
@[simp] theorem Dev.dropActs_boot (d : Dev) (g : Tag) : (d.dropActs g).boot = d.boot := rfl
@[simp] theorem Dev.dropActs_fc (d : Dev) (g : Tag) : (d.dropActs g).fc = d.fc := rfl
@[simp] theorem Dev.dropActs_log (d : Dev) (g : Tag) : (d.dropActs g).log = d.log := rfl
@[simp] theorem Dev.dropActs_hk (d : Dev) (g : Tag) : (d.dropActs g).hk = d.hk := rfl
@[simp] theorem Dev.dropActs_flash (d : Dev) (g : Tag) : (d.dropActs g).flash = d.flash := rfl
@[simp] theorem Dev.dropActs_board (d : Dev) (g : Tag) : (d.dropActs g).board = d.board := rfl
@[simp] theorem Dev.dropActs_journal (d : Dev) (g : Tag) : (d.dropActs g).journal = d.journal := rfl
@[simp] theorem Dev.dropActs_shutLatch (d : Dev) (g : Tag) : (d.dropActs g).shutLatch = d.shutLatch := rfl
@[simp] theorem Dev.dropActs_free (d : Dev) (g : Tag) : (d.dropActs g).free = d.free := rfl
@[simp] theorem Dev.advance_pins (d : Dev) (t : Nat) : (d.advance t).pins = d.pins := by unfold Dev.advance; (repeat' split) <;> rfl
@[simp] theorem Dev.advance_banks (d : Dev) (t : Nat) : (d.advance t).banks = d.banks := by unfold Dev.advance; (repeat' split) <;> rfl
@[simp] theorem Dev.advance_seq (d : Dev) (t : Nat) : (d.advance t).seq = d.seq := by unfold Dev.advance; (repeat' split) <;> rfl
@[simp] theorem Dev.advance_uc (d : Dev) (t : Nat) : (d.advance t).uc = d.uc := by unfold Dev.advance; (repeat' split) <;> rfl
@[simp] theorem Dev.advance_pat (d : Dev) (t : Nat) : (d.advance t).pat = d.pat := by unfold Dev.advance; (repeat' split) <;> rfl
@[simp] theorem Dev.advance_cap (d : Dev) (t : Nat) : (d.advance t).cap = d.cap := by unfold Dev.advance; (repeat' split) <;> rfl
@[simp] theorem Dev.advance_dsp (d : Dev) (t : Nat) : (d.advance t).dsp = d.dsp := by unfold Dev.advance; (repeat' split) <;> rfl
@[simp] theorem Dev.advance_mi (d : Dev) (t : Nat) : (d.advance t).mi = d.mi := by unfold Dev.advance; (repeat' split) <;> rfl
@[simp] theorem Dev.advance_cal (d : Dev) (t : Nat) : (d.advance t).cal = d.cal := by unfold Dev.advance; (repeat' split) <;> rfl
@[simp] theorem Dev.advance_ctl (d : Dev) (t : Nat) : (d.advance t).ctl = d.ctl := by unfold Dev.advance; (repeat' split) <;> rfl
@[simp] theorem Dev.advance_regs (d : Dev) (t : Nat) : (d.advance t).regs = d.regs := by unfold Dev.advance; (repeat' split) <;> rfl
@[simp] theorem Dev.advance_tree (d : Dev) (t : Nat) : (d.advance t).tree = d.tree := by unfold Dev.advance; (repeat' split) <;> rfl
@[simp] theorem Dev.advance_boot (d : Dev) (t : Nat) : (d.advance t).boot = d.boot := by unfold Dev.advance; (repeat' split) <;> rfl
@[simp] theorem Dev.advance_fc (d : Dev) (t : Nat) : (d.advance t).fc = d.fc := by unfold Dev.advance; (repeat' split) <;> rfl
@[simp] theorem Dev.advance_log (d : Dev) (t : Nat) : (d.advance t).log = d.log := by unfold Dev.advance; (repeat' split) <;> rfl
@[simp] theorem Dev.advance_hk (d : Dev) (t : Nat) : (d.advance t).hk = d.hk := by unfold Dev.advance; (repeat' split) <;> rfl
@[simp] theorem Dev.advance_flash (d : Dev) (t : Nat) : (d.advance t).flash = d.flash := by unfold Dev.advance; (repeat' split) <;> rfl
@[simp] theorem Dev.advance_board (d : Dev) (t : Nat) : (d.advance t).board = d.board := by unfold Dev.advance; (repeat' split) <;> rfl
@[simp] theorem Dev.advance_journal (d : Dev) (t : Nat) : (d.advance t).journal = d.journal := by unfold Dev.advance; (repeat' split) <;> rfl
@[simp] theorem Dev.advance_shutLatch (d : Dev) (t : Nat) : (d.advance t).shutLatch = d.shutLatch := by unfold Dev.advance; (repeat' split) <;> rfl
@[simp] theorem Dev.advance_free (d : Dev) (t : Nat) : (d.advance t).free = d.free := by unfold Dev.advance; (repeat' split) <;> rfl
@[simp] theorem Timeline.move_running (t : Timeline) (z : Nat) : (t.move z).running = t.running := by unfold Timeline.move; dsimp only; (repeat' split) <;> rfl
@[simp] theorem Timeline.move_base (t : Timeline) (z : Nat) : (t.move z).base = t.base := by unfold Timeline.move; dsimp only; (repeat' split) <;> rfl
@[simp] theorem Timeline.move_epoch (t : Timeline) (z : Nat) : (t.move z).epoch = t.epoch := by unfold Timeline.move; dsimp only; (repeat' split) <;> rfl
@[simp] theorem Timeline.move_tlLocal (t : Timeline) (z : Nat) : (t.move z).tlLocal = t.tlLocal := by unfold Timeline.move; dsimp only; (repeat' split) <;> rfl
@[simp] theorem Timeline.move_holdover (t : Timeline) (z : Nat) : (t.move z).holdover = t.holdover := by unfold Timeline.move; dsimp only; (repeat' split) <;> rfl
@[simp] theorem Timeline.move_holdSince (t : Timeline) (z : Nat) : (t.move z).holdSince = t.holdSince := by unfold Timeline.move; dsimp only; (repeat' split) <;> rfl
@[simp] theorem Timeline.move_warmFiltered (t : Timeline) (z : Nat) : (t.move z).warmFiltered = t.warmFiltered := by unfold Timeline.move; dsimp only; (repeat' split) <;> rfl
@[simp] theorem Timeline.move_warmFrom (t : Timeline) (z : Nat) : (t.move z).warmFrom = t.warmFrom := by unfold Timeline.move; dsimp only; (repeat' split) <;> rfl
@[simp] theorem Timeline.move_refWarmPin (t : Timeline) (z : Nat) : (t.move z).refWarmPin = t.refWarmPin := by unfold Timeline.move; dsimp only; (repeat' split) <;> rfl
@[simp] theorem Timeline.move_refPresent (t : Timeline) (z : Nat) : (t.move z).refPresent = t.refPresent := by unfold Timeline.move; dsimp only; (repeat' split) <;> rfl
@[simp] theorem Timeline.move_stabRun (t : Timeline) (z : Nat) : (t.move z).stabRun = t.stabRun := by unfold Timeline.move; dsimp only; (repeat' split) <;> rfl
@[simp] theorem Timeline.move_lastPass (t : Timeline) (z : Nat) : (t.move z).lastPass = t.lastPass := by unfold Timeline.move; dsimp only; (repeat' split) <;> rfl
@[simp] theorem Timeline.move_stabSince (t : Timeline) (z : Nat) : (t.move z).stabSince = t.stabSince := by unfold Timeline.move; dsimp only; (repeat' split) <;> rfl
@[simp] theorem Timeline.move_verdicts (t : Timeline) (z : Nat) : (t.move z).verdicts = t.verdicts := by unfold Timeline.move; dsimp only; (repeat' split) <;> rfl
@[simp] theorem Timeline.move_stabLast (t : Timeline) (z : Nat) : (t.move z).stabLast = t.stabLast := by unfold Timeline.move; dsimp only; (repeat' split) <;> rfl
@[simp] theorem Timeline.move_holdoverLimit (t : Timeline) (z : Nat) : (t.move z).holdoverLimit = t.holdoverLimit := by unfold Timeline.move; dsimp only; (repeat' split) <;> rfl
@[simp] theorem Timeline.move_source (t : Timeline) (z : Nat) : (t.move z).source = t.source := by unfold Timeline.move; dsimp only; (repeat' split) <;> rfl
@[simp] theorem Timeline.move_rewind (t : Timeline) (z : Nat) : (t.move z).rewind = t.rewind := by unfold Timeline.move; dsimp only; (repeat' split) <;> rfl
@[simp] theorem Timeline.move_rewindTag (t : Timeline) (z : Nat) : (t.move z).rewindTag = t.rewindTag := by unfold Timeline.move; dsimp only; (repeat' split) <;> rfl
@[simp] theorem Timeline.move_rewindLate (t : Timeline) (z : Nat) : (t.move z).rewindLate = t.rewindLate := by unfold Timeline.move; dsimp only; (repeat' split) <;> rfl
@[simp] theorem Timeline.move_nearEnd (t : Timeline) (z : Nat) : (t.move z).nearEnd = t.nearEnd := by unfold Timeline.move; dsimp only; (repeat' split) <;> rfl
@[simp] theorem Timeline.move_acts (t : Timeline) (z : Nat) : (t.move z).acts = t.acts := by unfold Timeline.move; dsimp only; (repeat' split) <;> rfl
@[simp] theorem Timeline.move_marker (t : Timeline) (z : Nat) : (t.move z).marker = t.marker := by unfold Timeline.move; dsimp only; (repeat' split) <;> rfl
@[simp] theorem Timeline.move_upTq (t : Timeline) (z : Nat) : (t.move z).upTq = t.upTq := by unfold Timeline.move; dsimp only; (repeat' split) <;> rfl
@[simp] theorem Timeline.move_now (t : Timeline) (z : Nat) : (t.move z).now = z := by unfold Timeline.move; dsimp only; (repeat' split) <;> rfl
@[simp] theorem Dev.advance_tl_running (d : Dev) (t : Nat) : (d.advance t).tl.running = d.tl.running := by unfold Dev.advance; (repeat' split) <;> simp
@[simp] theorem Dev.advance_tl_base (d : Dev) (t : Nat) : (d.advance t).tl.base = d.tl.base := by unfold Dev.advance; (repeat' split) <;> simp
@[simp] theorem Dev.advance_tl_epoch (d : Dev) (t : Nat) : (d.advance t).tl.epoch = d.tl.epoch := by unfold Dev.advance; (repeat' split) <;> simp
@[simp] theorem Dev.advance_tl_tlLocal (d : Dev) (t : Nat) : (d.advance t).tl.tlLocal = d.tl.tlLocal := by unfold Dev.advance; (repeat' split) <;> simp
@[simp] theorem Dev.advance_tl_holdover (d : Dev) (t : Nat) : (d.advance t).tl.holdover = d.tl.holdover := by unfold Dev.advance; (repeat' split) <;> simp
@[simp] theorem Dev.advance_tl_holdSince (d : Dev) (t : Nat) : (d.advance t).tl.holdSince = d.tl.holdSince := by unfold Dev.advance; (repeat' split) <;> simp
@[simp] theorem Dev.advance_tl_warmFiltered (d : Dev) (t : Nat) : (d.advance t).tl.warmFiltered = d.tl.warmFiltered := by unfold Dev.advance; (repeat' split) <;> simp
@[simp] theorem Dev.advance_tl_warmFrom (d : Dev) (t : Nat) : (d.advance t).tl.warmFrom = d.tl.warmFrom := by unfold Dev.advance; (repeat' split) <;> simp
@[simp] theorem Dev.advance_tl_refWarmPin (d : Dev) (t : Nat) : (d.advance t).tl.refWarmPin = d.tl.refWarmPin := by unfold Dev.advance; (repeat' split) <;> simp
@[simp] theorem Dev.advance_tl_refPresent (d : Dev) (t : Nat) : (d.advance t).tl.refPresent = d.tl.refPresent := by unfold Dev.advance; (repeat' split) <;> simp
@[simp] theorem Dev.advance_tl_stabRun (d : Dev) (t : Nat) : (d.advance t).tl.stabRun = d.tl.stabRun := by unfold Dev.advance; (repeat' split) <;> simp
@[simp] theorem Dev.advance_tl_lastPass (d : Dev) (t : Nat) : (d.advance t).tl.lastPass = d.tl.lastPass := by unfold Dev.advance; (repeat' split) <;> simp
@[simp] theorem Dev.advance_tl_stabSince (d : Dev) (t : Nat) : (d.advance t).tl.stabSince = d.tl.stabSince := by unfold Dev.advance; (repeat' split) <;> simp
@[simp] theorem Dev.advance_tl_verdicts (d : Dev) (t : Nat) : (d.advance t).tl.verdicts = d.tl.verdicts := by unfold Dev.advance; (repeat' split) <;> simp
@[simp] theorem Dev.advance_tl_stabLast (d : Dev) (t : Nat) : (d.advance t).tl.stabLast = d.tl.stabLast := by unfold Dev.advance; (repeat' split) <;> simp
@[simp] theorem Dev.advance_tl_holdoverLimit (d : Dev) (t : Nat) : (d.advance t).tl.holdoverLimit = d.tl.holdoverLimit := by unfold Dev.advance; (repeat' split) <;> simp
@[simp] theorem Dev.advance_tl_source (d : Dev) (t : Nat) : (d.advance t).tl.source = d.tl.source := by unfold Dev.advance; (repeat' split) <;> simp
@[simp] theorem Dev.advance_tl_rewind (d : Dev) (t : Nat) : (d.advance t).tl.rewind = d.tl.rewind := by unfold Dev.advance; (repeat' split) <;> simp
@[simp] theorem Dev.advance_tl_rewindTag (d : Dev) (t : Nat) : (d.advance t).tl.rewindTag = d.tl.rewindTag := by unfold Dev.advance; (repeat' split) <;> simp
@[simp] theorem Dev.advance_tl_rewindLate (d : Dev) (t : Nat) : (d.advance t).tl.rewindLate = d.tl.rewindLate := by unfold Dev.advance; (repeat' split) <;> simp
@[simp] theorem Dev.advance_tl_nearEnd (d : Dev) (t : Nat) : (d.advance t).tl.nearEnd = d.tl.nearEnd := by unfold Dev.advance; (repeat' split) <;> simp
@[simp] theorem Dev.advance_tl_acts (d : Dev) (t : Nat) : (d.advance t).tl.acts = d.tl.acts := by unfold Dev.advance; (repeat' split) <;> simp
@[simp] theorem Dev.advance_tl_marker (d : Dev) (t : Nat) : (d.advance t).tl.marker = d.tl.marker := by unfold Dev.advance; (repeat' split) <;> simp
@[simp] theorem Dev.advance_tl_upTq (d : Dev) (t : Nat) : (d.advance t).tl.upTq = d.tl.upTq := by unfold Dev.advance; (repeat' split) <;> simp

/-! ### Commit of records -/

@[simp] theorem Dev.takeSeq_tl (d : Dev)  : (d.takeSeq).tl = d.tl := by unfold Dev.takeSeq; simp only []; split <;> rfl
@[simp] theorem Dev.takeSeq_pins (d : Dev)  : (d.takeSeq).pins = d.pins := by unfold Dev.takeSeq; simp only []; split <;> rfl
@[simp] theorem Dev.takeSeq_banks (d : Dev)  : (d.takeSeq).banks = d.banks := by unfold Dev.takeSeq; simp only []; split <;> rfl
@[simp] theorem Dev.takeSeq_seq (d : Dev)  : (d.takeSeq).seq = d.seq := by unfold Dev.takeSeq; simp only []; split <;> rfl
@[simp] theorem Dev.takeSeq_uc (d : Dev)  : (d.takeSeq).uc = d.uc := by unfold Dev.takeSeq; simp only []; split <;> rfl
@[simp] theorem Dev.takeSeq_pat (d : Dev)  : (d.takeSeq).pat = d.pat := by unfold Dev.takeSeq; simp only []; split <;> rfl
@[simp] theorem Dev.takeSeq_cap (d : Dev)  : (d.takeSeq).cap = d.cap := by unfold Dev.takeSeq; simp only []; split <;> rfl
@[simp] theorem Dev.takeSeq_dsp (d : Dev)  : (d.takeSeq).dsp = d.dsp := by unfold Dev.takeSeq; simp only []; split <;> rfl
@[simp] theorem Dev.takeSeq_mi (d : Dev)  : (d.takeSeq).mi = d.mi := by unfold Dev.takeSeq; simp only []; split <;> rfl
@[simp] theorem Dev.takeSeq_cal (d : Dev)  : (d.takeSeq).cal = d.cal := by unfold Dev.takeSeq; simp only []; split <;> rfl
@[simp] theorem Dev.takeSeq_regs (d : Dev)  : (d.takeSeq).regs = d.regs := by unfold Dev.takeSeq; simp only []; split <;> rfl
@[simp] theorem Dev.takeSeq_tree (d : Dev)  : (d.takeSeq).tree = d.tree := by unfold Dev.takeSeq; simp only []; split <;> rfl
@[simp] theorem Dev.takeSeq_boot (d : Dev)  : (d.takeSeq).boot = d.boot := by unfold Dev.takeSeq; simp only []; split <;> rfl
@[simp] theorem Dev.takeSeq_fc (d : Dev)  : (d.takeSeq).fc = d.fc := by unfold Dev.takeSeq; simp only []; split <;> rfl
@[simp] theorem Dev.takeSeq_hk (d : Dev)  : (d.takeSeq).hk = d.hk := by unfold Dev.takeSeq; simp only []; split <;> rfl
@[simp] theorem Dev.takeSeq_flash (d : Dev)  : (d.takeSeq).flash = d.flash := by unfold Dev.takeSeq; simp only []; split <;> rfl
@[simp] theorem Dev.takeSeq_board (d : Dev)  : (d.takeSeq).board = d.board := by unfold Dev.takeSeq; simp only []; split <;> rfl
@[simp] theorem Dev.takeSeq_journal (d : Dev)  : (d.takeSeq).journal = d.journal := by unfold Dev.takeSeq; simp only []; split <;> rfl
@[simp] theorem Dev.takeSeq_shutLatch (d : Dev)  : (d.takeSeq).shutLatch = d.shutLatch := by unfold Dev.takeSeq; simp only []; split <;> rfl
@[simp] theorem Dev.takeSeq_free (d : Dev)  : (d.takeSeq).free = d.free := by unfold Dev.takeSeq; simp only []; split <;> rfl
@[simp] theorem Dev.message_tl (d : Dev) (v : Nat) : (d.message v).tl = d.tl := rfl
@[simp] theorem Dev.message_pins (d : Dev) (v : Nat) : (d.message v).pins = d.pins := rfl
@[simp] theorem Dev.message_banks (d : Dev) (v : Nat) : (d.message v).banks = d.banks := rfl
@[simp] theorem Dev.message_seq (d : Dev) (v : Nat) : (d.message v).seq = d.seq := rfl
@[simp] theorem Dev.message_uc (d : Dev) (v : Nat) : (d.message v).uc = d.uc := rfl
@[simp] theorem Dev.message_pat (d : Dev) (v : Nat) : (d.message v).pat = d.pat := rfl
@[simp] theorem Dev.message_cap (d : Dev) (v : Nat) : (d.message v).cap = d.cap := rfl
@[simp] theorem Dev.message_dsp (d : Dev) (v : Nat) : (d.message v).dsp = d.dsp := rfl
@[simp] theorem Dev.message_mi (d : Dev) (v : Nat) : (d.message v).mi = d.mi := rfl
@[simp] theorem Dev.message_cal (d : Dev) (v : Nat) : (d.message v).cal = d.cal := rfl
@[simp] theorem Dev.message_tree (d : Dev) (v : Nat) : (d.message v).tree = d.tree := rfl
@[simp] theorem Dev.message_boot (d : Dev) (v : Nat) : (d.message v).boot = d.boot := rfl
@[simp] theorem Dev.message_fc (d : Dev) (v : Nat) : (d.message v).fc = d.fc := rfl
@[simp] theorem Dev.message_log (d : Dev) (v : Nat) : (d.message v).log = d.log := rfl
@[simp] theorem Dev.message_hk (d : Dev) (v : Nat) : (d.message v).hk = d.hk := rfl
@[simp] theorem Dev.message_flash (d : Dev) (v : Nat) : (d.message v).flash = d.flash := rfl
@[simp] theorem Dev.message_board (d : Dev) (v : Nat) : (d.message v).board = d.board := rfl
@[simp] theorem Dev.message_journal (d : Dev) (v : Nat) : (d.message v).journal = d.journal := rfl
@[simp] theorem Dev.message_shutLatch (d : Dev) (v : Nat) : (d.message v).shutLatch = d.shutLatch := rfl
@[simp] theorem Dev.message_free (d : Dev) (v : Nat) : (d.message v).free = d.free := rfl
@[simp] theorem Dev.signal_tl (d : Dev) (v : Nat) : (d.signal v).tl = d.tl := by unfold Dev.signal; simp only []; split <;> simp
@[simp] theorem Dev.signal_pins (d : Dev) (v : Nat) : (d.signal v).pins = d.pins := by unfold Dev.signal; simp only []; split <;> simp
@[simp] theorem Dev.signal_banks (d : Dev) (v : Nat) : (d.signal v).banks = d.banks := by unfold Dev.signal; simp only []; split <;> simp
@[simp] theorem Dev.signal_seq (d : Dev) (v : Nat) : (d.signal v).seq = d.seq := by unfold Dev.signal; simp only []; split <;> simp
@[simp] theorem Dev.signal_uc (d : Dev) (v : Nat) : (d.signal v).uc = d.uc := by unfold Dev.signal; simp only []; split <;> simp
@[simp] theorem Dev.signal_pat (d : Dev) (v : Nat) : (d.signal v).pat = d.pat := by unfold Dev.signal; simp only []; split <;> simp
@[simp] theorem Dev.signal_cap (d : Dev) (v : Nat) : (d.signal v).cap = d.cap := by unfold Dev.signal; simp only []; split <;> simp
@[simp] theorem Dev.signal_dsp (d : Dev) (v : Nat) : (d.signal v).dsp = d.dsp := by unfold Dev.signal; simp only []; split <;> simp
@[simp] theorem Dev.signal_mi (d : Dev) (v : Nat) : (d.signal v).mi = d.mi := by unfold Dev.signal; simp only []; split <;> simp
@[simp] theorem Dev.signal_cal (d : Dev) (v : Nat) : (d.signal v).cal = d.cal := by unfold Dev.signal; simp only []; split <;> simp
@[simp] theorem Dev.signal_tree (d : Dev) (v : Nat) : (d.signal v).tree = d.tree := by unfold Dev.signal; simp only []; split <;> simp
@[simp] theorem Dev.signal_boot (d : Dev) (v : Nat) : (d.signal v).boot = d.boot := by unfold Dev.signal; simp only []; split <;> simp
@[simp] theorem Dev.signal_fc (d : Dev) (v : Nat) : (d.signal v).fc = d.fc := by unfold Dev.signal; simp only []; split <;> simp
@[simp] theorem Dev.signal_log (d : Dev) (v : Nat) : (d.signal v).log = d.log := by unfold Dev.signal; simp only []; split <;> simp
@[simp] theorem Dev.signal_hk (d : Dev) (v : Nat) : (d.signal v).hk = d.hk := by unfold Dev.signal; simp only []; split <;> simp
@[simp] theorem Dev.signal_flash (d : Dev) (v : Nat) : (d.signal v).flash = d.flash := by unfold Dev.signal; simp only []; split <;> simp
@[simp] theorem Dev.signal_board (d : Dev) (v : Nat) : (d.signal v).board = d.board := by unfold Dev.signal; simp only []; split <;> simp
@[simp] theorem Dev.signal_journal (d : Dev) (v : Nat) : (d.signal v).journal = d.journal := by unfold Dev.signal; simp only []; split <;> simp
@[simp] theorem Dev.signal_shutLatch (d : Dev) (v : Nat) : (d.signal v).shutLatch = d.shutLatch := by unfold Dev.signal; simp only []; split <;> simp
@[simp] theorem Dev.signal_free (d : Dev) (v : Nat) : (d.signal v).free = d.free := by unfold Dev.signal; simp only []; split <;> simp
@[simp] theorem Dev.preempt_tl (d : Dev) (op : BitVec 16) : (d.preempt op).tl = d.tl := by unfold Dev.preempt; split <;> rfl
@[simp] theorem Dev.preempt_pins (d : Dev) (op : BitVec 16) : (d.preempt op).pins = d.pins := by unfold Dev.preempt; split <;> rfl
@[simp] theorem Dev.preempt_banks (d : Dev) (op : BitVec 16) : (d.preempt op).banks = d.banks := by unfold Dev.preempt; split <;> rfl
@[simp] theorem Dev.preempt_seq (d : Dev) (op : BitVec 16) : (d.preempt op).seq = d.seq := by unfold Dev.preempt; split <;> rfl
@[simp] theorem Dev.preempt_uc (d : Dev) (op : BitVec 16) : (d.preempt op).uc = d.uc := by unfold Dev.preempt; split <;> rfl
@[simp] theorem Dev.preempt_cap (d : Dev) (op : BitVec 16) : (d.preempt op).cap = d.cap := by unfold Dev.preempt; split <;> rfl
@[simp] theorem Dev.preempt_dsp (d : Dev) (op : BitVec 16) : (d.preempt op).dsp = d.dsp := by unfold Dev.preempt; split <;> rfl
@[simp] theorem Dev.preempt_mi (d : Dev) (op : BitVec 16) : (d.preempt op).mi = d.mi := by unfold Dev.preempt; split <;> rfl
@[simp] theorem Dev.preempt_cal (d : Dev) (op : BitVec 16) : (d.preempt op).cal = d.cal := by unfold Dev.preempt; split <;> rfl
@[simp] theorem Dev.preempt_ctl (d : Dev) (op : BitVec 16) : (d.preempt op).ctl = d.ctl := by unfold Dev.preempt; split <;> rfl
@[simp] theorem Dev.preempt_regs (d : Dev) (op : BitVec 16) : (d.preempt op).regs = d.regs := by unfold Dev.preempt; split <;> rfl
@[simp] theorem Dev.preempt_tree (d : Dev) (op : BitVec 16) : (d.preempt op).tree = d.tree := by unfold Dev.preempt; split <;> rfl
@[simp] theorem Dev.preempt_boot (d : Dev) (op : BitVec 16) : (d.preempt op).boot = d.boot := by unfold Dev.preempt; split <;> rfl
@[simp] theorem Dev.preempt_fc (d : Dev) (op : BitVec 16) : (d.preempt op).fc = d.fc := by unfold Dev.preempt; split <;> rfl
@[simp] theorem Dev.preempt_log (d : Dev) (op : BitVec 16) : (d.preempt op).log = d.log := by unfold Dev.preempt; split <;> rfl
@[simp] theorem Dev.preempt_hk (d : Dev) (op : BitVec 16) : (d.preempt op).hk = d.hk := by unfold Dev.preempt; split <;> rfl
@[simp] theorem Dev.preempt_flash (d : Dev) (op : BitVec 16) : (d.preempt op).flash = d.flash := by unfold Dev.preempt; split <;> rfl
@[simp] theorem Dev.preempt_board (d : Dev) (op : BitVec 16) : (d.preempt op).board = d.board := by unfold Dev.preempt; split <;> rfl
@[simp] theorem Dev.preempt_journal (d : Dev) (op : BitVec 16) : (d.preempt op).journal = d.journal := by unfold Dev.preempt; split <;> rfl
@[simp] theorem Dev.preempt_shutLatch (d : Dev) (op : BitVec 16) : (d.preempt op).shutLatch = d.shutLatch := by unfold Dev.preempt; split <;> rfl
@[simp] theorem Dev.preempt_free (d : Dev) (op : BitVec 16) : (d.preempt op).free = d.free := by unfold Dev.preempt; split <;> rfl

end Sys2Proof.Machine
end

