-- ==== Sys2Proof/Laws/Commit.lean ====
section
/-!
SUPPORT. What the commit of records changes, said once: the core of a device is all of it but the way of its records, and no
operation of the commit changes the core. Events and result packets leave the completion path alone as well.
-/
namespace Sys2Proof.Machine

/-- The device but for the way of its records. -/
def Dev.core (d : Dev) : Dev :=
  { d with cap := d.cap.setting, ctl := d.ctl.setting, regs := d.regs.setting, log := d.log.setting }

/-- The core with the path of completions: what events, messages and result packets leave alone. -/
def Dev.quiet (d : Dev) : Dev :=
  { d.core with ctl := { d.ctl.setting with
    cpl := d.ctl.cpl, cplOut := d.ctl.cplOut, heldCpl := d.ctl.heldCpl, heldCpl0 := d.ctl.heldCpl0
    flights := d.ctl.flights, jobs := d.ctl.jobs, outbox := d.ctl.outbox, behind := d.ctl.behind } }

/-- What can be read of the core is the same on devices of one core. -/
theorem of_core {γ : Type} (v : Dev → γ) (r : ∀ d : Dev, v d.core = v d) {a b : Dev} (h : b.core = a.core) : v b = v a :=
  (r b).symm.trans ((congrArg v h).trans (r a))

/-- What can be read of the core and the path of completions. -/
theorem of_quiet {γ : Type} (v : Dev → γ) (r : ∀ d : Dev, v d.quiet = v d) {a b : Dev} (h : b.quiet = a.quiet) : v b = v a :=
  (r b).symm.trans ((congrArg v h).trans (r a))

theorem core_of_quiet {a b : Dev} (h : b.quiet = a.quiet) : b.core = a.core := of_quiet Dev.core (fun _ => rfl) h

/-- What every operation of a fold leaves alone, the fold leaves alone. -/
theorem foldl_leaves {α γ : Type} (v : Dev → γ) {f : Dev → α → Dev} (h : ∀ d x, v (f d x) = v d) (l : List α) (d : Dev) :
    v (l.foldl f d) = v d :=
  List.foldlRecOn (motive := fun b => v b = v d) l f rfl fun b k x _ => (h b x).trans k

theorem forEach_leaves {γ : Type} (v : Dev → γ) {f : Nat → Dev → Dev} (h : ∀ i d, v (f i d) = v d) (l : List Nat) (d : Dev) :
    v (forEach l f d) = v d := foldl_leaves v (fun d i => h i d) l d

/-! ### Messages, events and result packets -/

theorem takeSeq_quiet (d : Dev) : d.takeSeq.quiet = d.quiet := by
  unfold Dev.takeSeq
  dsimp only
  split <;> rfl

theorem message_quiet (d : Dev) (v : Nat) : (d.message v).quiet = d.quiet := by
  unfold Dev.message
  dsimp only
  split <;> rfl

theorem signal_quiet (d : Dev) (v : Nat) : (d.signal v).quiet = d.quiet := by
  unfold Dev.signal
  dsimp only
  split
  · exact message_quiet d v
  · rfl

/-- A record takes a sequence number unless it has one. -/
theorem ownSeq_quiet (d : Dev) (has : Bool) : (if has then d else d.takeSeq).quiet = d.quiet := by
  cases has
  · exact takeSeq_quiet d
  · rfl

theorem ringEvt_quiet (d : Dev) (e : Evt) : (d.ringEvt e).quiet = d.quiet := by
  rw [Dev.ringEvt, signal_quiet]
  exact ownSeq_quiet d e.fwd

theorem upEvent_quiet (d : Dev) (e : Evt) : (d.upEvent e).quiet = d.quiet := ownSeq_quiet d e.fwd

theorem commitEvt_quiet (d : Dev) (e : Evt) : (d.commitEvt e).quiet = d.quiet := by
  unfold Dev.commitEvt
  dsimp only
  split_ifs
  exacts [upEvent_quiet d e, ringEvt_quiet d e, rfl, rfl]

theorem pumpOne_quiet (d : Dev) (p : Nat) : (d.pumpOne p).quiet = d.quiet := by
  unfold Dev.pumpOne
  split
  · rfl
  · dsimp only
    split
    · exact takeSeq_quiet d
    · rfl

theorem pump_quiet (n : Nat) (d : Dev) : (d.pump n).quiet = d.quiet := by
  fun_induction Dev.pump n d with
  | case1 => rfl
  | case2 n d ih => exact ih.trans (forEach_leaves Dev.quiet (fun p d => pumpOne_quiet d p) _ d)

theorem stage_quiet (d : Dev) (p : Packet) : (d.stage p).quiet = d.quiet := by
  unfold Dev.stage
  split <;> rfl

theorem commitPackets_quiet (d : Dev) (ps : List Packet) : (d.commitPackets ps).quiet = d.quiet := by
  unfold Dev.commitPackets
  have m : ∀ e : Dev, Dev.quiet { e with cap := e.cap.marks e.mono } = e.quiet := fun _ => rfl
  refine (m _).trans ((pump_quiet 8 _).trans (forEach_leaves Dev.quiet (fun k d => ?_) _ d))
  exact foldl_leaves Dev.quiet (fun d p => (pump_quiet 1 _).trans (stage_quiet d p)) _ d

/-- What leaves by the ports changes nothing but their queues. -/
theorem sendLinks_quiet (d : Dev) (l : List LinkMsg) : (d.sendLinks l).quiet = d.quiet := by
  unfold Dev.sendLinks
  refine (forEach_leaves Dev.quiet (fun p d => ?_) _ _).trans (foldl_leaves Dev.quiet (fun d m => ?_) _ d)
  · dsimp only
    split <;> rfl
  · rfl

/-- What leaves after the completions. -/
theorem leaving_quiet (d : Dev) (ps : List Packet) (l : List LinkMsg) : ((d.commitPackets ps).sendLinks l).quiet = d.quiet :=
  (sendLinks_quiet _ l).trans (commitPackets_quiet d ps)

/-! ### Completions -/

theorem ringCpl_core (d : Dev) (c : Cpl) : (d.ringCpl c).core = d.core := by
  rw [Dev.ringCpl, core_of_quiet (signal_quiet _ _)]
  exact (core_of_quiet (ownSeq_quiet d (if c.fwd then c else d.stampCpl c).fwd) :)

theorem commitCpl_core (d : Dev) (o : Origin) (c : Cpl) : (d.commitCpl o c).core = d.core := by
  unfold Dev.commitCpl
  cases o with
  | ring =>
    dsimp only
    split_ifs
    exacts [ringCpl_core d c, rfl, rfl]
  | tree => exact core_of_quiet (takeSeq_quiet d)
  | recovery => exact core_of_quiet (takeSeq_quiet d)

/-- The commit of a command's records changes nothing but the way of the records. -/
theorem commit_core (d : Dev) : d.commit.core = d.core := by
  unfold Dev.commit
  dsimp only
  refine (core_of_quiet (leaving_quiet _ _ _)).trans ((foldl_leaves Dev.core (fun d f => ?_) _ _).trans
    ((foldl_leaves Dev.core (fun d (c : Origin × Cpl) => commitCpl_core d c.1 c.2) _ _).trans
      (foldl_leaves Dev.core (fun d e => core_of_quiet (commitEvt_quiet d e)) _ _)))
  split
  · exact commitCpl_core d _ _
  · rfl

/-- Devices of one core agree on every part. -/
theorem sameBut_of_core {a b : Dev} (h : b.core = a.core) (l : List Part) : SameBut l a b := by
  have k : ∀ p : Part, p.same a.core a.core → p.same a b := by
    intro p
    have r : p.same a b = p.same a.core b.core := by cases p <;> rfl
    rw [r, h]
    exact id
  exact fun p _ => k p (by cases p <;> first | rfl | exact ⟨rfl, .inl rfl⟩)

@[simp] theorem commit_tl (d : Dev) : d.commit.tl = d.tl := of_core Dev.tl (fun _ => rfl) (commit_core d)
@[simp] theorem commit_pins (d : Dev) : d.commit.pins = d.pins := of_core Dev.pins (fun _ => rfl) (commit_core d)
@[simp] theorem commit_banks (d : Dev) : d.commit.banks = d.banks := of_core Dev.banks (fun _ => rfl) (commit_core d)
@[simp] theorem commit_seq (d : Dev) : d.commit.seq = d.seq := of_core Dev.seq (fun _ => rfl) (commit_core d)
@[simp] theorem commit_uc (d : Dev) : d.commit.uc = d.uc := of_core Dev.uc (fun _ => rfl) (commit_core d)
@[simp] theorem commit_pat (d : Dev) : d.commit.pat = d.pat := of_core Dev.pat (fun _ => rfl) (commit_core d)
@[simp] theorem commit_dsp (d : Dev) : d.commit.dsp = d.dsp := of_core Dev.dsp (fun _ => rfl) (commit_core d)
@[simp] theorem commit_mi (d : Dev) : d.commit.mi = d.mi := of_core Dev.mi (fun _ => rfl) (commit_core d)
@[simp] theorem commit_cal (d : Dev) : d.commit.cal = d.cal := of_core Dev.cal (fun _ => rfl) (commit_core d)
@[simp] theorem commit_tree (d : Dev) : d.commit.tree = d.tree := of_core Dev.tree (fun _ => rfl) (commit_core d)
@[simp] theorem commit_boot (d : Dev) : d.commit.boot = d.boot := of_core Dev.boot (fun _ => rfl) (commit_core d)
@[simp] theorem commit_fc (d : Dev) : d.commit.fc = d.fc := of_core Dev.fc (fun _ => rfl) (commit_core d)
@[simp] theorem commit_hk (d : Dev) : d.commit.hk = d.hk := of_core Dev.hk (fun _ => rfl) (commit_core d)
@[simp] theorem commit_flash (d : Dev) : d.commit.flash = d.flash := of_core Dev.flash (fun _ => rfl) (commit_core d)
@[simp] theorem commit_board (d : Dev) : d.commit.board = d.board := of_core Dev.board (fun _ => rfl) (commit_core d)
@[simp] theorem commit_journal (d : Dev) : d.commit.journal = d.journal := of_core Dev.journal (fun _ => rfl) (commit_core d)
@[simp] theorem commit_shutLatch (d : Dev) : d.commit.shutLatch = d.shutLatch := of_core Dev.shutLatch (fun _ => rfl) (commit_core d)
@[simp] theorem commit_free (d : Dev) : d.commit.free = d.free := of_core Dev.free (fun _ => rfl) (commit_core d)
@[simp] theorem commit_cap_setting (d : Dev) : d.commit.cap.setting = d.cap.setting := of_core (·.cap.setting) (fun _ => rfl) (commit_core d)
@[simp] theorem commit_ctl_setting (d : Dev) : d.commit.ctl.setting = d.ctl.setting := of_core (·.ctl.setting) (fun _ => rfl) (commit_core d)
@[simp] theorem commit_regs_setting (d : Dev) : d.commit.regs.setting = d.regs.setting := of_core (·.regs.setting) (fun _ => rfl) (commit_core d)
@[simp] theorem commit_log_setting (d : Dev) : d.commit.log.setting = d.log.setting := of_core (·.log.setting) (fun _ => rfl) (commit_core d)

end Sys2Proof.Machine
end

