-- ==== Sys2Proof/Laws/Answers.lean ====
section
/-!
SUPPORT. How a host command on an idle device is taken up, and how its answer reaches the Completion Ring: what a prover of a
statement about `Answers` or `Waits` cites in place of unfolding takeUp, finish and commit.
-/
namespace Sys2Proof.Machine

/-! ### The completion path through a commit -/

theorem stampCpl_fwd (d : Dev) (c : Cpl) : (d.stampCpl c).fwd = c.fwd := by
  unfold Dev.stampCpl; simp only []; split <;> rfl

theorem stampCpl_fields (d : Dev) (c : Cpl) (n : c.opcode ≠ 0x0100 ∨ c.resp = []) :
    (d.stampCpl c).tag = c.tag ∧ (d.stampCpl c).stream = c.stream ∧ (d.stampCpl c).opcode = c.opcode ∧
      (d.stampCpl c).status = c.status ∧ (d.stampCpl c).fin = c.fin ∧ (d.stampCpl c).resp = c.resp := by
  have m : ¬ (c.opcode = 0x0100 ∧ c.resp ≠ []) := fun h => n.elim (fun k => k h.1) (fun k => h.2 k)
  unfold Dev.stampCpl
  cases c.own <;> simp <;> exact fun a b => absurd ⟨a, b⟩ m

/-- Fields of a completion that the ring leaves as they were formed. -/
def Cpl.gist (c : Cpl) : Tag × BitVec 5 × BitVec 16 × BitVec 4 × Bool × List Int :=
  (c.tag, c.stream, c.opcode, c.status, c.fin, c.resp)

theorem ringCpl_out (d : Dev) (c : Cpl) (w : c.fwd = false) (n : c.opcode ≠ 0x0100 ∨ c.resp = []) :
    ∃ x : Cpl, (d.ringCpl c).ctl.cplOut = d.ctl.cplOut ++ [x] ∧ Cpl.gist x = Cpl.gist c := by
  have q : d.takeSeq.ctl.cplOut = d.ctl.cplOut := of_quiet (·.ctl.cplOut) (fun _ => rfl) (takeSeq_quiet d)
  rw [Dev.ringCpl, show ∀ (e : Dev) v, (e.signal v).ctl.cplOut = e.ctl.cplOut from fun e v => of_quiet (·.ctl.cplOut) (fun _ => rfl) (signal_quiet e v)]
  simp only [w, stampCpl_fwd, Bool.false_eq_true, if_false, q]
  obtain ⟨h1, h2, h3, h4, h5, h6⟩ := stampCpl_fields d c n
  exact ⟨_, rfl, by simp [Cpl.gist, h1, h2, h3, h4, h5, h6]⟩

theorem ringCpl_rest (d : Dev) (c : Cpl) :
    (d.ringCpl c).ctl.outbox = d.ctl.outbox ∧ (d.ringCpl c).ctl.flights = d.ctl.flights ∧ (d.ringCpl c).ctl.jobs = d.ctl.jobs := by
  have q : ∀ e : Dev, e.quiet = d.quiet → e.ctl.outbox = d.ctl.outbox ∧ e.ctl.flights = d.ctl.flights ∧ e.ctl.jobs = d.ctl.jobs :=
    fun e k => ⟨of_quiet (·.ctl.outbox) (fun _ => rfl) k, of_quiet (·.ctl.flights) (fun _ => rfl) k, of_quiet (·.ctl.jobs) (fun _ => rfl) k⟩
  have k := q _ (ownSeq_quiet d (if c.fwd then c else d.stampCpl c).fwd)
  have g := fun (e : Dev) v => signal_quiet e v
  unfold Dev.ringCpl
  dsimp only
  refine ⟨(of_quiet (·.ctl.outbox) (fun _ => rfl) (g _ _)).trans k.1,
    (of_quiet (·.ctl.flights) (fun _ => rfl) (g _ _)).trans k.2.1,
    (of_quiet (·.ctl.jobs) (fun _ => rfl) (g _ _)).trans k.2.2⟩

/-- A completion that is written into the ring at once; TL.NOW alone forms its response as it is written. -/
theorem commitCpl_ring (d : Dev) (c : Cpl) (room : d.ctl.cpl.room = true) (h : d.ctl.heldCpl = []) (h0 : d.ctl.heldCpl0 = [])
    (b : d.ctl.behind = false) (w : c.fwd = false) (n : c.opcode ≠ 0x0100 ∨ c.resp = []) :
    ∃ x : Cpl, (d.commitCpl .ring c).ctl.cplOut = d.ctl.cplOut ++ [x] ∧ Cpl.gist x = Cpl.gist c := by
  have e : d.commitCpl .ring c = d.ringCpl c := by
    unfold Dev.commitCpl
    simp only []
    rw [if_pos ⟨room, by simp [Dev.inTurn, b], h, h0⟩]
  rw [e]
  exact ringCpl_out d c w n

/-- The commit of a device on which one command is in flight and done: its completion is the next entry of the ring. -/
theorem commit_done (d : Dev) (f : Flight) (c : Cpl) (hf : d.ctl.flights = [f]) (hc : f.done = some c) (ho : f.origin = .ring)
    (hw : c.own = false ∨ d.tl.rewind = none) (w : c.fwd = false) (n : c.opcode ≠ 0x0100 ∨ c.resp = [])
    (hi : d.ctl.outbox.interim = []) (room : d.ctl.cpl.room = true) (h : d.ctl.heldCpl = []) (h0 : d.ctl.heldCpl0 = [])
    (b : d.ctl.behind = false) :
    ∃ x : Cpl, d.commit.ctl.cplOut = d.ctl.cplOut ++ [x] ∧ Cpl.gist x = Cpl.gist c := by
  have hb : d.settleEpoch.ctl.behind = false := by simp [Dev.settleEpoch, b]
  have hs : f.settled d.settleEpoch.mayWrite = true := by
    unfold Flight.settled Dev.mayWrite Dev.inTurn Timeline.nextEpoch
    rw [hc]
    rcases hw with hw | hw <;> simp [hw, Dev.settleEpoch, b]
  have hwr : writeable d.settleEpoch.mayWrite [] [f] = [f] := by simp [writeable, hs]
  have hf' : d.settleEpoch.ctl.flights = [f] := hf
  have hi' : d.settleEpoch.ctl.outbox.interim = [] := hi
  unfold Dev.commit
  simp only [hf', hwr, hi', List.foldl_nil, List.foldl_cons, hc, ho]
  have k := foldl_leaves Dev.quiet commitEvt_quiet d.settleEpoch.ctl.outbox.events
    { d.settleEpoch with ctl := { d.settleEpoch.ctl with
      outbox := {}, upCpl := [], upEvt := [], sent := [], written := d.settleEpoch.ctl.outbox.written
      flights := unwritten d.settleEpoch.mayWrite [] [f] } }
  obtain ⟨x, hx, gx⟩ := commitCpl_ring _ c ((of_quiet (·.ctl.cpl.room) (fun _ => rfl) k).trans room)
    ((of_quiet (·.ctl.heldCpl) (fun _ => rfl) k).trans h) ((of_quiet (·.ctl.heldCpl0) (fun _ => rfl) k).trans h0) ((of_quiet (·.ctl.behind) (fun _ => rfl) k).trans hb) w n
  exact ⟨x, (of_quiet (·.ctl.cplOut) (fun _ => rfl) (leaving_quiet _ _ _)).trans
    (hx.trans (of_quiet (·.ctl.cplOut ++ [x]) (fun _ => rfl) k :)), gx⟩

/-- The commit of a device on which one command is in flight and has not ended. -/
theorem commit_waits (d : Dev) (f : Flight) (hf : d.ctl.flights = [f]) (hc : f.done = none)
    (hi : d.ctl.outbox.interim = []) : d.commit.ctl.cplOut = d.ctl.cplOut ∧ d.commit.ctl.flights = [f] := by
  have hs : f.settled d.settleEpoch.mayWrite = false := by simp [Flight.settled, hc]
  have hwr : writeable d.settleEpoch.mayWrite [] [f] = [] := by simp [writeable, hs]
  have hun : unwritten d.settleEpoch.mayWrite [] [f] = [f] := by simp [unwritten, hs]
  have hf' : d.settleEpoch.ctl.flights = [f] := hf
  have hi' : d.settleEpoch.ctl.outbox.interim = [] := hi
  unfold Dev.commit
  simp only [hf', hwr, hun, hi', List.foldl_nil]
  have k := foldl_leaves Dev.quiet commitEvt_quiet d.settleEpoch.ctl.outbox.events
    { d.settleEpoch with ctl := { d.settleEpoch.ctl with
      outbox := {}, upCpl := [], upEvt := [], sent := [], written := d.settleEpoch.ctl.outbox.written, flights := [f] } }
  have g := (leaving_quiet _ d.settleEpoch.ctl.outbox.packets d.settleEpoch.ctl.outbox.links).trans k
  exact ⟨(of_quiet (·.ctl.cplOut) (fun _ => rfl) g :), (of_quiet (·.ctl.flights) (fun _ => rfl) g :)⟩

/-- Nothing that a command formed is left after its commit (R25). -/
theorem commit_outbox (d : Dev) : d.commit.ctl.outbox = {} := by
  have cpl : ∀ (d : Dev) (o : Origin) (c : Cpl), (d.commitCpl o c).ctl.outbox = d.ctl.outbox := by
    intro d o c
    unfold Dev.commitCpl
    cases o with
    | ring =>
      dsimp only
      split_ifs
      exacts [(ringCpl_rest d c).1, rfl, rfl]
    | tree => exact of_quiet (·.ctl.outbox) (fun _ => rfl) (takeSeq_quiet d)
    | recovery => exact of_quiet (·.ctl.outbox) (fun _ => rfl) (takeSeq_quiet d)
  unfold Dev.commit
  dsimp only
  refine (of_quiet (·.ctl.outbox) (fun _ => rfl) (leaving_quiet _ _ _)).trans
    ((foldl_leaves (·.ctl.outbox) (fun d f => ?_) _ _).trans
      ((foldl_leaves (·.ctl.outbox) (fun d (c : Origin × Cpl) => cpl d c.1 c.2) _ _).trans (of_quiet (·.ctl.outbox) (fun _ => rfl) (foldl_leaves Dev.quiet commitEvt_quiet _ _))))
  split
  · exact cpl d _ _
  · rfl

/-! ### Taking a command up -/

/-- The flight of a command just taken up. -/
def newFlight (h : Hdr) (op : BitVec 16) : Flight := { tag := h.tag, stream := h.stream, opcode := op }

theorem advance_ctl (d : Dev) (t : Nat) : (d.advance t).ctl = d.ctl := by simp

theorem takeUp_idle {s : State} {h : Hdr} (i : Idle s h) (op : BitVec 16) : s.dev.takeUp h op = .ok (s.dev.takenUp h op) := by
  have hf : (s.dev.advance h.t).flight h.tag = none := by simp [Dev.flight, i.flights]
  have hm : (s.dev.advance h.t).mustWait h op = false := by simp [Dev.mustWait, acceptable, i.flights, i.held]
  have hg : ((s.dev.advance h.t).ensureFlight h op).gate .ring h op = none := by
    simp [Dev.gate, i.normal, i.ready, i.rsv]
  unfold Dev.takeUp
  simp only [hf, hm, hg, Bool.false_eq_true, if_false]
  rfl

/-- A host command on an idle device runs its own meaning. -/
theorem hostCmd_idle {s : State} {h : Hdr} (i : Idle s h) (op : BitVec 16) (body : Dev → Dev) :
    hostCmd s h op body = .next { s with dev := (body (s.dev.takenUp h op)).commit } := by
  unfold hostCmd onDev Dev.command
  simp only []
  rw [takeUp_idle i op]

theorem takenUp_ctl {s : State} {h : Hdr} (i : Idle s h) (op : BitVec 16) :
    (s.dev.takenUp h op).ctl = { s.dev.ctl with
      flights := [newFlight h op], orphans := (s.dev.advance h.t).orphaned h.tag } := by
  have hf : (s.dev.advance h.t).flight h.tag = none := by simp [Dev.flight, i.flights]
  unfold Dev.takenUp Dev.ensureFlight newFlight
  simp [hf, i.flights, Dev.orphaned]

/-- A device on which a command has just been taken up, and whose completion path stands open. -/
structure Opened (d : Dev) (h : Hdr) (op : BitVec 16) : Prop where
  flights : ∃ f : Flight, d.ctl.flights = [f] ∧ f.tag = h.tag ∧ f.stream = h.stream ∧ f.opcode = op ∧ f.origin = .ring ∧
    f.group = false ∧ f.done = none
  held : d.ctl.heldCpl = []
  held0 : d.ctl.heldCpl0 = []
  room : d.ctl.cpl.room = true
  interim : d.ctl.outbox.interim = []
  behind : d.ctl.behind = false

theorem takenUp_opened {s : State} {h : Hdr} (i : Idle s h) (op : BitVec 16) : Opened (s.dev.takenUp h op) h op := by
  have k := takenUp_ctl i op
  constructor
  · exact ⟨newFlight h op, by rw [k], rfl, rfl, rfl, rfl, rfl, rfl⟩
  · rw [k]; exact i.held
  · rw [k]; exact i.held0
  · rw [k]; exact i.room
  · rw [k]; simp [i.outbox]
  · rw [k]; exact i.behind

/-- What leaves the control complex alone keeps the device opened. -/
theorem Opened.congr {d e : Dev} {h : Hdr} {op : BitVec 16} (o : Opened d h op) (k : e.ctl = d.ctl) : Opened e h op := by
  constructor <;> rw [k]
  exacts [o.flights, o.held, o.held0, o.room, o.interim, o.behind]

theorem Opened.accept {d : Dev} {h : Hdr} {op : BitVec 16} (o : Opened d h op) : Opened (d.accept h.tag) h op := by
  obtain ⟨f, hf, ht, hs, ho, hr, hg, hd⟩ := o.flights
  constructor
  · refine ⟨{ f with accepted := true }, ?_, ht, hs, ho, hr, hg, hd⟩
    simp [Dev.accept, hf, modFlight, ht, hd]
  · exact o.held
  · exact o.held0
  · exact o.room
  · exact o.interim
  · exact o.behind

/-- The final completion of the command just taken up is written by the commit. -/
theorem Opened.finish_commit {d : Dev} {h : Hdr} {op : BitVec 16} (o : Opened d h op) (c : Cpl)
    (hw : c.own = false ∨ d.tl.rewind = none) (w : c.fwd = false) (n : op ≠ 0x0100 ∨ c.resp = []) :
    ∃ x : Cpl, (d.finish h.tag c).commit.ctl.cplOut = d.ctl.cplOut ++ [x] ∧ x.tag = h.tag ∧ x.stream = h.stream ∧
      x.opcode = op ∧ x.status = c.status ∧ x.fin = c.fin ∧ x.resp = c.resp := by
  obtain ⟨f, hf, ht, hs, ho, hr, hg, hd⟩ := o.flights
  have hfl : d.flight h.tag = some f := by simp [Dev.flight, hf, ht, hd]
  let c' : Cpl := { c with
    tag := h.tag, stream := f.stream, opcode := f.opcode, position := d.tree.position, respBytes := respLen f.opcode c.resp
    trunc := (f.respLen.map fun l => decide (respLen f.opcode c.resp > l)).getD false }
  let f' : Flight := { f with done := some c' }
  have e : (d.finish h.tag c).ctl = { d.ctl with flights := [f'] } := by
    have m : modFlight h.tag (fun f => { f with done := some c' }) d.ctl.flights = [f'] := by
      rw [hf]; unfold modFlight; rw [if_pos ⟨ht, hd⟩]
    rw [← m]
    unfold Dev.finish
    rw [hfl]
    simp only [hg, Bool.false_eq_true, if_false]
    rfl
  obtain ⟨x, hx, gx⟩ := commit_done (d.finish h.tag c) f' c' (by rw [e]) rfl hr
    (by rcases hw with hw | hw
        · exact Or.inl hw
        · exact Or.inr (by simpa using hw)) w (n.imp (fun k => by rw [← ho] at k; exact k) id) (by rw [e]; exact o.interim)
    (by rw [e]; exact o.room) (by rw [e]; exact o.held) (by rw [e]; exact o.held0) (by rw [e]; exact o.behind)
  refine ⟨x, by rw [hx, e], ?_⟩
  simp only [Cpl.gist, Prod.mk.injEq] at gx
  obtain ⟨g1, g2, g3, g4, g5, g6⟩ := gx
  exact ⟨g1, g2.trans hs, g3.trans ho, g4, g5, g6⟩

/-- A command on an idle device that its meaning finishes, on a device that has the control complex of the one it was taken up
on, is answered. -/
theorem answers_finish {s : State} {h : Hdr} (i : Idle s h) (op : BitVec 16) (d : Dev) (c : Cpl)
    (k : d.ctl = (s.dev.takenUp h op).ctl) (hw : c.own = false ∨ d.tl.rewind = none) (w : c.fwd = false) (fin : c.fin = true)
    (n : op ≠ 0x0100 ∨ c.resp = []) : Answers s { s with dev := (d.finish h.tag c).commit } h op c.status c.resp := by
  obtain ⟨x, hx, h1, h2, h3, h4, h5, h6⟩ := ((takenUp_opened i op).congr k).finish_commit c hw w n
  exact ⟨x, by rw [hx, k, takenUp_ctl i op], h1, h2, h3, h4, h5.trans fin, h6⟩

/-- The same for a command that is accepted first. -/
theorem answers_accept {s : State} {h : Hdr} (i : Idle s h) (op : BitVec 16) (d : Dev) (c : Cpl)
    (k : d.ctl = (s.dev.takenUp h op).ctl) (hw : c.own = false ∨ d.tl.rewind = none) (w : c.fwd = false) (fin : c.fin = true)
    (n : op ≠ 0x0100 ∨ c.resp = []) : Answers s { s with dev := ((d.accept h.tag).finish h.tag c).commit } h op c.status c.resp := by
  obtain ⟨x, hx, h1, h2, h3, h4, h5, h6⟩ := (((takenUp_opened i op).congr k).accept).finish_commit c
    (by simpa using hw) w n
  refine ⟨x, ?_, h1, h2, h3, h4, h5.trans fin, h6⟩
  have e : (d.accept h.tag).ctl.cplOut = d.ctl.cplOut := rfl
  rw [hx, e, k, takenUp_ctl i op]

/-- A meaning that ends OK at once. -/
theorem answers_ok {s : State} {h : Hdr} (i : Idle s h) (op : BitVec 16) (d : Dev) (k : d.ctl = (s.dev.takenUp h op).ctl) :
    Answers s { s with dev := (d.ok h.tag).commit } h op stOk [] := answers_accept i op d {} k (Or.inl rfl) rfl rfl (Or.inr rfl)

/-- A meaning that ends OK at once with a response. -/
theorem answers_okResp {s : State} {h : Hdr} (i : Idle s h) (op : BitVec 16) (d : Dev) (r : List Int)
    (k : d.ctl = (s.dev.takenUp h op).ctl) (n : op ≠ 0x0100 ∨ r = []) :
    Answers s { s with dev := (d.okResp h.tag r).commit } h op stOk r :=
  answers_accept i op d { resp := r } k (Or.inl rfl) rfl rfl n

/-- A meaning that turns its command away. -/
theorem answers_refuse {s : State} {h : Hdr} (i : Idle s h) (op : BitVec 16) (d : Dev) (st : BitVec 4) (a b c : Nat)
    (k : d.ctl = (s.dev.takenUp h op).ctl) :
    Answers s { s with dev := (d.refuse h.tag st a b c).commit } h op st [] :=
  answers_finish i op d { status := st, a := BitVec.ofNat 16 a, b := BitVec.ofNat 8 b, c := BitVec.ofNat 8 c } k (Or.inl rfl) rfl rfl
    (Or.inr rfl)

end Sys2Proof.Machine
end

