-- ==== Sys2Proof/Laws/Frames.lean ====
section
/-!
SUPPORT. Frames: how what a meaning leaves alone is put together from what its parts leave alone.
-/
namespace Sys2Proof.Machine

@[simp] theorem Timeline.kept_refl (t : Timeline) : t.kept t := ⟨rfl, .inl rfl⟩

/-- A warm state comes into force once: none waits any more once it stands. -/
theorem Timeline.kept_trans {a b c : Timeline} (h : a.kept b) (k : b.kept c) : a.kept c := by
  refine ⟨h.1.trans k.1, ?_⟩
  rcases h.2 with e | ⟨w, x, s, p, q⟩
  · rcases k.2 with f | ⟨w, x, s, p, q⟩
    · exact .inl (e.trans f)
    · exact .inr ⟨w, x, s, (congrArg (·.2.2.2) e).trans p, q⟩
  · rcases k.2 with f | ⟨w', x', s', p', _⟩
    · exact .inr ⟨w, x, s, p, f ▸ q⟩
    · exact absurd ((congrArg (·.2.2.2) q).symm.trans p') (by simp)

theorem Part.same_refl (p : Part) (a : Dev) : p.same a a := by
  cases p <;> first | rfl | exact Timeline.kept_refl _

theorem Part.same_trans {p : Part} {a b c : Dev} (h : p.same a b) (k : p.same b c) : p.same a c := by
  cases p <;> first | exact Eq.trans h k | exact Timeline.kept_trans h k

theorem SameBut.refl (l : List Part) (a : Dev) : SameBut l a a := fun p _ => p.same_refl a

theorem SameBut.trans {l : List Part} {a b c : Dev} (h : SameBut l a b) (k : SameBut l b c) : SameBut l a c :=
  fun p hp => Part.same_trans (h p hp) (k p hp)

theorem SameBut.mono {l m : List Part} {a b : Dev} (h : SameBut l a b) (s : l ⊆ m) : SameBut m a b :=
  fun p hp => h p fun hl => hp (s hl)

theorem SameBut.foldl {α : Type} {l : List Part} {f : Dev → α → Dev} (h : ∀ d x, SameBut l d (f d x)) (xs : List α) (d : Dev) :
    SameBut l d (xs.foldl f d) :=
  List.foldlRecOn (motive := fun b => SameBut l d b) xs f (.refl l d) fun b k x _ => k.trans (h b x)

/-- A device that agrees with another on every field but those that a frame leaves out. -/
theorem sameBut_of {l : List Part} {a b : Dev} (h : ∀ p : Part, p ∉ l → p.same a b) : SameBut l a b := h

theorem Ctl.setting_flights (c : Ctl) (f : List Flight) : ({ c with flights := f } : Ctl).setting = c.setting := rfl

theorem finish_keeps (l : List Part) (d : Dev) (g : Tag) (c : Cpl) : SameBut l d (d.finish g c) := by
  have hc : (d.finish g c).ctl.setting = d.ctl.setting := by
    unfold Dev.finish
    split
    · rfl
    · simp only []
      split
      · split <;> rfl
      · rfl
  intro p _
  cases p <;> first | exact hc.symm | simp [Part.same]

theorem accept_keeps (l : List Part) (d : Dev) (g : Tag) : SameBut l d (d.accept g) := by
  intro p _
  cases p <;> first | rfl | exact Timeline.kept_refl _

theorem ok_keeps (l : List Part) (d : Dev) (g : Tag) : SameBut l d (d.ok g) :=
  (accept_keeps l d g).trans (finish_keeps l _ g _)

theorem okResp_keeps (l : List Part) (d : Dev) (g : Tag) (r : List Int) : SameBut l d (d.okResp g r) :=
  (accept_keeps l d g).trans (finish_keeps l _ g _)

theorem refuse_keeps (l : List Part) (d : Dev) (g : Tag) (st : BitVec 4) (a b c : Nat) : SameBut l d (d.refuse g st a b c) :=
  finish_keeps l d g _

/-- The count moves on; nothing but the present and what is noted with it changes, and a warm state that was due comes into
force (R31, R36). -/
theorem Timeline.move_kept (t : Timeline) (z : Nat) (b : Tab Nat) : t.kept { t.move z with before := b } := by
  unfold Timeline.move
  dsimp only
  cases e : t.warmPend with
  | none => exact ⟨rfl, .inl (by simp [Timeline.warmth, e])⟩
  | some p =>
    obtain ⟨w, x, s⟩ := p
    dsimp only
    by_cases h : x = t.epoch ∧ s ≤ z
    · rw [if_pos h]; exact ⟨rfl, .inr ⟨w, x, s, e, rfl⟩⟩
    · rw [if_neg h]; exact ⟨rfl, .inl (by simp [Timeline.warmth, e])⟩

theorem advance_keeps (l : List Part) (d : Dev) (t : Nat) : SameBut l d (d.advance t) := by
  unfold Dev.advance
  by_cases r : d.tl.running = true
  · by_cases z : d.tl.reach t = d.tl.now
    · simpa [r, z] using SameBut.refl l d
    · simp only [r, z, not_true_eq_false, if_false]
      intro p _
      cases p <;> first | rfl | exact Timeline.move_kept _ _ _
  · rw [if_pos r]
    intro p _
    cases p <;> first | rfl | exact ⟨rfl, .inl rfl⟩

theorem postAt_keeps (l : List Part) (d : Dev) (a b : Nat) (x : List Int) (e : BitVec 16) (t : Nat) (q : BitVec 4) :
    SameBut l d (d.postAt a b x e t q) := by
  unfold Dev.postAt
  split
  · exact .refl l d
  · intro p _
    cases p <;> first | rfl | exact Timeline.kept_refl _

theorem post_keeps (l : List Part) (d : Dev) (a b : Nat) (x : List Int) : SameBut l d (d.post a b x) := postAt_keeps l d a b x _ _ _

theorem packet_keeps (l : List Part) (d : Dev) (p : Packet) : SameBut l d (d.packet p) := by
  intro p _
  cases p <;> first | rfl | exact Timeline.kept_refl _

theorem pushLog_keeps (l : List Part) (d : Dev) (i : LogItem) : SameBut l d (d.pushLog i) := by
  intro p _
  cases p <;> first | rfl | exact Timeline.kept_refl _

theorem openJob_keeps (l : List Part) (d : Dev) (j : Job) : SameBut l d (d.openJob j) := by
  intro p _
  cases p <;> first | rfl | exact Timeline.kept_refl _

theorem interim_keeps (l : List Part) (d : Dev) (o : Origin) (c : Cpl) : SameBut l d (d.interim o c) := by
  intro p _
  cases p <;> first | rfl | exact Timeline.kept_refl _

theorem settleJob_keeps (l : List Part) (d : Dev) (g : Tag) : SameBut l d (d.settleJob g) := by
  unfold Dev.settleJob
  split
  · exact .refl l d
  · split
    · exact (finish_keeps l d g _).trans (by intro p _; cases p <;> first | rfl | exact Timeline.kept_refl _)
    · exact .refl l d

theorem preempt_keeps (d : Dev) (op : BitVec 16) (c : opClass op ≠ 0) : d.preempt op = d := by
  unfold Dev.preempt
  rw [if_neg c]

theorem ensureFlight_keeps (l : List Part) (d : Dev) (h : Hdr) (op : BitVec 16) : SameBut l d (d.ensureFlight h op) := by
  unfold Dev.ensureFlight
  split
  · exact .refl l d
  · intro p _
    cases p <;> first | rfl | exact Timeline.kept_refl _

theorem dupTag_keeps (l : List Part) (d : Dev) (o : Origin) (h : Hdr) (op : BitVec 16) : SameBut l d (d.dupTag o h op) := by
  intro p _
  cases p <;> first | rfl | exact Timeline.kept_refl _

theorem turnAway_keeps (l : List Part) (d : Dev) (g : Tag) (c : Cpl) : SameBut l d (d.turnAway g c) := by
  unfold Dev.turnAway
  refine SameBut.trans ?_ (finish_keeps l _ g c)
  by_cases s : c.status = stOk
  · rw [if_pos s]; exact accept_keeps l d g
  · rw [if_neg s]; exact .refl l d

/-- The device that taking a command up leaves, whether or not the command's own meaning is to run on it. -/
def Dev.taken (d : Dev) (h : Hdr) (op : BitVec 16) : Dev :=
  match d.takeUp h op with
  | .error e => e
  | .ok e => e

/-- Taking a command up leaves every part alone; a Safety command may suspend a fill of the pattern store (R222). -/
theorem taken_keeps (l : List Part) (d : Dev) (h : Hdr) (op : BitVec 16) (c : opClass op ≠ 0) : SameBut l d (d.taken h op) := by
  refine (advance_keeps l d h.t).trans ?_
  unfold Dev.taken Dev.takeUp
  simp only [preempt_keeps _ op c]
  generalize d.advance h.t = d
  have new := ensureFlight_keeps l d h op
  cases hf : d.flight h.tag with
  | none =>
    by_cases w : d.mustWait h op = true
    · rw [if_pos w]; exact .refl l d
    · rw [if_neg w]
      cases (d.ensureFlight h op).gate .ring h op with
      | none => exact new
      | some c => exact new.trans (turnAway_keeps l _ _ _)
  | some f =>
    dsimp only
    by_cases m : ¬ d.isMine f = true
    · rw [if_pos m]; exact .refl l d
    · rw [if_neg m]
      by_cases u : f.accepted = true ∨ f.opcode ≠ op
      · rw [if_pos u]; exact dupTag_keeps l d _ _ _
      · rw [if_neg u]
        by_cases w : d.mustWait h op = true
        · rw [if_pos w]; exact .refl l d
        · rw [if_neg w]
          cases d.gate f.origin h op with
          | some c => exact turnAway_keeps l d _ c
          | none =>
            by_cases b : f.origin = .ring ∧ ¬ f.buffers.all d.ctl.inWindow = true
            · simp only [if_pos b]; exact finish_keeps l d _ _
            · simp only [if_neg b]; exact .refl l d

/-- A command's frame is that of its own meaning. -/
theorem command_keeps {l : List Part} (d : Dev) (h : Hdr) (op : BitVec 16) (body : Dev → Dev) (c : opClass op ≠ 0)
    (hb : ∀ e, SameBut l e (body e)) : SameBut l d (d.command h op body) := by
  have k := taken_keeps l d h op c
  unfold Dev.taken at k
  unfold Dev.command
  cases e : d.takeUp h op with
  | error x => rw [e] at k; exact k
  | ok x => rw [e] at k; exact k.trans (hb x)

/-- The frame of an event of the device. -/
theorem onDev_keeps {l : List Part} {s t : State} {f : Dev → Dev} (e : onDev s f = .next t) (h : SameBut l s.dev (f s.dev)) :
    Keeps l s t := by
  have k : SameBut l s.dev (f s.dev).commit := h.trans (sameBut_of_core (commit_core _) l)
  unfold onDev at e
  generalize (f s.dev).commit = d at e k
  cases e
  exact ⟨rfl, rfl, rfl, k⟩

/-- The frame of a host command that is not of the Safety class. -/
theorem hostCmd_keeps {l : List Part} {s t : State} {h : Hdr} {op : BitVec 16} {body : Dev → Dev} (c : opClass op ≠ 0)
    (hb : ∀ e, SameBut l e (body e)) (e : hostCmd s h op body = .next t) : Keeps l s t :=
  onDev_keeps e (command_keeps s.dev h op body c hb)

end Sys2Proof.Machine
end

