-- ==== Sys2Proof/Laws/Tab.lean ====
section
/-!
SUPPORT. Tables and the memories that they hold: a value that has been written is read back, every other stays, and every
operation keeps the canonical form.
-/
namespace Sys2Proof.Machine

variable {α : Type}

/-- What a look-up finds among the cells whose index has a property. -/
theorem lookup_filter_key (p : Nat → Bool) (k : Nat) (l : List (Nat × α)) :
    (l.filter fun c => p c.1).lookup k = if p k then l.lookup k else none := by
  induction l with
  | nil => simp
  | cons c r ih =>
    obtain ⟨j, w⟩ := c
    rcases eq_or_ne k j with rfl | e
    · cases q : p k <;> simp [q, ih]
    · have b : (k == j) = false := beq_eq_false_iff_ne.mpr e
      cases q : p j <;> simp [q, b, List.lookup_cons, ih]

/-- The cell that a write lists for its index. -/
theorem lookup_cell [DecidableEq α] (d v : α) (i k : Nat) :
    (if v = d then [] else [(i, v)]).lookup k = if k = i ∧ v ≠ d then some v else none := by
  by_cases h : v = d <;> by_cases e : k = i <;> simp [h, e, List.lookup_cons]
  simp [beq_eq_false_iff_ne.mpr e]

variable [DecidableEq α]

/-- What is written is read back, and every other place stays. -/
theorem Tab.get_set (d : α) (t : Tab α) (i k : Nat) (v : α) : (t.set d i v).get d k = if k = i then v else t.get d k := by
  have o : k < i ∨ k = i ∨ i < k := by omega
  unfold Tab.set Tab.get
  rw [List.lookup_append, List.lookup_append, lookup_filter_key (fun n => decide (n < i)), lookup_filter_key (fun n => decide (i < n)),
    lookup_cell]
  rcases o with o | o | o
  · simp [o, show ¬ i < k by omega, show k ≠ i by omega]
  · subst o; by_cases h : v = d <;> simp [h]
  · simp [o, show ¬ k < i by omega, show k ≠ i by omega]

/-- What is written is read back. -/
@[simp] theorem Tab.get_set_self (d : α) (t : Tab α) (i : Nat) (v : α) : (t.set d i v).get d i = v := by
  simp [Tab.get_set]

/-- A write leaves every other place alone. -/
theorem Tab.get_set_of_ne (d : α) (t : Tab α) {i k : Nat} (h : k ≠ i) (v : α) : (t.set d i v).get d k = t.get d k := by
  simp [Tab.get_set, h]

@[simp] theorem Tab.get_mod_self (d : α) (t : Tab α) (i : Nat) (f : α → α) : (t.mod d i f).get d i = f (t.get d i) := by
  simp [Tab.mod]

theorem Tab.get_mod_of_ne (d : α) (t : Tab α) {i k : Nat} (h : k ≠ i) (f : α → α) : (t.mod d i f).get d k = t.get d k := by
  simp [Tab.mod, Tab.get_set_of_ne d t h]

omit [DecidableEq α] in
@[simp] theorem Tab.get_empty (d : α) (i : Nat) : (Tab.empty : Tab α).get d i = d := rfl

/-- A run of values that has been written. -/
theorem Tab.get_fill (d : α) (t : Tab α) (first : Nat) (vs : List α) (i : Nat) :
    (t.fill d first vs).get d i = if first ≤ i ∧ i < first + vs.length then vs.getD (i - first) d else t.get d i := by
  fun_induction Tab.fill d t first vs with
  | case1 t n => simp
  | case2 t n v vs ih =>
    rw [ih, Tab.get_set]
    rcases Nat.lt_trichotomy i n with o | rfl | o
    · simp [show ¬ n ≤ i by omega, show ¬ n + 1 ≤ i by omega, show i ≠ n by omega]
    · simp
    · obtain ⟨k, rfl⟩ : ∃ k, i = n + 1 + k := ⟨i - (n + 1), by omega⟩
      simp [show n + 1 + k - n = k + 1 by omega, show n + 1 + k ≠ n by omega, show n ≤ n + 1 + k by omega]
      congr 1
      simp only [eq_iff_iff]; omega

/-! ### The canonical form -/

/-- A write keeps the canonical form. -/
theorem Tab.set_wf (d : α) (t : Tab α) (i : Nat) (v : α) (h : t.wf d = true) : (t.set d i v).wf d = true := by
  simp only [Tab.wf, Bool.and_eq_true, decide_eq_true_eq, List.all_eq_true] at h ⊢
  obtain ⟨up, off⟩ := h
  refine ⟨?_, fun c hc => ?_⟩
  · rw [Tab.set, List.append_assoc, List.pairwise_append]
    refine ⟨up.filter _, List.pairwise_append.mpr ⟨by split <;> simp, up.filter _, ?_⟩, ?_⟩
    · intro a ha b hb
      split at ha <;> simp_all
    · intro a ha b hb
      simp only [List.mem_append, List.mem_filter, decide_eq_true_eq] at ha hb
      rcases hb with hb | hb
      · split at hb <;> simp_all
      · omega
  · simp only [Tab.set, List.mem_append, List.mem_filter] at hc
    rcases hc with (hc | hc) | hc
    · exact off c hc.1
    · split at hc <;> simp_all
    · exact off c hc.1

theorem Tab.mod_wf (d : α) (t : Tab α) (i : Nat) (f : α → α) (h : t.wf d = true) : (t.mod d i f).wf d = true :=
  t.set_wf d i _ h

/-- A run of writes keeps the canonical form. -/
theorem Tab.fill_wf (d : α) (t : Tab α) (first : Nat) (vs : List α) (h : t.wf d = true) : (t.fill d first vs).wf d = true := by
  fun_induction Tab.fill d t first vs with
  | case1 => exact h
  | case2 t n v vs ih => exact ih (t.set_wf d n v h)

theorem Tab.mapAll_wf (d : α) (t : Tab α) (f : α → α) (h : t.wf d = true) : (t.mapAll d f).wf d = true := by
  simp only [Tab.wf, Bool.and_eq_true, decide_eq_true_eq, List.all_eq_true] at h ⊢
  refine ⟨List.Pairwise.filter _ (List.pairwise_map.mpr h.1), by simp [Tab.mapAll]⟩

/-- After reset every memory of the device stands in its canonical form. -/
theorem reset_memory_wf : Memory.wf State.reset.dev = true := rfl

/-- The cells after a write are the new one and some of the old ones. -/
theorem Tab.mem_set {d : α} {t : Tab α} {i : Nat} {v : α} {c : Nat × α} (h : c ∈ (t.set d i v).cells) : c = (i, v) ∨ c ∈ t.cells := by
  simp only [Tab.set, List.mem_append, List.mem_filter] at h
  rcases h with (h | h) | h
  · exact .inr h.1
  · split at h <;> simp_all
  · exact .inr h.1

/-- A change of a bank keeps the canonical form when it keeps that of the bank's memories. -/
theorem modBank_memory_wf (d : Dev) (b : Nat) (f : Bank → Bank)
    (hf : ((f (d.bank b)).capMem.wf 0 && (f (d.bank b)).wave.wf 0 && (f (d.bank b)).lane.x.wf 0 && (f (d.bank b)).lane.y.wf 0 &&
      (f (d.bank b)).tiles.cells.all fun t => t.2.data.wf 0) = true)
    (h : Memory.wf d = true) : Memory.wf (d.modBank b f) = true := by
  unfold Memory.wf at *
  rw [Bool.and_eq_true] at h ⊢
  refine ⟨h.1, List.all_eq_true.mpr fun c hc => ?_⟩
  rcases Tab.mem_set hc with rfl | hc
  · exact hf
  · exact List.all_eq_true.mp h.2 c hc

end Sys2Proof.Machine
end

