-- ==== Sys2Proof/WellFormed.lean ====
section
/-!
DEFINITION. Well-formed commands: the parts of an operand that its type leaves wider than the field of spec/ that carries it, the
commands grouped by what is asked of them. The meanings take any command: what spec/ says of a wrong operand is in them (R5, R50).
-/
namespace Sys2Proof

/-- Reserved fields of the entry and of the arguments are 0 (R5), and the stamp of acceptance is a stamp of 64 bits (R11). -/
def Hdr.wf (h : Hdr) : Bool := !h.rsv && decide (h.t < 2 ^ 64)

/-- A when-block: reserved bits 0, a policy that is listed, and no stamp with IMMEDIATE (R48 to R50). -/
def When.wf (w : When) : Bool := !w.rsv && w.policy != 3 && (w.policy != 2 || w.epoch == 0 && w.stamp == 0)

/-- A stamp is a number of 64 bits (R11). -/
def stampWf (t : Nat) : Bool := decide (t < 2 ^ 64)

/-- A count, a length or an index is an argument of at most 32 bits. -/
def countWf (n : Nat) : Bool := decide (n < 2 ^ 32)

/-- A producer of the Carafe is one of 17 (R263). -/
def producerWf (n : Nat) : Bool := decide (n ≤ 16)

/-- A command whose operands fit the fields that carry them. -/
def Instr.wf (i : Instr) : Bool :=
  match i with
  | .powerOnReset _ | .warmReset _ | .alignmentIntervalEnd | .holdoverLimitExpiry | .grainNearEnd | .forcedRewind | .rewindEffect | .tlMarkEvent _
  | .levelRampMove _ _ | .pmuSequenceStart _ | .pmuSequenceStepEnd _ | .forceRampMove _
  | .pmuForceEffect _ | .pmuMeasureStart _ | .pmuAdcSample _ _ _ _ | .waveStepStart _ | .tdcWindowOpen _ _ | .tdcWindowClose _ _
  | .threadStart _ | .microwordExecute _ | .vectorStart _ | .compareStrobe _ _ | .prefetchRequest _ | .underrunResume _
  | .underrunAbort _ | .holdEntry _ | .threadResume _ | .jfailDecision _ | .matchFound _ | .matchTimeout _ | .waittRelease _
  | .barrierBreak _ | .segmentEnd _ | .deadTimeEnd _ | .trigOutPulseEnd _ | .tileCheckComplete _ _ | .captureArmEffect _ _
  | .triggerAction _ _ | .recordClose _ _ | .recordHeaderCommit _ _ | .xtrigWindowClose _ | .xtrigAction _ | .flowGateDecision _
  | .dspRunStart _ | .dspInputWord _ | .islandActionEffect _ | .muSequenceStepEnd _ | .muRampMove _ | .muAdcSample _ _ _ _ _
  | .injectedReport => true
  | .bootStepEnd t10 _ | .bootStepBoundExpiry t10 | .mainPllLock t10 | .linkImageTimeout t10 | .hostImageTimeout t10
  | .firmwareMulticastReceived t10 _ => stampWf t10
  | .refWarmFilterChange t _ | .stabilityVerdict t _ | .refInLoss t | .refInRelock t | .upstreamTimelineLoss t
  | .pendingValuesEffect t _ | .monitorSample t _ _ | .queuedEnableRelease t _ | .supplyOutOfRange t _ _ | .supplyInRange t _ _ | .tdcEdge _ _ _ t
  | .lookaheadFault t _ _ | .faultResolutionStart t | .fillGranule t _ _ | .fillResume t | .fillComplete t
  | .translationReload t _ _ | .carafePacketRead t _ _ | .resultPacketDma t | .flowInFilterChange t _ | .dspInstruction t _
  | .islandFrameReceived t _ | .islandStart t _ | .islandPowerLoss t | .calibrationRunEnd t _ _ | .cmdTailWrite t _
  | .commandFetch t _ | .cplHeadWrite t _ | .evtHeadWrite t _ | .resHeadWrite t _ | .ringCtrlWrite t _ _
  | .heldCompletionDrain t | .heldEventDrain t | .dmaGranuleBoundary t _ _ | .watchdogExpiry t _ | .irqHoldoffExpiry t _
  | .hostAttachmentLoss t _ _ | .hostAttachmentRestored t _ | .hostLinkModeChange t _ | .recoveryCommand t _
  | .recoveryCompletionRead t | .linkPacketReceived t _ _ | .portRetrainStart t _ _ | .portRetrainEnd t _ | .laneFailure t _ _
  | .pathLost t _ | .pathRestored t _ | .trainingRequest t _ | .workerIdentification t _ _ _ | .brewupStageStart t _
  | .deviceReadyReport t _ _ | .forwardedCommand t _ _ | .workerCompletionReceived t _ | .errorReport t _ _ _ _ _
  | .decafSafeStateReached t | .logRecordCommit t | .logRecordIdleClose t _ | .logFlashCopy t _ | .logFreezeTimeout t
  | .hkSample t _ _ | .hkRoundEnd t | .peEnPosEnable t | .flashSelectCollision t | .flashCollisionRetry t
  | .flashStatusPoll t _ _ | .flashBadWord t | .xipRead t _ | .xipStore t _ _ | .xipBufferFlush t | .tlNowRead t _
  | .registerLowHalfRead t _ | .fcInjectWrite t _ | .decafReqWrite t _ | .irqTestWrite t _ | .logFreezeWrite t _
  | .logIndexWrite t _ | .badRegisterAccess t _ | .registerWrite t _ _ _ | .alignmentIntervalStart t | .flashSelectClaim t _ =>
      stampWf t
  | .warmStateMessage t _ _ stamp | .barrierArrival t _ _ stamp | .xtrigFireMessage t _ _ _ stamp
  | .linkMarkerReceived t _ stamp _ _ _ => stampWf t && stampWf stamp
  | .timelineMarker t _ grain _ _ => stampWf t && stampWf grain
  | .tampExchange t1 t2 t3 t4 => stampWf t1 && stampWf t2 && stampWf t3 && stampWf t4
  | .tlNow h | .tlStatus h | .tlCancel h _ | .pinLevels h _ _ _ | .pinDriver h _ _ _ | .pinLoad h _ _ _ _ | .pinClamp h _ _
  | .pinLimit h _ _ _ _ | .pinMon h _ _ _ _ _ _ _ _ _ _ | .pinMonRead h _ | .pinState h _ | .pinPark h _ | .pmuLimit h _ _ _
  | .pmuWaveStop h _ | .pmuDrvi h _ _ _ | .pmuState h _ | .timPeriod h _ _ _ | .timEdges h _ _ _ | .timDeskew h _ _ _
  | .timMap h _ | .tdcStop h _ _ | .tdcState h _ | .seqAssign h _ _ | .seqLink h _ _ | .seqTrigout h _ _ _ | .seqJump h _ _
  | .seqHold h _ | .seqStop h _ | .seqBarrier h _ _ _ _ | .seqStatus h _ | .ucLoad h _ _ | .ucClear h | .ucState h
  | .patWrite h _ _ | .patQuery h _ | .patState h _ | .capDisarm h _ _ | .capCounts h _ _ | .capFlush h _ | .capState h _
  | .dspClaim h _ _ | .dspKload h _ _ | .dspRun h _ _ _ _ _ _ _ _ _ _ | .dspStop h _ | .dspState h _ | .miLimit h _ _ _
  | .miStop h _ | .miPark h | .miState h _ | .miSealState h | .miChallenge h | .miSealRenew h _ _ _ | .miSealBreak h _ _
  | .miCalLoad h _ | .miReset h | .calRun h _ _ | .calQuality h _ | .calTaps h _ | .calSave h _ | .ctlNop h | .ctlInfo h
  | .ctlPget h _ | .ctlPset h _ | .ctlWindow h _ _ _ | .ctlResults h _ _ | .ctlEvmap h _ _ _ _ | .ctlCplmap h _ _
  | .ctlIrqmod h _ _ _ | .ctlFlushStream h _ | .treeState h | .treeGroup h _ _ | .treeRescan h _ | .treePort h _ _ _
  | .bootJournal h _ _ | .bootJournalClear h | .bootImage h _ | .bootRollback h _ | .bootHealth h _ _ | .bootSpares h
  | .fcRead h | .fcClear h _ | .fcDecaf h | .fcDecafExit h | .logSummary h | .logSync h | .logChallenge h | .logClear h _ _
  | .hkRead h _ _ | .hkState h | .hkMinmax h _ | .flashRead h _ _ | .flashWrite h _ _ | .flashErase h _ _ | .flashInfo h
  | .flashXfer h _ _ _ => h.wf
  | .tlRewind h w _ | .tlMark h w _ | .pmuConfig h _ w _ _ _ _ | .pmuConnect h _ w _ | .pmuForce h _ w _
  | .pmuMeasure h _ w _ _ _ _ _ | .seqStart h _ _ w | .seqResume h _ w | .capTrigger h _ _ _ w _ | .capArm h _ _ w _
  | .capFire h _ _ w | .capXarm h _ w _ _ | .miConfig h _ w _ _ _ _ _ _ | .miConnect h _ w _ | .miForce h _ w _
  | .miMeasure h _ w _ _ _ | .fcInject h w _ => h.wf && w.wf
  | .pmuWaveLoad h _ first _ | .seqSegload h _ first _ | .seqDict h _ first _ | .dspMem h _ _ first _ => h.wf && countWf first
  | .pmuWaveRun h _ start _ => h.wf && countWf start
  | .tdcArm h _ _ _ _ _ _ _ w openAt close repeatLen k count =>
      h.wf && w.wf && stampWf openAt && stampWf close && stampWf repeatLen && countWf k && countWf count
  | .barrierRelease _ release _ => stampWf release
  | .ucRead h _ first count | .dspRead h _ _ first count | .logRead h _ first count => h.wf && countWf first && countWf count
  | .patMap h _ count _ _ _ | .patUnmap h _ count | .patRead h _ count | .patPrefetch h _ count _ _ | .patPin h _ count _ _
  | .patEvict h _ count _ | .capRead h _ _ count => h.wf && countWf count
  | .patDrip h _ depth => h.wf && countWf depth
  | .capRing h _ _ base length _ => h.wf && countWf base && countWf length
  | .capConfig h _ _ _ _ _ _ pre post _ _ _ => h.wf && countWf pre && countWf post
  | .capFailcfg h _ _ logLimit _ => h.wf && countWf logLimit
  | .xtrigActionMessage t _ stamp _ merged => stampWf t && stampWf stamp && countWf merged
  | .lossMarkerCommit t producer | .flushAtBoundary t producer => stampWf t && producerWf producer
  | .islandRefCheck t reference _ => stampWf t && countWf reference
  | .calSwitchOver t tap => stampWf t && countWf tap
  | .treeReady t elapsedUs => stampWf t && countWf elapsedUs

end Sys2Proof
end

