-- ==== Sys2Proof/Tests/Slice0.lean ====
section
/-!
SUPPORT. The model's own tests: commands that WellFormed refuses, a few single steps against the worked examples and tables of
spec/ (each names its source), and for every clause of the obligations that has hypotheses a state and operands that meet them
together, taken at the boundary of the ranges where there is one.
-/
namespace Sys2Proof.Tests
open Sys2Proof Sys2Proof.Machine

set_option Elab.async false

/-- A standalone device that has booted, with its three rings enabled. -/
def ready : State :=
  { dev := {
      tl := { running := true, refPresent := true }
      boot := { ready := true, firmware := true, step := 12 }
      tree := { tunnel := true }
      ctl := {
        cmd := { en := true, size := 64 }
        cpl := { en := true, size := 256 }
        evt := { en := true, size := 256 } } } }

/-- That device with something changed. -/
def on (f : Dev → Dev) : State := { ready with dev := f ready.dev }

/-- A state of a device in another role. -/
def inRole (r : BitVec 2) (s : State) : State := { s with straps := { s.straps with role := r } }

/-- A STRICT when-block 10.24 us ahead of the present of `ready`. -/
def soon : When := { stamp := 1048576, policy := 0 }

/-- The state that a command leaves. -/
def after (c : Instr) (s : State) : State := match exec c s with | .next t => t | _ => s

/-- A running thread that waits at barrier 31. -/
def spin (x : Thread) : Thread := { x with st := .run, barrier := some 31 }

/-- A device on which thread 63 alone waits at a barrier whose release has come. -/
def spun : State :=
  on fun d => ({ d with seq := { d.seq with barriers := ⟨[(31, { release := some 0 })]⟩ } } : Dev).modThread 63 spin

/-- Every other thread of it is as after reset. -/
theorem spun_others {k : Nat} (hk : k ≠ 63) : spun.dev.thread k = {} :=
  Tab.get_mod_of_ne (α := Thread) {} .empty hk spin

/-! ### Ill-formed commands -/

/-- A reserved field of an entry is not 0 (R5). -/
theorem test_wf_reserved : Instr.wf (.ctlNop { rsv := true }) = false := by decide

/-- The stamp of acceptance is longer than 64 bits (R11). -/
theorem test_wf_accepted : Instr.wf (.ctlNop { t := 2 ^ 64 }) = false := by decide

/-- A reserved bit of a when-block is not 0 (R48). -/
theorem test_wf_when_reserved : Instr.wf (.tlMark {} { rsv := true } 0) = false := by decide

/-- Policy 3 is reserved (R48). -/
theorem test_wf_when_policy : Instr.wf (.tlMark {} { policy := 3 } 0) = false := by decide

/-- IMMEDIATE takes no stamp (R48). -/
theorem test_wf_when_stamp : Instr.wf (.tlMark {} { stamp := 1 } 0) = false := by decide

/-- The stamp of an event is longer than 64 bits (R11). -/
theorem test_wf_stamp : Instr.wf (.mainPllLock (2 ^ 64)) = false := by decide

/-- A first index is longer than 32 bits (R113). -/
theorem test_wf_count : Instr.wf (.pmuWaveLoad {} 2 (2 ^ 32) []) = false := by decide

/-- Producer 17 of the Carafe does not exist (R263). -/
theorem test_wf_producer : Instr.wf (.lossMarkerCommit 0 17) = false := by decide

/-- Commands whose operands fit are well formed. -/
theorem test_wf_good : Instr.wf (.tlMark {} soon 7) = true ∧ Instr.wf (.pmuWaveLoad {} 2 (2 ^ 32 - 1) []) = true := by decide

/-! ### Values of spec/ -/

/-- R49: a sequencer clock is 128 phase steps. -/
theorem test_clock : clk = 128 := by decide

/-- 03_pin_channel.md, worked example after R70: code 8,318 in the unipolar span gives 3.30019 V. -/
theorem test_level : levelUnits 8318 false 1 / 16383 = 3300 := by decide

/-- R66: the parked state is exactly 0 V. -/
theorem test_level_parked : levelUnits 8318 true 1 = 0 := by decide

/-- 05_edges_and_tdc.md, worked example: the RZ entry with D0 100, D1 612 and DZ 100 meets R130 at a PERIOD of 1,024. -/
theorem test_edges : edgeGood 0x0006400264000641 1024 = true ∧ edgeD1 0x0006400264000641 = 612 := by decide

/-- R130: with a PERIOD of 32 steps the entry's offsets lie outside the period. -/
theorem test_edges_short : edgeGood 0x0006400264000641 32 = false := by decide

/-- 04_pmu_and_force.md, leakage sweep: entries 100 to 103 are loaded, and entry 103 is the last of the waveform. -/
theorem test_wave :
    ((after (.pmuWaveLoad {} 2 100 [0x00002A0EA6003000, 0x00002A0EA6005333, 0x00002A0EA6007666, 0x00006A0EA600999A]) ready).dev.bank
      2).waveLast 2048 100 = some 103 := by decide +kernel

/-- 07_microcode.md, worked example: the routine of opcode 0xC4 passes every check of R205. -/
theorem test_microcode :
    loadFault [0x441001E8, 0x442001E0, 0x443007C0, 0x444000F4, 0x40200000, 0x0800140B, 0x65314000, 0x30100001, 0x10000000,
      0x0C201406, 0x14000000, 0xB4000001] [(0xC4, 0x1400)] = none := by decide +kernel

/-- R205: the same routine without its safe point fails check 6, at its first word. -/
theorem test_microcode_unsafe :
    loadFault [0x30100001, 0x0C201400, 0x14000000] [(0xC4, 0x1400)] = some (6, 0x1400) := by decide +kernel

/-- 11_metrology_island.md, worked example: 4,000 samples of sum 13,841,203,200 give the result 885,837,005. -/
theorem test_result : roundDiv (13841203200 * 256) 4000 = 885837005 := by decide

/-- R212: CRC-32C of the nine digits 1 to 9 is that checksum's published check value. -/
theorem test_crc : crc32c [0x31, 0x32, 0x33, 0x34, 0x35, 0x36, 0x37, 0x38, 0x39] = 0xE3069283 := by decide +kernel

/-- R408: a power-on reset keeps the fuses and takes the straps at the release of RST_N. -/
theorem test_power_on : (after (.powerOnReset { role := 2 }) { ready with fuses := { rollback := 9 } }).straps.role = 2 ∧
    (after (.powerOnReset { role := 2 }) { ready with fuses := { rollback := 9 } }).fuses.rollback = 9 := by decide +kernel

/-- R420: a value above the SVN of the running image, here none, is DENIED. -/
theorem test_rollback : ((after (.bootRollback {} 65) ready).dev.ctl.cplOut.map fun c => c.status) = [stDenied] := by
  decide +kernel

/-- 19_electrical_package.md, worked example after R501: CH000 is at A12, CH001 at A14, CH003 at A18, CH004 at B13, CH031 at H19. -/
theorem test_balls : [0, 1, 3, 4, 31].map chanBall = [(1, 12), (1, 14), (1, 18), (2, 13), (8, 19)] := by decide

/-- R47: a record of a later epoch follows, and epochs are compared as R44 says. -/
theorem test_record_order : RecordId.precedes { epoch := 0xFFFF, stamp := 9 } { epoch := 0, stamp := 1 } = true ∧
    RecordId.precedes { stamp := 2 } { stamp := 1, seq := 7 } = false := by decide

/-- 02_timeline.md, command table: TL.NOW completes OK. -/
theorem test_now : ((after (.tlNow { tag := 0x11, t := 5000 }) ready).dev.ctl.cplOut.map fun c => (c.tag, c.status)) =
    [(0x11, stOk)] := by decide +kernel

/-- R5: a command whose reserved field is not 0 is BADARG. -/
theorem test_reserved : ((after (.tlNow { rsv := true }) ready).dev.ctl.cplOut.map fun c => c.status) = [stBadarg] := by
  decide +kernel

/-- R319: MI.LIMIT with STEP 0 is BADARG. -/
theorem test_mi_limit :
    let s := on fun d => { d with mi := { d.mi with started := true, verified := true } }
    ((after (.miLimit {} 1 0 1) s).dev.ctl.cplOut.map fun c => c.status) = [stBadarg] := by decide +kernel

/-- The device in Decaf mode, with nothing in flight, takes the commands that Decaf mode takes. -/
theorem witness_idleDecaf : IdleDecaf (on fun d => { d with fc := { d.fc with decaf := some {} } }) {} :=
  ⟨rfl, rfl, rfl, rfl, rfl, rfl, rfl, rfl, rfl, rfl⟩

/-- The premise of the statements about host commands. -/
theorem witness_idle : Idle ready {} := ⟨rfl, rfl, rfl, rfl, rfl, rfl, rfl, rfl, rfl, rfl⟩

/-- The premise of the statement about fuses and straps: a command that answers a next state. -/
theorem witness_fusesAndStraps_0 : ∃ (c : Instr) (s t : State), exec c s = .next t :=
  ⟨.mainPllLock 0, ready, after (.mainPllLock 0) ready, rfl⟩

/-- The premise of its clause about every other command. -/
theorem witness_fusesAndStraps_4 : ∃ (c : Instr) (s t : State), exec c s = .next t ∧ ∀ x, c ≠ .powerOnReset x ∧ c ≠ .warmReset x :=
  ⟨.mainPllLock 0, ready, after (.mainPllLock 0) ready, rfl, fun _ => ⟨Instr.noConfusion, Instr.noConfusion⟩⟩

/-- The other ignored doorbells of R508: a completion head and an event head past the write index, a result head that is not a
multiple of 8. -/
theorem witness_doorbells_past :
    (ready.dev.ctl.cpl.size.toNat ≤ (1 : BitVec 32).toNat ∨ ringDist ready.dev.ctl.cpl.size.toNat ready.dev.ctl.cpl.head
      ready.dev.ctl.cpl.tail < ringDist ready.dev.ctl.cpl.size.toNat ready.dev.ctl.cpl.head (1 : BitVec 32).toNat) ∧
    ringDist ready.dev.ctl.evt.size.toNat ready.dev.ctl.evt.head ready.dev.ctl.evt.tail <
      ringDist ready.dev.ctl.evt.size.toNat ready.dev.ctl.evt.head (255 : BitVec 32).toNat ∧
    (4 : BitVec 32).toNat % 8 ≠ 0 := by decide

/-- A seal record of a kind with SEAL_SEQ 1 over the digest 0 and the nonce 0, with a certificate of both usages. -/
def sealOf (kind : BitVec 8) : Bytes :=
  [0x53, 0x45, 0x41, 0x4C, kind, 0, 0, 0, 1] ++ List.replicate 71 0 ++ [0x43, 0x45, 0x52, 0x54, 1, 0, 3] ++
    List.replicate 6161 0

/-- A calibration set. -/
def set : Bytes := [0x43, 0x41, 0x54, 0x53] ++ List.replicate 2620 0

/-- A started island that has given the nonce 0. -/
def asked : State := on fun d => { d with mi := { d.mi with started := true, verified := true, nonce := some 0 } }

/-- The premises of MI.SEAL_RENEW, where the signatures verify and the digests are 0 (log entry 7). -/
theorem witness_sealCommands_2 (sha : ∀ m, Config.sha3 m = 0) (root : Config.rootHash = 0)
    (dsa : ∀ k m g, Config.mlDsa k m g = true) : ∃ (s : State) (h : Hdr) (record cal : Bytes), Idle s h ∧
    s.dev.mi.started = true ∧ s.dev.mi.verified = true ∧ (∀ v, v < 16 → (s.dev.mu v).closed = false ∧ (s.dev.mu v).seq = none) ∧
    calGood cal = true ∧ s.dev.sealAllowed record 1 0 (some (digestOf s.dev.mi.image cal)) = true := by
  refine ⟨asked, {}, sealOf 1, set, ⟨rfl, rfl, rfl, rfl, rfl, rfl, rfl, rfl, rfl, rfl⟩, rfl, rfl, by decide +kernel,
    by decide +kernel, ?_⟩
  simp only [Dev.sealAllowed, Dev.certGood, sealSigned, digestOf, sha, root, dsa]
  decide +kernel

/-- The premises of MI.SEAL_BREAK, where the signatures verify and the digests are 0 (log entry 7). -/
theorem witness_sealCommands_4 (sha : ∀ m, Config.sha3 m = 0) (root : Config.rootHash = 0)
    (dsa : ∀ k m g, Config.mlDsa k m g = true) : ∃ (s : State) (h : Hdr) (record : Bytes), Idle s h ∧
    s.dev.mi.started = true ∧ s.dev.mi.verified = true ∧ (∀ v, v < 16 → (s.dev.mu v).meas = none) ∧
    s.dev.sealAllowed record 2 1 none = true := by
  refine ⟨asked, {}, sealOf 2, ⟨rfl, rfl, rfl, rfl, rfl, rfl, rfl, rfl, rfl, rfl⟩, rfl, rfl, by decide +kernel, ?_⟩
  simp only [Dev.sealAllowed, Dev.certGood, sealSigned, sha, root, dsa]
  decide +kernel

/-- The premises of an island's start after MI.RESET with an image whose signature verifies (log entry 7). -/
theorem witness_islandEvents_1 (dsa : ∀ k m g, Config.mlDsa k m g = true) : ∃ (s : State) (f : Flight) (image : Bytes),
    s.dev.mi.started = false ∧ s.dev.mi.resetTag = some f.tag ∧ Open s f ∧ image.length > 2420 ∧
    Config.mlDsa Config.islandKey (image.take (image.length - 2420)) (image.drop (image.length - 2420)) = true :=
  ⟨on fun d => { d with
      mi := { d.mi with resetTag := some 5 }
      ctl := { d.ctl with flights := [{ tag := 5, opcode := 0x0A0D, accepted := true }] } },
    { tag := 5, opcode := 0x0A0D, accepted := true }, List.replicate 2421 0, rfl, rfl,
    ⟨rfl, rfl, rfl, rfl, rfl, rfl, rfl, rfl, rfl, rfl, rfl, rfl⟩, by rw [List.length_replicate]; decide, dsa ..⟩

/-- A token of LOG.CLEAR over the nonce 0, with a certificate of every usage. -/
def token : Bytes :=
  [0x47, 0x43, 0x4C, 0x52, 1] ++ List.replicate 19 0 ++ [0x43, 0x45, 0x52, 0x54, 1, 0, 7] ++ List.replicate 6161 0

/-- The premises of LOG.CLEAR, where the signatures verify and the digests are 0 (log entry 7), with and without the flash. -/
theorem witness_faultCommands_7_8 (sha : ∀ m, Config.sha3 m = 0) (root : Config.rootHash = 0)
    (dsa : ∀ k m g, Config.mlDsa k m g = true) (flash : Bool) : ∃ (s : State) (h : Hdr) (token : Bytes), Idle s h ∧
    s.dev.log.freeze = false ∧ s.dev.log.syncTags = [] ∧ s.dev.log.hold = [] ∧
    (s.dev.takenUp h 0x0D09).tokenGood token = true ∧ s.dev.logReachable = flash := by
  refine ⟨on fun d => { d with log := { d.log with nonce := some 0 }, flash := { d.flash with noBlock := !flash } }, {}, token,
    ⟨rfl, rfl, rfl, rfl, rfl, rfl, rfl, rfl, rfl, rfl⟩, rfl, rfl, rfl, ?_, by cases flash <;> rfl⟩
  simp only [Dev.tokenGood, Dev.certGood, sha, root, dsa]
  cases flash <;> decide +kernel

/-! ### Witnesses of the obligations -/

theorem witness_stepRunsFront_0 : ∃ (s : State) (c : Instr) (r : List Instr), s.pending = c :: r :=
  ⟨{ ready with pending := [.ctlNop {}] }, .ctlNop {}, [], rfl⟩

theorem witness_stepIdles_0 : ∃ (s : State), s.pending = [] :=
  ⟨ready, rfl⟩

theorem witness_invariantKept_0 : ∃ (s : State) (t : State), s.Inv ∧ step s = .next t :=
  ⟨ready, (match step ready with | .next t => t | _ => ready), ⟨rfl, rfl, by decide⟩, rfl⟩

theorem witness_fusesAndStraps_2 : ∃ (c : Instr) (s : State) (t : State), exec c s = .next t ∧ t.fuses ≠ s.fuses :=
  ⟨.bootRollback {} 1, on fun d => { d with boot := { d.boot with image := some [0, 0, 0, 0, 0, 0, 0, 0, 1] } }, after
    (.bootRollback {} 1) (on fun d => { d with boot := { d.boot with image := some [0, 0, 0, 0, 0, 0, 0, 0, 1] } }), rfl,
    by decide +kernel⟩

theorem witness_fusesAndStraps_3 : ∃ (c : Instr) (s : State) (t : State) (x : _), exec c s = .next t ∧ (c = .powerOnReset x ∨
    c = .warmReset x) :=
  ⟨.powerOnReset { role := 1 }, ready, after (.powerOnReset { role := 1 }) ready, { role := 1 }, rfl, Or.inl rfl⟩

theorem witness_timelineCommands_0 : ∃ (s : State) (h : Hdr), Idle s h ∧ s.dev.tl.rewind = none :=
  ⟨ready, {}, ⟨rfl, rfl, rfl, rfl, rfl, rfl, rfl, rfl, rfl, rfl⟩, rfl⟩

theorem witness_timelineCommands_1 : ∃ (s : State) (h : Hdr), Idle s h ∧ s.dev.tl.rewind = none :=
  ⟨ready, {}, ⟨rfl, rfl, rfl, rfl, rfl, rfl, rfl, rfl, rfl, rfl⟩, rfl⟩

theorem witness_timelineCommands_2 : ∃ (s : State) (h : Hdr) (w : _) (e : _) (st : _) (late : _), Idle s h ∧ s.dev.tl.rewind =
    none ∧ (s.dev.advance h.t).schedule w 1024 false = .ok (e, st, late) :=
  ⟨ready, {}, soon, 0, 1048576, false, ⟨rfl, rfl, rfl, rfl, rfl, rfl, rfl, rfl, rfl, rfl⟩, rfl, by decide +kernel⟩

theorem witness_timelineCommands_3 : ∃ (s : State) (h : Hdr) (target : BitVec 16), Idle s h ∧ s.dev.tl.rewind = none ∧
    (h.tag.toNat = target.toNat ∨ (∀ a ∈ s.dev.tl.acts, a.tag.toNat ≠ target.toNat)) :=
  ⟨ready, {}, 7, ⟨rfl, rfl, rfl, rfl, rfl, rfl, rfl, rfl, rfl, rfl⟩, rfl, by decide +kernel⟩

theorem witness_timelineCommands_4 : ∃ (s : State) (h : Hdr) (target : BitVec 16) (a : Act), Idle s h ∧ s.dev.tl.rewind = none
    ∧ s.dev.tl.acts = [a] ∧ a ∉ s.dev.ctl.orphans ∧ a.tag.toNat = target.toNat ∧ a.tag ≠ h.tag ∧ a.kind = .mark ∧ a.epoch =
    s.dev.tl.epoch ∧ max s.dev.tl.now h.t < a.stamp :=
  ⟨on fun d => { d with tl := { d.tl with acts := [{ tag := 5, kind := .mark, stamp := 2000 }] } }, {}, 5,
    { tag := 5, kind := .mark, stamp := 2000 }, ⟨rfl, rfl, rfl, rfl, rfl, rfl, rfl, rfl, rfl, rfl⟩, rfl, rfl,
    by decide +kernel, rfl, by decide +kernel, rfl, rfl, by decide +kernel⟩

theorem witness_rewinds_0 : ∃ (s : State) (h : Hdr), Idle s h ∧ (s.straps.isManager = true ∨ s.straps.isStandalone = true) ∧
    s.dev.tl.rewind = none ∧ s.dev.tl.acts = [] ∧ (∀ b k g, (s.dev.tdc b k).owner ≠ .arm g) ∧ (s.dev.advance h.t).rewindBusy =
    false :=
  ⟨ready, {}, ⟨rfl, rfl, rfl, rfl, rfl, rfl, rfl, rfl, rfl, rfl⟩, by decide +kernel, rfl, rfl, fun _ _ _ => nofun,
    by decide +kernel⟩

theorem witness_rewinds_1 : ∃ (s : State) (h : Hdr), Idle s h ∧ s.straps.isManager = false ∧ s.straps.isStandalone = false :=
  ⟨inRole 2 ready, {}, ⟨rfl, rfl, rfl, rfl, rfl, rfl, rfl, rfl, rfl, rfl⟩, by decide +kernel, (by decide +kernel)⟩

theorem witness_rewinds_2 : ∃ (s : State) (h : Hdr), Idle s h ∧ s.straps.isManager = true ∧ s.dev.tl.rewind.isSome = true :=
  ⟨inRole 1 (on fun d => { d with tl := { d.tl with rewind := some 4096 } }), {}, ⟨rfl, rfl, rfl, rfl, rfl, rfl, rfl, rfl,
    rfl, rfl⟩, by decide +kernel, (by decide +kernel)⟩

theorem witness_epochEvents_0 : ∃ (s : State) (r : _), s.dev.tl.running = true ∧ s.dev.tl.rewind = some r ∧ s.dev.tl.acts = []
    :=
  ⟨on fun d => { d with tl := { d.tl with rewind := some 4096 } }, 4096, by decide +kernel, rfl, rfl⟩

theorem witness_epochEvents_1 : ∃ (s : State), s.dev.tl.running = true ∧ s.dev.tl.rewind = none ∧ s.dev.tl.source ≠ 2 ∧
    s.dev.tl.acts = [] ∧ s.dev.leads (·.running) = [] :=
  ⟨ready, by decide +kernel, rfl, by decide +kernel, rfl, rfl⟩

theorem witness_epochEvents_2 : ∃ (s : State), s.dev.tl.running = true ∧ s.dev.tl.rewind = none ∧ s.dev.tl.source ≠ 2 ∧
    s.dev.tl.nearEnd = false :=
  ⟨ready, by decide +kernel, rfl, by decide +kernel, (by decide +kernel)⟩

theorem witness_epochEvents_3 : ∃ (s : State) (a : Act), s.dev.tl.running = true ∧ s.dev.tl.rewind = none ∧ s.dev.tl.acts =
    [a] ∧ a.kind = .mark ∧ a.epoch = s.dev.tl.epoch :=
  ⟨on fun d => { d with tl := { d.tl with acts := [{ tag := 5, kind := .mark, stamp := 2000 }] } },
    { tag := 5, kind := .mark, stamp := 2000 }, by decide +kernel, rfl, rfl, rfl, rfl⟩

theorem witness_referenceEvents_0 : ∃ (s : State) (n : Nat) (level : _), s.dev.tl.running = true ∧ s.dev.tl.source = 0 ∧
    s.dev.tl.warmFiltered ≠ level ∧ s.dev.tl.warmFrom + 1000 * 102400 ≤ (s.dev.advance n).mono :=
  ⟨ready, 1000 * 102400, true, by decide +kernel, rfl, by decide +kernel, (by decide +kernel)⟩

theorem witness_referenceEvents_1 : ∃ (s : State) (n : Nat), s.dev.tl.running = true ∧ s.dev.tl.source = 0 ∧ s.dev.tl.stabRun
    = true ∧ s.dev.tl.stabSince + (20000 + 1000 * s.dev.tl.verdicts) * (1024 * 100000) ≤ (s.dev.advance n).mono :=
  ⟨on fun d => { d with tl := { d.tl with stabRun := true } }, 20000 * 1024 * 100000, by decide +kernel, rfl,
    by decide +kernel, (by decide +kernel)⟩

theorem witness_referenceEvents_2 : ∃ (s : State), s.dev.tl.running = true ∧ s.dev.tl.source = 0 ∧ s.dev.tl.refPresent = true
    ∧ s.dev.tl.holdover = false :=
  ⟨ready, by decide +kernel, rfl, by decide +kernel, (by decide +kernel)⟩

theorem witness_referenceEvents_3 : ∃ (s : State), s.dev.tl.running = true ∧ s.dev.tl.source = 0 ∧ s.dev.tl.holdover = true :=
  ⟨on fun d => { d with tl := { d.tl with holdover := true } }, by decide +kernel, rfl, by decide +kernel⟩

theorem witness_referenceEvents_4 : ∃ (s : State), s.dev.tl.running = true ∧ s.dev.tl.source = 2 ∧ s.dev.tl.rewind = none :=
  ⟨on fun d => { d with tl := { d.tl with source := 2 } }, by decide +kernel, rfl, rfl⟩

theorem witness_referenceEvents_5 : ∃ (s : State), s.dev.tl.running = true ∧ s.dev.tl.source = 2 ∧ s.dev.tl.rewind = none ∧
    s.dev.tl.tlLocal = false ∧ s.dev.tl.holdover = false :=
  ⟨on fun d => { d with tl := { d.tl with source := 2 } }, by decide +kernel, rfl, rfl, by decide +kernel, (by decide +kernel)⟩

theorem witness_referenceEvents_6 : ∃ (s : State), s.dev.tl.running = true ∧ s.dev.tl.source = 2 ∧ s.dev.tl.rewind = none ∧
    s.dev.tl.tlLocal = false ∧ s.dev.tl.holdover = true :=
  ⟨on fun d => { d with tl := { d.tl with source := 2, holdover := true } }, by decide +kernel, rfl, rfl, by decide +kernel,
    (by decide +kernel)⟩

theorem witness_referenceEvents_7 : ∃ (s : State) (g : _), s.dev.tl.running = true ∧ s.dev.tl.source = 2 ∧ s.dev.tl.rewind =
    none ∧ g % 1024 = 0 :=
  ⟨on fun d => { d with tl := { d.tl with source := 2 } }, 0, by decide +kernel, rfl, rfl, rfl⟩

theorem witness_referenceEvents_8 : ∃ (s : State) (t1 : Nat) (t4 : Nat), s.dev.tl.running = true ∧ s.dev.tl.source = 2 ∧
    s.dev.tl.rewind = none ∧ s.dev.tree.exchanges < 256 ∧ t1 ≤ t4 :=
  ⟨on fun d => { d with tl := { d.tl with source := 2 } }, 0, 0, by decide +kernel, rfl, rfl, by decide +kernel,
    (by decide +kernel)⟩

theorem witness_referenceEvents_9 : ∃ (s : State), s.dev.tl.running = true ∧ s.dev.tl.source = 2 ∧ s.dev.tl.rewind = none :=
  ⟨on fun d => { d with tl := { d.tl with source := 2 } }, by decide +kernel, rfl, rfl⟩

theorem witness_bootSteps_0 : ∃ (s : State) (t10 : Nat), s.dev.boot.t0 ≤ t10 ∧ s.dev.inStep = true ∧ s.dev.boot.step = 0 ∧
    s.dev.planned 1 = false :=
  ⟨on fun d => (let d : Dev := { d with boot := { d.boot with step := 0, ready := false } };
    { d with journal := { d.journal with entries := ⟨[(0, { start := true })]⟩ } }), 0, by decide +kernel, (by decide +kernel),
    rfl, by decide +kernel⟩

theorem witness_bootSteps_1 : ∃ (s : State) (t10 : Nat), s.dev.boot.t0 ≤ t10 ∧ s.dev.inStep = true ∧ s.dev.boot.step = 11 :=
  ⟨on fun d => (let d : Dev := { d with boot := { d.boot with step := 11, ready := false } };
    { d with journal := { d.journal with entries := ⟨[(11, { start := true })]⟩ } }), 0, by decide +kernel, (by decide +kernel),
    rfl⟩

theorem witness_bootSteps_2 : ∃ (s : State) (t10 : Nat), s.dev.boot.t0 ≤ t10 ∧ s.dev.inStep = true ∧ s.dev.boot.step = 7 ∧
    s.dev.boot.variant = 0 ∧ s.dev.stepStart + 25000 ≤ t10 :=
  ⟨on fun d => (let d : Dev := { d with boot := { d.boot with step := 7, ready := false } };
    { d with journal := { d.journal with entries := ⟨[(7, { start := true })]⟩ } }), 25000, by decide +kernel,
    (by decide +kernel), rfl, rfl, by decide +kernel⟩

theorem witness_bootSteps_3 : ∃ (s : State) (t10 : Nat), s.dev.boot.t0 ≤ t10 ∧ s.dev.inStep = true ∧ s.dev.boot.step = 10 ∧
    s.dev.boot.variant = 0 ∧ s.dev.stepStart + 40000 ≤ t10 :=
  ⟨on fun d => (let d : Dev := { d with boot := { d.boot with step := 10, ready := false } };
    { d with journal := { d.journal with entries := ⟨[(10, { start := true })]⟩ } }), 40000, by decide +kernel,
    (by decide +kernel), rfl, rfl, by decide +kernel⟩

theorem witness_bootSteps_4 : ∃ (s : State) (t10 : Nat), s.dev.boot.t0 ≤ t10 ∧ s.dev.inStep = true ∧ s.dev.boot.step = 2 ∧
    s.dev.tl.running = false :=
  ⟨on fun d => (let d : Dev := (let d : Dev := { d with boot := { d.boot with step := 2, ready := false } };
    { d with journal := { d.journal with entries := ⟨[(2, { start := true })]⟩ } });
    { d with tl := { d.tl with running := false } }), 0, by decide +kernel, (by decide +kernel), rfl, by decide +kernel⟩

theorem witness_bootSteps_5 : ∃ (s : State) (t10 : Nat) (k : _), s.dev.boot.t0 ≤ t10 ∧ s.dev.inStep = true ∧ (imageSources
    s.straps).find? (fun j => !(s.dev.boot.tried ||| (1#4 <<< s.dev.boot.srcNow.toNat)).getLsbD j) = some k ∧ s.dev.boot.step
    = 3 ∧ s.straps.isWorker = true ∧ s.dev.tree.admitted = true ∧ s.dev.tree.multicast = none ∧ s.dev.boot.linkImage = true ∧
    s.dev.boot.admitAt + 150000 ≤ t10 :=
  ⟨inRole 2 (on fun d => (let d : Dev := (let d : Dev :=
    { d with boot := { d.boot with step := 3, ready := false, linkImage := true } };
    { d with journal := { d.journal with entries := ⟨[(3, { start := true })]⟩ } });
    { d with tree := { d.tree with admitted := true } })), 150000, 1, by decide +kernel, (by decide +kernel), by decide +kernel,
    rfl, by decide +kernel, (by decide +kernel), rfl, by decide +kernel, (by decide +kernel)⟩

theorem witness_bootSteps_6 : ∃ (s : State) (t10 : Nat) (k : _), s.dev.boot.t0 ≤ t10 ∧ s.dev.inStep = true ∧ (imageSources
    s.straps).find? (fun j => !(s.dev.boot.tried ||| (1#4 <<< s.dev.boot.srcNow.toNat)).getLsbD j) = some k ∧ s.dev.boot.step
    = 3 ∧ s.dev.boot.waitImage = true ∧ s.dev.stepStart + 1000000 ≤ t10 :=
  ⟨on fun d => (let d : Dev := { d with boot := { d.boot with step := 3, ready := false, waitImage := true } };
    { d with journal := { d.journal with entries := ⟨[(3, { start := true })]⟩ } }), 1000000, 1, by decide +kernel,
    (by decide +kernel), by decide +kernel, rfl, by decide +kernel, (by decide +kernel)⟩

theorem witness_bootSteps_7 : ∃ (s : State) (t10 : Nat), s.dev.boot.t0 ≤ t10 ∧ s.dev.tree.admitted = true ∧ (s.straps.boot = 1
    ∨ s.straps.boot = 3) :=
  ⟨(let s := on fun d => { d with tree := { d.tree with admitted := true } }; { s with straps := { role := 2, boot := 1 } }),
    0, by decide +kernel, (by decide +kernel), by decide +kernel⟩

theorem witness_bootSteps_8 : ∃ (s : State) (t10 : Nat) (n : BitVec 4), s.dev.boot.t0 ≤ t10 ∧ 1 ≤ n.toNat ∧ n.toNat ≤ 8 ∧
    s.straps.isManager = true ∧ s.dev.stageReady s.straps n.toNat = true :=
  ⟨inRole 1 (on fun d => (let d : Dev := { d with tree := { d.tree with stage := 7 } };
    { d with boot := { d.boot with step := 10 } })), 0, 8, by decide +kernel, (by decide +kernel), by decide +kernel,
    (by decide +kernel), by decide +kernel⟩

theorem witness_bootCommands_2 : ∃ (s : State) (h : Hdr) (v : BitVec 8), Idle s h ∧ s.fuses.rollback < v.toNat ∧ v.toNat ≤ 64
    ∧ v.toNat ≤ s.dev.boot.svn :=
  ⟨on fun d => { d with boot := { d.boot with image := some [0, 0, 0, 0, 0, 0, 0, 0, 64] } }, {}, 64, ⟨rfl, rfl, rfl, rfl,
    rfl, rfl, rfl, rfl, rfl, rfl⟩, by decide +kernel, (by decide +kernel), by decide +kernel⟩

theorem witness_bootCommands_3 : ∃ (s : State) (h : Hdr) (v : BitVec 8), Idle s h ∧ s.dev.boot.svn < v.toNat :=
  ⟨ready, {}, 1, ⟨rfl, rfl, rfl, rfl, rfl, rfl, rfl, rfl, rfl, rfl⟩, by decide +kernel⟩

theorem witness_bootCommands_5 : ∃ (s : State) (h : Hdr) (f : Flight), s.dev.ctl.flights = [f] ∧ f.tag = h.tag ∧ f.opcode =
    0x0F02 ∧ f.origin = .recovery ∧ f.accepted = false ∧ f.done = none ∧ f.targets = [] ∧ s.dev.ctl.heldCpl = [] ∧ h.rsv =
    false ∧ s.dev.inStep = true ∧ s.dev.boot.waitImage = true ∧ s.dev.boot.step = 3 :=
  ⟨on fun d => (let d : Dev := (let d : Dev :=
    { d with boot := { d.boot with step := 3, ready := false, waitImage := true } };
    { d with journal := { d.journal with entries := ⟨[(3, { start := true })]⟩ } });
    { d with ctl := { d.ctl with flights := [{ opcode := 0x0F02, origin := .recovery }] } }), {},
    { opcode := 0x0F02, origin := .recovery }, rfl, rfl, rfl, rfl, by decide +kernel, rfl, rfl, rfl, by decide +kernel,
    (by decide +kernel), by decide +kernel, rfl⟩

theorem witness_bootCommands_6 : ∃ (s : State) (h : Hdr) (answer : FlashAnswer), IdleDecaf s h ∧ answer = .done ∧
    s.dev.flash.noBlock = false :=
  ⟨on fun d => { d with fc := { d.fc with decaf := some {} } }, {}, .done, ⟨rfl, rfl, rfl, rfl, rfl, rfl, rfl, rfl, rfl, rfl⟩,
    rfl, by decide +kernel⟩

theorem witness_hostAttachment_0 : ∃ (s : State) (mode : BitVec 3), mode.toNat ≤ 4 ∧ s.dev.tree.attached = true :=
  ⟨ready, 0, by decide +kernel, (by decide +kernel)⟩

theorem witness_hostAttachment_1 : ∃ (s : State) (mode : BitVec 3), mode.toNat ≤ 4 ∧ s.straps.isWorker = false ∧
    s.dev.tree.attached = false ∧ mode ≠ 0 :=
  ⟨on fun d => { d with tree := { d.tree with tunnel := false } }, 4, by decide +kernel, (by decide +kernel), by decide +kernel,
    (by decide +kernel)⟩

theorem witness_hostAttachment_2 : ∃ (s : State) (mode : BitVec 3), mode.toNat ≤ 4 ∧ s.straps.isWorker = false ∧ mode ≠
    s.dev.tree.link ∧ mode ≠ 0 :=
  ⟨ready, 4, by decide +kernel, (by decide +kernel), by decide +kernel, (by decide +kernel)⟩

theorem witness_hostAttachment_3 : ∃ (s : State) (entry : Bytes) (args : Bytes) (e : Entry), s.straps.isWorker = false ∧
    entryOf entry = e ∧ s.dev.ctl.recovery.busy = false ∧ s.dev.ctl.flights = [] ∧ s.dev.ctl.outbox = {} ∧ entryBad e = false
    ∧ argsBad e (argBytes entry args) = false ∧ e.respAddr = 0 ∧ e.argAddr = 0 ∧ e.tkind = 0 ∧ s.dev.recoveryTakes
    (s.straps.role == 3) e.opcode = true :=
  ⟨ready, [1, 0], [], entryOf [1, 0], by decide +kernel, rfl, by decide +kernel, rfl, rfl, by decide +kernel,
    (by decide +kernel), rfl, rfl, rfl, by decide +kernel⟩

theorem witness_hostAttachment_4 : ∃ (s : State) (entry : Bytes) (e : Entry), s.straps.isWorker = false ∧ entryOf entry = e ∧
    s.dev.ctl.recovery.busy = true ∧ s.dev.ctl.flights = [] ∧ s.dev.ctl.outbox = {} :=
  ⟨on fun d => { d with ctl := { d.ctl with recovery := { busy := true } } }, [1, 0], entryOf [1, 0], by decide +kernel, rfl,
    by decide +kernel, rfl, rfl⟩

theorem witness_hostAttachment_5 : ∃ (s : State) (carried : _) (c : _) (rest : _), s.straps.isWorker = false ∧
    s.dev.ctl.recovery.replies = (carried, c) :: rest ∧ s.dev.ctl.outbox = {} ∧ s.dev.ctl.flights = [] :=
  ⟨on fun d => { d with ctl := { d.ctl with recovery := { replies := [(true, {})] } } }, true, {}, [], by decide +kernel, rfl,
    rfl, rfl⟩

theorem witness_treeEvents_0 : ∃ (s : State) (p : BitVec 2), (s.dev.port p.toNat).isUp = true ∧ s.dev.tree.admitted = false :=
  ⟨on fun d => d.modPort 3 fun x => { x with up := 2 }, 3, by decide +kernel, (by decide +kernel)⟩

theorem witness_treeEvents_1 : ∃ (s : State) (p : BitVec 2), (s.dev.port p.toNat).isUp = true :=
  ⟨on fun d => d.modPort 3 fun x => { x with up := 2 }, 3, by decide +kernel⟩

theorem witness_treeEvents_2 : ∃ (s : State) (p : BitVec 2), (s.dev.port p.toNat).isUp = true :=
  ⟨on fun d => d.modPort 3 fun x => { x with up := 2 }, 3, by decide +kernel⟩

theorem witness_treeEvents_3 : ∃ (s : State) (p : BitVec 2), (s.dev.port p.toNat).isUp = true :=
  ⟨on fun d => d.modPort 3 fun x => { x with up := 2 }, 3, by decide +kernel⟩

theorem witness_treeEvents_4 : ∃ (s : State) (p : BitVec 2), (s.dev.port p.toNat).isUp = true :=
  ⟨on fun d => d.modPort 3 fun x => { x with up := 2 }, 3, by decide +kernel⟩

theorem witness_treeEvents_5 : ∃ (s : State) (p : BitVec 2), (s.dev.port p.toNat).isUp = true ∧ (s.dev.port p.toNat).upstream
    = false :=
  ⟨on fun d => d.modPort 3 fun x => { x with up := 2 }, 3, by decide +kernel, (by decide +kernel)⟩

theorem witness_treeEvents_6 : ∃ (s : State) (p : BitVec 2) (a : Nat) (b : BitVec 5) (z : Nat) (br : Bool), (s.dev.port
    p.toNat).isUp = true ∧ (s.dev.port p.toNat).upstream = true ∧ (s.dev.port p.toNat).seenMarks.contains (a, .release b z br)
    = false :=
  ⟨on fun d => d.modPort 3 fun x => { x with up := 2, upstream := true }, 3, 0, 31, 0, false, by decide +kernel,
    (by decide +kernel), by decide +kernel⟩

theorem witness_treeEvents_7 : ∃ (s : State) (p : BitVec 2) (a : Nat) (l : BitVec 2) (r : Bool) (e : BitVec 16) (z : Nat),
    (s.dev.port p.toNat).isUp = true ∧ (s.dev.port p.toNat).upstream = true ∧ (s.dev.port p.toNat).seenMarks.contains (a, .arm
    l true r e z) = false ∧ (s.dev.cap.xt.get {} l.toNat).armed = false :=
  ⟨on fun d => d.modPort 3 fun x => { x with up := 2, upstream := true }, 3, 0, 3, true, 0, 0, by decide +kernel,
    (by decide +kernel), by decide +kernel, (by decide +kernel)⟩

theorem witness_treeEvents_8 : ∃ (s : State) (p : BitVec 2) (a : Nat) (z : Nat), (s.dev.port p.toNat).isUp = true ∧
    (s.dev.port p.toNat).upstream = true ∧ (s.dev.port p.toNat).seenMarks.contains (a, .delay z) = false :=
  ⟨on fun d => d.modPort 3 fun x => { x with up := 2, upstream := true }, 3, 0, 0, by decide +kernel, (by decide +kernel),
    by decide +kernel⟩

theorem witness_treeEvents_9 : ∃ (s : State) (p : BitVec 2) (cause : BitVec 2), (s.dev.port p.toNat).isUp = true ∧ cause ≠ 3 :=
  ⟨on fun d => d.modPort 3 fun x => { x with up := 2 }, 3, 2, by decide +kernel, (by decide +kernel)⟩

theorem witness_treeEvents_10 : ∃ (s : State) (p : BitVec 2) (lane : BitVec 2), (s.dev.port p.toNat).isUp = true ∧
    s.dev.boot.ready = true ∧ lane ≠ 3 ∧ (s.dev.port p.toNat).active.getLsbD lane.toNat = true :=
  ⟨on fun d => d.modPort 3 fun x => { x with up := 2, active := 6 }, 3, 2, by decide +kernel, (by decide +kernel),
    by decide +kernel, (by decide +kernel)⟩

theorem witness_treeEvents_11 : ∃ (s : State) (p : BitVec 2), (s.dev.port p.toNat).up = 1 ∧ s.dev.tree.resTag = [] :=
  ⟨on fun d => d.modPort 3 fun x => { x with up := 1 }, 3, rfl, rfl⟩

theorem witness_treeEvents_12 : ∃ (s : State) (n : Nat) (p : BitVec 2) (z : _), (s.dev.port p.toNat).down = some z ∧
    (s.dev.port p.toNat).isUp = false ∧ (s.dev.port p.toNat).lost = false ∧ z + s.dev.tree.linkTimeout * msSteps ≤
    (s.dev.advance n).mono :=
  ⟨on fun d => d.modPort 3 fun x => { x with down := some 0 }, 50 * msSteps, 3, 0, rfl, by decide +kernel, (by decide +kernel),
    by decide +kernel⟩

theorem witness_treeEvents_13 : ∃ (s : State) (p : BitVec 2), (s.dev.port p.toNat).lost = true :=
  ⟨on fun d => d.modPort 3 fun x => { x with lost := true }, 3, by decide +kernel⟩

theorem witness_treeEvents_14 : ∃ (s : State), s.straps.isWorker = true ∧ s.dev.tree.admitted = false ∧ 3 ≤ s.dev.boot.step ∧
    s.dev.tree.parentId = none :=
  ⟨inRole 2 ready, by decide +kernel, (by decide +kernel), by decide +kernel, rfl⟩

theorem witness_treeEvents_15 : ∃ (s : State) (id : Ident), s.straps.isWorker = true ∧ s.dev.tree.admitted = false ∧
    s.dev.tree.parentId.isSome = true ∧ id.given ≠ 0 :=
  ⟨inRole 2 (on fun d => { d with tree := { d.tree with parentId := some 0 } }), { given := 255 }, by decide +kernel,
    (by decide +kernel), by decide +kernel, (by decide +kernel)⟩

theorem witness_treeEvents_16 : ∃ (s : State) (id : Ident), s.straps.isManager = true ∧ s.dev.tree.stage = 3 ∧ id.role ≠ 2 :=
  ⟨inRole 1 (on fun d => { d with tree := { d.tree with stage := 3 } }), { role := 1 }, by decide +kernel, rfl,
    by decide +kernel⟩

theorem witness_treeEvents_17 : ∃ (s : State) (m : Node), s.straps.isManager = true ∧ s.dev.tree.nodes = [m] ∧ m.lost = false :=
  ⟨inRole 1 (on fun d => { d with tree := { d.tree with nodes := [{ id := 7 }] } }), { id := 7 }, by decide +kernel, rfl,
    by decide +kernel⟩

theorem witness_treeEvents_18 : ∃ (s : State) (us : _), s.straps.isManager = true ∧ s.dev.tree.readySent = false ∧
    s.dev.boot.firmware = true ∧ 1500000 ≤ us :=
  ⟨inRole 1 ready, 1500000, by decide +kernel, (by decide +kernel), by decide +kernel, (by decide +kernel)⟩

theorem witness_treeCommands_0 : ∃ (s : State) (e : Entry), s.dev.tree.admitted = true ∧ e.tkind = 1 ∧ e.tid =
    s.dev.tree.position ∧ s.dev.ctl.flights = [] ∧ entryBad e = false :=
  ⟨on fun d => { d with tree := { d.tree with admitted := true, position := 9 } }, { opcode := 0x0001, tkind := 1, tid := 9 },
    by decide +kernel, rfl, rfl, rfl, by decide +kernel⟩

theorem witness_treeCommands_1 : ∃ (s : State) (c : Cpl) (f : Flight), s.straps.isManager = true ∧ s.dev.ctl.flights = [f] ∧
    f.tag = c.tag ∧ f.done = none ∧ f.group = false ∧ f.origin = .ring ∧ f.targets = [c.position] ∧ s.dev.ctl.behind = false ∧
    c.position ≠ s.dev.tree.position ∧ c.fin = true ∧ s.dev.tl.rewind = none ∧ s.dev.ctl.cpl.room = true ∧ s.dev.ctl.heldCpl =
    [] ∧ s.dev.ctl.heldCpl0 = [] ∧ s.dev.ctl.outbox = {} :=
  ⟨inRole 1 (on fun d => { d with ctl := { d.ctl with flights := [{ tag := 5, targets := [9] }] } }),
    { tag := 5, position := 9 }, { tag := 5, targets := [9] }, by decide +kernel, rfl, rfl, rfl, by decide +kernel, rfl, rfl,
    by decide +kernel, (by decide +kernel), by decide +kernel, rfl, by decide +kernel, rfl, rfl, rfl⟩

theorem witness_treeCommands_3 : ∃ (s : State) (h : Hdr) (g : BitVec 8) (m : BitVec 256), Idle s h ∧ s.straps.isManager = true
    ∧ g.toNat ≤ 31 ∧ (∀ i, i < 256 → m.getLsbD i = true → i = 0 ∨ ∃ x ∈ s.dev.tree.nodes, x.id.toNat = i) :=
  ⟨inRole 1 ready, {}, 31, 1, ⟨rfl, rfl, rfl, rfl, rfl, rfl, rfl, rfl, rfl, rfl⟩, by decide +kernel, (by decide +kernel),
    by decide +kernel⟩

theorem witness_treeCommands_4 : ∃ (s : State) (h : Hdr), Idle s h ∧ s.straps.isManager = true ∧ s.dev.allIdle = true ∧
    s.dev.tree.rescan = none :=
  ⟨inRole 1 ready, {}, ⟨rfl, rfl, rfl, rfl, rfl, rfl, rfl, rfl, rfl, rfl⟩, by decide +kernel, (by decide +kernel), rfl⟩

theorem witness_treeCommands_5 : ∃ (s : State) (h : Hdr) (p : BitVec 8), Idle s h ∧ p.toNat ≤ 3 ∧ (s.dev.port
    p.toNat).upstream = false :=
  ⟨ready, {}, 3, ⟨rfl, rfl, rfl, rfl, rfl, rfl, rfl, rfl, rfl, rfl⟩, by decide +kernel, (by decide +kernel)⟩

theorem witness_treeCommands_6 : ∃ (s : State) (h : Hdr) (p : BitVec 8), Idle s h ∧ p.toNat ≤ 3 ∧ (s.dev.port
    p.toNat).upstream = false ∧ (s.dev.port p.toNat).isUp = true :=
  ⟨on fun d => d.modPort 3 fun x => { x with up := 2 }, {}, 3, ⟨rfl, rfl, rfl, rfl, rfl, rfl, rfl, rfl, rfl, rfl⟩,
    by decide +kernel, (by decide +kernel), by decide +kernel⟩

theorem witness_doorbells_0 : ∃ (s : State) (v : BitVec 32), barUp s = true ∧ s.dev.ctl.flights = [] ∧ s.dev.ctl.outbox = {} ∧
    s.dev.ctl.cmd.en = true ∧ v.toNat < s.dev.ctl.cmd.size.toNat :=
  ⟨ready, 63, by decide +kernel, rfl, rfl, by decide +kernel, (by decide +kernel)⟩

theorem witness_doorbells_1 : ∃ (s : State) (v : BitVec 32) (k : _), barUp s = true ∧ s.dev.ctl.flights = [] ∧
    s.dev.ctl.outbox = {} ∧ s.dev.ctl.cpl.freed v.toNat = some k :=
  ⟨on fun d => { d with ctl := { d.ctl with cpl := { en := true, size := 256, tail := 255 } } }, 255, 255, by decide +kernel,
    rfl, rfl, rfl⟩

theorem witness_doorbells_2 : ∃ (s : State) (v : BitVec 32) (k : _), barUp s = true ∧ s.dev.ctl.flights = [] ∧
    s.dev.ctl.outbox = {} ∧ s.dev.ctl.evt.freed v.toNat = some k :=
  ⟨on fun d => { d with ctl := { d.ctl with evt := { en := true, size := 256, tail := 255 } } }, 255, 255, by decide +kernel,
    rfl, rfl, rfl⟩

theorem witness_doorbells_3 : ∃ (s : State) (v : BitVec 32), barUp s = true ∧ s.dev.ctl.flights = [] ∧ s.dev.ctl.outbox = {} ∧
    s.dev.ctl.resEn = true ∧ v.toNat < s.dev.ctl.resSize ∧ v.toNat % 8 = 0 ∧ ringDist s.dev.ctl.resSize s.dev.ctl.resHead
    v.toNat ≤ ringDist s.dev.ctl.resSize s.dev.ctl.resHead s.dev.ctl.resTail :=
  ⟨on fun d => { d with ctl := { d.ctl with resEn := true, resSize := 65536, resTail := 65528 } }, 65528, by decide +kernel,
    rfl, rfl, by decide +kernel, (by decide +kernel), rfl, by decide +kernel⟩

theorem witness_doorbells_4 : ∃ (s : State) (n : Nat) (v : BitVec 32) (c : Instr) (ring : Nat), barUp s = true ∧
    s.dev.ctl.flights = [] ∧ s.dev.ctl.outbox = {} ∧ s.dev.tree.admitted = false ∧ s.dev.ctl.evt.room = true ∧
    s.dev.ctl.heldEvt = [] ∧ s.dev.ctl.lostOwed = 0 ∧ s.dev.ctl.behind = false ∧ (s.dev.ctl.srcs.get {} 514).off = false ∧ ((c
    = .cmdTailWrite n v ∧ ring = 0 ∧ (s.dev.ctl.cmd.en = false ∨ s.dev.ctl.cmd.size.toNat ≤ v.toNat)) ∨ (c = .cplHeadWrite n v
    ∧ ring = 1 ∧ (s.dev.ctl.cpl.en = false ∨ s.dev.ctl.cpl.size.toNat ≤ v.toNat ∨ ringDist s.dev.ctl.cpl.size.toNat
    s.dev.ctl.cpl.head s.dev.ctl.cpl.tail < ringDist s.dev.ctl.cpl.size.toNat s.dev.ctl.cpl.head v.toNat)) ∨ (c =
    .evtHeadWrite n v ∧ ring = 2 ∧ (s.dev.ctl.evt.en = false ∨ s.dev.ctl.evt.size.toNat ≤ v.toNat ∨ ringDist
    s.dev.ctl.evt.size.toNat s.dev.ctl.evt.head s.dev.ctl.evt.tail < ringDist s.dev.ctl.evt.size.toNat s.dev.ctl.evt.head
    v.toNat)) ∨ (c = .resHeadWrite n v ∧ ring = 3 ∧ (s.dev.ctl.resEn = false ∨ s.dev.ctl.resSize ≤ v.toNat ∨ v.toNat % 8 ≠ 0 ∨
    ringDist s.dev.ctl.resSize s.dev.ctl.resHead s.dev.ctl.resTail < ringDist s.dev.ctl.resSize s.dev.ctl.resHead v.toNat)))
    :=
  ⟨ready, 0, 64, .cmdTailWrite 0 64, 0, by decide +kernel, rfl, rfl, by decide +kernel, (by decide +kernel), rfl, rfl,
    by decide +kernel, (by decide +kernel), Or.inl ⟨rfl, rfl, Or.inr (by decide)⟩⟩

theorem witness_ringControl_0 : ∃ (s : State) (v : BitVec 32), barUp s = true ∧ s.dev.ctl.flights = [] ∧ s.dev.ctl.outbox = {}
    ∧ v.getLsbD 0 = true ∧ s.dev.ctl.cmd.en = false ∧ ringGood 0 s.dev.ctl.cmd = true :=
  ⟨on fun d => { d with ctl := { d.ctl with cmd := { size := 4096 } } }, 1, by decide +kernel, rfl, rfl, by decide +kernel,
    (by decide +kernel), by decide +kernel⟩

theorem witness_ringControl_1 : ∃ (s : State) (v : BitVec 32), barUp s = true ∧ s.dev.ctl.flights = [] ∧ s.dev.ctl.outbox = {}
    ∧ v.getLsbD 0 = true ∧ s.dev.ctl.cpl.en = false ∧ ringGood 1 s.dev.ctl.cpl = true :=
  ⟨on fun d => { d with ctl := { d.ctl with cpl := { size := 256 } } }, 1, by decide +kernel, rfl, rfl, by decide +kernel,
    (by decide +kernel), by decide +kernel⟩

theorem witness_ringControl_2 : ∃ (s : State) (v : BitVec 32), barUp s = true ∧ s.dev.ctl.flights = [] ∧ s.dev.ctl.outbox = {}
    ∧ v.getLsbD 0 = false :=
  ⟨ready, 0, by decide +kernel, rfl, rfl, by decide +kernel⟩

theorem witness_controlRings_0 : ∃ (s : State) (entry : Bytes) (args : Bytes) (e : Entry), entryOf entry = e ∧ barUp s = true
    ∧ s.dev.ctl.flights = [] ∧ s.dev.ctl.outbox = {} ∧ s.dev.ctl.cmd.en = true ∧ s.dev.ctl.cmd.head ≠ s.dev.ctl.cmd.tail ∧
    entryBad e = false ∧ argsBad e (argBytes entry args) = false ∧ e.tkind = 0 :=
  ⟨on fun d => { d with ctl := { d.ctl with cmd := { en := true, size := 64, tail := 1 } } }, [1, 0], [], entryOf [1, 0], rfl,
    by decide +kernel, rfl, rfl, by decide +kernel, (by decide +kernel), by decide +kernel, (by decide +kernel), rfl⟩

theorem witness_controlRings_1 : ∃ (s : State) (c : _) (cs : _), s.dev.ctl.flights = [] ∧ s.dev.ctl.outbox = {} ∧
    s.dev.ctl.cpl.room = true ∧ s.dev.ctl.heldCpl0 = [] ∧ s.dev.ctl.heldCpl = c :: cs ∧ s.dev.mayWrite c = true :=
  ⟨on fun d => { d with ctl := { d.ctl with heldCpl := [{}] } }, {}, [], rfl, rfl, by decide +kernel, rfl, rfl,
    by decide +kernel⟩

theorem witness_controlRings_2 : ∃ (s : State) (e : _) (es : _), s.dev.ctl.flights = [] ∧ s.dev.ctl.outbox = {} ∧
    s.dev.ctl.lostOwed = 0 ∧ s.dev.ctl.heldEvt = e :: es ∧ s.dev.ctl.behind = false ∧ s.dev.tree.admitted = true :=
  ⟨on fun d => (let d : Dev := { d with ctl := { d.ctl with heldEvt := [{}] } };
    { d with tree := { d.tree with admitted := true } }), {}, [], rfl, rfl, rfl, rfl, by decide +kernel, (by decide +kernel)⟩

theorem witness_controlRings_3 : ∃ (s : State) (e : _) (es : _), s.dev.ctl.flights = [] ∧ s.dev.ctl.outbox = {} ∧
    s.dev.ctl.lostOwed = 0 ∧ s.dev.ctl.heldEvt = e :: es ∧ s.dev.ctl.behind = false ∧ s.dev.tree.admitted = false ∧
    s.dev.ctl.evt.room = true :=
  ⟨on fun d => { d with ctl := { d.ctl with heldEvt := [{}] } }, {}, [], rfl, rfl, rfl, rfl, by decide +kernel,
    (by decide +kernel), by decide +kernel⟩

theorem witness_controlRings_4 : ∃ (s : State) (p : _), s.dev.ctl.flights = [] ∧ s.dev.ctl.outbox = {} ∧
    (s.dev.ctl.dmaPacket.toList ++ s.dev.ctl.downRes).head? = some p ∧ s.dev.tree.admitted = false ∧ s.dev.ctl.resRoom (8 *
    p.len) = true :=
  ⟨on fun d => { d with ctl := { d.ctl with dmaPacket := some {}, resEn := true, resSize := 65536 } }, {}, rfl, rfl, rfl,
    by decide +kernel, (by decide +kernel)⟩

theorem witness_controlRings_5 : ∃ (s : State) (e : BitVec 3) (k : _), s.dev.ctl.flights = [] ∧ s.dev.ctl.outbox = {} ∧
    e.toNat ≤ 4 ∧ (s.dev.ctl.dma.get {} e.toNat).cur = none ∧ (s.dev.ctl.dma.get {} e.toNat).waiting = [] ∧ 2 ≤ k :=
  ⟨ready, 4, 2, rfl, rfl, by decide +kernel, rfl, rfl, by decide +kernel⟩

theorem witness_controlRings_6 : ∃ (s : State) (n : Nat) (v : BitVec 6), s.dev.ctl.flights = [] ∧ s.dev.ctl.outbox = {} ∧
    (s.dev.ctl.irqs.get {} v.toNat).n ≠ 0 ∧ (s.dev.ctl.irqs.get {} v.toNat).first + (s.dev.ctl.irqs.get {} v.toNat).holdoff *
    usSteps ≤ (s.dev.advance n).mono :=
  ⟨on fun d => { d with ctl := { d.ctl with irqs := ⟨[(63, { n := 1, holdoff := 4 })]⟩ } }, 4 * usSteps, 63, rfl, rfl,
    by decide +kernel, (by decide +kernel)⟩

theorem witness_controlValues_2 : ∃ (s : State) (h : Hdr) (i : BitVec 16) (w : _) (a : _), Idle s h ∧ paramKind i.toNat = some
    (w, a) :=
  ⟨ready, {}, 0x0502, 32, .rw, ⟨rfl, rfl, rfl, rfl, rfl, rfl, rfl, rfl, rfl, rfl⟩, rfl⟩

theorem witness_controlValues_3 : ∃ (s : State) (h : Hdr) (v : BitVec 256), Idle s h ∧ 1 ≤ v.toNat ∧ v.toNat ≤ 255 :=
  ⟨ready, {}, 255, ⟨rfl, rfl, rfl, rfl, rfl, rfl, rfl, rfl, rfl, rfl⟩, by decide +kernel, (by decide +kernel)⟩

theorem witness_controlValues_4 : ∃ (s : State) (h : Hdr) (l : _) (st : _) (k : _), Idle s h ∧ l.length ≤ 16 ∧ Dev.psetAll
    (s.dev.takenUp h 0x0003) 0 l = .error (st, k) ∧ l ≠ [] :=
  ⟨ready, {}, [(0xFFFF, 0)], stBadarg, 0, ⟨rfl, rfl, rfl, rfl, rfl, rfl, rfl, rfl, rfl, rfl⟩, by decide +kernel, rfl,
    by decide +kernel⟩

theorem witness_controlSetup_0 : ∃ (s : State) (h : Hdr) (i : BitVec 8) (base : BitVec 64) (size : BitVec 64), Idle s h ∧
    s.straps.isWorker = false ∧ i.toNat ≤ 7 ∧ base.toNat % 4096 = 0 ∧ size.toNat % 4096 = 0 ∧ size ≠ 0 ∧ size.toNat ≤ 2 ^ 48 ∧
    base.toNat + size.toNat ≤ 2 ^ 64 ∧ s.dev.ctl.windows = .empty :=
  ⟨ready, {}, 7, 0, 4096, ⟨rfl, rfl, rfl, rfl, rfl, rfl, rfl, rfl, rfl, rfl⟩, by decide +kernel, (by decide +kernel), rfl, rfl,
    by decide +kernel, (by decide +kernel), by decide +kernel, rfl⟩

theorem witness_controlSetup_1 : ∃ (s : State) (h : Hdr) (base : BitVec 64) (size : BitVec 32), Idle s h ∧ s.straps.isWorker =
    false ∧ base.toNat % 4096 = 0 ∧ s.dev.ctl.inWindow (base.toNat, size.toNat) = true ∧ size.toNat.isPowerOfTwo ∧ 65536 ≤
    size.toNat ∧ size.toNat ≤ 2 ^ 30 ∧ s.dev.cap.carafe = [] ∧ s.dev.ctl.dmaPacket = none :=
  ⟨on fun d => { d with ctl := { d.ctl with windows := ⟨[(0, some (0, 65536))]⟩ } }, {}, 0, 65536, ⟨rfl, rfl, rfl, rfl, rfl,
    rfl, rfl, rfl, rfl, rfl⟩, by decide +kernel, rfl, by decide +kernel, (by decide +kernel), by decide +kernel,
    (by decide +kernel), rfl, rfl⟩

theorem witness_controlSetup_2 : ∃ (s : State) (h : Hdr) (k : BitVec 16) (v : BitVec 8), Idle s h ∧ s.straps.isWorker = false
    ∧ k.toNat ≤ 639 ∧ v.toNat ≤ 62 :=
  ⟨ready, {}, 639, 62, ⟨rfl, rfl, rfl, rfl, rfl, rfl, rfl, rfl, rfl, rfl⟩, by decide +kernel, (by decide +kernel),
    by decide +kernel⟩

theorem witness_controlSetup_3 : ∃ (s : State) (h : Hdr) (v : BitVec 8), Idle s h ∧ s.straps.isWorker = false ∧ v.toNat ≤ 62 :=
  ⟨ready, {}, 62, ⟨rfl, rfl, rfl, rfl, rfl, rfl, rfl, rfl, rfl, rfl⟩, by decide +kernel, (by decide +kernel)⟩

theorem witness_controlSetup_4 : ∃ (s : State) (h : Hdr) (v : BitVec 8) (count : BitVec 16), Idle s h ∧ s.straps.isWorker =
    false ∧ v.toNat ≤ 62 ∧ 1 ≤ count.toNat ∧ count.toNat ≤ 255 :=
  ⟨ready, {}, 62, 255, ⟨rfl, rfl, rfl, rfl, rfl, rfl, rfl, rfl, rfl, rfl⟩, by decide +kernel, (by decide +kernel),
    by decide +kernel, (by decide +kernel)⟩

theorem witness_controlSetup_5 : ∃ (s : State) (h : Hdr) (m : BitVec 32) (f : Flight), s.straps.isWorker = false ∧
    s.dev.boot.ready = true ∧ s.dev.fc.decaf = none ∧ h.rsv = false ∧ s.dev.ctl.behind = false ∧ s.dev.ctl.outbox = {} ∧
    s.dev.ctl.heldCpl = [] ∧ s.dev.ctl.heldCpl0 = [] ∧ s.dev.ctl.cpl.room = true ∧ s.dev.ctl.cpl.push.room = true ∧
    s.dev.ctl.flights = [f] ∧ f.accepted = false ∧ f.done = none ∧ f.tag ≠ h.tag ∧ f.origin = .ring ∧ f.group = false ∧
    opClass f.opcode ≠ 0 ∧ m.getLsbD f.stream.toNat = true :=
  ⟨on fun d => { d with ctl := { d.ctl with flights := [{ tag := 5, opcode := 0x0200, stream := 31 }] } }, {}, 0x80000000,
    { tag := 5, opcode := 0x0200, stream := 31 }, by decide +kernel, (by decide +kernel), rfl, by decide +kernel,
    (by decide +kernel), rfl, rfl, rfl, by decide +kernel, (by decide +kernel), rfl, by decide +kernel, rfl, by decide +kernel,
    rfl, by decide +kernel, (by decide +kernel), by decide +kernel⟩

theorem witness_faultReports_0 : ∃ (s : State) (line : BitVec 6) (cls : BitVec 2), cls ≠ 3 ∧ (lineClasses line.toNat).testBit
    cls.toNat = true ∧ s.dev.fc.inj = none ∧ (s.dev.log.queue.filter fun x => x.kind == 1).length < 16 ∧ (s.dev.fc.perLine.get
    {} line.toNat).last = none ∧ cls = 0 ∧ (line.toNat < 30 ∨ 33 < line.toNat) :=
  ⟨ready, 29, 0, by decide +kernel, (by decide +kernel), rfl, by decide +kernel, rfl, rfl, by decide +kernel⟩

theorem witness_faultReports_1 : ∃ (s : State) (line : BitVec 6) (cls : BitVec 2), cls ≠ 3 ∧ (lineClasses line.toNat).testBit
    cls.toNat = true ∧ s.dev.fc.inj = none ∧ (s.dev.log.queue.filter fun x => x.kind == 1).length < 16 ∧ (s.dev.fc.perLine.get
    {} line.toNat).last = none ∧ cls = 1 ∧ line = 45 :=
  ⟨ready, 45, 1, by decide +kernel, (by decide +kernel), rfl, by decide +kernel, rfl, rfl, rfl⟩

theorem witness_faultReports_2 : ∃ (s : State) (line : BitVec 6) (cls : BitVec 2) (unit : BitVec 16), cls ≠ 3 ∧ (lineClasses
    line.toNat).testBit cls.toNat = true ∧ s.dev.fc.inj = none ∧ (s.dev.log.queue.filter fun x => x.kind == 1).length < 16 ∧
    (s.dev.fc.perLine.get {} line.toNat).last = none ∧ cls = 1 ∧ line = 38 ∧ unit.toNat < 128 :=
  ⟨ready, 38, 1, 127, by decide +kernel, (by decide +kernel), rfl, by decide +kernel, rfl, rfl, rfl, by decide +kernel⟩

theorem witness_faultReports_3 : ∃ (s : State), s.dev.fc.decaf.isSome = true ∧ s.dev.fc.inj = none ∧ (s.dev.log.queue.filter
    fun x => x.kind == 1).length < 16 ∧ (s.dev.fc.perLine.get {} 41).last = none :=
  ⟨on fun d => { d with fc := { d.fc with decaf := some {} } }, by decide +kernel, rfl, by decide +kernel, rfl⟩

theorem witness_faultReports_4 : ∃ (s : State), s.dev.fc.decaf.isSome = true ∧ s.dev.fc.inj = none ∧ (s.dev.log.queue.filter
    fun x => x.kind == 1).length < 16 :=
  ⟨on fun d => { d with fc := { d.fc with decaf := some {} } }, by decide +kernel, rfl, by decide +kernel⟩

theorem witness_faultReports_5 : ∃ (s : State), s.dev.fc.decaf.isSome = true ∧ s.dev.fc.inj = none ∧ (s.dev.log.queue.filter
    fun x => x.kind == 1).length < 16 ∧ s.dev.boot.firmware = true :=
  ⟨on fun d => { d with fc := { d.fc with decaf := some {} } }, by decide +kernel, rfl, by decide +kernel, (by decide +kernel)⟩

theorem witness_injection_0 : ∃ (s : State) (h : Hdr) (w : When) (word : BitVec 64) (e : _) (st : _) (late : _), Idle s h ∧
    injGood word = true ∧ s.dev.fc.inj = none ∧ (s.dev.advance h.t).schedule w clk false = .ok (e, st, late) :=
  ⟨ready, {}, soon, 0x0000000000000100, 0, 1048576, false, ⟨rfl, rfl, rfl, rfl, rfl, rfl, rfl, rfl, rfl, rfl⟩,
    by decide +kernel, rfl, by decide +kernel⟩

theorem witness_injection_1 : ∃ (s : State) (i : Inject), s.dev.tl.rewind = none ∧ s.dev.fc.inj = some i ∧ i.presented = false
    ∧ i.tag = none ∧ i.word.getLsbD 32 = false ∧ (s.dev.log.queue.filter fun x => x.kind == 1).length < 16 :=
  ⟨on fun d => { d with fc := { d.fc with inj := some {} } }, {}, rfl, rfl, by decide +kernel, rfl, by decide +kernel,
    (by decide +kernel)⟩

theorem witness_decafMode_0 : ∃ (s : State) (h : Hdr), s.dev.fc.decaf = none ∧ Idle s h :=
  ⟨ready, {}, rfl, ⟨rfl, rfl, rfl, rfl, rfl, rfl, rfl, rfl, rfl, rfl⟩⟩

theorem witness_decafMode_1 : ∃ (s : State), s.dev.fc.decaf = none ∧ barUp s = true :=
  ⟨ready, rfl, by decide +kernel⟩

theorem witness_decafMode_2 : ∃ (s : State), s.dev.fc.decaf = none ∧ s.dev.fc.inj = none ∧ (s.dev.fc.perLine.get {} 42).last =
    none :=
  ⟨ready, rfl, rfl, rfl⟩

theorem witness_decafMode_3 : ∃ (s : State) (k : Decaf) (h : _), s.dev.fc.decaf = some k ∧ IdleDecaf s h :=
  ⟨on fun d => { d with fc := { d.fc with decaf := some {} } }, {}, {}, rfl, ⟨rfl, rfl, rfl, rfl, rfl, rfl, rfl, rfl, rfl, rfl⟩⟩

theorem witness_decafMode_4 : ∃ (s : State) (k : Decaf), s.dev.fc.decaf = some k ∧ k.safe = false ∧ k.tags = [] ∧
    s.dev.switchesOpen = true :=
  ⟨on fun d => { d with fc := { d.fc with decaf := some {} } }, {}, rfl, by decide +kernel, rfl, by decide +kernel⟩

theorem witness_decafMode_5 : ∃ (s : State) (k : Decaf) (h : _), s.dev.fc.decaf = some k ∧ IdleDecaf s h ∧ (k.cause = 3 ∨
    k.cause = 8) ∧ k.safe = true :=
  ⟨on fun d => { d with fc := { d.fc with decaf := some { cause := 8, safe := true } } }, { cause := 8, safe := true }, {},
    rfl, ⟨rfl, rfl, rfl, rfl, rfl, rfl, rfl, rfl, rfl, rfl⟩, by decide +kernel, (by decide +kernel)⟩

theorem witness_decafMode_6 : ∃ (s : State) (k : Decaf) (h : _), s.dev.fc.decaf = some k ∧ IdleDecaf s h ∧ k.cause ≠ 3 ∧
    k.cause ≠ 8 :=
  ⟨on fun d => { d with fc := { d.fc with decaf := some {} } }, {}, {}, rfl, ⟨rfl, rfl, rfl, rfl, rfl, rfl, rfl, rfl, rfl,
    rfl⟩, by decide +kernel, (by decide +kernel)⟩

theorem witness_faultCommands_3 : ∃ (s : State) (h : Hdr) (first : _) (count : _), Idle s h ∧ 1 ≤ count ∧ count ≤ 64 ∧ first +
    count ≤ 256 :=
  ⟨ready, {}, 192, 64, ⟨rfl, rfl, rfl, rfl, rfl, rfl, rfl, rfl, rfl, rfl⟩, by decide +kernel, (by decide +kernel),
    by decide +kernel⟩

theorem witness_faultCommands_4 : ∃ (s : State) (h : Hdr), Idle s h ∧ s.dev.log.closing = [] ∧ s.dev.log.ram = .empty :=
  ⟨ready, {}, ⟨rfl, rfl, rfl, rfl, rfl, rfl, rfl, rfl, rfl, rfl⟩, rfl, rfl⟩

theorem witness_faultCommands_5 : ∃ (s : State) (h : Hdr), Idle s h ∧ s.dev.log.freeze = true ∧ s.dev.log.records.all
    (·.closed) = false ∧ s.dev.logReachable = true :=
  ⟨on fun d => (let d : Dev := { d with log := { d.log with freeze := true, ram := ⟨[(255, some {})]⟩ } };
    { d with boot := { d.boot with step := 12 } }), {}, ⟨rfl, rfl, rfl, rfl, rfl, rfl, rfl, rfl, rfl, rfl⟩, by decide +kernel,
    (by decide +kernel), by decide +kernel⟩

theorem witness_faultCommands_9 : ∃ (s : State) (h : Hdr) (token : Bytes), Idle s h ∧ s.dev.log.freeze = false ∧
    (s.dev.takenUp h 0x0D09).tokenGood token = false :=
  ⟨ready, {}, [], ⟨rfl, rfl, rfl, rfl, rfl, rfl, rfl, rfl, rfl, rfl⟩, by decide +kernel, (by decide +kernel)⟩

theorem witness_logEvents_0 : ∃ (s : State) (i : _) (r : _), s.dev.ctl.flights = [] ∧ s.dev.ctl.outbox = {} ∧ s.dev.log.freeze
    = false ∧ s.dev.log.hold = [] ∧ s.dev.log.queue = i :: r ∧ s.dev.log.ram = .empty ∧ i.kind ≠ 6 ∧ i.injected = false ∧
    s.dev.log.nextIdx < 256 ∧ s.dev.ctl.behind = false :=
  ⟨on fun d => { d with log := { d.log with queue := [{}] } }, {}, [], rfl, rfl, by decide +kernel, rfl, rfl, rfl,
    by decide +kernel, (by decide +kernel), by decide +kernel, (by decide +kernel)⟩

theorem witness_logEvents_1 : ∃ (s : State) (n : Nat) (k : BitVec 8) (x : LogRec), s.dev.ctl.flights = [] ∧ s.dev.ctl.outbox =
    {} ∧ s.dev.log.freeze = false ∧ s.dev.log.ram.get none k.toNat = some x ∧ x.closed = false ∧ x.touched +
    s.dev.log.closeIdle * msSteps ≤ (s.dev.advance n).mono :=
  ⟨on fun d => { d with log := { d.log with ram := ⟨[(255, some {})]⟩ } }, 1000 * msSteps, 255, {}, rfl, rfl,
    by decide +kernel, rfl, by decide +kernel, (by decide +kernel)⟩

theorem witness_logEvents_2 : ∃ (s : State) (k : _) (ks : _) (x : _), s.dev.ctl.flights = [] ∧ s.dev.ctl.outbox = {} ∧
    s.dev.log.closing = k :: ks ∧ ks ≠ [] ∧ s.dev.log.ram.get none k = some x ∧ s.dev.log.freeze = false ∧ s.dev.logReachable
    = true :=
  ⟨on fun d => { d with log := { d.log with ram := ⟨[(255, some {})]⟩, closing := [255, 0] } }, 255, [0], {}, rfl, rfl, rfl,
    by decide +kernel, rfl, by decide +kernel, (by decide +kernel)⟩

theorem witness_logEvents_3 : ∃ (s : State) (n : Nat), s.dev.ctl.flights = [] ∧ s.dev.ctl.outbox = {} ∧ s.dev.log.freeze =
    true ∧ s.dev.log.freezeAt + 50 * msSteps ≤ (s.dev.advance n).mono :=
  ⟨on fun d => { d with log := { d.log with freeze := true } }, 50 * msSteps, rfl, rfl, by decide +kernel, (by decide +kernel)⟩

theorem witness_supplyEvents_0 : ∃ (s : State) (n : Nat) (supply : BitVec 4) (reading : Int), supplyDamages supply.toNat
    reading = true ∧ s.dev.hk.supplyOut.getLsbD supply.toNat = false ∧ supplyGood supply.toNat s.fuses.bandgap reading = false
    ∧ s.dev.supplyStood n supply.toNat usSteps = true ∧ s.dev.hk.heldLow supply.toNat = true ∧ supply = 5 :=
  ⟨ready, usSteps, 5, 30000, by decide +kernel, (by decide +kernel), by decide +kernel, (by decide +kernel), by decide +kernel, rfl⟩

theorem witness_supplyEvents_1 : ∃ (s : State) (n : Nat) (supply : BitVec 4) (reading : Int), supplyDamages supply.toNat
    reading = false ∧ s.dev.hk.supplyOut.getLsbD supply.toNat = false ∧ supplyGood supply.toNat s.fuses.bandgap reading =
    false ∧ s.dev.supplyStood n supply.toNat usSteps = true ∧ s.dev.hk.heldLow supply.toNat = true ∧ supply = 5 :=
  ⟨ready, usSteps, 5, 0, by decide +kernel, (by decide +kernel), by decide +kernel, (by decide +kernel), by decide +kernel, rfl⟩

theorem witness_supplyEvents_2 : ∃ (s : State) (n : Nat) (supply : BitVec 4) (reading : Int), supplyDamages supply.toNat
    reading = false ∧ s.dev.hk.supplyOut.getLsbD supply.toNat = false ∧ supplyGood supply.toNat s.fuses.bandgap reading =
    false ∧ s.dev.supplyStood n supply.toNat usSteps = true ∧ s.dev.hk.heldLow supply.toNat = false ∧ s.dev.fc.decaf.isSome =
    true ∧ s.dev.fc.inj = none ∧ (s.dev.fc.perLine.get {} 39).last = none ∧ supply = 8 :=
  ⟨on fun d => { d with fc := { d.fc with decaf := some {} } }, usSteps, 8, 0, by decide +kernel, (by decide +kernel),
    by decide +kernel, (by decide +kernel), by decide +kernel, (by decide +kernel), rfl, rfl, rfl⟩

theorem witness_supplyEvents_3 : ∃ (s : State) (n : Nat) (supply : BitVec 4) (reading : Int), supplyDamages supply.toNat
    reading = false ∧ s.dev.hk.supplyOut.getLsbD supply.toNat = true ∧ supplyGood supply.toNat s.fuses.bandgap reading = true
    ∧ s.dev.supplyStood n supply.toNat (100 * usSteps) = true :=
  ⟨on fun d => { d with hk := { d.hk with supplyOut := 1 } }, 100 * usSteps, 0, 7500, by decide +kernel, (by decide +kernel),
    by decide +kernel, (by decide +kernel)⟩

theorem witness_supplyEvents_4 : ∃ (s : State) (n : Nat) (supply : BitVec 4) (reading : Int), supplyDamages supply.toNat
    reading = false ∧ s.dev.hk.peWait = true ∧ s.dev.hk.peNeg = true ∧ s.dev.shutLatch = false ∧ s.dev.fc.decaf = none ∧
    (s.dev.hk.supplyOut.getLsbD 4 = false ∨ s.dev.hk.peNegAt + 5 * msSteps ≤ (s.dev.advance n).mono) :=
  ⟨on fun d => { d with hk := { d.hk with peWait := true, peNeg := true } }, 0, 0, 0, by decide +kernel, (by decide +kernel),
    by decide +kernel, (by decide +kernel), rfl, by decide +kernel⟩

theorem witness_housekeeping_0 : ∃ (s : State) (n : Nat) (reading : Int) (due : _), s.dev.tl.running = true ∧ s.dev.hk.slot <
    128 ∧ s.dev.hk.slot ≠ 23 ∧ -4000 ≤ reading ∧ reading ≤ 15000 ∧ due = s.dev.hk.roundAt + (125 * s.dev.hk.slot + 100) *
    usSteps ∧ due ≤ (s.dev.advance n).mono :=
  ⟨on fun d => { d with hk := { d.hk with slot := 127 } }, (125 * 127 + 100) * usSteps, 15000, (125 * 127 + 100) * usSteps,
    by decide +kernel, (by decide +kernel), by decide +kernel, (by decide +kernel), by decide +kernel, rfl, by decide +kernel⟩

theorem witness_housekeeping_1 : ∃ (s : State), s.dev.tl.running = true ∧ 128 ≤ s.dev.hk.slot ∧ s.dev.boot.step < 10 :=
  ⟨on fun d => (let d : Dev := { d with hk := { d.hk with slot := 128 } }; { d with boot := { d.boot with step := 9 } }),
    by decide +kernel, (by decide +kernel), by decide +kernel⟩

theorem witness_housekeeping_2 : ∃ (s : State) (h : Hdr) (first : BitVec 8) (count : BitVec 8), Idle s h ∧ 1 ≤ count.toNat ∧
    first.toNat + count.toNat ≤ 128 :=
  ⟨ready, {}, 127, 1, ⟨rfl, rfl, rfl, rfl, rfl, rfl, rfl, rfl, rfl, rfl⟩, by decide +kernel, (by decide +kernel)⟩

theorem witness_flashCommands_0 : ∃ (s : State) (h : Hdr) (a : BitVec 32) (n : BitVec 32), Idle s h ∧ s.dev.flash.op = none ∧
    a.toNat % 2 = 0 ∧ 64 ≤ n.toNat ∧ n.toNat ≤ 0x100000 ∧ n.toNat % 64 = 0 ∧ s.dev.flash.beyond a.toNat n.toNat = false :=
  ⟨ready, {}, 0, 64, ⟨rfl, rfl, rfl, rfl, rfl, rfl, rfl, rfl, rfl, rfl⟩, rfl, rfl, by decide +kernel, (by decide +kernel), rfl,
    by decide +kernel⟩

theorem witness_flashCommands_1 : ∃ (s : State) (h : Hdr) (a : BitVec 32) (data : Bytes), Idle s h ∧ s.dev.flash.op = none ∧
    hostWritable a.toNat data.length = true ∧ a.toNat % 2 = 0 ∧ data ≠ [] ∧ s.dev.inS3 = false :=
  ⟨ready, {}, 0xBFFFFE, [0], ⟨rfl, rfl, rfl, rfl, rfl, rfl, rfl, rfl, rfl, rfl⟩, rfl, by decide +kernel, rfl,
    by decide +kernel, (by decide +kernel)⟩

theorem witness_flashCommands_2 : ∃ (s : State) (h : Hdr) (a : BitVec 32) (data : Bytes), Idle s h ∧ s.dev.flash.op = none ∧
    hostWritable a.toNat data.length = false :=
  ⟨ready, {}, 0, [0], ⟨rfl, rfl, rfl, rfl, rfl, rfl, rfl, rfl, rfl, rfl⟩, rfl, by decide +kernel⟩

theorem witness_flashCommands_3 : ∃ (s : State) (h : Hdr) (a : BitVec 32) (n : BitVec 32), Idle s h ∧ s.dev.flash.op = none ∧
    hostWritable a.toNat n.toNat = true ∧ a.toNat % 4096 = 0 ∧ n.toNat % 4096 = 0 ∧ n ≠ 0 ∧ s.dev.inS3 = false :=
  ⟨ready, {}, 0xBFF000, 4096, ⟨rfl, rfl, rfl, rfl, rfl, rfl, rfl, rfl, rfl, rfl⟩, rfl, by decide +kernel, rfl, rfl,
    by decide +kernel, (by decide +kernel)⟩

theorem witness_flashCommands_4 : ∃ (s : State) (h : Hdr), Idle s h ∧ s.dev.flash.op = none :=
  ⟨ready, {}, ⟨rfl, rfl, rfl, rfl, rfl, rfl, rfl, rfl, rfl, rfl⟩, rfl⟩

theorem witness_flashCommands_5 : ∃ (s : State) (h : Hdr) (op : BitVec 8) (n : BitVec 16), Idle s h ∧ s.dev.flash.op = none ∧
    op ∈ [0x05, 0x9F, 0x5A] ∧ 2 ≤ n.toNat ∧ n.toNat ≤ 256 :=
  ⟨ready, {}, 0x5A, 256, ⟨rfl, rfl, rfl, rfl, rfl, rfl, rfl, rfl, rfl, rfl⟩, rfl, by decide +kernel, (by decide +kernel),
    by decide +kernel⟩

theorem witness_flashEvents_0 : ∃ (s : State) (n : Nat) (o : FlashOp), s.dev.flash.op = some o ∧ s.dev.fc.inj = none ∧
    (s.dev.fc.perLine.get {} 43).last = none ∧ (s.dev.log.queue.filter fun x => x.kind == 1).length < 16 ∧ o.claiming = true ∧
    o.backoff = false ∧ o.since + usSteps ≤ (s.dev.advance n).mono :=
  ⟨on fun d => { d with flash := { d.flash with op := some {} } }, usSteps, {}, rfl, rfl, rfl, by decide +kernel,
    (by decide +kernel), by decide +kernel, (by decide +kernel)⟩

theorem witness_flashEvents_1 : ∃ (s : State) (o : FlashOp), s.dev.flash.op = some o ∧ s.dev.fc.inj = none ∧
    (s.dev.fc.perLine.get {} 43).last = none ∧ (s.dev.log.queue.filter fun x => x.kind == 1).length < 16 ∧ o.claiming = false
    ∧ o.collisions < 2 :=
  ⟨on fun d => { d with flash := { d.flash with op := some { claiming := false, collisions := 1 } } },
    { claiming := false, collisions := 1 }, rfl, rfl, rfl, by decide +kernel, (by decide +kernel), by decide +kernel⟩

theorem witness_flashEvents_2 : ∃ (s : State) (o : FlashOp), s.dev.flash.op = some o ∧ s.dev.fc.inj = none ∧
    (s.dev.fc.perLine.get {} 43).last = none ∧ (s.dev.log.queue.filter fun x => x.kind == 1).length < 16 ∧ o.claiming = false
    ∧ o.badWords = 0 :=
  ⟨on fun d => { d with flash := { d.flash with op := some { claiming := false } } }, { claiming := false }, rfl, rfl, rfl,
    by decide +kernel, (by decide +kernel), rfl⟩

theorem witness_flashEvents_3 : ∃ (s : State) (n : Nat) (o : FlashOp) (w : _), s.dev.flash.op = some o ∧ s.dev.fc.inj = none ∧
    (s.dev.fc.perLine.get {} 43).last = none ∧ (s.dev.log.queue.filter fun x => x.kind == 1).length < 16 ∧ o.claiming = false
    ∧ o.since + s.dev.flash.poll * usSteps ≤ (s.dev.advance n).mono ∧ w = o.waited + ((s.dev.advance n).mono - o.since) /
    usSteps ∧ w ≤ o.limit :=
  ⟨on fun d => { d with flash := { d.flash with op := some { claiming := false, kind := .erase } } }, 2 * usSteps,
    { claiming := false, kind := .erase }, 2, rfl, rfl, rfl, by decide +kernel, (by decide +kernel), by decide +kernel, rfl,
    by decide +kernel⟩

theorem witness_flashEvents_4 : ∃ (s : State) (n : Nat) (o : FlashOp), s.dev.flash.op = some o ∧ s.dev.fc.inj = none ∧
    (s.dev.fc.perLine.get {} 43).last = none ∧ (s.dev.log.queue.filter fun x => x.kind == 1).length < 16 ∧ o.claiming = false
    ∧ o.since + s.dev.flash.poll * usSteps ≤ (s.dev.advance n).mono ∧ o.issued = true ∧ o.kind = .erase ∧ o.tag = none ∧ o.len
    ≤ o.moved + o.unit :=
  ⟨on fun d =>
    { d with flash := { d.flash with op := some { claiming := false, kind := .erase, issued := true, len := 4096 } } }, 2 *
    usSteps, { claiming := false, kind := .erase, issued := true, len := 4096 }, rfl, rfl, rfl, by decide +kernel,
    (by decide +kernel), by decide +kernel, (by decide +kernel), rfl, rfl, by decide +kernel⟩

theorem witness_flashEvents_5 : ∃ (s : State) (n : Nat) (o : FlashOp), s.dev.flash.op = some o ∧ s.dev.fc.inj = none ∧
    (s.dev.fc.perLine.get {} 43).last = none ∧ (s.dev.log.queue.filter fun x => x.kind == 1).length < 16 ∧ o.backoff = true ∧
    o.since + (s.dev.tree.position.toNat + 1) * 10 * usSteps ≤ (s.dev.advance n).mono :=
  ⟨on fun d => { d with flash := { d.flash with op := some { backoff := true } } }, 10 * usSteps, { backoff := true }, rfl,
    rfl, rfl, by decide +kernel, (by decide +kernel), by decide +kernel⟩

theorem witness_flashEvents_6 : ∃ (s : State) (a : BitVec 32), s.dev.flash.op = none ∧ a.toNat < windowSize ∧ s.dev.flash.xbuf
    = none :=
  ⟨ready, 0, rfl, by decide +kernel, rfl⟩

theorem witness_flashEvents_7 : ∃ (s : State) (a : BitVec 32), s.dev.flash.op = none ∧ a.toNat < windowSize ∧ s.dev.flash.xbuf
    = none :=
  ⟨ready, 0, rfl, by decide +kernel, rfl⟩

theorem witness_flashEvents_8 : ∃ (s : State) (n : Nat) (b : XBuf) (v : BitVec 8), s.dev.flash.op = none ∧ s.dev.flash.xbuf =
    some b ∧ b.data = [v] ∧ b.since + usSteps ≤ (s.dev.advance n).mono :=
  ⟨on fun d => { d with flash := { d.flash with xbuf := some { data := [0] } } }, usSteps, { data := [0] }, 0, rfl, rfl, rfl,
    by decide +kernel⟩

theorem witness_directRegisters_0 : ∃ (s : State), barUp s = true :=
  ⟨ready, by decide +kernel⟩

theorem witness_directRegisters_1 : ∃ (s : State), barUp s = true :=
  ⟨ready, by decide +kernel⟩

theorem witness_directRegisters_2 : ∃ (s : State), barUp s = true :=
  ⟨ready, by decide +kernel⟩

theorem witness_directRegisters_3 : ∃ (s : State), barUp s = true :=
  ⟨ready, by decide +kernel⟩

theorem witness_directRegisters_4 : ∃ (s : State), barUp s = true :=
  ⟨ready, by decide +kernel⟩

theorem witness_directRegisters_5 : ∃ (s : State), barUp s = true :=
  ⟨ready, by decide +kernel⟩

theorem witness_directRegisters_6 : ∃ (s : State), barUp s = true :=
  ⟨ready, by decide +kernel⟩

theorem witness_directRegisters_7 : ∃ (s : State) (v : BitVec 64), barUp s = true ∧ s.dev.regs.staged.get none 0x18 = some
    (v.setWidth 32) :=
  ⟨on fun d => { d with regs := { d.regs with staged := ⟨[(0x18, some 0)]⟩ } }, 0, by decide +kernel, rfl⟩

theorem witness_directRegisters_8 : ∃ (s : State) (n : Nat), barUp s = true ∧ s.dev.tl.running = true ∧ s.dev.tl.rewind = none
    ∧ s.dev.tl.now < n :=
  ⟨ready, 1, by decide +kernel, (by decide +kernel), rfl, by decide +kernel⟩

theorem witness_directRegisters_9 : ∃ (s : State) (n : Nat), barUp s = true ∧ s.dev.tl.running = true ∧ n ≤ s.dev.tl.now :=
  ⟨ready, 0, by decide +kernel, (by decide +kernel), by decide +kernel⟩

theorem witness_directRegisters_10 : ∃ (s : State) (word : BitVec 64), barUp s = true ∧ injGood word = true ∧ s.dev.fc.inj =
    none ∧ s.dev.fc.decaf = none :=
  ⟨ready, 0x0000000000000100, by decide +kernel, (by decide +kernel), rfl, rfl⟩

theorem witness_directRegisters_11 : ∃ (s : State) (word : BitVec 64), barUp s = true ∧ injGood word = false :=
  ⟨ready, 0, by decide +kernel, (by decide +kernel)⟩

theorem witness_directRegisters_12 : ∃ (s : State) (v : BitVec 32), barUp s = true ∧ v >>> 16 ≠ 0xDECA :=
  ⟨ready, 0, by decide +kernel, (by decide +kernel)⟩

theorem witness_directRegisters_13 : ∃ (s : State) (v : BitVec 6), barUp s = true ∧ v ≠ 63 ∧ s.dev.ctl.outbox = {} ∧
    s.dev.ctl.flights = [] ∧ (s.dev.ctl.irqs.get {} v.toNat).masked = false :=
  ⟨on fun d => { d with ctl := { d.ctl with irqs := ⟨[(62, { masked := false })]⟩ } }, 62, by decide +kernel,
    (by decide +kernel), rfl, rfl, by decide +kernel⟩

theorem witness_directRegisters_14 : ∃ (s : State), barUp s = true ∧ s.dev.log.freeze = false :=
  ⟨ready, by decide +kernel, (by decide +kernel)⟩

theorem witness_directRegisters_15 : ∃ (s : State), barUp s = true ∧ s.dev.log.freeze = true :=
  ⟨on fun d => { d with log := { d.log with freeze := true } }, by decide +kernel, (by decide +kernel)⟩

theorem witness_directRegisters_16 : ∃ (s : State), barUp s = true :=
  ⟨ready, by decide +kernel⟩

theorem witness_pinLevels_0 : ∃ (s : State) (h : Hdr) (ch : Nat) (l : Nat) (w : BitVec 32), Idle s h ∧ ch < 512 ∧ l < 7 ∧
    wordGood w = true ∧ (s.dev.takenUp h 0x0200).levelsCheck [(l, w)] ch = none ∧ ((s.dev.chan ch).level l).pend = none ∧
    ((s.dev.chan ch).level l).rampTag = none ∧ w.extractLsb' 16 2 = ((s.dev.chan ch).level l).span ∧ w.getLsbD 15 = true :=
  ⟨ready, {}, 511, 6, 0x00028000, ⟨rfl, rfl, rfl, rfl, rfl, rfl, rfl, rfl, rfl, rfl⟩, by decide +kernel, (by decide +kernel),
    by decide +kernel, rfl, rfl, rfl, rfl, by decide +kernel⟩

theorem witness_pinLevels_1 : ∃ (s : State) (h : Hdr) (ch : Nat) (l : Nat) (w : BitVec 32), Idle s h ∧ ch < 512 ∧ l < 7 ∧
    wordGood w = true ∧ (s.dev.takenUp h 0x0200).levelsCheck [(l, w)] ch = none ∧ ((s.dev.chan ch).level l).pend = none ∧
    ((s.dev.chan ch).level l).rampTag = none ∧ w.extractLsb' 16 2 = ((s.dev.chan ch).level l).span ∧ w.getLsbD 15 = false ∧
    ((s.dev.chan ch).level l).park = false ∧ ((s.dev.chan ch).level l).applied ≠ w.extractLsb' 0 14 :=
  ⟨on fun d => d.modChan 511 fun x => { x with levels := ⟨[(6, { park := false })]⟩ }, {}, 511, 6, 0x00020001, ⟨rfl, rfl, rfl,
    rfl, rfl, rfl, rfl, rfl, rfl, rfl⟩, by decide +kernel, (by decide +kernel), by decide +kernel, rfl, rfl, rfl, rfl,
    by decide +kernel, (by decide +kernel), by decide +kernel⟩

theorem witness_pinSettings_0 : ∃ (s : State) (h : Hdr) (ch : Nat), Idle s h ∧ ch < 512 ∧ s.dev.ownerOf ch = none :=
  ⟨ready, {}, 511, ⟨rfl, rfl, rfl, rfl, rfl, rfl, rfl, rfl, rfl, rfl⟩, by decide +kernel, rfl⟩

theorem witness_pinSettings_1 : ∃ (s : State) (h : Hdr) (ch : Nat) (mode : BitVec 2) (off : Bool), Idle s h ∧ ch < 512 ∧
    s.dev.ownerOf ch = none ∧ mode ≠ 0 ∧ (s.dev.takenUp h 0x0201).driverCheck mode off ch = none ∧ (s.dev.chan ch).shutting =
    false :=
  ⟨on fun d => { d with hk := { d.hk with pePos := true, peNeg := true } }, {}, 511, 2, false, ⟨rfl, rfl, rfl, rfl, rfl, rfl,
    rfl, rfl, rfl, rfl⟩, by decide +kernel, rfl, by decide +kernel, rfl, by decide +kernel⟩

theorem witness_pinSettings_2 : ∃ (s : State) (h : Hdr) (ch : Nat) (mode : BitVec 2), Idle s h ∧ ch < 512 ∧ s.dev.ownerOf ch =
    none ∧ mode ≠ 0 ∧ s.dev.hk.pe = false :=
  ⟨ready, {}, 511, 1, ⟨rfl, rfl, rfl, rfl, rfl, rfl, rfl, rfl, rfl, rfl⟩, by decide +kernel, rfl, by decide +kernel,
    (by decide +kernel)⟩

theorem witness_pinSettings_3 : ∃ (s : State) (h : Hdr) (ch : Nat), Idle s h ∧ ch < 512 ∧ s.dev.ownerOf ch = none ∧
    (s.dev.takenUp h 0x0202).loadCheck ch = none ∧ (s.dev.chan ch).shutting = false :=
  ⟨on fun d => { d with hk := { d.hk with pePos := true, peNeg := true } }, {}, 511, ⟨rfl, rfl, rfl, rfl, rfl, rfl, rfl, rfl,
    rfl, rfl⟩, by decide +kernel, rfl, rfl, by decide +kernel⟩

theorem witness_pinSettings_5 : ∃ (s : State) (h : Hdr) (chs : BitVec 512) (en : Bool), Idle s h ∧ (en = true → s.dev.hk.pe =
    true) ∧ (en = true → ∀ k, k < 512 → chs.getLsbD k = true → (s.dev.chan k).clampsNow = true ∧ clampsGood (s.dev.chan k) =
    true) :=
  ⟨on fun d => ({ d with hk := { d.hk with pePos := true, peNeg := true } }).modChan 511 fun x =>
    { x with levels := ⟨[(5, { park := false, code := 16383 }), (6, { park := false })]⟩ }, {}, 1#512 <<< 511, true, ⟨rfl,
    rfl, rfl, rfl, rfl, rfl, rfl, rfl, rfl, rfl⟩, by decide +kernel, (by decide +kernel)⟩

theorem witness_pinSettings_6 : ∃ (s : State) (h : Hdr) (step : BitVec 16), Idle s h ∧ 1 ≤ step.toNat ∧ step.toNat ≤ 16383 :=
  ⟨ready, {}, 16383, ⟨rfl, rfl, rfl, rfl, rfl, rfl, rfl, rfl, rfl, rfl⟩, by decide +kernel, (by decide +kernel)⟩

theorem witness_pinSettings_7 : ∃ (s : State) (h : Hdr) (ch : _), Idle s h ∧ s.dev.hk.pe = true ∧ ch < 512 ∧ (s.dev.chan
    ch).offMode = true :=
  ⟨on fun d => ({ d with hk := { d.hk with pePos := true, peNeg := true } }).modChan 511 fun x => { x with offMode := true },
    {}, 511, ⟨rfl, rfl, rfl, rfl, rfl, rfl, rfl, rfl, rfl, rfl⟩, by decide +kernel, (by decide +kernel), by decide +kernel⟩

theorem witness_pinSettings_8 : ∃ (s : State) (h : Hdr) (ch : _) (mode : BitVec 2), Idle s h ∧ s.dev.hk.pe = true ∧ ch < 512 ∧
    (s.dev.chan ch).loadEn = true ∧ (mode = 1 → (s.dev.chan ch).noSlice = false) :=
  ⟨on fun d => ({ d with hk := { d.hk with pePos := true, peNeg := true } }).modChan 511 fun x => { x with loadEn := true },
    {}, 511, 1, ⟨rfl, rfl, rfl, rfl, rfl, rfl, rfl, rfl, rfl, rfl⟩, by decide +kernel, (by decide +kernel), by decide +kernel,
    (by decide +kernel)⟩

theorem witness_pinMonitor_0 : ∃ (s : State) (h : Hdr) (en : Bool) (lo : BitVec 10) (hi : BitVec 10) (hyst : BitVec 2) (n :
    BitVec 4) (m : BitVec 4) (action : BitVec 2), Idle s h ∧ (en = true → s.dev.hk.pe = true) ∧ 2 * halfHyst hyst ≤ monLevel
    hi - monLevel lo ∧ m ≠ 0 ∧ m.toNat < 2 * n.toNat ∧ n ≤ m ∧ action ≠ 3 :=
  ⟨on fun d => { d with hk := { d.hk with pePos := true, peNeg := true } }, {}, true, 0, 1023, 3, 15, 15, 2, ⟨rfl, rfl, rfl,
    rfl, rfl, rfl, rfl, rfl, rfl, rfl⟩, by decide +kernel, (by decide +kernel), by decide +kernel, (by decide +kernel),
    by decide +kernel, (by decide +kernel)⟩

theorem witness_pinMonitor_3 : ∃ (s : State) (h : Hdr) (ch : BitVec 9) (z : _), Idle s h ∧ (s.dev.chan ch.toNat).mon.en = true
    ∧ (s.dev.chan ch.toNat).mon.starting = false ∧ s.dev.hk.pe = true ∧ (s.dev.chan ch.toNat).mon.action ≠ 2 ∧ (s.dev.chan
    ch.toNat).mon.next = some z ∧ s.dev.tl.rewind = none :=
  ⟨on fun d => ({ d with hk := { d.hk with pePos := true, peNeg := true } }).modChan 511 fun x =>
    { x with mon := { en := true, starting := false, action := 0, next := some 0 } }, {}, 511, 0, ⟨rfl, rfl, rfl, rfl, rfl,
    rfl, rfl, rfl, rfl, rfl⟩, by decide +kernel, (by decide +kernel), by decide +kernel, (by decide +kernel), rfl, rfl⟩

theorem witness_pinMonitor_4 : ∃ (s : State) (h : Hdr) (ch : BitVec 9), Idle s h ∧ (s.dev.chan ch.toNat).mon.en = true ∧
    (s.dev.chan ch.toNat).mon.starting = true ∧ s.dev.hk.pe = true ∧ (s.dev.chan ch.toNat).mon.next = none :=
  ⟨on fun d => ({ d with hk := { d.hk with pePos := true, peNeg := true } }).modChan 511 fun x =>
    { x with mon := { en := true, starting := true } }, {}, 511, ⟨rfl, rfl, rfl, rfl, rfl, rfl, rfl, rfl, rfl, rfl⟩,
    by decide +kernel, (by decide +kernel), by decide +kernel, rfl⟩

theorem witness_pinEvents_0 : ∃ (s : State) (h : Hdr) (ch : Nat), Idle s h ∧ ch < 512 ∧ s.dev.ownerOf ch = none ∧ (s.dev.chan
    ch).drvPend = none ∧ (∀ l, l < 7 → ((s.dev.chan ch).level l).pend = none ∧ ((s.dev.chan ch).level l).rampTag = none) ∧
    (s.dev.pmu ch).wave = none ∧ (s.dev.pmu ch).meas = none ∧ (s.dev.pmu ch).seq = none ∧ (s.dev.pmu ch).closed = false ∧
    (s.dev.pmu ch).applied.toNat = safeOf (s.dev.pmu ch).forceMode :=
  ⟨ready, {}, 511, ⟨rfl, rfl, rfl, rfl, rfl, rfl, rfl, rfl, rfl, rfl⟩, by decide +kernel, rfl, rfl, by decide +kernel, rfl,
    rfl, rfl, by decide +kernel, rfl⟩

theorem witness_pinEvents_1 : ∃ (s : State) (ch : BitVec 9) (l : BitVec 3) (t0 : _), l.toNat < 7 ∧ s.dev.tl.rewind = none ∧
    ((s.dev.chan ch.toNat).level l.toNat).ramp = some t0 ∧ ((s.dev.chan ch.toNat).level l.toNat).interval = 0 :=
  ⟨on fun d => d.modChan 511 fun x => { x with levels := ⟨[(6, { ramp := some 0 })]⟩ }, 511, 6, 0, by decide +kernel, rfl,
    rfl, rfl⟩

theorem witness_pinEvents_2 : ∃ (s : State) (n : Nat) (ch : BitVec 9) (p : _), (s.dev.chan ch.toNat).drvPend = some p ∧
    p.stamp ≤ n ∧ s.dev.tl.rewind = none ∧ (s.dev.chan ch.toNat).noSlice = false :=
  ⟨on fun d => d.modChan 511 fun x => { x with drvPend := some {} }, 0, 511, {}, rfl, by decide +kernel, rfl, by decide +kernel⟩

theorem witness_pinEvents_3 : ∃ (s : State) (n : Nat) (ch : BitVec 9) (l : _) (p : _) (a : _), l < 7 ∧ (s.dev.chan
    ch.toNat).drvPend = none ∧ (s.dev.chan ch.toNat).pendAt = some a ∧ a ≤ n ∧ s.dev.tl.rewind = none ∧ ((s.dev.chan
    ch.toNat).level l).pend = some p :=
  ⟨on fun d => d.modChan 511 fun x => { x with levels := ⟨[(6, { pend := some {} })]⟩, pendAt := some 0 }, 0, 511, 6, {}, 0,
    by decide +kernel, rfl, rfl, by decide +kernel, rfl, rfl⟩

theorem witness_pinEvents_4 : ∃ (s : State) (ch : BitVec 9) (iol : _) (ioh : _) (tag : _) (j : _), (s.dev.chan
    ch.toNat).shutting = false ∧ (s.dev.chan ch.toNat).queuedCmds = [.load iol ioh tag] ∧ (s.dev.pmu ch.toNat).queued = [] ∧
    s.dev.job tag = some j ∧ j.left = 1#512 <<< ch.toNat ∧ s.dev.loadCheck ch.toNat = none :=
  ⟨on fun d => (let d : Dev := ({ d with hk := { d.hk with pePos := true, peNeg := true } }).modChan 511 fun x =>
    { x with queuedCmds := [.load 1 1 5] }; { d with ctl := { d.ctl with jobs := [{ tag := 5, left := 1#512 <<< 511 }] } }),
    511, 1, 1, 5, { tag := 5, left := 1#512 <<< 511 }, by decide +kernel, rfl, rfl, rfl, rfl, rfl⟩

theorem witness_pmuPlans_0 : ∃ (s : State) (h : Hdr) (ch : Nat) (w : When) (e : _) (st : _) (late : _) (mode : BitVec 2)
    (range : BitVec 3) (lo : BitVec 16) (hi : BitVec 16), Idle s h ∧ ch < 512 ∧ (s.dev.advance h.t).schedule w clk false = .ok
    (e, st, late) ∧ (s.dev.chan ch).shutting = false ∧ (forcing mode = true → (s.dev.chan ch).pmuFail = false) ∧
    (s.dev.takenUp h 0x0300).changeCheck { mode := mode, range := range, lo := lo, hi := hi } ch = none ∧ range.toNat ≤ 4 ∧
    lo.toNat + 1639 ≤ hi.toNat :=
  ⟨ready, {}, 511, soon, 0, 1048576, false, 3, 4, 63896, 65535, ⟨rfl, rfl, rfl, rfl, rfl, rfl, rfl, rfl, rfl, rfl⟩,
    by decide +kernel, (by decide +kernel), by decide +kernel, (by decide +kernel), rfl, by decide +kernel, (by decide +kernel)⟩

theorem witness_pmuPlans_1 : ∃ (s : State) (h : Hdr) (ch : Nat) (w : When) (e : _) (st : _) (late : _) (on : _), Idle s h ∧ ch
    < 512 ∧ (s.dev.advance h.t).schedule w clk false = .ok (e, st, late) ∧ (s.dev.chan ch).shutting = false ∧ (s.dev.chan
    ch).swFail = false ∧ (s.dev.takenUp h 0x0301).changeCheck { conn := some on } ch = none ∧ (on = true → s.dev.inFullRun ch
    = false) :=
  ⟨ready, {}, 511, soon, 0, 1048576, false, 0, ⟨rfl, rfl, rfl, rfl, rfl, rfl, rfl, rfl, rfl, rfl⟩, by decide +kernel,
    (by decide +kernel), by decide +kernel, (by decide +kernel), rfl, by decide +kernel⟩

theorem witness_pmuPlans_2 : ∃ (s : State) (h : Hdr) (ch : Nat) (w : When) (e : _) (st : _) (late : _) (word : BitVec 32),
    Idle s h ∧ ch < 512 ∧ (s.dev.advance h.t).schedule w clk false = .ok (e, st, late) ∧ (s.dev.chan ch).shutting = false ∧
    word.extractLsb' 17 15 = 0 :=
  ⟨ready, {}, 511, soon, 0, 1048576, false, 0, ⟨rfl, rfl, rfl, rfl, rfl, rfl, rfl, rfl, rfl, rfl⟩, by decide +kernel,
    (by decide +kernel), by decide +kernel, rfl⟩

theorem witness_pmuPlans_3 : ∃ (s : State) (h : Hdr) (ch : Nat) (w : When) (e : _) (st : _) (late : _) (avg : BitVec 8) (count
    : BitVec 16), Idle s h ∧ ch < 512 ∧ (s.dev.advance h.t).schedule w clk false = .ok (e, st, late) ∧ (s.dev.chan
    ch).shutting = false ∧ avg.toNat ≤ 16 ∧ count ≠ 0 ∧ ((s.dev.pmu ch).drvi = true ∨ (s.dev.pmu ch).closed = true ∧
    (s.dev.pmu ch).mode ≠ 0) ∧ (s.dev.pmu ch).wave = none ∧ (s.dev.pmu ch).meas = none :=
  ⟨on fun d => d.modPmu 511 fun x => { x with drvi := true }, {}, 511, soon, 0, 1048576, false, 16, 65535, ⟨rfl, rfl, rfl,
    rfl, rfl, rfl, rfl, rfl, rfl, rfl⟩, by decide +kernel, (by decide +kernel), by decide +kernel, (by decide +kernel),
    by decide +kernel, (by decide +kernel), rfl, rfl⟩

theorem witness_pmuPlans_4 : ∃ (s : State) (h : Hdr) (ch : Nat) (w : When) (e : _) (st : _) (late : _) (start : _), Idle s h ∧
    ch < 512 ∧ (s.dev.advance h.t).schedule w clk false = .ok (e, st, late) ∧ (s.dev.chan ch).shutting = false ∧ ((s.dev.bank
    (bankOf ch)).waveLast 2048 start).isSome = true ∧ (s.dev.pmu ch).closed = true ∧ forcing (s.dev.pmu ch).mode = true ∧
    (s.dev.pmu ch).meas = none ∧ (s.dev.pmu ch).wave = none ∧ (s.dev.pmu ch).drvi = false :=
  ⟨on fun d => (d.modBank 15 fun x => { x with wave := ⟨[(2047, 0x400001900000)]⟩ }).modPmu 511 fun x =>
    { x with closed := true, mode := 2 }, {}, 511, soon, 0, 1048576, false, 2047, ⟨rfl, rfl, rfl, rfl, rfl, rfl, rfl, rfl,
    rfl, rfl⟩, by decide +kernel, (by decide +kernel), by decide +kernel, (by decide +kernel), by decide +kernel,
    (by decide +kernel), rfl, rfl, by decide +kernel⟩

theorem witness_pmuSettings_0 : ∃ (s : State) (h : Hdr) (ch : Nat) (step : BitVec 16), Idle s h ∧ ch < 512 ∧ step ≠ 0 ∧
    (s.dev.pmu ch).seq = none :=
  ⟨ready, {}, 511, 1, ⟨rfl, rfl, rfl, rfl, rfl, rfl, rfl, rfl, rfl, rfl⟩, by decide +kernel, (by decide +kernel), rfl⟩

theorem witness_pmuSettings_1 : ∃ (s : State) (h : Hdr) (ch : Nat) (bank : BitVec 4) (first : Nat) (entries : List (BitVec
    64)), Idle s h ∧ ch < 512 ∧ first + entries.length ≤ 2048 ∧ entries.all waveGood = true ∧ (∀ i, s.dev.waveLocked
    bank.toNat i = false) :=
  ⟨ready, {}, 511, 15, 2047, [0x400001900000], ⟨rfl, rfl, rfl, rfl, rfl, rfl, rfl, rfl, rfl, rfl⟩, by decide +kernel,
    (by decide +kernel), by decide +kernel, fun _ => rfl⟩

theorem witness_pmuSettings_2 : ∃ (s : State) (h : Hdr) (ch : Nat) (bank : BitVec 4) (first : Nat) (entries : List (BitVec
    64)) (i : _), Idle s h ∧ ch < 512 ∧ first + entries.length ≤ 2048 ∧ entries.all waveGood = true ∧ first ≤ i ∧ i < first +
    entries.length ∧ s.dev.waveLocked bank.toNat i = true :=
  ⟨on fun d => (d.modBank 15 fun x => { x with wave := ⟨[(2047, 0x400001900000)]⟩ }).modPmu 511 fun x =>
    { x with wave := some { first := 2047 } }, {}, 511, 15, 2047, [0x400001900000], 2047, ⟨rfl, rfl, rfl, rfl, rfl, rfl, rfl,
    rfl, rfl, rfl⟩, by decide +kernel, (by decide +kernel), by decide +kernel, (by decide +kernel), by decide +kernel,
    (by decide +kernel)⟩

theorem witness_pmuSettings_3 : ∃ (s : State) (h : Hdr) (ch : Nat) (start : _), Idle s h ∧ ch < 512 ∧ ((s.dev.bank (bankOf
    ch)).waveLast 2048 start).isSome = true ∧ (s.dev.pmu ch).closed = true ∧ forcing (s.dev.pmu ch).mode = true ∧
    (s.dev.ownerOf ch).isSome = true ∧ (s.dev.pmu ch).meas = none ∧ (s.dev.pmu ch).wave = none ∧ (s.dev.pmu ch).drvi = false
    :=
  ⟨on fun d => ((d.modBank 15 fun x => { x with wave := ⟨[(2047, 0x400001900000)]⟩ }).modPmu 511 fun x =>
    { x with closed := true, mode := 2 }).modThread 63 fun x => { x with groups := 15 }, {}, 511, 2047, ⟨rfl, rfl, rfl, rfl,
    rfl, rfl, rfl, rfl, rfl, rfl⟩, by decide +kernel, (by decide +kernel), by decide +kernel, (by decide +kernel),
    by decide +kernel, rfl, rfl, by decide +kernel⟩

theorem witness_pmuSettings_4 : ∃ (s : State) (h : Hdr) (ch : Nat) (w : _), Idle s h ∧ ch < 512 ∧ (s.dev.pmu ch).wave = some w
    ∧ (s.dev.pmu ch).meas = none :=
  ⟨on fun d => d.modPmu 511 fun x => { x with wave := some {} }, {}, 511, {}, ⟨rfl, rfl, rfl, rfl, rfl, rfl, rfl, rfl, rfl,
    rfl⟩, by decide +kernel, rfl, rfl⟩

theorem witness_pmuSettings_5 : ∃ (s : State) (h : Hdr) (ch : Nat), Idle s h ∧ ch < 512 ∧ (s.dev.pmu ch).wave = none :=
  ⟨ready, {}, 511, ⟨rfl, rfl, rfl, rfl, rfl, rfl, rfl, rfl, rfl, rfl⟩, by decide +kernel, rfl⟩

theorem witness_pmuSettings_6 : ∃ (s : State) (h : Hdr) (ch : Nat), Idle s h ∧ ch < 512 ∧ (s.dev.pmu ch).meas = none ∧
    (s.dev.pmu ch).wave = none :=
  ⟨ready, {}, 511, ⟨rfl, rfl, rfl, rfl, rfl, rfl, rfl, rfl, rfl, rfl⟩, by decide +kernel, rfl, rfl⟩

theorem witness_pmuSettings_7 : ∃ (s : State) (h : Hdr) (ch : Nat) (range : _), Idle s h ∧ ch < 512 ∧ (s.dev.takenUp h
    0x0308).drviCheck range ch = none ∧ (s.dev.chan ch).shutting = false :=
  ⟨on fun d => ({ d with hk := { d.hk with pePos := true, peNeg := true } }).modChan 511 fun x => { x with drvMode := 2 }, {},
    511, 4, ⟨rfl, rfl, rfl, rfl, rfl, rfl, rfl, rfl, rfl, rfl⟩, by decide +kernel, rfl, by decide +kernel⟩

theorem witness_pmuSettings_8 : ∃ (s : State) (h : Hdr) (ch : Nat), Idle s h ∧ ch < 512 :=
  ⟨ready, {}, 511, ⟨rfl, rfl, rfl, rfl, rfl, rfl, rfl, rfl, rfl, rfl⟩, by decide +kernel⟩

theorem witness_pmuEvents_0 : ∃ (s : State) (ch : BitVec 9) (c : _) (g : _), s.dev.tl.rewind = none ∧ (s.dev.pmu
    ch.toNat).sched = [c] ∧ c.epoch = s.dev.tl.epoch ∧ c.tag = some g ∧ c.conn = some false ∧ (∀ k, k ≠ ch.toNat → c ∉
    (s.dev.pmu k).sched) ∧ (s.dev.pmu ch.toNat).seq = none ∧ (s.dev.pmu ch.toNat).closed = false ∧ (s.dev.pmu
    ch.toNat).applied.toNat = safeOf (s.dev.pmu ch.toNat).forceMode :=
  ⟨on fun d => d.modPmu 511 fun x => { x with sched := [{ tag := some 5, conn := some false }] }, 511,
    { tag := some 5, conn := some false }, 5, rfl, rfl, rfl, rfl, rfl, fun _ hk h => absurd ((congrArg (fun x : Chan => _ ∈
    x.pmu.sched) (Tab.get_mod_of_ne {} _ hk _)).mp h) List.not_mem_nil, rfl, by decide +kernel, rfl⟩

theorem witness_pmuEvents_1 : ∃ (s : State) (ch : BitVec 9) (q : _), s.dev.tl.rewind = none ∧ (s.dev.pmu ch.toNat).seq = some
    q ∧ q.step = .c ∧ q.change.conn = some false :=
  ⟨on fun d => d.modPmu 511 fun x => { x with seq := some { step := .c, change := { conn := some false } } }, 511,
    { step := .c, change := { conn := some false } }, rfl, rfl, rfl, rfl⟩

theorem witness_pmuEvents_2 : ∃ (s : State) (ch : BitVec 9) (t0 : _), s.dev.tl.rewind = none ∧ (s.dev.pmu ch.toNat).ramp =
    some t0 ∧ (s.dev.pmu ch.toNat).seq = none ∧ (s.dev.pmu ch.toNat).interval = 0 :=
  ⟨on fun d => d.modPmu 511 fun x => { x with ramp := some 0 }, 511, 0, rfl, rfl, rfl, rfl⟩

theorem witness_pmuEvents_3 : ∃ (s : State) (ch : BitVec 9) (tag : _) (word : _) (st : _), s.dev.tl.rewind = none ∧ (s.dev.pmu
    ch.toNat).forceSched = [(tag, word, st)] ∧ s.dev.tl.acts = [] ∧ word.getLsbD 16 = false ∧ (s.dev.pmu ch.toNat).seq = none
    ∧ (s.dev.pmu ch.toNat).mode = 1 ∧ (s.dev.pmu ch.toNat).interval = 0 :=
  ⟨on fun d => d.modPmu 511 fun x => { x with forceSched := [(5, 0xFFFF, 0)], mode := 1 }, 511, 5, 0xFFFF, 0, rfl, rfl, rfl,
    by decide +kernel, rfl, rfl, rfl⟩

theorem witness_pmuEvents_4 : ∃ (s : State) (ch : BitVec 9) (m : _), s.dev.tl.rewind = none ∧ (s.dev.pmu ch.toNat).meas = some
    m ∧ m.began = false ∧ m.epoch = s.dev.tl.epoch ∧ m.wave = true :=
  ⟨on fun d => d.modPmu 511 fun x => { x with meas := some { wave := true } }, 511, { wave := true }, rfl, rfl,
    by decide +kernel, rfl, by decide +kernel⟩

theorem witness_pmuEvents_5 : ∃ (s : State) (ch : BitVec 9) (m : _), s.dev.tl.rewind = none ∧ (s.dev.pmu ch.toNat).meas = some
    m ∧ m.began = true ∧ m.ring = none ∧ m.n + 1 < 2 ^ m.k :=
  ⟨on fun d => d.modPmu 511 fun x => { x with meas := some { began := true, k := 16, n := 65534 } }, 511,
    { began := true, k := 16, n := 65534 }, rfl, rfl, by decide +kernel, rfl, by decide +kernel⟩

theorem witness_pmuEvents_6 : ∃ (s : State) (ch : BitVec 9) (w : _), s.dev.tl.rewind = none ∧ (s.dev.pmu ch.toNat).wave = some
    w ∧ w.bind = none ∧ (s.dev.pmu ch.toNat).meas = none ∧ s.dev.tl.acts = [] ∧ w.running = true ∧ ((s.dev.bank (bankOf
    ch.toNat)).wave.get 0 w.idx).getLsbD 46 = true :=
  ⟨on fun d => (d.modBank 15 fun x => { x with wave := ⟨[(2047, 0x400001900000)]⟩ }).modPmu 511 fun x =>
    { x with wave := some { running := true, idx := 2047 } }, 511, { running := true, idx := 2047 }, rfl, rfl, rfl, rfl, rfl,
    by decide +kernel, (by decide +kernel)⟩

theorem witness_timingCommands_0 : ∃ (s : State) (h : Hdr) (th : BitVec 6), Idle s h ∧ s.dev.notLead th.toNat = true :=
  ⟨on fun d => d.modThread 63 fun x => { x with lead := some 62 }, {}, 63, ⟨rfl, rfl, rfl, rfl, rfl, rfl, rfl, rfl, rfl, rfl⟩,
    by decide +kernel⟩

theorem witness_timingCommands_1 : ∃ (s : State) (h : Hdr) (th : BitVec 6) (k : BitVec 8) (p : BitVec 32), Idle s h ∧
    s.dev.notLead th.toNat = false ∧ k.toNat ≤ 15 ∧ 32 ≤ p.toNat ∧ p.toNat ≤ 1048575 ∧ (∀ ch ∈ s.dev.siteChans th.toNat,
    edgeGood ((s.dev.chan ch).futureEdges k.toNat) p.toNat = true ∧ (s.dev.chan ch).shortest (s.dev.chan ch).drvMode
    (s.dev.chan ch).offMode ≤ p.toNat) ∧ (s.dev.thread th.toNat).periodPend.get none k.toNat = none :=
  ⟨on fun d => d.modThread 63 fun x => { x with groups := 15 }, {}, 63, 15, 1048575, ⟨rfl, rfl, rfl, rfl, rfl, rfl, rfl, rfl,
    rfl, rfl⟩, by decide +kernel, (by decide +kernel), by decide +kernel, (by decide +kernel), by decide +kernel, rfl⟩

theorem witness_timingCommands_2 : ∃ (s : State) (h : Hdr) (ch : _) (k : BitVec 8) (e : BitVec 128), Idle s h ∧ ch < 512 ∧
    (s.dev.chan ch).noSlice = false ∧ k.toNat ≤ 15 ∧ (s.dev.ownerOf ch = none → edgeOrderGood e = true) ∧ (∀ o, s.dev.ownerOf
    ch = some o → edgeGood e ((s.dev.thread (s.dev.leadOf o)).futurePeriod k.toNat) = true ∧ ∀ i ∈ s.dev.siteChans
    (s.dev.leadOf o), (s.dev.chan i).shortest (s.dev.chan i).drvMode (s.dev.chan i).offMode ≤ (s.dev.thread (s.dev.leadOf
    o)).futurePeriod k.toNat) ∧ (s.dev.chan ch).edgePend.get none k.toNat = none :=
  ⟨ready, {}, 511, 15, 0, ⟨rfl, rfl, rfl, rfl, rfl, rfl, rfl, rfl, rfl, rfl⟩, by decide +kernel, (by decide +kernel),
    by decide +kernel, fun _ => by decide,
    fun _ h => absurd h (by rw [show ready.dev.ownerOf 511 = none by decide +kernel]; nofun), rfl⟩

theorem witness_timingCommands_3 : ∃ (s : State) (h : Hdr) (ch : _) (drv : BitVec 16) (cmp : BitVec 16), Idle s h ∧ ch < 512 ∧
    (s.dev.chan ch).noSlice = false ∧ -2048 ≤ drv.toInt ∧ drv.toInt ≤ 2047 ∧ -2048 ≤ cmp.toInt ∧ cmp.toInt ≤ 2047 ∧
    (s.dev.chan ch).drvDeskewPend = none ∧ (s.dev.chan ch).cmpDeskewPend = none :=
  ⟨ready, {}, 511, 0xF800, 2047, ⟨rfl, rfl, rfl, rfl, rfl, rfl, rfl, rfl, rfl, rfl⟩, by decide +kernel, (by decide +kernel),
    by decide +kernel, (by decide +kernel), by decide +kernel, (by decide +kernel), rfl, rfl⟩

theorem witness_tdcs_0 : ∃ (s : State) (h : Hdr) (b : BitVec 4) (k : BitVec 6) (mode : BitVec 2) (src0 : BitVec 4) (ch0 :
    BitVec 9) (src : BitVec 4) (ch : BitVec 9) (w : _) (openAt : Nat) (close : Nat) (rep : Nat) (n : _) (count : _) (e : _)
    (st : _) (o : _), Idle s h ∧ s.dev.tdcExists b.toNat k.toNat = true ∧ (s.dev.tdc b.toNat k.toNat).owner = .none ∧ mode ≠ 3
    ∧ src0.toNat ≤ 4 ∧ (mode = 1 → src0 ≠ 4 → bankOf ch0.toNat = b.toNat ∧ (s.dev.chan ch0.toNat).noSlice = false) ∧ src.toNat
    ≤ 3 ∧ bankOf ch.toNat = b.toNat ∧ (s.dev.chan ch.toNat).noSlice = false ∧ (mode = 1 → n ≤ 16) ∧ (mode = 2 → n ≤ 8) ∧ (mode
    ≠ 1 → 1 ≤ count ∧ count ≤ 65535) ∧ (s.dev.lineNeeds b.toNat k.toNat (if mode = 1 ∧ src0 ≠ 4 then src0.toNat else 4)
    ch0.toNat ch.toNat).length ≤ (s.dev.freeLines b.toNat).length ∧ (s.dev.advance h.t).schedule w 1 true = .ok (e, st, false)
    ∧ o = (if mode = 1 ∧ src0 = 4 then openAt else st) ∧ st ≤ o ∧ o < close ∧ close - o ≤ 2 ^ 40 ∧ (mode = 1 → close - st +
    128 ≤ rep) :=
  ⟨ready, {}, 15, 31, 2, 4, 480, 3, 480, soon, 0, 1048576 + 2 ^ 40, 0, 8, 65535, 0, 1048576, 1048576, ⟨rfl, rfl, rfl, rfl,
    rfl, rfl, rfl, rfl, rfl, rfl⟩, by decide +kernel, rfl, by decide +kernel, (by decide +kernel), by decide +kernel,
    (by decide +kernel), rfl, by decide +kernel, (by decide +kernel), by decide +kernel, (by decide +kernel), by decide +kernel,
    (by decide +kernel), by decide +kernel, (by decide +kernel), by decide +kernel, (by decide +kernel), by decide +kernel⟩

theorem witness_tdcs_1 : ∃ (s : State) (h : Hdr) (b : BitVec 4) (k : BitVec 6) (tag : _), Idle s h ∧ (s.dev.tdc b.toNat
    k.toNat).owner = .arm tag ∧ tag ≠ h.tag :=
  ⟨on fun d => d.modTdc 15 31 fun x => { x with owner := .arm 5 }, {}, 15, 31, 5, ⟨rfl, rfl, rfl, rfl, rfl, rfl, rfl, rfl,
    rfl, rfl⟩, rfl, by decide +kernel⟩

theorem witness_tdcs_2 : ∃ (s : State) (h : Hdr) (b : BitVec 4) (k : BitVec 6), Idle s h ∧ (s.dev.tdc b.toNat k.toNat).owner =
    .none :=
  ⟨ready, {}, 15, 31, ⟨rfl, rfl, rfl, rfl, rfl, rfl, rfl, rfl, rfl, rfl⟩, rfl⟩

theorem witness_tdcs_4 : ∃ (s : State) (b : BitVec 4) (k : BitVec 6) (tag : BitVec 12) (x : Tdc), s.dev.tl.rewind = none ∧
    s.dev.tdc b.toNat k.toNat = x ∧ x.owner = .arm tag ∧ x.epoch = s.dev.tl.epoch ∧ x.isOpen = false :=
  ⟨on fun d => d.modTdc 15 31 fun x => { x with owner := .arm 5 }, 15, 31, 5, { owner := .arm 5 }, rfl, rfl, rfl, rfl,
    by decide +kernel⟩

theorem witness_tdcs_5 : ∃ (s : State) (b : BitVec 4) (k : BitVec 6) (tag : BitVec 12) (x : Tdc) (n : _), s.dev.tl.rewind =
    none ∧ s.dev.tdc b.toNat k.toNat = x ∧ x.owner = .arm tag ∧ x.epoch = s.dev.tl.epoch ∧ x.isOpen = true ∧ x.mode = 1 ∧
    x.openAt + x.i * x.rep ≤ n ∧ n < x.closeAt + x.i * x.rep ∧ x.startSrc ≠ 4 ∧ x.lastStart = none ∧ x.start = none :=
  ⟨on fun d => d.modTdc 15 31 fun x => { x with owner := .arm 5, isOpen := true, mode := 1, closeAt := 1 }, 15, 31, 5,
    { owner := .arm 5, isOpen := true, mode := 1, closeAt := 1 }, 0, rfl, rfl, rfl, rfl, by decide +kernel, rfl,
    by decide +kernel, (by decide +kernel), by decide +kernel, rfl, rfl⟩

theorem witness_tdcs_6 : ∃ (s : State) (b : BitVec 4) (k : BitVec 6) (tag : BitVec 12) (x : Tdc) (n : _), s.dev.tl.rewind =
    none ∧ s.dev.tdc b.toNat k.toNat = x ∧ x.owner = .arm tag ∧ x.epoch = s.dev.tl.epoch ∧ x.isOpen = true ∧ x.mode = 1 ∧
    x.openAt + x.i * x.rep ≤ n ∧ n < x.closeAt + x.i * x.rep ∧ x.startSrc = 4 ∧ x.lastStop = none ∧ x.stop = none :=
  ⟨on fun d => d.modTdc 15 31 fun x => { x with owner := .arm 5, isOpen := true, mode := 1, closeAt := 1, startSrc := 4 }, 15,
    31, 5, { owner := .arm 5, isOpen := true, mode := 1, closeAt := 1, startSrc := 4 }, 0, rfl, rfl, rfl, rfl,
    by decide +kernel, rfl, by decide +kernel, (by decide +kernel), rfl, rfl, rfl⟩

theorem witness_tdcs_7 : ∃ (s : State) (b : BitVec 4) (k : BitVec 6) (tag : BitVec 12) (x : Tdc) (n : _) (z : _),
    s.dev.tl.rewind = none ∧ s.dev.tdc b.toNat k.toNat = x ∧ x.owner = .arm tag ∧ x.epoch = s.dev.tl.epoch ∧ x.isOpen = true ∧
    x.mode = 1 ∧ x.openAt + x.i * x.rep ≤ n ∧ n < x.closeAt + x.i * x.rep ∧ x.lastStop = some z ∧ n < z + 256 :=
  ⟨on fun d => d.modTdc 15 31 fun x =>
    { x with owner := .arm 5, isOpen := true, mode := 1, closeAt := 256, lastStop := some 0 }, 15, 31, 5,
    { owner := .arm 5, isOpen := true, mode := 1, closeAt := 256, lastStop := some 0 }, 255, 0, rfl, rfl, rfl, rfl,
    by decide +kernel, rfl, by decide +kernel, (by decide +kernel), rfl, by decide +kernel⟩

theorem witness_tdcs_8 : ∃ (s : State) (b : BitVec 4) (k : BitVec 6) (tag : BitVec 12) (x : Tdc), s.dev.tl.rewind = none ∧
    s.dev.tdc b.toNat k.toNat = x ∧ x.owner = .arm tag ∧ x.epoch = s.dev.tl.epoch ∧ x.isOpen = true ∧ x.mode = 1 ∧ x.i + 1 < 2
    ^ x.k :=
  ⟨on fun d => d.modTdc 15 31 fun x => { x with owner := .arm 5, isOpen := true, mode := 1, k := 1 }, 15, 31, 5,
    { owner := .arm 5, isOpen := true, mode := 1, k := 1 }, rfl, rfl, rfl, rfl, by decide +kernel, rfl, by decide +kernel⟩

theorem witness_sequencerSetup_0 : ∃ (s : State) (h : Hdr) (th : BitVec 6) (g : BitVec 4), Idle s h ∧ s.dev.alone th.toNat ∧
    (s.dev.thread th.toNat).st = .idle ∧ (∀ k, k < 4 → 4 * (th.toNat / 4) + k ≠ th.toNat → (s.dev.thread (4 * (th.toNat / 4) +
    k)).groups &&& g = 0) :=
  ⟨ready, {}, 63, 15, ⟨rfl, rfl, rfl, rfl, rfl, rfl, rfl, rfl, rfl, rfl⟩, ⟨rfl, rfl⟩, rfl, by decide +kernel⟩

theorem witness_sequencerSetup_1 : ∃ (s : State) (h : Hdr) (th : BitVec 6) (n : BitVec 8), Idle s h ∧ s.dev.alone th.toNat ∧
    (s.dev.thread th.toNat).st = .idle ∧ 1 ≤ n.toNat ∧ n.toNat ≤ 4 ∧ th.toNat / 4 + n.toNat ≤ 16 ∧ (∀ k, k < n.toNat →
    (s.dev.thread (th.toNat + 4 * k)).lead = none ∧ (s.dev.thread (th.toNat + 4 * k)).st = .idle) :=
  ⟨ready, {}, 51, 4, ⟨rfl, rfl, rfl, rfl, rfl, rfl, rfl, rfl, rfl, rfl⟩, ⟨rfl, rfl⟩, rfl, by decide +kernel,
    (by decide +kernel), by decide +kernel, (by decide +kernel)⟩

theorem witness_sequencerSetup_2 : ∃ (s : State) (h : Hdr) (th : BitVec 6) (first : Nat) (descs : List (BitVec 128)), Idle s h
    ∧ s.dev.alone th.toNat ∧ (s.dev.thread th.toNat).st = .idle ∧ descs ≠ [] ∧ first + descs.length ≤ 4096 ∧ (∀ w ∈ descs,
    w.toNat / 2 ^ 80 = 0 ∧ descTrigEn w.toNat = false) :=
  ⟨ready, {}, 63, 4095, [0x8000000000000000], ⟨rfl, rfl, rfl, rfl, rfl, rfl, rfl, rfl, rfl, rfl⟩, ⟨rfl, rfl⟩, rfl,
    by decide +kernel, (by decide +kernel),
    by simp only [List.forall_mem_cons, List.not_mem_nil, false_imp_iff, implies_true]; decide +kernel⟩

theorem witness_sequencerSetup_3 : ∃ (s : State) (h : Hdr) (th : BitVec 6) (first : _) (e : BitVec 128) (n : _), Idle s h ∧
    s.dev.alone th.toNat ∧ (s.dev.thread th.toNat).st = .idle ∧ first < 256 ∧ (s.dev.chansOf th.toNat).length = n ∧ (∀ k, k <
    n → nib e.toNat k ≤ 7) ∧ e.toNat / 2 ^ (4 * n) = 0 :=
  ⟨on fun d => d.modThread 63 fun x => { x with groups := 8 }, {}, 63, 255, 0x77777777, 8, ⟨rfl, rfl, rfl, rfl, rfl, rfl, rfl,
    rfl, rfl, rfl⟩, ⟨rfl, rfl⟩, rfl, by decide +kernel, (by decide +kernel), by decide +kernel, (by decide +kernel)⟩

theorem witness_sequencerSetup_4 : ∃ (s : State) (h : Hdr) (th : BitVec 6), Idle s h ∧ s.dev.alone th.toNat ∧ (s.dev.thread
    th.toNat).st = .idle ∧ (∀ k, k < 4 → (s.dev.seq.trig.get {} k).owner = none) :=
  ⟨ready, {}, 63, ⟨rfl, rfl, rfl, rfl, rfl, rfl, rfl, rfl, rfl, rfl⟩, ⟨rfl, rfl⟩, rfl, by decide +kernel⟩

theorem witness_sequencerSetup_5 : ∃ (s : State) (h : Hdr) (th : BitVec 6), Idle s h ∧ s.dev.alone th.toNat ∧ (s.dev.thread
    th.toNat).st = .idle :=
  ⟨ready, {}, 63, ⟨rfl, rfl, rfl, rfl, rfl, rfl, rfl, rfl, rfl, rfl⟩, ⟨rfl, rfl⟩, rfl⟩

theorem witness_sequencerControl_0 : ∃ (s : State) (h : Hdr) (th : BitVec 6) (seg : _) (w : _) (e : _) (st : _) (late : _),
    Idle s h ∧ s.dev.alone th.toNat ∧ worst ((s.dev.takenUp h 0x0505).startChecks seg th.toNat) = none ∧ s.dev.cap.flowGate =
    false ∧ h.tag ∉ s.dev.cap.heldStarts ∧ (s.dev.advance h.t).schedule w 1 true = .ok (e, st, late) ∧ e = s.dev.tl.epoch :=
  ⟨on fun d => d.modThread 63 fun x => { x with groups := 8, descs := ⟨[(4095, 0x8000000000000000)]⟩ }, {}, 63, 4095, soon, 0,
    1048576, false, ⟨rfl, rfl, rfl, rfl, rfl, rfl, rfl, rfl, rfl, rfl⟩, ⟨rfl, rfl⟩, rfl, by decide +kernel, (by decide +kernel),
    by decide +kernel, rfl⟩

theorem witness_sequencerControl_1 : ∃ (s : State) (h : Hdr) (th : BitVec 6), Idle s h ∧ s.dev.alone th.toNat ∧ (s.dev.thread
    th.toNat).st = .idle :=
  ⟨ready, {}, 63, ⟨rfl, rfl, rfl, rfl, rfl, rfl, rfl, rfl, rfl, rfl⟩, ⟨rfl, rfl⟩, rfl⟩

theorem witness_sequencerControl_2 : ∃ (s : State) (h : Hdr) (th : BitVec 6), Idle s h ∧ s.dev.alone th.toNat ∧ (s.dev.thread
    th.toNat).st = .run :=
  ⟨on fun d => d.modThread 63 fun x => { x with st := .run, groups := 8 }, {}, 63, ⟨rfl, rfl, rfl, rfl, rfl, rfl, rfl, rfl,
    rfl, rfl⟩, ⟨rfl, rfl⟩, rfl⟩

theorem witness_sequencerControl_3 : ∃ (s : State) (h : Hdr) (th : BitVec 6), Idle s h ∧ s.dev.alone th.toNat ∧ (s.dev.thread
    th.toNat).st = .dead ∧ (s.dev.thread th.toNat).jump = none ∧ (s.dev.thread th.toNat).jumpTaken = none :=
  ⟨on fun d => d.modThread 63 fun x => { x with st := .dead }, {}, 63, ⟨rfl, rfl, rfl, rfl, rfl, rfl, rfl, rfl, rfl, rfl⟩,
    ⟨rfl, rfl⟩, rfl, rfl, rfl⟩

theorem witness_sequencerControl_4 : ∃ (s : State) (h : Hdr) (th : BitVec 6) (seg : _), Idle s h ∧ s.dev.alone th.toNat ∧
    (s.dev.thread th.toNat).st = .run ∧ s.dev.segValid th.toNat seg = true ∧ (s.dev.thread th.toNat).jump = none :=
  ⟨on fun d => d.modThread 63 fun x => { x with st := .run, groups := 8, descs := ⟨[(4095, 0x8000000000000000)]⟩ }, {}, 63,
    4095, ⟨rfl, rfl, rfl, rfl, rfl, rfl, rfl, rfl, rfl, rfl⟩, ⟨rfl, rfl⟩, rfl, by decide +kernel, rfl⟩

theorem witness_sequencerControl_5 : ∃ (s : State) (h : Hdr) (th : BitVec 6), Idle s h ∧ s.dev.alone th.toNat ∧ (s.dev.thread
    th.toNat).st = .idle :=
  ⟨ready, {}, 63, ⟨rfl, rfl, rfl, rfl, rfl, rfl, rfl, rfl, rfl, rfl⟩, ⟨rfl, rfl⟩, rfl⟩

theorem witness_sequencerControl_6 : ∃ (s : State) (h : Hdr) (th : BitVec 6), Idle s h ∧ s.dev.alone th.toNat ∧ (s.dev.thread
    th.toNat).st = .run ∧ (∀ ch ∈ s.dev.chansOf th.toNat, (s.dev.chan ch).parkHeld = false) :=
  ⟨on fun d => d.modThread 63 fun x => { x with st := .run, groups := 8 }, {}, 63, ⟨rfl, rfl, rfl, rfl, rfl, rfl, rfl, rfl,
    rfl, rfl⟩, ⟨rfl, rfl⟩, rfl, by decide +kernel⟩

theorem witness_sequencerControl_7 : ∃ (s : State) (h : Hdr) (th : BitVec 6) (w : _) (e : _) (st : _) (late : _), Idle s h ∧
    s.dev.alone th.toNat ∧ (s.dev.thread th.toNat).st = .hold ∧ (s.dev.thread th.toNat).resumeAt = none ∧ (s.dev.advance
    h.t).schedule w 1 true = .ok (e, st, late) :=
  ⟨on fun d => d.modThread 63 fun x => { x with st := .hold }, {}, 63, soon, 0, 1048576, false, ⟨rfl, rfl, rfl, rfl, rfl, rfl,
    rfl, rfl, rfl, rfl⟩, ⟨rfl, rfl⟩, rfl, rfl, by decide +kernel⟩

theorem witness_sequencerControl_8 : ∃ (s : State) (h : Hdr) (th : BitVec 6) (b : BitVec 5) (n : BitVec 16), Idle s h ∧
    s.dev.alone th.toNat ∧ s.straps.isWorker = false ∧ 1 ≤ n.toNat ∧ n.toNat ≤ 12352 ∧ (s.dev.seq.barriers.get {}
    b.toNat).opened = none :=
  ⟨ready, {}, 63, 31, 12352, ⟨rfl, rfl, rfl, rfl, rfl, rfl, rfl, rfl, rfl, rfl⟩, ⟨rfl, rfl⟩, by decide +kernel,
    (by decide +kernel), by decide +kernel, rfl⟩

theorem witness_sequencerControl_9 : ∃ (s : State) (h : Hdr) (th : BitVec 6), Idle s h ∧ s.dev.alone th.toNat ∧
    s.straps.isWorker = true :=
  ⟨inRole 2 ready, {}, 63, ⟨rfl, rfl, rfl, rfl, rfl, rfl, rfl, rfl, rfl, rfl⟩, ⟨rfl, rfl⟩, by decide +kernel⟩

theorem witness_sequencerControl_10 : ∃ (s : State) (h : Hdr) (th : BitVec 6) (b : BitVec 5) (n : BitVec 16), Idle s h ∧
    s.dev.alone th.toNat ∧ s.straps.isWorker = false ∧ 1 ≤ n.toNat ∧ n.toNat ≤ 12352 ∧ (s.dev.seq.barriers.get {}
    b.toNat).opened.isSome = true :=
  ⟨on fun d => { d with seq := { d.seq with barriers := ⟨[(31, { opened := some 0 })]⟩ } }, {}, 63, 31, 12352, ⟨rfl, rfl, rfl,
    rfl, rfl, rfl, rfl, rfl, rfl, rfl⟩, ⟨rfl, rfl⟩, by decide +kernel, (by decide +kernel), by decide +kernel,
    (by decide +kernel)⟩

theorem witness_sequencerControl_11 : ∃ (s : State) (h : Hdr) (th : BitVec 6) (b : BitVec 5) (n : BitVec 16), Idle s h ∧
    s.dev.alone th.toNat ∧ s.straps.isWorker = false ∧ 1 ≤ n.toNat ∧ n.toNat ≤ 12352 ∧ (s.dev.seq.barriers.get {}
    b.toNat).opened.isSome = true :=
  ⟨on fun d => { d with seq := { d.seq with barriers := ⟨[(31, { opened := some 0 })]⟩ } }, {}, 63, 31, 12352, ⟨rfl, rfl, rfl,
    rfl, rfl, rfl, rfl, rfl, rfl, rfl⟩, ⟨rfl, rfl⟩, by decide +kernel, (by decide +kernel), by decide +kernel,
    (by decide +kernel)⟩

theorem witness_segmentEvents_0 : ∃ (s : State) (th : BitVec 6), s.dev.alone th.toNat ∧ s.dev.tl.rewind = none ∧ (s.dev.thread
    th.toNat).st = .armed ∧ (s.dev.thread th.toNat).startEpoch = s.dev.tl.epoch ∧ s.dev.cap.gates = [] :=
  ⟨on fun d => d.modThread 63 fun x => { x with st := .armed }, 63, ⟨rfl, rfl⟩, rfl, rfl, rfl, rfl⟩

theorem witness_segmentEvents_1 : ∃ (s : State) (th : BitVec 6) (r : _) (rest : _), s.dev.alone th.toNat ∧ s.dev.tl.rewind =
    none ∧ s.dev.plays th.toNat (.segend, r) rest :=
  ⟨on fun d => d.modThread 63 fun x => { x with st := .run, ctx := { queue := [(.segend, 0)] } }, 63, 0, [], ⟨rfl, rfl⟩, rfl,
    ⟨⟨rfl, rfl⟩, rfl, rfl, rfl, rfl, rfl⟩⟩

theorem witness_segmentEvents_2 : ∃ (s : State) (th : BitVec 6) (seg : _), s.dev.alone th.toNat ∧ s.dev.tl.rewind = none ∧
    (s.dev.thread th.toNat).st = .dead ∧ (s.dev.thread th.toNat).ended = false ∧ (s.dev.thread th.toNat).causes = [] ∧
    (s.dev.thread th.toNat).chosen = some seg :=
  ⟨on fun d => d.modThread 63 fun x => { x with st := .dead, chosen := some 4095 }, 63, 4095, ⟨rfl, rfl⟩, rfl, rfl,
    by decide +kernel, rfl, rfl⟩

theorem witness_segmentEvents_3 : ∃ (s : State) (th : BitVec 6) (b : BitVec 2) (u : _), s.dev.alone th.toNat ∧ s.dev.tl.rewind
    = none ∧ (s.dev.seq.trig.get {} b.toNat).highUntil = some u :=
  ⟨on fun d => { d with seq := { d.seq with trig := ⟨[(3, { highUntil := some 0 })]⟩ } }, 63, 3, 0, ⟨rfl, rfl⟩, rfl, rfl⟩

theorem witness_engineEvents_0 : ∃ (s : State) (th : BitVec 6) (w : BitVec 32), s.dev.alone th.toNat ∧ s.dev.tl.rewind = none
    ∧ (s.dev.thread th.toNat).st = .run ∧ (s.dev.thread th.toNat).causes = [] ∧ (s.dev.thread th.toNat).ctx.waiting = false ∧
    (s.dev.thread th.toNat).ctx.active = true ∧ s.dev.microWord (s.dev.thread th.toNat).ctx.upc = w ∧ mop w = 0x08 ∧ mA w ≠ 0
    :=
  ⟨on fun d => (let d : Dev := d.modThread 63 fun x => { x with st := .run, ctx := { active := true, upc := 0x1FFF } };
    { d with uc := { d.uc with cust := ⟨[(0xBFF, 0x20F00000)]⟩ } }), 63, 0x20F00000, ⟨rfl, rfl⟩, rfl, rfl, rfl,
    by decide +kernel, (by decide +kernel), rfl, rfl, by decide +kernel⟩

theorem witness_engineEvents_1 : ∃ (s : State) (th : BitVec 6) (w : _), s.dev.alone th.toNat ∧ s.dev.tl.rewind = none ∧
    (s.dev.thread th.toNat).st = .run ∧ (s.dev.thread th.toNat).causes = [] ∧ (s.dev.thread th.toNat).ctx.waiting = false ∧
    (s.dev.thread th.toNat).ctx.active = true ∧ s.dev.microWord (s.dev.thread th.toNat).ctx.upc = w ∧ mop w = 0x08 ∧ mA w ≠ 0
    :=
  ⟨on fun d => (let d : Dev := d.modThread 63 fun x => { x with st := .run, ctx := { active := true, upc := 0x1FFF } };
    { d with uc := { d.uc with cust := ⟨[(0xBFF, 0x20F00000)]⟩ } }), 63, 0x20F00000, ⟨rfl, rfl⟩, rfl, rfl, rfl,
    by decide +kernel, (by decide +kernel), rfl, rfl, by decide +kernel⟩

theorem witness_engineEvents_2 : ∃ (s : State) (th : BitVec 6) (n : _) (r : _) (rest : _) (v : _), s.dev.alone th.toNat ∧
    s.dev.tl.rewind = none ∧ s.dev.plays th.toNat (.lpaus n, r) rest ∧ (s.dev.thread th.toNat).lastVec = some v :=
  ⟨on fun d => d.modThread 63 fun x => { x with st := .run, ctx := { queue := [(.lpaus 64, 0)] }, lastVec := some (0, 0) },
    63, 64, 0, [], (0, 0), ⟨rfl, rfl⟩, rfl, ⟨⟨rfl, rfl⟩, rfl, rfl, rfl, rfl, rfl⟩, rfl⟩

theorem witness_engineEvents_3 : ∃ (s : State) (th : BitVec 6) (v : _) (rest : _) (pins : _), s.dev.alone th.toNat ∧
    s.dev.tl.rewind = none ∧ (s.dev.thread th.toNat).strobes = v :: rest ∧ s.dev.canJudge th.toNat pins = true ∧ v.isMatch =
    false :=
  ⟨on fun d => d.modThread 63 fun x => { x with strobes := [{}] }, 63, {}, [], [], ⟨rfl, rfl⟩, rfl, rfl, by decide +kernel,
    (by decide +kernel)⟩

theorem witness_engineEvents_4 : ∃ (s : State) (th : BitVec 6) (line : _) (k : _), s.dev.alone th.toNat ∧ s.dev.tl.rewind =
    none ∧ s.dev.prefetchLine th.toNat = some (line, k) ∧ s.dev.portTurn (th.toNat / 4) = some th.toNat ∧ (s.dev.tile
    (th.toNat / 4) k).checked = true :=
  ⟨on fun d => (let d : Dev := (d.modThread 63 fun x => { x with st := .run }).modBank 15 fun x =>
    { x with tiles := ⟨[(1023, { valid := true, checked := true })]⟩, tlb := [(0, 1023)] };
    { d with pat := { d.pat with ptes := ⟨[(0, { valid := true })]⟩ } }), 63, 0, 1023, ⟨rfl, rfl⟩, rfl, rfl, rfl,
    by decide +kernel⟩

theorem witness_waitEvents_0 : ∃ (s : State) (th : BitVec 6) (sense : _) (clr : _) (m : _) (target : _) (r : _) (rest : _),
    s.dev.plays th.toNat (.jfail false sense clr m target, r) rest :=
  ⟨on fun d => d.modThread 63 fun x => { x with st := .run, ctx := { queue := [(.jfail false true true 0 64, 0)] } }, 63,
    true, true, 0, 64, 0, [], ⟨⟨rfl, rfl⟩, rfl, rfl, rfl, rfl, rfl⟩⟩

theorem witness_waitEvents_1 : ∃ (s : State) (th : BitVec 6) (e : _) (rest : _) (at_ : _), s.dev.plays th.toNat e rest ∧
    s.dev.matchPlace th.toNat true = some at_ :=
  ⟨on fun d => d.modThread 63 fun x =>
    { x with st := .run, ctx := { queue := [(.block .matching 0 0 4 0 0, 0)] }, matchAt := some (0, true), inBlock := 4, next := 2000 },
    63, (.block .matching 0 0 4 0 0, 0), [], 2458, ⟨⟨rfl, rfl⟩, rfl, rfl, rfl, rfl, rfl⟩, rfl⟩

theorem witness_waitEvents_2 : ∃ (s : State) (th : BitVec 6) (e : _) (rest : _) (at_ : _), s.dev.plays th.toNat e rest ∧
    s.dev.matchPlace th.toNat false = some at_ :=
  ⟨on fun d => d.modThread 63 fun x =>
    { x with st := .run, ctx := { queue := [(.block .matching 0 0 4 0 0, 0)] }, matchAt := some (0, false), inBlock := 4, next := 2000 },
    63, (.block .matching 0 0 4 0 0, 0), [], 2458, ⟨⟨rfl, rfl⟩, rfl, rfl, rfl, rfl, rfl⟩, rfl⟩

theorem witness_waitEvents_3 : ∃ (s : State) (th : BitVec 6) (off : _) (r : _) (rest : _), s.dev.plays th.toNat (.waitt off,
    r) rest ∧ (s.dev.thread th.toNat).entryStart r ≤ (s.dev.thread th.toNat).segStat.start + off :=
  ⟨on fun d => d.modThread 63 fun x => { x with st := .run, ctx := { queue := [(.waitt 0, 0)] } }, 63, 0, 0, [], ⟨⟨rfl, rfl⟩,
    rfl, rfl, rfl, rfl, rfl⟩, by decide +kernel⟩

theorem witness_waitEvents_4 : ∃ (s : State) (th : BitVec 6), s.dev.alone th.toNat ∧ s.dev.tl.rewind = none ∧ (s.dev.thread
    th.toNat).st = .run ∧ (s.dev.thread th.toNat).causes = [.host] ∧ (s.dev.thread th.toNat).ctx.queue = [] ∧ (∀ ch ∈
    s.dev.chansOf th.toNat, (s.dev.chan ch).parkHeld = false) :=
  ⟨on fun d => d.modThread 63 fun x => { x with st := .run, causes := [.host], groups := 15 }, 63, ⟨rfl, rfl⟩, rfl, rfl, rfl,
    rfl, by decide +kernel⟩

theorem witness_waitEvents_5 : ∃ (s : State) (th : BitVec 6) (tag : _) (st : _), s.dev.alone th.toNat ∧ s.dev.tl.rewind = none
    ∧ (s.dev.thread th.toNat).st = .hold ∧ (s.dev.thread th.toNat).resumeAt = some (tag, s.dev.tl.epoch, st) ∧ (s.dev.thread
    th.toNat).chosen = none :=
  ⟨on fun d => d.modThread 63 fun x => { x with st := .hold, resumeAt := some (5, 0, 0) }, 63, 5, 0, ⟨rfl, rfl⟩, rfl, rfl,
    rfl, rfl⟩

theorem witness_waitEvents_6 : ∃ (s : State) (th : BitVec 6) (g : _) (r : _), s.dev.alone th.toNat ∧ s.dev.tl.rewind = none ∧
    (s.dev.thread th.toNat).st = .underrun ∧ (s.dev.thread th.toNat).gap = some g ∧ descUrAbort ((s.dev.thread th.toNat).desc
    (s.dev.thread th.toNat).seg) = false ∧ (s.dev.thread th.toNat).residentAt = some r :=
  ⟨on fun d => d.modThread 63 fun x => { x with st := .underrun, gap := some (0, 0), residentAt := some 0 }, 63, (0, 0), 0,
    ⟨rfl, rfl⟩, rfl, rfl, rfl, by decide +kernel, rfl⟩

theorem witness_waitEvents_7 : ∃ (s : State) (th : BitVec 6) (g : _), s.dev.alone th.toNat ∧ s.dev.tl.rewind = none ∧
    (s.dev.thread th.toNat).st = .underrun ∧ (s.dev.thread th.toNat).gap = some g ∧ descUrAbort ((s.dev.thread th.toNat).desc
    (s.dev.thread th.toNat).seg) = true :=
  ⟨on fun d => d.modThread 63 fun x => { x with st := .underrun, gap := some (0, 0), descs := ⟨[(0, 0x4000000000000000)]⟩ },
    63, (0, 0), ⟨rfl, rfl⟩, rfl, rfl, rfl, by decide +kernel⟩

theorem witness_barrierEvents_0 : ∃ (s : State), s.dev.tl.rewind = none ∧ s.dev.tree.admitted = true :=
  ⟨on fun d => { d with tree := { d.tree with admitted := true } }, rfl, by decide +kernel⟩

theorem witness_barrierEvents_1 : ∃ (s : State) (b : BitVec 5) (pos : _), s.dev.tl.rewind = none ∧ s.dev.tree.admitted = false
    ∧ s.straps.isWorker = false ∧ pos ≠ s.dev.tree.position ∧ (s.dev.seq.barriers.get {} b.toNat).count ≠ 0 ∧
    (s.dev.seq.barriers.get {} b.toNat).broken = false :=
  ⟨on fun d => { d with seq := { d.seq with barriers := ⟨[(31, { count := 12352 })]⟩ } }, 31, 9, rfl, by decide +kernel,
    (by decide +kernel), by decide +kernel, (by decide +kernel), by decide +kernel⟩

theorem witness_barrierEvents_2 : ∃ (s : State) (b : BitVec 5) (f : _), s.dev.tl.rewind = none ∧ (s.dev.seq.barriers.get {}
    b.toNat).opened = some f ∧ (s.dev.seq.barriers.get {} b.toNat).timeout ≠ 0 ∧ (s.dev.seq.barriers.get {} b.toNat).broken =
    false ∧ (s.dev.seq.barriers.get {} b.toNat).release = none :=
  ⟨on fun d => { d with seq := { d.seq with barriers := ⟨[(31, { opened := some 0, timeout := 1 })]⟩ } }, 31, 0, rfl, rfl,
    by decide +kernel, (by decide +kernel), rfl⟩

theorem witness_barrierEvents_3 : ∃ (s : State) (b : BitVec 5) (th : BitVec 6) (st : _), s.dev.tl.rewind = none ∧
    (s.dev.seq.barriers.get {} b.toNat).release = some st ∧ (s.dev.seq.barriers.get {} b.toNat).broken = false ∧ s.dev.alone
    th.toNat ∧ (s.dev.thread th.toNat).st = .run ∧ (s.dev.thread th.toNat).barrier = some b ∧ (s.dev.thread th.toNat).causes =
    [] ∧ (∀ k, k ≠ th.toNat → (s.dev.thread k).barrier ≠ some b) :=
  ⟨spun, 31, 63, 0, rfl, rfl, by decide +kernel, ⟨rfl, rfl⟩, rfl, rfl, rfl, fun _ hk h => nomatch (congrArg Thread.barrier
    (spun_others hk)).symm.trans h⟩

theorem witness_microcodeCommands_0 : ∃ (s : State) (h : Hdr) (words : _) (table : _), Idle s h ∧ loadFault words table = none
    ∧ s.dev.allIdle = true :=
  ⟨ready, {}, [0x14000000], [(0xFF, 0x1400)], ⟨rfl, rfl, rfl, rfl, rfl, rfl, rfl, rfl, rfl, rfl⟩, by decide +kernel,
    (by decide +kernel)⟩

theorem witness_microcodeCommands_1 : ∃ (s : State) (h : Hdr) (words : _) (table : _) (x : _), Idle s h ∧ loadFault words
    table = some x :=
  ⟨ready, {}, [], [], (1, 0x1400), ⟨rfl, rfl, rfl, rfl, rfl, rfl, rfl, rfl, rfl, rfl⟩, rfl⟩

theorem witness_microcodeCommands_2 : ∃ (s : State) (h : Hdr), Idle s h ∧ s.dev.allIdle = true :=
  ⟨ready, {}, ⟨rfl, rfl, rfl, rfl, rfl, rfl, rfl, rfl, rfl, rfl⟩, by decide +kernel⟩

theorem witness_microcodeCommands_3 : ∃ (s : State) (h : Hdr) (first : Nat) (count : Nat), Idle s h ∧ 0x1400 ≤ first ∧ 1 ≤
    count ∧ count ≤ 256 ∧ first + count ≤ 0x2000 :=
  ⟨ready, {}, 0x1F00, 256, ⟨rfl, rfl, rfl, rfl, rfl, rfl, rfl, rfl, rfl, rfl⟩, by decide +kernel, (by decide +kernel),
    by decide +kernel, (by decide +kernel)⟩

theorem witness_microcodeCommands_4 : ∃ (s : State) (h : Hdr) (first : Nat) (count : Nat), Idle s h ∧ first < 0x1400 ∧ 1 ≤
    count ∧ count ≤ 256 :=
  ⟨ready, {}, 0x13FF, 256, ⟨rfl, rfl, rfl, rfl, rfl, rfl, rfl, rfl, rfl, rfl⟩, by decide +kernel, (by decide +kernel),
    by decide +kernel⟩

theorem witness_patternPages_0 : ∃ (s : State) (h : Hdr) (v : BitVec 36), Idle s h ∧ (s.dev.advance h.t).barred v.toNat =
    false ∧ s.dev.hasDram = true ∧ (s.dev.framesUsed [v.toNat]).length < dramFrames ∧ s.dev.mapped < s.dev.maxPages ∧
    (s.dev.pte v.toNat).valid = false ∧ (∀ b, b < 16 → s.dev.tileOf b v.toNat = none) :=
  ⟨on fun d => { d with pat := { d.pat with dram := 1 } }, {}, 0xFFFFFFFFF, ⟨rfl, rfl, rfl, rfl, rfl, rfl, rfl, rfl, rfl,
    rfl⟩, by decide +kernel, (by decide +kernel), Nat.lt_of_lt_of_le (by decide : 0 < 376832) (by unfold dramFrames; omega),
    by decide +kernel, (by decide +kernel), by decide +kernel⟩

theorem witness_patternPages_1 : ∃ (s : State) (h : Hdr) (v : BitVec 36), Idle s h ∧ (s.dev.advance h.t).barred v.toNat =
    false :=
  ⟨ready, {}, 0xFFFFFFFFF, ⟨rfl, rfl, rfl, rfl, rfl, rfl, rfl, rfl, rfl, rfl⟩, by decide +kernel⟩

theorem witness_patternPages_2 : ∃ (s : State) (h : Hdr) (v : BitVec 36) (x : PageData), Idle s h ∧ (s.dev.advance h.t).barred
    v.toNat = false ∧ (s.dev.pte v.toNat).valid = true ∧ (s.dev.pte v.toNat).tier = 1 ∧ x.words.length = 512 ∧ crc32c
    (wordBytes x.words) = x.crc :=
  ⟨on fun d => { d with pat := { d.pat with ptes := ⟨[(0xFFFFFFFFF, { valid := true, tier := 1 })]⟩ } }, {}, 0xFFFFFFFFF,
    { words := List.replicate 512 0, crc := crc32c (wordBytes (List.replicate 512 0)) }, ⟨rfl, rfl, rfl, rfl, rfl, rfl, rfl,
    rfl, rfl, rfl⟩, by decide +kernel, (by decide +kernel), rfl, List.length_replicate .., rfl⟩

theorem witness_patternPages_3 : ∃ (s : State) (h : Hdr) (v : BitVec 36), Idle s h ∧ (s.dev.advance h.t).barred v.toNat = true
    :=
  ⟨on fun d => { d with pat := { d.pat with waiting := [(63, 0xFFFFFFFFF)] } }, {}, 0xFFFFFFFFF, ⟨rfl, rfl, rfl, rfl, rfl,
    rfl, rfl, rfl, rfl, rfl⟩, by decide +kernel⟩

theorem witness_patternPages_4 : ∃ (s : State) (h : Hdr) (v : BitVec 36), Idle s h ∧ (s.dev.pte v.toNat).valid = true ∧
    (s.dev.pte v.toNat).tier = 1 :=
  ⟨on fun d => { d with pat := { d.pat with ptes := ⟨[(0xFFFFFFFFF, { valid := true, tier := 1 })]⟩ } }, {}, 0xFFFFFFFFF,
    ⟨rfl, rfl, rfl, rfl, rfl, rfl, rfl, rfl, rfl, rfl⟩, by decide +kernel, rfl⟩

theorem witness_patternResidency_0 : ∃ (s : State) (h : Hdr) (v : BitVec 36) (b : BitVec 4), Idle s h ∧ s.dev.resident b.toNat
    v.toNat = false ∧ s.dev.pat.queue = [] ∧ s.dev.pat.prefetches = [] ∧ s.dev.pat.fill = none :=
  ⟨ready, {}, 0xFFFFFFFFF, 15, ⟨rfl, rfl, rfl, rfl, rfl, rfl, rfl, rfl, rfl, rfl⟩, by decide +kernel, rfl, rfl, rfl⟩

theorem witness_patternResidency_1 : ∃ (s : State) (h : Hdr) (v : BitVec 36) (b : BitVec 4), Idle s h ∧ s.dev.resident b.toNat
    v.toNat = true :=
  ⟨on fun d => (let d : Dev := d.modBank 15 fun x => { x with tiles := ⟨[(1023, { valid := true, vpn := 0xFFFFFFFFF })]⟩ };
    { d with pat := { d.pat with ptes := ⟨[(0xFFFFFFFFF, { valid := true, tier := 1 })]⟩ } }), {}, 0xFFFFFFFFF, 15, ⟨rfl, rfl,
    rfl, rfl, rfl, rfl, rfl, rfl, rfl, rfl⟩, by decide +kernel⟩

theorem witness_patternResidency_2 : ∃ (s : State) (h : Hdr) (v : BitVec 36) (b : BitVec 4), Idle s h ∧ s.dev.resident b.toNat
    v.toNat = true ∧ 65 ≤ s.dev.unpinned b.toNat :=
  ⟨on fun d => (let d : Dev := d.modBank 15 fun x => { x with tiles := ⟨[(1023, { valid := true, vpn := 0xFFFFFFFFF })]⟩ };
    { d with pat := { d.pat with ptes := ⟨[(0xFFFFFFFFF, { valid := true, tier := 1 })]⟩ } }), {}, 0xFFFFFFFFF, 15, ⟨rfl, rfl,
    rfl, rfl, rfl, rfl, rfl, rfl, rfl, rfl⟩, by decide +kernel, (by decide +kernel)⟩

theorem witness_patternResidency_3 : ∃ (s : State) (h : Hdr) (v : BitVec 36) (b : BitVec 4) (k : _), Idle s h ∧ (s.dev.advance
    h.t).barred v.toNat = false ∧ (s.dev.pte v.toNat).pin = 0 ∧ (s.dev.pte v.toNat).tier ≠ 0 ∧ s.dev.tileOf b.toNat v.toNat =
    some k :=
  ⟨on fun d => (let d : Dev := d.modBank 15 fun x => { x with tiles := ⟨[(1023, { valid := true, vpn := 0xFFFFFFFFF })]⟩ };
    { d with pat := { d.pat with ptes := ⟨[(0xFFFFFFFFF, { valid := true, tier := 1 })]⟩ } }), {}, 0xFFFFFFFFF, 15, 1023,
    ⟨rfl, rfl, rfl, rfl, rfl, rfl, rfl, rfl, rfl, rfl⟩, by decide +kernel, rfl, by decide +kernel, rfl⟩

theorem witness_patternResidency_4 : ∃ (s : State) (h : Hdr) (depth : _), Idle s h ∧ depth ≤ 64 :=
  ⟨ready, {}, 64, ⟨rfl, rfl, rfl, rfl, rfl, rfl, rfl, rfl, rfl, rfl⟩, by decide +kernel⟩

theorem witness_pagingEvents_0 : ∃ (s : State) (th : BitVec 6) (v : BitVec 36), s.dev.tl.rewind = none ∧ s.dev.pat.waiting =
    [] ∧ s.dev.pat.prefetches = [] ∧ s.dev.fc.decaf = none ∧ s.dev.pat.fill = none ∧ s.dev.pat.outside = [] ∧ s.dev.pat.queue
    = [] ∧ (s.dev.window th.toNat).contains v.toNat = true ∧ s.dev.resident (th.toNat / 4) v.toNat = false :=
  ⟨on fun d => d.modThread 63 fun x => { x with st := .armed }, 63, 0, rfl, rfl, rfl, rfl, rfl, rfl, rfl, by decide +kernel,
    (by decide +kernel)⟩

theorem witness_pagingEvents_1 : ∃ (s : State) (f : _) (k : _), s.dev.tl.rewind = none ∧ s.dev.pat.waiting = [] ∧
    s.dev.pat.prefetches = [] ∧ s.dev.fc.decaf = none ∧ s.dev.pat.fill = none ∧ s.dev.pat.outside = [] ∧ s.dev.pat.queue = [f]
    ∧ (s.dev.pte f.vpn).valid = true ∧ (s.dev.pte f.vpn).bad = false ∧ (s.dev.pte f.vpn).tier = 1 ∧ s.dev.resident
    f.bank.toNat f.vpn = false ∧ s.dev.chooseTile f.bank.toNat = some k :=
  ⟨on fun d => (let d : Dev := { d with pat := { d.pat with ptes := ⟨[(0xFFFFFFFFF, { valid := true, tier := 1 })]⟩ } };
    { d with pat := { d.pat with queue := [{ vpn := 0xFFFFFFFFF, bank := 15 }] } }), { vpn := 0xFFFFFFFFF, bank := 15 }, 0,
    rfl, rfl, rfl, rfl, rfl, rfl, rfl, by decide +kernel, (by decide +kernel), rfl, by decide +kernel, (by decide +kernel)⟩

theorem witness_pagingEvents_2 : ∃ (s : State) (f : _), s.dev.tl.rewind = none ∧ s.dev.pat.waiting = [] ∧ s.dev.pat.prefetches
    = [] ∧ s.dev.pat.fill = some f ∧ f.granule < 64 ∧ f.suspended = false ∧ (s.dev.pte f.vpn).tier = 1 :=
  ⟨on fun d =>
    { d with pat := { d.pat with fill := some { vpn := 0xFFFFFFFFF, granule := 63 }, ptes := ⟨[(0xFFFFFFFFF, { valid := true, tier := 1 })]⟩ } },
    { vpn := 0xFFFFFFFFF, granule := 63 }, rfl, rfl, rfl, rfl, by decide +kernel, (by decide +kernel), rfl⟩

theorem witness_pagingEvents_3 : ∃ (s : State) (f : _), s.dev.tl.rewind = none ∧ s.dev.pat.waiting = [] ∧ s.dev.pat.prefetches
    = [] ∧ s.dev.pat.fill = some f :=
  ⟨on fun d =>
    { d with pat := { d.pat with fill := some { vpn := 0xFFFFFFFFF, suspended := true }, ptes := ⟨[(0xFFFFFFFFF, { valid := true, tier := 1 })]⟩ } },
    { vpn := 0xFFFFFFFFF, suspended := true }, rfl, rfl, rfl, rfl⟩

theorem witness_pagingEvents_4 : ∃ (s : State) (f : _) (b : _) (k : _), s.dev.tl.rewind = none ∧ s.dev.pat.waiting = [] ∧
    s.dev.pat.prefetches = [] ∧ s.dev.pat.fill = some f ∧ f.granule = 64 ∧ f.suspended = false ∧ f.tiles = [(b, k)] ∧
    (s.dev.pte f.vpn).valid = true ∧ (s.dev.pte f.vpn).gen = f.gen ∧ ~~~ f.crc = f.want :=
  ⟨on fun d =>
    { d with pat := { d.pat with fill := some { vpn := 0xFFFFFFFFF, granule := 64, tiles := [(15, 1023)], want := 0xFFFFFFFF }, ptes := ⟨[(0xFFFFFFFFF, { valid := true, tier := 1 })]⟩ } },
    { vpn := 0xFFFFFFFFF, granule := 64, tiles := [(15, 1023)], want := 0xFFFFFFFF }, 15, 1023, rfl, rfl, rfl, rfl, rfl,
    by decide +kernel, rfl, by decide +kernel, rfl, rfl⟩

theorem witness_pagingEvents_5 : ∃ (s : State) (b : BitVec 4) (k : _) (at_ : _), s.dev.tl.rewind = none ∧ s.dev.pat.waiting =
    [] ∧ s.dev.pat.prefetches = [] ∧ (s.dev.bank b.toNat).checking = some (k, at_) ∧ s.dev.pat.refilled = [] ∧ pageCrc
    (s.dev.tile b.toNat k).data = (s.dev.tile b.toNat k).crc :=
  ⟨on fun d => d.modBank 15 fun x => { x with checking := some (1023, 0), tiles := ⟨[(1023, { crc := pageCrc .empty })]⟩ },
    15, 1023, 0, rfl, rfl, rfl, rfl, rfl, rfl⟩

theorem witness_pagingEvents_6 : ∃ (s : State) (b : BitVec 4) (k : _) (at_ : _), s.dev.tl.rewind = none ∧ s.dev.pat.waiting =
    [] ∧ s.dev.pat.prefetches = [] ∧ (s.dev.bank b.toNat).checking = some (k, at_) ∧ s.dev.pat.refilled = [] :=
  ⟨on fun d => d.modBank 15 fun x => { x with checking := some (1023, 0) }, 15, 1023, 0, rfl, rfl, rfl, rfl, rfl⟩

theorem witness_pagingEvents_7 : ∃ (s : State) (b : BitVec 4) (v : BitVec 36) (k : _), s.dev.tl.rewind = none ∧
    s.dev.pat.waiting = [] ∧ s.dev.pat.prefetches = [] ∧ s.dev.resident b.toNat v.toNat = true ∧ s.dev.tileOf b.toNat v.toNat
    = some k :=
  ⟨on fun d => (let d : Dev := d.modBank 15 fun x => { x with tiles := ⟨[(1023, { valid := true, vpn := 0xFFFFFFFFF })]⟩ };
    { d with pat := { d.pat with ptes := ⟨[(0xFFFFFFFFF, { valid := true, tier := 1 })]⟩ } }), 15, 0xFFFFFFFFF, 1023, rfl,
    rfl, rfl, by decide +kernel, rfl⟩

theorem witness_ringSetup_0 : ∃ (s : State) (h : Hdr) (b : BitVec 4) (r : BitVec 3) (base : Nat) (length : Nat) (owner :
    OwnerArg), Idle s h ∧ (s.dev.ring b.toNat r.toNat).armed = false ∧ (s.dev.ring b.toNat r.toNat).len = 0 ∧ 64 ≤ length ∧
    base + length ≤ 32768 ∧ (∀ t, owner = .thread t → t.toNat / 4 = b.toNat) ∧ (∀ k, k < 8 → k ≠ r.toNat → (s.dev.ring b.toNat
    k).len = 0 ∨ base + length ≤ (s.dev.ring b.toNat k).base ∨ (s.dev.ring b.toNat k).base + max (s.dev.ring b.toNat k).len
    ((s.dev.ring b.toNat k).pendLen.getD 0) ≤ base) :=
  ⟨on fun d => d.modRing 15 6 fun x => { x with len := 32704, pendLen := some 64 }, {}, 15, 7, 32704, 64, .thread 63, ⟨rfl,
    rfl, rfl, rfl, rfl, rfl, rfl, rfl, rfl, rfl⟩, by decide +kernel, rfl, by decide +kernel, (by decide +kernel),
    fun t e => by cases e; decide, by decide +kernel⟩

theorem witness_ringSetup_1 : ∃ (s : State) (h : Hdr) (b : BitVec 4) (r : BitVec 3) (owner : OwnerArg), Idle s h ∧ (s.dev.ring
    b.toNat r.toNat).armed = false ∧ (s.dev.ring b.toNat r.toNat).owner = some (capOwner owner) ∧ (s.dev.ring b.toNat
    r.toNat).reads = [] :=
  ⟨on fun d => d.modRing 15 7 fun x => { x with len := 64, owner := some .host }, {}, 15, 7, .host, ⟨rfl, rfl, rfl, rfl, rfl,
    rfl, rfl, rfl, rfl, rfl⟩, by decide +kernel, rfl, rfl⟩

theorem witness_ringSetup_2 : ∃ (s : State) (h : Hdr) (b : BitVec 4) (r : BitVec 3) (src : BitVec 2) (pre : _) (post : _) (mc
    : BitVec 5) (mh : BitVec 16), Idle s h ∧ (s.dev.ring b.toNat r.toNat).armed = false ∧ (s.dev.ring b.toNat r.toNat).len ≠ 0
    ∧ src ≠ 3 ∧ (src = 2 ∨ ∃ t, (s.dev.ring b.toNat r.toNat).owner = some (.thread t)) ∧ pre < s.dev.slotsAt (s.dev.ring
    b.toNat r.toNat) src ∧ 1 ≤ post ∧ post < 2 ^ 32 ∧ (src = 1 → mc.toNat < (s.dev.ringChans (s.dev.ring b.toNat
    r.toNat)).length) ∧ mh.toNat ≤ 4095 :=
  ⟨on fun d => (d.modRing 15 7 fun x => { x with len := 64, owner := some (.thread 63) }).modThread 63 fun x =>
    { x with groups := 8 }, {}, 15, 7, 1, 2047, 2 ^ 32 - 1, 7, 4095, ⟨rfl, rfl, rfl, rfl, rfl, rfl, rfl, rfl, rfl, rfl⟩,
    by decide +kernel, (by decide +kernel), by decide +kernel, Or.inr ⟨63, rfl⟩, by decide +kernel, (by decide +kernel),
    by decide +kernel, (by decide +kernel), by decide +kernel⟩

theorem witness_ringSetup_3 : ∃ (s : State) (h : Hdr) (b : BitVec 4) (r : BitVec 3) (conds : List (BitVec 32)) (w : _) (action
    : BitVec 32), Idle s h ∧ (s.dev.ring b.toNat r.toNat).armed = false ∧ conds.length = 8 ∧ (∀ c ∈ conds, s.dev.condBad
    (s.dev.ring b.toNat r.toNat) c = false) ∧ action.toNat < 2 ^ 17 ∧ ((s.dev.ring b.toNat r.toNat).owner = some .host →
    action.getLsbD 0 = false) ∧ (∀ e ∈ edgeConds conds, (s.dev.chan (32 * b.toNat + e.1)).noSlice = false ∧ ((s.dev.sliceTdc
    b.toNat e.1).owner = .none ∨ (s.dev.sliceTdc b.toNat e.1).owner = .ring r) ∧ ∀ f ∈ edgeConds conds, f.1 = e.1 → f.2 = e.2)
    ∧ (∀ x, (s.dev.advance h.t).schedule w clk true = .error x → x ≠ stBadarg) ∧ (conds.filter fun c => condKind c == 7) = []
    :=
  ⟨on fun d => d.modRing 15 7 fun x => { x with len := 64, owner := some .host }, {}, 15, 7, [8, 0x7F5, 0, 0, 0, 0, 0, 0],
    soon, 0x12000, ⟨rfl, rfl, rfl, rfl, rfl, rfl, rfl, rfl, rfl, rfl⟩, by decide +kernel, rfl,
    by simp only [List.forall_mem_cons, List.not_mem_nil, false_imp_iff, implies_true]; decide +kernel, by decide +kernel, fun
    _ => by decide +kernel, (by decide +kernel), by decide +kernel, rfl⟩

theorem witness_ringSetup_4 : ∃ (s : State) (h : Hdr) (b : BitVec 4) (r : BitVec 3) (conds : List (BitVec 32)) (w : _) (action
    : BitVec 32) (e : _) (st : _) (late : _), Idle s h ∧ (s.dev.ring b.toNat r.toNat).armed = false ∧ conds.length = 8 ∧ (∀ c
    ∈ conds, s.dev.condBad (s.dev.ring b.toNat r.toNat) c = false) ∧ action.toNat < 2 ^ 17 ∧ ((s.dev.ring b.toNat
    r.toNat).owner = some .host → action.getLsbD 0 = false) ∧ (∀ e ∈ edgeConds conds, (s.dev.chan (32 * b.toNat +
    e.1)).noSlice = false ∧ ((s.dev.sliceTdc b.toNat e.1).owner = .none ∨ (s.dev.sliceTdc b.toNat e.1).owner = .ring r) ∧ ∀ f
    ∈ edgeConds conds, f.1 = e.1 → f.2 = e.2) ∧ (∀ x, (s.dev.advance h.t).schedule w clk true = .error x → x ≠ stBadarg) ∧
    (conds.filter fun c => condKind c == 7).length = 1 ∧ (s.dev.advance h.t).schedule w clk true = .ok (e, st, late) :=
  ⟨on fun d => d.modRing 15 7 fun x => { x with len := 64, owner := some .host }, {}, 15, 7, [8, 0x7F5, 0, 0, 0, 0, 0, 7],
    soon, 0x12000, 0, 1048576, false, ⟨rfl, rfl, rfl, rfl, rfl, rfl, rfl, rfl, rfl, rfl⟩, by decide +kernel, rfl,
    by simp only [List.forall_mem_cons, List.not_mem_nil, false_imp_iff, implies_true]; decide +kernel, by decide +kernel, fun
    _ => by decide +kernel, (by decide +kernel), by decide +kernel, rfl, by decide +kernel⟩

theorem witness_ringRecords_0 : ∃ (s : State) (b : BitVec 4) (r : BitVec 3) (g : Ring) (h : Hdr) (w : _) (e : _) (st : _)
    (late : _), s.dev.ring b.toNat r.toNat = g ∧ Idle s h ∧ g.armed = false ∧ g.len ≠ 0 ∧ g.configured = true ∧ g.pre <
    s.dev.slotsAt g g.src ∧ (∀ c ∈ edgeConds g.conds, (s.dev.sliceTdc b.toNat c.1).owner = .none) ∧ (s.dev.advance
    h.t).schedule w clk true = .ok (e, st, late) :=
  ⟨on fun d => d.modRing 15 7 fun x => { x with len := 64, configured := true, src := 2, pre := 2047 }, 15, 7,
    { len := 64, configured := true, src := 2, pre := 2047 }, {}, soon, 0, 1048576, false, rfl, ⟨rfl, rfl, rfl, rfl, rfl, rfl,
    rfl, rfl, rfl, rfl⟩, by decide +kernel, (by decide +kernel), by decide +kernel, (by decide +kernel), by decide +kernel,
    (by decide +kernel)⟩

theorem witness_ringRecords_1 : ∃ (s : State) (b : BitVec 4) (r : BitVec 3) (g : Ring), s.dev.ring b.toNat r.toNat = g ∧
    s.dev.tl.rewind = none ∧ g.armed = true ∧ g.running = false ∧ g.epoch = s.dev.tl.epoch :=
  ⟨on fun d => d.modRing 15 7 fun x => { x with armed := true }, 15, 7, { armed := true }, rfl, rfl, by decide +kernel,
    (by decide +kernel), rfl⟩

theorem witness_ringRecords_2 : ∃ (s : State) (b : BitVec 4) (r : BitVec 3) (g : Ring) (k : _) (z : _), s.dev.ring b.toNat
    r.toNat = g ∧ s.dev.tl.rewind = none ∧ g.cur = some k ∧ g.lastEnd = some z ∧ k.closing = false ∧ k.post ≤ k.got :=
  ⟨on fun d => d.modRing 15 7 fun x => { x with cur := some {}, lastEnd := some 0 }, 15, 7,
    { cur := some {}, lastEnd := some 0 }, {}, 0, rfl, rfl, rfl, rfl, by decide +kernel, (by decide +kernel)⟩

theorem witness_ringRecords_3 : ∃ (s : State) (b : BitVec 4) (r : BitVec 3) (g : Ring) (k : _), s.dev.ring b.toNat r.toNat = g
    ∧ s.dev.tl.rewind = none ∧ g.cur = some k ∧ k.closing = true :=
  ⟨on fun d => d.modRing 15 7 fun x => { x with cur := some { closing := true } }, 15, 7, { cur := some { closing := true } },
    { closing := true }, rfl, rfl, rfl, by decide +kernel⟩

theorem witness_ringRecords_4 : ∃ (s : State) (b : BitVec 4) (r : BitVec 3) (g : Ring) (h : Hdr), s.dev.ring b.toNat r.toNat =
    g ∧ Idle s h ∧ g.armed = true ∧ g.cur = none ∧ g.armTag ≠ h.tag ∧ (s.dev.lane b.toNat).run = none :=
  ⟨on fun d => d.modRing 15 7 fun x => { x with armed := true, armTag := 5 }, 15, 7, { armed := true, armTag := 5 }, {}, rfl,
    ⟨rfl, rfl, rfl, rfl, rfl, rfl, rfl, rfl, rfl, rfl⟩, by decide +kernel, rfl, by decide +kernel, rfl⟩

theorem witness_ringRecords_5 : ∃ (s : State) (b : BitVec 4) (r : BitVec 3) (g : Ring) (h : Hdr), s.dev.ring b.toNat r.toNat =
    g ∧ Idle s h ∧ g.armed = false :=
  ⟨on fun d => d.modRing 15 7 fun x => { x with len := 64 }, 15, 7, { len := 64 }, {}, rfl, ⟨rfl, rfl, rfl, rfl, rfl, rfl,
    rfl, rfl, rfl, rfl⟩, by decide +kernel⟩

theorem witness_ringRecords_6 : ∃ (s : State) (b : BitVec 4) (r : BitVec 3) (g : Ring) (h : Hdr) (n : _), s.dev.ring b.toNat
    r.toNat = g ∧ Idle s h ∧ g.len ≠ 0 ∧ g.configured = true ∧ g.drain = false ∧ g.reads = [] ∧ (n = 0 ∨ g.closed = []) :=
  ⟨on fun d => d.modRing 15 7 fun x => { x with len := 64, configured := true }, 15, 7, { len := 64, configured := true }, {},
    1, rfl, ⟨rfl, rfl, rfl, rfl, rfl, rfl, rfl, rfl, rfl, rfl⟩, by decide +kernel, (by decide +kernel), by decide +kernel, rfl,
    by decide +kernel⟩

theorem witness_ringRecords_7 : ∃ (s : State) (b : BitVec 4) (r : BitVec 3) (g : Ring) (h : Hdr) (n : _) (k : _) (p : _),
    s.dev.ring b.toNat r.toNat = g ∧ Idle s h ∧ g.len ≠ 0 ∧ g.configured = true ∧ g.drain = false ∧ g.reads = [] ∧ 1 ≤ n ∧
    g.closed = [k] ∧ k.parts = [p] ∧ 0 < p.count ∧ p.slot % g.perLine + p.count ≤ 31 * g.perLine ∧ s.dev.carafeLoad + 251 ≤
    16384 :=
  ⟨on fun d => d.modRing 15 7 fun x => { x with len := 64, configured := true, closed := [{ parts := [{ count := 31 }] }] },
    15, 7, { len := 64, configured := true, closed := [{ parts := [{ count := 31 }] }] }, {}, 65535,
    { parts := [{ count := 31 }] }, { count := 31 }, rfl, ⟨rfl, rfl, rfl, rfl, rfl, rfl, rfl, rfl, rfl, rfl⟩,
    by decide +kernel, (by decide +kernel), by decide +kernel, rfl, by decide +kernel, rfl, rfl, by decide +kernel,
    (by decide +kernel), by decide +kernel⟩

theorem witness_ringRecords_8 : ∃ (s : State) (b : BitVec 4) (r : BitVec 3) (g : Ring) (stamp : _) (src : _) (n : _) (rest :
    _), s.dev.ring b.toNat r.toNat = g ∧ g.actions = (stamp, src, n) :: rest ∧ g.action.getLsbD 0 = false :=
  ⟨on fun d => d.modRing 15 7 fun x => { x with actions := [(0, 7, 0)], action := 0x2000 }, 15, 7,
    { actions := [(0, 7, 0)], action := 0x2000 }, 0, 7, 0, [], rfl, rfl, by decide +kernel⟩

theorem witness_captureCommands_0 : ∃ (s : State) (h : Hdr) (w : _) (e : _) (st : _) (late : _), Idle s h ∧ (s.dev.advance
    h.t).schedule w clk true = .ok (e, st, late) ∧ e = s.dev.tl.epoch :=
  ⟨ready, {}, soon, 0, 1048576, false, ⟨rfl, rfl, rfl, rfl, rfl, rfl, rfl, rfl, rfl, rfl⟩, by decide +kernel, rfl⟩

theorem witness_captureCommands_1 : ∃ (s : State) (h : Hdr) (m : BitVec 64) (limit : _), Idle s h ∧ limit ≤ 1024 ∧ (∀ k ∈
    members m, s.dev.notLead k = false ∧ (s.dev.thread k).st = .idle) :=
  ⟨on fun d => d.modThread 63 fun x => { x with groups := 15 }, {}, 1#64 <<< 63, 1024, ⟨rfl, rfl, rfl, rfl, rfl, rfl, rfl,
    rfl, rfl, rfl⟩, by decide +kernel, (by decide +kernel)⟩

theorem witness_captureCommands_3 : ∃ (s : State) (h : Hdr), Idle s h ∧ s.straps.isWorker = true :=
  ⟨inRole 2 ready, {}, ⟨rfl, rfl, rfl, rfl, rfl, rfl, rfl, rfl, rfl, rfl⟩, by decide +kernel⟩

theorem witness_captureCommands_4 : ∃ (s : State) (h : Hdr) (l : BitVec 2) (w : _) (e : _) (st : _) (late : _), Idle s h ∧
    s.straps.isWorker = false ∧ (s.dev.advance h.t).schedule w 1 true = .ok (e, st, late) ∧ e = s.dev.tl.epoch ∧ (s.dev.xt
    l.toNat).armed = false :=
  ⟨ready, {}, 3, soon, 0, 1048576, false, ⟨rfl, rfl, rfl, rfl, rfl, rfl, rfl, rfl, rfl, rfl⟩, by decide +kernel,
    (by decide +kernel), rfl, by decide +kernel⟩

theorem witness_captureCommands_5 : ∃ (s : State) (h : Hdr) (w : _) (e : _) (st : _) (late : _), Idle s h ∧ s.straps.isWorker
    = false ∧ (s.dev.advance h.t).schedule w 1 true = .ok (e, st, late) ∧ e = s.dev.tl.epoch :=
  ⟨ready, {}, soon, 0, 1048576, false, ⟨rfl, rfl, rfl, rfl, rfl, rfl, rfl, rfl, rfl, rfl⟩, by decide +kernel,
    (by decide +kernel), rfl⟩

theorem witness_captureCommands_7 : ∃ (s : State) (h : Hdr) (p : BitVec 17), Idle s h ∧ p ≠ 0 :=
  ⟨ready, {}, 0x10000, ⟨rfl, rfl, rfl, rfl, rfl, rfl, rfl, rfl, rfl, rfl⟩, by decide +kernel⟩

theorem witness_triggersAndCarafe_0 : ∃ (s : State), s.dev.tree.admitted = true :=
  ⟨on fun d => { d with tree := { d.tree with admitted := true } }, by decide +kernel⟩

theorem witness_triggersAndCarafe_1 : ∃ (s : State) (l : BitVec 2) (n : _) (stamp : _), s.dev.tree.admitted = false ∧
    s.straps.isWorker = false ∧ (s.dev.xt l.toNat).action = none ∧ (s.dev.xt l.toNat).window = none ∧ (s.dev.advance
    n).lineArmed l.toNat stamp = true :=
  ⟨on fun d => { d with cap := { d.cap with xt := ⟨[(3, { armed := true })]⟩ } }, 3, 0, 0, by decide +kernel,
    (by decide +kernel), rfl, rfl, by decide +kernel⟩

theorem witness_triggersAndCarafe_2 : ∃ (s : State) (l : BitVec 2) (n : _) (stamp : _), s.dev.tree.admitted = false ∧
    s.straps.isWorker = false ∧ (s.dev.xt l.toNat).action = none ∧ (s.dev.xt l.toNat).window = none ∧ (s.dev.advance
    n).lineArmed l.toNat stamp = false :=
  ⟨on fun d => { d with cap := { d.cap with xt := ⟨[(3, { armed := true, effAt := 1 })]⟩ } }, 3, 0, 0, by decide +kernel,
    (by decide +kernel), rfl, rfl, by decide +kernel⟩

theorem witness_triggersAndCarafe_3 : ∃ (s : State) (l : BitVec 2) (z : _), s.dev.tl.rewind = none ∧ (s.dev.xt l.toNat).window
    = some z ∧ (s.dev.xt l.toNat).cands ≠ [] :=
  ⟨on fun d => { d with cap := { d.cap with xt := ⟨[(3, { window := some 0, cands := [(5, 1, 0), (5, 0, 7)] })]⟩ } }, 3, 0,
    rfl, rfl, by decide +kernel⟩

theorem witness_triggersAndCarafe_4 : ∃ (s : State), s.straps.isWorker = true :=
  ⟨inRole 2 ready, by decide +kernel⟩

theorem witness_triggersAndCarafe_5 : ∃ (s : State) (l : BitVec 2) (a : _) (pos : _) (merged : _), s.dev.tl.rewind = none ∧
    (s.dev.xt l.toNat).action = some (a, pos, merged) :=
  ⟨on fun d => { d with cap := { d.cap with xt := ⟨[(3, { armed := true, action := some (0, 9, 1) })]⟩ } }, 3, 0, 9, 1, rfl,
    rfl⟩

theorem witness_triggersAndCarafe_6 : ∃ (s : State) (k : _) (ks : _), s.dev.cap.carafe = k :: ks ∧ s.dev.ctl.dmaPacket = none
    ∧ (s.dev.tree.admitted = true ∨ s.dev.ctl.resRoom (8 * k.len) = true) :=
  ⟨on fun d => (let d : Dev := { d with cap := { d.cap with carafe := [{}] } };
    { d with tree := { d.tree with admitted := true } }), {}, [], rfl, rfl, by decide +kernel⟩

theorem witness_triggersAndCarafe_7 : ∃ (s : State) (p : _), p ≤ 16 ∧ s.dev.cap.lossOwed.get 0 p ≠ 0 ∧ s.dev.cap.stagingFill p
    + 3 ≤ 512 :=
  ⟨on fun d => { d with cap := { d.cap with lossOwed := ⟨[(16, 1)]⟩ } }, 16, by decide +kernel, (by decide +kernel),
    by decide +kernel⟩

theorem witness_triggersAndCarafe_8 : ∃ (s : State) (p : _), p ≤ 16 ∧ s.dev.cap.flush.getLsbD p = true :=
  ⟨on fun d => { d with cap := { d.cap with flush := 0x10000 } }, 16, by decide +kernel, (by decide +kernel)⟩

theorem witness_triggersAndCarafe_9 : ∃ (s : State) (on : _), s.straps.isWorker = false ∧ s.dev.cap.flowIn = !on ∧ (on = true
    ∨ s.dev.cap.fifoHi = false ∧ s.dev.cap.gates = []) :=
  ⟨on fun d => { d with cap := { d.cap with flowIn := true } }, false, by decide +kernel, rfl, by decide +kernel⟩

theorem witness_triggersAndCarafe_10 : ∃ (s : State) (tag : BitVec 12) (g : _), s.dev.tl.rewind = none ∧
    (s.dev.cap.gates.find? fun g => g.tag == tag) = some g ∧ g.decided = false :=
  ⟨on fun d => { d with cap := { d.cap with gates := [{ tag := 5 }] } }, 5, { tag := 5 }, rfl, rfl, by decide +kernel⟩

theorem witness_dspCommands_0 : ∃ (s : State) (h : Hdr) (b : BitVec 4) (o : _), Idle s h ∧ (s.dev.lane b.toNat).absent = false
    ∧ ((s.dev.lane b.toNat).owner = none ∨ (s.dev.lane b.toNat).owner = some (capOwner o)) ∧ (∀ t, o = .thread t → t.toNat / 4
    = b.toNat) :=
  ⟨ready, {}, 15, .thread 63, ⟨rfl, rfl, rfl, rfl, rfl, rfl, rfl, rfl, rfl, rfl⟩, by decide +kernel, (by decide +kernel),
    fun t e => by cases e; decide⟩

theorem witness_dspCommands_1 : ∃ (s : State) (h : Hdr) (b : BitVec 4), Idle s h ∧ (s.dev.lane b.toNat).absent = true :=
  ⟨on fun d => d.modLane 15 fun x => { x with absent := true }, {}, 15, ⟨rfl, rfl, rfl, rfl, rfl, rfl, rfl, rfl, rfl, rfl⟩,
    by decide +kernel⟩

theorem witness_dspCommands_2 : ∃ (s : State) (h : Hdr) (b : BitVec 4), Idle s h ∧ (s.dev.lane b.toNat).absent = false ∧
    (s.dev.lane b.toNat).run = none :=
  ⟨ready, {}, 15, ⟨rfl, rfl, rfl, rfl, rfl, rfl, rfl, rfl, rfl, rfl⟩, by decide +kernel, rfl⟩

theorem witness_dspCommands_3 : ∃ (s : State) (h : Hdr) (words : List (BitVec 64)) (table : _), Idle s h ∧ (∀ k, k < 16 →
    (s.dev.lane k).run = none) ∧ kernelImageGood words table = true :=
  ⟨ready, {}, [0x4800000000000000], [(0x40, 1024)], ⟨rfl, rfl, rfl, rfl, rfl, rfl, rfl, rfl, rfl, rfl⟩, by decide +kernel,
    (by decide +kernel)⟩

theorem witness_dspCommands_4 : ∃ (s : State) (h : Hdr) (words : List (BitVec 64)) (table : _), Idle s h ∧ (∀ k, k < 16 →
    (s.dev.lane k).run = none) ∧ kernelImageGood words table = false :=
  ⟨ready, {}, [], [], ⟨rfl, rfl, rfl, rfl, rfl, rfl, rfl, rfl, rfl, rfl⟩, by decide +kernel, (by decide +kernel)⟩

theorem witness_dspCommands_5 : ∃ (s : State) (h : Hdr) (b : BitVec 4) (first : Nat) (words : List (BitVec 48)), Idle s h ∧
    first + words.length ≤ 8192 ∧ s.dev.laneBusy b.toNat = false :=
  ⟨ready, {}, 15, 8191, [0], ⟨rfl, rfl, rfl, rfl, rfl, rfl, rfl, rfl, rfl, rfl⟩, by decide +kernel, (by decide +kernel)⟩

theorem witness_dspCommands_6 : ∃ (s : State) (h : Hdr) (b : BitVec 4) (first : Nat) (words : List (BitVec 48)), Idle s h ∧
    first + words.length ≤ 8192 ∧ s.dev.laneBusy b.toNat = false :=
  ⟨ready, {}, 15, 8191, [0], ⟨rfl, rfl, rfl, rfl, rfl, rfl, rfl, rfl, rfl, rfl⟩, by decide +kernel, (by decide +kernel)⟩

theorem witness_dspCommands_7 : ∃ (s : State) (h : Hdr) (b : BitVec 4) (first : Nat) (count : Nat), Idle s h ∧ 1 ≤ count ∧
    first + count ≤ 8192 ∧ s.dev.laneBusy b.toNat = false :=
  ⟨ready, {}, 15, 0, 8192, ⟨rfl, rfl, rfl, rfl, rfl, rfl, rfl, rfl, rfl, rfl⟩, by decide +kernel, (by decide +kernel),
    by decide +kernel⟩

theorem witness_dspCommands_8 : ∃ (s : State) (h : Hdr) (b : BitVec 4) (kernel : BitVec 8) (ops : _) (input : BitVec 2) (src :
    BitVec 6) (ch : BitVec 5) (r : BitVec 3), Idle s h ∧ (s.dev.lane b.toNat).absent = false ∧ (s.dev.lane
    b.toNat).owner.isSome = true ∧ s.dev.tapClash b.toNat input src.toNat = false ∧ s.dev.kernelBad kernel ops input = false ∧
    s.dev.tapBad b.toNat input src.toNat ch.toNat = false ∧ (s.dev.lane b.toNat).run = none ∧ (s.dev.ring b.toNat r.toNat).len
    ≠ 0 :=
  ⟨on fun d => (d.modRing 15 7 fun x => { x with len := 64, owner := some .host, configured := true, src := 2 }).modLane 15
    fun x => { x with owner := some .host }, {}, 15, 3, [16, 1], 1, 7, 0, 7, ⟨rfl, rfl, rfl, rfl, rfl, rfl, rfl, rfl, rfl,
    rfl⟩, by decide +kernel, (by decide +kernel), by decide +kernel, (by decide +kernel), by decide +kernel, rfl,
    by decide +kernel⟩

theorem witness_dspCommands_9 : ∃ (s : State) (h : Hdr) (b : BitVec 4) (kernel : BitVec 8) (ops : _) (input : BitVec 2) (src :
    BitVec 6) (ch : BitVec 5) (w : _) (e : _) (st : _) (late : _), Idle s h ∧ (s.dev.lane b.toNat).absent = false ∧
    (s.dev.lane b.toNat).owner.isSome = true ∧ s.dev.tapClash b.toNat input src.toNat = false ∧ s.dev.kernelBad kernel ops
    input = false ∧ s.dev.tapBad b.toNat input src.toNat ch.toNat = false ∧ (s.dev.lane b.toNat).run = none ∧ (s.dev.advance
    h.t).schedule w clk false = .ok (e, st, late) :=
  ⟨on fun d => (d.modRing 15 7 fun x => { x with len := 64, owner := some .host, configured := true, src := 2 }).modLane 15
    fun x => { x with owner := some .host }, {}, 15, 3, [16, 1], 1, 7, 0, soon, 0, 1048576, false, ⟨rfl, rfl, rfl, rfl, rfl,
    rfl, rfl, rfl, rfl, rfl⟩, by decide +kernel, (by decide +kernel), by decide +kernel, (by decide +kernel), by decide +kernel,
    rfl, by decide +kernel⟩

theorem witness_dspCommands_10 : ∃ (s : State) (h : Hdr) (b : BitVec 4) (r : _), Idle s h ∧ (s.dev.lane b.toNat).run = some r
    ∧ r.tag ≠ h.tag :=
  ⟨on fun d => d.modLane 15 fun x => { x with run := some { tag := 5 } }, {}, 15, { tag := 5 }, ⟨rfl, rfl, rfl, rfl, rfl, rfl,
    rfl, rfl, rfl, rfl⟩, rfl, by decide +kernel⟩

theorem witness_dspCommands_11 : ∃ (s : State) (h : Hdr) (b : BitVec 4), Idle s h ∧ (s.dev.lane b.toNat).run = none :=
  ⟨ready, {}, 15, ⟨rfl, rfl, rfl, rfl, rfl, rfl, rfl, rfl, rfl, rfl⟩, rfl⟩

theorem witness_dspEvents_0 : ∃ (s : State) (b : BitVec 4) (l : Lane) (r : Run), s.dev.lane b.toNat = l ∧ l.run = some r ∧
    s.dev.tl.rewind = none ∧ r.active = false ∧ (r.bind = none ∨ r.due = true) ∧ r.epoch = s.dev.tl.epoch :=
  ⟨on fun d => d.modLane 15 fun x => { x with run := some { kernel := 3 } }, 15, { run := some { kernel := 3 } },
    { kernel := 3 }, rfl, rfl, rfl, by decide +kernel, (by decide +kernel), rfl⟩

theorem witness_dspEvents_1 : ∃ (s : State) (b : BitVec 4) (l : Lane) (r : Run) (st : _) (z : _) (v : _) (g : _) (rest : _),
    s.dev.lane b.toNat = l ∧ l.run = some r ∧ l.tap = (st, z, v, g) :: rest ∧ 0x40 ≤ r.kernel.toNat ∧ l.q.length < 256 :=
  ⟨on fun d => d.modLane 15 fun x => { x with run := some { kernel := 0x40 }, tap := [(0, 0, 8388607, false)] }, 15,
    { run := some { kernel := 0x40 }, tap := [(0, 0, 8388607, false)] }, { kernel := 0x40 }, 0, 0, 8388607, false, [], rfl,
    rfl, rfl, by decide +kernel, (by decide +kernel)⟩

theorem witness_dspEvents_2 : ∃ (s : State) (b : BitVec 4) (l : Lane) (r : Run) (st : _) (z : _) (v : _) (g : _) (rest : _),
    s.dev.lane b.toNat = l ∧ l.run = some r ∧ l.tap = (st, z, v, g) :: rest ∧ 0x40 ≤ r.kernel.toNat ∧ 256 ≤ l.q.length :=
  ⟨on fun d => d.modLane 15 fun x =>
    { x with run := some { kernel := 0x40 }, tap := [(0, 0, 8388607, false)], q := List.replicate 256 (0, 0) }, 15,
    { run := some { kernel := 0x40 }, tap := [(0, 0, 8388607, false)], q := List.replicate 256 (0, 0) }, { kernel := 0x40 },
    0, 0, 8388607, false, [], rfl, rfl, rfl, by decide +kernel, (by decide +kernel)⟩

theorem witness_dspEvents_3 : ∃ (s : State) (b : BitVec 4) (l : Lane) (r : Run) (w : _), s.dev.lane b.toNat = l ∧ l.run = some
    r ∧ s.dev.tl.rewind = none ∧ r.active = true ∧ 0x40 ≤ r.kernel.toNat ∧ 1024 ≤ l.pc.toNat ∧ s.dev.dsp.p.get 0 l.pc.toNat =
    w ∧ kGood w = true ∧ kOp w = 0x01 ∧ w.getLsbD 53 = false ∧ w.getLsbD 50 = false ∧ l.pc.toNat < 2047 ∧ l.loops = [] :=
  ⟨on fun d => (let d : Dev := d.modLane 15 fun x => { x with run := some { active := true, kernel := 0x7F }, pc := 2046 };
    { d with dsp := { d.dsp with p := ⟨[(2046, 0x0700000000000000)]⟩ } }), 15,
    { run := some { active := true, kernel := 0x7F }, pc := 2046 }, { active := true, kernel := 0x7F }, 0x0700000000000000,
    rfl, rfl, rfl, by decide +kernel, (by decide +kernel), by decide +kernel, rfl, by decide +kernel, rfl, by decide +kernel,
    (by decide +kernel), by decide +kernel, rfl⟩

theorem witness_dspEvents_4 : ∃ (s : State) (b : BitVec 4) (l : Lane) (r : Run) (w : _), s.dev.lane b.toNat = l ∧ l.run = some
    r ∧ s.dev.tl.rewind = none ∧ r.active = true ∧ 0x40 ≤ r.kernel.toNat ∧ 1024 ≤ l.pc.toNat ∧ s.dev.dsp.p.get 0 l.pc.toNat =
    w ∧ kGood w = true ∧ kOp w = 0x12 ∧ r.bind = none :=
  ⟨on fun d => (let d : Dev := d.modLane 15 fun x => { x with run := some { active := true, kernel := 0x7F }, pc := 2047 };
    { d with dsp := { d.dsp with p := ⟨[(2047, 0x4800000000000000)]⟩ } }), 15,
    { run := some { active := true, kernel := 0x7F }, pc := 2047 }, { active := true, kernel := 0x7F }, 0x4800000000000000,
    rfl, rfl, rfl, by decide +kernel, (by decide +kernel), by decide +kernel, rfl, by decide +kernel, rfl, rfl⟩

theorem witness_dspEvents_5 : ∃ (s : State) (b : BitVec 4) (l : Lane) (r : Run), s.dev.lane b.toNat = l ∧ l.run = some r ∧
    s.dev.tl.rewind = none ∧ r.active = true ∧ r.kernel.toNat < 0x40 ∧ kernelInputs r.kernel r.ops ≤ r.taken ∧ r.bind = none
    :=
  ⟨on fun d => d.modLane 15 fun x => { x with run := some { active := true, kernel := 3, ops := [16, 0], taken := 16 } }, 15,
    { run := some { active := true, kernel := 3, ops := [16, 0], taken := 16 } },
    { active := true, kernel := 3, ops := [16, 0], taken := 16 }, rfl, rfl, rfl, by decide +kernel, (by decide +kernel),
    by decide +kernel, rfl⟩

theorem witness_dspEvents_6 : ∃ (s : State) (b : BitVec 4) (l : Lane) (r : Run) (v : _) (vs : _), s.dev.lane b.toNat = l ∧
    l.run = some r ∧ s.dev.tl.rewind = none ∧ r.active = true ∧ r.kernel.toNat < 0x40 ∧ r.input ≠ 0 ∧ l.q = v :: vs ∧ r.taken
    + 1 < kernelInputs r.kernel r.ops :=
  ⟨on fun d => d.modLane 15 fun x =>
    { x with run := some { active := true, kernel := 3, ops := [16, 0], input := 1, taken := 14 }, q := [(1, 0)] }, 15,
    { run := some { active := true, kernel := 3, ops := [16, 0], input := 1, taken := 14 }, q := [(1, 0)] },
    { active := true, kernel := 3, ops := [16, 0], input := 1, taken := 14 }, (1, 0), [], rfl, rfl, rfl, by decide +kernel,
    (by decide +kernel), by decide +kernel, rfl, by decide +kernel⟩

theorem witness_metrologyCommands_0 : ∃ (s : State) (h : Hdr) (u : Nat) (w : _) (e : _) (st : _) (late : _) (irange : BitVec
    3) (ilim : BitVec 32) (lo : BitVec 32) (hi : BitVec 32), Idle s h ∧ s.dev.mi.started = true ∧ s.dev.mi.verified = true ∧ u
    < 16 ∧ (s.dev.advance h.t).schedule w grainSteps false = .ok (e, st, late) ∧ (s.dev.mu u).shutting = false ∧
    s.dev.overBudget (1#16 <<< u) (some irange) false = false ∧ 655 ≤ ilim.toNat ∧ ilim.toNat ≤ 68813 ∧ 65536 ≤ lo.toNat ∧
    lo.toNat + 16384 ≤ hi.toNat ∧ hi.toNat ≤ 753664 :=
  ⟨on fun d => { d with mi := { d.mi with started := true, verified := true } }, {}, 15, soon, 0, 1048576, false, 7, 68813,
    737280, 753664, ⟨rfl, rfl, rfl, rfl, rfl, rfl, rfl, rfl, rfl, rfl⟩, by decide +kernel, (by decide +kernel),
    by decide +kernel, (by decide +kernel), by decide +kernel, (by decide +kernel), by decide +kernel, (by decide +kernel),
    by decide +kernel, (by decide +kernel), by decide +kernel⟩

theorem witness_metrologyCommands_1 : ∃ (s : State) (h : Hdr) (u : Nat) (w : _) (e : _) (st : _) (late : _) (on : Bool), Idle
    s h ∧ s.dev.mi.started = true ∧ s.dev.mi.verified = true ∧ u < 16 ∧ (s.dev.advance h.t).schedule w grainSteps false = .ok
    (e, st, late) ∧ (s.dev.mu u).shutting = false ∧ (on = true → s.dev.hk.supplyOut.getLsbD 6 = false ∧
    s.dev.hk.supplyOut.getLsbD 7 = false ∧ s.dev.overBudget (1#16 <<< u) none true = false) :=
  ⟨on fun d => { d with mi := { d.mi with started := true, verified := true } }, {}, 15, soon, 0, 1048576, false, true, ⟨rfl,
    rfl, rfl, rfl, rfl, rfl, rfl, rfl, rfl, rfl⟩, by decide +kernel, (by decide +kernel), by decide +kernel, (by decide +kernel),
    by decide +kernel, (by decide +kernel)⟩

theorem witness_metrologyCommands_2 : ∃ (s : State) (h : Hdr) (u : Nat) (w : _) (e : _) (st : _) (late : _) (word : BitVec
    32), Idle s h ∧ s.dev.mi.started = true ∧ s.dev.mi.verified = true ∧ u < 16 ∧ (s.dev.advance h.t).schedule w grainSteps
    false = .ok (e, st, late) ∧ (s.dev.mu u).shutting = false ∧ word.toNat < 2 ^ 21 ∧ (word.getLsbD 20 = true ∨ 65536 ≤ bits
    word.toNat 0 20 ∧ bits word.toNat 0 20 ≤ 753664) :=
  ⟨on fun d => { d with mi := { d.mi with started := true, verified := true } }, {}, 15, soon, 0, 1048576, false, 753664,
    ⟨rfl, rfl, rfl, rfl, rfl, rfl, rfl, rfl, rfl, rfl⟩, by decide +kernel, (by decide +kernel), by decide +kernel,
    (by decide +kernel), by decide +kernel, (by decide +kernel), by decide +kernel⟩

theorem witness_metrologyCommands_3 : ∃ (s : State) (h : Hdr) (u : Nat) (w : _) (e : _) (st : _) (late : _) (volt : Bool) (n :
    BitVec 32) (count : BitVec 16), Idle s h ∧ s.dev.mi.started = true ∧ s.dev.mi.verified = true ∧ u < 16 ∧ (s.dev.advance
    h.t).schedule w grainSteps false = .ok (e, st, late) ∧ (s.dev.mu u).shutting = false ∧ (s.dev.mu u).meas = none ∧ 1 ≤
    n.toNat ∧ n.toNat ≤ 16777216 ∧ count ≠ 0 ∧ (s.dev.mu u).future.mode ≠ 0 ∧ (volt = true ∨ (s.dev.mu u).future.mode ≠ 3) ∧
    s.dev.tl.rewind = none :=
  ⟨on fun d => { d with mi := { d.mi with started := true, verified := true, mus := ⟨[(15, { mode := 3 })]⟩ } }, {}, 15, soon,
    0, 1048576, false, true, 16777216, 65535, ⟨rfl, rfl, rfl, rfl, rfl, rfl, rfl, rfl, rfl, rfl⟩, by decide +kernel,
    (by decide +kernel), by decide +kernel, (by decide +kernel), by decide +kernel, rfl, by decide +kernel, (by decide +kernel),
    by decide +kernel, (by decide +kernel), by decide +kernel, rfl⟩

theorem witness_metrologyCommands_4 : ∃ (s : State) (h : Hdr) (u : Nat) (step : BitVec 32) (interval : BitVec 32), Idle s h ∧
    s.dev.mi.started = true ∧ s.dev.mi.verified = true ∧ u < 16 ∧ step ≠ 0 ∧ step.toNat ≤ 1048575 ∧ interval.toNat ≤ 65535 ∧
    (s.dev.mu u).seq = none :=
  ⟨on fun d => { d with mi := { d.mi with started := true, verified := true } }, {}, 15, 1048575, 65535, ⟨rfl, rfl, rfl, rfl,
    rfl, rfl, rfl, rfl, rfl, rfl⟩, by decide +kernel, (by decide +kernel), by decide +kernel, (by decide +kernel),
    by decide +kernel, (by decide +kernel), rfl⟩

theorem witness_metrologyCommands_5 : ∃ (s : State) (h : Hdr) (u : Nat), Idle s h ∧ s.dev.mi.started = true ∧
    s.dev.mi.verified = true ∧ u < 16 :=
  ⟨on fun d => { d with mi := { d.mi with started := true, verified := true } }, {}, 15, ⟨rfl, rfl, rfl, rfl, rfl, rfl, rfl,
    rfl, rfl, rfl⟩, by decide +kernel, (by decide +kernel), by decide +kernel⟩

theorem witness_metrologyCommands_6 : ∃ (s : State) (h : Hdr) (u : Nat), Idle s h ∧ s.dev.mi.started = true ∧
    s.dev.mi.verified = true ∧ u < 16 ∧ s.dev.mi.parkTags = [] ∧ (∀ v, v < 16 → (s.dev.mu v).closed = false ∧ (s.dev.mu v).seq
    = none ∧ (s.dev.mu v).applied = muSafe (s.dev.mu v).forceMode) :=
  ⟨on fun d => { d with mi := { d.mi with started := true, verified := true } }, {}, 15, ⟨rfl, rfl, rfl, rfl, rfl, rfl, rfl,
    rfl, rfl, rfl⟩, by decide +kernel, (by decide +kernel), by decide +kernel, rfl, by decide +kernel⟩

theorem witness_metrologyCommands_7 : ∃ (s : State) (h : Hdr) (u : Nat), Idle s h ∧ s.dev.mi.started = true ∧
    s.dev.mi.verified = true ∧ u < 16 ∧ s.dev.mi.parkTags = [] ∧ (s.dev.mu u).closed = true :=
  ⟨on fun d => { d with mi := { d.mi with started := true, verified := true, mus := ⟨[(15, { closed := true })]⟩ } }, {}, 15,
    ⟨rfl, rfl, rfl, rfl, rfl, rfl, rfl, rfl, rfl, rfl⟩, by decide +kernel, (by decide +kernel), by decide +kernel, rfl,
    by decide +kernel⟩

theorem witness_metrologyCommands_8 : ∃ (s : State) (h : Hdr) (u : Nat), Idle s h ∧ s.dev.mi.started = true ∧
    s.dev.mi.verified = true ∧ u < 16 :=
  ⟨on fun d => { d with mi := { d.mi with started := true, verified := true } }, {}, 15, ⟨rfl, rfl, rfl, rfl, rfl, rfl, rfl,
    rfl, rfl, rfl⟩, by decide +kernel, (by decide +kernel), by decide +kernel⟩

theorem witness_sealCommands_0 : ∃ (s : State) (h : Hdr), Idle s h ∧ s.dev.mi.started = true ∧ s.dev.mi.verified = true :=
  ⟨on fun d => { d with mi := { d.mi with started := true, verified := true } }, {}, ⟨rfl, rfl, rfl, rfl, rfl, rfl, rfl, rfl,
    rfl, rfl⟩, by decide +kernel, (by decide +kernel)⟩

theorem witness_sealCommands_1 : ∃ (s : State) (h : Hdr), Idle s h ∧ s.dev.mi.started = true ∧ s.dev.mi.verified = true :=
  ⟨on fun d => { d with mi := { d.mi with started := true, verified := true } }, {}, ⟨rfl, rfl, rfl, rfl, rfl, rfl, rfl, rfl,
    rfl, rfl⟩, by decide +kernel, (by decide +kernel)⟩

theorem witness_sealCommands_3 : ∃ (s : State) (h : Hdr) (cal : Bytes), Idle s h ∧ s.dev.mi.started = true ∧ s.dev.mi.verified
    = true ∧ (∀ v, v < 16 → (s.dev.mu v).closed = false ∧ (s.dev.mu v).seq = none) ∧ s.dev.mi.sealedOk = false ∧
    (s.dev.mi.reason = 6 ∨ s.dev.mi.reason = 7) ∧ calGood cal = true :=
  ⟨on fun d => { d with mi := { d.mi with started := true, verified := true, reason := 7 } }, {}, [0x43, 0x41, 0x54, 0x53] ++
    List.replicate 2620 0, ⟨rfl, rfl, rfl, rfl, rfl, rfl, rfl, rfl, rfl, rfl⟩, by decide +kernel, (by decide +kernel),
    by decide +kernel, (by decide +kernel), by decide +kernel, (by decide +kernel)⟩

theorem witness_sealCommands_5 : ∃ (s : State) (h : Hdr) (record : Bytes) (cal : Bytes), Idle s h ∧ s.dev.mi.started = true ∧
    s.dev.mi.verified = true ∧ (calGood cal && s.dev.sealAllowed record 1 0 (some (digestOf s.dev.mi.image cal))) = false :=
  ⟨on fun d => { d with mi := { d.mi with started := true, verified := true } }, {}, [], [], ⟨rfl, rfl, rfl, rfl, rfl, rfl,
    rfl, rfl, rfl, rfl⟩, by decide +kernel, (by decide +kernel), by decide +kernel⟩

theorem witness_sealCommands_6 : ∃ (s : State) (h : Hdr) (record : Bytes), Idle s h ∧ s.dev.mi.started = true ∧
    s.dev.mi.verified = true ∧ s.dev.sealAllowed record 2 1 none = false :=
  ⟨on fun d => { d with mi := { d.mi with started := true, verified := true } }, {}, [], ⟨rfl, rfl, rfl, rfl, rfl, rfl, rfl,
    rfl, rfl, rfl⟩, by decide +kernel, (by decide +kernel), by decide +kernel⟩

theorem witness_sealCommands_7 : ∃ (s : State) (h : Hdr), Idle s h ∧ s.dev.mi.started = true ∧ s.dev.mi.verified = true ∧
    s.dev.mi.sealedOk = true :=
  ⟨on fun d => { d with mi := { d.mi with started := true, verified := true, sealedOk := true } }, {}, ⟨rfl, rfl, rfl, rfl,
    rfl, rfl, rfl, rfl, rfl, rfl⟩, by decide +kernel, (by decide +kernel), by decide +kernel⟩

theorem witness_sealCommands_8 : ∃ (s : State) (h : Hdr), Idle s h ∧ s.dev.mi.started = true ∧ s.dev.mi.verified = true ∧
    s.dev.mi.parkTags = [] :=
  ⟨on fun d => { d with mi := { d.mi with started := true, verified := true } }, {}, ⟨rfl, rfl, rfl, rfl, rfl, rfl, rfl, rfl,
    rfl, rfl⟩, by decide +kernel, (by decide +kernel), rfl⟩

theorem witness_islandEvents_0 : ∃ (s : State), s.dev.mi.started = false :=
  ⟨ready, by decide +kernel⟩

theorem witness_islandEvents_3 : ∃ (words : List (BitVec 32)), 1 ≤ words.length ∧ words.length ≤ 256 :=
  ⟨[0], by decide +kernel, (by decide +kernel)⟩

theorem witness_islandEvents_4 : ∃ (words : List (BitVec 32)), 1 ≤ words.length ∧ words.length ≤ 256 :=
  ⟨[0], by decide +kernel, (by decide +kernel)⟩

theorem witness_islandEvents_5 : ∃ (s : State) (words : List (BitVec 32)) (u : Nat) (word : BitVec 32), 1 ≤ words.length ∧
    words.length ≤ 256 ∧ u < 16 ∧ s.dev.mi.started = true ∧ s.dev.mi.verified = true ∧ (s.dev.mu u).seq = none ∧ (s.dev.mu
    u).mode = 1 ∧ (s.dev.mu u).interval = 0 ∧ word.toNat < 2 ^ 20 ∧ 65536 ≤ word.toNat ∧ word.toNat ≤ 753664 :=
  ⟨on fun d => { d with mi := { d.mi with started := true, verified := true, mus := ⟨[(15, { mode := 1 })]⟩ } },
    List.replicate 256 0, 15, 753664, by decide +kernel, (by decide +kernel), by decide +kernel, (by decide +kernel),
    by decide +kernel, rfl, rfl, rfl, by decide +kernel, (by decide +kernel), by decide +kernel⟩

theorem witness_islandEvents_6 : ∃ (s : State) (words : List (BitVec 32)) (u : Nat) (volt : Bool) (k : BitVec 32) (count :
    BitVec 16), 1 ≤ words.length ∧ words.length ≤ 256 ∧ u < 16 ∧ s.dev.mi.started = true ∧ s.dev.mi.verified = true ∧
    (s.dev.mu u).meas = none ∧ (s.dev.mu u).future.mode ≠ 0 ∧ (volt = true ∨ (s.dev.mu u).future.mode ≠ 3) ∧ s.dev.tl.rewind =
    none ∧ 1 ≤ k.toNat ∧ k.toNat ≤ 16777216 ∧ count ≠ 0 :=
  ⟨on fun d => { d with mi := { d.mi with started := true, verified := true, mus := ⟨[(15, { mode := 3 })]⟩ } }, [0], 15,
    true, 16777216, 65535, by decide +kernel, (by decide +kernel), by decide +kernel, (by decide +kernel), by decide +kernel, rfl,
    by decide +kernel, (by decide +kernel), rfl, by decide +kernel, (by decide +kernel), by decide +kernel⟩

theorem witness_islandEvents_7 : ∃ (s : State) (n : Nat) (f : _), Open s f ∧ f.opcode.toNat / 256 = 0x0A ∧ (s.dev.advance
    n).classNow 36 1 = 1 :=
  ⟨on fun d => { d with ctl := { d.ctl with flights := [{ tag := 5, opcode := 0x0A0D, accepted := true }] } }, 0,
    { tag := 5, opcode := 0x0A0D, accepted := true }, ⟨rfl, rfl, rfl, rfl, rfl, rfl, rfl, rfl, rfl, rfl, rfl, rfl⟩,
    by decide +kernel, rfl⟩

theorem witness_islandEvents_8 : ∃ (s : State) (n : Nat), (s.dev.advance n).classNow 36 1 = 1 :=
  ⟨ready, 0, rfl⟩

theorem witness_islandEvents_9 : ∃ (s : State) (n : Nat), s.dev.mi.ready = true ∧ s.dev.mi.refAt ≤ (s.dev.advance n).mono :=
  ⟨on fun d => { d with mi := { d.mi with started := true, verified := true, ready := true } }, 0, by decide +kernel,
    (by decide +kernel)⟩

theorem witness_islandEvents_10 : ∃ (s : State) (u : BitVec 4) (m : Mu) (tag : _) (word : _) (st : _), s.dev.tl.rewind = none
    ∧ s.dev.mu u.toNat = m ∧ m.forceSched = [(tag, word, st)] ∧ m.sched = [] ∧ m.queued = [] ∧ s.dev.tl.acts = [] ∧
    word.getLsbD 20 = false ∧ m.seq = none ∧ m.mode = 1 ∧ m.interval = 0 :=
  ⟨on fun d => { d with mi := { d.mi with mus := ⟨[(15, { forceSched := [(5, 753664, 0)], mode := 1 })]⟩ } }, 15,
    { forceSched := [(5, 753664, 0)], mode := 1 }, 5, 753664, 0, rfl, rfl, rfl, rfl, rfl, rfl, by decide +kernel, rfl, rfl,
    rfl⟩

theorem witness_islandEvents_11 : ∃ (s : State) (u : BitVec 4) (m : Mu) (c : _), s.dev.tl.rewind = none ∧ s.dev.mu u.toNat = m
    ∧ m.sched = [c] ∧ m.forceSched = [] ∧ m.queued = [] ∧ m.seq = none ∧ c.epoch = s.dev.tl.epoch ∧ c.tag = none ∧ c.conn =
    none ∧ c.mode = m.mode ∧ c.irange = m.irange ∧ c.vrange = m.vrange :=
  ⟨on fun d => { d with mi := { d.mi with mus := ⟨[(15, { sched := [{ ilim := 1 }] })]⟩ } }, 15, { sched := [{ ilim := 1 }] },
    { ilim := 1 }, rfl, rfl, rfl, rfl, rfl, rfl, rfl, rfl, rfl, rfl, rfl, rfl⟩

theorem witness_islandEvents_12 : ∃ (s : State) (u : BitVec 4) (m : Mu) (q : _), s.dev.tl.rewind = none ∧ s.dev.mu u.toNat = m
    ∧ m.seq = some q ∧ q.step = .c ∧ q.change.conn = some false :=
  ⟨on fun d =>
    { d with mi := { d.mi with mus := ⟨[(15, { seq := some { step := .c, change := { conn := some false } } })]⟩ } }, 15,
    { seq := some { step := .c, change := { conn := some false } } }, { step := .c, change := { conn := some false } }, rfl,
    rfl, rfl, rfl, rfl⟩

theorem witness_islandEvents_13 : ∃ (s : State) (u : BitVec 4) (m : Mu) (q : _), s.dev.tl.rewind = none ∧ s.dev.mu u.toNat = m
    ∧ m.seq = some q ∧ q.step = .e ∧ forcing m.mode = true ∧ q.change.conn ≠ some false :=
  ⟨on fun d => { d with mi := { d.mi with mus := ⟨[(15, { seq := some { step := .e }, mode := 2 })]⟩ } }, 15,
    { seq := some { step := .e }, mode := 2 }, { step := .e }, rfl, rfl, rfl, rfl, by decide +kernel, (by decide +kernel)⟩

theorem witness_islandEvents_14 : ∃ (s : State) (u : BitVec 4) (m : Mu) (t0 : _), s.dev.tl.rewind = none ∧ s.dev.mu u.toNat =
    m ∧ m.ramp = some t0 ∧ m.seq = none ∧ m.interval = 0 :=
  ⟨on fun d => { d with mi := { d.mi with mus := ⟨[(15, { ramp := some 0 })]⟩ } }, 15, { ramp := some 0 }, 0, rfl, rfl, rfl,
    rfl, rfl⟩

theorem witness_islandEvents_15 : ∃ (s : State) (u : BitVec 4) (m : Mu) (x : _), s.dev.tl.rewind = none ∧ s.dev.mu u.toNat = m
    ∧ m.meas = some x ∧ (x.epoch = s.dev.tl.epoch ∨ x.got ≠ 0) ∧ x.got + 1 < x.n :=
  ⟨on fun d => { d with mi := { d.mi with mus := ⟨[(15, { meas := some { n := 2 } })]⟩ } }, 15, { meas := some { n := 2 } },
    { n := 2 }, rfl, rfl, rfl, by decide +kernel, (by decide +kernel)⟩

theorem witness_islandEvents_16 : ∃ (s : State) (u : BitVec 4) (m : Mu) (x : _), s.dev.tl.rewind = none ∧ s.dev.mu u.toNat = m
    ∧ m.meas = some x ∧ (x.epoch = s.dev.tl.epoch ∨ x.got ≠ 0) ∧ x.n ≤ x.got + 1 ∧ x.left ≤ 1 :=
  ⟨on fun d => { d with mi := { d.mi with mus := ⟨[(15, { meas := some {} })]⟩ } }, 15, { meas := some {} }, {}, rfl, rfl,
    rfl, by decide +kernel, (by decide +kernel), by decide +kernel⟩

theorem witness_calibration_0 : ∃ (s : State) (h : Hdr) (full : Bool) (chs : BitVec 512), Idle s h ∧ s.dev.cal.run = none ∧
    (full = true → chs ≠ 0 ∧ ∀ ch ∈ members chs, s.dev.fullReady ch = true) :=
  ⟨ready, {}, true, 1#512 <<< 511, ⟨rfl, rfl, rfl, rfl, rfl, rfl, rfl, rfl, rfl, rfl⟩, rfl, by decide +kernel⟩

theorem witness_calibration_1 : ∃ (s : State) (h : Hdr) (r : _), Idle s h ∧ s.dev.cal.run = some r ∧ r.full = false :=
  ⟨on fun d => { d with cal := { d.cal with run := some {} } }, {}, {}, ⟨rfl, rfl, rfl, rfl, rfl, rfl, rfl, rfl, rfl, rfl⟩,
    rfl, by decide +kernel⟩

theorem witness_calibration_4 : ∃ (s : State) (h : Hdr), Idle s h ∧ s.dev.dueTaps = [] :=
  ⟨ready, {}, ⟨rfl, rfl, rfl, rfl, rfl, rfl, rfl, rfl, rfl, rfl⟩, rfl⟩

theorem witness_calibration_5 : ∃ (s : State) (r : _) (i : _) (v : _), s.dev.cal.run = some r ∧ r.full = false ∧ tapExists i =
    true ∧ tapFits i v = true :=
  ⟨on fun d => { d with cal := { d.cal with run := some {} } }, {}, 16, 511, rfl, by decide +kernel, (by decide +kernel),
    by decide +kernel⟩

theorem witness_calibration_6 : ∃ (s : State) (i : _), (s.dev.tap i).due = true ∧ s.dev.tapFree i = true ∧ s.dev.tl.rewind =
    none ∧ ((s.dev.tap i).passed = true ∨ (s.dev.switchPoint i).isSome = true) ∧ s.dev.gradual = false :=
  ⟨on fun d => { d with cal := { d.cal with taps := ⟨[(21, { due := true, target := 1 })]⟩ } }, 21, by decide +kernel,
    (by decide +kernel), rfl, by decide +kernel, (by decide +kernel)⟩

theorem witness_calibration_7 : ∃ (s : State) (i : _), (s.dev.tap i).due = true ∧ s.dev.tapFree i = true ∧ s.dev.tl.rewind =
    none ∧ ((s.dev.tap i).passed = true ∨ (s.dev.switchPoint i).isSome = true) ∧ s.dev.gradual = true ∧ (s.dev.tap i).stepping
    = true ∧ (s.dev.tap i).inForce < (s.dev.tap i).target :=
  ⟨on fun d =>
    { d with cal := { d.cal with taps := ⟨[(21, { due := true, target := 1, stepping := true })]⟩, control := 2 } }, 21,
    by decide +kernel, (by decide +kernel), rfl, by decide +kernel, (by decide +kernel), by decide +kernel, (by decide +kernel)⟩

theorem witness_calibration_9 : ∃ (s : State) (i : _) (p : _), (s.dev.tap i).due = true ∧ s.dev.gradual = false ∧
    s.dev.tl.rewind = none ∧ (s.dev.tap i).passed = false ∧ s.dev.switchPoint i = some p ∧ s.dev.tapFree i = false :=
  ⟨on fun d => ({ d with cal := { d.cal with taps := ⟨[(21, { due := true, target := 1 })]⟩ } }).modChan 0 fun x =>
    { x with pmu := { x.pmu with meas := some {} } }, 21, 1024, by decide +kernel, (by decide +kernel), rfl, by decide +kernel,
    (by decide +kernel), by decide +kernel⟩

end Sys2Proof.Tests
end

section
/-!
PROOFS. Who may write the straps and the fuses (R20, R406, R420). Every meaning but those of the two resets and of BOOT.ROLLBACK is
an event of the device: it rewrites the device, and nothing beside it.
-/
namespace Sys2Proof.Machine

/-! ### The commands that rewrite the device alone -/

/-- Every command but the two resets and BOOT.ROLLBACK goes on, and rewrites the device alone. -/
theorem exec_writes_dev (c : Instr) (s : State) (hp : ∀ x, c ≠ .powerOnReset x) (hw : ∀ x, c ≠ .warmReset x)
    (hr : ∀ h v, c ≠ .bootRollback h v) : ∃ d, exec c s = .next { s with dev := d } := by
  cases c with
  | powerOnReset x => exact absurd rfl (hp x)
  | warmReset x => exact absurd rfl (hw x)
  | bootRollback h v => exact absurd rfl (hr h v)
  | _ => exact ⟨_, rfl⟩

/-! ### The three commands that write beside the device -/

theorem execPowerOnReset_writes (x : Straps) (s : State) :
    ∃ d, execPowerOnReset x s = .next { s with straps := x, dev := d } := ⟨_, rfl⟩

theorem execWarmReset_writes (x : Straps) (s : State) :
    ∃ d, execWarmReset x s = .next { s with straps := x, dev := d } := ⟨_, rfl⟩

/-- BOOT.ROLLBACK leaves the fuses alone, or blows them up to a value above the counter (R420). -/
theorem execBootRollback_writes (h : Hdr) (v : BitVec 8) (s : State) :
    ∃ d n, s.fuses.rollback ≤ n ∧
      execBootRollback h v s = .next { s with dev := d, fuses := { s.fuses with rollback := n } } := by
  unfold execBootRollback
  cases s.dev.takeUp h 0x0F03 with
  | error d => exact ⟨_, _, le_rfl, rfl⟩
  | ok d =>
    by_cases newer : v.toNat > d.boot.svn
    · exact ⟨_, _, le_rfl, if_pos newer⟩
    · by_cases bad : v.toNat ≤ s.fuses.rollback ∨ v.toNat > 64
      · exact ⟨_, _, le_rfl, (if_neg newer).trans (if_pos bad)⟩
      · exact ⟨_, v.toNat, by omega, (if_neg newer).trans (if_neg bad)⟩

/-- What a command can do to straps and fuses: a reset samples the straps, BOOT.ROLLBACK raises the rollback counter or leaves it,
and every other command leaves both alone. -/
theorem exec_straps_fuses {c : Instr} {s t : State} (e : exec c s = .next t) :
    (∃ x, (c = .powerOnReset x ∨ c = .warmReset x) ∧ t.straps = x ∧ t.fuses = s.fuses) ∨
    (∃ h v n, c = .bootRollback h v ∧ t.straps = s.straps ∧ s.fuses.rollback ≤ n ∧ t.fuses = { s.fuses with rollback := n }) ∨
    ((∀ x, c ≠ .powerOnReset x ∧ c ≠ .warmReset x) ∧ t.straps = s.straps ∧ t.fuses = s.fuses) := by
  by_cases hp : ∃ x, c = .powerOnReset x
  · obtain ⟨x, rfl⟩ := hp
    obtain ⟨d, k⟩ := execPowerOnReset_writes x s
    cases k.symm.trans e
    exact .inl ⟨x, .inl rfl, rfl, rfl⟩
  by_cases hw : ∃ x, c = .warmReset x
  · obtain ⟨x, rfl⟩ := hw
    obtain ⟨d, k⟩ := execWarmReset_writes x s
    cases k.symm.trans e
    exact .inl ⟨x, .inr rfl, rfl, rfl⟩
  by_cases hr : ∃ h v, c = .bootRollback h v
  · obtain ⟨h, v, rfl⟩ := hr
    obtain ⟨d, n, le, k⟩ := execBootRollback_writes h v s
    cases k.symm.trans e
    exact .inr (.inl ⟨h, v, n, rfl, rfl, le, rfl⟩)
  push Not at hp hw hr
  obtain ⟨d, k⟩ := exec_writes_dev c s hp hw hr
  cases k.symm.trans e
  exact .inr (.inr ⟨fun x => ⟨hp x, hw x⟩, rfl, rfl⟩)

end Sys2Proof.Machine

open Sys2Proof Sys2Proof.Machine

/-- Settles O6, by what a command can do to straps and fuses. -/
theorem fusesAndStraps : Obligations.FusesAndStraps := by
  unfold Obligations.FusesAndStraps
  intro c s t e
  rcases exec_straps_fuses e with ⟨x, reset, straps, fuses⟩ | ⟨h, v, n, rfl, straps, le, fuses⟩ | ⟨other, straps, fuses⟩
  · refine ⟨by rw [fuses], by rw [fuses], fun k => absurd fuses k, fun y hy => ?_, fun k => ?_⟩
    · rcases reset with rfl | rfl <;> simpa [straps] using hy
    · exact (reset.elim (k x).1 (k x).2).elim
  · exact ⟨by rw [fuses]; exact le, by rw [fuses], fun _ => ⟨h, v, rfl⟩, fun y hy => by simp at hy, fun _ => straps⟩
  · exact ⟨by rw [fuses], by rw [fuses], fun k => absurd fuses k, fun y hy => (hy.elim (other y).1 (other y).2).elim,
      fun _ => straps⟩
end

section
/-!
PROOFS. How a command that acts on sets of channels ends on an idle device (R87, R88): what it leaves of every channel, that it is
answered, and that nothing but the pins has changed.
-/
namespace Sys2Proof.Machine

/-! ### Sets of units -/

theorem mem_members {n : Nat} {s : BitVec n} {i : Nat} : i ∈ members s ↔ i < n ∧ s.getLsbD i = true := by simp [members]

theorem nodup_members {n : Nat} (s : BitVec n) : (members s).Nodup := List.nodup_range.filter _

/-- The set of one unit. -/
theorem members_singleton {n i : Nat} (h : i < n) : members (1#n <<< i) = [i] := by
  have one : ∀ k, k ∈ members (1#n <<< i) ↔ k ∈ [i] := by
    intro k
    rw [mem_members, List.mem_singleton, BitVec.getLsbD_shiftLeft, BitVec.getLsbD_one]
    simp only [Bool.and_eq_true, decide_eq_true_eq, Bool.not_eq_true', decide_eq_false_iff_not]
    omega
  exact List.perm_singleton.mp ((List.perm_ext_iff_of_nodup (nodup_members _) (List.nodup_singleton i)).mpr one)

/-- A change of each unit of a set, one after the other, is the change of every unit in the set, and of no other. -/
theorem get_foldl {σ α : Type} (get : σ → Nat → α) (upd : σ → Nat → σ) (f : α → α)
    (self : ∀ s i, get (upd s i) i = f (get s i)) (other : ∀ s i k, k ≠ i → get (upd s i) k = get s k) (k : Nat)
    (l : List Nat) (once : l.Nodup) (s : σ) : get (l.foldl upd s) k = if k ∈ l then f (get s k) else get s k := by
  induction l generalizing s with
  | nil => simp
  | cons i l ih =>
    obtain ⟨fresh, once⟩ := List.nodup_cons.mp once
    rw [List.foldl_cons, ih once]
    rcases eq_or_ne k i with rfl | ne
    · simp [fresh, self]
    · simp [ne, other s i k ne]

/-! ### Channels and their levels -/

theorem chan_of_pins {a b : Dev} (h : a.pins = b.pins) (k : Nat) : a.chan k = b.chan k := by rw [Dev.chan, h, Dev.chan]

@[simp] theorem modChan_chan_self (d : Dev) (i : Nat) (f : Chan → Chan) : (d.modChan i f).chan i = f (d.chan i) :=
  Tab.get_mod_self _ _ _ _

theorem modChan_chan_of_ne (d : Dev) {i k : Nat} (h : k ≠ i) (f : Chan → Chan) : (d.modChan i f).chan k = d.chan k :=
  Tab.get_mod_of_ne _ _ h _

theorem modChan_keeps (d : Dev) (i : Nat) (f : Chan → Chan) : SameBut [.pins] d (d.modChan i f) := by
  intro p hp
  cases p with
  | pins => exact absurd (List.mem_singleton.mpr rfl) hp
  | tl => exact Timeline.kept_refl _
  | _ => rfl

@[simp] theorem commit_chan (d : Dev) (k : Nat) : d.commit.chan k = d.chan k := chan_of_pins (commit_pins d) k
@[simp] theorem ok_chan (d : Dev) (g : Tag) (k : Nat) : (d.ok g).chan k = d.chan k := chan_of_pins (d.ok_pins g) k
@[simp] theorem takenUp_pins (d : Dev) (h : Hdr) (op : BitVec 16) : (d.takenUp h op).pins = d.pins := by simp [Dev.takenUp]
@[simp] theorem takenUp_seq (d : Dev) (h : Hdr) (op : BitVec 16) : (d.takenUp h op).seq = d.seq := by simp [Dev.takenUp]
@[simp] theorem takenUp_hk (d : Dev) (h : Hdr) (op : BitVec 16) : (d.takenUp h op).hk = d.hk := by simp [Dev.takenUp]
@[simp] theorem takenUp_chan (d : Dev) (h : Hdr) (op : BitVec 16) (k : Nat) : (d.takenUp h op).chan k = d.chan k :=
  chan_of_pins (takenUp_pins d h op) k

/-- The channels after a change of a set, which may look at the timeline. -/
theorem foldl_modChan_chan (g : Timeline → Chan → Chan) (chs : BitVec 512) (d : Dev) {k : Nat} (hk : k < 512) :
    ((members chs).foldl (fun d ch => d.modChan ch (g d.tl)) d).chan k =
      if chs.getLsbD k = true then g d.tl (d.chan k) else d.chan k := by
  have pair := get_foldl (fun (d : Dev) k => (d.tl, d.chan k)) (fun d ch => d.modChan ch (g d.tl)) (fun x => (x.1, g x.1 x.2))
    (fun d i => by simp) (fun d i k ne => by simp [modChan_chan_of_ne d ne]) k (members chs) (nodup_members chs) d
  have chan := congrArg Prod.snd pair
  simpa [mem_members, hk, apply_ite Prod.snd] using chan

/-- The levels of a channel after a change of a set of them. -/
theorem foldl_modLevel_level (f : Level → Level) (mask : BitVec 7) (c : Chan) {l : Nat} (hl : l < 7) :
    ((members mask).foldl (fun c l => c.modLevel l f) c).level l =
      if mask.getLsbD l = true then f (c.level l) else c.level l := by
  have at_l := get_foldl Chan.level (fun c l => c.modLevel l f) f (fun c i => Tab.get_mod_self _ _ _ _)
    (fun c i k ne => Tab.get_mod_of_ne _ _ ne _) l (members mask) (nodup_members mask) c
  simpa [mem_members, hl] using at_l

/-! ### The worst status of a set (R87) -/

theorem worstOf_eq_none {l : List Nat} {check : Nat → Option (BitVec 4 × Nat)} (h : ∀ i ∈ l, check i = none) :
    worstOf l check = none := by
  have pass : ∀ st : BitVec 4,
      (l.filterMap fun i => (check i).bind fun r => if r.1 = st then some (i, r) else none) = [] := by
    intro st
    rw [List.filterMap_eq_nil_iff]
    intro i hi
    rw [h i hi]
    rfl
  simp [worstOf, pass]

theorem allOrNone_pass {d : Dev} {g : Tag} {l : List Nat} {check : Nat → Option (BitVec 4 × Nat)} {act : Dev → Dev}
    (h : ∀ i ∈ l, check i = none) : d.allOrNone g l check act = act d := by rw [Dev.allOrNone, worstOf_eq_none h]

/-- One unit that a check turns away with DENIED or CONFLICT. -/
theorem allOrNone_refused {d : Dev} {g : Tag} {i holder : Nat} {st : BitVec 4} {check : Nat → Option (BitVec 4 × Nat)}
    {act : Dev → Dev} (hs : st = stDenied ∨ st = stConflict) (h : check i = some (st, holder)) :
    d.allOrNone g [i] check act = d.refuse g st i 0 holder := by
  have ne : stConflict ≠ stDenied := by decide
  have w : worstOf [i] check = some (i, st, holder) := by rcases hs with rfl | rfl <;> simp [worstOf, h, ne]
  rw [Dev.allOrNone, w]

theorem firstOf_denied (k : Nat) (l : List (Option (BitVec 4 × Nat))) :
    firstOf (some (stDenied, k) :: l) = some (stDenied, k) := by
  simp [firstOf]

/-- A CONFLICT stands before every other status but DENIED. -/
theorem firstOf_conflict {k : Nat} {l : List (Option (BitVec 4 × Nat))} (h : ∀ r, some r ∈ l → r.1 ≠ stDenied) :
    firstOf (none :: some (stConflict, k) :: l) = some (stConflict, k) := by
  have ne : stConflict ≠ stDenied := by decide
  have no : ∀ r ∈ (stConflict, k) :: l.filterMap id, ¬ (r.1 == stDenied) = true := by
    intro r hr
    rcases List.mem_cons.mp hr with rfl | hr
    · simp [ne]
    · simpa using h r (by simpa using hr)
  have listed : (none :: some (stConflict, k) :: l).filterMap id = (stConflict, k) :: l.filterMap id := rfl
  simp only [firstOf, listed, List.find?_eq_none.mpr no]
  simp

theorem orFail_status {bad : Bool} {st : BitVec 4} {k : Nat} {r : BitVec 4 × Nat} (h : some r = orFail bad st k) : r.1 = st := by
  cases bad
  · exact absurd h (by simp [orFail])
  · rw [Option.some.inj h]

/-! ### A command on an idle device -/

theorem takenUp_keeps (l : List Part) (d : Dev) (h : Hdr) (op : BitVec 16) (c : opClass op ≠ 0) :
    SameBut l d (d.takenUp h op) := by
  rw [Dev.takenUp, preempt_keeps _ op c]
  exact (advance_keeps l d h.t).trans (ensureFlight_keeps l _ h op)

/-- The frame of a command that runs on the device that has taken it up. -/
theorem keeps_of_takenUp {l : List Part} {s : State} {h : Hdr} {op : BitVec 16} {d : Dev} (c : opClass op ≠ 0)
    (k : SameBut l (s.dev.takenUp h op) d) : Keeps l s { s with dev := d.commit } := by
  have kept := ((takenUp_keeps l s.dev h op c).trans k).trans (sameBut_of_core (commit_core d) l)
  generalize d.commit = e at kept ⊢
  exact ⟨rfl, rfl, rfl, kept⟩

/-- A command that is turned away changes nothing but the way of its answer. -/
theorem refused_ends {s : State} {h : Hdr} (i : Idle s h) (op : BitVec 16) (c : opClass op ≠ 0) (st : BitVec 4) (x y z : Nat) :
    Keeps [] s { s with dev := ((s.dev.takenUp h op).refuse h.tag st x y z).commit } ∧
      Answers s { s with dev := ((s.dev.takenUp h op).refuse h.tag st x y z).commit } h op st [] :=
  ⟨keeps_of_takenUp c (refuse_keeps [] _ _ _ _ _ _), answers_refuse i op _ st x y z rfl⟩

/-- A setting of a channel set that is in force at once. -/
theorem set_ends {s : State} {h : Hdr} (i : Idle s h) (op : BitVec 16) (c : opClass op ≠ 0) (chs : BitVec 512)
    (g : Timeline → Chan → Chan) :
    let t := { s with dev := (((members chs).foldl (fun d ch => d.modChan ch (g d.tl)) (s.dev.takenUp h op)).ok h.tag).commit }
    Keeps [.pins] s t ∧ Answers s t h op stOk [] ∧ ∀ k, k < 512 → t.dev.chan k =
      if chs.getLsbD k = true then g (s.dev.takenUp h op).tl (s.dev.chan k) else s.dev.chan k := by
  have frame := SameBut.foldl (f := fun d ch => d.modChan ch (g d.tl)) (fun d ch => modChan_keeps d ch _) (members chs)
    (s.dev.takenUp h op)
  have ctl := foldl_leaves Dev.ctl (f := fun d ch => d.modChan ch (g d.tl)) (fun d ch => d.modChan_ctl ch _) (members chs)
    (s.dev.takenUp h op)
  refine ⟨keeps_of_takenUp c (frame.trans (ok_keeps _ _ _)), answers_ok i op _ ctl, fun k hk => ?_⟩
  rw [commit_chan, ok_chan, foldl_modChan_chan g chs _ hk, takenUp_chan]

/-! ### The job of a command on one channel -/

/-- A command on one channel is accepted, and its job opened with that channel to end. -/
def Dev.openUnit (d : Dev) (g : Tag) (ch : Nat) : Dev := (d.accept g).openJob { tag := g, left := 1#512 <<< ch }

@[simp] theorem openUnit_pins (d : Dev) (g : Tag) (ch : Nat) : (d.openUnit g ch).pins = d.pins := rfl
@[simp] theorem openUnit_seq (d : Dev) (g : Tag) (ch : Nat) : (d.openUnit g ch).seq = d.seq := rfl
@[simp] theorem openUnit_chan (d : Dev) (g : Tag) (ch k : Nat) : (d.openUnit g ch).chan k = d.chan k := rfl

theorem openUnit_keeps (l : List Part) (d : Dev) (g : Tag) (ch : Nat) : SameBut l d (d.openUnit g ch) :=
  (accept_keeps l d g).trans (openJob_keeps l _ _)

theorem openUnit_opened {s : State} {h : Hdr} (i : Idle s h) (op : BitVec 16) (ch : Nat) :
    Opened ((s.dev.takenUp h op).openUnit h.tag ch) h op := by
  obtain ⟨flights, held, held0, room, interim, behind⟩ := (takenUp_opened i op).accept
  exact ⟨flights, held, held0, room, interim, behind⟩

theorem openUnit_jobs {s : State} {h : Hdr} (i : Idle s h) (op : BitVec 16) (ch : Nat) :
    ((s.dev.takenUp h op).openUnit h.tag ch).ctl.jobs = [{ tag := h.tag, left := 1#512 <<< ch }] := by
  have none_open : (s.dev.takenUp h op).ctl.jobs = [] := by rw [takenUp_ctl i op]; exact i.jobs
  simp [Dev.openUnit, Dev.openJob, Dev.accept, none_open]

theorem settleJob_of_no_jobs {d : Dev} (h : d.ctl.jobs = []) (g : Tag) : d.settleJob g = d := by
  simp [Dev.settleJob, Dev.job, h]

/-- The final completion of the command in flight, as it stands in its flight. -/
theorem Opened.finish_ctl {d : Dev} {h : Hdr} {op : BitVec 16} (o : Opened d h op) (c : Cpl) :
    ∃ f x, (d.finish h.tag c).ctl = { d.ctl with flights := [f] } ∧ f.done = some x ∧ f.origin = .ring ∧
      Cpl.gist x = (h.tag, h.stream, op, c.status, c.fin, c.resp) ∧ x.epoch = c.epoch ∧ x.fwd = c.fwd := by
  obtain ⟨f, flights, tag, stream, opcode, origin, group, done⟩ := o.flights
  have found : d.flight h.tag = some f := by simp [Dev.flight, flights, tag, done]
  refine ⟨{ f with done := some { c with
    tag := h.tag, stream := f.stream, opcode := f.opcode, position := d.tree.position, respBytes := respLen f.opcode c.resp
    trunc := (f.respLen.map fun l => decide (respLen f.opcode c.resp > l)).getD false } }, _, ?_, rfl, origin, ?_, rfl, rfl⟩
  · simp [Dev.finish, found, group, flights, modFlight, tag, done]
  · simp [Cpl.gist, stream, opcode]

/-- The job of one channel, once that channel has ended. -/
def unitEnded (g : Tag) (z : Nat) : Job := { tag := g, stamp := some z }

/-- The device with a job whose only channel has ended. -/
def Dev.withUnitEnded (d : Dev) (g : Tag) (z : Nat) : Dev := { d with ctl := { d.ctl with jobs := [unitEnded g z] } }

/-- The end of a job's only channel ends its command. -/
theorem endUnitAt_of_unit {d : Dev} {g : Tag} {ch : Nat} (job : d.ctl.jobs = [{ tag := g, left := 1#512 <<< ch }]) (z : Nat) :
    d.endUnitAt g ch z = ((d.withUnitEnded g z).finish g ((unitEnded g z).cpl (d.withUnitEnded g z))).dropJob g := by
  have ends : d.modJob g (fun j => { j with left := j.left &&& ~~~ (1#512 <<< ch), stamp := some (max (j.stamp.getD 0) z) }) =
      d.withUnitEnded g z := by
    simp [Dev.modJob, job, Dev.withUnitEnded, unitEnded, BitVec.and_not_self]
  have found : (d.withUnitEnded g z).job g = some (unitEnded g z) := by simp [Dev.job, Dev.withUnitEnded, unitEnded]
  rw [Dev.endUnitAt, ends, Dev.settleJob, found]
  exact if_pos ⟨rfl, rfl⟩

/-- The completion of a command whose only channel has ended is OK, and of the present epoch. -/
theorem Opened.endUnitAt_ctl {d : Dev} {h : Hdr} {op : BitVec 16} (o : Opened d h op) {ch : Nat}
    (job : d.ctl.jobs = [{ tag := h.tag, left := 1#512 <<< ch }]) (z : Nat) :
    ∃ f x, (d.endUnitAt h.tag ch z).ctl = { d.ctl with flights := [f], jobs := [] } ∧ f.done = some x ∧ f.origin = .ring ∧
      Cpl.gist x = (h.tag, h.stream, op, stOk, true, []) ∧ x.epoch = d.tl.epoch ∧ x.fwd = false := by
  have o' : Opened (d.withUnitEnded h.tag z) h op := ⟨o.flights, o.held, o.held0, o.room, o.interim, o.behind⟩
  obtain ⟨f, x, ctl, done, origin, gist, epoch, fwd⟩ := o'.finish_ctl ((unitEnded h.tag z).cpl (d.withUnitEnded h.tag z))
  refine ⟨f, x, ?_, done, origin, gist, epoch, fwd⟩
  rw [endUnitAt_of_unit job z, Dev.dropJob, ctl]
  simp [Dev.withUnitEnded, unitEnded]

/-- A command that has ended with a completion of the present epoch is written by the commit, a pending rewind or not (R43). -/
theorem Opened.commit_ended {d e : Dev} {h : Hdr} {op : BitVec 16} (o : Opened d h op) {f : Flight} {x : Cpl}
    (ctl : e.ctl = { d.ctl with flights := [f], jobs := [] }) (done : f.done = some x) (origin : f.origin = .ring)
    (epoch : x.epoch = e.tl.epoch) (fwd : x.fwd = false) (resp : x.resp = []) :
    ∃ y : Cpl, e.commit.ctl.cplOut = d.ctl.cplOut ++ [y] ∧ Cpl.gist y = Cpl.gist x := by
  have behind : e.settleEpoch.ctl.behind = false := by simp [Dev.settleEpoch, ctl, o.behind]
  have present : e.tl.nextEpoch ≠ some x.epoch := by
    rw [epoch, Timeline.nextEpoch]
    cases e.tl.rewind <;> simp
  have settled : f.settled e.settleEpoch.mayWrite = true := by
    have may : e.settleEpoch.mayWrite x = true := by
      simp only [Dev.mayWrite, Dev.inTurn, behind]
      simpa [Dev.settleEpoch] using Or.inr present
    simp [Flight.settled, done, may]
  have written : writeable e.settleEpoch.mayWrite [] e.settleEpoch.ctl.flights = [f] := by
    simpa [Dev.settleEpoch, ctl, writeable] using settled
  have interim : e.settleEpoch.ctl.outbox.interim = [] := by simpa [Dev.settleEpoch, ctl] using o.interim
  unfold Dev.commit
  simp only [written, interim, List.foldl_nil, List.foldl_cons, done, origin]
  have events := foldl_leaves Dev.quiet commitEvt_quiet e.settleEpoch.ctl.outbox.events
    { e.settleEpoch with ctl := { e.settleEpoch.ctl with
      outbox := {}, upCpl := [], upEvt := [], sent := [], written := e.settleEpoch.ctl.outbox.written
      flights := unwritten e.settleEpoch.mayWrite [] e.settleEpoch.ctl.flights } }
  have path := fun {γ : Type} (v : Dev → γ) (r : ∀ d : Dev, v d.quiet = v d) => of_quiet v r events
  obtain ⟨y, out, gist⟩ := commitCpl_ring _ x
    ((path (·.ctl.cpl.room) fun _ => rfl).trans (by simp [Dev.settleEpoch, ctl, o.room]))
    ((path (·.ctl.heldCpl) fun _ => rfl).trans (by simp [Dev.settleEpoch, ctl, o.held]))
    ((path (·.ctl.heldCpl0) fun _ => rfl).trans (by simp [Dev.settleEpoch, ctl, o.held0]))
    ((path (·.ctl.behind) fun _ => rfl).trans behind) fwd (Or.inr resp)
  refine ⟨y, ?_, gist⟩
  calc _ = _ := of_quiet (·.ctl.cplOut) (fun _ => rfl) (leaving_quiet _ _ _)
    _ = _ := out
    _ = e.ctl.cplOut ++ [y] := (path (·.ctl.cplOut ++ [y]) fun _ => rfl :)
    _ = d.ctl.cplOut ++ [y] := by rw [ctl]

/-- A command on one channel that ends there at once is answered OK. -/
theorem answers_unit {s : State} {h : Hdr} (i : Idle s h) (op : BitVec 16) {ch : Nat} {d : Dev}
    (ctl : d.ctl = ((s.dev.takenUp h op).openUnit h.tag ch).ctl) (z : Nat) :
    Answers s { s with dev := ((d.endUnitAt h.tag ch z).settleJob h.tag).commit } h op stOk [] := by
  have o : Opened d h op := (openUnit_opened i op ch).congr ctl
  have ring : d.ctl.cplOut = s.dev.ctl.cplOut := (congrArg Ctl.cplOut ctl).trans (congrArg Ctl.cplOut (takenUp_ctl i op) :)
  obtain ⟨f, x, ended, done, origin, gist, epoch, fwd⟩ :=
    o.endUnitAt_ctl ((congrArg Ctl.jobs ctl).trans (openUnit_jobs i op ch)) z
  rw [settleJob_of_no_jobs (by rw [ended])]
  obtain ⟨y, out, same⟩ := o.commit_ended ended done origin (by simpa using epoch) fwd (congrArg (·.2.2.2.2.2) gist)
  have fields := same.trans gist
  simp only [Cpl.gist, Prod.mk.injEq] at fields
  exact ⟨y, by rw [out, ring], fields⟩

theorem endUnitAt_keeps (l : List Part) (d : Dev) (g : Tag) (ch z : Nat) : SameBut l d (d.endUnitAt g ch z) :=
  (sameBut_of_core (by rfl) l).trans (settleJob_keeps l (d.modJob g _) g)

/-- What a command does to one channel at once (R88). -/
theorem unit_ends {s : State} {h : Hdr} (i : Idle s h) (op : BitVec 16) (c : opClass op ≠ 0) (ch : Nat) (f : Chan → Chan) :
    let t := { s with dev :=
      (((((s.dev.takenUp h op).openUnit h.tag ch).modChan ch f).endUnit h.tag ch).settleJob h.tag).commit }
    Keeps [.pins] s t ∧ Answers s t h op stOk [] ∧ t.dev.chan ch = f (s.dev.chan ch) ∧
      ∀ k, k ≠ ch → t.dev.chan k = s.dev.chan k := by
  generalize hd : ((s.dev.takenUp h op).openUnit h.tag ch).modChan ch f = d
  have frame : SameBut [.pins] (s.dev.takenUp h op) d := hd ▸ (openUnit_keeps _ _ _ _).trans (modChan_keeps _ ch f)
  have chan : ∀ k, ((d.endUnit h.tag ch).settleJob h.tag).commit.chan k = d.chan k := fun k => chan_of_pins (by simp) k
  refine ⟨keeps_of_takenUp c ((frame.trans (endUnitAt_keeps _ _ _ _ _)).trans (settleJob_keeps _ _ _)),
    answers_unit i op (by rw [← hd, Dev.modChan_ctl]) _, ?_, fun k ne => ?_⟩
  · rw [chan, ← hd, modChan_chan_self, openUnit_chan, takenUp_chan]
  · rw [chan, ← hd, modChan_chan_of_ne _ ne, openUnit_chan, takenUp_chan]

end Sys2Proof.Machine
end

section
/-!
PROOFS. The settings of pin channels (R57, R61 to R63, R69, R75, R85, R88, R124): PIN.DRIVER, PIN.LOAD, PIN.CLAMP and PIN.LIMIT.
-/
namespace Sys2Proof.Machine

/-! ### A driver setting or an enable on one channel -/

/-- A channel with a driver setting in effect (R57, R83, R124, log entry 142). -/
def Chan.driven (c : Chan) (mode : BitVec 2) (off : Bool) : Chan :=
  { c with drvMode := if c.noSlice then 0 else mode, offMode := off, tripped := false, drvPend := none }

theorem ownerOf_of_seq {a b : Dev} (h : a.seq = b.seq) (ch : Nat) : a.ownerOf ch = b.ownerOf ch := by
  simp only [Dev.ownerOf, Dev.thread, h]

/-- On a channel without a thread a driver setting takes effect at once. -/
theorem setDriver_unowned {d : Dev} {ch : Nat} (own : d.ownerOf ch = none) (mode : BitVec 2) (off : Bool) (g : Tag) :
    d.setDriver ch mode off g = (d.modChan ch fun c => c.driven mode off).endUnit g ch := by
  simp [Dev.setDriver, own, Dev.applyDriver, Chan.driven, Dev.endUnit]

/-- What a driver in OFF or in a static mode puts on its ball (R57). -/
theorem ballAt_driven (c : Chan) (off : Bool) (z : Nat) :
    (c.driven 0 off).ballAt z = .hiZ ∧
      (c.noSlice = false → (c.driven 2 off).ballAt z = .vih ∧ (c.driven 3 off).ballAt z = .vil) := by
  refine ⟨by simp [Chan.driven, Chan.ballAt], fun slice => ?_⟩
  simp [Chan.driven, Chan.ballAt, slice]

theorem Chan.blocks_of_open {c : Chan} (h : c.shutting = false) (q : QueuedPin) : c.blocks q = false := by simp [Chan.blocks, h]

/-- An enable that nothing stands against runs on its channel at once (R85 to R87). -/
theorem enablePins_single {d : Dev} {ch : Nat} (hc : ch < 512) (q : QueuedPin) (check : d.checkPin q ch = none)
    (shut : (d.chan ch).shutting = false) :
    d.enablePins (1#512 <<< ch) q = ((d.openUnit q.tag ch).runPin ch q).settleJob q.tag := by
  have waits : ([ch].filter fun k => ((d.openUnit q.tag ch).chan k).blocks q) = [] := by simp [Chan.blocks_of_open shut]
  rw [Dev.enablePins, members_singleton hc, allOrNone_pass (by simpa using check)]
  unfold Dev.openUnit at waits ⊢
  simp only [waits, List.foldl_cons, List.foldl_nil]

/-- An enable that a check turns away with DENIED or CONFLICT (R87). -/
theorem enablePins_refused {d : Dev} {ch holder : Nat} {st : BitVec 4} (hc : ch < 512) (q : QueuedPin)
    (hs : st = stDenied ∨ st = stConflict) (check : d.checkPin q ch = some (st, holder)) :
    d.enablePins (1#512 <<< ch) q = d.refuse q.tag st ch 0 holder := by
  rw [Dev.enablePins, members_singleton hc, allOrNone_refused hs check]

/-- A driver that goes off, or an enable of it that nothing stands against, takes effect on a channel without a thread. -/
theorem pinDriver_in_force {s : State} {h : Hdr} (i : Idle s h) {ch : Nat} (hc : ch < 512) (own : s.dev.ownerOf ch = none)
    (mode : BitVec 2) (off : Bool) (free : mode ≠ 0 ∨ off = true →
      (s.dev.takenUp h 0x0201).driverCheck mode off ch = none ∧ (s.dev.chan ch).shutting = false) :
    ∃ t, exec (.pinDriver h (1#512 <<< ch) mode off) s = .next t ∧ Keeps [.pins] s t ∧ Answers s t h 0x0201 stOk [] ∧
      t.dev.chan ch = (s.dev.chan ch).driven mode off ∧ ∀ k, k ≠ ch → t.dev.chan k = s.dev.chan k := by
  have set := setDriver_unowned (d := (s.dev.takenUp h 0x0201).openUnit h.tag ch)
    ((ownerOf_of_seq (by simp) ch).trans own) mode off h.tag
  refine ⟨_, (hostCmd_idle i 0x0201 _).trans ?_, unit_ends i 0x0201 (by decide) ch fun c => c.driven mode off⟩
  rw [← set]
  by_cases on : mode ≠ 0 ∨ off = true
  · obtain ⟨check, shut⟩ := free on
    rw [if_pos on, enablePins_single hc (.driver mode off h.tag) check (by rw [takenUp_chan]; exact shut)]
    rfl
  · obtain ⟨rfl, rfl⟩ : mode = 0 ∧ off = false := by simpa using on
    rw [if_neg on, members_singleton hc]
    rfl

/-- PIN.DRIVER with DENIED or CONFLICT against it. -/
theorem pinDriver_refused {s : State} {h : Hdr} (i : Idle s h) {ch holder : Nat} (hc : ch < 512) {mode : BitVec 2} {off : Bool}
    {st : BitVec 4} (on : mode ≠ 0 ∨ off = true) (hs : st = stDenied ∨ st = stConflict)
    (check : (s.dev.takenUp h 0x0201).driverCheck mode off ch = some (st, holder)) :
    ∃ t, exec (.pinDriver h (1#512 <<< ch) mode off) s = .next t ∧ Keeps [] s t ∧ Answers s t h 0x0201 st [] := by
  refine ⟨_, (hostCmd_idle i 0x0201 _).trans ?_, refused_ends i 0x0201 (by decide) st ch 0 holder⟩
  rw [if_pos on, enablePins_refused hc (.driver mode off h.tag) hs check]
  rfl

/-- A load enable that nothing stands against takes effect. -/
theorem pinLoad_in_force {s : State} {h : Hdr} (i : Idle s h) {ch : Nat} (hc : ch < 512) (iol ioh : BitVec 8)
    (check : (s.dev.takenUp h 0x0202).loadCheck ch = none) (shut : (s.dev.chan ch).shutting = false) :
    ∃ t, exec (.pinLoad h (1#512 <<< ch) true iol ioh) s = .next t ∧ Keeps [.pins] s t ∧ Answers s t h 0x0202 stOk [] ∧
      t.dev.chan ch = { s.dev.chan ch with loadEn := true, iol := iol, ioh := ioh } ∧
      ∀ k, k ≠ ch → t.dev.chan k = s.dev.chan k := by
  refine ⟨_, (hostCmd_idle i 0x0202 _).trans ?_,
    unit_ends i 0x0202 (by decide) ch fun c => { c with loadEn := true, iol := iol, ioh := ioh }⟩
  rw [if_pos rfl, enablePins_single hc (.load iol ioh h.tag) check (by rw [takenUp_chan]; exact shut)]
  rfl

/-- PIN.LOAD with CONFLICT against its enable. -/
theorem pinLoad_conflict {s : State} {h : Hdr} (i : Idle s h) {ch holder : Nat} (hc : ch < 512) (iol ioh : BitVec 8)
    (check : (s.dev.takenUp h 0x0202).loadCheck ch = some (stConflict, holder)) :
    ∃ t, exec (.pinLoad h (1#512 <<< ch) true iol ioh) s = .next t ∧ Keeps [] s t ∧ Answers s t h 0x0202 stConflict [] := by
  refine ⟨_, (hostCmd_idle i 0x0202 _).trans ?_, refused_ends i 0x0202 (by decide) stConflict ch 0 holder⟩
  rw [if_pos rfl, enablePins_refused hc (.load iol ioh h.tag) (.inr rfl) check]
  rfl

/-! ### What stands against an enable -/

/-- Without the supplies of the pin electronics a driver enable is DENIED (R75). -/
theorem driverCheck_without_supplies {d : Dev} (pe : d.hk.pe = false) {mode : BitVec 2} (on : mode ≠ 0) (off : Bool)
    (ch : Nat) : d.driverCheck mode off ch = some (stDenied, 0) := by
  have bad : (((mode != 0 || off) && !d.hk.pe) || (mode == 1 && (d.chan ch).noSlice)) = true := by
    rw [bne_iff_ne.mpr on, pe]
    rfl
  rw [Dev.driverCheck, bad]
  exact firstOf_denied 0 _

/-- A load in force stands against termination (R62). -/
theorem driverCheck_of_load {d : Dev} (pe : d.hk.pe = true) {ch : Nat} (load : (d.chan ch).loadEn = true) {mode : BitVec 2}
    (slice : mode = 1 → (d.chan ch).noSlice = false) : d.driverCheck mode true ch = some (stConflict, 2) := by
  have good : (((mode != 0 || true) && !d.hk.pe) || (mode == 1 && (d.chan ch).noSlice)) = false := by simpa [pe] using slice
  have clash : (d.chan ch).driverClash mode true = some 2 := if_pos ⟨rfl, load⟩
  rw [Dev.driverCheck, good, clash]
  refine firstOf_conflict fun r hr => ?_
  rcases List.mem_pair.mp hr with hr | hr <;> rw [orFail_status hr] <;> decide

/-- Termination in force stands against a load (R62). -/
theorem loadCheck_of_termination {d : Dev} (pe : d.hk.pe = true) {ch : Nat} (off : (d.chan ch).offMode = true) :
    d.loadCheck ch = some (stConflict, 3) := by
  have clash : (d.chan ch).loadClash = some 3 := if_pos (by rw [off]; rfl)
  rw [Dev.loadCheck, pe, clash]
  refine firstOf_conflict fun r hr => ?_
  rw [orFail_status (List.mem_singleton.mp hr)]
  decide

/-! ### Settings of channel sets -/

/-- A load is disabled on a set of channels, with its currents. -/
theorem pinLoad_disables {s : State} {h : Hdr} (i : Idle s h) (chs : BitVec 512) (iol ioh : BitVec 8) :
    ∃ t, exec (.pinLoad h chs false iol ioh) s = .next t ∧ Keeps [.pins] s t ∧ Answers s t h 0x0202 stOk [] ∧
      ∀ k, k < 512 → t.dev.chan k =
        if chs.getLsbD k then { s.dev.chan k with loadEn := false, iol := iol, ioh := ioh } else s.dev.chan k := by
  refine ⟨_, (hostCmd_idle i 0x0202 _).trans ?_,
    set_ends i 0x0202 (by decide) chs fun _ c => { c with loadEn := false, iol := iol, ioh := ioh }⟩
  rw [if_neg Bool.false_ne_true]

/-- Clamps are enabled on a set of channels whose levels allow it, or disabled (R63). -/
theorem pinClamp_sets {s : State} {h : Hdr} (i : Idle s h) (chs : BitVec 512) (en : Bool) (pe : en = true → s.dev.hk.pe = true)
    (levels : en = true → ∀ k, k < 512 → chs.getLsbD k = true →
      (s.dev.chan k).clampsNow = true ∧ clampsGood (s.dev.chan k) = true) :
    ∃ t, exec (.pinClamp h chs en) s = .next t ∧ Keeps [.pins] s t ∧ Answers s t h 0x0203 stOk [] ∧
      ∀ k, k < 512 → t.dev.chan k = if chs.getLsbD k then { s.dev.chan k with clampEn := en } else s.dev.chan k := by
  refine ⟨_, (hostCmd_idle i 0x0203 _).trans ?_, set_ends i 0x0203 (by decide) chs fun _ c => { c with clampEn := en }⟩
  rw [allOrNone_pass]
  intro k hk
  obtain ⟨lt, mem⟩ := mem_members.mp hk
  cases en with
  | false => rfl
  | true =>
    obtain ⟨now, good⟩ := levels rfl k lt mem
    simp [pe rfl, now, good, orFail, firstOf]

/-- A limiter as PIN.LIMIT sets it, with a ramp in progress going on from the present (R69). -/
def Level.limited (step interval : BitVec 16) (t : Timeline) (v : Level) : Level :=
  { v with step := step.toNat, interval := interval.toNat, ramp := v.ramp.map fun _ => (clockOf t.now : Int) }

/-- Limiters are set on a set of levels of a set of channels, and every other level stays. -/
theorem pinLimit_sets {s : State} {h : Hdr} (i : Idle s h) (chs : BitVec 512) (mask : BitVec 7) (step interval : BitVec 16)
    (lo : 1 ≤ step.toNat) (hi : step.toNat ≤ 16383) :
    ∃ t, exec (.pinLimit h chs mask step interval) s = .next t ∧ Keeps [.pins] s t ∧ Answers s t h 0x0204 stOk [] ∧
      ∀ k l, k < 512 → l < 7 → (t.dev.chan k).level l =
        if chs.getLsbD k = true ∧ mask.getLsbD l = true then
          ((s.dev.chan k).level l).limited step interval (s.dev.takenUp h 0x0204).tl
        else (s.dev.chan k).level l := by
  obtain ⟨frame, answer, chan⟩ := set_ends i 0x0204 (by decide) chs fun t c =>
    (members mask).foldl (fun c l => c.modLevel l (Level.limited step interval t)) c
  refine ⟨_, (hostCmd_idle i 0x0204 _).trans ?_, frame, answer, fun k l hk hl => ?_⟩
  · have good : ¬ (step = 0 ∨ step.toNat > 16383) := by
      rintro (rfl | big)
      · exact absurd lo (by decide)
      · omega
    rw [if_neg good]
    rfl
  · rw [chan k hk]
    by_cases mem : chs.getLsbD k = true
    · rw [if_pos mem, foldl_modLevel_level _ mask _ hl]
      simp only [mem, true_and]
    · rw [if_neg mem, if_neg (mem ·.1)]

end Sys2Proof.Machine

open Sys2Proof Sys2Proof.Machine

/-- Settles O33, by what each command does to the channels it names and what stands against it. -/
theorem pinSettings : Obligations.PinSettings := by
  unfold Obligations.PinSettings
  refine ⟨fun s h ch i hc own => ⟨?_, fun mode off on check shut => ?_, fun mode off on pe => ?_,
    fun iol ioh check shut => pinLoad_in_force i hc iol ioh check shut⟩,
    fun s h chs i => ⟨fun iol ioh => pinLoad_disables i chs iol ioh, fun en pe levels => pinClamp_sets i chs en pe levels,
      fun mask step interval lo hi => ?_, fun pe ch hc => ⟨fun iol ioh off => ?_, fun mode load slice => ?_⟩⟩⟩
  · obtain ⟨t, runs, frame, answer, chan, others⟩ := pinDriver_in_force i hc own 0 false (by simp)
    refine ⟨t, runs, frame, answer, ?_, ?_, ?_, ?_, others⟩
    · rw [chan]; exact ite_self _
    · rw [chan]; rfl
    · rw [chan]; rfl
    · rw [Dev.ball, chan]; exact (ballAt_driven _ _ _).1
  · obtain ⟨t, runs, frame, answer, chan, others⟩ := pinDriver_in_force i hc own mode off fun _ => ⟨check, shut⟩
    refine ⟨t, runs, frame, answer, by rw [chan]; rfl, by rw [chan]; rfl, fun slice => ?_, others⟩
    obtain ⟨high, low⟩ := (ballAt_driven (s.dev.chan ch) off t.dev.tl.now).2 slice
    refine ⟨?_, ?_⟩ <;> rintro rfl <;> rw [Dev.ball, chan]
    exacts [high, low]
  · exact pinDriver_refused i hc (.inl on) (.inl rfl) (driverCheck_without_supplies (by simpa using pe) on off ch)
  · obtain ⟨t, runs, frame, answer, level⟩ := pinLimit_sets i chs mask step interval lo hi
    refine ⟨t, runs, frame, answer, fun k l hk hl => ⟨fun inSet inMask => ?_, fun out => ?_⟩⟩
    · rw [level k l hk hl, if_pos ⟨inSet, inMask⟩]
      exact ⟨rfl, rfl, rfl⟩
    · rw [level k l hk hl, if_neg]
      rcases out with out | out <;> simp [out]
  · exact pinLoad_conflict i hc iol ioh (loadCheck_of_termination (by simpa using pe) (by simpa using off))
  · exact pinDriver_refused i hc (.inr rfl) (.inr rfl)
      (driverCheck_of_load (by simpa using pe) (by simpa using load) (by simpa using slice))
end

section
/-!
PROOFS. The PMU commands that act at once (R96, R112, R113, R115, R117, R118, R120): PMU.LIMIT, PMU.WAVE_LOAD, PMU.WAVE_RUN bound
to a segment, PMU.WAVE_STOP, PMU.DRVI and PMU.STATE.
-/
namespace Sys2Proof.Machine

/-! ### PMUs and banks -/

theorem pmu_of_pins {a b : Dev} (h : a.pins = b.pins) (k : Nat) : a.pmu k = b.pmu k := congrArg Chan.pmu (chan_of_pins h k)

@[simp] theorem commit_pmu (d : Dev) (k : Nat) : d.commit.pmu k = d.pmu k := pmu_of_pins (commit_pins d) k
@[simp] theorem ok_pmu (d : Dev) (g : Tag) (k : Nat) : (d.ok g).pmu k = d.pmu k := pmu_of_pins (d.ok_pins g) k
@[simp] theorem takenUp_pmu (d : Dev) (h : Hdr) (op : BitVec 16) (k : Nat) : (d.takenUp h op).pmu k = d.pmu k :=
  pmu_of_pins (takenUp_pins d h op) k
@[simp] theorem takenUp_banks (d : Dev) (h : Hdr) (op : BitVec 16) : (d.takenUp h op).banks = d.banks := by simp [Dev.takenUp]

@[simp] theorem takenUp_ownerOf (d : Dev) (h : Hdr) (op : BitVec 16) (k : Nat) : (d.takenUp h op).ownerOf k = d.ownerOf k :=
  ownerOf_of_seq (takenUp_seq d h op) k

theorem bank_of_banks {a b : Dev} (h : a.banks = b.banks) (k : Nat) : a.bank k = b.bank k := by rw [Dev.bank, h, Dev.bank]

@[simp] theorem takenUp_bank (d : Dev) (h : Hdr) (op : BitVec 16) (k : Nat) : (d.takenUp h op).bank k = d.bank k :=
  bank_of_banks (takenUp_banks d h op) k

@[simp] theorem modBank_bank_self (d : Dev) (b : Nat) (f : Bank → Bank) : (d.modBank b f).bank b = f (d.bank b) :=
  Tab.get_mod_self _ _ _ _

@[simp] theorem modPmu_pmu_self (d : Dev) (i : Nat) (f : Pmu → Pmu) : (d.modPmu i f).pmu i = f (d.pmu i) :=
  congrArg Chan.pmu (modChan_chan_self d i _)

theorem modBank_keeps (d : Dev) (b : Nat) (f : Bank → Bank) : SameBut [.banks] d (d.modBank b f) := by
  intro p hp
  cases p with
  | banks => exact absurd (List.mem_singleton.mpr rfl) hp
  | tl => exact Timeline.kept_refl _
  | _ => rfl

theorem withTl_keeps (d : Dev) (t : Timeline) : SameBut [.pins, .tl] d { d with tl := t } := by
  intro p hp
  cases p with
  | tl => exact absurd (by decide) hp
  | _ => rfl

@[simp] theorem takenUp_waveLocked (d : Dev) (h : Hdr) (op : BitVec 16) (b k : Nat) :
    (d.takenUp h op).waveLocked b k = d.waveLocked b k := by
  simp only [Dev.waveLocked, takenUp_bank, takenUp_pmu]

theorem orFail_bad {bad : Bool} (h : bad = true) (st : BitVec 4) (k : Nat) : orFail bad st k = some (st, k) := if_pos h

theorem orFail_good {bad : Bool} (h : bad = false) (st : BitVec 4) (k : Nat) : orFail bad st k = none := by rw [h]; rfl

/-- One unit that a check turns away with BADARG. -/
theorem allOrNone_badarg {d : Dev} {g : Tag} {i holder : Nat} {check : Nat → Option (BitVec 4 × Nat)} {act : Dev → Dev}
    (h : check i = some (stBadarg, holder)) : d.allOrNone g [i] check act = d.refuse g stBadarg i 0 holder := by
  have denied : stBadarg ≠ stDenied := by decide
  have conflict : stBadarg ≠ stConflict := by decide
  have w : worstOf [i] check = some (i, stBadarg, holder) := by simp [worstOf, h, denied, conflict]
  rw [Dev.allOrNone, w]

/-! ### A command on one PMU of an idle device -/

/-- A host command on an idle device, by what its meaning leaves of the device that has taken it up. -/
theorem hostCmd_runs {s : State} {h : Hdr} (i : Idle s h) (op : BitVec 16) {body : Dev → Dev} {d : Dev}
    (meaning : body (s.dev.takenUp h op) = d) : hostCmd s h op body = .next { s with dev := d.commit } := by
  rw [hostCmd_idle i, meaning]

/-- A meaning that leaves the control complex alone and ends OK at once. -/
theorem ok_ends {l : List Part} {s : State} {h : Hdr} (i : Idle s h) (op : BitVec 16) (c : opClass op ≠ 0) {d : Dev}
    (ctl : d.ctl = (s.dev.takenUp h op).ctl) (frame : SameBut l (s.dev.takenUp h op) d) :
    Keeps l s { s with dev := (d.ok h.tag).commit } ∧ Answers s { s with dev := (d.ok h.tag).commit } h op stOk [] :=
  ⟨keeps_of_takenUp c (frame.trans (ok_keeps _ _ _)), answers_ok i op d ctl⟩

/-- A setting of one PMU that is in force at once. -/
theorem pmu_ends {s : State} {h : Hdr} (i : Idle s h) (op : BitVec 16) (c : opClass op ≠ 0) (ch : Nat) (f : Pmu → Pmu) :
    let t := { s with dev := (((s.dev.takenUp h op).modPmu ch f).ok h.tag).commit }
    Keeps [.pins] s t ∧ Answers s t h op stOk [] ∧ t.dev.pmu ch = f (s.dev.pmu ch) := by
  obtain ⟨frame, answer⟩ := ok_ends i op c (d := (s.dev.takenUp h op).modPmu ch f) rfl (modChan_keeps _ ch _)
  exact ⟨frame, answer, by rw [commit_pmu, ok_pmu, modPmu_pmu_self, takenUp_pmu]⟩

/-- A job of which a channel has not ended stays open. -/
theorem settleJob_of_unit {d : Dev} {g : Tag} {ch : Nat} (hc : ch < 512)
    (job : d.ctl.jobs = [{ tag := g, left := 1#512 <<< ch }]) : d.settleJob g = d := by
  have waits : (1#512 <<< ch) ≠ 0 := by
    intro none
    have empty := members_singleton hc
    rw [none] at empty
    simp [members] at empty
  have found : d.job g = some { tag := g, left := 1#512 <<< ch } := by simp [Dev.job, job]
  rw [Dev.settleJob, found]
  exact if_neg fun ended => waits ended.1

/-- The job of a command that has changed one PMU stays open until that channel ends. -/
theorem settleJob_of_openUnit {s : State} {h : Hdr} (i : Idle s h) (op : BitVec 16) {ch : Nat} (hc : ch < 512) (f : Pmu → Pmu) :
    (((s.dev.takenUp h op).openUnit h.tag ch).modPmu ch f).settleJob h.tag =
      ((s.dev.takenUp h op).openUnit h.tag ch).modPmu ch f :=
  settleJob_of_unit hc ((congrArg Ctl.jobs (Dev.modPmu_ctl _ ch f)).trans (openUnit_jobs i op ch))

@[simp] theorem openUnit_pmu (d : Dev) (g : Tag) (ch k : Nat) : (d.openUnit g ch).pmu k = d.pmu k := rfl

theorem openUnit_flights {s : State} {h : Hdr} (i : Idle s h) (op : BitVec 16) (ch : Nat) :
    ((s.dev.takenUp h op).openUnit h.tag ch).ctl.flights = [{ newFlight h op with accepted := true }] := by
  simp [Dev.openUnit, Dev.openJob, Dev.accept, takenUp_ctl i op, modFlight, newFlight]

/-- A command that has changed one PMU and waits for that channel to end. -/
theorem pmu_waits {s : State} {h : Hdr} (i : Idle s h) (op : BitVec 16) (c : opClass op ≠ 0) (ch : Nat) (f : Pmu → Pmu)
    {d : Dev} (hd : d = ((s.dev.takenUp h op).openUnit h.tag ch).modPmu ch f) :
    let t := { s with dev := d.commit }
    Keeps [.pins] s t ∧ Waits s t h op ∧ t.dev.pmu ch = f (s.dev.pmu ch) := by
  have ctl : d.ctl = ((s.dev.takenUp h op).openUnit h.tag ch).ctl := by rw [hd, Dev.modPmu_ctl]
  have frame : SameBut [.pins] (s.dev.takenUp h op) d := hd ▸ (openUnit_keeps _ _ _ _).trans (modChan_keeps _ ch _)
  obtain ⟨out, flights⟩ := commit_waits d { newFlight h op with accepted := true } (by rw [ctl, openUnit_flights i]) rfl
    (by rw [ctl]; exact (openUnit_opened i op ch).interim)
  have ring : d.ctl.cplOut = s.dev.ctl.cplOut := (congrArg Ctl.cplOut ctl).trans (congrArg Ctl.cplOut (takenUp_ctl i op) :)
  refine ⟨keeps_of_takenUp c frame, ⟨out.trans ring, _, flights, rfl, rfl, rfl, rfl⟩, ?_⟩
  rw [commit_pmu, hd, modPmu_pmu_self, openUnit_pmu, takenUp_pmu]

/-! ### PMU.LIMIT (R96) -/

/-- A limiter as PMU.LIMIT sets it, with a ramp in progress going on from the present. -/
def Pmu.limited (step interval : BitVec 16) (t : Timeline) (p : Pmu) : Pmu :=
  { p with step := step.toNat, interval := interval.toNat, ramp := p.ramp.map fun _ => (clockOf t.now : Int) }

/-- On a PMU without a sequence the limiter is set, and a ramp in progress alone follows it. -/
theorem pmuLimit_sets {s : State} {h : Hdr} (i : Idle s h) {ch : Nat} (hc : ch < 512) {step : BitVec 16} (interval : BitVec 16)
    (good : step ≠ 0) (rests : (s.dev.pmu ch).seq = none) :
    ∃ t, exec (.pmuLimit h (1#512 <<< ch) step interval) s = .next t ∧ Keeps [.pins] s t ∧ Answers s t h 0x0303 stOk [] ∧
      t.dev.pmu ch = (s.dev.pmu ch).limited step interval (s.dev.takenUp h 0x0303).tl := by
  have seq : (((s.dev.takenUp h 0x0303).modPmu ch
      (Pmu.limited step interval (s.dev.takenUp h 0x0303).tl)).pmu ch).seq = none := by
    rw [modPmu_pmu_self, takenUp_pmu]
    exact rests
  refine ⟨_, hostCmd_runs i 0x0303 ?_, pmu_ends i 0x0303 (by decide) ch (Pmu.limited step interval _)⟩
  rw [if_neg good, members_singleton hc]
  simp only [List.foldl_cons, List.foldl_nil]
  unfold Pmu.limited at seq ⊢
  rw [seq]

/-! ### PMU.WAVE_LOAD (R113, R117) -/

/-- Valid entries that no waveform uses are written into the table of a bank. -/
theorem pmuWaveLoad_writes {s : State} {h : Hdr} (i : Idle s h) (bank : BitVec 4) {first : Nat} {entries : List (BitVec 64)}
    (room : first + entries.length ≤ 2048) (good : entries.all waveGood = true)
    (free : ∀ k, s.dev.waveLocked bank.toNat k = false) :
    ∃ t, exec (.pmuWaveLoad h bank first entries) s = .next t ∧ Keeps [.banks] s t ∧ Answers s t h 0x0305 stOk [] ∧
      (t.dev.bank bank.toNat).wave = (s.dev.bank bank.toNat).wave.fill 0 first entries := by
  obtain ⟨frame, answer⟩ := ok_ends i 0x0305 (by decide)
    (d := (s.dev.takenUp h 0x0305).modBank bank.toNat fun k => { k with wave := k.wave.fill 0 first entries }) rfl
    (modBank_keeps _ _ _)
  have fits : ¬ (first + entries.length > 2048 ∨ ¬ entries.all waveGood) := by simp [good]; omega
  have unlocked : (((List.range entries.length).map (first + ·)).find? fun k =>
      (s.dev.takenUp h 0x0305).waveLocked bank.toNat k) = none := by
    rw [List.find?_eq_none]
    intro k _
    simp [free k]
  refine ⟨_, hostCmd_runs i 0x0305 ?_, frame, answer, ?_⟩
  · simp only [if_neg fits, unlocked]
  · rw [bank_of_banks ((commit_banks _).trans (Dev.ok_banks _ _)), modBank_bank_self, takenUp_bank]

/-- Where a waveform uses one of the entries, nothing is written. -/
theorem pmuWaveLoad_locked {s : State} {h : Hdr} (i : Idle s h) (bank : BitVec 4) {first k : Nat} {entries : List (BitVec 64)}
    (room : first + entries.length ≤ 2048) (good : entries.all waveGood = true) (lo : first ≤ k)
    (hi : k < first + entries.length) (used : s.dev.waveLocked bank.toNat k = true) :
    ∃ t, exec (.pmuWaveLoad h bank first entries) s = .next t ∧ Keeps [] s t ∧ Answers s t h 0x0305 stLocked [] := by
  have fits : ¬ (first + entries.length > 2048 ∨ ¬ entries.all waveGood) := by simp [good]; omega
  have locked : (((List.range entries.length).map (first + ·)).find? fun k =>
      (s.dev.takenUp h 0x0305).waveLocked bank.toNat k).isSome = true := by
    rw [List.find?_isSome]
    exact ⟨k, List.mem_map.mpr ⟨k - first, List.mem_range.mpr (by omega), by omega⟩, by rw [takenUp_waveLocked, used]⟩
  obtain ⟨j, found⟩ := Option.isSome_iff_exists.mp locked
  refine ⟨_, hostCmd_runs i 0x0305 ?_, refused_ends i 0x0305 (by decide) stLocked j 0 0⟩
  simp only [if_neg fits, found]

/-! ### PMU.WAVE_RUN (R115) -/

/-- A PMU with a waveform that waits for a segment. -/
def Pmu.waveBound (g : Tag) (start : Nat) (sg : BitVec 12) (p : Pmu) : Pmu :=
  { p with wave := some { tag := g, first := start, idx := start, bind := some sg } }

/-- A valid waveform is bound to a segment on a connected PMU that forces and is free, of a channel that a thread owns. -/
theorem pmuWaveRun_binds {s : State} {h : Hdr} (i : Idle s h) {ch start : Nat} (hc : ch < 512) (sg : BitVec 12)
    (valid : ((s.dev.bank (bankOf ch)).waveLast 2048 start).isSome = true) (closed : (s.dev.pmu ch).closed = true)
    (forces : forcing (s.dev.pmu ch).mode = true) (owned : (s.dev.ownerOf ch).isSome = true) (meas : (s.dev.pmu ch).meas = none)
    (wave : (s.dev.pmu ch).wave = none) (drvi : (s.dev.pmu ch).drvi = false) :
    ∃ t, exec (.pmuWaveRun h (1#512 <<< ch) start (.segment sg)) s = .next t ∧ Keeps [.pins] s t ∧ Waits s t h 0x0306 ∧
      t.dev.pmu ch = (s.dev.pmu ch).waveBound h.tag start sg := by
  obtain ⟨frame, waits, pmu⟩ := pmu_waits i 0x0306 (by decide) ch (Pmu.waveBound h.tag start sg)
    (settleJob_of_openUnit i 0x0306 hc _)
  refine ⟨_, hostCmd_runs i 0x0306 ?_, frame, waits, pmu⟩
  rw [members_singleton hc, allOrNone_pass]
  · rfl
  · intro k hk
    obtain rfl := List.mem_singleton.mp hk
    dsimp only
    rw [orFail_good (by simp [meas, wave, drvi]), orFail_good]
    · rfl
    · simp [valid, owned, closed, forces]

/-! ### PMU.WAVE_STOP (R118) -/

theorem advance_is_withTl (d : Dev) (z : Nat) : ∃ t, d.advance z = { d with tl := t } := by
  unfold Dev.advance
  by_cases running : d.tl.running = true
  · by_cases reached : d.tl.reach z = d.tl.now
    · exact ⟨d.tl, by rw [if_neg (not_not.mpr running), if_pos reached]⟩
    · exact ⟨_, by rw [if_neg (not_not.mpr running), if_neg reached]⟩
  · exact ⟨_, if_pos running⟩

theorem endClock_is_withTl (d : Dev) (chs : List Nat) : ∃ t, d.endClock chs = { d with tl := t } := by
  unfold Dev.endClock
  split_ifs
  exacts [advance_is_withTl d _, ⟨d.tl, rfl⟩]

theorem tookAct_is_withTl (d : Dev) (g : Tag) (k : ActKind) (waits : Nat → Bool) (n : Nat) :
    ∃ t, d.tookAct g k waits n = { d with tl := t } := by
  unfold Dev.tookAct
  split_ifs
  exacts [⟨d.tl, rfl⟩, ⟨_, rfl⟩]

theorem modJob_of_no_jobs {d : Dev} (h : d.ctl.jobs = []) (g : Tag) (f : Job → Job) : d.modJob g f = d := by
  have same : ({ d.ctl with jobs := d.ctl.jobs.map fun j => if j.tag = g then f j else j } : Ctl) = d.ctl := by
    rw [h, List.map_nil, ← h]
  rw [Dev.modJob, same]

theorem cutUnit_of_no_jobs {d : Dev} (h : d.ctl.jobs = []) (g : Tag) (u : Nat) : d.cutUnit g u = d := by
  rw [Dev.cutUnit, modJob_of_no_jobs h, settleJob_of_no_jobs h]

theorem endUnit_of_no_jobs {d : Dev} (h : d.ctl.jobs = []) (g : Tag) (u : Nat) : d.endUnit g u = d := by
  rw [Dev.endUnit, Dev.endUnitAt, modJob_of_no_jobs h, settleJob_of_no_jobs h]

/-- Without an open job the end of a channel's part concerns nobody. -/
theorem pmuEnd_of_no_jobs {d : Dev} (h : d.ctl.jobs = []) (g : Option Tag) (ch : Nat) (rep : Bool) : d.pmuEnd g ch rep = d := by
  cases g with
  | none => rfl
  | some g =>
    cases rep with
    | false => exact endUnit_of_no_jobs h g ch
    | true =>
      have replaced : d.replaceUnit g ch = d := by rw [Dev.replaceUnit, modJob_of_no_jobs h, endUnit_of_no_jobs h]
      exact replaced

/-- A waveform that no measurement serves is taken off its channel, where no job is open. -/
theorem cutWave_of_no_jobs {d : Dev} (h : d.ctl.jobs = []) {ch : Nat} {w : Wave} (wave : (d.pmu ch).wave = some w)
    (meas : (d.pmu ch).meas = none) : d.cutWave ch = d.modPmu ch fun p => { p with wave := none } := by
  unfold Dev.cutWave
  simp only [wave, meas, Option.any_none, Bool.false_eq_true, if_false]
  exact cutUnit_of_no_jobs (d := d.modPmu ch _) h _ _

/-- What PMU.WAVE_STOP does on a channel, as its meaning says. -/
def Dev.stopWave (d : Dev) (ch : Nat) : Dev :=
  let ran := (d.pmu ch).wave.any (·.running)
  let tag := ((d.pmu ch).wave.map (·.tag)).getD 0
  let d : Dev := d.cutWave ch
  let d : Dev := d.tookAct tag .wave (fun i => (d.pmu i).wave.any fun w => w.tag == tag && !w.running) 512
  if ran && (d.pmu ch).seq.isNone then
    (d.pmuEnd (d.pmu ch).forceTag ch true).modPmu ch fun p => { p with
      ramp := none, forceTag := none, vTarget := if p.mode = 1 then p.applied else p.vTarget
      iTarget := if p.mode = 2 then p.applied else p.iTarget }
  else d

/-- Without an open job a stop changes the PMU, from which the waveform goes and whose code stays, and the timeline. -/
theorem stopWave_ends {d : Dev} (h : d.ctl.jobs = []) {ch : Nat} {w : Wave} (wave : (d.pmu ch).wave = some w)
    (meas : (d.pmu ch).meas = none) :
    (d.stopWave ch).ctl = d.ctl ∧ SameBut [.pins, .tl] d (d.stopWave ch) ∧ ((d.stopWave ch).pmu ch).wave = none ∧
      ((d.stopWave ch).pmu ch).applied = (d.pmu ch).applied := by
  unfold Dev.stopWave
  simp only [cutWave_of_no_jobs h wave meas]
  generalize hc : (d.modPmu ch fun p => { p with wave := none }) = c
  have cut : c.pmu ch = { d.pmu ch with wave := none } := by rw [← hc, modPmu_pmu_self]
  have ctl : c.ctl = d.ctl := hc ▸ rfl
  have frame : SameBut [.pins, .tl] d c := hc ▸ (modChan_keeps d ch _).mono (by simp)
  obtain ⟨z, took⟩ := tookAct_is_withTl c (((d.pmu ch).wave.map (·.tag)).getD 0) .wave
    (fun i => (c.pmu i).wave.any fun w => w.tag == ((d.pmu ch).wave.map (·.tag)).getD 0 && !w.running) 512
  rw [took]
  have now : SameBut [.pins, .tl] d { c with tl := z } := frame.trans (withTl_keeps c z)
  have pmu : ({ c with tl := z } : Dev).pmu ch = { d.pmu ch with wave := none } := cut
  split_ifs
  · rw [pmuEnd_of_no_jobs (by rw [← h, ← ctl])]
    refine ⟨ctl, now.trans ((modChan_keeps _ ch _).mono (by simp)), ?_, ?_⟩ <;> rw [modPmu_pmu_self, pmu]
  · exact ⟨ctl, now, by rw [pmu], by rw [pmu]⟩

/-- PMU.WAVE_STOP where a waveform is pending or running, without a measurement. -/
theorem pmuWaveStop_stops {s : State} {h : Hdr} (i : Idle s h) {ch : Nat} (hc : ch < 512) {w : Wave}
    (wave : (s.dev.pmu ch).wave = some w) (meas : (s.dev.pmu ch).meas = none) :
    ∃ t, exec (.pmuWaveStop h (1#512 <<< ch)) s = .next t ∧ Keeps [.pins, .tl] s t ∧ Answers s t h 0x0307 stOk [] ∧
      (t.dev.pmu ch).wave = none ∧ (t.dev.pmu ch).applied = (s.dev.pmu ch).applied := by
  obtain ⟨z, clock⟩ := endClock_is_withTl (s.dev.takenUp h 0x0307) [ch]
  have pmu : ({ s.dev.takenUp h 0x0307 with tl := z } : Dev).pmu ch = s.dev.pmu ch := takenUp_pmu s.dev h 0x0307 ch
  obtain ⟨ctl, frame, gone, stays⟩ := stopWave_ends (d := { s.dev.takenUp h 0x0307 with tl := z })
    ((congrArg Ctl.jobs (takenUp_ctl i 0x0307)).trans i.jobs) (by rw [pmu, wave]) (by rw [pmu, meas])
  obtain ⟨keeps, answer⟩ := ok_ends i 0x0307 (by decide) ctl ((withTl_keeps _ z).trans frame)
  have on : ([ch].filter fun k => ((s.dev.takenUp h 0x0307).pmu k).wave.isSome) = [ch] := by simp [wave]
  refine ⟨_, hostCmd_runs i 0x0307 ?_, keeps, answer, ?_, ?_⟩
  · simp only [members_singleton hc, on, clock]
    rw [if_neg (List.cons_ne_nil _ _)]
    rfl
  · rw [commit_pmu, ok_pmu, gone]
  · rw [commit_pmu, ok_pmu, stays, pmu]

/-- PMU.WAVE_STOP where no waveform is. -/
theorem pmuWaveStop_without_wave {s : State} {h : Hdr} (i : Idle s h) {ch : Nat} (hc : ch < 512)
    (wave : (s.dev.pmu ch).wave = none) :
    ∃ t, exec (.pmuWaveStop h (1#512 <<< ch)) s = .next t ∧ Keeps [] s t ∧ Answers s t h 0x0307 stBadarg [] := by
  have off : ([ch].filter fun k => ((s.dev.takenUp h 0x0307).pmu k).wave.isSome) = [] := by simp [wave]
  refine ⟨_, hostCmd_runs i 0x0307 ?_, refused_ends i 0x0307 (by decide) stBadarg 0 0 0⟩
  simp only [members_singleton hc, off, if_pos]

/-! ### PMU.DRVI (R110, R112) and PMU.STATE (R120) -/

/-- The driver-current measurement is enabled where nothing stands against it. -/
theorem pmuDrvi_enables {s : State} {h : Hdr} (i : Idle s h) {ch : Nat} (hc : ch < 512) (range : BitVec 3)
    (check : (s.dev.takenUp h 0x0308).drviCheck range ch = none) (shut : (s.dev.chan ch).shutting = false) :
    ∃ t, exec (.pmuDrvi h (1#512 <<< ch) true range) s = .next t ∧ Keeps [.pins] s t ∧ Answers s t h 0x0308 stOk [] ∧
      t.dev.pmu ch = { s.dev.pmu ch with drvi := true, drviRange := range } := by
  obtain ⟨frame, answer, chan, -⟩ := unit_ends i 0x0308 (by decide) ch fun c =>
    { c with pmu := { c.pmu with drvi := true, drviRange := range } }
  refine ⟨_, hostCmd_runs i 0x0308 ?_, frame, answer, congrArg Chan.pmu chan⟩
  rw [if_pos rfl, enablePins_single hc (.drvi range h.tag) check (by rw [takenUp_chan]; exact shut)]
  rfl

/-- The driver-current measurement is disabled on a PMU whose ADC is free; a range out of bounds is BADARG. -/
theorem pmuDrvi_disables {s : State} {h : Hdr} (i : Idle s h) {ch : Nat} (hc : ch < 512) (range : BitVec 3)
    (meas : (s.dev.pmu ch).meas = none) (wave : (s.dev.pmu ch).wave = none) :
    ∃ t, exec (.pmuDrvi h (1#512 <<< ch) false range) s = .next t ∧
      if 2 ≤ range.toNat ∧ range.toNat ≤ 4 then
        Keeps [.pins] s t ∧ Answers s t h 0x0308 stOk [] ∧ t.dev.pmu ch = { s.dev.pmu ch with drvi := false }
      else Keeps [] s t ∧ Answers s t h 0x0308 stBadarg [] := by
  by_cases good : 2 ≤ range.toNat ∧ range.toNat ≤ 4
  · simp only [if_pos good]
    refine ⟨_, hostCmd_runs i 0x0308 ?_, pmu_ends i 0x0308 (by decide) ch fun p => { p with drvi := false }⟩
    rw [if_neg Bool.false_ne_true, members_singleton hc, allOrNone_pass]
    · rfl
    · intro k hk
      obtain rfl := List.mem_singleton.mp hk
      dsimp only
      rw [orFail_good (by simp [meas, wave]), orFail_good]
      · rfl
      · simp only [Bool.or_eq_false_iff, decide_eq_false_iff_not]; omega
  · simp only [if_neg good]
    refine ⟨_, hostCmd_runs i 0x0308 ?_, refused_ends i 0x0308 (by decide) stBadarg ch 0 0⟩
    rw [if_neg Bool.false_ne_true, members_singleton hc, allOrNone_badarg]
    dsimp only
    rw [orFail_good (by simp [meas, wave]), orFail_bad]
    · rfl
    · simp only [Bool.or_eq_true, decide_eq_true_eq]; omega

/-- PMU.STATE reports 14 values of a channel, its mode first. -/
theorem pmuState_reports {s : State} {h : Hdr} (i : Idle s h) {ch : Nat} (hc : ch < 512) :
    ∃ t r, exec (.pmuState h (1#512 <<< ch)) s = .next t ∧ Keeps [] s t ∧ Answers s t h 0x0309 stOk r ∧ r.length = 14 ∧
      r.head? = some ((s.dev.pmu ch).mode.toNat : Int) := by
  refine ⟨_, _, hostCmd_idle i 0x0309 _, keeps_of_takenUp (by decide) (okResp_keeps _ _ _ _),
    answers_okResp i 0x0309 _ _ rfl (.inl (by decide)), ?_, ?_⟩
  all_goals rw [members_singleton hc, List.flatMap_singleton]
  · rfl
  · rw [takenUp_pmu]; rfl

end Sys2Proof.Machine

open Sys2Proof Sys2Proof.Machine

/-- Settles O37, by what each command does on an idle device. -/
theorem pmuSettings : Obligations.PmuSettings := by
  unfold Obligations.PmuSettings
  refine fun s h ch i hc => ⟨fun step interval good rests => ?_, fun bank first entries room good free => ?_,
    fun bank first entries k room good lo hi used => pmuWaveLoad_locked i bank room good lo hi used,
    fun start sg valid closed forces owned meas wave drvi => ?_,
    fun w wave meas => pmuWaveStop_stops i hc wave meas, fun wave => pmuWaveStop_without_wave i hc wave,
    fun range meas wave => pmuDrvi_disables i hc range meas wave,
    fun range check shut => pmuDrvi_enables i hc range check shut, pmuState_reports i hc⟩
  · obtain ⟨t, runs, frame, answer, pmu⟩ := pmuLimit_sets i hc interval good rests
    exact ⟨t, runs, frame, answer, by rw [pmu]; rfl, by rw [pmu]; rfl, by rw [pmu]; rfl⟩
  · obtain ⟨t, runs, frame, answer, table⟩ := pmuWaveLoad_writes i bank room good free
    exact ⟨t, runs, frame, answer, fun k => by rw [table, Tab.get_fill]⟩
  · obtain ⟨t, runs, frame, answer, pmu⟩ := pmuWaveRun_binds i hc sg valid closed forces owned meas wave drvi
    exact ⟨t, runs, frame, answer, by rw [pmu]; rfl⟩
end

section
/-!
PROOFS. The commands that control a flow and its barriers (R54, R151, R164, R172, R176 to R179, R185): SEQ.START, SEQ.STOP,
SEQ.JUMP, SEQ.HOLD, SEQ.RESUME and SEQ.BARRIER, on a thread that is a site of its own.
-/
namespace Sys2Proof.Machine

/-! ### Threads -/

theorem thread_of_seq {a b : Dev} (h : a.seq = b.seq) (k : Nat) : a.thread k = b.thread k := by rw [Dev.thread, h, Dev.thread]

@[simp] theorem commit_thread (d : Dev) (k : Nat) : d.commit.thread k = d.thread k := thread_of_seq (commit_seq d) k
@[simp] theorem finish_thread (d : Dev) (g : Tag) (c : Cpl) (k : Nat) : (d.finish g c).thread k = d.thread k :=
  thread_of_seq (by simp) k
@[simp] theorem takenUp_thread (d : Dev) (h : Hdr) (op : BitVec 16) (k : Nat) : (d.takenUp h op).thread k = d.thread k :=
  thread_of_seq (takenUp_seq d h op) k
@[simp] theorem accept_thread (d : Dev) (g : Tag) (k : Nat) : (d.accept g).thread k = d.thread k := rfl
@[simp] theorem openJob_thread (d : Dev) (j : Job) (k : Nat) : (d.openJob j).thread k = d.thread k := rfl
@[simp] theorem addAct_thread (d : Dev) (a : Act) (k : Nat) : (d.addAct a).thread k = d.thread k := rfl
@[simp] theorem openUnit_thread (d : Dev) (g : Tag) (u k : Nat) : (d.openUnit g u).thread k = d.thread k := rfl

@[simp] theorem modThread_thread_self (d : Dev) (i : Nat) (f : Thread → Thread) : (d.modThread i f).thread i = f (d.thread i) :=
  Tab.get_mod_self _ _ _ _

theorem modThread_keeps (d : Dev) (i : Nat) (f : Thread → Thread) : SameBut [.seq] d (d.modThread i f) := by
  intro p hp
  cases p with
  | seq => exact absurd (List.mem_singleton.mpr rfl) hp
  | tl => exact Timeline.kept_refl _
  | _ => rfl

/-! ### A site of one thread (R18) -/

theorem Dev.alone.congr {d e : Dev} {t : Nat} (al : d.alone t) (lead : (e.thread t).lead = (d.thread t).lead)
    (members : (e.thread t).members = (d.thread t).members) : e.alone t := ⟨lead.trans al.1, members.trans al.2⟩

theorem Dev.alone.takenUp {d : Dev} {t : Nat} (al : d.alone t) (h : Hdr) (op : BitVec 16) : (d.takenUp h op).alone t :=
  al.congr (by simp) (by simp)

theorem Dev.alone.leadOf {d : Dev} {t : Nat} (al : d.alone t) : d.leadOf t = t := by simp [Dev.leadOf, al.1]

theorem Dev.alone.notLead {d : Dev} {t : Nat} (al : d.alone t) : d.notLead t = false := by simp [Dev.notLead, al.leadOf]

theorem Dev.alone.site {d : Dev} {t : Nat} (al : d.alone t) : d.site t = [t] := by simp [Dev.site, al.2]

theorem Dev.alone.siteChans {d : Dev} {t : Nat} (al : d.alone t) : d.siteChans t = d.chansOf t := by
  simp [Dev.siteChans, al.site]

theorem Dev.alone.modSite {d : Dev} {t : Nat} (al : d.alone t) (f : Thread → Thread) : d.modSite t f = d.modThread t f := by
  simp [Dev.modSite, al.site]

/-! ### Commands that are accepted -/

theorem takenUp_tl (d : Dev) (h : Hdr) (op : BitVec 16) : (d.takenUp h op).tl = (d.advance h.t).tl := by simp [Dev.takenUp]

@[simp] theorem takenUp_cap (d : Dev) (h : Hdr) (op : BitVec 16) : (d.takenUp h op).cap = d.cap := by simp [Dev.takenUp]

@[simp] theorem takenUp_acts (d : Dev) (h : Hdr) (op : BitVec 16) : (d.takenUp h op).tl.acts = d.tl.acts := by
  rw [takenUp_tl, Dev.advance_tl_acts]

theorem schedule_of_tl {a b : Dev} (h : a.tl = b.tl) (w : When) (g : Nat) (r42 : Bool) :
    a.schedule w g r42 = b.schedule w g r42 := by simp only [Dev.schedule, Dev.firstGranule, h]

/-- No action that R42 refuses is placed while a rewind is pending. -/
theorem rewind_none_of_schedule {d : Dev} {w : When} {g : Nat} {r : BitVec 16 × Nat × Bool}
    (place : d.schedule w g true = .ok r) : d.tl.rewind = none := by
  by_contra pending
  have busy : (true = true ∧ d.tl.rewind.isSome = true) := ⟨rfl, Option.isSome_iff_ne_none.mpr pending⟩
  unfold Dev.schedule at place
  rw [if_pos busy] at place
  split_ifs at place

/-- A command of the Safety class may suspend a fill of the pattern store (R222), and leaves the rest alone. -/
theorem preempt_keeps_but_pat (d : Dev) (op : BitVec 16) : SameBut [.pat] d (d.preempt op) := by
  intro p hp
  cases p with
  | pat => exact absurd (List.mem_singleton.mpr rfl) hp
  | _ => simp [Part.same]

theorem takenUp_keeps_but_pat (d : Dev) (h : Hdr) (op : BitVec 16) : SameBut [.pat] d (d.takenUp h op) :=
  ((advance_keeps _ d h.t).trans (ensureFlight_keeps _ _ h op)).trans (preempt_keeps_but_pat _ op)

/-- The frame of a command, from what it leaves alone before its records are committed. -/
theorem keeps_commit {l : List Part} {s : State} {d : Dev} (k : SameBut l s.dev d) : Keeps l s { s with dev := d.commit } := by
  have kept := k.trans (sameBut_of_core (commit_core d) l)
  generalize d.commit = e at kept ⊢
  exact ⟨rfl, rfl, rfl, kept⟩

theorem accept_ctl (d : Dev) (g : Tag) :
    (d.accept g).ctl = { d.ctl with flights := modFlight g (fun f => { f with accepted := true }) d.ctl.flights } := rfl

/-- A command that has been accepted and waits, with the jobs that it has opened. -/
theorem waits_of_accepted {s : State} {h : Hdr} (i : Idle s h) (op : BitVec 16) {d : Dev} (js : List Job)
    (ctl : d.ctl = { ((s.dev.takenUp h op).accept h.tag).ctl with jobs := js }) :
    Waits s { s with dev := d.commit } h op := by
  have flights : d.ctl.flights = [{ newFlight h op with accepted := true }] := by
    rw [ctl, accept_ctl, takenUp_ctl i op]
    simp [modFlight, newFlight]
  have interim : d.ctl.outbox.interim = [] := by rw [ctl, accept_ctl]; exact (takenUp_opened i op).interim
  have ring : d.ctl.cplOut = s.dev.ctl.cplOut := by rw [ctl, accept_ctl, takenUp_ctl i op]
  obtain ⟨out, stays⟩ := commit_waits d _ flights rfl interim
  generalize d.commit = e at out stays ⊢
  exact ⟨out.trans ring, _, stays, rfl, rfl, rfl, rfl⟩

/-- The final completion of a command in flight, from a device whose completion ring stands as it was. -/
theorem Opened.answers {s : State} {h : Hdr} {op : BitVec 16} {d : Dev} (o : Opened d h op)
    (ring : d.ctl.cplOut = s.dev.ctl.cplOut) (c : Cpl) (own : c.own = false ∨ d.tl.rewind = none) (fwd : c.fwd = false)
    (fin : c.fin = true) (resp : c.resp = []) : Answers s { s with dev := (d.finish h.tag c).commit } h op c.status [] := by
  obtain ⟨x, out, tag, stream, opcode, status, last, response⟩ := o.finish_commit c own fwd (.inr resp)
  exact ⟨x, by rw [out, ring], tag, stream, opcode, status, last.trans fin, response.trans resp⟩

theorem takenUp_ring {s : State} {h : Hdr} (i : Idle s h) (op : BitVec 16) :
    (s.dev.takenUp h op).ctl.cplOut = s.dev.ctl.cplOut := by rw [takenUp_ctl i op]

theorem Opened.linkOut {d : Dev} {h : Hdr} {op : BitVec 16} (o : Opened d h op) (m : LinkMsg) : Opened (d.linkOut m) h op :=
  ⟨o.flights, o.held, o.held0, o.room, o.interim, o.behind⟩

@[simp] theorem linkOut_ring (d : Dev) (m : LinkMsg) : (d.linkOut m).ctl.cplOut = d.ctl.cplOut := rfl

theorem linkOut_keeps (l : List Part) (d : Dev) (m : LinkMsg) : SameBut l d (d.linkOut m) := by
  intro p _
  cases p with
  | tl => exact Timeline.kept_refl _
  | _ => rfl

/-! ### Jobs of one thread -/

theorem unit_ne_zero {u : Nat} (hu : u < 512) : 1#512 <<< u ≠ 0 := by
  intro none
  have empty := members_singleton hu
  rw [none] at empty
  simp [members] at empty

/-- The one thread of a set, among the units of a job. -/
theorem unit_setWidth {t : Nat} (ht : t < 64) : (1#64 <<< t).setWidth 512 = 1#512 <<< t := by
  change (BitVec.twoPow 64 t).setWidth 512 = BitVec.twoPow 512 t
  apply BitVec.eq_of_toNat_eq
  rw [BitVec.toNat_setWidth, BitVec.toNat_twoPow_of_lt ht, BitVec.toNat_twoPow]

/-- A job of which a unit has not ended stays open. -/
theorem settleJob_of_left {d : Dev} {g : Tag} {j : Job} (job : d.ctl.jobs = [j]) (tag : j.tag = g) (left : j.left ≠ 0) :
    d.settleJob g = d := by
  have found : d.job g = some j := by simp [Dev.job, job, tag]
  rw [Dev.settleJob, found]
  exact if_neg fun ended => left ended.1

theorem openUnit_keeps_taken {l : List Part} {s : State} {h : Hdr} {op : BitVec 16} (u : Nat)
    (k : SameBut l s.dev (s.dev.takenUp h op)) : SameBut l s.dev ((s.dev.takenUp h op).openUnit h.tag u) :=
  k.trans (openUnit_keeps l _ _ _)

theorem openUnit_ctl (d : Dev) (g : Tag) (u : Nat) : (d.openUnit g u).ctl =
    { (d.accept g).ctl with jobs := (d.accept g).ctl.jobs ++ [{ tag := g, left := 1#512 <<< u }] } := rfl

/-- A command that has opened the job of one unit, and waits. -/
theorem waits_of_openUnit {s : State} {h : Hdr} (i : Idle s h) (op : BitVec 16) {u : Nat} {d : Dev}
    (ctl : d.ctl = ((s.dev.takenUp h op).openUnit h.tag u).ctl) : Waits s { s with dev := d.commit } h op :=
  waits_of_accepted i op _ (ctl.trans (openUnit_ctl _ _ _))

/-- The job of a command on one thread stays open where the command's meaning leaves the control complex alone. -/
theorem settleJob_of_thread {s : State} {h : Hdr} (i : Idle s h) (op : BitVec 16) {t : Nat} (ht : t < 64) {d : Dev}
    (ctl : d.ctl = ((s.dev.takenUp h op).openUnit h.tag t).ctl) : d.settleJob h.tag = d :=
  settleJob_of_unit (by omega) ((congrArg Ctl.jobs ctl).trans (openUnit_jobs i op t))

/-! ### SEQ.START (R151, R164) -/

theorem worst_concat_none (l : List (Option (BitVec 4 × Nat × Nat))) : worst (l ++ [none]) = worst l := by simp [worst]

/-- A thread as SEQ.START arms it. -/
def Thread.armedBy (g : Tag) (seg : BitVec 12) (epoch : BitVec 16) (stamp : Nat) (t : Thread) : Thread :=
  { t with
    st := .armed, firstSeg := seg, startAt := stamp, startEpoch := epoch, startTag := g, lastVec := none, chosen := none
    causes := [], poison := false, flow := { start := stamp }, segStat := {}, strobes := [], jump := none, jumpTaken := none }

/-- A thread is armed, and what changes beside it are the pins of its channels. -/
theorem armSite_ends {d : Dev} {t : Nat} (al : d.alone t) (g : Tag) (seg : BitVec 12) (epoch : BitVec 16) (stamp : Nat) :
    (d.armSite g seg epoch stamp t).ctl = d.ctl ∧ (d.armSite g seg epoch stamp t).tl = d.tl ∧
      (d.armSite g seg epoch stamp t).cap = d.cap ∧ SameBut [.seq, .pins] d (d.armSite g seg epoch stamp t) ∧
      (d.armSite g seg epoch stamp t).thread t = (d.thread t).armedBy g seg epoch stamp := by
  unfold Dev.armSite
  simp only [al.modSite]
  generalize hc : d.modThread t _ = c
  have thread : c.thread t = (d.thread t).armedBy g seg epoch stamp := by rw [← hc, modThread_thread_self]; rfl
  have frame : SameBut [.seq, .pins] d c := hc ▸ (modThread_keeps d t _).mono (by simp)
  refine ⟨?_, ?_, ?_, frame.trans (.foldl (fun d ch => (modChan_keeps d ch _).mono (by simp)) _ c), ?_⟩
  · exact (foldl_leaves Dev.ctl (fun d ch => d.modChan_ctl ch _) _ c).trans (hc ▸ rfl)
  · exact (foldl_leaves Dev.tl (fun d ch => d.modChan_tl ch _) _ c).trans (hc ▸ rfl)
  · exact (foldl_leaves Dev.cap (fun d ch => d.modChan_cap ch _) _ c).trans (hc ▸ rfl)
  · rw [thread_of_seq (foldl_leaves Dev.seq (fun d ch => d.modChan_seq ch _) _ c), thread]

theorem addAct_keeps (d : Dev) (a : Act) : SameBut [.tl] d (d.addAct a) := by
  intro p hp
  cases p with
  | tl => exact absurd (List.mem_singleton.mpr rfl) hp
  | _ => rfl

@[simp] theorem addAct_rewind (d : Dev) (a : Act) : (d.addAct a).tl.rewind = d.tl.rewind := rfl
@[simp] theorem addAct_acts (d : Dev) (a : Act) : (d.addAct a).tl.acts = d.tl.acts ++ [a] := rfl

/-- SEQ.START of a thread that nothing stands against, where no flow gate holds the start back. -/
theorem seqStart_arms {s : State} {h : Hdr} (i : Idle s h) {t : Nat} (ht : t < 64) (al : s.dev.alone t) {seg : BitVec 12}
    {w : When} {e : BitVec 16} {st : Nat} {late : Bool} (checks : worst ((s.dev.takenUp h 0x0505).startChecks seg t) = none)
    (gate : s.dev.cap.flowGate = false) (fresh : h.tag ∉ s.dev.cap.heldStarts)
    (place : (s.dev.advance h.t).schedule w 1 true = .ok (e, st, late)) :
    ∃ x, exec (.seqStart h (1#64 <<< t) seg w) s = .next x ∧ Keeps [.seq, .tl, .pins] s x ∧ Answers s x h 0x0505 stOk [] ∧
      x.dev.thread t = (s.dev.thread t).armedBy h.tag seg e st ∧ x.dev.tl.acts = s.dev.tl.acts ++
        [{ tag := h.tag, kind := .seqStart, epoch := e, stamp := st, user := (1#64 <<< t).toNat }] := by
  have placed := (schedule_of_tl (takenUp_tl s.dev h 0x0505) w 1 true).trans place
  generalize hc : ((s.dev.takenUp h 0x0505).accept h.tag).addAct
    { tag := h.tag, kind := .seqStart, epoch := e, stamp := st, user := (1#64 <<< t).toNat } = c
  have kept : SameBut [.seq, .tl, .pins] (s.dev.takenUp h 0x0505) c :=
    hc ▸ (accept_keeps _ _ _).trans ((addAct_keeps _ _).mono (by simp))
  have noted : c.alone t := hc ▸ al.congr (by simp) (by simp)
  obtain ⟨ctl, tl, cap, frame, thread⟩ := armSite_ends noted h.tag seg e st
  generalize ha : c.armSite h.tag seg e st t = a at ctl tl cap frame thread
  have steady : a.tl.rewind = none := by
    rw [tl, ← hc, addAct_rewind, Dev.accept_tl]
    exact rewind_none_of_schedule placed
  have o : Opened a h 0x0505 := (takenUp_opened i 0x0505).accept.congr (by rw [ctl, ← hc, Dev.addAct_ctl])
  have ring : a.ctl.cplOut = s.dev.ctl.cplOut := by
    rw [ctl, ← hc, Dev.addAct_ctl, accept_ctl, takenUp_ctl i 0x0505]
  have settings : a.cap = s.dev.cap := by rw [cap, ← hc, Dev.addAct_cap, Dev.accept_cap, takenUp_cap]
  refine ⟨_, hostCmd_runs i 0x0505 (d := a.finish h.tag (stamped { late := late } a.tl.tq e st)) ?_,
    keeps_of_takenUp (by decide) ((kept.trans (frame.mono (by simp))).trans (finish_keeps _ a _ _)),
    o.answers ring _ (.inr steady) rfl rfl rfl, ?_, ?_⟩
  · have good : failAt false stBadarg 2 = none := rfl
    have held : s.dev.cap.heldStarts.contains h.tag = false := by simpa using fresh
    simp only [placed, members_singleton ht, List.flatMap_singleton, good, worst_concat_none, checks, List.foldl_cons,
      List.foldl_nil, hc, ha, settings, gate, held, Bool.false_eq_true, and_false, if_false]
  · rw [commit_thread, finish_thread, thread, ← hc]
    simp
  · simp [tl, ← hc]

/-! ### SEQ.STOP (R179) -/

/-- A cause that is latched stands among the causes. -/
theorem mem_latched (c : HoldCause) (cs : List HoldCause) : c ∈ if cs.contains c then cs else cs ++ [c] := by
  split_ifs with latched
  · simpa using latched
  · exact List.mem_concat_self

/-- A running thread at which a SEQ.STOP has arrived. -/
def Thread.stopLatched (g : Tag) (now : Nat) (t : Thread) : Thread :=
  { t with
    holdTags := t.holdTags ++ [g], causes := if t.causes.contains .stop then t.causes else t.causes ++ [.stop]
    stopAt := some (t.stopAt.getD now) }

theorem stopSite_idle {d : Dev} {t : Nat} (st : (d.thread t).st = .idle) (g : Tag) : d.stopSite t g = d.endUnit g t := by
  rw [Dev.stopSite, st]

theorem stopSite_run {d : Dev} {t : Nat} (al : d.alone t) (st : (d.thread t).st = .run) (g : Tag) :
    d.stopSite t g = d.modThread t (Thread.stopLatched g d.tl.now) := by
  simp only [Dev.stopSite, st, al.modSite]
  rfl

/-- Where no jump is latched or taken, none ends. -/
theorem dropJump_of_none {d : Dev} {t : Nat} (jump : (d.thread t).jump = none) (taken : (d.thread t).jumpTaken = none) :
    d.dropJump t = d.modThread t fun x => { x with jump := none, jumpTaken := none } := by
  simp [Dev.dropJump, jump, taken]

/-- A stop in a dead time ends the flow with it. -/
theorem stopSite_dead {d : Dev} {t : Nat} (al : d.alone t) (st : (d.thread t).st = .dead) (jump : (d.thread t).jump = none)
    (taken : (d.thread t).jumpTaken = none) (g : Tag) :
    (d.stopSite t g).ctl = d.ctl ∧ SameBut [.seq] d (d.stopSite t g) ∧ ((d.stopSite t g).thread t).st = .dead ∧
      ((d.stopSite t g).thread t).deadEnd = (d.thread t).deadEnd ∧ ((d.stopSite t g).thread t).ended = true ∧
      ((d.stopSite t g).thread t).holdTags = (d.thread t).holdTags ++ [g] := by
  simp only [Dev.stopSite, st, al.modSite]
  generalize hb : d.modThread t _ = b
  have first : b.thread t = { d.thread t with
      holdTags := (d.thread t).holdTags ++ [g]
      flow := if (d.thread t).ended then (d.thread t).flow else { (d.thread t).flow with endCode := 1 } } := by
    rw [← hb, modThread_thread_self]
  have alb : b.alone t := al.congr (by rw [first]) (by rw [first])
  rw [alb.modSite, dropJump_of_none (by simp [first, jump]) (by simp [first, taken])]
  refine ⟨hb ▸ rfl, ((hb ▸ modThread_keeps d t _ :).trans (modThread_keeps b t _)).trans (modThread_keeps _ t _), ?_⟩
  simp [first, st]

/-- SEQ.STOP runs on the device that has opened its job. -/
theorem seqStop_runs {s : State} {h : Hdr} (i : Idle s h) {t : Nat} (ht : t < 64) (al : s.dev.alone t) {d : Dev}
    (stops : ((s.dev.takenUp h 0x0509).openUnit h.tag t).stopSite t h.tag = d) :
    exec (.seqStop h (1#64 <<< t)) s = .next { s with dev := (d.settleJob h.tag).commit } := by
  refine hostCmd_runs i 0x0509 ?_
  rw [members_singleton ht, allOrNone_pass]
  · simp only [unit_setWidth ht, List.foldl_cons, List.foldl_nil]
    rw [← stops]
    rfl
  · intro k hk
    obtain rfl := List.mem_singleton.mp hk
    exact orFail_good (al.takenUp h 0x0509).notLead stBadarg 0

/-- A stop of an idle thread completes at once, a pending rewind or not. -/
theorem seqStop_idle {s : State} {h : Hdr} (i : Idle s h) {t : Nat} (ht : t < 64) (al : s.dev.alone t)
    (st : (s.dev.thread t).st = .idle) :
    ∃ x, exec (.seqStop h (1#64 <<< t)) s = .next x ∧ Keeps [.pat] s x ∧ Answers s x h 0x0509 stOk [] := by
  refine ⟨_, seqStop_runs i ht al (stopSite_idle (by rw [openUnit_thread, takenUp_thread, st]) _), keeps_commit ?_,
    answers_unit i 0x0509 rfl _⟩
  exact ((openUnit_keeps_taken t (takenUp_keeps_but_pat s.dev h 0x0509)).trans (endUnitAt_keeps _ _ _ _ _)).trans
    (settleJob_keeps _ _ _)

/-- SEQ.STOP waits where its arrival changes the thread and nothing else. -/
theorem seqStop_waits {s : State} {h : Hdr} (i : Idle s h) {t : Nat} (ht : t < 64) (al : s.dev.alone t) {d : Dev}
    (stops : ((s.dev.takenUp h 0x0509).openUnit h.tag t).stopSite t h.tag = d)
    (ctl : d.ctl = ((s.dev.takenUp h 0x0509).openUnit h.tag t).ctl)
    (frame : SameBut [.seq] ((s.dev.takenUp h 0x0509).openUnit h.tag t) d) :
    ∃ x, exec (.seqStop h (1#64 <<< t)) s = .next x ∧ Keeps [.seq, .pat] s x ∧ Waits s x h 0x0509 ∧
      x.dev.thread t = d.thread t := by
  have runs := seqStop_runs i ht al stops
  rw [settleJob_of_thread i 0x0509 ht ctl] at runs
  have kept := openUnit_keeps_taken t ((takenUp_keeps_but_pat s.dev h 0x0509).mono (m := [.seq, .pat]) (by simp))
  exact ⟨_, runs, keeps_commit (kept.trans (frame.mono (by simp))), waits_of_openUnit i 0x0509 ctl, by rw [commit_thread]⟩

/-- A stop of a running thread is latched. -/
theorem seqStop_latches {s : State} {h : Hdr} (i : Idle s h) {t : Nat} (ht : t < 64) (al : s.dev.alone t)
    (st : (s.dev.thread t).st = .run) :
    ∃ x z, exec (.seqStop h (1#64 <<< t)) s = .next x ∧ Keeps [.seq, .pat] s x ∧ Waits s x h 0x0509 ∧
      x.dev.thread t = (s.dev.thread t).stopLatched h.tag z := by
  have same : ((s.dev.takenUp h 0x0509).openUnit h.tag t).thread t = s.dev.thread t := by simp
  obtain ⟨x, runs, frame, waits, thread⟩ := seqStop_waits i ht al
    (stopSite_run (al.congr (by rw [same]) (by rw [same])) (by rw [same, st]) _) rfl (modThread_keeps _ _ _)
  exact ⟨x, _, runs, frame, waits, by rw [thread, modThread_thread_self, same]⟩

/-- A stop in a dead time ends the flow, and the dead time stays as it is. -/
theorem seqStop_ends_flow {s : State} {h : Hdr} (i : Idle s h) {t : Nat} (ht : t < 64) (al : s.dev.alone t)
    (st : (s.dev.thread t).st = .dead) (jump : (s.dev.thread t).jump = none) (taken : (s.dev.thread t).jumpTaken = none) :
    ∃ x, exec (.seqStop h (1#64 <<< t)) s = .next x ∧ Keeps [.seq, .pat] s x ∧ Waits s x h 0x0509 ∧
      (x.dev.thread t).st = .dead ∧ (x.dev.thread t).deadEnd = (s.dev.thread t).deadEnd ∧
      (x.dev.thread t).ended = true ∧ h.tag ∈ (x.dev.thread t).holdTags := by
  have same : ((s.dev.takenUp h 0x0509).openUnit h.tag t).thread t = s.dev.thread t := by simp
  obtain ⟨ctl, kept, dead, deadEnd, ended, tags⟩ := stopSite_dead (al.congr (by rw [same]) (by rw [same]))
    (by rw [same, st]) (by rw [same, jump]) (by rw [same, taken]) h.tag
  obtain ⟨x, runs, frame, waits, thread⟩ := seqStop_waits i ht al rfl ctl kept
  exact ⟨x, runs, frame, waits, by rw [thread, dead], by rw [thread, deadEnd, same], by rw [thread, ended],
    by rw [thread, tags]; exact List.mem_concat_self⟩

/-! ### SEQ.JUMP (R172) -/

/-- A thread with a jump request latched. -/
def Thread.jumpLatched (seg : BitVec 12) (now : Nat) (g : Tag) (t : Thread) : Thread :=
  { t with jump := some { seg := seg, latch := clockOf now, tag := some g } }

theorem latchJump_of_none {d : Dev} {t : Nat} (jump : (d.thread t).jump = none) (seg : BitVec 12) (g : Tag) :
    d.latchJump t seg (some g) = d.modThread t (Thread.jumpLatched seg d.tl.now g) := by
  simp only [Dev.latchJump, jump, Option.bind_none]
  rfl

theorem takenUp_segValid (d : Dev) (h : Hdr) (op : BitVec 16) (t : Nat) (seg : BitVec 12) :
    (d.takenUp h op).segValid t seg = d.segValid t seg := by simp only [Dev.segValid, Dev.site, takenUp_thread]

/-- A jump to a valid segment is latched on a running thread, and SEQ.JUMP waits. -/
theorem seqJump_latches {s : State} {h : Hdr} (i : Idle s h) {th : BitVec 6} (al : s.dev.alone th.toNat) {seg : BitVec 12}
    (st : (s.dev.thread th.toNat).st = .run) (valid : s.dev.segValid th.toNat seg = true)
    (jump : (s.dev.thread th.toNat).jump = none) :
    ∃ x z, exec (.seqJump h th seg) s = .next x ∧ Keeps [.seq] s x ∧ Waits s x h 0x0506 ∧
      x.dev.thread th.toNat = (s.dev.thread th.toNat).jumpLatched seg z h.tag := by
  have latch := latchJump_of_none (d := (s.dev.takenUp h 0x0506).accept h.tag) (by rw [accept_thread, takenUp_thread, jump])
    seg h.tag
  refine ⟨_, _, hostCmd_runs i 0x0506 (Eq.trans ?_ latch), keeps_of_takenUp (by decide)
    ((accept_keeps _ _ _).trans (modThread_keeps _ _ _)), waits_of_accepted i 0x0506 _ rfl,
    by rw [commit_thread, modThread_thread_self, accept_thread, takenUp_thread]⟩
  simp only [takenUp_thread, st, (al.takenUp h 0x0506).notLead, takenUp_segValid, valid]
  rfl

/-- An idle thread takes no jump. -/
theorem seqJump_idle {s : State} {h : Hdr} (i : Idle s h) {th : BitVec 6} (seg : BitVec 12)
    (st : (s.dev.thread th.toNat).st = .idle) :
    ∃ x, exec (.seqJump h th seg) s = .next x ∧ Keeps [] s x ∧ Answers s x h 0x0506 stBadarg [] := by
  refine ⟨_, hostCmd_runs i 0x0506 ?_, refused_ends i 0x0506 (by decide) stBadarg 0 0 0⟩
  simp [st, badArg]

/-! ### SEQ.HOLD (R178) -/

/-- A thread with a hold cause latched. -/
def Thread.causeLatched (c : HoldCause) (now : Nat) (t : Thread) : Thread :=
  { t with
    causes := if t.causes.contains c then t.causes else t.causes ++ [c], latch := some (t.latch.getD (clockOf now)) }

theorem chansOf_of_groups {a b : Dev} {t : Nat} (h : (a.thread t).groups = (b.thread t).groups) : a.chansOf t = b.chansOf t := by
  simp only [Dev.chansOf, h]

/-- Where no channel of a site waits for its park, none is parked. -/
theorem parkWaiting_of_none {d : Dev} {t : Nat} (none_waits : ∀ ch ∈ d.siteChans t, (d.chan ch).parkHeld = false) :
    d.parkWaiting t = d := by
  have empty : ((d.siteChans t).filter fun ch => (d.chan ch).parkHeld) = [] := by simpa using none_waits
  simp [Dev.parkWaiting, empty, Dev.endClock]

/-- A hold cause that reaches a running thread is latched. -/
theorem reachCause_run {d : Dev} {t : Nat} (al : d.alone t) (st : (d.thread t).st = .run)
    (none_waits : ∀ ch ∈ d.chansOf t, (d.chan ch).parkHeld = false) (c : HoldCause) :
    d.reachCause t c = d.modThread t (Thread.causeLatched c d.tl.now) := by
  have latched : (d.modThread t (Thread.causeLatched c d.tl.now)).alone t := al.congr (by simp [Thread.causeLatched])
    (by simp [Thread.causeLatched])
  have parked : (d.modThread t (Thread.causeLatched c d.tl.now)).parkWaiting t = d.modThread t (Thread.causeLatched c d.tl.now) := by
    refine parkWaiting_of_none ?_
    rw [latched.siteChans, chansOf_of_groups (b := d) (by simp [Thread.causeLatched])]
    exact none_waits
  simp only [Dev.reachCause, al.leadOf, st, al.modSite]
  exact ite_eq_right_iff.mpr fun _ => parked

/-- A thread for which a command waits. -/
def Thread.awaited (g : Tag) (t : Thread) : Thread := { t with holdTags := t.holdTags ++ [g] }

/-- A hold is latched on a running thread of which no channel waits for its park, and SEQ.HOLD waits. -/
theorem seqHold_latches {s : State} {h : Hdr} (i : Idle s h) {t : Nat} (ht : t < 64) (al : s.dev.alone t)
    (st : (s.dev.thread t).st = .run) (none_waits : ∀ ch ∈ s.dev.chansOf t, (s.dev.chan ch).parkHeld = false) :
    ∃ x z, exec (.seqHold h (1#64 <<< t)) s = .next x ∧ Keeps [.seq] s x ∧ Waits s x h 0x0507 ∧
      x.dev.thread t = ((s.dev.thread t).awaited h.tag).causeLatched .host z := by
  generalize hc : ((s.dev.takenUp h 0x0507).openUnit h.tag t).modThread t (Thread.awaited h.tag) = c
  have tagged : c.thread t = (s.dev.thread t).awaited h.tag := by
    rw [← hc, modThread_thread_self, openUnit_thread, takenUp_thread]
  have chan : ∀ k, c.chan k = s.dev.chan k := chan_of_pins (by rw [← hc, Dev.modThread_pins, openUnit_pins, takenUp_pins])
  have chans : c.chansOf t = s.dev.chansOf t := chansOf_of_groups (by rw [tagged]; rfl)
  have reach := reachCause_run (d := c) (al.congr (by rw [tagged]; rfl) (by rw [tagged]; rfl))
    (by rw [tagged]; exact st) (by simpa only [chan, chans] using none_waits) .host
  generalize ha : c.modThread t (Thread.causeLatched .host c.tl.now) = a at reach
  have ctl : a.ctl = ((s.dev.takenUp h 0x0507).openUnit h.tag t).ctl := by rw [← ha, ← hc]; rfl
  have tagged_keeps : SameBut [.seq] (s.dev.takenUp h 0x0507) c := by
    rw [← hc]; exact (openUnit_keeps _ _ _ _).trans (modThread_keeps _ t _)
  have frame : SameBut [.seq] (s.dev.takenUp h 0x0507) a := tagged_keeps.trans (ha ▸ modThread_keeps c t _)
  refine ⟨_, c.tl.now, hostCmd_runs i 0x0507 (d := a) ?_, keeps_of_takenUp (by decide) frame,
    waits_of_openUnit i 0x0507 ctl, by rw [commit_thread, ← ha, modThread_thread_self, tagged]⟩
  rw [members_singleton ht, allOrNone_pass]
  · simp only [unit_setWidth ht, List.foldl_cons, List.foldl_nil]
    refine Eq.trans ?_ (settleJob_of_thread i 0x0507 ht ctl)
    rw [← reach, ← hc]
    rfl
  · intro k hk
    obtain rfl := List.mem_singleton.mp hk
    exact orFail_good (by rw [(al.takenUp h 0x0507).notLead, takenUp_thread, st]; rfl) stBadarg 0

/-! ### SEQ.RESUME (R179) -/

/-- A held thread whose resume is scheduled. -/
def Thread.resuming (g : Tag) (epoch : BitVec 16) (stamp : Nat) (t : Thread) : Thread :=
  { t with resumeAt := some (g, epoch, stamp) }

/-- The device on which the resume of one thread has been scheduled. -/
def Dev.resumeScheduled (d : Dev) (g : Tag) (t : Nat) (epoch : BitVec 16) (stamp : Nat) (late : Bool) : Dev :=
  (((d.accept g).openJob { tag := g, left := 1#512 <<< t, stamp := some stamp, late := late }).addAct
    { tag := g, kind := .seqResume, epoch := epoch, stamp := stamp }).modThread t (Thread.resuming g epoch stamp)

theorem resumeScheduled_keeps (d : Dev) (g : Tag) (t : Nat) (epoch : BitVec 16) (stamp : Nat) (late : Bool) :
    SameBut [.seq, .tl] d (d.resumeScheduled g t epoch stamp late) :=
  (((accept_keeps _ d g).trans (openJob_keeps _ _ _)).trans ((addAct_keeps _ _).mono (by simp))).trans
    ((modThread_keeps _ t _).mono (by simp))

/-- The job of a resume stays open until its thread has resumed. -/
theorem settleJob_resumeScheduled {d : Dev} (none_open : d.ctl.jobs = []) (g : Tag) {t : Nat} (ht : t < 64)
    (epoch : BitVec 16) (stamp : Nat) (late : Bool) :
    (d.resumeScheduled g t epoch stamp late).settleJob g = d.resumeScheduled g t epoch stamp late :=
  settleJob_of_left (j := { tag := g, left := 1#512 <<< t, stamp := some stamp, late := late })
    (congrArg (· ++ [_]) none_open) rfl (unit_ne_zero (by omega))

/-- A resume of a held thread is scheduled, and SEQ.RESUME waits for it. -/
theorem seqResume_schedules {s : State} {h : Hdr} (i : Idle s h) {t : Nat} (ht : t < 64) (al : s.dev.alone t) {w : When}
    {e : BitVec 16} {st : Nat} {late : Bool} (held : (s.dev.thread t).st = .hold) (free : (s.dev.thread t).resumeAt = none)
    (place : (s.dev.advance h.t).schedule w 1 true = .ok (e, st, late)) :
    ∃ x, exec (.seqResume h (1#64 <<< t) w) s = .next x ∧ Keeps [.seq, .tl] s x ∧ Waits s x h 0x0508 ∧
      x.dev.thread t = (s.dev.thread t).resuming h.tag e st ∧
      x.dev.tl.acts = s.dev.tl.acts ++ [{ tag := h.tag, kind := .seqResume, epoch := e, stamp := st }] := by
  have placed := (schedule_of_tl (takenUp_tl s.dev h 0x0508) w 1 true).trans place
  have none_open : (s.dev.takenUp h 0x0508).ctl.jobs = [] := by rw [takenUp_ctl i]; exact i.jobs
  refine ⟨_, hostCmd_runs i 0x0508 (d := (s.dev.takenUp h 0x0508).resumeScheduled h.tag t e st late) ?_,
    keeps_of_takenUp (by decide) (resumeScheduled_keeps _ _ _ _ _ _), waits_of_accepted i 0x0508 _ rfl, ?_, ?_⟩
  · rw [members_singleton ht, allOrNone_pass]
    · simp only [placed, unit_setWidth ht, List.foldl_cons, List.foldl_nil]
      exact settleJob_resumeScheduled none_open h.tag ht e st late
    · intro k hk
      obtain rfl := List.mem_singleton.mp hk
      simp only [takenUp_thread, held, free, (al.takenUp h 0x0508).notLead]
      rfl
  · rw [commit_thread, Dev.resumeScheduled, modThread_thread_self, addAct_thread, openJob_thread, accept_thread, takenUp_thread]
  · rw [commit_tl]
    exact congrArg (· ++ [_]) (takenUp_acts s.dev h 0x0508)

/-! ### SEQ.BARRIER (R176, R177) -/

/-- A change of one barrier. -/
def Dev.modBarrier (d : Dev) (b : Nat) (f : Barrier → Barrier) : Dev :=
  { d with seq := { d.seq with barriers := d.seq.barriers.mod {} b f } }

theorem modBarrier_keeps (d : Dev) (b : Nat) (f : Barrier → Barrier) : SameBut [.seq] d (d.modBarrier b f) := by
  intro p hp
  cases p with
  | seq => exact absurd (List.mem_singleton.mpr rfl) hp
  | tl => exact Timeline.kept_refl _
  | _ => rfl

@[simp] theorem modBarrier_tl (d : Dev) (b : Nat) (f : Barrier → Barrier) : (d.modBarrier b f).tl = d.tl := rfl
@[simp] theorem modBarrier_ctl (d : Dev) (b : Nat) (f : Barrier → Barrier) : (d.modBarrier b f).ctl = d.ctl := rfl

theorem Opened.modBarrier {d : Dev} {h : Hdr} {op : BitVec 16} (o : Opened d h op) (b : Nat) (f : Barrier → Barrier) :
    Opened (d.modBarrier b f) h op := o.congr (modBarrier_ctl d b f)

@[simp] theorem modBarrier_self (d : Dev) (b : Nat) (f : Barrier → Barrier) :
    (d.modBarrier b f).seq.barriers.get {} b = f (d.seq.barriers.get {} b) := Tab.get_mod_self _ _ _ _

theorem modBarrier_of_ne (d : Dev) {b k : Nat} (ne : k ≠ b) (f : Barrier → Barrier) :
    (d.modBarrier b f).seq.barriers.get {} k = d.seq.barriers.get {} k := Tab.get_mod_of_ne _ _ ne _

/-- A barrier that SEQ.BARRIER has configured. -/
def Barrier.configured (count timeout : Nat) (x : Barrier) : Barrier := { x with count := count, timeout := timeout }

/-- A barrier whose open generation breaks at a stamp. -/
def Barrier.brokenAt (z : Nat) (x : Barrier) : Barrier :=
  { x with broken := true, release := some (roundUp (z + trigLatency) grainSteps) }

/-- Without an unbroken generation nothing breaks. -/
theorem breakBarrier_of_closed {d : Dev} {b : Nat}
    (closed : (d.seq.barriers.get {} b).opened = none ∨ (d.seq.barriers.get {} b).broken = true) (z : Nat) :
    d.breakBarrier b z true = d := by
  unfold Dev.breakBarrier
  rw [if_pos]
  rcases closed with none_open | broken
  · exact .inl (by rw [none_open]; rfl)
  · exact .inr (.inl broken)

/-- An open generation that a reset breaks sends its release down the tree. -/
theorem breakBarrier_of_open {d : Dev} {b : Nat} (opened : (d.seq.barriers.get {} b).opened.isSome = true)
    (whole : (d.seq.barriers.get {} b).broken = false) (z : Nat) :
    d.breakBarrier b z true = (d.modBarrier b (Barrier.brokenAt z)).linkOut
      (.release (BitVec.ofNat 5 b) (roundUp (z + trigLatency) grainSteps) true) := by
  have breaks : ¬ ((d.seq.barriers.get {} b).opened.isNone = true ∨ (d.seq.barriers.get {} b).broken = true ∨
      ((d.seq.barriers.get {} b).release.isSome = true ∧ ¬ true = true)) := by
    simp [whole, Option.isSome_iff_ne_none.mp opened]
  have now : ((d.modBarrier b (Barrier.brokenAt z)).seq.barriers.get {} b).release =
      some (roundUp (z + trigLatency) grainSteps) := by rw [modBarrier_self]; rfl
  unfold Dev.breakBarrier
  rw [if_neg breaks]
  change (d.modBarrier b (Barrier.brokenAt z)).sendRelease b = _
  simp only [Dev.sendRelease, now]
  rw [modBarrier_self]
  rfl

/-- The count of a SEQ.BARRIER within its bounds. -/
theorem barrier_count_good {n : BitVec 16} (lo : 1 ≤ n.toNat) (hi : n.toNat ≤ 12352) :
    (n == 0 || decide (n.toNat > 12352)) = false := by
  simp only [Bool.or_eq_false_iff, beq_eq_false_iff_ne, decide_eq_false_iff_not]
  exact ⟨fun zero => by simp [zero] at lo, by omega⟩

/-- SEQ.BARRIER where nothing stands against it, by the device that its RESET bit leaves. -/
theorem seqBarrier_configures {s : State} {h : Hdr} (i : Idle s h) (b : BitVec 5) {n : BitVec 16} (timeout : BitVec 64)
    {reset : Bool} (manager : s.straps.isWorker = false) (lo : 1 ≤ n.toNat) (hi : n.toNat ≤ 12352)
    (free : ((s.dev.seq.barriers.get {} b.toNat).opened.isSome && !reset) = false) {d : Dev}
    (resets : (if reset then (s.dev.takenUp h 0x050A).breakBarrier b.toNat
      (roundUp ((s.dev.takenUp h 0x050A).tl.now + 1) grainSteps) true else s.dev.takenUp h 0x050A) = d)
    (o : Opened d h 0x050A) (ring : d.ctl.cplOut = s.dev.ctl.cplOut) (frame : SameBut [.seq] (s.dev.takenUp h 0x050A) d) :
    ∃ x, exec (.seqBarrier h b n timeout reset) s = .next x ∧ Keeps [.seq] s x ∧ Answers s x h 0x050A stOk [] ∧
      x.dev.tl = d.tl ∧
      x.dev.seq = (d.modBarrier b.toNat (Barrier.configured n.toNat timeout.toNat)).seq := by
  have sends : Opened ((d.modBarrier b.toNat (Barrier.configured n.toNat timeout.toNat)).linkOut (.barrier b n.toNat)) h 0x050A :=
    (o.modBarrier _ _).linkOut _
  refine ⟨_, hostCmd_runs i 0x050A ?_, keeps_of_takenUp (by decide)
    (((frame.trans (modBarrier_keeps d b.toNat _)).trans (linkOut_keeps _ _ (.barrier b n.toNat))).trans (ok_keeps _ _ h.tag)),
    sends.accept.answers (by rw [accept_ctl]; simpa using ring) {} (.inl rfl) rfl rfl rfl, by simp, by simp⟩
  simp only [manager, barrier_count_good lo hi, takenUp_seq, free, resets]
  rfl

/-- SEQ.BARRIER where no generation breaks with it. -/
theorem seqBarrier_of_closed {s : State} {h : Hdr} (i : Idle s h) (b : BitVec 5) {n : BitVec 16} (timeout : BitVec 64)
    {reset : Bool} (manager : s.straps.isWorker = false) (lo : 1 ≤ n.toNat) (hi : n.toNat ≤ 12352)
    (closed : (s.dev.seq.barriers.get {} b.toNat).opened = none ∨
      reset = true ∧ (s.dev.seq.barriers.get {} b.toNat).broken = true) :
    ∃ x, exec (.seqBarrier h b n timeout reset) s = .next x ∧ Keeps [.seq] s x ∧ Answers s x h 0x050A stOk [] ∧
      x.dev.seq = (s.dev.modBarrier b.toNat (Barrier.configured n.toNat timeout.toNat)).seq := by
  have free : ((s.dev.seq.barriers.get {} b.toNat).opened.isSome && !reset) = false := by
    rcases closed with none_open | ⟨rfl, -⟩
    · simp [none_open]
    · simp
  have resets : (if reset then (s.dev.takenUp h 0x050A).breakBarrier b.toNat
      (roundUp ((s.dev.takenUp h 0x050A).tl.now + 1) grainSteps) true else s.dev.takenUp h 0x050A) = s.dev.takenUp h 0x050A := by
    rw [breakBarrier_of_closed (by rw [takenUp_seq]; exact closed.imp_right And.right), ite_self]
  obtain ⟨x, runs, frame, answer, -, seq⟩ := seqBarrier_configures i b timeout manager lo hi free resets
    (takenUp_opened i 0x050A) (takenUp_ring i 0x050A) (.refl _ _)
  exact ⟨x, runs, frame, answer, by rw [seq, Dev.modBarrier, Dev.modBarrier, takenUp_seq]⟩

/-- SEQ.BARRIER with its RESET bit breaks an open generation. -/
theorem seqBarrier_breaks {s : State} {h : Hdr} (i : Idle s h) (b : BitVec 5) {n : BitVec 16} (timeout : BitVec 64)
    (manager : s.straps.isWorker = false) (lo : 1 ≤ n.toNat) (hi : n.toNat ≤ 12352)
    (opened : (s.dev.seq.barriers.get {} b.toNat).opened.isSome = true)
    (whole : (s.dev.seq.barriers.get {} b.toNat).broken = false) :
    ∃ x, exec (.seqBarrier h b n timeout true) s = .next x ∧ Keeps [.seq] s x ∧ Answers s x h 0x050A stOk [] ∧
      x.dev.seq.barriers.get {} b.toNat = ((s.dev.seq.barriers.get {} b.toNat).brokenAt
        (roundUp (x.dev.tl.now + 1) grainSteps)).configured n.toNat timeout.toNat := by
  generalize hz : roundUp ((s.dev.takenUp h 0x050A).tl.now + 1) grainSteps = z
  have breaks := breakBarrier_of_open (d := s.dev.takenUp h 0x050A) (by rw [takenUp_seq, opened])
    (by rw [takenUp_seq, whole]) z
  obtain ⟨x, runs, frame, answer, tl, seq⟩ := seqBarrier_configures i b timeout manager lo hi (reset := true)
    (by simp) (by rw [if_pos rfl, hz, breaks]) (((takenUp_opened i 0x050A).modBarrier _ _).linkOut _)
    (by rw [linkOut_ring, modBarrier_ctl, takenUp_ring i])
    ((modBarrier_keeps _ b.toNat _).trans (linkOut_keeps _ _ _))
  have now : x.dev.tl = (s.dev.takenUp h 0x050A).tl := by rw [tl, Dev.linkOut_tl, modBarrier_tl]
  refine ⟨x, runs, frame, answer, ?_⟩
  rw [seq, now, hz, modBarrier_self, Dev.linkOut_seq, modBarrier_self, takenUp_seq]

/-- A worker turns SEQ.BARRIER away. -/
theorem seqBarrier_denied {s : State} {h : Hdr} (i : Idle s h) (b : BitVec 5) (n : BitVec 16) (timeout : BitVec 64)
    (reset : Bool) (worker : s.straps.isWorker = true) :
    ∃ x, exec (.seqBarrier h b n timeout reset) s = .next x ∧ Keeps [] s x ∧ Answers s x h 0x050A stDenied [] := by
  refine ⟨_, hostCmd_runs i 0x050A ?_, refused_ends i 0x050A (by decide) stDenied b.toNat 0 0⟩
  simp only [worker]
  rfl

/-- An open generation turns a SEQ.BARRIER without its RESET bit away. -/
theorem seqBarrier_busy {s : State} {h : Hdr} (i : Idle s h) (b : BitVec 5) {n : BitVec 16} (timeout : BitVec 64)
    (manager : s.straps.isWorker = false) (lo : 1 ≤ n.toNat) (hi : n.toNat ≤ 12352)
    (opened : (s.dev.seq.barriers.get {} b.toNat).opened.isSome = true) :
    ∃ x, exec (.seqBarrier h b n timeout false) s = .next x ∧ Keeps [] s x ∧ Answers s x h 0x050A stBusy [] := by
  refine ⟨_, hostCmd_runs i 0x050A ?_, refused_ends i 0x050A (by decide) stBusy b.toNat 0 0⟩
  simp only [manager, barrier_count_good lo hi, takenUp_seq, opened]
  rfl

end Sys2Proof.Machine

open Sys2Proof Sys2Proof.Machine

/-- Settles O42, by what each command does to a site of one thread or to a barrier, and what turns it away. -/
theorem sequencerControl : Obligations.SequencerControl := by
  unfold Obligations.SequencerControl
  refine ⟨fun s h th i al => ⟨fun seg w e st late checks gate fresh place _ => ?_, seqStop_idle i th.isLt al, fun st => ?_,
      seqStop_ends_flow i th.isLt al⟩,
    fun s h th i al => ⟨fun seg st valid jump => ?_, fun seg st => seqJump_idle i seg st, fun st parks => ?_,
      fun w e st late held free place => ?_, fun b n timeout reset manager lo hi closed => ?_,
      fun b n timeout => ⟨fun reset worker => seqBarrier_denied i b n timeout reset worker, fun manager lo hi opened =>
        ⟨seqBarrier_busy i b timeout manager lo hi opened, ?_⟩⟩⟩⟩
  · obtain ⟨t, runs, frame, answer, thread, acts⟩ := seqStart_arms i th.isLt al checks gate fresh place
    exact ⟨t, runs, frame, answer, by rw [thread]; rfl, by rw [thread]; rfl, by rw [thread]; rfl, by rw [thread]; rfl, acts⟩
  · obtain ⟨t, z, runs, frame, waits, thread⟩ := seqStop_latches i th.isLt al st
    exact ⟨t, runs, frame, waits, by rw [thread]; exact st, by rw [thread]; exact mem_latched _ _,
      by rw [thread]; exact List.mem_concat_self⟩
  · obtain ⟨t, z, runs, frame, waits, thread⟩ := seqJump_latches i al st valid jump
    exact ⟨t, _, runs, frame, waits, by rw [thread]; rfl, rfl, rfl⟩
  · obtain ⟨t, z, runs, frame, waits, thread⟩ := seqHold_latches i th.isLt al st parks
    exact ⟨t, runs, frame, waits, by rw [thread]; exact mem_latched _ _,
      by rw [thread]; exact List.mem_concat_self⟩
  · obtain ⟨t, runs, frame, waits, thread, acts⟩ := seqResume_schedules i th.isLt al held free place
    exact ⟨t, runs, frame, waits, by rw [thread]; rfl, acts⟩
  · obtain ⟨t, runs, frame, answer, seq⟩ := seqBarrier_of_closed i b timeout (reset := reset) manager lo hi (.inl closed)
    exact ⟨t, runs, frame, answer, by rw [seq, modBarrier_self]; rfl, by rw [seq, modBarrier_self]; rfl,
      fun k ne => by rw [seq, modBarrier_of_ne _ ne]⟩
  · cases broken : (s.dev.seq.barriers.get {} b.toNat).broken with
    | true =>
      obtain ⟨t, runs, frame, answer, seq⟩ := seqBarrier_of_closed i b timeout manager lo hi (.inr ⟨rfl, broken⟩)
      exact ⟨t, runs, frame, answer, by rw [seq, modBarrier_self]; rfl, by rw [seq, modBarrier_self]; rfl, nofun⟩
    | false =>
      obtain ⟨t, runs, frame, answer, barrier⟩ := seqBarrier_breaks i b timeout manager lo hi opened broken
      exact ⟨t, runs, frame, answer, by rw [barrier]; rfl, by rw [barrier]; rfl,
        fun _ => ⟨by rw [barrier]; rfl, by rw [barrier]; rfl⟩⟩
end

section
/-!
PROOFS. The doorbells (R344, R508, R369): CMD_TAIL, CPL_HEAD, EVT_HEAD and RES_HEAD are taken, or the write is ignored, counts in
P.0009 and posts the doorbell-error event. A tail below the ring size is never past CMD_HEAD (log entry 60). What
the commit of such a write does to the Event Ring is said once, beside `quiet`, which says it for the Completion Ring.
-/
namespace Sys2Proof.Machine

/-! ### What leaves the Event Ring alone -/

/-- The Event Ring and the entries in it. -/
def Dev.eventRing (d : Dev) : RingCfg × List Evt := (d.ctl.evt, d.ctl.evtOut)

@[simp] theorem takeSeq_eventRing (d : Dev) : d.takeSeq.eventRing = d.eventRing := by
  unfold Dev.takeSeq
  dsimp only
  split <;> rfl

@[simp] theorem signal_eventRing (d : Dev) (v : Nat) : (d.signal v).eventRing = d.eventRing := by
  unfold Dev.signal
  dsimp only
  split <;> rfl

theorem pumpOne_eventRing (d : Dev) (p : Nat) : (d.pumpOne p).eventRing = d.eventRing := by
  unfold Dev.pumpOne
  split
  · rfl
  · dsimp only
    split
    · exact takeSeq_eventRing d
    · rfl

theorem pump_eventRing (n : Nat) (d : Dev) : (d.pump n).eventRing = d.eventRing := by
  fun_induction Dev.pump n d with
  | case1 => rfl
  | case2 n d ih => exact ih.trans (forEach_leaves Dev.eventRing (fun p d => pumpOne_eventRing d p) _ d)

theorem stage_eventRing (d : Dev) (p : Packet) : (d.stage p).eventRing = d.eventRing := by
  unfold Dev.stage
  split <;> rfl

theorem commitPackets_eventRing (d : Dev) (ps : List Packet) : (d.commitPackets ps).eventRing = d.eventRing := by
  unfold Dev.commitPackets
  have marks : ∀ e : Dev, Dev.eventRing { e with cap := e.cap.marks e.mono } = e.eventRing := fun _ => rfl
  refine (marks _).trans ((pump_eventRing 8 _).trans (forEach_leaves Dev.eventRing (fun k d => ?_) _ d))
  exact foldl_leaves Dev.eventRing (fun d p => (pump_eventRing 1 _).trans (stage_eventRing d p)) _ d

theorem sendLinks_eventRing (d : Dev) (l : List LinkMsg) : (d.sendLinks l).eventRing = d.eventRing := by
  unfold Dev.sendLinks
  refine (forEach_leaves Dev.eventRing (fun p d => ?_) _ _).trans (foldl_leaves Dev.eventRing (fun d m => ?_) _ d)
  · dsimp only
    split <;> rfl
  · rfl

/-- An event that is written into the ring takes the next entry, and keeps what it was formed with. -/
theorem ringEvt_eventRing (d : Dev) (e : Evt) : ∃ x : Evt, (d.ringEvt e).eventRing = (d.ctl.evt.push, d.ctl.evtOut ++ [x]) ∧
    x.source = e.source ∧ x.code = e.code ∧ x.data = e.data := by
  have kept : (if e.fwd then d else d.takeSeq).eventRing = d.eventRing := by split <;> simp
  obtain ⟨ring, out⟩ := Prod.mk.inj kept
  refine ⟨{ e with seq := if e.fwd then e.seq else d.ctl.seq, phase := d.ctl.evt.phase }, ?_, rfl, rfl, rfl⟩
  rw [Dev.ringEvt, signal_eventRing]
  exact congrArg₂ Prod.mk (congrArg RingCfg.push ring) (congrArg (· ++ [_]) out)

/-! ### Parts of the control complex that no commit changes -/

@[simp] theorem commit_cmd (d : Dev) : d.commit.ctl.cmd = d.ctl.cmd := of_core (·.ctl.cmd) (fun _ => rfl) (commit_core d)
@[simp] theorem commit_resHead (d : Dev) : d.commit.ctl.resHead = d.ctl.resHead :=
  of_core (·.ctl.resHead) (fun _ => rfl) (commit_core d)
@[simp] theorem commit_doorbells (d : Dev) : d.commit.ctl.doorbells = d.ctl.doorbells :=
  of_core (·.ctl.doorbells) (fun _ => rfl) (commit_core d)

/-! ### A commit that no completion waits for -/

/-- The device as its commit begins, where no command is in flight: its outbox has been taken over. -/
def Dev.emptied (d : Dev) : Dev :=
  { d.settleEpoch with ctl := { d.settleEpoch.ctl with
    outbox := {}, upCpl := [], upEvt := [], sent := [], written := d.ctl.outbox.written, flights := [] } }

/-- Where no completion is formed, the commit writes the events, and what leaves after them. -/
theorem commit_of_no_completions {d : Dev} (flights : d.ctl.flights = []) (interim : d.ctl.outbox.interim = []) :
    d.commit = ((d.ctl.outbox.events.foldl Dev.commitEvt d.emptied).commitPackets d.ctl.outbox.packets).sendLinks
      d.ctl.outbox.links := by
  have settled : d.settleEpoch.ctl.flights = [] := flights
  have formed : d.settleEpoch.ctl.outbox.interim = [] := interim
  unfold Dev.commit
  simp only [settled, formed, writeable, unwritten, List.foldl_nil]
  rfl

/-- Such a commit leaves the Completion Ring and its entries alone. -/
theorem commit_completionRing {d : Dev} (flights : d.ctl.flights = []) (interim : d.ctl.outbox.interim = []) :
    d.commit.ctl.cpl = d.ctl.cpl ∧ d.commit.ctl.cplOut = d.ctl.cplOut := by
  have quiet : d.commit.quiet = d.emptied.quiet := by
    rw [commit_of_no_completions flights interim, leaving_quiet]
    exact foldl_leaves Dev.quiet commitEvt_quiet _ _
  exact ⟨(of_quiet (·.ctl.cpl) (fun _ => rfl) quiet :), (of_quiet (·.ctl.cplOut) (fun _ => rfl) quiet :)⟩

/-- The Event Ring after such a commit is that of the events alone. -/
theorem commit_eventRing {d : Dev} (flights : d.ctl.flights = []) (interim : d.ctl.outbox.interim = []) :
    d.commit.eventRing = (d.ctl.outbox.events.foldl Dev.commitEvt d.emptied).eventRing := by
  rw [commit_of_no_completions flights interim, sendLinks_eventRing, commitPackets_eventRing]

/-- Where no event is formed either, the Event Ring stands. -/
theorem commit_eventRing_of_none {d : Dev} (flights : d.ctl.flights = []) (outbox : d.ctl.outbox = {}) :
    d.commit.eventRing = d.eventRing := by
  rw [commit_eventRing flights (by rw [outbox]), outbox]
  rfl

/-- The events of this device go straight into its ring: it is no admitted worker, the ring has room, and nothing waits before
them (R43, R347, R349). -/
structure EventsFlow (d : Dev) : Prop where
  own : d.tree.admitted = false
  room : d.ctl.evt.room = true
  held : d.ctl.heldEvt = []
  lost : d.ctl.lostOwed = 0
  behind : d.ctl.behind = false

/-- A single event of such a device is the next entry of its ring. -/
theorem EventsFlow.commit_event {d : Dev} (w : EventsFlow d) (flights : d.ctl.flights = [])
    (interim : d.ctl.outbox.interim = []) {e : Evt} (events : d.ctl.outbox.events = [e]) :
    ∃ x : Evt, d.commit.eventRing = (d.ctl.evt.push, d.ctl.evtOut ++ [x]) ∧ x.source = e.source ∧ x.code = e.code ∧
      x.data = e.data := by
  have own : ¬ d.emptied.tree.admitted = true := Bool.not_eq_true _ ▸ w.own
  have turn : d.emptied.inTurn (e.epoch != d.emptied.tl.epoch) = true := by
    simp [Dev.inTurn, Dev.emptied, Dev.settleEpoch, w.behind]
  have ring : d.emptied.commitEvt e = d.emptied.ringEvt e := by
    unfold Dev.commitEvt
    rw [if_neg fun up => own up.2.2]
    exact if_pos ⟨turn, w.held, w.room, w.lost⟩
  rw [commit_eventRing flights interim, events, List.foldl_cons, List.foldl_nil, ring]
  exact ringEvt_eventRing d.emptied e

/-! ### Doorbells that are ignored (R508, R369) -/

/-- An access to a BAR0 that exists. -/
theorem onBar_up {s : State} (up : barUp s = true) (n : Nat) (f : Dev → Dev) :
    onBar s n f = .next { s with dev := (f (s.dev.advance n)).commit } := by
  simp only [onBar, onDev, up, if_true]

/-- The event of an ignored doorbell, as it is formed. -/
def Dev.doorbellEvt (d : Dev) (ring : Nat) : Evt :=
  { source := 514, code := 2, data := [(ring : Int)], position := d.tree.position, epoch := d.tl.epoch, stamp := d.tl.now
    tq := d.tl.tq }

/-- An ignored doorbell counts, and its event is formed where its source is enabled. -/
theorem badDoorbell_ctl {d : Dev} (on : (d.ctl.srcs.get {} 514).off = false) (ring : Nat) : (d.badDoorbell ring).ctl =
    { d.ctl with
      doorbells := min (2 ^ 32 - 1) (d.ctl.doorbells + 1)
      outbox := { d.ctl.outbox with events := d.ctl.outbox.events ++ [d.doorbellEvt ring] } } := by
  unfold Dev.badDoorbell Dev.post Dev.postAt
  rw [if_neg (by simp [on])]
  rfl

theorem badDoorbell_keeps (d : Dev) (ring : Nat) : SameBut [.ctl] d (d.badDoorbell ring) := by
  refine SameBut.trans (fun p hp => ?_) (post_keeps [.ctl] _ 514 2 [(ring : Int)])
  cases p with
  | ctl => exact absurd (List.mem_singleton.mpr rfl) hp
  | tl => exact Timeline.kept_refl _
  | _ => rfl

@[simp] theorem badDoorbell_tree (d : Dev) (ring : Nat) : (d.badDoorbell ring).tree = d.tree := by simp [Dev.badDoorbell]

/-- A doorbell write that is ignored counts and posts its event, and moves neither the rings nor the result area. -/
theorem onBar_badDoorbell {s : State} (up : barUp s = true) (n ring : Nat) (f : Dev → Dev)
    (bad : f (s.dev.advance n) = (s.dev.advance n).badDoorbell ring) (w : EventsFlow s.dev) (flights : s.dev.ctl.flights = [])
    (outbox : s.dev.ctl.outbox = {}) (on : (s.dev.ctl.srcs.get {} 514).off = false) :
    ∃ (t : State) (x : Evt), onBar s n f = .next t ∧ Keeps [.ctl] s t ∧ t.dev.ctl.cmd = s.dev.ctl.cmd ∧
      t.dev.ctl.cpl = s.dev.ctl.cpl ∧ t.dev.ctl.evt.head = s.dev.ctl.evt.head ∧ t.dev.ctl.resHead = s.dev.ctl.resHead ∧
      t.dev.ctl.cplOut = s.dev.ctl.cplOut ∧ t.dev.ctl.doorbells = min (2 ^ 32 - 1) (s.dev.ctl.doorbells + 1) ∧
      t.dev.ctl.evtOut = s.dev.ctl.evtOut ++ [x] ∧ x.source = 514 ∧ x.code = 2 ∧ x.data = [(ring : Int)] := by
  have ctl := badDoorbell_ctl (d := s.dev.advance n) (by simpa using on) ring
  have tree : ((s.dev.advance n).badDoorbell ring).tree = s.dev.tree := by simp
  have kept := (advance_keeps [.ctl] s.dev n).trans (badDoorbell_keeps (s.dev.advance n) ring)
  rw [onBar_up up, bad]
  generalize (s.dev.advance n).badDoorbell ring = d at ctl tree kept ⊢
  rw [Dev.advance_ctl, outbox] at ctl
  have idle : d.ctl.flights = [] := by rw [ctl]; exact flights
  have interim : d.ctl.outbox.interim = [] := by rw [ctl]
  have flow : EventsFlow d :=
    ⟨by rw [tree]; exact w.own, by rw [ctl]; exact w.room, by rw [ctl]; exact w.held, by rw [ctl]; exact w.lost,
      by rw [ctl]; exact w.behind⟩
  obtain ⟨cpl, cplOut⟩ := commit_completionRing idle interim
  obtain ⟨x, events, source, code, data⟩ := flow.commit_event idle interim (by rw [ctl]; rfl)
  obtain ⟨evt, evtOut⟩ := Prod.mk.inj events
  have frame : Keeps [.ctl] s { s with dev := d.commit } := keeps_commit kept
  have cmd := commit_cmd d
  have resHead := commit_resHead d
  have count := commit_doorbells d
  generalize d.commit = e at *
  rw [ctl] at cmd cpl evt resHead cplOut count evtOut
  exact ⟨_, x, rfl, frame, cmd, cpl, (congrArg RingCfg.head evt :), resHead, cplOut, count, evtOut, source, code, data⟩

/-- A head doorbell frees nothing where its area is disabled, or its value lies outside or past the write index. -/
theorem freed_none {r : RingCfg} {v : Nat} (bad : r.en = false ∨ r.size.toNat ≤ v ∨
    ringDist r.size.toNat r.head r.tail < ringDist r.size.toNat r.head v) : r.freed v = none := by
  refine if_neg fun good => ?_
  simp only [Bool.and_eq_true, decide_eq_true_eq] at good
  obtain ⟨en, inside, short⟩ := good
  rcases bad with off | outside | past
  · simp [off] at en
  · omega
  · omega

theorem writeCmdTail_ignored {d : Dev} {v : BitVec 32} (bad : d.ctl.cmd.en = false ∨ d.ctl.cmd.size.toNat ≤ v.toNat) :
    d.writeCmdTail v = d.badDoorbell 0 :=
  if_pos (bad.imp (fun off => by simp [off]) id)

theorem writeCplHead_ignored {d : Dev} {v : BitVec 32} (none_freed : d.ctl.cpl.freed v.toNat = none) :
    d.writeCplHead v = d.badDoorbell 1 := by
  rw [Dev.writeCplHead, none_freed]

theorem writeEvtHead_ignored {d : Dev} {v : BitVec 32} (none_freed : d.ctl.evt.freed v.toNat = none) :
    d.writeEvtHead v = d.badDoorbell 2 := by
  rw [Dev.writeEvtHead, none_freed]

theorem writeResHead_ignored {d : Dev} {v : BitVec 32} (bad : d.ctl.resEn = false ∨ d.ctl.resSize ≤ v.toNat ∨
    v.toNat % 8 ≠ 0 ∨ ringDist d.ctl.resSize d.ctl.resHead d.ctl.resTail < ringDist d.ctl.resSize d.ctl.resHead v.toNat) :
    d.writeResHead v = d.badDoorbell 3 :=
  if_pos (by simpa using bad)

/-! ### Doorbells that are taken (R344, R508) -/

/-- An access that rewrites only the control complex, and forms no record. -/
theorem onBar_setCtl {s : State} (up : barUp s = true) (l : List Part) (n : Nat) (f : Dev → Dev) {c : Ctl}
    (set : f (s.dev.advance n) = { s.dev.advance n with ctl := c })
    (setting : Part.ctl ∉ l → c.setting = s.dev.ctl.setting) (flights : c.flights = []) (outbox : c.outbox = {}) :
    ∃ t, onBar s n f = .next t ∧ Keeps l s t ∧ t.dev.ctl.cmd = c.cmd ∧ t.dev.ctl.resHead = c.resHead ∧
      t.dev.ctl.cpl = c.cpl ∧ t.dev.ctl.cplOut = c.cplOut ∧ t.dev.ctl.evt = c.evt ∧ t.dev.ctl.evtOut = c.evtOut := by
  have kept : SameBut l s.dev { s.dev.advance n with ctl := c } := by
    refine (advance_keeps l s.dev n).trans fun p hp => ?_
    cases p with
    | ctl => exact (congrArg Ctl.setting (s.dev.advance_ctl n)).trans (setting hp).symm
    | tl => exact Timeline.kept_refl _
    | _ => rfl
  rw [onBar_up up, set]
  generalize hd : { s.dev.advance n with ctl := c } = d at kept ⊢
  obtain rfl : d.ctl = c := by rw [← hd]
  obtain ⟨cpl, cplOut⟩ := commit_completionRing flights (by rw [outbox])
  obtain ⟨evt, evtOut⟩ := Prod.mk.inj (commit_eventRing_of_none flights outbox)
  have frame : Keeps l s { s with dev := d.commit } := keeps_commit kept
  have cmd := commit_cmd d
  have resHead := commit_resHead d
  generalize d.commit = e at *
  exact ⟨_, rfl, frame, cmd, resHead, cpl, cplOut, evt, evtOut⟩

theorem cmdTailWrite_taken {s : State} (n : Nat) {v : BitVec 32} (up : barUp s = true) (flights : s.dev.ctl.flights = [])
    (outbox : s.dev.ctl.outbox = {}) (en : s.dev.ctl.cmd.en = true) (inside : v.toNat < s.dev.ctl.cmd.size.toNat) :
    ∃ t, exec (.cmdTailWrite n v) s = .next t ∧ Keeps [.ctl] s t ∧
      t.dev.ctl.cmd = { s.dev.ctl.cmd with tail := v.toNat } := by
  have taken : (s.dev.advance n).writeCmdTail v =
      { s.dev.advance n with ctl := { s.dev.ctl with cmd := { s.dev.ctl.cmd with tail := v.toNat } } } := by
    rw [Dev.writeCmdTail, s.dev.advance_ctl n]
    exact if_neg (by simp [en, inside])
  obtain ⟨t, runs, frame, cmd, -⟩ :=
    onBar_setCtl up [.ctl] n (fun d => d.writeCmdTail v) taken (absurd (List.mem_singleton.mpr rfl)) flights outbox
  exact ⟨t, runs, frame, cmd⟩

theorem cplHeadWrite_taken {s : State} (n : Nat) {v : BitVec 32} (up : barUp s = true) (flights : s.dev.ctl.flights = [])
    (outbox : s.dev.ctl.outbox = {}) {k : Nat} (frees : s.dev.ctl.cpl.freed v.toNat = some k) :
    ∃ t, exec (.cplHeadWrite n v) s = .next t ∧ Keeps [] s t ∧
      t.dev.ctl.cpl = { s.dev.ctl.cpl with head := v.toNat } ∧ t.dev.ctl.cplOut = s.dev.ctl.cplOut.drop k := by
  have taken : (s.dev.advance n).writeCplHead v = { s.dev.advance n with ctl := { s.dev.ctl with
      cpl := { s.dev.ctl.cpl with head := v.toNat }, cplOut := s.dev.ctl.cplOut.drop k } } := by
    rw [Dev.writeCplHead, s.dev.advance_ctl n, frees]
  obtain ⟨t, runs, frame, -, -, cpl, cplOut, -⟩ :=
    onBar_setCtl up [] n (fun d => d.writeCplHead v) taken (fun _ => rfl) flights outbox
  exact ⟨t, runs, frame, cpl, cplOut⟩

theorem evtHeadWrite_taken {s : State} (n : Nat) {v : BitVec 32} (up : barUp s = true) (flights : s.dev.ctl.flights = [])
    (outbox : s.dev.ctl.outbox = {}) {k : Nat} (frees : s.dev.ctl.evt.freed v.toNat = some k) :
    ∃ t, exec (.evtHeadWrite n v) s = .next t ∧ Keeps [] s t ∧
      t.dev.ctl.evt = { s.dev.ctl.evt with head := v.toNat } ∧ t.dev.ctl.evtOut = s.dev.ctl.evtOut.drop k := by
  have taken : (s.dev.advance n).writeEvtHead v = { s.dev.advance n with ctl := { s.dev.ctl with
      evt := { s.dev.ctl.evt with head := v.toNat }, evtOut := s.dev.ctl.evtOut.drop k } } := by
    rw [Dev.writeEvtHead, s.dev.advance_ctl n, frees]
  obtain ⟨t, runs, frame, -, -, -, -, evt, evtOut⟩ :=
    onBar_setCtl up [] n (fun d => d.writeEvtHead v) taken (fun _ => rfl) flights outbox
  exact ⟨t, runs, frame, evt, evtOut⟩

theorem resHeadWrite_taken {s : State} (n : Nat) {v : BitVec 32} (up : barUp s = true) (flights : s.dev.ctl.flights = [])
    (outbox : s.dev.ctl.outbox = {}) (en : s.dev.ctl.resEn = true) (inside : v.toNat < s.dev.ctl.resSize)
    (whole : v.toNat % 8 = 0) (short : ringDist s.dev.ctl.resSize s.dev.ctl.resHead v.toNat ≤
      ringDist s.dev.ctl.resSize s.dev.ctl.resHead s.dev.ctl.resTail) :
    ∃ t, exec (.resHeadWrite n v) s = .next t ∧ Keeps [.ctl] s t ∧ t.dev.ctl.resHead = v.toNat := by
  have taken : (s.dev.advance n).writeResHead v = { s.dev.advance n with ctl := { s.dev.ctl with
      resHead := v.toNat
      resOut := lastPackets (ringDist s.dev.ctl.resSize v.toNat s.dev.ctl.resTail) s.dev.ctl.resOut } } := by
    rw [Dev.writeResHead, s.dev.advance_ctl n]
    exact if_neg (by simp [en, inside, whole, short])
  obtain ⟨t, runs, frame, -, resHead, -⟩ :=
    onBar_setCtl up [.ctl] n (fun d => d.writeResHead v) taken (absurd (List.mem_singleton.mpr rfl)) flights outbox
  exact ⟨t, runs, frame, resHead⟩

end Sys2Proof.Machine

open Sys2Proof Sys2Proof.Machine

/-- Settles O17, by what a doorbell that is taken writes, and what the commit of one that is ignored adds to the Event Ring. -/
theorem doorbells : Obligations.Doorbells := by
  unfold Obligations.Doorbells
  refine fun s n v up flights outbox => ⟨cmdTailWrite_taken n up flights outbox,
    fun k => cplHeadWrite_taken n up flights outbox, fun k => evtHeadWrite_taken n up flights outbox,
    resHeadWrite_taken n up flights outbox, fun c ring own room held lost behind on bad => ?_⟩
  have ctl := s.dev.advance_ctl n
  have flow : EventsFlow s.dev := ⟨own, room, held, lost, behind⟩
  rcases bad with ⟨rfl, rfl, bad⟩ | ⟨rfl, rfl, bad⟩ | ⟨rfl, rfl, bad⟩ | ⟨rfl, rfl, bad⟩
  · exact onBar_badDoorbell up n 0 (fun d => d.writeCmdTail v) (writeCmdTail_ignored (by rw [ctl]; exact bad))
      flow flights outbox on
  · exact onBar_badDoorbell up n 1 (fun d => d.writeCplHead v) (writeCplHead_ignored (by rw [ctl]; exact freed_none bad))
      flow flights outbox on
  · exact onBar_badDoorbell up n 2 (fun d => d.writeEvtHead v) (writeEvtHead_ignored (by rw [ctl]; exact freed_none bad))
      flow flights outbox on
  · exact onBar_badDoorbell up n 3 (fun d => d.writeResHead v) (writeResHead_ignored (by rw [ctl]; exact bad))
      flow flights outbox on
end

section
/-!
PROOFS. The block as a whole (R25, R353, R420; log entries 1, 14): what one step runs, that every command goes on, and the invariant
between two commands. Every command but a power-on reset ends with the commit of what it formed.
-/
namespace Sys2Proof.Machine

/-! ### Every command goes on -/

/-- A command has one outcome: a next state, with the queue as it was. -/
theorem exec_goes_on (c : Instr) (s : State) : ∃ t, exec c s = .next t ∧ t.pending = s.pending := by
  by_cases hp : ∃ x, c = .powerOnReset x
  · obtain ⟨x, rfl⟩ := hp
    exact ⟨_, rfl, rfl⟩
  by_cases hw : ∃ x, c = .warmReset x
  · obtain ⟨x, rfl⟩ := hw
    exact ⟨_, rfl, rfl⟩
  by_cases hr : ∃ h v, c = .bootRollback h v
  · obtain ⟨h, v, rfl⟩ := hr
    obtain ⟨d, n, -, runs⟩ := execBootRollback_writes h v s
    exact ⟨_, runs, rfl⟩
  push Not at hp hw hr
  obtain ⟨d, runs⟩ := exec_writes_dev c s hp hw hr
  exact ⟨_, runs, rfl⟩

/-! ### The idle grain -/

theorem advance_now_of_stopped {d : Dev} (stopped : d.tl.running = false) (n : Nat) : (d.advance n).tl.now = d.tl.now := by
  simp [Dev.advance, stopped]

/-- Where no rewind is pending the present reaches every stamp that is not before it. -/
theorem advance_now {d : Dev} (running : d.tl.running = true) (rewind : d.tl.rewind = none) (n : Nat) :
    (d.advance n).tl.now = max d.tl.now n := by
  have reach : d.tl.reach n = max d.tl.now n := by simp [Timeline.reach, rewind]
  unfold Dev.advance
  rw [if_neg (by simp [running]), reach]
  split_ifs with here
  · exact here.symm
  · simp

/-! ### What a commit leaves of the commands in flight -/

/-- Nothing that stays may be written: a command that has to wait holds its stream until it goes. -/
theorem writeable_unwritten (ok : Cpl → Bool) (seen : List (BitVec 5)) (l : List Flight) :
    writeable ok seen (unwritten ok seen l) = [] := by
  induction l generalizing seen with
  | nil => rfl
  | cons f r ih =>
    by_cases goes : (f.settled ok && ((opClass f.opcode == 0 || f.queuedOnce) || !seen.contains f.stream)) = true
    · rw [unwritten, if_pos goes]
      exact ih seen
    · rw [unwritten, if_neg goes, writeable, if_neg goes]
      exact ih _

/-- The commands in flight, and whether records of an ended epoch are awaited. -/
def Dev.waitingPath (d : Dev) : List Flight × Bool := (d.ctl.flights, d.ctl.behind)

theorem waitingPath_of_quiet {a b : Dev} (h : b.quiet = a.quiet) : b.waitingPath = a.waitingPath :=
  of_quiet Dev.waitingPath (fun _ => rfl) h

theorem ringCpl_waitingPath (d : Dev) (c : Cpl) : (d.ringCpl c).waitingPath = d.waitingPath := by
  rw [Dev.ringCpl, waitingPath_of_quiet (signal_quiet _ _)]
  exact (waitingPath_of_quiet (ownSeq_quiet d (if c.fwd then c else d.stampCpl c).fwd) :)

theorem commitCpl_waitingPath (d : Dev) (o : Origin) (c : Cpl) : (d.commitCpl o c).waitingPath = d.waitingPath := by
  unfold Dev.commitCpl
  cases o with
  | ring =>
    dsimp only
    split_ifs
    exacts [ringCpl_waitingPath d c, rfl, rfl]
  | tree => exact (waitingPath_of_quiet (takeSeq_quiet d) :)
  | recovery => exact (waitingPath_of_quiet (takeSeq_quiet d) :)

/-- A commit takes the commands whose completions may be written out of flight, and leaves the others. -/
theorem commit_waitingPath (d : Dev) : d.commit.waitingPath =
    (unwritten d.settleEpoch.mayWrite [] d.ctl.flights, d.settleEpoch.ctl.behind) := by
  unfold Dev.commit
  dsimp only
  refine (waitingPath_of_quiet (leaving_quiet _ _ _)).trans ((foldl_leaves Dev.waitingPath (fun d f => ?_) _ _).trans
    ((foldl_leaves Dev.waitingPath (fun d (c : Origin × Cpl) => commitCpl_waitingPath d c.1 c.2) _ _).trans
      (foldl_leaves Dev.waitingPath (fun d e => waitingPath_of_quiet (commitEvt_quiet d e)) _ _)))
  split
  · exact commitCpl_waitingPath d _ _
  · rfl

/-- What may be written depends on the timeline, and on whether records of an ended epoch are awaited. -/
theorem mayWrite_congr {a b : Dev} (epoch : a.tl.epoch = b.tl.epoch) (rewind : a.tl.rewind = b.tl.rewind)
    (behind : a.ctl.behind = b.ctl.behind) : a.mayWrite = b.mayWrite := by
  funext c
  simp only [Dev.mayWrite, Timeline.nextEpoch, Dev.inTurn, Dev.oldCpl, epoch, rewind, behind]

/-! ### The invariant between two commands -/

/-- After a commit nothing is left uncommitted, and no completion that may be written is kept back. -/
theorem inv_of_commit (s : State) (d : Dev) (range : s.fuses.rollback ≤ 64) : State.Inv { s with dev := d.commit } := by
  obtain ⟨flights, behind⟩ := Prod.mk.inj (commit_waitingPath d)
  have may : d.commit.mayWrite = d.settleEpoch.mayWrite := mayWrite_congr (by simp [Dev.settleEpoch]) (by simp [Dev.settleEpoch]) behind
  have outbox := commit_outbox d
  generalize d.commit = e at *
  refine ⟨outbox, ?_, range⟩
  rw [may, flights]
  exact writeable_unwritten _ _ _

/-- A command that is neither a power-on reset nor BOOT.ROLLBACK commits what it forms, and blows no fuse. -/
theorem exec_commits (c : Instr) (s : State) (hp : ∀ x, c ≠ .powerOnReset x) (hr : ∀ h v, c ≠ .bootRollback h v) :
    ∃ (x : Straps) (d : Dev), exec c s = .next { s with straps := x, dev := d.commit } := by
  cases c with
  | powerOnReset x => exact absurd rfl (hp x)
  | bootRollback h v => exact absurd rfl (hr h v)
  | _ => exact ⟨_, _, rfl⟩

/-- BOOT.ROLLBACK commits what it forms, and raises the counter to at most 64 (R420). -/
theorem execBootRollback_commits (h : Hdr) (v : BitVec 8) {s : State} (range : s.fuses.rollback ≤ 64) :
    ∃ (d : Dev) (n : Nat), n ≤ 64 ∧
      execBootRollback h v s = .next { s with dev := d.commit, fuses := { s.fuses with rollback := n } } := by
  unfold execBootRollback
  cases s.dev.takeUp h 0x0F03 with
  | error d => exact ⟨_, _, range, rfl⟩
  | ok d =>
    by_cases newer : v.toNat > d.boot.svn
    · exact ⟨_, _, range, if_pos newer⟩
    · by_cases bad : v.toNat ≤ s.fuses.rollback ∨ v.toNat > 64
      · exact ⟨_, _, range, (if_neg newer).trans (if_pos bad)⟩
      · exact ⟨_, v.toNat, by omega, (if_neg newer).trans (if_neg bad)⟩

/-- Every command leaves the invariant behind. -/
theorem exec_keeps_inv {c : Instr} {s t : State} (range : s.fuses.rollback ≤ 64) (runs : exec c s = .next t) : t.Inv := by
  by_cases hp : ∃ x, c = .powerOnReset x
  · obtain ⟨x, rfl⟩ := hp
    cases runs
    exact ⟨rfl, rfl, range⟩
  by_cases hr : ∃ h v, c = .bootRollback h v
  · obtain ⟨h, v, rfl⟩ := hr
    obtain ⟨d, n, le, k⟩ := execBootRollback_commits h v range
    cases k.symm.trans runs
    exact inv_of_commit { s with fuses := { s.fuses with rollback := n } } d le
  push Not at hp hr
  obtain ⟨x, d, k⟩ := exec_commits c s hp hr
  cases k.symm.trans runs
  exact inv_of_commit { s with straps := x } d range

/-- An idle grain moves the present, of which the invariant does not speak. -/
theorem idle_keeps_inv {s : State} (inv : s.Inv) : (idle s).Inv := by
  obtain ⟨outbox, none_kept, range⟩ := inv
  refine ⟨(congrArg Ctl.outbox (Dev.advance_ctl _ _)).trans outbox, ?_, range⟩
  have may : (idle s).dev.mayWrite = s.dev.mayWrite := mayWrite_congr (by simp [idle]) (by simp [idle]) (by simp [idle])
  rw [may]
  exact (congrArg (fun c : Ctl => writeable s.dev.mayWrite [] c.flights) (Dev.advance_ctl _ _)).trans none_kept

end Sys2Proof.Machine

open Sys2Proof Sys2Proof.Machine

/-- Settles O3, by the outcome that every command has. -/
theorem execGoesOn : Obligations.ExecGoesOn := exec_goes_on

/-- Settles O4, by what the commit at the end of every command leaves. -/
theorem invariantKept : Obligations.InvariantKept := by
  unfold Obligations.InvariantKept
  intro s t inv runs
  cases front : s.pending with
  | nil =>
    rw [step, front] at runs
    cases runs
    exact idle_keeps_inv inv
  | cons c r =>
    rw [step, front] at runs
    exact exec_keeps_inv (s := { s with pending := r }) inv.2.2 runs

/-- Settles O5: the reset state has formed nothing, and has no command in flight. -/
theorem invariantAtReset : Obligations.InvariantAtReset := ⟨rfl, rfl, by decide⟩

/-- Settles O1, by the two cases of a step. -/
theorem stepRunsFront : Obligations.StepRunsFront := by
  unfold Obligations.StepRunsFront
  intro s c r front
  rw [step, front]

/-- Settles O2, by where the present stands after an advance. -/
theorem stepIdles : Obligations.StepIdles := by
  unfold Obligations.StepIdles
  intro s empty
  refine ⟨idle s, by rw [step, empty], ⟨rfl, rfl, rfl, advance_keeps [] s.dev _⟩, Dev.advance_ctl _ _,
    fun stopped => advance_now_of_stopped stopped _, fun running rewind => ?_⟩
  exact (advance_now running rewind _).trans (by simp [grainSteps])
end

section
/-!
PROOFS. What the statements share: an event of the device, the frame of one part, and the path of completions through a commit, for
commands that have just been taken up and for commands that have been accepted before.
-/
namespace Sys2Proof.Machine

/-! ### Events of the device -/

/-- An event of the device, by what its meaning leaves of the device. -/
theorem onDev_runs {s : State} {f : Dev → Dev} {d : Dev} (meaning : f s.dev = d) : onDev s f = .next { s with dev := d.commit } := by
  rw [onDev, meaning]

/-- Where no rewind is pending, what falls due happens at its stamp. -/
theorem due_of_no_rewind {d : Dev} (rewind : d.tl.rewind = none) (n : Nat) (f : Dev → Dev) : d.due n f = f (d.advance n) := by
  simp [Dev.due, rewind]

/-- Devices that differ in one part. -/
theorem sameBut_single {p : Part} {a b : Dev} (h : ∀ q, q ≠ p → q.same a b) : SameBut [p] a b :=
  fun q hq => h q fun e => hq (List.mem_singleton.mpr e)

theorem setTl_keeps (d : Dev) (t : Timeline) : SameBut [.tl] d { d with tl := t } :=
  sameBut_single fun p hp => by cases p <;> first | exact absurd rfl hp | rfl

/-- The stamp at which an event happens lies on the timeline that its device has moved to. -/
theorem advance_keeps_trans {l : List Part} {d e : Dev} (n : Nat) (k : SameBut l (d.advance n) e) : SameBut l d e :=
  (advance_keeps l d n).trans k

/-! ### The path of completions -/

/-- The Completion Ring, what is written in it, and what waits to be written. -/
def Dev.cplPath (d : Dev) : RingCfg × List Cpl × List Cpl × List Cpl × Bool × List (Origin × Cpl) :=
  (d.ctl.cpl, d.ctl.cplOut, d.ctl.heldCpl, d.ctl.heldCpl0, d.ctl.behind, d.ctl.outbox.interim)

/-- The Completion Ring has room, and nothing waits to be written before what comes now (R43, R347). -/
structure PathOpen (d : Dev) : Prop where
  room : d.ctl.cpl.room = true
  held : d.ctl.heldCpl = []
  held0 : d.ctl.heldCpl0 = []
  behind : d.ctl.behind = false
  interim : d.ctl.outbox.interim = []

theorem Idle.pathOpen {s : State} {h : Hdr} (i : Idle s h) : PathOpen s.dev :=
  ⟨i.room, i.held, i.held0, i.behind, by rw [i.outbox]⟩

theorem Open.pathOpen {s : State} {f : Flight} (o : Open s f) : PathOpen s.dev :=
  ⟨o.room, o.held, o.held0, o.behind, by rw [o.outbox]⟩

theorem PathOpen.congr {d e : Dev} (p : PathOpen d) (same : e.cplPath = d.cplPath) : PathOpen e := by
  simp only [Dev.cplPath, Prod.mk.injEq] at same
  obtain ⟨cpl, -, held, held0, behind, interim⟩ := same
  exact ⟨by rw [cpl, p.room], by rw [held, p.held], by rw [held0, p.held0], by rw [behind, p.behind], by rw [interim, p.interim]⟩

@[simp] theorem advance_cplPath (d : Dev) (n : Nat) : (d.advance n).cplPath = d.cplPath := by simp [Dev.cplPath]
@[simp] theorem accept_cplPath (d : Dev) (g : Tag) : (d.accept g).cplPath = d.cplPath := rfl
@[simp] theorem openJob_cplPath (d : Dev) (j : Job) : (d.openJob j).cplPath = d.cplPath := rfl
@[simp] theorem dropJob_cplPath (d : Dev) (g : Tag) : (d.dropJob g).cplPath = d.cplPath := rfl
@[simp] theorem modJob_cplPath (d : Dev) (g : Tag) (f : Job → Job) : (d.modJob g f).cplPath = d.cplPath := rfl
@[simp] theorem linkOut_cplPath (d : Dev) (m : LinkMsg) : (d.linkOut m).cplPath = d.cplPath := rfl
@[simp] theorem packet_cplPath (d : Dev) (p : Packet) : (d.packet p).cplPath = d.cplPath := rfl
@[simp] theorem pushLog_cplPath (d : Dev) (i : LogItem) : (d.pushLog i).cplPath = d.cplPath := rfl
@[simp] theorem hostWrite_cplPath (d : Dev) (a : Nat) (b : Bytes) : (d.hostWrite a b).cplPath = d.cplPath := rfl
@[simp] theorem postAt_cplPath (d : Dev) (a b : Nat) (x : List Int) (e : BitVec 16) (t : Nat) (q : BitVec 4) :
    (d.postAt a b x e t q).cplPath = d.cplPath := by unfold Dev.postAt; split <;> rfl
@[simp] theorem post_cplPath (d : Dev) (a b : Nat) (x : List Int) : (d.post a b x).cplPath = d.cplPath := postAt_cplPath ..

@[simp] theorem postAt_flights (d : Dev) (a b : Nat) (x : List Int) (e : BitVec 16) (t : Nat) (q : BitVec 4) :
    (d.postAt a b x e t q).ctl.flights = d.ctl.flights := by unfold Dev.postAt; split <;> rfl
@[simp] theorem post_flights (d : Dev) (a b : Nat) (x : List Int) : (d.post a b x).ctl.flights = d.ctl.flights := postAt_flights ..
@[simp] theorem postAt_jobs (d : Dev) (a b : Nat) (x : List Int) (e : BitVec 16) (t : Nat) (q : BitVec 4) :
    (d.postAt a b x e t q).ctl.jobs = d.ctl.jobs := by unfold Dev.postAt; split <;> rfl
@[simp] theorem post_jobs (d : Dev) (a b : Nat) (x : List Int) : (d.post a b x).ctl.jobs = d.ctl.jobs := postAt_jobs ..

/-- A completion whose flight waits for nothing more is written as the commit's stamp leaves it. -/
theorem commit_writes {d : Dev} (p : PathOpen d) {f : Flight} {c : Cpl} (flights : d.ctl.flights = [f]) (done : f.done = some c)
    (origin : f.origin = .ring) (epoch : c.own = false ∨ d.tl.rewind = none ∨ c.epoch = d.tl.epoch) (fwd : c.fwd = false) :
    ∃ (b : Dev) (x : Cpl), d.commit.ctl.cplOut = d.ctl.cplOut ++ [x] ∧ d.commit.ctl.flights = [] ∧ b.tl = d.tl ∧
      Cpl.gist x = Cpl.gist (b.stampCpl c) := by
  have behind : d.settleEpoch.ctl.behind = false := by simp [Dev.settleEpoch, p.behind]
  have present : c.own = false ∨ d.tl.nextEpoch ≠ some c.epoch := by
    refine epoch.imp_right fun e => ?_
    rcases e with e | e
    · simp [Timeline.nextEpoch, e]
    · rw [e, Timeline.nextEpoch]
      cases d.tl.rewind <;> simp
  have settled : f.settled d.settleEpoch.mayWrite = true := by
    have may : d.settleEpoch.mayWrite c = true := by
      simp only [Dev.mayWrite, Dev.inTurn, behind]
      simpa [Dev.settleEpoch] using present
    simp [Flight.settled, done, may]
  have written : writeable d.settleEpoch.mayWrite [] d.settleEpoch.ctl.flights = [f] := by
    simpa [Dev.settleEpoch, flights, writeable] using settled
  have interim : d.settleEpoch.ctl.outbox.interim = [] := p.interim
  have gone : d.commit.ctl.flights = [] := by
    have path := congrArg Prod.fst (commit_waitingPath d)
    simpa [Dev.waitingPath, flights, unwritten] using path.trans (by simp [flights, unwritten, settled])
  suffices h : ∃ (b : Dev) (x : Cpl), d.commit.ctl.cplOut = d.ctl.cplOut ++ [x] ∧ b.tl = d.tl ∧
      Cpl.gist x = Cpl.gist (b.stampCpl c) by
    obtain ⟨b, x, out, tl, gist⟩ := h
    exact ⟨b, x, out, gone, tl, gist⟩
  unfold Dev.commit
  simp only [written, interim, List.foldl_nil, List.foldl_cons, done, origin]
  have events := foldl_leaves Dev.quiet commitEvt_quiet d.settleEpoch.ctl.outbox.events
    { d.settleEpoch with ctl := { d.settleEpoch.ctl with
      outbox := {}, upCpl := [], upEvt := [], sent := [], written := d.settleEpoch.ctl.outbox.written
      flights := unwritten d.settleEpoch.mayWrite [] d.settleEpoch.ctl.flights } }
  have left := fun {γ : Type} (v : Dev → γ) (r : ∀ d : Dev, v d.quiet = v d) => of_quiet v r events
  have room := (left (·.ctl.cpl.room) fun _ => rfl).trans p.room
  have held := (left (·.ctl.heldCpl) fun _ => rfl).trans p.held
  have held0 := (left (·.ctl.heldCpl0) fun _ => rfl).trans p.held0
  have turn := (left (·.ctl.behind) fun _ => rfl).trans behind
  have ring := fun x : Cpl => (left (·.ctl.cplOut ++ [x]) fun _ => rfl)
  have tl := left (·.tl) fun _ => rfl
  generalize List.foldl Dev.commitEvt _ _ = e at room held held0 turn ring tl ⊢
  have direct : e.commitCpl .ring c = e.ringCpl c := if_pos ⟨room, by simp [Dev.inTurn, turn], held, held0⟩
  refine ⟨e, { e.stampCpl c with phase := e.ctl.cpl.phase }, ?_, tl, rfl⟩
  refine (of_quiet (·.ctl.cplOut) (fun _ => rfl) (leaving_quiet _ _ _)).trans ?_
  rw [direct, Dev.ringCpl, show ∀ (a : Dev) v, (a.signal v).ctl.cplOut = a.ctl.cplOut from
    fun a v => of_quiet (·.ctl.cplOut) (fun _ => rfl) (signal_quiet a v)]
  simp only [fwd, Bool.false_eq_true, if_false, stampCpl_fwd]
  refine Eq.trans ?_ (ring _)
  exact congrArg (· ++ [_]) (of_quiet (·.ctl.cplOut) (fun _ => rfl) (takeSeq_quiet e))

/-- The fields of a written completion are those with which it was formed; TL.NOW alone forms its response as it is written. -/
theorem gist_stampCpl (d : Dev) (c : Cpl) (n : c.opcode ≠ 0x0100 ∨ c.resp = []) : Cpl.gist (d.stampCpl c) = Cpl.gist c := by
  obtain ⟨h1, h2, h3, h4, h5, h6⟩ := stampCpl_fields d c n
  simp only [Cpl.gist, h1, h2, h3, h4, h5, h6]

/-! ### A command that has ended -/

/-- The final completion of a command in flight, as it stands in its flight. -/
theorem finish_ctl {d : Dev} {g : Tag} {f : Flight} (flights : d.ctl.flights = [f]) (tag : f.tag = g) (group : f.group = false)
    (done : f.done = none) (c : Cpl) : ∃ x, (d.finish g c).ctl = { d.ctl with flights := [{ f with done := some x }] } ∧
      Cpl.gist x = (g, f.stream, f.opcode, c.status, c.fin, c.resp) ∧ x.own = c.own ∧ x.epoch = c.epoch ∧ x.fwd = c.fwd := by
  have found : d.flight g = some f := by simp [Dev.flight, flights, tag, done]
  refine ⟨{ c with
    tag := g, stream := f.stream, opcode := f.opcode, position := d.tree.position, respBytes := respLen f.opcode c.resp
    trunc := (f.respLen.map fun l => decide (respLen f.opcode c.resp > l)).getD false }, ?_, rfl, rfl, rfl, rfl⟩
  simp [Dev.finish, found, group, flights, modFlight, tag, done]

@[simp] theorem finish_cplPath (d : Dev) (g : Tag) (c : Cpl) (single : ∀ f, d.flight g = some f → f.group = false) :
    (d.finish g c).cplPath = d.cplPath := by
  unfold Dev.finish
  cases found : d.flight g with
  | none => rfl
  | some f => simp only [single f found, Bool.false_eq_true, if_false]; rfl

/-- The one command in flight has ended, with a completion of these fields that no pending rewind keeps back. -/
def Dev.ended (d : Dev) (g : Tag × BitVec 5 × BitVec 16 × BitVec 4 × Bool × List Int) : Prop :=
  ∃ f c, d.ctl.flights = [f] ∧ f.done = some c ∧ f.origin = .ring ∧
    (c.own = false ∨ d.tl.rewind = none ∨ c.epoch = d.tl.epoch) ∧ c.fwd = false ∧ Cpl.gist c = g

theorem Dev.ended.congr {d e : Dev} {g : Tag × BitVec 5 × BitVec 16 × BitVec 4 × Bool × List Int} (x : d.ended g)
    (flights : e.ctl.flights = d.ctl.flights) (rewind : e.tl.rewind = d.tl.rewind) (epoch : e.tl.epoch = d.tl.epoch) :
    e.ended g := by
  obtain ⟨f, c, h1, h2, h3, h4, h5, h6⟩ := x
  exact ⟨f, c, flights.trans h1, h2, h3, by rw [rewind, epoch]; exact h4, h5, h6⟩

/-- The commit writes the completion of a command that has ended. -/
theorem ended_commit {d : Dev} (p : PathOpen d) {g : Tag} {st : BitVec 5} {op : BitVec 16} {status : BitVec 4} {r : List Int}
    (x : d.ended (g, st, op, status, true, r)) (n : op ≠ 0x0100 ∨ r = []) :
    ∃ c : Cpl, d.commit.ctl.cplOut = d.ctl.cplOut ++ [c] ∧ d.commit.ctl.flights = [] ∧ c.tag = g ∧ c.stream = st ∧
      c.opcode = op ∧ c.status = status ∧ c.fin = true ∧ c.resp = r := by
  obtain ⟨f, c, flights, done, origin, epoch, fwd, gist⟩ := x
  obtain ⟨b, y, out, gone, -, same⟩ := commit_writes p flights done origin epoch fwd
  have fields := gist
  simp only [Cpl.gist, Prod.mk.injEq] at fields
  obtain ⟨-, -, opcode, -, -, resp⟩ := fields
  rw [gist_stampCpl b c (by rw [opcode, resp]; exact n), gist] at same
  simp only [Cpl.gist, Prod.mk.injEq] at same
  exact ⟨y, out, gone, same⟩

/-- A command on an idle device that has ended is answered. -/
theorem Dev.ended.answers {s : State} {h : Hdr} (i : Idle s h) {op : BitVec 16} {d : Dev} {status : BitVec 4} {r : List Int}
    (x : d.ended (h.tag, h.stream, op, status, true, r)) (path : d.cplPath = s.dev.cplPath) (n : op ≠ 0x0100 ∨ r = []) :
    Answers s { s with dev := d.commit } h op status r := by
  obtain ⟨c, out, -, fields⟩ := ended_commit (i.pathOpen.congr path) x n
  exact ⟨c, out.trans (congrArg (· ++ [c]) (congrArg (·.2.1) path)), fields⟩

/-- A command that waited and has ended. -/
theorem Dev.ended.ends {s : State} {f : Flight} (o : Open s f) {d : Dev} {status : BitVec 4} {r : List Int}
    (x : d.ended (f.tag, f.stream, f.opcode, status, true, r)) (path : d.cplPath = s.dev.cplPath)
    (n : f.opcode ≠ 0x0100 ∨ r = []) : Ends s { s with dev := d.commit } f status r := by
  obtain ⟨c, out, gone, fields⟩ := ended_commit (o.pathOpen.congr path) x n
  exact ⟨c, out.trans (congrArg (· ++ [c]) (congrArg (·.2.1) path)), gone, fields⟩

/-- A command in flight that its meaning finishes. -/
theorem finish_ended {d : Dev} {g : Tag} {f : Flight} (flights : d.ctl.flights = [f]) (tag : f.tag = g) (group : f.group = false)
    (done : f.done = none) (origin : f.origin = .ring) (c : Cpl)
    (epoch : c.own = false ∨ d.tl.rewind = none ∨ c.epoch = d.tl.epoch) (fwd : c.fwd = false) (fin : c.fin = true) :
    (d.finish g c).ended (g, f.stream, f.opcode, c.status, true, c.resp) := by
  obtain ⟨x, ctl, gist, own, named, forward⟩ := finish_ctl flights tag group done c
  exact ⟨{ f with done := some x }, x, congrArg Ctl.flights ctl, rfl, origin, by simpa [own, named] using epoch, forward.trans fwd, by rw [gist, fin]⟩

theorem finish_cplPath_of {d : Dev} {g : Tag} {f : Flight} (flights : d.ctl.flights = [f]) (group : f.group = false) (c : Cpl) :
    (d.finish g c).cplPath = d.cplPath :=
  finish_cplPath d g c fun x found => by
    have mem := List.mem_of_find?_eq_some found
    rw [flights, List.mem_singleton] at mem
    rw [mem, group]

/-! ### A command just taken up -/

theorem takenUp_flights {s : State} {h : Hdr} (i : Idle s h) (op : BitVec 16) :
    (s.dev.takenUp h op).ctl.flights = [newFlight h op] := by rw [takenUp_ctl i op]

theorem takenUp_jobs {s : State} {h : Hdr} (i : Idle s h) (op : BitVec 16) : (s.dev.takenUp h op).ctl.jobs = [] := by
  rw [takenUp_ctl i op]; exact i.jobs

theorem takenUp_cplPath {s : State} {h : Hdr} (i : Idle s h) (op : BitVec 16) : (s.dev.takenUp h op).cplPath = s.dev.cplPath := by
  simp only [Dev.cplPath, takenUp_ctl i op]

theorem accept_flights_newFlight {d : Dev} {h : Hdr} {op : BitVec 16} (flights : d.ctl.flights = [newFlight h op]) :
    (d.accept h.tag).ctl.flights = [{ newFlight h op with accepted := true }] := by
  simp [Dev.accept, flights, modFlight, newFlight]

/-- A command that has been accepted and waits. -/
theorem waits_of_flights {s : State} {h : Hdr} (i : Idle s h) {op : BitVec 16} {d : Dev} (path : d.cplPath = s.dev.cplPath)
    (flights : d.ctl.flights = [{ newFlight h op with accepted := true }]) : Waits s { s with dev := d.commit } h op := by
  obtain ⟨out, stays⟩ := commit_waits d _ flights rfl (i.pathOpen.congr path).interim
  exact ⟨out.trans (congrArg (·.2.1) path), _, stays, rfl, rfl, rfl, rfl⟩

/-- A command on an idle device that ends once more has happened to the device that took it up. -/
theorem finish_ended_newFlight {d : Dev} {h : Hdr} {op : BitVec 16} {a : Bool}
    (flights : d.ctl.flights = [{ newFlight h op with accepted := a }]) (c : Cpl)
    (epoch : c.own = false ∨ d.tl.rewind = none ∨ c.epoch = d.tl.epoch) (fwd : c.fwd = false) (fin : c.fin = true) :
    (d.finish h.tag c).ended (h.tag, h.stream, op, c.status, true, c.resp) :=
  finish_ended flights rfl rfl rfl rfl c epoch fwd fin

end Sys2Proof.Machine
end

section
/-!
PROOFS. The commands of the timeline (R46, R49, R54, R55; log entry 116): TL.NOW, TL.STATUS, TL.MARK and TL.CANCEL.
-/
namespace Sys2Proof.Machine

/-! ### TL.NOW and TL.STATUS -/

/-- TL.NOW answers the present of its completion. -/
theorem tlNow_answers {s : State} {h : Hdr} (i : Idle s h) (rewind : s.dev.tl.rewind = none) :
    ∃ t, exec (.tlNow h) s = .next t ∧ Keeps [] s t ∧ t.dev.tl.epoch = s.dev.tl.epoch ∧
      Answers s t h 0x0100 stOk [(t.dev.tl.epoch.toNat : Int), (t.dev.tl.now : Int), (t.dev.tl.tq.toNat : Int)] := by
  generalize hd : (s.dev.takenUp h 0x0100).okResp h.tag (s.dev.takenUp h 0x0100).tl.answer = d
  have flights := accept_flights_newFlight (takenUp_flights i 0x0100)
  have tl : d.tl = (s.dev.takenUp h 0x0100).tl := by rw [← hd]; simp
  obtain ⟨f, c, ended, done, origin, epoch, fwd, gist⟩ := finish_ended_newFlight flights
    { resp := (s.dev.takenUp h 0x0100).tl.answer } (.inl rfl) rfl rfl
  have path : d.cplPath = s.dev.cplPath := by
    rw [← hd, Dev.okResp, finish_cplPath_of flights rfl, accept_cplPath, takenUp_cplPath i]
  obtain ⟨b, x, out, -, same, written⟩ := commit_writes (d := d) (i.pathOpen.congr path) (hd ▸ ended) done origin
    (.inr (.inl (by rw [tl, takenUp_tl, Dev.advance_tl_rewind, rewind]))) fwd
  simp only [Cpl.gist, Prod.mk.injEq] at gist written
  obtain ⟨tag, stream, opcode, status, fin, resp⟩ := gist
  have answer : Cpl.gist (b.stampCpl c) = (c.tag, c.stream, c.opcode, c.status, c.fin, b.tl.answer) := by
    have formed : c.opcode = 0x0100 ∧ c.resp ≠ [] := ⟨opcode, by rw [resp]; simp [Timeline.answer]⟩
    unfold Dev.stampCpl Cpl.gist
    cases c.own <;> simp [formed]
  simp only [Cpl.gist, Prod.mk.injEq] at answer
  obtain ⟨a1, a2, a3, a4, a5, a6⟩ := answer
  obtain ⟨w1, w2, w3, w4, w5, w6⟩ := written
  refine ⟨_, hostCmd_runs i 0x0100 hd, keeps_of_takenUp (by decide) (hd ▸ okResp_keeps _ _ _ _), ?_, x,
    out.trans (congrArg (· ++ [x]) (congrArg (·.2.1) path)), ?_⟩
  · rw [commit_tl, tl, takenUp_tl, Dev.advance_tl_epoch]
  · rw [w1, w2, w3, w4, w5, w6, a1, a2, a3, a4, a5, a6, tag, stream, opcode, status, fin, same, commit_tl]
    exact ⟨rfl, rfl, rfl, rfl, rfl, rfl⟩

theorem param_epoch (d : Dev) (straps : Straps) (fuses : Fuses) : d.param straps fuses 0x0100 = d.tl.epoch.toNat := by
  change d.tl.epoch.toNat % 2 ^ 32 = _
  omega

/-- TL.STATUS answers the parameters of group 0x01, the epoch first. -/
theorem tlStatus_answers {s : State} {h : Hdr} (i : Idle s h) :
    ∃ t r, exec (.tlStatus h) s = .next t ∧ Keeps [] s t ∧ Answers s t h 0x0102 stOk r ∧ r.length = 8 ∧
      r.head? = some (s.dev.tl.epoch.toNat : Int) := by
  refine ⟨_, _, hostCmd_idle i 0x0102 _, keeps_of_takenUp (by decide) (okResp_keeps _ _ _ _),
    answers_okResp i 0x0102 _ _ rfl (.inl (by decide)), by simp, ?_⟩
  simp [List.range_succ, param_epoch, takenUp_tl]

/-! ### TL.MARK -/

/-- A mark that can be placed is scheduled. -/
theorem tlMark_schedules {s : State} {h : Hdr} (i : Idle s h) (rewind : s.dev.tl.rewind = none) {w : When} (user : BitVec 32)
    {e : BitVec 16} {st : Nat} {late : Bool} (place : (s.dev.advance h.t).schedule w 1024 false = .ok (e, st, late)) :
    ∃ t, exec (.tlMark h w user) s = .next t ∧ Keeps [.tl] s t ∧ Answers s t h 0x0103 stOk [] ∧
      t.dev.tl.acts = s.dev.tl.acts ++ [{ tag := h.tag, kind := .mark, epoch := e, stamp := st, user := user.toNat }] := by
  have placed := (schedule_of_tl (takenUp_tl s.dev h 0x0103) w 1024 false).trans place
  generalize hc : ((s.dev.takenUp h 0x0103).accept h.tag).addAct
    { tag := h.tag, kind := .mark, epoch := e, stamp := st, user := user.toNat } = c
  have flights : c.ctl.flights = [{ newFlight h 0x0103 with accepted := true }] := by
    rw [← hc, Dev.addAct_ctl]
    exact accept_flights_newFlight (takenUp_flights i 0x0103)
  have path : c.cplPath = s.dev.cplPath := by rw [← hc]; exact takenUp_cplPath i 0x0103
  have frame : SameBut [.tl] (s.dev.takenUp h 0x0103) c := hc ▸ (accept_keeps _ _ _).trans (addAct_keeps _ _)
  have steady : c.tl.rewind = none := by
    rw [← hc, addAct_rewind, Dev.accept_tl, takenUp_tl, Dev.advance_tl_rewind, rewind]
  refine ⟨_, hostCmd_runs i 0x0103 (d := c.finish h.tag (stamped { late := late } c.tl.tq e st)) ?_,
    keeps_of_takenUp (by decide) (frame.trans (finish_keeps _ _ _ _)),
    (finish_ended_newFlight flights _ (.inr (.inl steady)) rfl rfl).answers i
      ((finish_cplPath_of flights rfl _).trans path) (.inl (by decide)), ?_⟩
  · simp only [grainSteps, placed, hc]
  · rw [commit_tl, Dev.finish_tl, ← hc, addAct_acts, Dev.accept_tl, takenUp_acts]

/-! ### TL.CANCEL -/

theorem diff_self_append {α : Type} [DecidableEq α] (l m : List α) : l.diff (l ++ m) = [] := by
  have self : l.diff l = [] := by
    induction l with
    | nil => rfl
    | cons a l ih => rw [List.diff_cons, List.erase_cons_head, ih]
  rw [List.diff_append, self, List.nil_diff]

/-- What TL.CANCEL can name: an action under the tag which no later command's tag has orphaned. -/
def Dev.cancellable (d : Dev) (target : BitVec 16) : List Act :=
  (d.tl.acts.filter fun a => a.tag.toNat == target.toNat).diff d.ctl.orphans

theorem takenUp_cancellable {s : State} {h : Hdr} (i : Idle s h) (target : BitVec 16) :
    (s.dev.takenUp h 0x0104).cancellable target = (s.dev.tl.acts.filter fun a => a.tag.toNat == target.toNat).diff
      (s.dev.tl.acts.filter (·.tag == h.tag) ++ s.dev.ctl.orphans.filter (·.tag != h.tag)) := by
  rw [Dev.cancellable, takenUp_acts, takenUp_ctl i]
  simp only [Dev.orphaned, Dev.advance_tl_acts, Dev.advance_ctl]

/-- A tag that names no action is turned away. -/
theorem tlCancel_refuses {s : State} {h : Hdr} (i : Idle s h) {target : BitVec 16}
    (none_named : h.tag.toNat = target.toNat ∨ ∀ a ∈ s.dev.tl.acts, a.tag.toNat ≠ target.toNat) :
    ∃ t, exec (.tlCancel h target) s = .next t ∧ Keeps [] s t ∧ Answers s t h 0x0104 stBadarg [] := by
  have empty : (s.dev.takenUp h 0x0104).cancellable target = [] := by
    rw [takenUp_cancellable i]
    rcases none_named with own | absent
    · have same : (fun a : Act => a.tag.toNat == target.toNat) = fun a => a.tag == h.tag := by
        funext a
        rw [← own]
        exact Bool.eq_iff_iff.mpr (by simp [BitVec.toNat_inj])
      rw [same]
      exact diff_self_append _ _
    · rw [List.filter_eq_nil_iff.mpr (by simpa using absent), List.nil_diff]
  refine ⟨_, hostCmd_runs i 0x0104 ?_, refused_ends i 0x0104 (by decide) stBadarg 0 0 0⟩
  rw [Dev.cancellable] at empty
  simp only [empty, List.getLast?_nil]

/-- A mark that nothing waits for goes without a trace. -/
theorem removeAct_mark (d : Dev) {a : Act} (mark : a.kind = .mark) :
    d.removeAct a = { d with tl := { d.tl with acts := d.tl.acts.erase a } } := by
  simp [Dev.removeAct, Dev.unplan, Dev.actWaits, mark]

/-- The only action pending is a mark that lies ahead: it is removed. -/
theorem tlCancel_removes {s : State} {h : Hdr} (i : Idle s h) (rewind : s.dev.tl.rewind = none) {target : BitVec 16} {a : Act}
    (only : s.dev.tl.acts = [a]) (named : a ∉ s.dev.ctl.orphans) (tag : a.tag.toNat = target.toNat) (other : a.tag ≠ h.tag)
    (mark : a.kind = .mark) (ahead : max s.dev.tl.now h.t < a.stamp) :
    ∃ t, exec (.tlCancel h target) s = .next t ∧ Keeps [.tl] s t ∧ Answers s t h 0x0104 stOk [] ∧ t.dev.tl.acts = [] := by
  have found : (s.dev.takenUp h 0x0104).cancellable target = [a] := by
    rw [takenUp_cancellable i, only]
    have stays : a ∉ s.dev.ctl.orphans.filter (·.tag != h.tag) := fun mem => named (List.mem_filter.mp mem).1
    simp [tag, other, List.cons_diff_of_not_mem stays]
  have acts : (s.dev.takenUp h 0x0104).tl.acts = [a] := by rw [takenUp_acts, only]
  have pending : ¬ (a.epoch = (s.dev.takenUp h 0x0104).tl.epoch ∧ a.stamp ≤ (s.dev.takenUp h 0x0104).tl.now) := by
    rintro ⟨-, passed⟩
    rw [takenUp_tl] at passed
    by_cases running : s.dev.tl.running = true
    · rw [advance_now running rewind] at passed
      omega
    · rw [advance_now_of_stopped (by simpa using running)] at passed
      omega
  generalize hd : ({ s.dev.takenUp h 0x0104 with tl := { (s.dev.takenUp h 0x0104).tl with acts := [] } } : Dev) = d
  obtain ⟨frame, answer⟩ := ok_ends (d := d) i 0x0104 (by decide) (hd ▸ rfl) (hd ▸ setTl_keeps _ _)
  refine ⟨_, hostCmd_runs i 0x0104 ?_, frame, answer, by rw [commit_tl, Dev.ok_tl, ← hd]⟩
  rw [Dev.cancellable] at found
  simp only [found, List.getLast?_singleton, if_neg pending]
  rw [removeAct_mark _ mark, acts, List.erase_cons_head, hd]

end Sys2Proof.Machine

open Sys2Proof Sys2Proof.Machine

/-- Settles O7, by what each command answers and what it leaves of the scheduled actions. -/
theorem timelineCommands : Obligations.TimelineCommands := by
  unfold Obligations.TimelineCommands
  exact fun s h i rewind => ⟨tlNow_answers i rewind, tlStatus_answers i,
    fun w user e st late place => tlMark_schedules i rewind user place, fun target none_named => tlCancel_refuses i none_named,
    fun target a only named tag other mark _ ahead => tlCancel_removes i rewind only named tag other mark ahead⟩
end

section
/-!
PROOFS. Epochs and rewinds (R40, R44, R45, R54). What ends with an epoch, the records of the rings and the measurements of the TDCs,
touches the banks, the DSP lanes, the scheduled actions and the way of the records: the rest of the device stands apart.
-/
namespace Sys2Proof.Machine

/-! ### What the end of records and measurements leaves alone -/

/-- The device but for its banks, its DSP lanes, the scheduled actions and the way of its records. -/
def Dev.apart (d : Dev) : Dev :=
  { d with tl := { d.tl with acts := [] }, banks := .empty, dsp := {}, ctl := d.ctl.setting }

/-- What can be read of that part is the same on devices that agree on it. -/
theorem of_apart {γ : Type} (v : Dev → γ) (r : ∀ d : Dev, v d.apart = v d) {a b : Dev} (h : b.apart = a.apart) : v b = v a :=
  (r b).symm.trans ((congrArg v h).trans (r a))

@[simp] theorem modBank_apart (d : Dev) (b : Nat) (f : Bank → Bank) : (d.modBank b f).apart = d.apart := rfl
@[simp] theorem modRing_apart (d : Dev) (b r : Nat) (f : Ring → Ring) : (d.modRing b r f).apart = d.apart := rfl
@[simp] theorem modTdc_apart (d : Dev) (b k : Nat) (f : Tdc → Tdc) : (d.modTdc b k f).apart = d.apart := rfl
@[simp] theorem modLane_apart (d : Dev) (b : Nat) (f : Lane → Lane) : (d.modLane b f).apart = d.apart := rfl
@[simp] theorem setDsp_apart (d : Dev) (x : Dsp) : ({ d with dsp := x } : Dev).apart = d.apart := rfl
@[simp] theorem dropActs_apart (d : Dev) (g : Tag) : (d.dropActs g).apart = d.apart := rfl
@[simp] theorem packet_apart (d : Dev) (p : Packet) : (d.packet p).apart = d.apart := rfl
@[simp] theorem dropJob_apart (d : Dev) (g : Tag) : (d.dropJob g).apart = d.apart := rfl

@[simp] theorem finish_apart (d : Dev) (g : Tag) (c : Cpl) : (d.finish g c).apart = d.apart := by
  have setting : (d.finish g c).ctl.setting = d.ctl.setting := (finish_keeps [] d g c .ctl List.not_mem_nil :).symm
  obtain ⟨x, e⟩ := d.finish_eq g c
  rw [e] at setting ⊢
  exact congrArg (fun y : Ctl => { d with tl := { d.tl with acts := [] }, banks := .empty, dsp := {}, ctl := y }) setting

theorem packets_apart (d : Dev) (ps : List Packet) : (d.packets ps).apart = d.apart :=
  foldl_leaves Dev.apart packet_apart ps d

@[simp] theorem askRun_apart (d : Dev) (b r stamp : Nat) : (d.askRun b r stamp).apart = d.apart := by
  unfold Dev.askRun
  (repeat' split) <;> rfl

@[simp] theorem endRun_apart (d : Dev) (b : Nat) (halted cut : Bool) (st : BitVec 4) (stay : Bool) :
    (d.endRun b halted cut st stay).apart = d.apart := by
  unfold Dev.endRun
  cases (d.lane b).run with
  | none => rfl
  | some r =>
    dsimp only
    split_ifs <;> simp only [modLane_apart, finish_apart, dropActs_apart, foldl_leaves Dev.apart packet_apart, setDsp_apart]

@[simp] theorem interruptTap_apart (d : Dev) (b : Nat) (tdc : Bool) (src : Nat) : (d.interruptTap b tdc src).apart = d.apart := by
  unfold Dev.interruptTap
  (repeat' split) <;> simp

@[simp] theorem closeRec_apart (d : Dev) (b r ended : Nat) (f : Rec → Rec) : (d.closeRec b r ended f).apart = d.apart := by
  unfold Dev.closeRec
  dsimp only
  (repeat' split) <;> simp

@[simp] theorem interruptRec_apart (d : Dev) (b r t : Nat) : (d.interruptRec b r t).apart = d.apart := by simp [Dev.interruptRec]

theorem freeRingTdcs_apart (d : Dev) (b r : Nat) : (d.freeRingTdcs b r).apart = d.apart :=
  forEach_leaves Dev.apart (fun k d => by split <;> rfl) _ d

@[simp] theorem ringStop_apart (d : Dev) (b r : Nat) (st : BitVec 4) : (d.ringStop b r st).apart = d.apart := by
  unfold Dev.ringStop
  dsimp only
  split
  · simp [freeRingTdcs_apart]
  · rfl

@[simp] theorem commitHeader_apart (d : Dev) (b r : Nat) : (d.commitHeader b r).apart = d.apart := by
  unfold Dev.commitHeader
  dsimp only
  (repeat' split) <;> simp [packets_apart]

theorem abortRingsIf_apart (d : Dev) (p : Ring → Bool) : (d.abortRingsIf p).apart = d.apart :=
  forEach_leaves Dev.apart (fun k d => by dsimp only; (repeat' split) <;> simp) _ d

theorem releaseLines_apart (d : Dev) (b s : Nat) : (d.releaseLines b s).apart = d.apart :=
  forEach_leaves Dev.apart (fun k d => by split <;> rfl) _ d

@[simp] theorem freeTdc_apart (d : Dev) (b s : Nat) (c : Cpl) : (d.freeTdc b s c).apart = d.apart := by
  unfold Dev.freeTdc
  dsimp only
  split <;> simp [releaseLines_apart]

theorem rewindTdcs_apart (d : Dev) (z : Nat) : (d.rewindTdcs z).apart = d.apart :=
  forEach_leaves Dev.apart (fun k d => by dsimp only; (repeat' split) <;> simp) _ d

/-! ### The end of an epoch (R40, R44) -/

theorem closeLog_tl (d : Dev) (k : Nat) : (d.closeLog k).tl = d.tl := by
  unfold Dev.closeLog
  split <;> rfl

theorem closeAllLog_tl (d : Dev) (old : Bool) : (d.closeAllLog old).tl = d.tl := by
  unfold Dev.closeAllLog
  split
  · rfl
  · refine forEach_leaves Dev.tl (fun k d => ?_) _ d
    split
    · exact closeLog_tl d k
    · rfl

/-- The count starts anew in the next epoch, and no rewind is pending any more. -/
theorem rewindNow_tl (d : Dev) (z : Nat) :
    (d.rewindNow z).tl.epoch = d.tl.epoch + 1 ∧ (d.rewindNow z).tl.now = 0 ∧ (d.rewindNow z).tl.rewind = none := by
  have epoch : ((d.advance z).rewindRings.closeAllLog).tl.epoch = d.tl.epoch := by
    rw [closeAllLog_tl, Dev.rewindRings, of_apart (·.tl.epoch) (fun _ => rfl) (abortRingsIf_apart _ _), Dev.advance_tl_epoch]
  unfold Dev.rewindNow
  dsimp only
  generalize (d.advance z).rewindRings.closeAllLog = e at epoch ⊢
  have next : (e.shiftCount (-(e.tl.now : Int)) (e.tl.epoch + 1)).tl.epoch = e.tl.epoch + 1 := rfl
  rw [epoch] at next ⊢
  generalize e.shiftCount _ _ = x at next ⊢
  split <;> exact ⟨next, rfl, rfl⟩

theorem endRewind_tl (d : Dev) (z : Nat) : (d.endRewind z).tl.epoch = d.tl.epoch ∧ (d.endRewind z).tl.now = d.tl.now ∧
    (d.endRewind z).tl.rewind = d.tl.rewind := by
  unfold Dev.endRewind
  split <;> simp

/-- A rewind takes effect where no action is scheduled before it. -/
theorem rewindEffect_starts_epoch {s : State} {r : Nat} (pending : s.dev.tl.rewind = some r) (acts : s.dev.tl.acts = []) :
    ∃ t, exec .rewindEffect s = .next t ∧ t.dev.tl.epoch = s.dev.tl.epoch + 1 ∧ t.dev.tl.now = 0 ∧ t.dev.tl.rewind = none := by
  obtain ⟨epoch, now, rewind⟩ := rewindNow_tl s.dev r
  obtain ⟨e, n, w⟩ := endRewind_tl (s.dev.rewindNow r) r
  refine ⟨_, (onDev_runs (d := (s.dev.rewindNow r).endRewind r) ?_ : execRewindEffect s = _), ?_⟩
  · simp only [pending, acts, List.any_nil, Bool.false_eq_true, if_false]
  · simp only [commit_tl, e, n, w, epoch, now, rewind, and_self]

/-! ### The near end of the count (R45) -/

theorem leads_of_seq {a b : Dev} (h : a.seq = b.seq) (p : ThState → Bool) : a.leads p = b.leads p :=
  congrArg (fun q : Seq => Dev.leads { seq := q } p) h

/-- A forced rewind starts the next epoch at the next grain, and says so. -/
def Dev.restarted (d : Dev) : Dev :=
  let d : Dev := d.rewindNow ((d.tl.now / grainSteps + 1) * grainSteps)
  let d : Dev := d.pushLog (d.logItem 0x0C 0 [] [(d.tl.epoch.toNat : Int)])
  d.post 512 5 [(d.tl.epoch.toNat : Int)]

theorem restarted_tl (d : Dev) : d.restarted.tl.epoch = d.tl.epoch + 1 ∧ d.restarted.tl.now = 0 := by
  obtain ⟨next, zero, -⟩ := rewindNow_tl d ((d.tl.now / grainSteps + 1) * grainSteps)
  rw [Dev.restarted, Dev.post_tl, Dev.pushLog_tl]
  exact ⟨next, zero⟩

/-- What a forced rewind does at its stamp: actions, measurements and records end, and running sites hold. -/
def Dev.rewindForced (d : Dev) : Dev :=
  let d : Dev := ((d.removeActs fun _ => true).rewindTdcs 0).abortRings
  ((d.leads (·.running)).foldl Dev.rewindThread d).restarted

/-- Without scheduled actions and running sites, what ends belongs to TDCs and rings. -/
theorem rewindForced_tl {d : Dev} (acts : d.tl.acts = []) (rest : d.leads (·.running) = []) :
    d.rewindForced.tl.epoch = d.tl.epoch + 1 ∧ d.rewindForced.tl.now = 0 := by
  have none_left : d.removeActs (fun _ => true) = d := by simp [Dev.removeActs, acts]
  have apart : ((d.rewindTdcs 0).abortRings).apart = d.apart := (abortRingsIf_apart _ _).trans (rewindTdcs_apart _ _)
  have sites : ((d.rewindTdcs 0).abortRings).leads (·.running) = [] :=
    (leads_of_seq (of_apart (·.seq) (fun _ => rfl) apart) _).trans rest
  have epoch : ((d.rewindTdcs 0).abortRings).tl.epoch = d.tl.epoch := of_apart (·.tl.epoch) (fun _ => rfl) apart
  rw [Dev.rewindForced, none_left, sites, List.foldl_nil, ← epoch]
  exact restarted_tl _

theorem forcedRewind_starts_epoch {s : State} (running : s.dev.tl.running = true) (rewind : s.dev.tl.rewind = none)
    (source : s.dev.tl.source ≠ 2) (acts : s.dev.tl.acts = []) (rest : s.dev.leads (·.running) = []) :
    ∃ t, exec .forcedRewind s = .next t ∧ t.dev.tl.epoch = s.dev.tl.epoch + 1 ∧ t.dev.tl.now = 0 := by
  have runs : execForcedRewind s = .next { s with dev := (s.dev.advance ((2 ^ 54 - 2 ^ 20) * grainSteps)).rewindForced.commit } := by
    rw [execForcedRewind, onDev_runs]
    simp only [running, source, rewind, not_true_eq_false, Option.isSome_none, Bool.false_eq_true, or_self, if_false,
      due_of_no_rewind rewind]
    rfl
  obtain ⟨epoch, now⟩ := rewindForced_tl (d := s.dev.advance ((2 ^ 54 - 2 ^ 20) * grainSteps))
    ((Dev.advance_tl_acts _ _).trans acts) ((leads_of_seq (s.dev.advance_seq _) _).trans rest)
  exact ⟨_, runs, by rw [commit_tl, epoch, Dev.advance_tl_epoch], by rw [commit_tl, now]⟩

/-- The near end of the count is noted once in an epoch. -/
theorem grainNearEnd_notes {s : State} (running : s.dev.tl.running = true) (rewind : s.dev.tl.rewind = none)
    (source : s.dev.tl.source ≠ 2) (fresh : s.dev.tl.nearEnd = false) :
    ∃ t, exec .grainNearEnd s = .next t ∧ Keeps [.tl] s t ∧ t.dev.tl.nearEnd = true ∧
      (2 ^ 54 - 2 ^ 36) * 1024 ≤ t.dev.tl.now := by
  generalize hn : (2 ^ 54 - 2 ^ 36) * grainSteps = n
  generalize hd : ({ s.dev.advance n with tl := { (s.dev.advance n).tl with nearEnd := true } } : Dev) = d
  have frame : SameBut [.tl] s.dev d := advance_keeps_trans n (hd ▸ setTl_keeps _ _)
  refine ⟨_, (onDev_runs (d := d.post 512 4 []) ?_ : execGrainNearEnd s = _),
    keeps_commit (frame.trans (post_keeps _ _ _ _ _)), ?_, ?_⟩
  · simp only [running, source, fresh, not_true_eq_false, Bool.false_eq_true, or_self, if_false, hn, due_of_no_rewind rewind, hd]
  · rw [commit_tl, Dev.post_tl, ← hd]
  · have present := advance_now running rewind n
    rw [commit_tl, Dev.post_tl, ← hd]
    dsimp only
    rw [present, ← hn, grainSteps]
    exact le_max_right _ _

/-! ### Marks (R54) -/

/-- At its stamp a mark is taken. -/
theorem tlMarkEvent_takes {s : State} {a : Act} (running : s.dev.tl.running = true) (rewind : s.dev.tl.rewind = none)
    (only : s.dev.tl.acts = [a]) (mark : a.kind = .mark) (epoch : a.epoch = s.dev.tl.epoch) :
    ∃ t, exec (.tlMarkEvent a.tag) s = .next t ∧ Keeps [.tl] s t ∧ t.dev.tl.acts = [] ∧
      t.dev.tl.now = max s.dev.tl.now a.stamp := by
  generalize hd : ({ s.dev.advance a.stamp with tl := { (s.dev.advance a.stamp).tl with acts := [] } } : Dev) = d
  have frame : SameBut [.tl] s.dev d := advance_keeps_trans a.stamp (hd ▸ setTl_keeps _ _)
  refine ⟨_, (onDev_runs (d := d.postAt 512 6 [(a.user : Int)] d.tl.epoch a.stamp d.tl.tq) ?_ : execTlMarkEvent a.tag s = _),
    keeps_commit (frame.trans (postAt_keeps _ _ _ _ _ _ _ _)), ?_, ?_⟩
  · simp only [only, mark, epoch, List.filter_cons, beq_self_eq_true, Bool.and_self, if_true, List.filter_nil, List.all_cons,
      List.all_nil, le_refl, decide_true, List.find?_cons_of_pos, due_of_no_rewind rewind, Dev.advance_tl_acts,
      List.erase_cons_head, hd]
    rw [← hd]
  · rw [commit_tl, Dev.postAt_tl, ← hd]
  · rw [commit_tl, Dev.postAt_tl, ← hd]
    exact advance_now running rewind a.stamp

end Sys2Proof.Machine

open Sys2Proof Sys2Proof.Machine

/-- Settles O9, by the count that each event leaves. -/
theorem epochEvents : Obligations.EpochEvents := by
  unfold Obligations.EpochEvents
  exact ⟨fun s running => ⟨fun r pending acts => rewindEffect_starts_epoch pending acts,
    fun rewind source => ⟨fun acts rest => forcedRewind_starts_epoch running rewind source acts rest,
      fun fresh => grainNearEnd_notes running rewind source fresh⟩⟩,
    fun s a running rewind only mark epoch => tlMarkEvent_takes running rewind only mark epoch⟩
end

section
/-!
PROOFS. The reference and the upstream timeline (R33 to R39, R390 to R392; log entries 71, 113, 118): what each event leaves of the
timeline, and of Tamp's sums and delays.
-/
namespace Sys2Proof.Machine

/-! ### A device that runs from REF_IN -/

/-- The warm state as reference and stability check give it (R33). -/
def Timeline.warmBy (t : Timeline) : Bool := t.source == 0 && t.warmFiltered && t.lastPass && !t.holdover

theorem refreshWarm_keeps (d : Dev) : SameBut [.tl] d d.refreshWarm := by
  unfold Dev.refreshWarm
  dsimp only
  split
  · exact .refl _ d
  · refine SameBut.trans ?_ (post_keeps _ _ _ _ _)
    split
    · exact setTl_keeps d _
    · exact (setTl_keeps d _).trans (linkOut_keeps _ _ _)

/-- What follows from the reference is the warm state, and nothing else of the timeline's setting. -/
theorem refreshWarm_tl (d : Dev) : d.refreshWarm.tl =
    if d.tl.warmBy = d.tl.warm then d.tl
    else { d.tl with warm := d.tl.warmBy, warmStamp := d.tl.now, warmEpoch := d.tl.epoch } := by
  unfold Dev.refreshWarm Timeline.warmBy
  dsimp only
  split
  · rfl
  · rw [Dev.post_tl]
    split <;> rfl

@[simp] theorem refreshWarm_warm (d : Dev) : d.refreshWarm.tl.warm = d.tl.warmBy := by
  rw [refreshWarm_tl]
  split_ifs with same
  · exact same.symm
  · rfl

@[simp] theorem refreshWarm_warmFiltered (d : Dev) : d.refreshWarm.tl.warmFiltered = d.tl.warmFiltered := by
  rw [refreshWarm_tl]; split_ifs <;> rfl
@[simp] theorem refreshWarm_lastPass (d : Dev) : d.refreshWarm.tl.lastPass = d.tl.lastPass := by
  rw [refreshWarm_tl]; split_ifs <;> rfl
@[simp] theorem refreshWarm_verdicts (d : Dev) : d.refreshWarm.tl.verdicts = d.tl.verdicts := by
  rw [refreshWarm_tl]; split_ifs <;> rfl
@[simp] theorem refreshWarm_holdover (d : Dev) : d.refreshWarm.tl.holdover = d.tl.holdover := by
  rw [refreshWarm_tl]; split_ifs <;> rfl
@[simp] theorem refreshWarm_refPresent (d : Dev) : d.refreshWarm.tl.refPresent = d.tl.refPresent := by
  rw [refreshWarm_tl]; split_ifs <;> rfl
@[simp] theorem refreshWarm_stabRun (d : Dev) : d.refreshWarm.tl.stabRun = d.tl.stabRun := by
  rw [refreshWarm_tl]; split_ifs <;> rfl

/-- The device with another timeline, at a stamp. -/
theorem advance_setTl_keeps (d : Dev) (n : Nat) (t : Timeline) : SameBut [.tl] d { d.advance n with tl := t } :=
  advance_keeps_trans n (setTl_keeps _ _)

/-- The filtered level changes after 1,000 samples. -/
theorem refWarmFilterChange_filters {s : State} {n : Nat} (running : s.dev.tl.running = true) (source : s.dev.tl.source = 0)
    {level : Bool} (change : s.dev.tl.warmFiltered ≠ level) (late : s.dev.tl.warmFrom + 1000 * 102400 ≤ (s.dev.advance n).mono) :
    ∃ t, exec (.refWarmFilterChange n level) s = .next t ∧ Keeps [.tl] s t ∧ t.dev.tl.warmFiltered = level ∧
      t.dev.tl.warm = (level && s.dev.tl.lastPass && !s.dev.tl.holdover) := by
  have far : ¬ (s.dev.advance n).mono < s.dev.tl.warmFrom + 1000 * usSteps := by simpa [usSteps, grainSteps] using late
  refine ⟨_, (onDev_runs ((if_neg ?_).trans rfl) : execRefWarmFilterChange n level s = _),
    keeps_commit ((advance_setTl_keeps _ n _).trans (refreshWarm_keeps _)), ?_, ?_⟩
  · simp [running, source, change, far]
  · rw [commit_tl, refreshWarm_warmFiltered]
  · rw [commit_tl, refreshWarm_warm]
    simp [Timeline.warmBy, source]

/-- A verdict of the stability check passes below 1e-8. -/
theorem stabilityVerdict_decides {s : State} {n : Nat} (running : s.dev.tl.running = true) (source : s.dev.tl.source = 0) (fig : Int)
    (run : s.dev.tl.stabRun = true)
    (late : s.dev.tl.stabSince + (20000 + 1000 * s.dev.tl.verdicts) * (1024 * 100000) ≤ (s.dev.advance n).mono) :
    ∃ t, exec (.stabilityVerdict n fig) s = .next t ∧ Keeps [.tl] s t ∧ t.dev.tl.lastPass = decide (fig.natAbs < 1000) ∧
      t.dev.tl.verdicts = s.dev.tl.verdicts + 1 ∧
      t.dev.tl.warm = (s.dev.tl.warmFiltered && decide (fig.natAbs < 1000) && !s.dev.tl.holdover) := by
  have far : ¬ (s.dev.advance n).mono < s.dev.tl.verdictAt := by
    simpa [Timeline.verdictAt, msSteps, usSteps, grainSteps] using late
  refine ⟨_, (onDev_runs ((if_neg ?_).trans rfl) : execStabilityVerdict n fig s = _),
    keeps_commit ((advance_setTl_keeps _ n _).trans (refreshWarm_keeps _)), ?_, ?_, ?_⟩
  · simp [running, source, run, far]
  · rw [commit_tl, refreshWarm_lastPass]
  · rw [commit_tl, refreshWarm_verdicts]
    simp
  · rw [commit_tl, refreshWarm_warm]
    simp [Timeline.warmBy, source]

/-- The loss of REF_IN begins holdover, in which the reference is cold. -/
theorem loseRef_begins_holdover {d : Dev} (fresh : d.tl.holdover = false) : SameBut [.tl] d d.loseRef ∧
    d.loseRef.tl.holdover = true ∧ d.loseRef.tl.refPresent = d.tl.refPresent ∧ d.loseRef.tl.warm = false := by
  rw [Dev.loseRef, if_neg (by simp [fresh])]
  exact ⟨((setTl_keeps d _).trans (post_keeps _ _ _ _ _)).trans (refreshWarm_keeps _), by simp, by simp, by simp [Timeline.warmBy]⟩

theorem refInLoss_begins_holdover {s : State} (n : Nat) (running : s.dev.tl.running = true) (source : s.dev.tl.source = 0)
    (present : s.dev.tl.refPresent = true) (fresh : s.dev.tl.holdover = false) :
    ∃ t, exec (.refInLoss n) s = .next t ∧ Keeps [.tl] s t ∧ t.dev.tl.holdover = true ∧ t.dev.tl.refPresent = false ∧
      t.dev.tl.warm = false := by
  obtain ⟨frame, holdover, gone, warm⟩ := loseRef_begins_holdover
    (d := { s.dev.advance n with tl := { (s.dev.advance n).tl with refPresent := false } }) (by simpa using fresh)
  refine ⟨_, (onDev_runs ((if_neg ?_).trans rfl) : execRefInLoss n s = _),
    keeps_commit ((advance_setTl_keeps _ n _).trans frame), ?_, ?_, ?_⟩
  · simp [running, source, present]
  · rw [commit_tl, holdover]
  · rw [commit_tl, gone]
  · rw [commit_tl, warm]

/-- REF_IN is back: holdover ends and the stability check starts again. -/
theorem refInRelock_ends_holdover {s : State} (n : Nat) (running : s.dev.tl.running = true) (source : s.dev.tl.source = 0)
    (holdover : s.dev.tl.holdover = true) :
    ∃ t, exec (.refInRelock n) s = .next t ∧ Keeps [.tl] s t ∧ t.dev.tl.holdover = false ∧ t.dev.tl.stabRun = true := by
  refine ⟨_, (onDev_runs ((if_neg ?_).trans rfl) : execRefInRelock n s = _),
    keeps_commit (((advance_setTl_keeps _ n _).trans (post_keeps _ _ _ _ _)).trans (refreshWarm_keeps _)), ?_, ?_⟩
  · simp [running, source, holdover]
  · simp
  · simp

/-! ### A worker -/

/-- A warm state that lies ahead waits for its stamp; any other is taken over at once. -/
theorem warmStateMessage_takes {s : State} (n : Nat) (running : s.dev.tl.running = true) (source : s.dev.tl.source = 2)
    (rewind : s.dev.tl.rewind = none) (warm : Bool) (e : BitVec 16) (st : Nat) :
    ∃ t, exec (.warmStateMessage n warm e st) s = .next t ∧ Keeps [.tl] s t ∧
      (if e = s.dev.tl.epoch ∧ max s.dev.tl.now n < st ∨ precedes s.dev.tl.epoch e = true then
        t.dev.tl.warmPend = some (warm, e, st)
      else t.dev.tl.warm = warm ∧ t.dev.tl.warmStamp = st ∧ t.dev.tl.warmEpoch = e ∧ t.dev.tl.warmPend = none) := by
  generalize hd : (s.dev.advance n).linkOut (.warm warm e st) = d
  have tl : d.tl = (s.dev.advance n).tl := hd ▸ rfl
  have frame : SameBut [.tl] s.dev d := advance_keeps_trans n (hd ▸ linkOut_keeps _ _ _)
  have due : (e = d.tl.epoch ∧ d.tl.now < st ∨ precedes d.tl.epoch e = true) ↔
      (e = s.dev.tl.epoch ∧ max s.dev.tl.now n < st ∨ precedes s.dev.tl.epoch e = true) := by
    rw [tl, Dev.advance_tl_epoch, advance_now running rewind]
  have on : ¬ (¬ s.dev.tl.running = true ∨ s.dev.tl.source ≠ 2) := by simp [running, source]
  by_cases ahead : e = s.dev.tl.epoch ∧ max s.dev.tl.now n < st ∨ precedes s.dev.tl.epoch e = true
  · simp only [if_pos ahead]
    refine ⟨_, (onDev_runs (d := { d with tl := { d.tl with warmPend := some (warm, e, st) } }) ?_ :
      execWarmStateMessage n warm e st s = _), keeps_commit (frame.trans (setTl_keeps _ _)), by rw [commit_tl]⟩
    simp only [if_neg on, hd, if_pos (due.mpr ahead)]
  · simp only [if_neg ahead]
    refine ⟨_, (onDev_runs (d := { d with tl := { d.tl with warm := warm, warmStamp := st, warmEpoch := e, warmPend := none } }) ?_ :
      execWarmStateMessage n warm e st s = _), keeps_commit (frame.trans (setTl_keeps _ _)), by simp [commit_tl]⟩
    simp only [if_neg on, hd, if_neg (due.not.mpr ahead)]

/-- An aligned worker that loses the upstream timeline goes on in holdover. -/
theorem upstreamTimelineLoss_begins_holdover {s : State} (n : Nat) (running : s.dev.tl.running = true) (source : s.dev.tl.source = 2)
    (aligned : s.dev.tl.tlLocal = false) (fresh : s.dev.tl.holdover = false) :
    ∃ t, exec (.upstreamTimelineLoss n) s = .next t ∧ Keeps [.tl] s t ∧ t.dev.tl.holdover = true ∧
      t.dev.tl.holdSince = t.dev.mono := by
  refine ⟨_, (onDev_runs ((if_neg ?_).trans rfl) : execUpstreamTimelineLoss n s = _),
    keeps_commit ((advance_setTl_keeps _ n _).trans (post_keeps _ _ _ _ _)), ?_, ?_⟩
  · simp [running, source, aligned, fresh]
  · simp
  · simp [Dev.mono, Timeline.monoAt]

/-- At the holdover limit the count is a local one. -/
theorem holdoverLimitExpiry_sets_local {s : State} (running : s.dev.tl.running = true) (source : s.dev.tl.source = 2)
    (rewind : s.dev.tl.rewind = none) (aligned : s.dev.tl.tlLocal = false) (holdover : s.dev.tl.holdover = true) :
    ∃ t, exec .holdoverLimitExpiry s = .next t ∧ t.dev.tl.tlLocal = true := by
  refine ⟨_, (onDev_runs ((if_neg ?_).trans (due_of_no_rewind rewind _ _)) : execHoldoverLimitExpiry s = _), ?_⟩
  · simp [running, source, aligned, holdover]
  · rw [commit_tl]
    rfl

/-- A marker without a rewind is noted with its sender's TQ. -/
theorem timelineMarker_notes {s : State} (n : Nat) (running : s.dev.tl.running = true) (source : s.dev.tl.source = 2) (e : BitVec 16)
    {g : Nat} (q : BitVec 4) (whole : g % 1024 = 0) :
    ∃ t, exec (.timelineMarker n e g q none) s = .next t ∧ Keeps [.tl] s t ∧ t.dev.tl.marker = some (e, g) ∧
      t.dev.tl.upTq = q := by
  refine ⟨_, (onDev_runs ((if_neg ?_).trans rfl) : execTimelineMarker n e g q none s = _),
    keeps_commit (advance_setTl_keeps _ n _), ?_, ?_⟩
  · simp [running, source, whole]
  · simp
  · simp

theorem setTree_keeps (d : Dev) (x : Tree) : SameBut [.tree] d { d with tree := x } :=
  sameBut_single fun p hp => by cases p <;> first | exact absurd rfl hp | rfl | exact Timeline.kept_refl _

/-- An exchange adds to Tamp's sums. -/
theorem tampExchange_sums {s : State} (running : s.dev.tl.running = true) (source : s.dev.tl.source = 2) {t1 : Nat} (t2 t3 : Nat)
    {t4 : Nat} (room : s.dev.tree.exchanges < 256) (order : t1 ≤ t4) :
    ∃ t, exec (.tampExchange t1 t2 t3 t4) s = .next t ∧ Keeps [.tree] s t ∧ t.dev.tree.exchanges = s.dev.tree.exchanges + 1 ∧
      t.dev.tree.sumD = s.dev.tree.sumD + (((t4 : Int) - t1) - ((t3 : Int) - t2)) := by
  refine ⟨_, (onDev_runs ((if_neg ?_).trans rfl) : execTampExchange t1 t2 t3 t4 s = _),
    keeps_commit (advance_keeps_trans t4 (setTree_keeps _ _)), ?_, ?_⟩
  · simp only [running, source, not_true_eq_false, ne_eq, false_or, not_or]
    omega
  · simp
  · simp

/-- The offset and the delays that an alignment interval has found. -/
def Dev.delays (d : Dev) : Int × Nat × Nat := (d.tree.tampOffset, d.tree.hopDelay, d.tree.rootDelay)

theorem setAligned_delays (d : Dev) (on : Bool) : (d.setAligned on).delays = d.delays :=
  forEach_leaves Dev.delays (fun p d => by split <;> rfl) _ { d with tree := { d.tree with isAligned := on } }

/-- The interval's means, with the worker's own hop and the delay from the root. -/
def Dev.means (d : Dev) (sum : Int) : Dev :=
  let hop := (roundDiv d.tree.sumD 512).toNat
  let d : Dev := { d with tree := { d.tree with
    hopDelay := hop, rootDelay := hop + (if d.tree.path.length > 1 then d.tree.aboveDelay else 0), tampOffset := sum / 2
    good := if sum.natAbs ≤ 512 then d.tree.good + 1 else 0 } }
  d.linkOut (.delay d.tree.rootDelay)

/-- A local count takes the count of the marker over. -/
def Dev.takeMarker (d : Dev) (sum : Int) : Dev :=
  if d.tl.tlLocal then
    match d.tl.marker with
    | none => d
    | some m =>
      let d : Dev := d.shiftCount (max (roundDiv sum 512) (-(d.tl.now : Int))) m.1
      { d with tl := { d.tl with tlLocal := false } }
  else d

/-- Holdover ends once the count is not local. -/
def Dev.endHoldover (d : Dev) (back : Bool) : Dev :=
  if back ∧ ¬ d.tl.tlLocal then ({ d with tl := { d.tl with holdover := false } } : Dev).post 512 2 [] else d

/-- The interval decides whether the device is aligned. -/
def Dev.judgeAligned (d : Dev) (sum : Int) : Dev :=
  if sum.natAbs > 2048 then
    if d.tree.isAligned then
      let d : Dev := d.setAligned false
      forEach (List.range 4) (fun p d => if (d.port p).upstream then d.post (601 + p) 3 [d.tree.tampOffset] else d) d
    else d
  else if d.tree.good ≥ 4 ∧ ¬ d.tree.isAligned then d.setAligned true
  else d

theorem align_eq (d : Dev) (sum : Int) : d.align sum =
    (((d.means sum).takeMarker sum).endHoldover (d.means sum).tl.holdover).judgeAligned sum := rfl

theorem shiftCount_delays (d : Dev) (δ : Int) (new : BitVec 16) : (d.shiftCount δ new).delays = d.delays := rfl

theorem takeMarker_delays (d : Dev) (sum : Int) : (d.takeMarker sum).delays = d.delays := by
  unfold Dev.takeMarker
  split
  · split
    · rfl
    next m _ => exact shiftCount_delays d _ m.1
  · rfl

theorem endHoldover_delays (d : Dev) (back : Bool) : (d.endHoldover back).delays = d.delays := by
  unfold Dev.endHoldover
  split
  · simp [Dev.delays]
  · rfl

theorem judgeAligned_delays (d : Dev) (sum : Int) : (d.judgeAligned sum).delays = d.delays := by
  unfold Dev.judgeAligned
  dsimp only
  split_ifs
  · exact (forEach_leaves Dev.delays (fun p d => by split <;> simp [Dev.delays]) _ _).trans (setAligned_delays d false)
  · rfl
  · exact setAligned_delays d true
  · rfl

/-- An interval's means give the offset, the worker's own hop and the delay from the root. -/
theorem align_delays (d : Dev) (sum : Int) : (d.align sum).delays = (sum / 2, (roundDiv d.tree.sumD 512).toNat,
    (roundDiv d.tree.sumD 512).toNat + (if d.tree.path.length > 1 then d.tree.aboveDelay else 0)) := by
  rw [align_eq, judgeAligned_delays, endHoldover_delays, takeMarker_delays]
  rfl

/-- The end of an interval acts on 256 exchanges, and begins the sums anew. -/
theorem alignmentIntervalEnd_aligns {s : State} (running : s.dev.tl.running = true) (source : s.dev.tl.source = 2)
    (rewind : s.dev.tl.rewind = none) :
    ∃ t, exec .alignmentIntervalEnd s = .next t ∧
      t.dev.tree.exchanges = 0 ∧ t.dev.tree.sumD = 0 ∧ t.dev.tree.sumTheta = 0 ∧
      (s.dev.tree.exchanges = 256 → t.dev.tree.tampOffset = s.dev.tree.sumTheta / 2 ∧
        t.dev.tree.hopDelay = (roundDiv s.dev.tree.sumD 512).toNat ∧
        (s.dev.tree.path.length > 1 → t.dev.tree.rootDelay = t.dev.tree.hopDelay + s.dev.tree.aboveDelay)) := by
  refine ⟨_, (onDev_runs ((if_neg ?_).trans (due_of_no_rewind rewind _ _)) : execAlignmentIntervalEnd s = _), ?_⟩
  · simp [running, source]
  · simp only [commit_tree, true_and]
    intro full
    have delays := align_delays (s.dev.advance ((s.dev.tl.now / intervalSteps + 1) * intervalSteps)) s.dev.tree.sumTheta
    rw [Dev.advance_tree, Dev.delays, Prod.mk.injEq, Prod.mk.injEq] at delays
    obtain ⟨offset, hop, root⟩ := delays
    rw [Dev.advance_tree, if_pos full]
    exact ⟨offset, hop, fun deep => by rw [root, hop, if_pos deep]⟩

end Sys2Proof.Machine

open Sys2Proof Sys2Proof.Machine

/-- Settles O10, by what each event leaves of the timeline and of Tamp's sums. -/
theorem referenceEvents : Obligations.ReferenceEvents := by
  unfold Obligations.ReferenceEvents
  exact ⟨fun s n running source => ⟨fun level change late => refWarmFilterChange_filters running source change late,
      fun fig run late => stabilityVerdict_decides running source fig run late,
      fun present fresh => refInLoss_begins_holdover n running source present fresh,
      fun holdover => refInRelock_ends_holdover n running source holdover⟩,
    fun s n running source rewind => ⟨fun warm e st => warmStateMessage_takes n running source rewind warm e st,
      fun aligned fresh => upstreamTimelineLoss_begins_holdover n running source aligned fresh,
      fun aligned holdover => holdoverLimitExpiry_sets_local running source rewind aligned holdover,
      fun e g q whole => timelineMarker_notes n running source e q whole,
      fun t1 t2 t3 t4 room order => tampExchange_sums running source t2 t3 room order,
      alignmentIntervalEnd_aligns running source rewind⟩⟩
end

section
/-!
PROOFS. Resets (R305 to R307, R408, R414, R415). What SAFE does to the island touches the island, the scheduled actions and the
control core; and a Metrology Unit that is shut stays so while the others are.
-/
namespace Sys2Proof.Machine

/-! ### A Metrology Unit that is shut -/

/-- The device but for its island, its timeline and its control core. -/
def Dev.outside (d : Dev) : Dev := { d with mi := {}, tl := {}, ctl := {} }

/-- What can be read of that part is the same on devices that agree on it. -/
theorem of_outside {γ : Type} (v : Dev → γ) (r : ∀ d : Dev, v d.outside = v d) {a b : Dev} (h : b.outside = a.outside) : v b = v a :=
  (r b).symm.trans ((congrArg v h).trans (r a))

/-- What the island holds of the SAFE line and of every Metrology Unit but one. -/
def Dev.otherMus (u : Nat) (d : Dev) : Dev × Bool × (Nat → Mu) :=
  (d.outside, d.mi.safeLine, fun v => if v = u then {} else d.mu v)

theorem mu_of_mi {a b : Dev} (h : b.mi = a.mi) (u : Nat) : b.mu u = a.mu u := congrArg (·.mus.get {} u) h

theorem otherMus_of_outside {a b : Dev} (out : b.outside = a.outside) (h : b.mi = a.mi) (u : Nat) : b.otherMus u = a.otherMus u := by
  simp only [Dev.otherMus, out, Dev.mu, h]

@[simp] theorem finish_outside (d : Dev) (g : Tag) (c : Cpl) : (d.finish g c).outside = d.outside := by
  obtain ⟨x, e⟩ := d.finish_eq g c
  rw [e]
  rfl

@[simp] theorem modJob_outside (d : Dev) (g : Tag) (f : Job → Job) : (d.modJob g f).outside = d.outside := rfl
@[simp] theorem dropJob_outside (d : Dev) (g : Tag) : (d.dropJob g).outside = d.outside := rfl
@[simp] theorem dropActs_outside (d : Dev) (g : Tag) : (d.dropActs g).outside = d.outside := rfl
@[simp] theorem packet_outside (d : Dev) (p : Packet) : (d.packet p).outside = d.outside := rfl
@[simp] theorem modMu_outside (d : Dev) (u : Nat) (f : Mu → Mu) : (d.modMu u f).outside = d.outside := rfl

@[simp] theorem settleJob_outside (d : Dev) (g : Tag) : (d.settleJob g).outside = d.outside := by
  unfold Dev.settleJob
  (repeat' split) <;> simp

@[simp] theorem endUnit_outside (d : Dev) (g : Tag) (u : Nat) : (d.endUnit g u).outside = d.outside := by
  simp [Dev.endUnit, Dev.endUnitAt]
@[simp] theorem replaceUnit_outside (d : Dev) (g : Tag) (u : Nat) : (d.replaceUnit g u).outside = d.outside := by
  simp [Dev.replaceUnit]
@[simp] theorem cutUnit_outside (d : Dev) (g : Tag) (u : Nat) : (d.cutUnit g u).outside = d.outside := by simp [Dev.cutUnit]

@[simp] theorem muEnd_outside (d : Dev) (g : Option Tag) (u : Nat) (r : Bool) : (d.muEnd g u r).outside = d.outside := by
  unfold Dev.muEnd Dev.pmuEnd
  (repeat' split) <;> simp
@[simp] theorem muEnd_mi (d : Dev) (g : Option Tag) (u : Nat) (r : Bool) : (d.muEnd g u r).mi = d.mi := by
  unfold Dev.muEnd Dev.pmuEnd
  (repeat' split) <;> simp
@[simp] theorem muCut_outside (d : Dev) (g : Option Tag) (u : Nat) : (d.muCut g u).outside = d.outside := by
  unfold Dev.muCut Dev.pmuCut
  split <;> simp
@[simp] theorem muCut_mi (d : Dev) (g : Option Tag) (u : Nat) : (d.muCut g u).mi = d.mi := by
  unfold Dev.muCut Dev.pmuCut
  split <;> simp

@[simp] theorem modMu_otherMus (d : Dev) (u : Nat) (f : Mu → Mu) : (d.modMu u f).otherMus u = d.otherMus u := by
  have mus : (fun v => if v = u then {} else (d.modMu u f).mu v) = fun v => if v = u then {} else d.mu v := by
    funext v
    split_ifs with same
    · rfl
    · exact Tab.get_mod_of_ne _ _ same _
  exact congrArg (fun m => (d.outside, d.mi.safeLine, m)) mus

@[simp] theorem mu_modMu_self (d : Dev) (u : Nat) (f : Mu → Mu) : (d.modMu u f).mu u = f (d.mu u) := Tab.get_mod_self ..

@[simp] theorem muEnd_otherMus (d : Dev) (g : Option Tag) (k u : Nat) (r : Bool) : (d.muEnd g k r).otherMus u = d.otherMus u :=
  otherMus_of_outside (by simp) (by simp) u

@[simp] theorem mu_muEnd (d : Dev) (g : Option Tag) (k u : Nat) (r : Bool) : (d.muEnd g k r).mu u = d.mu u := mu_of_mi (by simp) u
@[simp] theorem mu_muCut (d : Dev) (g : Option Tag) (k u : Nat) : (d.muCut g k).mu u = d.mu u := mu_of_mi (by simp) u

@[simp] theorem muStep_otherMus (d : Dev) (u : Nat) (st : SeqStep) (t len : Nat) : (d.muStep u st t len).otherMus u = d.otherMus u :=
  modMu_otherMus ..

/-- The output of a Metrology Unit is closed, or a sequence of it runs: no park is done. -/
def Mu.busy (m : Mu) : Bool := m.closed || m.seq.isSome

theorem Mu.busy_of_shutting {m : Mu} (h : m.shutting = true) : m.busy = true := by
  cases e : m.seq with
  | none => simp [Mu.shutting, e] at h
  | some s => simp [Mu.busy, e]

/-- Where an output is closed or a sequence runs, the SAFE line is not released. -/
theorem muParkDone_of_busy {d : Dev} {u : Nat} (range : u < 16) (busy : (d.mu u).busy = true) : d.muParkDone = d :=
  if_pos (List.any_eq_true.mpr ⟨u, List.mem_range.mpr range, busy⟩)

/-- What stands while the commands of one unit end: the rest of the island, and the output and the sequence of the unit. -/
def Dev.unitSeq (u : Nat) (d : Dev) : (Dev × Bool × (Nat → Mu)) × Bool × Option MuSeq :=
  (d.otherMus u, (d.mu u).closed, (d.mu u).seq)

theorem unitSeq_of_outside {a b : Dev} (out : b.outside = a.outside) (h : b.mi = a.mi) (u : Nat) : b.unitSeq u = a.unitSeq u := by
  simp only [Dev.unitSeq, otherMus_of_outside out h, mu_of_mi h]

theorem modMu_unitSeq (d : Dev) (u : Nat) (f : Mu → Mu) (closed : (f (d.mu u)).closed = (d.mu u).closed)
    (seq : (f (d.mu u)).seq = (d.mu u).seq) : (d.modMu u f).unitSeq u = d.unitSeq u := by
  simp only [Dev.unitSeq, modMu_otherMus, mu_modMu_self, closed, seq]

@[simp] theorem muCut_unitSeq (d : Dev) (g : Option Tag) (k u : Nat) : (d.muCut g k).unitSeq u = d.unitSeq u :=
  unitSeq_of_outside (by simp) (by simp) u
@[simp] theorem cutUnit_unitSeq (d : Dev) (g : Tag) (k u : Nat) : (d.cutUnit g k).unitSeq u = d.unitSeq u :=
  unitSeq_of_outside (by simp) (by simp) u
@[simp] theorem dropActs_unitSeq (d : Dev) (g : Tag) (u : Nat) : (d.dropActs g).unitSeq u = d.unitSeq u :=
  unitSeq_of_outside rfl rfl u

/-- A measurement that is cut leaves the unit's output and its sequence as they are. -/
@[simp] theorem cutMu_unitSeq (d : Dev) (u : Nat) (result : Bool) : (d.cutMu u result).unitSeq u = d.unitSeq u := by
  unfold Dev.cutMu
  cases (d.mu u).meas with
  | none => rfl
  | some x =>
    have told : (if result = true ∧ x.got > 0 then d.muResult u x true else d).unitSeq u = d.unitSeq u := by split <;> rfl
    have cut := (modMu_unitSeq (if result = true ∧ x.got > 0 then d.muResult u x true else d) u
      (fun m => { m with meas := none }) rfl rfl).trans told
    dsimp only
    split <;> simpa using cut

theorem busy_of_unitSeq {a b : Dev} {k : Nat} (same : a.unitSeq k = b.unitSeq k) (u : Nat) : (a.mu u).busy = (b.mu u).busy := by
  simp only [Dev.unitSeq, Dev.otherMus, Prod.mk.injEq] at same
  obtain ⟨⟨-, -, others⟩, closed, seq⟩ := same
  by_cases this : u = k
  · rw [this, Mu.busy, Mu.busy, closed, seq]
  · have other := congrFun others u
    simp only [this, if_false] at other
    rw [other]

/-! ### The disconnect of a unit -/

theorem muStep_rest (d : Dev) (u : Nat) (st : SeqStep) (t len : Nat) : (d.muStep u st t len).otherMus u = d.otherMus u ∧
    (((d.muStep u st t len).mu u).shutting = (d.mu u).shutting) := by
  refine ⟨modMu_otherMus .., ?_⟩
  rw [Dev.muStep, mu_modMu_self, Mu.shutting, Mu.shutting, Option.any_map]

/-- A unit that is being opened goes on with steps A, B or C, and is being opened still. -/
theorem muEnterC_shutting {d : Dev} {u : Nat} (shutting : (d.mu u).shutting = true) (t : Nat) :
    (d.muEnterC u t).otherMus u = d.otherMus u ∧ ((d.muEnterC u t).mu u).shutting = true := by
  unfold Dev.muEnterC
  cases (d.mu u).seq with
  | none => exact ⟨rfl, shutting⟩
  | some s =>
    dsimp only
    split
    · exact (muStep_rest ..).imp_right fun e => e.trans shutting
    · exact (muStep_rest ..).imp_right fun e => e.trans shutting

theorem muEnterA_shutting {d : Dev} {u : Nat} (shutting : (d.mu u).shutting = true) (t : Nat) :
    (d.muEnterA u t).otherMus u = d.otherMus u ∧ ((d.muEnterA u t).mu u).shutting = true := by
  unfold Dev.muEnterA Dev.muEnterB
  dsimp only
  split_ifs
  · exact (muStep_rest ..).imp_right fun e => e.trans shutting
  · exact muEnterC_shutting shutting t
  · exact (muStep_rest ..).imp_right fun e => e.trans shutting

theorem muKeepForce_otherMus (d : Dev) (u : Nat) (c : MuChange) : (d.muKeepForce u c).otherMus u = d.otherMus u := by
  unfold Dev.muKeepForce
  dsimp only
  split <;> simp

/-- A disconnect opens the unit, whatever sequence runs. -/
theorem muDisconnect_shutting {d : Dev} (u t : Nat) {c : MuChange} (conn : c.conn = some false) :
    (d.muDisconnect u t c).otherMus u = d.otherMus u ∧ ((d.muDisconnect u t c).mu u).shutting = true := by
  unfold Dev.muDisconnect Dev.muBegin
  cases seq : (d.mu u).seq with
  | none =>
    exact (muEnterA_shutting (by simp [Mu.shutting, conn]) t).imp_left
      fun e => e.trans ((modMu_otherMus ..).trans (muKeepForce_otherMus d u c))
  | some s =>
    dsimp only
    generalize (if s.change.conn = some true ∧ s.step = .c then some s.ends else none) = closing
    split_ifs with opening first
    · exact ⟨modMu_otherMus .., by simp [Mu.shutting, seq, opening]⟩
    · refine ⟨(modMu_otherMus ..).trans ((muKeepForce_otherMus ..).trans ?_), by simp [Mu.shutting, conn]⟩
      exact congrArg Prod.fst ((muCut_unitSeq _ _ u u).trans (muCut_unitSeq d _ u u))
    · refine (muEnterA_shutting (by simp [Mu.shutting, conn]) t).imp_left fun e =>
        e.trans ((modMu_otherMus ..).trans ((muKeepForce_otherMus ..).trans ?_))
      exact congrArg Prod.fst ((muCut_unitSeq _ _ u u).trans (muCut_unitSeq d _ u u))

/-! ### SAFE -/

/-- The commands of a unit that is shut have ended; its output and its sequence stand. -/
theorem shutMu_cuts (d : Dev) (u : Nat) : ((((d.mu u).forceSched.foldl (fun d f => (d.dropActs f.1).cutUnit f.1 u)
    (((d.mu u).sched ++ (d.mu u).queued).foldl
      (fun d c => (match c.tag with | some t => d.dropActs t | none => d).muCut c.tag u) (d.cutMu u true))).modMu u
        fun m => { m with sched := [], queued := [], forceSched := [] }).unitSeq u) = d.unitSeq u := by
  refine (modMu_unitSeq _ u _ rfl rfl).trans ((foldl_leaves (Dev.unitSeq u) (fun e f => ?_) _ _).trans
    ((foldl_leaves (Dev.unitSeq u) (fun e c => ?_) _ _).trans (cutMu_unitSeq d u true)))
  · simp
  · split <;> simp

theorem finishes_outside (tags : List Tag) (d : Dev) : (tags.foldl (fun d t => d.finish t {}) d).outside = d.outside :=
  foldl_leaves Dev.outside (fun d t => finish_outside d t {}) tags d

theorem muParkDone_outside (d : Dev) : d.muParkDone.outside = d.outside := by
  unfold Dev.muParkDone
  split
  · rfl
  · exact finishes_outside _ _

theorem muParkDone_mus (d : Dev) : d.muParkDone.mi.mus = d.mi.mus := by
  unfold Dev.muParkDone
  split
  · rfl
  · exact foldl_leaves (fun d => d.mi.mus) (fun d t => by simp) _ _

/-- Shutting one unit leaves the other units and the device outside the island alone. -/
theorem shutMu_others (d : Dev) (u : Nat) : (d.shutMu u).outside = d.outside ∧ ∀ v, v ≠ u → (d.shutMu u).mu v = d.mu v := by
  have cuts := congrArg Prod.fst (shutMu_cuts d u)
  unfold Dev.shutMu
  dsimp only
  generalize Dev.modMu _ u _ = e at cuts ⊢
  have split {x : Dev} (k : x.otherMus u = d.otherMus u) : x.outside = d.outside ∧ ∀ v, v ≠ u → x.mu v = d.mu v := by
    simp only [Dev.otherMus, Prod.mk.injEq] at k
    obtain ⟨out, -, mus⟩ := k
    exact ⟨out, fun v other => by simpa [other] using congrFun mus v⟩
  split_ifs
  · obtain ⟨out, mus⟩ := split cuts
    exact ⟨(muParkDone_outside e).trans out, fun v other => (congrArg (·.get {} v) (muParkDone_mus e)).trans (mus v other)⟩
  · exact split ((muDisconnect_shutting u _ rfl).1.trans cuts)

/-- A unit that is shut is being opened, unless it rested. -/
theorem shutMu_shuts {d : Dev} {u : Nat} (busy : (d.mu u).busy = true) : ((d.shutMu u).mu u).shutting = true := by
  unfold Dev.shutMu
  dsimp only
  generalize Dev.modMu _ u _ = e
  rw [if_neg fun h => by simp [Mu.busy, h.1, h.2.1] at busy]
  exact (muDisconnect_shutting u _ rfl).2

/-- While a unit is busy, the SAFE line stays. -/
theorem shutMu_safeLine {d : Dev} (k : Nat) {u : Nat} (range : u < 16) (busy : (d.mu u).busy = true) :
    (d.shutMu k).mi.safeLine = d.mi.safeLine := by
  have cuts := shutMu_cuts d k
  have safe := congrArg (·.1.2.1) cuts
  unfold Dev.shutMu
  dsimp only
  generalize Dev.modMu _ k _ = e at cuts safe ⊢
  split_ifs with rests
  · rw [muParkDone_of_busy range ?_]
    · exact safe
    · rw [busy_of_unitSeq cuts, busy]
  · refine Eq.trans ?_ safe
    exact congrArg (·.2.1) (muDisconnect_shutting (d := e) k _ (c := MuChange.over { conn := some false } _) rfl).1

/-- Units are shut one after the other: one that is busy is being opened when its turn has come, and holds the SAFE line. -/
theorem shutMus_shut {u : Nat} (range : u < 16) (l : List Nat) : ∀ d : Dev, (d.mu u).busy = true →
    (forEach l (fun k d => d.shutMu k) d).mi.safeLine = d.mi.safeLine ∧
      (u ∈ l ∨ (d.mu u).shutting = true → ((forEach l (fun k d => d.shutMu k) d).mu u).shutting = true) := by
  induction l with
  | nil => exact fun d _ => ⟨rfl, fun h => h.resolve_left List.not_mem_nil⟩
  | cons k l ih =>
    intro d busy
    have safe := shutMu_safeLine k range busy
    by_cases this : u = k
    · subst this
      have shut := shutMu_shuts busy
      obtain ⟨line, shuts⟩ := ih (d.shutMu u) (Mu.busy_of_shutting shut)
      exact ⟨line.trans safe, fun _ => shuts (.inr shut)⟩
    · have same := (shutMu_others d k).2 u this
      obtain ⟨line, shuts⟩ := ih (d.shutMu k) (by rw [same, busy])
      rw [same] at shuts
      exact ⟨line.trans safe, fun h => shuts (h.imp_left fun m => (List.mem_cons.mp m).resolve_left this)⟩

/-- SAFE opens every output that is closed. -/
theorem assertSafe_shuts {d : Dev} {u : Nat} (range : u < 16) (closed : (d.mu u).closed = true) :
    d.assertSafe.mi.safeLine = true ∧ (d.assertSafe.mu u).shutting = true := by
  have busy : (({ d with mi := { d.mi with safeLine := true } } : Dev).mu u).busy = true := Bool.or_eq_true_iff.mpr (.inl closed)
  have all := shutMus_shut range (List.range 16) _ busy
  have here : u ∈ List.range 16 := List.mem_range.mpr range
  unfold Dev.assertSafe
  generalize List.range 16 = units at all here ⊢
  exact ⟨all.1, all.2 (.inl here)⟩

theorem assertSafe_outside (d : Dev) : d.assertSafe.outside = d.outside :=
  forEach_leaves Dev.outside (fun u d => (shutMu_others d u).1) _ _

/-! ### The device as a reset leaves it -/

/-- The device but for its journal and the plan of its steps. -/
def Dev.butPlan (d : Dev) : Dev :=
  { d with boot := { d.boot with plan := 0 }, journal := { d.journal with entries := .empty } }

/-- The steps that run in their normal form are a matter of the plan alone. -/
theorem planSteps_butPlan (d : Dev) (manager : Bool) (ks : List Nat) : (d.planSteps manager ks).butPlan = d.butPlan :=
  foldl_leaves Dev.butPlan (fun d k => by dsimp only; split <;> rfl) ks d

/-- The device that a warm reset leaves before its steps are planned (R305, R408). -/
def State.restarted (s : State) (x : Straps) : Dev :=
  let o := s.dev
  let d : Dev := o.powerUp x (if o.journal.valid then o.journal.openStart else { valid := true, starts := 1 }) 1
  { d with
    ctl := { d.ctl with seq := o.ctl.seq }, shutLatch := o.shutLatch, mi := o.keptIsland
    boot := { d.boot with needLoad := !o.journal.valid } }

/-- The device at the start mark of S0, before SAFE is asserted (R409). -/
def State.atS0 (s : State) (x : Straps) : Dev :=
  ((s.restarted x).planSteps x.isManager (if s.dev.journal.valid then List.range 12 else [])).startMark 0 0

/-- The plan and the start mark leave the rest as the reset has left it. -/
theorem atS0_leaves {γ : Type} (s : State) (x : Straps) (v : Dev → γ) (r : ∀ d : Dev, v d.butPlan = v d)
    (m : ∀ d : Dev, v (d.startMark 0 0) = v d) : v (s.atS0 x) = v (s.restarted x) :=
  (m _).trans ((r _).symm.trans ((congrArg v (planSteps_butPlan _ _ _)).trans (r _)))

theorem atS0_mi (s : State) (x : Straps) : (s.atS0 x).mi = s.dev.keptIsland := atS0_leaves s x Dev.mi (fun _ => rfl) fun _ => rfl

theorem restarted_starts (s : State) (x : Straps) : (s.restarted x).journal.starts = if s.dev.journal.valid then
    (if s.dev.journal.starts = 0xFFFF then 0xFFFF else s.dev.journal.starts + 1) else 1 := by
  simp only [State.restarted, Dev.powerUp, Journal.openStart]
  split <;> rfl

/-- What the assertion of SAFE leaves outside the island is as it was at the start mark. -/
theorem safe_leaves {γ : Type} (s : State) (x : Straps) (v : Dev → γ) (o : ∀ d : Dev, v d.outside = v d) (c : ∀ d : Dev, v d.core = v d)
    (r : ∀ d : Dev, v d.butPlan = v d) (m : ∀ d : Dev, v (d.startMark 0 0) = v d) :
    v (s.atS0 x).assertSafe.commit = v (s.restarted x) :=
  (of_core v c (commit_core _)).trans ((of_outside v o (assertSafe_outside _)).trans (atS0_leaves s x v r m))

theorem safe_boot (s : State) (x : Straps) : (s.atS0 x).assertSafe.commit.boot = (s.atS0 x).boot :=
  (commit_boot _).trans (of_outside Dev.boot (fun _ => rfl) (assertSafe_outside _))

theorem startMark_zero_step (d : Dev) : (d.startMark 0 0).boot.step = 0 := rfl

theorem atS0_ready (s : State) (x : Straps) : (s.atS0 x).boot.ready = false :=
  atS0_leaves s x (·.boot.ready) (fun _ => rfl) fun _ => rfl

theorem safe_journal (s : State) (x : Straps) : (s.atS0 x).assertSafe.commit.journal = (s.atS0 x).journal :=
  (commit_journal _).trans (of_outside Dev.journal (fun _ => rfl) (assertSafe_outside _))

theorem atS0_starts (s : State) (x : Straps) : (s.atS0 x).journal.starts = (s.restarted x).journal.starts :=
  atS0_leaves s x (·.journal.starts) (fun _ => rfl) fun _ => rfl

/-! ### The outputs of the island -/

theorem lookup_map_value {α β : Type} (f : α → β) (k : Nat) (l : List (Nat × α)) :
    (l.map fun c => (c.1, f c.2)).lookup k = (l.lookup k).map f := by
  induction l with
  | nil => rfl
  | cons c l ih =>
    rw [List.map_cons, List.lookup_cons, List.lookup_cons, ih]
    split <;> rfl

theorem keptIsland_closed (d : Dev) (u : Nat) : (d.keptIsland.mus.get {} u).closed = (d.mu u).closed := by
  have found := lookup_map_value (fun m : Mu => m.forget d.tl.now) u d.mi.mus.cells
  simp only [Dev.keptIsland, Tab.get, Dev.mu]
  rw [found]
  cases List.lookup u d.mi.mus.cells <;> rfl

theorem safe_shuts {s : State} {u : Nat} (x : Straps) (range : u < 16) (closed : (s.dev.mu u).closed = true) :
    (s.atS0 x).assertSafe.commit.mi.safeLine = true ∧ ((s.atS0 x).assertSafe.commit.mu u).shutting = true := by
  have kept : ((s.atS0 x).mu u).closed = true :=
    (congrArg (fun i : Island => (i.mus.get ({} : Mu) u).closed) (atS0_mi s x)).trans ((keptIsland_closed s.dev u).trans closed)
  rw [Dev.mu, commit_mi]
  exact assertSafe_shuts range kept

end Sys2Proof.Machine

open Sys2Proof Sys2Proof.Machine

/-- Settles O11, by what SAFE does to the island, unit by unit, and what the start's marks leave alone. -/
theorem resets : Obligations.Resets := by
  unfold Obligations.Resets
  constructor
  · intro s x
    exact ⟨_, rfl, rfl, rfl, rfl, rfl, rfl, rfl, rfl, rfl, rfl, rfl, rfl, rfl, rfl, rfl, rfl, rfl, rfl, rfl, rfl, rfl, rfl, rfl,
      rfl, rfl, rfl⟩
  · intro s x
    refine ⟨_, onDev_runs (s := { s with straps := x, dev := s.atS0 x }) (d := (s.atS0 x).assertSafe) rfl, rfl, rfl, rfl, ?_, ?_, ?_, ?_, ?_, ?_, ?_, ?_, ?_⟩ <;> dsimp only
    · exact safe_leaves s x Dev.board (fun _ => rfl) (fun _ => rfl) (fun _ => rfl) fun _ => rfl
    · exact safe_leaves s x Dev.shutLatch (fun _ => rfl) (fun _ => rfl) (fun _ => rfl) fun _ => rfl
    · exact fun u range closed => safe_shuts x range closed
    · exact (congrArg Boot.step (safe_boot s x)).trans (startMark_zero_step _)
    · exact (congrArg Boot.ready (safe_boot s x)).trans (atS0_ready s x)
    · exact safe_leaves s x Dev.pins (fun _ => rfl) (fun _ => rfl) (fun _ => rfl) fun _ => rfl
    · exact safe_leaves s x Dev.seq (fun _ => rfl) (fun _ => rfl) (fun _ => rfl) fun _ => rfl
    · exact safe_leaves s x Dev.pat (fun _ => rfl) (fun _ => rfl) (fun _ => rfl) fun _ => rfl
    · exact (congrArg Journal.starts (safe_journal s x)).trans ((atS0_starts s x).trans (restarted_starts s x))
end

section
/-!
PROOFS. The chain of boot steps (R399, R409, R411, R417): the marks of a step, its variant, and the next image source.
-/
namespace Sys2Proof.Machine

/-! ### One part of a device is replaced -/

theorem setPat_keeps (d : Dev) (x : Pat) : SameBut [.pat] d { d with pat := x } :=
  sameBut_single fun p hp => by cases p <;> first | exact absurd rfl hp | rfl | exact Timeline.kept_refl _
theorem setDsp_keeps (d : Dev) (x : Dsp) : SameBut [.dsp] d { d with dsp := x } :=
  sameBut_single fun p hp => by cases p <;> first | exact absurd rfl hp | rfl | exact Timeline.kept_refl _
theorem setMi_keeps (d : Dev) (x : Island) : SameBut [.mi] d { d with mi := x } :=
  sameBut_single fun p hp => by cases p <;> first | exact absurd rfl hp | rfl | exact Timeline.kept_refl _
theorem setBoot_keeps (d : Dev) (x : Boot) : SameBut [.boot] d { d with boot := x } :=
  sameBut_single fun p hp => by cases p <;> first | exact absurd rfl hp | rfl | exact Timeline.kept_refl _
theorem setFc_keeps (d : Dev) (x : Fc) : SameBut [.fc] d { d with fc := x } :=
  sameBut_single fun p hp => by cases p <;> first | exact absurd rfl hp | rfl | exact Timeline.kept_refl _
theorem setHk_keeps (d : Dev) (x : Hk) : SameBut [.hk] d { d with hk := x } :=
  sameBut_single fun p hp => by cases p <;> first | exact absurd rfl hp | rfl | exact Timeline.kept_refl _
theorem setFlash_keeps (d : Dev) (x : Flash) : SameBut [.flash] d { d with flash := x } :=
  sameBut_single fun p hp => by cases p <;> first | exact absurd rfl hp | rfl | exact Timeline.kept_refl _
theorem setBoard_keeps (d : Dev) (x : Board) : SameBut [.board] d { d with board := x } :=
  sameBut_single fun p hp => by cases p <;> first | exact absurd rfl hp | rfl | exact Timeline.kept_refl _
theorem setJournal_keeps (d : Dev) (x : Journal) : SameBut [.journal] d { d with journal := x } :=
  sameBut_single fun p hp => by cases p <;> first | exact absurd rfl hp | rfl | exact Timeline.kept_refl _

/-! ### Marks -/

@[simp] theorem copyJournal_boot (d : Dev) : d.copyJournal.boot = d.boot := by unfold Dev.copyJournal; split <;> rfl
@[simp] theorem copyJournal_journal (d : Dev) : d.copyJournal.journal = d.journal := by unfold Dev.copyJournal; split <;> rfl
@[simp] theorem copyJournal_tree (d : Dev) : d.copyJournal.tree = d.tree := by unfold Dev.copyJournal; split <;> rfl
@[simp] theorem copyJournal_fc (d : Dev) : d.copyJournal.fc = d.fc := by unfold Dev.copyJournal; split <;> rfl

@[simp] theorem modEntry_boot (d : Dev) (k : Nat) (f : JEntry → JEntry) : (d.modEntry k f).boot = d.boot := rfl

theorem entry_of_journal {a b : Dev} (h : a.journal = b.journal) (k : Nat) : a.entry k = b.entry k :=
  congrArg (·.entries.get {} k) h

@[simp] theorem entry_copyJournal (d : Dev) (k : Nat) : d.copyJournal.entry k = d.entry k := entry_of_journal (by simp) k
@[simp] theorem entry_modEntry_self (d : Dev) (k : Nat) (f : JEntry → JEntry) : (d.modEntry k f).entry k = f (d.entry k) :=
  Tab.get_mod_self ..
theorem entry_modEntry_of_ne (d : Dev) {j k : Nat} (h : j ≠ k) (f : JEntry → JEntry) : (d.modEntry k f).entry j = d.entry j :=
  Tab.get_mod_of_ne _ _ h f

@[simp] theorem startMark_boot (d : Dev) (k : Nat) (v : BitVec 2) : (d.startMark k v).boot = { d.boot with
    step := k, variant := v, notNormal := if v = 0 then d.boot.notNormal else d.boot.notNormal ||| (1 <<< k) } := by
  simp [Dev.startMark]

@[simp] theorem startMark_entry_start (d : Dev) (k : Nat) (v : BitVec 2) : ((d.startMark k v).entry k).start = true := by
  simp [Dev.startMark]

theorem startMark_entry_of_ne (d : Dev) {j k : Nat} (h : j ≠ k) (v : BitVec 2) : (d.startMark k v).entry j = d.entry j := by
  rw [Dev.startMark, entry_copyJournal, entry_modEntry_of_ne _ h]
  rfl

@[simp] theorem endMark_boot (d : Dev) (k t10 : Nat) (r : BitVec 2) (x : BitVec 8) : (d.endMark k t10 r x).boot = { d.boot with
    ended := k, notNormal := if r = 0 then d.boot.notNormal else d.boot.notNormal ||| (1 <<< k) } := by
  simp [Dev.endMark]

theorem endMark_entry (d : Dev) (k t10 : Nat) (r : BitVec 2) (x : BitVec 8) :
    ((d.endMark k t10 r x).entry k).fin = true ∧ ((d.endMark k t10 r x).entry k).result = r := by
  simp [Dev.endMark]

@[simp] theorem bootAt_boot (d : Dev) (t10 : Nat) : (d.bootAt t10).boot = { d.boot with t0 := max d.boot.t0 t10 } := by
  unfold Dev.bootAt
  dsimp only
  split
  · rw [Dev.advance_boot]
  · rfl

@[simp] theorem bootAt_journal (d : Dev) (t10 : Nat) : (d.bootAt t10).journal = d.journal := by
  unfold Dev.bootAt
  dsimp only
  split
  · rw [Dev.advance_journal]
  · rfl

@[simp] theorem bootAt_fc (d : Dev) (t10 : Nat) : (d.bootAt t10).fc = d.fc := by
  unfold Dev.bootAt
  dsimp only
  split
  · rw [Dev.advance_fc]
  · rfl

@[simp] theorem bootAt_tree (d : Dev) (t10 : Nat) : (d.bootAt t10).tree = d.tree := by
  unfold Dev.bootAt
  dsimp only
  split
  · rw [Dev.advance_tree]
  · rfl

/-- A later time of the start keeps all but the boot state. -/
theorem bootAt_keeps (d : Dev) (t10 : Nat) : SameBut [.boot] d (d.bootAt t10) := by
  have time := setBoot_keeps d { d.boot with t0 := max d.boot.t0 t10 }
  unfold Dev.bootAt
  dsimp only
  split
  · exact time.trans (advance_keeps _ _ _)
  · exact time

@[simp] theorem entry_bootAt (d : Dev) (t10 k : Nat) : (d.bootAt t10).entry k = d.entry k := entry_of_journal (by simp) k

@[simp] theorem inStep_bootAt (d : Dev) (t10 : Nat) : (d.bootAt t10).inStep = d.inStep := by simp [Dev.inStep]
@[simp] theorem planned_bootAt (d : Dev) (t10 k : Nat) : (d.bootAt t10).planned k = d.planned k := by simp [Dev.planned]

theorem commit_entry (d : Dev) (k : Nat) : d.commit.entry k = d.entry k := entry_of_journal (commit_journal d) k

/-! ### S0 and S11 -/

/-- S0 passes, whenever it ends, and S1 begins unless it is planned otherwise. -/
theorem passStep_zero (d : Dev) (straps : Straps) (fuses : Fuses) (t10 : Nat) (work : StepWork) (plan : d.planned 1 = false) :
    d.passStep straps fuses 0 t10 work = (d.endMark 0 t10 0 0).startMark 1 0 := by
  have same : (d.endMark 0 t10 0 0).planned 1 = false := by rw [Dev.planned, endMark_boot]; exact plan
  exact (if_pos rfl : d.passStep straps fuses 0 t10 work = _).trans (if_neg fun h => absurd (same.symm.trans h) (by decide))

theorem bootStepEnd_passes_zero {s : State} {t10 : Nat} (time : s.dev.boot.t0 ≤ t10) (on : s.dev.inStep = true)
    (step : s.dev.boot.step = 0) (plan : s.dev.planned 1 = false) :
    ∃ t, exec (.bootStepEnd t10 .passed) s = .next t ∧ t.dev.boot.step = 1 ∧ (t.dev.entry 0).fin = true ∧
      (t.dev.entry 0).result = 0 ∧ (t.dev.entry 1).start = true := by
  refine ⟨_, (onDev_runs (d := ((s.dev.bootAt t10).endMark 0 t10 0 0).startMark 1 0) ?_ : execBootStepEnd t10 .passed s = _), ?_, ?_,
    ?_, ?_⟩
  · rw [if_neg (by simp [on, step, time]), if_neg (by simp [step]), step]
    exact passStep_zero _ _ _ _ _ (by simp [plan])
  · simp
  · rw [commit_entry, startMark_entry_of_ne _ (by decide)]
    exact (endMark_entry ..).1
  · rw [commit_entry, startMark_entry_of_ne _ (by decide)]
    exact (endMark_entry ..).2
  · rw [commit_entry]
    simp

/-- The boot state of READY stands while its events are posted. -/
theorem becomeReady_boot (d : Dev) (t10 : Nat) : (d.becomeReady t10).boot.ready = true ∧ (d.becomeReady t10).boot.step = 12 := by
  have posts := fun (l : List Nat) (e : Dev) => foldl_leaves Dev.boot (f := fun (d : Dev) (k : Nat) =>
    d.post 610 1 [(k : Int), ((d.entry k).result.toNat : Int), ((d.entry k).variant.toNat : Int), ((d.entry k).fails.toNat : Int)])
    (fun d k => by simp) l e
  unfold Dev.becomeReady
  dsimp only
  split
  · rw [Dev.post_boot, posts]; exact ⟨rfl, rfl⟩
  · rw [posts]; exact ⟨rfl, rfl⟩

theorem bootStepEnd_makes_ready {s : State} {t10 : Nat} (time : s.dev.boot.t0 ≤ t10) (on : s.dev.inStep = true)
    (step : s.dev.boot.step = 11) :
    ∃ t, exec (.bootStepEnd t10 .passed) s = .next t ∧ t.dev.boot.ready = true ∧ t.dev.boot.step = 12 := by
  refine ⟨_, (onDev_runs (d := (s.dev.bootAt t10).becomeReady t10) ?_ : execBootStepEnd t10 .passed s = _), ?_⟩
  · rw [if_neg (by simp [on, step, time]), if_neg (by simp [step]), step]
    rfl
  · rw [commit_boot]
    exact becomeReady_boot _ _

/-! ### Bounds -/

/-- A step that is not S3 runs out of time at its bound. -/
theorem bootStepBoundExpiry_fails {s : State} {t10 b : Nat} (on : s.dev.inStep = true) (bound : s.dev.bound = some b)
    (late : s.dev.stepStart + b ≤ t10) : exec (.bootStepBoundExpiry t10) s =
      .next { s with dev := ((s.dev.bootAt t10).failStep s.straps s.dev.boot.step t10).commit } := by
  refine (onDev_runs ?_ : execBootStepBoundExpiry t10 s = _)
  rw [if_neg (by simp [on, bound, late])]

theorem failStep_seven (d : Dev) (straps : Straps) (t10 : Nat) (first : d.boot.variant = 0) :
    d.failStep straps 7 t10 = (d.endMark 7 t10 1 0).startMark 7 1 := by
  simp [Dev.failStep, first]

theorem failStep_ten (d : Dev) (straps : Straps) (t10 : Nat) (first : d.boot.variant = 0) :
    d.failStep straps 10 t10 = (d.endMark 10 t10 1 0).startMark 10 1 := by
  simp [Dev.failStep, first]

theorem bootStepBoundExpiry_seven {s : State} {t10 : Nat} (on : s.dev.inStep = true) (step : s.dev.boot.step = 7)
    (first : s.dev.boot.variant = 0) (late : s.dev.stepStart + 25000 ≤ t10) :
    ∃ t, exec (.bootStepBoundExpiry t10) s = .next t ∧ t.dev.boot.step = 7 ∧ t.dev.boot.variant = 1 := by
  refine ⟨_, bootStepBoundExpiry_fails on (by simp [Dev.bound, step, first]) late, ?_⟩
  simp only [commit_boot]
  rw [step, failStep_seven _ _ _ (by simp [first])]
  simp

theorem bootStepBoundExpiry_ten {s : State} {t10 : Nat} (on : s.dev.inStep = true) (step : s.dev.boot.step = 10)
    (first : s.dev.boot.variant = 0) (late : s.dev.stepStart + 40000 ≤ t10) :
    ∃ t, exec (.bootStepBoundExpiry t10) s = .next t ∧ t.dev.boot.step = 10 ∧ t.dev.boot.variant = 1 := by
  refine ⟨_, bootStepBoundExpiry_fails on (by simp [Dev.bound, step]) late, ?_⟩
  simp only [commit_boot]
  rw [step, failStep_ten _ _ _ (by simp [first])]
  simp

/-! ### The main PLL and the image sources -/

theorem mainPllLock_runs {s : State} {t10 : Nat} (time : s.dev.boot.t0 ≤ t10) (on : s.dev.inStep = true) (step : s.dev.boot.step = 2)
    (stopped : s.dev.tl.running = false) :
    ∃ t, exec (.mainPllLock t10) s = .next t ∧ t.dev.tl.running = true ∧ t.dev.tl.now = 0 ∧ t.dev.tl.epoch = 0 ∧
      t.dev.tl.tlLocal = s.straps.isWorker := by
  refine ⟨_, (onDev_runs ((if_neg ?_).trans rfl) : execMainPllLock t10 s = _), ?_, ?_, ?_, ?_⟩
  · simp [on, step, stopped, time]
  all_goals simp only [commit_tl]

/-- S3 turns to the first source that this start has not tried. -/
theorem nextSource_takes (d : Dev) (straps : Straps) {k : Nat}
    (found : (imageSources straps).find? (fun j => !d.boot.tried.getLsbD j) = some k) :
    (d.nextSource straps).boot.step = 3 ∧ (d.nextSource straps).boot.srcNow = BitVec.ofNat 2 k := by
  unfold Dev.nextSource
  dsimp only
  simp only [startMark_boot, found, and_self]

@[simp] theorem setSourceFails_boot (d : Dev) (src n : Nat) : (d.setSourceFails src n).boot = d.boot := rfl

theorem failSource_takes (d : Dev) (straps : Straps) (k t10 detail : Nat) {j : Nat}
    (found : (imageSources straps).find? (fun j => !(d.boot.tried ||| (1#4 <<< d.boot.srcNow.toNat)).getLsbD j) = some j) :
    (d.failSource straps k t10 detail).boot.step = 3 ∧ (d.failSource straps k t10 detail).boot.srcNow = BitVec.ofNat 2 j := by
  unfold Dev.failSource
  refine nextSource_takes _ straps ?_
  simp only [setSourceFails_boot, endMark_boot]
  exact found

theorem failStep_three (d : Dev) (straps : Straps) (t10 : Nat) : d.failStep straps 3 t10 = d.failSource straps 3 t10 0 := by
  simp [Dev.failStep]

/-- The state after a source has failed. -/
theorem sourceFails_takes {s : State} {k : Nat} (t10 : Nat)
    (found : (imageSources s.straps).find? (fun j => !(s.dev.boot.tried ||| (1#4 <<< s.dev.boot.srcNow.toNat)).getLsbD j) = some k) :
    ((s.dev.bootAt t10).failStep s.straps 3 t10).commit.boot.step = 3 ∧
      ((s.dev.bootAt t10).failStep s.straps 3 t10).commit.boot.srcNow = BitVec.ofNat 2 k := by
  rw [commit_boot, failStep_three]
  refine failSource_takes _ _ _ _ _ ?_
  rw [bootAt_boot]
  exact found

theorem linkImageTimeout_takes {s : State} {t10 k : Nat} (time : s.dev.boot.t0 ≤ t10) (on : s.dev.inStep = true)
    (found : (imageSources s.straps).find? (fun j => !(s.dev.boot.tried ||| (1#4 <<< s.dev.boot.srcNow.toNat)).getLsbD j) = some k)
    (step : s.dev.boot.step = 3) (worker : s.straps.isWorker = true) (admitted : s.dev.tree.admitted = true)
    (none_ : s.dev.tree.multicast = none) (link : s.dev.boot.linkImage = true) (late : s.dev.boot.admitAt + 150000 ≤ t10) :
    ∃ t, exec (.linkImageTimeout t10) s = .next t ∧ t.dev.boot.step = 3 ∧ t.dev.boot.srcNow = BitVec.ofNat 2 k := by
  have normal : s.dev.fc.decaf.isSome = false := by
    rw [Dev.inStep, Bool.and_eq_true, Option.isNone_iff_eq_none] at on
    rw [on.2, Option.isSome_none]
  refine ⟨_, (onDev_runs (d := (s.dev.bootAt t10).failStep s.straps 3 t10) ?_ : execLinkImageTimeout t10 s = _), ?_⟩
  case refine_2 => dsimp only; exact sourceFails_takes t10 found
  rw [if_neg (by simp [worker, admitted, none_, normal, step, time, late])]
  simp only [inStep_bootAt, on, if_true, bootAt_boot, link, and_self]

theorem hostImageTimeout_takes {s : State} {t10 k : Nat} (on : s.dev.inStep = true)
    (found : (imageSources s.straps).find? (fun j => !(s.dev.boot.tried ||| (1#4 <<< s.dev.boot.srcNow.toNat)).getLsbD j) = some k)
    (waits : s.dev.boot.waitImage = true) (late : s.dev.stepStart + 1000000 ≤ t10) :
    ∃ t, exec (.hostImageTimeout t10) s = .next t ∧ t.dev.boot.step = 3 ∧ t.dev.boot.srcNow = BitVec.ofNat 2 k := by
  refine ⟨_, (onDev_runs (d := (s.dev.bootAt t10).failStep s.straps 3 t10) ?_ : execHostImageTimeout t10 s = _), ?_⟩
  case refine_2 => dsimp only; exact sourceFails_takes t10 found
  exact if_neg (by simp [on, waits, late])

/-! ### The stages of Brew-up -/

theorem firmwareMulticastReceived_keeps_image {s : State} {t10 : Nat} (time : s.dev.boot.t0 ≤ t10) (image : Bytes)
    (admitted : s.dev.tree.admitted = true) (way : s.straps.boot = 1 ∨ s.straps.boot = 3) :
    ∃ t, exec (.firmwareMulticastReceived t10 image) s = .next t ∧ Keeps [.tree, .boot] s t ∧ t.dev.tree.multicast = some image := by
  refine ⟨_, (onDev_runs ((if_neg ?_).trans rfl) : execFirmwareMulticastReceived t10 image s = _), keeps_commit ?_, ?_⟩
  · simp only [admitted, way, not_true_eq_false, false_or]
    omega
  · refine ((bootAt_keeps _ t10).mono (by simp)).trans fun p hp => ?_
    cases p <;> first | (simp at hp; done) | rfl | exact Timeline.kept_refl _
  · simp

/-- The end of a manager's stage start: a rescan ends with stage 4. -/
def Dev.rescanEnds (d : Dev) (n : Nat) : Dev :=
  match d.tree.rescan with
  | some r => if n = 4 then ({ d with tree := { d.tree with rescan := none } } : Dev).finish r.1 { resp := [(r.2 : Int)] } else d
  | none => d

theorem rescanEnds_keeps (d : Dev) (n : Nat) : SameBut [.tree] d (d.rescanEnds n) := by
  unfold Dev.rescanEnds
  split
  · split
    · exact (setTree_keeps _ _).trans (finish_keeps _ _ _ _)
    · exact .refl _ d
  · exact .refl _ d

@[simp] theorem rescanEnds_stage (d : Dev) (n : Nat) : (d.rescanEnds n).tree.stage = d.tree.stage := by
  unfold Dev.rescanEnds
  split
  · split
    · rw [Dev.finish_tree]
    · rfl
  · rfl

/-- The tree as a stage leaves it: stage 3 begins the list of the devices anew. -/
def Tree.atStage (t : Tree) (n : Nat) : Tree :=
  if n = 3 then { t with stage := n, nodes := [], notAdmitted := 0, fixed := 0 } else { t with stage := n }

@[simp] theorem Tree.atStage_stage (t : Tree) (n : Nat) : (t.atStage n).stage = n := by unfold Tree.atStage; split <;> rfl

/-- A stage of Brew-up begins at the manager. -/
theorem brewupStageStart_manager {s : State} (t10 : Nat) {n : BitVec 4} (low : 1 ≤ n.toNat) (high : n.toNat ≤ 8)
    (manager : s.straps.isManager = true) (ready : s.dev.stageReady s.straps n.toNat = true) :
    ∃ t, exec (.brewupStageStart t10 n) s = .next t ∧ Keeps [.tree] s t ∧ t.dev.tree.stage = n.toNat := by
  have notWorker : ¬ s.straps.isWorker = true := by
    simp only [Straps.isManager, Straps.isWorker, beq_iff_eq] at manager ⊢
    simp [manager]
  have open_ : ¬ (n.toNat = 0 ∨ n.toNat > 8 ∨ ¬ s.dev.stageReady s.straps n.toNat = true) := by
    simp only [ready, not_true_eq_false, or_false]
    omega
  refine ⟨_, (onDev_runs (d := ({ s.dev.advance t10 with tree := (s.dev.advance t10).tree.atStage n.toNat } : Dev).rescanEnds n.toNat) ?_ :
    execBrewupStageStart t10 n s = _),
    keeps_commit (advance_keeps_trans t10 ((setTree_keeps _ _).trans (rescanEnds_keeps _ _))), ?_⟩
  · rw [if_neg open_, if_neg notWorker, Tree.atStage]
    split <;> rfl
  · simp

end Sys2Proof.Machine

open Sys2Proof Sys2Proof.Machine

/-- Settles O12, by the marks of each step and the first source that has not been tried. -/
theorem bootSteps : Obligations.BootSteps := by
  unfold Obligations.BootSteps
  exact fun s t10 time => ⟨fun on => ⟨fun step plan => bootStepEnd_passes_zero time on step plan,
      fun step => bootStepEnd_makes_ready time on step,
      fun step first late => bootStepBoundExpiry_seven on step first late,
      fun step first late => bootStepBoundExpiry_ten on step first late,
      fun step stopped => mainPllLock_runs time on step stopped,
      fun k found step => ⟨fun worker admitted none_ link late => linkImageTimeout_takes time on found step worker admitted none_ link late,
        fun waits late => hostImageTimeout_takes on found waits late⟩⟩,
    fun image admitted way => firmwareMulticastReceived_keeps_image time image admitted way,
    fun n low high manager ready => brewupStageStart_manager t10 low high manager ready⟩
end

section
/-!
PROOFS. Reports of faults (R429 to R434, R436, R438): what the collector counts, where a report's item goes, and what the reaction
of a class changes.
-/
namespace Sys2Proof.Machine

/-! ### What the collector counts -/

/-- The collector but for the hold-off of its corrected-fault events. -/
def Fc.counts (f : Fc) : BitVec 48 × (Bool × Bool × Bool × Bool) × Option Inject × Option Decaf ×
    (Nat → BitVec 16 × BitVec 16 × BitVec 16 × Option Report × Option (BitVec 16 × Nat × BitVec 2)) :=
  (f.lines, (f.c, f.u, f.f, f.self), f.inj, f.decaf, fun k =>
    ((f.perLine.get {} k).c, (f.perLine.get {} k).u, (f.perLine.get {} k).f, (f.perLine.get {} k).first, (f.perLine.get {} k).last))

/-- A line notes the instant of its corrected-fault event. -/
theorem counts_lastC (f : Fc) (line m : Nat) :
    ({ f with perLine := f.perLine.mod {} line fun l => { l with lastC := some m } } : Fc).counts = f.counts := by
  simp only [Fc.counts, Prod.mk.injEq, true_and]
  funext k
  by_cases same : k = line
  · subst same
    rw [Tab.get_mod_self]
  · rw [Tab.get_mod_of_ne _ _ same]

/-- The event of a report leaves a device as it is but for the line's hold-off. -/
theorem faultEvent_dev (d : Dev) (r : Report) (inj : Bool) : ∃ f : Fc, (d.faultEvent r inj).1 = { d with fc := f } ∧
    f.counts = d.fc.counts := by
  unfold Dev.faultEvent
  dsimp only
  split
  · exact ⟨d.fc, rfl, rfl⟩
  · split
    · exact ⟨_, rfl, counts_lastC _ _ _⟩
    · exact ⟨d.fc, rfl, rfl⟩

/-- The FAULT item of a report. -/
def Dev.itemOf (d : Dev) (r : Report) (inj : Bool) : LogItem :=
  { (d.faultEvent r inj).1.logItem 1 r.line.toNat (r.key inj) r.body with
    event := (d.faultEvent r inj).2, inj := inj, injected := inj, injActive := (d.faultEvent r inj).1.fc.inj.isSome && !inj }

/-- While the writer's queue has room, the item of a report joins it. -/
theorem faultItem_pushes {d : Dev} (r : Report) (inj : Bool) (room : (d.log.queue.filter fun x => x.kind == 1).length < 16) :
    ∃ f : Fc, d.faultItem r inj = ({ d with fc := f } : Dev).pushLog (d.itemOf r inj) ∧ f.counts = d.fc.counts := by
  obtain ⟨f, dev, counts⟩ := faultEvent_dev d r inj
  have same : (d.faultEvent r inj).1.log = d.log := by rw [dev]
  refine ⟨f, ?_, counts⟩
  exact (if_pos (by rw [same]; exact room) : d.faultItem r inj = (d.faultEvent r inj).1.pushLog (d.itemOf r inj)).trans
    (congrArg (·.pushLog (d.itemOf r inj)) dev)

/-- The report that the collector takes. -/
def Dev.reportOf (d : Dev) (line cls cause unit detail : Nat) : Report :=
  let r : Report := {
    line := BitVec.ofNat 6 line, cls := BitVec.ofNat 2 cls, cause := BitVec.ofNat 8 cause
    unit := BitVec.ofNat 16 unit, detail := BitVec.ofNat 32 detail, stamp := d.tl.now, epoch := d.tl.epoch }
  { r with cls := (d.fc.perLine.get ({} : FcLine) line).classOf r }

/-- The collector after it has counted a report. -/
def Fc.counting (f : Fc) (line : Nat) (r : Report) : Fc :=
  ({ f with lines := f.lines ||| (1#48 <<< line), perLine := f.perLine.mod {} line (·.counted r) } : Fc).classBit r.cls

theorem classBit_eq (f : Fc) (cls : BitVec 2) : f.classBit cls =
    { f with c := f.c || decide (cls = 0), u := f.u || decide (cls = 1), f := f.f || !(decide (cls = 0) || decide (cls = 1)) } := by
  unfold Fc.classBit
  split_ifs with c u
  · subst c
    simp
  · subst u
    simp
  · rw [decide_eq_false c, decide_eq_false u]
    simp

theorem counting_perLine (f : Fc) (line k : Nat) (r : Report) :
    (f.counting line r).perLine.get {} k = if k = line then (f.perLine.get {} line).counted r else f.perLine.get {} k := by
  rw [Fc.counting, classBit_eq]
  exact Tab.get_set _ _ _ _ _

/-- Without an injection, and with room in the writer's queue, a report is counted and its item queued. -/
theorem collect_counts {d : Dev} (line cls cause unit detail : Nat) (inj : d.fc.inj = none)
    (room : (d.log.queue.filter fun x => x.kind == 1).length < 16) :
    ∃ (f : Fc) (i : LogItem), d.collect line cls cause unit detail = ({ d with fc := f } : Dev).pushLog i ∧
      f.counts = (d.fc.counting line (d.reportOf line cls cause unit detail)).counts := by
  have none_ : (d.fc.counting line (d.reportOf line cls cause unit detail)).inj = none := by
    rw [Fc.counting, classBit_eq]
    exact inj
  obtain ⟨f, item, counts⟩ := faultItem_pushes (d := { d with fc := d.fc.counting line (d.reportOf line cls cause unit detail) })
    (d.reportOf line cls cause unit detail) false room
  refine ⟨f, _, Eq.trans ?_ item, counts⟩
  refine (if_neg ?_ : d.collect line cls cause unit detail = _)
  rintro ⟨-, presented⟩
  change (d.fc.counting line (d.reportOf line cls cause unit detail)).inj.any _ = true at presented
  rw [none_] at presented
  exact absurd presented (by simp)

/-- What the collector's counts say of one line. -/
theorem perLine_of_counts {f g : Fc} (h : f.counts = g.counts) (k : Nat) :
    (f.perLine.get {} k).c = (g.perLine.get {} k).c ∧ (f.perLine.get {} k).first = (g.perLine.get {} k).first := by
  have at_k := congrFun (congrArg (·.2.2.2.2) h) k
  simp only [Fc.counts, Prod.mk.injEq] at at_k
  obtain ⟨c, -, -, first, -⟩ := at_k
  exact ⟨c, first⟩

/-- What the collector's counts say of its bits, its injection and Decaf mode. -/
theorem bits_of_counts {f g : Fc} (h : f.counts = g.counts) : f.lines = g.lines ∧ (f.c = g.c ∧ f.u = g.u ∧ f.f = g.f) ∧
    f.self = g.self ∧ f.inj = g.inj ∧ f.decaf = g.decaf := by
  simp only [Fc.counts, Prod.mk.injEq] at h
  obtain ⟨lines, ⟨c, u, f', self⟩, inj, decaf, -⟩ := h
  exact ⟨lines, ⟨c, u, f'⟩, self, inj, decaf⟩

/-! ### Reports -/

/-- The class of a report stands where its line has no last report (R432). -/
theorem classOf_of_no_last {l : FcLine} (last : l.last = none) (r : Report) : l.classOf r = r.cls := by simp [FcLine.classOf, last]

theorem classNow_of_no_last {d : Dev} {line : Nat} (last : (d.fc.perLine.get {} line).last = none) (cls : BitVec 2) :
    d.classNow line cls.toNat = cls.toNat := by
  rw [Dev.classNow, classOf_of_no_last last, BitVec.ofNat_toNat, BitVec.setWidth_eq]

theorem reportOf_cls {d : Dev} {line : Nat} (last : (d.fc.perLine.get {} line).last = none) (cls : BitVec 2) (cause unit detail : Nat) :
    (d.reportOf line cls.toNat cause unit detail).cls = cls := by
  rw [Dev.reportOf]
  dsimp only
  rw [classOf_of_no_last last, BitVec.ofNat_toNat, BitVec.setWidth_eq]

/-- Without an injection, and with room in the writer's queue, a report has counted and reacts by its class. -/
theorem report_reacts {d : Dev} (line cls cause unit detail : Nat) (inj : d.fc.inj = none)
    (room : (d.log.queue.filter fun x => x.kind == 1).length < 16) :
    ∃ (f : Fc) (i : LogItem), d.report line cls cause unit detail =
        (({ d with fc := f } : Dev).pushLog i).react line (d.classNow line cls) unit 1 ∧
      f.counts = (d.fc.counting line (d.reportOf line cls cause unit detail)).counts := by
  obtain ⟨f, i, dev, counts⟩ := collect_counts line cls cause unit detail inj room
  exact ⟨f, i, congrArg (·.react line (d.classNow line cls) unit 1) dev, counts⟩

/-- The bits that a report sets. -/
theorem counting_bits (f : Fc) (line : Nat) (r : Report) : (f.counting line r).lines = f.lines ||| (1#48 <<< line) ∧
    (f.counting line r).c = (f.c || decide (r.cls = 0)) ∧ (f.counting line r).u = (f.u || decide (r.cls = 1)) ∧
    (f.counting line r).f = (f.f || !(decide (r.cls = 0) || decide (r.cls = 1))) ∧
    (f.counting line r).self = f.self ∧ (f.counting line r).inj = f.inj ∧ (f.counting line r).decaf = f.decaf := by
  rw [Fc.counting, classBit_eq]
  exact ⟨rfl, rfl, rfl, rfl, rfl, rfl, rfl⟩

/-- The collector's part of a report. -/
theorem countedDev_keeps (d : Dev) (f : Fc) (i : LogItem) : SameBut [.fc] d (({ d with fc := f } : Dev).pushLog i) :=
  (setFc_keeps d f).trans (pushLog_keeps _ _ _)

/-- A report of a class that its line may give. -/
theorem errorReport_runs {s : State} (n : Nat) {line : BitVec 6} {cls : BitVec 2} (cause : BitVec 8) (unit : BitVec 16)
    (detail : BitVec 32) (known : cls ≠ 3) (may : (lineClasses line.toNat).testBit cls.toNat = true) :
    exec (.errorReport n line cls cause unit detail) s = .next { s with dev :=
      ((s.dev.advance n).report line.toNat cls.toNat cause.toNat unit.toNat detail.toNat).commit } := by
  refine (onDev_runs ?_ : execErrorReport n line cls cause unit detail s = _)
  rw [if_neg known, if_neg (by simpa using may)]

/-- A corrected fault raises the counter C, and is the first report where there is none. -/
theorem count_corrected (l : FcLine) {r : Report} (cls : r.cls = 0) :
    (l.count r).c = (if l.c = 0xFFFF then 0xFFFF else l.c + 1) ∧ (l.first = none → (l.count r).first = some r) := by
  rw [FcLine.count]
  dsimp only
  rw [if_pos cls]
  refine ⟨?_, fun fresh => by rw [fresh]⟩
  dsimp only
  split_ifs with full
  · exact full
  · rfl

/-- The fields of a report that its cause, its unit and its epoch give. -/
theorem reportOf_fields (d : Dev) (line cls : Nat) (cause : BitVec 8) (unit : BitVec 16) (detail : BitVec 32) :
    (d.reportOf line cls cause.toNat unit.toNat detail.toNat).cause = cause ∧
      (d.reportOf line cls cause.toNat unit.toNat detail.toNat).unit = unit ∧
      (d.reportOf line cls cause.toNat unit.toNat detail.toNat).detail = detail ∧
      (d.reportOf line cls cause.toNat unit.toNat detail.toNat).epoch = d.tl.epoch := by
  simp [Dev.reportOf]

section
variable {s : State} {n : Nat} {line : BitVec 6} {cls : BitVec 2} {cause : BitVec 8} {unit : BitVec 16} {detail : BitVec 32}
  (known : cls ≠ 3) (may : (lineClasses line.toNat).testBit cls.toNat = true) (inj : s.dev.fc.inj = none)
  (room : (s.dev.log.queue.filter fun x => x.kind == 1).length < 16) (last : (s.dev.fc.perLine.get {} line.toNat).last = none)
include known may inj room last

/-- A report on a line without a last one: it is counted in its class, and its reaction follows. -/
theorem errorReport_counts : ∃ (f : Fc) (i : LogItem), exec (.errorReport n line cls cause unit detail) s = .next { s with dev :=
      ((({ s.dev.advance n with fc := f } : Dev).pushLog i).react line.toNat cls.toNat unit.toNat 1).commit } ∧
    f.counts = (s.dev.fc.counting line.toNat
      ((s.dev.advance n).reportOf line.toNat cls.toNat cause.toNat unit.toNat detail.toNat)).counts := by
  obtain ⟨f, i, dev, counts⟩ := report_reacts (d := s.dev.advance n) line.toNat cls.toNat cause.toNat unit.toNat detail.toNat
    (by simpa using inj) (by simpa using room)
  refine ⟨f, i, ?_, by simpa using counts⟩
  rw [errorReport_runs n cause unit detail known may, dev, classNow_of_no_last (by simpa using last)]

omit known may inj room in
/-- A report of class U sets its bit. -/
theorem uncorrected_u {f : Fc} (class_ : cls = 1) (counts : f.counts = (s.dev.fc.counting line.toNat
    ((s.dev.advance n).reportOf line.toNat cls.toNat cause.toNat unit.toNat detail.toNat)).counts) : f.u = true := by
  obtain ⟨-, ⟨-, u, -⟩, -⟩ := bits_of_counts counts
  obtain ⟨-, -, u', -⟩ := counting_bits s.dev.fc line.toNat
    ((s.dev.advance n).reportOf line.toNat cls.toNat cause.toNat unit.toNat detail.toNat)
  rw [u, u', reportOf_cls (by simpa using last), class_]
  simp

/-- A corrected fault is counted, and nothing else happens. -/
theorem errorReport_corrected (class_ : cls = 0) (other : line.toNat < 30 ∨ 33 < line.toNat) :
    ∃ t, exec (.errorReport n line cls cause unit detail) s = .next t ∧
      Keeps [.fc] s t ∧ t.dev.fc.lines = s.dev.fc.lines ||| (1#48 <<< line.toNat) ∧ t.dev.fc.c = true ∧
      t.dev.fc.decaf = s.dev.fc.decaf ∧ (t.dev.fc.perLine.get {} line.toNat).c =
        (if (s.dev.fc.perLine.get {} line.toNat).c = 0xFFFF then 0xFFFF else (s.dev.fc.perLine.get {} line.toNat).c + 1) ∧
      ((s.dev.fc.perLine.get {} line.toNat).first = none → ∃ r, (t.dev.fc.perLine.get {} line.toNat).first = some r ∧
        r.cls = 0 ∧ r.cause = cause ∧ r.unit = unit ∧ r.detail = detail ∧ r.epoch = s.dev.tl.epoch) := by
  obtain ⟨f, i, run, counts⟩ := errorReport_counts (n := n) (cause := cause) (unit := unit) (detail := detail) known may inj room last
  have none_ : (({ s.dev.advance n with fc := f } : Dev).pushLog i).react line.toNat cls.toNat unit.toNat 1 =
      ({ s.dev.advance n with fc := f } : Dev).pushLog i := by
    rw [Dev.react, if_pos (by rw [class_]; rfl), if_neg (by omega)]
  rw [none_] at run
  obtain ⟨lines, ⟨c, -, -⟩, -, -, decaf⟩ := bits_of_counts counts
  obtain ⟨lines', c', -, -, -, -, decaf'⟩ := counting_bits s.dev.fc line.toNat
    ((s.dev.advance n).reportOf line.toNat cls.toNat cause.toNat unit.toNat detail.toNat)
  have cls' := reportOf_cls (d := s.dev.advance n) (line := line.toNat) (by simpa using last) cls cause.toNat unit.toNat detail.toNat
  have fields := reportOf_fields (s.dev.advance n) line.toNat cls.toNat cause unit detail
  obtain ⟨count, first⟩ := perLine_of_counts counts line.toNat
  rw [counting_perLine, if_pos rfl, FcLine.counted, last] at count first
  generalize (s.dev.advance n).reportOf line.toNat cls.toNat cause.toNat unit.toNat detail.toNat = r at *
  obtain ⟨counted, is_first⟩ := count_corrected (s.dev.fc.perLine.get {} line.toNat) (cls'.trans class_)
  refine ⟨_, run, keeps_commit (advance_keeps_trans n (countedDev_keeps _ f i)), ?_, ?_, ?_, ?_, ?_⟩ <;> dsimp only <;> rw [commit_fc]
  · exact lines.trans lines'
  · exact c.trans (c'.trans (by rw [cls', class_]; simp))
  · exact decaf.trans decaf'
  · exact count.trans counted
  · intro fresh
    obtain ⟨cause', unit', detail', epoch⟩ := fields
    exact ⟨r, first.trans (is_first fresh), cls'.trans class_, cause', unit', detail', epoch.trans (Dev.advance_tl_epoch _ _)⟩

/-- An uncorrected fault of the journal makes its copy void. -/
theorem errorReport_journal (class_ : cls = 1) (journal : line = 45) :
    ∃ t, exec (.errorReport n line cls cause unit detail) s = .next t ∧
      Keeps [.fc, .journal] s t ∧ t.dev.journal.valid = false ∧ t.dev.fc.u = true := by
  obtain ⟨f, i, run, counts⟩ := errorReport_counts (n := n) (cause := cause) (unit := unit) (detail := detail) known may inj room last
  have u := uncorrected_u (n := n) (cause := cause) (unit := unit) (detail := detail) last class_ counts
  subst class_ journal
  refine ⟨_, run, keeps_commit (advance_keeps_trans n ?_), ?_, ?_⟩
  · exact ((countedDev_keeps _ f i).mono (by simp)).trans ((setJournal_keeps _ _).mono (by simp))
  · rw [commit_journal]
    rfl
  · rw [commit_fc]
    exact u

/-- An uncorrected fault of a housekeeping channel makes the channel invalid. -/
theorem errorReport_housekeeping (class_ : cls = 1) (hk : line = 38) (range : unit.toNat < 128) :
    ∃ t, exec (.errorReport n line cls cause unit detail) s = .next t ∧
      Keeps [.fc, .hk] s t ∧ (t.dev.hk.ch.get {} unit.toNat).invalid = true ∧ t.dev.fc.u = true := by
  obtain ⟨f, i, run, counts⟩ := errorReport_counts (n := n) (cause := cause) (unit := unit) (detail := detail) known may inj room last
  have u := uncorrected_u (n := n) (cause := cause) (unit := unit) (detail := detail) last class_ counts
  subst class_ hk
  have one : unitsOf unit.toNat 128 = [unit.toNat] := by
    rw [unitsOf, if_neg (by omega), if_pos range]
  have invalid : ∀ e : Dev, e.react 38 1 unit.toNat 1 =
      { e with hk := { e.hk with ch := e.hk.ch.mod {} unit.toNat fun h => { h with invalid := true } } } := fun e => by
    show (unitsOf unit.toNat 128).foldl _ e = _
    rw [one]
    rfl
  rw [show (38 : BitVec 6).toNat = 38 from rfl, show (1 : BitVec 2).toNat = 1 from rfl, invalid] at run
  refine ⟨_, run, keeps_commit (advance_keeps_trans n ?_), ?_, ?_⟩
  · exact ((countedDev_keeps _ f i).mono (by simp)).trans ((setHk_keeps _ _).mono (by simp))
  · rw [commit_hk]
    exact congrArg HkCh.invalid (Tab.get_mod_self ..)
  · rw [commit_fc]
    exact u
end

/-! ### Reports in Decaf mode -/

theorem message_keeps (l : List Part) (d : Dev) (v : Nat) : SameBut l d (d.message v) :=
  sameBut_of_core (core_of_quiet (message_quiet d v)) l

/-- A device that is in Decaf mode does not enter it again. -/
theorem enterDecaf_of_decaf {d : Dev} (decaf : d.fc.decaf.isSome = true) (cause line : Nat) (noRamp : Bool) :
    d.enterDecaf cause line noRamp = d := if_pos decaf

/-- In Decaf mode the reaction of a fatal fault is the interrupt alone. -/
theorem react_fatal_of_decaf {d : Dev} (decaf : d.fc.decaf.isSome = true) (line unit cause : Nat) {cls : Nat} (fatal : 2 ≤ cls) :
    d.react line cls unit cause = d.message 63 := by
  rw [Dev.react, if_neg (by omega), if_neg (by omega), enterDecaf_of_decaf (by simpa using decaf)]

/-- A fatal report is of class F, or of the class of the last report on its line (R432). -/
theorem classNow_fatal (d : Dev) (line : Nat) : 2 ≤ d.classNow line 2 := by
  have lt : ∀ c : BitVec 2, (2 : BitVec 2) < c → 2 ≤ c.toNat := by decide
  rw [Dev.classNow, FcLine.classOf]
  split
  · split_ifs with later
    · exact lt _ later.2.2
    · exact le_rfl
  · exact le_rfl

/-- A fatal report in Decaf mode changes the collector alone. -/
theorem report_fatal_of_decaf {d : Dev} (line cause unit detail : Nat) (decaf : d.fc.decaf.isSome = true) (inj : d.fc.inj = none)
    (room : (d.log.queue.filter fun x => x.kind == 1).length < 16) : SameBut [.fc] d (d.report line 2 cause unit detail) ∧
    (d.report line 2 cause unit detail).fc.lines = d.fc.lines ||| (1#48 <<< line) ∧
    (d.report line 2 cause unit detail).fc.decaf = d.fc.decaf ∧
    ((d.fc.perLine.get {} line).last = none → (d.report line 2 cause unit detail).fc.f = true) := by
  obtain ⟨f, i, dev, counts⟩ := report_reacts line 2 cause unit detail inj room
  obtain ⟨lines, ⟨-, -, fatal⟩, -, -, same⟩ := bits_of_counts counts
  obtain ⟨lines', -, -, fatal', -, -, same'⟩ := counting_bits d.fc line (d.reportOf line 2 cause unit detail)
  have still : (({ d with fc := f } : Dev).pushLog i).fc.decaf.isSome = true := (congrArg Option.isSome (same.trans same')).trans decaf
  rw [react_fatal_of_decaf still line unit 1 (classNow_fatal d line)] at dev
  rw [dev]
  refine ⟨(countedDev_keeps d f i).trans (message_keeps _ _ 63), lines.trans lines', same.trans same', fun last => ?_⟩
  have cls := reportOf_cls last (2 : BitVec 2) cause unit detail
  refine fatal.trans (fatal'.trans ?_)
  rw [show d.reportOf line 2 cause unit detail = d.reportOf line (2 : BitVec 2).toNat cause unit detail from rfl, cls]
  simp

section
variable {s : State} (decaf : s.dev.fc.decaf.isSome = true) (inj : s.dev.fc.inj = none)
  (room : (s.dev.log.queue.filter fun x => x.kind == 1).length < 16) (n : Nat)
include decaf inj room

theorem errorReport_in_decaf (cause : BitVec 8) (unit : BitVec 16) (detail : BitVec 32) (last : (s.dev.fc.perLine.get {} 41).last = none) :
    ∃ t, exec (.errorReport n 41 2 cause unit detail) s = .next t ∧ Keeps [.fc] s t ∧ t.dev.fc.f = true ∧
      t.dev.fc.lines.getLsbD 41 = true ∧ t.dev.fc.decaf = s.dev.fc.decaf := by
  obtain ⟨frame, lines, same, fatal⟩ := report_fatal_of_decaf (d := s.dev.advance n) 41 cause.toNat unit.toNat detail.toNat
    (by simpa using decaf) (by simpa using inj) (by simpa using room)
  refine ⟨_, errorReport_runs n cause unit detail (by decide) (by decide), keeps_commit (advance_keeps_trans n frame), ?_, ?_, ?_⟩ <;>
    dsimp only <;> rw [commit_fc]
  · exact fatal (by simpa using last)
  · refine (congrArg (·.getLsbD 41) lines).trans ?_
    simp
  · exact same.trans (by simp)

omit inj room in
/-- A fault of the collector's own registers is noted in the collector. -/
theorem errorReport_self (cause : BitVec 8) (unit : BitVec 16) (detail : BitVec 32) :
    ∃ t, exec (.errorReport n 5 3 cause unit detail) s = .next t ∧ Keeps [.fc] s t ∧
      t.dev.fc.self = true ∧ t.dev.fc.decaf = s.dev.fc.decaf := by
  have self : (s.dev.advance n).selfFault = ({ s.dev.advance n with fc := { (s.dev.advance n).fc with self := true } } : Dev).pushLog
      (({ s.dev.advance n with fc := { (s.dev.advance n).fc with self := true } } : Dev).logItem 1 0xFF [0xFF, 3, 2, 0xFFFF, 0]
        [3, 2, 0xFFFF, 0]) := enterDecaf_of_decaf (by simpa using decaf) _ _ _
  refine ⟨_, (onDev_runs ((if_pos rfl).trans self) : execErrorReport n 5 3 cause unit detail s = _),
    keeps_commit (advance_keeps_trans n (countedDev_keeps _ _ _)), ?_, ?_⟩
  · rw [commit_fc]
    rfl
  · rw [commit_fc]
    exact (congrArg Fc.decaf (Dev.advance_fc s.dev n) :)

theorem watchdogExpiry_in_decaf (core : Bool) (firmware : s.dev.boot.firmware = true) :
    ∃ t, exec (.watchdogExpiry n core) s = .next t ∧ Keeps [.fc] s t ∧
      t.dev.fc.lines.getLsbD (if core then 25 else 24) = true ∧ t.dev.fc.decaf = s.dev.fc.decaf := by
  obtain ⟨frame, lines, same, -⟩ := report_fatal_of_decaf (d := s.dev.advance n) (24 + bit core) 4 0xFFFF 0
    (by simpa using decaf) (by simpa using inj) (by simpa using room)
  refine ⟨_, (onDev_runs (if_neg (by simp [firmware])) : execWatchdogExpiry n core s = _),
    keeps_commit (advance_keeps_trans n frame), ?_, ?_⟩ <;> dsimp only <;> rw [commit_fc]
  · rw [lines]
    cases core <;> simp [bit]
  · exact same.trans (by simp)
end

end Sys2Proof.Machine

open Sys2Proof Sys2Proof.Machine

/-- Settles O22, by what the collector counts and what the reaction of a class changes. -/
theorem faultReports : Obligations.FaultReports := by
  unfold Obligations.FaultReports
  exact ⟨fun s n line cls cause unit detail known may inj room last =>
      ⟨fun class_ other => errorReport_corrected known may inj room last class_ other,
        fun class_ journal => errorReport_journal known may inj room last class_ journal,
        fun class_ hk range => errorReport_housekeeping known may inj room last class_ hk range⟩,
    fun s n decaf inj room => ⟨fun cause unit detail last => errorReport_in_decaf decaf inj room n cause unit detail last,
      fun cause unit detail => errorReport_self decaf n cause unit detail,
      fun core firmware => watchdogExpiry_in_decaf decaf inj room n core firmware⟩⟩
end

section
/-!
PROOFS. Injected faults (R437, R438): FC.INJECT waits for its stamp, and the report that it injects is an item of the log alone.
-/
namespace Sys2Proof.Machine

/-! ### The log's writer through a commit -/

/-- What an operation of the commit does to the queue of the log's writer: it may add to it. -/
def Dev.queues (a b : Dev) : Prop := a.log.queue <+: b.log.queue

theorem queues_of_log {a b : Dev} (h : b.log.queue = a.log.queue) : a.queues b := by rw [Dev.queues, h]

theorem Dev.queues.trans {a b c : Dev} (h : a.queues b) (k : b.queues c) : a.queues c := List.IsPrefix.trans h k

theorem queues_foldl {α : Type} {f : Dev → α → Dev} (h : ∀ (d : Dev) x, d.queues (f d x)) (l : List α) (d : Dev) : d.queues (l.foldl f d) :=
  List.foldlRecOn (motive := fun b => d.queues b) l f (queues_of_log rfl) fun b k x _ => k.trans (h b x)

theorem queues_forEach {f : Nat → Dev → Dev} (h : ∀ i (d : Dev), d.queues (f i d)) (l : List Nat) (d : Dev) : d.queues (forEach l f d) :=
  queues_foldl (fun d i => h i d) l d

/-- A sequence number that comes round is noted in the log (R25). -/
theorem takeSeq_queues (d : Dev) : d.queues d.takeSeq := by
  unfold Dev.takeSeq
  dsimp only
  split
  · exact List.prefix_append _ _
  · exact queues_of_log rfl

theorem ownSeq_queues (d : Dev) (has : Bool) : d.queues (if has then d else d.takeSeq) := by
  cases has
  · exact takeSeq_queues d
  · exact queues_of_log rfl

theorem signal_queue (d : Dev) (v : Nat) : (d.signal v).log.queue = d.log.queue := by
  unfold Dev.signal
  dsimp only
  split
  · rw [Dev.message_log]
  · rfl

theorem ringEvt_queues (d : Dev) (e : Evt) : d.queues (d.ringEvt e) := by
  have written := ownSeq_queues d e.fwd
  rw [Dev.queues, Dev.ringEvt, signal_queue]
  exact written

theorem commitEvt_queues (d : Dev) (e : Evt) : d.queues (d.commitEvt e) := by
  unfold Dev.commitEvt
  dsimp only
  split_ifs
  · exact ownSeq_queues d e.fwd
  · exact ringEvt_queues d e
  · exact queues_of_log rfl
  · exact queues_of_log rfl

theorem ringCpl_queues (d : Dev) (c : Cpl) : d.queues (d.ringCpl c) := by
  have written := ownSeq_queues d (if c.fwd then c else d.stampCpl c).fwd
  rw [Dev.queues, Dev.ringCpl, signal_queue]
  exact written

theorem commitCpl_queues (d : Dev) (o : Origin) (c : Cpl) : d.queues (d.commitCpl o c) := by
  unfold Dev.commitCpl
  cases o with
  | ring =>
    dsimp only
    split_ifs
    · exact ringCpl_queues d c
    · exact queues_of_log rfl
    · exact queues_of_log rfl
  | tree => exact takeSeq_queues d
  | recovery => exact takeSeq_queues d

theorem pumpOne_queues (d : Dev) (p : Nat) : d.queues (d.pumpOne p) := by
  unfold Dev.pumpOne
  split
  · exact queues_of_log rfl
  · dsimp only
    split
    · exact takeSeq_queues d
    · exact queues_of_log rfl

theorem pump_queues (n : Nat) (d : Dev) : d.queues (d.pump n) := by
  fun_induction Dev.pump n d with
  | case1 => exact queues_of_log rfl
  | case2 n d ih => exact (queues_forEach (fun p d => pumpOne_queues d p) _ d).trans ih

theorem marks_queues (d : Dev) : d.queues { d with cap := d.cap.marks d.mono } := queues_of_log rfl

theorem commitPackets_queues (d : Dev) (ps : List Packet) : d.queues (d.commitPackets ps) := by
  have staged : ∀ (d : Dev) (p : Packet), d.queues (d.stage p) := fun d p => by
    unfold Dev.stage
    split <;> exact queues_of_log rfl
  unfold Dev.commitPackets
  generalize List.range 17 = producers
  dsimp only
  refine Dev.queues.trans (queues_forEach (fun k d => ?_) _ _) ((pump_queues 8 _).trans (marks_queues _))
  exact queues_foldl (fun d p => (staged d p).trans (pump_queues 1 _)) _ d

theorem sendLinks_queues (d : Dev) (l : List LinkMsg) : d.queues (d.sendLinks l) := by
  unfold Dev.sendLinks
  dsimp only
  refine Dev.queues.trans (queues_foldl (fun d m => ?_) _ _) (queues_forEach (fun p d => ?_) _ _)
  · exact queues_of_log rfl
  · split <;> exact queues_of_log rfl

/-- What waits for the log's writer waits still after a commit. -/
theorem commit_queues (d : Dev) : d.queues d.commit := by
  have settled : d.queues d.settleEpoch := queues_of_log rfl
  unfold Dev.commit
  dsimp only
  refine settled.trans (Dev.queues.trans ?_ ((commitPackets_queues _ _).trans (sendLinks_queues _ _)))
  refine Dev.queues.trans ?_ (queues_foldl (fun d f => ?_) _ _)
  · refine Dev.queues.trans ?_ (queues_foldl (fun d (c : Origin × Cpl) => commitCpl_queues d c.1 c.2) _ _)
    refine Dev.queues.trans ?_ (queues_foldl commitEvt_queues _ _)
    exact queues_of_log rfl
  · split
    · exact commitCpl_queues d _ _
    · exact queues_of_log rfl

/-! ### FC.INJECT -/

@[simp] theorem takenUp_fc (d : Dev) (h : Hdr) (op : BitVec 16) : (d.takenUp h op).fc = d.fc := by simp [Dev.takenUp]

/-- FC.INJECT of a good word is accepted, and its injection waits for its stamp. -/
theorem fcInject_waits {s : State} {h : Hdr} {w : When} {word : BitVec 64} {e : BitVec 16} {st : Nat} {late : Bool} (i : Idle s h)
    (good : injGood word = true) (free : s.dev.fc.inj = none) (place : (s.dev.advance h.t).schedule w clk false = .ok (e, st, late)) :
    ∃ t, exec (.fcInject h w word) s = .next t ∧ Keeps [.fc, .tl] s t ∧ Waits s t h 0x0D02 ∧
      t.dev.fc = { s.dev.fc with inj := some { tag := some h.tag, word := word, since := st } } := by
  have placed := (schedule_of_tl (takenUp_tl s.dev h 0x0D02) w clk false).trans place
  have act := addAct_keeps ((s.dev.takenUp h 0x0D02).accept h.tag) { tag := h.tag, kind := .inject, epoch := e, stamp := st }
  have acted := (accept_keeps [.tl] (s.dev.takenUp h 0x0D02) h.tag).trans act
  refine ⟨_, hostCmd_runs i 0x0D02 (d := { ((s.dev.takenUp h 0x0D02).accept h.tag).addAct
      { tag := h.tag, kind := .inject, epoch := e, stamp := st } with
        fc := { s.dev.fc with inj := some { tag := some h.tag, word := word, since := st } } }) ?_,
    keeps_of_takenUp (by decide) ((acted.mono (by simp)).trans ((setFc_keeps _ _).mono (by simp))),
    waits_of_accepted i 0x0D02 [] ?_, by rw [commit_fc]⟩
  · simp only [good, placed, takenUp_fc, free]
    simp
  · rw [accept_ctl, takenUp_ctl i]
    simp [accept_ctl, takenUp_ctl i, i.jobs]

/-! ### The injected report -/

/-- The device on which the injection has been presented. -/
def Dev.presented (d : Dev) (i : Inject) : Dev := { d with fc := { d.fc with inj := some { i with presented := true } } }

/-- The report that an injection presents. -/
def Dev.injReport (d : Dev) (i : Inject) : Report :=
  { line := BitVec.ofNat 6 (injLine i.word), cls := BitVec.ofNat 2 (injClass i.word), cause := BitVec.ofNat 8 (injCause i.word)
    unit := BitVec.ofNat 16 (injUnit i.word), stamp := d.tl.now, epoch := d.tl.epoch }

/-- An injected report without ACT goes to the log's writer, and does nothing else. -/
theorem injectedReport_logs {s : State} {i : Inject} (rewind : s.dev.tl.rewind = none) (inj : s.dev.fc.inj = some i)
    (waits : i.presented = false) (register : i.tag = none) (inert : i.word.getLsbD 32 = false)
    (room : (s.dev.log.queue.filter fun x => x.kind == 1).length < 16) :
    ∃ t, exec .injectedReport s = .next t ∧ Keeps [.fc] s t ∧ t.dev.fc.inj = some { i with presented := true } ∧
      t.dev.fc.lines = s.dev.fc.lines ∧ t.dev.fc.u = s.dev.fc.u ∧ t.dev.fc.f = s.dev.fc.f ∧ t.dev.fc.decaf = s.dev.fc.decaf ∧
      ∃ x ∈ t.dev.log.queue, x.kind = 1 ∧ x.sub.toNat = injLine i.word ∧ x.injected = true ∧ x.inj = true := by
  generalize hr : ((s.dev.advance i.since).presented i).injReport i = r
  obtain ⟨f, item, counts⟩ := faultItem_pushes (d := (s.dev.advance i.since).presented i) r true
    (by simpa [Dev.presented] using room)
  obtain ⟨lines, ⟨-, u, f'⟩, -, same, decaf⟩ := bits_of_counts counts
  have frame : SameBut [.fc] s.dev ((s.dev.advance i.since).presented i |>.faultItem r true) := by
    rw [item]
    exact advance_keeps_trans i.since ((setFc_keeps _ _).trans ((setFc_keeps _ f).trans (pushLog_keeps _ _ _)))
  refine ⟨_, (onDev_runs (d := ((s.dev.advance i.since).presented i).faultItem r true) ?_ : execInjectedReport s = _),
    keeps_commit frame, ?_, ?_, ?_, ?_, ?_, ?_⟩
  · obtain ⟨tag, word, since, presented⟩ := i
    obtain rfl : tag = none := register
    obtain rfl : presented = false := waits
    simp only [inj, due_of_no_rewind rewind, inert, Bool.false_and, Bool.false_eq_true, if_false]
    subst hr
    rfl
  · rw [commit_fc, item]
    exact same
  · rw [commit_fc, item]
    exact lines.trans (congrArg Fc.lines (Dev.advance_fc s.dev i.since) :)
  · rw [commit_fc, item]
    exact u.trans (congrArg Fc.u (Dev.advance_fc s.dev i.since) :)
  · rw [commit_fc, item]
    exact f'.trans (congrArg Fc.f (Dev.advance_fc s.dev i.since) :)
  · rw [commit_fc, item]
    exact decaf.trans (congrArg Fc.decaf (Dev.advance_fc s.dev i.since) :)
  · have kept := (commit_queues (((s.dev.advance i.since).presented i).faultItem r true)).subset
    dsimp only
    refine ⟨((s.dev.advance i.since).presented i).itemOf r true, kept ?_, rfl, ?_, rfl, rfl⟩
    · rw [item]
      exact List.mem_append_right _ (List.mem_singleton_self _)
    · have line : r.line.toNat = injLine i.word := by
        rw [← hr]
        exact Nat.mod_eq_of_lt (Nat.mod_lt _ (by decide))
      refine (Nat.mod_eq_of_lt ?_).trans line
      exact lt_trans r.line.isLt (by decide)

end Sys2Proof.Machine

open Sys2Proof Sys2Proof.Machine

/-- Settles O23, by the scheduled action of FC.INJECT and the item of the report that it injects. -/
theorem injection : Obligations.Injection := by
  unfold Obligations.Injection
  exact ⟨fun s h w word e st late i good free place => fcInject_waits i good free place,
    fun s i rewind inj waits register inert room => injectedReport_logs rewind inj waits register inert room⟩
end

section
/-!
PROOFS. What the operations on channels, PMUs, threads, rings, TDCs, Metrology Units and commands leave alone: the collector, the
tree, housekeeping, the flash port and the microcode store. One lemma for each operation, in the order of the model.
-/
namespace Sys2Proof.Machine

/-- The collector, the tree, housekeeping, the flash port and the microcode store. -/
def Dev.station (d : Dev) : Fc × Tree × Hk × Flash × Uc := (d.fc, d.tree, d.hk, d.flash, d.uc)

@[simp] theorem station_mk (tl pins banks seq uc pat cap dsp mi cal ctl regs tree boot fc log hk flash board journal latch free) :
    (Dev.mk tl pins banks seq uc pat cap dsp mi cal ctl regs tree boot fc log hk flash board journal latch free).station =
      (fc, tree, hk, flash, uc) := rfl

@[simp] theorem station_eta (d : Dev) : (d.fc, d.tree, d.hk, d.flash, d.uc) = d.station := rfl

theorem station_of {a b : Dev} (fc : b.fc = a.fc) (tree : b.tree = a.tree) (hk : b.hk = a.hk) (flash : b.flash = a.flash)
    (uc : b.uc = a.uc) : b.station = a.station := by
  rw [Dev.station, fc, tree, hk, flash, uc, Dev.station]

@[simp] theorem foldl_station {α : Type} {f : Dev → α → Dev} (h : ∀ d x, (f d x).station = d.station) (l : List α) (d : Dev) :
    (l.foldl f d).station = d.station := foldl_leaves Dev.station h l d
@[simp] theorem forEach_station {f : Nat → Dev → Dev} (h : ∀ i d, (f i d).station = d.station) (l : List Nat) (d : Dev) :
    (forEach l f d).station = d.station := forEach_leaves Dev.station h l d

/-! ### Operations of the state -/

@[simp] theorem ite_station {c : Prop} [Decidable c] (a b : Dev) : (if c then a else b).station = if c then a.station else b.station :=
  apply_ite Dev.station c a b
@[simp] theorem finish_station (d : Dev) (g : Tag) (c : Cpl) : (d.finish g c).station = d.station :=
  station_of (by simp) (by simp) (by simp) (by simp) (by simp)
@[simp] theorem settleJob_station (d : Dev) (g : Tag) : (d.settleJob g).station = d.station :=
  station_of (by simp) (by simp) (by simp) (by simp) (by simp)
@[simp] theorem endUnitAt_station (d : Dev) (g : Tag) (u z : Nat) : (d.endUnitAt g u z).station = d.station :=
  station_of (by simp) (by simp) (by simp) (by simp) (by simp)
@[simp] theorem endUnit_station (d : Dev) (g : Tag) (u : Nat) : (d.endUnit g u).station = d.station :=
  station_of (by simp) (by simp) (by simp) (by simp) (by simp)
@[simp] theorem replaceUnit_station (d : Dev) (g : Tag) (u : Nat) : (d.replaceUnit g u).station = d.station :=
  station_of (by simp) (by simp) (by simp) (by simp) (by simp)
@[simp] theorem cutUnit_station (d : Dev) (g : Tag) (u : Nat) : (d.cutUnit g u).station = d.station :=
  station_of (by simp) (by simp) (by simp) (by simp) (by simp)
@[simp] theorem abortJob_station (d : Dev) (g : Tag) : (d.abortJob g).station = d.station :=
  station_of (by simp) (by simp) (by simp) (by simp) (by simp)
@[simp] theorem postAt_station (d : Dev) (a b : Nat) (l : List Int) (e : BitVec 16) (t : Nat) (q : BitVec 4) : (d.postAt a b l e t q).station = d.station :=
  station_of (by simp) (by simp) (by simp) (by simp) (by simp)
@[simp] theorem post_station (d : Dev) (a b : Nat) (l : List Int) : (d.post a b l).station = d.station :=
  station_of (by simp) (by simp) (by simp) (by simp) (by simp)
@[simp] theorem advance_station (d : Dev) (t : Nat) : (d.advance t).station = d.station :=
  station_of (by simp) (by simp) (by simp) (by simp) (by simp)
@[simp] theorem accept_station (d : Dev) (g : Tag) : (d.accept g).station = d.station := (rfl)
@[simp] theorem modJob_station (d : Dev) (g : Tag) (f : Job → Job) : (d.modJob g f).station = d.station := (rfl)
@[simp] theorem dropJob_station (d : Dev) (g : Tag) : (d.dropJob g).station = d.station := (rfl)
@[simp] theorem openJob_station (d : Dev) (j : Job) : (d.openJob j).station = d.station := (rfl)
@[simp] theorem packet_station (d : Dev) (p : Packet) : (d.packet p).station = d.station := (rfl)
@[simp] theorem linkOut_station (d : Dev) (m : LinkMsg) : (d.linkOut m).station = d.station := (rfl)
@[simp] theorem dropActs_station (d : Dev) (g : Tag) : (d.dropActs g).station = d.station := (rfl)
@[simp] theorem dropAct_station (d : Dev) (g : Tag) (k : ActKind) : (d.dropAct g k).station = d.station := (rfl)
@[simp] theorem addAct_station (d : Dev) (a : Act) : (d.addAct a).station = d.station := (rfl)
@[simp] theorem message_station (d : Dev) (v : Nat) : (d.message v).station = d.station := (rfl)
@[simp] theorem pushLog_station (d : Dev) (i : LogItem) : (d.pushLog i).station = d.station := (rfl)
@[simp] theorem modChan_station (d : Dev) (i : Nat) (f : Chan → Chan) : (d.modChan i f).station = d.station := (rfl)
@[simp] theorem modPmu_station (d : Dev) (i : Nat) (f : Pmu → Pmu) : (d.modPmu i f).station = d.station := (rfl)
@[simp] theorem modBank_station (d : Dev) (i : Nat) (f : Bank → Bank) : (d.modBank i f).station = d.station := (rfl)
@[simp] theorem modThread_station (d : Dev) (i : Nat) (f : Thread → Thread) : (d.modThread i f).station = d.station := (rfl)
@[simp] theorem modLane_station (d : Dev) (i : Nat) (f : Lane → Lane) : (d.modLane i f).station = d.station := (rfl)
@[simp] theorem modRing_station (d : Dev) (i j : Nat) (f : Ring → Ring) : (d.modRing i j f).station = d.station := (rfl)
@[simp] theorem modTdc_station (d : Dev) (i j : Nat) (f : Tdc → Tdc) : (d.modTdc i j f).station = d.station := (rfl)
@[simp] theorem modTile_station (d : Dev) (i j : Nat) (f : Tile → Tile) : (d.modTile i j f).station = d.station := (rfl)
@[simp] theorem modPte_station (d : Dev) (i : Nat) (f : Pte → Pte) : (d.modPte i f).station = d.station := (rfl)
@[simp] theorem modMu_station (d : Dev) (i : Nat) (f : Mu → Mu) : (d.modMu i f).station = d.station := (rfl)
@[simp] theorem modXt_station (d : Dev) (i : Nat) (f : Xt → Xt) : (d.modXt i f).station = d.station := (rfl)
@[simp] theorem modEntry_station (d : Dev) (k : Nat) (f : JEntry → JEntry) : (d.modEntry k f).station = d.station := (rfl)
@[simp] theorem copyJournal_station (d : Dev) : d.copyJournal.station = d.station := by unfold Dev.copyJournal; split <;> rfl

@[simp] theorem fresh_station (d : Dev) : d.fresh.2.station = d.station := (rfl)

/-! ### Runs, rings and their records -/

@[simp] theorem packets_station (d : Dev) (ps : List Packet) : (d.packets ps).station = d.station := by
  unfold Dev.packets
  simp

@[simp] theorem endRun_station (d : Dev) (b : Nat) (halted cut : Bool) (st : BitVec 4) (stay : Bool) :
    (d.endRun b halted cut st stay).station = d.station := by
  unfold Dev.endRun
  (repeat' split) <;> simp

@[simp] theorem interruptTap_station (d : Dev) (b : Nat) (tdc : Bool) (src : Nat) :
    (d.interruptTap b tdc src).station = d.station := by
  unfold Dev.interruptTap
  (repeat' split) <;> simp

@[simp] theorem askRun_station (d : Dev) (b r stamp : Nat) : (d.askRun b r stamp).station = d.station := by
  unfold Dev.askRun
  (repeat' split) <;> simp

@[simp] theorem cutRuns_station (d : Dev) : d.cutRuns.station = d.station := by
  unfold Dev.cutRuns
  simp

@[simp] theorem closeRec_station (d : Dev) (b r ended : Nat) (f : Rec → Rec) :
    (d.closeRec b r ended f).station = d.station := by
  unfold Dev.closeRec
  dsimp only
  (repeat' split) <;> simp

@[simp] theorem freeRingTdcs_station (d : Dev) (b r : Nat) : (d.freeRingTdcs b r).station = d.station := by
  unfold Dev.freeRingTdcs
  simp

@[simp] theorem ringStop_station (d : Dev) (b r : Nat) (st : BitVec 4) : (d.ringStop b r st).station = d.station := by
  unfold Dev.ringStop
  simp

@[simp] theorem commitHeader_station (d : Dev) (b r : Nat) : (d.commitHeader b r).station = d.station := by
  unfold Dev.commitHeader
  dsimp only
  (repeat' split) <;> simp

@[simp] theorem interruptRec_station (d : Dev) (b r t : Nat) : (d.interruptRec b r t).station = d.station := by
  unfold Dev.interruptRec
  simp

@[simp] theorem idleRings_station (d : Dev) (t : Nat) : (d.idleRings t).station = d.station := by
  unfold Dev.idleRings
  simp

@[simp] theorem abortRingsIf_station (d : Dev) (p : Ring → Bool) : (d.abortRingsIf p).station = d.station := by
  unfold Dev.abortRingsIf
  simp

@[simp] theorem abortRings_station (d : Dev) : d.abortRings.station = d.station := by
  unfold Dev.abortRings
  simp

/-! ### PMUs -/

@[simp] theorem pmuEnd_station (d : Dev) (tag : Option Tag) (ch : Nat) (rep : Bool) :
    (d.pmuEnd tag ch rep).station = d.station := by
  unfold Dev.pmuEnd
  (repeat' split) <;> simp

@[simp] theorem pmuCut_station (d : Dev) (tag : Option Tag) (ch : Nat) : (d.pmuCut tag ch).station = d.station := by
  unfold Dev.pmuCut
  (repeat' split) <;> simp

@[simp] theorem pmuResult_station (d : Dev) (ch : Nat) (m : Meas) (n : Nat) (cut poison : Bool) :
    (d.pmuResult ch m n cut poison).station = d.station := by
  unfold Dev.pmuResult
  simp

@[simp] theorem endFeed_station (d : Dev) (m : Meas) : (d.endFeed m).station = d.station := by
  unfold Dev.endFeed
  (repeat' split) <;> simp

@[simp] theorem cutMeas_station (d : Dev) (ch : Nat) (poison : Bool) : (d.cutMeas ch poison).station = d.station := by
  unfold Dev.cutMeas
  (repeat' split) <;> simp

@[simp] theorem cutWave_station (d : Dev) (ch : Nat) (poison : Bool) : (d.cutWave ch poison).station = d.station := by
  unfold Dev.cutWave
  (repeat' split) <;> simp

@[simp] theorem saveWear_station (d : Dev) : d.saveWear.station = d.station := by
  unfold Dev.saveWear
  simp

@[simp] theorem countClosure_station (d : Dev) (ch : Nat) : (d.countClosure ch).station = d.station := by
  unfold Dev.countClosure
  simp

@[simp] theorem setStep_station (d : Dev) (ch : Nat) (st : SeqStep) (t len : Nat) :
    (d.setStep ch st t len).station = d.station := (rfl)

@[simp] theorem parkDone_station (d : Dev) (ch : Nat) : (d.parkDone ch).station = d.station := by
  unfold Dev.parkDone
  simp

@[simp] theorem enterC_station (d : Dev) (ch t : Nat) : (d.enterC ch t).station = d.station := by
  unfold Dev.enterC
  (repeat' split) <;> simp

@[simp] theorem enterB_station (d : Dev) (ch t : Nat) : (d.enterB ch t).station = d.station := by
  unfold Dev.enterB
  simp

@[simp] theorem enterA_station (d : Dev) (ch t : Nat) : (d.enterA ch t).station = d.station := by
  unfold Dev.enterA
  simp

@[simp] theorem keepForce_station (d : Dev) (ch : Nat) (c : PmuChange) : (d.keepForce ch c).station = d.station := by
  unfold Dev.keepForce
  simp

@[simp] theorem beginSeq_station (d : Dev) (ch t : Nat) (c : PmuChange) : (d.beginSeq ch t c).station = d.station := by
  unfold Dev.beginSeq
  simp

@[simp] theorem beginDisconnect_station (d : Dev) (ch t : Nat) (c : PmuChange) :
    (d.beginDisconnect ch t c).station = d.station := by
  unfold Dev.beginDisconnect
  (repeat' split) <;> simp

@[simp] theorem endDisconnect_station (d : Dev) (ch : Nat) : (d.endDisconnect ch).station = d.station := by
  unfold Dev.endDisconnect
  (repeat' split) <;> simp

@[simp] theorem hasten_station (d : Dev) (ch : Nat) : (d.hasten ch).station = d.station := by
  unfold Dev.hasten
  simp

@[simp] theorem endClock_station (d : Dev) (chs : List Nat) : (d.endClock chs).station = d.station := by
  unfold Dev.endClock
  simp

@[simp] theorem shutPmu_station (d : Dev) (ch : Nat) (off poison : Bool) : (d.shutPmu ch off poison).station = d.station := by
  unfold Dev.shutPmu
  simp

@[simp] theorem losePmu_station (d : Dev) (ch : Nat) : (d.losePmu ch).station = d.station := by
  unfold Dev.losePmu
  dsimp only
  (repeat' split) <;> simp

/-! ### Metrology Units -/

@[simp] theorem muEnd_station (d : Dev) (tag : Option Tag) (u : Nat) (rep : Bool) :
    (d.muEnd tag u rep).station = d.station := by
  unfold Dev.muEnd
  simp

@[simp] theorem muCut_station (d : Dev) (tag : Option Tag) (u : Nat) : (d.muCut tag u).station = d.station := by
  unfold Dev.muCut
  simp

@[simp] theorem muStep_station (d : Dev) (u : Nat) (st : SeqStep) (t len : Nat) :
    (d.muStep u st t len).station = d.station := (rfl)

@[simp] theorem muEnterC_station (d : Dev) (u t : Nat) : (d.muEnterC u t).station = d.station := by
  unfold Dev.muEnterC
  (repeat' split) <;> simp

@[simp] theorem muEnterB_station (d : Dev) (u t : Nat) : (d.muEnterB u t).station = d.station := by
  unfold Dev.muEnterB
  simp

@[simp] theorem muEnterA_station (d : Dev) (u t : Nat) : (d.muEnterA u t).station = d.station := by
  unfold Dev.muEnterA
  simp

@[simp] theorem muKeepForce_station (d : Dev) (u : Nat) (c : MuChange) : (d.muKeepForce u c).station = d.station := by
  unfold Dev.muKeepForce
  simp

@[simp] theorem muBegin_station (d : Dev) (u t : Nat) (c : MuChange) : (d.muBegin u t c).station = d.station := by
  unfold Dev.muBegin
  simp

@[simp] theorem muDisconnect_station (d : Dev) (u t : Nat) (c : MuChange) : (d.muDisconnect u t c).station = d.station := by
  unfold Dev.muDisconnect
  (repeat' split) <;> simp

@[simp] theorem muParkDone_station (d : Dev) : d.muParkDone.station = d.station := by
  unfold Dev.muParkDone
  simp

@[simp] theorem muEndDisconnect_station (d : Dev) (u : Nat) : (d.muEndDisconnect u).station = d.station := by
  unfold Dev.muEndDisconnect
  (repeat' split) <;> simp

@[simp] theorem muResult_station (d : Dev) (u : Nat) (x : MuMeas) (cut : Bool) : (d.muResult u x cut).station = d.station := (rfl)

@[simp] theorem cutMu_station (d : Dev) (u : Nat) (result : Bool) : (d.cutMu u result).station = d.station := by
  unfold Dev.cutMu
  (repeat' split) <;> simp

@[simp] theorem shutMu_station (d : Dev) (u : Nat) : (d.shutMu u).station = d.station :=
  of_outside Dev.station (fun _ => rfl) (shutMu_others d u).1

@[simp] theorem assertSafe_station (d : Dev) : d.assertSafe.station = d.station := by
  unfold Dev.assertSafe
  simp

@[simp] theorem loseMu_station (d : Dev) (u : Nat) : (d.loseMu u).station = d.station := by
  unfold Dev.loseMu
  dsimp only
  (repeat' split) <;> simp

/-! ### Channels -/

@[simp] theorem releasePin_station (d : Dev) (ch : Nat) : (d.releasePin ch).station = d.station := (rfl)

@[simp] theorem notePend_station (d : Dev) (ch : Nat) : (d.notePend ch).station = d.station := (rfl)

@[simp] theorem notePeriods_station (d : Dev) (t : Nat) : (d.notePeriods t).station = d.station := (rfl)

@[simp] theorem partCut_station (d : Dev) (tag : Tag) : (d.partCut tag).station = d.station := by
  unfold Dev.partCut
  simp

@[simp] theorem cutRamp_station (d : Dev) (ch l : Nat) : (d.cutRamp ch l).station = d.station := by
  unfold Dev.cutRamp
  dsimp only
  (repeat' split) <;> simp

@[simp] theorem dropLevels_station (d : Dev) (ch : Nat) : (d.dropLevels ch).station = d.station := by
  unfold Dev.dropLevels
  refine forEach_station (fun _ _ => ?_) _ _
  (repeat' split) <;> simp

@[simp] theorem dropEdges_station (d : Dev) (ch : Nat) : (d.dropEdges ch).station = d.station := by
  unfold Dev.dropEdges
  dsimp only
  (split <;> split) <;> (repeat rw [partCut_station, modChan_station]) <;>
    exact forEach_station (fun k d => by split <;> simp) _ d

@[simp] theorem dropPeriods_station (d : Dev) (t : Nat) : (d.dropPeriods t).station = d.station := by
  unfold Dev.dropPeriods
  refine forEach_station (fun _ _ => ?_) _ _
  (repeat' split) <;> simp

@[simp] theorem applyDriver_station (d : Dev) (ch : Nat) (mode : BitVec 2) (off : Bool) (tag : Tag) (stamp : Nat) :
    (d.applyDriver ch mode off tag stamp).station = d.station := by
  unfold Dev.applyDriver
  simp

@[simp] theorem takeDriver_station (d : Dev) (ch : Nat) : (d.takeDriver ch).station = d.station := by
  unfold Dev.takeDriver
  (repeat' split) <;> simp

@[simp] theorem driverOff_station (d : Dev) (ch : Nat) : (d.driverOff ch).station = d.station := by
  unfold Dev.driverOff
  dsimp only
  (repeat' split) <;> simp

@[simp] theorem parkChannel_station (d : Dev) (ch : Nat) : (d.parkChannel ch).station = d.station := by
  unfold Dev.parkChannel
  simp

@[simp] theorem decafChannel_station (d : Dev) (ch : Nat) : (d.decafChannel ch).station = d.station := by
  unfold Dev.decafChannel
  simp

@[simp] theorem decafClamps_station (d : Dev) : d.decafClamps.station = d.station := by
  unfold Dev.decafClamps
  simp

/-! ### Threads -/

@[simp] theorem modSite_station (d : Dev) (lead : Nat) (f : Thread → Thread) : (d.modSite lead f).station = d.station := by
  unfold Dev.modSite
  simp

@[simp] theorem endGap_station (d : Dev) (lead : Nat) (ended : Nat) (aborted : Bool) :
    (d.endGap lead ended aborted).station = d.station := by
  unfold Dev.endGap
  dsimp only
  (repeat' split) <;> simp

@[simp] theorem flowSummary_station (d : Dev) (lead : Nat) (ended : Nat) : (d.flowSummary lead ended).station = d.station := (rfl)

@[simp] theorem snapshot_station (d : Dev) (t : Nat) : (d.snapshot t).station = d.station := by
  unfold Dev.snapshot
  simp

@[simp] theorem dropJump_station (d : Dev) (lead : Nat) : (d.dropJump lead).station = d.station := by
  unfold Dev.dropJump
  refine foldl_station (fun _ _ => ?_) _ _
  simp

@[simp] theorem endHolds_station (d : Dev) (lead : Nat) : (d.endHolds lead).station = d.station := by
  unfold Dev.endHolds
  simp

@[simp] theorem parkWaiting_station (d : Dev) (lead : Nat) : (d.parkWaiting lead).station = d.station := by
  unfold Dev.parkWaiting
  simp

@[simp] theorem settleStart_station (d : Dev) (tag : Tag) : (d.settleStart tag).station = d.station := (rfl)

@[simp] theorem cutResume_station (d : Dev) (lead : Nat) : (d.cutResume lead).station = d.station := by
  unfold Dev.cutResume
  (repeat' split) <;> simp

@[simp] theorem dropBoundWaves_station (d : Dev) (t : Nat) : (d.dropBoundWaves t).station = d.station := by
  unfold Dev.dropBoundWaves
  simp

@[simp] theorem freeTiles_station (d : Dev) (lead : Nat) : (d.freeTiles lead).station = d.station := by
  unfold Dev.freeTiles
  simp

@[simp] theorem idleSite_station (d : Dev) (lead : Nat) : (d.idleSite lead).station = d.station := by
  unfold Dev.idleSite
  simp

@[simp] theorem endFlow_station (d : Dev) (lead ended : Nat) : (d.endFlow lead ended).station = d.station := by
  unfold Dev.endFlow
  simp

@[simp] theorem decafThreads_station (d : Dev) : d.decafThreads.station = d.station := by
  unfold Dev.decafThreads
  simp

@[simp] theorem dropTiming_station (d : Dev) : d.dropTiming.station = d.station := by
  unfold Dev.dropTiming
  simp

/-! ### Fills, lines and TDCs -/

@[simp] theorem dropFill_station (d : Dev) : d.dropFill.station = d.station := by
  unfold Dev.dropFill
  (repeat' split) <;> simp

@[simp] theorem releaseLines_station (d : Dev) (b s : Nat) : (d.releaseLines b s).station = d.station := by
  unfold Dev.releaseLines
  simp

@[simp] theorem tdcItem_station (d : Dev) (b s : Nat) (x : Tdc) (k count index : Nat) (value : Int) (stamp : Nat) (lo hi : Int) (cut : Bool) :
    (d.tdcItem b s x k count index value stamp lo hi cut).station = d.station := (rfl)

@[simp] theorem tdcResult_station (d : Dev) (b s : Nat) (x : Tdc) (cut : Bool) :
    (d.tdcResult b s x cut).station = d.station := by
  unfold Dev.tdcResult
  simp

@[simp] theorem freeTdc_station (d : Dev) (b s : Nat) (c : Cpl) : (d.freeTdc b s c).station = d.station := by
  unfold Dev.freeTdc
  dsimp only
  (repeat' split) <;> simp

@[simp] theorem cutTdc_station (d : Dev) (b s : Nat) : (d.cutTdc b s).station = d.station := by
  unfold Dev.cutTdc
  dsimp only
  (repeat' split) <;> simp

@[simp] theorem cutTdcs_station (d : Dev) : d.cutTdcs.station = d.station := by
  unfold Dev.cutTdcs
  simp

/-! ### Journal and calibration -/

@[simp] theorem endMark_station (d : Dev) (k t10 : Nat) (result : BitVec 2) (detail : BitVec 8) :
    (d.endMark k t10 result detail).station = d.station := by
  unfold Dev.endMark
  simp

@[simp] theorem journalDecaf_station (d : Dev) : d.journalDecaf.station = d.station := by
  unfold Dev.journalDecaf
  simp

@[simp] theorem dropDue_station (d : Dev) : d.dropDue.station = d.station := by
  unfold Dev.dropDue
  simp

/-! ### Decaf mode -/

@[simp] theorem openPmu_station (d : Dev) (ch : Nat) : (d.openPmu ch).station = d.station := by
  unfold Dev.openPmu
  simp

@[simp] theorem openMu_station (d : Dev) (u : Nat) : (d.openMu u).station = d.station := by
  unfold Dev.openMu
  simp

@[simp] theorem dropPmuPlans_station (d : Dev) (ch : Nat) : (d.dropPmuPlans ch).station = d.station := by
  unfold Dev.dropPmuPlans
  simp

@[simp] theorem endFlights_station (d : Dev) : d.endFlights.station = d.station := by
  unfold Dev.endFlights
  simp

@[simp] theorem safePins_station (d : Dev) (noRamp : Bool) : (d.safePins noRamp).station = d.station := by
  unfold Dev.safePins
  simp

@[simp] theorem inForce_station (d : Dev) : d.inForce.station = d.station := by
  unfold Dev.inForce
  simp

end Sys2Proof.Machine
end

section
/-!
PROOFS. Decaf mode (R439 to R444, R456): its entry with its cause, FC.DECAF in it, the end of step 6, and FC.DECAF_EXIT.
-/
namespace Sys2Proof.Machine

/-! ### The entry -/

theorem fc_of_station {a b : Dev} (h : b.station = a.station) : b.fc = a.fc := congrArg Prod.fst h

/-- What Decaf mode clears of the collector is the injection. -/
theorem clearWaits_decaf (d : Dev) : d.clearWaits.fc.decaf = d.fc.decaf := by
  unfold Dev.clearWaits
  generalize List.range 128 = rings
  dsimp only
  exact congrArg Fc.decaf (fc_of_station (forEach_station (fun i d => by simp) rings d))

/-- The Decaf mode that a device enters at its present. -/
def Dev.decafBy (d : Dev) (cause line : Nat) (noRamp : Bool) : Decaf :=
  { cause := BitVec.ofNat 4 cause, line := BitVec.ofNat 6 line, noRamp := noRamp, since := d.tl.now }

/-- Entry into Decaf mode notes its cause, its line and its stamp. -/
theorem enterDecaf_decaf {d : Dev} (normal : d.fc.decaf = none) (cause line : Nat) (noRamp : Bool) :
    (d.enterDecaf cause line noRamp).fc.decaf = some (d.decafBy cause line noRamp) := by
  rw [Dev.enterDecaf, if_neg (by simp [normal])]
  dsimp only
  rw [clearWaits_decaf]
  have noted : ∀ e : Dev, e.station = ({ d with fc := { d.fc with decaf := some (d.decafBy cause line noRamp) } } : Dev).station →
      e.fc.decaf = some (d.decafBy cause line noRamp) := fun e same => congrArg Fc.decaf (fc_of_station same)
  exact noted _ (by simp [Dev.decafBy])

/-- FC.DECAF on a device that is not in Decaf mode. -/
theorem fcDecaf_enters {s : State} {h : Hdr} (i : Idle s h) :
    ∃ t k, exec (.fcDecaf h) s = .next t ∧ t.dev.fc.decaf = some k ∧ k.cause = 3 ∧ k.safe = false ∧ h.tag ∈ k.tags := by
  have entered := enterDecaf_decaf (d := (s.dev.takenUp h 0x0D03).accept h.tag) (by simpa using i.normal) 3 0 false
  have waits : ∀ d : Dev, d.fc.decaf = some (((s.dev.takenUp h 0x0D03).accept h.tag).decafBy 3 0 false) →
      d.fc.decaf.map (fun k => { k with tags := k.tags ++ [h.tag] }) =
        some { ((s.dev.takenUp h 0x0D03).accept h.tag).decafBy 3 0 false with tags := [h.tag] } := fun d e => by rw [e]; rfl
  refine ⟨_, { ((s.dev.takenUp h 0x0D03).accept h.tag).decafBy 3 0 false with tags := [h.tag] }, hostCmd_runs i 0x0D03 rfl, ?_, rfl, rfl,
    List.mem_singleton_self _⟩
  dsimp only
  rw [commit_fc]
  exact waits _ entered

theorem decafReqWrite_enters {s : State} (n : Nat) (normal : s.dev.fc.decaf = none) (up : barUp s = true) :
    ∃ t k, exec (.decafReqWrite n 0xDECA0001) s = .next t ∧ t.dev.fc.decaf = some k ∧ k.cause = 3 ∧ k.safe = false := by
  have entered := enterDecaf_decaf (d := s.dev.advance n) (by simpa using normal) 3 0 false
  refine ⟨_, (s.dev.advance n).decafBy 3 0 false, (onBar_up up n _ : execDecafReqWrite n 0xDECA0001 s = _), ?_, rfl, rfl⟩
  dsimp only
  rw [commit_fc, Dev.writeDecafReq, if_pos (by decide)]
  exact entered

/-! ### Reports beside the collector -/

/-- The device but for the collector's counts, the log, the control complex and the direct registers. -/
def Dev.beside (d : Dev) : Dev := { d with fc := { decaf := d.fc.decaf }, log := {}, ctl := {}, regs := {} }

/-- What can be read of that part is the same on devices that agree on it. -/
theorem of_beside {γ : Type} (v : Dev → γ) (r : ∀ d : Dev, v d.beside = v d) {a b : Dev} (h : b.beside = a.beside) : v b = v a :=
  (r b).symm.trans ((congrArg v h).trans (r a))

@[simp] theorem postAt_beside (d : Dev) (a b : Nat) (l : List Int) (e : BitVec 16) (t : Nat) (q : BitVec 4) :
    (d.postAt a b l e t q).beside = d.beside := by
  unfold Dev.postAt
  split <;> rfl

@[simp] theorem finish_beside (d : Dev) (g : Tag) (c : Cpl) : (d.finish g c).beside = d.beside := by
  obtain ⟨x, e⟩ := d.finish_eq g c
  rw [e]
  rfl

@[simp] theorem itemEvent_beside (d : Dev) (i : LogItem) : (d.itemEvent i).beside = d.beside := by
  unfold Dev.itemEvent
  split
  · exact postAt_beside ..
  · rfl

@[simp] theorem endInjection_beside (d : Dev) : d.endInjection.beside = d.beside := by
  unfold Dev.endInjection
  split
  · rfl
  · dsimp only
    split
    · exact finish_beside ..
    · rfl

@[simp] theorem dealt_beside (d : Dev) (i : LogItem) : (d.dealt i).beside = d.beside := by
  unfold Dev.dealt
  dsimp only
  split <;> simp

@[simp] theorem holdItem_beside (d : Dev) (i : LogItem) : (d.holdItem i).beside = d.beside := by
  unfold Dev.holdItem
  dsimp only
  split_ifs
  · exact dealt_beside ..
  · exact itemEvent_beside ..
  · exact dealt_beside ..

@[simp] theorem closeLog_beside (d : Dev) (k : Nat) : (d.closeLog k).beside = d.beside := by
  unfold Dev.closeLog
  split <;> rfl

@[simp] theorem faultEvent_beside (d : Dev) (r : Report) (inj : Bool) : (d.faultEvent r inj).1.beside = d.beside := by
  obtain ⟨f, dev, counts⟩ := faultEvent_dev d r inj
  obtain ⟨-, -, -, -, decaf⟩ := bits_of_counts counts
  rw [dev]
  exact congrArg (fun x => { d with fc := { decaf := x }, log := {}, ctl := {}, regs := {} }) decaf

/-- An item that finds 16 FAULT reports in the writer's queue (R436), once its event and its injection are dealt with. -/
def Dev.crowdedEnd (d : Dev) (i : LogItem) (faults : List LogItem) : Dev :=
  match d.log.openFor i with
  | some k =>
    if d.log.freeze then d.holdItem { i with event := none, injected := false }
    else
      let d : Dev := ({ d with log := { d.log with ram := d.log.ram.mod none k (·.map (·.again d.mono d.tl.now)) } } : Dev).bumpGen
      if (d.log.ram.get none k).any fun r => decide (r.rep ≥ 65535) then d.closeLog k else d
  | none =>
    match faults.getLast? with
    | some n =>
      if n.sub = i.sub ∧ n.key = i.key then
        { d with log := { d.log with
          queue := modQueue (fun x => x == n) (fun x => { x with rep := x.rep + 1, last := d.tl.now }) d.log.queue } }
      else { d with fc := { d.fc with overruns := satAdd (2 ^ 32 - 1) d.fc.overruns 1 } }
    | none => { d with fc := { d.fc with overruns := satAdd (2 ^ 32 - 1) d.fc.overruns 1 } }

/-- An item that finds 16 FAULT reports in the writer's queue (R436). -/
def Dev.crowdedBy (d : Dev) (i : LogItem) (inj : Bool) : Dev :=
  (if inj then (({ d with fc := { d.fc with overrun := true } } : Dev).itemEvent i).endInjection
    else ({ d with fc := { d.fc with overrun := true } } : Dev).itemEvent i).crowdedEnd i (d.log.queue.filter fun x => x.kind == 1)

theorem faultItem_eq (d : Dev) (r : Report) (inj : Bool) : d.faultItem r inj =
    if ((d.faultEvent r inj).1.log.queue.filter fun x => x.kind == 1).length < 16 then (d.faultEvent r inj).1.pushLog (d.itemOf r inj)
    else (d.faultEvent r inj).1.crowdedBy (d.itemOf r inj) inj := rfl

theorem crowdedEnd_beside (d : Dev) (i : LogItem) (faults : List LogItem) : (d.crowdedEnd i faults).beside = d.beside := by
  unfold Dev.crowdedEnd
  dsimp only
  split
  · split
    · exact holdItem_beside ..
    · split
      · exact closeLog_beside ..
      · rfl
  · split
    · split <;> rfl
    · rfl

theorem crowdedBy_beside (d : Dev) (i : LogItem) (inj : Bool) : (d.crowdedBy i inj).beside = d.beside := by
  refine (crowdedEnd_beside _ i _).trans ?_
  split
  · exact (endInjection_beside _).trans (itemEvent_beside ..)
  · exact itemEvent_beside ..

/-- The item of a report leaves alone what stands beside the collector and the log. -/
@[simp] theorem faultItem_beside (d : Dev) (r : Report) (inj : Bool) : (d.faultItem r inj).beside = d.beside := by
  rw [faultItem_eq]
  split
  · exact faultEvent_beside d r inj
  · exact (crowdedBy_beside _ _ _).trans (faultEvent_beside d r inj)

/-- What a report leaves beside the collector, before its reaction. -/
theorem collect_beside (d : Dev) (line cls cause unit detail : Nat) : (d.collect line cls cause unit detail).beside = d.beside := by
  have bit : ∀ (f : Fc) (c : BitVec 2), (f.classBit c).decaf = f.decaf := fun f c => by rw [classBit_eq]
  have counted : ({ d with fc := d.fc.counting line (d.reportOf line cls cause unit detail) } : Dev).beside = d.beside :=
    congrArg (fun x => { d with fc := { decaf := x }, log := {}, ctl := {}, regs := {} }) (bit _ _)
  rw [← counted]
  unfold Dev.collect
  dsimp only
  split
  · exact faultEvent_beside ({ d with fc := d.fc.counting line (d.reportOf line cls cause unit detail) } : Dev) _ false
  · exact faultItem_beside ({ d with fc := d.fc.counting line (d.reportOf line cls cause unit detail) } : Dev) _ false

/-- A fatal report enters Decaf mode with cause 1. -/
theorem report_enters {d : Dev} (line cls cause unit detail : Nat) (normal : d.fc.decaf = none) (fatal : d.classNow line cls = 2) :
    (d.report line cls cause unit detail).fc.decaf =
      some (((d.collect line cls cause unit detail).message 63).decafBy 1 line (decide (line = 46))) := by
  have still : (d.collect line cls cause unit detail).fc.decaf = none :=
    (of_beside (·.fc.decaf) (fun _ => rfl) (collect_beside d line cls cause unit detail)).trans normal
  rw [Dev.report, fatal, Dev.react, if_neg (by decide), if_neg (by decide)]
  exact enterDecaf_decaf (d := (d.collect line cls cause unit detail).message 63) still 1 line _

/-- ERROR_REPORT of class F on line 42. -/
theorem errorReport_enters {s : State} (n : Nat) (normal : s.dev.fc.decaf = none) (cause : BitVec 8) (unit : BitVec 16)
    (detail : BitVec 32) (last : (s.dev.fc.perLine.get {} 42).last = none) :
    ∃ t k, exec (.errorReport n 42 2 cause unit detail) s = .next t ∧ t.dev.fc.decaf = some k ∧ k.cause = 1 ∧ k.line = 42 ∧
      k.noRamp = false := by
  have fatal : (s.dev.advance n).classNow 42 2 = 2 := classNow_of_no_last (cls := (2 : BitVec 2)) (by simpa using last)
  have entered := report_enters (d := s.dev.advance n) 42 2 cause.toNat unit.toNat detail.toNat (by simpa using normal) fatal
  generalize w : (((s.dev.advance n).collect 42 2 cause.toNat unit.toNat detail.toNat).message 63).decafBy 1 42 (decide (42 = 46)) = k
    at entered
  refine ⟨_, k, errorReport_runs (line := 42) (cls := 2) n cause unit detail (by decide) (by decide), ?_, ?_, ?_, ?_⟩
  · dsimp only
    rw [commit_fc]
    exact entered
  · exact w ▸ rfl
  · exact w ▸ rfl
  · exact w ▸ rfl

/-! ### Commands in Decaf mode -/

theorem IdleDecaf.pathOpen {s : State} {h : Hdr} (i : IdleDecaf s h) : PathOpen s.dev :=
  ⟨i.room, i.held, i.held0, i.behind, by rw [i.outbox]⟩

theorem ensureFlight_ctl_of_flights {d : Dev} {h : Hdr} (flights : d.ctl.flights = []) (op : BitVec 16) :
    ((d.advance h.t).ensureFlight h op).ctl = { d.ctl with
      flights := [newFlight h op], orphans := (d.advance h.t).orphaned h.tag } := by
  have hf : (d.advance h.t).flight h.tag = none := by simp [Dev.flight, flights]
  unfold Dev.ensureFlight newFlight
  simp [hf, flights, Dev.orphaned]

theorem IdleDecaf.takenUp_flights {s : State} {h : Hdr} (i : IdleDecaf s h) (op : BitVec 16) :
    (s.dev.takenUp h op).ctl.flights = [newFlight h op] := by
  rw [Dev.takenUp, Dev.preempt_ctl, ensureFlight_ctl_of_flights i.flights]

theorem IdleDecaf.takenUp_cplPath {s : State} {h : Hdr} (i : IdleDecaf s h) (op : BitVec 16) :
    (s.dev.takenUp h op).cplPath = s.dev.cplPath := by
  simp only [Dev.cplPath, Dev.takenUp, Dev.preempt_ctl, ensureFlight_ctl_of_flights i.flights]

/-- What the way to a meaning is in Decaf mode: what the gate says decides (R439). -/
theorem IdleDecaf.takeUp {s : State} {h : Hdr} (i : IdleDecaf s h) (op : BitVec 16) : s.dev.takeUp h op =
    match ((s.dev.advance h.t).ensureFlight h op).gate .ring h op with
    | some c => .error (((s.dev.advance h.t).ensureFlight h op).turnAway h.tag c)
    | none => .ok (s.dev.takenUp h op) := by
  have hf : (s.dev.advance h.t).flight h.tag = none := by simp [Dev.flight, i.flights]
  have hm : (s.dev.advance h.t).mustWait h op = false := by simp [Dev.mustWait, acceptable, i.flights, i.held]
  unfold Dev.takeUp
  simp only [hf, hm, Bool.false_eq_true, if_false]
  rfl

theorem IdleDecaf.gate {s : State} {h : Hdr} (i : IdleDecaf s h) {op : BitVec 16} (later : opClass op ≠ 0) (may : decafOp op = true) :
    ((s.dev.advance h.t).ensureFlight h op).gate .ring h op = none := by
  simp [Dev.gate, i.decaf, i.firmware, i.rsv, later, may]

/-- A host command that Decaf mode allows runs its own meaning. -/
theorem IdleDecaf.hostCmd {s : State} {h : Hdr} (i : IdleDecaf s h) {op : BitVec 16} (later : opClass op ≠ 0) (may : decafOp op = true)
    (body : Dev → Dev) : Machine.hostCmd s h op body = .next { s with dev := (body (s.dev.takenUp h op)).commit } := by
  unfold Machine.hostCmd onDev Dev.command
  simp only []
  rw [i.takeUp, i.gate later may]

/-- A command in Decaf mode that has ended is answered. -/
theorem IdleDecaf.answers {s : State} {h : Hdr} (i : IdleDecaf s h) {op : BitVec 16} {d : Dev} {status : BitVec 4} {r : List Int}
    (x : d.ended (h.tag, h.stream, op, status, true, r)) (path : d.cplPath = s.dev.cplPath) (n : op ≠ 0x0100 ∨ r = []) :
    Answers s { s with dev := d.commit } h op status r := by
  obtain ⟨c, out, -, fields⟩ := ended_commit (i.pathOpen.congr path) x n
  exact ⟨c, out.trans (congrArg (· ++ [c]) (congrArg (·.2.1) path)), fields⟩

/-- FC.DECAF in Decaf mode completes at once (R439). -/
theorem fcDecaf_again {s : State} {h : Hdr} (i : IdleDecaf s h) :
    ∃ t, exec (.fcDecaf h) s = .next t ∧ Keeps [] s t ∧ Answers s t h 0x0D03 stOk [] := by
  have gate : ((s.dev.advance h.t).ensureFlight h 0x0D03).gate .ring h 0x0D03 = some {} := by
    simp [Dev.gate, i.decaf, opClass]
  have flights : ((s.dev.advance h.t).ensureFlight h 0x0D03).ctl.flights = [newFlight h 0x0D03] := by
    rw [ensureFlight_ctl_of_flights i.flights]
  have path : ((s.dev.advance h.t).ensureFlight h 0x0D03).cplPath = s.dev.cplPath := by
    simp only [Dev.cplPath, ensureFlight_ctl_of_flights i.flights]
  have accepted := accept_flights_newFlight flights
  have runs : exec (.fcDecaf h) s =
      .next { s with dev := ((((s.dev.advance h.t).ensureFlight h 0x0D03).accept h.tag).finish h.tag {}).commit } := by
    refine (onDev_runs ?_ : Machine.hostCmd s h 0x0D03 _ = _)
    rw [Dev.command, i.takeUp, gate]
    rfl
  refine ⟨_, runs, keeps_commit ?_, i.answers (finish_ended_newFlight accepted {} (.inl rfl) rfl rfl)
    ((finish_cplPath_of accepted rfl _).trans path) (.inr rfl)⟩
  exact ((advance_keeps [] _ h.t).trans (ensureFlight_keeps [] _ h _)).trans ((accept_keeps [] _ _).trans (finish_keeps [] _ _ _))

theorem saveWear_keeps (d : Dev) : SameBut [.board, .pins] d d.saveWear := by
  unfold Dev.saveWear
  split
  · exact .refl _ _
  · exact fun p hp => by cases p <;> first | (simp at hp; done) | rfl | exact Timeline.kept_refl _

@[simp] theorem saveWear_fc (d : Dev) : d.saveWear.fc = d.fc := by unfold Dev.saveWear; split <;> rfl
@[simp] theorem saveWear_log (d : Dev) : d.saveWear.log = d.log := by unfold Dev.saveWear; split <;> rfl

/-- Decaf mode's item for the Cupping Log at the safe state. -/
def Dev.safeItem (d : Dev) (k : Decaf) : LogItem :=
  { d.logItem 9 0 [] [(k.cause.toNat : Int), (k.line.toNat : Int), (d.boot.step : Int), 0, (d.tl.now : Int)] with
    stamp := k.since, noRamp := k.noRamp }

/-- A device whose state Decaf mode has made safe. -/
def Dev.madeSafe (d : Dev) (k : Decaf) : Dev :=
  { d.pushLog (d.safeItem k) with
    fc := { (d.pushLog (d.safeItem k)).fc with decaf := some { k with safe := true, clamps := true, tags := [] } } }

theorem madeSafe_keeps (d : Dev) (k : Decaf) : SameBut [.fc, .board, .pins] d (d.madeSafe k) :=
  (pushLog_keeps _ _ _).trans ((setFc_keeps _ _).mono (by simp))

theorem madeSafe_queue (d : Dev) (k : Decaf) : d.safeItem k ∈ (d.madeSafe k).log.queue :=
  List.mem_append_right _ (List.mem_singleton_self _)

theorem madeSafe_decaf (d : Dev) (k : Decaf) : (d.madeSafe k).fc.decaf = some { k with safe := true, clamps := true, tags := [] } := rfl

/-- The end of step 6 on open switches makes the state safe and puts Decaf mode's item into the log (R439, R440). -/
theorem decafSafeStateReached_ends {s : State} {k : Decaf} (decaf : s.dev.fc.decaf = some k) (n : Nat) (unsafe_ : k.safe = false)
    (tags : k.tags = []) (switches : s.dev.switchesOpen = true) :
    ∃ t, exec (.decafSafeStateReached n) s = .next t ∧ Keeps [.fc, .board, .pins] s t ∧
      t.dev.fc.decaf = some { k with safe := true, clamps := true, tags := [] } ∧
      ∃ x ∈ t.dev.log.queue, x.kind = 9 ∧ x.sub = 0 ∧ x.stamp = k.since := by
  have runs : exec (.decafSafeStateReached n) s = .next { s with dev := ((s.dev.advance n).madeSafe k).saveWear.commit } := by
    refine (onDev_runs ?_ : execDecafSafeStateReached n s = _)
    rw [decaf]
    dsimp only
    rw [if_neg (by simp [unsafe_, switches]), tags]
    rfl
  have frame : SameBut [.fc, .board, .pins] (s.dev.advance n) ((s.dev.advance n).madeSafe k).saveWear :=
    (madeSafe_keeps _ k).trans ((saveWear_keeps _).mono (by simp))
  have kept : (s.dev.advance n).safeItem k ∈ ((s.dev.advance n).madeSafe k).saveWear.commit.log.queue := by
    refine (commit_queues _).subset ?_
    rw [saveWear_log]
    exact madeSafe_queue _ k
  have keeps : Keeps [.fc, .board, .pins] s { s with dev := ((s.dev.advance n).madeSafe k).saveWear.commit } :=
    keeps_commit (advance_keeps_trans n frame)
  have safe : ((s.dev.advance n).madeSafe k).saveWear.commit.fc.decaf = some { k with safe := true, clamps := true, tags := [] } := by
    rw [commit_fc, saveWear_fc, madeSafe_decaf]
  have kind : ((s.dev.advance n).safeItem k).kind = 9 ∧ ((s.dev.advance n).safeItem k).sub = 0 ∧
      ((s.dev.advance n).safeItem k).stamp = k.since := ⟨rfl, rfl, rfl⟩
  generalize ((s.dev.advance n).madeSafe k).saveWear.commit = x at runs kept keeps safe
  exact ⟨_, runs, keeps, safe, _, kept, kind⟩

/-! ### FC.DECAF_EXIT -/

/-- PMUs rest, their last mode of force noted. -/
def Dev.restPmus (d : Dev) (l : List Nat) : Dev :=
  forEach l (fun ch d => d.modPmu ch fun p => { p with
    lastForce := if forcing p.mode then p.mode else p.lastForce, mode := 0 }) d

/-- Metrology Units rest, their last mode of force noted. -/
def Dev.restMus (d : Dev) (l : List Nat) : Dev :=
  forEach l (fun u d => d.modMu u fun m => { m with
    lastForce := if forcing m.mode then m.mode else m.lastForce, mode := 0 }) d

/-- Every PMU and every Metrology Unit rests. -/
def Dev.rested (d : Dev) : Dev := (d.restPmus (List.range 512)).restMus (List.range 16)

/-- Decaf mode has ended, and the device is READY again. -/
def Dev.freed (d : Dev) : Dev :=
  { d with
    fc := { d.fc with decaf := none }, mi := { d.mi with safeLine := false }
    boot := { d.boot with ready := true, step := 12 }, journal := { d.journal with step := 11 } }

/-- A device that rests leaves Decaf mode, with the log's item and the event of it. -/
def Dev.exitDecaf (d : Dev) (k : Decaf) : Dev :=
  (d.freed.pushLog (d.freed.logItem 9 1 [] [(k.cause.toNat : Int), (k.line.toNat : Int), 12, 0, 0])).post 517 2 []

theorem restPmus_keeps (l : List Nat) (d : Dev) : SameBut [.pins] d (d.restPmus l) :=
  SameBut.foldl (fun d ch => modChan_keeps d ch _) l d

theorem restMus_keeps (l : List Nat) (d : Dev) : SameBut [.mi] d (d.restMus l) :=
  SameBut.foldl (fun d _ => setMi_keeps d _) l d

theorem rested_keeps (d : Dev) : SameBut [.fc, .pins, .mi, .boot, .journal] d d.rested :=
  ((restPmus_keeps _ d).mono (by simp)).trans ((restMus_keeps _ _).mono (by simp))

theorem freed_keeps (d : Dev) : SameBut [.fc, .pins, .mi, .boot, .journal] d d.freed :=
  fun p hp => by cases p <;> first | (simp at hp; done) | rfl | exact Timeline.kept_refl _

theorem exitDecaf_keeps (d : Dev) (k : Decaf) : SameBut [.fc, .pins, .mi, .boot, .journal] d (d.exitDecaf k) :=
  (freed_keeps d).trans ((pushLog_keeps _ _ _).trans (post_keeps _ _ _ _ _))

/-- A setting of every PMU of a list leaves each of them as it sets it. -/
theorem foldl_modPmu_rests {f : Pmu → Pmu} (rests : ∀ p, (f p).mode = 0) {k : Nat} (l : List Nat) (d : Dev)
    (h : k ∈ l ∨ (d.pmu k).mode = 0) : ((forEach l (fun ch d => d.modPmu ch f) d).pmu k).mode = 0 := by
  induction l generalizing d with
  | nil => exact h.resolve_left (List.not_mem_nil)
  | cons ch l ih =>
    refine ih (d.modPmu ch f) ?_
    by_cases e : k = ch
    · subst e
      exact .inr (by rw [modPmu_pmu_self]; exact rests _)
    · refine h.imp (fun m => (List.mem_cons.1 m).resolve_left e) fun m => ?_
      have same : (d.modPmu ch f).pmu k = d.pmu k := congrArg Chan.pmu (modChan_chan_of_ne d e _)
      rw [same, m]

theorem restMus_pins (l : List Nat) (d : Dev) : (d.restMus l).pins = d.pins := by
  unfold Dev.restMus
  exact forEach_leaves Dev.pins (fun _ _ => by rfl) l d

theorem rested_mode (d : Dev) {ch : Nat} (h : ch < 512) : (d.rested.pmu ch).mode = 0 :=
  (congrArg Pmu.mode (pmu_of_pins (restMus_pins _ _) ch)).trans
    (foldl_modPmu_rests (fun _ => (rfl)) _ d (.inl (List.mem_range.2 h)))

theorem restPmus_ctl (l : List Nat) (d : Dev) : (d.restPmus l).ctl = d.ctl := by
  unfold Dev.restPmus
  exact forEach_leaves Dev.ctl (fun _ _ => by rfl) l d

theorem restMus_ctl (l : List Nat) (d : Dev) : (d.restMus l).ctl = d.ctl := by
  unfold Dev.restMus
  exact forEach_leaves Dev.ctl (fun _ _ => by rfl) l d

theorem rested_ctl (d : Dev) : d.rested.ctl = d.ctl := (restMus_ctl _ _).trans (restPmus_ctl _ d)

theorem exitDecaf_pins (d : Dev) (k : Decaf) : (d.exitDecaf k).pins = d.pins := by
  rw [Dev.exitDecaf, Dev.post_pins]
  rfl

theorem exitDecaf_flights (d : Dev) (k : Decaf) : (d.exitDecaf k).ctl.flights = d.ctl.flights := by
  rw [Dev.exitDecaf, post_flights]
  rfl

theorem exitDecaf_cplPath (d : Dev) (k : Decaf) : (d.exitDecaf k).cplPath = d.cplPath := by
  rw [Dev.exitDecaf, post_cplPath]
  rfl

/-- What of the device FC.DECAF_EXIT sets. -/
theorem exitDecaf_frees (d : Dev) (k : Decaf) : (d.exitDecaf k).fc.decaf = none ∧ (d.exitDecaf k).boot.ready = true ∧
    (d.exitDecaf k).mi.safeLine = false := by
  rw [Dev.exitDecaf, Dev.post_fc, Dev.post_boot, Dev.post_mi]
  exact ⟨rfl, rfl, rfl⟩

section
variable {s : State} {h : Hdr} {k : Decaf} (i : IdleDecaf s h) (decaf : s.dev.fc.decaf = some k)
include i decaf

theorem fcDecafExit_ends (cause : k.cause = 3 ∨ k.cause = 8) (safe : k.safe = true) :
    ∃ t, exec (.fcDecafExit h) s = .next t ∧ Keeps [.fc, .pins, .mi, .boot, .journal] s t ∧ Answers s t h 0x0D04 stOk [] ∧
      t.dev.fc.decaf = none ∧ t.dev.boot.ready = true ∧ t.dev.mi.safeLine = false ∧
      (∀ ch, ch < 512 → (t.dev.pmu ch).mode = 0) := by
  have known : (s.dev.takenUp h 0x0D04).fc.decaf = some k := by simpa using decaf
  have runs : exec (.fcDecafExit h) s = .next { s with dev := (((s.dev.takenUp h 0x0D04).rested.exitDecaf k).ok h.tag).commit } := by
    refine (i.hostCmd (by decide) (by decide) _ : execFcDecafExit h s = _).trans ?_
    rw [known]
    dsimp only
    rw [if_neg (by rcases cause with c | c <;> simp [c]), if_neg (by simp [safe])]
    generalize s.dev.takenUp h 0x0D04 = e
    unfold Dev.rested Dev.restMus Dev.restPmus
    generalize List.range 512 = chs
    generalize List.range 16 = units
    rfl
  have frame := rested_keeps (s.dev.takenUp h 0x0D04)
  have ctl := rested_ctl (s.dev.takenUp h 0x0D04)
  have mode := fun ch (hch : ch < 512) => rested_mode (s.dev.takenUp h 0x0D04) hch
  generalize (s.dev.takenUp h 0x0D04).rested = e at runs frame ctl mode
  have flights := accept_flights_newFlight
    ((exitDecaf_flights e k).trans ((congrArg Ctl.flights ctl).trans (i.takenUp_flights 0x0D04)))
  have path : (e.exitDecaf k).cplPath = s.dev.cplPath := by
    have same : e.cplPath = (s.dev.takenUp h 0x0D04).cplPath := by simp only [Dev.cplPath, ctl]
    exact (exitDecaf_cplPath e k).trans (same.trans (i.takenUp_cplPath _))
  obtain ⟨ended, ready, line⟩ := exitDecaf_frees e k
  have pmu : ∀ ch, (e.exitDecaf k).pmu ch = e.pmu ch := pmu_of_pins (exitDecaf_pins e k)
  have kept := frame.trans (exitDecaf_keeps e k)
  generalize e.exitDecaf k = x at runs flights path ended ready line pmu kept
  refine ⟨_, runs, keeps_of_takenUp (by decide) (kept.trans (ok_keeps _ _ _)),
    i.answers (finish_ended_newFlight flights {} (.inl rfl) rfl rfl) ((finish_cplPath_of flights rfl _).trans path) (.inr rfl),
    ?_, ?_, ?_, fun ch hch => ?_⟩
  · dsimp only
    rw [commit_fc, Dev.ok_fc, ended]
  · dsimp only
    rw [commit_boot, Dev.ok_boot, ready]
  · dsimp only
    rw [commit_mi, Dev.ok_mi, line]
  · dsimp only
    rw [commit_pmu, ok_pmu, pmu, mode ch hch]

theorem fcDecafExit_denied (c3 : k.cause ≠ 3) (c8 : k.cause ≠ 8) :
    ∃ t, exec (.fcDecafExit h) s = .next t ∧ Keeps [] s t ∧ Answers s t h 0x0D04 stDenied [] := by
  have known : (s.dev.takenUp h 0x0D04).fc.decaf = some k := by simpa using decaf
  have runs : exec (.fcDecafExit h) s = .next { s with dev := ((s.dev.takenUp h 0x0D04).refuse h.tag stDenied).commit } := by
    refine (i.hostCmd (by decide) (by decide) _ : execFcDecafExit h s = _).trans ?_
    rw [known]
    dsimp only
    rw [if_pos ⟨c3, c8⟩]
  have flights : (s.dev.takenUp h 0x0D04).ctl.flights = [{ newFlight h 0x0D04 with accepted := false }] := i.takenUp_flights _
  exact ⟨_, runs, keeps_of_takenUp (by decide) (refuse_keeps _ _ _ _ _ _ _),
    i.answers (finish_ended_newFlight flights _ (.inl rfl) rfl rfl) ((finish_cplPath_of flights rfl _).trans (i.takenUp_cplPath _))
      (.inr rfl)⟩

end

end Sys2Proof.Machine

open Sys2Proof Sys2Proof.Machine

/-- Settles O24, by what entry clears, by the gate of Decaf mode, and by what FC.DECAF_EXIT leaves. -/
theorem decafMode : Obligations.DecafMode := by
  unfold Obligations.DecafMode
  refine ⟨fun s h n normal => ⟨fcDecaf_enters, decafReqWrite_enters n normal, fun cause unit detail _ last =>
    errorReport_enters n normal cause unit detail last⟩, fun s k decaf => ⟨fun h i => fcDecaf_again i,
    fun n unsafe_ tags switches => decafSafeStateReached_ends decaf n unsafe_ tags switches,
    fun h i cause safe => fcDecafExit_ends i decaf cause safe, fun h i c3 c8 => fcDecafExit_denied i decaf c3 c8⟩⟩

end

section
/-!
PROOFS. Ring control (R341): a ring is enabled empty, and disabled at once.
-/
namespace Sys2Proof.Machine

theorem control_enables {r : RingCfg} {area : Nat} (off : r.en = false) (good : ringGood area r = true) :
    r.control area true = some { r with en := true, head := 0, tail := 0, phase := decide (area ≠ 0) } := by
  simp [RingCfg.control, off, good]

theorem control_disables (r : RingCfg) (area : Nat) : r.control area false = some { r with en := false } := rfl

section
variable {s : State} (n : Nat) {v : BitVec 32} (up : barUp s = true) (flights : s.dev.ctl.flights = [])
  (outbox : s.dev.ctl.outbox = {})
include up flights outbox

theorem ringCtrlWrite_enables_cmd (en : v.getLsbD 0 = true) (off : s.dev.ctl.cmd.en = false)
    (good : ringGood 0 s.dev.ctl.cmd = true) :
    ∃ t, exec (.ringCtrlWrite n 0 v) s = .next t ∧ Keeps [.ctl] s t ∧ t.dev.ctl.cmd.en = true ∧ t.dev.ctl.cmd.head = 0 ∧
      t.dev.ctl.cmd.tail = 0 := by
  have taken : (s.dev.advance n).writeRingCtrl 0 v = { s.dev.advance n with ctl := { s.dev.ctl with
      cmd := { s.dev.ctl.cmd with en := true, head := 0, tail := 0, phase := false } } } := by
    rw [Dev.writeRingCtrl, s.dev.advance_ctl n, en]
    simp [control_enables off good]
  obtain ⟨t, runs, frame, cmd, -⟩ :=
    onBar_setCtl up [.ctl] n (fun d => d.writeRingCtrl 0 v) taken (absurd (List.mem_singleton.mpr rfl)) flights outbox
  exact ⟨t, runs, frame, by rw [cmd], by rw [cmd], by rw [cmd]⟩

theorem ringCtrlWrite_enables_cpl (en : v.getLsbD 0 = true) (off : s.dev.ctl.cpl.en = false)
    (good : ringGood 1 s.dev.ctl.cpl = true) :
    ∃ t, exec (.ringCtrlWrite n 1 v) s = .next t ∧ Keeps [] s t ∧ t.dev.ctl.cpl.en = true ∧ t.dev.ctl.cpl.phase = true ∧
      t.dev.ctl.cplOut = [] := by
  have taken : (s.dev.advance n).writeRingCtrl 1 v = { s.dev.advance n with ctl := { s.dev.ctl with
      cpl := { s.dev.ctl.cpl with en := true, head := 0, tail := 0, phase := true }, cplOut := [] } } := by
    rw [Dev.writeRingCtrl, s.dev.advance_ctl n, en]
    simp [control_enables off good, off]
  obtain ⟨t, runs, frame, -, -, cpl, cplOut, -⟩ :=
    onBar_setCtl up [] n (fun d => d.writeRingCtrl 1 v) taken (fun _ => rfl) flights outbox
  exact ⟨t, runs, frame, by rw [cpl], by rw [cpl], cplOut⟩

theorem ringCtrlWrite_disables_evt (en : v.getLsbD 0 = false) :
    ∃ t, exec (.ringCtrlWrite n 2 v) s = .next t ∧ Keeps [] s t ∧ t.dev.ctl.evt.en = false := by
  have taken : (s.dev.advance n).writeRingCtrl 2 v = { s.dev.advance n with ctl := { s.dev.ctl with
      evt := { s.dev.ctl.evt with en := false } } } := by
    rw [Dev.writeRingCtrl, s.dev.advance_ctl n, en]
    simp [control_disables]
  obtain ⟨t, runs, frame, -, -, -, -, evt, -⟩ :=
    onBar_setCtl up [] n (fun d => d.writeRingCtrl 2 v) taken (fun _ => rfl) flights outbox
  exact ⟨t, runs, frame, by rw [evt]⟩

end

end Sys2Proof.Machine

open Sys2Proof Sys2Proof.Machine

/-- Settles O18, by what a write of RING_CTRL leaves of the ring that it names. -/
theorem ringControl : Obligations.RingControl := by
  unfold Obligations.RingControl
  exact fun s n v up flights outbox => ⟨ringCtrlWrite_enables_cmd n up flights outbox,
    ringCtrlWrite_enables_cpl n up flights outbox, ringCtrlWrite_disables_evt n up flights outbox⟩

end

section
/-!
PROOFS. What a commit does, step by step: it takes sequence numbers, sends interrupts, and moves records on their way. And the
control commands (R340, R348, R360, R361, R366, R368 to R370).
-/
namespace Sys2Proof.Machine

/-! ### The operations of a commit -/

/-- A relation that every operation of a commit maintains: it holds of a sequence number taken, of an interrupt signalled, and of
records moved on their way. -/
structure CommitStep (R : Dev → Dev → Prop) : Prop where
  refl : ∀ d, R d d
  trans : ∀ {a b c : Dev}, R a b → R b c → R a c
  takeSeq : ∀ d, R d d.takeSeq
  signal : ∀ d v, R d (d.signal v)
  moves : ∀ (d : Dev) (c : Ctl) (k : Cap), c.irqs = d.ctl.irqs → R d { d with ctl := c, cap := k }

section
variable {R : Dev → Dev → Prop} (h : CommitStep R)
include h

theorem CommitStep.foldl {α : Type} {f : Dev → α → Dev} (k : ∀ (d : Dev) x, R d (f d x)) (l : List α) (d : Dev) : R d (l.foldl f d) :=
  List.foldlRecOn (motive := fun b => R d b) l f (h.refl d) fun b i x _ => h.trans i (k b x)

theorem CommitStep.forEach {f : Nat → Dev → Dev} (k : ∀ i (d : Dev), R d (f i d)) (l : List Nat) (d : Dev) : R d (forEach l f d) :=
  h.foldl (fun d i => k i d) l d

theorem CommitStep.marks (d : Dev) : R d { d with cap := d.cap.marks d.mono } := h.moves d d.ctl _ rfl

theorem CommitStep.ctl (d : Dev) (c : Ctl) (irqs : c.irqs = d.ctl.irqs) : R d { d with ctl := c } := h.moves d c d.cap irqs

theorem CommitStep.ownSeq (d : Dev) (has : Bool) : R d (if has then d else d.takeSeq) := by
  cases has
  · exact h.takeSeq d
  · exact h.refl d

theorem CommitStep.ringEvt (d : Dev) (e : Evt) : R d (d.ringEvt e) := by
  refine h.trans ?_ (h.signal _ _)
  exact h.trans (h.ownSeq d e.fwd) (h.ctl _ _ rfl)

theorem CommitStep.commitEvt (d : Dev) (e : Evt) : R d (d.commitEvt e) := by
  unfold Dev.commitEvt
  dsimp only
  split_ifs
  · exact h.trans (h.ownSeq d e.fwd) (h.ctl _ _ rfl)
  · exact h.ringEvt d e
  · exact h.ctl _ _ rfl
  · exact h.ctl _ _ rfl

theorem CommitStep.ringCpl (d : Dev) (c : Cpl) : R d (d.ringCpl c) := by
  refine h.trans ?_ (h.signal _ _)
  exact h.trans (h.ownSeq d (if c.fwd then c else d.stampCpl c).fwd) (h.ctl _ _ rfl)

theorem CommitStep.commitCpl (d : Dev) (o : Origin) (c : Cpl) : R d (d.commitCpl o c) := by
  unfold Dev.commitCpl
  cases o with
  | ring =>
    dsimp only
    split_ifs
    · exact h.ringCpl d c
    · exact h.ctl _ _ rfl
    · exact h.ctl _ _ rfl
  | tree => exact h.trans (h.takeSeq d) (h.ctl _ _ rfl)
  | recovery => exact h.trans (h.takeSeq d) (h.ctl _ _ rfl)

theorem CommitStep.pumpOne (d : Dev) (p : Nat) : R d (d.pumpOne p) := by
  unfold Dev.pumpOne
  split
  · exact h.refl d
  · dsimp only
    split
    · exact h.trans (h.takeSeq d) (h.moves _ _ _ rfl)
    · exact h.moves _ _ _ rfl

theorem CommitStep.pump (n : Nat) (d : Dev) : R d (d.pump n) := by
  fun_induction Dev.pump n d with
  | case1 => exact h.refl _
  | case2 n d ih => exact h.trans (h.foldl (fun d p => h.pumpOne d p) _ d) ih

theorem CommitStep.stage (d : Dev) (p : Packet) : R d (d.stage p) := by
  unfold Dev.stage
  split <;> exact h.moves _ _ _ rfl

theorem CommitStep.commitPackets (d : Dev) (ps : List Packet) : R d (d.commitPackets ps) := by
  unfold Dev.commitPackets
  generalize List.range 17 = producers
  dsimp only
  refine h.trans (h.forEach (fun k d => ?_) _ _) (h.trans (h.pump 8 _) (h.marks _))
  exact h.foldl (fun d p => h.trans (h.stage d p) (h.pump 1 _)) _ d

theorem CommitStep.sendLinks (d : Dev) (l : List LinkMsg) : R d (d.sendLinks l) := by
  unfold Dev.sendLinks
  dsimp only
  refine h.trans (h.foldl (fun d m => ?_) _ _) (h.forEach (fun p d => ?_) _ _)
  · exact h.ctl _ _ rfl
  · split
    · exact h.refl d
    · exact h.ctl _ _ rfl

/-- What every operation of a commit maintains, the commit maintains. -/
theorem CommitStep.commit (d : Dev) : R d d.commit := by
  unfold Dev.commit
  dsimp only
  refine h.trans (h.ctl d d.settleEpoch.ctl rfl) ?_
  refine h.trans ?_ (h.trans (h.commitPackets _ _) (h.sendLinks _ _))
  refine h.trans ?_ (h.foldl (fun d f => ?_) _ _)
  · refine h.trans ?_ (h.foldl (fun d (c : Origin × Cpl) => h.commitCpl d c.1 c.2) _ _)
    refine h.trans ?_ (h.foldl (fun d e => h.commitEvt d e) _ _)
    exact h.ctl _ _ rfl
  · split
    · exact h.commitCpl d _ _
    · exact h.refl d

end

/-! ### Moderation of interrupts -/

/-- COUNT and HOLDOFF of a vector. -/
def Dev.rate (d : Dev) (v : Nat) : Nat × Nat := ((d.ctl.irqs.get {} v).count, (d.ctl.irqs.get {} v).holdoff)

/-- An entry of the table of vectors that keeps its COUNT and HOLDOFF. -/
theorem rate_set (d : Dev) (v k : Nat) {q : Irq} {e : Dev} (set : e.ctl.irqs = d.ctl.irqs.set {} v q)
    (count : q.count = (d.ctl.irqs.get {} v).count) (holdoff : q.holdoff = (d.ctl.irqs.get {} v).holdoff) :
    e.rate k = d.rate k := by
  by_cases same : k = v
  · subst same
    simp only [Dev.rate, set, Tab.get_set_self, count, holdoff]
  · simp only [Dev.rate, set, Tab.get_set_of_ne _ _ same]

theorem message_rate (d : Dev) (v k : Nat) : (d.message v).rate k = d.rate k := by
  unfold Dev.message
  dsimp only
  split <;> exact rate_set d v k rfl rfl rfl

theorem signal_rate (d : Dev) (v k : Nat) : (d.signal v).rate k = d.rate k := by
  unfold Dev.signal
  dsimp only
  split
  · exact message_rate d v k
  · exact rate_set d v k rfl rfl rfl

/-- No commit changes the moderation of a vector. -/
theorem commit_rate (d : Dev) (k : Nat) : d.commit.rate k = d.rate k := by
  have steps : CommitStep fun a b : Dev => b.rate k = a.rate k :=
    { refl := fun _ => rfl
      trans := fun x y => y.trans x
      takeSeq := fun d => by unfold Dev.takeSeq; dsimp only; split <;> rfl
      signal := fun d v => signal_rate d v k
      moves := fun d c x irqs => by simp only [Dev.rate, irqs] }
  exact steps.commit d

/-! ### Commands that change the control complex and are answered at once -/

/-- Where an answer goes: the path of completions and the commands in flight. -/
def Dev.answering (d : Dev) : (RingCfg × List Cpl × List Cpl × List Cpl × Bool × List (Origin × Cpl)) × List Flight :=
  (d.cplPath, d.ctl.flights)

/-- A meaning that leaves the way of its answer alone and ends OK at once with a response. -/
theorem okResp_answers {s : State} {h : Hdr} (i : Idle s h) (op : BitVec 16) {d : Dev} (r : List Int)
    (way : d.answering = (s.dev.takenUp h op).answering) (n : op ≠ 0x0100 ∨ r = []) :
    Answers s { s with dev := (d.okResp h.tag r).commit } h op stOk r := by
  obtain ⟨path, flights⟩ := Prod.mk.inj way
  have accepted := accept_flights_newFlight (flights.trans (takenUp_flights i op))
  exact (finish_ended_newFlight accepted { resp := r } (.inl rfl) rfl rfl).answers i
    ((finish_cplPath_of accepted rfl _).trans (path.trans (takenUp_cplPath i op))) n

theorem ok_setting (d : Dev) (g : Tag) : (d.ok g).commit.ctl.setting = d.ctl.setting :=
  (commit_ctl_setting _).trans (ok_keeps [] d g .ctl (by simp)).symm

@[simp] theorem ok_rate (d : Dev) (g : Tag) (v : Nat) : (d.ok g).rate v = d.rate v := by
  unfold Dev.ok Dev.finish
  cases (d.accept g).flight g with
  | none => rfl
  | some f =>
    dsimp only
    split
    · split <;> rfl
    · rfl

/-- A meaning that changes settings of the control complex and ends OK at once. -/
theorem setCtl_ends {s : State} {h : Hdr} (i : Idle s h) {op : BitVec 16} (c : opClass op ≠ 0) (l : List Part) (k : Ctl)
    (way : ({ s.dev.takenUp h op with ctl := k } : Dev).answering = (s.dev.takenUp h op).answering)
    (frame : Part.ctl ∉ l → k.setting = (s.dev.takenUp h op).ctl.setting) :
    ∃ t, (∀ body : Dev → Dev, body (s.dev.takenUp h op) = ({ s.dev.takenUp h op with ctl := k } : Dev).ok h.tag →
        hostCmd s h op body = .next t) ∧ Keeps l s t ∧ Answers s t h op stOk [] ∧ t.dev.ctl.setting = k.setting ∧
      ∀ v, t.dev.rate v = ((k.irqs.get {} v).count, (k.irqs.get {} v).holdoff) := by
  have kept : SameBut l (s.dev.takenUp h op) { s.dev.takenUp h op with ctl := k } := fun p hp => by
    cases p with
    | ctl => exact (frame hp).symm
    | tl => exact Timeline.kept_refl _
    | _ => rfl
  generalize e : ({ s.dev.takenUp h op with ctl := k } : Dev) = d at way kept ⊢
  obtain rfl : d.ctl = k := by rw [← e]
  have rate := fun v => (commit_rate _ v).trans (ok_rate d h.tag v)
  have answer := okResp_answers i op (d := d) [] way (.inr rfl)
  have set := ok_setting d h.tag
  have frame : Keeps l s { s with dev := (d.ok h.tag).commit } := keeps_of_takenUp c (kept.trans (ok_keeps _ _ _))
  have runs := fun (body : Dev → Dev) meaning => hostCmd_runs (body := body) i op (d := d.ok h.tag) meaning
  refine ⟨{ s with dev := (d.ok h.tag).commit }, runs, frame, answer, ?_, fun v => ?_⟩
  · dsimp only
    exact set
  · dsimp only
    exact rate v

theorem setSeq_keeps (d : Dev) (x : Seq) : SameBut [.seq] d { d with seq := x } :=
  sameBut_single fun p hp => by cases p <;> first | exact absurd rfl hp | rfl | exact Timeline.kept_refl _

/-! ### CTL.NOP, CTL.INFO, CTL.PGET and CTL.PSET -/

/-- Reading an RC parameter leaves alone where answers go. -/
theorem clearRc_answering (d : Dev) (id : Nat) : (d.clearRc id).answering = d.answering := by
  unfold Dev.clearRc
  split
  · unfold Dev.clearParam00; split <;> rfl
  · unfold Dev.clearParam03; split <;> rfl
  · unfold Dev.clearParam04; split <;> rfl
  · unfold Dev.clearParam05; split <;> rfl
  · unfold Dev.clearParam06; split <;> rfl
  · unfold Dev.clearParam07; split <;> rfl
  · unfold Dev.clearParam08; split <;> rfl
  · unfold Dev.clearParam09; split <;> rfl
  · unfold Dev.clearParam0A; split <;> rfl
  · unfold Dev.clearParam0B; split <;> rfl
  · unfold Dev.clearParam0C
    split
    · rfl
    · rw [apply_ite Dev.answering, show ∀ x, ({ d with hk := x } : Dev).answering = d.answering from fun _ => rfl, ite_self]
    · rfl
  · unfold Dev.clearParam0D; split <;> rfl
  · unfold Dev.clearParam0E; split <;> rfl
  · unfold Dev.clearParam10; split <;> rfl
  · rfl

theorem clearParam_answering (d : Dev) (id : Nat) : (d.clearParam id).answering = d.answering := by
  unfold Dev.clearParam
  split
  · exact clearRc_answering d id
  · rfl

section
variable {s : State} {h : Hdr} (i : Idle s h)
include i

omit i in
@[simp] theorem takenUp_tree (op : BitVec 16) : (s.dev.takenUp h op).tree = s.dev.tree := by simp [Dev.takenUp]

theorem ctlNop_ends : ∃ t, exec (.ctlNop h) s = .next t ∧ Keeps [] s t ∧ Answers s t h 0x0000 stOk [] := by
  obtain ⟨frame, answer⟩ := ok_ends i 0x0000 (by decide) rfl (.refl [] _)
  exact ⟨_, hostCmd_runs i 0x0000 rfl, frame, answer⟩

theorem ctlInfo_ends : ∃ t r, exec (.ctlInfo h) s = .next t ∧ Keeps [] s t ∧ Answers s t h 0x0001 stOk r ∧
    r.take 3 = [(s.straps.role.toNat : Int), (s.dev.tree.position.toNat : Int), (pathCode s.dev.tree.path : Int)] := by
  refine ⟨_, _, hostCmd_runs i 0x0001 rfl, keeps_of_takenUp (by decide) (okResp_keeps _ _ _ _),
    answers_okResp i 0x0001 _ _ rfl (.inl (by decide)), ?_⟩
  simp only [List.take_succ_cons, List.take_zero, takenUp_tree]

theorem ctlPget_ends {id : BitVec 16} {w : Nat} {a : Access} (known : paramKind id.toNat = some (w, a)) :
    ∃ t, exec (.ctlPget h [id]) s = .next t ∧ Answers s t h 0x0002 stOk
      [(id.toNat : Int), (widthCode w : Int), ((s.dev.takenUp h 0x0002).readParam s.straps s.fuses id.toNat : Int)] := by
  refine ⟨_, hostCmd_runs i 0x0002 ?_, okResp_answers i 0x0002 _ (clearParam_answering _ id.toNat) (.inl (by decide))⟩
  rw [if_neg (by simp)]
  simp [known]

theorem ctlPset_sets {v : BitVec 256} (low : 1 ≤ v.toNat) (high : v.toNat ≤ 255) :
    ∃ t, exec (.ctlPset h [(0x0502, v)]) s = .next t ∧ Keeps [.seq] s t ∧ Answers s t h 0x0003 stOk [] ∧
      t.dev.seq.trigWidth = v.toNat := by
  have set : (s.dev.takenUp h 0x0003).psetAll 0 [(0x0502, v)] =
      .ok { s.dev.takenUp h 0x0003 with seq := { (s.dev.takenUp h 0x0003).seq with trigWidth := v.toNat } } := by
    have ranges : ranged 1 255 v.toNat { s.dev.takenUp h 0x0003 with seq := { (s.dev.takenUp h 0x0003).seq with trigWidth := v.toNat } } =
        some { s.dev.takenUp h 0x0003 with seq := { (s.dev.takenUp h 0x0003).seq with trigWidth := v.toNat } } := by
      simp [ranged, low, high]
    have fits : ¬ v.toNat ≥ 2 ^ 32 := by omega
    have one : (s.dev.takenUp h 0x0003).pset 0x0502 v.toNat =
        .ok { s.dev.takenUp h 0x0003 with seq := { (s.dev.takenUp h 0x0003).seq with trigWidth := v.toNat } } := by
      rw [Dev.pset, show paramKind 0x0502 = some (32, .rw) by decide]
      dsimp only
      rw [if_neg (by decide), if_neg fits]
      exact congrArg (fun x : Option Dev => match x with | some d => Except.ok d | none => Except.error stBadarg) ranges
    rw [Dev.psetAll, show ((0x0502 : BitVec 16), v).1.toNat = 0x0502 from rfl, one]
    rfl
  obtain ⟨frame, answer⟩ := ok_ends (l := [.seq]) i 0x0003 (by decide)
    (d := { s.dev.takenUp h 0x0003 with seq := { (s.dev.takenUp h 0x0003).seq with trigWidth := v.toNat } }) rfl (setSeq_keeps _ _)
  refine ⟨_, hostCmd_runs i 0x0003 ?_, frame, answer, ?_⟩
  · rw [if_neg (by simp), set]
  · dsimp only
    rw [commit_seq, Dev.ok_seq]

theorem ctlPset_refused {l : List (BitVec 16 × BitVec 256)} {st : BitVec 4} {k : Nat} (short : l.length ≤ 16)
    (wrong : (s.dev.takenUp h 0x0003).psetAll 0 l = .error (st, k)) (some_ : l ≠ []) :
    ∃ t, exec (.ctlPset h l) s = .next t ∧ Keeps [] s t ∧ Answers s t h 0x0003 st [] := by
  obtain ⟨frame, answer⟩ := refused_ends i 0x0003 (by decide) st k 0 0
  refine ⟨_, hostCmd_runs i 0x0003 ?_, frame, answer⟩
  rw [if_neg (by simp [some_, short]), wrong]

end

end Sys2Proof.Machine

open Sys2Proof Sys2Proof.Machine

/-- Settles O20, by what a parameter's reading leaves alone and what the list of CTL.PSET comes to. -/
theorem controlValues : Obligations.ControlValues := by
  unfold Obligations.ControlValues
  exact ⟨fun s h i => ⟨ctlNop_ends i, ctlInfo_ends i, fun id w a known => ctlPget_ends i known⟩,
    fun s h i => ⟨fun v low high => ctlPset_sets i low high, fun l st k short wrong some_ => ctlPset_refused i short wrong some_⟩⟩

end

section
/-!
PROOFS. Set-up of windows, of the result area and of the interrupt maps (R340, R348, R360, R361), and CTL.FLUSH_STREAM (R366).
-/
namespace Sys2Proof.Machine

/-! ### Windows, result area and interrupt maps -/

section
variable {s : State} {h : Hdr} (i : Idle s h) (manager : s.straps.isWorker = false)
include i manager

theorem ctlWindow_sets {n : BitVec 8} {base size : BitVec 64} (index : n.toNat ≤ 7) (aligned : base.toNat % 4096 = 0)
    (whole : size.toNat % 4096 = 0) (some_ : size ≠ 0) (short : size.toNat ≤ 2 ^ 48) (inside : base.toNat + size.toNat ≤ 2 ^ 64)
    (none_ : s.dev.ctl.windows = .empty) :
    ∃ t, exec (.ctlWindow h n base size) s = .next t ∧ Keeps [.ctl] s t ∧ Answers s t h 0x0004 stOk [] ∧
      t.dev.ctl.windows.get none n.toNat = some (base.toNat, size.toNat) := by
  have nonzero : size.toNat ≠ 0 := fun e => some_ (BitVec.eq_of_toNat_eq (by simpa using e))
  have empty : (s.dev.takenUp h 0x0004).ctl.windows = .empty := by rw [takenUp_ctl i]; exact none_
  obtain ⟨t, runs, frame, answer, set, -⟩ := setCtl_ends i (op := 0x0004) (by decide) [.ctl]
    { (s.dev.takenUp h 0x0004).ctl with
      windows := (s.dev.takenUp h 0x0004).ctl.windows.set none n.toNat (some (base.toNat, size.toNat)) } rfl (by simp)
  refine ⟨t, runs _ ?_, frame, answer,
    (congrArg (fun c : Ctl => c.windows.get none n.toNat) set).trans (Tab.get_set_self _ _ _ _)⟩
  generalize s.dev.takenUp h 0x0004 = d at empty
  have unused : d.windowUsed n.toNat = false := by simp [Dev.windowUsed, empty]
  rw [if_neg (by simp [manager]), if_neg (by omega), if_neg (by omega), if_neg (by omega), if_neg (by simp [empty]),
    if_neg (by simp [unused]), if_neg nonzero]

theorem ctlResults_sets {base : BitVec 64} {size : BitVec 32} (aligned : base.toNat % 4096 = 0)
    (inside : s.dev.ctl.inWindow (base.toNat, size.toNat) = true) (power : size.toNat.isPowerOfTwo) (least : 65536 ≤ size.toNat)
    (most : size.toNat ≤ 2 ^ 30) (carafe : s.dev.cap.carafe = []) (packet : s.dev.ctl.dmaPacket = none) :
    ∃ t, exec (.ctlResults h base size) s = .next t ∧ Keeps [.ctl] s t ∧ Answers s t h 0x0005 stOk [] ∧
      t.dev.ctl.resEn = true ∧ t.dev.ctl.resBase = base ∧ t.dev.ctl.resSize = size.toNat ∧ t.dev.ctl.resHead = 0 ∧
      t.dev.ctl.resTail = 0 := by
  have nonzero : size.toNat ≠ 0 := by omega
  have within : (s.dev.takenUp h 0x0005).ctl.inWindow (base.toNat, size.toNat) = true := by rw [takenUp_ctl i]; exact inside
  have idle : (s.dev.takenUp h 0x0005).ctl.dmaPacket = none := by rw [takenUp_ctl i]; exact packet
  have empty : (s.dev.takenUp h 0x0005).cap.carafe = [] := by rw [takenUp_cap]; exact carafe
  obtain ⟨t, runs, frame, answer, set, -⟩ := setCtl_ends i (op := 0x0005) (by decide) [.ctl]
    { (s.dev.takenUp h 0x0005).ctl with
      resBase := base, resSize := size.toNat, resEn := true, resHead := 0, resTail := 0, resOut := [] } rfl (by simp)
  refine ⟨t, runs _ ?_, frame, answer, congrArg Ctl.resEn set, congrArg Ctl.resBase set, congrArg Ctl.resSize set,
    congrArg Ctl.resHead set, congrArg Ctl.resTail set⟩
  generalize s.dev.takenUp h 0x0005 = d at within idle empty
  rw [if_neg (by simp [manager]), if_neg (by simp [aligned, within]), if_neg (fun w => by rcases w.2 with x | x | x; exact x power; all_goals omega),
    if_neg (by simp [empty, idle]), if_neg nonzero, if_neg nonzero, decide_eq_true nonzero]

theorem ctlEvmap_sets {k : BitVec 16} {v : BitVec 8} (en : Bool) (index : k.toNat ≤ 639) (vector : v.toNat ≤ 62) :
    ∃ t, exec (.ctlEvmap h k 1 v en) s = .next t ∧ Keeps [.ctl] s t ∧ Answers s t h 0x0006 stOk [] ∧
      t.dev.ctl.srcs.get {} k.toNat = { vector := v.toNat, off := !en } ∧
      ∀ j, j ≠ k.toNat → t.dev.ctl.srcs.get {} j = s.dev.ctl.srcs.get {} j := by
  have before : (s.dev.takenUp h 0x0006).ctl.srcs = s.dev.ctl.srcs := by rw [takenUp_ctl i]
  obtain ⟨t, runs, frame, answer, set, -⟩ := setCtl_ends i (op := 0x0006) (by decide) [.ctl]
    { (s.dev.takenUp h 0x0006).ctl with
      srcs := (s.dev.takenUp h 0x0006).ctl.srcs.set {} k.toNat { vector := v.toNat, off := !en } } rfl (by simp)
  refine ⟨t, runs _ ?_, frame, answer, (congrArg (fun c : Ctl => c.srcs.get {} k.toNat) set).trans (Tab.get_set_self _ _ _ _),
    fun j ne => (congrArg (fun c : Ctl => c.srcs.get {} j) set).trans ((Tab.get_set_of_ne _ _ ne _).trans (by rw [before]))⟩
  have one : (1 : BitVec 16).toNat = 1 := rfl
  rw [if_neg (by simp [manager]), if_neg (by omega), if_neg (by omega), if_neg (by omega)]
  rfl

theorem ctlCplmap_sets {m : BitVec 32} {v : BitVec 8} (vector : v.toNat ≤ 62) :
    ∃ t, exec (.ctlCplmap h m v) s = .next t ∧ Keeps [.ctl] s t ∧ Answers s t h 0x0007 stOk [] ∧
      ∀ k, k < 32 → t.dev.ctl.cplMap.get 0 k = if m.getLsbD k then v.toNat else s.dev.ctl.cplMap.get 0 k := by
  have before : (s.dev.takenUp h 0x0007).ctl.cplMap = s.dev.ctl.cplMap := by rw [takenUp_ctl i]
  have each := fun k => get_foldl (fun (t : Tab Nat) k => t.get 0 k) (fun t k => t.set 0 k v.toNat) (fun _ => v.toNat)
    (fun t k => Tab.get_set_self _ _ _ _) (fun t j k ne => Tab.get_set_of_ne _ _ ne _) k (members m) (nodup_members m)
    (s.dev.takenUp h 0x0007).ctl.cplMap
  obtain ⟨t, runs, frame, answer, set, -⟩ := setCtl_ends i (op := 0x0007) (by decide) [.ctl]
    { (s.dev.takenUp h 0x0007).ctl with
      cplMap := forEach (members m) (fun k t => t.set 0 k v.toNat) (s.dev.takenUp h 0x0007).ctl.cplMap } rfl (by simp)
  refine ⟨t, runs _ ?_, frame, answer, fun k hk => (congrArg (fun c : Ctl => c.cplMap.get 0 k) set).trans ((each k).trans ?_)⟩
  · rw [if_neg (by simp [manager]), if_neg (by omega)]
  · rw [before]
    simp [mem_members, hk]

theorem ctlIrqmod_sets {v : BitVec 8} {count holdoff : BitVec 16} (vector : v.toNat ≤ 62) (least : 1 ≤ count.toNat)
    (most : count.toNat ≤ 255) :
    ∃ t, exec (.ctlIrqmod h v count holdoff) s = .next t ∧ Keeps [] s t ∧ Answers s t h 0x0008 stOk [] ∧
      (t.dev.ctl.irqs.get {} v.toNat).count = count.toNat ∧ (t.dev.ctl.irqs.get {} v.toNat).holdoff = holdoff.toNat := by
  have nonzero : count ≠ 0 := fun e => by simp [e] at least
  obtain ⟨t, runs, frame, answer, -, rate⟩ := setCtl_ends i (op := 0x0008) (by decide) []
    { (s.dev.takenUp h 0x0008).ctl with
      irqs := (s.dev.takenUp h 0x0008).ctl.irqs.mod {} v.toNat fun q => { q with count := count.toNat, holdoff := holdoff.toNat } }
    rfl (fun _ => rfl)
  have set := rate v.toNat
  dsimp only at set
  rw [Tab.get_mod_self] at set
  obtain ⟨c, k⟩ := Prod.mk.inj set
  refine ⟨t, runs _ ?_, frame, answer, c, k⟩
  rw [if_neg (by simp [manager]), if_neg (by omega), if_neg (by simp only [nonzero, false_or]; omega)]

end

/-! ### CTL.FLUSH_STREAM -/

/-- The Completion Ring with what a completion written in it leaves alone. -/
def Dev.ringWay (d : Dev) : RingCfg × List Cpl × List Cpl × Bool × List Flight :=
  (d.ctl.cpl, d.ctl.heldCpl, d.ctl.heldCpl0, d.ctl.behind, d.ctl.flights)

/-- A completion that finds its ring open is written in it at once (R347). -/
theorem commitCpl_writes {d : Dev} (room : d.ctl.cpl.room = true) (held : d.ctl.heldCpl = []) (held0 : d.ctl.heldCpl0 = [])
    (behind : d.ctl.behind = false) {c : Cpl} (fwd : c.fwd = false) : ∃ x, (d.commitCpl .ring c).ctl.cplOut = d.ctl.cplOut ++ [x] ∧
      Cpl.gist x = Cpl.gist (d.stampCpl c) ∧
      (d.commitCpl .ring c).ringWay = (d.ctl.cpl.push, [], [], false, d.ctl.flights) := by
  have direct : d.commitCpl .ring c = d.ringCpl c := if_pos ⟨room, by simp [Dev.inTurn, behind], held, held0⟩
  have left := fun {γ : Type} (v : Dev → γ) (r : ∀ d : Dev, v d.quiet = v d) => of_quiet v r (takeSeq_quiet d)
  have seq : d.takeSeq.ringWay = d.ringWay := left Dev.ringWay fun _ => rfl
  have out : d.takeSeq.ctl.cplOut = d.ctl.cplOut := left (·.ctl.cplOut) fun _ => rfl
  obtain ⟨cpl, hc, h0, bh, fl⟩ : d.takeSeq.ctl.cpl = d.ctl.cpl ∧ d.takeSeq.ctl.heldCpl = [] ∧ d.takeSeq.ctl.heldCpl0 = [] ∧
      d.takeSeq.ctl.behind = false ∧ d.takeSeq.ctl.flights = d.ctl.flights := by
    simpa [Dev.ringWay, held, held0, behind] using seq
  refine ⟨{ d.stampCpl c with phase := d.ctl.cpl.phase }, ?_, rfl, ?_⟩
  · rw [direct, Dev.ringCpl, of_quiet (·.ctl.cplOut) (fun _ => rfl) (signal_quiet _ _)]
    simp only [fwd, Bool.false_eq_true, if_false, stampCpl_fwd, out]
  · rw [direct, Dev.ringCpl, of_quiet Dev.ringWay (fun _ => rfl) (signal_quiet _ _)]
    simp only [fwd, Bool.false_eq_true, if_false, stampCpl_fwd, Dev.ringWay, cpl, hc, h0, bh, fl]

/-- The commit writes the completions of two commands that have ended, the second of class 0, in their order. -/
theorem commit_writes_two {d : Dev} (outbox : d.ctl.outbox = {}) (room : d.ctl.cpl.room = true) (room2 : d.ctl.cpl.push.room = true)
    (held : d.ctl.heldCpl = []) (held0 : d.ctl.heldCpl0 = []) (behind : d.ctl.behind = false) {f g : Flight} {a b : Cpl}
    (flights : d.ctl.flights = [f, g]) (fdone : f.done = some a) (gdone : g.done = some b) (forigin : f.origin = .ring)
    (gorigin : g.origin = .ring) (first : opClass g.opcode = 0) (aown : a.own = false) (bown : b.own = false) (afwd : a.fwd = false)
    (bfwd : b.fwd = false) (an : a.opcode ≠ 0x0100 ∨ a.resp = []) (bn : b.opcode ≠ 0x0100 ∨ b.resp = []) :
    ∃ x y, d.commit.ctl.cplOut = d.ctl.cplOut ++ [x, y] ∧ d.commit.ctl.flights = [] ∧ Cpl.gist x = Cpl.gist a ∧
      Cpl.gist y = Cpl.gist b := by
  have settle : d.settleEpoch = d := by
    rw [Dev.settleEpoch, show (d.ctl.behind && d.oldRecords) = d.ctl.behind by rw [behind]; rfl]
  have may : ∀ c : Cpl, c.own = false → d.mayWrite c = true := fun c own => by simp [Dev.mayWrite, own, Dev.inTurn, behind]
  have fset : f.settled d.mayWrite = true := by simp [Flight.settled, fdone, may a aown]
  have gset : g.settled d.mayWrite = true := by simp [Flight.settled, gdone, may b bown]
  have writes : writeable d.mayWrite [] d.ctl.flights = [f, g] := by simp [flights, writeable, fset, gset, first]
  have leaves : unwritten d.mayWrite [] d.ctl.flights = [] := by simp [flights, unwritten, fset, gset, first]
  unfold Dev.commit
  rw [settle]
  simp only [writes, leaves, outbox, List.foldl_nil, List.foldl_cons, fdone, gdone, forigin, gorigin]
  generalize e1 : ({ d with ctl := { d.ctl with outbox := {}, upCpl := [], upEvt := [], sent := [], written := [], flights := [] } } : Dev) = e
  obtain ⟨out, cpl, hc, h0, bh, fl⟩ : e.ctl.cplOut = d.ctl.cplOut ∧ e.ctl.cpl = d.ctl.cpl ∧ e.ctl.heldCpl = [] ∧
      e.ctl.heldCpl0 = [] ∧ e.ctl.behind = false ∧ e.ctl.flights = [] := by rw [← e1]; exact ⟨rfl, rfl, held, held0, behind, rfl⟩
  obtain ⟨x, xout, xgist, xway⟩ := commitCpl_writes (cpl ▸ room) hc h0 bh afwd
  simp only [Dev.ringWay, Prod.mk.injEq] at xway
  obtain ⟨xcpl, xhc, xh0, xbh, xfl⟩ := xway
  obtain ⟨y, yout, ygist, yway⟩ := commitCpl_writes (by rw [xcpl, cpl]; exact room2) xhc xh0 xbh bfwd
  simp only [Dev.ringWay, Prod.mk.injEq] at yway
  obtain ⟨-, -, -, -, yfl⟩ := yway
  refine ⟨x, y, (of_quiet (·.ctl.cplOut) (fun _ => rfl) (leaving_quiet _ _ _)).trans ?_,
    (of_quiet (·.ctl.flights) (fun _ => rfl) (leaving_quiet _ _ _)).trans (yfl.trans (xfl.trans fl)),
    xgist.trans (gist_stampCpl _ _ an), ygist.trans (gist_stampCpl _ _ bn)⟩
  rw [yout, xout, out, List.append_assoc]
  rfl

/-- The second of two commands in flight is accepted and finished. -/
theorem behind_finish_ctl {d : Dev} {h : Hdr} {op : BitVec 16} {f : Flight} (flights : d.ctl.flights = [f, newFlight h op])
    (ended : f.done ≠ none) (c : Cpl) : ∃ x, ((d.accept h.tag).finish h.tag c).ctl =
      { d.ctl with flights := [f, { newFlight h op with accepted := true, done := some x }] } ∧
      Cpl.gist x = (h.tag, h.stream, op, c.status, c.fin, c.resp) ∧ x.own = c.own ∧ x.fwd = c.fwd := by
  have accepted : (d.accept h.tag).ctl.flights = [f, { newFlight h op with accepted := true }] := by
    simp [Dev.accept, flights, modFlight, ended, newFlight]
  have found : (d.accept h.tag).flight h.tag = some { newFlight h op with accepted := true } := by
    simp [Dev.flight, accepted, ended, newFlight]
  refine ⟨{ c with
    tag := h.tag, stream := h.stream, opcode := op, position := (d.accept h.tag).tree.position
    respBytes := respLen op c.resp, trunc := ((newFlight h op).respLen.map fun l => decide (respLen op c.resp > l)).getD false },
    ?_, rfl, rfl, rfl⟩
  rw [Dev.finish, found]
  simp only [newFlight, Bool.false_eq_true, if_false, accepted, modFlight, ended, and_false, and_self, if_true]
  rfl

theorem ctlFlushStream_preempts {s : State} {h : Hdr} {m : BitVec 32} {f : Flight} (manager : s.straps.isWorker = false)
    (ready : s.dev.boot.ready = true) (normal : s.dev.fc.decaf = none) (rsv : h.rsv = false) (behind : s.dev.ctl.behind = false)
    (outbox : s.dev.ctl.outbox = {}) (held : s.dev.ctl.heldCpl = []) (held0 : s.dev.ctl.heldCpl0 = [])
    (room : s.dev.ctl.cpl.room = true) (room2 : s.dev.ctl.cpl.push.room = true) (flights : s.dev.ctl.flights = [f])
    (waiting : f.accepted = false) (open_ : f.done = none) (tag : f.tag ≠ h.tag) (origin : f.origin = .ring) (group : f.group = false)
    (class_ : opClass f.opcode ≠ 0) (stream : m.getLsbD f.stream.toNat = true) :
    ∃ t x y, exec (.ctlFlushStream h m) s = .next t ∧ t.dev.ctl.cplOut = s.dev.ctl.cplOut ++ [x, y] ∧ x.tag = f.tag ∧
      x.status = stPreempted ∧ y.tag = h.tag ∧ y.status = stOk ∧ y.resp = [1] ∧ t.dev.ctl.flights = [] := by
  have free : (s.dev.advance h.t).flight h.tag = none := by simp [Dev.flight, flights, tag]
  have ctl : (s.dev.takenUp h 0x0009).ctl = { s.dev.ctl with
      flights := [f, newFlight h 0x0009], orphans := (s.dev.advance h.t).orphaned h.tag } := by
    unfold Dev.takenUp Dev.ensureFlight newFlight
    simp [free, flights, Dev.orphaned]
  have gate : ((s.dev.advance h.t).ensureFlight h 0x0009).gate .ring h 0x0009 = none := by simp [Dev.gate, normal, ready, rsv]
  have turn : (s.dev.advance h.t).mustWait h 0x0009 = false := by
    rw [Dev.mustWait, show decide (opClass 0x0009 ≠ 0) = false by decide]
    rfl
  have up : s.dev.takeUp h 0x0009 = .ok (s.dev.takenUp h 0x0009) := by
    unfold Dev.takeUp
    simp only [free, turn, gate, Bool.false_eq_true, if_false]
    rfl
  have flushed : ∀ d : Dev, d.ctl.flights = [f, newFlight h 0x0009] →
      (d.ctl.flights.filter fun f => f.done == none && !f.accepted && f.tag != h.tag && m.getLsbD f.stream.toNat &&
        decide (opClass f.opcode ≠ 0)) = [f] := fun d e => by
    simp [e, open_, waiting, tag, stream, class_, newFlight]
  have runs : exec (.ctlFlushStream h m) s =
      .next { s with dev := (((s.dev.takenUp h 0x0009).endWhole f.tag stPreempted).okResp h.tag [1]).commit } := by
    refine (onDev_runs ?_ : hostCmd s h 0x0009 _ = _)
    rw [Dev.command, up]
    dsimp only
    rw [if_neg (by simp [manager]), flushed _ (by rw [ctl])]
    rfl
  obtain ⟨a, b, path, adone, bdone⟩ : ∃ a b : Cpl, (((s.dev.takenUp h 0x0009).endWhole f.tag stPreempted).okResp h.tag [1]).ctl =
      { s.dev.ctl with
        flights := [{ f with targets := [], done := some a }, { newFlight h 0x0009 with accepted := true, done := some b }]
        orphans := (s.dev.advance h.t).orphaned h.tag } ∧
      (Cpl.gist a = (f.tag, f.stream, f.opcode, stPreempted, true, []) ∧ a.own = false ∧ a.fwd = false) ∧
      (Cpl.gist b = (h.tag, h.stream, 0x0009, stOk, true, [1]) ∧ b.own = false ∧ b.fwd = false) := by
    have ended : ((s.dev.takenUp h 0x0009).endWhole f.tag stPreempted).ctl.flights = [{ f with targets := [], done := some {
        tag := f.tag, stream := f.stream, opcode := f.opcode, status := stPreempted
        position := (s.dev.takenUp h 0x0009).tree.position } }, newFlight h 0x0009] := by
      have before : (s.dev.takenUp h 0x0009).ctl.flights = [f, newFlight h 0x0009] := by rw [ctl]
      rw [Dev.endWhole]
      dsimp only
      rw [before, modFlight, if_pos ⟨rfl, open_⟩]
    have rest : ((s.dev.takenUp h 0x0009).endWhole f.tag stPreempted).ctl = { s.dev.ctl with
        flights := ((s.dev.takenUp h 0x0009).endWhole f.tag stPreempted).ctl.flights
        orphans := (s.dev.advance h.t).orphaned h.tag } := by
      rw [Dev.endWhole, ctl]
    generalize (s.dev.takenUp h 0x0009).endWhole f.tag stPreempted = d at ended rest
    obtain ⟨b, ctl, gist, own, fwd⟩ := behind_finish_ctl (d := d) (h := h) (op := 0x0009) ended (by simp) { resp := [1] }
    exact ⟨_, b, by rw [Dev.okResp, ctl, rest], ⟨rfl, rfl, rfl⟩, gist, own, fwd⟩
  generalize ((s.dev.takenUp h 0x0009).endWhole f.tag stPreempted).okResp h.tag [1] = d at runs path
  obtain ⟨agist, aown, afwd⟩ := adone
  obtain ⟨bgist, bown, bfwd⟩ := bdone
  simp only [Cpl.gist, Prod.mk.injEq] at agist bgist
  obtain ⟨atag, -, -, astatus, -, aresp⟩ := agist
  obtain ⟨btag, -, bop, bstatus, -, bresp⟩ := bgist
  obtain ⟨x, y, out, gone, xgist, ygist⟩ := commit_writes_two (d := d) (by rw [path]; exact outbox) (by rw [path]; exact room)
    (by rw [path]; exact room2) (by rw [path]; exact held) (by rw [path]; exact held0) (by rw [path]; exact behind)
    (congrArg Ctl.flights path) rfl rfl origin rfl (show opClass 0x0009 = 0 by decide) aown bown afwd bfwd (.inr aresp)
    (.inl (by rw [bop]; decide))
  simp only [Cpl.gist, Prod.mk.injEq] at xgist ygist
  obtain ⟨xtag, -, -, xstatus, -, -⟩ := xgist
  obtain ⟨ytag, -, -, ystatus, -, yresp⟩ := ygist
  refine ⟨_, x, y, runs, ?_, xtag.trans atag, xstatus.trans astatus, ytag.trans btag, ystatus.trans bstatus, yresp.trans bresp, gone⟩
  dsimp only
  rw [out, path]

end Sys2Proof.Machine
open Sys2Proof Sys2Proof.Machine

/-- Settles O21, by what each set-up writes, and by the commit of the two completions of a flush. -/
theorem controlSetup : Obligations.ControlSetup := by
  unfold Obligations.ControlSetup
  refine ⟨fun s h i manager => ⟨?_, ?_, ?_, ?_, ?_⟩, ?_⟩
  · exact fun n base size index aligned whole some_ short inside none_ =>
      ctlWindow_sets i manager index aligned whole some_ short inside none_
  · exact fun base size aligned inside power least most carafe packet =>
      ctlResults_sets i manager aligned inside power least most carafe packet
  · exact fun k v en index vector => ctlEvmap_sets i manager en index vector
  · exact fun m v vector => ctlCplmap_sets i manager vector
  · exact fun v count holdoff vector least most => ctlIrqmod_sets i manager vector least most
  · exact fun s h m f manager ready normal rsv behind outbox held held0 room room2 flights waiting open_ tag origin group class_
      stream => ctlFlushStream_preempts manager ready normal rsv behind outbox held held0 room room2 flights waiting open_ tag
        origin group class_ stream

end

section
/-!
PROOFS. The flash port (R475 to R481): its commands take the port, its sequences, and its memory window.
-/
namespace Sys2Proof.Machine

/-! ### The FLASH commands -/

@[simp] theorem takenUp_flash (d : Dev) (h : Hdr) (op : BitVec 16) : (d.takenUp h op).flash = d.flash := by simp [Dev.takenUp]

theorem takenUp_inS3 (d : Dev) (h : Hdr) (op : BitVec 16) : (d.takenUp h op).inS3 = d.inS3 := by
  simp [Dev.inS3, Dev.entry, Dev.takenUp]

/-- An operation that finds the port idle takes it (R476). -/
theorem flashQueue_takes {d : Dev} (idle : d.flash.op = none) (g : Tag) (o : FlashOp) :
    d.flashQueue g o = { d.accept g with flash := { d.flash with op := some { o with tag := some g, since := d.mono } } } := by
  rw [Dev.flashQueue]
  exact if_pos (by simp [idle])

section
variable {s : State} {h : Hdr} (i : Idle s h) (idle : s.dev.flash.op = none)
include i

/-- A FLASH command whose operation takes the idle port waits for its end. -/
theorem flash_waits {op : BitVec 16} (c : opClass op ≠ 0) (o : FlashOp) (idle : s.dev.flash.op = none) :
    ∃ t, (∀ body : Dev → Dev, body (s.dev.takenUp h op) = (s.dev.takenUp h op).flashQueue h.tag o → hostCmd s h op body = .next t) ∧
      Keeps [.flash] s t ∧ Waits s t h op ∧
      t.dev.flash.op = some { o with tag := some h.tag, since := (s.dev.takenUp h op).mono } := by
  have taken := flashQueue_takes (d := s.dev.takenUp h op) (by simpa using idle) h.tag o
  have frame : SameBut [.flash] (s.dev.takenUp h op) ((s.dev.takenUp h op).flashQueue h.tag o) := by
    rw [taken]
    exact (accept_keeps [.flash] _ h.tag).trans (setFlash_keeps _ _)
  have waits := waits_of_accepted i op (d := (s.dev.takenUp h op).flashQueue h.tag o) _ (by rw [taken])
  refine ⟨_, fun body meaning => hostCmd_runs i op meaning, keeps_of_takenUp c frame, waits, ?_⟩
  dsimp only
  rw [commit_flash, taken]

include idle

theorem flashRead_waits {a n : BitVec 32} (even : a.toNat % 2 = 0) (least : 64 ≤ n.toNat) (most : n.toNat ≤ 0x100000)
    (whole : n.toNat % 64 = 0) (inside : s.dev.flash.beyond a.toNat n.toNat = false) :
    ∃ t o, exec (.flashRead h a n) s = .next t ∧ Keeps [.flash] s t ∧ Waits s t h 0x1000 ∧ t.dev.flash.op = some o ∧
      o.tag = some h.tag ∧ o.kind = .read ∧ o.addr = a.toNat ∧ o.len = n.toNat ∧ o.claiming = true := by
  have fits : ¬ (n.toNat < 64 ∨ n.toNat > 0x100000 ∨ n.toNat % 64 ≠ 0 ∨ s.dev.flash.beyond a.toNat n.toNat = true) := by
    rintro (x | x | x | x)
    · omega
    · omega
    · exact x whole
    · rw [inside] at x; exact Bool.noConfusion x
  obtain ⟨t, runs, frame, waits, op⟩ :=
    flash_waits i (op := 0x1000) (by decide) { kind := .read, addr := a.toNat, len := n.toNat, opcode := 0xEE } idle
  refine ⟨t, _, runs _ ?_, frame, waits, op, rfl, rfl, rfl, rfl, rfl⟩
  dsimp only
  rw [takenUp_flash, decide_eq_false fits, decide_eq_false (by simp [even])]
  rfl

theorem flashWrite_waits {a : BitVec 32} {data : Bytes} (may : hostWritable a.toNat data.length = true) (even : a.toNat % 2 = 0)
    (some_ : data ≠ []) (later : s.dev.inS3 = false) :
    ∃ t o, exec (.flashWrite h a data) s = .next t ∧ Keeps [.flash] s t ∧ Waits s t h 0x1001 ∧ t.dev.flash.op = some o ∧
      o.kind = .write ∧ o.addr = a.toNat ∧ o.data = data := by
  obtain ⟨t, runs, frame, waits, op⟩ := flash_waits i (op := 0x1001) (by decide)
    { kind := .write, addr := a.toNat, len := data.length, data := data, opcode := 0x12 } idle
  refine ⟨t, _, runs _ ?_, frame, waits, op, rfl, rfl, rfl⟩
  rw [if_neg (by simp [may]), if_neg (by simp [even, some_]), if_neg (by simp [takenUp_inS3, later])]

theorem flashErase_waits {a n : BitVec 32} (may : hostWritable a.toNat n.toNat = true) (aligned : a.toNat % 4096 = 0)
    (whole : n.toNat % 4096 = 0) (some_ : n ≠ 0) (later : s.dev.inS3 = false) :
    ∃ t o, exec (.flashErase h a n) s = .next t ∧ Keeps [.flash] s t ∧ Waits s t h 0x1002 ∧ t.dev.flash.op = some o ∧
      o.kind = .erase ∧ o.addr = a.toNat ∧ o.len = n.toNat := by
  obtain ⟨t, runs, frame, waits, op⟩ := flash_waits i (op := 0x1002) (by decide)
    { kind := .erase, addr := a.toNat, len := n.toNat, opcode := 0x21 } idle
  refine ⟨t, _, runs _ ?_, frame, waits, op, rfl, rfl, rfl⟩
  rw [if_neg (by simp [may]), if_neg (by rintro (x | x | x); exacts [x aligned, x whole, some_ x]), if_neg (by simp [takenUp_inS3, later])]

theorem flashInfo_waits : ∃ t o, exec (.flashInfo h) s = .next t ∧ Keeps [.flash] s t ∧ Waits s t h 0x1003 ∧
    t.dev.flash.op = some o ∧ o.kind = .info := by
  obtain ⟨t, runs, frame, waits, op⟩ := flash_waits i (op := 0x1003) (by decide) { kind := .info, opcode := 0x9F } idle
  exact ⟨t, _, runs _ rfl, frame, waits, op, rfl⟩

theorem flashXfer_waits {op : BitVec 8} (a : BitVec 32) {n : BitVec 16} (known : op ∈ [(0x05 : BitVec 8), 0x9F, 0x5A])
    (least : 2 ≤ n.toNat) (most : n.toNat ≤ 256) :
    ∃ t o, exec (.flashXfer h op a n) s = .next t ∧ Keeps [.flash] s t ∧ Waits s t h 0x1004 ∧ t.dev.flash.op = some o ∧
      o.kind = .xfer ∧ o.opcode = op := by
  obtain ⟨t, runs, frame, waits, held⟩ := flash_waits i (op := 0x1004) (by decide)
    { kind := .xfer, addr := a.toNat, len := n.toNat, opcode := op } idle
  refine ⟨t, _, runs _ ?_, frame, waits, held, rfl, rfl⟩
  rw [if_neg (not_not.2 known), if_neg (by omega)]

omit idle in
theorem flashWrite_denied {a : BitVec 32} {data : Bytes} (may : hostWritable a.toNat data.length = false) :
    ∃ t, exec (.flashWrite h a data) s = .next t ∧ Keeps [] s t ∧ Answers s t h 0x1001 stDenied [] := by
  obtain ⟨frame, answer⟩ := refused_ends i 0x1001 (by decide) stDenied 0 0 0
  exact ⟨_, hostCmd_runs i 0x1001 (if_pos (by simp [may])), frame, answer⟩

end

end Sys2Proof.Machine

open Sys2Proof Sys2Proof.Machine

/-- Settles O29, by what an operation that takes the idle port leaves. -/
theorem flashCommands : Obligations.FlashCommands := by
  unfold Obligations.FlashCommands
  exact fun s h i idle => ⟨fun a n even least most whole inside => flashRead_waits i idle even least most whole inside,
    fun a data may even some_ later => flashWrite_waits i idle may even some_ later, fun a data may => flashWrite_denied i may,
    fun a n may aligned whole some_ later => flashErase_waits i idle may aligned whole some_ later, flashInfo_waits i idle,
    fun op a n known least most => flashXfer_waits i idle a known least most⟩

end

section
/-!
PROOFS. The sequences of the flash port, and its memory window (R477 to R481).
-/
namespace Sys2Proof.Machine

/-! ### Sequences -/

/-- A corrected fault of the flash port changes the collector and the log alone. -/
theorem report43_corrected {d : Dev} (inj : d.fc.inj = none) (last : (d.fc.perLine.get {} 43).last = none)
    (room : (d.log.queue.filter fun x => x.kind == 1).length < 16) (cause unit detail : Nat) :
    (d.report 43 0 cause unit detail).flash = d.flash ∧ SameBut [.flash, .fc] d (d.report 43 0 cause unit detail) := by
  obtain ⟨f, x, dev, -⟩ := report_reacts (d := d) 43 0 cause unit detail inj room
  have cls : d.classNow 43 0 = 0 := classNow_of_no_last (cls := (0 : BitVec 2)) last
  have result : d.report 43 0 cause unit detail = ({ d with fc := f } : Dev).pushLog x := by
    rw [dev, cls, Dev.react, if_pos rfl, if_neg (by decide)]
  rw [result]
  exact ⟨rfl, ((setFc_keeps d f).mono (by simp)).trans (pushLog_keeps _ _ _)⟩

section
variable {s : State} {o : FlashOp} (n : Nat) (held : s.dev.flash.op = some o)
include held

theorem flashSelectClaim_begins (claims : o.claiming = true) (ready : o.backoff = false)
    (late : o.since + usSteps ≤ (s.dev.advance n).mono) :
    ∃ t, exec (.flashSelectClaim n true) s = .next t ∧ Keeps [.flash] s t ∧
      t.dev.flash.op = some { o with claiming := false, since := (s.dev.advance n).mono, waited := 0, issued := false } := by
  refine ⟨_, (onDev_runs (d := (s.dev.advance n).modOp fun _ =>
    { o with claiming := false, since := (s.dev.advance n).mono, waited := 0, issued := false }) ?_ :
      execFlashSelectClaim n true s = _), keeps_commit (advance_keeps_trans n (setFlash_keeps _ _)), ?_⟩
  · rw [held]
    dsimp only
    rw [if_neg (by simp [claims, ready]; omega)]
    rfl
  · dsimp only
    rw [commit_flash, Dev.modOp, Dev.advance_flash, held]
    rfl

theorem flashCollisionRetry_ends (back : o.backoff = true)
    (late : o.since + (s.dev.tree.position.toNat + 1) * 10 * usSteps ≤ (s.dev.advance n).mono) :
    ∃ t, exec (.flashCollisionRetry n) s = .next t ∧ Keeps [.flash] s t ∧
      t.dev.flash.op = some { o with backoff := false, since := (s.dev.advance n).mono } := by
  refine ⟨_, (onDev_runs (d := (s.dev.advance n).modOp fun o => { o with backoff := false, since := (s.dev.advance n).mono }) ?_ :
      execFlashCollisionRetry n s = _), keeps_commit (advance_keeps_trans n (setFlash_keeps _ _)), ?_⟩
  · rw [held]
    dsimp only
    rw [if_neg (by simp [back]; omega)]
  · dsimp only
    rw [commit_flash, Dev.modOp, Dev.advance_flash, held]
    rfl

section
variable (inj : s.dev.fc.inj = none) (last : (s.dev.fc.perLine.get {} 43).last = none)
  (room : (s.dev.log.queue.filter fun x => x.kind == 1).length < 16) (claimed : o.claiming = false)
include inj last room claimed

theorem flashSelectCollision_backs_off (few : o.collisions < 2) :
    ∃ t, exec (.flashSelectCollision n) s = .next t ∧ Keeps [.flash, .fc] s t ∧
      t.dev.flash.collide = true ∧ t.dev.flash.collisions = s.dev.flash.collisions + 1 ∧
      t.dev.flash.op = some { o with collisions := o.collisions + 1, claiming := true, backoff := true, moved := 0,
                                     issued := false, since := (s.dev.advance n).mono } := by
  let d : Dev := ({ s.dev.advance n with flash := { (s.dev.advance n).flash with
    collide := true, collisions := (s.dev.advance n).flash.collisions + 1 } } : Dev).modOp fun _ =>
      { o with collisions := o.collisions + 1, claiming := true, backoff := true, moved := 0, issued := false, since := (s.dev.advance n).mono }
  have runs : exec (.flashSelectCollision n) s = .next { s with dev := (d.report 43 0 8 0xFFFF 0).commit } := by
    refine (onDev_runs ?_ : execFlashSelectCollision n s = _)
    rw [held]
    dsimp only
    rw [if_neg (by simp [claimed]), if_neg (by omega)]
    rfl
  obtain ⟨flash, frame⟩ := report43_corrected (d := d) (by simpa [d, Dev.modOp] using inj) (by simpa [d, Dev.modOp] using last)
    (by simpa [d, Dev.modOp] using room) 8 0xFFFF 0
  have moved : SameBut [.flash, .fc] s.dev d := advance_keeps_trans n ((setFlash_keeps (s.dev.advance n) _).mono (by simp))
  refine ⟨_, runs, keeps_commit (moved.trans frame), ?_⟩
  dsimp only
  rw [commit_flash, flash]
  simp [d, Dev.modOp, held]

theorem flashBadWord_repeats (first : o.badWords = 0) :
    ∃ t, exec (.flashBadWord n) s = .next t ∧ Keeps [.flash, .fc] s t ∧
      t.dev.flash.badWords = s.dev.flash.badWords + 1 ∧
      t.dev.flash.op = some { o with badWords := 1, claiming := true, moved := 0, issued := false,
                                     since := (s.dev.advance n).mono } := by
  let d : Dev := ({ s.dev.advance n with flash := { (s.dev.advance n).flash with
    badWords := (s.dev.advance n).flash.badWords + 1 } } : Dev).modOp fun _ =>
      { o with badWords := o.badWords + 1, claiming := true, moved := 0, issued := false, since := (s.dev.advance n).mono }
  have runs : exec (.flashBadWord n) s = .next { s with dev := (d.report 43 0 5 0xFFFF 0).commit } := by
    refine (onDev_runs ?_ : execFlashBadWord n s = _)
    rw [held]
    dsimp only
    rw [if_neg (by simp [claimed]), if_neg (by omega)]
    rfl
  obtain ⟨flash, frame⟩ := report43_corrected (d := d) (by simpa [d, Dev.modOp] using inj) (by simpa [d, Dev.modOp] using last)
    (by simpa [d, Dev.modOp] using room) 5 0xFFFF 0
  have moved : SameBut [.flash, .fc] s.dev d := advance_keeps_trans n ((setFlash_keeps (s.dev.advance n) _).mono (by simp))
  refine ⟨_, runs, keeps_commit (moved.trans frame), ?_⟩
  dsimp only
  rw [commit_flash, flash]
  simp [d, Dev.modOp, held, first]

end

section
variable (claimed : o.claiming = false) (late : o.since + s.dev.flash.poll * usSteps ≤ (s.dev.advance n).mono)
include claimed late

theorem flashStatusPoll_busy (good : Bool) {w : Nat} (waited : w = o.waited + ((s.dev.advance n).mono - o.since) / usSteps)
    (short : w ≤ o.limit) :
    ∃ t, exec (.flashStatusPoll n true good) s = .next t ∧ Keeps [.flash] s t ∧
      t.dev.flash.op = some { o with waited := w, since := (s.dev.advance n).mono } := by
  subst waited
  refine ⟨_, (onDev_runs (d := (s.dev.advance n).modOp fun _ =>
    { o with waited := o.waited + ((s.dev.advance n).mono - o.since) / usSteps, since := (s.dev.advance n).mono }) ?_ :
      execFlashStatusPoll n true good s = _), keeps_commit (advance_keeps_trans n (setFlash_keeps _ _)), ?_⟩
  · rw [held]
    dsimp only
    rw [if_neg (by simp [claimed]; omega), if_pos rfl, if_neg (by simpa [FlashOp.limit] using short)]
  · dsimp only
    rw [commit_flash, Dev.modOp, Dev.advance_flash, held]
    rfl

omit held claimed late in
/-- Erased bytes are 0xFF, and every other byte stays (R475). -/
theorem eraseBytes_get (d : Dev) (a n k : Nat) : (d.eraseBytes a n).board.bytes.get 0xFF k =
    if k < a ∨ a + n ≤ k then d.board.bytes.get 0xFF k else 0xFF := by
  rw [Dev.eraseBytes]
  simp only [Tab.get, lookup_filter_key (fun i => decide (i < a) || decide (a + n ≤ i)), Bool.or_eq_true, decide_eq_true_eq]
  split <;> rfl

theorem flashStatusPoll_erased (good : Bool) (issued : o.issued = true) (erase : o.kind = .erase) (own : o.tag = none)
    (last : o.len ≤ o.moved + o.unit) :
    ∃ t, exec (.flashStatusPoll n false good) s = .next t ∧ Keeps [.flash, .board] s t ∧
      t.dev.flash.op = (s.dev.flash.ops.head?.map fun x => { x with since := (s.dev.advance n).mono }) ∧
      (∀ a, a < o.addr + o.moved ∨ o.addr + o.moved + o.unit ≤ a →
        t.dev.board.bytes.get 0xFF a = s.dev.board.bytes.get 0xFF a) ∧
      ∀ a, o.addr + o.moved ≤ a → a < o.addr + o.moved + o.unit → t.dev.board.bytes.get 0xFF a = 0xFF := by
  let e : Dev := (s.dev.advance n).eraseBytes (o.addr + o.moved) o.unit
  let d : Dev := { e with flash := { e.flash with
    op := e.flash.ops.head?.map fun o => { o with since := e.mono }, ops := e.flash.ops.tail } }
  have flash : e.flash = s.dev.flash := Dev.advance_flash ..
  have port : e.flash.op = some o := (congrArg Flash.op flash).trans held
  have ends : e.endOp {} = d := by
    rw [Dev.endOp, port]
    dsimp only
    rw [own]
  have runs : exec (.flashStatusPoll n false good) s = .next { s with dev := d.commit } := by
    refine (onDev_runs ?_ : execFlashStatusPoll n false good s = _)
    rw [held]
    dsimp only
    rw [if_neg (by simp [claimed]; omega), if_neg (by simp), if_neg (by simp [issued]), Dev.unitDone, if_neg (by simp; omega),
      if_neg (by simp [erase]), if_neg (by simp [erase])]
    exact ends
  have kept : SameBut [.flash, .board] s.dev d :=
    advance_keeps_trans n (((setBoard_keeps (s.dev.advance n) _).mono (by simp)).trans ((setFlash_keeps e _).mono (by simp)))
  have bytes : ∀ k, d.board.bytes.get 0xFF k = if k < o.addr + o.moved ∨ o.addr + o.moved + o.unit ≤ k then
      s.dev.board.bytes.get 0xFF k else 0xFF := fun k => (eraseBytes_get _ _ _ _).trans (by rw [Dev.advance_board])
  refine ⟨_, runs, keeps_commit kept, ?_, fun a far => ?_, fun a low high => ?_⟩
  · dsimp only
    rw [commit_flash, ← flash]
    rfl
  · dsimp only
    rw [commit_board, bytes, if_pos far]
  · dsimp only
    rw [commit_board, bytes, if_neg (by omega)]

end

end

/-! ### The memory window -/

section
variable {s : State} (n : Nat) (idle : s.dev.flash.op = none)
include idle

theorem xipRead_reads {a : BitVec 32} (inside : a.toNat < windowSize) (empty : s.dev.flash.xbuf = none) :
    ∃ t, exec (.xipRead n a) s = .next t ∧ Keeps [.flash] s t ∧
      t.dev.flash.xread = (List.range 64).map fun i => s.dev.board.byteAt s.dev.free (a.toNat / 64 * 64 + i) := by
  have flushed : (s.dev.advance n).flushXbuf = s.dev.advance n := by rw [Dev.flushXbuf, Dev.advance_flash, empty]
  have kept : SameBut [.flash] s.dev (({ s.dev.advance n with flash := { (s.dev.advance n).flash with
      xread := (s.dev.advance n).flashBytes (a.toNat / 64 * 64) 64 } } : Dev).skipFree (a.toNat / 64 * 64 + 64)) :=
    advance_keeps_trans n fun p hp => by cases p <;> first | (simp at hp; done) | rfl | exact Timeline.kept_refl _
  refine ⟨_, (onDev_runs ?_ : execXipRead n a s = _), keeps_commit kept, ?_⟩
  · rw [if_neg (by simp [idle]; omega), flushed]
  · dsimp only
    rw [commit_flash, Dev.skipFree, Dev.flashBytes]
    simp only [Dev.advance_board, Dev.advance_free]

theorem xipStore_opens {a : BitVec 32} (v : BitVec 8) (inside : a.toNat < windowSize) (empty : s.dev.flash.xbuf = none) :
    ∃ t, exec (.xipStore n a [v]) s = .next t ∧ Keeps [.flash] s t ∧
      t.dev.flash.xbuf = some { page := a.toNat / 256, off := a.toNat % 256, data := [v], since := (s.dev.advance n).mono } := by
  have stored : (s.dev.advance n).storeBytes a.toNat [v] = { s.dev.advance n with flash := { s.dev.flash with
      xbuf := some { page := a.toNat / 256, off := a.toNat % 256, data := [v], since := (s.dev.advance n).mono } } } := by
    rw [Dev.storeBytes, Dev.storeBytes, Dev.storeByte]
    simp only [Dev.advance_flash, empty, Dev.flushXbuf]
  refine ⟨_, (onDev_runs (d := { s.dev.advance n with flash := { s.dev.flash with
      xbuf := some { page := a.toNat / 256, off := a.toNat % 256, data := [v], since := (s.dev.advance n).mono } } }) ?_ :
      execXipStore n a [v] s = _), keeps_commit (advance_keeps_trans n (setFlash_keeps _ _)), ?_⟩
  · rw [if_neg (by simp [idle]; omega), stored]
  · dsimp only
    rw [commit_flash]

theorem xipBufferFlush_programs {b : XBuf} {v : BitVec 8} (open_ : s.dev.flash.xbuf = some b) (one : b.data = [v])
    (late : b.since + usSteps ≤ (s.dev.advance n).mono) :
    ∃ t, exec (.xipBufferFlush n) s = .next t ∧ Keeps [.flash, .board] s t ∧ t.dev.flash.xbuf = none ∧
      ∀ a, t.dev.board.bytes.get 0xFF a =
        (if a = b.page * 256 + b.off then s.dev.board.bytes.get 0xFF a &&& v else s.dev.board.bytes.get 0xFF a) := by
  let e : Dev := { s.dev.advance n with flash := { (s.dev.advance n).flash with xbuf := none } }
  let d : Dev := { e with board := { e.board with bytes := e.board.bytes.mod 0xFF (b.page * 256 + b.off) fun w => w &&& v } }
  have flushed : (s.dev.advance n).flushXbuf = d := by
    rw [Dev.flushXbuf, show (s.dev.advance n).flash.xbuf = some b by rw [Dev.advance_flash]; exact open_]
    dsimp only
    rw [one]
    rfl
  have kept : SameBut [.flash, .board] s.dev d :=
    advance_keeps_trans n (((setFlash_keeps (s.dev.advance n) _).mono (by simp)).trans ((setBoard_keeps e _).mono (by simp)))
  have board : d.board.bytes = s.dev.board.bytes.mod 0xFF (b.page * 256 + b.off) fun w => w &&& v := by
    rw [show d.board.bytes = (s.dev.advance n).board.bytes.mod 0xFF (b.page * 256 + b.off) fun w => w &&& v from rfl,
      Dev.advance_board]
  refine ⟨_, (onDev_runs ?_ : execXipBufferFlush n s = _), keeps_commit kept, ?_, fun a => ?_⟩
  · rw [open_]
    dsimp only
    rw [if_neg (by simp [idle]; omega), flushed]
  · dsimp only
    rw [commit_flash]
  · dsimp only
    rw [commit_board, board]
    split
    · next e => subst e; exact Tab.get_mod_self _ _ _ _
    · next ne => exact Tab.get_mod_of_ne _ _ ne _

end

end Sys2Proof.Machine

open Sys2Proof Sys2Proof.Machine

/-- Settles O30, by what each step of a sequence leaves of the operation that has the port, and by the write-combining buffer. -/
theorem flashEvents : Obligations.FlashEvents := by
  unfold Obligations.FlashEvents
  refine ⟨fun s n o held inj last room => ⟨flashSelectClaim_begins n held, fun claimed =>
    ⟨flashSelectCollision_backs_off n held inj last room claimed, flashBadWord_repeats n held inj last room claimed,
      fun late => ⟨fun good w waited short => flashStatusPoll_busy n held claimed late good waited short,
        fun good issued erase own most => flashStatusPoll_erased n held claimed late good issued erase own most⟩⟩,
    flashCollisionRetry_ends n held⟩, fun s n idle => ⟨fun a inside empty => xipRead_reads n idle inside empty,
      fun a v inside empty => xipStore_opens n idle v inside empty,
      fun b v open_ one late => xipBufferFlush_programs n idle open_ one late⟩⟩

end

section
/-!
PROOFS. The log's writer (R445, R448, R449, R452): records are written, closed and copied, and a freeze ends itself.
-/
namespace Sys2Proof.Machine

/-! ### Operations of the log -/

/-- What can be read of the log beside the writer's queue stays through a commit. -/
theorem commit_log_of {γ : Type} (v : Log → γ) (r : ∀ l : Log, v l.setting = v l) (d : Dev) : v d.commit.log = v d.log :=
  (r _).symm.trans ((congrArg v (commit_log_setting d)).trans (r _))

@[simp] theorem commit_log_ram (d : Dev) : d.commit.log.ram = d.log.ram := commit_log_of Log.ram (fun _ => rfl) d
@[simp] theorem commit_log_newest (d : Dev) : d.commit.log.newest = d.log.newest := commit_log_of Log.newest (fun _ => rfl) d
@[simp] theorem commit_log_closing (d : Dev) : d.commit.log.closing = d.log.closing := commit_log_of Log.closing (fun _ => rfl) d
@[simp] theorem commit_log_gen (d : Dev) : d.commit.log.gen = d.log.gen := commit_log_of Log.gen (fun _ => rfl) d
@[simp] theorem commit_log_freeze (d : Dev) : d.commit.log.freeze = d.log.freeze := commit_log_of Log.freeze (fun _ => rfl) d
@[simp] theorem commit_log_timeout (d : Dev) : d.commit.log.timeout = d.log.timeout := commit_log_of Log.timeout (fun _ => rfl) d
@[simp] theorem commit_log_nonce (d : Dev) : d.commit.log.nonce = d.log.nonce := commit_log_of Log.nonce (fun _ => rfl) d
@[simp] theorem commit_log_syncTags (d : Dev) : d.commit.log.syncTags = d.log.syncTags := commit_log_of Log.syncTags (fun _ => rfl) d

theorem setLog_keeps (d : Dev) (x : Log) : SameBut [.log] d { d with log := x } :=
  sameBut_single fun p hp => by cases p <;> first | exact absurd rfl hp | rfl | exact Timeline.kept_refl _

/-- A change of the log alone, as what it leaves beside. -/
theorem keeps_of_setLog {d e : Dev} (h : ∃ x, e = { d with log := x }) : SameBut [.log] d e := by
  obtain ⟨x, rfl⟩ := h
  exact setLog_keeps d x

/-- An open record closes. -/
theorem closeLog_of_open {d : Dev} {k : Nat} {x : LogRec} (holds : d.log.ram.get none k = some x) (open_ : x.closed = false) :
    d.closeLog k = { d with log := { d.log with
      ram := d.log.ram.mod none k (·.map fun r => { r with closed := true }), closing := d.log.closing ++ [k], gen := d.log.gen + 1 } } := by
  rw [Dev.closeLog, if_pos (by simp [holds, open_])]
  rfl

theorem closeLog_eq (d : Dev) (k : Nat) : ∃ x : Log, d.closeLog k = { d with log := x } ∧ x.freeze = d.log.freeze ∧
    x.queue = d.log.queue ∧ x.hold = d.log.hold ∧ x.syncTags = d.log.syncTags := by
  unfold Dev.closeLog
  split
  · exact ⟨_, rfl, rfl, rfl, rfl, rfl⟩
  · exact ⟨_, rfl, rfl, rfl, rfl, rfl⟩

/-- A record just written, or closed at once, is that of its item. -/
theorem closeLog_ram_self {d : Dev} {k : Nat} {x : LogRec} (holds : d.log.ram.get none k = some x) :
    ∃ y, (d.closeLog k).log.ram.get none k = some y ∧ y.item = x.item ∧ y.seq = x.seq := by
  unfold Dev.closeLog
  split
  · exact ⟨{ x with closed := true }, (Tab.get_mod_self _ _ _ _).trans (by rw [holds]; rfl), rfl, rfl⟩
  · exact ⟨x, holds, rfl, rfl⟩

theorem closeLog_newest (d : Dev) (k : Nat) : (d.closeLog k).log.newest = d.log.newest := by
  unfold Dev.closeLog
  split <;> rfl

theorem dealt_of_plain {d : Dev} {i : LogItem} (plain : i.injected = false) : (d.dealt i).log = d.log ∧ SameBut [] d (d.dealt i) := by
  have quiet : d.dealt i = d.itemEvent i := by
    rw [Dev.dealt]
    exact if_neg (by simp [plain])
  rw [quiet, Dev.itemEvent]
  split
  · exact ⟨Dev.postAt_log .., postAt_keeps _ _ _ _ _ _ _ _⟩
  · exact ⟨rfl, .refl _ _⟩

/-- A sequence number is taken beside every part. -/
theorem takeSeq_keeps (d : Dev) : SameBut [] d d.takeSeq := sameBut_of_core (core_of_quiet (takeSeq_quiet d)) []

/-- An item that is put into a slot is read there with its sequence number. -/
theorem putRecord_puts (d : Dev) (k : Nat) {i : LogItem} (plain : i.injected = false) :
    SameBut [.log] d (d.putRecord k i) ∧ (d.putRecord k i).log.newest = some k ∧
      ∃ x, (d.putRecord k i).log.ram.get none k = some x ∧ x.item = i ∧ x.seq = d.ctl.seq := by
  let r : LogRec := { item := i, rep := min 65535 i.rep, seq := d.ctl.seq, position := d.tree.position, touched := d.mono }
  let e : Dev := ({ d.takeSeq with log := { d.takeSeq.log with
    ram := d.takeSeq.log.ram.set none k (some r), newest := some k, nextIdx := (k + 1) % 256
    lost := if (d.log.ram.get none k).any (fun r => !r.copied) then satAdd (2 ^ 32 - 1) d.takeSeq.log.lost 1 else d.takeSeq.log.lost } } : Dev).bumpGen
  let c : Dev := if repeats i.kind ∧ r.rep < 65535 then e else e.closeLog k
  have whole : d.putRecord k i = c.dealt i := rfl
  have set : SameBut [.log] d e := ((takeSeq_keeps d).mono (by simp)).trans (setLog_keeps d.takeSeq _)
  have holds : e.log.ram.get none k = some r := Tab.get_set_self _ _ _ _
  have closes : SameBut [.log] e c ∧ c.log.newest = some k ∧ ∃ x, c.log.ram.get none k = some x ∧ x.item = i ∧ x.seq = d.ctl.seq := by
    by_cases b : repeats i.kind ∧ r.rep < 65535
    · rw [show c = e from if_pos b]
      exact ⟨.refl _ _, rfl, r, holds, rfl, rfl⟩
    · rw [show c = e.closeLog k from if_neg b]
      obtain ⟨y, yholds, item, seq⟩ := closeLog_ram_self holds
      obtain ⟨x, eq, -⟩ := closeLog_eq e k
      exact ⟨keeps_of_setLog ⟨x, eq⟩, closeLog_newest e k, y, yholds, item, seq⟩
  obtain ⟨kept, newest, x, ram, item, seq⟩ := closes
  obtain ⟨log, quiet⟩ := dealt_of_plain (d := c) plain
  rw [whole, log]
  exact ⟨(set.trans kept).trans (quiet.mono (by simp)), newest, x, ram, item, seq⟩

/-- On an empty RAM no record is open, and the next slot is free. -/
theorem freeSlot_of_empty {l : Log} (empty : l.ram = .empty) (inside : l.nextIdx < 256) : l.freeSlot = some l.nextIdx := by
  have head : ((List.range 256).map fun i => (l.nextIdx + i) % 256) = l.nextIdx :: ((List.range 255).map fun i => (l.nextIdx + (i + 1)) % 256) := by
    rw [List.range_succ_eq_map, List.map_cons, List.map_map, Nat.add_zero, Nat.mod_eq_of_lt inside]
    rfl
  unfold Log.freeSlot
  simp only [head, empty, Tab.get_empty, Option.isNone_none, List.find?_cons_of_pos]

theorem openFor_of_empty {l : Log} (empty : l.ram = .empty) (i : LogItem) : l.openFor i = none := by
  simp [Log.openFor, empty]

/-! ### The events of the log -/

section
variable {s : State} (n : Nat)

theorem logRecordCommit_puts {i : LogItem} {r : List LogItem} (free : s.dev.log.freeze = false) (hold : s.dev.log.hold = [])
    (queue : s.dev.log.queue = i :: r) (empty : s.dev.log.ram = .empty) (kind : i.kind ≠ 6) (plain : i.injected = false)
    (inside : s.dev.log.nextIdx < 256) (turn : s.dev.ctl.behind = false) :
    ∃ t x, exec (.logRecordCommit n) s = .next t ∧ Keeps [.log] s t ∧ t.dev.log.newest = some s.dev.log.nextIdx ∧
      t.dev.log.ram.get none s.dev.log.nextIdx = some x ∧ x.item = i ∧ x.seq = s.dev.ctl.seq := by
  let e : Dev := { s.dev.advance n with log := { (s.dev.advance n).log with queue := r } }
  have log : (s.dev.advance n).log = s.dev.log := s.dev.advance_log n
  have ram : e.log.ram = .empty := (congrArg Log.ram log).trans empty
  have next : e.log.nextIdx = s.dev.log.nextIdx := (congrArg Log.nextIdx log :)
  have slot : e.log.freeSlot = some s.dev.log.nextIdx := (freeSlot_of_empty ram (by rw [next]; exact inside)).trans (by rw [next])
  have writes : e.writeLog i = e.putRecord s.dev.log.nextIdx i := by
    rw [Dev.writeLog, openFor_of_empty ram, ite_self]
    dsimp only
    rw [slot]
  have commits : (s.dev.advance n).commitLog = e.putRecord s.dev.log.nextIdx i := by
    rw [← writes, Dev.commitLog, show (s.dev.advance n).log.freeze = false by rw [log, free],
      show (s.dev.advance n).log.hold = [] by rw [log, hold], show (s.dev.advance n).log.queue = i :: r by rw [log, queue]]
  obtain ⟨kept, newest, x, holds, item, seq⟩ := putRecord_puts e s.dev.log.nextIdx plain
  have runs : exec (.logRecordCommit n) s = .next { s with dev := (e.putRecord s.dev.log.nextIdx i).commit } := by
    refine (onDev_runs ?_ : execLogRecordCommit n s = _)
    dsimp only
    rw [log, if_neg (by simp [free]), hold, queue, List.nil_append, List.head?_cons]
    dsimp only
    rw [if_neg (by simp [Dev.inTurn, turn]), if_neg (fun x => kind x.1), commits]
  refine ⟨_, x, runs, keeps_commit (advance_keeps_trans n ((setLog_keeps (s.dev.advance n) _).trans kept)), ?_, ?_, item,
    seq.trans (congrArg Ctl.seq (s.dev.advance_ctl n))⟩
  · dsimp only
    rw [commit_log_newest, newest]
  · dsimp only
    rw [commit_log_ram, holds]

theorem logRecordIdleClose_closes {k : BitVec 8} {x : LogRec} (free : s.dev.log.freeze = false)
    (holds : s.dev.log.ram.get none k.toNat = some x) (open_ : x.closed = false)
    (idle : x.touched + s.dev.log.closeIdle * msSteps ≤ (s.dev.advance n).mono) :
    ∃ t, exec (.logRecordIdleClose n k) s = .next t ∧ Keeps [.log] s t ∧
      t.dev.log.ram.get none k.toNat = some { x with closed := true } ∧
      t.dev.log.closing = s.dev.log.closing ++ [k.toNat] ∧ t.dev.log.gen = s.dev.log.gen + 1 := by
  have log : (s.dev.advance n).log = s.dev.log := s.dev.advance_log n
  have closes := closeLog_of_open (d := s.dev.advance n) ((congrArg (fun l : Log => l.ram.get none k.toNat) log).trans holds) open_
  have due : ((s.dev.log.ram.get none k.toNat).any fun r => !r.closed &&
      (decide ((s.dev.advance n).mono ≥ r.touched + s.dev.log.closeIdle * msSteps) ||
        (r.item.kind == 3 && decide ((s.dev.advance n).tl.now ≥ r.item.stamp + s.dev.log.extWindow * 1000 * msSteps)))) = true := by
    simp [holds, open_, idle]
  have runs : exec (.logRecordIdleClose n k) s = .next { s with dev := ((s.dev.advance n).closeLog k.toNat).commit } := by
    refine (onDev_runs ?_ : execLogRecordIdleClose n k s = _)
    dsimp only
    rw [due, if_neg (by simp [free])]
  refine ⟨_, runs, ?_, ?_, ?_, ?_⟩
  · rw [closes]
    exact keeps_commit (advance_keeps_trans n (setLog_keeps _ _))
  · dsimp only
    rw [commit_log_ram, closes, log]
    dsimp only
    rw [Tab.get_mod_self, holds]
    rfl
  · dsimp only
    rw [commit_log_closing, closes, log]
  · dsimp only
    rw [commit_log_gen, closes, log]

theorem logFlashCopy_copies {k : Nat} {ks : List Nat} {x : LogRec} (closing : s.dev.log.closing = k :: ks) (more : ks ≠ [])
    (holds : s.dev.log.ram.get none k = some x) (free : s.dev.log.freeze = false) (reach : s.dev.logReachable = true) :
    ∃ t y, exec (.logFlashCopy n .done) s = .next t ∧ Keeps [.log, .board] s t ∧ t.dev.log.closing = ks ∧
      t.dev.log.ram.get none k = some y ∧ y.copied = true ∧ y.item = x.item ∧
      t.dev.board.logCirc = circulate s.dev.board.logCirc { y with start := s.dev.log.start } := by
  let toPerm := s.dev.board.permRoom x
  let r : LogRec := { x with start := s.dev.log.start, copied := true, perm := x.perm || toPerm }
  let d : Dev := { s.dev.advance n with
    log := { s.dev.log with ram := s.dev.log.ram.set none k (some { r with start := 0 }), closing := ks }
    board := { s.dev.board with
      logCirc := circulate s.dev.board.logCirc r
      logPerm := if toPerm then s.dev.board.logPerm ++ [r] else s.dev.board.logPerm } }
  have runs : exec (.logFlashCopy n .done) s = .next { s with dev := d.commit } := by
    refine (onDev_runs ?_ : execLogFlashCopy n .done s = _)
    rw [closing]
    dsimp only
    rw [holds]
    dsimp only
    rw [if_neg (by simp [free, reach]), if_pos rfl, if_neg more, Dev.advance_log, Dev.advance_board]
  have kept : SameBut [.log, .board] s.dev d :=
    advance_keeps_trans n fun p hp => by cases p <;> first | (simp at hp; done) | rfl | exact Timeline.kept_refl _
  refine ⟨_, { r with start := 0 }, runs, keeps_commit kept, ?_, ?_, rfl, rfl, ?_⟩
  · dsimp only
    rw [commit_log_closing]
  · dsimp only
    rw [commit_log_ram]
    exact Tab.get_set_self _ _ _ _
  · dsimp only
    rw [commit_board]

/-- Closing every record changes the log alone, and no freeze. -/
theorem closeAllLog_eq (d : Dev) (old : Bool) : ∃ x : Log, d.closeAllLog old = { d with log := x } ∧ x.freeze = d.log.freeze ∧
    x.queue = d.log.queue ∧ x.hold = d.log.hold ∧ x.syncTags = d.log.syncTags := by
  have each : ∀ (l : List Nat) (d : Dev), ∃ x : Log, forEach l (fun k d =>
      if !old || ((d.log.ram.get none k).any fun r => r.item.epoch != d.tl.epoch) then d.closeLog k else d) d = { d with log := x } ∧
      x.freeze = d.log.freeze ∧ x.queue = d.log.queue ∧ x.hold = d.log.hold ∧ x.syncTags = d.log.syncTags := by
    intro l
    induction l with
    | nil => exact fun d => ⟨d.log, rfl, rfl, rfl, rfl, rfl⟩
    | cons k l ih =>
      intro d
      have one : ∃ x : Log, (if !old || ((d.log.ram.get none k).any fun r => r.item.epoch != d.tl.epoch) then d.closeLog k else d) =
          { d with log := x } ∧ x.freeze = d.log.freeze ∧ x.queue = d.log.queue ∧ x.hold = d.log.hold ∧ x.syncTags = d.log.syncTags := by
        split
        · exact closeLog_eq d k
        · exact ⟨d.log, rfl, rfl, rfl, rfl, rfl⟩
      obtain ⟨x, eq, a, b, c, e⟩ := one
      obtain ⟨y, eq', a', b', c', e'⟩ := ih { d with log := x }
      exact ⟨y, (congrArg (forEach l _) eq).trans eq', a'.trans a, b'.trans b, c'.trans c, e'.trans e⟩
  unfold Dev.closeAllLog
  split
  · exact ⟨d.log, rfl, rfl, rfl, rfl, rfl⟩
  · exact each _ d

theorem foldl_finish_keeps (l : List Part) (tags : List Tag) (c : Cpl) (d : Dev) : SameBut l d (tags.foldl (fun d t => d.finish t c) d) :=
  SameBut.foldl (fun d t => finish_keeps l d t c) tags d

theorem endSync_keeps (d : Dev) (c : Cpl) : SameBut [.log] d (d.endSync c) :=
  (setLog_keeps d _).trans (foldl_finish_keeps [.log] d.log.syncTags c _)

theorem endSync_log (d : Dev) (c : Cpl) : (d.endSync c).log = { d.log with syncTags := [] } :=
  foldl_leaves Dev.log (fun d t => Dev.finish_log d t c) d.log.syncTags _

/-- The end of a freeze changes the log alone, and nothing is frozen then (R449). -/
theorem unfreeze_frees (d : Dev) : SameBut [.log] d d.unfreeze ∧ d.unfreeze.log.freeze = false := by
  let e : Dev := { d with log := { d.log with freeze := false, holdLost := 0 } }
  let c : Dev := if d.log.freeze then e.closeAllLog (decide (e.log.syncTags = [])) else e
  let f : Dev := if c.log.closing = [] then c.endSync {} else c
  have closes : SameBut [.log] e c ∧ c.log.freeze = false := by
    obtain ⟨x, eq, freeze, -⟩ := closeAllLog_eq e (decide (e.log.syncTags = []))
    by_cases was : d.log.freeze = true
    · rw [show c = _ from (if_pos was).trans eq]
      exact ⟨setLog_keeps e x, freeze⟩
    · rw [show c = e from if_neg was]
      exact ⟨.refl _ _, rfl⟩
  have syncs : SameBut [.log] c f ∧ f.log.freeze = false := by
    by_cases all : c.log.closing = []
    · rw [show f = c.endSync {} from if_pos all, endSync_log]
      exact ⟨endSync_keeps c {}, closes.2⟩
    · rw [show f = c from if_neg all]
      exact ⟨.refl _ _, closes.2⟩
  have upto : SameBut [.log] d f := ((setLog_keeps d _).trans closes.1).trans syncs.1
  have whole : d.unfreeze = if d.log.holdLost = 0 then f else
      (f.pushLog (f.logItem 0x0A 2 [] [(d.log.holdLost : Int)])).post 516 1 [(d.log.holdLost : Int)] := rfl
  rw [whole]
  split
  · exact ⟨upto, syncs.2⟩
  · exact ⟨upto.trans ((pushLog_keeps _ _ _).trans (post_keeps _ _ _ _ _)), by rw [Dev.post_log]; exact syncs.2⟩

theorem logFreezeTimeout_frees (frozen : s.dev.log.freeze = true) (late : s.dev.log.freezeAt + 50 * msSteps ≤ (s.dev.advance n).mono) :
    ∃ t, exec (.logFreezeTimeout n) s = .next t ∧ Keeps [.log] s t ∧ t.dev.log.freeze = false ∧ t.dev.log.timeout = true := by
  obtain ⟨kept, free⟩ := unfreeze_frees (s.dev.advance n)
  generalize e : (s.dev.advance n).unfreeze = d at kept free
  have runs : exec (.logFreezeTimeout n) s = .next { s with dev :=
      (({ d with log := { d.log with timeout := true } } : Dev).pushLog (d.logItem 0x0A 3 [] [])).commit } := by
    refine (onDev_runs ?_ : execLogFreezeTimeout n s = _)
    rw [if_neg (by simp [frozen]; omega), e]
  have frame := keeps_commit (s := s) (advance_keeps_trans n (kept.trans ((setLog_keeps d { d.log with timeout := true }).trans
    (pushLog_keeps [.log] _ (d.logItem 0x0A 3 [] [])))))
  refine ⟨_, runs, frame, ?_, ?_⟩
  · dsimp only
    rw [commit_log_freeze]
    exact free
  · dsimp only
    rw [commit_log_timeout]
    rfl

end

end Sys2Proof.Machine

open Sys2Proof Sys2Proof.Machine

/-- Settles O26, by what a record that is put, closed or copied leaves of the log. -/
theorem logEvents : Obligations.LogEvents := by
  unfold Obligations.LogEvents
  exact fun s n _ _ => ⟨fun i r free hold queue empty kind plain inside turn =>
      logRecordCommit_puts n free hold queue empty kind plain inside turn,
    fun k x free holds open_ idle => logRecordIdleClose_closes n free holds open_ idle,
    fun k ks x closing more holds free reach => logFlashCopy_copies n closing more holds free reach,
    logFreezeTimeout_frees n⟩

end

section
/-!
PROOFS. FC.READ and FC.CLEAR (R431, R456), and the commands of the Cupping Log (R449 to R456).
-/
namespace Sys2Proof.Machine

@[simp] theorem takenUp_log (d : Dev) (h : Hdr) (op : BitVec 16) : (d.takenUp h op).log = d.log := by simp [Dev.takenUp]
@[simp] theorem takenUp_board (d : Dev) (h : Hdr) (op : BitVec 16) : (d.takenUp h op).board = d.board := by simp [Dev.takenUp]
@[simp] theorem takenUp_boot (d : Dev) (h : Hdr) (op : BitVec 16) : (d.takenUp h op).boot = d.boot := by simp [Dev.takenUp]

theorem takenUp_logReachable (d : Dev) (h : Hdr) (op : BitVec 16) : (d.takenUp h op).logReachable = d.logReachable := by
  simp [Dev.logReachable]

/-- Lists of one length each, one after the other. -/
theorem length_flatMap_of {α β : Type} (l : List α) (f : α → List β) {n : Nat} (each : ∀ a, (f a).length = n) :
    (l.flatMap f).length = l.length * n := by
  rw [List.length_flatMap, List.map_congr_left fun a _ => each a, List.map_const', List.sum_replicate, smul_eq_mul]

/-! ### FC.READ and FC.CLEAR -/

section
variable {s : State} {h : Hdr} (i : Idle s h)
include i

/-- A command on an idle device that is finished, with the way of its answer as it took it up. -/
theorem finish_answers {op : BitVec 16} {d : Dev} {a : Bool} (path : d.cplPath = s.dev.cplPath)
    (flights : d.ctl.flights = [{ newFlight h op with accepted := a }]) (c : Cpl) (own : c.own = false) (fwd : c.fwd = false)
    (fin : c.fin = true) (n : op ≠ 0x0100 ∨ c.resp = []) :
    Answers s { s with dev := (d.finish h.tag c).commit } h op c.status c.resp :=
  (finish_ended_newFlight flights c (.inl own) fwd fin).answers i ((finish_cplPath_of flights rfl _).trans path) n

theorem fcRead_reads : ∃ t r, exec (.fcRead h) s = .next t ∧ Keeps [] s t ∧ Answers s t h 0x0D00 stOk r ∧ r.length = 481 ∧
    r.head? = some (s.dev.fc.status : Int) := by
  refine ⟨_, _, hostCmd_runs i 0x0D00 rfl, keeps_of_takenUp (by decide) (okResp_keeps _ _ _ _),
    answers_okResp i 0x0D00 _ _ rfl (.inl (by decide)), ?_, by rw [takenUp_fc]; rfl⟩
  rw [List.length_cons, length_flatMap_of (n := 10), List.length_range]
  intro k
  dsimp only
  split <;> rfl

theorem fcClear_clears (m : BitVec 48) : ∃ t, exec (.fcClear h m) s = .next t ∧ Keeps [.fc] s t ∧ Answers s t h 0x0D01 stOk [] ∧
    t.dev.fc.lines = s.dev.fc.lines ∧ ∀ k, k < 48 →
      (m.getLsbD k = true → (t.dev.fc.perLine.get {} k).c = 0 ∧ (t.dev.fc.perLine.get {} k).u = 0 ∧
        (t.dev.fc.perLine.get {} k).f = 0 ∧ (t.dev.fc.perLine.get {} k).first = none) ∧
      (m.getLsbD k = false → t.dev.fc.perLine.get {} k = s.dev.fc.perLine.get {} k) := by
  have each := fun k => get_foldl (fun (t : Tab FcLine) k => t.get {} k)
    (fun t k => t.mod {} k fun (l : FcLine) => { l with c := 0, u := 0, f := 0, first := none })
    (fun l => { l with c := 0, u := 0, f := 0, first := none }) (fun t k => Tab.get_mod_self _ _ _ _)
    (fun t j k ne => Tab.get_mod_of_ne _ _ ne _) k (members m) (nodup_members m) s.dev.fc.perLine
  obtain ⟨frame, answer⟩ := ok_ends (l := [.fc]) i 0x0D01 (by decide)
    (d := { s.dev.takenUp h 0x0D01 with fc := { (s.dev.takenUp h 0x0D01).fc with
      perLine := (members m).foldl (fun t k => t.mod {} k fun (l : FcLine) => { l with c := 0, u := 0, f := 0, first := none })
        (s.dev.takenUp h 0x0D01).fc.perLine } }) rfl (setFc_keeps _ _)
  refine ⟨_, hostCmd_runs i 0x0D01 rfl, frame, answer, ?_, fun k hk => ⟨fun named => ?_, fun unnamed => ?_⟩⟩
  · dsimp only
    rw [commit_fc, Dev.ok_fc, takenUp_fc]
  · dsimp only
    rw [commit_fc, Dev.ok_fc, takenUp_fc, each k, if_pos (mem_members.2 ⟨hk, named⟩)]
    exact ⟨rfl, rfl, rfl, rfl⟩
  · dsimp only
    rw [commit_fc, Dev.ok_fc, takenUp_fc, each k, if_neg (by simp [mem_members, unnamed])]

/-! ### The commands of the log -/

theorem logSummary_reads : ∃ t r, exec (.logSummary h) s = .next t ∧ Keeps [] s t ∧ Answers s t h 0x0D05 stOk r ∧ r.length = 47 ∧
    r.head? = some (s.dev.log.gen.toNat : Int) := by
  have kinds : ∀ l, (kindCounts l).length = 14 := fun l => by rw [kindCounts, List.length_map]; rfl
  refine ⟨_, _, hostCmd_runs i 0x0D05 rfl, keeps_of_takenUp (by decide) (okResp_keeps _ _ _ _),
    answers_okResp i 0x0D05 _ _ rfl (.inl (by decide)), ?_, by rw [takenUp_log]; rfl⟩
  simp only [List.length_append, kinds]
  rfl

omit i in
theorem leBytes_length (n v : Nat) : (leBytes n v).length = n := by
  induction n generalizing v with
  | zero => rfl
  | succ n ih => rw [leBytes, List.length_cons, ih]

omit i in
/-- A record, and what a slot without one reads as, is 64 bytes (R446). -/
theorem slotBytes_length (l : Log) (k : Nat) : (l.slotBytes k).length = 64 := by
  unfold Log.slotBytes
  split
  · unfold LogRec.bytes
    simp only [List.length_append, leBytes_length]
    rfl
  · exact List.length_replicate ..

theorem logRead_reads {first count : Nat} (least : 1 ≤ count) (most : count ≤ 64) (inside : first + count ≤ 256) :
    ∃ t r, exec (.logRead h 0 first count) s = .next t ∧ Keeps [] s t ∧ Answers s t h 0x0D06 stOk r ∧
      r.length = 64 * count + 2 ∧ r.head? = r.getLast? := by
  have good : badArg [(0, decide ((0 : BitVec 8).toNat > 2)), (1, decide (first ≥ 256)),
      (2, decide (count = 0 ∨ count > 64 ∨ first + count > 256))] = none := by
    rw [decide_eq_false (p := first ≥ 256) (by omega), decide_eq_false (p := count = 0 ∨ count > 64 ∨ first + count > 256) (by omega)]
    rfl
  refine ⟨_, _, hostCmd_runs i 0x0D06 (d := (s.dev.takenUp h 0x0D06).okResp h.tag ([((s.dev.takenUp h 0x0D06).log.gen.toNat : Int)] ++
      ((List.range count).flatMap fun j => ((s.dev.takenUp h 0x0D06).log.slotBytes (first + j)).map fun b => (b.toNat : Int)) ++
      [((s.dev.takenUp h 0x0D06).log.gen.toNat : Int)])) ?_, keeps_of_takenUp (by decide) (okResp_keeps _ _ _ _),
    answers_okResp i 0x0D06 _ _ rfl (.inl (by decide)), ?_, ?_⟩
  · dsimp only
    rw [if_pos rfl, good]
    rfl
  · simp only [List.length_append, List.length_singleton,
      length_flatMap_of (n := 64) (List.range count) _ fun j => (List.length_map _).trans (slotBytes_length _ _), List.length_range]
    omega
  · rw [List.getLast?_concat]
    rfl

theorem logSync_ends (closing : s.dev.log.closing = []) (empty : s.dev.log.ram = .empty) :
    ∃ t, exec (.logSync h) s = .next t ∧ Keeps [] s t ∧ Answers s t h 0x0D07 stOk [] := by
  have closed : ∀ (l : List Nat) (d : Dev), d.log.ram = .empty → forEach l (fun k d =>
      if !false || ((d.log.ram.get none k).any fun r => r.item.epoch != d.tl.epoch) then d.closeLog k else d) d = d := by
    intro l d ram
    induction l with
    | nil => rfl
    | cons k l ih => exact (congrArg (forEach l _) (by simp [Dev.closeLog, ram])).trans ih
  have same : (s.dev.takenUp h 0x0D07).closeAllLog = s.dev.takenUp h 0x0D07 := by
    unfold Dev.closeAllLog
    split
    · rfl
    · exact closed _ _ (by rw [takenUp_log, empty])
  obtain ⟨frame, answer⟩ := ok_ends i 0x0D07 (by decide) rfl (.refl [] _)
  refine ⟨_, hostCmd_runs i 0x0D07 ?_, frame, answer⟩
  dsimp only
  rw [same, takenUp_log, if_pos ⟨closing, by simp [Log.records, empty, Tab.empty]⟩]

theorem logSync_waits (frozen : s.dev.log.freeze = true) (open_ : s.dev.log.records.all (·.closed) = false)
    (reach : s.dev.logReachable = true) :
    ∃ t, exec (.logSync h) s = .next t ∧ Keeps [.log] s t ∧ Waits s t h 0x0D07 ∧ t.dev.log.ram = s.dev.log.ram ∧
      t.dev.log.syncTags = s.dev.log.syncTags ++ [h.tag] := by
  have same : (s.dev.takenUp h 0x0D07).closeAllLog = s.dev.takenUp h 0x0D07 := if_pos (by simp [frozen])
  let d : Dev := { (s.dev.takenUp h 0x0D07).accept h.tag with log := { s.dev.log with syncTags := s.dev.log.syncTags ++ [h.tag] } }
  have runs : exec (.logSync h) s = .next { s with dev := d.commit } := by
    refine hostCmd_runs i 0x0D07 ?_
    dsimp only
    rw [same, takenUp_log, if_neg (by simp [frozen, open_]), if_neg (by simp [takenUp_logReachable, reach])]
    rw [Dev.accept_log, takenUp_log]
  refine ⟨_, runs, keeps_of_takenUp (by decide) ((accept_keeps _ _ _).trans (setLog_keeps _ _)), waits_of_accepted i _ _ rfl, ?_, ?_⟩
  · dsimp only
    rw [commit_log_ram]
  · dsimp only
    rw [commit_log_syncTags]

theorem logChallenge_ends : ∃ t v, exec (.logChallenge h) s = .next t ∧ Keeps [.log] s t ∧ t.dev.log.nonce = some v ∧
    Answers s t h 0x0D08 stOk [(v.toNat : Int)] := by
  let e : Dev := (s.dev.takenUp h 0x0D08).fresh.2
  let v : BitVec 128 := BitVec.ofNat 128 (s.dev.takenUp h 0x0D08).fresh.1
  have fresh : SameBut [.log] (s.dev.takenUp h 0x0D08) e := fun p hp => by
    cases p <;> first | rfl | exact Timeline.kept_refl _
  have runs : exec (.logChallenge h) s = .next { s with dev :=
      (({ e with log := { e.log with nonce := some v } } : Dev).okResp h.tag [(v.toNat : Int)]).commit } := hostCmd_runs i 0x0D08 rfl
  refine ⟨_, v, runs, keeps_of_takenUp (op := 0x0D08) (by decide) ((fresh.trans (setLog_keeps e _)).trans (okResp_keeps _ _ _ _)), ?_,
    answers_okResp i 0x0D08 _ _ rfl (.inl (by decide))⟩
  dsimp only
  rw [commit_log_nonce, Dev.okResp_log]

/-- A record made permanent changes the log and the board's areas, and neither the circular area nor what the log holds back. -/
structure SavedPerm (d e : Dev) : Prop where
  kept : SameBut [.log, .board] d e
  ctl : e.ctl = d.ctl
  circ : e.board.logCirc = d.board.logCirc
  gen : e.log.gen = d.log.gen
  hold : e.log.hold = d.log.hold
  syncTags : e.log.syncTags = d.log.syncTags
  nonce : e.log.nonce = d.log.nonce
  tl : e.tl = d.tl

omit i in
theorem SavedPerm.refl (d : Dev) : SavedPerm d d := ⟨.refl _ _, rfl, rfl, rfl, rfl, rfl, rfl, rfl⟩

omit i in
theorem SavedPerm.trans {a b c : Dev} (x : SavedPerm a b) (y : SavedPerm b c) : SavedPerm a c :=
  ⟨x.kept.trans y.kept, y.ctl.trans x.ctl, y.circ.trans x.circ, y.gen.trans x.gen, y.hold.trans x.hold,
    y.syncTags.trans x.syncTags, y.nonce.trans x.nonce, y.tl.trans x.tl⟩

omit i in
theorem savePerm_saves (d : Dev) : SavedPerm d d.savePerm := by
  unfold Dev.savePerm
  refine List.foldlRecOn (motive := fun e => SavedPerm d e) _ _ (.refl d) fun e x k _ => x.trans ?_
  dsimp only
  split
  · split
    · exact ⟨fun p hp => by cases p <;> first | (simp at hp; done) | rfl | exact Timeline.kept_refl _, rfl, rfl, rfl, rfl, rfl,
        rfl, rfl⟩
    · exact .refl e
  · exact .refl e

omit i in
/-- The token speaks of the nonce that the log holds before LOG.CLEAR. -/
theorem clear_nonce_keeps (d : Dev) : SameBut [.log] d { d with log := { d.log with nonce := none } } := setLog_keeps d _

/-- The log is cleared once its permanent records are saved (R454). -/
def Dev.clearedLog (d : Dev) (g : Tag) (token : Bytes) (n : Nat) : Dev :=
  let n := n - d.board.logPerm.length
  let lostInj := d.log.hold.any (·.injected)
  let cert := (token.drop 24).take 3748
  let d : Dev := { d with
    log := { d.log with ram := .empty, newest := none, nextIdx := 0, closing := [], hold := [], gen := d.log.gen + 1 }
    board := { d.board with logCirc := [] } }
  let d : Dev := if lostInj then d.endInjection else d
  let d : Dev := d.endSync {}
  let d : Dev := d.pushLog (d.logItem 0x0A 0 [] [(certLab cert : Int), (certGen cert : Int), (n : Int)])
  (d.post 516 3 [(n : Int)]).finish g {}

omit i in
/-- Where nothing is held back and no LOG.SYNC waits, the clear ends with its own command. -/
theorem clearedLog_ends {p : Dev} {g : Tag} {token : Bytes} {n : Nat} (hold : p.log.hold = []) (sync : p.log.syncTags = []) :
    ∃ x : Dev, p.clearedLog g token n = x.finish g {} ∧ x.log.nonce = p.log.nonce ∧ x.log.ram = .empty ∧
      x.board.logCirc = [] ∧ x.log.gen = p.log.gen + 1 ∧ SameBut [.log, .board] p x ∧ x.cplPath = p.cplPath ∧
      x.ctl.flights = p.ctl.flights := by
  let e : Dev := { p with
    log := { p.log with ram := .empty, newest := none, nextIdx := 0, closing := [], hold := [], gen := p.log.gen + 1, syncTags := [] }
    board := { p.board with logCirc := [] } }
  have whole : ∃ i x, p.clearedLog g token n = ((e.pushLog i).post 516 3 x).finish g {} := by
    unfold Dev.clearedLog Dev.endSync
    dsimp only
    rw [hold, List.any_nil, if_neg Bool.false_ne_true, sync, List.foldl_nil]
    exact ⟨_, _, rfl⟩
  obtain ⟨i, x, eq⟩ := whole
  have log : ((e.pushLog i).post 516 3 x).log = (e.pushLog i).log := Dev.post_log ..
  refine ⟨(e.pushLog i).post 516 3 x, eq, (congrArg Log.nonce log :), (congrArg Log.ram log :), ?_, (congrArg Log.gen log :), ?_,
    post_cplPath .., post_flights ..⟩
  · rw [Dev.post_board]
    rfl
  · have set : SameBut [.log, .board] p e := fun p hp => by
      cases p <;> first | (simp at hp; done) | rfl | exact Timeline.kept_refl _
    exact set.trans ((pushLog_keeps _ _ _).trans (post_keeps _ _ _ _ _))

theorem logClear_denied {token : Bytes} (answer : FlashAnswer) (free : s.dev.log.freeze = false)
    (bad : (s.dev.takenUp h 0x0D09).tokenGood token = false) :
    ∃ t, exec (.logClear h token answer) s = .next t ∧ Keeps [.log] s t ∧ Answers s t h 0x0D09 stDenied [] ∧
      t.dev.log.nonce = none ∧ t.dev.log.ram = s.dev.log.ram := by
  let d : Dev := { s.dev.takenUp h 0x0D09 with log := { (s.dev.takenUp h 0x0D09).log with nonce := none } }
  have runs : exec (.logClear h token answer) s =
      .next { s with dev := ((d.pushLog (d.logItem 0x0A 1 [] [])).refuse h.tag stDenied).commit } := by
    refine hostCmd_runs i 0x0D09 ?_
    rw [if_neg (by simp [free]), bad]
    rfl
  refine ⟨_, runs, keeps_of_takenUp (by decide) ((clear_nonce_keeps _).trans ((pushLog_keeps _ _ _).trans (refuse_keeps _ _ _ _ _ _ _))),
    answers_refuse i 0x0D09 _ stDenied 0 0 0 rfl, ?_, ?_⟩
  · dsimp only
    rw [commit_log_nonce, Dev.refuse_log]
    rfl
  · dsimp only
    rw [commit_log_ram, Dev.refuse_log]
    exact (congrArg Log.ram (takenUp_log s.dev h 0x0D09) :)

section
variable {token : Bytes} (free : s.dev.log.freeze = false) (good : (s.dev.takenUp h 0x0D09).tokenGood token = true)
include free good

theorem logClear_unreachable (answer : FlashAnswer) (reach : s.dev.logReachable = false) :
    ∃ t, exec (.logClear h token answer) s = .next t ∧ Keeps [.log] s t ∧ Answers s t h 0x0D09 stFault [] ∧
      t.dev.log.nonce = none ∧ t.dev.log.ram = s.dev.log.ram := by
  let d : Dev := { s.dev.takenUp h 0x0D09 with log := { (s.dev.takenUp h 0x0D09).log with nonce := none } }
  have away : d.logReachable = false := (takenUp_logReachable s.dev h 0x0D09).trans reach
  have runs : exec (.logClear h token answer) s =
      .next { s with dev := ((d.accept h.tag).finish h.tag { status := stFault, b := 4 }).commit } := by
    refine hostCmd_runs i 0x0D09 ?_
    rw [if_neg (by simp [free]), good, if_neg (by simp)]
    exact if_pos fun x => Bool.noConfusion (away.symm.trans x)
  refine ⟨_, runs, keeps_of_takenUp (by decide) ((clear_nonce_keeps _).trans ((accept_keeps _ _ _).trans (finish_keeps _ _ _ _))),
    finish_answers i (d := d.accept h.tag) (takenUp_cplPath i 0x0D09) (accept_flights_newFlight (d := d) (takenUp_flights i 0x0D09)) { status := stFault, b := 4 }
      rfl rfl rfl (.inr rfl), ?_, ?_⟩
  · dsimp only
    rw [commit_log_nonce, Dev.finish_log]
    rfl
  · dsimp only
    rw [commit_log_ram, Dev.finish_log]
    exact (congrArg Log.ram (takenUp_log s.dev h 0x0D09) :)

theorem logClear_clears (sync : s.dev.log.syncTags = []) (hold : s.dev.log.hold = []) (reach : s.dev.logReachable = true) :
    ∃ t, exec (.logClear h token .done) s = .next t ∧ Keeps [.log, .board] s t ∧ Answers s t h 0x0D09 stOk [] ∧
      t.dev.log.nonce = none ∧ t.dev.log.ram = .empty ∧ t.dev.board.logCirc = [] ∧ t.dev.log.gen = s.dev.log.gen + 1 := by
  let d : Dev := { s.dev.takenUp h 0x0D09 with log := { (s.dev.takenUp h 0x0D09).log with nonce := none } }
  let n : Nat := d.log.records.length + d.log.hold.length + d.board.logPerm.length
  have near : d.logReachable = true := (takenUp_logReachable s.dev h 0x0D09).trans reach
  have log : (s.dev.takenUp h 0x0D09).log = s.dev.log := takenUp_log ..
  have runs : exec (.logClear h token .done) s =
      .next { s with dev := (((d.accept h.tag).savePerm).clearedLog h.tag token n).commit } := by
    refine hostCmd_runs i 0x0D09 ?_
    rw [if_neg (by simp [free]), good, if_neg (by simp)]
    refine (if_neg (not_not.2 near)).trans ?_
    rw [if_neg (not_not.2 rfl)]
    generalize (d.accept h.tag).savePerm = p
    unfold Dev.clearedLog
    rfl
  have saved := savePerm_saves (d.accept h.tag)
  generalize (d.accept h.tag).savePerm = p at runs saved
  obtain ⟨x, eq, nonce, ram, circ, gen, kept, path, flights⟩ := clearedLog_ends (p := p) (n := n) (g := h.tag) (token := token)
    (saved.hold.trans ((congrArg Log.hold log :).trans hold)) (saved.syncTags.trans ((congrArg Log.syncTags log :).trans sync))
  have newest := (flights.trans (congrArg Ctl.flights saved.ctl)).trans
    (accept_flights_newFlight (d := d) (takenUp_flights i 0x0D09))
  have way : x.cplPath = s.dev.cplPath := by
    refine path.trans (Eq.trans ?_ (takenUp_cplPath i 0x0D09))
    simp only [Dev.cplPath, saved.ctl]
    rfl
  rw [eq] at runs
  refine ⟨_, runs, keeps_of_takenUp (by decide) ((((clear_nonce_keeps _).mono (by simp)).trans ((accept_keeps _ d h.tag).trans
    saved.kept)).trans (kept.trans (finish_keeps _ _ _ _))), finish_answers i way newest {} rfl rfl rfl (.inr rfl), ?_, ?_, ?_, ?_⟩
  · dsimp only
    rw [commit_log_nonce, Dev.finish_log, nonce, saved.nonce]
    rfl
  · dsimp only
    rw [commit_log_ram, Dev.finish_log, ram]
  · dsimp only
    rw [commit_board, Dev.finish_board, circ]
  · dsimp only
    rw [commit_log_gen, Dev.finish_log, gen, saved.gen]
    exact congrArg (· + 1) (congrArg Log.gen log :)

end

end

end Sys2Proof.Machine
open Sys2Proof Sys2Proof.Machine

/-- Settles O25, by what is read of the collector and the log, and by what LOG.SYNC and LOG.CLEAR leave of the log. -/
theorem faultCommands : Obligations.FaultCommands := by
  unfold Obligations.FaultCommands
  refine ⟨fun s h i => ⟨fcRead_reads i, fcClear_clears i⟩, fun s h i => ⟨logSummary_reads i,
    fun first count least most inside => logRead_reads i least most inside, logSync_ends i, logSync_waits i, logChallenge_ends i,
    fun token free sync hold good reach => logClear_clears i free good sync hold reach,
    fun token answer free good reach => logClear_unreachable i free good answer reach,
    fun token answer free bad => logClear_denied i answer free bad⟩⟩

end

section
/-!
PROOFS. Housekeeping (R460, R470): samples and rounds, HK.READ, HK.STATE and HK.MINMAX.
-/
namespace Sys2Proof.Machine

/-! ### The rounds -/

section
variable {s : State} (n : Nat)

/-- A good sample of a channel. -/
def sampledCh (c : HkCh) (reading : Int) (stamp : Nat) : HkCh :=
  { c with value := reading, stamp := stamp, invalid := false, seen := true
           min := some (match c.min with | some m => min m reading | none => reading)
           max := some (match c.max with | some m => max m reading | none => reading) }

theorem hkSample_samples (running : s.dev.tl.running = true) {reading : Int} {due : Nat} (inside : s.dev.hk.slot < 128)
    (plain : s.dev.hk.slot ≠ 23) (low : -4000 ≤ reading) (high : reading ≤ 15000)
    (at_ : due = s.dev.hk.roundAt + (125 * s.dev.hk.slot + 100) * usSteps) (late : due ≤ (s.dev.advance n).mono) :
    ∃ t, exec (.hkSample n reading true) s = .next t ∧ Keeps [.hk] s t ∧ t.dev.hk.slot = s.dev.hk.slot + 1 ∧
      (t.dev.hk.ch.get {} s.dev.hk.slot).value = reading ∧
      (t.dev.hk.ch.get {} s.dev.hk.slot).stamp = (s.dev.advance n).tl.now - ((s.dev.advance n).mono - due) ∧
      (t.dev.hk.ch.get {} s.dev.hk.slot).invalid = false ∧
      ∀ c, c ≠ s.dev.hk.slot → t.dev.hk.ch.get {} c = s.dev.hk.ch.get {} c := by
  let stamp : Nat := (s.dev.advance n).tl.now - ((s.dev.advance n).mono - due)
  let d : Dev := s.dev.advance (stamp + 25 * usSteps)
  let e : Dev := { d with hk := { s.dev.hk with
    slot := s.dev.hk.slot + 1, ch := s.dev.hk.ch.mod {} s.dev.hk.slot fun c => sampledCh c reading stamp } }
  have hk : d.hk = s.dev.hk := Dev.advance_hk ..
  have good : (true && (decide (s.dev.hk.slot ≥ 24) || decide (-4000 ≤ reading ∧ reading ≤ 15000))) = true := by
    simp [low, high]
  have runs : exec (.hkSample n reading true) s = .next { s with dev := e.commit } := by
    refine (onDev_runs ?_ : execHkSample n reading true s = _)
    dsimp only
    rw [← at_, if_neg (by simp [running]; omega), good, if_pos rfl, if_neg plain]
    simp only [if_true]
    rw [show (s.dev.advance (stamp + 25 * usSteps)).hk = s.dev.hk from hk]
    rfl
  have kept : SameBut [.hk] s.dev e := advance_keeps_trans _ (setHk_keeps d _)
  have ch : e.hk.ch.get {} s.dev.hk.slot = sampledCh (s.dev.hk.ch.get {} s.dev.hk.slot) reading stamp := Tab.get_mod_self _ _ _ _
  refine ⟨_, runs, keeps_commit kept, ?_, ?_, ?_, ?_, fun c ne => ?_⟩
  · dsimp only
    rw [commit_hk]
  · dsimp only
    rw [commit_hk, ch]
    rfl
  · dsimp only
    rw [commit_hk, ch]
    rfl
  · dsimp only
    rw [commit_hk, ch]
    rfl
  · dsimp only
    rw [commit_hk]
    exact Tab.get_mod_of_ne _ _ ne _

/-- The items that a round leaves in the writer's queue. -/
def Dev.roundItems (d : Dev) (l : List Nat) : Dev :=
  forEach l (fun c d =>
    let h := d.hk.ch.get ({} : HkCh) c
    if h.invalid then d
    else d.pushLog (d.logItem 3 c [c] [h.value, h.value, (h.stamp : Int), (h.stamp : Int)])) d

theorem roundItems_keeps (l : List Nat) (d : Dev) : SameBut [] d (d.roundItems l) :=
  SameBut.foldl (fun d c => by
    dsimp only
    split
    · exact .refl _ _
    · exact pushLog_keeps _ _ _) l d

theorem roundItems_hk (l : List Nat) (d : Dev) : (d.roundItems l).hk = d.hk :=
  forEach_leaves Dev.hk (fun c d => by dsimp only; split <;> rfl) l d

theorem roundItems_boot (l : List Nat) (d : Dev) : (d.roundItems l).boot = d.boot :=
  forEach_leaves Dev.boot (fun c d => by dsimp only; split <;> rfl) l d

/-- The next round begins. -/
def Hk.nextRound (k : Hk) : Hk :=
  { k with
    slot := 0, rounds := k.rounds + 1, roundAt := k.roundAt + 16 * msSteps
    ch := ⟨(k.ch.cells.map fun c => (c.1, { c.2 with seen := false })).filter fun c => c.2 != ({} : HkCh)⟩ }

theorem hkRoundEnd_begins (full : 128 ≤ s.dev.hk.slot) (early : s.dev.boot.step < 10) :
    ∃ t, exec (.hkRoundEnd n) s = .next t ∧ Keeps [.hk] s t ∧ t.dev.hk.slot = 0 ∧ t.dev.hk.rounds = s.dev.hk.rounds + 1 ∧
      t.dev.hk.roundAt = s.dev.hk.roundAt + 16 * msSteps := by
  obtain ⟨l, all⟩ : ∃ l, l = List.range 128 := ⟨_, rfl⟩
  let d : Dev := (s.dev.advance n).roundItems l
  have hk : d.hk = s.dev.hk := (roundItems_hk _ _).trans (Dev.advance_hk ..)
  have boot : d.boot = s.dev.boot := (roundItems_boot _ _).trans (Dev.advance_boot ..)
  have rests : ∀ x : Hk, ({ d with hk := x } : Dev).tempTrigger = { d with hk := x } := fun x => by
    rw [Dev.tempTrigger]
    exact if_pos (.inl (by rw [show ({ d with hk := x } : Dev).boot = s.dev.boot from boot]; exact early))
  have runs : exec (.hkRoundEnd n) s = .next { s with dev := ({ d with hk := s.dev.hk.nextRound } : Dev).commit } := by
    refine (onDev_runs ?_ : execHkRoundEnd n s = _)
    rw [if_neg (by omega)]
    refine Eq.trans ?_ (rests s.dev.hk.nextRound)
    rw [← all, ← hk]
    rfl
  have kept : SameBut [.hk] s.dev { d with hk := s.dev.hk.nextRound } :=
    advance_keeps_trans n (((roundItems_keeps _ _).mono (by simp)).trans (setHk_keeps d _))
  refine ⟨_, runs, keeps_commit kept, ?_, ?_, ?_⟩
  · dsimp only
    rw [commit_hk]
    rfl
  · dsimp only
    rw [commit_hk]
    rfl
  · dsimp only
    rw [commit_hk]
    rfl

end

/-! ### The HK commands -/

section
variable {s : State} {h : Hdr} (i : Idle s h)
include i

theorem hkRead_reads {first count : BitVec 8} (least : 1 ≤ count.toNat) (inside : first.toNat + count.toNat ≤ 128) :
    ∃ t r, exec (.hkRead h first count) s = .next t ∧ Keeps [] s t ∧ Answers s t h 0x0C00 stOk r ∧
      r.length = 5 * count.toNat ∧ r.head? = some (s.dev.hk.ch.get {} first.toNat).value := by
  refine ⟨_, _, hostCmd_runs i 0x0C00 (if_neg (by omega)), keeps_of_takenUp (by decide) (okResp_keeps _ _ _ _),
    answers_okResp i 0x0C00 _ _ rfl (.inl (by decide)), ?_, ?_⟩
  · rw [length_flatMap_of (n := 5) _ _ fun _ => rfl, List.length_range, Nat.mul_comm]
  · obtain ⟨k, hk⟩ : ∃ k, count.toNat = k + 1 := ⟨count.toNat - 1, by omega⟩
    rw [hk, List.range_succ_eq_map, takenUp_hk]
    rfl

theorem hkState_reads : ∃ t r, exec (.hkState h) s = .next t ∧ Keeps [] s t ∧ Answers s t h 0x0C01 stOk r ∧
    r.head? = some s.dev.hk.tj ∧ r.getLast? = some s.fuses.bandgap := by
  refine ⟨_, _, hostCmd_runs i 0x0C01 rfl, keeps_of_takenUp (by decide) (okResp_keeps _ _ _ _),
    answers_okResp i 0x0C01 _ _ rfl (.inl (by decide)), ?_, rfl⟩
  rw [takenUp_hk]
  rfl

theorem hkMinmax_clears (m : BitVec 128) : ∃ t, exec (.hkMinmax h m) s = .next t ∧ Keeps [.hk] s t ∧ Answers s t h 0x0C02 stOk [] ∧
    ∀ k, k < 128 → (t.dev.hk.ch.get {} k).value = (s.dev.hk.ch.get {} k).value ∧
      (t.dev.hk.ch.get {} k).max = if m.getLsbD k then none else (s.dev.hk.ch.get {} k).max := by
  have each := fun k => get_foldl (fun (t : Tab HkCh) k => t.get {} k)
    (fun t c => t.mod {} c fun (x : HkCh) => { x with min := none, max := none })
    (fun x => { x with min := none, max := none }) (fun t k => Tab.get_mod_self _ _ _ _)
    (fun t j k ne => Tab.get_mod_of_ne _ _ ne _) k (members m) (nodup_members m) s.dev.hk.ch
  obtain ⟨frame, answer⟩ := ok_ends (l := [.hk]) i 0x0C02 (by decide)
    (d := { s.dev.takenUp h 0x0C02 with hk := { (s.dev.takenUp h 0x0C02).hk with
      ch := (members m).foldl (fun t c => t.mod {} c fun (x : HkCh) => { x with min := none, max := none })
        (s.dev.takenUp h 0x0C02).hk.ch } }) rfl (setHk_keeps _ _)
  refine ⟨_, hostCmd_runs i 0x0C02 rfl, frame, answer, fun k hk => ?_⟩
  dsimp only
  rw [commit_hk, Dev.ok_hk, takenUp_hk, each k]
  cases named : m.getLsbD k with
  | true => rw [if_pos (mem_members.2 ⟨hk, named⟩), if_pos rfl]; exact ⟨rfl, rfl⟩
  | false => rw [if_neg (by simp [mem_members, named]), if_neg (by simp)]; exact ⟨rfl, rfl⟩

end

end Sys2Proof.Machine

open Sys2Proof Sys2Proof.Machine

/-- Settles O28, by what a good sample and the end of a round leave of the channels. -/
theorem housekeeping : Obligations.Housekeeping := by
  unfold Obligations.Housekeeping
  exact ⟨fun s n running => ⟨fun reading due inside plain low high at_ late =>
      hkSample_samples n running inside plain low high at_ late, hkRoundEnd_begins n⟩,
    fun s h i => ⟨fun first count least inside => hkRead_reads i least inside, hkState_reads i, hkMinmax_clears i⟩⟩

end

section
/-!
PROOFS. PIN.LEVELS (R65, R68 to R72): a parked word acts at once, another code ramps.
-/
namespace Sys2Proof.Machine

/-! ### The only job of a device -/

section
variable {d : Dev} {h : Hdr} {op : BitVec 16} {j : Job}

theorem job_of_jobs (jobs : d.ctl.jobs = [j]) (tag : j.tag = h.tag) : d.job h.tag = some j := by simp [Dev.job, jobs, tag]

/-- A job with nothing left ends its command OK. -/
theorem settleJob_ends (flights : d.ctl.flights = [{ newFlight h op with accepted := true }]) (jobs : d.ctl.jobs = [j])
    (tag : j.tag = h.tag) (left : j.left = 0) (parts : j.parts = 0) (whole : j.aborted = false) (vals : j.vals = .empty) :
    (d.settleJob h.tag).ended (h.tag, h.stream, op, stOk, true, []) ∧ (d.settleJob h.tag).cplPath = d.cplPath ∧
      (d.settleJob h.tag).ctl.jobs = [] := by
  have cpl : j.cpl d = stamped
      { late := j.late, replaced := decide (j.replaced ≠ 0), a := if j.mask then j.replaced.setWidth 16 else 0, resp := [] }
      d.tl.tq d.tl.epoch (j.stamp.getD d.tl.now) := by
    rw [Job.cpl, if_neg (by simp [whole]), vals]
    rfl
  have settles : d.settleJob h.tag = (d.finish h.tag (j.cpl d)).dropJob h.tag := by
    rw [Dev.settleJob, job_of_jobs jobs tag]
    exact if_pos ⟨left, parts⟩
  have ended := finish_ended_newFlight flights (j.cpl d) (.inr (.inr (by rw [cpl]; rfl))) (by rw [cpl]; rfl) (by rw [cpl]; rfl)
  obtain ⟨x, ctl, -⟩ := finish_ctl flights rfl rfl rfl (j.cpl d)
  rw [settles]
  refine ⟨?_, (dropJob_cplPath _ _).trans (finish_cplPath_of flights rfl _), ?_⟩
  · have same : ((d.finish h.tag (j.cpl d)).dropJob h.tag).ended (h.tag, h.stream, op, (j.cpl d).status, true, (j.cpl d).resp) :=
      ended.congr rfl rfl rfl
    rw [cpl] at same ⊢
    exact same
  · have jobs' : (d.finish h.tag (j.cpl d)).ctl.jobs = [j] := (congrArg Ctl.jobs ctl).trans jobs
    simp [Dev.dropJob, jobs', tag]

/-- A job with something left stays. -/
theorem settleJob_stays (jobs : d.ctl.jobs = [j]) (tag : j.tag = h.tag) (open_ : j.left ≠ 0 ∨ j.parts ≠ 0) : d.settleJob h.tag = d := by
  rw [Dev.settleJob, job_of_jobs jobs tag]
  exact if_neg fun done => open_.elim (· done.1) (· done.2)

/-- The last value of a job takes effect. -/
theorem partDone_ends (mark : Nat) (flights : d.ctl.flights = [{ newFlight h op with accepted := true }]) (jobs : d.ctl.jobs = [j])
    (tag : j.tag = h.tag) (left : j.left = 0) (parts : j.parts = 1) (whole : j.aborted = false) (vals : j.vals = .empty) :
    (d.partDone h.tag true mark).ended (h.tag, h.stream, op, stOk, true, []) ∧ (d.partDone h.tag true mark).cplPath = d.cplPath ∧
      (d.partDone h.tag true mark).ctl.jobs = [] := by
  have one : (d.modJob h.tag fun j => { j with
      parts := j.parts - 1, stamp := if true then some (max (j.stamp.getD 0) d.tl.now) else j.stamp
      replaced := if true then j.replaced else j.replaced ||| (1#7 <<< mark) }).ctl.jobs = [{ j with
      parts := j.parts - 1, stamp := some (max (j.stamp.getD 0) d.tl.now) }] := by
    simp [Dev.modJob, jobs, tag]
  exact settleJob_ends (d := d.modJob h.tag _) flights one tag left (by simp [parts]) whole vals

end

@[simp] theorem modJob_pins (d : Dev) (g : Tag) (f : Job → Job) : (d.modJob g f).pins = d.pins := rfl
@[simp] theorem partDone_pins (d : Dev) (g : Tag) (r : Bool) (k : Nat) : (d.partDone g r k).pins = d.pins := by simp [Dev.partDone]

theorem partDone_keeps (l : List Part) (d : Dev) (g : Tag) (r : Bool) (k : Nat) : SameBut l d (d.partDone g r k) := by
  refine SameBut.trans ?_ (settleJob_keeps l _ g)
  exact sameBut_of_core (by rfl) l

theorem notePend_keeps (d : Dev) (ch : Nat) : SameBut [.pins] d (d.notePend ch) := modChan_keeps _ _ _

theorem notePend_cplPath (d : Dev) (ch : Nat) : (d.notePend ch).cplPath = d.cplPath := rfl

@[simp] theorem notePend_ctl (d : Dev) (ch : Nat) : (d.notePend ch).ctl = d.ctl := rfl

theorem notePend_level (d : Dev) (ch l : Nat) : ((d.notePend ch).chan ch).level l = (d.chan ch).level l := by
  rw [Dev.notePend, modChan_chan_self]
  rfl

theorem notePend_chan_of_ne (d : Dev) {ch k : Nat} (ne : k ≠ ch) : (d.notePend ch).chan k = d.chan k := modChan_chan_of_ne d ne _

/-! ### PIN.LEVELS -/

theorem modLevel_level_self (c : Chan) (l : Nat) (f : Level → Level) : (c.modLevel l f).level l = f (c.level l) := Tab.get_mod_self _ _ _ _

/-- A level without a ramp that a new word meets. -/
theorem dropRamp_of_none {d : Dev} {ch l : Nat} (rests : ((d.chan ch).level l).rampTag = none) :
    d.dropRamp ch l = d.modChan ch fun c => c.modLevel l fun v => { v with ramp := none, rampTag := none } := by
  rw [Dev.dropRamp, rests]
  rfl

section
variable {s : State} {h : Hdr} (i : Idle s h) {ch l : Nat} {w : BitVec 32} (hc : ch < 512) (hl : l < 7) (good : wordGood w = true)
  (check : (s.dev.takenUp h 0x0200).levelsCheck [(l, w)] ch = none) (free : ((s.dev.chan ch).level l).pend = none)
  (rests : ((s.dev.chan ch).level l).rampTag = none) (span : w.extractLsb' 16 2 = ((s.dev.chan ch).level l).span)
include i hc hl good check free rests span

/-- PIN.LEVELS of one word, as the device on which it acts. -/
theorem pinLevels_runs : exec (.pinLevels h (1#512 <<< ch) (1#7 <<< l) [w]) s = .next { s with dev :=
    ((((((s.dev.takenUp h 0x0200).accept h.tag).openJob { tag := h.tag, parts := 1, mask := true }).actLevel ch l
      (w.extractLsb' 0 14) (w.getLsbD 15) h.tag).notePend ch).settleJob h.tag).commit } := by
  refine hostCmd_runs i 0x0200 ?_
  rw [members_singleton hl, members_singleton hc]
  have ok : ¬ (([w] : List (BitVec 32)).length ≠ ([l] : List Nat).length ∨ ¬ ([w].all wordGood)) := by simp [good]
  dsimp only
  rw [if_neg ok, allOrNone_pass fun k hk => by rw [List.mem_singleton] at hk; subst hk; exact check]
  have level : ∀ j, (((((s.dev.takenUp h 0x0200).accept h.tag).openJob j).chan ch).level l) = (s.dev.chan ch).level l :=
    fun j => congrArg (Chan.level · l) (takenUp_chan s.dev h 0x0200 ch)
  simp only [List.zip_cons_cons, List.zip_nil_right, List.foldl_cons, List.foldl_nil, List.length_singleton]
  rw [Dev.writeLevel]
  simp only [level, free, span, if_true]

theorem pinLevels_parks (park : w.getLsbD 15 = true) :
    ∃ t, exec (.pinLevels h (1#512 <<< ch) (1#7 <<< l) [w]) s = .next t ∧ Keeps [.pins] s t ∧ Answers s t h 0x0200 stOk [] ∧
      ((t.dev.chan ch).level l).park = true ∧ ((t.dev.chan ch).level l).code = w.extractLsb' 0 14 ∧
      ∀ k, k ≠ ch → t.dev.chan k = s.dev.chan k := by
  let d : Dev := ((s.dev.takenUp h 0x0200).accept h.tag).openJob { tag := h.tag, parts := 1, mask := true }
  let e : Dev := (d.modChan ch fun c => c.modLevel l fun v => { v with ramp := none, rampTag := none }).modChan ch fun c =>
    c.modLevel l fun v => { v with park := true, code := w.extractLsb' 0 14 }
  have chan : ∀ k, d.chan k = s.dev.chan k := fun k =>
    (chan_of_pins ((Dev.openJob_pins _ _).trans (Dev.accept_pins _ _)) k).trans (takenUp_chan s.dev h 0x0200 k)
  have acts : d.actLevel ch l (w.extractLsb' 0 14) (w.getLsbD 15) h.tag = e.partDone h.tag true l := by
    rw [Dev.actLevel, dropRamp_of_none (by rw [chan]; exact rests), park]
    rfl
  have jobs : e.ctl.jobs = [{ tag := h.tag, parts := 1, mask := true }] := by
    have none_open := takenUp_jobs i 0x0200
    show (s.dev.takenUp h 0x0200).ctl.jobs ++ [_] = _
    rw [none_open]
    rfl
  obtain ⟨ended, path, gone⟩ := partDone_ends (d := e) l (accept_flights_newFlight (takenUp_flights i 0x0200)) jobs rfl rfl rfl rfl rfl
  have settled : ((e.partDone h.tag true l).notePend ch).settleJob h.tag = (e.partDone h.tag true l).notePend ch :=
    settleJob_of_no_jobs (d := (e.partDone h.tag true l).notePend ch) gone _
  have runs := pinLevels_runs i hc hl good check free rests span
  rw [show ((s.dev.takenUp h 0x0200).accept h.tag).openJob { tag := h.tag, parts := 1, mask := true } = d from rfl, acts, settled] at runs
  have frame : SameBut [.pins] (s.dev.takenUp h 0x0200) ((e.partDone h.tag true l).notePend ch) :=
    ((((accept_keeps _ _ _).trans (openJob_keeps _ _ _)).trans ((modChan_keeps _ _ _).trans (modChan_keeps _ _ _))).trans
      (partDone_keeps _ e _ _ _)).trans (notePend_keeps _ _)
  have level : (((e.partDone h.tag true l).notePend ch).chan ch).level l =
      { (s.dev.chan ch).level l with ramp := none, rampTag := none, park := true, code := w.extractLsb' 0 14 } := by
    rw [notePend_level, chan_of_pins (partDone_pins e _ _ _), modChan_chan_self, modChan_chan_self, modLevel_level_self,
      modLevel_level_self, chan]
  have ended' : ((e.partDone h.tag true l).notePend ch).ended (h.tag, h.stream, 0x0200, stOk, true, []) := ended.congr rfl rfl rfl
  have kept_path : e.cplPath = (s.dev.takenUp h 0x0200).cplPath := rfl
  have way := (notePend_cplPath (e.partDone h.tag true l) ch).trans (path.trans (kept_path.trans (takenUp_cplPath i 0x0200)))
  have answer := ended'.answers i way (.inr rfl)
  have others : ∀ k, k ≠ ch → ((e.partDone h.tag true l).notePend ch).chan k = s.dev.chan k := fun k ne => by
    rw [notePend_chan_of_ne _ ne, chan_of_pins (partDone_pins e _ _ _), modChan_chan_of_ne _ ne, modChan_chan_of_ne _ ne, chan]
  have kept := keeps_of_takenUp (op := 0x0200) (by decide) frame
  generalize (e.partDone h.tag true l).notePend ch = x at runs answer level others kept
  refine ⟨_, runs, kept, answer, ?_, ?_, fun k ne => ?_⟩
  · dsimp only
    rw [commit_chan, level]
  · dsimp only
    rw [commit_chan, level]
  · dsimp only
    rw [commit_chan, others k ne]

theorem pinLevels_ramps (up : w.getLsbD 15 = false) (driven : ((s.dev.chan ch).level l).park = false)
    (moves : ((s.dev.chan ch).level l).applied ≠ w.extractLsb' 0 14) :
    ∃ t, exec (.pinLevels h (1#512 <<< ch) (1#7 <<< l) [w]) s = .next t ∧ Keeps [.pins] s t ∧ Waits s t h 0x0200 ∧
      ((t.dev.chan ch).level l).code = w.extractLsb' 0 14 ∧
      ((t.dev.chan ch).level l).applied = ((s.dev.chan ch).level l).applied ∧
      ((t.dev.chan ch).level l).ramp.isSome = true ∧ ∀ k, k ≠ ch → t.dev.chan k = s.dev.chan k := by
  let d : Dev := ((s.dev.takenUp h 0x0200).accept h.tag).openJob { tag := h.tag, parts := 1, mask := true }
  let c : Dev := d.modChan ch fun c => c.modLevel l fun v => { v with ramp := none, rampTag := none }
  let e : Dev := c.modChan ch fun x => x.modLevel l fun v => { v with
    park := false, code := w.extractLsb' 0 14, applied := ((s.dev.chan ch).level l).applied
    ramp := some (clockOf c.tl.now), rampTag := some h.tag }
  have chan : ∀ k, d.chan k = s.dev.chan k := fun k =>
    (chan_of_pins ((Dev.openJob_pins _ _).trans (Dev.accept_pins _ _)) k).trans (takenUp_chan s.dev h 0x0200 k)
  have dropped : (c.chan ch).level l = { (s.dev.chan ch).level l with ramp := none, rampTag := none } := by
    rw [modChan_chan_self, modLevel_level_self, chan]
  have acts : d.actLevel ch l (w.extractLsb' 0 14) (w.getLsbD 15) h.tag = e := by
    rw [Dev.actLevel, dropRamp_of_none (by rw [chan]; exact rests), up]
    simp only [Bool.false_eq_true, if_false]
    rw [show ((d.modChan ch fun c => c.modLevel l fun v => { v with ramp := none, rampTag := none }).chan ch).level l =
      { (s.dev.chan ch).level l with ramp := none, rampTag := none } from dropped]
    simp only [driven, Bool.false_eq_true, if_false]
    rw [if_neg fun x => moves x.1]
  have jobs : e.ctl.jobs = [{ tag := h.tag, parts := 1, mask := true }] := by
    have none_open := takenUp_jobs i 0x0200
    show (s.dev.takenUp h 0x0200).ctl.jobs ++ [_] = _
    rw [none_open]
    rfl
  have settled : (e.notePend ch).settleJob h.tag = e.notePend ch := settleJob_stays (d := e.notePend ch) jobs rfl (.inr (by simp))
  have runs := pinLevels_runs i hc hl good check free rests span
  rw [show ((s.dev.takenUp h 0x0200).accept h.tag).openJob { tag := h.tag, parts := 1, mask := true } = d from rfl, acts, settled] at runs
  have frame : SameBut [.pins] (s.dev.takenUp h 0x0200) (e.notePend ch) :=
    (((accept_keeps _ _ _).trans (openJob_keeps _ _ _)).trans ((modChan_keeps _ _ _).trans (modChan_keeps _ _ _))).trans
      (notePend_keeps _ _)
  have level : ((e.notePend ch).chan ch).level l = { (s.dev.chan ch).level l with
      park := false, code := w.extractLsb' 0 14, ramp := some (clockOf c.tl.now), rampTag := some h.tag } := by
    rw [notePend_level, modChan_chan_self, modLevel_level_self, dropped]
  refine ⟨_, runs, keeps_of_takenUp (by decide) frame, waits_of_accepted i 0x0200 (d := e.notePend ch) _ rfl, ?_, ?_, ?_, fun k ne => ?_⟩
  · dsimp only
    rw [commit_chan, level]
  · dsimp only
    rw [commit_chan, level]
  · dsimp only
    rw [commit_chan, level]
    rfl
  · dsimp only
    rw [commit_chan, notePend_chan_of_ne _ ne, modChan_chan_of_ne _ ne, modChan_chan_of_ne _ ne, chan]

end

end Sys2Proof.Machine

open Sys2Proof Sys2Proof.Machine

/-- Settles O32, by the level that the word leaves, and by the end of the job's one part or its stay. -/
theorem pinLevels : Obligations.PinLevels := by
  unfold Obligations.PinLevels
  exact fun s h ch l w i hc hl good check free rests span => ⟨pinLevels_parks i hc hl good check free rests span,
    pinLevels_ramps i hc hl good check free rests span⟩

end

section
/-!
PROOFS. The monitor comparator (R77 to R84): PIN.MON, PIN.MON_READ, PIN.STATE, and the samples.
-/
namespace Sys2Proof.Machine

/-! ### Trigger conditions beside the banks -/

/-- The device but for its banks and the way of its records. -/
def Dev.unbanked (d : Dev) : Dev := { d with banks := .empty, ctl := {} }

theorem of_unbanked {γ : Type} (v : Dev → γ) (r : ∀ d : Dev, v d.unbanked = v d) {a b : Dev} (h : b.unbanked = a.unbanked) : v b = v a :=
  (r b).symm.trans ((congrArg v h).trans (r a))

theorem drainLines_unbanked (d : Dev) (b r : Nat) : (d.drainLines b r).unbanked = d.unbanked := by
  unfold Dev.drainLines
  dsimp only
  split
  · rfl
  · refine forEach_leaves Dev.unbanked (fun _ d => ?_) _ d
    split
    · rfl
    · split
      · rfl
      · split
        · rfl
        · split <;> rfl

theorem startRec_unbanked (d : Dev) (b r : Nat) (evs : List (BitVec 3 × Nat)) (back : Nat) (pause : Bool) :
    (d.startRec b r evs back pause).unbanked = d.unbanked := by
  unfold Dev.startRec
  dsimp only
  split
  · exact drainLines_unbanked _ b r
  · rfl

theorem raise_unbanked (d : Dev) (b r : Nat) (c : BitVec 3) (e : Nat) : (d.raise b r c e).unbanked = d.unbanked := by
  unfold Dev.raise
  dsimp only
  split
  · rfl
  · split
    · (repeat' split) <;> rfl
    · split
      · split
        · split
          · exact startRec_unbanked d b r _ _ _
          · rfl
        · rfl
      · rfl

/-- A condition that holds touches the ring that it fires and the way of its records alone (R247). -/
theorem raiseOn_unbanked (d : Dev) (b r e : Nat) (p : BitVec 32 → Bool) : (d.raiseOn b r e p).unbanked = d.unbanked :=
  foldl_leaves Dev.unbanked (fun d c => raise_unbanked d b r c e) _ d

/-! ### The commands of the monitor -/

section
variable {s : State} {h : Hdr} (i : Idle s h) (ch : BitVec 9)
include i

/-- A setting of one channel that is in force at once. -/
theorem chan_ends (op : BitVec 16) (c : opClass op ≠ 0) (f : Chan → Chan) :
    Keeps [.pins] s { s with dev := (((s.dev.takenUp h op).modChan ch.toNat f).ok h.tag).commit } ∧
      Answers s { s with dev := (((s.dev.takenUp h op).modChan ch.toNat f).ok h.tag).commit } h op stOk [] ∧
      (((s.dev.takenUp h op).modChan ch.toNat f).ok h.tag).commit.chan ch.toNat = f (s.dev.chan ch.toNat) ∧
      ∀ k, k ≠ ch.toNat → (((s.dev.takenUp h op).modChan ch.toNat f).ok h.tag).commit.chan k = s.dev.chan k := by
  obtain ⟨frame, answer⟩ := ok_ends i op c (d := (s.dev.takenUp h op).modChan ch.toNat f) rfl (modChan_keeps _ _ f)
  refine ⟨frame, answer, ?_, fun k ne => ?_⟩
  · rw [commit_chan, ok_chan, modChan_chan_self, takenUp_chan]
  · rw [commit_chan, ok_chan, modChan_chan_of_ne _ ne, takenUp_chan]

theorem pinMon_sets {en : Bool} {lo hi : BitVec 10} {hyst mode : BitVec 2} {n m : BitVec 4} {action : BitVec 2} (states : BitVec 3)
    (pe : en = true → s.dev.hk.pe = true) (apart : 2 * halfHyst hyst ≤ monLevel hi - monLevel lo) (some_ : m ≠ 0)
    (most : m.toNat < 2 * n.toNat) (few : n ≤ m) (known : action ≠ 3) :
    ∃ t, exec (.pinMon h (1#512 <<< ch.toNat) en lo hi hyst mode n m action states) s = .next t ∧ Keeps [.pins] s t ∧
      Answers s t h 0x0205 stOk [] ∧ (t.dev.chan ch.toNat).mon.en = en ∧ (t.dev.chan ch.toNat).mon.lo = lo ∧
      (t.dev.chan ch.toNat).mon.hi = hi ∧ (t.dev.chan ch.toNat).mon.hyst = hyst ∧ (t.dev.chan ch.toNat).mon.mode = mode ∧
      (t.dev.chan ch.toNat).mon.n = n ∧ (t.dev.chan ch.toNat).mon.m = m ∧ (t.dev.chan ch.toNat).mon.action = action ∧
      (t.dev.chan ch.toNat).mon.states = states ∧ ∀ k, k ≠ ch.toNat → t.dev.chan k = s.dev.chan k := by
  have bad : (decide (monLevel hi - monLevel lo < 2 * halfHyst hyst) || decide (m = 0) || decide (2 * n.toNat ≤ m.toNat) ||
      decide (n > m) || decide (action = 3)) = false := by
    rw [decide_eq_false (not_lt.2 apart), decide_eq_false some_, decide_eq_false (by omega),
      decide_eq_false (BitVec.not_lt.2 few), decide_eq_false known]
    rfl
  have on : (en && !s.dev.hk.pe) = false := by
    cases en with
    | false => rfl
    | true => rw [pe rfl]; rfl
  obtain ⟨frame, answer, chan, others⟩ := chan_ends i ch 0x0205 (by decide) fun c =>
    let o := c.mon
    let again := o.en && (o.n != n || o.m != m || o.mode != mode)
    { c with mon := { o with
      en := en, starting := en && (o.starting || !o.en), next := if en && o.en then o.next else none, lo := lo, hi := hi, hyst := hyst, mode := mode, n := n, m := m
      action := action, states := states
      hist := if again then List.replicate m.toNat o.filt else o.hist
      outside := if again then List.replicate m.toNat false else o.outside } }
  refine ⟨_, hostCmd_runs i 0x0205 ?_, frame, answer, ?_⟩
  · dsimp only
    rw [members_singleton ch.isLt, allOrNone_pass fun k _ => by rw [bad, takenUp_hk, on]; rfl]
    rfl
  · dsimp only
    rw [chan]
    exact ⟨rfl, rfl, rfl, rfl, rfl, rfl, rfl, rfl, rfl, others⟩

theorem pinMonRead_reads : ∃ t r, exec (.pinMonRead h (1#512 <<< ch.toNat)) s = .next t ∧ Keeps [.pins] s t ∧
    Answers s t h 0x0206 stOk r ∧ r.length = 4 ∧ r.head? = some ((s.dev.chan ch.toNat).mon.filt.toNat : Int) ∧
    r.getLast? = some ((s.dev.chan ch.toNat).mon.suppressed : Int) ∧
    (t.dev.chan ch.toNat).mon = { (s.dev.chan ch.toNat).mon with suppressed := 0 } := by
  let c := s.dev.chan ch.toNat
  let d : Dev := (s.dev.takenUp h 0x0206).modChan ch.toNat fun c => { c with mon := { c.mon with suppressed := 0 } }
  have runs : exec (.pinMonRead h (1#512 <<< ch.toNat)) s = .next { s with dev := (d.okResp h.tag
      [(c.mon.filt.toNat : Int), rb (c.mon.unresolved || !s.dev.hk.pe), rb c.tripped, (c.mon.suppressed : Int)]).commit } := by
    refine hostCmd_runs i 0x0206 ?_
    rw [members_singleton ch.isLt]
    simp only [List.flatMap_cons, List.flatMap_nil, List.append_nil, takenUp_chan, takenUp_hk]
    rfl
  refine ⟨_, _, runs, keeps_of_takenUp (by decide) ((modChan_keeps _ _ _).trans (okResp_keeps _ _ _ _)),
    answers_okResp i 0x0206 d _ rfl (.inl (by decide)), rfl, rfl, rfl, ?_⟩
  dsimp only
  rw [commit_chan, chan_of_pins (Dev.okResp_pins ..), modChan_chan_self, takenUp_chan]

theorem pinState_reads : ∃ t r, exec (.pinState h (1#512 <<< ch.toNat)) s = .next t ∧ Keeps [] s t ∧ Answers s t h 0x0207 stOk r ∧
    r.length = 34 ∧ r.head? = some ((s.dev.chan ch.toNat).drvMode.toNat : Int) := by
  refine ⟨_, _, hostCmd_runs i 0x0207 rfl, keeps_of_takenUp (by decide) (okResp_keeps _ _ _ _),
    answers_okResp i 0x0207 _ _ rfl (.inl (by decide)), ?_, ?_⟩
  · rw [members_singleton ch.isLt]
    rfl
  · rw [members_singleton ch.isLt]
    exact congrArg (fun c : Chan => some (c.drvMode.toNat : Int)) (takenUp_chan s.dev h 0x0207 ch.toNat)

end

/-! ### The samples -/

/-- What a change of the filtered state tells, beside the channel itself. -/
def Dev.monitorTold (d : Dev) (ch : Nat) (quiet : Bool) (x y : List Int) (new : BitVec 2) : Dev :=
  let d : Dev := if quiet then d else d.post (32 * bankOf ch + 16 + ch % 32 / 2) 1 x
  let d : Dev := d.pushLog (d.logItem 7 (bankOf ch) [ch] y)
  forEach (List.range 8) (fun r d => d.raiseOn (bankOf ch) r d.tl.now fun w =>
    condKind w == 3 && bits w.toNat 4 5 == ch % 32 && w.toNat.testBit (9 + new.toNat)) d

theorem monitorTold_spot (d : Dev) (ch : Nat) (quiet : Bool) (x y : List Int) (new : BitVec 2) :
    (d.monitorTold ch quiet x y new).tl = d.tl ∧ (d.monitorTold ch quiet x y new).pins = d.pins := by
  have spot : ∀ (l : List Nat) (e : Dev), (forEach l (fun r d => d.raiseOn (bankOf ch) r d.tl.now fun w =>
      condKind w == 3 && bits w.toNat 4 5 == ch % 32 && w.toNat.testBit (9 + new.toNat)) e).unbanked = e.unbanked :=
    fun l e => forEach_leaves Dev.unbanked (fun r d => raiseOn_unbanked d _ _ _ _) l e
  have posted : ∀ e : Dev, (e = d ∨ ∃ k, e = d.post k 1 x) → e.tl = d.tl ∧ e.pins = d.pins := by
    rintro e (rfl | ⟨k, rfl⟩)
    · exact ⟨rfl, rfl⟩
    · exact ⟨Dev.post_tl .., Dev.post_pins ..⟩
  obtain ⟨tl, pins⟩ := posted (if quiet then d else d.post (32 * bankOf ch + 16 + ch % 32 / 2) 1 x) (by
    cases quiet
    · exact .inr ⟨_, rfl⟩
    · exact .inl rfl)
  unfold Dev.monitorTold
  dsimp only
  exact ⟨(of_unbanked Dev.tl (fun _ => rfl) (spot _ _)).trans tl, (of_unbanked Dev.pins (fun _ => rfl) (spot _ _)).trans pins⟩

/-- A change of the filtered state on a channel whose monitor asks for no stop moves neither the present nor the sample that
follows. -/
theorem monitorChange_next (d : Dev) (ch : Nat) (new : BitVec 2) (resolved : Bool) (stays : (d.chan ch).mon.action ≠ 2) :
    (d.monitorChange ch new resolved).tl = d.tl ∧ ((d.monitorChange ch new resolved).chan ch).mon.next = (d.chan ch).mon.next := by
  obtain ⟨f, quiet, x, y, whole, same⟩ : ∃ (f : Chan → Chan) (quiet : Bool) (x y : List Int),
      d.monitorChange ch new resolved = (d.modChan ch f).monitorTold ch quiet x y new ∧ ∀ c, (f c).mon.next = c.mon.next :=
    ⟨_, _, _, _, if_neg fun w => stays w.2, fun _ => rfl⟩
  obtain ⟨tl, pins⟩ := monitorTold_spot (d.modChan ch f) ch quiet x y new
  rw [whole]
  exact ⟨tl, by rw [chan_of_pins pins, modChan_chan_self, same]⟩

/-- A sample of a monitor that has resolved its start settles when the next one comes. -/
theorem monitorTake_next {d : Dev} {i : Nat} (nv : Int) (on : (d.chan i).mon.starting = false) (stays : (d.chan i).mon.action ≠ 2) :
    (d.monitorTake i nv).tl = d.tl ∧
      ((d.monitorTake i nv).chan i).mon.next = some (d.mono + monPeriod (d.chan i).mon.mode) := by
  have settled : ∀ e : Dev, e.tl = d.tl → (e.chan i).mon.next = some (d.mono + monPeriod (d.chan i).mon.mode) →
      (e.chan i).mon.action ≠ 2 → ∀ raw resolved, (e.monitorChange i raw resolved).tl = d.tl ∧
        ((e.monitorChange i raw resolved).chan i).mon.next = some (d.mono + monPeriod (d.chan i).mon.mode) := by
    intro e tl next action raw resolved
    obtain ⟨tl', next'⟩ := monitorChange_next e i raw resolved action
    exact ⟨tl'.trans tl, next'.trans next⟩
  unfold Dev.monitorTake
  dsimp only
  rw [if_neg (by simp [on])]
  split
  · split
    · split
      · refine settled _ ?_ ?_ ?_ _ _
        · rfl
        · simp
        · simpa using stays
      · exact ⟨rfl, by simp⟩
    · exact ⟨rfl, by simp⟩
  · split
    · refine settled _ ?_ ?_ ?_ _ _
      · rfl
      · simp
      · simpa using stays
    · exact ⟨rfl, by simp⟩

section
variable {s : State} (n : Nat) (ch : BitVec 9) (nv : Int) (en : (s.dev.chan ch.toNat).mon.en = true) (pe : s.dev.hk.pe = true)
include en pe

theorem monitorSample_settles {z : Nat} (on : (s.dev.chan ch.toNat).mon.starting = false)
    (stays : (s.dev.chan ch.toNat).mon.action ≠ 2) (next : (s.dev.chan ch.toNat).mon.next = some z) (rewind : s.dev.tl.rewind = none) :
    ∃ t, exec (.monitorSample n ch nv) s = .next t ∧
      (t.dev.chan ch.toNat).mon.next = some (t.dev.mono + monPeriod (s.dev.chan ch.toNat).mon.mode) := by
  let d : Dev := s.dev.advance (z - s.dev.tl.base).toNat
  have chan : d.chan ch.toNat = s.dev.chan ch.toNat := chan_of_pins (Dev.advance_pins ..) _
  obtain ⟨tl, settled⟩ := monitorTake_next (d := d) (i := ch.toNat) nv (by rw [chan]; exact on) (by rw [chan]; exact stays)
  have runs : exec (.monitorSample n ch nv) s = .next { s with dev := (d.monitorTake ch.toNat nv).commit } := by
    refine (onDev_runs ?_ : execMonitorSample n ch nv s = _)
    dsimp only
    rw [if_neg (by simp [en, pe]), next]
    exact due_of_no_rewind rewind _ _
  refine ⟨_, runs, ?_⟩
  dsimp only
  rw [commit_chan, settled, chan, Dev.mono, Dev.mono, commit_tl, tl]

theorem monitorSample_starts (on : (s.dev.chan ch.toNat).mon.starting = true) (first : (s.dev.chan ch.toNat).mon.next = none) :
    ∃ t, exec (.monitorSample n ch nv) s = .next t ∧ Keeps [.pins] s t ∧ (t.dev.chan ch.toNat).mon.starting = false ∧
      (t.dev.chan ch.toNat).mon.unresolved = (s.dev.chan ch.toNat).mon.inBand (nv * 1023) := by
  let d : Dev := s.dev.advance n
  have chan : d.chan ch.toNat = s.dev.chan ch.toNat := chan_of_pins (Dev.advance_pins ..) _
  obtain ⟨f, g, takes, settled⟩ : ∃ f g : Chan → Chan, d.monitorTake ch.toNat nv = (d.modChan ch.toNat f).modChan ch.toNat g ∧
      ∀ c, (g c).mon.starting = false ∧ (g c).mon.unresolved = (s.dev.chan ch.toNat).mon.inBand (nv * 1023) :=
    ⟨_, _, if_pos (by rw [chan]; exact on), fun _ => ⟨rfl, by rw [chan]⟩⟩
  have runs : exec (.monitorSample n ch nv) s = .next { s with dev := (d.monitorTake ch.toNat nv).commit } := by
    refine (onDev_runs ?_ : execMonitorSample n ch nv s = _)
    dsimp only
    rw [if_neg (by simp [en, pe]), first]
  rw [takes] at runs
  refine ⟨_, runs, keeps_commit (advance_keeps_trans n ((modChan_keeps _ _ _).trans (modChan_keeps _ _ _))), ?_, ?_⟩
  · dsimp only
    rw [commit_chan, modChan_chan_self, (settled _).1]
  · dsimp only
    rw [commit_chan, modChan_chan_self, (settled _).2]

end

end Sys2Proof.Machine

open Sys2Proof Sys2Proof.Machine

/-- Settles O34, by what each command and each sample leaves of the monitor of its channel. -/
theorem pinMonitor : Obligations.PinMonitor := by
  unfold Obligations.PinMonitor
  exact fun s h ch i => ⟨fun en lo hi hyst mode n m action states pe apart some_ most few known =>
      pinMon_sets i ch states pe apart some_ most few known, pinMonRead_reads i ch, pinState_reads i ch,
    fun n nv z en on pe stays next rewind => monitorSample_settles n ch nv en pe on stays next rewind,
    fun n nv en on pe first => monitorSample_starts n ch nv en pe on first⟩

end

section
/-!
PROOFS. PIN.PARK (R76, R88), ramps, pending values and queued enables (R69, R70, R86).
-/
namespace Sys2Proof.Machine

/-! ### What changes one channel alone -/

/-- A device that differs in one channel alone. -/
structure OnlyChan (ch : Nat) (d e : Dev) : Prop where
  pins : ∃ p, e = { d with pins := p }
  others : ∀ k, k ≠ ch → e.chan k = d.chan k

theorem OnlyChan.refl (ch : Nat) (d : Dev) : OnlyChan ch d d := ⟨⟨_, rfl⟩, fun _ _ => rfl⟩

theorem OnlyChan.trans {ch : Nat} {a b c : Dev} (x : OnlyChan ch a b) (y : OnlyChan ch b c) : OnlyChan ch a c := by
  obtain ⟨⟨p, rfl⟩, hx⟩ := x
  obtain ⟨⟨q, rfl⟩, hy⟩ := y
  exact ⟨⟨q, rfl⟩, fun k ne => (hy k ne).trans (hx k ne)⟩

theorem onlyChan_modChan (d : Dev) (ch : Nat) (f : Chan → Chan) : OnlyChan ch d (d.modChan ch f) :=
  ⟨⟨_, rfl⟩, fun _ ne => modChan_chan_of_ne d ne f⟩

theorem OnlyChan.ctl {ch : Nat} {d e : Dev} (x : OnlyChan ch d e) : e.ctl = d.ctl := by obtain ⟨⟨p, rfl⟩, -⟩ := x; rfl
theorem OnlyChan.seq {ch : Nat} {d e : Dev} (x : OnlyChan ch d e) : e.seq = d.seq := by obtain ⟨⟨p, rfl⟩, -⟩ := x; rfl
theorem OnlyChan.tl {ch : Nat} {d e : Dev} (x : OnlyChan ch d e) : e.tl = d.tl := by obtain ⟨⟨p, rfl⟩, -⟩ := x; rfl

theorem OnlyChan.keeps {ch : Nat} {d e : Dev} (x : OnlyChan ch d e) : SameBut [.pins] d e := by
  obtain ⟨⟨p, rfl⟩, -⟩ := x
  exact sameBut_single fun q hq => by cases q <;> first | exact absurd rfl hq | rfl | exact Timeline.kept_refl _

/-! ### A channel that parks -/

/-- One level of a channel parks. -/
def Dev.parkLevel (d : Dev) (ch l : Nat) : Dev :=
  (d.cutRamp ch l).modChan ch fun c => c.modLevel l fun v => { v with park := true }

theorem parkLevel_parks {d : Dev} {ch l : Nat} (rests : ((d.chan ch).level l).rampTag = none) :
    OnlyChan ch d (d.parkLevel ch l) ∧ (∃ t, (d.parkLevel ch l).chan ch = { d.chan ch with levels := t }) ∧
      ∀ k, ((d.parkLevel ch l).chan ch).level k =
        if k = l then { (d.chan ch).level k with ramp := none, park := true } else (d.chan ch).level k := by
  have cut : d.cutRamp ch l = d.modChan ch fun c => c.modLevel l fun v => { v with ramp := none, rampTag := none } := by
    rw [Dev.cutRamp, rests]
  rw [Dev.parkLevel, cut]
  refine ⟨(onlyChan_modChan _ _ _).trans (onlyChan_modChan _ _ _), ⟨_, by rw [modChan_chan_self, modChan_chan_self]; rfl⟩, fun k => ?_⟩
  rw [modChan_chan_self, modChan_chan_self]
  split
  · next e =>
    subst e
    rw [modLevel_level_self, modLevel_level_self]
    simp only [rests]
  · next ne =>
    exact (Tab.get_mod_of_ne _ _ ne _).trans (Tab.get_mod_of_ne _ _ ne _)

/-- Levels of a channel park one by one. -/
theorem parkLevels_park {ch : Nat} (l : List Nat) (d : Dev) (rests : ∀ k ∈ l, ((d.chan ch).level k).rampTag = none) :
    OnlyChan ch d (forEach l (fun k d => d.parkLevel ch k) d) ∧
      (∃ t, (forEach l (fun k d => d.parkLevel ch k) d).chan ch = { d.chan ch with levels := t }) ∧
      ∀ k, k ∈ l ∨ ((d.chan ch).level k).park = true → (((forEach l (fun k d => d.parkLevel ch k) d).chan ch).level k).park = true := by
  induction l generalizing d with
  | nil => exact ⟨.refl _ _, ⟨_, rfl⟩, fun k h => h.resolve_left List.not_mem_nil⟩
  | cons k l ih =>
    obtain ⟨only, ⟨t, chan⟩, level⟩ := parkLevel_parks (rests k List.mem_cons_self)
    have tags : ∀ j ∈ l, (((d.parkLevel ch k).chan ch).level j).rampTag = none := fun j mem => by
      rw [level]
      split
      · exact rests j (List.mem_cons_of_mem _ mem)
      · exact rests j (List.mem_cons_of_mem _ mem)
    obtain ⟨only', ⟨t', chan'⟩, parked⟩ := ih (d.parkLevel ch k) tags
    refine ⟨only.trans only', ⟨t', chan'.trans (by rw [chan])⟩, fun j h => parked j ?_⟩
    rw [level]
    by_cases e : j = k
    · rw [if_pos e]
      exact .inr rfl
    · rw [if_neg e]
      exact h.imp (fun m => (List.mem_cons.1 m).resolve_left e) id

/-- What waits for the park of a channel that is not held ends. -/
theorem parkDone_ends {d : Dev} {ch : Nat} {tags : List Tag} (held : (d.chan ch).parkHeld = false) (waiting : (d.chan ch).parkTags = tags) :
    d.parkDone ch = tags.foldl (fun d t => d.endUnit t ch) (d.modChan ch fun c => { c with parkTags := [] }) := by
  rw [Dev.parkDone, held, waiting]
  rfl

/-- The PMU of a channel that rests at its safe value shuts down at once: only the park's end is left. -/
theorem shutPmu_of_rest {d : Dev} {ch : Nat} (wave : (d.pmu ch).wave = none) (meas : (d.pmu ch).meas = none) (seq : (d.pmu ch).seq = none)
    (open_ : (d.pmu ch).closed = false) (safe : (d.pmu ch).applied.toNat = safeOf (d.pmu ch).forceMode) :
    ∃ p : Pmu → Pmu, d.shutPmu ch false false = (d.modChan ch fun c => { c with pmu := p c.pmu }).parkDone ch := by
  have cutw : d.cutWave ch = d := by rw [Dev.cutWave, wave]
  have cutm : d.cutMeas ch = d := by rw [Dev.cutMeas, meas]
  refine ⟨fun p => { p with mode := (d.pmu ch).mode, lastForce := if forcing p.mode then p.mode else p.lastForce }, ?_⟩
  rw [Dev.shutPmu, cutw, cutm]
  dsimp only
  rw [if_pos ⟨seq, by rw [open_]; simp, safe⟩]
  rfl

/-- A channel whose driver, levels and PMU rest parks at once: nothing is left to end but what waits for the park. -/
theorem parkChannel_parks {d : Dev} {ch : Nat} (drv : (d.chan ch).drvPend = none)
    (levels : ∀ l, l < 7 → ((d.chan ch).level l).pend = none ∧ ((d.chan ch).level l).rampTag = none)
    (wave : (d.pmu ch).wave = none) (meas : (d.pmu ch).meas = none) (seq : (d.pmu ch).seq = none) (open_ : (d.pmu ch).closed = false)
    (safe : (d.pmu ch).applied.toNat = safeOf (d.pmu ch).forceMode) :
    ∃ e, d.parkChannel ch = (d.chan ch).parkTags.foldl (fun d t => d.endUnit t ch) e ∧ OnlyChan ch d e ∧ (e.chan ch).drvMode = 0 ∧
      (e.chan ch).offMode = false ∧ (e.chan ch).loadEn = false ∧ ∀ l, l < 5 → ((e.chan ch).level l).park = true := by
  let a : Dev := (d.modChan ch fun c => { c with drvMode := 0, drvPend := none }).modChan ch fun c =>
    { c with offMode := false, loadEn := false, parkHeld := false }
  have achan : a.chan ch = { d.chan ch with drvMode := 0, drvPend := none, offMode := false, loadEn := false, parkHeld := false } := by
    rw [modChan_chan_self, modChan_chan_self]
  have alevel : ∀ l, (a.chan ch).level l = (d.chan ch).level l := fun l => by rw [achan]; rfl
  have off : (d.driverOff ch).modChan ch (fun c => { c with offMode := false, loadEn := false, parkHeld := false }) = a := by
    rw [Dev.driverOff, drv]
  have drops : a.dropLevels ch = a := by
    unfold Dev.dropLevels
    refine List.foldlRecOn (motive := fun e => e = a) _ _ rfl fun e same l mem => ?_
    subst same
    dsimp only
    rw [alevel, (levels l (List.mem_range.1 mem)).1]
  obtain ⟨only, ⟨t, chan⟩, parked⟩ := parkLevels_park (ch := ch) (List.range 5) a fun k mem => by
    rw [alevel]
    exact (levels k (by have := List.mem_range.1 mem; omega)).2
  have whole : d.parkChannel ch = (forEach (List.range 5) (fun k d => d.parkLevel ch k) a).shutPmu ch false false := by
    rw [Dev.parkChannel, off, drops]
    rfl
  generalize forEach (List.range 5) (fun k d => d.parkLevel ch k) a = b at only chan parked whole
  have pmu : b.pmu ch = d.pmu ch := by rw [Dev.pmu, chan, achan, Dev.pmu]
  obtain ⟨p, shut⟩ := shutPmu_of_rest (d := b) (ch := ch) (by rw [pmu, wave]) (by rw [pmu, meas]) (by rw [pmu, seq])
    (by rw [pmu, open_]) (by rw [pmu, safe])
  have fchan : (b.modChan ch fun c => { c with pmu := p c.pmu }).chan ch = { b.chan ch with pmu := p (b.chan ch).pmu } :=
    modChan_chan_self _ _ _
  have first := only.trans (onlyChan_modChan b ch fun c => { c with pmu := p c.pmu })
  rw [← whole] at shut
  generalize b.modChan ch (fun c => { c with pmu := p c.pmu }) = c at shut fchan first
  have ends := parkDone_ends (d := c) (ch := ch) (tags := (d.chan ch).parkTags) (by rw [fchan, chan, achan]) (by rw [fchan, chan, achan])
  refine ⟨c.modChan ch fun c => { c with parkTags := [] }, shut.trans ends,
    ((onlyChan_modChan _ _ _).trans (onlyChan_modChan _ _ _)).trans (first.trans (onlyChan_modChan _ _ _)), ?_, ?_, ?_, fun l hl => ?_⟩
  · rw [modChan_chan_self, fchan, chan, achan]
  · rw [modChan_chan_self, fchan, chan, achan]
  · rw [modChan_chan_self, fchan, chan, achan]
  · rw [modChan_chan_self, fchan]
    exact parked l (.inl (List.mem_range.2 hl))

/-! ### The park's own command -/

/-- The ends of a channel that several commands wait for: the one whose job is open ends with it. -/
theorem endUnits_end {h : Hdr} {op : BitVec 16} {ch : Nat} (tags : List Tag) (d : Dev) (mem : h.tag ∈ tags)
    (flights : d.ctl.flights = [{ newFlight h op with accepted := true }]) (jobs : d.ctl.jobs = [{ tag := h.tag, left := 1#512 <<< ch }]) :
    (tags.foldl (fun d t => d.endUnit t ch) d).ended (h.tag, h.stream, op, stOk, true, []) ∧
      (tags.foldl (fun d t => d.endUnit t ch) d).cplPath = d.cplPath ∧ (tags.foldl (fun d t => d.endUnit t ch) d).ctl.jobs = [] := by
  induction tags generalizing d with
  | nil => exact absurd mem List.not_mem_nil
  | cons t tags ih =>
    rw [List.foldl_cons]
    by_cases e : t = h.tag
    · subst e
      let j : Job := { tag := h.tag, left := 0, stamp := some (max 0 d.tl.now) }
      let c : Dev := d.modJob h.tag fun j => { j with left := j.left &&& ~~~ (1#512 <<< ch), stamp := some (max (j.stamp.getD 0) d.tl.now) }
      have one : c.ctl.jobs = [j] := by simp [c, j, Dev.modJob, jobs, BitVec.and_not_self]
      obtain ⟨ended, path, gone⟩ := settleJob_ends (d := c) (op := op) flights one rfl rfl rfl rfl rfl
      have ends : d.endUnit h.tag ch = c.settleJob h.tag := rfl
      have rest : ∀ l : List Tag, l.foldl (fun d t => d.endUnit t ch) (c.settleJob h.tag) = c.settleJob h.tag := fun l => by
        induction l with
        | nil => rfl
        | cons x l ih => rw [List.foldl_cons, endUnit_of_no_jobs gone, ih]
      rw [ends, rest]
      exact ⟨ended, path, gone⟩
    · have same : d.endUnit t ch = d := by
        have other : d.modJob t (fun j => { j with left := j.left &&& ~~~ (1#512 <<< ch), stamp := some (max (j.stamp.getD 0) d.tl.now) }) = d := by
          have map : d.ctl.jobs.map (fun j => if j.tag = t then
              { j with left := j.left &&& ~~~ (1#512 <<< ch), stamp := some (max (j.stamp.getD 0) d.tl.now) } else j) = d.ctl.jobs := by
            rw [jobs, List.map_singleton, if_neg (Ne.symm e)]
          rw [Dev.modJob, map]
        rw [Dev.endUnit, Dev.endUnitAt, other, Dev.settleJob, show d.job t = none by simp [Dev.job, jobs, Ne.symm e]]
      rw [same]
      exact ih d ((List.mem_cons.1 mem).resolve_left (Ne.symm e)) flights jobs

theorem endUnits_pins (ch : Nat) (tags : List Tag) (d : Dev) : (tags.foldl (fun d t => d.endUnit t ch) d).pins = d.pins :=
  foldl_leaves Dev.pins (fun d t => by simp) tags d

theorem pinPark_parks {s : State} {h : Hdr} {ch : Nat} (i : Idle s h) (hc : ch < 512) (own : s.dev.ownerOf ch = none)
    (drv : (s.dev.chan ch).drvPend = none)
    (levels : ∀ l, l < 7 → ((s.dev.chan ch).level l).pend = none ∧ ((s.dev.chan ch).level l).rampTag = none)
    (wave : (s.dev.pmu ch).wave = none) (meas : (s.dev.pmu ch).meas = none) (seq : (s.dev.pmu ch).seq = none)
    (open_ : (s.dev.pmu ch).closed = false) (safe : (s.dev.pmu ch).applied.toNat = safeOf (s.dev.pmu ch).forceMode) :
    ∃ t, exec (.pinPark h (1#512 <<< ch)) s = .next t ∧ Answers s t h 0x0208 stOk [] ∧ (t.dev.chan ch).drvMode = 0 ∧
      (t.dev.chan ch).offMode = false ∧ (t.dev.chan ch).loadEn = false ∧ t.dev.ball ch = .hiZ ∧
      (∀ l, l < 5 → ((t.dev.chan ch).level l).park = true) ∧ ∀ k, k ≠ ch → t.dev.chan k = s.dev.chan k := by
  let a : Dev := (s.dev.takenUp h 0x0208).openUnit h.tag ch
  let b : Dev := a.modChan ch fun c => { c with parkTags := c.parkTags ++ [h.tag] }
  have chan : ∀ k, a.chan k = s.dev.chan k := takenUp_chan s.dev h 0x0208
  have bchan : b.chan ch = { s.dev.chan ch with parkTags := (s.dev.chan ch).parkTags ++ [h.tag] } := by
    rw [modChan_chan_self, chan]
  have bpmu : b.pmu ch = s.dev.pmu ch := by rw [Dev.pmu, bchan, Dev.pmu]
  have bown : b.ownerOf ch = none := (ownerOf_of_seq (takenUp_seq s.dev h 0x0208) ch).trans own
  have clock : b.endClock ([ch].filter fun k => !(b.busySite k)) = b := by
    have idle : b.busySite ch = false := by rw [Dev.busySite, bown]
    rw [List.filter_singleton, idle, Dev.endClock]
    simp [bpmu, wave]
  obtain ⟨e, parks, only, mode, off, load, parked⟩ := parkChannel_parks (d := b) (ch := ch) (by rw [bchan]; exact drv)
    (fun l hl => by rw [bchan]; exact levels l hl) (by rw [bpmu]; exact wave) (by rw [bpmu]; exact meas) (by rw [bpmu]; exact seq)
    (by rw [bpmu]; exact open_) (by rw [bpmu]; exact safe)
  rw [bchan] at parks
  have pin : b.parkPin ch = b.parkChannel ch := by rw [Dev.parkPin, bown]
  obtain ⟨ended, path, gone⟩ := endUnits_end (h := h) (op := 0x0208) (ch := ch) ((s.dev.chan ch).parkTags ++ [h.tag]) e
    (List.mem_append_right _ (List.mem_singleton_self _))
    ((congrArg Ctl.flights only.ctl).trans (openUnit_flights i 0x0208 ch)) ((congrArg Ctl.jobs only.ctl).trans (openUnit_jobs i 0x0208 ch))
  have pins := endUnits_pins ch ((s.dev.chan ch).parkTags ++ [h.tag]) e
  have runs : exec (.pinPark h (1#512 <<< ch)) s = .next { s with dev := ((b.parkPin ch).settleJob h.tag).commit } := by
    refine hostCmd_runs i 0x0208 ?_
    rw [members_singleton hc]
    exact congrArg (fun d : Dev => (d.parkPin ch).settleJob h.tag) clock
  rw [pin, parks] at runs
  have epath : e.cplPath = s.dev.cplPath := by
    have same : e.cplPath = a.cplPath := by simp only [Dev.cplPath, only.ctl]; rfl
    exact same.trans (takenUp_cplPath i 0x0208)
  have others : ∀ k, k ≠ ch → e.chan k = s.dev.chan k := fun k ne =>
    (only.others k ne).trans ((modChan_chan_of_ne _ ne _).trans (chan k))
  generalize ((s.dev.chan ch).parkTags ++ [h.tag]).foldl (fun d t => d.endUnit t ch) e = x at runs ended path gone pins
  rw [settleJob_of_no_jobs gone] at runs
  have same : ∀ k, x.chan k = e.chan k := chan_of_pins pins
  refine ⟨_, runs, ended.answers i (path.trans epath) (.inr rfl), ?_, ?_, ?_, ?_, fun l hl => ?_, fun k ne => ?_⟩
  · dsimp only
    rw [commit_chan, same, mode]
  · dsimp only
    rw [commit_chan, same, off]
  · dsimp only
    rw [commit_chan, same, load]
  · dsimp only
    rw [Dev.ball, commit_chan, same, Chan.ballAt, mode]
    simp
  · dsimp only
    rw [commit_chan, same, parked l hl]
  · dsimp only
    rw [commit_chan, same, others k ne]

/-! ### The events of a channel -/

/-- What the events of a channel do to a device: its pins change, and what waits for them may end, at the same instant. -/
structure PinStep (d e : Dev) : Prop where
  keeps : SameBut [.pins] d e
  tl : e.tl = d.tl

theorem PinStep.refl (d : Dev) : PinStep d d := ⟨.refl _ _, rfl⟩

theorem PinStep.trans {a b c : Dev} (x : PinStep a b) (y : PinStep b c) : PinStep a c := ⟨x.keeps.trans y.keeps, y.tl.trans x.tl⟩

theorem pinStep_modChan (d : Dev) (ch : Nat) (f : Chan → Chan) : PinStep d (d.modChan ch f) := ⟨modChan_keeps _ _ _, rfl⟩

theorem pinStep_partDone (d : Dev) (g : Tag) (r : Bool) (k : Nat) : PinStep d (d.partDone g r k) :=
  ⟨partDone_keeps _ _ _ _ _, by simp [Dev.partDone]⟩

theorem pinStep_endUnitAt (d : Dev) (g : Tag) (ch z : Nat) : PinStep d (d.endUnitAt g ch z) :=
  ⟨endUnitAt_keeps _ _ _ _ _, by simp [Dev.endUnitAt]⟩

theorem dropRamp_of_some {d : Dev} {ch l : Nat} {g : Tag} (tag : ((d.chan ch).level l).rampTag = some g) :
    d.dropRamp ch l = (d.modChan ch fun c => c.modLevel l fun v => { v with ramp := none, rampTag := none }).partDone g false l := by
  rw [Dev.dropRamp, tag]
  rfl

theorem pinStep_dropRamp (d : Dev) (ch l : Nat) : PinStep d (d.dropRamp ch l) := by
  cases tag : ((d.chan ch).level l).rampTag with
  | none => exact dropRamp_of_none tag ▸ pinStep_modChan _ _ _
  | some g => exact dropRamp_of_some tag ▸ (pinStep_modChan _ _ _).trans (pinStep_partDone _ _ _ _)

/-- What every step of a walk along a list does, the walk does. -/
theorem forEach_rel {R : Dev → Dev → Prop} (refl : ∀ d, R d d) (trans : ∀ {a b c}, R a b → R b c → R a c) {f : Nat → Dev → Dev}
    (h : ∀ k d, R d (f k d)) (l : List Nat) (d : Dev) : R d (forEach l f d) := by
  induction l generalizing d with
  | nil => exact refl _
  | cons k l ih => exact trans (h k d) (ih _)

theorem dropRamp_chan (d : Dev) (ch l : Nat) :
    (d.dropRamp ch l).chan ch = (d.chan ch).modLevel l fun v => { v with ramp := none, rampTag := none } := by
  cases tag : ((d.chan ch).level l).rampTag with
  | none => exact dropRamp_of_none tag ▸ modChan_chan_self _ _ _
  | some g => exact dropRamp_of_some tag ▸ (chan_of_pins (partDone_pins _ _ _ _) ch).trans (modChan_chan_self _ _ _)

/-- A level that takes what is pending for it. -/
def Level.taken (v : Level) : Level :=
  match v.pend with
  | none => v
  | some p => { v with code := p.code, applied := p.code, park := p.park, span := p.span, pend := none, ramp := none, rampTag := none }

theorem takeLevel_takes (d : Dev) (ch l : Nat) :
    PinStep d (d.takeLevel ch l) ∧ ∀ k, ((d.takeLevel ch l).chan ch).level k =
      if k = l then ((d.chan ch).level k).taken else ((d.chan ch).level k) := by
  unfold Dev.takeLevel
  cases pend : ((d.chan ch).level l).pend with
  | none =>
    refine ⟨.refl _, fun k => ?_⟩
    by_cases e : k = l
    · rw [if_pos e, e, Level.taken, pend]
    · rw [if_neg e]
  | some p =>
    refine ⟨(pinStep_dropRamp _ _ _).trans ((pinStep_modChan _ _ _).trans (pinStep_partDone _ _ _ _)), fun k => ?_⟩
    dsimp only
    rw [chan_of_pins (partDone_pins _ _ _ _), modChan_chan_self, dropRamp_chan]
    by_cases e : k = l
    · rw [if_pos e, e, modLevel_level_self, modLevel_level_self, Level.taken, pend]
    · rw [if_neg e]
      exact (Tab.get_mod_of_ne _ _ e _).trans (Tab.get_mod_of_ne _ _ e _)

/-- What happens at a channel's instant beside its levels. -/
structure EdgeStep (ch : Nat) (d e : Dev) : Prop where
  step : PinStep d e
  levels : (e.chan ch).levels = (d.chan ch).levels

theorem EdgeStep.refl (ch : Nat) (d : Dev) : EdgeStep ch d d := ⟨.refl _, rfl⟩

theorem EdgeStep.trans {ch : Nat} {a b c : Dev} (x : EdgeStep ch a b) (y : EdgeStep ch b c) : EdgeStep ch a c :=
  ⟨x.step.trans y.step, y.levels.trans x.levels⟩

/-- A value other than a level is taken, and what waits for it may end. -/
theorem edgeStep_part (d : Dev) (ch : Nat) {f : Chan → Chan} (h : (f (d.chan ch)).levels = (d.chan ch).levels) (g : Tag) :
    EdgeStep ch d ((d.modChan ch f).partDone g true 0) :=
  ⟨(pinStep_modChan _ _ _).trans (pinStep_partDone _ _ _ _),
    (congrArg Chan.levels ((chan_of_pins (partDone_pins _ _ _ _) ch).trans (modChan_chan_self _ _ _))).trans h⟩

/-- One edge of a channel takes what is pending for it. -/
def Dev.takeEdge (d : Dev) (ch k : Nat) : Dev :=
  match (d.chan ch).edgePend.get none k with
  | none => d
  | some (e, tag) =>
    (d.modChan ch fun c => { c with edges := c.edges.set 0 k e, edgePend := c.edgePend.set none k none }).partDone tag true 0

/-- The deskew of a channel's driver takes what is pending for it. -/
def Dev.takeDrvDeskew (d : Dev) (ch : Nat) : Dev :=
  match (d.chan ch).drvDeskewPend with
  | some (v, tag) => (d.modChan ch fun c => { c with drvDeskew := v, drvDeskewPend := none }).partDone tag true 0
  | none => d

/-- The deskew of a channel's comparators takes what is pending for it. -/
def Dev.takeCmpDeskew (d : Dev) (ch : Nat) : Dev :=
  match (d.chan ch).cmpDeskewPend with
  | some (v, tag) => (d.modChan ch fun c => { c with cmpDeskew := v, cmpDeskewPend := none }).partDone tag true 0
  | none => d

theorem takeEdges_eq (d : Dev) (ch : Nat) :
    d.takeEdges ch = ((forEach (List.range 16) (fun k d => d.takeEdge ch k) d).takeDrvDeskew ch).takeCmpDeskew ch := by
  unfold Dev.takeEdges
  generalize List.range 16 = l
  rfl

theorem takeEdge_takes (d : Dev) (ch k : Nat) : EdgeStep ch d (d.takeEdge ch k) := by
  unfold Dev.takeEdge
  cases (d.chan ch).edgePend.get none k with
  | none => exact .refl _ _
  | some e => exact edgeStep_part d ch rfl e.2

theorem takeDrvDeskew_takes (d : Dev) (ch : Nat) : EdgeStep ch d (d.takeDrvDeskew ch) := by
  unfold Dev.takeDrvDeskew
  cases (d.chan ch).drvDeskewPend with
  | none => exact .refl _ _
  | some e => exact edgeStep_part d ch rfl e.2

theorem takeCmpDeskew_takes (d : Dev) (ch : Nat) : EdgeStep ch d (d.takeCmpDeskew ch) := by
  unfold Dev.takeCmpDeskew
  cases (d.chan ch).cmpDeskewPend with
  | none => exact .refl _ _
  | some e => exact edgeStep_part d ch rfl e.2

/-- The edges and deskews of a channel change no level. -/
theorem takeEdges_takes (d : Dev) (ch : Nat) : EdgeStep ch d (d.takeEdges ch) := by
  have edges := forEach_rel (EdgeStep.refl ch) EdgeStep.trans (fun k d => takeEdge_takes d ch k) (List.range 16) d
  rw [takeEdges_eq]
  exact (edges.trans (takeDrvDeskew_takes _ ch)).trans (takeCmpDeskew_takes _ ch)

theorem takeEdges_level (d : Dev) (ch l : Nat) :
    (((d.takeEdges ch).modChan ch fun c => { c with pendAt := none }).chan ch).level l = (d.chan ch).level l := by
  have levels := (takeEdges_takes d ch).levels
  generalize d.takeEdges ch = a at levels ⊢
  rw [modChan_chan_self]
  exact congrArg (fun t => Tab.get {} t l) levels

theorem takeChannel_takes (d : Dev) (ch : Nat) {l : Nat} (hl : l < 7) :
    PinStep d (d.takeChannel ch) ∧ ((d.takeChannel ch).chan ch).level l = ((d.chan ch).level l).taken := by
  have step := (takeEdges_takes (forEach (List.range 7) (fun l d => d.takeLevel ch l) d) ch).step
  refine ⟨((forEach_rel PinStep.refl PinStep.trans (fun k d => (takeLevel_takes d ch k).1) _ d).trans step).trans (pinStep_modChan _ _ _), ?_⟩
  have all : ((forEach (List.range 7) (fun l d => d.takeLevel ch l) d).chan ch).level l = _ :=
    get_foldl (fun d k => (d.chan ch).level k) (fun d l => d.takeLevel ch l) Level.taken
    (fun d k => ((takeLevel_takes d ch k).2 k).trans (if_pos rfl)) (fun d k j ne => ((takeLevel_takes d ch k).2 j).trans (if_neg ne)) l
    (List.range 7) List.nodup_range d
  rw [if_pos (List.mem_range.2 hl)] at all
  unfold Dev.takeChannel
  exact (takeEdges_level _ ch l).trans all

theorem levelRampMove_arrives {s : State} {ch : BitVec 9} {l : BitVec 3} {t0 : Int} (rewind : s.dev.tl.rewind = none)
    (ramp : ((s.dev.chan ch.toNat).level l.toNat).ramp = some t0) (jump : ((s.dev.chan ch.toNat).level l.toNat).interval = 0) :
    ∃ t, exec (.levelRampMove ch l) s = .next t ∧ Keeps [.pins] s t ∧
      ((t.dev.chan ch.toNat).level l.toNat).applied = ((s.dev.chan ch.toNat).level l.toNat).code ∧
      ((t.dev.chan ch.toNat).level l.toNat).ramp = none := by
  let n := (t0 + max 1 ((s.dev.chan ch.toNat).level l.toNat).interval * clk : Int).toNat
  let d : Dev := (s.dev.advance n).modChan ch.toNat fun c => c.modLevel l.toNat fun v => { v with applied := v.code, ramp := none, rampTag := none }
  let e : Dev := match ((s.dev.chan ch.toNat).level l.toNat).rampTag with | some t => d.partDone t true l.toNat | none => d
  have runs : exec (.levelRampMove ch l) s = .next { s with dev := e.commit } := by
    refine (onDev_runs ?_ : execLevelRampMove ch l s = _)
    simp only [ramp]
    rw [due_of_no_rewind rewind, if_pos jump]
    exact if_pos rfl
  have step : PinStep d e := by
    simp only [e]
    split
    · exact pinStep_partDone _ _ _ _
    · exact .refl _
  have pins : e.pins = d.pins := by
    simp only [e]
    split
    · exact partDone_pins _ _ _ _
    · rfl
  have same : (s.dev.advance n).chan ch.toNat = s.dev.chan ch.toNat := chan_of_pins (by simp) _
  have level : ((e.chan ch.toNat).level l.toNat) =
      { (s.dev.chan ch.toNat).level l.toNat with
        applied := ((s.dev.chan ch.toNat).level l.toNat).code, ramp := none, rampTag := none } := by
    rw [chan_of_pins pins, modChan_chan_self, modLevel_level_self, same]
  refine ⟨_, runs, keeps_commit (advance_keeps_trans n ((modChan_keeps _ _ _).trans step.keeps)), ?_, ?_⟩
  · dsimp only
    rw [commit_chan, level]
  · dsimp only
    rw [commit_chan, level]

theorem driver_takes_effect {s : State} {n : Nat} {ch : BitVec 9} {p : DrvPend} (pend : (s.dev.chan ch.toNat).drvPend = some p)
    (past : p.stamp ≤ n) (rewind : s.dev.tl.rewind = none) (slice : (s.dev.chan ch.toNat).noSlice = false) :
    ∃ t, exec (.pendingValuesEffect n (.channel ch)) s = .next t ∧ Keeps [.pins] s t ∧ (t.dev.chan ch.toNat).drvMode = p.mode ∧
      (t.dev.chan ch.toNat).offMode = p.off ∧ (t.dev.chan ch.toNat).drvPend = none := by
  have runs : exec (.pendingValuesEffect n (.channel ch)) s =
      .next { s with dev := ((s.dev.advance p.stamp).takeDriver ch.toNat).commit } := by
    refine (onDev_runs ?_ : execPendingValuesEffect n (.channel ch) s = _)
    simp only [pend]
    exact (if_pos past).trans (due_of_no_rewind rewind _ _)
  have same : (s.dev.advance p.stamp).chan ch.toNat = s.dev.chan ch.toNat := chan_of_pins (by simp) _
  have takes : (s.dev.advance p.stamp).takeDriver ch.toNat =
      (s.dev.advance p.stamp).applyDriver ch.toNat p.mode p.off p.tag p.stamp := by rw [Dev.takeDriver, same, pend]
  rw [takes] at runs
  have chan : (((s.dev.advance p.stamp).applyDriver ch.toNat p.mode p.off p.tag p.stamp)).chan ch.toNat =
      { s.dev.chan ch.toNat with drvMode := p.mode, offMode := p.off, tripped := false, drvPend := none } := by
    rw [Dev.applyDriver, chan_of_pins (Dev.endUnitAt_pins _ _ _ _), modChan_chan_self, same]
    simp [slice]
  refine ⟨_, runs, keeps_commit (advance_keeps_trans p.stamp ((modChan_keeps _ _ _).trans (endUnitAt_keeps _ _ _ _ _))), ?_, ?_, ?_⟩
  · dsimp only
    rw [commit_chan, chan]
  · dsimp only
    rw [commit_chan, chan]
  · dsimp only
    rw [commit_chan, chan]

theorem level_takes_effect {s : State} {n l a : Nat} {ch : BitVec 9} {p : PendLevel} (hl : l < 7) (drv : (s.dev.chan ch.toNat).drvPend = none)
    (at_ : (s.dev.chan ch.toNat).pendAt = some a) (past : a ≤ n) (rewind : s.dev.tl.rewind = none)
    (pend : ((s.dev.chan ch.toNat).level l).pend = some p) :
    ∃ t, exec (.pendingValuesEffect n (.channel ch)) s = .next t ∧ Keeps [.pins] s t ∧ t.dev.tl.now = (s.dev.advance a).tl.now ∧
      ((t.dev.chan ch.toNat).level l).code = p.code ∧ ((t.dev.chan ch.toNat).level l).applied = p.code ∧
      ((t.dev.chan ch.toNat).level l).park = p.park ∧ ((t.dev.chan ch.toNat).level l).span = p.span ∧
      ((t.dev.chan ch.toNat).level l).pend = none := by
  have runs : exec (.pendingValuesEffect n (.channel ch)) s = .next { s with dev := ((s.dev.advance a).takeChannel ch.toNat).commit } := by
    refine (onDev_runs ?_ : execPendingValuesEffect n (.channel ch) s = _)
    simp only [drv, at_]
    exact (if_pos past).trans (due_of_no_rewind rewind _ _)
  obtain ⟨step, level⟩ := takeChannel_takes (s.dev.advance a) ch.toNat hl
  rw [chan_of_pins (show (s.dev.advance a).pins = s.dev.pins by simp) ch.toNat, Level.taken, pend] at level
  have now := congrArg Timeline.now step.tl
  refine ⟨_, runs, keeps_commit (advance_keeps_trans a step.keeps), ?_, ?_, ?_, ?_, ?_, ?_⟩
  · dsimp only
    rw [commit_tl, now]
  all_goals
    dsimp only
    rw [commit_chan, level]

theorem queuedLoad_runs {s : State} {n : Nat} {ch : BitVec 9} {iol ioh : BitVec 8} {tag : Tag} {j : Job}
    (shut : (s.dev.chan ch.toNat).shutting = false) (queued : (s.dev.chan ch.toNat).queuedCmds = [.load iol ioh tag])
    (rest : (s.dev.pmu ch.toNat).queued = []) (job : s.dev.job tag = some j) (left : j.left = 1#512 <<< ch.toNat)
    (ok : s.dev.loadCheck ch.toNat = none) :
    ∃ t, exec (.queuedEnableRelease n ch) s = .next t ∧ Keeps [.pins] s t ∧ (t.dev.chan ch.toNat).loadEn = true ∧
      (t.dev.chan ch.toNat).iol = iol ∧ (t.dev.chan ch.toNat).ioh = ioh ∧ (t.dev.chan ch.toNat).queuedCmds = [] := by
  let a : Dev := (s.dev.advance n).modChan ch.toNat fun c => { c with queuedCmds := c.queuedCmds.filter fun x => x != .load iol ioh tag }
  have dchan : (s.dev.advance n).chan ch.toNat = s.dev.chan ch.toNat := chan_of_pins (by simp) _
  have achan : a.chan ch.toNat = { s.dev.chan ch.toNat with queuedCmds := [] } := by
    rw [modChan_chan_self, dchan, queued]
    simp
  have found : a.job tag = some j := by
    have same : a.job tag = s.dev.job tag := by simp [Dev.job, a]
    exact same.trans job
  have check : a.loadCheck ch.toNat = none := by
    have same : a.loadCheck ch.toNat = s.dev.loadCheck ch.toNat := by
      have clash : (a.chan ch.toNat).loadClash = (s.dev.chan ch.toNat).loadClash := by rw [achan]; rfl
      simp only [Dev.loadCheck, clash]
      simp [Dev.inFullRun, a]
    exact same.trans ok
  let b : Dev := a.runPin ch.toNat (.load iol ioh tag)
  have release : (s.dev.advance n).releasePinCmd ch.toNat (.load iol ioh tag) = b := by
    unfold Dev.releasePinCmd
    change (match a.job tag with
      | none => a
      | some j => _) = b
    rw [found]
    dsimp only
    rw [left, members_singleton ch.isLt]
    rw [if_neg (by simp [achan]), worstOf_eq_none (fun i mem => by rw [List.mem_singleton.1 mem]; exact check)]
    rfl
  have bchan : b.chan ch.toNat = { s.dev.chan ch.toNat with queuedCmds := [], loadEn := true, iol := iol, ioh := ioh } := by
    refine (chan_of_pins (Dev.endUnit_pins _ _ _) _).trans ?_
    rw [modChan_chan_self, achan]
  have runs : exec (.queuedEnableRelease n ch) s = .next { s with dev := b.commit } := by
    refine (onDev_runs ?_ : execQueuedEnableRelease n ch s = _)
    dsimp only
    rw [if_neg (by rw [shut]; simp), dchan, queued, List.foldl_cons, List.foldl_nil, release, Dev.pmu, bchan]
    simp only [show (s.dev.chan ch.toNat).pmu.queued = [] from rest, List.foldl_nil]
  refine ⟨_, runs, keeps_commit (advance_keeps_trans n ((modChan_keeps _ _ _).trans ((modChan_keeps _ _ _).trans
    (endUnitAt_keeps _ _ _ _ _)))), ?_, ?_, ?_, ?_⟩
  all_goals
    dsimp only
    rw [commit_chan, bchan]

end Sys2Proof.Machine
open Sys2Proof Sys2Proof.Machine

/-- Settles O35, by what a parked channel is left with, and by what each event of a channel takes from what waits for it. -/
theorem pinEvents : Obligations.PinEvents := by
  unfold Obligations.PinEvents
  exact ⟨fun s h ch i hc own drv levels wave meas seq open_ safe => pinPark_parks i hc own drv levels wave meas seq open_ safe,
    fun s n ch => ⟨fun l t0 _ rewind ramp jump => levelRampMove_arrives rewind ramp jump,
      fun p pend past rewind slice => driver_takes_effect pend past rewind slice,
      fun l p a hl drv at_ past rewind pend => level_takes_effect hl drv at_ past rewind pend,
      fun iol ioh tag j shut queued rest job left ok => queuedLoad_runs shut queued rest job left ok⟩⟩

end


section
/-!
PROOFS. Commands that are planned for a stamp (R37, R38), and the plans of the PMUs (R96, R100, R101, R106, R115).
-/
namespace Sys2Proof.Machine

/-! ### A command that is planned for a stamp -/

/-- The device on which a command on one unit has been planned. -/
def Dev.unitPlanned (d : Dev) (g : Tag) (u : Nat) (k : ActKind) (epoch : BitVec 16) (stamp : Nat) (late : Bool) : Dev :=
  ((d.accept g).openJob { tag := g, left := 1#512 <<< u, late := late }).addAct { tag := g, kind := k, epoch := epoch, stamp := stamp }

@[simp] theorem unitPlanned_chan (d : Dev) (g : Tag) (u : Nat) (k : ActKind) (epoch : BitVec 16) (stamp : Nat) (late : Bool) (ch : Nat) :
    (d.unitPlanned g u k epoch stamp late).chan ch = d.chan ch := rfl
@[simp] theorem unitPlanned_pmu (d : Dev) (g : Tag) (u : Nat) (k : ActKind) (epoch : BitVec 16) (stamp : Nat) (late : Bool) (ch : Nat) :
    (d.unitPlanned g u k epoch stamp late).pmu ch = d.pmu ch := rfl

theorem unitPlanned_ctl (d : Dev) (g : Tag) (u : Nat) (k : ActKind) (epoch : BitVec 16) (stamp : Nat) (late : Bool) :
    (d.unitPlanned g u k epoch stamp late).ctl =
      { (d.accept g).ctl with jobs := (d.accept g).ctl.jobs ++ [{ tag := g, left := 1#512 <<< u, late := late }] } := rfl

theorem unitPlanned_keeps (d : Dev) (g : Tag) (u : Nat) (k : ActKind) (epoch : BitVec 16) (stamp : Nat) (late : Bool) :
    SameBut [.tl] d (d.unitPlanned g u k epoch stamp late) :=
  (((accept_keeps _ d g).trans (openJob_keeps _ _ _))).trans (addAct_keeps _ _)

/-- A plan whose instant can be placed: the command is accepted, its job is open and its action is scheduled. -/
theorem plan_places {d : Dev} {h : Hdr} {w : When} {g : Nat} {e : BitVec 16} {st : Nat} {late : Bool} {u : Nat} (hu : u < 512) (k : ActKind)
    (body : Dev → BitVec 16 → Nat → Dev) (place : d.schedule w g false = .ok (e, st, late)) :
    d.plan h w (1#512 <<< u) k g body = body (d.unitPlanned h.tag u k e st late) e st := by
  unfold Dev.plan
  rw [place]
  exact if_neg (unit_ne_zero hu)

section
variable {s : State} {h : Hdr} {u : Nat} {k : ActKind} {e : BitVec 16} {st : Nat} {late : Bool}

/-- A planned command waits, whatever else its plan notes outside the control complex. -/
theorem unitPlanned_waits (i : Idle s h) (op : BitVec 16) {d : Dev} (ctl : d.ctl = ((s.dev.takenUp h op).unitPlanned h.tag u k e st late).ctl) :
    Waits s { s with dev := d.commit } h op :=
  waits_of_accepted i op _ (ctl.trans (unitPlanned_ctl _ _ _ _ _ _ _))

theorem unitPlanned_acts (op : BitVec 16) :
    ((s.dev.takenUp h op).unitPlanned h.tag u k e st late).tl.acts =
      s.dev.tl.acts ++ [{ tag := h.tag, kind := k, epoch := e, stamp := st }] := by
  refine congrArg (· ++ _) ?_
  rw [Dev.openJob_tl, Dev.accept_tl, takenUp_acts]

/-- A plan of one PMU: the command waits, its action is scheduled, and the PMU alone notes it. -/
theorem pmuPlan_waits (i : Idle s h) (op : BitVec 16) (c : opClass op ≠ 0) (f : Pmu → Pmu) :
    let t := { s with dev := (((s.dev.takenUp h op).unitPlanned h.tag u k e st late).modPmu u f).commit }
    Keeps [.pins, .tl] s t ∧ Waits s t h op ∧ t.dev.pmu u = f (s.dev.pmu u) ∧
      t.dev.tl.acts = s.dev.tl.acts ++ [{ tag := h.tag, kind := k, epoch := e, stamp := st }] := by
  refine ⟨keeps_of_takenUp c (((unitPlanned_keeps _ _ _ _ _ _ _).mono (by simp)).trans ((modChan_keeps _ _ _).mono (by simp))),
    unitPlanned_waits i op (Dev.modPmu_ctl _ _ _), ?_, ?_⟩
  · rw [commit_pmu, modPmu_pmu_self, unitPlanned_pmu, takenUp_pmu]
  · dsimp only
    rw [commit_tl]
    exact unitPlanned_acts op

end

/-! ### The plans of the PMUs -/

section
variable {s : State} {h : Hdr} (i : Idle s h) {ch : Nat} (hc : ch < 512) {w : When} {e : BitVec 16} {st : Nat} {late : Bool}
  (place : (s.dev.advance h.t).schedule w clk false = .ok (e, st, late))
include i hc place

omit i in
/-- A change of a PMU's setting on a channel that does not shut down is noted for its stamp. -/
theorem planChange_notes (op : BitVec 16) (shut : (s.dev.chan ch).shutting = false) (c : PmuChange) :
    (s.dev.takenUp h op).planChange h w (1#512 <<< ch) c =
      ((s.dev.takenUp h op).unitPlanned h.tag ch .pmuSeq e st late).modPmu ch fun p =>
        { p with sched := p.sched ++ [{ c with tag := some h.tag, epoch := e, stamp := st }] } := by
  have placed := (schedule_of_tl (takenUp_tl s.dev h op) w clk false).trans place
  have stays : ((s.dev.takenUp h op).unitPlanned h.tag ch .pmuSeq e st late).chan ch = s.dev.chan ch := takenUp_chan s.dev h op ch
  unfold Dev.planChange
  rw [plan_places hc _ _ placed]
  simp only [members_singleton hc, List.any_cons, List.any_nil, stays, shut, Bool.or_false, Bool.false_eq_true, and_false, if_false,
    List.foldl_cons, List.foldl_nil]

theorem pmuConfig_plans (shut : (s.dev.chan ch).shutting = false) {mode : BitVec 2} {range : BitVec 3} {lo hi : BitVec 16}
    (works : forcing mode = true → (s.dev.chan ch).pmuFail = false)
    (check : (s.dev.takenUp h 0x0300).changeCheck { mode := mode, range := range, lo := lo, hi := hi } ch = none)
    (inRange : range.toNat ≤ 4) (apart : lo.toNat + 1639 ≤ hi.toNat) :
    ∃ t, exec (.pmuConfig h (1#512 <<< ch) w mode range lo hi) s = .next t ∧ Keeps [.pins, .tl] s t ∧ Waits s t h 0x0300 ∧
      (t.dev.pmu ch).sched = (s.dev.pmu ch).sched ++
        [{ tag := some h.tag, stamp := st, epoch := e, mode := mode, range := range, lo := lo, hi := hi }] ∧
      t.dev.tl.acts = s.dev.tl.acts ++ [{ tag := h.tag, kind := .pmuSeq, epoch := e, stamp := st }] := by
  obtain ⟨frame, waits, pmu, acts⟩ := pmuPlan_waits (u := ch) (k := .pmuSeq) (e := e) (st := st) (late := late) i 0x0300 (by decide)
    fun p => { p with sched := p.sched ++
      [{ tag := some h.tag, stamp := st, epoch := e, mode := mode, range := range, lo := lo, hi := hi }] }
  refine ⟨_, hostCmd_runs i 0x0300 ?_, frame, waits, congrArg Pmu.sched pmu, acts⟩
  refine Eq.trans ?_ (planChange_notes hc place 0x0300 shut { mode := mode, range := range, lo := lo, hi := hi })
  rw [members_singleton hc, allOrNone_pass]
  intro k mem
  obtain rfl := List.mem_singleton.mp mem
  have whole : (forcing mode && ((s.dev.takenUp h 0x0300).chan k).pmuFail) = false := by
    rw [takenUp_chan, Bool.and_eq_false_imp]
    exact works
  have good : (!rangeGood range || decide (hi.toNat < lo.toNat + 1639)) = false := by
    simp [rangeGood, inRange, apart]
  rw [orFail_good whole, check, orFail_good good]
  rfl

theorem pmuConnect_plans (shut : (s.dev.chan ch).shutting = false) {on : Bool} (works : (s.dev.chan ch).swFail = false)
    (check : (s.dev.takenUp h 0x0301).changeCheck { conn := some on } ch = none) (free : on = true → s.dev.inFullRun ch = false) :
    ∃ t, exec (.pmuConnect h (1#512 <<< ch) w on) s = .next t ∧ Keeps [.pins, .tl] s t ∧ Waits s t h 0x0301 ∧
      (t.dev.pmu ch).sched = (s.dev.pmu ch).sched ++ [{ tag := some h.tag, stamp := st, epoch := e, conn := some on }] := by
  obtain ⟨frame, waits, pmu, -⟩ := pmuPlan_waits (u := ch) (k := .pmuSeq) (e := e) (st := st) (late := late) i 0x0301 (by decide)
    fun p => { p with sched := p.sched ++ [{ tag := some h.tag, stamp := st, epoch := e, conn := some on }] }
  refine ⟨_, hostCmd_runs i 0x0301 ?_, frame, waits, congrArg Pmu.sched pmu⟩
  refine Eq.trans ?_ (planChange_notes hc place 0x0301 shut { conn := some on })
  rw [members_singleton hc, allOrNone_pass]
  intro k mem
  obtain rfl := List.mem_singleton.mp mem
  have run : (s.dev.takenUp h 0x0301).inFullRun k = s.dev.inFullRun k := by simp [Dev.inFullRun, Dev.takenUp]
  have idle : (on && (s.dev.takenUp h 0x0301).inFullRun k) = false := by
    rw [run, Bool.and_eq_false_imp]
    exact free
  rw [orFail_good (by rw [takenUp_chan, works]), check, orFail_good idle]
  rfl

theorem pmuForce_plans {word : BitVec 32} (good : word.extractLsb' 17 15 = 0) :
    ∃ t, exec (.pmuForce h (1#512 <<< ch) w word) s = .next t ∧ Keeps [.pins, .tl] s t ∧ Waits s t h 0x0302 ∧
      (t.dev.pmu ch).forceSched = (s.dev.pmu ch).forceSched ++ [(h.tag, word, st)] := by
  have placed := (schedule_of_tl (takenUp_tl s.dev h 0x0302) w clk false).trans place
  obtain ⟨frame, waits, pmu, -⟩ := pmuPlan_waits (u := ch) (k := .pmuForce) (e := e) (st := st) (late := late) i 0x0302 (by decide)
    fun p => { p with forceSched := p.forceSched ++ [(h.tag, word, st)] }
  refine ⟨_, hostCmd_runs i 0x0302 ?_, frame, waits, congrArg Pmu.forceSched pmu⟩
  rw [if_neg (not_not.2 good), plan_places hc _ _ placed, members_singleton hc]
  rfl

theorem pmuMeasure_plans {avg : BitVec 8} {count : BitVec 16} {bank : BitVec 4} {ring : BitVec 3} (fits : avg.toNat ≤ 16) (some_ : count ≠ 0)
    (on : (s.dev.pmu ch).drvi = true ∨ (s.dev.pmu ch).closed = true ∧ (s.dev.pmu ch).mode ≠ 0) (wave : (s.dev.pmu ch).wave = none)
    (meas : (s.dev.pmu ch).meas = none) :
    ∃ t, exec (.pmuMeasure h (1#512 <<< ch) w avg count false bank ring) s = .next t ∧ Keeps [.pins, .tl] s t ∧
      Waits s t h 0x0304 ∧ (t.dev.pmu ch).meas = some { tag := h.tag, start := st, k := avg.toNat, left := count.toNat, epoch := e } := by
  have placed := (schedule_of_tl (takenUp_tl s.dev h 0x0304) w clk false).trans place
  obtain ⟨frame, waits, pmu, -⟩ := pmuPlan_waits (u := ch) (k := .measure) (e := e) (st := st) (late := late) i 0x0304 (by decide)
    fun p => { p with meas := some { tag := h.tag, start := st, k := avg.toNat, left := count.toNat, epoch := e } }
  refine ⟨_, hostCmd_runs i 0x0304 ?_, frame, waits, congrArg Pmu.meas pmu⟩
  rw [members_singleton hc, allOrNone_pass]
  · rw [plan_places hc _ _ placed]
    rfl
  · intro k mem
    obtain rfl := List.mem_singleton.mp mem
    dsimp only
    rw [orFail_good (by simp [meas, wave]), orFail_good]
    · rfl
    · rcases on with on | ⟨closed, mode⟩
      · simp [on, fits]
        exact some_
      · simp [closed, fits]
        exact ⟨some_, fun _ => mode⟩

theorem pmuWaveRun_plans {start : Nat} (valid : ((s.dev.bank (bankOf ch)).waveLast 2048 start).isSome = true)
    (closed : (s.dev.pmu ch).closed = true) (forces : forcing (s.dev.pmu ch).mode = true) (meas : (s.dev.pmu ch).meas = none)
    (wave : (s.dev.pmu ch).wave = none) (drvi : (s.dev.pmu ch).drvi = false) :
    ∃ t, exec (.pmuWaveRun h (1#512 <<< ch) start (.stamp w)) s = .next t ∧ Keeps [.pins, .tl] s t ∧ Waits s t h 0x0306 ∧
      (t.dev.pmu ch).wave = some { tag := h.tag, first := start, idx := start, next := st } := by
  have placed := (schedule_of_tl (takenUp_tl s.dev h 0x0306) w clk false).trans place
  obtain ⟨frame, waits, pmu, -⟩ := pmuPlan_waits (u := ch) (k := .wave) (e := e) (st := st) (late := late) i 0x0306 (by decide)
    fun p => { p with wave := some { tag := h.tag, first := start, idx := start, next := st } }
  refine ⟨_, hostCmd_runs i 0x0306 ?_, frame, waits, congrArg Pmu.wave pmu⟩
  rw [members_singleton hc, allOrNone_pass]
  · dsimp only
    rw [plan_places hc _ _ placed]
    rfl
  · intro k mem
    obtain rfl := List.mem_singleton.mp mem
    dsimp only
    rw [orFail_good (by simp [meas, wave, drvi]), orFail_good]
    · rfl
    · simp [valid, closed, forces]

end

end Sys2Proof.Machine
open Sys2Proof Sys2Proof.Machine

/-- Settles O36, by the plan that each command notes on its PMU and on the timeline. -/
theorem pmuPlans : Obligations.PmuPlans := by
  unfold Obligations.PmuPlans
  intro s h ch w e st late i hc place shut
  exact ⟨fun mode range lo hi works check inRange apart => pmuConfig_plans i hc place shut works check inRange apart,
    fun on works check free => pmuConnect_plans i hc place shut works check free, fun word good => pmuForce_plans i hc place good,
    fun avg count bank ring fits some_ on wave meas => pmuMeasure_plans i hc place fits some_ on wave meas,
    fun start valid closed forces meas wave drvi => pmuWaveRun_plans i hc place valid closed forces meas wave drvi⟩

end


section
/-!
PROOFS. Sequences, force ramps, measurements and waveforms of a PMU (R94 to R118).
-/
namespace Sys2Proof.Machine

/-! ### What the end of a PMU's part leaves -/

@[simp] theorem pmuEnd_pins (d : Dev) (g : Option Tag) (ch : Nat) (rep : Bool) : (d.pmuEnd g ch rep).pins = d.pins := by
  cases g with
  | none => rfl
  | some g => cases rep <;> simp [Dev.pmuEnd]

theorem pinStep_replaceUnit (d : Dev) (g : Tag) (ch : Nat) : PinStep d (d.replaceUnit g ch) :=
  PinStep.trans (b := d.modJob g fun j => { j with replaced := j.replaced ||| 1 }) ⟨sameBut_of_core (by rfl) _, rfl⟩ (pinStep_endUnitAt _ _ _ _)

theorem pinStep_pmuEnd (d : Dev) (g : Option Tag) (ch : Nat) (rep : Bool) : PinStep d (d.pmuEnd g ch rep) := by
  cases g with
  | none => exact .refl _
  | some g =>
    cases rep with
    | true => exact pinStep_replaceUnit _ _ _
    | false => exact pinStep_endUnitAt _ _ _ _

theorem pinStep_modPmu (d : Dev) (ch : Nat) (f : Pmu → Pmu) : PinStep d (d.modPmu ch f) := pinStep_modChan _ _ _

theorem advance_pmu (d : Dev) (n ch : Nat) : (d.advance n).pmu ch = d.pmu ch := pmu_of_pins (by simp) ch

theorem pinStep_endUnits (ch : Nat) (l : List Tag) (d : Dev) : PinStep d (l.foldl (fun d t => d.endUnit t ch) d) := by
  induction l generalizing d with
  | nil => exact .refl _
  | cons g l ih => exact (pinStep_endUnitAt _ _ _ _).trans (ih _)

/-- The end of a park changes no PMU. -/
theorem parkDone_pmu (d : Dev) (ch : Nat) : PinStep d (d.parkDone ch) ∧ (d.parkDone ch).pmu ch = d.pmu ch := by
  unfold Dev.parkDone
  split
  · exact ⟨.refl _, rfl⟩
  · refine ⟨(pinStep_modChan _ _ _).trans (pinStep_endUnits _ _ _), ?_⟩
    rw [pmu_of_pins (endUnits_pins _ _ _), Dev.pmu, modChan_chan_self, Dev.pmu]

/-! ### Sequences -/

/-- A PMU as step A leaves it where there is no way to go, on an open switch: the switch opens for 2 us. -/
def Pmu.opening (c : PmuChange) (t : Nat) (p : Pmu) : Pmu :=
  { p with
    forceTag := none, ramp := none, seq := some { step := .c, ends := t + 2 * usSteps, change := c, safety := true }
    meas := p.meas.map fun m => { m with ranging := true } }

/-- A disconnect begins on a PMU that stands at its safe value with its switch open. -/
theorem beginDisconnect_opens {d : Dev} {ch t : Nat} {c : PmuChange} (off : c.conn = some false) (seq : (d.pmu ch).seq = none)
    (open_ : (d.pmu ch).closed = false) (safe : (d.pmu ch).applied.toNat = safeOf (d.pmu ch).forceMode) :
    PinStep d (d.beginDisconnect ch t c) ∧ (d.beginDisconnect ch t c).pmu ch = (d.pmu ch).opening c t := by
  let a : Dev := (d.modPmu ch fun p => { p with forceTag := none }).pmuEnd (d.pmu ch).forceTag ch true
  let b : Dev := a.modPmu ch fun p => { p with seq := some { step := .a, ends := t, change := c } }
  have kept : d.keepForce ch c = a := by
    unfold Dev.keepForce
    exact if_pos (.inl off)
  have apmu : a.pmu ch = { d.pmu ch with forceTag := none } := (pmu_of_pins (pmuEnd_pins _ _ _ _) ch).trans (modPmu_pmu_self _ _ _)
  have bpmu : b.pmu ch = { d.pmu ch with forceTag := none, seq := some { step := .a, ends := t, change := c } } := by
    rw [modPmu_pmu_self, apmu]
  have begins : d.beginDisconnect ch t c = b.setStep ch .c t (t - t + 2 * usSteps) := by
    have none_to_go : gap (b.pmu ch).applied.toNat (safeOf (b.pmu ch).forceMode) = 0 := by
      rw [bpmu]
      simp only [Pmu.forceMode] at safe ⊢
      simp [gap, safe]
    rw [Dev.beginDisconnect, seq]
    dsimp only
    rw [Dev.beginSeq, kept]
    change b.enterA ch t = _
    unfold Dev.enterA
    dsimp only
    rw [if_pos none_to_go]
    unfold Dev.enterB
    dsimp only
    rw [if_neg (by rw [bpmu]; simp [open_])]
    unfold Dev.enterC
    rw [bpmu]
    simp [off]
  rw [begins]
  refine ⟨((pinStep_modPmu _ _ _).trans (pinStep_pmuEnd _ _ _ _)).trans ((pinStep_modPmu _ _ _).trans (pinStep_modPmu _ _ _)), ?_⟩
  unfold Dev.setStep
  rw [modPmu_pmu_self, bpmu]
  have still : (SeqStep.c == SeqStep.a) = false ∧ (SeqStep.c == SeqStep.e) = false := ⟨rfl, rfl⟩
  simp [Pmu.opening, still]

/-- The change that a planned disconnect makes of what stands on a PMU. -/
def Pmu.disconnectBy (c : PmuChange) (p : Pmu) : PmuChange :=
  { tag := c.tag, stamp := c.stamp, epoch := c.epoch, conn := c.conn, mode := p.mode, range := p.range, lo := p.lo, hi := p.hi }

/-- A planned disconnect enters a PMU that stands at its safe value with its switch open. -/
theorem enterChange_opens {d : Dev} {ch t : Nat} {g : Tag} {c : PmuChange} (off : c.conn = some false) (seq : (d.pmu ch).seq = none)
    (open_ : (d.pmu ch).closed = false) (safe : (d.pmu ch).applied.toNat = safeOf (d.pmu ch).forceMode) :
    PinStep d (d.enterChange [ch] t g c) ∧
      (d.enterChange [ch] t g c).pmu ch = (d.pmu ch).opening ((d.pmu ch).disconnectBy c) t := by
  have check : d.changeCheck c ch = none := by
    simp [Dev.changeCheck, off, orFail, firstOf]
  have enters : d.enterChange [ch] t g c = d.beginDisconnect ch t ((d.pmu ch).disconnectBy c) := by
    unfold Dev.enterChange
    rw [worstOf_eq_none (fun k mem => by rw [List.mem_singleton.1 mem]; exact check)]
    dsimp only
    rw [if_pos off]
    simp only [List.foldl_cons, List.foldl_nil]
    unfold Dev.applyChange
    dsimp only
    rw [if_pos off, if_pos (by rw [off]; rfl)]
    simp only [Pmu.disconnectBy, Pmu.future, seq]
  rw [enters]
  exact beginDisconnect_opens (c := (d.pmu ch).disconnectBy c) off seq open_ safe

@[simp] theorem dropAct_pins (d : Dev) (g : Tag) (k : ActKind) : (d.dropAct g k).pins = d.pins := rfl

theorem dropAct_keeps (d : Dev) (g : Tag) (k : ActKind) : SameBut [.tl] d (d.dropAct g k) := setTl_keeps _ _

/-- The one index of a range that a test finds. -/
theorem filter_range_eq_singleton {n i : Nat} {p : Nat → Bool} (hi : i < n) (one : ∀ k, p k = decide (k = i)) :
    (List.range n).filter p = [i] := by
  rw [funext one, List.filter_eq, List.count_eq_one_of_mem List.nodup_range (List.mem_range.2 hi), List.replicate_one]

/-- A planned disconnect reaches its stamp on the one channel that it concerns. -/
theorem plannedDisconnect_starts {s : State} {ch : BitVec 9} {c : PmuChange} {g : Tag} (rewind : s.dev.tl.rewind = none)
    (sched : (s.dev.pmu ch.toNat).sched = [c]) (epoch : c.epoch = s.dev.tl.epoch) (tag : c.tag = some g) (off : c.conn = some false)
    (alone : ∀ k, k ≠ ch.toNat → c ∉ (s.dev.pmu k).sched) (seq : (s.dev.pmu ch.toNat).seq = none)
    (open_ : (s.dev.pmu ch.toNat).closed = false)
    (safe : (s.dev.pmu ch.toNat).applied.toNat = safeOf (s.dev.pmu ch.toNat).forceMode) :
    ∃ t q, exec (.pmuSequenceStart ch) s = .next t ∧ Keeps [.pins, .tl] s t ∧ (t.dev.pmu ch.toNat).sched = [] ∧
      (t.dev.pmu ch.toNat).seq = some q ∧ q.step = .c ∧ q.change.conn = some false ∧ q.ends = clockOf c.stamp + 2 * usSteps := by
  let a : Dev := s.dev.advance c.stamp
  let b : Dev := (a.modPmu ch.toNat fun p => { p with sched := p.sched.erase c }).dropAct g .pmuSeq
  have bpmu : b.pmu ch.toNat = { s.dev.pmu ch.toNat with sched := [] } := by
    refine (pmu_of_pins (dropAct_pins _ _ _) _).trans ((modPmu_pmu_self _ _ _).trans ?_)
    rw [advance_pmu, sched]
    simp
  have set : ((List.range 512).filter fun k => (a.pmu k).sched.contains c) = [ch.toNat] := by
    refine filter_range_eq_singleton ch.isLt fun k => ?_
    rw [advance_pmu]
    by_cases e : k = ch.toNat
    · simp [e, sched]
    · simpa [e] using alone k e
  obtain ⟨step, pmu⟩ := enterChange_opens (d := b) (ch := ch.toNat) (t := clockOf c.stamp) (g := g) (c := c) off (by rw [bpmu]; exact seq)
    (by rw [bpmu]; exact open_) (by rw [bpmu]; exact safe)
  have runs : exec (.pmuSequenceStart ch) s = .next { s with dev := (b.enterChange [ch.toNat] (clockOf c.stamp) g c).commit } := by
    refine (onDev_runs ?_ : execPmuSequenceStart ch s = _)
    have found : earliest (·.stamp) ((s.dev.pmu ch.toNat).sched.filter fun c => c.epoch == s.dev.tl.epoch) = some c := by
      simp [sched, epoch, earliest]
    dsimp only
    rw [found]
    dsimp only
    rw [due_of_no_rewind rewind, set, tag]
    rfl
  have frame : SameBut [.pins, .tl] s.dev b := advance_keeps_trans c.stamp
    (((modChan_keeps _ _ _).mono (by simp)).trans ((dropAct_keeps _ _ _).mono (by simp)))
  generalize b.enterChange [ch.toNat] (clockOf c.stamp) g c = x at runs step pmu
  refine ⟨_, { step := .c, ends := clockOf c.stamp + 2 * usSteps, change := (b.pmu ch.toNat).disconnectBy c, safety := true }, runs,
    keeps_commit (frame.trans (step.keeps.mono (by simp))), ?_, ?_, rfl, off, rfl⟩
  · dsimp only
    rw [commit_pmu, pmu, bpmu]
    rfl
  · dsimp only
    rw [commit_pmu, pmu, Pmu.opening]

/-- The opening of the switch ends. -/
theorem disconnect_ends {s : State} {ch : BitVec 9} {q : PmuSeq} (rewind : s.dev.tl.rewind = none)
    (seq : (s.dev.pmu ch.toNat).seq = some q) (step : q.step = .c) (off : q.change.conn = some false) :
    ∃ t, exec (.pmuSequenceStepEnd ch) s = .next t ∧ Keeps [.pins] s t ∧ (t.dev.pmu ch.toNat).seq = none ∧
      (t.dev.pmu ch.toNat).closed = false ∧ (t.dev.pmu ch.toNat).mode = q.change.mode ∧
      (t.dev.pmu ch.toNat).range = q.change.range := by
  let a : Dev := s.dev.advance q.ends
  let b : Dev := a.modPmu ch.toNat fun p => { p with
    seq := none, ramp := none, closed := false, mode := q.change.mode,
    range := q.change.range, lo := q.change.lo, hi := q.change.hi }
  let c : Dev := q.also.foldl (fun d t => d.endUnit t ch.toNat) (b.pmuEnd q.change.tag ch.toNat)
  have runs : exec (.pmuSequenceStepEnd ch) s = .next { s with dev := (c.parkDone ch.toNat).commit } := by
    refine (onDev_runs ?_ : execPmuSequenceStepEnd ch s = _)
    dsimp only
    rw [seq]
    dsimp only
    rw [due_of_no_rewind rewind, step]
    dsimp only
    rw [if_pos off, Dev.endDisconnect, advance_pmu, seq]
  have cpmu : c.pmu ch.toNat = { s.dev.pmu ch.toNat with
      seq := none, ramp := none, closed := false, mode := q.change.mode,
      range := q.change.range, lo := q.change.lo, hi := q.change.hi } := by
    refine (pmu_of_pins ((endUnits_pins _ _ _).trans (pmuEnd_pins _ _ _ _)) _).trans ((modPmu_pmu_self _ _ _).trans ?_)
    rw [advance_pmu]
  have frame : PinStep a c := ((pinStep_modPmu _ _ _).trans (pinStep_pmuEnd _ _ _ _)).trans (pinStep_endUnits _ _ _)
  obtain ⟨last, pmu⟩ := parkDone_pmu c ch.toNat
  rw [cpmu] at pmu
  generalize c.parkDone ch.toNat = x at runs last pmu
  refine ⟨_, runs, keeps_commit (advance_keeps_trans q.ends (frame.trans last).keeps), ?_, ?_, ?_, ?_⟩
  all_goals
    dsimp only
    rw [commit_pmu, pmu]

/-! ### Force ramps -/

theorem Pmu.target_lt (p : Pmu) (mode : BitVec 2) : p.target mode < 2 ^ 16 := by
  unfold Pmu.target
  split
  · exact p.iTarget.isLt
  · exact p.vTarget.isLt

/-- Without an interval a ramp arrives with its first move. -/
theorem forceRamp_arrives {s : State} {ch : BitVec 9} {t0 : Int} (rewind : s.dev.tl.rewind = none)
    (ramp : (s.dev.pmu ch.toNat).ramp = some t0) (seq : (s.dev.pmu ch.toNat).seq = none) (jump : (s.dev.pmu ch.toNat).interval = 0) :
    ∃ t, exec (.forceRampMove ch) s = .next t ∧ Keeps [.pins] s t ∧ (t.dev.pmu ch.toNat).ramp = none ∧
      (t.dev.pmu ch.toNat).applied.toNat = (s.dev.pmu ch.toNat).target (s.dev.pmu ch.toNat).mode := by
  let p := s.dev.pmu ch.toNat
  let n := (t0 + max 1 p.interval * clk : Int).toNat
  let b : Dev := (s.dev.advance n).modPmu ch.toNat fun q => { q with applied := BitVec.ofNat 16 (p.target p.mode), ramp := none }
  let c : Dev := (b.modPmu ch.toNat fun q => { q with forceTag := none }).pmuEnd p.forceTag ch.toNat
  have runs : exec (.forceRampMove ch) s = .next { s with dev := c.commit } := by
    refine (onDev_runs ?_ : execForceRampMove ch s = _)
    simp only [ramp, seq, Option.isSome_none, Bool.false_eq_true, if_false]
    rw [due_of_no_rewind rewind, if_pos jump, if_pos rfl, if_pos ⟨rfl, trivial⟩]
  have pmu : c.pmu ch.toNat = { p with applied := BitVec.ofNat 16 (p.target p.mode), ramp := none, forceTag := none } := by
    rw [pmu_of_pins (pmuEnd_pins _ _ _ _), modPmu_pmu_self, modPmu_pmu_self, advance_pmu]
  have frame : PinStep (s.dev.advance n) c := ((pinStep_modPmu _ _ _).trans (pinStep_modPmu _ _ _)).trans (pinStep_pmuEnd _ _ _ _)
  refine ⟨_, runs, keeps_commit (advance_keeps_trans n frame.keeps), ?_, ?_⟩
  · dsimp only
    rw [commit_pmu, pmu]
  · dsimp only
    rw [commit_pmu, pmu, BitVec.toNat_ofNat, Nat.mod_eq_of_lt (p.target_lt p.mode)]

theorem tookAct_of_no_acts {d : Dev} (none_planned : d.tl.acts = []) (g : Tag) (k : ActKind) (waits : Nat → Bool) (n : Nat) :
    d.tookAct g k waits n = d := by
  have same : d.dropAct g k = d := by
    have acts : ({ d.tl with acts := d.tl.acts.eraseP fun a => a.tag == g && a.kind == k } : Timeline) = d.tl := by
      rw [none_planned, List.eraseP_nil, ← none_planned]
    rw [Dev.dropAct, acts]
  rw [Dev.tookAct, same, ite_self]

/-- A force word of the mode that stands takes effect on a PMU without an interval. -/
theorem force_takes_effect {s : State} {ch : BitVec 9} {g : Tag} {word : BitVec 32} {st : Nat} (rewind : s.dev.tl.rewind = none)
    (sched : (s.dev.pmu ch.toNat).forceSched = [(g, word, st)]) (acts : s.dev.tl.acts = []) (volts : word.getLsbD 16 = false)
    (seq : (s.dev.pmu ch.toNat).seq = none) (mode : (s.dev.pmu ch.toNat).mode = 1) (jump : (s.dev.pmu ch.toNat).interval = 0) :
    ∃ t, exec (.pmuForceEffect ch) s = .next t ∧ Keeps [.pins] s t ∧ (t.dev.pmu ch.toNat).forceSched = [] ∧
      (t.dev.pmu ch.toNat).vTarget = word.extractLsb' 0 16 ∧ (t.dev.pmu ch.toNat).forceTag = some g ∧
      (t.dev.pmu ch.toNat).ramp = some (clockOf st : Int) := by
  let a : Dev := s.dev.advance st
  let b : Dev := (a.modPmu ch.toNat fun p => { p with forceSched := p.forceSched.erase (g, word, st) }).modPmu ch.toNat fun p =>
    p.setTarget word
  let c : Dev := b.pmuEnd (b.pmu ch.toNat).forceTag ch.toNat true
  let e : Dev := c.modPmu ch.toNat fun p => { p with
    ramp := some (clockOf st), forceTag := some g, meas := p.meas.map fun m => { m with slewing := true } }
  have erased : (a.modPmu ch.toNat fun p => { p with forceSched := p.forceSched.erase (g, word, st) }).pmu ch.toNat =
      { s.dev.pmu ch.toNat with forceSched := [] } := by
    rw [modPmu_pmu_self, advance_pmu, sched]
    simp
  have bpmu : b.pmu ch.toNat = { s.dev.pmu ch.toNat with forceSched := [], vTarget := word.extractLsb' 0 16 } := by
    rw [modPmu_pmu_self, erased, Pmu.setTarget, volts, if_neg Bool.false_ne_true]
  have cpmu : c.pmu ch.toNat = b.pmu ch.toNat := pmu_of_pins (pmuEnd_pins _ _ _ _) _
  have starts : b.startForce ch.toNat st (some g) = e := by
    unfold Dev.startForce
    exact if_neg fun h => absurd h.2 (by rw [show c.pmu ch.toNat = _ from cpmu, bpmu]; exact jump ▸ Nat.lt_irrefl _)
  have runs : exec (.pmuForceEffect ch) s = .next { s with dev := e.commit } := by
    refine (onDev_runs ?_ : execPmuForceEffect ch s = _)
    have found : earliest (fun f => f.2.2) ((s.dev.pmu ch.toNat).forceSched.filter fun f =>
        !(s.dev.act f.1 .pmuForce).any fun a => a.epoch != s.dev.tl.epoch) = some (g, word, st) := by
      simp [sched, Dev.act, acts, earliest]
    dsimp only
    rw [found]
    dsimp only
    rw [due_of_no_rewind rewind, tookAct_of_no_acts (d := a.modPmu ch.toNat _) (by exact (s.dev.advance_tl_acts st).trans acts), erased, volts, seq]
    dsimp only
    rw [if_pos (by rw [mode]; rfl)]
    exact starts
  have epmu : e.pmu ch.toNat = { s.dev.pmu ch.toNat with
      forceSched := [], vTarget := word.extractLsb' 0 16, ramp := some (clockOf st : Int), forceTag := some g
      meas := (s.dev.pmu ch.toNat).meas.map fun m => { m with slewing := true } } := by
    rw [modPmu_pmu_self, cpmu, bpmu]
  have frame : PinStep a e := ((pinStep_modPmu _ _ _).trans (pinStep_modPmu _ _ _)).trans
    ((pinStep_pmuEnd _ _ _ _).trans (pinStep_modPmu _ _ _))
  refine ⟨_, runs, keeps_commit (advance_keeps_trans st frame.keeps), ?_, ?_, ?_, ?_⟩
  all_goals
    dsimp only
    rw [commit_pmu, epmu]

/-! ### Measurements and waveforms -/


theorem waveMeasure_starts {s : State} {ch : BitVec 9} {m : Meas} (rewind : s.dev.tl.rewind = none)
    (meas : (s.dev.pmu ch.toNat).meas = some m) (fresh : m.began = false) (epoch : m.epoch = s.dev.tl.epoch) (wave : m.wave = true) :
    ∃ t x, exec (.pmuMeasureStart ch) s = .next t ∧ Keeps [.pins] s t ∧ (t.dev.pmu ch.toNat).meas = some x ∧ x.began = true ∧
      x.first = m.start ∧ x.tag = m.tag ∧ x.acc = m.acc := by
  let a : Dev := s.dev.advance m.start
  let x : Pmu → Meas := fun p => { m with
    began := true, first := m.start, tq := a.tl.tq, range := if p.drvi then p.drviRange else p.range
    mode := if p.drvi then 0 else p.mode, ranging := p.seq.isSome
    slewing := p.ramp.isSome }
  have runs : exec (.pmuMeasureStart ch) s = .next { s with dev := (a.modPmu ch.toNat fun p => { p with meas := some (x p) }).commit } := by
    refine (onDev_runs ?_ : execPmuMeasureStart ch s = _)
    dsimp only
    rw [meas]
    dsimp only
    rw [if_neg (by simp [fresh, epoch]), due_of_no_rewind rewind, if_pos wave]
  refine ⟨_, x (a.pmu ch.toNat), runs, keeps_commit (advance_keeps_trans m.start (modChan_keeps _ _ _)), ?_, rfl, rfl, rfl, rfl⟩
  dsimp only
  rw [commit_pmu, modPmu_pmu_self]

theorem adcSample_adds {s : State} {ch : BitVec 9} {m : Meas} {smp : Int} {ovr comp : Bool} (rewind : s.dev.tl.rewind = none)
    (meas : (s.dev.pmu ch.toNat).meas = some m) (began : m.began = true) (ring : m.ring = none) (more : m.n + 1 < 2 ^ m.k) :
    ∃ t x, exec (.pmuAdcSample ch smp ovr comp) s = .next t ∧ Keeps [.pins] s t ∧ (t.dev.pmu ch.toNat).meas = some x ∧
      x.n = m.n + 1 ∧ x.acc = m.acc + clip 16 smp ∧ x.start = m.start + 400 * clk ∧
      (x.ovr = true ↔ m.ovr = true ∨ ovr = true ∨ clip 16 smp = 32767 ∨ clip 16 smp = -32768) := by
  let a : Dev := s.dev.advance (m.start + 400 * clk)
  let p := a.pmu ch.toNat
  let x : Meas := { m with
    start := m.start + 400 * clk, n := m.n + 1, acc := m.acc + clip 16 smp, tq := m.tq ||| a.tl.tq
    ovr := m.ovr || ovr || decide (clip 16 smp = 32767) || decide (clip 16 smp = -32768), comp := m.comp || comp
    ranging := m.ranging || p.seq.isSome, slewing := m.slewing || p.ramp.isSome, ring := none }
  have runs : exec (.pmuAdcSample ch smp ovr comp) s = .next { s with dev := (a.modPmu ch.toNat fun p => { p with meas := some x }).commit } := by
    refine (onDev_runs ?_ : execPmuAdcSample ch smp ovr comp s = _)
    dsimp only
    rw [meas]
    dsimp only
    rw [if_neg (by simp [began]), due_of_no_rewind rewind, ring]
    exact if_pos more
  refine ⟨_, x, runs, keeps_commit (advance_keeps_trans _ (modChan_keeps _ _ _)), ?_, rfl, rfl, rfl, ?_⟩
  · dsimp only
    rw [commit_pmu, modPmu_pmu_self]
  · simp [x, or_assoc]

theorem wave_ends {s : State} {ch : BitVec 9} {w : Wave} (rewind : s.dev.tl.rewind = none) (wave : (s.dev.pmu ch.toNat).wave = some w)
    (unbound : w.bind = none) (meas : (s.dev.pmu ch.toNat).meas = none) (acts : s.dev.tl.acts = []) (run : w.running = true)
    (last : ((s.dev.bank (bankOf ch.toNat)).wave.get 0 w.idx).getLsbD 46 = true) :
    ∃ t, exec (.waveStepStart ch) s = .next t ∧ Keeps [.pins] s t ∧ (t.dev.pmu ch.toNat).wave = none := by
  let a : Dev := s.dev.advance w.next
  let b : Dev := (a.modPmu ch.toNat fun p => { p with wave := none }).endUnit w.tag ch.toNat
  have bank : a.bank (bankOf ch.toNat) = s.dev.bank (bankOf ch.toNat) := bank_of_banks (s.dev.advance_banks w.next) _
  have runs : exec (.waveStepStart ch) s = .next { s with dev := b.commit } := by
    refine (onDev_runs ?_ : execWaveStepStart ch s = _)
    dsimp only
    rw [wave]
    dsimp only
    rw [if_neg (by simp [unbound, meas, acts]), due_of_no_rewind rewind, if_neg (by simp [run])]
    exact if_pos (by rw [bank]; exact last)
  refine ⟨_, runs, keeps_commit (advance_keeps_trans w.next ((pinStep_modPmu _ _ _).trans (pinStep_endUnitAt _ _ _ _)).keeps), ?_⟩
  dsimp only
  rw [commit_pmu, pmu_of_pins (Dev.endUnit_pins _ _ _), modPmu_pmu_self]

end Sys2Proof.Machine
open Sys2Proof Sys2Proof.Machine

/-- Settles O38, by what each event leaves of its PMU, whatever ends with it. -/
theorem pmuEvents : Obligations.PmuEvents := by
  unfold Obligations.PmuEvents
  exact ⟨fun s ch rewind => ⟨fun c g sched epoch tag off alone seq open_ safe =>
      plannedDisconnect_starts rewind sched epoch tag off alone seq open_ safe,
      fun q seq step off => disconnect_ends rewind seq step off, fun t0 ramp seq jump => forceRamp_arrives rewind ramp seq jump,
      fun tag word st sched acts volts seq mode jump => force_takes_effect rewind sched acts volts seq mode jump⟩,
    fun s ch rewind => ⟨fun m meas fresh epoch wave => waveMeasure_starts rewind meas fresh epoch wave,
      fun m smp ovr comp meas began ring more => adcSample_adds rewind meas began ring more,
      fun w wave unbound meas acts run last => wave_ends rewind wave unbound meas acts run last⟩⟩

end


section
/-!
PROOFS. Timing values (R126 to R136, R149): what is pending, and the effect point that the command waits for.
-/
namespace Sys2Proof.Machine

/-! ### A command that waits for the effect points of its values -/

/-- The device on which a command with some values to come has been accepted. -/
def Dev.partsOpen (d : Dev) (g : Tag) (n : Nat) : Dev := (d.accept g).openJob { tag := g, parts := n }

@[simp] theorem partsOpen_chan (d : Dev) (g : Tag) (n k : Nat) : (d.partsOpen g n).chan k = d.chan k := rfl
@[simp] theorem partsOpen_thread (d : Dev) (g : Tag) (n k : Nat) : (d.partsOpen g n).thread k = d.thread k := rfl

theorem partsOpen_keeps (l : List Part) (d : Dev) (g : Tag) (n : Nat) : SameBut l d (d.partsOpen g n) :=
  (accept_keeps _ _ _).trans (openJob_keeps _ _ _)

theorem partsOpen_ctl (d : Dev) (g : Tag) (n : Nat) :
    (d.partsOpen g n).ctl = { (d.accept g).ctl with jobs := (d.accept g).ctl.jobs ++ [{ tag := g, parts := n }] } := rfl

section
variable {s : State} {h : Hdr} (i : Idle s h) {op : BitVec 16} {d : Dev} {n : Nat}
  (ctl : d.ctl = ((s.dev.takenUp h op).partsOpen h.tag n).ctl)
include i ctl

theorem waits_of_partsOpen : Waits s { s with dev := d.commit } h op := waits_of_accepted i op _ (ctl.trans (partsOpen_ctl _ _ _))

theorem settleJob_of_partsOpen (some_ : n ≠ 0) : d.settleJob h.tag = d := by
  have jobs : d.ctl.jobs = [{ tag := h.tag, parts := n }] := by
    rw [ctl, partsOpen_ctl]
    exact congrArg (· ++ _) (takenUp_jobs i op)
  exact settleJob_stays jobs rfl (.inr some_)

end

/-! ### The sites of a device that has taken a command up -/

theorem leadOf_of_seq {a b : Dev} (h : a.seq = b.seq) (t : Nat) : a.leadOf t = b.leadOf t := by rw [Dev.leadOf, thread_of_seq h, Dev.leadOf]

theorem siteChans_of_seq {a b : Dev} (h : a.seq = b.seq) (t : Nat) : a.siteChans t = b.siteChans t := by
  have chans : a.chansOf = b.chansOf := funext fun k => by simp only [Dev.chansOf, thread_of_seq h]
  simp only [Dev.siteChans, Dev.site, thread_of_seq h, chans]

/-! ### TIM.PERIOD -/

section
variable {s : State} {h : Hdr} (i : Idle s h) {th : BitVec 6} {k : BitVec 8} {p : BitVec 32}
include i

theorem timPeriod_refuses (follows : s.dev.notLead th.toNat = true) :
    ∃ t, exec (.timPeriod h th k p) s = .next t ∧ Keeps [] s t ∧ Answers s t h 0x0400 stBadarg [] := by
  have same : (s.dev.takenUp h 0x0400).notLead th.toNat = true := by
    rw [Dev.notLead, leadOf_of_seq (takenUp_seq _ _ _)]
    exact follows
  refine ⟨_, hostCmd_runs i 0x0400 ?_, refused_ends i 0x0400 (by decide) stBadarg 0 0 0⟩
  simp only [badArg, List.find?_cons, same, Option.map_some]

theorem timPeriod_pends (leads : s.dev.notLead th.toNat = false) (set : k.toNat ≤ 15) (low : 32 ≤ p.toNat) (high : p.toNat ≤ 1048575)
    (fits : ∀ ch ∈ s.dev.siteChans th.toNat, edgeGood ((s.dev.chan ch).futureEdges k.toNat) p.toNat = true ∧
      (s.dev.chan ch).shortest (s.dev.chan ch).drvMode (s.dev.chan ch).offMode ≤ p.toNat)
    (free : (s.dev.thread th.toNat).periodPend.get none k.toNat = none) :
    ∃ t, exec (.timPeriod h th k p) s = .next t ∧ Keeps [.seq] s t ∧ Waits s t h 0x0400 ∧
      (t.dev.thread th.toNat).periodPend.get none k.toNat = some (p.toNat, h.tag) ∧
      (t.dev.thread th.toNat).periods = (s.dev.thread th.toNat).periods := by
  let d : Dev := (((s.dev.takenUp h 0x0400).partsOpen h.tag 1).modThread th.toNat fun x =>
    { x with periodPend := x.periodPend.set none k.toNat (some (p.toNat, h.tag)) }).notePeriods th.toNat
  have leads' : (s.dev.takenUp h 0x0400).notLead th.toNat = false := by
    rw [Dev.notLead, leadOf_of_seq (takenUp_seq _ _ _)]
    exact leads
  have good : badArg [(0, (s.dev.takenUp h 0x0400).notLead th.toNat), (1, decide (k.toNat > 15)),
      (2, decide (p.toNat < 32 ∨ p.toNat > 1048575))] = none := by
    rw [leads', decide_eq_false (by omega), decide_eq_false (by omega)]
    rfl
  have runs : exec (.timPeriod h th k p) s = .next { s with dev := d.commit } := by
    refine hostCmd_runs i 0x0400 ?_
    dsimp only
    rw [good]
    dsimp only
    rw [siteChans_of_seq (takenUp_seq _ _ _), allOrNone_pass fun ch mem => ?_]
    · rw [openJob_thread, accept_thread, takenUp_thread, free]
      rfl
    · obtain ⟨edges, short⟩ := fits ch mem
      rw [takenUp_chan]
      exact orFail_good (by simp [edges, short]) _ _
  have frame : SameBut [.seq] (s.dev.takenUp h 0x0400) d :=
    (partsOpen_keeps _ _ _ _).trans ((modThread_keeps _ _ _).trans (modThread_keeps _ _ _))
  refine ⟨_, runs, keeps_of_takenUp (by decide) frame, waits_of_partsOpen i (n := 1) rfl, ?_, ?_⟩
  all_goals
    dsimp only
    rw [commit_thread, show d.thread th.toNat = _ from modThread_thread_self _ _ _, modThread_thread_self, partsOpen_thread, takenUp_thread]
  exact Tab.get_set_self _ _ _ _

end

/-! ### TIM.EDGES -/

section
variable {s : State} {h : Hdr} (i : Idle s h) {ch : Nat} (hc : ch < 512) (slice : (s.dev.chan ch).noSlice = false)
include i hc slice

theorem timEdges_pend {k : BitVec 8} {e : BitVec 128} (set : k.toNat ≤ 15) (ordered : s.dev.ownerOf ch = none → edgeOrderGood e = true)
    (fits : ∀ o, s.dev.ownerOf ch = some o → edgeGood e ((s.dev.thread (s.dev.leadOf o)).futurePeriod k.toNat) = true ∧
      ∀ i ∈ s.dev.siteChans (s.dev.leadOf o), (s.dev.chan i).shortest (s.dev.chan i).drvMode (s.dev.chan i).offMode ≤
        (s.dev.thread (s.dev.leadOf o)).futurePeriod k.toNat)
    (free : (s.dev.chan ch).edgePend.get none k.toNat = none) :
    ∃ t, exec (.timEdges h (1#512 <<< ch) k e) s = .next t ∧ Keeps [.pins] s t ∧ Waits s t h 0x0401 ∧
      (t.dev.chan ch).edgePend.get none k.toNat = some (e, h.tag) ∧ (t.dev.chan ch).edges = (s.dev.chan ch).edges ∧
      ∀ j, j ≠ ch → t.dev.chan j = s.dev.chan j := by
  let d : Dev := (((s.dev.takenUp h 0x0401).partsOpen h.tag 1).modChan ch fun c =>
    { c with edgePend := c.edgePend.set none k.toNat (some (e, h.tag)) }).notePend ch
  have runs : exec (.timEdges h (1#512 <<< ch) k e) s = .next { s with dev := d.commit } := by
    refine hostCmd_runs i 0x0401 ?_
    dsimp only
    rw [members_singleton hc, allOrNone_pass fun j mem => ?_]
    · simp only [List.foldl_cons, List.foldl_nil, List.length_cons, List.length_nil]
      have same : (((s.dev.takenUp h 0x0401).accept h.tag).openJob { tag := h.tag, parts := 1 }).chan ch = s.dev.chan ch :=
        takenUp_chan s.dev h 0x0401 ch
      rw [same, free]
      exact settleJob_of_partsOpen i (d := d) (n := 1) rfl (by decide)
    · obtain rfl := List.mem_singleton.1 mem
      rw [takenUp_chan, slice, ownerOf_of_seq (takenUp_seq _ _ _), orFail_good rfl, orFail_good (decide_eq_false (by omega))]
      cases own : s.dev.ownerOf j with
      | none =>
        dsimp only
        rw [orFail_good (by rw [ordered own]; rfl)]
        rfl
      | some o =>
        obtain ⟨good, short⟩ := fits o own
        have swing : ((s.dev.siteChans (s.dev.leadOf o)).any fun i =>
            let x := (s.dev.takenUp h 0x0401).chan i
            decide ((s.dev.thread (s.dev.leadOf o)).futurePeriod k.toNat < x.shortest x.drvMode x.offMode)) = false := by
          rw [List.any_eq_false]
          intro i mem
          simp [takenUp_chan, short i mem]
        dsimp only at swing ⊢
        rw [leadOf_of_seq (takenUp_seq _ _ _), takenUp_thread, siteChans_of_seq (takenUp_seq _ _ _), swing,
          orFail_good (by rw [good]; rfl)]
        rfl
  have chan : d.chan ch = { s.dev.chan ch with
      edgePend := (s.dev.chan ch).edgePend.set none k.toNat (some (e, h.tag)), pendAt := (d.chan ch).pendAt } := by
    rw [show d.chan ch = _ from modChan_chan_self _ _ _, modChan_chan_self, partsOpen_chan, takenUp_chan]
  have frame : SameBut [.pins] (s.dev.takenUp h 0x0401) d :=
    (partsOpen_keeps _ _ _ _).trans ((modChan_keeps _ _ _).trans (modChan_keeps _ _ _))
  refine ⟨_, runs, keeps_of_takenUp (by decide) frame, waits_of_partsOpen i (n := 1) rfl, ?_, ?_, fun j ne => ?_⟩
  · dsimp only
    rw [commit_chan, chan]
    exact Tab.get_set_self _ _ _ _
  · dsimp only
    rw [commit_chan, chan]
  · dsimp only
    rw [commit_chan]
    exact (notePend_chan_of_ne _ ne).trans ((modChan_chan_of_ne _ ne _).trans (takenUp_chan s.dev h 0x0401 j))

/-! ### TIM.DESKEW -/

theorem timDeskew_pend {drv cmp : BitVec 16} (d0 : -2048 ≤ drv.toInt) (d1 : drv.toInt ≤ 2047) (c0 : -2048 ≤ cmp.toInt) (c1 : cmp.toInt ≤ 2047)
    (dfree : (s.dev.chan ch).drvDeskewPend = none) (cfree : (s.dev.chan ch).cmpDeskewPend = none) :
    ∃ t, exec (.timDeskew h (1#512 <<< ch) drv cmp) s = .next t ∧ Keeps [.pins] s t ∧ Waits s t h 0x0402 ∧
      (t.dev.chan ch).drvDeskewPend = some (drv.toInt, h.tag) ∧ (t.dev.chan ch).cmpDeskewPend = some (cmp.toInt, h.tag) ∧
      (t.dev.chan ch).drvDeskew = (s.dev.chan ch).drvDeskew ∧ (t.dev.chan ch).cmpDeskew = (s.dev.chan ch).cmpDeskew ∧
      ∀ j, j ≠ ch → t.dev.chan j = s.dev.chan j := by
  let d : Dev := (((s.dev.takenUp h 0x0402).partsOpen h.tag 2).modChan ch fun c =>
    { c with drvDeskewPend := some (drv.toInt, h.tag), cmpDeskewPend := some (cmp.toInt, h.tag) }).notePend ch
  have runs : exec (.timDeskew h (1#512 <<< ch) drv cmp) s = .next { s with dev := d.commit } := by
    refine hostCmd_runs i 0x0402 ?_
    dsimp only
    rw [members_singleton hc, allOrNone_pass fun j mem => ?_]
    · simp only [List.foldl_cons, List.foldl_nil, List.length_cons, List.length_nil]
      have same : (((s.dev.takenUp h 0x0402).accept h.tag).openJob { tag := h.tag, parts := 2 }).chan ch = s.dev.chan ch :=
        takenUp_chan s.dev h 0x0402 ch
      simp only [Nat.zero_add, Nat.mul_one]
      rw [same, dfree, cfree]
      exact settleJob_of_partsOpen i (d := d) (n := 2) rfl (by decide)
    · obtain rfl := List.mem_singleton.1 mem
      rw [takenUp_chan, slice, orFail_good rfl, decide_eq_false (by omega), decide_eq_false (by omega)]
      rfl
  have chan : d.chan ch = { s.dev.chan ch with
      drvDeskewPend := some (drv.toInt, h.tag), cmpDeskewPend := some (cmp.toInt, h.tag), pendAt := (d.chan ch).pendAt } := by
    rw [show d.chan ch = _ from modChan_chan_self _ _ _, modChan_chan_self, partsOpen_chan, takenUp_chan]
  have frame : SameBut [.pins] (s.dev.takenUp h 0x0402) d :=
    (partsOpen_keeps _ _ _ _).trans ((modChan_keeps _ _ _).trans (modChan_keeps _ _ _))
  refine ⟨_, runs, keeps_of_takenUp (by decide) frame, waits_of_partsOpen i (n := 2) rfl, ?_, ?_, ?_, ?_, fun j ne => ?_⟩
  · dsimp only
    rw [commit_chan, chan]
  · dsimp only
    rw [commit_chan, chan]
  · dsimp only
    rw [commit_chan, chan]
  · dsimp only
    rw [commit_chan, chan]
  · dsimp only
    rw [commit_chan]
    exact (notePend_chan_of_ne _ ne).trans ((modChan_chan_of_ne _ ne _).trans (takenUp_chan s.dev h 0x0402 j))

end

/-! ### TIM.MAP -/

theorem timMap_reports {s : State} {h : Hdr} (i : Idle s h) (b : BitVec 4) :
    ∃ t r, exec (.timMap h b) s = .next t ∧ Keeps [.pins] s t ∧ Answers s t h 0x0403 stOk r ∧ r.length = 166 ∧
      ∀ k, k < 32 → (t.dev.chan (32 * b.toNat + k)).squeeze = 0 := by
  let d : Dev := ((List.range 32).map (32 * b.toNat + ·)).foldl (fun d ch => d.modChan ch fun c => { c with squeeze := 0 })
    (s.dev.takenUp h 0x0403)
  have ctl : d.ctl = (s.dev.takenUp h 0x0403).ctl := foldl_leaves Dev.ctl (fun d ch => d.modChan_ctl ch _) _ _
  have frame : SameBut [.pins] (s.dev.takenUp h 0x0403) d := .foldl (fun d ch => modChan_keeps d ch _) _ _
  refine ⟨_, _, hostCmd_runs i 0x0403 rfl, keeps_of_takenUp (by decide) (frame.trans (okResp_keeps _ _ _ _)),
    answers_okResp i 0x0403 d _ ctl (.inl (by decide)), ?_, fun k hk => ?_⟩
  · rw [List.length_append, List.length_append, length_flatMap_of _ _ (n := 3) fun _ => rfl, length_flatMap_of _ _ (n := 2) fun _ => rfl]
    rfl
  · have each := get_foldl Dev.chan (fun d ch => d.modChan ch fun c => { c with squeeze := 0 }) (fun c => { c with squeeze := 0 })
      (fun d j => modChan_chan_self d j _) (fun d j l ne => modChan_chan_of_ne d ne _) (32 * b.toNat + k)
      ((List.range 32).map (32 * b.toNat + ·)) (List.nodup_range.map (add_right_injective _)) (s.dev.takenUp h 0x0403)
    rw [if_pos (List.mem_map.2 ⟨k, List.mem_range.2 hk, rfl⟩)] at each
    dsimp only
    rw [commit_chan, chan_of_pins (Dev.okResp_pins _ _ _), each]

end Sys2Proof.Machine
open Sys2Proof Sys2Proof.Machine

/-- Settles O39, by what each command leaves pending and the parts that its job waits for. -/
theorem timingCommands : Obligations.TimingCommands := by
  unfold Obligations.TimingCommands
  intro s h i
  exact ⟨fun th k p follows => timPeriod_refuses i follows,
    fun th k p leads set low high fits free => timPeriod_pends i leads set low high fits free,
    fun ch k e hc slice set ordered fits free => timEdges_pend i hc slice set ordered fits free,
    fun ch drv cmp hc slice d0 d1 c0 c1 dfree cfree => timDeskew_pend i hc slice d0 d1 c0 c1 dfree cfree, fun b => timMap_reports i b⟩

end


section
/-!
PROOFS. TDC.STOP (R147, R289): the run of the bank's lane that takes the edges of the stopped TDC ends with it, and finishes the
command of its own tag.
-/
namespace Sys2Proof.Machine

/-- A standalone device that has booted and rests, with its three rings enabled. -/
def restingDev : Dev where
  tl := { running := true, refPresent := true }
  boot := { ready := true, firmware := true, step := 12 }
  tree := { tunnel := true }
  ctl := { cmd := { en := true, size := 64 }, cpl := { en := true, size := 256 }, evt := { en := true, size := 256 } }

/-- The statuses that a step leaves in the Completion Ring. -/
def statusesAfter (o : Host.Outcome State Fault Refusal) : List (BitVec 4) :=
  match o with
  | .next t => t.dev.ctl.cplOut.map fun (c : Cpl) => c.status
  | _ => []

/-- A step on a device with an empty Completion Ring that answers its command with a status. -/
theorem statusesAfter_of_answers {s t : State} {o : Host.Outcome State Fault Refusal} {h : Hdr} {op : BitVec 16} {st : BitVec 4}
    {r : List Int} (step : o = .next t) (empty : s.dev.ctl.cplOut = []) (answers : Answers s t h op st r) : statusesAfter o = [st] := by
  obtain ⟨c, out, -, -, -, status, -⟩ := answers
  rw [step, statusesAfter, out, empty, List.nil_append, List.map_singleton, status]

end Sys2Proof.Machine
open Sys2Proof Sys2Proof.Machine

/-- Refutes O40: where the lane's run that takes the TDC's edges carries the tag of the TDC.STOP itself, the end of that run
answers the TDC.STOP with ABORTED before it can complete OK. -/
theorem not_tdcs : ¬ Obligations.Tdcs := by
  unfold Obligations.Tdcs
  rintro ⟨commands, -⟩
  let s : State := { dev := (restingDev.modTdc 15 31 fun x => { x with owner := .arm 5 }).modLane 15 fun l =>
    { l with run := some { tag := 7, active := true, input := 3, src := 31, kernel := 0x40 } } }
  have idle : Idle s { tag := 7 } := ⟨rfl, rfl, rfl, rfl, rfl, rfl, rfl, rfl, rfl, rfl⟩
  obtain ⟨-, stops, -⟩ := commands s { tag := 7 } 15 31 idle
  obtain ⟨t, runs, answers, -⟩ := stops 5 rfl (by decide)
  have ok := statusesAfter_of_answers runs rfl answers
  have aborted : statusesAfter (exec (.tdcStop { tag := 7 } 15 31) s) = [stAborted] := by decide +kernel
  exact absurd (aborted.symm.trans ok) (by decide)

end


section
/-!
PROOFS. Configuration of idle threads (R17, R18, R153, R157, R163, R165, R185).
-/
namespace Sys2Proof.Machine

/-! ### Checks of which none holds -/

theorem worst_eq_none {l : List (Option (BitVec 4 × Nat × Nat))} (h : ∀ r ∈ l, r = none) : worst l = none := by
  have empty : l.filterMap id = [] := List.filterMap_eq_nil_iff.2 h
  rw [worst, empty]
  rfl

theorem badArgs_eq_none {l : List (Nat × Bool)} (h : ∀ x ∈ l, x.2 = false) : badArgs l = none := by
  have empty : l.find? (·.2) = none := List.find?_eq_none.2 fun x mem => by rw [h x mem]; simp
  rw [badArgs, badArg, empty]
  rfl

section
variable {s : State} {h : Hdr} {t : Nat}

/-! ### One thread alone -/

/-- A setting of one idle thread that is in force at once. -/
theorem thread_ends (i : Idle s h) (op : BitVec 16) (c : opClass op ≠ 0) (t : Nat) (f : Thread → Thread) :
    let x := { s with dev := (((s.dev.takenUp h op).modThread t f).ok h.tag).commit }
    Keeps [.seq] s x ∧ Answers s x h op stOk [] ∧ x.dev.thread t = f (s.dev.thread t) ∧
      ∀ k, k ≠ t → x.dev.thread k = s.dev.thread k := by
  obtain ⟨frame, answer⟩ := ok_ends i op c (d := (s.dev.takenUp h op).modThread t f) rfl (modThread_keeps _ _ _)
  have thread : ∀ k, (((s.dev.takenUp h op).modThread t f).ok h.tag).commit.thread k = ((s.dev.takenUp h op).modThread t f).thread k :=
    fun k => thread_of_seq ((commit_seq _).trans (Dev.ok_seq _ _)) k
  refine ⟨frame, answer, ?_, fun k ne => ?_⟩
  · dsimp only
    rw [thread t, modThread_thread_self, takenUp_thread]
  · dsimp only
    rw [thread k]
    exact (Tab.get_mod_of_ne _ _ ne _).trans (takenUp_thread _ _ _ _)

@[simp] theorem preempt_depthDefault (d : Dev) (op : BitVec 16) : (d.preempt op).pat.depthDefault = d.pat.depthDefault := by
  unfold Dev.preempt
  split <;> rfl

@[simp] theorem takenUp_depthDefault (d : Dev) (h : Hdr) (op : BitVec 16) : (d.takenUp h op).pat.depthDefault = d.pat.depthDefault := by
  simp [Dev.takenUp]

theorem seqAssign_assigns (i : Idle s h) {th : BitVec 6} (al : s.dev.alone th.toNat) (st : (s.dev.thread th.toNat).st = .idle)
    {g : BitVec 4} (free : ∀ k, k < 4 → 4 * (th.toNat / 4) + k ≠ th.toNat → (s.dev.thread (4 * (th.toNat / 4) + k)).groups &&& g = 0) :
    ∃ t, exec (.seqAssign h th g) s = .next t ∧ Keeps [.seq] s t ∧ Answers s t h 0x0500 stOk [] ∧
      t.dev.thread th.toNat = { s.dev.thread th.toNat with groups := g, dict := .empty, depth := s.dev.pat.depthDefault } ∧
      ∀ k, k ≠ th.toNat → t.dev.thread k = s.dev.thread k := by
  obtain ⟨frame, answer, thread, others⟩ := thread_ends i 0x0500 (by decide) th.toNat fun x =>
    { x with groups := g, dict := .empty, depth := (s.dev.takenUp h 0x0500).pat.depthDefault }
  have clash : ((List.range 4).any fun k => 4 * (th.toNat / 4) + k != th.toNat &&
      ((s.dev.takenUp h 0x0500).thread (4 * (th.toNat / 4) + k)).groups &&& g != 0) = false := by
    rw [List.any_eq_false]
    intro k mem
    simpa using free k (List.mem_range.1 mem)
  refine ⟨_, hostCmd_runs i 0x0500 ?_, frame, answer, ?_, others⟩
  · dsimp only
    rw [clash, (al.takenUp h 0x0500).notLead, takenUp_thread, st, worst_eq_none]
    simp [failAt, badArgs, badArg]
  · rw [thread, takenUp_depthDefault]

theorem seqSegload_writes (i : Idle s h) {th : BitVec 6} (al : s.dev.alone th.toNat) (st : (s.dev.thread th.toNat).st = .idle)
    {first : Nat} {descs : List (BitVec 128)} (some_ : descs ≠ []) (room : first + descs.length ≤ 4096)
    (good : ∀ w ∈ descs, w.toNat / 2 ^ 80 = 0 ∧ descTrigEn w.toNat = false) :
    ∃ t, exec (.seqSegload h th first descs) s = .next t ∧ Keeps [.seq] s t ∧ Answers s t h 0x0502 stOk [] ∧
      ∀ i, (t.dev.thread th.toNat).descs.get 0 i =
        if first ≤ i ∧ i < first + descs.length then descs.getD (i - first) 0 else (s.dev.thread th.toNat).descs.get 0 i := by
  obtain ⟨frame, answer, thread, -⟩ := thread_ends i 0x0502 (by decide) th.toNat fun x => { x with descs := x.descs.fill 0 first descs }
  have ball : (descs.find? fun w => descTrigEn w.toNat && !(s.dev.takenUp h 0x0502).ownsBall th.toNat (descBall w.toNat)) = none :=
    List.find?_eq_none.2 fun w mem => by simp [(good w mem).2]
  have high : (descs.any fun w => decide (w.toNat / 2 ^ 80 ≠ 0)) = false := by
    rw [List.any_eq_false]
    intro w mem
    rw [decide_eq_true_eq, not_not]
    exact (good w mem).1
  have size : (descs == [] || decide (first + descs.length > 4096)) = false := by
    simp [some_, room]
  refine ⟨_, hostCmd_runs i 0x0502 ?_, frame, answer, fun k => ?_⟩
  · dsimp only
    rw [ball, high, size, (al.takenUp h 0x0502).notLead, takenUp_thread, Thread.active, st, worst_eq_none]
    simp [badArgs, badArg]
  · rw [thread]
    exact Tab.get_fill _ _ _ _ _

theorem seqDict_writes (i : Idle s h) {th : BitVec 6} (al : s.dev.alone th.toNat) (st : (s.dev.thread th.toNat).st = .idle)
    {first n : Nat} {e : BitVec 128} (room : first < 256) (chans : (s.dev.chansOf th.toNat).length = n)
    (states : ∀ k, k < n → nib e.toNat k ≤ 7) (rest : e.toNat / 2 ^ (4 * n) = 0) :
    ∃ t, exec (.seqDict h th first [e]) s = .next t ∧ Keeps [.seq] s t ∧ Answers s t h 0x0503 stOk [] ∧
      (t.dev.thread th.toNat).dict.get maskEntry first = e ||| (maskEntry - maskEntry % BitVec.ofNat 128 (2 ^ (4 * n))) := by
  obtain ⟨frame, answer, thread, -⟩ := thread_ends i 0x0503 (by decide) th.toNat fun x =>
    { x with dict := x.dict.fill maskEntry first [e ||| (maskEntry - maskEntry % BitVec.ofNat 128 (2 ^ (4 * n)))] }
  have same : ((s.dev.takenUp h 0x0503).chansOf th.toNat).length = n := by
    rw [chansOf_of_groups (b := s.dev) (by rw [takenUp_thread]), chans]
  have good : ([e].any fun w => ((List.range n).any fun k => decide (nib w.toNat k > 7)) || decide (w.toNat / 2 ^ (4 * n) ≠ 0)) = false := by
    have low : ((List.range n).any fun k => decide (nib e.toNat k > 7)) = false := by
      rw [List.any_eq_false]
      intro k mem
      simpa using states k (List.mem_range.1 mem)
    rw [List.any_cons, List.any_nil, low, decide_eq_false (not_not.2 rest)]
    rfl
  have size : ([e] == [] || decide (first + [e].length > 256)) = false := by
    rw [decide_eq_false (by rw [List.length_singleton]; omega)]
    rfl
  refine ⟨_, hostCmd_runs i 0x0503 ?_, frame, answer, ?_⟩
  · dsimp only
    rw [same, good, size, (al.takenUp h 0x0503).notLead, takenUp_thread, st, worst_eq_none]
    · rfl
    · simp [failAt, badArgs, badArg]
  · rw [thread]
    refine (Tab.get_fill _ _ _ _ _).trans ?_
    simp

theorem seqStatus_reports (i : Idle s h) {th : BitVec 6} (al : s.dev.alone th.toNat) (st : (s.dev.thread th.toNat).st = .idle) :
    ∃ t r, exec (.seqStatus h th) s = .next t ∧ Keeps [] s t ∧ Answers s t h 0x050B stOk r ∧ r.length = 9 ∧ r.head? = some 0 := by
  let d : Dev := s.dev.takenUp h 0x050B
  let t := th.toNat
  let r : List Int := [(d.thread t).st.code, ((d.thread t).seg.toNat : Int), (d.nextVa t : Int), ((d.thread t).loops.length : Int),
    ((d.thread t).calls.length : Int), rb (d.siteFf t), rb (d.siteSf t), ro ((d.thread t).jump.map fun j => j.seg.toNat),
    ((List.range 4).foldl (fun v b => v + if d.ownsBall t b then 2 ^ b else 0) 0 : Nat)]
  refine ⟨_, r, hostCmd_runs i 0x050B (d := d.okResp h.tag r) (if_neg ?_), keeps_of_takenUp (by decide) (okResp_keeps _ _ _ _),
    answers_okResp i 0x050B _ _ rfl (.inl (by decide)), rfl, ?_⟩
  · rw [(al.takenUp h 0x050B).notLead]
    simp
  · rw [List.head?_cons, takenUp_thread, st]
    rfl

/-! ### SEQ.LINK -/

/-- Threads that are linked to a lead, or each to itself. -/
theorem linkThreads_thread (l : List Nat) (once : l.Nodup) (v : Option (BitVec 6)) (d : Dev) (k : Nat) :
    (l.foldl (fun d m => d.modThread m fun t => { t with lead := v }) d).thread k =
      if k ∈ l then { d.thread k with lead := v } else d.thread k :=
  get_foldl Dev.thread (fun d m => d.modThread m fun t => { t with lead := v }) (fun t => { t with lead := v })
    (fun d j => modThread_thread_self d j _) (fun _ _ _ ne => Tab.get_mod_of_ne _ _ ne _) k l once d

theorem seqLink_links (i : Idle s h) {th : BitVec 6} (al : s.dev.alone th.toNat) (st : (s.dev.thread th.toNat).st = .idle)
    {n : BitVec 8} (low : 1 ≤ n.toNat) (high : n.toNat ≤ 4) (banks : th.toNat / 4 + n.toNat ≤ 16)
    (free : ∀ k, k < n.toNat → (s.dev.thread (th.toNat + 4 * k)).lead = none ∧ (s.dev.thread (th.toNat + 4 * k)).st = .idle) :
    ∃ t, exec (.seqLink h th n) s = .next t ∧ Keeps [.seq] s t ∧ Answers s t h 0x0501 stOk [] ∧
      (t.dev.thread th.toNat).members = n.toNat ∧
      ∀ k, k < n.toNat → (t.dev.thread (th.toNat + 4 * k)).lead = if n = 1 then none else some th := by
  let named := (List.range n.toNat).map fun k => th.toNat + 4 * k
  let a : Dev := (s.dev.takenUp h 0x0501).modThread th.toNat fun t => { t with lead := none, members := 1 }
  let b : Dev := if n.toNat = 1 then a else named.foldl (fun d m => d.modThread m fun t => { t with lead := some th }) a
  have once : named.Nodup := List.nodup_range.map fun x y e => by omega
  have bframe : SameBut [.seq] (s.dev.takenUp h 0x0501) b ∧ b.ctl = (s.dev.takenUp h 0x0501).ctl := by
    by_cases e : n.toNat = 1
    · rw [show b = a from if_pos e]
      exact ⟨modThread_keeps _ _ _, rfl⟩
    · rw [show b = _ from if_neg e]
      exact ⟨(modThread_keeps _ _ _).trans (.foldl (fun d m => modThread_keeps d m _) _ _), foldl_leaves Dev.ctl (fun d m => d.modThread_ctl m _) _ a⟩
  obtain ⟨frame, answer⟩ := ok_ends i 0x0501 (by decide) (d := b.modThread th.toNat fun t => { t with members := n.toNat }) bframe.2
    (bframe.1.trans (modThread_keeps _ _ _))
  have thread : ∀ k, ((b.modThread th.toNat fun t => { t with members := n.toNat }).ok h.tag).commit.thread k =
      (b.modThread th.toNat fun t => { t with members := n.toNat }).thread k := fun k =>
    thread_of_seq ((commit_seq _).trans (Dev.ok_seq _ _)) k
  have lead : ∀ k, k < n.toNat → (b.thread (th.toNat + 4 * k)).lead = if n.toNat = 1 then none else some th := fun k hk => by
    have alead : (a.thread (th.toNat + 4 * k)).lead = none := by
      by_cases e : th.toNat + 4 * k = th.toNat
      · rw [e]
        exact congrArg Thread.lead (modThread_thread_self _ _ _)
      · refine (congrArg Thread.lead (Tab.get_mod_of_ne _ _ e _)).trans ?_
        exact (congrArg Thread.lead (takenUp_thread _ _ _ _)).trans (free k hk).1
    by_cases e : n.toNat = 1
    · rw [show b = a from if_pos e, if_pos e, alead]
    · rw [show b = _ from if_neg e, if_neg e, linkThreads_thread _ once, if_pos (List.mem_map.2 ⟨k, List.mem_range.2 hk, rfl⟩)]
  refine ⟨_, hostCmd_runs i 0x0501 ?_, frame, answer, ?_, fun k hk => ?_⟩
  · have bad : (n.toNat == 0 || decide (n.toNat > 4) || decide (th.toNat / 4 + n.toNat > 16)) = false := by
      simp only [Bool.or_eq_false_iff, beq_eq_false_iff_ne, decide_eq_false_iff_not]
      omega
    have linked : (named.find? fun m => decide (m < 64) && ((s.dev.takenUp h 0x0501).thread m).lead.any fun x => x.toNat != th.toNat) = none :=
      List.find?_eq_none.2 fun m mem => by
        obtain ⟨k, hk, rfl⟩ := List.mem_map.1 mem
        simp [(free k (List.mem_range.1 hk)).1]
    have active : ((named ++ [th.toNat]).find? fun m => ((s.dev.takenUp h 0x0501).thread m).st != .idle) = none :=
      List.find?_eq_none.2 fun m mem => by
        rcases List.mem_append.1 mem with mem | mem
        · obtain ⟨k, hk, rfl⟩ := List.mem_map.1 mem
          simp [(free k (List.mem_range.1 hk)).2]
        · rw [List.mem_singleton.1 mem]
          simp [st]
    have own : ((s.dev.takenUp h 0x0501).thread th.toNat).lead = none := (congrArg Thread.lead (takenUp_thread _ _ _ _)).trans al.1
    dsimp only
    rw [own]
    simp only [Option.isSome_none, Bool.false_eq_true, if_false]
    rw [linked, active, bad, worst_eq_none (by simp [badArgs, badArg])]
    rfl
  · dsimp only
    rw [thread, modThread_thread_self]
  · dsimp only
    have one : n = 1 ↔ n.toNat = 1 := by bv_omega
    simp only [one]
    rw [thread, ← lead k hk]
    by_cases e : th.toNat + 4 * k = th.toNat
    · rw [e, modThread_thread_self]
    · exact congrArg Thread.lead (Tab.get_mod_of_ne _ _ e _)

/-! ### SEQ.TRIGOUT -/

/-- A ball with a new owner. -/
def Dev.claimBall (d : Dev) (th : BitVec 6) (b : Nat) : Dev :=
  { d with seq := { d.seq with trig := d.seq.trig.mod {} b fun x => { x with owner := some th } } }

theorem claimBall_ctl (d : Dev) (th : BitVec 6) (b : Nat) : (d.claimBall th b).ctl = d.ctl := rfl

theorem seqTrigout_claims (i : Idle s h) {th : BitVec 6} (al : s.dev.alone th.toNat) {m : BitVec 4}
    (free : ∀ k, k < 4 → (s.dev.seq.trig.get {} k).owner = none) :
    ∃ t, exec (.seqTrigout h th m 0) s = .next t ∧ Keeps [.seq] s t ∧ Answers s t h 0x0504 stOk [] ∧
      ∀ k, k < 4 → (t.dev.seq.trig.get {} k).owner = if m.getLsbD k then some th else none := by
  let d : Dev := (members m).foldl (fun d b => d.claimBall th b) (s.dev.takenUp h 0x0504)
  have none_ : members (0 : BitVec 4) = [] := by decide
  have ctl : d.ctl = (s.dev.takenUp h 0x0504).ctl := foldl_leaves Dev.ctl (fun d b => claimBall_ctl d th b) _ _
  obtain ⟨frame, answer⟩ := ok_ends i 0x0504 (by decide) ctl (.foldl (fun d b => setSeq_keeps d _) _ _ : SameBut [.seq] _ d)
  have taken : ((members m).find? fun b => ((s.dev.takenUp h 0x0504).seq.trig.get ({} : TrigOut) b).owner.any fun o => o != th) = none :=
    List.find?_eq_none.2 fun b mem => by
      rw [takenUp_seq, free b (mem_members.1 mem).1]
      simp
  refine ⟨_, hostCmd_runs i 0x0504 (d := d.ok h.tag) ?_, frame, answer, fun k hk => ?_⟩
  · dsimp only
    rw [taken, none_, (al.takenUp h 0x0504).notLead, worst_eq_none (by simp [badArgs, badArg])]
    rfl
  · have each := get_foldl (fun d b => d.seq.trig.get ({} : TrigOut) b) (fun d b => Dev.claimBall d th b) (fun x => { x with owner := some th })
      (fun d b => Tab.get_mod_self _ _ _ _) (fun d b j ne => Tab.get_mod_of_ne _ _ ne _) k (members m) (nodup_members m)
      (s.dev.takenUp h 0x0504)
    dsimp only at each ⊢
    rw [commit_seq, Dev.ok_seq, show d.seq.trig.get ({} : TrigOut) k = _ from each, takenUp_seq]
    by_cases e : m.getLsbD k = true
    · rw [if_pos (mem_members.2 ⟨hk, e⟩), if_pos e]
    · rw [if_neg fun mem => e (mem_members.1 mem).2, if_neg e, free k hk]

end

end Sys2Proof.Machine
open Sys2Proof Sys2Proof.Machine

/-- Settles O41, by what each command writes into its thread once none of its checks holds. -/
theorem sequencerSetup : Obligations.SequencerSetup := by
  unfold Obligations.SequencerSetup
  intro s h th i al st
  exact ⟨fun g free => seqAssign_assigns i al st free, fun n low high banks free => seqLink_links i al st low high banks free,
    fun first descs some_ room good => seqSegload_writes i al st some_ room good,
    fun first e n room chans states rest => seqDict_writes i al st room chans states rest,
    fun m free => seqTrigout_claims i al free, seqStatus_reports i al st⟩

end


section
/-!
PROOFS. Segment starts, segment ends and dead times of a site of one thread (R164 to R166).
-/
namespace Sys2Proof.Machine

/-! ### Steps of a site -/

theorem thread_of_threads {a b : Dev} (h : a.seq.threads = b.seq.threads) (k : Nat) : a.thread k = b.thread k := by
  rw [Dev.thread, h, Dev.thread]

@[simp] theorem postAt_thread (d : Dev) (a b : Nat) (x : List Int) (e : BitVec 16) (t : Nat) (q : BitVec 4) (k : Nat) :
    (d.postAt a b x e t q).thread k = d.thread k := by
  unfold Dev.postAt
  split <;> rfl

theorem takeDriver_pinStep (d : Dev) (ch : Nat) : PinStep d (d.takeDriver ch) := by
  unfold Dev.takeDriver
  cases (d.chan ch).drvPend with
  | none => exact .refl _
  | some p => exact (pinStep_modChan _ _ _).trans (pinStep_endUnitAt _ _ _ _)

theorem takeDriver_seq (d : Dev) (ch : Nat) : (d.takeDriver ch).seq = d.seq := by
  unfold Dev.takeDriver
  cases (d.chan ch).drvPend with
  | none => rfl
  | some p => simp [Dev.applyDriver]

/-- What the end of a segment may change beside the control complex, and what it leaves of the site's extent. -/
structure SiteStep (l : Nat) (d e : Dev) : Prop where
  frame : SameBut [.seq, .banks, .pins] d e
  lead : (e.thread l).lead = (d.thread l).lead
  members : (e.thread l).members = (d.thread l).members

theorem SiteStep.refl (l : Nat) (d : Dev) : SiteStep l d d := ⟨.refl _ _, rfl, rfl⟩

theorem SiteStep.trans {l : Nat} {a b c : Dev} (x : SiteStep l a b) (y : SiteStep l b c) : SiteStep l a c :=
  ⟨x.frame.trans y.frame, y.lead.trans x.lead, y.members.trans x.members⟩

theorem SiteStep.alone {l : Nat} {d e : Dev} (x : SiteStep l d e) (al : d.alone l) : e.alone l := al.congr x.lead x.members

/-- A step that leaves the threads alone. -/
theorem siteStep_of_thread {l : Nat} {d e : Dev} (frame : SameBut [.seq, .banks, .pins] d e) (same : e.thread l = d.thread l) : SiteStep l d e :=
  ⟨frame, congrArg Thread.lead same, congrArg Thread.members same⟩

theorem siteStep_modThread (l : Nat) (d : Dev) {f : Thread → Thread} (lead : (f (d.thread l)).lead = (d.thread l).lead)
    (members : (f (d.thread l)).members = (d.thread l).members) : SiteStep l d (d.modThread l f) :=
  ⟨(modThread_keeps _ _ _).mono (by simp), (congrArg Thread.lead (modThread_thread_self _ _ _)).trans lead,
    (congrArg Thread.members (modThread_thread_self _ _ _)).trans members⟩

theorem siteStep_finish (l : Nat) (d : Dev) (g : Tag) (c : Cpl) : SiteStep l d (d.finish g c) :=
  siteStep_of_thread (finish_keeps _ _ _ _) (finish_thread _ _ _ _)

theorem siteStep_finishes (l : Nat) (c : Cpl) (gs : List Tag) (d : Dev) : SiteStep l d (gs.foldl (fun d g => d.finish g c) d) := by
  induction gs generalizing d with
  | nil => exact .refl _ _
  | cons g gs ih => exact (siteStep_finish _ _ _ _).trans (ih _)

theorem siteStep_takeDrivers (l : Nat) (chs : List Nat) (d : Dev) :
    SiteStep l d (chs.foldl (fun d ch => d.takeDriver ch) d) ∧ (chs.foldl (fun d ch => d.takeDriver ch) d).seq = d.seq := by
  induction chs generalizing d with
  | nil => exact ⟨.refl _ _, rfl⟩
  | cons ch chs ih =>
    obtain ⟨step, seq⟩ := ih (d.takeDriver ch)
    have first : SiteStep l d (d.takeDriver ch) :=
      siteStep_of_thread ((takeDriver_pinStep d ch).keeps.mono (by simp)) (thread_of_seq (takeDriver_seq d ch) l)
    exact ⟨first.trans step, seq.trans (takeDriver_seq d ch)⟩

theorem siteStep_segRecord (l : Nat) (d : Dev) (e : Nat) (n : BitVec 12) (c : Nat) (f g : Bool) : SiteStep l d (d.segRecord l e n c f g) := by
  unfold Dev.segRecord
  split
  · exact siteStep_of_thread (packet_keeps _ _ _) rfl
  · exact .refl _ _

theorem siteStep_freeTiles (l m : Nat) (d : Dev) : SiteStep l d (d.freeTiles m) := by
  unfold Dev.freeTiles
  refine List.foldlRecOn (motive := fun e => SiteStep l d e) _ _ (.refl _ _) fun e step t _ => step.trans ?_
  exact siteStep_of_thread ((modBank_keeps _ _ _).mono (by simp)) rfl

theorem siteStep_dropJump (l : Nat) (d : Dev) : SiteStep l d (d.dropJump l) := by
  unfold Dev.dropJump
  exact (siteStep_modThread l d (f := fun t => { t with jump := none, jumpTaken := none }) rfl rfl).trans (siteStep_finishes _ _ _ _)

theorem foldSeg_lead (t : Thread) (f : Bool) : (t.foldSeg f).lead = t.lead := by
  unfold Thread.foldSeg
  split <;> rfl

theorem foldSeg_members (t : Thread) (f : Bool) : (t.foldSeg f).members = t.members := by
  unfold Thread.foldSeg
  split <;> rfl

/-! ### The dead time -/

/-- A site whose dead time has begun at a stamp. -/
structure Dev.deadFrom (d : Dev) (l z : Nat) : Prop where
  st : (d.thread l).st = .dead
  ends : (d.thread l).deadEnd = z + 2048
  queue : (d.thread l).ctx.queue = []

theorem beginDead_begins {d : Dev} {l z : Nat} (al : d.alone l) (ended : Option Nat) :
    SiteStep l d (d.beginDead l z ended) ∧ (d.beginDead l z ended).deadFrom l z := by
  let a : Dev := if ended.getD 0 = 0 then d else d.dropJump l
  have step : SiteStep l d a := by
    by_cases e : ended.getD 0 = 0
    · rw [show a = d from if_pos e]
      exact .refl _ _
    · rw [show a = d.dropJump l from if_neg e]
      exact siteStep_dropJump l d
  have begins : d.beginDead l z ended = a.modThread l fun t => { t with
      st := .dead, deadEnd := z + 2048, ended := ended.isSome
      flow := match ended with | some c => { t.flow with endCode := BitVec.ofNat 3 c } | none => t.flow
      stopAt := none, waitEnd := none, ctx := t.ctx.drop } := (step.alone al).modSite _
  rw [begins]
  refine ⟨step.trans (siteStep_modThread l a rfl rfl), ?_, ?_, ?_⟩
  all_goals rw [modThread_thread_self]
  rfl

/-- What follows the end of a segment once what plays next is chosen: END, a valid segment, or a program error. -/
def Dev.closeSegment (d : Dev) (l z va : Nat) (jump : Option Jump) (next : Option (BitVec 12)) : Dev :=
  match next with
  | none => d.beginDead l z (some 0)
  | some seg =>
    if d.segValid l seg then
      let d : Dev := match jump with
        | some j => d.modThread l fun x => { x with jump := none, jumpTaken := j.tag }
        | none => d
      (d.modSite l fun x => { x with chosen := some seg }).beginDead l z none
    else
      let d : Dev := d.postAt (threadSource l) 3 [va, 0] d.tl.epoch z d.tl.tq
      ({ d with seq := { d.seq with progErrs := satAdd (2 ^ 32 - 1) d.seq.progErrs 1 } } : Dev).beginDead l z (some 3)

theorem endSegment_closes (d : Dev) (l z : Nat) (abort : Bool) : ∃ n c f g x jump next,
    d.endSegment l z abort =
      (((d.segRecord l z n c f g).modThread l fun t => t.foldSeg x).freeTiles l).closeSegment l z (d.thread l).pc jump next :=
  ⟨_, _, _, _, _, _, _, rfl⟩

theorem closeSegment_dies {d : Dev} {l : Nat} (al : d.alone l) (z va : Nat) (jump : Option Jump) (next : Option (BitVec 12)) :
    SiteStep l d (d.closeSegment l z va jump next) ∧ (d.closeSegment l z va jump next).deadFrom l z := by
  unfold Dev.closeSegment
  cases next with
  | none => exact beginDead_begins al _
  | some seg =>
    dsimp only
    split
    · obtain ⟨a, ha, step⟩ : ∃ a, (match jump with
          | some j => d.modThread l fun x => { x with jump := none, jumpTaken := j.tag }
          | none => d) = a ∧ SiteStep l d a := by
        cases jump with
        | none => exact ⟨_, rfl, .refl _ _⟩
        | some j => exact ⟨_, rfl, siteStep_modThread l d rfl rfl⟩
      rw [ha, (step.alone al).modSite]
      have chosen := step.trans (siteStep_modThread l a (f := fun x => { x with chosen := some seg }) rfl rfl)
      obtain ⟨dies, dead⟩ := beginDead_begins (z := z) (chosen.alone al) none
      exact ⟨chosen.trans dies, dead⟩
    · let a : Dev := d.postAt (threadSource l) 3 [va, 0] d.tl.epoch z d.tl.tq
      let b : Dev := { a with seq := { a.seq with progErrs := satAdd (2 ^ 32 - 1) a.seq.progErrs 1 } }
      have posted : SiteStep l d a := siteStep_of_thread (postAt_keeps _ _ _ _ _ _ _ _) (postAt_thread _ _ _ _ _ _ _ _)
      have counted : SiteStep l d b := posted.trans (siteStep_of_thread ((setSeq_keeps _ _).mono (by simp)) (thread_of_threads rfl l))
      obtain ⟨dies, dead⟩ := beginDead_begins (z := z) (counted.alone al) (some 3)
      exact ⟨counted.trans dies, dead⟩

/-- The end of a segment leads into a dead time, whatever plays next. -/
theorem endSegment_dies {d : Dev} {l : Nat} (al : d.alone l) (z : Nat) (abort : Bool) :
    SiteStep l d (d.endSegment l z abort) ∧ (d.endSegment l z abort).deadFrom l z := by
  obtain ⟨n, c, f, g, x, jump, next, closes⟩ := endSegment_closes d l z abort
  rw [closes]
  have folded := ((siteStep_segRecord l d z n c f g).trans (siteStep_modThread l _ (f := fun t => t.foldSeg x) (foldSeg_lead _ _)
    (foldSeg_members _ _))).trans (siteStep_freeTiles l l _)
  obtain ⟨dies, dead⟩ := closeSegment_dies (folded.alone al) z (d.thread l).pc jump next
  exact ⟨folded.trans dies, dead⟩

/-! ### The start of a segment -/

/-- A thread as the start of a segment leaves it. -/
def Thread.starting (hot : Bool) (seg : BitVec 12) (z : Nat) (t : Thread) : Thread :=
  { t with
    st := .run, seg := seg, chosen := none, pc := descVa (t.desc seg), loops := [], calls := [], ff := false, sf := false
    segStat := { isOpen := true, start := z }, next := z, throttle := hot, inBlock := 0, ended := false, barrier := none
    matchAt := none, dispatchFrom := z, waitEnd := none
    ctx := { t.ctx with active := false, queue := [], clock := z - 2048, waiting := false, sinceSafe := 0, safe := true } }

theorem raiseThread_thread (d : Dev) (t e : Nat) (p : BitVec 32 → Bool) (k : Nat) : (d.raiseThread t e p).thread k = d.thread k := by
  unfold Dev.raiseThread
  refine forEach_leaves (fun d => d.thread k) (fun r d => ?_) _ d
  split
  · exact of_unbanked (fun d => d.thread k) (fun _ => rfl) (raiseOn_unbanked _ _ _ _ _)
  · rfl

theorem startWaves_thread (d : Dev) (t : Nat) (seg : BitVec 12) (z k : Nat) : (d.startWaves t seg z).thread k = d.thread k :=
  foldl_leaves (fun d => d.thread k) (fun d ch => by rfl) _ d

/-- The ball of a segment goes high (R165). -/
def Dev.segPulse (d : Dev) (l : Nat) (seg : BitVec 12) (z : Nat) : Dev :=
  let w := (d.thread l).desc seg
  if descTrigEn w ∧ d.ownsBall l (descBall w) then d.pulse (descBall w) z else d

/-- What waits for the segment on the channels and rings of a site starts with it. -/
def Dev.segFollowers (d : Dev) (l : Nat) (seg : BitVec 12) (z : Nat) : Dev :=
  (d.site l).foldl (fun d t =>
    (d.raiseThread t z fun c => condKind c == 9 && bits c.toNat 4 12 == seg.toNat).startWaves t seg z) d

/-- The event of a segment's start. -/
def Dev.segEvent (d : Dev) (l : Nat) (seg : BitVec 12) (z : Nat) : Dev :=
  if d.seq.segEvents.getLsbD l then d.postAt (threadSource l) 1 [seg.toNat] d.tl.epoch z d.tl.tq else d

/-- The jump that has led to a segment completes. -/
def Dev.segJump (d : Dev) (l z : Nat) : Dev :=
  match (d.thread l).jumpTaken with
  | some tag => (d.modThread l fun t => { t with jumpTaken := none }).finish tag (stamped {} d.tl.tq d.tl.epoch z)
  | none => d

theorem startSegment_eq (d : Dev) (l : Nat) (seg : BitVec 12) (z : Nat) : d.startSegment l seg z =
    ((((d.modSite l (Thread.starting d.hk.hot seg z)).segPulse l seg z).segFollowers l seg z).segEvent l seg z).segJump l z := rfl

theorem segPulse_thread (d : Dev) (l : Nat) (seg : BitVec 12) (z k : Nat) : (d.segPulse l seg z).thread k = d.thread k := by
  unfold Dev.segPulse
  dsimp only
  split <;> rfl

theorem segFollowers_thread (d : Dev) (l : Nat) (seg : BitVec 12) (z k : Nat) : (d.segFollowers l seg z).thread k = d.thread k := by
  unfold Dev.segFollowers
  exact foldl_leaves (fun d => d.thread k) (fun d t => (startWaves_thread _ t seg z k).trans (raiseThread_thread d t z _ k)) _ d

theorem segEvent_thread (d : Dev) (l : Nat) (seg : BitVec 12) (z k : Nat) : (d.segEvent l seg z).thread k = d.thread k := by
  unfold Dev.segEvent
  split
  · exact postAt_thread _ _ _ _ _ _ _ _
  · rfl

theorem segJump_thread (d : Dev) (l z : Nat) : ∃ j, (d.segJump l z).thread l = { d.thread l with jumpTaken := j } := by
  unfold Dev.segJump
  cases taken : (d.thread l).jumpTaken with
  | none => exact ⟨(d.thread l).jumpTaken, rfl⟩
  | some g => exact ⟨none, (finish_thread _ _ _ _).trans (modThread_thread_self _ _ _)⟩

/-- A thread that starts a segment, but for the jump that may end with it. -/
theorem startSegment_starts {d : Dev} {l : Nat} (al : d.alone l) (seg : BitVec 12) (z : Nat) :
    ∃ j, (d.startSegment l seg z).thread l = { (d.thread l).starting d.hk.hot seg z with jumpTaken := j } := by
  rw [startSegment_eq, al.modSite]
  obtain ⟨j, thread⟩ := segJump_thread ((((d.modThread l (Thread.starting d.hk.hot seg z)).segPulse l seg z).segFollowers l seg z).segEvent l seg z) l z
  rw [segEvent_thread, segFollowers_thread, segPulse_thread, modThread_thread_self] at thread
  exact ⟨j, thread⟩

/-! ### The events of a flow -/

theorem threadStart_starts {s : State} {th : BitVec 6} (al : s.dev.alone th.toNat) (rewind : s.dev.tl.rewind = none)
    (st : (s.dev.thread th.toNat).st = .armed) (epoch : (s.dev.thread th.toNat).startEpoch = s.dev.tl.epoch) (gates : s.dev.cap.gates = []) :
    ∃ t, exec (.threadStart th) s = .next t ∧ (t.dev.thread th.toNat).st = .run ∧
      (t.dev.thread th.toNat).seg = (s.dev.thread th.toNat).firstSeg ∧
      (t.dev.thread th.toNat).pc = descVa ((s.dev.thread th.toNat).desc (s.dev.thread th.toNat).firstSeg) ∧
      (t.dev.thread th.toNat).next = (s.dev.thread th.toNat).startAt ∧ (t.dev.thread th.toNat).loops = [] ∧
      (t.dev.thread th.toNat).calls = [] ∧ (t.dev.thread th.toNat).ff = false ∧ (t.dev.thread th.toNat).sf = false := by
  let x := s.dev.thread th.toNat
  let a : Dev := s.dev.advance x.startAt
  have same : a.thread th.toNat = x := thread_of_seq (s.dev.advance_seq _) _
  have runs : exec (.threadStart th) s = .next { s with dev := ((a.startSegment th.toNat x.firstSeg x.startAt).settleStart x.startTag).commit } := by
    refine (onDev_runs ?_ : execThreadStart th s = _)
    dsimp only
    rw [if_neg (by simp [st, epoch, gates, al.notLead]), due_of_no_rewind rewind]
  obtain ⟨j, thread⟩ := startSegment_starts (d := a) (al.congr (by rw [same]) (by rw [same])) x.firstSeg x.startAt
  rw [same] at thread
  generalize a.startSegment th.toNat x.firstSeg x.startAt = b at runs thread
  have settled : (b.settleStart x.startTag).commit.thread th.toNat = b.thread th.toNat := commit_thread _ _
  refine ⟨_, runs, ?_, ?_, ?_, ?_, ?_, ?_, ?_, ?_⟩
  all_goals
    dsimp only
    rw [settled, thread]
    rfl

theorem segmentEnd_dies {s : State} {th : BitVec 6} {r : Nat} {rest : List (QEntry × Nat)} (plays : s.dev.plays th.toNat (.segend, r) rest) :
    ∃ t, exec (.segmentEnd th) s = .next t ∧ Keeps [.seq, .banks, .pins] s t ∧ (t.dev.thread th.toNat).st = .dead ∧
      (t.dev.thread th.toNat).deadEnd = (s.dev.thread th.toNat).next + 2048 ∧ (t.dev.thread th.toNat).ctx.queue = [] := by
  obtain ⟨al, st, causes, strobes, queue, rewind⟩ := plays
  let z := (s.dev.thread th.toNat).next
  let a : Dev := s.dev.advance z
  let b : Dev := (a.siteChans th.toNat).foldl (fun d ch => d.takeDriver ch) a
  have same : a.thread th.toNat = s.dev.thread th.toNat := thread_of_seq (s.dev.advance_seq _) _
  have runs : exec (.segmentEnd th) s = .next { s with dev := (b.endSegment th.toNat z false).commit } := by
    refine (onDev_runs ?_ : execSegmentEnd th s = _)
    dsimp only
    rw [if_neg (by simp [st, al.notLead, al.site, strobes]), causes, if_neg (by simp), if_neg (by simp), queue]
    exact due_of_no_rewind rewind _ _
  obtain ⟨taken, -⟩ := siteStep_takeDrivers th.toNat (a.siteChans th.toNat) a
  obtain ⟨dies, dead⟩ := endSegment_dies (taken.alone (al.congr (by rw [same]) (by rw [same]))) z false
  generalize b.endSegment th.toNat z false = c at runs dies dead
  refine ⟨_, runs, keeps_commit (advance_keeps_trans z (taken.frame.trans dies.frame)), ?_, ?_, ?_⟩
  · dsimp only
    rw [commit_thread, dead.st]
  · dsimp only
    rw [commit_thread, dead.ends]
  · dsimp only
    rw [commit_thread, dead.queue]

theorem deadTimeEnd_starts {s : State} {th : BitVec 6} {seg : BitVec 12} (al : s.dev.alone th.toNat) (rewind : s.dev.tl.rewind = none)
    (st : (s.dev.thread th.toNat).st = .dead) (goes : (s.dev.thread th.toNat).ended = false) (causes : (s.dev.thread th.toNat).causes = [])
    (chosen : (s.dev.thread th.toNat).chosen = some seg) :
    ∃ t, exec (.deadTimeEnd th) s = .next t ∧ (t.dev.thread th.toNat).st = .run ∧ (t.dev.thread th.toNat).seg = seg ∧
      (t.dev.thread th.toNat).pc = descVa ((s.dev.thread th.toNat).desc seg) ∧
      (t.dev.thread th.toNat).next = (s.dev.thread th.toNat).deadEnd := by
  let x := s.dev.thread th.toNat
  let a : Dev := s.dev.advance x.deadEnd
  have same : a.thread th.toNat = x := thread_of_seq (s.dev.advance_seq _) _
  have runs : exec (.deadTimeEnd th) s = .next { s with dev := (a.startSegment th.toNat seg x.deadEnd).commit } := by
    refine (onDev_runs ?_ : execDeadTimeEnd th s = _)
    dsimp only
    rw [if_neg (by simp [st, al.notLead]), due_of_no_rewind rewind, goes, causes, chosen, if_neg (by simp), if_neg (by simp)]
    rfl
  obtain ⟨j, thread⟩ := startSegment_starts (d := a) (al.congr (by rw [same]) (by rw [same])) seg x.deadEnd
  rw [same] at thread
  generalize a.startSegment th.toNat seg x.deadEnd = b at runs thread
  refine ⟨_, runs, ?_, ?_, ?_, ?_⟩
  all_goals
    dsimp only
    rw [commit_thread, thread]
    rfl

theorem trigOutPulse_ends {s : State} {b : BitVec 2} {u : Nat} (rewind : s.dev.tl.rewind = none)
    (high : (s.dev.seq.trig.get ({} : TrigOut) b.toNat).highUntil = some u) :
    ∃ t, exec (.trigOutPulseEnd b) s = .next t ∧ Keeps [.seq] s t ∧ (t.dev.seq.trig.get ({} : TrigOut) b.toNat).highUntil = none ∧
      (t.dev.seq.trig.get ({} : TrigOut) b.toNat).owner = (s.dev.seq.trig.get ({} : TrigOut) b.toNat).owner := by
  let a : Dev := s.dev.advance u
  let x : Seq := { a.seq with trig := a.seq.trig.mod {} b.toNat fun b => { b with highUntil := none } }
  have runs : exec (.trigOutPulseEnd b) s = .next { s with dev := ({ a with seq := x } : Dev).commit } := by
    refine (onDev_runs ?_ : execTrigOutPulseEnd b s = _)
    simp only [high]
    exact due_of_no_rewind rewind _ _
  have trig : x.trig.get ({} : TrigOut) b.toNat = { s.dev.seq.trig.get ({} : TrigOut) b.toNat with highUntil := none } := by
    refine (Tab.get_mod_self _ _ _ _).trans ?_
    rw [show a.seq = s.dev.seq from s.dev.advance_seq u]
  refine ⟨_, runs, keeps_commit (advance_keeps_trans u (setSeq_keeps _ _)), ?_, ?_⟩
  · dsimp only
    rw [commit_seq, trig]
  · dsimp only
    rw [commit_seq, trig]

end Sys2Proof.Machine
open Sys2Proof Sys2Proof.Machine

/-- Settles O43, by the stages of a segment's start and by the one dead time in which every end of a segment comes out. -/
theorem segmentEvents : Obligations.SegmentEvents := by
  unfold Obligations.SegmentEvents
  exact fun s th al rewind => ⟨fun st epoch gates => threadStart_starts al rewind st epoch gates, fun r rest plays => segmentEnd_dies plays,
    fun seg st goes causes chosen => deadTimeEnd_starts al rewind st goes causes chosen, fun b u high => trigOutPulse_ends rewind high⟩

end


section
/-!
PROOFS. The start of an alignment interval (R329) on a table of taps that lists an index twice.
-/
namespace Sys2Proof.Machine

/-- A tap's DUE flag after a step. -/
def dueAfter (o : Host.Outcome State Fault Refusal) (i : Nat) : Bool :=
  match o with
  | .next t => (t.dev.tap i).due
  | _ => false

end Sys2Proof.Machine
open Sys2Proof Sys2Proof.Machine

/-- Refutes O60: in gradual mode the start of an alignment interval drops the listed cells that are at their reset value, so a
table whose first cell of a tap is at reset and whose second is due reads the second one afterwards. -/
theorem not_calibration : ¬ Obligations.Calibration := by
  unfold Obligations.Calibration
  rintro ⟨-, events⟩
  let s : State := { dev := { cal := { control := 2, taps := ⟨[(0, {}), (0, { due := true })]⟩ } } }
  obtain ⟨-, -, interval, -⟩ := events s 0
  obtain ⟨t, runs, -, taps⟩ := interval
  have rests : (s.dev.tap 0).due = false := rfl
  have kept : (t.dev.tap 0).due = false := by
    rw [taps 0, if_neg fun gradual => Bool.false_ne_true (rests.symm.trans gradual.2.1), rests]
  have due : dueAfter (exec (.alignmentIntervalStart 0) s) 0 = true := by decide +kernel
  rw [runs] at due
  exact absurd (kept.symm.trans due) (by decide)

end


section
/-!
PROOFS. The DSP lanes of the banks (R274 to R291): the rules of the lanes and rings of a bank, and the DSP commands.
-/
namespace Sys2Proof.Machine

/-! ### What a command that has been taken up reads -/

theorem takenUp_is (d : Dev) (h : Hdr) (op : BitVec 16) : ∃ t p c, d.takenUp h op = { d with tl := t, pat := p, ctl := c } := by
  obtain ⟨t, moved⟩ := advance_is_withTl d h.t
  unfold Dev.takenUp Dev.ensureFlight Dev.preempt
  rw [moved]
  split_ifs
  exacts [⟨_, _, _, rfl⟩, ⟨_, _, _, rfl⟩, ⟨_, _, _, rfl⟩, ⟨_, _, _, rfl⟩]

/-- What does not depend on timeline, pattern store and control complex is as before the command. -/
theorem takenUp_view {γ : Type} (v : Dev → γ) (r : ∀ (d : Dev) t p c, v { d with tl := t, pat := p, ctl := c } = v d) (d : Dev) (h : Hdr)
    (op : BitVec 16) : v (d.takenUp h op) = v d := by
  obtain ⟨t, p, c, same⟩ := takenUp_is d h op
  rw [same]
  exact r d t p c

@[simp] theorem takenUp_dsp (d : Dev) (h : Hdr) (op : BitVec 16) : (d.takenUp h op).dsp = d.dsp := by simp [Dev.takenUp]

/-! ### Lanes and rings -/

theorem lane_of_banks {a b : Dev} (h : a.banks = b.banks) (k : Nat) : a.lane k = b.lane k := congrArg Bank.lane (bank_of_banks h k)
theorem ring_of_banks {a b : Dev} (h : a.banks = b.banks) (k r : Nat) : a.ring k r = b.ring k r :=
  congrArg (fun x : Bank => x.rings.get ({} : Ring) r) (bank_of_banks h k)
theorem tdc_of_banks {a b : Dev} (h : a.banks = b.banks) (k x : Nat) : a.tdc k x = b.tdc k x :=
  congrArg (fun y : Bank => y.tdcs.get ({} : Tdc) x) (bank_of_banks h k)

@[simp] theorem takenUp_lane (d : Dev) (h : Hdr) (op : BitVec 16) (k : Nat) : (d.takenUp h op).lane k = d.lane k :=
  lane_of_banks (takenUp_banks ..) k
@[simp] theorem takenUp_bankRing (d : Dev) (h : Hdr) (op : BitVec 16) (k r : Nat) : (d.takenUp h op).ring k r = d.ring k r :=
  ring_of_banks (takenUp_banks ..) k r
@[simp] theorem takenUp_tdc (d : Dev) (h : Hdr) (op : BitVec 16) (k x : Nat) : (d.takenUp h op).tdc k x = d.tdc k x :=
  tdc_of_banks (takenUp_banks ..) k x
@[simp] theorem commit_lane (d : Dev) (k : Nat) : d.commit.lane k = d.lane k := lane_of_banks (commit_banks d) k
@[simp] theorem commit_bankRing (d : Dev) (k r : Nat) : d.commit.ring k r = d.ring k r := ring_of_banks (commit_banks d) k r
@[simp] theorem ok_lane (d : Dev) (g : Tag) (k : Nat) : (d.ok g).lane k = d.lane k := lane_of_banks (Dev.ok_banks d g) k
@[simp] theorem ok_bankRing (d : Dev) (g : Tag) (k r : Nat) : (d.ok g).ring k r = d.ring k r := ring_of_banks (Dev.ok_banks d g) k r

@[simp] theorem modLane_lane_self (d : Dev) (b : Nat) (f : Lane → Lane) : (d.modLane b f).lane b = f (d.lane b) := by
  unfold Dev.modLane Dev.lane
  rw [modBank_bank_self]

theorem modLane_keeps (d : Dev) (b : Nat) (f : Lane → Lane) : SameBut [.banks] d (d.modLane b f) := modBank_keeps _ _ _

@[simp] theorem modRing_ring_self (d : Dev) (b r : Nat) (f : Ring → Ring) : (d.modRing b r f).ring b r = f (d.ring b r) := by
  unfold Dev.modRing Dev.ring
  rw [modBank_bank_self]
  exact Tab.get_mod_self _ _ _ _

theorem modRing_ring_of_ne (d : Dev) (b : Nat) {r k : Nat} (ne : k ≠ r) (f : Ring → Ring) : (d.modRing b r f).ring b k = d.ring b k := by
  unfold Dev.modRing Dev.ring
  rw [modBank_bank_self]
  exact Tab.get_mod_of_ne _ _ ne _

theorem modRing_keeps (d : Dev) (b r : Nat) (f : Ring → Ring) : SameBut [.banks] d (d.modRing b r f) := modBank_keeps _ _ _
theorem modTdc_keeps (d : Dev) (b x : Nat) (f : Tdc → Tdc) : SameBut [.banks] d (d.modTdc b x f) := modBank_keeps _ _ _

/-! ### What the command in flight sees of a change -/

/-- Two devices agree on the commands in flight and on the way to the Completion Ring. -/
structure Quiet (d e : Dev) : Prop where
  flights : e.ctl.flights = d.ctl.flights
  path : e.cplPath = d.cplPath

theorem Quiet.refl (d : Dev) : Quiet d d := ⟨rfl, rfl⟩
theorem Quiet.trans {a b c : Dev} (x : Quiet a b) (y : Quiet b c) : Quiet a c := ⟨y.flights.trans x.flights, y.path.trans x.path⟩
theorem Quiet.of_ctl {a b : Dev} (h : b.ctl = a.ctl) : Quiet a b := ⟨congrArg Ctl.flights h, by simp only [Dev.cplPath, h]⟩
theorem packet_quiet (d : Dev) (p : Packet) : Quiet d (d.packet p) := ⟨rfl, rfl⟩
theorem linkOut_quiet (d : Dev) (m : LinkMsg) : Quiet d (d.linkOut m) := ⟨rfl, rfl⟩
theorem pushLog_quiet (d : Dev) (i : LogItem) : Quiet d (d.pushLog i) := ⟨rfl, rfl⟩
theorem postAt_quiet (d : Dev) (a b : Nat) (x : List Int) (e : BitVec 16) (t : Nat) (q : BitVec 4) : Quiet d (d.postAt a b x e t q) :=
  ⟨postAt_flights .., postAt_cplPath ..⟩

theorem foldl_quiet {α : Type} {f : Dev → α → Dev} (h : ∀ d x, Quiet d (f d x)) (l : List α) (d : Dev) : Quiet d (l.foldl f d) :=
  ⟨foldl_leaves (fun d => d.ctl.flights) (fun d x => (h d x).flights) l d, foldl_leaves Dev.cplPath (fun d x => (h d x).path) l d⟩

/-- A tag that no command in flight carries finishes nothing. -/
theorem finish_of_absent {d : Dev} {g : Tag} (absent : d.flight g = none) (c : Cpl) : d.finish g c = d := by rw [Dev.finish, absent]

theorem flight_of_flights {d e : Dev} (h : e.ctl.flights = d.ctl.flights) (g : Tag) : e.flight g = d.flight g := by
  rw [Dev.flight, h, Dev.flight]

theorem takenUp_flight_of_ne {s : State} {h : Hdr} (i : Idle s h) (op : BitVec 16) {g : Tag} (ne : g ≠ h.tag) :
    (s.dev.takenUp h op).flight g = none := by
  simp [Dev.flight, takenUp_flights i, newFlight, ne.symm]

section
variable {s : State} {h : Hdr} (i : Idle s h) (op : BitVec 16) {d : Dev} (q : Quiet (s.dev.takenUp h op) d)
include i q

/-- A command that ends with a completion after a change that the way to the ring does not see. -/
theorem Quiet.finishes (c : Cpl) (own : c.own = false ∨ s.dev.tl.rewind = none ∧ d.tl.rewind = none) (fwd : c.fwd = false)
    (fin : c.fin = true) (n : op ≠ 0x0100 ∨ c.resp = []) :
    Answers s { s with dev := ((d.accept h.tag).finish h.tag c).commit } h op c.status c.resp :=
  (finish_ended_newFlight (accept_flights_newFlight (q.flights.trans (takenUp_flights i op))) c
    (own.imp id fun r => .inl r.2) fwd fin).answers i
    ((finish_cplPath_of (accept_flights_newFlight (q.flights.trans (takenUp_flights i op))) rfl c).trans
      (q.path.trans (takenUp_cplPath i op))) n

theorem Quiet.answers_ok : Answers s { s with dev := (d.ok h.tag).commit } h op stOk [] :=
  q.finishes i op {} (.inl rfl) rfl rfl (.inr rfl)

theorem Quiet.answers_okResp (r : List Int) (n : op ≠ 0x0100 ∨ r = []) : Answers s { s with dev := (d.okResp h.tag r).commit } h op stOk r :=
  q.finishes i op { resp := r } (.inl rfl) rfl rfl n

theorem Quiet.answers_refuse (st : BitVec 4) (a b c : Nat) :
    Answers s { s with dev := (d.refuse h.tag st a b c).commit } h op st [] := by
  have flights := q.flights.trans (takenUp_flights i op)
  unfold Dev.refuse
  exact (finish_ended flights rfl rfl rfl rfl _ (.inl rfl) rfl rfl).answers i
    ((finish_cplPath_of flights rfl _).trans (q.path.trans (takenUp_cplPath i op))) (.inr rfl)

omit q in
/-- A command that has been accepted and waits, after a change that the way to the ring does not see. -/
theorem Quiet.waits {e : Dev} (q : Quiet ((s.dev.takenUp h op).accept h.tag) e) : Waits s { s with dev := e.commit } h op :=
  waits_of_flights i (q.path.trans ((accept_cplPath _ _).trans (takenUp_cplPath i op)))
    (q.flights.trans (accept_flights_newFlight (takenUp_flights i op)))

end

end Sys2Proof.Machine
end


section
/-!
PROOFS. The DSP commands (R274 to R277, R284 to R291): lanes are claimed, loaded, read, run and stopped.
-/
namespace Sys2Proof.Machine

section
variable {s : State} {h : Hdr} (i : Idle s h) (b : BitVec 4)

/-- A setting of one lane that is in force at once. -/
theorem lane_ends (i : Idle s h) (op : BitVec 16) (c : opClass op ≠ 0) (k : Nat) (f : Lane → Lane) :
    let t := { s with dev := (((s.dev.takenUp h op).modLane k f).ok h.tag).commit }
    Keeps [.banks] s t ∧ Answers s t h op stOk [] ∧ t.dev.lane k = f (s.dev.lane k) := by
  obtain ⟨frame, answer⟩ := ok_ends i op c (d := (s.dev.takenUp h op).modLane k f) rfl (modLane_keeps _ _ _)
  exact ⟨frame, answer, by rw [commit_lane, ok_lane, modLane_lane_self, takenUp_lane]⟩

include i

/-! ### DSP.CLAIM -/

theorem dspClaim_claims {o : OwnerArg} (present : (s.dev.lane b.toNat).absent = false)
    (free : (s.dev.lane b.toNat).owner = none ∨ (s.dev.lane b.toNat).owner = some (capOwner o))
    (own : ∀ t, o = .thread t → t.toNat / 4 = b.toNat) :
    ∃ t, exec (.dspClaim h b (some o)) s = .next t ∧ Keeps [.banks] s t ∧ Answers s t h 0x0900 stOk [] ∧
      t.dev.lane b.toNat = { s.dev.lane b.toNat with owner := some (capOwner o) } := by
  refine ⟨_, hostCmd_runs i 0x0900 ?_, lane_ends i 0x0900 (by decide) b.toNat fun l => { l with owner := some (capOwner o) }⟩
  have clash : (s.dev.lane b.toNat).owner.any (fun x => x != capOwner o) = false := by
    rcases free with free | free <;> simp [free]
  dsimp only
  rw [takenUp_lane, present, clash]
  cases o with
  | host => rfl
  | thread t =>
    dsimp only
    rw [decide_eq_false (not_not.2 (own t rfl))]
    rfl

theorem dspClaim_denied (o : Option OwnerArg) (absent : (s.dev.lane b.toNat).absent = true) :
    ∃ t, exec (.dspClaim h b o) s = .next t ∧ Keeps [] s t ∧ Answers s t h 0x0900 stDenied [] := by
  refine ⟨_, hostCmd_runs i 0x0900 ?_, refused_ends i 0x0900 (by decide) stDenied b.toNat 0 0⟩
  dsimp only
  rw [takenUp_lane, absent]
  cases o <;> rfl

theorem dspClaim_releases (present : (s.dev.lane b.toNat).absent = false) (rests : (s.dev.lane b.toNat).run = none) :
    ∃ t, exec (.dspClaim h b none) s = .next t ∧ Keeps [.banks] s t ∧ Answers s t h 0x0900 stOk [] ∧
      t.dev.lane b.toNat = { s.dev.lane b.toNat with owner := none } := by
  refine ⟨_, hostCmd_runs i 0x0900 ?_, lane_ends i 0x0900 (by decide) b.toNat fun l => { l with owner := none }⟩
  dsimp only
  rw [takenUp_lane, present, rests]
  rfl

/-! ### DSP.KLOAD -/

omit b in
theorem dspKload_loads {words : List (BitVec 64)} {table : List (BitVec 8 × BitVec 11)} (rest : ∀ k, k < 16 → (s.dev.lane k).run = none)
    (good : kernelImageGood words table = true) :
    ∃ t, exec (.dspKload h words table) s = .next t ∧ Keeps [.dsp] s t ∧ Answers s t h 0x0901 stOk [] ∧
      (∀ i, i < words.length → t.dev.dsp.p.get 0 (1024 + i) = words.getD i 0) ∧
      ∀ i, i < 1024 → t.dev.dsp.p.get 0 i = s.dev.dsp.p.get 0 i := by
  obtain ⟨frame, answer⟩ := ok_ends i 0x0901 (by decide) (d := { s.dev.takenUp h 0x0901 with dsp := { (s.dev.takenUp h 0x0901).dsp with
    p := (s.dev.takenUp h 0x0901).dsp.p.fill 0 1024 words
    kernels := table.foldl (fun t e => t.set none e.1.toNat (some e.2)) .empty } }) rfl (setDsp_keeps _ _)
  have idle : ((List.range 16).any fun b => ((s.dev.takenUp h 0x0901).lane b).run.isSome) = false := by
    rw [List.any_eq_false]
    intro k mem
    rw [takenUp_lane, rest k (List.mem_range.1 mem)]
    simp
  refine ⟨_, hostCmd_runs i 0x0901 ?_, frame, answer, fun k less => ?_, fun k less => ?_⟩
  · dsimp only
    rw [good, idle]
    rfl
  · dsimp only
    rw [commit_dsp, Dev.ok_dsp, Tab.get_fill, if_pos (by omega), Nat.add_sub_cancel_left]
  · dsimp only
    rw [commit_dsp, Dev.ok_dsp, Tab.get_fill, if_neg (by omega), takenUp_dsp]

omit b in
theorem dspKload_refuses {words : List (BitVec 64)} {table : List (BitVec 8 × BitVec 11)} (bad : kernelImageGood words table = false) :
    ∃ t, exec (.dspKload h words table) s = .next t ∧ Keeps [] s t ∧ Answers s t h 0x0901 stBadarg [] := by
  refine ⟨_, hostCmd_runs i 0x0901 ?_, refused_ends i 0x0901 (by decide) stBadarg 0 0 0⟩
  dsimp only
  rw [bad]
  rfl

/-! ### DSP.MEM and DSP.READ -/

omit i b in
theorem takenUp_laneBusy (op : BitVec 16) (k : Nat) : (s.dev.takenUp h op).laneBusy k = s.dev.laneBusy k := by
  rw [Dev.laneBusy, takenUp_lane, Dev.laneBusy]

theorem dspMem_writes (y : Bool) {first : Nat} {words : List (BitVec 48)} (room : first + words.length ≤ 8192)
    (idle : s.dev.laneBusy b.toNat = false) :
    ∃ t, exec (.dspMem h b y first words) s = .next t ∧ Keeps [.banks] s t ∧ Answers s t h 0x0902 stOk [] ∧
      t.dev.lane b.toNat = if y then { s.dev.lane b.toNat with y := (s.dev.lane b.toNat).y.fill 0 first words }
        else { s.dev.lane b.toNat with x := (s.dev.lane b.toNat).x.fill 0 first words } := by
  refine ⟨_, hostCmd_runs i 0x0902 ?_, lane_ends i 0x0902 (by decide) b.toNat fun l =>
    if y then { l with y := l.y.fill 0 first words } else { l with x := l.x.fill 0 first words }⟩
  dsimp only
  rw [if_neg (by omega), takenUp_laneBusy, idle]
  rfl

theorem dspRead_reads (y : Bool) {first count : Nat} (some_ : 1 ≤ count) (room : first + count ≤ 8192)
    (idle : s.dev.laneBusy b.toNat = false) :
    ∃ t, exec (.dspRead h b y first count) s = .next t ∧ Keeps [] s t ∧ Answers s t h 0x0905 stOk ((List.range count).map fun i =>
      (((if y then (s.dev.lane b.toNat).y else (s.dev.lane b.toNat).x).get 0 (first + i)).toNat : Int)) := by
  refine ⟨_, hostCmd_runs i 0x0905 ?_, keeps_of_takenUp (op := 0x0905) (by decide) (okResp_keeps _ _ _ _),
    answers_okResp i 0x0905 _ _ rfl (.inl (by decide))⟩
  dsimp only
  rw [if_neg (by omega), takenUp_laneBusy, idle, takenUp_lane]
  simp only [Bool.false_eq_true, if_false, Tab.range, List.map_map]
  rfl

/-! ### DSP.RUN -/

/-- What a DSP.RUN asks for, before it is given its start. -/
def askedRun (d : Dev) (g : Tag) (kernel : BitVec 8) (ops : List Nat) (input : BitVec 2) (src : BitVec 6) (ch : BitVec 5) (nominal : Int)
    (tapOnly toX : Bool) (bind : Option (BitVec 3)) : Run :=
  { tag := g, kernel := kernel, ops := ops, input := input, src := src, ch := ch, nominal := nominal, tapOnly := tapOnly, toX := toX
    bind := bind, epoch := d.tl.epoch }

/-- A lane that has been given a run. -/
def Lane.given (x : Run) (l : Lane) : Lane := { l with run := some x }

/-- A run that starts at a stamp. -/
def Run.startingAt (x : Run) (e : BitVec 16) (st : Nat) (late : Bool) : Run := { x with startAt := st, epoch := e, late := late }

section
variable {kernel : BitVec 8} {ops : List Nat} {input : BitVec 2} {src : BitVec 6} {ch : BitVec 5} (nominal : Int) (tapOnly toX : Bool)
  (present : (s.dev.lane b.toNat).absent = false) (owned : (s.dev.lane b.toNat).owner.isSome = true)
  (clash : s.dev.tapClash b.toNat input src.toNat = false) (known : s.dev.kernelBad kernel ops input = false)
  (tap : s.dev.tapBad b.toNat input src.toNat ch.toNat = false) (rests : (s.dev.lane b.toNat).run = none)
include present owned clash known tap rests

omit i in
/-- None of the checks of DSP.RUN fails. -/
theorem dspRun_checked {bad : Bool} (good : bad = false) (holder : Nat) : worst [
    failAt ((s.dev.takenUp h 0x0903).lane b.toNat).absent stDenied b.toNat,
    failAt (((s.dev.takenUp h 0x0903).lane b.toNat).owner.isSome && (s.dev.takenUp h 0x0903).tapClash b.toNat input src.toNat) stConflict
      src.toNat holder,
    badArgs [(0, ((s.dev.takenUp h 0x0903).lane b.toNat).owner.isNone), (1, (s.dev.takenUp h 0x0903).kernelBad kernel ops input),
      (3, (s.dev.takenUp h 0x0903).tapBad b.toNat input src.toNat ch.toNat), (6, bad)],
    failAt ((s.dev.takenUp h 0x0903).lane b.toNat).run.isSome stBusy b.toNat] = none := by
  have c := (takenUp_view (Dev.tapClash · b.toNat input src.toNat) (fun _ _ _ _ => rfl) s.dev h 0x0903).trans clash
  have k := (takenUp_view (Dev.kernelBad · kernel ops input) (fun _ _ _ _ => rfl) s.dev h 0x0903).trans known
  have t := (takenUp_view (Dev.tapBad · b.toNat input src.toNat ch.toNat) (fun _ _ _ _ => rfl) s.dev h 0x0903).trans tap
  have o : (s.dev.lane b.toNat).owner.isNone = false := by rw [Option.isNone_eq_false_iff]; exact owned
  rw [c, k, t, takenUp_lane, present, rests, o, good, worst_eq_none]
  simp [failAt, badArgs, badArg]

theorem dspRun_binds (r : BitVec 3) (defined : (s.dev.ring b.toNat r.toNat).len ≠ 0) :
    ∃ t x, exec (.dspRun h b kernel ops input src ch nominal tapOnly toX (.ring r)) s = .next t ∧ Keeps [.banks] s t ∧
      Waits s t h 0x0903 ∧ (t.dev.lane b.toNat).run = some x ∧ x.tag = h.tag ∧ x.kernel = kernel ∧ x.ops = ops ∧
      x.bind = some r ∧ x.active = false := by
  refine ⟨_, askedRun (s.dev.takenUp h 0x0903) h.tag kernel ops input src ch nominal tapOnly toX (some r),
    hostCmd_runs i 0x0903 (d := ((s.dev.takenUp h 0x0903).accept h.tag).modLane b.toNat
      (Lane.given (askedRun (s.dev.takenUp h 0x0903) h.tag kernel ops input src ch nominal tapOnly toX (some r)))) ?_,
    keeps_of_takenUp (op := 0x0903) (by decide) ((accept_keeps _ _ _).trans (modLane_keeps _ _ _)), Quiet.waits i 0x0903 (.of_ctl rfl),
    ?_, rfl, rfl, rfl, rfl, rfl⟩
  · dsimp only
    rw [dspRun_checked b present owned clash known tap rests (decide_eq_false (by rw [takenUp_bankRing]; exact defined))]
    rfl
  · rw [commit_lane, modLane_lane_self, Lane.given]

theorem dspRun_starts {w : When} {e : BitVec 16} {st : Nat} {late : Bool} (place : (s.dev.advance h.t).schedule w clk false = .ok (e, st, late)) :
    ∃ t x, exec (.dspRun h b kernel ops input src ch nominal tapOnly toX (.stamp w)) s = .next t ∧
      Keeps [.banks, .tl] s t ∧ Waits s t h 0x0903 ∧ (t.dev.lane b.toNat).run = some x ∧ x.tag = h.tag ∧
      x.kernel = kernel ∧ x.ops = ops ∧ x.bind = none ∧ x.startAt = st ∧ x.epoch = e ∧ x.active = false ∧
      t.dev.tl.acts = s.dev.tl.acts ++ [{ tag := h.tag, kind := .dspRun, epoch := e, stamp := st }] := by
  have placed := (schedule_of_tl (takenUp_tl s.dev h 0x0903) w clk false).trans place
  refine ⟨_, (askedRun (s.dev.takenUp h 0x0903) h.tag kernel ops input src ch nominal tapOnly toX none).startingAt e st late,
    hostCmd_runs i 0x0903 (d := (((s.dev.takenUp h 0x0903).accept h.tag).addAct
      { tag := h.tag, kind := .dspRun, epoch := e, stamp := st }).modLane b.toNat
        (Lane.given ((askedRun (s.dev.takenUp h 0x0903) h.tag kernel ops input src ch nominal tapOnly toX none).startingAt e st late))) ?_,
    keeps_of_takenUp (op := 0x0903) (by decide) (((accept_keeps _ _ _).trans ((addAct_keeps _ _).mono (by simp))).trans
      ((modLane_keeps _ _ _).mono (by simp))), Quiet.waits i 0x0903 (.of_ctl rfl), ?_, rfl, rfl, rfl, rfl, rfl, rfl, rfl, ?_⟩
  · dsimp only
    rw [dspRun_checked b present owned clash known tap rests rfl, placed]
    rfl
  · rw [commit_lane, modLane_lane_self, Lane.given]
  · rw [commit_tl]
    refine congrArg (· ++ _) ?_
    rw [Dev.accept_tl, takenUp_acts]

end

end

/-! ### The end of a run (R286, R288, R289) -/

/-- A run that has saturated is counted (R280). -/
def Dev.countSat (d : Dev) (r : Run) : Dev :=
  if r.sat ∧ r.active then { d with dsp := { d.dsp with satRuns := satAdd (2 ^ 32 - 1) d.dsp.satRuns 1 } } else d

/-- The output of a run goes to X memory or to the Carafe (R288). -/
def Dev.runOutput (d : Dev) (b : Nat) (r : Run) (out : List (BitVec 64)) (cut : Bool) : Dev :=
  if !r.active then d
  else if r.toX then
    d.modLane b fun l => { l with x := l.x.fill 0 (l.ar.get ({} : AddrReg) 0).base.toNat (out.map r.toWord) }
  else (d.runItems b r out cut).foldl (fun d p => d.packet p) d

/-- A lane that a run has left. -/
def Lane.swept (l : Lane) : Lane := { l with q := [], tap := [], words := [], out := [], loops := [] }

/-- A lane without a run. -/
def Lane.idled (l : Lane) : Lane := { l with run := none }

/-- A device whose lane a run has left. -/
def Dev.runLeft (d : Dev) (b : Nat) (r : Run) (halted cut : Bool) : Dev :=
  (((d.countSat r).runOutput b r (if halted then (d.lane b).out else []) cut).modLane b Lane.swept).modLane b Lane.idled

/-- The completion of a run that has ended. -/
def Run.completion (r : Run) (epoch : BitVec 16) (st : BitVec 4) : Cpl :=
  if st = stOk then stamped { late := r.late } r.tq epoch r.ended else { status := st }

theorem endRun_eq {d : Dev} {b : Nat} {r : Run} (run : (d.lane b).run = some r) (halted cut : Bool) (st : BitVec 4) {stay : Bool}
    (leaves : ¬ (stay ∧ r.bind.isSome)) : d.endRun b halted cut st stay =
      ((d.runLeft b r halted cut).dropActs r.tag).finish r.tag (r.completion (d.runLeft b r halted cut).tl.epoch st) := by
  unfold Dev.endRun
  rw [run]
  exact if_neg leaves

/-- A change that leaves a lane's owner, Y memory and accumulators, and the device outside banks, timeline and DSP. -/
structure RunStep (b : Nat) (d e : Dev) : Prop where
  frame : SameBut [.banks, .tl, .dsp] d e
  owner : (e.lane b).owner = (d.lane b).owner
  y : (e.lane b).y = (d.lane b).y
  acc : (e.lane b).acc = (d.lane b).acc

theorem RunStep.refl (b : Nat) (d : Dev) : RunStep b d d := ⟨SameBut.refl _ _, rfl, rfl, rfl⟩
theorem RunStep.trans {b : Nat} {c d e : Dev} (x : RunStep b c d) (z : RunStep b d e) : RunStep b c e :=
  ⟨x.frame.trans z.frame, z.owner.trans x.owner, z.y.trans x.y, z.acc.trans x.acc⟩

theorem runStep_of_banks {b : Nat} {d e : Dev} (frame : SameBut [.banks, .tl, .dsp] d e) (same : e.banks = d.banks) : RunStep b d e :=
  ⟨frame, by rw [lane_of_banks same], by rw [lane_of_banks same], by rw [lane_of_banks same]⟩

theorem runStep_modLane (d : Dev) (b : Nat) (f : Lane → Lane) (owner : ∀ l, (f l).owner = l.owner) (y : ∀ l, (f l).y = l.y)
    (acc : ∀ l, (f l).acc = l.acc) : RunStep b d (d.modLane b f) :=
  ⟨(modLane_keeps d b f).mono (by simp), by rw [modLane_lane_self, owner], by rw [modLane_lane_self, y], by rw [modLane_lane_self, acc]⟩

theorem countSat_runStep (d : Dev) (b : Nat) (r : Run) : RunStep b d (d.countSat r) := by
  unfold Dev.countSat
  split
  · exact runStep_of_banks ((setDsp_keeps _ _).mono (by simp)) rfl
  · exact .refl _ _

theorem foldl_packet_banks (l : List Packet) (d : Dev) : (l.foldl (fun d p => d.packet p) d).banks = d.banks :=
  foldl_leaves Dev.banks (f := fun d p => d.packet p) (fun _ _ => rfl) l d

theorem foldl_packet_keeps (parts : List Part) (l : List Packet) (d : Dev) : SameBut parts d (l.foldl (fun d p => d.packet p) d) := by
  induction l generalizing d with
  | nil => exact SameBut.refl _ _
  | cons p l ih => exact (packet_keeps _ _ _).trans (ih _)

theorem runOutput_runStep (d : Dev) (b : Nat) (r : Run) (out : List (BitVec 64)) (cut : Bool) :
    RunStep b d (d.runOutput b r out cut) := by
  unfold Dev.runOutput
  split_ifs
  · exact .refl _ _
  · exact runStep_modLane _ _ _ (fun _ => rfl) (fun _ => rfl) fun _ => rfl
  · exact runStep_of_banks (foldl_packet_keeps _ _ _) (foldl_packet_banks _ _)

theorem runLeft_runStep (d : Dev) (b : Nat) (r : Run) (halted cut : Bool) : RunStep b d (d.runLeft b r halted cut) :=
  ((countSat_runStep d b r).trans (runOutput_runStep _ b r _ cut)).trans
    ((runStep_modLane _ _ Lane.swept (fun _ => rfl) (fun _ => rfl) fun _ => rfl).trans
      (runStep_modLane _ _ Lane.idled (fun _ => rfl) (fun _ => rfl) fun _ => rfl))

theorem runLeft_run (d : Dev) (b : Nat) (r : Run) (halted cut : Bool) : ((d.runLeft b r halted cut).lane b).run = none := by
  unfold Dev.runLeft
  rw [modLane_lane_self]
  rfl

theorem endRun_runStep {d : Dev} {b : Nat} {r : Run} (run : (d.lane b).run = some r) (halted cut : Bool) (st : BitVec 4) {stay : Bool}
    (leaves : ¬ (stay ∧ r.bind.isSome)) :
    RunStep b d (d.endRun b halted cut st stay) ∧ ((d.endRun b halted cut st stay).lane b).run = none := by
  have left := runLeft_runStep d b r halted cut
  have gone := runLeft_run d b r halted cut
  rw [endRun_eq run halted cut st leaves]
  generalize d.runLeft b r halted cut = e at left gone
  have banks : ((e.dropActs r.tag).finish r.tag (r.completion e.tl.epoch st)).banks = e.banks := Dev.finish_banks _ _ _
  exact ⟨left.trans (runStep_of_banks (((setTl_keeps _ _).mono (by simp)).trans (finish_keeps _ (e.dropActs r.tag) _ _)) banks),
    by rw [lane_of_banks banks, gone]⟩

theorem runOutput_quiet (d : Dev) (b : Nat) (r : Run) (out : List (BitVec 64)) (cut : Bool) : Quiet d (d.runOutput b r out cut) := by
  unfold Dev.runOutput
  split_ifs
  exacts [.refl _, .of_ctl rfl, foldl_quiet packet_quiet _ _]

/-- The end of a run whose command is not in flight says nothing to the commands in flight. -/
theorem endRun_quiet {d : Dev} {b : Nat} {r : Run} (run : (d.lane b).run = some r) (absent : d.flight r.tag = none) (halted cut : Bool)
    (st : BitVec 4) {stay : Bool} (leaves : ¬ (stay ∧ r.bind.isSome)) : Quiet d (d.endRun b halted cut st stay) := by
  have counted : Quiet d (d.countSat r) := by
    unfold Dev.countSat
    split <;> exact .of_ctl rfl
  have left : Quiet d (d.runLeft b r halted cut) :=
    (counted.trans (runOutput_quiet (d.countSat r) b r (if halted then (d.lane b).out else []) cut)).trans (.of_ctl rfl)
  rw [endRun_eq run halted cut st leaves]
  generalize d.runLeft b r halted cut = e at left
  rw [finish_of_absent ((flight_of_flights (e := e.dropActs r.tag) left.flights r.tag).trans absent)]
  exact left.trans (.of_ctl rfl)

/-! ### DSP.STOP and DSP.STATE -/

section
variable {s : State} {h : Hdr} (i : Idle s h) (b : BitVec 4)
include i

theorem dspStop_stops {r : Run} (run : (s.dev.lane b.toNat).run = some r) (other : r.tag ≠ h.tag) :
    ∃ t, exec (.dspStop h b) s = .next t ∧ Keeps [.banks, .tl, .dsp] s t ∧ Answers s t h 0x0904 stOk [] ∧
      (t.dev.lane b.toNat).run = none ∧ (t.dev.lane b.toNat).owner = (s.dev.lane b.toNat).owner := by
  let d : Dev := (s.dev.takenUp h 0x0904).modLane b.toNat fun l => { l with run := l.run.map fun r =>
    { r with ended := nextClock (s.dev.takenUp h 0x0904).tl.now } }
  have running : (d.lane b.toNat).run = some { r with ended := nextClock (s.dev.takenUp h 0x0904).tl.now } := by
    rw [modLane_lane_self, takenUp_lane, run]
    rfl
  have step : RunStep b.toNat (s.dev.takenUp h 0x0904) d := runStep_modLane _ _ _ (fun _ => rfl) (fun _ => rfl) fun _ => rfl
  obtain ⟨ends, gone⟩ := endRun_runStep running false true stAborted (stay := false) (by simp)
  have set : Quiet (s.dev.takenUp h 0x0904) d := .of_ctl rfl
  have absent : d.flight r.tag = none := (flight_of_flights set.flights r.tag).trans (takenUp_flight_of_ne i 0x0904 other)
  have quiet := set.trans (endRun_quiet running absent false true stAborted (stay := false) (by simp))
  have whole := step.trans ends
  have runs : exec (.dspStop h b) s = .next { s with dev := ((d.endRun b.toNat false true stAborted false).ok h.tag).commit } := by
    refine hostCmd_runs i 0x0904 ?_
    dsimp only
    rw [takenUp_lane, run]
    rfl
  generalize d.endRun b.toNat false true stAborted false = e at runs whole quiet gone
  refine ⟨_, runs, keeps_of_takenUp (op := 0x0904) (by decide) (whole.frame.trans (ok_keeps _ _ _)), quiet.answers_ok i, ?_, ?_⟩
  · rw [commit_lane, ok_lane, gone]
  · rw [commit_lane, ok_lane, whole.owner, takenUp_lane]

theorem dspStop_refuses (rests : (s.dev.lane b.toNat).run = none) :
    ∃ t, exec (.dspStop h b) s = .next t ∧ Keeps [] s t ∧ Answers s t h 0x0904 stBadarg [] := by
  refine ⟨_, hostCmd_runs i 0x0904 ?_, refused_ends i 0x0904 (by decide) stBadarg 0 0 0⟩
  dsimp only
  rw [takenUp_lane, rests]
  rfl

theorem dspState_answers : ∃ t r, exec (.dspState h b) s = .next t ∧ Keeps [] s t ∧ Answers s t h 0x0906 stOk r ∧
    r.length = 7 + 2 * s.dev.dsp.kernels.cells.length := by
  refine ⟨_, _, hostCmd_runs i 0x0906 rfl, keeps_of_takenUp (op := 0x0906) (by decide) (okResp_keeps _ _ _ _),
    answers_okResp i 0x0906 _ _ rfl (.inl (by decide)), ?_⟩
  rw [takenUp_dsp, List.length_append, length_flatMap_of _ _ (n := 2) fun _ => rfl]
  simp only [List.length_cons, List.length_nil]
  omega

end

end Sys2Proof.Machine
open Sys2Proof Sys2Proof.Machine

/-- Settles O55, by what each command leaves of its lane, and by the rule of a run's end. -/
theorem dspCommands : Obligations.DspCommands := by
  unfold Obligations.DspCommands
  intro s h b i
  refine ⟨fun o present free own => dspClaim_claims i b present free own, fun o absent => dspClaim_denied i b o absent,
    fun present rests => dspClaim_releases i b present rests, fun words table rest => ⟨dspKload_loads i rest, dspKload_refuses i⟩, ?_, ?_,
    fun y first count some_ room idle => dspRead_reads i b y some_ room idle,
    fun kernel ops input src ch nominal tapOnly toX present owned clash known tap rests =>
      ⟨fun r defined => dspRun_binds i b nominal tapOnly toX present owned clash known tap rests r defined,
        fun w e st late place => dspRun_starts i b nominal tapOnly toX present owned clash known tap rests place⟩,
    fun r run other => dspStop_stops i b run other, fun rests => dspStop_refuses i b rests, dspState_answers i b⟩
  · intro first words room idle
    obtain ⟨t, runs, frame, answer, lane⟩ := dspMem_writes i b false room idle
    rw [if_neg Bool.false_ne_true] at lane
    exact ⟨t, runs, frame, answer, by rw [lane], fun k => by rw [lane]; exact Tab.get_fill ..⟩
  · intro first words room idle
    obtain ⟨t, runs, frame, answer, lane⟩ := dspMem_writes i b true room idle
    rw [if_pos rfl] at lane
    exact ⟨t, runs, frame, answer, by rw [lane], fun k => by rw [lane]; exact Tab.get_fill ..⟩

end


section
/-!
PROOFS. The events of a DSP lane (R277 to R289): the start of a run, its input, its instructions and its end.
-/
namespace Sys2Proof.Machine

theorem advance_lane (d : Dev) (n k : Nat) : (d.advance n).lane k = d.lane k := lane_of_banks (d.advance_banks n) k

/-! ### The start of a run -/

/-- A run that starts (R285). -/
def Run.started (r : Run) (d : Dev) : Run :=
  { r with active := true, due := false, taken := 0, busy := 0, tapEnd := none, tq := d.tl.tq, throttled := d.hk.hot }

/-- A lane whose run starts (R285). -/
def Lane.starting (r : Run) (d : Dev) (l : Lane) : Lane := { l with
  theta := 0, thetaSet := false, ftw := if r.kernel = 1 ∨ r.kernel = 2 then BitVec.ofNat 32 (r.ops.getD 0 0) else l.ftw
  pc := (d.dsp.kernels.get none r.kernel.toNat).getD 0, loops := [], tap := [], q := [], words := [], out := []
  run := some (r.started d) }

/-- A run that starts at a stamp leaves the scheduled actions. -/
def Dev.runDropped (d : Dev) (r : Run) : Dev := if r.bind.isNone then d.dropAct r.tag .dspRun else d

theorem runDropped_keeps (d : Dev) (r : Run) : SameBut [.tl] d (d.runDropped r) := by
  unfold Dev.runDropped
  split
  exacts [setTl_keeps _ _, SameBut.refl _ _]

theorem runDropped_lane (d : Dev) (r : Run) (k : Nat) : (d.runDropped r).lane k = d.lane k := by
  unfold Dev.runDropped
  split <;> rfl

section
variable {s : State} {b : BitVec 4} {r : Run} (run : (s.dev.lane b.toNat).run = some r)
include run

theorem dspRunStart_starts (rewind : s.dev.tl.rewind = none) (rests : r.active = false) (due : r.bind = none ∨ r.due = true)
    (epoch : r.epoch = s.dev.tl.epoch) :
    ∃ t x, exec (.dspRunStart b) s = .next t ∧ Keeps [.banks, .tl] s t ∧ (t.dev.lane b.toNat).run = some x ∧
      x.active = true ∧ x.taken = 0 ∧ x.kernel = r.kernel ∧ x.startAt = r.startAt ∧ (t.dev.lane b.toNat).theta = 0 ∧
      (t.dev.lane b.toNat).q = [] ∧ (t.dev.lane b.toNat).out = [] ∧ (t.dev.lane b.toNat).x = (s.dev.lane b.toNat).x := by
  let e : Dev := (s.dev.advance r.startAt).runDropped r
  have runs : exec (.dspRunStart b) s = .next { s with dev := (e.modLane b.toNat (Lane.starting r e)).commit } := by
    refine (onDev_runs ?_ : execDspRunStart b s = _)
    dsimp only
    rw [run]
    dsimp only
    rw [if_neg (by rcases due with due | due <;> simp [rests, epoch, due]), due_of_no_rewind rewind]
    rfl
  have frame : SameBut [.banks, .tl] s.dev (e.modLane b.toNat (Lane.starting r e)) :=
    advance_keeps_trans r.startAt (((runDropped_keeps _ _).mono (by simp)).trans ((modLane_keeps _ _ _).mono (by simp)))
  have before : e.lane b.toNat = s.dev.lane b.toNat := by rw [runDropped_lane, advance_lane]
  generalize e = e at runs frame before
  have lane : (e.modLane b.toNat (Lane.starting r e)).commit.lane b.toNat = Lane.starting r e (s.dev.lane b.toNat) := by
    rw [commit_lane, modLane_lane_self, before]
  exact ⟨_, r.started e, runs, keeps_commit frame, by rw [lane, Lane.starting], rfl, rfl, rfl, rfl, by rw [lane, Lane.starting],
    by rw [lane, Lane.starting], by rw [lane, Lane.starting], by rw [lane, Lane.starting]⟩

/-! ### The input queue -/

/-- A run that a word of its tap has reached. -/
def Run.fed (r : Run) (stamp : Nat) (gapped : Bool) (tq : BitVec 4) : Run :=
  { r with gapped := r.gapped || gapped, first := some (r.first.getD stamp), tq := r.tq ||| tq }

/-- A word that the kernel of a customer's run takes: the input queue holds 256 words. -/
theorem dspInputWord_queues {st z : Nat} {v : Int} {g : Bool} {rest : List (Nat × Nat × Int × Bool)}
    (tap : (s.dev.lane b.toNat).tap = (st, z, v, g) :: rest) (custom : 0x40 ≤ r.kernel.toNat) (room : (s.dev.lane b.toNat).q.length < 256) :
    ∃ t, exec (.dspInputWord b) s = .next t ∧ Keeps [.banks] s t ∧ (t.dev.lane b.toNat).tap = rest ∧
      (t.dev.lane b.toNat).q = (s.dev.lane b.toNat).q ++ [(dataWord (clip 24 v) 0, z)] := by
  let f : Lane → Lane := fun l => { l with tap := rest, q := l.q ++ [(dataWord (clip 24 v) 0, z)], run := some (r.fed st g s.dev.tl.tq) }
  have runs : exec (.dspInputWord b) s = .next { s with dev := (s.dev.modLane b.toNat f).commit } := by
    refine (onDev_runs ?_ : execDspInputWord b s = _)
    dsimp only
    rw [run, tap]
    dsimp only
    rw [decide_eq_false (by omega : ¬ r.kernel.toNat < 0x40), Bool.false_and, if_neg Bool.false_ne_true, if_neg (by omega)]
    rfl
  refine ⟨_, runs, keeps_commit (modLane_keeps _ _ _), ?_, ?_⟩ <;> dsimp only <;> rw [commit_lane, modLane_lane_self]

theorem dspInputWord_drops {st z : Nat} {v : Int} {g : Bool} {rest : List (Nat × Nat × Int × Bool)}
    (tap : (s.dev.lane b.toNat).tap = (st, z, v, g) :: rest) (custom : 0x40 ≤ r.kernel.toNat) (full : 256 ≤ (s.dev.lane b.toNat).q.length) :
    ∃ t x, exec (.dspInputWord b) s = .next t ∧ Keeps [.banks, .dsp] s t ∧ (t.dev.lane b.toNat).tap = rest ∧
      (t.dev.lane b.toNat).q = (s.dev.lane b.toNat).q ∧ (t.dev.lane b.toNat).run = some x ∧ x.overflow = true ∧
      t.dev.dsp.drops = min (2 ^ 32 - 1) (s.dev.dsp.drops + 1) := by
  let d : Dev := { s.dev with dsp := { s.dev.dsp with drops := satAdd (2 ^ 32 - 1) s.dev.dsp.drops 1 } }
  let x : Run := { r.fed st g s.dev.tl.tq with overflow := true }
  let f : Lane → Lane := fun l => { l with tap := rest, run := some x }
  have runs : exec (.dspInputWord b) s = .next { s with dev := (d.modLane b.toNat f).commit } := by
    refine (onDev_runs ?_ : execDspInputWord b s = _)
    dsimp only
    rw [run, tap]
    dsimp only
    rw [decide_eq_false (by omega : ¬ r.kernel.toNat < 0x40), Bool.false_and, if_neg Bool.false_ne_true, if_pos full]
    rfl
  have lane : (d.modLane b.toNat f).commit.lane b.toNat = f (s.dev.lane b.toNat) := by
    rw [commit_lane, modLane_lane_self]
    rfl
  refine ⟨_, x, runs, keeps_commit (((setDsp_keeps _ _).mono (by simp)).trans ((modLane_keeps d _ _).mono (by simp))),
    by rw [lane], by rw [lane], by rw [lane], rfl, ?_⟩
  dsimp only
  rw [commit_dsp]
  rfl

/-! ### Instructions -/

/-- An instruction of an active run is executed at its time. -/
theorem dspInstruction_runs (rewind : s.dev.tl.rewind = none) (active : r.active = true) (n : Nat) :
    ∃ m, exec (.dspInstruction n b) s = .next { s with dev :=
      (if r.kernel.toNat < 0x40 then ((s.dev.advance n).advance m).vendorStep b.toNat r
        else ((s.dev.advance n).advance m).laneStep b.toNat r).commit } := by
  refine ⟨(s.dev.advance n).tl.now + (r.busy - (s.dev.advance n).mono), (onDev_runs ?_ : execDspInstruction n b s = _)⟩
  dsimp only
  rw [run]
  dsimp only
  rw [if_neg (by simp [active])]
  exact due_of_no_rewind ((s.dev.advance_tl_rewind n).trans rewind) _ _

end

/-! ### The end of a run by HALT -/

/-- HALT ends a run that is not bound to a ring, and its lane keeps its Y memory and its accumulators. -/
theorem haltRun_runStep {d : Dev} {b : Nat} {r : Run} (run : (d.lane b).run = some r) (free : r.bind = none) :
    RunStep b d (d.haltRun b) ∧ ((d.haltRun b).lane b).run = none := by
  let stop : Lane → Lane := fun l => { l with run := l.run.map fun r => { r with
    first := some (r.first.getD r.startAt), ended := if r.input = 0 then d.tl.now else r.inputEnd } }
  have stopped : ((d.modLane b stop).lane b).run =
      some { r with first := some (r.first.getD r.startAt), ended := if r.input = 0 then d.tl.now else r.inputEnd } := by
    rw [modLane_lane_self]
    dsimp only [stop]
    rw [run]
    rfl
  obtain ⟨step, gone⟩ := endRun_runStep stopped true false stOk (stay := true) (by simp [free])
  exact ⟨(runStep_modLane d b stop (fun _ => rfl) (fun _ => rfl) fun _ => rfl).trans step, gone⟩

section
variable {s : State} {b : BitVec 4} {r : Run} (run : (s.dev.lane b.toNat).run = some r) (rewind : s.dev.tl.rewind = none)
  (active : r.active = true)
include run rewind active

/-- A vendor kernel ends its run after its last input (R283). -/
theorem dspInstruction_vendorEnds (n : Nat) (vendor : r.kernel.toNat < 0x40) (last : kernelInputs r.kernel r.ops ≤ r.taken)
    (free : r.bind = none) :
    ∃ t, exec (.dspInstruction n b) s = .next t ∧ Keeps [.banks, .tl, .dsp] s t ∧ (t.dev.lane b.toNat).run = none ∧
      (t.dev.lane b.toNat).y = (s.dev.lane b.toNat).y := by
  obtain ⟨m, runs⟩ := dspInstruction_runs run rewind active n
  rw [if_pos vendor] at runs
  let d : Dev := (s.dev.advance n).advance m
  have same : d.lane b.toNat = s.dev.lane b.toNat := by rw [advance_lane, advance_lane]
  let o := vendorOut r.kernel r.ops (d.lane b.toNat).words
  let f : Lane → Lane := fun l => { l with out := o.1, run := some { r with sat := r.sat || o.2 } }
  have steps : d.vendorStep b.toNat r = (d.modLane b.toNat f).haltRun b.toNat := if_pos last
  obtain ⟨step, gone⟩ := haltRun_runStep (d := d.modLane b.toNat f) (b := b.toNat) (r := { r with sat := r.sat || o.2 })
    (by rw [modLane_lane_self]) free
  have whole := (runStep_modLane d b.toNat f (fun _ => rfl) (fun _ => rfl) fun _ => rfl).trans step
  rw [steps] at runs
  generalize (d.modLane b.toNat f).haltRun b.toNat = e at runs whole gone
  refine ⟨_, runs, keeps_commit (advance_keeps_trans n (advance_keeps_trans m whole.frame)), ?_, ?_⟩
  · rw [commit_lane, gone]
  · rw [commit_lane, whole.y, same]

/-- A vendor kernel takes one input. -/
theorem dspInstruction_vendorTakes (n : Nat) (vendor : r.kernel.toNat < 0x40) (streams : r.input ≠ 0) {v : BitVec 48 × Nat}
    {vs : List (BitVec 48 × Nat)} (queue : (s.dev.lane b.toNat).q = v :: vs) (more : r.taken + 1 < kernelInputs r.kernel r.ops) :
    ∃ t x, exec (.dspInstruction n b) s = .next t ∧ Keeps [.banks] s t ∧ (t.dev.lane b.toNat).q = vs ∧
      (t.dev.lane b.toNat).words = (s.dev.lane b.toNat).words ++ [(v.1.toNat : Int)] ∧ (t.dev.lane b.toNat).run = some x ∧
      x.taken = r.taken + 1 ∧ x.inputEnd = v.2 := by
  obtain ⟨m, runs⟩ := dspInstruction_runs run rewind active n
  rw [if_pos vendor] at runs
  let d : Dev := (s.dev.advance n).advance m
  have same : d.lane b.toNat = s.dev.lane b.toNat := by rw [advance_lane, advance_lane]
  let x : Run := { r with
    taken := r.taken + 1, inputEnd := v.2
    busy := d.mono + d.laneClk * (kernelClocks r.kernel r.ops (r.taken + 1) - kernelClocks r.kernel r.ops r.taken) }
  let f : Lane → Lane := fun l => { l with q := vs, words := l.words ++ [(v.1.toNat : Int)], run := some x }
  have steps : d.vendorStep b.toNat r = d.modLane b.toNat f := by
    unfold Dev.vendorStep
    dsimp only
    rw [if_neg (by omega), if_neg streams, same, queue]
  rw [steps] at runs
  have lane : (d.modLane b.toNat f).commit.lane b.toNat = f (s.dev.lane b.toNat) := by rw [commit_lane, modLane_lane_self, same]
  exact ⟨_, x, runs, keeps_commit (advance_keeps_trans n (advance_keeps_trans m (modLane_keeps _ _ _))), by rw [lane], by rw [lane],
    by rw [lane], rfl, rfl⟩

section
variable (n : Nat) (custom : 0x40 ≤ r.kernel.toNat) (loaded : 1024 ≤ (s.dev.lane b.toNat).pc.toNat) {w : BitVec 64}
  (word : s.dev.dsp.p.get 0 (s.dev.lane b.toNat).pc.toNat = w) (good : kGood w = true)
include custom loaded word good

/-- A customer's instruction is the word at the lane's program counter (R277). -/
theorem dspInstruction_custom : ∃ d : Dev, ∃ after, d.lane b.toNat = s.dev.lane b.toNat ∧ (∀ l e, SameBut l d e → SameBut l s.dev e) ∧
    exec (.dspInstruction n b) s = .next { s with dev := (d.laneStep b.toNat r).commit } ∧
    d.dsp.word (s.dev.lane b.toNat).pc.toNat = w ∧ d.dsp.word ((s.dev.lane b.toNat).pc.toNat + 1) = after := by
  obtain ⟨m, runs⟩ := dspInstruction_runs run rewind active n
  rw [if_neg (by omega)] at runs
  refine ⟨(s.dev.advance n).advance m, _, by rw [advance_lane, advance_lane],
    fun l e k => advance_keeps_trans n (advance_keeps_trans m k), runs, ?_, rfl⟩
  rw [Dsp.word, if_neg (by omega), Dev.advance_dsp, Dev.advance_dsp, word]

/-- HALT ends the run (R286). -/
theorem dspInstruction_halts (halt : kOp w = 0x12) (free : r.bind = none) :
    ∃ t, exec (.dspInstruction n b) s = .next t ∧ Keeps [.banks, .tl, .dsp] s t ∧ (t.dev.lane b.toNat).run = none ∧
      (t.dev.lane b.toNat).y = (s.dev.lane b.toNat).y ∧ (t.dev.lane b.toNat).acc = (s.dev.lane b.toNat).acc := by
  obtain ⟨d, after, same, frame, runs, at_, next⟩ := dspInstruction_custom run rewind active n custom loaded word good
  have halts : (s.dev.lane b.toNat).exec w after = .halts := by
    unfold Lane.exec
    simp [good, halt]
  have steps : d.laneStep b.toNat r = d.haltRun b.toNat := by
    unfold Dev.laneStep
    dsimp only
    rw [same, if_neg (by omega), at_, next, halts]
  obtain ⟨step, gone⟩ := haltRun_runStep (by rw [same, run]) free
  rw [steps] at runs
  generalize d.haltRun b.toNat = e at runs step gone
  exact ⟨_, runs, keeps_commit (frame _ _ step.frame), by rw [commit_lane, gone], by rw [commit_lane, step.y, same],
    by rw [commit_lane, step.acc, same]⟩

/-- MAC adds its product to its accumulator (R280). -/
theorem dspInstruction_mac (mac : kOp w = 0x01) (fixedX : w.getLsbD 53 = false) (fixedY : w.getLsbD 50 = false)
    (inside : (s.dev.lane b.toNat).pc.toNat < 2047) (straight : (s.dev.lane b.toNat).loops = []) :
    ∃ t, exec (.dspInstruction n b) s = .next t ∧ Keeps [.banks] s t ∧ (t.dev.lane b.toNat).pc = (s.dev.lane b.toNat).pc + 1 ∧
      (t.dev.lane b.toNat).x = (s.dev.lane b.toNat).x ∧ (t.dev.lane b.toNat).y = (s.dev.lane b.toNat).y ∧
      (t.dev.lane b.toNat).ar = (s.dev.lane b.toNat).ar ∧
      (t.dev.lane b.toNat).acc.get (0, 0) (kAd w) =
        (let x := wordPair ((s.dev.lane b.toNat).x.get 0 ((s.dev.lane b.toNat).reg (kXa w)).ptr.toNat);
         let y := wordPair ((s.dev.lane b.toNat).y.get 0 ((s.dev.lane b.toNat).reg (kYa w)).ptr.toNat);
         let p := cmul x (if w.getLsbD 49 then (y.1, -y.2) else y);
         let g : Int := if w.getLsbD 48 then -1 else 1;
         (accAdd ((s.dev.lane b.toNat).acc.get (0, 0) (kAd w)) (g * p.1, g * p.2)).1) := by
  obtain ⟨d, after, same, frame, runs, at_, next⟩ := dspInstruction_custom run rewind active n custom loaded word good
  generalize s.dev.lane b.toNat = l at *
  let x := wordPair (l.x.get 0 (l.reg (kXa w)).ptr.toNat)
  let y := wordPair (l.y.get 0 (l.reg (kYa w)).ptr.toNat)
  let p := cmul x (if w.getLsbD 49 then (y.1, -y.2) else y)
  let g : Int := if w.getLsbD 48 then -1 else 1
  let v := accAdd (l.acc.get (0, 0) (kAd w)) (g * p.1, g * p.2)
  let m : Lane := { l with acc := l.acc.set (0, 0) (kAd w) v.1 }
  have goes : l.exec w after = .goesOn m (l.pc.toNat + 1) false v.2 := by
    unfold Lane.exec
    dsimp only
    rw [good, mac, fixedX, fixedY]
    rfl
  have through : m.loopEnd (l.pc.toNat + 1 - 1) 2 (l.pc.toNat + 1) = (m, l.pc.toNat + 1) := by
    unfold Lane.loopEnd
    dsimp only [m]
    rw [straight]
  let z : Run := { r with busy := d.mono + d.laneClk, sat := r.sat || v.2, taken := r.taken + bit (decide (m.q.length < l.q.length))
                          inputEnd := match l.q with | q :: _ => if decide (m.q.length < l.q.length) then q.2 else r.inputEnd | [] => r.inputEnd }
  let f : Lane → Lane := fun _ => { m with
    pc := BitVec.ofNat 11 (l.pc.toNat + 1), run := some z
    theta := if decide (m.q.length < l.q.length) && r.taken == 0 && !m.thetaSet then 0 else m.theta }
  have steps : d.laneStep b.toNat r = d.modLane b.toNat f := by
    unfold Dev.laneStep
    dsimp only
    rw [same, if_neg (by omega), at_, next, goes]
    dsimp only
    rw [if_neg Bool.false_ne_true, through]
    exact if_neg (by omega)
  rw [steps] at runs
  have lane : (d.modLane b.toNat f).commit.lane b.toNat = f l := by rw [commit_lane, modLane_lane_self, same]
  refine ⟨_, runs, keeps_commit (frame _ _ (modLane_keeps _ _ _)), ?_, by rw [lane], by rw [lane], by rw [lane], ?_⟩
  · rw [lane]
    exact BitVec.eq_of_toNat_eq (by simp [f, BitVec.toNat_add])
  · rw [lane]
    exact Tab.get_set_self _ _ _ _

end
end

end Sys2Proof.Machine
open Sys2Proof Sys2Proof.Machine

/-- Settles O56, by the one instruction that each event carries out, and by the rule of a run's end. -/
theorem dspEvents : Obligations.DspEvents := by
  unfold Obligations.DspEvents
  rintro s b l r rfl run
  exact ⟨fun rewind rests due epoch => dspRunStart_starts run rewind rests due epoch,
    fun st z v g rest tap custom => ⟨dspInputWord_queues run tap custom, dspInputWord_drops run tap custom⟩,
    fun n w rewind active custom loaded word good => ⟨dspInstruction_mac run rewind active n custom loaded word good,
      dspInstruction_halts run rewind active n custom loaded word good⟩,
    fun n rewind active vendor last free => dspInstruction_vendorEnds run rewind active n vendor last free,
    fun n v vs rewind active vendor streams queue more => dspInstruction_vendorTakes run rewind active n vendor streams queue more⟩

end


section
/-!
PROOFS. Setting up a capture ring (R240 to R243): CAP.RING, CAP.CONFIG and CAP.TRIGGER.
-/
namespace Sys2Proof.Machine

theorem setCap_keeps (d : Dev) (c : Cap) : SameBut [.cap] d { d with cap := c } :=
  sameBut_single fun p hp => by cases p <;> first | exact absurd rfl hp | rfl | exact Timeline.kept_refl _

/-- A setting of one ring that is in force at once. -/
theorem ring_ends {s : State} {h : Hdr} (i : Idle s h) (op : BitVec 16) (c : opClass op ≠ 0) (b r : Nat) (f : Ring → Ring) :
    let t := { s with dev := (((s.dev.takenUp h op).modRing b r f).ok h.tag).commit }
    Keeps [.banks] s t ∧ Answers s t h op stOk [] ∧ t.dev.ring b r = f (s.dev.ring b r) := by
  obtain ⟨frame, answer⟩ := ok_ends i op c (d := (s.dev.takenUp h op).modRing b r f) rfl (modRing_keeps _ _ _ _)
  exact ⟨frame, answer, by rw [commit_bankRing, ok_bankRing, modRing_ring_self, takenUp_bankRing]⟩

/-- What has not been read of a ring is dropped: the ring itself. -/
def Ring.unreadDropped (g : Ring) : Ring :=
  { g with closed := [], wptr := 0, rptr := 0, discarded := g.discarded + samplesOf (g.closed.flatMap (·.parts)) }

theorem dropUnread_ring (d : Dev) (b r : Nat) : (d.dropUnread b r).ring b r = (d.ring b r).unreadDropped := by
  unfold Dev.dropUnread
  rw [modRing_ring_self]
  rfl

theorem dropUnread_ring_of_ne (d : Dev) (b : Nat) {r k : Nat} (ne : k ≠ r) : (d.dropUnread b r).ring b k = d.ring b k :=
  modRing_ring_of_ne _ b ne _

theorem dropUnread_keeps (d : Dev) (b r : Nat) : SameBut [.banks, .cap] d (d.dropUnread b r) :=
  ((setCap_keeps d _).mono (by simp)).trans ((modRing_keeps _ _ _ _).mono (by simp))

/-- A ring that is set anew without what has not been read. -/
theorem ring_renewed {s : State} {h : Hdr} (i : Idle s h) (op : BitVec 16) (c : opClass op ≠ 0) (b r : Nat) (f : Ring → Ring) :
    let t := { s with dev := ((((s.dev.takenUp h op).dropUnread b r).modRing b r f).ok h.tag).commit }
    Keeps [.banks, .cap] s t ∧ Answers s t h op stOk [] ∧ t.dev.ring b r = f (s.dev.ring b r).unreadDropped ∧
      ∀ k, k ≠ r → t.dev.ring b k = s.dev.ring b k := by
  obtain ⟨frame, answer⟩ := ok_ends i op c (d := ((s.dev.takenUp h op).dropUnread b r).modRing b r f) rfl
    ((dropUnread_keeps _ _ _).trans ((modRing_keeps _ _ _ _).mono (by simp)))
  refine ⟨frame, answer, ?_, fun k ne => ?_⟩
  · rw [commit_bankRing, ok_bankRing, modRing_ring_self, dropUnread_ring, takenUp_bankRing]
  · rw [commit_bankRing, ok_bankRing, modRing_ring_of_ne _ _ ne, dropUnread_ring_of_ne _ _ ne, takenUp_bankRing]

section
variable {s : State} {h : Hdr} {b : BitVec 4} {r : BitVec 3} (i : Idle s h) (unarmed : (s.dev.ring b.toNat r.toNat).armed = false)
include i unarmed

/-! ### CAP.RING -/

theorem capRing_defines {base length : Nat} {owner : OwnerArg} (free : (s.dev.ring b.toNat r.toNat).len = 0) (long : 64 ≤ length)
    (fits : base + length ≤ 32768) (own : ∀ t, owner = .thread t → t.toNat / 4 = b.toNat)
    (apart : ∀ k, k < 8 → k ≠ r.toNat → (s.dev.ring b.toNat k).len = 0 ∨ base + length ≤ (s.dev.ring b.toNat k).base ∨
      (s.dev.ring b.toNat k).base + max (s.dev.ring b.toNat k).len ((s.dev.ring b.toNat k).pendLen.getD 0) ≤ base) :
    ∃ t, exec (.capRing h b r base length owner) s = .next t ∧ Keeps [.banks, .cap] s t ∧ Answers s t h 0x0800 stOk [] ∧
      (t.dev.ring b.toNat r.toNat).base = base ∧ (t.dev.ring b.toNat r.toNat).len = length ∧
      (t.dev.ring b.toNat r.toNat).owner = some (capOwner owner) ∧ (t.dev.ring b.toNat r.toNat).wptr = 0 ∧
      ∀ k, k ≠ r.toNat → t.dev.ring b.toNat k = s.dev.ring b.toNat k := by
  obtain ⟨frame, answer, ring, others⟩ := ring_renewed i 0x0800 (by decide) b.toNat r.toNat fun g =>
    { g with base := base, len := length, owner := some (capOwner owner) }
  have meet : ∀ k < 8, (decide (k ≠ r.toNat) && decide ((s.dev.ring b.toNat k).len > 0) &&
      linesMeet base length (s.dev.ring b.toNat k).base
        (max (s.dev.ring b.toNat k).len ((s.dev.ring b.toNat k).pendLen.getD 0))) = false := by
    intro k less
    by_cases same : k = r.toNat
    · simp [same]
    · rcases apart k less same with empty | below | above <;> simp [linesMeet] <;> omega
  have args : ∀ x ∈ s.dev.ringArgs b.toNat r.toNat base length owner, x.2 = false := by
    unfold Dev.ringArgs
    simp only [List.mem_cons, List.not_mem_nil, or_false, forall_eq_or_imp, forall_eq]
    refine ⟨List.any_eq_false.2 fun k mem => by rw [meet k (List.mem_range.1 mem)]; exact Bool.false_ne_true, by simp; omega, ?_⟩
    cases owner with
    | host => rfl
    | thread t => exact decide_eq_false (not_not.2 (own t rfl))
  have same := takenUp_view (Dev.ringArgs · b.toNat r.toNat base length owner) (fun _ _ _ _ => rfl) s.dev h 0x0800
  refine ⟨_, hostCmd_runs i 0x0800 ?_, frame, answer, by rw [ring], by rw [ring], by rw [ring], by rw [ring]; rfl, others⟩
  have list : ∀ x ∈ ((s.dev.takenUp h 0x0800).ringArgs b.toNat r.toNat base length owner) ++
      [(2, (s.dev.ring b.toNat r.toNat).armed && decide (length ≠ 0 ∧ base ≠ (s.dev.ring b.toNat r.toNat).base))], x.2 = false := by
    rw [same, unarmed]
    intro x mem
    rcases List.mem_append.1 mem with mem | mem
    · exact args x mem
    · rw [List.mem_singleton.1 mem, Bool.false_and]
  have good := badArgs_eq_none list
  unfold badArgs at good
  dsimp only
  rw [takenUp_bankRing, if_neg (by omega), good, free, unarmed, worst_eq_none (by simp [failAt])]
  refine (if_neg (by omega : ¬ length = 0)).trans ((if_neg Bool.false_ne_true).trans ?_)
  exact if_pos (Or.inl rfl)

theorem capRing_deletes (base : Nat) {owner : OwnerArg} (own : (s.dev.ring b.toNat r.toNat).owner = some (capOwner owner))
    (unread : (s.dev.ring b.toNat r.toNat).reads = []) :
    ∃ t, exec (.capRing h b r base 0 owner) s = .next t ∧ Keeps [.banks, .cap] s t ∧ Answers s t h 0x0800 stOk [] ∧
      t.dev.ring b.toNat r.toNat = {} := by
  obtain ⟨frame, answer, ring, -⟩ := ring_renewed i 0x0800 (by decide) b.toNat r.toNat fun _ => {}
  refine ⟨_, hostCmd_runs i 0x0800 ?_, frame, answer, ring⟩
  dsimp only
  rw [takenUp_bankRing, own, unread, unarmed, worst_eq_none (by simp [failAt, badArg])]
  rfl

/-! ### CAP.CONFIG -/

theorem capConfig_configures {src : BitVec 2} {pre post : Nat} {mc : BitVec 5} {mh : BitVec 16} (ch : BitVec 9) (overwrite drain : Bool)
    (ml : BitVec 16) (defined : (s.dev.ring b.toNat r.toNat).len ≠ 0) (known : src ≠ 3)
    (threaded : src = 2 ∨ ∃ t, (s.dev.ring b.toNat r.toNat).owner = some (.thread t))
    (before : pre < s.dev.slotsAt (s.dev.ring b.toNat r.toNat) src) (after : 1 ≤ post) (short : post < 2 ^ 32)
    (measured : src = 1 → mc.toNat < (s.dev.ringChans (s.dev.ring b.toNat r.toNat)).length) (band : mh.toNat ≤ 4095) :
    ∃ t, exec (.capConfig h b r src ch overwrite drain pre post mc ml mh) s = .next t ∧ Keeps [.banks] s t ∧
      Answers s t h 0x0801 stOk [] ∧ t.dev.ring b.toNat r.toNat = { s.dev.ring b.toNat r.toNat with
        configured := true, src := src, ch := ch, overwrite := overwrite, drain := drain, pre := pre, post := post,
        measCh := mc, measLevel := ml, measHyst := mh.toNat } := by
  have slots := takenUp_view (Dev.slotsAt · (s.dev.ring b.toNat r.toNat) src) (fun _ _ _ _ => rfl) s.dev h 0x0801
  have chans := takenUp_view (Dev.ringChans · (s.dev.ring b.toNat r.toNat)) (fun _ _ _ _ => rfl) s.dev h 0x0801
  have source : (src == 3 || (src != 2 && !(match (s.dev.ring b.toNat r.toNat).owner with | some (.thread _) => true | _ => false))) = false := by
    rcases threaded with two | ⟨t, own⟩
    · simp [two]
    · simpa [own] using known
  have measure : (src == 1 && decide (mc.toNat ≥ (s.dev.ringChans (s.dev.ring b.toNat r.toNat)).length)) = false := by
    rw [Bool.and_eq_false_imp]
    exact fun one => decide_eq_false (by have := measured (by simpa using one); omega)
  refine ⟨_, hostCmd_runs i 0x0801 ?_, ring_ends i 0x0801 (by decide) b.toNat r.toNat fun g => { g with
    configured := true, src := src, ch := ch, overwrite := overwrite, drain := drain, pre := pre, post := post
    measCh := mc, measLevel := ml, measHyst := mh.toNat }⟩
  dsimp only
  rw [takenUp_bankRing, slots, chans, measure, unarmed, decide_eq_false defined, decide_eq_false (by omega : ¬ pre ≥ _),
    decide_eq_false (by omega : ¬ (post < 1 ∨ post ≥ 2 ^ 32)), decide_eq_false (by omega : ¬ mh.toNat > 4095)]
  erw [source]
  rfl

/-! ### CAP.TRIGGER -/

section
variable {conds : List (BitVec 32)} {w : When} {action : BitVec 32} (eight : conds.length = 8)
  (good : ∀ c ∈ conds, s.dev.condBad (s.dev.ring b.toNat r.toNat) c = false) (bits : action.toNat < 2 ^ 17)
  (held : (s.dev.ring b.toNat r.toNat).owner = some .host → action.getLsbD 0 = false)
  (edges : ∀ e ∈ edgeConds conds, (s.dev.chan (32 * b.toNat + e.1)).noSlice = false ∧
    ((s.dev.sliceTdc b.toNat e.1).owner = .none ∨ (s.dev.sliceTdc b.toNat e.1).owner = .ring r) ∧
    ∀ f ∈ edgeConds conds, f.1 = e.1 → f.2 = e.2)
  (when_ : ∀ x, (s.dev.advance h.t).schedule w clk true = .error x → x ≠ stBadarg)
include eight good bits held edges when_

/-- None of the checks of CAP.TRIGGER fails. -/
theorem capTrigger_checked (one : (conds.filter fun c => condKind c == 7).length ≤ 1) :
    let d := s.dev.takenUp h 0x0802
    worst [failAt ((edgeConds conds).any fun e => (d.chan (32 * b.toNat + e.1)).noSlice) stDenied r.toNat,
      failAt ((edgeConds conds).any fun e => ((d.sliceTdc b.toNat e.1).owner != .none && (d.sliceTdc b.toNat e.1).owner != .ring r) ||
        (edgeConds conds).any fun f => f.1 == e.1 && f.2 != e.2) stConflict r.toNat 8,
      badArgs [(3, match d.schedule w clk true with | .error st => st == stBadarg | .ok _ => false),
        (2, decide (conds.length ≠ 8) || conds.any (fun c => d.condBad (d.ring b.toNat r.toNat) c) ||
          decide ((conds.filter fun c => condKind c == 7).length > 1)),
        (4, decide (action.toNat ≥ 2 ^ 17) || (action.getLsbD 0 && (d.ring b.toNat r.toNat).owner == some .host))],
      failAt (d.ring b.toNat r.toNat).armed stBusy r.toNat] = none := by
  intro d
  have slices : ((edgeConds conds).any fun e => (d.chan (32 * b.toNat + e.1)).noSlice) = false :=
    List.any_eq_false.2 fun e mem => by rw [takenUp_chan, (edges e mem).1]; exact Bool.false_ne_true
  have clash : ((edgeConds conds).any fun e => ((d.sliceTdc b.toNat e.1).owner != .none && (d.sliceTdc b.toNat e.1).owner != .ring r) ||
      (edgeConds conds).any fun f => f.1 == e.1 && f.2 != e.2) = false := by
    refine List.any_eq_false.2 fun e mem => ?_
    obtain ⟨-, owner, same⟩ := edges e mem
    rw [takenUp_view (Dev.sliceTdc · b.toNat e.1) (fun _ _ _ _ => rfl) s.dev h 0x0802]
    have second : ((edgeConds conds).any fun f => f.1 == e.1 && f.2 != e.2) = false :=
      List.any_eq_false.2 fun f there => by simpa using same f there
    rw [second]
    rcases owner with owner | owner <;> simp [owner]
  have conditions : (conds.any fun c => d.condBad (d.ring b.toNat r.toNat) c) = false := by
    refine List.any_eq_false.2 fun c mem => ?_
    rw [takenUp_bankRing, takenUp_view (Dev.condBad · (s.dev.ring b.toNat r.toNat) c) (fun _ _ _ _ => rfl) s.dev h 0x0802, good c mem]
    exact Bool.false_ne_true
  have place : (match d.schedule w clk true with | .error st => st == stBadarg | .ok _ => false) = false := by
    rw [schedule_of_tl (takenUp_tl s.dev h 0x0802) w clk true]
    cases found : (s.dev.advance h.t).schedule w clk true with
    | ok => rfl
    | error x => simpa using when_ x found
  have actions : (decide (action.toNat ≥ 2 ^ 17) || (action.getLsbD 0 && (d.ring b.toNat r.toNat).owner == some .host)) = false := by
    rw [decide_eq_false (by omega), Bool.false_or, takenUp_bankRing, Bool.and_comm, Bool.and_eq_false_imp]
    exact fun host => held (by simpa using host)
  rw [slices, clash, conditions, actions, takenUp_bankRing, unarmed, eight, decide_eq_false (by omega : ¬ _ > 1)]
  erw [place]
  rfl

theorem capTrigger_sets (none_ : (conds.filter fun c => condKind c == 7) = []) :
    ∃ t, exec (.capTrigger h b r conds w action) s = .next t ∧ Keeps [.banks] s t ∧ Answers s t h 0x0802 stOk [] ∧
      t.dev.ring b.toNat r.toNat = { s.dev.ring b.toNat r.toNat with conds := conds, action := action, stampAt := none } := by
  refine ⟨_, hostCmd_runs i 0x0802 ?_, ring_ends i 0x0802 (by decide) b.toNat r.toNat fun g =>
    { g with conds := conds, action := action, stampAt := none }⟩
  have checked := capTrigger_checked i unarmed eight good bits held edges when_ (by simp [none_])
  dsimp only at checked ⊢
  erw [checked]
  dsimp only
  rw [none_]
  rfl

theorem capTrigger_setsStamp {e : BitVec 16} {st : Nat} {late : Bool} (one : (conds.filter fun c => condKind c == 7).length = 1)
    (place : (s.dev.advance h.t).schedule w clk true = .ok (e, st, late)) :
    ∃ t, exec (.capTrigger h b r conds w action) s = .next t ∧ Keeps [.banks] s t ∧ Answers s t h 0x0802 stOk [] ∧
      t.dev.ring b.toNat r.toNat =
        { s.dev.ring b.toNat r.toNat with conds := conds, action := action, stampAt := some (e, st) } := by
  have placed := (schedule_of_tl (takenUp_tl s.dev h 0x0802) w clk true).trans place
  let f : Ring → Ring := fun g => { g with conds := conds, action := action, stampAt := some (e, st) }
  let d : Dev := (s.dev.takenUp h 0x0802).modRing b.toNat r.toNat f
  have runs : exec (.capTrigger h b r conds w action) s =
      .next { s with dev := ((d.accept h.tag).finish h.tag { late := late }).commit } := by
    refine hostCmd_runs i 0x0802 ?_
    have checked := capTrigger_checked i unarmed eight good bits held edges when_ (by omega)
    dsimp only at checked ⊢
    erw [checked]
    dsimp only
    rw [one, placed]
    rfl
  have quiet : Quiet (s.dev.takenUp h 0x0802) d := .of_ctl rfl
  refine ⟨_, runs, keeps_of_takenUp (op := 0x0802) (by decide) ((modRing_keeps _ _ _ _).trans
      ((accept_keeps _ _ _).trans (finish_keeps _ _ _ _))), quiet.finishes i 0x0802 { late := late } (.inl rfl) rfl rfl (.inr rfl), ?_⟩
  have same : ((d.accept h.tag).finish h.tag { late := late }).banks = d.banks := (Dev.finish_banks _ _ _).trans (Dev.accept_banks _ _)
  rw [commit_bankRing, ring_of_banks same, modRing_ring_self, takenUp_bankRing]

end
end

end Sys2Proof.Machine
open Sys2Proof Sys2Proof.Machine

/-- Settles O51, by what each command leaves of its ring. -/
theorem ringSetup : Obligations.RingSetup := by
  unfold Obligations.RingSetup
  intro s h b r i unarmed
  exact ⟨fun base length owner free long fits own apart => capRing_defines i unarmed free long fits own apart,
    fun base owner own unread => capRing_deletes i unarmed base own unread,
    fun src ch overwrite drain pre post mc ml mh defined known threaded before after short measured band =>
      capConfig_configures i unarmed ch overwrite drain ml defined known threaded before after short measured band,
    fun conds w action eight good bits held edges when_ =>
      ⟨capTrigger_sets i unarmed eight good bits held edges when_,
        fun e st late one place => capTrigger_setsStamp i unarmed eight good bits held edges when_ one place⟩⟩

end


section
/-!
PROOFS. The course of a ring's records (R244 to R266): arming, sampling, closing, the header, disarming and reading.
-/
namespace Sys2Proof.Machine

/-! ### What leaves the rings alone -/

/-- What can be read of the acquisition beside its staging and its way out stays through a commit. -/
theorem commit_cap_of {γ : Type} (v : Cap → γ) (r : ∀ c : Cap, v c.setting = v c) (d : Dev) : v d.commit.cap = v d.cap :=
  (r _).symm.trans ((congrArg v (commit_cap_setting d)).trans (r _))

theorem commit_xt (d : Dev) (l : Nat) : d.commit.xt l = d.xt l := by
  unfold Dev.xt
  rw [commit_cap_of Cap.xt (fun _ => rfl) d]

theorem modBank_bank_of_ne (d : Dev) {b k : Nat} (ne : k ≠ b) (f : Bank → Bank) : (d.modBank b f).bank k = d.bank k :=
  Tab.get_mod_of_ne _ _ ne _

theorem modTdc_ring (d : Dev) (b x k r : Nat) (f : Tdc → Tdc) : (d.modTdc b x f).ring k r = d.ring k r := by
  unfold Dev.ring Dev.modTdc
  by_cases same : k = b
  · subst same
    rw [modBank_bank_self]
  · rw [modBank_bank_of_ne _ same]

theorem modLane_ring (d : Dev) (b k r : Nat) (f : Lane → Lane) : (d.modLane b f).ring k r = d.ring k r := by
  unfold Dev.ring Dev.modLane
  by_cases same : k = b
  · subst same
    rw [modBank_bank_self]
  · rw [modBank_bank_of_ne _ same]

/-- A change of the banks that leaves the rings, and what the command in flight sees. -/
structure RingsStay (d e : Dev) : Prop where
  frame : SameBut [.banks] d e
  ring : ∀ k r, e.ring k r = d.ring k r
  quiet : Quiet d e

theorem RingsStay.refl (d : Dev) : RingsStay d d := ⟨SameBut.refl _ _, fun _ _ => rfl, .refl d⟩
theorem RingsStay.trans {c d e : Dev} (x : RingsStay c d) (y : RingsStay d e) : RingsStay c e :=
  ⟨x.frame.trans y.frame, fun k r => (y.ring k r).trans (x.ring k r), x.quiet.trans y.quiet⟩

theorem modTdc_ringsStay (d : Dev) (b x : Nat) (f : Tdc → Tdc) : RingsStay d (d.modTdc b x f) :=
  ⟨modTdc_keeps _ _ _ _, fun k r => modTdc_ring d b x k r f, .of_ctl rfl⟩

theorem packet_ringsStay (d : Dev) (p : Packet) : RingsStay d (d.packet p) :=
  ⟨packet_keeps _ _ _, fun _ _ => rfl, packet_quiet _ _⟩

theorem foldl_ringsStay {α : Type} {f : Dev → α → Dev} (h : ∀ d x, RingsStay d (f d x)) (l : List α) (d : Dev) : RingsStay d (l.foldl f d) := by
  induction l generalizing d with
  | nil => exact .refl d
  | cons x l ih => exact (h d x).trans (ih _)

theorem freeRingTdcs_ringsStay (d : Dev) (b r : Nat) : RingsStay d (d.freeRingTdcs b r) := by
  refine foldl_ringsStay (f := fun (d : Dev) k => if (d.tdc b k).owner = .ring (BitVec.ofNat 3 r) then d.modTdc b k fun _ => {} else d)
    (fun d k => ?_) _ d
  split
  exacts [modTdc_ringsStay _ _ _ _, .refl _]

/-! ### The end of a ring's arming -/

/-- A ring that is no longer armed. -/
def Ring.disarmed (g : Ring) : Ring := { g with
  armed := false, running := false, stopped := false, events := [], armedAt := none,
  recent := [], recentFails := [], filled := 0, lastS := none, lastEnd := none }

/-- The device of `ringStop` before the ring's command ends. -/
def Dev.ringLeft (d : Dev) (b r : Nat) : Dev :=
  (((d.dropActs (d.ring b r).armTag).modRing b r Ring.disarmed)).freeRingTdcs b r

theorem ringStop_of_armed {d : Dev} {b r : Nat} (armed : (d.ring b r).armed = true) (st : BitVec 4) : d.ringStop b r st =
    ((d.ringLeft b r).finish (d.ring b r).armTag { status := st, late := decide (st = stOk) &&
      ((d.ringLeft b r).job (d.ring b r).armTag).any (·.late) }).dropJob (d.ring b r).armTag := if_pos armed

theorem ringStop_of_unarmed {d : Dev} {b r : Nat} (rests : (d.ring b r).armed = false) (st : BitVec 4) : d.ringStop b r st = d :=
  if_neg (by simp [rests])

theorem ringLeft_ring (d : Dev) (b r : Nat) : (d.ringLeft b r).ring b r = (d.ring b r).disarmed :=
  ((freeRingTdcs_ringsStay _ b r).ring b r).trans (modRing_ring_self _ b r _)

theorem ringLeft_keeps (d : Dev) (b r : Nat) : SameBut [.banks, .tl] d (d.ringLeft b r) :=
  ((setTl_keeps d _).mono (by simp)).trans (((modRing_keeps (d.dropActs (d.ring b r).armTag) _ _ _).mono (by simp)).trans
    ((freeRingTdcs_ringsStay _ b r).frame.mono (by simp)))

theorem ringLeft_quiet (d : Dev) (b r : Nat) : Quiet d (d.ringLeft b r) := by
  unfold Dev.ringLeft
  exact (Quiet.of_ctl (a := d) (b := (d.dropActs (d.ring b r).armTag).modRing b r Ring.disarmed) rfl).trans (freeRingTdcs_ringsStay _ b r).quiet

theorem dropJob_keeps (l : List Part) (d : Dev) (g : Tag) : SameBut l d (d.dropJob g) := by
  intro p _
  cases p with
  | tl => exact Timeline.kept_refl _
  | _ => rfl

theorem dropped_banks (e : Dev) (g : Tag) (c : Cpl) : ((e.finish g c).dropJob g).banks = e.banks := Dev.finish_banks e g c

theorem ringStop_keeps (d : Dev) (b r : Nat) (st : BitVec 4) : SameBut [.banks, .tl] d (d.ringStop b r st) := by
  cases armed : (d.ring b r).armed with
  | false => rw [ringStop_of_unarmed armed]; exact SameBut.refl _ _
  | true =>
    rw [ringStop_of_armed armed]
    exact (ringLeft_keeps _ _ _).trans ((finish_keeps _ _ _ _).trans (dropJob_keeps _ _ _))

theorem ringStop_ring {d : Dev} {b r : Nat} (armed : (d.ring b r).armed = true) (st : BitVec 4) :
    (d.ringStop b r st).ring b r = (d.ring b r).disarmed := by
  have left := ringLeft_ring d b r
  rw [ringStop_of_armed armed]
  generalize d.ringLeft b r = e at left ⊢
  rw [← left]
  exact ring_of_banks (dropped_banks e _ _) b r

/-- A ring whose command is not in flight is disarmed unseen by the commands in flight. -/
theorem ringStop_quiet {d : Dev} {b r : Nat} (armed : (d.ring b r).armed = true) (st : BitVec 4)
    (absent : d.flight (d.ring b r).armTag = none) : Quiet d (d.ringStop b r st) := by
  have left := ringLeft_quiet d b r
  rw [ringStop_of_armed armed]
  generalize d.ringLeft b r = e at left ⊢
  generalize (d.ring b r).armTag = g at absent ⊢
  rw [finish_of_absent ((flight_of_flights left.flights g).trans absent)]
  exact left.trans ⟨rfl, rfl⟩

/-! ### CAP.ARM and its effect -/

/-- What a ring is when it has been armed (R246). -/
def Ring.armedFor (tag : Tag) (limit stamp size : Nat) (epoch : BitVec 16) (g : Ring) : Ring := { g with
  armed := true, running := false, stopped := false, armTag := tag, limit := limit, records := 0
  effAt := stamp, epoch := epoch, armedAt := none, prevEnd := stamp, missed := 0, discarded := 0, slotBits := size
  filled := 0, recent := [], recentFails := [], lastS := none, lastEnd := none, events := [], cur := none, actions := [] }

/-- The device on which a ring's slots get their size and its edge conditions their TDCs (R246). -/
def Dev.ringPrepared (d : Dev) (b : Nat) (ring : BitVec 3) (size : Nat) : Dev :=
  (edgeConds (d.ring b ring.toNat).conds).foldl (fun d e =>
    d.modTdc b ((d.chan (32 * b + e.1)).sliceOf (32 * b + e.1)) fun _ =>
      { owner := .ring ring, stopSrc := BitVec.ofNat 4 e.2, stopCh := BitVec.ofNat 9 (32 * b + e.1) })
    (if size = (d.ring b ring.toNat).slotBits then d else d.dropUnread b ring.toNat)

theorem ringPrepared_quiet_keeps (d : Dev) (b : Nat) (ring : BitVec 3) (size : Nat) :
    Quiet d (d.ringPrepared b ring size) ∧ SameBut [.banks, .cap] d (d.ringPrepared b ring size) ∧ (d.ringPrepared b ring size).tl = d.tl := by
  have sized : Quiet d (if size = (d.ring b ring.toNat).slotBits then d else d.dropUnread b ring.toNat) ∧
      SameBut [.banks, .cap] d (if size = (d.ring b ring.toNat).slotBits then d else d.dropUnread b ring.toNat) ∧
      (if size = (d.ring b ring.toNat).slotBits then d else d.dropUnread b ring.toNat).tl = d.tl := by
    split
    exacts [⟨.refl _, SameBut.refl _ _, rfl⟩, ⟨.of_ctl rfl, dropUnread_keeps _ _ _, rfl⟩]
  obtain ⟨quiet, frame, tl⟩ := sized
  unfold Dev.ringPrepared
  generalize (if size = (d.ring b ring.toNat).slotBits then d else d.dropUnread b ring.toNat) = e at quiet frame tl
  have stays := foldl_ringsStay (f := fun d (e : Nat × Nat) =>
    d.modTdc b ((d.chan (32 * b + e.1)).sliceOf (32 * b + e.1)) fun _ =>
      { owner := .ring ring, stopSrc := BitVec.ofNat 4 e.2, stopCh := BitVec.ofNat 9 (32 * b + e.1) })
    (fun d e => modTdc_ringsStay _ _ _ _) (edgeConds (d.ring b ring.toNat).conds) e
  refine ⟨quiet.trans stays.quiet, frame.trans (stays.frame.mono (by simp)), ?_⟩
  exact (foldl_leaves Dev.tl (f := fun d (e : Nat × Nat) =>
    d.modTdc b ((d.chan (32 * b + e.1)).sliceOf (32 * b + e.1)) fun _ =>
      { owner := .ring ring, stopSrc := BitVec.ofNat 4 e.2, stopCh := BitVec.ofNat 9 (32 * b + e.1) })
    (fun _ _ => rfl) _ e).trans tl

section
variable {s : State} {h : Hdr} {b : BitVec 4} {r : BitVec 3} (i : Idle s h)
include i

/-- A command that sets a ring and waits. -/
theorem ringSet_waits {op : BitVec 16} (c : opClass op ≠ 0) {d : Dev} (frame : SameBut [.banks, .tl, .cap] (s.dev.takenUp h op) d)
    (path : d.cplPath = s.dev.cplPath) (flights : d.ctl.flights = [{ newFlight h op with accepted := true }]) (k x : Nat) (f : Ring → Ring) :
    Keeps [.banks, .tl, .cap] s { s with dev := (d.modRing k x f).commit } ∧ Waits s { s with dev := (d.modRing k x f).commit } h op ∧
      (d.modRing k x f).commit.ring k x = f (d.ring k x) ∧ (d.modRing k x f).commit.tl = d.tl :=
  ⟨keeps_of_takenUp (h := h) (op := op) c (frame.trans ((modRing_keeps d k x f).mono (by simp))), waits_of_flights i path flights,
    by rw [commit_bankRing, modRing_ring_self], commit_tl _⟩

omit i in
/-- A command that is accepted with a scheduled action and a job. -/
theorem jobOpened_keeps (p : Dev) (a : Act) (j : Job) : SameBut [.tl] p (((p.accept h.tag).addAct a).openJob j) :=
  (accept_keeps [.tl] p h.tag).trans ((addAct_keeps (p.accept h.tag) a).trans (openJob_keeps [.tl] ((p.accept h.tag).addAct a) j))

section
variable {w : When} {e : BitVec 16} {st : Nat} {late : Bool} (n : BitVec 16)
  (unarmed : (s.dev.ring b.toNat r.toNat).armed = false) (defined : (s.dev.ring b.toNat r.toNat).len ≠ 0)
  (configured : (s.dev.ring b.toNat r.toNat).configured = true)
  (before : (s.dev.ring b.toNat r.toNat).pre < s.dev.slotsAt (s.dev.ring b.toNat r.toNat) (s.dev.ring b.toNat r.toNat).src)
  (free : ∀ c ∈ edgeConds (s.dev.ring b.toNat r.toNat).conds, (s.dev.sliceTdc b.toNat c.1).owner = .none)
  (place : (s.dev.advance h.t).schedule w clk true = .ok (e, st, late))
include unarmed defined configured before free place

/-- CAP.ARM prepares the ring, is accepted with its scheduled action and a job, and arms the ring. -/
theorem capArm_runs : ∃ size, exec (.capArm h b r w n) s = .next { s with dev := ((((((s.dev.takenUp h 0x0803).ringPrepared b.toNat r
    size).accept h.tag).addAct { tag := h.tag, kind := .capArm, epoch := e, stamp := st }).openJob
      { tag := h.tag, late := late, parts := 1 }).modRing b.toNat r.toNat (Ring.armedFor h.tag n.toNat st size e)).commit } := by
  have placed := (schedule_of_tl (takenUp_tl s.dev h 0x0803) w clk true).trans place
  have same := takenUp_bankRing s.dev h 0x0803 b.toNat r.toNat
  have slots := takenUp_view (fun d => d.slotsAt (s.dev.ring b.toNat r.toNat) (s.dev.ring b.toNat r.toNat).src) (fun _ _ _ _ => rfl) s.dev h
    0x0803
  have edges : ((edgeConds (s.dev.ring b.toNat r.toNat).conds).any fun c => ((s.dev.takenUp h 0x0803).sliceTdc b.toNat c.1).owner != .none) =
      false := by
    refine List.any_eq_false.2 fun c mem => ?_
    rw [takenUp_view (Dev.sliceTdc · b.toNat c.1) (fun _ _ _ _ => rfl) s.dev h 0x0803, free c mem]
    simp
  refine ⟨slotSize (s.dev.ring b.toNat r.toNat).src ((s.dev.takenUp h 0x0803).ringChans (s.dev.ring b.toNat r.toNat)).length,
    hostCmd_runs i 0x0803 ?_⟩
  dsimp only
  rw [same, edges, unarmed, slots, configured, decide_eq_false defined, decide_eq_false (by omega : ¬ _ ≥ _),
    worst_eq_none (by simp [failAt, badArgs, badArg]), placed]
  dsimp only [Dev.ringPrepared]
  rw [same]
  rfl

theorem capArm_waits :
    ∃ t, exec (.capArm h b r w n) s = .next t ∧ Keeps [.banks, .tl, .cap] s t ∧ Waits s t h 0x0803 ∧
      (t.dev.ring b.toNat r.toNat).armed = true ∧ (t.dev.ring b.toNat r.toNat).running = false ∧
      (t.dev.ring b.toNat r.toNat).effAt = st ∧ (t.dev.ring b.toNat r.toNat).epoch = e ∧
      (t.dev.ring b.toNat r.toNat).limit = n.toNat ∧ (t.dev.ring b.toNat r.toNat).records = 0 ∧
      t.dev.tl.acts = s.dev.tl.acts ++ [{ tag := h.tag, kind := .capArm, epoch := e, stamp := st }] := by
  obtain ⟨size, runs⟩ := capArm_runs i n unarmed defined configured before free place
  obtain ⟨quiet, frame, tl⟩ := ringPrepared_quiet_keeps (s.dev.takenUp h 0x0803) b.toNat r size
  have path := quiet.path.trans (takenUp_cplPath i 0x0803)
  have flights := accept_flights_newFlight (quiet.flights.trans (takenUp_flights i 0x0803))
  have queue := (congrArg Timeline.acts tl).trans (takenUp_acts s.dev h 0x0803)
  generalize (s.dev.takenUp h 0x0803).ringPrepared b.toNat r size = p at runs frame path flights queue
  have kept := (frame.mono (by simp : ([.banks, .cap] : List Part) ⊆ [.banks, .tl, .cap])).trans ((jobOpened_keeps (h := h) p
    { tag := h.tag, kind := .capArm, epoch := e, stamp := st } { tag := h.tag, late := late, parts := 1 }).mono (by simp))
  have scheduled : (((p.accept h.tag).addAct { tag := h.tag, kind := .capArm, epoch := e, stamp := st }).openJob
      { tag := h.tag, late := late, parts := 1 }).tl.acts = p.tl.acts ++ [{ tag := h.tag, kind := .capArm, epoch := e, stamp := st }] :=
    congrArg (fun t : Timeline => t.acts ++ _) (Dev.accept_tl p h.tag)
  obtain ⟨keeps, waits, ring, tl⟩ := ringSet_waits i (by decide) kept path flights b.toNat r.toNat (Ring.armedFor h.tag n.toNat st size e)
  rw [queue, ← tl] at scheduled
  generalize Dev.commit _ = x at runs keeps waits ring scheduled
  exact ⟨_, runs, keeps, waits, by rw [ring]; rfl, by rw [ring]; rfl, by rw [ring]; rfl, by rw [ring]; rfl, by rw [ring]; rfl,
    by rw [ring]; rfl, scheduled⟩

end
end

/-- A ring whose sampling begins anew. -/
def Ring.resampled (a : Option Nat) (g : Ring) : Ring :=
  { g with stopped := false, filled := 0, recent := [], recentFails := [], armedAt := a }

/-- A field that the course of the sampling does not touch stays when a ring resumes. -/
theorem resume_view {γ : Type} (v : Ring → γ) (x : ∀ (g : Ring) a, v (g.resampled a) = v g) (g : Ring) : v g.resume = v g := by
  unfold Ring.resume
  split
  exacts [x g _, rfl]

/-! ### The header of a record (R252, R253) -/

/-- A ring whose record in progress has its header. -/
def Ring.headed (k : Rec) (g : Ring) : Ring := ({ g with
  cur := none, events := g.events.filter (fun e => decide (e.2 ≥ k.ended)), records := g.records + 1, prevEnd := k.ended
  missed := 0, discarded := 0, filled := 0
  armedAt := if g.pre = 0 then some (k.ended + 16 * clk) else none, recent := [], recentFails := []
  rptr := if g.drain then (k.slot + k.pre + k.got) % max 1 g.slots else g.rptr
  closed := if g.drain then g.closed else g.closed ++ [{ record := g.records % 65536, parts := k.parts }] } : Ring).resume

/-- A record's header and, on a drained ring, its data go out. -/
def Dev.recordSent (d : Dev) (b r : Nat) (k : Rec) : Dev :=
  let e := d.packet (d.recordItem b r k)
  if (d.ring b r).drain then e.packets (e.allData b r (d.ring b r) (d.ring b r).records k.poison (samplesOf k.parts) k.parts) else e

theorem recordSent_ringsStay (d : Dev) (b r : Nat) (k : Rec) : RingsStay d (d.recordSent b r k) := by
  unfold Dev.recordSent
  dsimp only
  split
  · exact (packet_ringsStay _ _).trans (foldl_ringsStay packet_ringsStay _ _)
  · exact packet_ringsStay _ _

theorem commitHeader_eq {d : Dev} {b r : Nat} {k : Rec} (cur : (d.ring b r).cur = some k) : d.commitHeader b r =
    if (d.ring b r).limit ≠ 0 ∧ (d.ring b r).records + 1 ≥ (d.ring b r).limit then
      ((d.recordSent b r k).modRing b r (Ring.headed k)).ringStop b r stOk
    else (d.recordSent b r k).modRing b r (Ring.headed k) := by
  unfold Dev.commitHeader
  dsimp only
  rw [cur]
  rfl

/-- What the header of a record leaves of the ring: the last one that it was armed for disarms it. -/
theorem commitHeader_ring {d : Dev} {b r : Nat} {k : Rec} (cur : (d.ring b r).cur = some k) :
    SameBut [.banks, .tl] d (d.commitHeader b r) ∧ (d.commitHeader b r).ring b r =
      if (d.ring b r).armed = true ∧ (d.ring b r).limit ≠ 0 ∧ (d.ring b r).records + 1 ≥ (d.ring b r).limit then
        ((d.ring b r).headed k).disarmed else (d.ring b r).headed k := by
  have sent := recordSent_ringsStay d b r k
  let e : Dev := (d.recordSent b r k).modRing b r (Ring.headed k)
  have frame : SameBut [.banks, .tl] d e := (sent.frame.mono (by simp)).trans ((modRing_keeps _ _ _ _).mono (by simp))
  have ring : e.ring b r = (d.ring b r).headed k := (modRing_ring_self _ _ _ _).trans (congrArg (Ring.headed k) (sent.ring b r))
  have stays : (e.ring b r).armed = (d.ring b r).armed := (congrArg Ring.armed ring).trans (resume_view Ring.armed (fun _ _ => rfl) _)
  rw [commitHeader_eq cur]
  split
  case isFalse more => exact ⟨frame, by rw [if_neg fun last => more last.2]; exact ring⟩
  case isTrue last =>
    refine ⟨frame.trans (ringStop_keeps e b r stOk), ?_⟩
    cases armed : (d.ring b r).armed with
    | true => rw [if_pos ⟨rfl, last⟩, ← ring]; exact ringStop_ring (stays.trans armed) stOk
    | false =>
      rw [if_neg fun x => Bool.false_ne_true x.1, ← ring]
      exact congrArg (Dev.ring · b r) (ringStop_of_unarmed (stays.trans armed) stOk)

/-! ### The events of a ring -/

/-- The trigger instants that a ring's arming finds in the list of scheduled actions (R247). -/
def Dev.pastEvents (d : Dev) (b r : Nat) (g : Ring) : List (BitVec 3 × Nat) :=
  (match g.stampAt with
    | some (e, t) => if e = g.epoch ∧ t ≥ g.effAt then (g.condsOf fun c => condKind c == 7).map fun c => (c, t) else []
    | none => []) ++
  (d.tl.acts.filter fun a => a.kind == .capFire && a.epoch == g.epoch && decide (a.stamp ≥ g.effAt) &&
    decide (a.user / 256 = b) && a.user.testBit r).flatMap fun a => (g.condsOf fun c => condKind c == 8).map fun c => (c, a.stamp)

/-- A ring that samples from the stamp of its arming. -/
def Ring.sampling (es : List (BitVec 3 × Nat)) (g : Ring) : Ring :=
  { g with running := true, prevEnd := g.effAt, armedAt := if g.pre = 0 then some g.effAt else none, events := es }

section
variable {s : State} {b : BitVec 4} {r : BitVec 3} (rewind : s.dev.tl.rewind = none)
include rewind

theorem captureArmEffect_samples (armed : (s.dev.ring b.toNat r.toNat).armed = true) (waits : (s.dev.ring b.toNat r.toNat).running = false)
    (epoch : (s.dev.ring b.toNat r.toNat).epoch = s.dev.tl.epoch) :
    ∃ t, exec (.captureArmEffect b r) s = .next t ∧ Keeps [.banks, .tl] s t ∧
      (t.dev.ring b.toNat r.toNat).running = true ∧ (t.dev.ring b.toNat r.toNat).prevEnd = (s.dev.ring b.toNat r.toNat).effAt ∧
      (t.dev.ring b.toNat r.toNat).armedAt =
        if (s.dev.ring b.toNat r.toNat).pre = 0 then some (s.dev.ring b.toNat r.toNat).effAt else none := by
  let a : Dev := s.dev.advance (s.dev.ring b.toNat r.toNat).effAt
  have runs : exec (.captureArmEffect b r) s = .next { s with dev := ((a.dropAct (s.dev.ring b.toNat r.toNat).armTag .capArm).modRing
      b.toNat r.toNat (Ring.sampling (a.pastEvents b.toNat r.toNat (s.dev.ring b.toNat r.toNat)))).commit } := by
    refine (onDev_runs ?_ : execCaptureArmEffect b r s = _)
    dsimp only
    rw [if_neg (by simp [armed, waits, epoch]), due_of_no_rewind rewind]
    rfl
  have same : (a.dropAct (s.dev.ring b.toNat r.toNat).armTag .capArm).ring b.toNat r.toNat = s.dev.ring b.toNat r.toNat :=
    ring_of_banks (s.dev.advance_banks _) _ _
  have frame : SameBut [.banks, .tl] a (a.dropAct (s.dev.ring b.toNat r.toNat).armTag .capArm) := (dropAct_keeps _ _ _).mono (by simp)
  generalize a.pastEvents b.toNat r.toNat (s.dev.ring b.toNat r.toNat) = es at runs
  generalize a.dropAct (s.dev.ring b.toNat r.toNat).armTag .capArm = e at runs same frame
  refine ⟨_, runs, keeps_commit (advance_keeps_trans _ (frame.trans ((modRing_keeps _ _ _ _).mono (by simp)))), ?_, ?_, ?_⟩ <;>
    dsimp only <;> rw [commit_bankRing, modRing_ring_self, same] <;> rfl

omit rewind in
theorem askRun_ring (d : Dev) (b r stamp k x : Nat) : (d.askRun b r stamp).ring k x = d.ring k x := by
  unfold Dev.askRun
  cases (d.lane b).run with
  | none => rfl
  | some y =>
    dsimp only
    split_ifs
    exacts [rfl, rfl, modLane_ring _ _ _ _ _]

omit rewind in
theorem askRun_keeps (d : Dev) (b r stamp : Nat) : SameBut [.banks, .dsp] d (d.askRun b r stamp) := by
  unfold Dev.askRun
  cases (d.lane b).run with
  | none => exact SameBut.refl _ _
  | some y =>
    dsimp only
    split_ifs
    exacts [SameBut.refl _ _, (setDsp_keeps _ _).mono (by simp), (modLane_keeps _ _ _).mono (by simp)]

theorem recordClose_closes {k : Rec} {z : Nat} (cur : (s.dev.ring b.toNat r.toNat).cur = some k)
    (last : (s.dev.ring b.toNat r.toNat).lastEnd = some z) (open_ : k.closing = false) (full : k.post ≤ k.got) :
    ∃ t, exec (.recordClose b r) s = .next t ∧ Keeps [.banks, .dsp] s t ∧
      t.dev.ring b.toNat r.toNat = { s.dev.ring b.toNat r.toNat with cur := some { k with closing := true, ended := z } } := by
  let a : Dev := s.dev.advance z
  let f : Ring → Ring := fun g => { g with cur := some { k with closing := true, ended := z } }
  have same : a.ring b.toNat r.toNat = s.dev.ring b.toNat r.toNat := ring_of_banks (s.dev.advance_banks z) _ _
  have runs : exec (.recordClose b r) s = .next { s with dev := ((a.modRing b.toNat r.toNat f).askRun b.toNat r.toNat z).commit } := by
    refine (onDev_runs ?_ : execRecordClose b r s = _)
    dsimp only
    rw [cur, last]
    dsimp only
    rw [open_, decide_eq_false (by omega), if_neg (by simp), due_of_no_rewind rewind]
    unfold Dev.closeRec
    dsimp only
    rw [same, cur]
    exact if_neg (by simp [open_])
  refine ⟨_, runs, keeps_commit (advance_keeps_trans z (((modRing_keeps a _ _ f).mono (by simp)).trans (askRun_keeps _ _ _ z))), ?_⟩
  dsimp only
  rw [commit_bankRing, askRun_ring, modRing_ring_self, same]

theorem recordHeaderCommit_heads {k : Rec} (cur : (s.dev.ring b.toNat r.toNat).cur = some k) (closing : k.closing = true) :
    ∃ t, exec (.recordHeaderCommit b r) s = .next t ∧ Keeps [.banks, .tl] s t ∧
      (t.dev.ring b.toNat r.toNat).cur = none ∧ (t.dev.ring b.toNat r.toNat).records = (s.dev.ring b.toNat r.toNat).records + 1 ∧
      (t.dev.ring b.toNat r.toNat).prevEnd = k.ended ∧
      (t.dev.ring b.toNat r.toNat).armed = ((s.dev.ring b.toNat r.toNat).armed && ((s.dev.ring b.toNat r.toNat).limit == 0 ||
        decide ((s.dev.ring b.toNat r.toNat).records + 1 < (s.dev.ring b.toNat r.toNat).limit))) ∧
      (t.dev.ring b.toNat r.toNat).closed = (if (s.dev.ring b.toNat r.toNat).drain then (s.dev.ring b.toNat r.toNat).closed
        else (s.dev.ring b.toNat r.toNat).closed ++
          [{ record := (s.dev.ring b.toNat r.toNat).records % 65536, parts := k.parts }]) := by
  let a : Dev := s.dev.advance (k.ended + 16 * clk)
  have same : a.ring b.toNat r.toNat = s.dev.ring b.toNat r.toNat := ring_of_banks (s.dev.advance_banks _) _ _
  have runs : exec (.recordHeaderCommit b r) s = .next { s with dev := (a.commitHeader b.toNat r.toNat).commit } := by
    refine (onDev_runs ?_ : execRecordHeaderCommit b r s = _)
    rw [cur]
    dsimp only
    rw [closing, if_pos rfl]
    exact due_of_no_rewind rewind _ _
  obtain ⟨frame, ring⟩ := commitHeader_ring (d := a) (b := b.toNat) (r := r.toNat) (k := k) (by rw [same, cur])
  rw [same] at ring
  generalize a.commitHeader b.toNat r.toNat = e at runs frame ring
  generalize s.dev.ring b.toNat r.toNat = g at ring
  have view : ∀ {γ : Type} (v : Ring → γ), (∀ g a, v (Ring.resampled a g) = v g) → (∀ g, v (Ring.disarmed g) = v g) →
      v (e.ring b.toNat r.toNat) = v { g with
        cur := none, events := g.events.filter (fun e => decide (e.2 ≥ k.ended)), records := g.records + 1, prevEnd := k.ended
        missed := 0, discarded := 0, filled := 0
        armedAt := if g.pre = 0 then some (k.ended + 16 * clk) else none, recent := [], recentFails := []
        rptr := if g.drain then (k.slot + k.pre + k.got) % max 1 g.slots else g.rptr
        closed := if g.drain then g.closed else g.closed ++ [{ record := g.records % 65536, parts := k.parts }] } := by
    intro γ v sampled left
    rw [ring]
    split
    · exact (left _).trans (resume_view v sampled _)
    · exact resume_view v sampled _
  refine ⟨_, runs, keeps_commit (advance_keeps_trans _ frame), ?_, ?_, ?_, ?_, ?_⟩ <;> dsimp only <;> rw [commit_bankRing]
  · exact view Ring.cur (fun _ _ => rfl) fun _ => rfl
  · exact view Ring.records (fun _ _ => rfl) fun _ => rfl
  · exact view Ring.prevEnd (fun _ _ => rfl) fun _ => rfl
  · have headed : (g.headed k).armed = g.armed := resume_view Ring.armed (fun _ _ => rfl) _
    rw [ring]
    split
    case isTrue last =>
      obtain ⟨-, some_, full⟩ := last
      have more : ¬ g.records + 1 < g.limit := by omega
      simp [Ring.disarmed, some_, more]
    case isFalse more =>
      rw [headed]
      cases armed : g.armed with
      | false => rfl
      | true =>
        rw [armed] at more
        have short : g.limit = 0 ∨ g.records + 1 < g.limit := by
          by_cases zero : g.limit = 0
          · exact .inl zero
          · exact .inr (by by_contra x; exact more ⟨rfl, zero, by omega⟩)
        rcases short with short | short <;> simp [short]
  · exact view Ring.closed (fun _ _ => rfl) fun _ => rfl

end

/-! ### Trigger actions (R250, R257) -/

theorem modXt_keeps (d : Dev) (l : Nat) (f : Xt → Xt) : SameBut [.cap] d (d.modXt l f) := setCap_keeps _ _

theorem modXt_xt_self (d : Dev) (l : Nat) (f : Xt → Xt) : (d.modXt l f).xt l = f (d.xt l) := Tab.get_mod_self _ _ _ _

theorem modXt_xt_of_ne (d : Dev) {l k : Nat} (ne : k ≠ l) (f : Xt → Xt) : (d.modXt l f).xt k = d.xt k := Tab.get_mod_of_ne _ _ ne _

theorem fireLine_keeps (d : Dev) (l stamp : Nat) (c : BitVec 3) :
    SameBut [.cap] d (d.fireLine l stamp c) ∧ (d.fireLine l stamp c).banks = d.banks := by
  unfold Dev.fireLine
  dsimp only
  split_ifs
  exacts [⟨(modXt_keeps _ _ _).trans (linkOut_keeps _ _ _), rfl⟩, ⟨modXt_keeps _ _ _, rfl⟩, ⟨setCap_keeps _ _, rfl⟩]

/-- A fire on an armed line is noted, whether it goes out on a link or not. -/
theorem fireLine_sends {d : Dev} {l stamp : Nat} (armed : d.lineArmed l stamp = true) (c : BitVec 3) :
    ((d.fireLine l stamp c).xt l).sent = (d.xt l).sent ++ [(stamp, c)] := by
  have noted := congrArg Xt.sent (modXt_xt_self d l fun x => { x with sent := x.sent ++ [(stamp, c)] })
  unfold Dev.fireLine
  rw [if_pos armed]
  dsimp only
  split
  · exact noted
  · exact noted

/-- A trigger's report is posted where the action word asks for it. -/
def Dev.reported (d : Dev) (on : Bool) (src code : Nat) (data : List Int) (epoch : BitVec 16) (stamp : Nat) : Dev :=
  if on then d.postAt src code data epoch stamp d.tl.tq else d

theorem reported_keeps (parts : List Part) (d : Dev) (on : Bool) (src code : Nat) (data : List Int) (epoch : BitVec 16) (stamp : Nat) :
    SameBut parts d (d.reported on src code data epoch stamp) := by
  unfold Dev.reported
  split
  exacts [postAt_keeps parts d src code data epoch stamp d.tl.tq, SameBut.refl _ _]

theorem reported_banks_cap (d : Dev) (on : Bool) (src code : Nat) (data : List Int) (epoch : BitVec 16) (stamp : Nat) :
    (d.reported on src code data epoch stamp).banks = d.banks ∧ (d.reported on src code data epoch stamp).cap = d.cap := by
  unfold Dev.reported Dev.postAt
  split_ifs <;> exact ⟨rfl, rfl⟩

/-- Trigger actions on a ring whose action word asks for no jump. -/
theorem triggerAction_acts {s : State} {b : BitVec 4} {r : BitVec 3} {stamp n : Nat} {src : BitVec 3} {rest : List (Nat × BitVec 3 × Nat)}
    (actions : (s.dev.ring b.toNat r.toNat).actions = (stamp, src, n) :: rest)
    (stays : (s.dev.ring b.toNat r.toNat).action.getLsbD 0 = false) :
    ∃ t, exec (.triggerAction b r) s = .next t ∧ Keeps [.banks, .cap] s t ∧
      t.dev.ring b.toNat r.toNat = { s.dev.ring b.toNat r.toNat with actions := rest } ∧
      ((s.dev.ring b.toNat r.toNat).action.getLsbD 13 = true →
        s.dev.lineArmed (bits (s.dev.ring b.toNat r.toNat).action.toNat 14 2) stamp = true →
        (t.dev.xt (bits (s.dev.ring b.toNat r.toNat).action.toNat 14 2)).sent =
          (s.dev.xt (bits (s.dev.ring b.toNat r.toNat).action.toNat 14 2)).sent ++ [(stamp, src)]) := by
  let g := s.dev.ring b.toNat r.toNat
  let l := bits g.action.toNat 14 2
  let f : Ring → Ring := fun g => { g with actions := rest }
  let d : Dev := s.dev.modRing b.toNat r.toNat f
  let e : Dev := if g.action.getLsbD 13 then d.fireLine l stamp src else d
  have runs : exec (.triggerAction b r) s = .next { s with dev := (e.reported (g.action.getLsbD 16) (32 * b.toNat + 4 + r.toNat) 1
      [((n % 65536 : Nat) : Int), (src.toNat : Int)] g.epoch stamp).commit } := by
    refine (onDev_runs ?_ : execTriggerAction b r s = _)
    dsimp only
    rw [actions]
    dsimp only
    rw [stays]
    cases (s.dev.ring b.toNat r.toNat).owner with
    | none => rfl
    | some o => cases o <;> rfl
  have fired : SameBut [.cap] d e ∧ e.banks = d.banks := by
    dsimp only [e]
    split
    exacts [fireLine_keeps _ _ _ _, ⟨SameBut.refl _ _, rfl⟩]
  have ring : d.ring b.toNat r.toNat = f g := modRing_ring_self _ _ _ _
  have sent : g.action.getLsbD 13 = true → s.dev.lineArmed l stamp = true → (e.xt l).sent = (s.dev.xt l).sent ++ [(stamp, src)] := by
    intro on armed
    dsimp only [e]
    rw [if_pos on]
    exact fireLine_sends (d := d) armed src
  have frame : SameBut [.banks, .cap] s.dev e := ((modRing_keeps _ _ _ _).mono (by simp)).trans (fired.1.mono (by simp))
  have bank := fired.2
  generalize e = e at *
  obtain ⟨banks, cap⟩ := reported_banks_cap e (g.action.getLsbD 16) (32 * b.toNat + 4 + r.toNat) 1
    [((n % 65536 : Nat) : Int), (src.toNat : Int)] g.epoch stamp
  have kept := frame.trans (reported_keeps [.banks, .cap] e (g.action.getLsbD 16) (32 * b.toNat + 4 + r.toNat) 1
    [((n % 65536 : Nat) : Int), (src.toNat : Int)] g.epoch stamp)
  generalize e.reported (g.action.getLsbD 16) (32 * b.toNat + 4 + r.toNat) 1
    [((n % 65536 : Nat) : Int), (src.toNat : Int)] g.epoch stamp = x at runs banks cap kept
  refine ⟨_, runs, keeps_commit kept, ?_, fun on armed => ?_⟩
  · dsimp only
    rw [commit_bankRing, ring_of_banks (banks.trans bank), ring]
  · dsimp only
    rw [commit_xt, ← sent on armed, Dev.xt, cap, Dev.xt]

/-! ### CAP.DISARM -/

theorem closeRec_of_none {d : Dev} {b r : Nat} (none_ : (d.ring b r).cur = none) (z : Nat) (f : Rec → Rec) : d.closeRec b r z f = d := by
  unfold Dev.closeRec
  dsimp only
  rw [none_]

theorem interruptTap_of_none {d : Dev} {b : Nat} (none_ : (d.lane b).run = none) (tdc : Bool) (src : Nat) : d.interruptTap b tdc src = d := by
  unfold Dev.interruptTap
  rw [none_]

section
variable {s : State} {h : Hdr} (i : Idle s h) {b : BitVec 4} {r : BitVec 3}
include i

theorem capDisarm_disarms (armed : (s.dev.ring b.toNat r.toNat).armed = true) (between : (s.dev.ring b.toNat r.toNat).cur = none)
    (other : (s.dev.ring b.toNat r.toNat).armTag ≠ h.tag) (rests : (s.dev.lane b.toNat).run = none) :
    ∃ t, exec (.capDisarm h b r) s = .next t ∧ Keeps [.banks, .tl] s t ∧ Answers s t h 0x0804 stOk [] ∧
      (t.dev.ring b.toNat r.toNat).armed = false ∧ (t.dev.ring b.toNat r.toNat).running = false ∧
      (t.dev.ring b.toNat r.toNat).closed = (s.dev.ring b.toNat r.toNat).closed := by
  have same := takenUp_bankRing s.dev h 0x0804 b.toNat r.toNat
  have lane := takenUp_lane s.dev h 0x0804 b.toNat
  have absent := takenUp_flight_of_ne i 0x0804 other
  have still : (s.dev.takenUp h 0x0804).interruptRec b.toNat r.toNat (s.dev.takenUp h 0x0804).tl.now = s.dev.takenUp h 0x0804 := by
    unfold Dev.interruptRec
    rw [closeRec_of_none (by rw [same, between]), interruptTap_of_none (by rw [lane, rests])]
  have runs : exec (.capDisarm h b r) s =
      .next { s with dev := (((s.dev.takenUp h 0x0804).ringStop b.toNat r.toNat stOk).ok h.tag).commit } := by
    refine hostCmd_runs i 0x0804 ?_
    dsimp only
    rw [still, same, armed, between]
    rfl
  have quiet := ringStop_quiet (d := s.dev.takenUp h 0x0804) (b := b.toNat) (r := r.toNat) (by rw [same, armed]) stOk (by rw [same, absent])
  have ring := ringStop_ring (d := s.dev.takenUp h 0x0804) (b := b.toNat) (r := r.toNat) (by rw [same, armed]) stOk
  have frame := ringStop_keeps (s.dev.takenUp h 0x0804) b.toNat r.toNat stOk
  rw [same] at ring
  generalize (s.dev.takenUp h 0x0804).ringStop b.toNat r.toNat stOk = e at runs quiet ring frame
  refine ⟨_, runs, keeps_of_takenUp (op := 0x0804) (by decide) (frame.trans (ok_keeps _ _ _)), quiet.answers_ok i, ?_, ?_, ?_⟩ <;>
    dsimp only <;> rw [commit_bankRing, ok_bankRing, ring] <;> rfl

theorem capDisarm_refuses (unarmed : (s.dev.ring b.toNat r.toNat).armed = false) :
    ∃ t, exec (.capDisarm h b r) s = .next t ∧ Keeps [] s t ∧ Answers s t h 0x0804 stBadarg [] := by
  refine ⟨_, hostCmd_runs i 0x0804 ?_, refused_ends i 0x0804 (by decide) stBadarg 1 0 0⟩
  dsimp only
  rw [takenUp_bankRing, unarmed]
  rfl

end

/-! ### CAP.READ (R266) -/

theorem feedRead_ends {d : Dev} {b r : Nat} (n : Nat) (none_ : (d.ring b r).reads = []) : Dev.feedRead b r n d = d := by
  cases n with
  | zero => rfl
  | succ n =>
    unfold Dev.feedRead
    dsimp only
    rw [none_]

/-- A ring whose first CAP.READ has ended. -/
def Ring.readsLeft (more : List (Tag × Nat)) (g : Ring) : Ring := { g with reads := more }

theorem feedRead_finishes {d : Dev} {b r : Nat} (n : Nat) {g : Tag} {left : Nat} {more : List (Tag × Nat)}
    (reads : (d.ring b r).reads = (g, left) :: more) (last : left = 0 ∨ (d.ring b r).closed = []) :
    Dev.feedRead b r (n + 1) d = Dev.feedRead b r n ((d.modRing b r (Ring.readsLeft more)).finish g {}) := by
  conv_lhs => unfold Dev.feedRead
  dsimp only
  rw [reads]
  dsimp only
  cases closed : (d.ring b r).closed with
  | nil => rfl
  | cons k ks => exact if_pos (last.resolve_right (by simp [closed]))

/-- A ring whose first closed record has been read. -/
def Ring.recordRead (ks : List Closed) (rs : List (Tag × Nat)) (g : Ring) : Ring := { g with closed := ks, reads := rs }

theorem feedRead_nextRecord {d : Dev} {b r : Nat} (n : Nat) {g : Tag} {left : Nat} {more : List (Tag × Nat)} {k : Closed} {ks : List Closed}
    (reads : (d.ring b r).reads = (g, left) :: more) (some_ : left ≠ 0) (closed : (d.ring b r).closed = k :: ks) (read : k.parts = []) :
    Dev.feedRead b r (n + 1) d = Dev.feedRead b r n (d.modRing b r (Ring.recordRead ks ((g, left - 1) :: more))) := by
  conv_lhs => unfold Dev.feedRead
  dsimp only
  rw [reads]
  dsimp only
  rw [closed]
  dsimp only
  rw [if_neg some_, read]
  rfl

/-- A ring of which one packet of data has been read. -/
def Ring.packetRead (k : Closed) (ks : List Closed) (rest : List Piece) (g : Ring) : Ring := ({ g with
  closed := { k with parts := rest } :: ks
  rptr := (rest.head?.map (·.slot)).getD (((k.parts.getLast?.map fun q => q.slot + q.count).getD g.rptr) % max 1 g.slots) } : Ring).resume

theorem feedRead_sends {d : Dev} {b r : Nat} (n : Nat) {g : Tag} {left : Nat} {more : List (Tag × Nat)} {k : Closed} {ks : List Closed}
    {p : Packet} {rest : List Piece} (reads : (d.ring b r).reads = (g, left) :: more) (some_ : left ≠ 0)
    (closed : (d.ring b r).closed = k :: ks) (data : d.nextData b r (d.ring b r) k.record false k.parts = some (p, rest))
    (room : d.carafeLoad + p.len ≤ 16384) :
    Dev.feedRead b r (n + 1) d = Dev.feedRead b r n ((d.packet p).modRing b r (Ring.packetRead k ks rest)) := by
  conv_lhs => unfold Dev.feedRead
  dsimp only
  rw [reads]
  dsimp only
  rw [closed]
  dsimp only
  rw [if_neg some_, data]
  exact if_pos room

theorem length_ringLines (d : Dev) (b : Nat) (g : Ring) (line n : Nat) : (d.ringLines b g line n).length = 8 * n := by
  unfold Dev.ringLines
  rw [length_flatMap_of _ _ (n := 8) fun _ => by simp, List.length_range]
  omega

/-- A piece that fits one packet leaves with it. -/
theorem nextData_of_one (d : Dev) (b r : Nat) (g : Ring) (record : Nat) (poison : Bool) {p : Piece} (some_ : 0 < p.count)
    (fits : p.slot % g.perLine + p.count ≤ 31 * g.perLine) :
    ∃ k, d.nextData b r g record poison [p] = some (k, []) ∧ k.len ≤ 251 := by
  have per : 0 < g.perLine := by
    rcases Nat.eq_zero_or_pos g.perLine with zero | pos
    · rw [zero] at fits
      omega
    · exact pos
  have lines : min 31 (ceilDiv (p.slot % g.perLine + p.count) g.perLine) = ceilDiv (p.slot % g.perLine + p.count) g.perLine := by
    refine Nat.min_eq_right ?_
    unfold ceilDiv
    rw [← Nat.lt_succ_iff, Nat.div_lt_iff_lt_mul per]
    omega
  have whole : p.slot % g.perLine + p.count ≤ ceilDiv (p.slot % g.perLine + p.count) g.perLine * g.perLine := by
    unfold ceilDiv
    have := Nat.lt_div_mul_add (a := p.slot % g.perLine + p.count + g.perLine - 1) per
    omega
  have all : min p.count (min 31 (ceilDiv (p.slot % g.perLine + p.count) g.perLine) * g.perLine - p.slot % g.perLine) = p.count := by
    rw [lines]
    omega
  unfold Dev.nextData
  dsimp only
  rw [all, Nat.sub_self, if_pos rfl]
  refine ⟨_, rfl, ?_⟩
  simp only [Packet.len, List.length_cons, length_ringLines]
  omega

/-- A ring of which records have been asked for. -/
def Ring.asked (g : Tag) (n : Nat) (x : Ring) : Ring := { x with reads := x.reads ++ [(g, min n x.closed.length)] }

theorem readsLeft_asked {x : Ring} (unread : x.reads = []) (g : Tag) (n : Nat) : (x.asked g n).readsLeft [] = x := by
  cases x
  subst unread
  rfl

theorem accepted_ring {s : State} {h : Hdr} (op : BitVec 16) (b r : Nat) : ((s.dev.takenUp h op).accept h.tag).ring b r = s.dev.ring b r :=
  (ring_of_banks (Dev.accept_banks _ _) b r).trans (takenUp_bankRing _ _ _ _ _)

section
variable {s : State} {h : Hdr} (i : Idle s h) {b : BitVec 4} {r : BitVec 3} (defined : (s.dev.ring b.toNat r.toNat).len ≠ 0)
  (configured : (s.dev.ring b.toNat r.toNat).configured = true) (kept : (s.dev.ring b.toNat r.toNat).drain = false)
  (unread : (s.dev.ring b.toNat r.toNat).reads = [])
include i

/-- A command that a later step of its own meaning completes, after changes that the way to the ring does not see. -/
theorem Quiet.completes {op : BitVec 16} {e : Dev} (q : Quiet ((s.dev.takenUp h op).accept h.tag) e) :
    Answers s { s with dev := (e.finish h.tag {}).commit } h op stOk [] :=
  have flights := q.flights.trans (accept_flights_newFlight (takenUp_flights i op))
  (finish_ended_newFlight flights {} (.inl rfl) rfl rfl).answers i
    ((finish_cplPath_of flights rfl _).trans (q.path.trans ((accept_cplPath _ _).trans (takenUp_cplPath i op)))) (.inr rfl)

include defined configured kept unread

/-- CAP.READ of a ring that is not drained queues its request and feeds it. -/
theorem capRead_runs (n : Nat) : exec (.capRead h b r n) s = .next { s with dev := (Dev.feedRead b.toNat r.toNat 4096
    (((s.dev.takenUp h 0x0806).accept h.tag).modRing b.toNat r.toNat (Ring.asked h.tag n))).commit } := by
  refine hostCmd_runs i 0x0806 ?_
  dsimp only
  rw [takenUp_bankRing, if_neg (by simp [defined, configured, kept])]
  rfl

theorem capRead_empty {n : Nat} (nothing : n = 0 ∨ (s.dev.ring b.toNat r.toNat).closed = []) :
    ∃ t, exec (.capRead h b r n) s = .next t ∧ Keeps [.banks] s t ∧ Answers s t h 0x0806 stOk [] ∧
      t.dev.ring b.toNat r.toNat = s.dev.ring b.toNat r.toNat := by
  have runs := capRead_runs i defined configured kept unread n
  have frame : SameBut [.banks] (s.dev.takenUp h 0x0806)
      (((s.dev.takenUp h 0x0806).accept h.tag).modRing b.toNat r.toNat (Ring.asked h.tag n)) :=
    (accept_keeps _ _ _).trans (modRing_keeps _ _ _ _)
  have quiet : Quiet ((s.dev.takenUp h 0x0806).accept h.tag)
      (((s.dev.takenUp h 0x0806).accept h.tag).modRing b.toNat r.toNat (Ring.asked h.tag n)) := .of_ctl rfl
  have ring := (modRing_ring_self ((s.dev.takenUp h 0x0806).accept h.tag) b.toNat r.toNat (Ring.asked h.tag n)).trans
    (congrArg (Ring.asked h.tag n) (accepted_ring 0x0806 b.toNat r.toNat))
  generalize ((s.dev.takenUp h 0x0806).accept h.tag).modRing b.toNat r.toNat (Ring.asked h.tag n) = d at runs frame quiet ring
  have reads : (d.ring b.toNat r.toNat).reads = (h.tag, min n (s.dev.ring b.toNat r.toNat).closed.length) :: [] := by
    rw [ring, Ring.asked, unread]
    rfl
  have after : ((d.modRing b.toNat r.toNat (Ring.readsLeft [])).finish h.tag {}).ring b.toNat r.toNat = (d.ring b.toNat r.toNat).readsLeft [] :=
    (ring_of_banks (Dev.finish_banks _ _ _) _ _).trans (modRing_ring_self _ _ _ _)
  rw [feedRead_finishes 4095 reads (by rw [ring]; rcases nothing with zero | none_ <;> simp [*, Ring.asked]),
    feedRead_ends 4095 (by rw [after]; rfl)] at runs
  have kept' := (frame.trans (modRing_keeps d b.toNat r.toNat (Ring.readsLeft []))).trans (finish_keeps _ _ h.tag {})
  have answers := Quiet.completes i (quiet.trans (.of_ctl (b := d.modRing b.toNat r.toNat (Ring.readsLeft [])) rfl))
  refine ⟨_, runs, keeps_of_takenUp (op := 0x0806) (by decide) kept', answers, ?_⟩
  dsimp only
  rw [commit_bankRing, after, ring]
  exact readsLeft_asked unread h.tag n

theorem capRead_moves {n : Nat} {k : Closed} {p : Piece} (asks : 1 ≤ n) (closed : (s.dev.ring b.toNat r.toNat).closed = [k])
    (parts : k.parts = [p]) (some_ : 0 < p.count)
    (fits : p.slot % (s.dev.ring b.toNat r.toNat).perLine + p.count ≤ 31 * (s.dev.ring b.toNat r.toNat).perLine)
    (room : s.dev.carafeLoad + 251 ≤ 16384) :
    ∃ t, exec (.capRead h b r n) s = .next t ∧ Keeps [.banks] s t ∧ Answers s t h 0x0806 stOk [] ∧
      (t.dev.ring b.toNat r.toNat).closed = [] ∧ (t.dev.ring b.toNat r.toNat).reads = [] ∧
      (t.dev.ring b.toNat r.toNat).rptr = (p.slot + p.count) % max 1 (s.dev.ring b.toNat r.toNat).slots := by
  have runs := capRead_runs i defined configured kept unread n
  have frame : SameBut [.banks] (s.dev.takenUp h 0x0806)
      (((s.dev.takenUp h 0x0806).accept h.tag).modRing b.toNat r.toNat (Ring.asked h.tag n)) :=
    (accept_keeps _ _ _).trans (modRing_keeps _ _ _ _)
  have quiet : Quiet ((s.dev.takenUp h 0x0806).accept h.tag)
      (((s.dev.takenUp h 0x0806).accept h.tag).modRing b.toNat r.toNat (Ring.asked h.tag n)) := .of_ctl rfl
  have ring := (modRing_ring_self ((s.dev.takenUp h 0x0806).accept h.tag) b.toNat r.toNat (Ring.asked h.tag n)).trans
    (congrArg (Ring.asked h.tag n) (accepted_ring 0x0806 b.toNat r.toNat))
  have load : (((s.dev.takenUp h 0x0806).accept h.tag).modRing b.toNat r.toNat (Ring.asked h.tag n)).carafeLoad = s.dev.carafeLoad := by
    have cap : ((s.dev.takenUp h 0x0806).accept h.tag).cap = s.dev.cap := (Dev.accept_cap _ _).trans (by simp [Dev.takenUp])
    have out : ((s.dev.takenUp h 0x0806).accept h.tag).ctl.outbox = s.dev.ctl.outbox := by
      show (s.dev.takenUp h 0x0806).ctl.outbox = _
      rw [takenUp_ctl i]
    show Dev.carafeLoad ((s.dev.takenUp h 0x0806).accept h.tag) = _
    rw [Dev.carafeLoad, cap, out, Dev.carafeLoad]
  generalize ((s.dev.takenUp h 0x0806).accept h.tag).modRing b.toNat r.toNat (Ring.asked h.tag n) = d at runs frame quiet ring load
  have reads : (d.ring b.toNat r.toNat).reads = (h.tag, 1) :: [] := by
    rw [ring, Ring.asked, unread, closed]
    simp [asks]
  obtain ⟨q, data, short⟩ := nextData_of_one d b.toNat r.toNat (d.ring b.toNat r.toNat) k.record false (p := p) some_ (by rw [ring]; exact fits)
  let e : Dev := (d.packet q).modRing b.toNat r.toNat (Ring.packetRead k [] [])
  have ringE : e.ring b.toNat r.toNat = (d.ring b.toNat r.toNat).packetRead k [] [] := modRing_ring_self _ _ _ _
  have view : ∀ {γ : Type} (v : Ring → γ), (∀ g a, v (Ring.resampled a g) = v g) → v (e.ring b.toNat r.toNat) = v { d.ring b.toNat r.toNat with
      closed := [{ k with parts := [] }]
      rptr := (([] : List Piece).head?.map (·.slot)).getD (((k.parts.getLast?.map fun q => q.slot + q.count).getD
        (d.ring b.toNat r.toNat).rptr) % max 1 (d.ring b.toNat r.toNat).slots) } := fun v x => by
    rw [ringE]
    exact resume_view v x _
  have readsE : (e.ring b.toNat r.toNat).reads = (h.tag, 1) :: [] := (view Ring.reads fun _ _ => rfl).trans reads
  have closedE : (e.ring b.toNat r.toNat).closed = { k with parts := [] } :: [] := view Ring.closed fun _ _ => rfl
  let x : Dev := e.modRing b.toNat r.toNat (Ring.recordRead [] ((h.tag, 0) :: []))
  have ringX : x.ring b.toNat r.toNat = (e.ring b.toNat r.toNat).recordRead [] ((h.tag, 0) :: []) := modRing_ring_self _ _ _ _
  have after : ((x.modRing b.toNat r.toNat (Ring.readsLeft [])).finish h.tag {}).ring b.toNat r.toNat = (x.ring b.toNat r.toNat).readsLeft [] :=
    (ring_of_banks (Dev.finish_banks _ _ _) _ _).trans (modRing_ring_self _ _ _ _)
  rw [feedRead_sends 4095 reads (by decide) (by rw [ring]; exact closed) (by rw [parts]; exact data) (by omega),
    feedRead_nextRecord 4094 readsE (by decide) closedE rfl, feedRead_finishes 4093 (d := x) (by rw [ringX]; rfl) (.inl rfl),
    feedRead_ends 4093 (by rw [after]; rfl)] at runs
  have kept' := (((frame.trans ((packet_keeps _ d q).trans (modRing_keeps (d.packet q) b.toNat r.toNat (Ring.packetRead k [] [])))).trans
    (modRing_keeps e b.toNat r.toNat (Ring.recordRead [] ((h.tag, 0) :: [])))).trans
      (modRing_keeps x b.toNat r.toNat (Ring.readsLeft []))).trans (finish_keeps _ _ h.tag {})
  have answers := Quiet.completes i (quiet.trans ((packet_quiet d q).trans
    (.of_ctl (b := x.modRing b.toNat r.toNat (Ring.readsLeft [])) rfl)))
  refine ⟨_, runs, keeps_of_takenUp (op := 0x0806) (by decide) kept', answers, ?_, ?_, ?_⟩ <;> dsimp only <;>
    rw [commit_bankRing, after, ringX]
  · rfl
  · rfl
  · have moved : (e.ring b.toNat r.toNat).rptr = (p.slot + p.count) % max 1 (s.dev.ring b.toNat r.toNat).slots := by
      have found := view Ring.rptr fun _ _ => rfl
      rw [parts, ring] at found
      exact found
    generalize e.ring b.toNat r.toNat = y at moved
    exact moved

end

end Sys2Proof.Machine
open Sys2Proof Sys2Proof.Machine

/-- Settles O52, by what arming, the header of a record, disarming and reading leave of a ring. -/
theorem ringRecords : Obligations.RingRecords := by
  unfold Obligations.RingRecords
  rintro s b r g rfl
  refine ⟨fun h w n e st late i unarmed defined configured before free place => capArm_waits i n unarmed defined configured before free place,
    fun rewind armed waits epoch => captureArmEffect_samples rewind armed waits epoch,
    fun k z rewind cur last open_ full => recordClose_closes rewind cur last open_ full, ?_,
    fun h i armed between other rests => capDisarm_disarms i armed between other rests,
    fun h i unarmed => capDisarm_refuses i unarmed,
    fun h n i defined configured kept unread nothing => capRead_empty i defined configured kept unread nothing,
    fun h n k p i defined configured kept unread asks closed parts some_ fits room =>
      capRead_moves i defined configured kept unread asks closed parts some_ fits room,
    fun stamp src n rest actions stays => triggerAction_acts actions stays⟩
  intro k rewind cur closing
  exact recordHeaderCommit_heads rewind cur closing

end


section
/-!
PROOFS. The other commands of acquisition (R250, R255 to R258, R268): firing, fail records and counts, cross-chip lines, flushes.
-/
namespace Sys2Proof.Machine

/-! ### What a trigger changes at once -/

/-- A change of the banks alone, which may send packets. -/
structure Captured (d e : Dev) : Prop where
  frame : SameBut [.banks] d e
  tl : e.tl = d.tl
  quiet : Quiet d e

theorem Captured.refl (d : Dev) : Captured d d := ⟨SameBut.refl _ _, rfl, .refl d⟩
theorem Captured.trans {c d e : Dev} (x : Captured c d) (y : Captured d e) : Captured c e :=
  ⟨x.frame.trans y.frame, y.tl.trans x.tl, x.quiet.trans y.quiet⟩
theorem captured_modRing (d : Dev) (b r : Nat) (f : Ring → Ring) : Captured d (d.modRing b r f) := ⟨modRing_keeps _ _ _ _, rfl, .of_ctl rfl⟩
theorem captured_packet (d : Dev) (p : Packet) : Captured d (d.packet p) := ⟨packet_keeps _ _ _, rfl, packet_quiet _ _⟩

theorem captured_ite {d a b : Dev} {p : Prop} [Decidable p] (x : Captured d a) (y : Captured d b) : Captured d (if p then a else b) := by
  split
  exacts [x, y]

theorem foldl_captured {α : Type} {f : Dev → α → Dev} (h : ∀ d x, Captured d (f d x)) (l : List α) (d : Dev) : Captured d (l.foldl f d) := by
  induction l generalizing d with
  | nil => exact .refl d
  | cons x l ih => exact (h d x).trans (ih _)

theorem drainLines_captured (d : Dev) (b r : Nat) : Captured d (d.drainLines b r) := by
  unfold Dev.drainLines forEach
  dsimp only
  split
  · exact .refl d
  · refine foldl_captured (fun d _ => ?_) _ d
    split
    · exact .refl d
    · split
      · exact .refl d
      · split
        · exact .refl d
        · split
          · exact .refl d
          · exact (captured_packet _ _).trans (captured_modRing _ _ _ _)

theorem startRec_captured (d : Dev) (b r : Nat) (evs : List (BitVec 3 × Nat)) (back : Nat) (pause : Bool) :
    Captured d (d.startRec b r evs back pause) := by
  unfold Dev.startRec
  dsimp only
  split
  · exact (captured_modRing _ _ _ _).trans (drainLines_captured _ b r)
  · exact .refl d

theorem raise_captured (d : Dev) (b r : Nat) (c : BitVec 3) (e : Nat) : Captured d (d.raise b r c e) := by
  unfold Dev.raise
  dsimp only
  split
  · exact .refl d
  · split
    · exact captured_ite (captured_modRing _ _ _ _) (captured_ite (captured_modRing _ _ _ _) (.refl d))
    · split
      · split
        · split
          · exact startRec_captured d b r _ _ _
          · exact captured_modRing _ _ _ _
        · exact captured_modRing _ _ _ _
      · exact captured_modRing _ _ _ _

theorem planCond_captured (d : Dev) (b r : Nat) (c : BitVec 3) (e : Nat) : Captured d (d.planCond b r c e) := by
  unfold Dev.planCond
  split
  exacts [raise_captured d b r c e, captured_modRing _ _ _ _]

/-- A CAP.FIRE reaches the rings of its set that sample in its epoch (R250). -/
def Dev.fired (d : Dev) (b : Nat) (rings : BitVec 8) (epoch : BitVec 16) (stamp : Nat) : Dev :=
  (members rings).foldl (fun d r =>
    let g : Ring := d.ring b r
    if g.running ∧ epoch = g.epoch then
      (g.condsOf fun c => condKind c == 8).foldl (fun d c => d.planCond b r c stamp) d
    else d) d

theorem fired_captured (d : Dev) (b : Nat) (rings : BitVec 8) (epoch : BitVec 16) (stamp : Nat) :
    Captured d (d.fired b rings epoch stamp) := by
  refine foldl_captured (fun d r => ?_) _ d
  dsimp only
  split
  exacts [foldl_captured (fun d c => planCond_captured d b r c stamp) _ d, .refl d]

section
variable {s : State} {h : Hdr} (i : Idle s h)
include i

/-- A scheduled command that completes at its acceptance with the stamp of its effect. -/
theorem Quiet.completesStamped {op : BitVec 16} {e : Dev} (q : Quiet ((s.dev.takenUp h op).accept h.tag) e) (late : Bool) (tq : BitVec 4)
    {epoch : BitVec 16} (now : epoch = e.tl.epoch) (stamp : Nat) :
    Answers s { s with dev := (e.finish h.tag (stamped { late := late } tq epoch stamp)).commit } h op stOk [] :=
  have flights := q.flights.trans (accept_flights_newFlight (takenUp_flights i op))
  (finish_ended_newFlight flights (stamped { late := late } tq epoch stamp) (.inr (.inr now)) rfl rfl).answers i
    ((finish_cplPath_of flights rfl _).trans (q.path.trans ((accept_cplPath _ _).trans (takenUp_cplPath i op)))) (.inr rfl)

/-! ### CAP.FIRE -/

theorem capFire_fires (b : BitVec 4) (rings : BitVec 8) {w : When} {e : BitVec 16} {st : Nat} {late : Bool}
    (place : (s.dev.advance h.t).schedule w clk true = .ok (e, st, late)) (now : e = s.dev.tl.epoch) :
    ∃ t, exec (.capFire h b rings w) s = .next t ∧ Keeps [.banks, .tl] s t ∧ Answers s t h 0x0805 stOk [] ∧
      t.dev.tl.acts = s.dev.tl.acts ++
        [{ tag := h.tag, kind := .capFire, epoch := e, stamp := st, user := b.toNat * 256 + rings.toNat }] := by
  have placed := (schedule_of_tl (takenUp_tl s.dev h 0x0805) w clk true).trans place
  let a : Act := { tag := h.tag, kind := .capFire, epoch := e, stamp := st, user := b.toNat * 256 + rings.toNat }
  let d : Dev := ((s.dev.takenUp h 0x0805).accept h.tag).addAct a
  have runs : exec (.capFire h b rings w) s = .next { s with dev := ((d.fired b.toNat rings e st).finish h.tag
      (stamped { late := late } (d.fired b.toNat rings e st).tl.tq e st)).commit } := by
    refine hostCmd_runs i 0x0805 ?_
    dsimp only
    rw [placed]
    rfl
  have hit := fired_captured d b.toNat rings e st
  have frame : SameBut [.banks, .tl] (s.dev.takenUp h 0x0805) (d.fired b.toNat rings e st) :=
    (accept_keeps _ _ _).trans (((addAct_keeps _ a).mono (by simp)).trans (hit.frame.mono (by simp)))
  have quiet : Quiet ((s.dev.takenUp h 0x0805).accept h.tag) (d.fired b.toNat rings e st) :=
    (Quiet.of_ctl (a := (s.dev.takenUp h 0x0805).accept h.tag) (b := d) rfl).trans hit.quiet
  have acts : (d.fired b.toNat rings e st).tl.acts = s.dev.tl.acts ++ [a] := by
    rw [hit.tl]
    exact congrArg (· ++ [a]) ((congrArg Timeline.acts (Dev.accept_tl _ _)).trans (takenUp_acts s.dev h 0x0805))
  have epoch : (d.fired b.toNat rings e st).tl.epoch = s.dev.tl.epoch := by
    rw [hit.tl]
    exact (congrArg Timeline.epoch (Dev.accept_tl _ _)).trans (by simp [takenUp_tl])
  generalize d.fired b.toNat rings e st = x at runs frame quiet acts epoch
  refine ⟨_, runs, keeps_of_takenUp (op := 0x0805) (by decide) (frame.trans (finish_keeps _ _ _ _)),
    quiet.completesStamped i late _ (now.trans epoch.symm) st, ?_⟩
  dsimp only
  rw [commit_tl, Dev.finish_tl, acts]

/-! ### CAP.FAILCFG and CAP.COUNTS -/

theorem capFailcfg_sets (m : BitVec 64) (ffr : Bool) {limit : Nat} (snap : Bool) (most : limit ≤ 1024)
    (idle : ∀ k ∈ members m, s.dev.notLead k = false ∧ (s.dev.thread k).st = .idle) :
    ∃ t, exec (.capFailcfg h m ffr limit snap) s = .next t ∧ Keeps [.seq] s t ∧ Answers s t h 0x0807 stOk [] ∧
      ∀ k, k < 64 → t.dev.thread k =
        if m.getLsbD k then { s.dev.thread k with ffr := ffr, logLimit := limit, snap := snap } else s.dev.thread k := by
  let f : Dev → Nat → Dev := fun d t => d.modThread t fun x => { x with ffr := ffr, logLimit := limit, snap := snap }
  let d : Dev := (members m).foldl f (s.dev.takenUp h 0x0807)
  have frame : SameBut [.seq] (s.dev.takenUp h 0x0807) d := .foldl (fun d k => modThread_keeps d k _) _ _
  have ctl : d.ctl = (s.dev.takenUp h 0x0807).ctl := foldl_leaves Dev.ctl (f := f) (fun _ _ => rfl) _ _
  have runs : exec (.capFailcfg h m ffr limit snap) s = .next { s with dev := (d.ok h.tag).commit } := by
    refine hostCmd_runs i 0x0807 ?_
    rw [if_neg (by omega), allOrNone_pass fun k mem => ?_]
    rw [takenUp_thread, takenUp_view (Dev.notLead · k) (fun _ _ _ _ => rfl) s.dev h 0x0807, (idle k mem).1, (idle k mem).2]
    rfl
  obtain ⟨kept, answer⟩ := ok_ends i 0x0807 (by decide) ctl frame
  refine ⟨_, runs, kept, answer, fun k less => ?_⟩
  have each := get_foldl Dev.thread f (fun x => { x with ffr := ffr, logLimit := limit, snap := snap })
    (fun d k => modThread_thread_self d k _) (fun d k j ne => Tab.get_mod_of_ne _ _ ne _) k (members m) (nodup_members m)
    (s.dev.takenUp h 0x0807)
  rw [takenUp_thread] at each
  dsimp only
  rw [commit_thread, thread_of_seq (Dev.ok_seq _ _), each]
  simp [mem_members, less]

theorem capCounts_reads (m : BitVec 512) (clear : Bool) : ∃ t, exec (.capCounts h m clear) s = .next t ∧ Keeps [.pins] s t ∧
    Answers s t h 0x0808 stOk ((members m).map fun ch => ((s.dev.chan ch).failCount.toNat : Int)) ∧
    ∀ ch, ch < 512 → t.dev.chan ch =
      if clear = true ∧ m.getLsbD ch = true then { s.dev.chan ch with failCount := 0 } else s.dev.chan ch := by
  let f : Dev → Nat → Dev := fun d ch => d.modChan ch fun c => { c with failCount := 0 }
  let d : Dev := if clear then (members m).foldl f (s.dev.takenUp h 0x0808) else s.dev.takenUp h 0x0808
  have ctl : d.ctl = (s.dev.takenUp h 0x0808).ctl := by
    dsimp only [d]
    split
    exacts [foldl_leaves Dev.ctl (f := f) (fun d ch => d.modChan_ctl ch _) _ _, rfl]
  have frame : SameBut [.pins] (s.dev.takenUp h 0x0808) d := by
    dsimp only [d]
    split
    exacts [.foldl (fun d ch => modChan_keeps d ch _) _ _, SameBut.refl _ _]
  have counts : ((members m).map fun ch => (((s.dev.takenUp h 0x0808).chan ch).failCount.toNat : Int)) =
      (members m).map fun ch => ((s.dev.chan ch).failCount.toNat : Int) :=
    List.map_congr_left fun ch _ => by rw [takenUp_chan]
  refine ⟨_, (hostCmd_runs i 0x0808 rfl).trans (by rw [counts]), keeps_of_takenUp (op := 0x0808) (by decide) (frame.trans (okResp_keeps _ _ _ _)),
    answers_okResp i 0x0808 d _ ctl (.inl (by decide)), fun ch less => ?_⟩
  have each := get_foldl Dev.chan f (fun c => { c with failCount := 0 }) (fun d k => modChan_chan_self d k _)
    (fun d k j ne => modChan_chan_of_ne d ne _) ch (members m) (nodup_members m) (s.dev.takenUp h 0x0808)
  rw [takenUp_chan] at each
  dsimp only
  rw [commit_chan, chan_of_pins (Dev.okResp_pins _ _ _)]
  cases clear with
  | false => exact (takenUp_chan _ _ _ _).trans (if_neg (by simp)).symm
  | true =>
    dsimp only [d]
    rw [if_pos rfl, each]
    simp [mem_members, less]

/-! ### CAP.XARM (R255) -/

theorem capXarm_denied (l : BitVec 2) (w : When) (rearm arm : Bool) (worker : s.straps.isWorker = true) :
    ∃ t, exec (.capXarm h l w rearm arm) s = .next t ∧ Keeps [] s t ∧ Answers s t h 0x0809 stDenied [] := by
  refine ⟨_, hostCmd_runs i 0x0809 ?_, refused_ends i 0x0809 (by decide) stDenied l.toNat 0 0⟩
  rw [worker]
  rfl

/-- What CAP.XARM asks of a line. -/
def Xt.asked (on rearm : Bool) (epoch : BitVec 16) (stamp : Nat) (x : Xt) : Xt :=
  if !on then { x with offAt := some (epoch, stamp) }
  else if x.armed ∧ x.offAt = none ∧ (x.effEpoch ≠ epoch ∨ x.effAt ≤ stamp) then { x with rearm := rearm }
  else { x with armed := true, rearm := rearm, offAt := none, effEpoch := epoch, effAt := stamp }

theorem capXarm_asks (l : BitVec 2) {w : When} (rearm arm : Bool) {e : BitVec 16} {st : Nat} {late : Bool} (manager : s.straps.isWorker = false)
    (place : (s.dev.advance h.t).schedule w 1 true = .ok (e, st, late)) (now : e = s.dev.tl.epoch) :
    ∃ t, exec (.capXarm h l w rearm arm) s = .next t ∧ Keeps [.cap, .tl] s t ∧ Answers s t h 0x0809 stOk [] ∧
      t.dev.xt l.toNat = (s.dev.xt l.toNat).asked arm rearm e st ∧ ∀ k, k ≠ l.toNat → t.dev.xt k = s.dev.xt k := by
  have placed := (schedule_of_tl (takenUp_tl s.dev h 0x0809) w 1 true).trans place
  let x : Act := { tag := h.tag, kind := .xarm, epoch := e, stamp := st, user := l.toNat }
  let a : Dev := ((s.dev.takenUp h 0x0809).accept h.tag).addAct x
  let d : Dev := (a.modXt l.toNat (Xt.asked arm rearm e st)).linkOut (.arm l arm rearm e st)
  have runs : exec (.capXarm h l w rearm arm) s = .next { s with dev := (d.finish h.tag (stamped { late := late } d.tl.tq e st)).commit } := by
    refine hostCmd_runs i 0x0809 ?_
    rw [manager]
    dsimp only
    rw [placed]
    rfl
  have cap : (s.dev.takenUp h 0x0809).cap = s.dev.cap := by simp [Dev.takenUp]
  have before : ∀ k, a.xt k = s.dev.xt k := fun k => by
    rw [Dev.xt, show a.cap = s.dev.cap from (Dev.accept_cap (s.dev.takenUp h 0x0809) h.tag).trans cap, Dev.xt]
  have frame : SameBut [.cap, .tl] (s.dev.takenUp h 0x0809) d :=
    (accept_keeps _ _ _).trans (((addAct_keeps _ x).mono (by simp)).trans
      (((modXt_keeps a _ _).mono (by simp)).trans (linkOut_keeps _ _ _)))
  have quiet : Quiet ((s.dev.takenUp h 0x0809).accept h.tag) d :=
    (Quiet.of_ctl (a := (s.dev.takenUp h 0x0809).accept h.tag) (b := a.modXt l.toNat (Xt.asked arm rearm e st)) rfl).trans (linkOut_quiet _ _)
  have epoch : d.tl.epoch = s.dev.tl.epoch :=
    (congrArg Timeline.epoch (Dev.accept_tl (s.dev.takenUp h 0x0809) h.tag)).trans (by simp [takenUp_tl])
  have self : d.xt l.toNat = (a.xt l.toNat).asked arm rearm e st := modXt_xt_self a _ _
  have other : ∀ k, k ≠ l.toNat → d.xt k = a.xt k := fun k ne => modXt_xt_of_ne a ne _
  have after : ∀ (y : Dev) (c : Cpl) k, (y.finish h.tag c).commit.xt k = y.xt k := fun y c k => by
    rw [commit_xt, Dev.xt, Dev.finish_cap, Dev.xt]
  generalize d = y at *
  refine ⟨_, runs, keeps_of_takenUp (op := 0x0809) (by decide) (frame.trans (finish_keeps _ _ _ _)),
    quiet.completesStamped i late _ (now.trans epoch.symm) st, ?_, fun k ne => ?_⟩
  · dsimp only
    rw [after, self, before]
  · dsimp only
    rw [after, other k ne, before]

/-! ### CAP.FLUSH and CAP.STATE -/

/-- A flush of some producers is asked for by a command (R268). -/
def Dev.flushAsked (d : Dev) (g : Tag) (p : BitVec 17) : Dev :=
  { d with cap := { d.cap with flush := d.cap.flush ||| p, flushTags := d.cap.flushTags ++ [(g, p, 0)] } }

omit i in
theorem flushAsked_keeps (d : Dev) (g : Tag) (p : BitVec 17) : SameBut [.cap] d (d.flushAsked g p) := setCap_keeps d _

omit i in
theorem flushAsked_quiet (d : Dev) (g : Tag) (p : BitVec 17) : Quiet d (d.flushAsked g p) := .of_ctl rfl

theorem capFlush_none : ∃ t, exec (.capFlush h 0) s = .next t ∧ Keeps [] s t ∧ Answers s t h 0x080A stOk [0] :=
  ⟨_, hostCmd_runs i 0x080A (if_pos rfl), keeps_of_takenUp (op := 0x080A) (by decide) (okResp_keeps _ _ _ _),
    answers_okResp i 0x080A _ _ rfl (.inl (by decide))⟩

theorem capFlush_asks {p : BitVec 17} (some_ : p ≠ 0) : ∃ t, exec (.capFlush h p) s = .next t ∧ Keeps [.cap] s t ∧ Waits s t h 0x080A ∧
    t.dev.cap.flush = s.dev.cap.flush ||| p ∧ t.dev.cap.flushTags = s.dev.cap.flushTags ++ [(h.tag, p, 0)] := by
  have runs : exec (.capFlush h p) s = .next { s with dev := (((s.dev.takenUp h 0x080A).accept h.tag).flushAsked h.tag p).commit } :=
    hostCmd_runs i 0x080A (if_neg some_)
  have cap : ((s.dev.takenUp h 0x080A).accept h.tag).cap = s.dev.cap := (Dev.accept_cap _ _).trans (by simp [Dev.takenUp])
  have frame := accept_keeps [.cap] (s.dev.takenUp h 0x080A) h.tag
  have waits := Quiet.waits i 0x080A (flushAsked_quiet ((s.dev.takenUp h 0x080A).accept h.tag) h.tag p)
  generalize (s.dev.takenUp h 0x080A).accept h.tag = a at runs cap frame waits
  refine ⟨_, runs, keeps_of_takenUp (op := 0x080A) (by decide) (frame.trans (flushAsked_keeps a h.tag p)), waits, ?_, ?_⟩
  · dsimp only
    rw [commit_cap_of Cap.flush fun _ => rfl, ← cap]
    rfl
  · dsimp only
    rw [commit_cap_of Cap.flushTags fun _ => rfl, ← cap]
    rfl

theorem capState_answers (b : BitVec 4) : ∃ t r, exec (.capState h b) s = .next t ∧ Keeps [] s t ∧ Answers s t h 0x080B stOk r ∧
    r.length = 77 := by
  refine ⟨_, _, hostCmd_runs i 0x080B rfl, keeps_of_takenUp (op := 0x080B) (by decide) (okResp_keeps _ _ _ _),
    answers_okResp i 0x080B _ _ rfl (.inl (by decide)), ?_⟩
  rw [List.length_append, List.length_append, length_flatMap_of _ _ (n := 9) fun _ => rfl]
  rfl

end

end Sys2Proof.Machine
open Sys2Proof Sys2Proof.Machine

/-- Settles O53, by what each command leaves of rings, threads, channels and cross-chip lines. -/
theorem captureCommands : Obligations.CaptureCommands := by
  unfold Obligations.CaptureCommands
  intro s h i
  refine ⟨fun b rings w e st late place now => capFire_fires i b rings place now,
    fun m ffr limit snap most idle => capFailcfg_sets i m ffr snap most idle, fun m clear => capCounts_reads i m clear,
    fun l w rearm arm worker => capXarm_denied i l w rearm arm worker, fun l w rearm e st late manager place now => ⟨fun rests => ?_, ?_⟩,
    capFlush_none i, fun p some_ => capFlush_asks i some_, capState_answers i⟩
  · obtain ⟨t, runs, frame, answer, line, others⟩ := capXarm_asks i l rearm true manager place now
    have armed : (s.dev.xt l.toNat).asked true rearm e st =
        { s.dev.xt l.toNat with armed := true, rearm := rearm, offAt := none, effEpoch := e, effAt := st } := by
      unfold Xt.asked
      rw [rests]
      simp
    rw [armed] at line
    exact ⟨t, runs, frame, answer, by rw [line], by rw [line], by rw [line], by rw [line], by rw [line], others⟩
  · obtain ⟨t, runs, frame, answer, line, others⟩ := capXarm_asks i l rearm false manager place now
    exact ⟨t, runs, frame, answer, line, others⟩

end


section
/-!
PROOFS. What the commands of the island's units change where no job is open, and the commands of the seal (R309 to R317).
-/
namespace Sys2Proof.Machine

/-! ### The units of the island, where no job is open -/

/-- A change of the island's units and of the scheduled actions: the commands in flight, the way to the ring, the jobs, and what
the island holds beside its units stay, and no closed output opens. -/
structure MuStep (d e : Dev) : Prop where
  frame : SameBut [.mi, .tl] d e
  quiet : Quiet d e
  rewind : e.tl.rewind = d.tl.rewind
  epoch : e.tl.epoch = d.tl.epoch
  jobs : e.ctl.jobs = d.ctl.jobs
  parks : e.mi.parkTags = d.mi.parkTags
  line : e.mi.safeLine = d.mi.safeLine
  closed : ∀ v, (d.mu v).closed = true → (e.mu v).closed = true

theorem MuStep.refl (d : Dev) : MuStep d d := ⟨SameBut.refl _ _, .refl d, rfl, rfl, rfl, rfl, rfl, fun _ => id⟩
theorem MuStep.trans {c d e : Dev} (x : MuStep c d) (y : MuStep d e) : MuStep c e :=
  ⟨x.frame.trans y.frame, x.quiet.trans y.quiet, y.rewind.trans x.rewind, y.epoch.trans x.epoch, y.jobs.trans x.jobs,
    y.parks.trans x.parks, y.line.trans x.line, fun v h => y.closed v (x.closed v h)⟩

/-- What a unit is beside its measurement and the changes that wait for it. -/
def Mu.bare (m : Mu) : Mu := { m with meas := none, sched := [], queued := [], forceSched := [] }

/-- A change that cuts measurements and waiting changes of units, and leaves what the units are. -/
structure MuCuts (d e : Dev) : Prop extends MuStep d e where
  bare : ∀ v, (e.mu v).bare = (d.mu v).bare

theorem MuCuts.refl (d : Dev) : MuCuts d d := ⟨.refl d, fun _ => rfl⟩
theorem MuCuts.trans {c d e : Dev} (x : MuCuts c d) (y : MuCuts d e) : MuCuts c e :=
  ⟨x.toMuStep.trans y.toMuStep, fun v => (y.bare v).trans (x.bare v)⟩

theorem mu_modMu_of_ne (d : Dev) {u v : Nat} (ne : v ≠ u) (f : Mu → Mu) : (d.modMu u f).mu v = d.mu v := Tab.get_mod_of_ne _ _ ne _

theorem modMu_keeps (d : Dev) (u : Nat) (f : Mu → Mu) : SameBut [.mi] d (d.modMu u f) := setMi_keeps _ _

theorem modMu_step (d : Dev) (u : Nat) (f : Mu → Mu) (stays : ∀ m, m.closed = true → (f m).closed = true) : MuStep d (d.modMu u f) :=
  ⟨(modMu_keeps _ _ _).mono (by simp), .of_ctl rfl, rfl, rfl, rfl, rfl, rfl, fun v h => by
    by_cases this : v = u
    · subst this
      rw [mu_modMu_self]
      exact stays _ h
    · rw [mu_modMu_of_ne _ this, h]⟩

theorem modMu_cuts (d : Dev) (u : Nat) (f : Mu → Mu) (same : ∀ m, (f m).bare = m.bare) : MuCuts d (d.modMu u f) :=
  ⟨modMu_step d u f fun m h => (congrArg Mu.closed (same m)).trans h, fun v => by
    by_cases this : v = u
    · subst this
      rw [mu_modMu_self, same]
    · rw [mu_modMu_of_ne _ this]⟩

theorem dropActs_cuts (d : Dev) (g : Tag) : MuCuts d (d.dropActs g) :=
  ⟨⟨(setTl_keeps _ _).mono (by simp), .of_ctl rfl, rfl, rfl, rfl, rfl, rfl, fun _ => id⟩, fun _ => rfl⟩

theorem muResult_cuts (d : Dev) (u : Nat) (x : MuMeas) (cut : Bool) : MuCuts d (d.muResult u x cut) :=
  ⟨⟨(packet_keeps _ _ _).trans ((setMi_keeps _ _).mono (by simp)), ⟨rfl, rfl⟩, rfl, rfl, rfl, rfl, rfl, fun _ => id⟩, fun _ => rfl⟩

theorem foldl_cuts {α : Type} {f : Dev → α → Dev} (h : ∀ d x, d.ctl.jobs = [] → MuCuts d (f d x)) (l : List α) :
    ∀ {d : Dev}, d.ctl.jobs = [] → MuCuts d (l.foldl f d) := by
  induction l with
  | nil => exact fun _ => .refl _
  | cons x l ih =>
    intro d j
    have first := h d x j
    exact first.trans (ih (first.jobs.trans j))

theorem cutMu_cuts {d : Dev} (j : d.ctl.jobs = []) (u : Nat) (result : Bool) :
    MuCuts d (d.cutMu u result) ∧ ((d.cutMu u result).mu u).meas = none := by
  unfold Dev.cutMu
  cases meas : (d.mu u).meas with
  | none => exact ⟨.refl d, meas⟩
  | some x =>
    have told : MuCuts d (if result = true ∧ x.got > 0 then d.muResult u x true else d) := by
      split
      exacts [muResult_cuts _ _ _ _, .refl d]
    dsimp only
    generalize (if result = true ∧ x.got > 0 then d.muResult u x true else d) = e at told
    have taken : MuCuts e (e.modMu u fun m => { m with meas := none }) := modMu_cuts e u _ fun _ => rfl
    have gone : ((e.modMu u fun m => { m with meas := none }).mu u).meas = none := by rw [mu_modMu_self]
    split
    · exact ⟨told.trans taken, gone⟩
    · rw [cutUnit_of_no_jobs (d := (e.modMu u fun m => { m with meas := none }).dropActs x.tag) (told.jobs.trans j)]
      exact ⟨(told.trans taken).trans (dropActs_cuts _ _), gone⟩

theorem muCut_of_no_jobs {d : Dev} (j : d.ctl.jobs = []) (g : Option Tag) (u : Nat) : d.muCut g u = d := by
  unfold Dev.muCut Dev.pmuCut
  cases g with
  | none => rfl
  | some t => exact cutUnit_of_no_jobs j t u

theorem MuCuts.muCut {d e : Dev} (x : MuCuts d e) (j : d.ctl.jobs = []) (g : Option Tag) (u : Nat) : MuCuts d (e.muCut g u) := by
  rw [muCut_of_no_jobs (x.jobs.trans j)]
  exact x

theorem MuCuts.cutUnit {d e : Dev} (x : MuCuts d e) (j : d.ctl.jobs = []) (g : Tag) (u : Nat) : MuCuts d (e.cutUnit g u) := by
  rw [cutUnit_of_no_jobs (x.jobs.trans j)]
  exact x

theorem MuCuts.foldl {α : Type} {d e : Dev} (x : MuCuts d e) (j : d.ctl.jobs = []) {f : Dev → α → Dev}
    (h : ∀ d x, d.ctl.jobs = [] → MuCuts d (f d x)) (l : List α) : MuCuts d (l.foldl f e) := x.trans (foldl_cuts h l (x.jobs.trans j))

/-- A change that waits for a unit is cut. -/
theorem waitingCut_cuts {d : Dev} (j : d.ctl.jobs = []) (g : Option Tag) (u : Nat) :
    MuCuts d ((match g with | some t => d.dropActs t | none => d).muCut g u) := by
  cases g with
  | none => exact .refl d
  | some t => exact (dropActs_cuts d t).muCut j _ _

/-! ### The island resets (R305, R307) -/

/-- The island as its reset leaves it, but for the parks that wait. -/
def Island.cleared (i : Island) : Island :=
  { crcErrors := i.crcErrors, results := i.results, resetTag := i.resetTag, safeLine := i.safeLine }

theorem islandReset_clears {d : Dev} (j : d.ctl.jobs = []) (parks : d.mi.parkTags = []) :
    ∃ e, MuCuts d e ∧ d.islandReset = { e with mi := e.mi.cleared } := by
  unfold Dev.islandReset
  dsimp only
  generalize reset : forEach (List.range 16) _ d = e
  have cut : MuCuts d e := by
    rw [← reset]
    refine foldl_cuts (fun d u j => ?_) (List.range 16) j
    refine MuCuts.muCut (MuCuts.foldl (MuCuts.foldl ?_ j (fun d c j => waitingCut_cuts j c.tag u) _) j
      (fun d f j => (dropActs_cuts d f.1).cutUnit j f.1 u) _) j _ u
    have first := (cutMu_cuts j u false).1
    cases (d.mu u).seq with
    | none => exact first
    | some q => exact ((first.muCut j _ u).muCut j _ u).foldl j (fun d t j => (MuCuts.refl d).cutUnit j t u) q.also
  refine ⟨e, cut, ?_⟩
  rw [cut.parks.trans parks]
  rfl

section
variable {s : State} {h : Hdr} (i : Idle s h)

@[simp] theorem takenUp_mi (d : Dev) (h : Hdr) (op : BitVec 16) : (d.takenUp h op).mi = d.mi := by simp [Dev.takenUp]
theorem takenUp_mu (d : Dev) (h : Hdr) (op : BitVec 16) (u : Nat) : (d.takenUp h op).mu u = d.mu u := by rw [Dev.mu, takenUp_mi, Dev.mu]

theorem miCommand_runs {d : Dev} (started : d.mi.started = true) (verified : d.mi.verified = true) (h : Hdr) (body : Dev → Dev) :
    d.miCommand h body = body d := by
  rw [Dev.miCommand, started, verified]
  rfl

theorem advance_quiet (d : Dev) (n : Nat) : Quiet d (d.advance n) := ⟨by rw [advance_ctl], advance_cplPath d n⟩

include i

/-- A command that a later step of its own meaning completes with a response. -/
theorem Quiet.completesResp {op : BitVec 16} {e : Dev} (q : Quiet ((s.dev.takenUp h op).accept h.tag) e) (r : List Int)
    (n : op ≠ 0x0100 ∨ r = []) : Answers s { s with dev := (e.finish h.tag { resp := r }).commit } h op stOk r :=
  have flights := q.flights.trans (accept_flights_newFlight (takenUp_flights i op))
  (finish_ended_newFlight flights { resp := r } (.inl rfl) rfl rfl).answers i
    ((finish_cplPath_of flights rfl _).trans (q.path.trans ((accept_cplPath _ _).trans (takenUp_cplPath i op)))) n

/-- A change of the island alone that is in force at once, with a response. -/
theorem island_responds (op : BitVec 16) (c : opClass op ≠ 0) (n : op ≠ 0x0100) (x : Island) (r : List Int) :
    let t := { s with dev := (({ s.dev.takenUp h op with mi := x } : Dev).okResp h.tag r).commit }
    Keeps [.mi] s t ∧ Answers s t h op stOk r ∧ t.dev.mi = x := by
  refine ⟨keeps_of_takenUp c ((setMi_keeps _ x).trans (okResp_keeps _ _ _ _)),
    answers_okResp i op ({ s.dev.takenUp h op with mi := x } : Dev) r rfl (.inl n), ?_⟩
  dsimp only
  rw [commit_mi, Dev.okResp_mi]

end

/-! ### The seal -/

/-- A record of the seal has been written, and the island takes it over. -/
def Dev.sealWritten (d : Dev) (record : Bytes) (cal : Option Bytes) (f : Island → Island) : Dev :=
  let e := (d.writeSeal record cal).advance (roundUp d.tl.now grainSteps)
  { e with mi := f e.mi }

theorem sealWritten_mi (d : Dev) (record : Bytes) (cal : Option Bytes) (f : Island → Island) :
    (d.sealWritten record cal f).mi = f d.mi := congrArg f (Dev.advance_mi _ _)

theorem sealWritten_keeps (d : Dev) (record : Bytes) (cal : Option Bytes) (f : Island → Island) :
    SameBut [.mi, .board] d (d.sealWritten record cal f) :=
  ((setBoard_keeps d _).mono (by simp)).trans ((advance_keeps _ _ _).trans ((setMi_keeps _ _).mono (by simp)))

theorem sealWritten_quiet (d : Dev) (record : Bytes) (cal : Option Bytes) (f : Island → Island) : Quiet d (d.sealWritten record cal f) :=
  (Quiet.of_ctl (a := d) (b := d.writeSeal record cal) rfl).trans ((advance_quiet _ _).trans (.of_ctl rfl))

theorem sealLog_keeps (l : List Part) (d : Dev) (kind : Nat) (rec0 : Bytes) (reason old new : Nat) (perm : Bool) :
    SameBut l d (d.sealLog kind rec0 reason old new perm) := (pushLog_keeps l d _).trans (pushLog_keeps l _ _)

theorem sealLog_quiet (d : Dev) (kind : Nat) (rec0 : Bytes) (reason old new : Nat) (perm : Bool) :
    Quiet d (d.sealLog kind rec0 reason old new perm) := ⟨rfl, rfl⟩

theorem sealLog_mi (d : Dev) (kind : Nat) (rec0 : Bytes) (reason old new : Nat) (perm : Bool) :
    (d.sealLog kind rec0 reason old new perm).mi = d.mi := rfl

/-- The nonce has been used. -/
def Island.spent (i : Island) : Island := { i with nonce := none }

section
variable {s : State} {h : Hdr} (i : Idle s h) (started : s.dev.mi.started = true) (verified : s.dev.mi.verified = true)
include i

omit i in
/-- A record that is written and logged. -/
theorem sealWritten_logged (a : Dev) (record : Bytes) (cal : Option Bytes) (f : Island → Island) (kind reason old new : Nat) :
    Quiet a ((a.sealWritten record cal f).sealLog kind record reason old new true) ∧
      SameBut [.mi, .board] a ((a.sealWritten record cal f).sealLog kind record reason old new true) ∧
      ((a.sealWritten record cal f).sealLog kind record reason old new true).mi = f a.mi := by
  have quiet := sealWritten_quiet a record cal f
  have frame := sealWritten_keeps a record cal f
  have mi := sealWritten_mi a record cal f
  generalize a.sealWritten record cal f = e at *
  exact ⟨quiet.trans (sealLog_quiet e kind record reason old new true),
    frame.trans (sealLog_keeps [.mi, .board] e kind record reason old new true), (sealLog_mi e kind record reason old new true).trans mi⟩

/-- A command of the seal whose record is good ends with a response, once the record has been written and logged. -/
theorem seal_ends {op : BitVec 16} (c : opClass op ≠ 0) (n : op ≠ 0x0100) {x : Dev} {m : Island}
    (quiet : Quiet ((s.dev.takenUp h op).accept h.tag) x) (frame : SameBut [.mi, .board] ((s.dev.takenUp h op).accept h.tag) x)
    (mi : x.mi = m) (r : List Int) :
    Keeps [.mi, .board] s { s with dev := (x.finish h.tag { resp := r }).commit } ∧
      Answers s { s with dev := (x.finish h.tag { resp := r }).commit } h op stOk r ∧ (x.finish h.tag { resp := r }).commit.mi = m :=
  ⟨keeps_of_takenUp c ((accept_keeps _ _ h.tag).trans (frame.trans (finish_keeps _ x h.tag { resp := r }))),
    Quiet.completesResp i quiet r (.inl n), (commit_mi _).trans ((Dev.finish_mi x h.tag { resp := r }).trans mi)⟩

/-- A device whose island has used its nonce. -/
def Dev.nonceSpent (d : Dev) : Dev := { d with mi := d.mi.spent }

omit i in
theorem nonceSpent_quiet (op : BitVec 16) : Quiet ((s.dev.takenUp h op).accept h.tag) ((s.dev.takenUp h op).accept h.tag).nonceSpent ∧
    SameBut [.mi] ((s.dev.takenUp h op).accept h.tag) ((s.dev.takenUp h op).accept h.tag).nonceSpent ∧
    ((s.dev.takenUp h op).accept h.tag).nonceSpent.mi = s.dev.mi.spent :=
  ⟨.of_ctl rfl, setMi_keeps _ _, congrArg Island.spent ((Dev.accept_mi _ _).trans (takenUp_mi _ _ _))⟩

omit i in
/-- The device of a good record: the nonce is used, the record is written, and the log notes it. -/
theorem sealed_logged (op : BitVec 16) (record : Bytes) (cal : Option Bytes) (f : Island → Island) (kind reason old new : Nat) :
    let a := ((s.dev.takenUp h op).accept h.tag).nonceSpent
    Quiet ((s.dev.takenUp h op).accept h.tag) ((a.sealWritten record cal f).sealLog kind record reason old new true) ∧
      SameBut [.mi, .board] ((s.dev.takenUp h op).accept h.tag) ((a.sealWritten record cal f).sealLog kind record reason old new true) ∧
      ((a.sealWritten record cal f).sealLog kind record reason old new true).mi = f s.dev.mi.spent := by
  obtain ⟨quiet, frame, mi⟩ := nonceSpent_quiet (s := s) (h := h) op
  generalize ((s.dev.takenUp h op).accept h.tag).nonceSpent = a at *
  obtain ⟨silent, kept, island⟩ := sealWritten_logged a record cal f kind reason old new
  exact ⟨quiet.trans silent, (frame.mono (by simp)).trans kept, by rw [island, mi]⟩

/-- A record that is refused uses the nonce up (R314). -/
theorem seal_refuses (op : BitVec 16) (c : opClass op ≠ 0) (record : Bytes) :
    let t := { s with dev := ((s.dev.takenUp h op).sealRefused h record).commit }
    Keeps [.mi] s t ∧ Answers s t h op stDenied [] ∧ t.dev.mi = s.dev.mi.spent := by
  let d := s.dev.takenUp h op
  let e : Dev := d.sealLog 3 record d.mi.reason.toNat (prefix128 d.mi.digest) (prefix128 d.mi.digest) false
  have quiet : Quiet d { e with mi := e.mi.spent } :=
    (sealLog_quiet d 3 record _ _ _ false).trans (Quiet.of_ctl (a := e) (b := { e with mi := e.mi.spent }) rfl)
  have frame : SameBut [.mi] d { e with mi := e.mi.spent } := (sealLog_keeps _ _ _ _ _ _ _ _).trans (setMi_keeps _ _)
  refine ⟨keeps_of_takenUp c (frame.trans (refuse_keeps _ _ _ _ _ _ _)), quiet.answers_refuse i op stDenied 0 0 0, ?_⟩
  dsimp only
  rw [commit_mi]
  refine (Dev.refuse_mi _ _ _ _ _ _).trans (congrArg Island.spent ?_)
  exact takenUp_mi _ _ _

include started verified

/-- A command of the island on a started island runs its own meaning. -/
theorem island_runs (op : BitVec 16) {body : Dev → Dev} {d : Dev} (meaning : body (s.dev.takenUp h op) = d) :
    hostCmd s h op (fun d => d.miCommand h body) = .next { s with dev := d.commit } := by
  refine hostCmd_runs i op ?_
  rw [miCommand_runs (by rw [takenUp_mi, started]) (by rw [takenUp_mi, verified]), meaning]

theorem miChallenge_answers : ∃ t n, exec (.miChallenge h) s = .next t ∧ Keeps [.mi] s t ∧ t.dev.mi = { s.dev.mi with nonce := some n } ∧
    Answers s t h 0x0A09 stOk [(n.toNat : Int)] := by
  let d := s.dev.takenUp h 0x0A09
  let n := BitVec.ofNat 128 (Config.free d.free)
  let e : Dev := { d.fresh.2 with mi := { d.mi with nonce := some n } }
  have frame : SameBut [.mi] d e := sameBut_single fun p hp => by
    cases p with
    | mi => exact absurd rfl hp
    | tl => exact Timeline.kept_refl _
    | _ => rfl
  refine ⟨_, n, island_runs i started verified 0x0A09 (d := e.okResp h.tag [(n.toNat : Int)]) rfl,
    keeps_of_takenUp (op := 0x0A09) (by decide) (frame.trans (okResp_keeps _ _ _ _)), ?_,
    answers_okResp i 0x0A09 e _ rfl (.inl (by decide))⟩
  dsimp only
  rw [commit_mi, Dev.okResp_mi]
  dsimp only [e, d]
  rw [takenUp_mi]

theorem miSealRenew_renews (rests : ∀ v, v < 16 → (s.dev.mu v).closed = false ∧ (s.dev.mu v).seq = none) {record cal : Bytes}
    (good : calGood cal = true) (allowed : s.dev.sealAllowed record 1 0 (some (digestOf s.dev.mi.image cal)) = true) :
    ∃ t, exec (.miSealRenew h record cal .done) s = .next t ∧ Keeps [.mi, .board] s t ∧
      Answers s t h 0x0A0A stOk [(prefix128 (digestOf s.dev.mi.image cal) : Int)] ∧ t.dev.mi = { s.dev.mi with
        nonce := none, cal := some cal, digest := digestOf s.dev.mi.image cal, record := some record, sealedOk := true, reason := 0 } := by
  have allows := (takenUp_view (Dev.sealAllowed · record 1 0 (some (digestOf s.dev.mi.image cal))) (fun _ _ _ _ => rfl) s.dev h 0x0A0A).trans
    allowed
  have idle : ((List.range 16).any fun u => ((s.dev.takenUp h 0x0A0A).mu u).closed || ((s.dev.takenUp h 0x0A0A).mu u).seq.isSome) = false := by
    refine List.any_eq_false.2 fun v mem => ?_
    rw [takenUp_mu, (rests v (List.mem_range.1 mem)).1, (rests v (List.mem_range.1 mem)).2]
    simp
  have mi := takenUp_mi s.dev h 0x0A0A
  let f : Bytes → Island → Island := fun image x => { x with
    cal := some cal, digest := digestOf image cal, record := some record, sealedOk := true, reason := 0 }
  have runs : exec (.miSealRenew h record cal .done) s = .next { s with dev :=
      (((((s.dev.takenUp h 0x0A0A).accept h.tag).nonceSpent.sealWritten record (some cal) (f (s.dev.takenUp h 0x0A0A).mi.image)).sealLog 1
        record 0 (prefix128 (s.dev.takenUp h 0x0A0A).mi.digest) (prefix128 (digestOf (s.dev.takenUp h 0x0A0A).mi.image cal)) true).finish h.tag
          { resp := [(prefix128 (digestOf (s.dev.takenUp h 0x0A0A).mi.image cal) : Int)] }).commit } := by
    refine island_runs i started verified 0x0A0A ?_
    dsimp only
    rw [← mi] at allows
    rw [good, allows, idle]
    rfl
  rw [mi] at runs
  obtain ⟨quiet, frame, island⟩ := sealed_logged (s := s) (h := h) 0x0A0A record (some cal) (f s.dev.mi.image) 1 0 (prefix128 s.dev.mi.digest)
    (prefix128 (digestOf s.dev.mi.image cal))
  generalize Dev.sealLog _ _ _ _ _ _ _ = x at runs quiet frame island
  exact ⟨_, runs, seal_ends i (op := 0x0A0A) (by decide) (by decide) quiet frame island _⟩

theorem miSealBreak_breaks {record : Bytes} (rests : ∀ v, v < 16 → (s.dev.mu v).meas = none)
    (allowed : s.dev.sealAllowed record 2 1 none = true) :
    ∃ t, exec (.miSealBreak h record .done) s = .next t ∧ Keeps [.mi, .board] s t ∧
      Answers s t h 0x0A0B stOk [(prefix128 s.dev.mi.digest : Int)] ∧ t.dev.mi = { s.dev.mi with
        nonce := none, record := some record, sealedOk := false, reason := 6 } := by
  have allows := (takenUp_view (Dev.sealAllowed · record 2 1 none) (fun _ _ _ _ => rfl) s.dev h 0x0A0B).trans allowed
  have idle : ((List.range 16).any fun u => ((s.dev.takenUp h 0x0A0B).mu u).meas.isSome) = false := by
    refine List.any_eq_false.2 fun v mem => ?_
    rw [takenUp_mu, rests v (List.mem_range.1 mem)]
    simp
  have mi := takenUp_mi s.dev h 0x0A0B
  let f : Island → Island := fun x => { x with record := some record, sealedOk := false, reason := 6 }
  have runs : exec (.miSealBreak h record .done) s = .next { s with dev :=
      (((((s.dev.takenUp h 0x0A0B).accept h.tag).nonceSpent.sealWritten record none f).sealLog 2 record 6
        (prefix128 (s.dev.takenUp h 0x0A0B).mi.digest) (prefix128 (s.dev.takenUp h 0x0A0B).mi.digest) true).finish h.tag
          { resp := [(prefix128 (s.dev.takenUp h 0x0A0B).mi.digest : Int)] }).commit } := by
    refine island_runs i started verified 0x0A0B ?_
    dsimp only
    rw [allows, idle]
    rfl
  rw [mi] at runs
  obtain ⟨quiet, frame, island⟩ := sealed_logged (s := s) (h := h) 0x0A0B record none f 2 6 (prefix128 s.dev.mi.digest)
    (prefix128 s.dev.mi.digest)
  generalize Dev.sealLog _ _ _ _ _ _ _ = x at runs quiet frame island
  exact ⟨_, runs, seal_ends i (op := 0x0A0B) (by decide) (by decide) quiet frame island _⟩

theorem miSealRenew_refused {record cal : Bytes} (answer : FlashAnswer)
    (bad : (calGood cal && s.dev.sealAllowed record 1 0 (some (digestOf s.dev.mi.image cal))) = false) :
    ∃ t, exec (.miSealRenew h record cal answer) s = .next t ∧ Keeps [.mi] s t ∧ Answers s t h 0x0A0A stDenied [] ∧
      t.dev.mi = { s.dev.mi with nonce := none } := by
  have allows := takenUp_view (Dev.sealAllowed · record 1 0 (some (digestOf s.dev.mi.image cal))) (fun _ _ _ _ => rfl) s.dev h 0x0A0A
  refine ⟨_, island_runs i started verified 0x0A0A ?_, seal_refuses i 0x0A0A (by decide) record⟩
  dsimp only
  rw [takenUp_mi, allows]
  exact if_pos (by rw [← Bool.not_and, bad]; rfl)

theorem miSealBreak_refused {record : Bytes} (answer : FlashAnswer) (bad : s.dev.sealAllowed record 2 1 none = false) :
    ∃ t, exec (.miSealBreak h record answer) s = .next t ∧ Keeps [.mi] s t ∧ Answers s t h 0x0A0B stDenied [] ∧
      t.dev.mi = { s.dev.mi with nonce := none } := by
  have allows := takenUp_view (Dev.sealAllowed · record 2 1 none) (fun _ _ _ _ => rfl) s.dev h 0x0A0B
  refine ⟨_, island_runs i started verified 0x0A0B ?_, seal_refuses i 0x0A0B (by decide) record⟩
  dsimp only
  rw [allows, bad]
  rfl

theorem miCalLoad_loads (rests : ∀ v, v < 16 → (s.dev.mu v).closed = false ∧ (s.dev.mu v).seq = none) {cal : Bytes}
    (broken : s.dev.mi.sealedOk = false) (trial : s.dev.mi.reason = 6 ∨ s.dev.mi.reason = 7) (good : calGood cal = true) :
    ∃ t, exec (.miCalLoad h cal) s = .next t ∧ Keeps [.mi] s t ∧
      Answers s t h 0x0A0C stOk [(prefix128 (digestOf s.dev.mi.image cal) : Int)] ∧
      t.dev.mi = { s.dev.mi with cal := some cal, digest := digestOf s.dev.mi.image cal } := by
  have idle : ((List.range 16).any fun u => ((s.dev.takenUp h 0x0A0C).mu u).closed || ((s.dev.takenUp h 0x0A0C).mu u).seq.isSome) = false := by
    refine List.any_eq_false.2 fun v mem => ?_
    rw [takenUp_mu, (rests v (List.mem_range.1 mem)).1, (rests v (List.mem_range.1 mem)).2]
    simp
  have mi := takenUp_mi s.dev h 0x0A0C
  refine ⟨_, island_runs i started verified 0x0A0C ?_, island_responds i 0x0A0C (by decide) (by decide)
    { s.dev.mi with cal := some cal, digest := digestOf s.dev.mi.image cal } _⟩
  dsimp only
  rw [idle, mi, good, if_neg (by rcases trial with trial | trial <;> simp [broken, trial])]
  rfl

theorem miCalLoad_denied (cal : Bytes) (sealed_ : s.dev.mi.sealedOk = true) :
    ∃ t, exec (.miCalLoad h cal) s = .next t ∧ Keeps [] s t ∧ Answers s t h 0x0A0C stDenied [] := by
  refine ⟨_, island_runs i started verified 0x0A0C ?_, refused_ends i 0x0A0C (by decide) stDenied 0 0 0⟩
  dsimp only
  rw [takenUp_mi]
  exact if_pos (.inl sealed_)

omit verified in
theorem miReset_resets (parks : s.dev.mi.parkTags = []) :
    ∃ t, exec (.miReset h) s = .next t ∧ Keeps [.mi, .tl] s t ∧ Waits s t h 0x0A0D ∧ t.dev.mi.started = false ∧
      t.dev.mi.resetTag = some h.tag ∧ t.dev.mi.nonce = none ∧ ∀ v, t.dev.mu v = {} := by
  have jobs : ((s.dev.takenUp h 0x0A0D).accept h.tag).ctl.jobs = [] := takenUp_jobs i 0x0A0D
  have mi : ((s.dev.takenUp h 0x0A0D).accept h.tag).mi = s.dev.mi := (Dev.accept_mi _ _).trans (takenUp_mi _ _ _)
  obtain ⟨e, cuts, clears⟩ := islandReset_clears jobs (by rw [mi, parks])
  let x : Island := { e.mi.cleared with resetTag := some h.tag }
  have runs : exec (.miReset h) s = .next { s with dev := ({ e with mi := x } : Dev).commit } := by
    refine hostCmd_runs i 0x0A0D ?_
    dsimp only
    rw [takenUp_mi, started, clears]
    rfl
  have frame : SameBut [.mi, .tl] (s.dev.takenUp h 0x0A0D) { e with mi := x } :=
    (accept_keeps _ _ _).trans (cuts.frame.trans ((setMi_keeps _ _).mono (by simp)))
  have quiet : Quiet ((s.dev.takenUp h 0x0A0D).accept h.tag) { e with mi := x } := cuts.quiet.trans (.of_ctl rfl)
  refine ⟨_, runs, keeps_of_takenUp (op := 0x0A0D) (by decide) frame, Quiet.waits i 0x0A0D quiet, ?_, ?_, ?_, fun v => ?_⟩
  · dsimp only
    rw [commit_mi]
    rfl
  · dsimp only
    rw [commit_mi]
  · dsimp only
    rw [commit_mi]
    rfl
  · dsimp only
    rw [Dev.mu, commit_mi]
    rfl

end

end Sys2Proof.Machine
open Sys2Proof Sys2Proof.Machine

/-- Settles O58, by what a good record, a refused one and a reset of the island leave. -/
theorem sealCommands : Obligations.SealCommands := by
  unfold Obligations.SealCommands
  intro s h i started verified
  refine ⟨?_, miChallenge_answers i started verified, fun rests => ⟨fun record cal good allowed =>
    miSealRenew_renews i started verified rests good allowed, fun cal broken trial good =>
      miCalLoad_loads i started verified rests broken trial good⟩,
    fun record rests allowed => miSealBreak_breaks i started verified rests allowed,
    fun record cal answer bad => miSealRenew_refused i started verified answer bad,
    fun record answer bad => miSealBreak_refused i started verified answer bad,
    fun cal sealed_ => miCalLoad_denied i started verified cal sealed_, fun parks => miReset_resets i started parks⟩
  exact ⟨_, _, hostCmd_runs i 0x0A08 (if_neg (by rw [takenUp_mi, started]; decide)),
    keeps_of_takenUp (op := 0x0A08) (by decide) (okResp_keeps _ _ _ _), answers_okResp i 0x0A08 _ _ rfl (.inl (by decide)), rfl, by
      rw [takenUp_mi]
      rfl⟩

end


section
/-!
PROOFS. The commands of the Metrology Units (R293 to R307): plans, ramps, measurements that are stopped, and the park.
-/
namespace Sys2Proof.Machine

theorem commit_mu (d : Dev) (u : Nat) : d.commit.mu u = d.mu u := mu_of_mi (commit_mi d) u

/-- The set of one unit of the island, among the 512 that a job can wait for. -/
theorem setWidth_unit {u : Nat} (hu : u < 16) : (1#16 <<< u).setWidth 512 = 1#512 <<< u := by
  ext k hk
  simp only [BitVec.getElem_setWidth, BitVec.getLsbD_shiftLeft, BitVec.getElem_shiftLeft, BitVec.getLsbD_one, BitVec.getElem_one]
  by_cases low : k < u
  · simp [low]
  · by_cases same : k = u
    · subst same
      simp [hu]
    · have : k - u ≠ 0 := by omega
      simp [low, this]

section
variable {s : State} {h : Hdr} {u : Nat} (i : Idle s h) (started : s.dev.mi.started = true) (verified : s.dev.mi.verified = true) (hu : u < 16)
include i

/-! ### Plans -/

/-- A unit that notes a change for its stamp. -/
def Mu.noting (c : MuChange) (m : Mu) : Mu := { m with sched := m.sched ++ [c] }

/-- A plan of one unit: the command waits, its action is scheduled, and the unit alone notes it. -/
theorem muPlan_waits (op : BitVec 16) (c : opClass op ≠ 0) (k : ActKind) (e : BitVec 16) (st : Nat) (late : Bool) (f : Mu → Mu) :
    Keeps [.mi, .tl] s { s with dev := (((s.dev.takenUp h op).unitPlanned h.tag u k e st late).modMu u f).commit } ∧
      Waits s { s with dev := (((s.dev.takenUp h op).unitPlanned h.tag u k e st late).modMu u f).commit } h op ∧
      (((s.dev.takenUp h op).unitPlanned h.tag u k e st late).modMu u f).commit.mu u = f (s.dev.mu u) ∧
      (((s.dev.takenUp h op).unitPlanned h.tag u k e st late).modMu u f).commit.tl.acts =
        s.dev.tl.acts ++ [{ tag := h.tag, kind := k, epoch := e, stamp := st }] := by
  have frame := unitPlanned_keeps (s.dev.takenUp h op) h.tag u k e st late
  have ctl := unitPlanned_ctl (s.dev.takenUp h op) h.tag u k e st late
  have acts := unitPlanned_acts (s := s) (h := h) (u := u) (k := k) (e := e) (st := st) (late := late) op
  have mu : ((s.dev.takenUp h op).unitPlanned h.tag u k e st late).mu u = s.dev.mu u := takenUp_mu s.dev h op u
  generalize (s.dev.takenUp h op).unitPlanned h.tag u k e st late = d at *
  exact ⟨keeps_of_takenUp c ((frame.mono (by simp)).trans ((modMu_keeps d u f).mono (by simp))),
    waits_of_accepted i op (d := d.modMu u f) _ ctl, by rw [commit_mu, mu_modMu_self, mu], (congrArg Timeline.acts (commit_tl _)).trans acts⟩

include started verified hu

section
variable {w : When} {e : BitVec 16} {st : Nat} {late : Bool} (place : (s.dev.advance h.t).schedule w grainSteps false = .ok (e, st, late))
include place

omit i started verified in
/-- A change of a unit that does not open is noted for its stamp. -/
theorem planMu_notes (op : BitVec 16) (shut : (s.dev.mu u).shutting = false) (c : MuChange) :
    (s.dev.takenUp h op).planMu h w (1#16 <<< u) c = ((s.dev.takenUp h op).unitPlanned h.tag u .miConfig e st late).modMu u
      (Mu.noting { c with tag := some h.tag, epoch := e, stamp := st }) := by
  have placed := (schedule_of_tl (takenUp_tl s.dev h op) w grainSteps false).trans place
  have stays : ((s.dev.takenUp h op).unitPlanned h.tag u .miConfig e st late).mu u = s.dev.mu u := takenUp_mu s.dev h op u
  unfold Dev.planMu
  rw [setWidth_unit hu, plan_places (by omega) _ _ placed]
  dsimp only
  simp only [members_singleton hu, List.foldl_cons, List.foldl_nil, List.filter_cons, List.filter_nil, stays, shut, Bool.and_false,
    Bool.false_eq_true, if_false]
  rfl

theorem miConfig_plans (shut : (s.dev.mu u).shutting = false) (mode : BitVec 2) {irange : BitVec 3} (vrange : Bool) {ilim lo hi : BitVec 32}
    (budget : s.dev.overBudget (1#16 <<< u) (some irange) false = false) (least : 655 ≤ ilim.toNat) (most : ilim.toNat ≤ 68813)
    (low : 65536 ≤ lo.toNat) (apart : lo.toNat + 16384 ≤ hi.toNat) (high : hi.toNat ≤ 753664) :
    ∃ t, exec (.miConfig h (1#16 <<< u) w mode irange vrange ilim lo hi) s = .next t ∧ Keeps [.mi, .tl] s t ∧
      Waits s t h 0x0A00 ∧ (t.dev.mu u).sched = (s.dev.mu u).sched ++
        [{ tag := some h.tag, stamp := st, epoch := e, mode := mode, irange := irange, vrange := vrange,
           ilim := ilim.toNat, lo := lo.toNat, hi := hi.toNat }] ∧
      (t.dev.mu u).mode = (s.dev.mu u).mode ∧
      t.dev.tl.acts = s.dev.tl.acts ++ [{ tag := h.tag, kind := .miConfig, epoch := e, stamp := st }] := by
  obtain ⟨frame, waits, mu, acts⟩ := muPlan_waits (u := u) i 0x0A00 (by decide) .miConfig e st late (Mu.noting
    { tag := some h.tag, stamp := st, epoch := e, mode := mode, irange := irange, vrange := vrange, ilim := ilim.toNat, lo := lo.toNat
      hi := hi.toNat })
  have spends := (takenUp_view (Dev.overBudget · (1#16 <<< u) (some irange) false) (fun _ _ _ _ => rfl) s.dev h 0x0A00).trans budget
  have runs : exec (.miConfig h (1#16 <<< u) w mode irange vrange ilim lo hi) s = .next { s with dev :=
      (((s.dev.takenUp h 0x0A00).unitPlanned h.tag u .miConfig e st late).modMu u (Mu.noting
        { tag := some h.tag, stamp := st, epoch := e, mode := mode, irange := irange, vrange := vrange, ilim := ilim.toNat, lo := lo.toNat
          hi := hi.toNat })).commit } := by
    refine island_runs i started verified 0x0A00 ?_
    dsimp only
    rw [spends, decide_eq_false (by omega), decide_eq_true (by omega), decide_eq_true (by omega : 65536 ≤ hi.toNat ∧ hi.toNat ≤ 753664),
      decide_eq_false (by omega)]
    exact planMu_notes hu place 0x0A00 shut { mode := mode, irange := irange, vrange := vrange, ilim := ilim.toNat, lo := lo.toNat, hi := hi.toNat }
  generalize Dev.commit _ = y at runs frame waits mu acts
  exact ⟨_, runs, frame, waits, by rw [mu]; rfl, by rw [mu]; rfl, acts⟩

theorem miConnect_plans (shut : (s.dev.mu u).shutting = false) (on : Bool) (lit : on = true → s.dev.hk.supplyOut.getLsbD 6 = false ∧
      s.dev.hk.supplyOut.getLsbD 7 = false ∧ s.dev.overBudget (1#16 <<< u) none true = false) :
    ∃ t, exec (.miConnect h (1#16 <<< u) w on) s = .next t ∧ Keeps [.mi, .tl] s t ∧ Waits s t h 0x0A01 ∧
      (t.dev.mu u).sched = (s.dev.mu u).sched ++ [{ tag := some h.tag, stamp := st, epoch := e, conn := some on }] ∧
      (t.dev.mu u).closed = (s.dev.mu u).closed := by
  obtain ⟨frame, waits, mu, -⟩ := muPlan_waits (u := u) i 0x0A01 (by decide) .miConfig e st late fun m => { m with sched := m.sched ++
    [{ tag := some h.tag, stamp := st, epoch := e, conn := some on }] }
  have spends := takenUp_view (Dev.overBudget · (1#16 <<< u) none true) (fun _ _ _ _ => rfl) s.dev h 0x0A01
  have dark : (on && (s.dev.hk.supplyOut.getLsbD 6 || s.dev.hk.supplyOut.getLsbD 7)) = false := by
    rw [Bool.and_eq_false_imp]
    intro yes
    obtain ⟨six, seven, -⟩ := lit yes
    rw [six, seven]
    rfl
  have bounded : (on && s.dev.overBudget (1#16 <<< u) none true) = false := by
    rw [Bool.and_eq_false_imp]
    exact fun yes => (lit yes).2.2
  refine ⟨_, island_runs i started verified 0x0A01 ?_, frame, waits, by rw [mu], by rw [mu]⟩
  dsimp only
  rw [takenUp_hk, spends, dark, bounded]
  exact planMu_notes hu place 0x0A01 shut { conn := some on }

theorem miForce_plans {word : BitVec 32} (small : word.toNat < 2 ^ 21)
    (code : word.getLsbD 20 = true ∨ 65536 ≤ bits word.toNat 0 20 ∧ bits word.toNat 0 20 ≤ 753664) :
    ∃ t, exec (.miForce h (1#16 <<< u) w word) s = .next t ∧ Keeps [.mi, .tl] s t ∧ Waits s t h 0x0A02 ∧
      (t.dev.mu u).forceSched = (s.dev.mu u).forceSched ++ [(h.tag, word, st)] ∧ (t.dev.mu u).vTarget = (s.dev.mu u).vTarget := by
  have placed := (schedule_of_tl (takenUp_tl s.dev h 0x0A02) w grainSteps false).trans place
  obtain ⟨frame, waits, mu, -⟩ := muPlan_waits (u := u) i 0x0A02 (by decide) .miForce e st late fun m =>
    { m with forceSched := m.forceSched ++ [(h.tag, word, st)] }
  have good : muWordBad word = false := by
    unfold muWordBad
    dsimp only
    rw [decide_eq_false (by omega), Bool.false_or]
    rcases code with current | ⟨least, most⟩
    · rw [current]
      rfl
    · rw [decide_eq_false (by omega), Bool.and_false]
  refine ⟨_, island_runs i started verified 0x0A02 ?_, frame, waits, by rw [mu], by rw [mu]⟩
  rw [good, if_neg Bool.false_ne_true, setWidth_unit hu, plan_places (by omega) _ _ placed, members_singleton hu]
  rfl

theorem miMeasure_plans {volt : Bool} {n : BitVec 32} {count : BitVec 16} (free : (s.dev.mu u).meas = none) (some_ : 1 ≤ n.toNat)
    (most : n.toNat ≤ 16777216) (counts : count ≠ 0) (drives : (s.dev.mu u).future.mode ≠ 0)
    (measures : volt = true ∨ (s.dev.mu u).future.mode ≠ 3) (rewind : s.dev.tl.rewind = none) :
    ∃ t, exec (.miMeasure h (1#16 <<< u) w volt n count) s = .next t ∧ Keeps [.mi, .tl] s t ∧ Waits s t h 0x0A04 ∧
      (t.dev.mu u).meas = some { tag := h.tag, volt := volt, n := n.toNat, left := count.toNat, start := st, epoch := e } := by
  have placed := (schedule_of_tl (takenUp_tl s.dev h 0x0A04) w grainSteps false).trans place
  obtain ⟨frame, waits, mu, -⟩ := muPlan_waits (u := u) i 0x0A04 (by decide) .miMeasure e st late fun m => { m with
    meas := some { tag := h.tag, volt := volt, n := n.toNat, left := count.toNat, start := st, epoch := e } }
  have kept : (s.dev.takenUp h 0x0A04).tl.rewind = none := by rw [takenUp_tl, Dev.advance_tl_rewind, rewind]
  have takes : (s.dev.takenUp h 0x0A04).muTurnsAway volt u = none := by
    unfold Dev.muTurnsAway
    have mode : (decide ((s.dev.mu u).future.mode = 0) || (!volt && decide ((s.dev.mu u).future.mode = 3))) = false := by
      rw [decide_eq_false drives, Bool.false_or]
      rcases measures with yes | other
      · rw [yes]
        rfl
      · rw [decide_eq_false other, Bool.and_false]
    dsimp only
    rw [takenUp_mu, free, kept, mode]
    rfl
  refine ⟨_, island_runs i started verified 0x0A04 ?_, frame, waits, by rw [mu]⟩
  dsimp only
  rw [members_singleton hu, allOrNone_pass fun k mem => ?_]
  · rw [setWidth_unit hu, plan_places (by omega) _ _ placed]
    rfl
  · obtain rfl := List.mem_singleton.mp mem
    rw [takes, takenUp_mu, free, decide_eq_false (by omega), decide_eq_false counts]
    rfl

end

/-! ### MI.LIMIT, MI.STOP and MI.STATE -/

theorem miLimit_sets {step interval : BitVec 32} (some_ : step ≠ 0) (most : step.toNat ≤ 1048575) (short : interval.toNat ≤ 65535)
    (rests : (s.dev.mu u).seq = none) :
    ∃ t, exec (.miLimit h (1#16 <<< u) step interval) s = .next t ∧ Keeps [.mi] s t ∧ Answers s t h 0x0A03 stOk [] ∧
      (t.dev.mu u).step = step.toNat ∧ (t.dev.mu u).interval = interval.toNat ∧ (t.dev.mu u).applied = (s.dev.mu u).applied := by
  let now : Nat := (s.dev.takenUp h 0x0A03).tl.now / grainSteps * grainSteps
  let f : Mu → Mu := fun m => { m with step := step.toNat, interval := interval.toNat, ramp := m.ramp.map fun _ => (now : Int) }
  have mu : ((s.dev.takenUp h 0x0A03).modMu u f).mu u = f (s.dev.mu u) := by rw [mu_modMu_self, takenUp_mu]
  have runs : exec (.miLimit h (1#16 <<< u) step interval) s = .next { s with dev := (((s.dev.takenUp h 0x0A03).modMu u f).ok h.tag).commit } := by
    refine island_runs i started verified 0x0A03 ?_
    dsimp only
    rw [decide_eq_false (by rintro (zero | large); exacts [some_ zero, by omega]), decide_eq_false (by omega), members_singleton hu]
    dsimp only [badArg, List.find?, Option.map]
    rw [List.foldl_cons, List.foldl_nil]
    show Dev.ok (match (((s.dev.takenUp h 0x0A03).modMu u f).mu u).seq with | some q => _ | none => _) _ = _
    rw [mu]
    show Dev.ok (match (s.dev.mu u).seq with | some q => _ | none => _) _ = _
    rw [rests]
    rfl
  obtain ⟨frame, answer⟩ := ok_ends i 0x0A03 (by decide) (d := (s.dev.takenUp h 0x0A03).modMu u f) rfl (modMu_keeps _ _ _)
  have after : (((s.dev.takenUp h 0x0A03).modMu u f).ok h.tag).commit.mu u = f (s.dev.mu u) := by
    rw [commit_mu, mu_of_mi (Dev.ok_mi _ _), mu]
  exact ⟨_, runs, frame, answer, by rw [after], by rw [after], by rw [after]⟩

theorem miStop_stops : ∃ t, exec (.miStop h (1#16 <<< u)) s = .next t ∧ Keeps [.mi, .tl] s t ∧ Answers s t h 0x0A05 stOk [] ∧
    (t.dev.mu u).meas = none ∧ (t.dev.mu u).closed = (s.dev.mu u).closed := by
  obtain ⟨cuts, gone⟩ := cutMu_cuts (takenUp_jobs i 0x0A05) u true
  have runs : exec (.miStop h (1#16 <<< u)) s = .next { s with dev := (((s.dev.takenUp h 0x0A05).cutMu u true).ok h.tag).commit } := by
    refine island_runs i started verified 0x0A05 ?_
    rw [members_singleton hu]
    rfl
  have closed := (congrArg Mu.closed (cuts.bare u)).trans (congrArg Mu.closed (congrArg Mu.bare (takenUp_mu s.dev h 0x0A05 u)))
  generalize (s.dev.takenUp h 0x0A05).cutMu u true = e at *
  refine ⟨_, runs, keeps_of_takenUp (op := 0x0A05) (by decide) (cuts.frame.trans (ok_keeps _ _ _)), cuts.quiet.answers_ok i, ?_, ?_⟩
  · dsimp only
    rw [commit_mu, mu_of_mi (Dev.ok_mi _ _), gone]
  · dsimp only
    rw [commit_mu, mu_of_mi (Dev.ok_mi _ _)]
    exact closed

omit verified in
theorem miState_answers : ∃ t r, exec (.miState h (1#16 <<< u)) s = .next t ∧ Keeps [] s t ∧ Answers s t h 0x0A07 stOk r ∧ r.length = 9 ∧
    r.head? = some ((s.dev.mu u).mode.toNat : Int) ∧ r.getLast? = some (rb (s.dev.mu u).closed) := by
  refine ⟨_, _, hostCmd_runs i 0x0A07 (if_neg (by rw [takenUp_mi, started]; decide)),
    keeps_of_takenUp (op := 0x0A07) (by decide) (okResp_keeps _ _ _ _), answers_okResp i 0x0A07 _ _ rfl (.inl (by decide)), ?_⟩
  rw [members_singleton hu, List.flatMap_cons, List.flatMap_nil, List.append_nil, takenUp_mu]
  exact ⟨rfl, rfl, rfl⟩

end

/-! ### SAFE and MI.PARK (R306, R307) -/

theorem finish_jobs (d : Dev) (g : Tag) (c : Cpl) : (d.finish g c).ctl.jobs = d.ctl.jobs := by
  unfold Dev.finish
  split
  · rfl
  · dsimp only
    split_ifs <;> rfl

/-- A unit that a park need not open. -/
def Mu.rests (m : Mu) : Prop := m.closed = false ∧ m.seq = none ∧ m.applied = muSafe m.forceMode

theorem MuCuts.rests {d e : Dev} (x : MuCuts d e) {v : Nat} (h : (d.mu v).rests) : (e.mu v).rests := by
  obtain ⟨closed, seq, applied⟩ := h
  have same := x.bare v
  exact ⟨(congrArg Mu.closed same).trans closed, (congrArg Mu.seq same).trans seq,
    (congrArg Mu.applied same).trans (applied.trans (congrArg (fun m : Mu => muSafe m.forceMode) same).symm)⟩

/-- A unit that SAFE shuts: what waits for it is cut, and it rests or is disconnected. -/
theorem shutMu_eq {d : Dev} (j : d.ctl.jobs = []) (u : Nat) : ∃ e t c, MuCuts d e ∧
    d.shutMu u = if (d.mu u).seq = none ∧ ¬ (d.mu u).closed ∧ (d.mu u).applied = muSafe (d.mu u).forceMode then e.muParkDone
      else e.muDisconnect u t c := by
  unfold Dev.shutMu
  dsimp only
  generalize cut : Dev.modMu _ u _ = e
  refine ⟨e, _, _, ?_, rfl⟩
  rw [← cut]
  exact MuCuts.trans (MuCuts.foldl (MuCuts.foldl (cutMu_cuts j u true).1 j (fun d c j => waitingCut_cuts j c.tag u) _) j
    (fun d f j => (dropActs_cuts d f.1).cutUnit j f.1 u) _) (modMu_cuts _ u _ fun _ => rfl)

/-! #### Where every unit rests -/

/-- What is left of the island when no park waits any longer. -/
def Island.parked (i : Island) (decaf : Bool) : Island := { i with parkTags := [], safeLine := i.safeLine && decaf }

theorem muParkDone_of_rests {d : Dev} (rest : ∀ v, v < 16 → (d.mu v).rests) : d.muParkDone =
    d.mi.parkTags.foldl (fun d t => d.finish t {}) { d with mi := d.mi.parked d.fc.decaf.isSome } := by
  refine if_neg ?_
  rw [Bool.not_eq_true, List.any_eq_false]
  intro v mem
  obtain ⟨closed, seq, -⟩ := rest v (List.mem_range.1 mem)
  simp [closed, seq]

/-- Every unit rests, no job is open and no park waits. -/
structure AtRest (d : Dev) : Prop where
  jobs : d.ctl.jobs = []
  rest : ∀ v, v < 16 → (d.mu v).rests
  parks : d.mi.parkTags = []

/-- A change of the island and the scheduled actions that the commands in flight do not see. -/
structure Unseen (d e : Dev) : Prop where
  frame : SameBut [.mi, .tl] d e
  quiet : Quiet d e
  rewind : e.tl.rewind = d.tl.rewind
  epoch : e.tl.epoch = d.tl.epoch

theorem Unseen.refl (d : Dev) : Unseen d d := ⟨SameBut.refl _ _, .refl d, rfl, rfl⟩
theorem Unseen.trans {c d e : Dev} (x : Unseen c d) (y : Unseen d e) : Unseen c e :=
  ⟨x.frame.trans y.frame, x.quiet.trans y.quiet, y.rewind.trans x.rewind, y.epoch.trans x.epoch⟩
theorem MuStep.unseen {d e : Dev} (x : MuStep d e) : Unseen d e := ⟨x.frame, x.quiet, x.rewind, x.epoch⟩

theorem setMi_unseen (d : Dev) (i : Island) : Unseen d { d with mi := i } := ⟨(setMi_keeps d i).mono (by simp), .of_ctl rfl, rfl, rfl⟩

theorem AtRest.parkDone {d : Dev} (a : AtRest d) : Unseen d d.muParkDone ∧ AtRest d.muParkDone := by
  rw [muParkDone_of_rests a.rest, a.parks]
  exact ⟨setMi_unseen d _, a.jobs, a.rest, rfl⟩

theorem shutMu_of_rests {d : Dev} (j : d.ctl.jobs = []) {u : Nat} (rest : (d.mu u).rests) : ∃ e, MuCuts d e ∧ d.shutMu u = e.muParkDone := by
  obtain ⟨e, t, c, cuts, shut⟩ := shutMu_eq j u
  obtain ⟨closed, seq, applied⟩ := rest
  exact ⟨e, cuts, shut.trans (if_pos ⟨seq, by simp [closed], applied⟩)⟩

theorem AtRest.shut {d : Dev} (a : AtRest d) {u : Nat} (hu : u < 16) : Unseen d (d.shutMu u) ∧ AtRest (d.shutMu u) := by
  obtain ⟨e, cuts, shut⟩ := shutMu_of_rests a.jobs (a.rest u hu)
  have still : AtRest e := ⟨cuts.jobs.trans a.jobs, fun v hv => cuts.rests (a.rest v hv), cuts.parks.trans a.parks⟩
  rw [shut]
  exact ⟨cuts.unseen.trans still.parkDone.1, still.parkDone.2⟩

theorem AtRest.shuts (l : List Nat) (hl : ∀ u ∈ l, u < 16) : ∀ {d : Dev}, AtRest d →
    Unseen d (l.foldl (fun d u => d.shutMu u) d) ∧ AtRest (l.foldl (fun d u => d.shutMu u) d) := by
  induction l with
  | nil => exact fun a => ⟨.refl _, a⟩
  | cons u l ih =>
    intro d a
    obtain ⟨first, still⟩ := a.shut (hl u (List.mem_cons_self ..))
    obtain ⟨rest, end_⟩ := ih (fun v mem => hl v (List.mem_cons_of_mem _ mem)) still
    exact ⟨first.trans rest, end_⟩

/-! #### Where a unit is closed -/

theorem muStep_step (d : Dev) (u : Nat) (st : SeqStep) (t len : Nat) : MuStep d (d.muStep u st t len) := modMu_step d u _ fun _ => id

theorem muEnterC_step (d : Dev) (u t : Nat) : MuStep d (d.muEnterC u t) := by
  unfold Dev.muEnterC
  cases (d.mu u).seq with
  | none => exact .refl d
  | some q =>
    dsimp only
    split
    exacts [muStep_step .., muStep_step ..]

theorem muEnterA_step (d : Dev) (u t : Nat) : MuStep d (d.muEnterA u t) := by
  unfold Dev.muEnterA Dev.muEnterB
  dsimp only
  split_ifs
  exacts [muStep_step .., muEnterC_step .., muStep_step ..]

theorem muEnd_of_no_jobs {d : Dev} (j : d.ctl.jobs = []) (g : Option Tag) (u : Nat) (r : Bool) : d.muEnd g u r = d := pmuEnd_of_no_jobs j g u r

theorem muKeepForce_step {d : Dev} (j : d.ctl.jobs = []) (u : Nat) (c : MuChange) : MuStep d (d.muKeepForce u c) := by
  unfold Dev.muKeepForce
  dsimp only
  split
  · rw [muEnd_of_no_jobs (d := d.modMu u _) j]
    exact modMu_step d u _ fun _ => id
  · exact .refl d

theorem muDisconnect_step {d : Dev} (j : d.ctl.jobs = []) (u t : Nat) (c : MuChange) : MuStep d (d.muDisconnect u t c) := by
  have kept := muKeepForce_step j u c
  unfold Dev.muDisconnect Dev.muBegin
  cases (d.mu u).seq with
  | none =>
    have begun := kept.trans (modMu_step (d.muKeepForce u c) u (fun m => { m with seq := some { step := .a, ends := t, change := c } })
      fun _ => id)
    exact begun.trans (muEnterA_step _ u t)
  | some q =>
    dsimp only
    generalize (if q.change.conn = some true ∧ q.step = .c then some q.ends else none) = closing
    rw [muCut_of_no_jobs (d := d) j, muCut_of_no_jobs j]
    have changed := kept.trans (modMu_step (d.muKeepForce u c) u (fun m => { m with
      closed := m.closed || closing.isSome
      seq := some { step := q.step, ends := q.ends, change := c, closing := closing, safety := q.safety } })
        fun m closed => by rw [closed, Bool.true_or])
    split_ifs
    · exact modMu_step d u _ fun _ => id
    · exact changed
    · exact changed.trans (muEnterA_step _ u t)

/-- While a unit is closed, no park is done. -/
theorem shutMu_step {d : Dev} (j : d.ctl.jobs = []) {u : Nat} (hu : u < 16) (closed : (d.mu u).closed = true) (k : Nat) :
    MuStep d (d.shutMu k) := by
  obtain ⟨e, t, c, cuts, shut⟩ := shutMu_eq j k
  rw [shut]
  split
  · rw [muParkDone_of_busy hu (by rw [Mu.busy, cuts.closed u closed, Bool.true_or])]
    exact cuts.toMuStep
  · exact cuts.toMuStep.trans (muDisconnect_step (cuts.jobs.trans j) k t c)

theorem shutMus_step {u : Nat} (hu : u < 16) (l : List Nat) : ∀ {d : Dev}, d.ctl.jobs = [] → (d.mu u).closed = true →
    MuStep d (l.foldl (fun d u => d.shutMu u) d) := by
  induction l with
  | nil => exact fun _ _ => .refl _
  | cons k l ih =>
    intro d j closed
    have first := shutMu_step j hu closed k
    exact first.trans (ih (first.jobs.trans j) (first.closed u closed))

/-! #### The command -/

/-- The device on which SAFE has been asserted for a park. -/
def Dev.parkAsked (d : Dev) (g : Tag) : Dev := { d with mi := { d.mi with parkTags := d.mi.parkTags ++ [g], safeLine := true } }

section
variable {s : State} {h : Hdr} (i : Idle s h) (started : s.dev.mi.started = true) (verified : s.dev.mi.verified = true)
  (parks : s.dev.mi.parkTags = [])
include i started verified

theorem miPark_runs : exec (.miPark h) s = .next { s with dev :=
    ((List.range 16).foldl (fun d u => d.shutMu u) (((s.dev.takenUp h 0x0A06).accept h.tag).parkAsked h.tag)).muParkDone.commit } :=
  island_runs i started verified 0x0A06 rfl

omit i started verified in
theorem parkAsked_taken : let d := ((s.dev.takenUp h 0x0A06).accept h.tag).parkAsked h.tag
    Quiet ((s.dev.takenUp h 0x0A06).accept h.tag) d ∧ SameBut [.mi, .pat, .tl] s.dev d ∧ (∀ v, d.mu v = s.dev.mu v) ∧
      d.mi.parkTags = s.dev.mi.parkTags ++ [h.tag] ∧ d.mi.safeLine = true := by
  have mi : ((s.dev.takenUp h 0x0A06).accept h.tag).mi = s.dev.mi := (Dev.accept_mi _ _).trans (takenUp_mi _ _ _)
  refine ⟨.of_ctl rfl, ?_, fun v => mu_of_mi mi v, congrArg (fun i : Island => i.parkTags ++ [h.tag]) mi, rfl⟩
  exact ((takenUp_keeps_but_pat s.dev h 0x0A06).mono (by simp)).trans ((accept_keeps _ _ _).trans ((setMi_keeps _ _).mono (by simp)))

include parks

theorem miPark_completes (rest : ∀ v, v < 16 → (s.dev.mu v).rests) :
    ∃ t, exec (.miPark h) s = .next t ∧ Keeps [.mi, .pat, .tl] s t ∧ Answers s t h 0x0A06 stOk [] ∧ t.dev.mi.parkTags = [] := by
  have runs := miPark_runs i started verified
  obtain ⟨quiet, frame, mus, tags, -⟩ := parkAsked_taken (s := s) (h := h)
  rw [parks] at tags
  have jobs : (((s.dev.takenUp h 0x0A06).accept h.tag).parkAsked h.tag).ctl.jobs = [] := takenUp_jobs i 0x0A06
  generalize ((s.dev.takenUp h 0x0A06).accept h.tag).parkAsked h.tag = d at runs quiet frame mus tags jobs
  obtain ⟨e, cuts, shut⟩ := shutMu_of_rests jobs (u := 0) (by rw [mus]; exact rest 0 (by decide))
  have still : ∀ v, v < 16 → (e.mu v).rests := fun v hv => cuts.rests (by rw [mus]; exact rest v hv)
  let x : Dev := { e with mi := e.mi.parked e.fc.decaf.isSome }
  have first : d.shutMu 0 = x.finish h.tag {} := by
    rw [shut, muParkDone_of_rests still, cuts.parks, tags]
    rfl
  have seen : Quiet ((s.dev.takenUp h 0x0A06).accept h.tag) x := quiet.trans (cuts.quiet.trans (.of_ctl rfl))
  have flights := seen.flights.trans (accept_flights_newFlight (takenUp_flights i 0x0A06))
  have ended := finish_ended_newFlight flights {} (.inl rfl) rfl rfl
  have path := (finish_cplPath_of (g := h.tag) flights rfl {}).trans (seen.path.trans ((accept_cplPath _ _).trans (takenUp_cplPath i 0x0A06)))
  have done : AtRest (x.finish h.tag {}) := by
    have mi : (x.finish h.tag {}).mi = x.mi := Dev.finish_mi _ _ _
    refine ⟨?_, fun v hv => ?_, congrArg Island.parkTags mi⟩
    · exact (finish_jobs x h.tag {}).trans (cuts.jobs.trans jobs)
    · rw [mu_of_mi mi]
      exact still v hv
  have kept : SameBut [.mi, .pat, .tl] s.dev (x.finish h.tag {}) :=
    frame.trans ((cuts.frame.mono (by simp)).trans (((setMi_keeps e _).mono (by simp)).trans (finish_keeps _ _ _ _)))
  rw [show List.range 16 = 0 :: (List.range 15).map (· + 1) from rfl, List.foldl_cons, first] at runs
  generalize x.finish h.tag {} = y at runs ended path done kept
  obtain ⟨rest', end_⟩ := AtRest.shuts ((List.range 15).map (· + 1)) (by decide) done
  obtain ⟨last, final⟩ := end_.parkDone
  have unseen := rest'.trans last
  generalize (List.foldl (fun d u => Dev.shutMu d u) y ((List.range 15).map (· + 1))).muParkDone = z at runs final unseen
  exact ⟨_, runs, keeps_commit (kept.trans (unseen.frame.mono (by simp))),
    (ended.congr unseen.quiet.flights unseen.rewind unseen.epoch).answers i (unseen.quiet.path.trans path) (.inl (by decide)),
    (congrArg Island.parkTags (commit_mi z)).trans final.parks⟩

theorem miPark_waits {u : Nat} (hu : u < 16) (closed : (s.dev.mu u).closed = true) :
    ∃ t, exec (.miPark h) s = .next t ∧ Keeps [.mi, .pat, .tl] s t ∧ Waits s t h 0x0A06 ∧ t.dev.mi.parkTags = [h.tag] ∧
      t.dev.mi.safeLine = true := by
  have runs := miPark_runs i started verified
  obtain ⟨quiet, frame, mus, tags, line⟩ := parkAsked_taken (s := s) (h := h)
  rw [parks] at tags
  have jobs : (((s.dev.takenUp h 0x0A06).accept h.tag).parkAsked h.tag).ctl.jobs = [] := takenUp_jobs i 0x0A06
  generalize ((s.dev.takenUp h 0x0A06).accept h.tag).parkAsked h.tag = d at runs quiet frame mus tags jobs line
  have step := shutMus_step hu (List.range 16) jobs (by rw [mus, closed])
  generalize (List.range 16).foldl (fun d u => Dev.shutMu d u) d = e at runs step
  have waits : e.muParkDone = e := muParkDone_of_busy hu (by rw [Mu.busy, step.closed u (by rw [mus, closed]), Bool.true_or])
  rw [waits] at runs
  have kept := frame.trans (step.frame.mono (by simp))
  have parked : e.commit.mi.parkTags = [h.tag] ∧ e.commit.mi.safeLine = true := by
    rw [commit_mi]
    exact ⟨step.parks.trans tags, step.line.trans line⟩
  exact ⟨_, runs, keeps_commit kept, Quiet.waits i 0x0A06 (quiet.trans step.quiet), parked.1, parked.2⟩

end

end Sys2Proof.Machine
open Sys2Proof Sys2Proof.Machine

/-- Settles O57, by the plans of one unit, and by what SAFE leaves of units that rest and of one that is closed. -/
theorem metrologyCommands : Obligations.MetrologyCommands := by
  unfold Obligations.MetrologyCommands
  intro s h u i started verified hu
  refine ⟨fun w e st late place shut => ⟨?_, fun on lit => miConnect_plans i started verified hu place shut on lit,
      fun word small code => miForce_plans i started verified hu place small code,
      fun volt n count free some_ most counts drives measures rewind =>
        miMeasure_plans i started verified hu place free some_ most counts drives measures rewind⟩,
    fun step interval some_ most short rests => miLimit_sets i started verified hu some_ most short rests,
    miStop_stops i started verified hu,
    fun parks rest => miPark_completes i started verified parks fun v hv => rest v hv,
    fun parks closed => miPark_waits i started verified parks hu closed, miState_answers i started hu⟩
  intro mode irange vrange ilim lo hi budget least most low apart high
  exact miConfig_plans i started verified hu place shut mode vrange budget least most low apart high

end


section
/-!
PROOFS. The events of the island as a whole (R293, R295, R305, R308): a start, power loss, command frames, the reference check.
-/
namespace Sys2Proof.Machine

/-! ### Commands that are cut while jobs are open -/

theorem settledJob_keeps (l : List Part) (d : Dev) (g : Tag) (f : Job → Job) : SameBut l d ((d.modJob g f).settleJob g) :=
  (sameBut_of_core (by rfl) l).trans (settleJob_keeps l (d.modJob g f) g)

theorem cutUnit_keeps (l : List Part) (d : Dev) (g : Tag) (u : Nat) : SameBut l d (d.cutUnit g u) := settledJob_keeps l d g _
theorem replaceUnit_keeps (l : List Part) (d : Dev) (g : Tag) (u : Nat) : SameBut l d (d.replaceUnit g u) :=
  (sameBut_of_core (by rfl) l).trans (endUnitAt_keeps l (d.modJob g _) g u _)

theorem muCut_keeps (l : List Part) (d : Dev) (g : Option Tag) (u : Nat) : SameBut l d (d.muCut g u) := by
  cases g with
  | none => exact .refl l d
  | some t => exact cutUnit_keeps l d t u

theorem muEnd_keeps (l : List Part) (d : Dev) (g : Option Tag) (u : Nat) (r : Bool) : SameBut l d (d.muEnd g u r) := by
  cases g with
  | none => exact .refl l d
  | some t =>
    cases r with
    | false => exact endUnitAt_keeps l d t u _
    | true => exact replaceUnit_keeps l d t u

/-- A change of the island's units, the scheduled actions and the commands in flight: the count of bad frames stays. -/
structure Severed (d e : Dev) : Prop where
  frame : SameBut [.mi, .tl] d e
  crc : e.mi.crcErrors = d.mi.crcErrors

theorem Severed.refl (d : Dev) : Severed d d := ⟨.refl _ d, rfl⟩
theorem Severed.trans {c d e : Dev} (x : Severed c d) (y : Severed d e) : Severed c e := ⟨x.frame.trans y.frame, y.crc.trans x.crc⟩
theorem Severed.foldl {α : Type} {f : Dev → α → Dev} (h : ∀ d x, Severed d (f d x)) (l : List α) (d : Dev) : Severed d (l.foldl f d) :=
  List.foldlRecOn (motive := fun e => Severed d e) l f (.refl d) fun _ x k _ => x.trans (h _ k)

theorem modMu_severed (d : Dev) (u : Nat) (f : Mu → Mu) : Severed d (d.modMu u f) := ⟨(modMu_keeps d u f).mono (by simp), rfl⟩
theorem dropActs_severed (d : Dev) (g : Tag) : Severed d (d.dropActs g) := ⟨(setTl_keeps _ _).mono (by simp), rfl⟩
theorem cutUnit_severed (d : Dev) (g : Tag) (u : Nat) : Severed d (d.cutUnit g u) := ⟨cutUnit_keeps _ d g u, by rw [Dev.cutUnit_mi]⟩
theorem muCut_severed (d : Dev) (g : Option Tag) (u : Nat) : Severed d (d.muCut g u) := ⟨muCut_keeps _ d g u, by rw [muCut_mi]⟩

theorem cutMu_severed (d : Dev) (u : Nat) (result : Bool) : Severed d (d.cutMu u result) := by
  unfold Dev.cutMu
  cases (d.mu u).meas with
  | none => exact .refl d
  | some x =>
    have told : Severed d (if result = true ∧ x.got > 0 then d.muResult u x true else d) := by
      split
      · exact ⟨(muResult_cuts d u x true).frame, rfl⟩
      · exact .refl d
    dsimp only
    split
    · exact told.trans (modMu_severed _ u _)
    · exact (told.trans (modMu_severed _ u _)).trans ((dropActs_severed _ x.tag).trans (cutUnit_severed _ _ u))

/-- Every unit's commands are cut at a reset, and the parks complete. -/
theorem islandReset_severs (d : Dev) : ∃ e, Severed d e ∧ d.islandReset =
    e.mi.parkTags.foldl (fun d t => d.finish t {}) { e with mi := e.mi.cleared } := by
  unfold Dev.islandReset
  dsimp only
  generalize reset : forEach (List.range 16) _ d = e
  refine ⟨e, ?_, rfl⟩
  rw [← reset]
  refine Severed.foldl (fun d u => ?_) (List.range 16) d
  refine Severed.trans (Severed.trans (Severed.trans ?_ (.foldl (fun d c => ?_) _ _))
    (.foldl (fun d (f : Tag × BitVec 32 × Nat) => (dropActs_severed d f.1).trans (cutUnit_severed _ f.1 u)) _ _)) (muCut_severed _ _ u)
  · refine (cutMu_severed d u false).trans ?_
    cases (d.mu u).seq with
    | none => exact .refl _
    | some q => exact ((muCut_severed _ _ u).trans (muCut_severed _ _ u)).trans (.foldl (fun d t => cutUnit_severed d t u) q.also _)
  · cases c.tag with
    | none => exact .refl d
    | some t => exact (dropActs_severed d t).trans (muCut_severed _ _ u)

theorem finishes_keep (l : List Part) (tags : List Tag) (d : Dev) : SameBut l d (tags.foldl (fun d t => d.finish t {}) d) :=
  SameBut.foldl (fun d t => finish_keeps l d t {}) tags d

theorem finishes_mi (tags : List Tag) (d : Dev) : (tags.foldl (fun d t => d.finish t {}) d).mi = d.mi :=
  foldl_leaves Dev.mi (fun d t => Dev.finish_mi d t {}) tags d

theorem islandPowerLoss_clears (s : State) (n : Nat) : ∃ t, exec (.islandPowerLoss n) s = .next t ∧ Keeps [.mi, .tl] s t ∧
    t.dev.mi.started = false ∧ t.dev.mi.ready = false ∧ t.dev.mi.nonce = none ∧ t.dev.mi.crcErrors = s.dev.mi.crcErrors ∧
    ∀ u, t.dev.mu u = {} := by
  obtain ⟨e, severed, reset⟩ := islandReset_severs (s.dev.advance n)
  have frame : SameBut [.mi, .tl] s.dev (s.dev.advance n).islandReset := by
    rw [reset]
    exact advance_keeps_trans n (severed.frame.trans (((setMi_keeps e _).mono (by simp)).trans (finishes_keep _ _ _)))
  have mi : (s.dev.advance n).islandReset.commit.mi = e.mi.cleared := by
    rw [commit_mi, reset, finishes_mi]
  refine ⟨_, onDev_runs (f := fun d => (d.advance n).islandReset) rfl, keeps_commit frame, ?_, ?_, ?_, ?_, fun u => ?_⟩
  · rw [mi]; rfl
  · rw [mi]; rfl
  · rw [mi]; rfl
  · rw [mi]
    exact severed.crc.trans (by rw [Dev.advance_mi])
  · rw [Dev.mu, mi]; rfl

/-! ### A start of the island -/

/-- What an image is that the island takes (R305): its signature of 2,420 bytes is good. -/
def imageGood (image : Bytes) : Bool := decide (image.length > 2420) &&
  Config.mlDsa Config.islandKey (image.take (image.length - 2420)) (image.drop (image.length - 2420))

/-- The island that has started with a good image, on what the verdict of the seal says. -/
def Island.startedWith (i : Island) (image : Bytes) (now : Nat) (cal : Option Bytes) (v : Option Bytes × Nat) : Island := { i with
  started := true, ready := true, refAt := now, verified := true, image := image, fwVersion := Config.islandVersion image, cal := cal
  digest := digestOf image (cal.getD []), record := v.1, reason := BitVec.ofNat 4 v.2, sealedOk := decide (v.2 = 0) }

/-- The verdict of the seal for an image. -/
def Dev.startVerdict (d : Dev) (image : Bytes) : Option Bytes × Nat :=
  d.sealVerdict d.board.seals (slotCal d.board.seals) (digestOf image ((slotCal d.board.seals).getD []))

/-- A device whose island has started with a good image. -/
def Dev.islandUp (d : Dev) (image : Bytes) : Dev :=
  ({ d with mi := d.mi.startedWith image d.mono (slotCal d.board.seals) (d.startVerdict image) } : Dev).sealLog 4
    ((d.startVerdict image).1.getD []) (d.startVerdict image).2 0 (prefix128 (digestOf image ((slotCal d.board.seals).getD []))) false

/-- A device whose island has started with a bad image. -/
def Dev.islandDown (d : Dev) : Dev := { d with mi := { d.mi with started := true, ready := false, verified := false } }

/-- MI.RESET completes at the next start. -/
def Dev.resetEnds (d : Dev) (c : Cpl) : Dev :=
  match d.mi.resetTag with
  | some t => ({ d with mi := { d.mi with resetTag := none } } : Dev).finish t c
  | none => d

theorem startIsland_eq (d : Dev) (image : Bytes) : d.startIsland image =
    if imageGood image then (d.islandUp image).resetEnds {} else d.islandDown.resetEnds { status := stFault, b := 3 } := by
  unfold Dev.startIsland
  dsimp only
  cases good : imageGood image with
  | true =>
    rw [if_pos rfl, ← imageGood, good]
    rfl
  | false =>
    rw [if_neg Bool.false_ne_true, ← imageGood, good]
    rfl

theorem resetEnds_keeps (d : Dev) (c : Cpl) : SameBut [.mi] d (d.resetEnds c) := by
  unfold Dev.resetEnds
  cases d.mi.resetTag with
  | none => exact .refl _ d
  | some t => exact (setMi_keeps d _).trans (finish_keeps _ _ t c)

theorem resetEnds_mi (d : Dev) (c : Cpl) : (d.resetEnds c).mi = { d.mi with resetTag := none } := by
  unfold Dev.resetEnds
  cases tag : d.mi.resetTag with
  | none =>
    dsimp only
    rw [← tag]
  | some t => exact Dev.finish_mi _ t c

theorem islandUp_keeps (d : Dev) (image : Bytes) : SameBut [.mi] d (d.islandUp image) :=
  (setMi_keeps d _).trans (sealLog_keeps [.mi] _ _ _ _ _ _ _)

theorem islandUp_mi (d : Dev) (image : Bytes) : (d.islandUp image).mi =
    d.mi.startedWith image d.mono (slotCal d.board.seals) (d.startVerdict image) := rfl

theorem islandUp_quiet (d : Dev) (image : Bytes) : Quiet d (d.islandUp image) :=
  (Quiet.of_ctl (a := d) (b := { d with mi := d.mi.startedWith image d.mono (slotCal d.board.seals) (d.startVerdict image) }) rfl).trans
    (sealLog_quiet _ _ _ _ _ _ _)

/-- The reasons for which an island is not sealed are few (R312). -/
theorem sealVerdict_few (d : Dev) (slots : List (Bytes × Bytes)) (cal : Option Bytes) (dg : BitVec 256) : (d.sealVerdict slots cal dg).2 < 16 := by
  unfold Dev.sealVerdict
  dsimp only
  (repeat' split) <;> decide

section
variable {s : State} (n : Nat) {image : Bytes} (off : s.dev.mi.started = false)
include off

theorem islandStart_runs : exec (.islandStart n image) s = .next { s with dev := ((s.dev.advance n).startIsland image).commit } := by
  refine (onDev_runs ?_ : execIslandStart n image s = _)
  rw [off]
  rfl

theorem islandStart_starts : ∃ t, exec (.islandStart n image) s = .next t ∧ Keeps [.mi] s t ∧ t.dev.mi.started = true ∧
    t.dev.mi.verified = imageGood image ∧ t.dev.mi.ready = t.dev.mi.verified ∧
    (t.dev.mi.verified = true → t.dev.mi.image = image ∧ t.dev.mi.digest = digestOf image (t.dev.mi.cal.getD []) ∧
      (t.dev.mi.sealedOk = true ↔ t.dev.mi.reason = 0)) := by
  have runs := islandStart_runs (image := image) n off
  rw [startIsland_eq] at runs
  generalize d0 : s.dev.advance n = d at runs
  cases good : imageGood image with
  | false =>
    rw [good, if_neg Bool.false_ne_true] at runs
    have mi := (commit_mi _).trans (resetEnds_mi d.islandDown { status := stFault, b := 3 })
    have frame : SameBut [.mi] s.dev (d.islandDown.resetEnds { status := stFault, b := 3 }) :=
      advance_keeps_trans n (by rw [d0]; exact (setMi_keeps d _).trans (resetEnds_keeps _ _))
    refine ⟨_, runs, keeps_commit frame, by rw [mi]; rfl, by rw [mi]; rfl, by rw [mi]; rfl, fun yes => ?_⟩
    rw [mi] at yes
    exact absurd yes Bool.false_ne_true
  | true =>
    rw [good, if_pos rfl] at runs
    have mi := ((commit_mi _).trans (resetEnds_mi (d.islandUp image) {})).trans
      (congrArg (fun i : Island => { i with resetTag := none }) (islandUp_mi d image))
    have frame : SameBut [.mi] s.dev ((d.islandUp image).resetEnds {}) :=
      advance_keeps_trans n (by rw [d0]; exact (islandUp_keeps d image).trans (resetEnds_keeps _ _))
    have few : (d.startVerdict image).2 < 16 := sealVerdict_few _ _ _ _
    refine ⟨_, runs, keeps_commit frame, by rw [mi]; rfl, by rw [mi]; rfl, by rw [mi]; rfl, fun _ => ⟨by rw [mi]; rfl, by rw [mi]; rfl, ?_⟩⟩
    rw [mi]
    change decide ((d.startVerdict image).2 = 0) = true ↔ BitVec.ofNat 4 (d.startVerdict image).2 = 0
    rw [decide_eq_true_iff, ← BitVec.toNat_inj, BitVec.toNat_ofNat, Nat.mod_eq_of_lt few]
    rfl

/-- MI.RESET completes once the island has started with a good image. -/
theorem islandStart_completes {f : Flight} (tag : s.dev.mi.resetTag = some f.tag) (o : Open s f) (good : imageGood image = true) :
    ∃ t, exec (.islandStart n image) s = .next t ∧ Keeps [.mi] s t ∧ Ends s t f stOk [] ∧ t.dev.mi.ready = true ∧ t.dev.mi.resetTag = none := by
  have runs := islandStart_runs (image := image) n off
  rw [startIsland_eq, if_pos good] at runs
  have quiet := (advance_quiet s.dev n).trans (islandUp_quiet (s.dev.advance n) image)
  have frame : SameBut [.mi] s.dev ((s.dev.advance n).islandUp image) := advance_keeps_trans n (islandUp_keeps _ image)
  have mi := islandUp_mi (s.dev.advance n) image
  have named : ((s.dev.advance n).islandUp image).mi.resetTag = some f.tag := (congrArg Island.resetTag (Dev.advance_mi s.dev n)).trans tag
  generalize (s.dev.advance n).islandUp image = e at *
  have ends : e.resetEnds {} = ({ e with mi := { e.mi with resetTag := none } } : Dev).finish f.tag {} := by
    rw [Dev.resetEnds, named]
  have flights : e.ctl.flights = [f] := quiet.flights.trans o.flights
  have island := (commit_mi _).trans (resetEnds_mi e {})
  refine ⟨_, runs, keeps_commit (frame.trans (resetEnds_keeps e {})), ?_, by rw [island, mi]; rfl, by rw [island]⟩
  rw [ends]
  exact (finish_ended (d := { e with mi := { e.mi with resetTag := none } }) flights rfl o.group o.done o.origin {} (.inl rfl) rfl rfl).ends o
    ((finish_cplPath_of (d := { e with mi := { e.mi with resetTag := none } }) flights o.group {}).trans quiet.path) (.inr rfl)

end

/-! ### Command frames (R293, R295) -/

/-! #### Reports leave the commands in flight alone -/

theorem itemEvent_quiet (d : Dev) (i : LogItem) : Quiet d (d.itemEvent i) := by
  unfold Dev.itemEvent
  cases i.event with
  | none => exact .refl d
  | some e => exact postAt_quiet ..

/-- An item that no injection made ends none. -/
theorem dealt_quiet (d : Dev) {i : LogItem} (real : i.injected = false) : Quiet d (d.dealt i) := by
  unfold Dev.dealt
  rw [real]
  exact itemEvent_quiet d i

theorem setLog_quiet (d : Dev) (x : Log) : Quiet d { d with log := x } := ⟨rfl, rfl⟩
theorem setFc_quiet (d : Dev) (x : Fc) : Quiet d { d with fc := x } := ⟨rfl, rfl⟩

theorem holdItem_quiet (d : Dev) {i : LogItem} (real : i.injected = false) : Quiet d (d.holdItem i) := by
  unfold Dev.holdItem
  dsimp only
  split_ifs
  · exact (setLog_quiet d _).trans (dealt_quiet _ real)
  · exact (setLog_quiet d _).trans (itemEvent_quiet _ i)
  · exact (setLog_quiet d _).trans (dealt_quiet _ real)

theorem closeLog_quiet (d : Dev) (k : Nat) : Quiet d (d.closeLog k) := by
  unfold Dev.closeLog
  split <;> exact ⟨rfl, rfl⟩

theorem faultEvent_quiet (d : Dev) (r : Report) (inj : Bool) : Quiet d (d.faultEvent r inj).1 := by
  obtain ⟨f, dev, -⟩ := faultEvent_dev d r inj
  rw [dev]
  exact setFc_quiet d f

theorem crowdedEnd_quiet (d : Dev) (i : LogItem) (faults : List LogItem) : Quiet d (d.crowdedEnd i faults) := by
  unfold Dev.crowdedEnd
  dsimp only
  cases d.log.openFor i with
  | some k =>
    dsimp only
    split_ifs
    · exact holdItem_quiet d rfl
    · exact (setLog_quiet d _).trans (closeLog_quiet _ k)
    · exact setLog_quiet d _
  | none =>
    cases faults.getLast? with
    | some n =>
      dsimp only
      split
      exacts [setLog_quiet d _, setFc_quiet d _]
    | none => exact setFc_quiet d _

/-- The item of a real report. -/
theorem faultItem_quiet (d : Dev) (r : Report) : Quiet d (d.faultItem r false) := by
  rw [faultItem_eq]
  split
  · exact (faultEvent_quiet d r false).trans (pushLog_quiet _ _)
  · exact (faultEvent_quiet d r false).trans ((setFc_quiet _ _).trans ((itemEvent_quiet _ _).trans (crowdedEnd_quiet _ _ _)))

theorem collect_quiet (d : Dev) (line cls cause unit detail : Nat) : Quiet d (d.collect line cls cause unit detail) := by
  unfold Dev.collect
  dsimp only
  split
  · exact (setFc_quiet d _).trans ((faultEvent_quiet _ _ false).trans (setLog_quiet _ _))
  · exact (setFc_quiet d _).trans (faultItem_quiet _ _)

/-- An uncorrected report on the island's port takes the frame that waits there. -/
theorem report_port {d : Dev} (cause unit detail : Nat) (class_ : d.classNow 36 1 = 1) :
    Quiet d (d.report 36 1 cause unit detail) ∧ (d.report 36 1 cause unit detail).mi = { d.mi with port := d.mi.port.tail } ∧
      (d.report 36 1 cause unit detail).tl = d.tl := by
  have quiet := collect_quiet d 36 1 cause unit detail
  have beside := collect_beside d 36 1 cause unit detail
  have mi := of_beside Dev.mi (fun _ => rfl) beside
  have tl := of_beside Dev.tl (fun _ => rfl) beside
  have runs : d.report 36 1 cause unit detail = { d.collect 36 1 cause unit detail with
      mi := { (d.collect 36 1 cause unit detail).mi with port := (d.collect 36 1 cause unit detail).mi.port.tail } } := by
    unfold Dev.report
    rw [class_]
    rfl
  generalize d.collect 36 1 cause unit detail = e at *
  rw [runs]
  exact ⟨quiet.trans (.of_ctl rfl), by rw [mi], tl⟩

theorem classNow_congr {d e : Dev} (fc : e.fc = d.fc) (tl : e.tl = d.tl) (line cls : Nat) : e.classNow line cls = d.classNow line cls := by
  rw [Dev.classNow, fc, tl, Dev.classNow]

/-! #### The voltage of a unit -/

/-- The voltage of a unit starts towards a new target (R303). -/
def Dev.rampStarts (d : Dev) (u t : Nat) (tag : Option Tag) (code : Nat) : Dev :=
  ((d.modMu u fun m => { m with vTarget := code }).muEnd (d.mu u).forceTag u true).modMu u fun m => { m with ramp := some (t : Int), forceTag := tag }

theorem muForceNow_ramps {d : Dev} {u : Nat} (t : Nat) (tag : Option Tag) {word : BitVec 32} (volt : word.getLsbD 20 = false)
    (rests : (d.mu u).seq = none) (mode : (d.mu u).mode = 1) (jumps : (d.mu u).interval = 0) :
    d.muForceNow u t tag word = d.rampStarts u t tag (bits word.toNat 0 20) := by
  unfold Dev.muForceNow
  dsimp only
  rw [volt]
  simp only [Bool.false_eq_true, if_false, mu_modMu_self, rests, mode, ne_eq, not_true_eq_false, jumps, gt_iff_lt, lt_irrefl, and_false]
  rfl

theorem rampStarts_mu (d : Dev) (u t : Nat) (tag : Option Tag) (code : Nat) :
    (d.rampStarts u t tag code).mu u = { d.mu u with vTarget := code, ramp := some (t : Int), forceTag := tag } := by
  rw [Dev.rampStarts, mu_modMu_self, mu_muEnd, mu_modMu_self]

theorem rampStarts_keeps (d : Dev) (u t : Nat) (tag : Option Tag) (code : Nat) : SameBut [.mi] d (d.rampStarts u t tag code) :=
  (modMu_keeps d u _).trans ((muEnd_keeps _ _ _ u true).trans (modMu_keeps _ u _))

theorem rampStarts_crcErrors (d : Dev) (u t : Nat) (tag : Option Tag) (code : Nat) :
    (d.rampStarts u t tag code).mi.crcErrors = d.mi.crcErrors := by
  show (((d.modMu u fun m => { m with vTarget := code }).muEnd (d.mu u).forceTag u true).mi).crcErrors = _
  rw [muEnd_mi]
  rfl

theorem muTurnsAway_of_free {d : Dev} {u : Nat} {volt : Bool} (free : (d.mu u).meas = none) (drives : (d.mu u).future.mode ≠ 0)
    (measures : volt = true ∨ (d.mu u).future.mode ≠ 3) (rewind : d.tl.rewind = none) : d.muTurnsAway volt u = none := by
  have mode : (decide ((d.mu u).future.mode = 0) || (!volt && decide ((d.mu u).future.mode = 3))) = false := by
    rw [decide_eq_false drives, Bool.false_or]
    rcases measures with yes | other
    · rw [yes]
      rfl
    · rw [decide_eq_false other, Bool.and_false]
  unfold Dev.muTurnsAway
  dsimp only
  rw [free, rewind, mode]
  rfl

/-- A measurement that the port asks for. -/
def Dev.portMeas (d : Dev) (volt : Bool) (k : BitVec 32) (count : BitVec 16) : MuMeas :=
  { islp := true, volt := volt, n := k.toNat, left := count.toNat, start := roundUp d.tl.now grainSteps, epoch := d.tl.epoch }

/-- A unit that takes a measurement of the port. -/
def Dev.portMeasures (d : Dev) (u : Nat) (volt : Bool) (k : BitVec 32) (count : BitVec 16) : Dev :=
  d.modMu u fun m => { m with meas := some (d.portMeas volt k count) }

/-! #### Frames -/

/-- A device that has taken a frame from the island's port. -/
def Dev.portRead (d : Dev) : Dev := { d with mi := { d.mi with port := d.mi.port.tail } }

section
variable (s : State) (n : Nat) {words : List (BitVec 32)}

section
variable (least : 1 ≤ words.length) (most : words.length ≤ 256)
include least most

theorem fits : decide (1 ≤ words.length ∧ words.length ≤ 256) = true := decide_eq_true ⟨least, most⟩

/-- A good frame of another kind is dropped. -/
theorem frame_other : ∃ t, exec (.islandFrameReceived n { words := words, crcOk := true, islp := true }) s = .next t ∧ Keeps [.mi] s t ∧
    t.dev.mi = { s.dev.mi with port := s.dev.mi.port.tail, crcErrors := min (2 ^ 32 - 1) (s.dev.mi.crcErrors + 1) } := by
  have runs : exec (.islandFrameReceived n { words := words, crcOk := true, islp := true }) s =
      .next { s with dev := (s.dev.advance n).portRead.dropFrame.commit } := by
    refine (onDev_runs ?_ : execIslandFrameReceived n _ s = _)
    dsimp only
    rw [fits least most]
    rfl
  refine ⟨_, runs, keeps_commit (advance_keeps_trans n ((setMi_keeps _ _).trans (setMi_keeps _ _))), ?_⟩
  dsimp only
  rw [commit_mi]
  dsimp only [Dev.dropFrame, Dev.portRead]
  rw [Dev.advance_mi]
  rfl

/-- A good frame of the device's side is no concern of the island. -/
theorem frame_passes (kind : FrameKind) : ∃ t, exec (.islandFrameReceived n { words := words, crcOk := true, kind := kind }) s = .next t ∧
    Keeps [] s t := by
  refine ⟨_, (onDev_runs (d := s.dev.advance n) ?_ : execIslandFrameReceived n _ s = _), keeps_commit (advance_keeps _ _ _)⟩
  dsimp only
  rw [fits least most]
  rfl

variable {u : Nat} (hu : u < 16) (started : s.dev.mi.started = true) (verified : s.dev.mi.verified = true)
include started verified

omit least most in
theorem portRead_mu (v : Nat) : (s.dev.advance n).portRead.mu v = s.dev.mu v := by
  rw [Dev.mu, Dev.portRead, Dev.advance_mi, Dev.mu]

/-- A good frame of a kind that a started island reads. -/
theorem frame_runs {kind : FrameKind} (known : kind ≠ .other) :
    exec (.islandFrameReceived n { words := words, crcOk := true, islp := true, kind := kind }) s =
      .next { s with dev := ((s.dev.advance n).portRead.islpFrame kind).commit } := by
  refine (onDev_runs ?_ : execIslandFrameReceived n _ s = _)
  dsimp only
  rw [fits least most]
  refine (if_neg known).trans (if_pos ?_)
  show ((s.dev.advance n).mi.started && (s.dev.advance n).mi.verified) = true
  rw [Dev.advance_mi, started, verified]
  rfl

include hu

/-- MI.FORCE by the port: the unit's voltage starts towards its new target. -/
theorem frame_force {word : BitVec 32} (rests : (s.dev.mu u).seq = none) (mode : (s.dev.mu u).mode = 1) (jumps : (s.dev.mu u).interval = 0)
    (small : word.toNat < 2 ^ 20) (low : 65536 ≤ word.toNat) (high : word.toNat ≤ 753664) :
    ∃ t, exec (.islandFrameReceived n { words := words, crcOk := true, islp := true, kind := .force (1#16 <<< u) word }) s = .next t ∧
      Keeps [.mi] s t ∧ t.dev.mi.crcErrors = s.dev.mi.crcErrors ∧ t.dev.mu u = { s.dev.mu u with
        vTarget := word.toNat, forceTag := none, ramp := some (roundUp (s.dev.advance n).tl.now 1024 : Nat) } := by
  have top : word.getLsbD 20 = false := by
    rw [← BitVec.testBit_toNat]
    exact Nat.testBit_lt_two_pow small
  have code : bits word.toNat 0 20 = word.toNat := by
    rw [bits, Nat.pow_zero, Nat.div_one]
    exact Nat.mod_eq_of_lt small
  have good : muWordBad word = false := by
    unfold muWordBad
    dsimp only
    rw [top, code]
    simp only [Bool.not_false, Bool.true_and, Bool.or_eq_false_iff, decide_eq_false_iff_not]
    omega
  have at_ : (s.dev.advance n).portRead.tl = (s.dev.advance n).tl := rfl
  have unit := portRead_mu s n started verified u
  have runs := frame_runs s n (kind := .force (1#16 <<< u) word) least most started verified (by simp)
  have ramps : (s.dev.advance n).portRead.islpFrame (.force (1#16 <<< u) word) =
      (s.dev.advance n).portRead.rampStarts u (roundUp (s.dev.advance n).tl.now 1024) none (bits word.toNat 0 20) := by
    refine (if_neg (by rw [good]; simp)).trans ?_
    rw [members_singleton hu]
    exact muForceNow_ramps _ none top (by rw [unit, rests]) (by rw [unit, mode]) (by rw [unit, jumps])
  rw [ramps, code] at runs
  refine ⟨_, runs, keeps_commit (advance_keeps_trans n ((setMi_keeps _ _).trans (rampStarts_keeps _ _ _ _ _))), ?_, ?_⟩
  · dsimp only
    rw [commit_mi, rampStarts_crcErrors, Dev.portRead, Dev.advance_mi]
  · dsimp only
    rw [commit_mu, rampStarts_mu, unit]

/-- MI.MEASURE by the port. -/
theorem frame_measure {volt : Bool} {k : BitVec 32} {count : BitVec 16} (free : (s.dev.mu u).meas = none)
    (drives : (s.dev.mu u).future.mode ≠ 0) (measures : volt = true ∨ (s.dev.mu u).future.mode ≠ 3) (rewind : s.dev.tl.rewind = none)
    (some_ : 1 ≤ k.toNat) (fits : k.toNat ≤ 16777216) (counts : count ≠ 0) :
    ∃ t x, exec (.islandFrameReceived n { words := words, crcOk := true, islp := true, kind := .measure (1#16 <<< u) volt k count }) s = .next t ∧
      Keeps [.mi] s t ∧ (t.dev.mu u).meas = some x ∧ x.islp = true ∧ x.volt = volt ∧ x.n = k.toNat ∧ x.left = count.toNat := by
  have rewinds : (s.dev.advance n).portRead.tl.rewind = none := (Dev.advance_tl_rewind _ _).trans rewind
  have unit := portRead_mu s n started verified u
  have runs := frame_runs s n (kind := .measure (1#16 <<< u) volt k count) least most started verified (by simp)
  have frame : SameBut [.mi] s.dev (s.dev.advance n).portRead := advance_keeps_trans n (setMi_keeps _ _)
  generalize (s.dev.advance n).portRead = d at *
  have measures : d.islpFrame (.measure (1#16 <<< u) volt k count) = d.portMeasures u volt k count := by
    have turned : ((members (1#16 <<< u)).any fun u => (d.muTurnsAway volt u).isSome) = false := by
      rw [members_singleton hu, List.any_cons, List.any_nil, muTurnsAway_of_free (by rw [unit, free]) (by rw [unit]; exact drives)
        (by rw [unit]; exact measures) rewinds]
      rfl
    refine (if_neg ?_).trans ?_
    · rintro (few | many | zero | away)
      · omega
      · omega
      · exact counts zero
      · exact Bool.false_ne_true (turned.symm.trans away)
    · rw [members_singleton hu]
      rfl
  rw [measures] at runs
  refine ⟨_, d.portMeas volt k count, runs, keeps_commit (frame.trans (modMu_keeps d u _)), ?_, rfl, rfl, rfl, rfl⟩
  dsimp only
  rw [commit_mu, Dev.portMeasures, mu_modMu_self]

end

/-! #### Bad frames -/

variable (class_ : (s.dev.advance n).classNow 36 1 = 1)
include class_

/-- A bad frame to the island is counted and reported. -/
theorem frame_bad (kind : FrameKind) :
    ∃ t, exec (.islandFrameReceived n { words := words, crcOk := false, islp := true, kind := kind }) s = .next t ∧
      t.dev.mi.crcErrors = min (2 ^ 32 - 1) (s.dev.mi.crcErrors + 1) ∧ t.dev.mi.mus = s.dev.mi.mus := by
  have runs : exec (.islandFrameReceived n { words := words, crcOk := false, islp := true, kind := kind }) s =
      .next { s with dev := ((s.dev.advance n).dropFrame.report 36 1 3 0xFFFF 0).commit } :=
    (onDev_runs (by dsimp only; rw [Bool.false_and, if_neg Bool.false_ne_true, if_pos rfl]) : execIslandFrameReceived n _ s = _)
  obtain ⟨-, mi, -⟩ := report_port (d := (s.dev.advance n).dropFrame) 3 0xFFFF 0 ((classNow_congr rfl rfl 36 1).trans class_)
  generalize (s.dev.advance n).dropFrame.report 36 1 3 0xFFFF 0 = e at *
  refine ⟨_, runs, ?_, ?_⟩
  · dsimp only
    rw [commit_mi, mi]
    dsimp only [Dev.dropFrame]
    rw [Dev.advance_mi]
    rfl
  · dsimp only
    rw [commit_mi, mi]
    dsimp only [Dev.dropFrame]
    rw [Dev.advance_mi]

/-- A device that has put a bad frame at its end of the port. -/
def Dev.portWritten (d : Dev) (words : List (BitVec 32)) : Dev := { d with mi := { d.mi with port := (false, words) :: d.mi.port } }

/-- A bad frame to the device: the command of the island that is in flight ends with FAULT. -/
theorem frame_faults {f : Flight} (kind : FrameKind) (o : Open s f) (island : f.opcode.toNat / 256 = 0x0A) :
    ∃ t, exec (.islandFrameReceived n { words := words, crcOk := false, kind := kind }) s = .next t ∧ Ends s t f stFault [] ∧
      t.dev.mi.crcErrors = min (2 ^ 32 - 1) (s.dev.mi.crcErrors + 1) ∧ t.dev.mi.mus = s.dev.mi.mus := by
  have flights : (s.dev.advance n).dropFrame.ctl.flights = [f] := (congrArg Ctl.flights (Dev.advance_ctl _ _)).trans o.flights
  have path : (s.dev.advance n).dropFrame.cplPath = s.dev.cplPath := advance_cplPath _ _
  have found : (s.dev.advance n).dropFrame.ctl.flights.find? (fun x => x.done == none && decide (x.opcode.toNat / 256 = 0x0A)) = some f := by
    rw [flights]
    simp [o.done, island]
  have mi : (s.dev.advance n).dropFrame.mi = { s.dev.mi with crcErrors := min (2 ^ 32 - 1) (s.dev.mi.crcErrors + 1) } := by
    dsimp only [Dev.dropFrame]
    rw [Dev.advance_mi]
    rfl
  have told : (s.dev.advance n).dropFrame.classNow 36 1 = 1 := (classNow_congr rfl rfl 36 1).trans class_
  have runs : exec (.islandFrameReceived n { words := words, crcOk := false, kind := kind }) s = .next { s with dev :=
      ((((((s.dev.advance n).dropFrame.finish f.tag { status := stFault, b := 3 }).dropJob f.tag).portWritten words).report 36 1 3 0xFFFF
        0)).commit } := by
    refine (onDev_runs ?_ : execIslandFrameReceived n _ s = _)
    dsimp only
    rw [Bool.false_and, if_neg Bool.false_ne_true, if_neg Bool.false_ne_true, found]
    rfl
  generalize (s.dev.advance n).dropFrame = d at *
  have ended := finish_ended flights rfl o.group o.done o.origin { status := stFault, b := 3 } (.inl rfl) rfl rfl
  have stays : (d.finish f.tag { status := stFault, b := 3 }).mi = d.mi := Dev.finish_mi _ _ _
  have fc : (d.finish f.tag { status := stFault, b := 3 }).fc = d.fc := Dev.finish_fc _ _ _
  have tl : (d.finish f.tag { status := stFault, b := 3 }).tl = d.tl := Dev.finish_tl _ _ _
  have kept := finish_cplPath_of (g := f.tag) flights o.group { status := stFault, b := 3 }
  generalize d.finish f.tag { status := stFault, b := 3 } = e at *
  obtain ⟨quiet, port, timeline⟩ := report_port (d := (e.dropJob f.tag).portWritten words) 3 0xFFFF 0 ((classNow_congr fc tl 36 1).trans told)
  have drops : Quiet e ((e.dropJob f.tag).portWritten words) := ⟨rfl, rfl⟩
  have island_ : ((e.dropJob f.tag).portWritten words).mi = { d.mi with port := (false, words) :: d.mi.port } := by
    rw [← stays]
    rfl
  have silent := drops.trans quiet
  have now : ((e.dropJob f.tag).portWritten words).tl = e.tl := rfl
  generalize Dev.report _ 36 1 3 0xFFFF 0 = x at *
  refine ⟨_, runs, (ended.congr silent.flights ?_ ?_).ends o (silent.path.trans (kept.trans path)) (.inr rfl), ?_, ?_⟩
  · rw [timeline, now]
  · rw [timeline, now]
  · dsimp only
    rw [commit_mi, port, island_, mi]
  · dsimp only
    rw [commit_mi, port, island_, mi]

end

/-! ### The reference check (R308) -/

/-- Whether the reference has drifted by more than 20 ppm. -/
def Island.drifts (i : Island) (reference : Nat) : Bool :=
  match i.cal with
  | some c => decide (((reference : Int) - calReference c).natAbs * 1000000 > 20 * calReference c)
  | none => false

/-- The island after its reference check. -/
def Island.checked (i : Island) (reference : Nat) (temp : Int) (next : Nat) : Island :=
  { i with temp := temp, refDrift := i.drifts reference, refAt := next }

theorem refCheck_checks {s : State} {n reference : Nat} {temp : Int} (ready : s.dev.mi.ready = true)
    (due : s.dev.mi.refAt ≤ (s.dev.advance n).mono) : ∃ t, exec (.islandRefCheck n reference temp) s = .next t ∧ Keeps [.mi] s t ∧
      t.dev.mi.temp = temp ∧ t.dev.mi.refAt = (s.dev.advance n).mono + 10000 * msSteps ∧
      (∀ c, s.dev.mi.cal = some c → t.dev.mi.refDrift =
        decide (20 * calReference c < ((reference : Int) - calReference c).natAbs * 1000000)) ∧
      (s.dev.mi.cal = none → t.dev.mi.refDrift = false) := by
  have runs : exec (.islandRefCheck n reference temp) s = .next { s with dev := ({ s.dev.advance n with
      mi := (s.dev.advance n).mi.checked reference temp ((s.dev.advance n).mono + 10000 * msSteps) } : Dev).commit } := by
    refine (onDev_runs ?_ : execIslandRefCheck n reference temp s = _)
    refine if_neg ?_
    rintro (off | early)
    · rw [ready] at off
      exact absurd off (by decide)
    · omega
  generalize (s.dev.advance n).mono + 10000 * msSteps = next at runs ⊢
  refine ⟨_, runs, keeps_commit (advance_keeps_trans n (setMi_keeps _ _)), ?_, ?_, fun c cal => ?_, fun cal => ?_⟩
  · dsimp only
    rw [commit_mi]
    rfl
  · dsimp only
    rw [commit_mi]
    rfl
  · dsimp only
    rw [commit_mi, Dev.advance_mi]
    dsimp only [Island.checked]
    rw [Island.drifts, cal]
  · dsimp only
    rw [commit_mi, Dev.advance_mi]
    dsimp only [Island.checked]
    rw [Island.drifts, cal]

end Sys2Proof.Machine
end


section
/-!
PROOFS. The events of one Metrology Unit (R299 to R303): actions at their stamps, steps of a sequence, ramps, samples.
-/
namespace Sys2Proof.Machine

theorem advance_mu (d : Dev) (n u : Nat) : (d.advance n).mu u = d.mu u := mu_of_mi (Dev.advance_mi d n) u

/-! ### What ends with a unit's command leaves the island alone -/

theorem endUnits_mi (l : List Tag) (d : Dev) (u : Nat) : (l.foldl (fun d t => d.endUnit t u) d).mi = d.mi :=
  foldl_leaves Dev.mi (fun d t => Dev.endUnit_mi d t u) l d

theorem endUnits_keeps (p : List Part) (l : List Tag) (d : Dev) (u : Nat) : SameBut p d (l.foldl (fun d t => d.endUnit t u) d) :=
  SameBut.foldl (fun d t => endUnitAt_keeps p d t u _) l d

theorem muParkDone_keeps (d : Dev) : SameBut [.mi] d d.muParkDone := by
  unfold Dev.muParkDone
  split
  · exact .refl _ d
  · exact (setMi_keeps d _).trans (finishes_keep _ _ _)

theorem muParkDone_mu (d : Dev) (u : Nat) : d.muParkDone.mu u = d.mu u := congrArg (·.get {} u) (muParkDone_mus d)

section
variable {s : State} {u : BitVec 4} (rewind : s.dev.tl.rewind = none)
include rewind

/-! ### Actions at their stamps -/

/-- A unit whose force word has reached its stamp. -/
def Mu.forced (f : Tag × BitVec 32 × Nat) (m : Mu) : Mu := { m with forceSched := m.forceSched.erase f }

theorem force_starts {tag : Tag} {word : BitVec 32} {st : Nat} (force : (s.dev.mu u.toNat).forceSched = [(tag, word, st)])
    (sched : (s.dev.mu u.toNat).sched = []) (queued : (s.dev.mu u.toNat).queued = []) (acts : s.dev.tl.acts = [])
    (volt : word.getLsbD 20 = false) (rests : (s.dev.mu u.toNat).seq = none) (mode : (s.dev.mu u.toNat).mode = 1)
    (jumps : (s.dev.mu u.toNat).interval = 0) :
    ∃ t, exec (.islandActionEffect u) s = .next t ∧ Keeps [.mi] s t ∧ (t.dev.mu u.toNat).forceSched = [] ∧
      (t.dev.mu u.toNat).vTarget = bits word.toNat 0 20 ∧ (t.dev.mu u.toNat).forceTag = some tag ∧
      (t.dev.mu u.toNat).ramp = some (st : Int) := by
  have unit : ((s.dev.advance st).modMu u.toNat (Mu.forced (tag, word, st))).mu u.toNat = { s.dev.mu u.toNat with forceSched := [] } := by
    rw [mu_modMu_self, advance_mu, Mu.forced, force]
    simp
  have runs : exec (.islandActionEffect u) s = .next { s with dev :=
      (((s.dev.advance st).modMu u.toNat (Mu.forced (tag, word, st))).rampStarts u.toNat st (some tag) (bits word.toNat 0 20)).commit } := by
    refine (onDev_runs ?_ : execIslandActionEffect u s = _)
    have found : earliest (fun f => f.2.2) ((s.dev.mu u.toNat).forceSched.filter fun f =>
        !(s.dev.act f.1 .miForce).any fun a => a.epoch != s.dev.tl.epoch) = some (tag, word, st) := by
      simp [force, Dev.act, acts, earliest]
    dsimp only
    rw [found, sched, queued, Mu.shutting, rests]
    dsimp only [List.filter_nil, earliest, List.head?, Option.any]
    rw [if_neg Bool.false_ne_true]
    dsimp only
    rw [due_of_no_rewind rewind, tookAct_of_no_acts (d := (s.dev.advance st).modMu u.toNat _) (by exact (s.dev.advance_tl_acts st).trans acts)]
    exact muForceNow_ramps (d := (s.dev.advance st).modMu u.toNat (Mu.forced (tag, word, st))) st (some tag) volt (by rw [unit, rests])
      (by rw [unit, mode]) (by rw [unit, jumps])
  have after := rampStarts_mu ((s.dev.advance st).modMu u.toNat (Mu.forced (tag, word, st))) u.toNat st (some tag) (bits word.toNat 0 20)
  rw [unit] at after
  refine ⟨_, runs, keeps_commit (advance_keeps_trans st ((modMu_keeps _ _ _).trans (rampStarts_keeps _ _ _ _ _))), ?_, ?_, ?_, ?_⟩
  all_goals
    dsimp only
    rw [commit_mu, after]

/-- A unit that has taken the limits of a change (R301). -/
def Mu.limited (c : MuChange) (m : Mu) : Mu := { m with irange := c.irange, vrange := c.vrange, ilim := c.ilim, lo := c.lo, hi := c.hi }

/-- A change of a unit's limits alone runs no sequence. -/
theorem limits_change {c : MuChange} (sched : (s.dev.mu u.toNat).sched = [c]) (force : (s.dev.mu u.toNat).forceSched = [])
    (queued : (s.dev.mu u.toNat).queued = []) (rests : (s.dev.mu u.toNat).seq = none) (epoch : c.epoch = s.dev.tl.epoch)
    (tag : c.tag = none) (conn : c.conn = none) (mode : c.mode = (s.dev.mu u.toNat).mode) (irange : c.irange = (s.dev.mu u.toNat).irange)
    (vrange : c.vrange = (s.dev.mu u.toNat).vrange) :
    ∃ t, exec (.islandActionEffect u) s = .next t ∧ Keeps [.mi] s t ∧ t.dev.mu u.toNat = { s.dev.mu u.toNat with
      sched := [], ilim := c.ilim, lo := c.lo, hi := c.hi } := by
  have unit : ((s.dev.advance c.stamp).modMu u.toNat fun m => { m with sched := m.sched.erase c }).mu u.toNat =
      { s.dev.mu u.toNat with sched := [] } := by
    rw [mu_modMu_self, advance_mu, sched]
    simp
  have runs : exec (.islandActionEffect u) s = .next { s with dev := ((((s.dev.advance c.stamp).modMu u.toNat fun m =>
      { m with sched := m.sched.erase c }).modMu u.toNat (Mu.limited c))).commit } := by
    refine (onDev_runs ?_ : execIslandActionEffect u s = _)
    have found : earliest (·.stamp) ((s.dev.mu u.toNat).sched.filter fun c => c.epoch == s.dev.tl.epoch) = some c := by
      simp [sched, epoch, earliest]
    dsimp only
    rw [found, force, queued, Mu.shutting, rests]
    dsimp only [List.filter_nil, earliest, List.head?, Option.any]
    rw [if_neg Bool.false_ne_true]
    dsimp only
    rw [due_of_no_rewind rewind, tag]
    dsimp only
    generalize (s.dev.advance c.stamp).modMu u.toNat _ = d at unit ⊢
    have still : (d.mu u.toNat).shutting = false := by
      rw [Mu.shutting, unit]
      dsimp only
      rw [rests]
      rfl
    have stays : (d.mu u.toNat).noSeq c = true := by
      rw [Mu.noSeq, Mu.future, unit]
      dsimp only
      rw [rests, conn, mode, irange, vrange]
      simp
    have idle : (d.mu u.toNat).seq = none := by rw [unit]; exact rests
    unfold Dev.muChangeNow
    dsimp only
    rw [still, tag, if_neg (by simp)]
    refine Eq.trans (b := d.muApply u.toNat c.stamp c) (by split <;> simp_all) ?_
    unfold Dev.muApply
    dsimp only
    rw [conn, idle, if_neg (by simp)]
    dsimp only
    rw [if_pos stays, tag]
    rfl
  refine ⟨_, runs, keeps_commit (advance_keeps_trans c.stamp ((modMu_keeps _ _ _).trans (modMu_keeps _ _ _))), ?_⟩
  dsimp only
  rw [commit_mu, mu_modMu_self, unit, Mu.limited]
  dsimp only
  rw [irange, vrange]

/-! ### Steps of a sequence -/

/-- The switch of a unit has opened (R299). -/
theorem muDisconnect_ends {q : MuSeq} (seq : (s.dev.mu u.toNat).seq = some q) (step : q.step = .c) (off : q.change.conn = some false) :
    ∃ t, exec (.muSequenceStepEnd u) s = .next t ∧ Keeps [.mi] s t ∧ (t.dev.mu u.toNat).seq = none ∧
      (t.dev.mu u.toNat).closed = false ∧ (t.dev.mu u.toNat).mode = q.change.mode := by
  let f : Mu → Mu := fun m => { m with seq := none, ramp := none, closed := false, mode := q.change.mode }
  let a : Dev := ((s.dev.advance q.ends).modMu u.toNat f).muEnd q.change.tag u.toNat
  let b : Dev := q.also.foldl (fun d t => d.endUnit t u.toNat) a
  have runs : exec (.muSequenceStepEnd u) s = .next { s with dev := b.muParkDone.commit } := by
    refine (onDev_runs ?_ : execMuSequenceStepEnd u s = _)
    dsimp only
    rw [seq]
    dsimp only
    rw [due_of_no_rewind rewind, step]
    dsimp only
    rw [if_pos off, Dev.muEndDisconnect, advance_mu, seq]
  have unit : b.muParkDone.mu u.toNat = f (s.dev.mu u.toNat) := by
    rw [muParkDone_mu, mu_of_mi (endUnits_mi q.also a u.toNat), mu_muEnd, mu_modMu_self, advance_mu]
  have frame : SameBut [.mi] s.dev b.muParkDone := advance_keeps_trans q.ends ((modMu_keeps _ _ f).trans ((muEnd_keeps _ _ _ _ false).trans
    ((endUnits_keeps _ q.also a _).trans (muParkDone_keeps b))))
  generalize b.muParkDone = e at *
  refine ⟨_, runs, keeps_commit frame, ?_, ?_, ?_⟩
  all_goals
    dsimp only
    rw [commit_mu, unit]

/-- The ramp that ends a sequence has arrived (R299). -/
theorem muSequence_ends {q : MuSeq} (seq : (s.dev.mu u.toNat).seq = some q) (step : q.step = .e)
    (drives : forcing (s.dev.mu u.toNat).mode = true) (stays : q.change.conn ≠ some false) :
    ∃ t, exec (.muSequenceStepEnd u) s = .next t ∧ Keeps [.mi] s t ∧ (t.dev.mu u.toNat).seq = none ∧
      (t.dev.mu u.toNat).applied = (s.dev.mu u.toNat).target (s.dev.mu u.toNat).mode ∧
      (t.dev.mu u.toNat).closed = (s.dev.mu u.toNat).closed := by
  let f : Mu → Mu := fun m => { m with
    seq := none, ramp := none, forceTag := none
    applied := if forcing m.mode ∧ q.change.conn ≠ some false then m.target m.mode else m.applied }
  let b : Dev := (((s.dev.advance q.ends).modMu u.toNat f).muEnd q.change.tag u.toNat).muEnd (s.dev.mu u.toNat).forceTag u.toNat
  have runs : exec (.muSequenceStepEnd u) s = .next { s with dev := b.commit } := by
    refine (onDev_runs ?_ : execMuSequenceStepEnd u s = _)
    dsimp only
    rw [seq]
    dsimp only
    rw [due_of_no_rewind rewind, step]
    dsimp only
    rw [Dev.muEndSeq, advance_mu, seq]
  have unit : b.mu u.toNat = f (s.dev.mu u.toNat) := by rw [mu_muEnd, mu_muEnd, mu_modMu_self, advance_mu]
  have frame : SameBut [.mi] s.dev b := advance_keeps_trans q.ends ((modMu_keeps _ _ f).trans ((muEnd_keeps _ _ _ _ false).trans
    (muEnd_keeps _ _ _ _ false)))
  generalize b = e at *
  refine ⟨_, runs, keeps_commit frame, ?_, ?_, ?_⟩
  all_goals
    dsimp only
    rw [commit_mu, unit]
  exact if_pos ⟨drives, stays⟩

/-- Without an interval a ramp arrives with its first move. -/
theorem muRamp_arrives {t0 : Int} (ramp : (s.dev.mu u.toNat).ramp = some t0) (rests : (s.dev.mu u.toNat).seq = none)
    (jumps : (s.dev.mu u.toNat).interval = 0) :
    ∃ t, exec (.muRampMove u) s = .next t ∧ Keeps [.mi] s t ∧ (t.dev.mu u.toNat).ramp = none ∧
      (t.dev.mu u.toNat).applied = (s.dev.mu u.toNat).target (s.dev.mu u.toNat).mode := by
  let m := s.dev.mu u.toNat
  let n := (t0 + max 1 m.interval * grainSteps : Int).toNat
  let b : Dev := (s.dev.advance n).modMu u.toNat fun q => { q with applied := m.target m.mode, ramp := none }
  let c : Dev := (b.modMu u.toNat fun q => { q with forceTag := none }).muEnd m.forceTag u.toNat
  have runs : exec (.muRampMove u) s = .next { s with dev := c.commit } := by
    refine (onDev_runs ?_ : execMuRampMove u s = _)
    simp only [ramp, rests, Option.isSome_none, Bool.false_eq_true, if_false]
    rw [due_of_no_rewind rewind, if_pos jumps, if_pos rfl, if_pos ⟨rfl, trivial⟩]
  have unit : c.mu u.toNat = { m with applied := m.target m.mode, ramp := none, forceTag := none } := by
    rw [mu_muEnd, mu_modMu_self, mu_modMu_self, advance_mu]
  have frame : SameBut [.mi] s.dev c := advance_keeps_trans n ((modMu_keeps _ _ _).trans ((modMu_keeps _ _ _).trans (muEnd_keeps _ _ _ _ false)))
  generalize c = e at *
  refine ⟨_, runs, keeps_commit frame, ?_, ?_⟩
  all_goals
    dsimp only
    rw [commit_mu, unit]

/-! ### Samples (R302, R303) -/

/-- A measurement after one more sample. -/
def Mu.sampled (m : Mu) (x : MuMeas) (tl : Timeline) (smp : Int) (ovr compliance senseOpen : Bool) : MuMeas :=
  let v := clip 24 smp
  let head := x.got == 0
  { x with
    start := x.start + 5 * usSteps, got := x.got + 1, acc := x.acc + v, tq := x.tq ||| tl.tq
    min := if head then v else min x.min v, max := if head then v else max x.max v
    first := if head then x.start else x.first, epoch := if head then tl.epoch else x.epoch
    mode := if head then m.mode else x.mode, irange := if head then m.irange else x.irange
    vrange := if head then m.vrange else x.vrange
    ovr := x.ovr || ovr || decide (v = 8388607) || decide (v = -8388608), comp := x.comp || compliance
    ranging := x.ranging || m.seq.isSome, senseOpen := x.senseOpen || senseOpen }

/-- The device after a sample, before its result. -/
def Dev.muSampled (d : Dev) (u : Nat) (x : MuMeas) : Dev :=
  if x.islp then d.modMu u fun m => { m with meas := some x }
  else (d.modMu u fun m => { m with meas := some x }).tookAct x.tag .miMeasure (fun k => ((d.modMu u fun m =>
    { m with meas := some x }).mu k).meas.any fun y => y.tag == x.tag && decide (y.got = 0) && decide (y.left = x.left)) 16

end

theorem tookAct_keeps (d : Dev) (g : Tag) (k : ActKind) (w : Nat → Bool) (n : Nat) : SameBut [.tl] d (d.tookAct g k w n) := by
  unfold Dev.tookAct
  split
  exacts [.refl _ d, dropAct_keeps d g k]

theorem tookAct_mi (d : Dev) (g : Tag) (k : ActKind) (w : Nat → Bool) (n : Nat) : (d.tookAct g k w n).mi = d.mi := by
  unfold Dev.tookAct
  split <;> rfl

theorem muSampled_keeps (d : Dev) (u : Nat) (x : MuMeas) : SameBut [.mi, .tl] d (d.muSampled u x) := by
  unfold Dev.muSampled
  split
  · exact (modMu_keeps d u _).mono (by simp)
  · exact ((modMu_keeps d u _).mono (by simp)).trans ((tookAct_keeps _ _ _ _ _).mono (by simp))

theorem muSampled_mi (d : Dev) (u : Nat) (x : MuMeas) : (d.muSampled u x).mi = (d.modMu u fun m => { m with meas := some x }).mi := by
  unfold Dev.muSampled
  split
  exacts [rfl, tookAct_mi _ _ _ _ _]

theorem muSampled_counts (d : Dev) (n u : Nat) (x : MuMeas) : ((d.advance n).muSampled u x).mi.results = d.mi.results ∧
    ((d.advance n).muSampled u x).mi.recNum = d.mi.recNum := by
  rw [muSampled_mi]
  show (d.advance n).mi.results = _ ∧ (d.advance n).mi.recNum = _
  rw [Dev.advance_mi]
  exact ⟨rfl, rfl⟩

section
variable {s : State} {u : BitVec 4} {x : MuMeas} (smp : Int) (ovr comp senseOpen : Bool) (rewind : s.dev.tl.rewind = none)
  (meas : (s.dev.mu u.toNat).meas = some x) (live : x.epoch = s.dev.tl.epoch ∨ x.got ≠ 0)
include rewind meas live

/-- The measurement that a sample leaves. -/
def State.muNext (s : State) (u : BitVec 4) (x : MuMeas) (smp : Int) (ovr comp senseOpen : Bool) : MuMeas :=
  (s.dev.mu u.toNat).sampled x (s.dev.advance (x.start + 5 * usSteps)).tl smp ovr comp senseOpen

/-- What follows a sample: more samples, one more result, or the end. -/
def Dev.muGoesOn (d : Dev) (u : Nat) (x : MuMeas) : Dev :=
  if x.got < x.n then d
  else if x.left ≤ 1 then ((d.muResult u x false).modMu u fun m => { m with meas := none }).muEnd (if x.islp then none else some x.tag) u
  else (d.muResult u x false).modMu u fun m => { m with meas := some { x with
    left := x.left - 1, got := 0, acc := 0, ovr := false, comp := false, ranging := false, senseOpen := false, tq := 0 } }

theorem muAdcSample_runs : exec (.muAdcSample u smp ovr comp senseOpen) s = .next { s with dev :=
    (((s.dev.advance (x.start + 5 * usSteps)).muSampled u.toNat (s.muNext u x smp ovr comp senseOpen)).muGoesOn u.toNat
      (s.muNext u x smp ovr comp senseOpen)).commit } := by
  refine (onDev_runs ?_ : execMuAdcSample u smp ovr comp senseOpen s = _)
  dsimp only
  rw [meas]
  dsimp only
  rw [if_neg (by rintro ⟨other, fresh⟩; exact live.elim other fun got => got fresh), due_of_no_rewind rewind, advance_mu]
  rfl

theorem muSample_adds (more : x.got + 1 < x.n) : ∃ t y, exec (.muAdcSample u smp ovr comp senseOpen) s = .next t ∧ Keeps [.mi, .tl] s t ∧
    (t.dev.mu u.toNat).meas = some y ∧ y.got = x.got + 1 ∧ y.acc = x.acc + clip 24 smp ∧ y.start = x.start + 512000 ∧ y.left = x.left ∧
    t.dev.mi.results = s.dev.mi.results := by
  have runs := muAdcSample_runs smp ovr comp senseOpen rewind meas live
  have frame := muSampled_keeps (s.dev.advance (x.start + 5 * usSteps)) u.toNat (s.muNext u x smp ovr comp senseOpen)
  have mi := muSampled_mi (s.dev.advance (x.start + 5 * usSteps)) u.toNat (s.muNext u x smp ovr comp senseOpen)
  obtain ⟨results, -⟩ := muSampled_counts s.dev (x.start + 5 * usSteps) u.toNat (s.muNext u x smp ovr comp senseOpen)
  rw [Dev.muGoesOn, if_pos (show (s.muNext u x smp ovr comp senseOpen).got < (s.muNext u x smp ovr comp senseOpen).n from more)] at runs
  generalize (s.dev.advance (x.start + 5 * usSteps)).muSampled u.toNat (s.muNext u x smp ovr comp senseOpen) = e at *
  refine ⟨_, s.muNext u x smp ovr comp senseOpen, runs, keeps_commit (advance_keeps_trans _ frame), ?_, rfl, rfl, rfl, rfl, ?_⟩
  · dsimp only
    rw [commit_mu, mu_of_mi mi, mu_modMu_self]
  · dsimp only
    rw [commit_mi, results]

theorem muSample_ends (last : x.n ≤ x.got + 1) (final : x.left ≤ 1) :
    ∃ t, exec (.muAdcSample u smp ovr comp senseOpen) s = .next t ∧ Keeps [.mi, .tl] s t ∧ (t.dev.mu u.toNat).meas = none ∧
      t.dev.mi.results = min (2 ^ 32 - 1) (s.dev.mi.results + 1) ∧ t.dev.mi.recNum = s.dev.mi.recNum + 1 := by
  have runs := muAdcSample_runs smp ovr comp senseOpen rewind meas live
  have frame := muSampled_keeps (s.dev.advance (x.start + 5 * usSteps)) u.toNat (s.muNext u x smp ovr comp senseOpen)
  obtain ⟨results, number⟩ := muSampled_counts s.dev (x.start + 5 * usSteps) u.toNat (s.muNext u x smp ovr comp senseOpen)
  have got : ¬ (s.muNext u x smp ovr comp senseOpen).got < (s.muNext u x smp ovr comp senseOpen).n := Nat.not_lt.2 last
  have left : (s.muNext u x smp ovr comp senseOpen).left ≤ 1 := final
  rw [Dev.muGoesOn, if_neg got, if_pos left] at runs
  generalize (s.dev.advance (x.start + 5 * usSteps)).muSampled u.toNat (s.muNext u x smp ovr comp senseOpen) = e at *
  have counted : (e.muResult u.toNat (s.muNext u x smp ovr comp senseOpen) false).mi =
      { e.mi with recNum := e.mi.recNum + 1, results := satAdd (2 ^ 32 - 1) e.mi.results 1 } := rfl
  have told := (muResult_cuts e u.toNat (s.muNext u x smp ovr comp senseOpen) false).frame
  generalize e.muResult u.toNat (s.muNext u x smp ovr comp senseOpen) false = y at *
  refine ⟨_, runs, keeps_commit (advance_keeps_trans _ (frame.trans (told.trans (((modMu_keeps y _ _).mono (by simp)).trans
    (muEnd_keeps _ _ _ _ false))))), ?_, ?_, ?_⟩
  · dsimp only
    rw [commit_mu, mu_muEnd, mu_modMu_self]
  · dsimp only
    rw [commit_mi, muEnd_mi]
    exact (congrArg Island.results counted).trans (by rw [← results]; rfl)
  · dsimp only
    rw [commit_mi, muEnd_mi]
    exact (congrArg Island.recNum counted).trans (by rw [← number])

end

end Sys2Proof.Machine
open Sys2Proof Sys2Proof.Machine

/-- Settles O59, by what a start, a power loss, a frame and each event of a unit leave. -/
theorem islandEvents : Obligations.IslandEvents := by
  unfold Obligations.IslandEvents
  refine ⟨fun s n => ⟨fun image off => islandStart_starts n off,
      fun image f off tag o long good => islandStart_completes n off tag o (by rw [imageGood, good, decide_eq_true long]; rfl),
      islandPowerLoss_clears s n,
      fun words least most => ⟨frame_other s n least most, frame_passes s n least most,
        fun u word hu started verified rests mode jumps small low high =>
          frame_force s n least most hu started verified rests mode jumps small low high,
        fun u volt k count hu started verified free drives measures rewind some_ fits counts =>
          frame_measure s n least most hu started verified free drives measures rewind some_ fits counts⟩,
      fun words f kind o island class_ => frame_faults s n class_ kind o island,
      fun words kind class_ => frame_bad s n class_ kind,
      fun reference temp ready due => refCheck_checks ready due⟩, ?_⟩
  rintro s u m rewind rfl
  exact ⟨fun tag word st force sched queued acts volt rests mode jumps => force_starts rewind force sched queued acts volt rests mode jumps,
    fun c sched force queued rests epoch tag conn mode irange vrange =>
      limits_change rewind sched force queued rests epoch tag conn mode irange vrange,
    fun q seq step off => muDisconnect_ends rewind seq step off,
    fun q seq step drives stays => muSequence_ends rewind seq step drives stays,
    fun t0 ramp rests jumps => muRamp_arrives rewind ramp rests jumps,
    fun x smp ovr comp senseOpen meas live => ⟨fun more => muSample_adds smp ovr comp senseOpen rewind meas live more,
      fun last final => muSample_ends smp ovr comp senseOpen rewind meas live last final⟩⟩
end


section
/-!
PROOFS. The rules of the pattern store's tables (R210 to R229): what frees and rewrites tiles, and what asks for pages.
-/
namespace Sys2Proof.Machine

/-! ### What a command reads of the pattern store -/

theorem takenUp_of_class {op : BitVec 16} (c : opClass op ≠ 0) (d : Dev) (h : Hdr) : ∃ x, d.takenUp h op = { d.advance h.t with ctl := x } := by
  unfold Dev.takenUp
  rw [preempt_keeps _ op c]
  unfold Dev.ensureFlight
  split
  exacts [⟨_, rfl⟩, ⟨_, rfl⟩]

/-- What depends on neither timeline nor control complex is as before a command that does not preempt. -/
theorem takenUp_reads {γ : Type} (v : Dev → γ) (r : ∀ (d : Dev) t x, v { d with tl := t, ctl := x } = v d) {op : BitVec 16} (c : opClass op ≠ 0)
    (d : Dev) (h : Hdr) : v (d.takenUp h op) = v d := by
  obtain ⟨x, same⟩ := takenUp_of_class c d h
  obtain ⟨t, moved⟩ := advance_is_withTl d h.t
  rw [same, moved]
  exact r d t x

/-- What does not depend on the control complex is as at the command's present. -/
theorem takenUp_reads_now {γ : Type} (v : Dev → γ) (r : ∀ (d : Dev) x, v { d with ctl := x } = v d) {op : BitVec 16} (c : opClass op ≠ 0)
    (d : Dev) (h : Hdr) : v (d.takenUp h op) = v (d.advance h.t) := by
  obtain ⟨x, same⟩ := takenUp_of_class c d h
  rw [same]
  exact r _ x

/-! ### Pages and tiles -/

theorem pte_modPte_self (d : Dev) (v : Nat) (f : Pte → Pte) : (d.modPte v f).pte v = f (d.pte v) := Tab.get_mod_self ..
theorem pte_modPte_of_ne (d : Dev) {v w : Nat} (ne : w ≠ v) (f : Pte → Pte) : (d.modPte v f).pte w = d.pte w := Tab.get_mod_of_ne _ _ ne _

theorem tile_modTile_self (d : Dev) (b k : Nat) (f : Tile → Tile) : (d.modTile b k f).tile b k = f (d.tile b k) := by
  rw [Dev.tile, Dev.modTile, modBank_bank_self]
  exact Tab.get_mod_self ..

theorem tile_modTile_of_ne (d : Dev) {b k b' k' : Nat} (ne : b' ≠ b ∨ k' ≠ k) (f : Tile → Tile) :
    (d.modTile b k f).tile b' k' = d.tile b' k' := by
  by_cases same : b' = b
  · subst same
    rw [Dev.tile, Dev.modTile, modBank_bank_self]
    exact Tab.get_mod_of_ne _ _ (ne.resolve_left fun no => no rfl) _
  · rw [Dev.tile, Dev.modTile, modBank_bank_of_ne _ same, Dev.tile]

theorem tile_of_banks {a b : Dev} (h : a.banks = b.banks) (k j : Nat) : a.tile k j = b.tile k j :=
  congrArg (fun x : Bank => x.tiles.get ({} : Tile) j) (bank_of_banks h k)

/-- A change of a bank that leaves its tiles. -/
theorem tile_modBank (d : Dev) (b : Nat) {f : Bank → Bank} (same : ∀ x, (f x).tiles = x.tiles) (b' k : Nat) :
    (d.modBank b f).tile b' k = d.tile b' k := by
  by_cases this : b' = b
  · subst this
    rw [Dev.tile, modBank_bank_self, same, Dev.tile]
  · rw [Dev.tile, modBank_bank_of_ne _ this, Dev.tile]

/-- What a page is beside the banks that hold it. -/
def Pte.page (p : Pte) : Pte := { p with res := 0, pin := 0 }

/-- A change of the pattern store that the commands in flight do not see and that leaves the contents of the pages. -/
structure PageStep (d e : Dev) : Prop where
  frame : SameBut [.pat, .banks] d e
  quiet : Quiet d e
  pages : e.pat.pages = d.pat.pages
  ptes : ∀ v, (e.pte v).page = (d.pte v).page

theorem PageStep.refl (d : Dev) : PageStep d d := ⟨.refl _ d, .refl d, rfl, fun _ => rfl⟩
theorem PageStep.trans {c d e : Dev} (x : PageStep c d) (y : PageStep d e) : PageStep c e :=
  ⟨x.frame.trans y.frame, x.quiet.trans y.quiet, y.pages.trans x.pages, fun v => (y.ptes v).trans (x.ptes v)⟩
theorem PageStep.foldl {α : Type} {f : Dev → α → Dev} (h : ∀ d x, PageStep d (f d x)) (l : List α) (d : Dev) : PageStep d (l.foldl f d) :=
  List.foldlRecOn (motive := fun e => PageStep d e) l f (.refl d) fun _ x k _ => x.trans (h _ k)

theorem setPat_step (d : Dev) {x : Pat} (pages : x.pages = d.pat.pages) (ptes : x.ptes = d.pat.ptes) : PageStep d { d with pat := x } :=
  ⟨(setPat_keeps d x).mono (by simp), .of_ctl rfl, pages, fun v => by
    show ((x.ptes.get ({} : Pte) v)).page = _
    rw [ptes]
    rfl⟩

theorem modBank_step (d : Dev) (b : Nat) (f : Bank → Bank) : PageStep d (d.modBank b f) :=
  ⟨(modBank_keeps d b f).mono (by simp), .of_ctl rfl, rfl, fun _ => rfl⟩
theorem modTile_step (d : Dev) (b k : Nat) (f : Tile → Tile) : PageStep d (d.modTile b k f) := modBank_step ..

theorem modPte_step (d : Dev) (v : Nat) {f : Pte → Pte} (same : ∀ p, (f p).page = p.page) : PageStep d (d.modPte v f) :=
  ⟨(setPat_keeps d _).mono (by simp), .of_ctl rfl, rfl, fun w => by
    by_cases this : w = v
    · subst this
      rw [pte_modPte_self, same]
    · rw [pte_modPte_of_ne _ this]⟩

/-! ### Freeing and rewriting tiles (R225, R229) -/

theorem loseData_step (d : Dev) (b k : Nat) : PageStep d (d.loseData b k) := by
  unfold Dev.loseData
  dsimp only
  refine PageStep.trans ?_ (setPat_step _ rfl rfl)
  split
  exacts [modBank_step .., .refl d]

theorem setRes_step (d : Dev) (b v : Nat) (on : Bool) : PageStep d (d.setRes b v on) := modPte_step d v fun _ => rfl
theorem tlbDrop_step (d : Dev) (b v : Nat) : PageStep d (d.tlbDrop b v) := modBank_step ..

/-- A tile that holds nothing any more. -/
def Tile.emptied (t : Tile) : Tile := { t with
  valid := false, filling := false, checked := false, own := 0, pin := false, data := .empty, vpn := 0, gen := 0, crc := 0, entered := 0 }

/-- A device whose tile has lost its data. -/
def Dev.tileEmptied (d : Dev) (b k : Nat) : Dev := (if (d.tile b k).valid then d.loseData b k else d).modTile b k Tile.emptied

/-- The page of a tile is no longer in its bank. -/
def Dev.unlisted (d : Dev) (b v : Nat) : Dev :=
  ((d.setRes b v false).tlbDrop b v).modPte v fun p => { p with pin := p.pin &&& ~~~ (1#16 <<< b) }

theorem freeTile_eq (d : Dev) (b k : Nat) : d.freeTile b k =
    if (d.tile b k).valid then (d.tileEmptied b k).unlisted b (d.tile b k).vpn else d.tileEmptied b k := rfl

theorem tileEmptied_step (d : Dev) (b k : Nat) : PageStep d (d.tileEmptied b k) := by
  unfold Dev.tileEmptied
  split
  exacts [(loseData_step d b k).trans (modTile_step ..), modTile_step ..]

theorem unlisted_step (d : Dev) (b v : Nat) : PageStep d (d.unlisted b v) :=
  (setRes_step d b v false).trans ((tlbDrop_step _ b v).trans (modPte_step _ v fun _ => rfl))

theorem freeTile_step (d : Dev) (b k : Nat) : PageStep d (d.freeTile b k) := by
  rw [freeTile_eq]
  split
  exacts [(tileEmptied_step d b k).trans (unlisted_step ..), tileEmptied_step d b k]

theorem rewriteTile_step (d : Dev) (b k : Nat) (gen : BitVec 12) (crc : BitVec 32) (data : Tab (BitVec 64)) :
    PageStep d (d.rewriteTile b k gen crc data) := by
  unfold Dev.rewriteTile
  exact (loseData_step d b k).trans (modTile_step ..)

/-- What a write or remap does to the tile of a page in one bank (R229). -/
def Dev.retileAt (d : Dev) (v : Nat) (keep : Nat → Bool) (gen : BitVec 12) (crc : BitVec 32) (data : Tab (BitVec 64)) (b : Nat) : Dev :=
  match d.tileOf b v with
  | none => d
  | some k => if keep b then d.rewriteTile b k gen crc data else d.freeTile b k

theorem retile_eq (d : Dev) (v : Nat) (keep : Nat → Bool) (gen : BitVec 12) (crc : BitVec 32) (data : Tab (BitVec 64)) :
    d.retile v keep gen crc data = (List.range 16).foldl (fun d b => d.retileAt v keep gen crc data b) d := rfl

theorem retile_step (d : Dev) (v : Nat) (keep : Nat → Bool) (gen : BitVec 12) (crc : BitVec 32) (data : Tab (BitVec 64)) :
    PageStep d (d.retile v keep gen crc data) := by
  rw [retile_eq]
  refine PageStep.foldl (fun d b => ?_) _ d
  unfold Dev.retileAt
  cases d.tileOf b v with
  | none => exact .refl d
  | some k =>
    dsimp only
    split
    exacts [rewriteTile_step .., freeTile_step d b k]

theorem tlbDrop_tile (d : Dev) (b v b' k : Nat) : (d.tlbDrop b v).tile b' k = d.tile b' k :=
  tile_modBank d b (f := fun x => { x with tlb := x.tlb.filter fun e => e.1 != v }) (fun _ => rfl) b' k

theorem unlisted_tile (d : Dev) (b v b' k : Nat) : (d.unlisted b v).tile b' k = d.tile b' k := tlbDrop_tile (d.setRes b v false) b v b' k

/-- A freed tile holds no page. -/
theorem freeTile_invalid (d : Dev) (b k : Nat) : ((d.freeTile b k).tile b k).valid = false := by
  have empty : (d.tileEmptied b k).tile b k = ((if (d.tile b k).valid then d.loseData b k else d).tile b k).emptied := tile_modTile_self ..
  rw [freeTile_eq]
  split
  · rw [unlisted_tile, empty]
    rfl
  · rw [empty]
    rfl

/-! ### Asking for pages (R213, R219) -/

/-- A change that asks for pages and tile checks: the page table and the tiles stay. -/
structure Asks (d e : Dev) : Prop extends PageStep d e where
  table : e.pat.ptes = d.pat.ptes
  tiles : ∀ b k, e.tile b k = d.tile b k

theorem Asks.refl (d : Dev) : Asks d d := ⟨.refl d, rfl, fun _ _ => rfl⟩
theorem Asks.trans {c d e : Dev} (x : Asks c d) (y : Asks d e) : Asks c e :=
  ⟨x.toPageStep.trans y.toPageStep, y.table.trans x.table, fun b k => (y.tiles b k).trans (x.tiles b k)⟩
theorem Asks.foldl {α : Type} {f : Dev → α → Dev} (h : ∀ d x, Asks d (f d x)) (l : List α) (d : Dev) : Asks d (l.foldl f d) :=
  List.foldlRecOn (motive := fun e => Asks d e) l f (.refl d) fun _ x k _ => x.trans (h _ k)
theorem Asks.pte {d e : Dev} (x : Asks d e) (v : Nat) : e.pte v = d.pte v := congrArg (·.get {} v) x.table

theorem setPat_asks (d : Dev) {x : Pat} (pages : x.pages = d.pat.pages) (ptes : x.ptes = d.pat.ptes) : Asks d { d with pat := x } :=
  ⟨setPat_step d pages ptes, ptes, fun _ _ => rfl⟩

theorem pushLog_asks (d : Dev) (i : LogItem) : Asks d (d.pushLog i) := ⟨⟨pushLog_keeps _ d i, pushLog_quiet d i, rfl, fun _ => rfl⟩, rfl, fun _ _ => rfl⟩

theorem pagingLog_asks (d : Dev) (a b c e f : Nat) : Asks d (d.pagingLog a b c e f) := pushLog_asks d _

/-- A demand fault is counted (R237). -/
def Dev.demanded (d : Dev) (k : FaultKind) : Dev :=
  if k = .demand then ({ d with pat := { d.pat with demands := satAdd (2 ^ 32 - 1) d.pat.demands 1 } } : Dev).pagingLog 1 0 0 0 0 else d

theorem demanded_asks (d : Dev) (k : FaultKind) : Asks d (d.demanded k) := by
  unfold Dev.demanded
  split
  · refine Asks.trans ?_ (pagingLog_asks _ _ _ _ _ _)
    exact setPat_asks d rfl rfl
  · exact .refl d

/-- A fault joins the fill, a fault of the queue, or the queue. -/
def Dev.faultJoins (d : Dev) (b vpn : Nat) (kind : FaultKind) : Dev :=
  let same := fun (f : PFault) => f.vpn == vpn && f.bank.toNat == b
  let f : PFault := { vpn := vpn, bank := BitVec.ofNat 4 b, kind := kind, raised := d.mono }
  if d.pat.fill.any fun x => x.vpn == vpn && x.tiles.any (fun t => t.1.toNat == b) then
    { d with pat := { d.pat with fill := d.pat.fill.map fun x =>
      if kind.rank < x.kind.rank then { x with kind := kind, raised := d.mono } else x } }
  else if d.pat.queue.any same then
    { d with pat := { d.pat with
      queue := d.pat.queue.map fun q => if same q ∧ kind.rank < q.kind.rank then { q with kind := kind, raised := d.mono } else q } }
  else if d.pat.queue.length < 256 then { d with pat := { d.pat with queue := d.pat.queue ++ [f] } }
  else match kind with
    | .demand => if d.pat.outside.any same then d else { d with pat := { d.pat with outside := d.pat.outside ++ [f] } }
    | .prefetch => d
    | .lookahead => { d with pat := { d.pat with drops := satAdd (2 ^ 32 - 1) d.pat.drops 1 } }.pagingLog 0 1 0 0 0

theorem faultJoins_asks (d : Dev) (b v : Nat) (k : FaultKind) : Asks d (d.faultJoins b v k) := by
  unfold Dev.faultJoins
  dsimp only
  split
  · exact setPat_asks d rfl rfl
  split
  · exact setPat_asks d rfl rfl
  split
  · exact setPat_asks d rfl rfl
  cases k with
  | demand =>
    dsimp only
    split
    exacts [.refl d, setPat_asks d rfl rfl]
  | prefetch => exact .refl d
  | lookahead =>
    refine Asks.trans ?_ (pagingLog_asks _ _ _ _ _ _)
    exact setPat_asks d rfl rfl

theorem raiseFault_eq (d : Dev) (b v : Nat) (k : FaultKind) : d.raiseFault b v k = (d.demanded k).faultJoins b v k := by
  cases k <;> rfl

theorem raiseFault_asks (d : Dev) (b v : Nat) (k : FaultKind) : Asks d (d.raiseFault b v k) := by
  rw [raiseFault_eq]
  exact (demanded_asks d k).trans (faultJoins_asks _ b v k)

theorem feedPrefetch_asks (d : Dev) : Asks d d.feedPrefetch := by
  refine Asks.foldl (fun d x => ?_) _ d
  split
  exacts [.refl d, raiseFault_asks ..]

theorem beginCheck_asks (d : Dev) (b k : Nat) : Asks d (d.beginCheck b k) := by
  unfold Dev.beginCheck
  split
  · exact .refl d
  · exact ⟨modBank_step .., rfl, tile_modBank d b fun _ => rfl⟩

theorem feedCheck_asks (d : Dev) (b : Nat) : Asks d (d.feedCheck b) := by
  unfold Dev.feedCheck
  dsimp only
  split
  exacts [beginCheck_asks .., .refl d]

theorem refetch_asks (d : Dev) : Asks d d.refetch := (feedPrefetch_asks d).trans (.foldl (fun d b => feedCheck_asks d b) _ _)

/-! ### The tables after a command -/

theorem pte_of_pat {a b : Dev} (h : a.pat = b.pat) (v : Nat) : a.pte v = b.pte v := congrArg (fun p : Pat => p.ptes.get ({} : Pte) v) h

theorem commit_pte (d : Dev) (v : Nat) : d.commit.pte v = d.pte v := by rw [Dev.pte, commit_pat, Dev.pte]
theorem commit_tile (d : Dev) (b k : Nat) : d.commit.tile b k = d.tile b k := tile_of_banks (commit_banks d) b k

section
variable {s : State} {h : Hdr} (i : Idle s h)
include i

/-- A command of the pattern store that is complete at once. -/
theorem page_ends (op : BitVec 16) (c : opClass op ≠ 0) {e : Dev} (frame : SameBut [.pat, .banks] (s.dev.takenUp h op) e)
    (quiet : Quiet (s.dev.takenUp h op) e) :
    Keeps [.pat, .banks] s { s with dev := (e.ok h.tag).commit } ∧ Answers s { s with dev := (e.ok h.tag).commit } h op stOk [] ∧
      (e.ok h.tag).commit.pat = e.pat ∧ (e.ok h.tag).commit.banks = e.banks :=
  ⟨keeps_of_takenUp c (frame.trans (ok_keeps _ _ _)), quiet.answers_ok i op, (commit_pat _).trans (Dev.ok_pat _ _),
    (commit_banks _).trans (Dev.ok_banks _ _)⟩

end

end Sys2Proof.Machine
end


section
/-!
PROOFS. What the host does about residency (R219, R225, R236): prefetch, pin, eviction, the Drip feed and the reports.
-/
namespace Sys2Proof.Machine

section
variable {s : State} {h : Hdr} {v : BitVec 36} {b : BitVec 4} (i : Idle s h)

/-! ### One page -/

theorem pageList_one (v : BitVec 36) : pageList v 1 = [v.toNat] := rfl

theorem pagesGood_one (v : BitVec 36) : pagesGood v 1 = true := by
  have := v.isLt
  simp only [pagesGood, decide_eq_true_eq]
  omega

theorem takenUp_resident {op : BitVec 16} (c : opClass op ≠ 0) (k w : Nat) : (s.dev.takenUp h op).resident k w = s.dev.resident k w :=
  takenUp_reads (Dev.resident · k w) (fun _ _ _ => rfl) c s.dev h

theorem takenUp_pat {op : BitVec 16} (c : opClass op ≠ 0) : (s.dev.takenUp h op).pat = s.dev.pat :=
  takenUp_reads Dev.pat (fun _ _ _ => rfl) c s.dev h

theorem takenUp_pte {op : BitVec 16} (c : opClass op ≠ 0) (w : Nat) : (s.dev.takenUp h op).pte w = s.dev.pte w := pte_of_pat (takenUp_pat c) w

theorem takenUp_tileOf {op : BitVec 16} (c : opClass op ≠ 0) (k w : Nat) : (s.dev.takenUp h op).tileOf k w = s.dev.tileOf k w :=
  takenUp_reads (Dev.tileOf · k w) (fun _ _ _ => rfl) c s.dev h

include i

/-! ### PAT.PREFETCH -/

/-- A command that asks for pages. -/
def Dev.prefetching (d : Dev) (p : Prefetch) : Dev := { d with pat := { d.pat with prefetches := d.pat.prefetches ++ [p] } }

omit i in
theorem feedPrefetch_one {d : Dev} {p : Prefetch} (one : d.pat.prefetches = [p]) (todo : p.todo = [(b, v.toNat)])
    (absent : d.resident b.toNat v.toNat = false) (queue : d.pat.queue = []) (fill : d.pat.fill = none) :
    d.feedPrefetch.pat.queue = [{ vpn := v.toNat, bank := BitVec.ofNat 4 b.toNat, kind := .prefetch, raised := d.mono }] := by
  have raises : d.feedPrefetch = d.faultJoins b.toNat v.toNat .prefetch := by
    unfold Dev.feedPrefetch
    rw [one, List.flatMap_cons, List.flatMap_nil, List.append_nil, todo, List.foldl_cons, List.foldl_nil,
      if_neg (by rw [absent, queue]; simp), raiseFault_eq]
    rfl
  rw [raises, Dev.faultJoins]
  dsimp only
  rw [fill, queue]
  rfl

omit i in
theorem feedCheck_pat (d : Dev) (k : Nat) : (d.feedCheck k).pat = d.pat := by
  unfold Dev.feedCheck Dev.beginCheck
  dsimp only
  split
  · split <;> rfl
  · rfl

omit i in
/-- What a prefetch of one page has still to fetch. -/
theorem prefetch_todo {d : Dev} (r : Bool) (present : d.resident b.toNat v.toNat = r) :
    ([v.toNat].flatMap fun w => [b.toNat].map fun k => (BitVec.ofNat 4 k, w)).filter (fun x =>
      !(d.resident x.1.toNat x.2 && (!false || (d.tileOf x.1.toNat x.2).any fun k => (d.tile x.1.toNat k).checked))) =
        if r then [] else [(b, v.toNat)] := by
  subst present
  cases present : d.resident b.toNat v.toNat <;> simp [present]

theorem patPrefetch_faults (absent : s.dev.resident b.toNat v.toNat = false) (queue : s.dev.pat.queue = [])
    (none_ : s.dev.pat.prefetches = []) (fill : s.dev.pat.fill = none) :
    ∃ t f, exec (.patPrefetch h v 1 (1#16 <<< b.toNat) false) s = .next t ∧ Keeps [.pat, .banks] s t ∧ Waits s t h 0x0704 ∧
      t.dev.pat.queue = [f] ∧ f.vpn = v.toNat ∧ f.bank = b ∧ f.kind = .prefetch := by
  have away := (takenUp_resident (s := s) (h := h) (op := 0x0704) (by decide) b.toNat v.toNat).trans absent
  have pat : ((s.dev.takenUp h 0x0704).accept h.tag).pat = s.dev.pat := (Dev.accept_pat _ _).trans (takenUp_pat (by decide))
  have out : ((s.dev.takenUp h 0x0704).accept h.tag).resident b.toNat v.toNat = false := away
  have frame := accept_keeps [.pat, .banks] (s.dev.takenUp h 0x0704) h.tag
  have runs : exec (.patPrefetch h v 1 (1#16 <<< b.toNat) false) s = .next { s with dev :=
      ((((s.dev.takenUp h 0x0704).accept h.tag).prefetching { tag := h.tag, todo := [(b, v.toNat)], check := false }).feedPrefetch.feedCheck
        b.toNat).commit } := by
    refine hostCmd_runs i 0x0704 ?_
    dsimp only
    rw [pagesGood_one, pageList_one, members_singleton b.isLt, if_neg (by simp), prefetch_todo false away]
    exact if_neg (by simp)
  have waits := fun e q => Quiet.waits i 0x0704 (e := e) q
  generalize (s.dev.takenUp h 0x0704).accept h.tag = a at *
  generalize one : ({ tag := h.tag, todo := [(b, v.toNat)], check := false } : Prefetch) = p at runs
  have opened : PageStep a (a.prefetching p) := setPat_step a rfl rfl
  have asks : Asks (a.prefetching p) ((a.prefetching p).feedPrefetch.feedCheck b.toNat) :=
    (feedPrefetch_asks _).trans (feedCheck_asks _ _)
  have queue_ := feedPrefetch_one (d := a.prefetching p) (b := b) (v := v) (p := p) (by
      show a.pat.prefetches ++ [p] = [p]
      rw [pat, none_]
      rfl) (by rw [← one]) out (by
      show a.pat.queue = []
      rw [pat, queue]) (by
      show a.pat.fill = none
      rw [pat, fill])
  rw [← feedCheck_pat _ b.toNat] at queue_
  generalize (a.prefetching p).feedPrefetch.feedCheck b.toNat = e at *
  refine ⟨_, { vpn := v.toNat, bank := BitVec.ofNat 4 b.toNat, kind := .prefetch, raised := (a.prefetching p).mono }, runs,
    keeps_of_takenUp (op := 0x0704) (by decide) (frame.trans (opened.frame.trans asks.frame)),
    waits e (opened.quiet.trans asks.quiet), ?_, rfl,
    (BitVec.ofNat_toNat _ _).trans (BitVec.setWidth_eq _), rfl⟩
  dsimp only
  rw [commit_pat, queue_]

theorem patPrefetch_completes (present : s.dev.resident b.toNat v.toNat = true) :
    ∃ t, exec (.patPrefetch h v 1 (1#16 <<< b.toNat) false) s = .next t ∧ Keeps [] s t ∧ Answers s t h 0x0704 stOk [] := by
  have there := (takenUp_resident (s := s) (h := h) (op := 0x0704) (by decide) b.toNat v.toNat).trans present
  obtain ⟨frame, answer⟩ := ok_ends i 0x0704 (by decide) (d := s.dev.takenUp h 0x0704) rfl (.refl [] _)
  refine ⟨_, hostCmd_runs i 0x0704 ?_, frame, answer⟩
  dsimp only
  rw [pagesGood_one, pageList_one, members_singleton b.isLt, if_neg (by simp), prefetch_todo true there]
  exact if_pos rfl

/-! ### PAT.PIN -/

/-- A page's pin in one bank. -/
def Pte.pinned (b : Nat) (pin : Bool) (p : Pte) : Pte :=
  { p with pin := if pin then p.pin ||| (1#16 <<< b) else p.pin &&& ~~~ (1#16 <<< b) }

omit i in
theorem pinned_pin (pin : Bool) (p : Pte) : (p.pinned b.toNat pin).pin.getLsbD b.toNat = pin := by
  have := b.isLt
  cases pin <;> simp [Pte.pinned, this]

/-- A page that is pinned in one bank or unpinned. -/
def Dev.pinAt (d : Dev) (b v : Nat) (pin : Bool) : Dev :=
  (match d.tileOf b v with
    | some k => d.modTile b k fun t => { t with pin := pin }
    | none => d).modPte v (Pte.pinned b pin)

omit i in
theorem pinAt_keeps (d : Dev) (k w : Nat) (pin : Bool) : SameBut [.pat, .banks] d (d.pinAt k w pin) ∧ Quiet d (d.pinAt k w pin) ∧
    (d.pinAt k w pin).pte w = (d.pte w).pinned k pin := by
  unfold Dev.pinAt
  cases d.tileOf k w with
  | none => exact ⟨(setPat_keeps d _).mono (by simp), .of_ctl rfl, pte_modPte_self d w _⟩
  | some j =>
    have step := modTile_step d k j fun t => { t with pin := pin }
    exact ⟨step.frame.trans ((setPat_keeps _ _).mono (by simp)), step.quiet.trans (.of_ctl rfl), pte_modPte_self _ w _⟩

omit i in
/-- A pin takes one working tile at most from those that are unpinned. -/
theorem unpinned_pinAt (d : Dev) (k w : Nat) (pin : Bool) : d.unpinned k ≤ (d.pinAt k w pin).unpinned k + 1 := by
  have count : ∀ e : Dev, e.unpinned k = ((Finset.range 1024).filter fun j => (!(e.tile k j).out && !(e.tile k j).pin) = true).card := fun e => by
    rw [Dev.unpinned, ← List.toFinset_range, ← List.toFinset_filter, List.toFinset_card_of_nodup (List.nodup_range.filter _)]
  obtain ⟨j, other⟩ : ∃ j, ∀ l, l ≠ j → (d.pinAt k w pin).tile k l = d.tile k l := by
    unfold Dev.pinAt
    cases d.tileOf k w with
    | none => exact ⟨0, fun l _ => rfl⟩
    | some j => exact ⟨j, fun l ne => tile_modTile_of_ne d (.inr ne) _⟩
  rw [count, count]
  refine (Finset.card_le_card (t := insert j _) fun l mem => ?_).trans (Finset.card_insert_le j _)
  obtain ⟨range, free⟩ := Finset.mem_filter.1 mem
  by_cases this : l = j
  · exact Finset.mem_insert.2 (.inl this)
  · exact Finset.mem_insert.2 (.inr (Finset.mem_filter.2 ⟨range, by rw [other l this]; exact free⟩))

theorem patPin_pins (pin : Bool) (present : s.dev.resident b.toNat v.toNat = true) (room : 65 ≤ s.dev.unpinned b.toNat) :
    ∃ t, exec (.patPin h v 1 (1#16 <<< b.toNat) pin) s = .next t ∧ Keeps [.pat, .banks] s t ∧ Answers s t h 0x0705 stOk [] ∧
      (t.dev.pte v.toNat).pin.getLsbD b.toNat = pin ∧ (t.dev.pte v.toNat).valid = (s.dev.pte v.toNat).valid := by
  have there := (takenUp_resident (s := s) (h := h) (op := 0x0705) (by decide) b.toNat v.toNat).trans present
  have before := takenUp_pte (s := s) (h := h) (op := 0x0705) (by decide) v.toNat
  have free : s.dev.unpinned b.toNat = (s.dev.takenUp h 0x0705).unpinned b.toNat :=
    (takenUp_reads (Dev.unpinned · b.toNat) (fun _ _ _ => rfl) (by decide) s.dev h).symm
  have left := unpinned_pinAt (s.dev.takenUp h 0x0705) b.toNat v.toNat pin
  obtain ⟨frame, quiet, pte⟩ := pinAt_keeps (s.dev.takenUp h 0x0705) b.toNat v.toNat pin
  have runs : exec (.patPin h v 1 (1#16 <<< b.toNat) pin) s = .next { s with dev :=
      (((s.dev.takenUp h 0x0705).pinAt b.toNat v.toNat pin).ok h.tag).commit } := by
    refine hostCmd_runs i 0x0705 ?_
    dsimp only
    rw [pageList_one, members_singleton b.isLt, if_neg (by simp only [pagesGood_one, List.flatMap_cons, List.flatMap_nil, List.map_cons,
      List.map_nil, List.append_nil, List.any_cons, List.any_nil, there]; decide)]
    refine if_neg ?_
    rintro ⟨-, few⟩
    rw [List.any_cons, List.any_nil, Bool.or_false, decide_eq_true_iff] at few
    have same : ((s.dev.takenUp h 0x0705).pinAt b.toNat v.toNat pin).unpinned b.toNat < 64 := few
    omega
  obtain ⟨keeps, answer, pat, -⟩ := page_ends i 0x0705 (by decide) frame quiet
  have after := (pte_of_pat pat v.toNat).trans pte
  rw [before] at after
  generalize (((s.dev.takenUp h 0x0705).pinAt b.toNat v.toNat pin).ok h.tag).commit = e at *
  refine ⟨_, runs, keeps, answer, ?_, ?_⟩
  · dsimp only
    rw [after, pinned_pin]
  · dsimp only
    rw [after]
    rfl

/-! ### PAT.EVICT -/

omit i in
theorem pages_checked {w : BitVec 36} {d : Dev} {bad : List (Nat × Bool)} (fine : ∀ x ∈ bad, x.2 = false) (open_ : d.barred w.toNat = false) :
    worst [badArgs bad, ([w.toNat].find? d.barred).map fun v => (stLocked, v, 0)] = none := by
  refine worst_eq_none fun r mem => ?_
  rcases List.mem_cons.1 mem with rfl | mem
  · exact badArgs_eq_none fine
  · rw [List.mem_singleton.1 mem, List.find?_cons, open_]
    rfl

omit i in
theorem takenUp_barred {op : BitVec 16} (c : opClass op ≠ 0) (w : Nat) : (s.dev.takenUp h op).barred w = (s.dev.advance h.t).barred w :=
  takenUp_reads_now (Dev.barred · w) (fun _ _ => rfl) c s.dev h

theorem patEvict_frees {k : Nat} (open_ : (s.dev.advance h.t).barred v.toNat = false) (unpinned : (s.dev.pte v.toNat).pin = 0)
    (backed : (s.dev.pte v.toNat).tier ≠ 0) (tile : s.dev.tileOf b.toNat v.toNat = some k) :
    ∃ t, exec (.patEvict h v 1 (1#16 <<< b.toNat)) s = .next t ∧ Keeps [.pat, .banks] s t ∧ Answers s t h 0x0706 stOk [] ∧
      (t.dev.tile b.toNat k).valid = false ∧ (t.dev.pte v.toNat).valid = (s.dev.pte v.toNat).valid := by
  have before := takenUp_pte (s := s) (h := h) (op := 0x0706) (by decide) v.toNat
  have may := (takenUp_barred (s := s) (h := h) (op := 0x0706) (by decide) v.toNat).trans open_
  have found := (takenUp_tileOf (s := s) (h := h) (op := 0x0706) (by decide) b.toNat v.toNat).trans tile
  have runs : exec (.patEvict h v 1 (1#16 <<< b.toNat)) s = .next { s with dev :=
      ((((s.dev.takenUp h 0x0706).freeTile b.toNat k).refetch).ok h.tag).commit } := by
    refine hostCmd_runs i 0x0706 ?_
    dsimp only
    rw [pageList_one, pages_checked (w := v) (fun x mem => ?_) may]
    · dsimp only
      rw [List.foldl_cons, List.foldl_nil, members_singleton b.isLt, List.foldl_cons, List.foldl_nil, found]
    · rw [List.mem_singleton.1 mem]
      show (!pagesGood v 1 || [v.toNat].any fun w => _) = false
      rw [pagesGood_one, List.any_cons, List.any_nil, before, unpinned]
      simpa using fun _ => backed
  have freed := freeTile_step (s.dev.takenUp h 0x0706) b.toNat k
  have empty := freeTile_invalid (s.dev.takenUp h 0x0706) b.toNat k
  generalize (s.dev.takenUp h 0x0706).freeTile b.toNat k = e at *
  have asks := refetch_asks e
  generalize e.refetch = x at *
  obtain ⟨keeps, answer, pat, banks⟩ := page_ends i 0x0706 (by decide) (freed.frame.trans asks.frame) (freed.quiet.trans asks.quiet)
  generalize (x.ok h.tag).commit = y at *
  refine ⟨_, runs, keeps, answer, ?_, ?_⟩
  · dsimp only
    rw [tile_of_banks banks, asks.tiles, empty]
  · dsimp only
    rw [pte_of_pat pat, asks.pte]
    refine (congrArg Pte.valid (freed.ptes v.toNat)).trans ?_
    rw [before]
    rfl

/-! ### PAT.DRIP and the reports -/

/-- A thread with a depth of its Drip feed. -/
def Thread.dripping (depth : Nat) (x : Thread) : Thread := { x with depth := depth }

/-- Threads with a depth of their Drip feed. -/
def Dev.drips (d : Dev) (l : List Nat) (depth : Nat) : Dev := l.foldl (fun d t => d.modThread t (Thread.dripping depth)) d

omit i in
theorem drips_thread (l : List Nat) (once : l.Nodup) (depth : Nat) (d : Dev) (k : Nat) :
    (d.drips l depth).thread k = if k ∈ l then (d.thread k).dripping depth else d.thread k :=
  get_foldl Dev.thread (fun d t => d.modThread t (Thread.dripping depth)) (Thread.dripping depth) (fun d j => modThread_thread_self d j _)
    (fun _ _ _ ne => Tab.get_mod_of_ne _ _ ne _) k l once d

theorem patDrip_sets (m : BitVec 64) {depth : Nat} (few : depth ≤ 64) :
    ∃ t, exec (.patDrip h m depth) s = .next t ∧ Keeps [.seq] s t ∧ Answers s t h 0x0707 stOk [] ∧
      ∀ k, k < 64 → t.dev.thread k = if m.getLsbD k then { s.dev.thread k with depth := depth } else s.dev.thread k := by
  have frame : SameBut [.seq] (s.dev.takenUp h 0x0707) ((s.dev.takenUp h 0x0707).drips (members m) depth) :=
    SameBut.foldl (fun d t => modThread_keeps d t _) (members m) _
  have ctl : ((s.dev.takenUp h 0x0707).drips (members m) depth).ctl = (s.dev.takenUp h 0x0707).ctl :=
    foldl_leaves (f := fun (d : Dev) t => d.modThread t (Thread.dripping depth)) Dev.ctl (fun _ _ => rfl) (members m) _
  obtain ⟨keeps, answer⟩ := ok_ends i 0x0707 (by decide) ctl frame
  have thread : ∀ k, (((s.dev.takenUp h 0x0707).drips (members m) depth).ok h.tag).commit.thread k =
      ((s.dev.takenUp h 0x0707).drips (members m) depth).thread k := fun k => thread_of_seq ((commit_seq _).trans (Dev.ok_seq _ _)) k
  have set := drips_thread (members m) (nodup_members m) depth (s.dev.takenUp h 0x0707)
  refine ⟨_, hostCmd_runs i 0x0707 (d := ((s.dev.takenUp h 0x0707).drips (members m) depth).ok h.tag) (if_neg (by omega)), keeps, answer,
    fun k hk => ?_⟩
  generalize (s.dev.takenUp h 0x0707).drips (members m) depth = d at *
  dsimp only
  rw [thread k, set k, takenUp_thread]
  simp only [mem_members, hk, true_and]
  rfl

theorem patQuery_answers : ∃ t r, exec (.patQuery h v) s = .next t ∧ Keeps [] s t ∧ Answers s t h 0x0708 stOk r ∧
    r.take 3 = [rb (s.dev.pte v.toNat).valid, ((s.dev.pte v.toNat).tier.toNat : Int), rb (s.dev.pte v.toNat).bad] := by
  refine ⟨_, _, hostCmd_runs i 0x0708 rfl, keeps_of_takenUp (op := 0x0708) (by decide) (okResp_keeps _ _ _ _),
    answers_okResp i 0x0708 _ _ rfl (.inl (by decide)), ?_⟩
  rw [takenUp_pte (by decide)]
  rfl

theorem patState_answers : ∃ t r, exec (.patState h b) s = .next t ∧ Keeps [] s t ∧ Answers s t h 0x0709 stOk r ∧ r.length = 7 ∧
    r.getLast? = some (s.dev.pat.queue.length : Int) := by
  refine ⟨_, _, hostCmd_runs i 0x0709 rfl, keeps_of_takenUp (op := 0x0709) (by decide) (okResp_keeps _ _ _ _),
    answers_okResp i 0x0709 _ _ rfl (.inl (by decide)), rfl, ?_⟩
  rw [takenUp_pat (by decide)]
  rfl

end

end Sys2Proof.Machine
open Sys2Proof Sys2Proof.Machine

/-- Settles O49, by what each command asks of, pins in or takes from one bank. -/
theorem patternResidency : Obligations.PatternResidency := by
  unfold Obligations.PatternResidency
  exact fun s h v b i => ⟨patPrefetch_faults i, patPrefetch_completes i, patPin_pins i, fun k => patEvict_frees i, fun m depth => patDrip_sets i m,
    patQuery_answers i, patState_answers i⟩
end


section
/-!
PROOFS. Pages of the pattern store (R216, R228, R229): map, unmap, write and read.
-/
namespace Sys2Proof.Machine

section
variable {s : State} {h : Hdr} {v : BitVec 36} (i : Idle s h)

/-! ### Pages of LPDDR5X -/

theorem setDram_pages (d : Dev) (w : Nat) (words : List (BitVec 64)) (i : Nat) : (d.setDram w words).pat.pages.get 0 i =
    if 512 * w ≤ i ∧ i < 512 * w + words.length then words.getD (i - 512 * w) 0 else d.pat.pages.get 0 i := Tab.get_fill ..

theorem setDram_pte (d : Dev) (w : Nat) (words : List (BitVec 64)) (u : Nat) : (d.setDram w words).pte u = d.pte u := rfl
theorem setDram_quiet (d : Dev) (w : Nat) (words : List (BitVec 64)) : Quiet d (d.setDram w words) := .of_ctl rfl

theorem setDram_keeps (d : Dev) (w : Nat) (words : List (BitVec 64)) : SameBut [.pat] d (d.setDram w words) := setPat_keeps d _

/-- Where no bank holds a page, a remap has no tile to free. -/
theorem retile_of_absent {d : Dev} {w : Nat} (absent : ∀ b, b < 16 → d.tileOf b w = none) (keep : Nat → Bool) (gen : BitVec 12) (crc : BitVec 32)
    (data : Tab (BitVec 64)) : d.retile w keep gen crc data = d := by
  have stays : ∀ l : List Nat, (∀ b ∈ l, b < 16) → l.foldl (fun d b => d.retileAt w keep gen crc data b) d = d := by
    intro l
    induction l with
    | nil => exact fun _ => rfl
    | cons b l ih =>
      intro small
      have same : d.retileAt w keep gen crc data b = d := by
        rw [Dev.retileAt, absent b (small b (List.mem_cons_self ..))]
      rw [List.foldl_cons, same]
      exact ih fun c mem => small c (List.mem_cons_of_mem _ mem)
  exact stays (List.range 16) fun b mem => List.mem_range.1 mem

/-! ### PAT.MAP -/

/-- A page that has just been mapped to LPDDR5X. -/
def Pte.mappedTo (gen : BitVec 12) (frame : BitVec 52) (p : Pte) : Pte :=
  { p with valid := true, tier := 1, bad := false, gen := gen, crc := pageCrc .empty, frame := frame }

/-- A device that has mapped a page to LPDDR5X. -/
def Dev.dramMapped (d : Dev) (w : Nat) : Dev :=
  (d.modPte w (Pte.mappedTo (d.pte w).gen (BitVec.ofNat 52 (d.backing w)))).setDram w (List.replicate 512 0)

theorem mapPage_maps {d : Dev} {w : Nat} (fresh : (d.pte w).valid = false) (absent : ∀ b, b < 16 → d.tileOf b w = none) :
    d.mapPage w 1 none 0 = some (d.dramMapped w) := by
  have own : (if (1 : BitVec 2) = 2 then d.freePage else (Tab.empty, d)) = (Tab.empty, d) := if_neg (by decide)
  unfold Dev.mapPage
  dsimp only
  rw [own, fresh, if_neg Bool.false_ne_true, retile_of_absent absent]
  rfl

theorem dramMapped_keeps (d : Dev) (w : Nat) : SameBut [.pat] d (d.dramMapped w) := (setPat_keeps d _).trans (setDram_keeps _ w _)

theorem dramMapped_pte (d : Dev) (w : Nat) : (d.dramMapped w).pte w =
    (d.pte w).mappedTo (d.pte w).gen (BitVec.ofNat 52 (d.backing w)) := by
  rw [Dev.dramMapped, setDram_pte, pte_modPte_self]

theorem dramMapped_pte_of_ne (d : Dev) {w u : Nat} (ne : u ≠ w) : (d.dramMapped w).pte u = d.pte u := by
  rw [Dev.dramMapped, setDram_pte, pte_modPte_of_ne d ne]

theorem dramMapped_pages (d : Dev) (w : Nat) {k : Nat} (hk : k < 512) : (d.dramMapped w).pat.pages.get 0 (512 * w + k) = 0 := by
  rw [Dev.dramMapped, setDram_pages, List.length_replicate, if_pos (by omega), Nat.add_sub_cancel_left, List.getD_replicate]
  exact hk

theorem dramMapped_quiet (d : Dev) (w : Nat) : Quiet d (d.dramMapped w) :=
  (Quiet.of_ctl (a := d) (b := d.modPte w (Pte.mappedTo (d.pte w).gen (BitVec.ofNat 52 (d.backing w)))) rfl).trans (setDram_quiet _ w _)

include i

theorem patMap_maps (open_ : (s.dev.advance h.t).barred v.toNat = false) (dram : s.dev.hasDram = true)
    (frames : (s.dev.framesUsed [v.toNat]).length < dramFrames) (room : s.dev.mapped < s.dev.maxPages)
    (fresh : (s.dev.pte v.toNat).valid = false) (absent : ∀ b, b < 16 → s.dev.tileOf b v.toNat = none) :
    ∃ t, exec (.patMap h v 1 1 [] 0) s = .next t ∧ Keeps [.pat, .banks] s t ∧ Answers s t h 0x0700 stOk [] ∧
      (t.dev.pte v.toNat).valid = true ∧ (t.dev.pte v.toNat).tier = 1 ∧ (t.dev.pte v.toNat).bad = false ∧
      (t.dev.pte v.toNat).gen = (s.dev.pte v.toNat).gen ∧ (∀ i, i < 512 → t.dev.pat.pages.get 0 (512 * v.toNat + i) = 0) ∧
      ∀ w, w ≠ v.toNat → t.dev.pte w = s.dev.pte w := by
  have before := takenUp_pte (s := s) (h := h) (op := 0x0700) (by decide) v.toNat
  have others : ∀ w, (s.dev.takenUp h 0x0700).pte w = s.dev.pte w := takenUp_pte (by decide)
  have may := (takenUp_barred (s := s) (h := h) (op := 0x0700) (by decide) v.toNat).trans open_
  have dram_ := (takenUp_reads Dev.hasDram (fun _ _ _ => rfl) (op := 0x0700) (by decide) s.dev h).trans dram
  have used : (s.dev.takenUp h 0x0700).framesUsed [v.toNat] = s.dev.framesUsed [v.toNat] :=
    takenUp_reads (Dev.framesUsed · [v.toNat]) (fun _ _ _ => rfl) (by decide) s.dev h
  have mapped : (s.dev.takenUp h 0x0700).mapped = s.dev.mapped := takenUp_reads Dev.mapped (fun _ _ _ => rfl) (by decide) s.dev h
  have most : (s.dev.takenUp h 0x0700).maxPages = s.dev.maxPages := takenUp_reads Dev.maxPages (fun _ _ _ => rfl) (by decide) s.dev h
  have maps := mapPage_maps (d := s.dev.takenUp h 0x0700) (w := v.toNat) (by rw [before, fresh]) fun b hb =>
    (takenUp_tileOf (by decide) b v.toNat).trans (absent b hb)
  have runs : exec (.patMap h v 1 1 [] 0) s = .next { s with dev := ((((s.dev.takenUp h 0x0700).dramMapped v.toNat).refetch).ok h.tag).commit } := by
    refine hostCmd_runs i 0x0700 ?_
    generalize s.dev.takenUp h 0x0700 = d at *
    have one : ([v.toNat].filter fun w => !(d.pte w).valid).length = 1 := by
      rw [List.filter_cons, before, fresh]
      rfl
    dsimp only
    rw [pageList_one, one, worst_eq_none fun r mem => ?_]
    · dsimp only
      rw [List.zipIdx_cons, List.zipIdx_nil, List.foldl_cons, List.foldl_nil, Option.bind_some]
      rw [if_neg (by decide)]
      rw [maps]
    · have full : decide (d.mapped + 1 > d.maxPages) = false := decide_eq_false (by omega)
      have framed : decide ((d.framesUsed [v.toNat]).length + 1 > dramFrames) = false := decide_eq_false (by rw [used]; omega)
      rcases List.mem_cons.1 mem with rfl | mem
      · rw [dram_]
        rfl
      rcases List.mem_cons.1 mem with rfl | mem
      · refine badArgs_eq_none fun x mem => ?_
        rcases List.mem_cons.1 mem with rfl | mem
        · dsimp only
          rw [pagesGood_one, full, framed]
          rfl
        rcases List.mem_cons.1 mem with rfl | mem
        · rfl
        · rw [List.mem_singleton.1 mem]
          rfl
      · rw [List.mem_singleton.1 mem, List.find?_cons, may]
        rfl
  have frame := dramMapped_keeps (s.dev.takenUp h 0x0700) v.toNat
  have quiet := dramMapped_quiet (s.dev.takenUp h 0x0700) v.toNat
  have pte := dramMapped_pte (s.dev.takenUp h 0x0700) v.toNat
  have rest := fun w (ne : w ≠ v.toNat) => dramMapped_pte_of_ne (s.dev.takenUp h 0x0700) ne
  have zero := fun k (hk : k < 512) => dramMapped_pages (s.dev.takenUp h 0x0700) v.toNat hk
  generalize (s.dev.takenUp h 0x0700).dramMapped v.toNat = e at *
  have asks := refetch_asks e
  generalize e.refetch = x at *
  obtain ⟨keeps, answer, pat, -⟩ := page_ends i 0x0700 (by decide) ((frame.mono (by simp)).trans asks.frame) (quiet.trans asks.quiet)
  generalize (x.ok h.tag).commit = y at *
  have after := fun w => (pte_of_pat pat w).trans (asks.pte w)
  have mine := (after v.toNat).trans pte
  refine ⟨_, runs, keeps, answer, ?_, ?_, ?_, ?_, fun k hk => ?_, fun w ne => ?_⟩
  · exact congrArg Pte.valid mine
  · exact congrArg Pte.tier mine
  · exact congrArg Pte.bad mine
  · refine (congrArg Pte.gen mine).trans ?_
    show ((s.dev.takenUp h 0x0700).pte v.toNat).gen = _
    rw [before]
  · dsimp only
    rw [pat, asks.pages, zero k hk]
  · exact ((after w).trans (rest w ne)).trans (others w)

/-- A command of the pattern store that is complete at once with a response. -/
theorem page_responds (op : BitVec 16) (c : opClass op ≠ 0) (n : op ≠ 0x0100) {e : Dev} (frame : SameBut [.pat, .banks] (s.dev.takenUp h op) e)
    (quiet : Quiet (s.dev.takenUp h op) e) (r : List Int) :
    Keeps [.pat, .banks] s { s with dev := (e.okResp h.tag r).commit } ∧ Answers s { s with dev := (e.okResp h.tag r).commit } h op stOk r ∧
      (e.okResp h.tag r).commit.pat = e.pat :=
  ⟨keeps_of_takenUp c (frame.trans (okResp_keeps _ _ _ _)), quiet.answers_okResp i op r (.inl n), (commit_pat _).trans (Dev.okResp_pat _ _ _)⟩

/-! ### PAT.UNMAP -/

theorem patUnmap_unmaps (open_ : (s.dev.advance h.t).barred v.toNat = false) :
    ∃ t, exec (.patUnmap h v 1) s = .next t ∧ Keeps [.pat, .banks] s t ∧ Answers s t h 0x0701 stOk [] ∧
      (t.dev.pte v.toNat).valid = false ∧ (t.dev.pte v.toNat).gen = (s.dev.pte v.toNat).gen := by
  have before := takenUp_pte (s := s) (h := h) (op := 0x0701) (by decide) v.toNat
  have may := (takenUp_barred (s := s) (h := h) (op := 0x0701) (by decide) v.toNat).trans open_
  have runs : exec (.patUnmap h v 1) s = .next { s with dev := (((((s.dev.takenUp h 0x0701).retile v.toNat (fun _ => false) 0 0 .empty).modPte
      v.toNat fun p => { gen := p.gen }).refetch).ok h.tag).commit } := by
    refine hostCmd_runs i 0x0701 ?_
    dsimp only
    rw [pageList_one, pages_checked (w := v) (fun x mem => ?_) may]
    · rfl
    · rw [List.mem_singleton.1 mem, pagesGood_one]
      rfl
  have freed := retile_step (s.dev.takenUp h 0x0701) v.toNat (fun _ => false) 0 0 .empty
  generalize (s.dev.takenUp h 0x0701).retile v.toNat (fun _ => false) 0 0 .empty = e at *
  have frame : SameBut [.pat, .banks] e (e.modPte v.toNat fun p => { gen := p.gen }) := (setPat_keeps e _).mono (by simp)
  have quiet : Quiet e (e.modPte v.toNat fun p => { gen := p.gen }) := .of_ctl rfl
  have pte := pte_modPte_self e v.toNat fun p => { gen := p.gen }
  generalize (e.modPte v.toNat fun p => { gen := p.gen }) = g at *
  have asks := refetch_asks g
  generalize g.refetch = x at *
  obtain ⟨keeps, answer, pat, -⟩ := page_ends i 0x0701 (by decide) (freed.frame.trans (frame.trans asks.frame))
    (freed.quiet.trans (quiet.trans asks.quiet))
  generalize (x.ok h.tag).commit = y at *
  have after := (pte_of_pat pat v.toNat).trans ((asks.pte v.toNat).trans pte)
  refine ⟨_, runs, keeps, answer, ?_, ?_⟩
  · dsimp only
    rw [after]
  · dsimp only
    rw [after]
    refine (congrArg Pte.gen (freed.ptes v.toNat)).trans ?_
    rw [before]
    rfl

theorem patUnmap_locked (locked : (s.dev.advance h.t).barred v.toNat = true) :
    ∃ t, exec (.patUnmap h v 1) s = .next t ∧ Keeps [] s t ∧ Answers s t h 0x0701 stLocked [] := by
  have may := (takenUp_barred (s := s) (h := h) (op := 0x0701) (by decide) v.toNat).trans locked
  refine ⟨_, hostCmd_runs i 0x0701 ?_, refused_ends i 0x0701 (by decide) stLocked v.toNat 0 0⟩
  dsimp only
  rw [pageList_one, badArgs_eq_none fun x mem => ?_, List.find?_cons, may]
  · rfl
  · rw [List.mem_singleton.1 mem, pagesGood_one]
    rfl

/-! ### PAT.WRITE and PAT.READ -/

/-- A page whose contents have been written. -/
def Pte.rewritten (gen : BitVec 12) (crc : BitVec 32) (p : Pte) : Pte := { p with gen := gen, crc := crc, bad := false }

/-- A device whose page of LPDDR5X has been written, before its tiles. -/
def Dev.dramWritten (d : Dev) (w : Nat) (x : PageData) : Dev :=
  (d.modPte w (Pte.rewritten ((d.pte w).gen + 1) x.crc)).setDram w x.words

omit i in
theorem writePage_writes {d : Dev} {w : Nat} (tier : (d.pte w).tier = 1) (x : PageData) : d.writePage w x =
    (d.dramWritten w x).retile w (fun b => (d.pte w).tier == 0 || (d.pte w).pin.getLsbD b) ((d.pte w).gen + 1) x.crc (pageData x.words) := by
  unfold Dev.writePage
  dsimp only
  rw [if_pos tier]
  rfl

omit i in
theorem dramWritten_step (d : Dev) (w : Nat) (x : PageData) : SameBut [.pat] d (d.dramWritten w x) ∧ Quiet d (d.dramWritten w x) ∧
    (d.dramWritten w x).pte w = (d.pte w).rewritten ((d.pte w).gen + 1) x.crc :=
  ⟨(setPat_keeps d _).trans (setDram_keeps _ w _),
    (Quiet.of_ctl (a := d) (b := d.modPte w (Pte.rewritten ((d.pte w).gen + 1) x.crc)) rfl).trans (setDram_quiet _ w _),
    by rw [Dev.dramWritten, setDram_pte, pte_modPte_self]⟩

omit i in
theorem dramWritten_pages (d : Dev) (w : Nat) (x : PageData) (k : Nat) : (d.dramWritten w x).pat.pages.get 0 k =
    if 512 * w ≤ k ∧ k < 512 * w + x.words.length then x.words.getD (k - 512 * w) 0 else d.pat.pages.get 0 k := by
  rw [Dev.dramWritten, setDram_pages]
  rfl

theorem patWrite_runs {x : PageData} (open_ : (s.dev.advance h.t).barred v.toNat = false) (valid : (s.dev.pte v.toNat).valid = true)
    (tier : (s.dev.pte v.toNat).tier = 1) (whole : x.words.length = 512) (good : crc32c (wordBytes x.words) = x.crc) :
    exec (.patWrite h v [x]) s = .next { s with dev := ((((s.dev.takenUp h 0x0702).writePage v.toNat x).refetch).okResp h.tag
      [((((s.dev.takenUp h 0x0702).writePage v.toNat x).refetch.pte v.toNat).gen.toNat : Int)]).commit } := by
  have before := takenUp_pte (s := s) (h := h) (op := 0x0702) (by decide) v.toNat
  have may := (takenUp_barred (s := s) (h := h) (op := 0x0702) (by decide) v.toNat).trans open_
  refine hostCmd_runs i 0x0702 ?_
  generalize s.dev.takenUp h 0x0702 = d at *
  have l : (pageList v [x].length).zip [x] = [(v.toNat, x)] := rfl
  dsimp only
  rw [l, worst_eq_none fun r mem => ?_]
  · dsimp only
    rw [List.foldl_cons, List.foldl_nil, List.map_cons, List.map_nil]
  · rcases List.mem_cons.1 mem with rfl | mem
    · refine badArgs_eq_none fun y mem => ?_
      rcases List.mem_cons.1 mem with rfl | mem
      · dsimp only
        rw [List.any_cons, List.any_nil, before, valid, tier, List.length_singleton, pagesGood_one]
        rfl
      · rw [List.mem_singleton.1 mem]
        dsimp only
        rw [List.any_cons, List.any_nil, whole, good]
        simp
    · rw [List.mem_singleton.1 mem, List.find?_cons, may]
      rfl

theorem patWrite_writes {x : PageData} (open_ : (s.dev.advance h.t).barred v.toNat = false) (valid : (s.dev.pte v.toNat).valid = true)
    (tier : (s.dev.pte v.toNat).tier = 1) (whole : x.words.length = 512) (good : crc32c (wordBytes x.words) = x.crc) :
    ∃ t, exec (.patWrite h v [x]) s = .next t ∧ Keeps [.pat, .banks] s t ∧
      Answers s t h 0x0702 stOk [(((s.dev.pte v.toNat).gen + 1).toNat : Int)] ∧
      (t.dev.pte v.toNat).gen = (s.dev.pte v.toNat).gen + 1 ∧ (t.dev.pte v.toNat).crc = x.crc ∧
      (t.dev.pte v.toNat).bad = false ∧
      (∀ i, i < 512 → t.dev.pat.pages.get 0 (512 * v.toNat + i) = x.words.getD i 0) ∧
      ∀ i, i < 512 * v.toNat ∨ 512 * v.toNat + 512 ≤ i → t.dev.pat.pages.get 0 i = s.dev.pat.pages.get 0 i := by
  have before := takenUp_pte (s := s) (h := h) (op := 0x0702) (by decide) v.toNat
  have store : (s.dev.takenUp h 0x0702).pat.pages = s.dev.pat.pages := congrArg Pat.pages (takenUp_pat (by decide))
  have runs := patWrite_runs i open_ valid tier whole good
  rw [writePage_writes (d := s.dev.takenUp h 0x0702) (w := v.toNat) (by rw [before, tier]) x] at runs
  obtain ⟨frame, quiet, pte⟩ := dramWritten_step (s.dev.takenUp h 0x0702) v.toNat x
  have stored := dramWritten_pages (s.dev.takenUp h 0x0702) v.toNat x
  rw [store, whole] at stored
  rw [before] at pte
  generalize (s.dev.takenUp h 0x0702).dramWritten v.toNat x = e at *
  have tiles := retile_step e v.toNat (fun b => ((s.dev.takenUp h 0x0702).pte v.toNat).tier == 0 ||
    ((s.dev.takenUp h 0x0702).pte v.toNat).pin.getLsbD b) (((s.dev.takenUp h 0x0702).pte v.toNat).gen + 1) x.crc (pageData x.words)
  generalize e.retile v.toNat _ _ x.crc (pageData x.words) = f at *
  have asks := refetch_asks f
  generalize f.refetch = y at *
  have page := ((congrArg Pte.page (asks.pte v.toNat)).trans (tiles.ptes v.toNat)).trans (congrArg Pte.page pte)
  have gen : (y.pte v.toNat).gen = (s.dev.pte v.toNat).gen + 1 := congrArg Pte.gen page
  rw [gen] at runs
  obtain ⟨keeps, answer, pat⟩ := page_responds i 0x0702 (by decide) (by decide)
    ((frame.mono (by simp)).trans (tiles.frame.trans asks.frame)) (quiet.trans (tiles.quiet.trans asks.quiet))
    [(((s.dev.pte v.toNat).gen + 1).toNat : Int)]
  generalize Dev.commit _ = z at *
  have words : z.pat.pages = e.pat.pages := (congrArg Pat.pages pat).trans (asks.pages.trans tiles.pages)
  have mine := pte_of_pat pat v.toNat
  refine ⟨_, runs, keeps, answer, (congrArg Pte.gen mine).trans gen, ?_, ?_, fun k hk => ?_, fun k out => ?_⟩
  · exact (congrArg Pte.crc mine).trans (congrArg Pte.crc page)
  · exact (congrArg Pte.bad mine).trans (congrArg Pte.bad page)
  · dsimp only
    rw [words, stored, if_pos (by omega), Nat.add_sub_cancel_left]
  · dsimp only
    rw [words, stored, if_neg (by omega)]

omit i in
theorem skipFree_keeps (l : List Part) (d : Dev) (n : Nat) : SameBut l d (d.skipFree n) :=
  fun p _ => by cases p <;> first | rfl | exact Timeline.kept_refl _

theorem patRead_reads (valid : (s.dev.pte v.toNat).valid = true) (tier : (s.dev.pte v.toNat).tier = 1) :
    ∃ t, exec (.patRead h v 1) s = .next t ∧ Keeps [] s t ∧ Answers s t h 0x0703 stOk
      (((List.range 512).map fun i => ((s.dev.pat.pages.get 0 (512 * v.toNat + i)).toNat : Int)) ++
        [((s.dev.pte v.toNat).crc.toNat : Int)]) := by
  have before := takenUp_pte (s := s) (h := h) (op := 0x0703) (by decide) v.toNat
  have store : (s.dev.takenUp h 0x0703).pat.pages = s.dev.pat.pages := congrArg Pat.pages (takenUp_pat (by decide))
  generalize r : ((List.range 512).map fun i => ((s.dev.pat.pages.get 0 (512 * v.toNat + i)).toNat : Int)) ++
    [((s.dev.pte v.toNat).crc.toNat : Int)] = l
  have frame := okResp_keeps [] ((s.dev.takenUp h 0x0703).skipFree 512) h.tag l
  refine ⟨_, hostCmd_runs i 0x0703 (d := ((s.dev.takenUp h 0x0703).skipFree 512).okResp h.tag l) ?_,
    keeps_of_takenUp (op := 0x0703) (by decide) ((skipFree_keeps [] _ 512).trans frame), answers_okResp i 0x0703 _ l rfl (.inl (by decide))⟩
  · dsimp only
    rw [pageList_one, pagesGood_one, if_neg (by rw [List.any_cons, List.any_nil, before, valid]; simp), List.foldl_cons, List.foldl_nil]
    have contents : (s.dev.takenUp h 0x0703).contents v.toNat = s.dev.pat.pages.range 0 (512 * v.toNat) 512 := by
      unfold Dev.contents
      dsimp only
      rw [before, if_pos tier, store]
    dsimp only
    rw [contents, List.nil_append, before, Tab.range, List.map_map, ← r]
    rfl

end

end Sys2Proof.Machine
open Sys2Proof Sys2Proof.Machine

/-- Settles O48, by what each command does to the page table, the contents and the tiles of one page. -/
theorem patternPages : Obligations.PatternPages := by
  unfold Obligations.PatternPages
  exact fun s h v i => ⟨fun open_ => ⟨patMap_maps i open_, patUnmap_unmaps i open_, fun x => patWrite_writes i open_⟩, patUnmap_locked i,
    patRead_reads i⟩
end


section
/-!
PROOFS. Faults, fills, tile checks and the translation buffer (R213, R214, R217 to R226).
-/
namespace Sys2Proof.Machine

/-! ### What does not depend on the timeline -/

theorem advance_reads {γ : Type} (v : Dev → γ) (r : ∀ (d : Dev) t, v { d with tl := t } = v d) (d : Dev) (n : Nat) : v (d.advance n) = v d := by
  obtain ⟨t, moved⟩ := advance_is_withTl d n
  rw [moved]
  exact r d t

theorem targets_setTl (d : Dev) (t : Timeline) (b width : Nat) (lines : List Nat) : ∀ n va,
    ({ d with tl := t } : Dev).targets b width lines n va = d.targets b width lines n va := by
  intro n
  induction n with
  | zero => exact fun _ => rfl
  | succ n ih =>
    intro va
    have word : ({ d with tl := t } : Dev).patWord b va = d.patWord b va := rfl
    rw [Dev.targets, Dev.targets, word]
    cases d.patWord b va with
    | none => rfl
    | some w =>
      dsimp only
      rw [ih]

/-- The part of a thread's window that needs no look at its lines (R226). -/
def Dev.nearWindow (d : Dev) (m : Nat) : List Nat :=
  let x := d.thread m
  let here := pageOf (d.nextVa m)
  let w := x.desc (if x.st = .armed then x.firstSeg else x.seg)
  let seg := fun (s : BitVec 12) => pageOf (descVa (x.desc s))
  ((List.range x.depth).map fun k => here + 1 + k) ++ (if x.st = .armed then [here] else []) ++
    [seg (descNext w), seg (descNextFail w)] ++ (x.ctx.queue.filterMap fun q => match q.1 with | .jfail _ _ _ _ a => some (pageOf a) | _ => none) ++
    (match (d.thread (d.leadOf m)).jump with | some j => [seg j.seg] | none => [])

theorem window_eq (d : Dev) (m : Nat) : d.window m = if (d.thread m).st = .idle then [] else
    d.nearWindow m ++ d.targets (m / 4) (d.width m) (d.thread m).lines 512 (d.thread m).pc := by
  unfold Dev.window
  dsimp only
  congr 1

theorem window_setTl (d : Dev) (t : Timeline) (m : Nat) : ({ d with tl := t } : Dev).window m = d.window m := by
  have far : ({ d with tl := t } : Dev).targets (m / 4) (({ d with tl := t } : Dev).width m) (({ d with tl := t } : Dev).thread m).lines 512
      (({ d with tl := t } : Dev).thread m).pc = d.targets (m / 4) (d.width m) (d.thread m).lines 512 (d.thread m).pc :=
    targets_setTl d t _ _ _ _ _
  have near : ({ d with tl := t } : Dev).nearWindow m = d.nearWindow m := rfl
  have thread : ({ d with tl := t } : Dev).thread m = d.thread m := rfl
  rw [window_eq, window_eq, far, near, thread]

theorem chooseTile_setTl (d : Dev) (t : Timeline) (b : Nat) : ({ d with tl := t } : Dev).chooseTile b = d.chooseTile b := by
  have wanted : (List.range 64).flatMap ({ d with tl := t } : Dev).window = (List.range 64).flatMap d.window :=
    congrArg (List.range 64).flatMap (funext fun m => window_setTl d t m)
  have tile : ∀ k, ({ d with tl := t } : Dev).tile b k = d.tile b k := fun _ => rfl
  have evictable : ∀ w k, ({ d with tl := t } : Dev).evictable w b k = d.evictable w b k := fun _ _ => rfl
  unfold Dev.chooseTile
  dsimp only
  rw [wanted]
  simp only [tile, evictable]

/-! ### Where nothing waits for a page -/

/-- No thread waits for a page, and no command asks for one. -/
structure Unasked (d : Dev) : Prop where
  waiting : d.pat.waiting = []
  prefetches : d.pat.prefetches = []

theorem Unasked.of_pat {d e : Dev} (u : Unasked d) (h : e.pat = d.pat) : Unasked e := ⟨by rw [h, u.waiting], by rw [h, u.prefetches]⟩

theorem confirm_of_unasked {d : Dev} (u : Unasked d) (b v : Nat) : d.confirm b v = d := by
  have same : ({ d with pat := { d.pat with waiting := [] } } : Dev) = d := by rw [← u.waiting]
  unfold Dev.confirm
  rw [u.waiting]
  exact same

theorem passPrefetch_of_unasked {d : Dev} (u : Unasked d) (b v : Nat) : d.passPrefetch b v = d := by
  have same : ({ d with pat := { d.pat with prefetches := [] } } : Dev) = d := by rw [← u.prefetches]
  unfold Dev.passPrefetch
  rw [u.prefetches]
  exact same

theorem feedCheck_of_unasked {d : Dev} (u : Unasked d) (b : Nat) : d.feedCheck b = d := by
  unfold Dev.feedCheck
  rw [u.waiting, u.prefetches]
  rfl

theorem feedPrefetch_of_unasked {d : Dev} (u : Unasked d) : d.feedPrefetch = d := by
  unfold Dev.feedPrefetch
  rw [u.prefetches]
  rfl

theorem failWaiters_of_unasked {d : Dev} (u : Unasked d) (l : List Nat) (v : Nat) : d.failWaiters l v = d := by
  have same : ({ d with pat := { d.pat with waiting := [] } } : Dev) = d := by rw [← u.waiting]
  unfold Dev.failWaiters
  rw [u.waiting]
  exact same

theorem failPrefetch_of_unasked {d : Dev} (u : Unasked d) (l : List Nat) (v : Nat) : d.failPrefetch l v = d := by
  have same : ({ d with pat := { d.pat with prefetches := [] } } : Dev) = d := by rw [← u.prefetches]
  unfold Dev.failPrefetch
  rw [u.prefetches]
  exact same

theorem arrivePage_of_unasked {d : Dev} (u : Unasked d) (b v : Nat) : d.arrivePage b v = d := by
  unfold Dev.arrivePage
  dsimp only
  rw [confirm_of_unasked u, ite_self, passPrefetch_of_unasked u, feedCheck_of_unasked u]

/-! ### What freeing a tile leaves of the pattern store -/

theorem loseData_pat (d : Dev) (b k : Nat) : ∃ r, (d.loseData b k).pat = { d.pat with refilled := r } := by
  unfold Dev.loseData
  dsimp only
  split
  exacts [⟨_, rfl⟩, ⟨_, rfl⟩]

theorem unlisted_pat (d : Dev) (b v : Nat) : ∃ p, (d.unlisted b v).pat = { d.pat with ptes := p } := ⟨_, rfl⟩

theorem freeTile_pat (d : Dev) (b k : Nat) : ∃ p r, (d.freeTile b k).pat = { d.pat with ptes := p, refilled := r } := by
  have empty : ∃ r, (d.tileEmptied b k).pat = { d.pat with refilled := r } := by
    unfold Dev.tileEmptied
    split
    · obtain ⟨r, pat⟩ := loseData_pat d b k
      exact ⟨r, pat⟩
    · exact ⟨d.pat.refilled, rfl⟩
  obtain ⟨r, pat⟩ := empty
  rw [freeTile_eq]
  split
  · obtain ⟨p, listed⟩ := unlisted_pat (d.tileEmptied b k) b (d.tile b k).vpn
    exact ⟨p, r, by rw [listed, pat]⟩
  · exact ⟨d.pat.ptes, r, pat⟩

section
variable {s : State} (n : Nat) (rewind : s.dev.tl.rewind = none) (unasked : Unasked s.dev)

/-! ### Faults (R219, R220, R226) -/

theorem lookahead_queues (normal : s.dev.fc.decaf = none) (fill : s.dev.pat.fill = none) {th : BitVec 6} {v : BitVec 36}
    (queue : s.dev.pat.queue = []) (wanted : (s.dev.window th.toNat).contains v.toNat = true)
    (absent : s.dev.resident (th.toNat / 4) v.toNat = false) :
    ∃ t f, exec (.lookaheadFault n th v) s = .next t ∧ Keeps [.pat] s t ∧ t.dev.pat.queue = [f] ∧ f.vpn = v.toNat ∧
      f.bank.toNat = th.toNat / 4 ∧ f.kind = .lookahead := by
  have window : ((s.dev.advance n).window th.toNat).contains v.toNat = true :=
    (congrArg (List.contains · v.toNat) (advance_reads (Dev.window · th.toNat) (fun d t => window_setTl d t _) s.dev n)).trans wanted
  have out : (s.dev.advance n).resident (th.toNat / 4) v.toNat = false :=
    (advance_reads (Dev.resident · (th.toNat / 4) v.toNat) (fun _ _ => rfl) s.dev n).trans absent
  let f : PFault := { vpn := v.toNat, bank := BitVec.ofNat 4 (th.toNat / 4), kind := .lookahead, raised := (s.dev.advance n).mono }
  have joins : (s.dev.advance n).raiseFault (th.toNat / 4) v.toNat .lookahead =
      { s.dev.advance n with pat := { (s.dev.advance n).pat with queue := (s.dev.advance n).pat.queue ++ [f] } } := by
    rw [raiseFault_eq]
    show (s.dev.advance n).faultJoins _ _ _ = _
    unfold Dev.faultJoins
    dsimp only
    rw [if_neg (by rw [Dev.advance_pat, fill]; simp), if_neg (by rw [Dev.advance_pat, queue]; simp),
      if_pos (by rw [Dev.advance_pat, queue]; simp)]
  have runs : exec (.lookaheadFault n th v) s = .next { s with dev := ({ s.dev.advance n with
      pat := { (s.dev.advance n).pat with queue := (s.dev.advance n).pat.queue ++ [f] } } : Dev).commit } := by
    refine (onDev_runs ?_ : execLookaheadFault n th v s = _)
    dsimp only
    rw [if_pos ⟨window, by rw [out]; decide, by rw [Dev.advance_pat, queue, fill]; simp, by rw [Dev.advance_fc, normal]; rfl⟩, joins]
  refine ⟨_, f, runs, keeps_commit (advance_keeps_trans n (setPat_keeps _ _)), ?_, rfl, ?_, rfl⟩
  · dsimp only
    rw [commit_pat]
    dsimp only
    rw [Dev.advance_pat, queue]
    rfl
  · exact (BitVec.toNat_ofNat _ _).trans (Nat.mod_eq_of_lt (by have := th.isLt; omega))

omit n in
omit s in
theorem pullOutside_of_none {d : Dev} (outside : d.pat.outside = []) : d.pullOutside = d := by
  have same : ({ d with pat := { d.pat with queue := d.pat.queue, outside := [] } } : Dev) = d := by rw [← outside]
  unfold Dev.pullOutside
  rw [outside]
  exact same

theorem unqueue_of_unasked {d : Dev} (u : Unasked d) (outside : d.pat.outside = []) (gone : PFault → Bool) : d.unqueue gone =
    { d with pat := { d.pat with queue := d.pat.queue.filter fun f => !gone f } } := by
  have still : Unasked { d with pat := { d.pat with queue := d.pat.queue.filter fun f => !gone f } } := ⟨u.waiting, u.prefetches⟩
  unfold Dev.unqueue
  dsimp only
  rw [pullOutside_of_none (by exact outside), feedPrefetch_of_unasked still]

/-- The fill of a page that starts into one tile. -/
def PFault.fill (f : PFault) (k : Nat) (p : Pte) : Fill :=
  { vpn := f.vpn, tiles := [(f.bank, k)], crc := 0xFFFFFFFF, gen := p.gen, want := p.crc, kind := f.kind, raised := f.raised }

/-- A device whose tile is freed for a fill. -/
def Dev.fillTile (d : Dev) (f : PFault) (k : Nat) : Dev :=
  (d.freeTile f.bank.toNat k).modTile f.bank.toNat k fun t => { t with vpn := f.vpn, filling := true, gen := (d.pte f.vpn).gen }

theorem fillTile_step (d : Dev) (f : PFault) (k : Nat) : PageStep d (d.fillTile f k) := (freeTile_step d _ k).trans (modTile_step ..)

theorem fillTile_pat (d : Dev) (f : PFault) (k : Nat) : ∃ p r, (d.fillTile f k).pat = { d.pat with ptes := p, refilled := r } :=
  freeTile_pat d f.bank.toNat k

/-- A device on which a fill starts. -/
def Dev.fillStarts (d : Dev) (f : PFault) (k : Nat) : Dev :=
  { d.fillTile f k with pat := { (d.fillTile f k).pat with fill := some (f.fill k (d.pte f.vpn)) } }

theorem startFill_eq {d : Dev} {f : PFault} {k : Nat} (queue : d.pat.queue = [f]) (tile : d.chooseTile f.bank.toNat = some k) :
    d.startFill f = (d.fillStarts f k).unqueue fun q => q.vpn == f.vpn && [(f.bank, k)].any fun x => x.1 == q.bank := by
  have tiles : ((d.pat.queue.filter fun q => q.vpn == f.vpn).filterMap fun q => (d.chooseTile q.bank.toNat).map fun k => (q.bank, k)) =
      [(f.bank, k)] := by
    rw [queue, List.filter_cons, beq_self_eq_true]
    simp [tile]
  unfold Dev.startFill
  dsimp only
  rw [tiles]
  exact if_pos (by simp)

theorem fault_starts (unasked : Unasked s.dev) (normal : s.dev.fc.decaf = none) (fill : s.dev.pat.fill = none) (outside : s.dev.pat.outside = [])
    {f : PFault} {k : Nat} (queue : s.dev.pat.queue = [f]) (valid : (s.dev.pte f.vpn).valid = true) (good : (s.dev.pte f.vpn).bad = false)
    (tier : (s.dev.pte f.vpn).tier = 1) (absent : s.dev.resident f.bank.toNat f.vpn = false)
    (tile : s.dev.chooseTile f.bank.toNat = some k) :
    ∃ t x, exec (.faultResolutionStart n) s = .next t ∧ Keeps [.pat, .banks] s t ∧ t.dev.pat.fill = some x ∧
      x.vpn = f.vpn ∧ x.tiles = [(f.bank, k)] ∧ x.granule = 0 ∧ x.crc = 0xFFFFFFFF ∧ x.want = (s.dev.pte f.vpn).crc ∧
      t.dev.pat.queue = [] := by
  have pat : (s.dev.advance n).pat = s.dev.pat := Dev.advance_pat _ _
  have pte : (s.dev.advance n).pte f.vpn = s.dev.pte f.vpn := pte_of_pat pat _
  have out := (advance_reads (Dev.resident · f.bank.toNat f.vpn) (fun _ _ => rfl) s.dev n).trans absent
  have chosen := (advance_reads (Dev.chooseTile · f.bank.toNat) (fun d t => chooseTile_setTl d t _) s.dev n).trans tile
  have runs : exec (.faultResolutionStart n) s = .next { s with dev := ((s.dev.advance n).startFill f).commit } := by
    refine (onDev_runs ?_ : execFaultResolutionStart n s = _)
    have next : nextFault s.dev.pat.queue = some f := by
      rw [queue]
      cases kind : f.kind <;> simp [nextFault, kind]
    dsimp only
    rw [pat, Dev.advance_fc, normal, fill, next]
    dsimp only
    rw [pte, valid, good, tier, out]
    rfl
  have frame : SameBut [.pat, .banks] s.dev (s.dev.advance n) := advance_keeps _ _ _
  generalize s.dev.advance n = d at *
  obtain ⟨p, r, after⟩ := fillTile_pat d f k
  have step := fillTile_step d f k
  have filled : (d.fillStarts f k).pat = { d.pat with ptes := p, refilled := r, fill := some (f.fill k (d.pte f.vpn)) } := by
    show { (d.fillTile f k).pat with fill := some (f.fill k (d.pte f.vpn)) } = _
    rw [after]
  have starts : SameBut [.pat, .banks] d (d.fillStarts f k) := step.frame.trans ((setPat_keeps _ _).mono (by simp))
  rw [startFill_eq (by rw [pat, queue]) chosen] at runs
  generalize d.fillStarts f k = e at *
  have still : Unasked e := ⟨by rw [filled, pat]; exact unasked.waiting, by rw [filled, pat]; exact unasked.prefetches⟩
  rw [unqueue_of_unasked still (by rw [filled, pat]; exact outside)] at runs
  refine ⟨_, f.fill k (d.pte f.vpn), runs, keeps_commit (frame.trans (starts.trans ((setPat_keeps _ _).mono (by simp)))), ?_, rfl, rfl, rfl,
    rfl, congrArg Pte.crc pte, ?_⟩
  · dsimp only
    rw [commit_pat]
    dsimp only
    rw [filled]
  · dsimp only
    rw [commit_pat]
    dsimp only
    rw [filled, pat]
    dsimp only
    rw [queue]
    simp

/-! ### Fills (R220, R222) -/

section
variable {f : Fill} (fill : s.dev.pat.fill = some f)
include fill

theorem fill_reads (more : f.granule < 64) (live : f.suspended = false) (tier : (s.dev.pte f.vpn).tier = 1) :
    ∃ t x, exec (.fillGranule n [] false) s = .next t ∧ Keeps [.pat] s t ∧ t.dev.pat.fill = some x ∧ x.granule = f.granule + 1 ∧
      x.crc = crcStep f.crc (wordBytes (s.dev.pat.pages.range 0 (512 * f.vpn + 8 * f.granule) 8)) := by
  let ws := s.dev.pat.pages.range 0 (512 * f.vpn + 8 * f.granule) 8
  let x : Fill := { f with granule := f.granule + 1, crc := crcStep f.crc (wordBytes ws), data := f.data.fill 0 (8 * f.granule) ws }
  have pat : (s.dev.advance n).pat = s.dev.pat := Dev.advance_pat _ _
  have pte : (s.dev.advance n).pte f.vpn = s.dev.pte f.vpn := pte_of_pat pat _
  have runs : exec (.fillGranule n [] false) s =
      .next { s with dev := ({ s.dev.advance n with pat := { (s.dev.advance n).pat with fill := some x } } : Dev).commit } := by
    refine (onDev_runs ?_ : execFillGranule n [] false s = _)
    dsimp only
    rw [pat, fill]
    dsimp only
    rw [if_neg (by rw [live]; rintro (no | no); exacts [absurd no (by decide), by omega]), if_neg Bool.false_ne_true, pte, tier,
      if_neg (show ¬ (1 : BitVec 2) = 2 by decide), if_neg (by simp [Tab.range])]
  refine ⟨_, x, runs, keeps_commit (advance_keeps_trans n (setPat_keeps _ _)), ?_, rfl, rfl⟩
  dsimp only
  rw [commit_pat]

theorem fill_resumes : ∃ t, exec (.fillResume n) s = .next t ∧ Keeps [.pat] s t ∧ t.dev.pat.fill = some { f with suspended := false } := by
  refine ⟨_, (onDev_runs rfl : execFillResume n s = _), keeps_commit (advance_keeps_trans n (setPat_keeps _ _)), ?_⟩
  dsimp only
  rw [commit_pat]
  dsimp only
  rw [Dev.advance_pat, fill]
  rfl

end

end

/-! #### The end of a fill -/

theorem tlbUse_step (d : Dev) (b v : Nat) : PageStep d (d.tlbUse b v) := by
  unfold Dev.tlbUse
  cases d.tileOf b v with
  | none => exact .refl d
  | some k => exact modBank_step ..

theorem tlbUse_tile (d : Dev) (b v b' k : Nat) : (d.tlbUse b v).tile b' k = d.tile b' k := by
  unfold Dev.tlbUse
  cases d.tileOf b v with
  | none => rfl
  | some j => exact tile_modBank d b (f := fun x => { x with tlb := ((v, j) :: x.tlb.filter fun e => e.1 != v).take 256 }) (fun _ => rfl) b' k

theorem tlbUse_pat (d : Dev) (b v : Nat) : (d.tlbUse b v).pat = d.pat := by
  unfold Dev.tlbUse
  cases d.tileOf b v <;> rfl

/-- A tile that holds a page. -/
def Tile.holding (v : Nat) (p : Pte) (n : Nat) (data : Tab (BitVec 64)) (pin : Bool) (t : Tile) : Tile := { t with
  vpn := v, valid := true, filling := false, checked := false, own := 0, pin := pin, gen := p.gen, crc := p.crc, entered := n, data := data }

/-- A device whose bank has entered a page in a tile, before its translation entry. -/
def Dev.tileHolds (d : Dev) (b k v : Nat) (data : Tab (BitVec 64)) (pin : Bool) : Dev :=
  ((d.modTile b k (Tile.holding v (d.pte v) (d.bank b).entered data pin)).modBank b fun x => { x with entered := x.entered + 1 }).setRes b v true

theorem enterTile_eq (d : Dev) (b k v : Nat) (data : Tab (BitVec 64)) (pin : Bool) :
    d.enterTile b k v data pin = (d.tileHolds b k v data pin).tlbUse b v := rfl

theorem tileHolds_step (d : Dev) (b k v : Nat) (data : Tab (BitVec 64)) (pin : Bool) : PageStep d (d.tileHolds b k v data pin) :=
  (modTile_step ..).trans ((modBank_step ..).trans (setRes_step ..))

theorem tileHolds_tile (d : Dev) (b k v : Nat) (data : Tab (BitVec 64)) (pin : Bool) : (d.tileHolds b k v data pin).tile b k =
    (d.tile b k).holding v (d.pte v) (d.bank b).entered data pin := by
  have entered : (d.tileHolds b k v data pin).tile b k = (d.modTile b k (Tile.holding v (d.pte v) (d.bank b).entered data pin)).tile b k :=
    tile_modBank _ b (f := fun x => { x with entered := x.entered + 1 }) (fun _ => rfl) b k
  rw [entered, tile_modTile_self]

theorem tileHolds_pat (d : Dev) (b k v : Nat) (data : Tab (BitVec 64)) (pin : Bool) :
    ∃ p, (d.tileHolds b k v data pin).pat = { d.pat with ptes := p } := ⟨_, rfl⟩

theorem tileHolds_res (d : Dev) {b : Nat} (hb : b < 16) (k v : Nat) (data : Tab (BitVec 64)) (pin : Bool) :
    ((d.tileHolds b k v data pin).pte v).res.getLsbD b = true := by
  unfold Dev.tileHolds Dev.setRes
  rw [pte_modPte_self, if_pos rfl]
  simp [hb]

/-- A device whose fill is over, with its longest fault (R220, R237). -/
def Dev.fillOver (d : Dev) (f : Fill) : Dev :=
  let banks := f.tiles.map fun x => x.1.toNat
  let waits := d.dropFill.pat.waiting.any fun w => w.2 == f.vpn && banks.contains (w.1.toNat / 4)
  let took := (d.dropFill.mono - f.raised) / clk + if waits then 64 else 0
  ({ d.dropFill with pat := { d.dropFill.pat with faultMax := min (2 ^ 32 - 1) (max d.dropFill.pat.faultMax took) } } : Dev).pagingLog 0 0 0 0 took

theorem endFill_eq {d : Dev} {f : Fill} {b : BitVec 4} {k : Nat} (tiles : f.tiles = [(b, k)]) (valid : (d.pte f.vpn).valid = true)
    (gen : (d.pte f.vpn).gen = f.gen) (crc : ~~~ f.crc = f.want) : d.endFill f =
      ((d.fillOver f).enterTile b.toNat k f.vpn f.data ((d.pte f.vpn).pin.getLsbD b.toNat)).arrivePage b.toNat f.vpn := by
  unfold Dev.endFill
  dsimp only
  rw [if_neg (by rw [gen, valid]; simp), if_neg (by rw [crc]; simp)]
  show f.tiles.foldl _ (d.fillOver f) = _
  rw [tiles, List.foldl_cons, List.foldl_nil]

theorem dropFill_step {d : Dev} {f : Fill} {b : BitVec 4} {k : Nat} (fill : d.pat.fill = some f) (tiles : f.tiles = [(b, k)]) :
    PageStep d d.dropFill ∧ d.dropFill.pat = { d.pat with fill := none } := by
  unfold Dev.dropFill
  rw [fill]
  dsimp only
  rw [tiles, List.foldl_cons, List.foldl_nil]
  refine ⟨PageStep.trans ?_ (modTile_step _ _ _ _), rfl⟩
  exact setPat_step d rfl rfl

theorem fillOver_step {d : Dev} {f : Fill} {b : BitVec 4} {k : Nat} (fill : d.pat.fill = some f) (tiles : f.tiles = [(b, k)]) :
    PageStep d (d.fillOver f) ∧ ∃ m, (d.fillOver f).pat = { d.pat with fill := none, faultMax := m } := by
  obtain ⟨step, pat⟩ := dropFill_step fill tiles
  unfold Dev.fillOver
  dsimp only
  generalize d.dropFill = e at *
  refine ⟨step.trans (PageStep.trans ?_ (pagingLog_asks _ _ _ _ _ _).toPageStep), ?_⟩
  · exact setPat_step e rfl rfl
  · rw [pat]
    exact ⟨_, rfl⟩

theorem fill_ends {s : State} (n : Nat) (unasked : Unasked s.dev) {f : Fill} (fill : s.dev.pat.fill = some f) {b : BitVec 4} {k : Nat}
    (whole : f.granule = 64) (live : f.suspended = false) (tiles : f.tiles = [(b, k)]) (valid : (s.dev.pte f.vpn).valid = true)
    (gen : (s.dev.pte f.vpn).gen = f.gen) (crc : ~~~ f.crc = f.want) :
    ∃ t, exec (.fillComplete n) s = .next t ∧ Keeps [.pat, .banks] s t ∧ t.dev.pat.fill = none ∧
      (t.dev.tile b.toNat k).valid = true ∧ (t.dev.tile b.toNat k).vpn = f.vpn ∧ (t.dev.tile b.toNat k).data = f.data ∧
      (t.dev.tile b.toNat k).checked = false ∧ (t.dev.pte f.vpn).res.getLsbD b.toNat = true := by
  have pat : (s.dev.advance n).pat = s.dev.pat := Dev.advance_pat _ _
  have pte : (s.dev.advance n).pte f.vpn = s.dev.pte f.vpn := pte_of_pat pat _
  have frame : SameBut [.pat, .banks] s.dev (s.dev.advance n) := advance_keeps _ _ _
  have runs : exec (.fillComplete n) s = .next { s with dev := ((s.dev.advance n).endFill f).commit } := by
    refine (onDev_runs ?_ : execFillComplete n s = _)
    dsimp only
    rw [pat, fill]
    exact if_neg (by rw [live, whole]; decide)
  generalize s.dev.advance n = d at *
  rw [endFill_eq tiles (by rw [pte, valid]) (by rw [pte, gen]) crc, enterTile_eq] at runs
  obtain ⟨ended, m, left⟩ := fillOver_step (d := d) (by rw [pat, fill]) tiles
  generalize d.fillOver f = e at *
  have holds := tileHolds_step e b.toNat k f.vpn f.data ((d.pte f.vpn).pin.getLsbD b.toNat)
  have tile := tileHolds_tile e b.toNat k f.vpn f.data ((d.pte f.vpn).pin.getLsbD b.toNat)
  obtain ⟨p, table⟩ := tileHolds_pat e b.toNat k f.vpn f.data ((d.pte f.vpn).pin.getLsbD b.toNat)
  have res := tileHolds_res e b.isLt k f.vpn f.data ((d.pte f.vpn).pin.getLsbD b.toNat)
  generalize e.tileHolds b.toNat k f.vpn f.data ((d.pte f.vpn).pin.getLsbD b.toNat) = g at *
  have used := tlbUse_step g b.toNat f.vpn
  have same := tlbUse_tile g b.toNat f.vpn
  have kept := tlbUse_pat g b.toNat f.vpn
  generalize g.tlbUse b.toNat f.vpn = x at *
  have still : Unasked x := ⟨by rw [kept, table, left, pat]; exact unasked.waiting, by rw [kept, table, left, pat]; exact unasked.prefetches⟩
  rw [arrivePage_of_unasked still] at runs
  have after : x.commit.tile b.toNat k = (e.tile b.toNat k).holding f.vpn (e.pte f.vpn) (e.bank b.toNat).entered f.data
      ((d.pte f.vpn).pin.getLsbD b.toNat) := by rw [commit_tile, same, tile]
  refine ⟨_, runs, keeps_commit (frame.trans (ended.frame.trans (holds.frame.trans used.frame))), ?_, ?_, ?_, ?_, ?_, ?_⟩
  · dsimp only
    rw [commit_pat, kept, table, left]
  · dsimp only
    rw [after, Tile.holding]
  · dsimp only
    rw [after, Tile.holding]
  · dsimp only
    rw [after, Tile.holding]
  · dsimp only
    rw [after, Tile.holding]
  · dsimp only
    rw [commit_pte, pte_of_pat kept, res]

/-! ### Tile checks (R213, R214) -/

section
variable {s : State} {b : BitVec 4} {k at_ : Nat} (rewind : s.dev.tl.rewind = none) (unasked : Unasked s.dev)
  (checking : (s.dev.bank b.toNat).checking = some (k, at_)) (refilled : s.dev.pat.refilled = [])
include rewind unasked checking refilled

omit unasked refilled in
theorem tileCheck_runs (upset : Bool) : exec (.tileCheckComplete b upset) s =
    .next { s with dev := (((s.dev.advance at_).endCheck b.toNat k upset).feedCheck b.toNat).commit } := by
  refine (onDev_runs ?_ : execTileCheckComplete b upset s = _)
  rw [checking]
  dsimp only
  rw [due_of_no_rewind rewind]

/-- A device whose bank checks no tile. -/
def Dev.checkOver (d : Dev) (b : Nat) : Dev := d.modBank b fun x => { x with checking := none }

/-- A tile that has passed its check. -/
def Dev.tilePasses (d : Dev) (b k : Nat) : Dev := (d.checkOver b).modTile b k fun t => { t with checked := true }

theorem tile_passes (good : pageCrc (s.dev.tile b.toNat k).data = (s.dev.tile b.toNat k).crc) :
    ∃ t, exec (.tileCheckComplete b false) s = .next t ∧ Keeps [.pat, .banks] s t ∧ (t.dev.bank b.toNat).checking = none ∧
      (t.dev.tile b.toNat k).checked = true := by
  have runs := tileCheck_runs rewind checking false
  have pat : (s.dev.advance at_).pat = s.dev.pat := Dev.advance_pat _ _
  have tile : (s.dev.advance at_).tile b.toNat k = s.dev.tile b.toNat k := tile_of_banks (Dev.advance_banks _ _) _ _
  have frame : SameBut [.pat, .banks] s.dev (s.dev.advance at_) := advance_keeps _ _ _
  generalize s.dev.advance at_ = d at *
  have still : Unasked (d.tilePasses b.toNat k) := ⟨(congrArg Pat.waiting pat).trans unasked.waiting, (congrArg Pat.prefetches pat).trans unasked.prefetches⟩
  have ends : d.endCheck b.toNat k false = d.tilePasses b.toNat k := by
    unfold Dev.endCheck
    dsimp only
    rw [tile, good, if_pos (by simp)]
    have none_ : ¬ (d.pat.refilled.contains (BitVec.ofNat 4 b.toNat, (s.dev.tile b.toNat k).vpn)) = true := by rw [pat, refilled]; simp
    refine Eq.trans (congrArg (fun x : Dev => (x.confirm b.toNat _).passPrefetch b.toNat _) (if_neg none_)) ?_
    exact (congrArg (fun x : Dev => x.passPrefetch b.toNat _) (confirm_of_unasked still _ _)).trans (passPrefetch_of_unasked still _ _)
  rw [ends, feedCheck_of_unasked still] at runs
  have step : PageStep d (d.tilePasses b.toNat k) := (modBank_step ..).trans (modTile_step ..)
  have bank : ((d.tilePasses b.toNat k).bank b.toNat).checking = none := by
    rw [Dev.tilePasses, Dev.modTile, modBank_bank_self]
    show ((d.checkOver b.toNat).bank b.toNat).checking = none
    rw [Dev.checkOver, modBank_bank_self]
  have checked : ((d.tilePasses b.toNat k).tile b.toNat k).checked = true := by
    rw [Dev.tilePasses, tile_modTile_self]
  generalize d.tilePasses b.toNat k = e at *
  refine ⟨_, runs, keeps_commit (frame.trans step.frame), ?_, ?_⟩
  · dsimp only
    rw [bank_of_banks (commit_banks e), bank]
  · dsimp only
    rw [commit_tile, checked]

/-- A device that counts a failed check (R237). -/
def Dev.checkFailed (d : Dev) : Dev :=
  ({ d with pat := { d.pat with checkFails := satAdd (2 ^ 32 - 1) d.pat.checkFails 1 } } : Dev).pagingLog 0 0 1 0 0

/-- A device whose tile is put out of use (R214). -/
def Dev.tileFails (d : Dev) (b k : Nat) : Dev := ((d.checkOver b).checkFailed.freeTile b k).modTile b k fun t => { t with bad := true }

/-- What a device keeps of the pattern store where its tile has failed: nothing is asked, and the failure is counted. -/
structure CheckCounted (s : State) (b k : Nat) (e : Dev) : Prop where
  unasked : Unasked e
  fails : e.pat.checkFails = min (2 ^ 32 - 1) (s.dev.pat.checkFails + 1)
  valid : (e.tile b k).valid = false
  bad : (e.tile b k).bad = true

omit rewind unasked checking refilled in
theorem CheckCounted.congr {j : Nat} {d e : Dev} (c : CheckCounted s j k d) (waiting : e.pat.waiting = d.pat.waiting)
    (prefetches : e.pat.prefetches = d.pat.prefetches) (fails : e.pat.checkFails = d.pat.checkFails) (tile : e.tile j k = d.tile j k) :
    CheckCounted s j k e :=
  ⟨⟨waiting.trans c.unasked.waiting, prefetches.trans c.unasked.prefetches⟩, fails.trans c.fails, by rw [tile, c.valid], by rw [tile, c.bad]⟩

omit rewind checking refilled in
theorem tileFails_counts {d : Dev} (pat : d.pat = s.dev.pat) (j : Nat) : CheckCounted s j k (d.tileFails j k) := by
  obtain ⟨p, r, freed⟩ := freeTile_pat (d.checkOver j).checkFailed j k
  have out : (d.tileFails j k).pat = ((d.checkOver j).checkFailed.freeTile j k).pat := rfl
  have counted : (d.checkOver j).checkFailed.pat = { d.pat with checkFails := satAdd (2 ^ 32 - 1) d.pat.checkFails 1 } := rfl
  have after := out.trans freed
  rw [counted, pat] at after
  have tile : (d.tileFails j k).tile j k = { ((d.checkOver j).checkFailed.freeTile j k).tile j k with bad := true } := tile_modTile_self ..
  have empty := freeTile_invalid (d.checkOver j).checkFailed j k
  generalize d.tileFails j k = e at *
  exact ⟨⟨by rw [after]; exact unasked.waiting, by rw [after]; exact unasked.prefetches⟩, by rw [after]; rfl, by rw [tile]; exact empty,
    by rw [tile]⟩

omit rewind unasked checking refilled in
theorem demanded_counts (d : Dev) (q : FaultKind) : (d.demanded q).pat.waiting = d.pat.waiting ∧
    (d.demanded q).pat.prefetches = d.pat.prefetches ∧ (d.demanded q).pat.checkFails = d.pat.checkFails := by
  unfold Dev.demanded
  split <;> exact ⟨rfl, rfl, rfl⟩

omit rewind unasked checking refilled in
theorem faultJoins_counts (d : Dev) (j v : Nat) (q : FaultKind) : (d.faultJoins j v q).pat.waiting = d.pat.waiting ∧
    (d.faultJoins j v q).pat.prefetches = d.pat.prefetches ∧ (d.faultJoins j v q).pat.checkFails = d.pat.checkFails := by
  unfold Dev.faultJoins
  dsimp only
  split
  · exact ⟨rfl, rfl, rfl⟩
  split
  · exact ⟨rfl, rfl, rfl⟩
  split
  · exact ⟨rfl, rfl, rfl⟩
  cases q with
  | demand =>
    dsimp only
    split <;> exact ⟨rfl, rfl, rfl⟩
  | prefetch => exact ⟨rfl, rfl, rfl⟩
  | lookahead => exact ⟨rfl, rfl, rfl⟩

omit rewind unasked checking refilled in
theorem CheckCounted.demands {j : Nat} {d : Dev} (c : CheckCounted s j k d) (v : Nat) : CheckCounted s j k (d.raiseFault j v .demand) := by
  obtain ⟨w, p, n⟩ := demanded_counts d .demand
  obtain ⟨w', p', n'⟩ := faultJoins_counts (d.demanded .demand) j v .demand
  have tile := (raiseFault_asks d j v .demand).tiles j k
  rw [raiseFault_eq] at tile ⊢
  exact c.congr (w'.trans w) (p'.trans p) (n'.trans n) tile

/-- The page of a tile that has failed is given up, or asked for once more (R214). -/
def Dev.failedEnd (d : Dev) (b k v : Nat) (again : Bool) : Dev :=
  if (d.pte v).tier = 0 ∨ again then
    let d : Dev := { d with pat := { d.pat with refilled := d.pat.refilled.erase (BitVec.ofNat 4 b, v) } }
    ((d.failWaiters [b] v).failPrefetch [b] v).collect 20 1 3 (k + 1024 * b) 0
  else
    let d : Dev := { d with pat := { d.pat with refilled := (BitVec.ofNat 4 b, v) :: d.pat.refilled } }
    d.raiseFault b v .demand

omit rewind unasked checking refilled in
theorem endCheck_upset (d : Dev) (j : Nat) : d.endCheck j k true =
    (d.tileFails j k).failedEnd j k (d.tile j k).vpn (d.checkOver j |>.pat.refilled.contains (BitVec.ofNat 4 j, (d.tile j k).vpn)) := by
  unfold Dev.endCheck
  dsimp only
  rw [Bool.not_true, Bool.false_and, if_neg Bool.false_ne_true]
  rfl

omit rewind unasked checking refilled in
theorem CheckCounted.ends {j : Nat} {d : Dev} (c : CheckCounted s j k d) (v : Nat) (again : Bool) :
    CheckCounted s j k (d.failedEnd j k v again) := by
  unfold Dev.failedEnd
  dsimp only
  split
  · have still : Unasked { d with pat := { d.pat with refilled := d.pat.refilled.erase (BitVec.ofNat 4 j, v) } } :=
      ⟨c.unasked.waiting, c.unasked.prefetches⟩
    rw [failWaiters_of_unasked still, failPrefetch_of_unasked still]
    have beside := collect_beside { d with pat := { d.pat with refilled := d.pat.refilled.erase (BitVec.ofNat 4 j, v) } } 20 1 3 (k + 1024 * j) 0
    have pat := of_beside Dev.pat (fun _ => rfl) beside
    have banks := of_beside Dev.banks (fun _ => rfl) beside
    exact c.congr (by rw [pat]) (by rw [pat]) (by rw [pat]) (tile_of_banks banks j k)
  · refine CheckCounted.demands ?_ v
    exact c.congr rfl rfl rfl rfl

theorem tile_fails : ∃ t, exec (.tileCheckComplete b true) s = .next t ∧ (t.dev.tile b.toNat k).valid = false ∧
    (t.dev.tile b.toNat k).bad = true ∧ t.dev.pat.checkFails = min (2 ^ 32 - 1) (s.dev.pat.checkFails + 1) := by
  have runs := tileCheck_runs rewind checking true
  have ends := (tileFails_counts (k := k) unasked (d := s.dev.advance at_) (Dev.advance_pat _ _) b.toNat).ends
    ((s.dev.advance at_).tile b.toNat k).vpn
    ((s.dev.advance at_).checkOver b.toNat |>.pat.refilled.contains (BitVec.ofNat 4 b.toNat, ((s.dev.advance at_).tile b.toNat k).vpn))
  rw [← endCheck_upset] at ends
  rw [feedCheck_of_unasked ends.unasked] at runs
  generalize (s.dev.advance at_).endCheck b.toNat k true = e at *
  refine ⟨_, runs, ?_, ?_, ?_⟩
  · dsimp only
    rw [commit_tile, ends.valid]
  · dsimp only
    rw [commit_tile, ends.bad]
  · dsimp only
    rw [commit_pat, ends.fails]

end

/-! ### The translation buffer (R217) -/

theorem translation_reloads {s : State} (n : Nat) {b : BitVec 4} {v : BitVec 36} {k : Nat} (present : s.dev.resident b.toNat v.toNat = true)
    (tile : s.dev.tileOf b.toNat v.toNat = some k) : ∃ t, exec (.translationReload n b v) s = .next t ∧ Keeps [.banks] s t ∧
      (t.dev.bank b.toNat).tlb.head? = some (v.toNat, k) := by
  have there := (advance_reads (Dev.resident · b.toNat v.toNat) (fun _ _ => rfl) s.dev n).trans present
  have found := (advance_reads (Dev.tileOf · b.toNat v.toNat) (fun _ _ => rfl) s.dev n).trans tile
  have runs : exec (.translationReload n b v) s = .next { s with dev := ((s.dev.advance n).modBank b.toNat fun x =>
      { x with tlb := ((v.toNat, k) :: x.tlb.filter fun e => e.1 != v.toNat).take 256 }).commit } := by
    refine (onDev_runs ?_ : execTranslationReload n b v s = _)
    dsimp only
    rw [if_pos there, Dev.tlbUse, found]
  refine ⟨_, runs, keeps_commit (advance_keeps_trans n (modBank_keeps _ _ _)), ?_⟩
  dsimp only
  rw [bank_of_banks (commit_banks _), modBank_bank_self]
  rfl

end Sys2Proof.Machine
open Sys2Proof Sys2Proof.Machine

/-- Settles O50, by what each event of the paging engine leaves where no thread waits and no command asks. -/
theorem pagingEvents : Obligations.PagingEvents := by
  unfold Obligations.PagingEvents
  intro s n rewind waiting prefetches
  have unasked : Unasked s.dev := ⟨waiting, prefetches⟩
  exact ⟨fun normal fill outside => ⟨fun th v queue wanted absent => lookahead_queues n normal fill queue wanted absent,
      fun f k queue valid good tier absent tile => fault_starts n unasked normal fill outside queue valid good tier absent tile⟩,
    fun f fill => ⟨fun more live tier => fill_reads n fill more live tier, fill_resumes n fill,
      fun b k whole live tiles valid gen crc => fill_ends n unasked fill whole live tiles valid gen crc⟩,
    fun b k at_ checking refilled => ⟨fun good => tile_passes rewind unasked checking refilled good,
      tile_fails rewind unasked checking refilled⟩,
    fun b v k present tile => translation_reloads n present tile⟩
end


section
/-!
PROOFS. Decisions, waits, holds and gaps of a site of one thread (R167 to R180).
-/
namespace Sys2Proof.Machine

/-! ### Steps of one thread -/

/-- A change of a thread that leaves the extent of its site. -/
def InSite (f : Thread → Thread) : Prop := ∀ t, (f t).lead = t.lead ∧ (f t).members = t.members

/-- A change of the threads alone, by which the thread becomes `f` of itself. -/
structure Turns (l : Nat) (f : Thread → Thread) (d e : Dev) : Prop where
  frame : SameBut [.seq] d e
  thread : e.thread l = f (d.thread l)
  site : InSite f

theorem turns_advance (l : Nat) (d : Dev) (n : Nat) : Turns l id d (d.advance n) :=
  ⟨advance_keeps _ _ _, thread_of_seq (Dev.advance_seq d n) l, fun _ => ⟨rfl, rfl⟩⟩

section
variable {l : Nat} {f : Thread → Thread} {d e : Dev} (x : Turns l f d e)
include x

theorem Turns.alone (al : d.alone l) : e.alone l := by
  obtain ⟨lead, members⟩ := x.site (d.thread l)
  exact al.congr (by rw [x.thread, lead]) (by rw [x.thread, members])

theorem Turns.modThread {g : Thread → Thread} (site : InSite g) : Turns l (g ∘ f) d (e.modThread l g) :=
  ⟨x.frame.trans (modThread_keeps e l g), (modThread_thread_self e l g).trans (congrArg g x.thread),
    fun t => ⟨(site (f t)).1.trans (x.site t).1, (site (f t)).2.trans (x.site t).2⟩⟩

/-- One more change of the site. -/
theorem Turns.modSite (al : d.alone l) {g : Thread → Thread} (site : InSite g) : Turns l (g ∘ f) d (e.modSite l g) := by
  rw [(x.alone al).modSite]
  exact x.modThread site

end

/-! ### Entries of the queue -/

/-- A thread that dispatches an entry. -/
def Thread.dispatched (z : Nat) (t : Thread) : Thread := { t with dispatchFrom := z + 256 }

/-- A thread whose queue has lost its front. -/
def Thread.popped (t : Thread) : Thread := { t with
  inBlock := 0
  ctx := { t.ctx with
    clock := if t.ctx.queue.length ≥ 4 then max t.ctx.clock (clockOf t.next) else t.ctx.clock
    queue := t.ctx.queue.tail } }

/-- A thread whose wait has ended. -/
def Thread.waited (at_ : Nat) (z : Option Bool) (t : Thread) : Thread := { t with
  ctx := { t.ctx with
    waiting := false, clock := max t.ctx.clock (clockOf (at_ - 256)), z := if t.ctx.active then z.getD t.ctx.z else t.ctx.z } }

theorem dispatched_site (z : Nat) : InSite (Thread.dispatched z) := fun _ => ⟨rfl, rfl⟩
theorem popped_site : InSite Thread.popped := fun _ => ⟨rfl, rfl⟩
theorem waited_site (at_ : Nat) (z : Option Bool) : InSite (Thread.waited at_ z) := fun _ => ⟨rfl, rfl⟩

theorem startEntry_eq (d : Dev) (l z : Nat) : d.startEntry l z false = d.modSite l (Thread.dispatched z) := by
  unfold Dev.startEntry
  rw [if_neg (by simp)]
  rfl

theorem popQueue_eq (d : Dev) (l : Nat) : d.popQueue l = d.modSite l Thread.popped := rfl
theorem endWait_eq (d : Dev) (l at_ : Nat) (z : Option Bool) : d.endWait l at_ z = d.modSite l (Thread.waited at_ z) := rfl

/-- A site that no cause holds. -/
theorem holdDue_of_no_causes {d : Dev} {l : Nat} (causes : (d.thread l).causes = []) : d.holdDue l = false := by
  rw [Dev.holdDue, Thread.stopped, causes]
  rfl

/-- What stops an event of a playing site. -/
theorem plays_goes {d : Dev} {l : Nat} {e : QEntry × Nat} {rest : List (QEntry × Nat)} (p : d.plays l e rest) :
    ¬ ((d.thread l).st ≠ .run ∨ d.notLead l ∨ (d.thread l).causes.contains .stop ∨ d.holdDue l) := by
  rw [p.st, p.alone.notLead, p.causes, holdDue_of_no_causes p.causes]
  simp

section
variable {s : State} {th : BitVec 6}

/-! ### JFAIL (R170) -/

/-- Where a fail decision places the next vector. -/
def Thread.place (t : Thread) : Nat :=
  match t.lastVec with
  | some v => if t.segStat.vecs = 0 then t.next else max t.next (v.1 + t.latency)
  | none => t.next

/-- A thread that has gone on from a decision. -/
def Thread.decided (place : Nat) (jump : Bool) (target : Nat) (t : Thread) : Thread :=
  { t with next := place, waitEnd := some place, pc := if jump then target else t.pc }

/-- A thread whose fail flag is clear. -/
def Thread.ffCleared (t : Thread) : Thread := { t with ff := false }

theorem decided_site (place : Nat) (jump : Bool) (target : Nat) : InSite (Thread.decided place jump target) := fun _ => ⟨rfl, rfl⟩
theorem ffCleared_site : InSite Thread.ffCleared := fun _ => ⟨rfl, rfl⟩

/-- The fail flag of a site of one thread. -/
theorem siteFf_alone {d : Dev} {l : Nat} (al : d.alone l) : d.siteFf l = (d.thread l).ff := by
  rw [Dev.siteFf, al.site]
  simp

/-- A fail decision that clears the flag or keeps it. -/
def Dev.cleared (d : Dev) (l : Nat) (clr : Bool) : Dev := if clr then d.modSite l Thread.ffCleared else d

theorem Turns.cleared {l : Nat} {f : Thread → Thread} {d e : Dev} (x : Turns l f d e) (al : d.alone l) (clr : Bool) :
    ∃ g, Turns l g d (e.cleared l clr) ∧ ∀ t, g t = if clr then (f t).ffCleared else f t := by
  cases clr with
  | true => exact ⟨_, x.modSite al ffCleared_site, fun _ => rfl⟩
  | false => exact ⟨f, x, fun _ => rfl⟩

/-- What a decision leaves of a thread. -/
theorem decided_leaves (place : Nat) (jump : Bool) (target : Nat) (t : Thread) :
    (((t.popped).decided place jump target).waited place none).ctx.queue = t.ctx.queue.tail ∧
      (((t.popped).decided place jump target).waited place none).ctx.waiting = false ∧
      (((t.popped).decided place jump target).waited place none).pc = (if jump then target else t.pc) ∧
      (((t.popped).decided place jump target).waited place none).ff = t.ff := ⟨rfl, rfl, rfl, rfl⟩

theorem cleared_leaves (z : Nat) (clr : Bool) (t : Thread) :
    (if clr = true then (t.dispatched z).ffCleared else t.dispatched z).ctx = t.ctx ∧
      (if clr = true then (t.dispatched z).ffCleared else t.dispatched z).pc = t.pc ∧
      (if clr = true then (t.dispatched z).ffCleared else t.dispatched z).ff = (t.ff && !clr) := by
  cases clr
  · exact ⟨rfl, rfl, (Bool.and_true _).symm⟩
  · exact ⟨rfl, rfl, (Bool.and_false _).symm⟩

theorem jump_taken (ff sense : Bool) (a b : Nat) : (if (ff != sense) = true then a else b) = if ff = sense then b else a := by
  cases ff <;> cases sense <;> rfl

theorem jfail_decides {sense clr : Bool} {m : BitVec 2} {target r : Nat} {rest : List (QEntry × Nat)}
    (plays : s.dev.plays th.toNat (.jfail false sense clr m target, r) rest) :
    ∃ t, exec (.jfailDecision th) s = .next t ∧ Keeps [.seq] s t ∧ (t.dev.thread th.toNat).ctx.queue = rest ∧
      (t.dev.thread th.toNat).ctx.waiting = false ∧
      (t.dev.thread th.toNat).pc = (if (s.dev.thread th.toNat).ff = sense then (s.dev.thread th.toNat).pc else target) ∧
      (t.dev.thread th.toNat).ff = ((s.dev.thread th.toNat).ff && !clr) := by
  let z := (s.dev.thread th.toNat).entryStart r
  let place := (s.dev.thread th.toNat).place
  let jump := (s.dev.thread th.toNat).ff != sense
  obtain ⟨g, start, same⟩ := ((turns_advance th.toNat s.dev z).modSite plays.alone (dispatched_site z)).cleared plays.alone clr
  have x := ((start.modSite plays.alone popped_site).modSite plays.alone (decided_site place jump target)).modSite plays.alone
    (waited_site place none)
  have runs : exec (.jfailDecision th) s = .next { s with dev := (((((((s.dev.advance z).modSite th.toNat (Thread.dispatched z)).cleared
      th.toNat clr).modSite th.toNat Thread.popped).modSite th.toNat (Thread.decided place jump target)).modSite th.toNat
        (Thread.waited place none))).commit } := by
    have stays := plays_goes plays
    refine (onDev_runs ?_ : execJfailDecision th s = _)
    refine (if_neg ?_).trans ?_
    · rw [plays.strobes]
      simpa using stays
    · unfold Dev.decideFail
      dsimp only
      rw [plays.queue]
      dsimp only
      rw [due_of_no_rewind plays.rewind, startEntry_eq, siteFf_alone plays.alone]
      cases clr <;> rfl
  generalize Dev.modSite _ _ (Thread.waited place none) = y at *
  have queue : (s.dev.thread th.toNat).ctx.queue.tail = rest := by rw [plays.queue, List.tail_cons]
  obtain ⟨left, waiting, pc, ff⟩ := decided_leaves place jump target (g (s.dev.thread th.toNat))
  obtain ⟨ctx, still, flag⟩ := cleared_leaves z clr (s.dev.thread th.toNat)
  have start_ : g (s.dev.thread th.toNat) = if clr = true then ((s.dev.thread th.toNat).dispatched z).ffCleared else
    (s.dev.thread th.toNat).dispatched z := same _
  rw [← start_] at ctx still flag
  refine ⟨_, runs, keeps_commit x.frame, ?_, ?_, ?_, ?_⟩
  all_goals
    dsimp only
    rw [commit_thread, x.thread]
    dsimp only [Function.comp]
  · rw [left, ctx, queue]
  · exact waiting
  · rw [pc, still, jump_taken]
  · rw [ff, flag]

/-! ### MATCH (R174) -/

/-- A thread whose MATCH is over. -/
def Thread.matchOver (at_ : Nat) (found : Bool) (t : Thread) : Thread :=
  { t with next := at_, matchAt := none, ctx := { t.ctx with matched := found } }

theorem matchOver_site (at_ : Nat) (found : Bool) : InSite (Thread.matchOver at_ found) := fun _ => ⟨rfl, rfl⟩

theorem match_finds {e : QEntry × Nat} {rest : List (QEntry × Nat)} {at_ : Nat} (plays : s.dev.plays th.toNat e rest)
    (place : s.dev.matchPlace th.toNat true = some at_) :
    ∃ t, exec (.matchFound th) s = .next t ∧ Keeps [.seq] s t ∧ (t.dev.thread th.toNat).next = at_ ∧
      (t.dev.thread th.toNat).ctx.matched = true ∧ (t.dev.thread th.toNat).ctx.queue = rest.tail ∧
      (t.dev.thread th.toNat).matchAt = none := by
  have x := ((((turns_advance th.toNat s.dev at_).modSite plays.alone popped_site).modSite plays.alone popped_site).modSite plays.alone
    (matchOver_site at_ true)).modSite plays.alone (waited_site at_ (some true))
  have runs : exec (.matchFound th) s = .next { s with dev := ((s.dev.advance at_).endMatch th.toNat at_ true).commit } := by
    refine (onDev_runs ?_ : execMatchFound th s = _)
    dsimp only
    rw [if_neg (plays_goes plays), place]
    exact due_of_no_rewind plays.rewind _ _
  have ends : (s.dev.advance at_).endMatch th.toNat at_ true = ((((s.dev.advance at_).modSite th.toNat Thread.popped).modSite th.toNat
      Thread.popped).modSite th.toNat (Thread.matchOver at_ true)).modSite th.toNat (Thread.waited at_ (some true)) := rfl
  rw [ends] at runs
  generalize Dev.modSite _ _ (Thread.waited at_ (some true)) = y at *
  have queue : (s.dev.thread th.toNat).ctx.queue.tail.tail = rest.tail := by rw [plays.queue, List.tail_cons]
  refine ⟨_, runs, keeps_commit x.frame, ?_, ?_, ?_, ?_⟩
  all_goals
    dsimp only
    rw [commit_thread, x.thread]
  · rfl
  · rfl
  · exact queue
  · rfl

/-- A thread whose MATCH has timed out. -/
def Thread.matchLate (t : Thread) : Thread := { t with segStat := { t.segStat with matchTo := true } }

/-- A thread that is told of a fail of its site. -/
def Thread.failSeen (t : Thread) : Thread := { t with sf := true, segStat := { t.segStat with otherSf := true } }

/-- A thread whose fail flag is set. -/
def Thread.ffSet (t : Thread) : Thread := { t with ff := true }

theorem matchLate_site : InSite Thread.matchLate := fun _ => ⟨rfl, rfl⟩
theorem failSeen_site : InSite Thread.failSeen := fun _ => ⟨rfl, rfl⟩
theorem ffSet_site : InSite Thread.ffSet := fun _ => ⟨rfl, rfl⟩

/-- A MATCH that has timed out sets the flags, or leaves them. -/
def Dev.flagged (d : Dev) (l : Nat) (fail : Bool) : Dev := if fail then d.setFlags l else d

theorem Turns.flagged {l : Nat} {f : Thread → Thread} {d e : Dev} (x : Turns l f d e) (al : d.alone l) (fail : Bool) :
    ∃ g, Turns l g d (e.flagged l fail) ∧ ∀ t, g t = if fail then (f t).failSeen.ffSet else f t := by
  cases fail with
  | true => exact ⟨_, (x.modSite al failSeen_site).modSite al ffSet_site, fun _ => rfl⟩
  | false => exact ⟨f, x, fun _ => rfl⟩

/-- What a MATCH of the queue asks for at its timeout. -/
def Thread.toFail (t : Thread) : Bool := match t.ctx.queue with | _ :: (.matchEnd f, _) :: _ => f | _ => false

theorem match_times_out {e : QEntry × Nat} {rest : List (QEntry × Nat)} {at_ : Nat} (plays : s.dev.plays th.toNat e rest)
    (place : s.dev.matchPlace th.toNat false = some at_) :
    ∃ t, exec (.matchTimeout th) s = .next t ∧ Keeps [.seq] s t ∧ (t.dev.thread th.toNat).next = at_ ∧
      (t.dev.thread th.toNat).ctx.matched = false ∧ (t.dev.thread th.toNat).ctx.queue = rest.tail ∧
      (t.dev.thread th.toNat).segStat.matchTo = true := by
  let fail := ((s.dev.advance at_).thread th.toNat).toFail
  obtain ⟨g, start, same⟩ := ((turns_advance th.toNat s.dev at_).modThread matchLate_site).flagged plays.alone fail
  have x := (((start.modSite plays.alone popped_site).modSite plays.alone popped_site).modSite plays.alone
    (matchOver_site at_ false)).modSite plays.alone (waited_site at_ (some false))
  have runs : exec (.matchTimeout th) s = .next { s with dev := ((s.dev.advance at_).endMatch th.toNat at_ false).commit } := by
    refine (onDev_runs ?_ : execMatchTimeout th s = _)
    dsimp only
    rw [if_neg (plays_goes plays), place]
    exact due_of_no_rewind plays.rewind _ _
  have ends : (s.dev.advance at_).endMatch th.toNat at_ false = (((((((s.dev.advance at_).modThread th.toNat Thread.matchLate).flagged
      th.toNat fail).modSite th.toNat Thread.popped).modSite th.toNat Thread.popped).modSite th.toNat
        (Thread.matchOver at_ false)).modSite th.toNat (Thread.waited at_ (some false))) := rfl
  rw [ends] at runs
  generalize Dev.modSite _ _ (Thread.waited at_ (some false)) = y at *
  have queue : (s.dev.thread th.toNat).ctx.queue.tail.tail = rest.tail := by rw [plays.queue, List.tail_cons]
  refine ⟨_, runs, keeps_commit x.frame, ?_, ?_, ?_, ?_⟩
  all_goals
    dsimp only
    rw [commit_thread, x.thread]
    dsimp only [Function.comp]
    rw [same]
  · rfl
  · rfl
  · cases fail <;> exact queue
  · cases fail <;> rfl

/-! ### WAITT (R175) -/

/-- A thread whose next vector has its place. -/
def Thread.placed (at_ : Nat) (t : Thread) : Thread := { t with next := at_ }

theorem placed_site (at_ : Nat) : InSite (Thread.placed at_) := fun _ => ⟨rfl, rfl⟩

theorem waitt_releases {off r : Nat} {rest : List (QEntry × Nat)} (plays : s.dev.plays th.toNat (.waitt off, r) rest)
    (early : (s.dev.thread th.toNat).entryStart r ≤ (s.dev.thread th.toNat).segStat.start + off) :
    ∃ t, exec (.waittRelease th) s = .next t ∧ Keeps [.seq] s t ∧ (t.dev.thread th.toNat).ctx.queue = rest ∧
      (t.dev.thread th.toNat).next = (s.dev.thread th.toNat).segStat.start + off ∧
      (t.dev.thread th.toNat).segStat.lateWait = (s.dev.thread th.toNat).segStat.lateWait := by
  generalize at_eq : (s.dev.thread th.toNat).segStat.start + off = at_ at early ⊢
  let z := (s.dev.thread th.toNat).entryStart r
  have x := ((((turns_advance th.toNat s.dev at_).modSite plays.alone (dispatched_site z)).modSite plays.alone popped_site).modSite plays.alone
    (placed_site at_)).modSite plays.alone (waited_site at_ none)
  have runs : exec (.waittRelease th) s = .next { s with dev := (((((s.dev.advance at_).modSite th.toNat (Thread.dispatched z)).modSite th.toNat
      Thread.popped).modSite th.toNat (Thread.placed at_)).modSite th.toNat (Thread.waited at_ none)).commit } := by
    have goes := plays_goes plays
    refine (onDev_runs ?_ : execWaittRelease th s = _)
    dsimp only
    rw [plays.queue]
    dsimp only
    rw [if_neg goes, at_eq, if_neg (by omega), due_of_no_rewind plays.rewind, startEntry_eq]
    rfl
  generalize Dev.modSite _ _ (Thread.waited at_ none) = y at *
  have queue : (s.dev.thread th.toNat).ctx.queue.tail = rest := by rw [plays.queue, List.tail_cons]
  refine ⟨_, runs, keeps_commit x.frame, ?_, ?_, ?_⟩
  all_goals
    dsimp only
    rw [commit_thread, x.thread]
  · exact queue
  · rfl
  · rfl

end

/-! ### Resume (R178) -/

section
variable {s : State} {th : BitVec 6} (al : s.dev.alone th.toNat) (rewind : s.dev.tl.rewind = none)

/-- A thread that plays again from a stamp. -/
def Thread.resumed (at_ : Nat) (t : Thread) : Thread :=
  { t with st := .run, next := at_, resumeAt := none, ctx := { t.ctx with clock := max t.ctx.clock (clockOf at_) } }

/-- A thread that adds a pause to its flow. -/
def Thread.pausedFor (n : Nat) (t : Thread) : Thread := { t with flow := { t.flow with paused := t.flow.paused + n } }

theorem resumed_site (at_ : Nat) : InSite (Thread.resumed at_) := fun _ => ⟨rfl, rfl⟩
theorem pausedFor_site (n : Nat) : InSite (Thread.pausedFor n) := fun _ => ⟨rfl, rfl⟩

/-- A command whose threads have all resumed is no longer scheduled. -/
def Dev.resumeTaken (d : Dev) (g : Tag) : Dev :=
  if (List.range 64).any fun k => (d.thread k).resumeAt.any fun r => r.1 == g then d else d.dropAct g .seqResume

theorem resumeTaken_keeps (d : Dev) (g : Tag) (l : Nat) : SameBut [.tl] d (d.resumeTaken g) ∧ (d.resumeTaken g).thread l = d.thread l := by
  unfold Dev.resumeTaken
  split
  exacts [⟨.refl _ d, rfl⟩, ⟨dropAct_keeps d g _, rfl⟩]

theorem endUnit_thread (d : Dev) (g : Tag) (u l : Nat) : (d.endUnit g u).thread l = d.thread l := thread_of_seq (Dev.endUnit_seq d g u) l

include al rewind

theorem thread_resumes {tag : Tag} {st : Nat} (held : (s.dev.thread th.toNat).st = .hold)
    (resume : (s.dev.thread th.toNat).resumeAt = some (tag, s.dev.tl.epoch, st)) (chosen : (s.dev.thread th.toNat).chosen = none) :
    ∃ t, exec (.threadResume th) s = .next t ∧ Keeps [.seq, .tl] s t ∧ (t.dev.thread th.toNat).st = .run ∧
      (t.dev.thread th.toNat).next = st ∧ (t.dev.thread th.toNat).resumeAt = none := by
  have x := ((turns_advance th.toNat s.dev st).modSite al (resumed_site st)).modThread
    (pausedFor_site (st - (s.dev.thread th.toNat).heldAt))
  have runs : exec (.threadResume th) s = .next { s with dev := (((((s.dev.advance st).modSite th.toNat (Thread.resumed st)).modThread th.toNat
      (Thread.pausedFor (st - (s.dev.thread th.toNat).heldAt))).resumeTaken tag).endUnit tag th.toNat).commit } := by
    refine (onDev_runs ?_ : execThreadResume th s = _)
    dsimp only
    rw [resume]
    dsimp only
    rw [if_neg (by rw [held, al.notLead]; simp), due_of_no_rewind rewind, chosen]
    rfl
  generalize Dev.modThread _ _ (Thread.pausedFor _) = y at *
  obtain ⟨frame, same⟩ := resumeTaken_keeps y tag th.toNat
  have final := endUnitAt_keeps [.seq, .tl] (y.resumeTaken tag) tag th.toNat (y.resumeTaken tag).tl.now
  refine ⟨_, runs, keeps_commit ((x.frame.mono (by simp)).trans ((frame.mono (by simp)).trans final)), ?_, ?_, ?_⟩
  all_goals
    dsimp only
    rw [commit_thread, endUnit_thread, same, x.thread]
    rfl

end

/-! ### Holds (R178) -/

theorem takeDriver_parkHeld (d : Dev) (ch k : Nat) : ((d.takeDriver ch).chan k).parkHeld = (d.chan k).parkHeld := by
  unfold Dev.takeDriver
  cases (d.chan ch).drvPend with
  | none => rfl
  | some p =>
    refine (congrArg Chan.parkHeld (chan_of_pins (Dev.endUnitAt_pins _ _ _ _) k)).trans ?_
    by_cases own : k = ch
    · rw [own, modChan_chan_self]
    · rw [modChan_chan_of_ne _ own]

/-- The driver settings of a site that wait for a vector boundary take effect. -/
def Dev.takeDrivers (d : Dev) (l : Nat) : Dev := (d.siteChans l).foldl (fun d ch => d.takeDriver ch) d

/-- What the driver settings of a site leave. -/
theorem takeDrivers_leaves (d : Dev) (l : Nat) : SameBut [.pins] d (d.takeDrivers l) ∧ (d.takeDrivers l).tl = d.tl ∧
    (d.takeDrivers l).seq = d.seq ∧ ∀ k, ((d.takeDrivers l).chan k).parkHeld = (d.chan k).parkHeld :=
  ⟨SameBut.foldl (fun d ch => (takeDriver_pinStep d ch).keeps) _ _, foldl_leaves Dev.tl (fun d ch => (takeDriver_pinStep d ch).tl) _ _,
    foldl_leaves Dev.seq takeDriver_seq _ _, fun k => foldl_leaves (fun d => (d.chan k).parkHeld) (fun d ch => takeDriver_parkHeld d ch k) _ _⟩

/-- A thread that the host's hold has reached. -/
def Thread.heldNow (now : Nat) (t : Thread) : Thread := { t with
  st := .hold, heldAt := if t.st.isHeld then t.heldAt else now, causes := t.causes.filter (· == .stop), latch := none
  poison := t.poison || false, ctx := t.ctx }

/-- A thread of which other commands wait for a hold. -/
def Thread.holders (tags : List Tag) (t : Thread) : Thread := { t with holdTags := tags }

theorem heldNow_site (now : Nat) : InSite (Thread.heldNow now) := fun _ => ⟨rfl, rfl⟩
theorem holders_site (tags : List Tag) : InSite (Thread.holders tags) := fun _ => ⟨rfl, rfl⟩

/-- A SEQ.HOLD that a thread has reached is done there. -/
def Dev.holdDone (l : Nat) (d : Dev) (g : Tag) : Dev :=
  (d.modJob g fun j => { j with vals := j.vals.set 0 l d.tl.now }).endUnit g l

theorem holdDone_keeps (l : Nat) (d : Dev) (g : Tag) : SameBut [.seq] d (d.holdDone l g) :=
  (sameBut_of_core (by rfl) _).trans (endUnitAt_keeps _ (d.modJob g fun j => { j with vals := j.vals.set 0 l d.tl.now }) _ _ _)

theorem endHolds_turns (d : Dev) (l : Nat) : ∃ tags, Turns l (Thread.holders tags) d (d.endHolds l) := by
  obtain ⟨tags, holds, eq⟩ : ∃ tags, ∃ holds : List Tag, d.endHolds l = holds.foldl (Dev.holdDone l) (d.modThread l (Thread.holders tags)) :=
    ⟨_, (d.thread l).holdTags.filter fun g => (d.flight g).any fun f => f.opcode == 0x0507, rfl⟩
  have thread := foldl_leaves (fun e => e.thread l) (fun e g => endUnit_thread _ g l l) holds (f := Dev.holdDone l)
    (d.modThread l (Thread.holders tags))
  rw [eq]
  exact ⟨tags, (modThread_keeps _ _ _).trans (SameBut.foldl (holdDone_keeps l) holds _),
    thread.trans (modThread_thread_self _ _ _), holders_site tags⟩

theorem settleStart_keeps (d : Dev) (g : Tag) : SameBut [.tl] d (d.settleStart g) := setTl_keeps _ _

/-- A site of one thread that the host's hold reaches, where no channel waits for its park. -/
theorem enterHeld_holds {d : Dev} {l : Nat} (al : d.alone l) (none_waits : ∀ ch ∈ d.chansOf l, (d.chan ch).parkHeld = false) :
    ∃ tags, SameBut [.seq, .tl] d (d.enterHeld l .hold false) ∧
      (d.enterHeld l .hold false).thread l = ((d.thread l).heldNow d.tl.now).holders tags := by
  have enters : d.enterHeld l .hold false =
      (((d.modSite l (Thread.heldNow d.tl.now)).endHolds l).parkWaiting l).settleStart
        ((d.modSite l (Thread.heldNow d.tl.now)).thread l).startTag := rfl
  rw [enters, al.modSite]
  generalize held_eq : d.modThread l (Thread.heldNow d.tl.now) = h
  have held : Turns l (Thread.heldNow d.tl.now) d h := held_eq ▸
    ⟨modThread_keeps _ _ _, modThread_thread_self _ _ _, heldNow_site _⟩
  obtain ⟨tags, x⟩ := endHolds_turns h l
  have pins : (h.endHolds l).pins = d.pins := ((held.frame.trans x.frame) .pins (by simp)).symm
  have calm : (h.endHolds l).parkWaiting l = h.endHolds l := by
    refine parkWaiting_of_none ?_
    rw [(x.alone (held.alone al)).siteChans, chansOf_of_groups (b := d) (by rw [x.thread, held.thread]; rfl)]
    intro ch mem
    rw [chan_of_pins pins]
    exact none_waits ch mem
  rw [calm]
  refine ⟨tags, ((held.frame.trans x.frame).mono (by simp)).trans ((settleStart_keeps _ _).mono (by simp)), ?_⟩
  exact x.thread.trans (congrArg (Thread.holders tags) held.thread)

section
variable {s : State} {th : BitVec 6} (al : s.dev.alone th.toNat) (rewind : s.dev.tl.rewind = none)

/-- What a host's hold waits for, where no entry of the queue waits. -/
theorem hold_due {d : Dev} {l : Nat} (causes : (d.thread l).causes = [.host]) (queue : (d.thread l).ctx.queue = []) : d.holdDue l = true := by
  rw [Dev.holdDue, Thread.stopped, causes, Dev.inPause, queue]
  rfl

/-- When a hold is taken. -/
def Thread.holdFrom (now : Nat) (t : Thread) : Nat :=
  if (t.vecEnd.any fun e => t.latch.all (· ≤ e)) = true then t.vecEnd.getD 0 else max t.next (clockOf now)

include al rewind

theorem hold_taken (st : (s.dev.thread th.toNat).st = .run) (causes : (s.dev.thread th.toNat).causes = [.host])
    (queue : (s.dev.thread th.toNat).ctx.queue = []) (none_waits : ∀ ch ∈ s.dev.chansOf th.toNat, (s.dev.chan ch).parkHeld = false) :
    ∃ t, exec (.holdEntry th) s = .next t ∧ Keeps [.seq, .pins, .tl] s t ∧ (t.dev.thread th.toNat).st = .hold ∧
      (t.dev.thread th.toNat).causes = [] ∧ (t.dev.thread th.toNat).pc = (s.dev.thread th.toNat).pc ∧
      (t.dev.thread th.toNat).next = (s.dev.thread th.toNat).next := by
  let z := (s.dev.thread th.toNat).holdFrom s.dev.tl.now
  have runs : exec (.holdEntry th) s = .next { s with dev := (((s.dev.advance z).takeDrivers th.toNat).enterHeld th.toNat .hold false).commit } := by
    refine (onDev_runs ?_ : execHoldEntry th s = _)
    dsimp only
    rw [if_neg (by rw [st, al.notLead, causes]; simp), if_pos (hold_due causes queue), due_of_no_rewind rewind, causes]
    rfl
  obtain ⟨frame, _, seq, parks⟩ := takeDrivers_leaves (s.dev.advance z) th.toNat
  generalize (s.dev.advance z).takeDrivers th.toNat = e at *
  have same : e.thread th.toNat = s.dev.thread th.toNat := thread_of_seq (seq.trans (Dev.advance_seq _ _)) _
  have alone : e.alone th.toNat := al.congr (by rw [same]) (by rw [same])
  obtain ⟨tags, held, thread⟩ := enterHeld_holds alone (by
    rw [chansOf_of_groups (b := s.dev) (by rw [same])]
    intro ch mem
    rw [parks, chan_of_pins (Dev.advance_pins _ _)]
    exact none_waits ch mem)
  refine ⟨_, runs, keeps_commit (((advance_keeps [.seq, .pins, .tl] s.dev z).trans (frame.mono (by simp))).trans (held.mono (by simp))), ?_⟩
  dsimp only
  rw [commit_thread, thread, same]
  refine ⟨rfl, ?_, rfl, rfl⟩
  change (s.dev.thread th.toNat).causes.filter (· == .stop) = []
  rw [causes]
  rfl

end

/-! ### Gaps of an underrun (R179, R180) -/

/-- A thread whose gap has ended. -/
def Thread.gapEnded (g ended : Nat) (t : Thread) : Thread := { t with
  flow := { t.flow with gaps := t.flow.gaps + 1, paused := t.flow.paused + (ended - g) }, gap := none, residentAt := none, heldAt := ended }

/-- A site that no longer waits for its page. -/
def Dev.gapUnwaited (d : Dev) (l : Nat) : Dev :=
  { d with pat := { d.pat with waiting := d.pat.waiting.filter fun w => !(d.site l).contains w.1.toNat } }

/-- One more underrun is counted. -/
def Dev.underrunCounted (d : Dev) : Dev := { d with seq := { d.seq with underruns := satAdd (2 ^ 32 - 1) d.seq.underruns 1 } }

theorem endGap_ends {d : Dev} {l g va : Nat} (al : d.alone l) (gap : (d.thread l).gap = some (g, va)) (ended : Nat) (aborted : Bool) :
    SameBut [.seq, .pat] d (d.endGap l ended aborted) ∧ (d.endGap l ended aborted).thread l = (d.thread l).gapEnded g ended ∧
      (d.endGap l ended aborted).seq.underruns = satAdd (2 ^ 32 - 1) d.seq.underruns 1 := by
  obtain ⟨p, i, eq⟩ : ∃ p i, d.endGap l ended aborted = (((((d.gapUnwaited l).packet p).underrunCounted).pushLog i).modThread l
      fun t => { t with flow := { t.flow with gaps := t.flow.gaps + 1, paused := t.flow.paused + (ended - g) } }).modSite l
        fun t => { t with gap := none, residentAt := none, heldAt := ended } := by
    unfold Dev.endGap
    dsimp only
    rw [gap]
    exact ⟨_, _, rfl⟩
  rw [eq]
  generalize counted_eq : (((d.gapUnwaited l).packet p).underrunCounted).pushLog i = e
  have frame : SameBut [.seq, .pat] d e := by
    subst counted_eq
    exact ((((setPat_keeps d _).mono (by simp)).trans (packet_keeps _ _ _)).trans ((setSeq_keeps _ _).mono (by simp))).trans
      (pushLog_keeps _ _ _)
  have same : e.thread l = d.thread l := by
    subst counted_eq
    rfl
  have counted : e.seq.underruns = satAdd (2 ^ 32 - 1) d.seq.underruns 1 := by
    subst counted_eq
    rfl
  let flowed : Thread → Thread := fun t => { t with
    flow := { t.flow with gaps := t.flow.gaps + 1, paused := t.flow.paused + (ended - g) } }
  have x : Turns l flowed e (e.modThread l flowed) := ⟨modThread_keeps _ _ _, modThread_thread_self _ _ _, fun _ => ⟨rfl, rfl⟩⟩
  have alone : e.alone l := al.congr (by rw [same]) (by rw [same])
  have y := x.modSite alone (g := fun t => { t with gap := none, residentAt := none, heldAt := ended }) fun _ => ⟨rfl, rfl⟩
  refine ⟨frame.trans (y.frame.mono (by simp)), ?_, ?_⟩
  · rw [y.thread, same]
    rfl
  · rw [(x.alone alone).modSite]
    exact counted

/-! ### The end of a segment leaves its gap -/

/-- What the end of a segment leaves, beside the site's extent. -/
def Dev.gapView (l : Nat) (d : Dev) : Pins × Option (Nat × Nat) := (d.pins, (d.thread l).gap)

theorem gapView_of {l : Nat} {d e : Dev} (pins : e.pins = d.pins) (thread : e.thread l = d.thread l) : e.gapView l = d.gapView l := by
  rw [Dev.gapView, pins, thread]
  rfl

theorem modThread_gapView (l : Nat) (d : Dev) {f : Thread → Thread} (gap : ∀ t, (f t).gap = t.gap) :
    (d.modThread l f).gapView l = d.gapView l := by
  rw [Dev.gapView, modThread_thread_self, gap]
  rfl

theorem finishes_gapView (l : Nat) (c : Cpl) (gs : List Tag) (d : Dev) : (gs.foldl (fun d g => d.finish g c) d).gapView l = d.gapView l :=
  foldl_leaves (Dev.gapView l) (fun d g => gapView_of (Dev.finish_pins d g c) (finish_thread d g c l)) gs d

theorem dropJump_gapView (l : Nat) (d : Dev) : (d.dropJump l).gapView l = d.gapView l :=
  (finishes_gapView l _ _ _).trans (modThread_gapView l d (f := fun t => { t with jump := none, jumpTaken := none }) fun _ => rfl)

theorem segRecord_gapView (l : Nat) (d : Dev) (e : Nat) (n : BitVec 12) (c : Nat) (f g : Bool) : (d.segRecord l e n c f g).gapView l = d.gapView l := by
  unfold Dev.segRecord
  split
  · exact gapView_of (Dev.packet_pins _ _) rfl
  · rfl

theorem freeTiles_gapView (l : Nat) (d : Dev) : (d.freeTiles l).gapView l = d.gapView l :=
  foldl_leaves (Dev.gapView l) (fun d t => gapView_of (Dev.modBank_pins d (t / 4) _) rfl) _ d

theorem foldSeg_gap (t : Thread) (f : Bool) : (t.foldSeg f).gap = t.gap := by
  unfold Thread.foldSeg
  split <;> rfl

/-- A thread whose dead time begins. -/
def Thread.deadNow (z : Nat) (ended : Option Nat) (t : Thread) : Thread := { t with
  st := .dead, deadEnd := z + 2048, ended := ended.isSome
  flow := match ended with | some c => { t.flow with endCode := BitVec.ofNat 3 c } | none => t.flow
  stopAt := none, waitEnd := none, ctx := t.ctx.drop }

theorem beginDead_gapView {d : Dev} {l z : Nat} (al : d.alone l) (ended : Option Nat) : (d.beginDead l z ended).gapView l = d.gapView l := by
  by_cases e : ended.getD 0 = 0
  · have begins : d.beginDead l z ended = d.modSite l (Thread.deadNow z ended) := by
      unfold Dev.beginDead
      rw [if_pos e]
      rfl
    rw [begins, al.modSite]
    exact modThread_gapView l d (f := Thread.deadNow z ended) fun _ => rfl
  · have begins : d.beginDead l z ended = (d.dropJump l).modSite l (Thread.deadNow z ended) := by
      unfold Dev.beginDead
      rw [if_neg e]
      rfl
    rw [begins, ((siteStep_dropJump l d).alone al).modSite]
    exact (modThread_gapView l (d.dropJump l) (f := Thread.deadNow z ended) fun _ => rfl).trans (dropJump_gapView l d)

theorem closeSegment_gapView {d : Dev} {l : Nat} (al : d.alone l) (z va : Nat) (jump : Option Jump) (next : Option (BitVec 12)) :
    (d.closeSegment l z va jump next).gapView l = d.gapView l := by
  unfold Dev.closeSegment
  cases next with
  | none => exact beginDead_gapView al _
  | some seg =>
    dsimp only
    split
    · cases jump with
      | none =>
        dsimp only
        rw [al.modSite]
        have step := siteStep_modThread l d (f := fun x => { x with chosen := some seg }) rfl rfl
        exact (beginDead_gapView (step.alone al) _).trans (modThread_gapView l d fun _ => rfl)
      | some j =>
        dsimp only
        have step := siteStep_modThread l d (f := fun x => { x with jump := none, jumpTaken := j.tag }) rfl rfl
        rw [(step.alone al).modSite]
        have chosen := step.trans (siteStep_modThread l _ (f := fun x => { x with chosen := some seg }) rfl rfl)
        exact (beginDead_gapView (chosen.alone al) _).trans ((modThread_gapView l _ (f := fun x => { x with chosen := some seg })
          fun _ => rfl).trans (modThread_gapView l d (f := fun x => { x with jump := none, jumpTaken := j.tag }) fun _ => rfl))
    · generalize posted_eq : d.postAt (threadSource l) 3 [va, 0] d.tl.epoch z d.tl.tq = a
      have same : a.thread l = d.thread l := posted_eq ▸ postAt_thread _ _ _ _ _ _ _ _
      have alone : ({ a with seq := { a.seq with progErrs := satAdd (2 ^ 32 - 1) a.seq.progErrs 1 } } : Dev).alone l :=
        al.congr (congrArg Thread.lead same) (congrArg Thread.members same)
      exact (beginDead_gapView alone _).trans (gapView_of (posted_eq ▸ Dev.postAt_pins _ _ _ _ _ _ _) same)

theorem endSegment_gapView {d : Dev} {l : Nat} (al : d.alone l) (z : Nat) (abort : Bool) : (d.endSegment l z abort).gapView l = d.gapView l := by
  obtain ⟨n, c, f, g, x, jump, next, closes⟩ := endSegment_closes d l z abort
  rw [closes]
  have folded := ((siteStep_segRecord l d z n c f g).trans (siteStep_modThread l _ (f := fun t => t.foldSeg x) (foldSeg_lead _ _)
    (foldSeg_members _ _))).trans (siteStep_freeTiles l l _)
  exact (closeSegment_gapView (folded.alone al) _ _ _ _).trans ((freeTiles_gapView l _).trans
    ((modThread_gapView l _ fun t => foldSeg_gap t x).trans (segRecord_gapView l d z n c f g)))

/-! ### The events of a gap -/

section
variable {s : State} {th : BitVec 6} (al : s.dev.alone th.toNat) (rewind : s.dev.tl.rewind = none)

/-- A thread that plays again once its page is there. -/
def Thread.gapResumed (at_ : Nat) (t : Thread) : Thread :=
  { t with st := .run, next := at_, ctx := { t.ctx with clock := max t.ctx.clock (clockOf at_) } }

/-- A thread whose segment is aborted. -/
def Thread.segAborted (t : Thread) : Thread := { t with segStat := { t.segStat with aborted := true } }

include al rewind

theorem underrun_resumes {g : Nat × Nat} {r : Nat} (st : (s.dev.thread th.toNat).st = .underrun) (gap : (s.dev.thread th.toNat).gap = some g)
    (goes : descUrAbort ((s.dev.thread th.toNat).desc (s.dev.thread th.toNat).seg) = false)
    (resident : (s.dev.thread th.toNat).residentAt = some r) :
    ∃ t, exec (.underrunResume th) s = .next t ∧ Keeps [.seq, .pat] s t ∧ (t.dev.thread th.toNat).st = .run ∧
      (t.dev.thread th.toNat).next = roundUp (r + 2048) 1024 ∧ (t.dev.thread th.toNat).gap = none ∧
      t.dev.seq.underruns = min (2 ^ 32 - 1) (s.dev.seq.underruns + 1) := by
  generalize at_eq : roundUp (r + 2048) 1024 = at_
  have runs : exec (.underrunResume th) s = .next { s with dev :=
      (((s.dev.advance at_).endGap th.toNat at_ false).modSite th.toNat (Thread.gapResumed at_)).commit } := by
    refine (onDev_runs ?_ : execUnderrunResume th s = _)
    dsimp only
    rw [resident]
    dsimp only
    rw [if_neg (by rw [st, al.notLead, goes]; simp), show roundUp (r + 2 * grainSteps) grainSteps = at_ from at_eq]
    exact due_of_no_rewind rewind _ _
  have same : (s.dev.advance at_).thread th.toNat = s.dev.thread th.toNat := thread_of_seq (Dev.advance_seq _ _) _
  have later : (s.dev.advance at_).alone th.toNat := al.congr (by rw [same]) (by rw [same])
  obtain ⟨frame, thread, counted⟩ := endGap_ends later (same ▸ gap) at_ false
  have alone : ((s.dev.advance at_).endGap th.toNat at_ false).alone th.toNat := later.congr (by rw [thread]; rfl) (by rw [thread]; rfl)
  rw [alone.modSite] at runs
  generalize (s.dev.advance at_).endGap th.toNat at_ false = e at *
  refine ⟨_, runs, keeps_commit (((advance_keeps _ s.dev at_).trans frame).trans ((modThread_keeps e th.toNat _).mono (by simp))), ?_, ?_, ?_, ?_⟩
  · dsimp only
    rw [commit_thread, modThread_thread_self]
    rfl
  · dsimp only
    rw [commit_thread, modThread_thread_self]
    rfl
  · dsimp only
    rw [commit_thread, modThread_thread_self, thread]
    rfl
  · dsimp only
    rw [satAdd, Dev.advance_seq] at counted
    rw [commit_seq]
    exact counted

theorem underrun_aborts {g : Nat × Nat} (st : (s.dev.thread th.toNat).st = .underrun) (gap : (s.dev.thread th.toNat).gap = some g)
    (aborts : descUrAbort ((s.dev.thread th.toNat).desc (s.dev.thread th.toNat).seg) = true) :
    ∃ t, exec (.underrunAbort th) s = .next t ∧ Keeps [.seq, .banks, .pat] s t ∧ (t.dev.thread th.toNat).st = .dead ∧
      (t.dev.thread th.toNat).deadEnd = roundUp (g.1 + 1) 1024 + 2048 ∧ (t.dev.thread th.toNat).gap = none := by
  generalize at_eq : roundUp (g.1 + 1) 1024 = at_
  have runs : exec (.underrunAbort th) s = .next { s with dev := (((((s.dev.advance at_).endGap th.toNat at_ true).modSite th.toNat
      Thread.failSeen).modThread th.toNat Thread.segAborted).endSegment th.toNat at_ true).commit } := by
    refine (onDev_runs ?_ : execUnderrunAbort th s = _)
    dsimp only
    rw [gap]
    dsimp only
    rw [if_neg (by rw [st, al.notLead, aborts]; simp), show roundUp (g.1 + 1) grainSteps = at_ from at_eq]
    exact due_of_no_rewind rewind _ _
  have same : (s.dev.advance at_).thread th.toNat = s.dev.thread th.toNat := thread_of_seq (Dev.advance_seq _ _) _
  have later : (s.dev.advance at_).alone th.toNat := al.congr (by rw [same]) (by rw [same])
  obtain ⟨frame, thread, _⟩ := endGap_ends later (same ▸ gap) at_ true
  have alone : ((s.dev.advance at_).endGap th.toNat at_ true).alone th.toNat := later.congr (by rw [thread]; rfl) (by rw [thread]; rfl)
  rw [alone.modSite] at runs
  generalize (s.dev.advance at_).endGap th.toNat at_ true = e at *
  have x : Turns th.toNat Thread.failSeen e (e.modThread th.toNat Thread.failSeen) :=
    ⟨modThread_keeps _ _ _, modThread_thread_self _ _ _, failSeen_site⟩
  have y := x.modThread (g := Thread.segAborted) fun _ => ⟨rfl, rfl⟩
  generalize (e.modThread th.toNat Thread.failSeen).modThread th.toNat Thread.segAborted = b at *
  obtain ⟨step, dead⟩ := endSegment_dies (y.alone alone) at_ true
  have view := endSegment_gapView (y.alone alone) at_ true
  generalize b.endSegment th.toNat at_ true = c at *
  have pins : c.pins = b.pins := congrArg Prod.fst view
  have left : (c.thread th.toNat).gap = none := by
    refine (congrArg Prod.snd view).trans ?_
    change (b.thread th.toNat).gap = none
    rw [y.thread, thread]
    rfl
  have last : SameBut [.seq, .banks, .pat] b c := by
    intro part out
    by_cases own : part = .pins
    · subst own
      exact pins.symm
    · exact step.frame part (by simp at out ⊢; tauto)
  refine ⟨_, runs, keeps_commit (((advance_keeps _ s.dev at_).trans ((frame.trans (y.frame.mono (by simp))).mono (by simp))).trans last), ?_, ?_, ?_⟩
  all_goals
    dsimp only
    rw [commit_thread]
  · exact dead.st
  · exact dead.ends
  · exact left

end

end Sys2Proof.Machine

open Sys2Proof Sys2Proof.Machine

/-- Settles O45, by following each event of a site of one thread: what it leaves of the thread and of the other parts, where the end of a
segment is shown to leave the channels and the gap as they are. -/
theorem waitEvents : Obligations.WaitEvents :=
  ⟨fun _ _ => ⟨fun _ _ _ _ _ _ plays => jfail_decides plays, fun _ _ _ plays place => match_finds plays place,
      fun _ _ _ plays place => match_times_out plays place, fun _ _ _ plays early => waitt_releases plays early⟩,
    fun _ _ al rewind => ⟨fun st causes queue none_waits => hold_taken al rewind st causes queue none_waits,
      fun _ _ held resume chosen => thread_resumes al rewind held resume chosen,
      fun _ _ st gap => ⟨fun goes resident => underrun_resumes al rewind st gap goes resident, fun aborts => underrun_aborts al rewind st gap aborts⟩⟩⟩

end


section
/-!
PROOFS. The engine, the vector queue, judgement and line fetch of a site of one thread (R169, R182, R190 to R206).
-/
namespace Sys2Proof.Machine

/-! ### A report leaves the microcode -/

@[simp] theorem enterHeld_station (d : Dev) (lead : Nat) (st : ThState) (poison : Bool) : (d.enterHeld lead st poison).station = d.station := by
  unfold Dev.enterHeld
  dsimp only
  split <;> simp

@[simp] theorem reachCause_station (d : Dev) (t : Nat) (c : HoldCause) : (d.reachCause t c).station = d.station := by
  unfold Dev.reachCause
  dsimp only
  (repeat' split) <;> simp

@[simp] theorem poisonRing_station (d : Dev) (b r : Nat) : (d.poisonRing b r).station = d.station := by
  unfold Dev.poisonRing
  simp

theorem containBank_station (d : Dev) (b unit : Nat) : (d.containBank b unit).station = d.station := by
  have rings : ∀ t (e : Dev), (forEach (List.range 8) (fun r e =>
      if (e.ring (t / 4) r).owner = some (.thread (BitVec.ofNat 6 t)) then e.poisonRing (t / 4) r else e) e).station = e.station := fun t e =>
    forEach_station (fun r e => by split <;> simp) _ e
  have cut : ∀ e : Dev, (e.cutRun b).station = e.station := fun e => by simp [Dev.cutRun]
  unfold Dev.containBank
  dsimp only
  rw [cut]
  split
  · simp
  · split
    · split <;> simp
    · generalize (if unit / 256 = 2 then (d.sliceChan b (unit % 64)).bind d.ownerOf else some (unit % 64)) = x
      cases x with
      | none => rfl
      | some t => exact (reachCause_station _ _ _).trans (rings t d)

theorem enterDecaf_uc (d : Dev) (cause line : Nat) (noRamp : Bool) : (d.enterDecaf cause line noRamp).uc = d.uc := by
  have waits : ∀ e : Dev, e.clearWaits.uc = e.uc := fun e => by
    unfold Dev.clearWaits
    generalize List.range 128 = rings
    dsimp only
    exact forEach_leaves Dev.uc (fun i d => by split <;> rfl) rings e
  have of_station : ∀ e : Dev, e.station = ({ d with fc := { d.fc with decaf := some (d.decafBy cause line noRamp) } } : Dev).station →
      e.uc = d.uc := fun e same => congrArg (fun x => x.2.2.2.2) same
  by_cases decaf : d.fc.decaf.isSome = true
  · rw [enterDecaf_of_decaf decaf]
  · rw [Dev.enterDecaf, if_neg decaf]
    dsimp only
    rw [waits]
    exact of_station _ (by simp [Dev.decafBy])

/-- A report of a bank's line leaves the microcode. -/
theorem report_uc (d : Dev) {line : Nat} (bank : line < 16) (cls cause unit detail : Nat) : (d.report line cls cause unit detail).uc = d.uc := by
  have collected : (d.collect line cls cause unit detail).uc = d.uc := of_beside Dev.uc (fun _ => rfl) (collect_beside d line cls cause unit detail)
  unfold Dev.report
  dsimp only
  generalize d.collect line cls cause unit detail = e at *
  unfold Dev.react
  split
  · rw [if_neg (by omega)]
    exact collected
  · split
    · rw [Dev.contain, if_pos bank]
      exact (congrArg (fun x => x.2.2.2.2) (containBank_station e line unit)).trans collected
    · exact (enterDecaf_uc _ _ _ _).trans ((show (e.message 63).uc = e.uc from rfl).trans collected)

/-! ### What a microword leaves of the count of corrected words -/

theorem due_leaves {γ : Type} (v : Dev → γ) (advance : ∀ (d : Dev) n, v (d.advance n) = v d) {f : Dev → Dev} (h : ∀ d, v (f d) = v d)
    (d : Dev) (n : Nat) : v (d.due n f) = v d := by
  unfold Dev.due
  split
  · rfl
  · exact (h _).trans (advance _ _)

/-- The words corrected on read (P.0603). -/
def Dev.corrections (d : Dev) : Nat := d.uc.corrected

theorem corrections_of_uc {d e : Dev} (uc : e.uc = d.uc) : e.corrections = d.corrections := congrArg Uc.corrected uc

theorem spend_corrections (d : Dev) (m n : Nat) (safe : Bool) : (d.spend m n safe).corrections = d.corrections := by
  unfold Dev.spend
  cases safe <;> rfl

theorem modSite_uc (d : Dev) (l : Nat) (f : Thread → Thread) : (d.modSite l f).uc = d.uc :=
  congrArg (fun x => x.2.2.2.2) (modSite_station d l f)

/-- What a micro-operation leaves of a member's clock. -/
def Dev.flowSpent (z n : Nat) (safe : Bool) (d : Dev) (m : Nat) : Dev :=
  (d.modThread m fun t => { t with ctx := { t.ctx with clock := z } }).spend m n safe

/-- What a micro-operation queues. -/
def Dev.flowQueued (d : Dev) (l va z : Nat) (wait : Bool) (rs : List (Nat × FlowResult)) (fail : Option Nat) : Dev :=
  match fail with
  | some c => d.modSite l fun t => { t with ctx := { t.ctx with
      queue := t.ctx.queue ++ [(.progErr va c, z + 2 * clk)], waiting := true, active := false } }
  | none => rs.foldl (fun d r => match r.2 with
      | .ok (es, t) => d.modThread r.1 fun _ => { t with ctx := { t.ctx with
          queue := t.ctx.queue ++ es.map fun e => (e, z + 2 * clk), waiting := wait } }
      | .error _ => d) d

theorem pushFlow_cases (d : Dev) (l : Nat) (rs : List (Nat × FlowResult)) (cost : Nat) (wait safe : Bool) (va : Nat) :
    ∃ n z fail, d.pushFlow l rs cost wait safe va =
      if n > 4 then (d.site l).foldl (fun d m => d.spend m 0 true) d
      else ((d.flowQueued l va z wait rs fail).site l).foldl (Dev.flowSpent z cost safe) (d.flowQueued l va z wait rs fail) :=
  ⟨_, _, _, rfl⟩

theorem pushFlow_corrections (d : Dev) (l : Nat) (rs : List (Nat × FlowResult)) (cost : Nat) (wait safe : Bool) (va : Nat) :
    (d.pushFlow l rs cost wait safe va).corrections = d.corrections := by
  obtain ⟨n, z, fail, cases_⟩ := pushFlow_cases d l rs cost wait safe va
  rw [cases_]
  split
  · exact foldl_leaves Dev.corrections (fun d m => spend_corrections d m 0 true) _ d
  · refine (foldl_leaves Dev.corrections (f := Dev.flowSpent z cost safe) (fun d m => spend_corrections _ m cost safe) _ _).trans ?_
    unfold Dev.flowQueued
    cases fail with
    | some c => exact corrections_of_uc (modSite_uc d l _)
    | none => exact foldl_leaves Dev.corrections (fun d r => by split <;> rfl) rs d

theorem microSide_uc (d : Dev) (m : Nat) (w : BitVec 32) : (d.microSide m w).uc = d.uc := by
  unfold Dev.microSide
  dsimp only
  (repeat' split) <;> rfl

theorem microStep_corrections (d : Dev) (m : Nat) : (d.microStep m).corrections = d.corrections := by
  have moved : ∀ (e : Dev) n, (e.advance n).corrections = e.corrections := fun e n => corrections_of_uc (Dev.advance_uc e n)
  have waits : ∀ (n : Nat) (k : Bool) (ms : List Nat) (e : Dev), (ms.foldl (fun d m => d.spend m n k) e).corrections = e.corrections :=
    fun n k ms e => foldl_leaves Dev.corrections (fun d m => spend_corrections _ m n k) ms e
  unfold Dev.microStep
  dsimp only
  split
  · split
    · split
      · exact pushFlow_corrections _ _ _ _ _ _ _
      · split
        · split <;> exact waits _ _ _ _
        · exact due_leaves Dev.corrections moved (fun e => pushFlow_corrections _ _ _ _ _ _ _) d _
    · exact spend_corrections _ _ _ _
  · refine due_leaves Dev.corrections moved (fun e => ?_) d _
    split
    · exact pushFlow_corrections _ _ _ _ _ _ _
    · exact (spend_corrections _ _ _ _).trans (corrections_of_uc (microSide_uc _ _ _))

/-! ### Microwords (R190, R201) -/

section
variable {s : State} {th : BitVec 6} (al : s.dev.alone th.toNat) (rewind : s.dev.tl.rewind = none)

theorem engineStep_of_run {d : Dev} {m : Nat} (st : (d.thread m).st = .run) (causes : (d.thread m).causes = [])
    (going : (d.thread m).ctx.waiting = false) (active : (d.thread m).ctx.active = true) {check : WordCheck} (good : check ≠ .bad) :
    d.engineStep m check = (if check = .corrected then d.correctWord m else d).microStep m := by
  unfold Dev.engineStep
  dsimp only
  rw [st, causes, going, active]
  simp [good]

theorem corrected_counts (st : (s.dev.thread th.toNat).st = .run) (causes : (s.dev.thread th.toNat).causes = [])
    (going : (s.dev.thread th.toNat).ctx.waiting = false) (active : (s.dev.thread th.toNat).ctx.active = true) :
    ∃ t, exec (.microwordExecute ⟨th, .corrected⟩) s = .next t ∧ t.dev.uc.corrected = min (2 ^ 32 - 1) (s.dev.uc.corrected + 1) := by
  have runs : exec (.microwordExecute ⟨th, .corrected⟩) s = .next { s with dev := ((s.dev.correctWord th.toNat).microStep th.toNat).commit } := by
    refine (onDev_runs ?_ : execMicrowordExecute ⟨th, .corrected⟩ s = _)
    exact (engineStep_of_run st causes going active (show WordCheck.corrected ≠ .bad by decide)).trans (by rw [if_pos rfl])
  have counted : (s.dev.correctWord th.toNat).corrections = satAdd (2 ^ 32 - 1) s.dev.uc.corrected 1 :=
    corrections_of_uc (report_uc _ (by omega) _ _ _ _)
  have final := (microStep_corrections (s.dev.correctWord th.toNat) th.toNat).trans counted
  generalize (s.dev.correctWord th.toNat).microStep th.toNat = e at *
  refine ⟨_, runs, ?_⟩
  dsimp only
  rw [commit_uc]
  exact final

/-- A context that has loaded a register. -/
def Ctx.loaded (c : Ctx) (w : BitVec 32) : Ctx :=
  ({ c with upc := c.upc + 1 } : Ctx).setReg (mA w) (BitVec.ofNat 32 (bits w.toNat 0 20))

theorem microLocal_load {d : Dev} {m : Nat} {w : BitVec 32} (op : mop w = 0x08) : d.microLocal m w = some ((d.thread m).ctx.loaded w) := by
  unfold Dev.microLocal
  dsimp only
  rw [op]
  rfl

theorem microSide_load {d : Dev} {m : Nat} {w : BitVec 32} (op : mop w = 0x08) : d.microSide m w = d := by
  unfold Dev.microSide
  dsimp only
  rw [op]
  rfl

theorem spend_unsafe (d : Dev) (m n : Nat) (c : Ctx) :
    (d.modThread m fun t => { t with ctx := c }).spend m n false = (d.modThread m fun t => { t with ctx := c }).modThread m (fun t => { t with
      ctx := { t.ctx with clock := t.ctx.clock + n * clk, sinceSafe := c.sinceSafe + n, safe := false } }) := by
  unfold Dev.spend
  dsimp only
  rw [modThread_thread_self]
  rfl

include rewind

theorem load_steps {w : BitVec 32} (word : s.dev.microWord (s.dev.thread th.toNat).ctx.upc = w) (op : mop w = 0x08) :
    ∃ z, s.dev.microStep th.toNat = ((s.dev.advance z).modThread th.toNat fun t =>
      { t with ctx := (s.dev.thread th.toNat).ctx.loaded w }).spend th.toNat (mlen w) false := by
  refine ⟨(s.dev.thread th.toNat).ctx.clock, ?_⟩
  have same : (s.dev.advance (s.dev.thread th.toNat).ctx.clock).thread th.toNat = s.dev.thread th.toNat := thread_of_seq (Dev.advance_seq _ _) _
  unfold Dev.microStep
  dsimp only
  rw [word, if_neg (by rw [op]; decide), due_of_no_rewind rewind, microLocal_load op, same]
  dsimp only
  rw [microSide_load op, op]
  rfl

theorem load_loads {w : BitVec 32} (st : (s.dev.thread th.toNat).st = .run) (causes : (s.dev.thread th.toNat).causes = [])
    (going : (s.dev.thread th.toNat).ctx.waiting = false) (active : (s.dev.thread th.toNat).ctx.active = true)
    (word : s.dev.microWord (s.dev.thread th.toNat).ctx.upc = w) (op : mop w = 0x08) (reg : mA w ≠ 0) :
    ∃ t, exec (.microwordExecute ⟨th, .good⟩) s = .next t ∧ Keeps [.seq] s t ∧
      (t.dev.thread th.toNat).ctx.reg (mA w) = BitVec.ofNat 32 (bits w.toNat 0 20) ∧
      (t.dev.thread th.toNat).ctx.upc = (s.dev.thread th.toNat).ctx.upc + 1 ∧
      (t.dev.thread th.toNat).ctx.clock = (s.dev.thread th.toNat).ctx.clock + mlen w * clk ∧
      (t.dev.thread th.toNat).pc = (s.dev.thread th.toNat).pc := by
  have runs : exec (.microwordExecute ⟨th, .good⟩) s = .next { s with dev := (s.dev.microStep th.toNat).commit } := by
    refine (onDev_runs ?_ : execMicrowordExecute ⟨th, .good⟩ s = _)
    exact (engineStep_of_run st causes going active (show WordCheck.good ≠ .bad by decide)).trans
      (by rw [if_neg (show ¬ WordCheck.good = .corrected by decide)])
  obtain ⟨z, step⟩ := load_steps rewind word op
  rw [step, spend_unsafe] at runs
  have x := (turns_advance th.toNat s.dev z).modThread (g := fun t => { t with ctx := (s.dev.thread th.toNat).ctx.loaded w }) fun _ => ⟨rfl, rfl⟩
  have y := x.modThread (g := fun t => { t with ctx := { t.ctx with
    clock := t.ctx.clock + mlen w * clk, sinceSafe := ((s.dev.thread th.toNat).ctx.loaded w).sinceSafe + mlen w, safe := false } }) fun _ => ⟨rfl, rfl⟩
  generalize Dev.modThread _ _ _ = e at *
  have loaded : (s.dev.thread th.toNat).ctx.loaded w = { (s.dev.thread th.toNat).ctx with
      upc := (s.dev.thread th.toNat).ctx.upc + 1
      u := (s.dev.thread th.toNat).ctx.u.set 0 (mA w) (BitVec.ofNat 32 (bits w.toNat 0 20)) } := if_neg reg
  refine ⟨_, runs, keeps_commit y.frame, ?_⟩
  dsimp only
  rw [commit_thread, y.thread]
  dsimp only [Function.comp]
  rw [loaded]
  refine ⟨?_, rfl, rfl, rfl⟩
  unfold Ctx.reg
  rw [if_neg reg]
  exact (Tab.get_set _ _ _ _ _).trans (if_pos rfl)

end

/-! ### An entry that takes no vector (R191) -/

section
variable {s : State} {th : BitVec 6}

theorem lpaus_pauses {n r : Nat} {rest : List (QEntry × Nat)} {v : Nat × Nat} (plays : s.dev.plays th.toNat (.lpaus n, r) rest)
    (last : (s.dev.thread th.toNat).lastVec = some v) :
    ∃ t, exec (.vectorStart th) s = .next t ∧ Keeps [.seq] s t ∧ (t.dev.thread th.toNat).ctx.queue = rest ∧
      (t.dev.thread th.toNat).next = max (s.dev.thread th.toNat).next (v.1 + n) := by
  let z := (s.dev.thread th.toNat).entryStart r
  let at_ := max (s.dev.thread th.toNat).next (v.1 + n)
  have x := (((turns_advance th.toNat s.dev z).modSite plays.alone (dispatched_site z)).modSite plays.alone popped_site).modSite plays.alone
    (placed_site at_)
  have runs : exec (.vectorStart th) s = .next { s with dev := ((((s.dev.advance z).modSite th.toNat (Thread.dispatched z)).modSite th.toNat
      Thread.popped).modSite th.toNat (Thread.placed at_)).commit } := by
    refine (onDev_runs ?_ : execVectorStart th s = _)
    dsimp only
    rw [if_neg (by rw [plays.st, plays.alone.notLead, Thread.stopped, plays.causes]; simp), plays.queue]
    dsimp only
    rw [last, due_of_no_rewind plays.rewind, startEntry_eq]
    rfl
  generalize Dev.modSite _ _ (Thread.placed at_) = y at *
  have queue : (s.dev.thread th.toNat).ctx.queue.tail = rest := by rw [plays.queue, List.tail_cons]
  refine ⟨_, runs, keeps_commit x.frame, ?_, ?_⟩
  all_goals
    dsimp only
    rw [commit_thread, x.thread]
  · exact queue
  · rfl

end

/-! ### Judgement (R169, R182) -/

/-- What a sample of a ring leaves. -/
theorem drainLines_seq (d : Dev) (b r : Nat) : (d.drainLines b r).seq = d.seq := by
  unfold Dev.drainLines
  dsimp only
  split
  · rfl
  · exact forEach_leaves Dev.seq (fun i d => by (repeat' split) <;> rfl) _ d

theorem startRec_seq (d : Dev) (b r : Nat) (evs : List (BitVec 3 × Nat)) (back : Nat) (pause : Bool) : (d.startRec b r evs back pause).seq = d.seq := by
  unfold Dev.startRec
  dsimp only
  split
  · exact (drainLines_seq _ _ _).trans rfl
  · rfl

theorem preSample_seq (d : Dev) (b r t p : Nat) (here : List (BitVec 3 × Nat)) : (d.preSample b r t p here).seq = d.seq := by
  unfold Dev.preSample
  dsimp only
  split
  · rfl
  · exact (startRec_seq _ _ _ _ _ _).trans rfl

theorem applyLength_seq (d : Dev) (b r : Nat) : (d.applyLength b r).seq = d.seq := by
  unfold Dev.applyLength
  dsimp only
  cases (d.ring b r).pendLen with
  | none => rfl
  | some n =>
    cases (d.ring b r).pendTag with
    | none => rfl
    | some g => exact (show _ = (Dev.finish _ g {}).seq from rfl).trans (Dev.finish_seq _ _ _)

theorem takeSample_seq (d : Dev) (b r t p : Nat) (v : Int) (fail : Bool) (here : List (BitVec 3 × Nat)) (tq : BitVec 4) :
    (d.takeSample b r t p v fail here tq).seq = d.seq := by
  have stored : ∀ e : Dev, (e.storeSample b (d.ring b r) v).seq = e.seq := fun e => rfl
  have last : ∀ (c : Prop) [Decidable c] (e : Dev), (if c then e.applyLength b r else e).seq = e.seq := fun c _ e => by
    split
    exacts [applyLength_seq e b r, rfl]
  unfold Dev.takeSample
  dsimp only
  refine (last _ _).trans ?_
  cases (d.ring b r).cur with
  | none =>
    dsimp only
    split <;> simp [preSample_seq, stored]
  | some k =>
    dsimp only
    split <;> simp [drainLines_seq, stored]

theorem closeRec_seq (d : Dev) (b r z : Nat) (f : Rec → Rec) : (d.closeRec b r z f).seq = d.seq := by
  unfold Dev.closeRec Dev.askRun
  dsimp only
  (repeat' split) <;> rfl

theorem feedRing_seq (d : Dev) (b r src t p : Nat) (v : Int) : (d.feedRing b r src t p v).seq = d.seq := by
  unfold Dev.feedRing Dev.tapWord
  (repeat' split) <;> rfl

theorem sample_seq (d : Dev) (b r t p : Nat) (v : Int) (fail : Bool) (here : List (BitVec 3 × Nat)) (tq : BitVec 4) :
    (d.sample b r t p v fail here tq).seq = d.seq := by
  unfold Dev.sample
  dsimp only
  (repeat' split) <;> simp [takeSample_seq, closeRec_seq, feedRing_seq]

theorem sampleVector_seq (d : Dev) (m : Nat) (s : Strobe) (fs : List (Nat × Nat × Nat)) (pins : List (BitVec 9 × Int × Int)) :
    (d.sampleVector m s fs pins).seq = d.seq := by
  unfold Dev.sampleVector
  refine forEach_leaves Dev.seq (fun r e => ?_) _ d
  dsimp only
  split
  · rfl
  · split
    · exact sample_seq _ _ _ _ _ _ _ _ _
    · split
      · exact (sample_seq _ _ _ _ _ _ _ _ _).trans rfl
      · rfl

/-- A thread that notes a failing vector of its own. -/
def Thread.ownFail (t : Thread) : Thread := { t with ff := true, sf := true, segStat := { t.segStat with own := t.segStat.own + 1 } }

theorem noteFail_thread (d : Dev) (m : Nat) (s : Strobe) (fs : List (Nat × Nat × Nat)) : (d.noteFail m s fs).thread m = (d.thread m).ownFail := by
  unfold Dev.noteFail
  dsimp only
  refine (foldl_leaves (fun e => e.thread m) (fun e f => by rfl) fs _).trans ((modThread_thread_self _ _ _).trans ?_)
  refine congrArg Thread.ownFail ?_
  (repeat' split) <;> rfl

/-- The judgement of a vector's fails on one thread. -/
def Dev.vectorJudged (d : Dev) (m : Nat) (s : Strobe) (fs : List (Nat × Nat × Nat)) (pins : List (BitVec 9 × Int × Int)) : Dev :=
  (if fs = [] then d else d.noteFail m s fs).sampleVector m s fs pins

theorem vectorJudged_thread (d : Dev) (m : Nat) (s : Strobe) (fs : List (Nat × Nat × Nat)) (pins : List (BitVec 9 × Int × Int)) :
    (d.vectorJudged m s fs pins).thread m = if fs = [] then d.thread m else (d.thread m).ownFail := by
  unfold Dev.vectorJudged
  rw [thread_of_seq (sampleVector_seq _ _ _ _ _)]
  split
  · rfl
  · exact noteFail_thread d m s fs

/-- A thread whose oldest vector has been taken from its strobes. -/
def Thread.strobed (t : Thread) : Thread := { t with strobes := t.strobes.tail }

/-- A thread that counts a failing vector of its site. -/
def Thread.vectorFailed (z : Nat) (t : Thread) : Thread := { t with
  segStat := { t.segStat with
    fails := t.segStat.fails + 1, firstFail := some (t.segStat.firstFail.getD z), lastFail := some z }
  flow := { t.flow with fails := t.flow.fails + 1, firstFail := some (t.flow.firstFail.getD z) } }

theorem judge_eq {d : Dev} {l : Nat} (al : d.alone l) {v : Strobe} {rest : List Strobe} (strobes : (d.thread l).strobes = v :: rest)
    (plain : v.isMatch = false) (pins : List (BitVec 9 × Int × Int)) :
    d.judge l pins = if d.failsOf l v pins = [] then (d.modSite l Thread.strobed).vectorJudged l v (d.failsOf l v pins) pins
      else ((d.modSite l Thread.strobed).vectorJudged l v (d.failsOf l v pins) pins).modThread l (Thread.vectorFailed v.start) := by
  unfold Dev.judge
  rw [strobes]
  dsimp only
  rw [al.site, plain]
  simp only [List.filterMap_cons, List.filterMap_nil, strobes, List.head?_cons, Option.map_some, List.any_cons, List.any_nil, Bool.or_false,
    List.foldl_cons, List.foldl_nil]
  by_cases pass : d.failsOf l v pins = []
  · rw [pass]
    rfl
  · rw [if_neg pass]
    have fails : (d.failsOf l v pins != []) = true := by simpa using pass
    rw [if_neg (by decide), if_pos fails]
    rfl

theorem judge_thread {d : Dev} {l : Nat} (al : d.alone l) {v : Strobe} {rest : List Strobe} (strobes : (d.thread l).strobes = v :: rest)
    (plain : v.isMatch = false) (pins : List (BitVec 9 × Int × Int)) :
    (d.judge l pins).thread l = if d.failsOf l v pins = [] then (d.thread l).strobed
      else ((d.thread l).strobed.ownFail).vectorFailed v.start := by
  rw [judge_eq al strobes plain, al.modSite]
  by_cases pass : d.failsOf l v pins = []
  · rw [if_pos pass, if_pos pass, vectorJudged_thread, if_pos pass, modThread_thread_self]
  · rw [if_neg pass, if_neg pass, modThread_thread_self, vectorJudged_thread, if_neg pass, modThread_thread_self]

/-- The last stamp at which a vector of a site is compared. -/
def Dev.strobeEnd (d : Dev) (l : Nat) : Nat :=
  (d.site l).foldl (fun v m => match (d.thread m).strobes with
    | [] => v
    | x :: _ => (d.compares m x).foldl (fun v c => max v (d.strobeAt c.2.1 x)) (max v x.start)) 0

section
variable {s : State} {th : BitVec 6} (al : s.dev.alone th.toNat)
include al

theorem strobe_judges {v : Strobe} {rest : List Strobe} {pins : List (BitVec 9 × Int × Int)}
    (strobes : (s.dev.thread th.toNat).strobes = v :: rest) (good : s.dev.canJudge th.toNat pins = true) (plain : v.isMatch = false) :
    ∃ t, exec (.compareStrobe th pins) s = .next t ∧ (t.dev.thread th.toNat).strobes = rest ∧
      (s.dev.failsOf th.toNat v pins ≠ [] → (t.dev.thread th.toNat).ff = true ∧ (t.dev.thread th.toNat).sf = true ∧
        (t.dev.thread th.toNat).segStat.fails = (s.dev.thread th.toNat).segStat.fails + 1) ∧
      (s.dev.failsOf th.toNat v pins = [] → (t.dev.thread th.toNat).ff = (s.dev.thread th.toNat).ff ∧
        (t.dev.thread th.toNat).sf = (s.dev.thread th.toNat).sf) := by
  obtain ⟨z, runs⟩ : ∃ z, exec (.compareStrobe th pins) s = .next { s with dev := ((s.dev.advance z).judge th.toNat pins).commit } := by
    refine ⟨s.dev.strobeEnd th.toNat, (onDev_runs ?_ : execCompareStrobe th pins s = _)⟩
    dsimp only
    rw [if_neg (by rw [al.notLead, good]; simp)]
    rfl
  have same : (s.dev.advance z).thread th.toNat = s.dev.thread th.toNat := thread_of_seq (Dev.advance_seq _ _) _
  have fails : (s.dev.advance z).failsOf th.toNat v pins = s.dev.failsOf th.toNat v pins :=
    advance_reads (fun d => d.failsOf th.toNat v pins) (fun _ _ => rfl) _ _
  have judged := judge_thread (d := s.dev.advance z) (al.congr (by rw [same]) (by rw [same])) (same ▸ strobes) plain pins
  rw [same, fails] at judged
  generalize (s.dev.advance z).judge th.toNat pins = e at *
  have next : (s.dev.thread th.toNat).strobes.tail = rest := by rw [strobes, List.tail_cons]
  refine ⟨_, runs, ?_⟩
  dsimp only
  rw [commit_thread, judged]
  by_cases pass : s.dev.failsOf th.toNat v pins = []
  · rw [if_pos pass]
    exact ⟨next, fun f => absurd pass f, fun _ => ⟨rfl, rfl⟩⟩
  · rw [if_neg pass]
    exact ⟨next, fun _ => ⟨rfl, rfl, rfl⟩, fun p => absurd p pass⟩

end

/-! ### Line fetch (R206) -/

theorem tlbUse_keeps (d : Dev) (b v : Nat) : SameBut [.banks] d (d.tlbUse b v) := by
  unfold Dev.tlbUse
  cases d.tileOf b v with
  | none => exact .refl _ d
  | some k => exact modBank_keeps d b _

theorem tlbUse_portFree (d : Dev) (b v : Nat) : ((d.tlbUse b v).bank b).portFree = (d.bank b).portFree := by
  unfold Dev.tlbUse
  cases d.tileOf b v with
  | none => rfl
  | some k => exact (congrArg Bank.portFree (modBank_bank_self d b _)).trans rfl

section
variable {s : State} {th : BitVec 6} (rewind : s.dev.tl.rewind = none)

/-- A line prefetched into a thread's lines. -/
def Thread.fetched (wanted : List Nat) (line : Nat) (t : Thread) : Thread := { t with
  lines := ((line :: t.lines.filter (wanted.contains ·)) ++ t.lines.filter (!wanted.contains ·)).take 64 }

/-- A bank whose pattern port is taken by one of its threads. -/
def Bank.portTaken (z m : Nat) (x : Bank) : Bank := { x with portFree := z, portLast := BitVec.ofNat 2 (m % 4) }

/-- A tile that a thread uses. -/
def Tile.usedBy (m : Nat) (x : Tile) : Tile := { x with own := x.own ||| (1#4 <<< (m % 4)) }

include rewind

theorem line_fetched {line k : Nat} (wants : s.dev.prefetchLine th.toNat = some (line, k)) (turn : s.dev.portTurn (th.toNat / 4) = some th.toNat)
    (checked : (s.dev.tile (th.toNat / 4) k).checked = true) :
    ∃ t, exec (.prefetchRequest th) s = .next t ∧ Keeps [.seq, .banks] s t ∧
      (t.dev.thread th.toNat).lines.head? = some line ∧
      (t.dev.bank (th.toNat / 4)).portFree = clockOf (s.dev.advance (s.dev.bank (th.toNat / 4)).portFree).tl.now + 128 := by
  let d := s.dev.advance (s.dev.bank (th.toNat / 4)).portFree
  let z := clockOf d.tl.now + clk
  let b := ((d.modBank (th.toNat / 4) (Bank.portTaken z th.toNat)).modTile (th.toNat / 4) k (Tile.usedBy th.toNat)).tlbUse (th.toNat / 4) (pageOf (64 * line))
  have still : (b.tile (th.toNat / 4) k).checked = true := by
    rw [tlbUse_tile, tile_modTile_self, tile_modBank d _ (f := Bank.portTaken z th.toNat) fun _ => rfl]
    exact (congrArg Tile.checked (advance_reads (fun d => d.tile (th.toNat / 4) k) (fun _ _ => rfl) _ _)).trans checked
  have runs : exec (.prefetchRequest th) s =
      .next { s with dev := (b.modThread th.toNat (Thread.fetched (b.wantedLines th.toNat) line)).commit } := by
    refine (onDev_runs ?_ : execPrefetchRequest th s = _)
    dsimp only
    rw [wants]
    dsimp only
    rw [if_neg (by rw [turn]; simp), due_of_no_rewind rewind]
    exact if_pos still
  have free : (b.bank (th.toNat / 4)).portFree = z := by
    rw [tlbUse_portFree, Dev.modTile, modBank_bank_self, modBank_bank_self]
    rfl
  have frame : SameBut [.banks] d b := ((modBank_keeps _ _ _).trans (modBank_keeps _ _ _)).trans (tlbUse_keeps _ _ _)
  have start := advance_keeps [.seq, .banks] s.dev (s.dev.bank (th.toNat / 4)).portFree
  generalize b = e at *
  refine ⟨_, runs, keeps_commit ((start.trans (frame.mono (by simp))).trans ((modThread_keeps _ _ _).mono (by simp))), ?_, ?_⟩
  · dsimp only
    rw [commit_thread, modThread_thread_self]
    rfl
  · dsimp only
    rw [bank_of_banks (commit_banks _), bank_of_banks (show (e.modThread _ _).banks = e.banks from rfl)]
    exact free

end

end Sys2Proof.Machine

open Sys2Proof Sys2Proof.Machine

/-- Settles O44, by following each event on a site of one thread: a report is shown to leave the microcode, a sample the threads. -/
theorem engineEvents : Obligations.EngineEvents :=
  fun _ _ al rewind => ⟨fun _ st causes going active word op reg => ⟨corrected_counts st causes going active,
      load_loads rewind st causes going active word op reg⟩,
    fun _ _ _ _ plays last => lpaus_pauses plays last, fun _ _ _ strobes good plain => strobe_judges al strobes good plain,
    fun _ _ wants turn checked => line_fetched rewind wants turn checked⟩

end


section
/-!
PROOFS. The boot commands (R413 to R426): the journal read and cleared, an image taken in S3, the fuses, the health record, the spares.
-/
namespace Sys2Proof.Machine

section
variable {s : State} {h : Hdr} (i : Idle s h)

/-! ### The journal (R414 to R416) -/

theorem journal_bytes_length (j : Journal) : j.bytes.length = 128 := by
  have entries : ((List.range 12).flatMap fun k => leBytes 8 (j.entries.get {} k).word).length = 96 := by
    rw [List.length_flatMap]
    simp [leBytes_length]
  unfold Journal.bytes
  dsimp only
  simp only [List.length_append, leBytes_length, entries, List.length_cons, List.length_nil]

/-- A device whose journals are cleared. -/
def Dev.journalCleared (d : Dev) : Dev :=
  { d with journal := d.journal.cleared, board := { d.board with journal := d.board.journal.map (·.cleared) } }

theorem journalCleared_keeps (d : Dev) : SameBut [.journal, .board] d d.journalCleared := fun p out => by
  cases p <;> first | (simp at out; done) | rfl | exact Timeline.kept_refl _

include i

theorem bootJournal_answers : ∃ t, exec (.bootJournal h false true) s = .next t ∧ Keeps [] s t ∧
    Answers s t h 0x0F00 stOk (s.dev.journal.bytes.map fun b => (b.toNat : Int)) ∧ s.dev.journal.bytes.length = 128 := by
  have runs : exec (.bootJournal h false true) s = .next { s with dev :=
      ((s.dev.takenUp h 0x0F00).okResp h.tag (s.dev.journal.bytes.map fun b => (b.toNat : Int))).commit } := by
    refine (hostCmd_runs i 0x0F00 ?_ : execBootJournal h false true s = _)
    rw [← takenUp_reads Dev.journal (fun _ _ _ => rfl) (op := 0x0F00) (by decide) s.dev h]
    generalize s.dev.takenUp h 0x0F00 = d
    rfl
  exact ⟨_, runs, keeps_of_takenUp (by decide) (okResp_keeps _ _ _ _), answers_okResp i 0x0F00 _ _ rfl (.inl (by decide)),
    journal_bytes_length _⟩

theorem bootJournalClear_clears : ∃ t, exec (.bootJournalClear h) s = .next t ∧ Keeps [.journal, .board] s t ∧ Answers s t h 0x0F01 stOk [] ∧
    t.dev.journal.starts = 0 := by
  have runs : exec (.bootJournalClear h) s = .next { s with dev := ((s.dev.takenUp h 0x0F01).journalCleared.ok h.tag).commit } :=
    (hostCmd_runs i 0x0F01 rfl : execBootJournalClear h s = _)
  obtain ⟨keeps, answers⟩ := ok_ends i 0x0F01 (by decide) (d := (s.dev.takenUp h 0x0F01).journalCleared) rfl (journalCleared_keeps _)
  refine ⟨_, runs, keeps, answers, ?_⟩
  dsimp only
  rw [commit_journal, Dev.ok_journal]
  rfl

/-! ### The rollback counter and the spares (R420 to R426) -/

theorem rollback_runs {v : BitVec 8} (higher : s.fuses.rollback < v.toNat) (top : v.toNat ≤ 64) (running : v.toNat ≤ s.dev.boot.svn) :
    exec (.bootRollback h v) s = .next { s with
      dev := (((s.dev.takenUp h 0x0F03).okResp h.tag [(v.toNat : Int)]).post 610 2 [(v.toNat : Int)]).commit
      fuses := { s.fuses with rollback := v.toNat } } := by
  have svn : (s.dev.takenUp h 0x0F03).boot.svn = s.dev.boot.svn := takenUp_reads (fun d => d.boot.svn) (fun _ _ _ => rfl) (by decide) _ _
  change execBootRollback h v s = _
  unfold execBootRollback
  dsimp only
  rw [takeUp_idle i]
  dsimp only
  rw [svn, if_neg (by omega), if_neg (by omega)]

/-- An answer with an event behind it. -/
theorem okResp_posts {op : BitVec 16} (later : opClass op ≠ 0) (r : List Int) (n : op ≠ 0x0100 ∨ r = []) (a b : Nat) (x : List Int) :
    SameBut [] s.dev (((s.dev.takenUp h op).okResp h.tag r).post a b x).commit ∧
      Answers s { s with dev := (((s.dev.takenUp h op).okResp h.tag r).post a b x).commit } h op stOk r := by
  have accepted := accept_flights_newFlight (takenUp_flights i op)
  have kept := (takenUp_keeps [] s.dev h op later).trans (okResp_keeps [] (s.dev.takenUp h op) h.tag r)
  have ended : ((s.dev.takenUp h op).okResp h.tag r).ended _ := finish_ended_newFlight accepted { resp := r } (.inl rfl) rfl rfl
  have path : ((s.dev.takenUp h op).okResp h.tag r).cplPath = s.dev.cplPath :=
    (finish_cplPath_of accepted rfl _).trans ((accept_cplPath _ _).trans (takenUp_cplPath i op))
  generalize (s.dev.takenUp h op).okResp h.tag r = d at *
  have quiet : Quiet d (d.post a b x) := postAt_quiet _ _ _ _ _ _ _
  have posted := postAt_keeps [] d a b x d.tl.epoch d.tl.now d.tl.tq
  have tl : (d.post a b x).tl = d.tl := Dev.post_tl _ _ _ _
  exact ⟨(kept.trans posted).trans (sameBut_of_core (commit_core _) _),
    (ended.congr quiet.flights (by rw [tl]) (by rw [tl])).answers i (quiet.path.trans path) n⟩

theorem bootRollback_blows {v : BitVec 8} (higher : s.fuses.rollback < v.toNat) (top : v.toNat ≤ 64) (running : v.toNat ≤ s.dev.boot.svn) :
    ∃ t, exec (.bootRollback h v) s = .next t ∧ t.fuses = { s.fuses with rollback := v.toNat } ∧ t.straps = s.straps ∧
      t.pending = s.pending ∧ SameBut [] s.dev t.dev ∧ Answers s t h 0x0F03 stOk [(v.toNat : Int)] := by
  obtain ⟨keeps, c, out, fields⟩ := okResp_posts i (op := 0x0F03) (by decide) [(v.toNat : Int)] (.inl (by decide)) 610 2 [(v.toNat : Int)]
  have runs := rollback_runs i higher top running
  generalize Dev.commit _ = e at *
  exact ⟨_, runs, rfl, rfl, rfl, keeps, c, out, fields⟩

theorem bootRollback_denies {v : BitVec 8} (newer : s.dev.boot.svn < v.toNat) :
    ∃ t, exec (.bootRollback h v) s = .next t ∧ Keeps [] s t ∧ Answers s t h 0x0F03 stDenied [] := by
  have svn : (s.dev.takenUp h 0x0F03).boot.svn = s.dev.boot.svn := takenUp_reads (fun d => d.boot.svn) (fun _ _ _ => rfl) (by decide) _ _
  have runs : exec (.bootRollback h v) s = .next { s with dev := ((s.dev.takenUp h 0x0F03).refuse h.tag stDenied).commit } := by
    change execBootRollback h v s = _
    unfold execBootRollback
    dsimp only
    rw [takeUp_idle i]
    dsimp only
    rw [svn, if_pos newer]
  exact ⟨_, runs, refused_ends i 0x0F03 (by decide) stDenied 0 0 0⟩

/-- What the slice map says of a channel (R421). -/
def Dev.sliceInfo (d : Dev) (ch : Nat) : Int := if (d.chan ch).noSlice then -1 else ((d.chan ch).sliceOf ch : Int)

/-- What the spares' report says of the banks. -/
def Dev.bankSpares (d : Dev) : List Int :=
  ((match d.dsp.lsBank with | some b => (b.toNat : Int) | none => -1) :: (List.range 16).map fun b => rb (d.lane b).absent) ++
    (List.range 16).flatMap fun b =>
      [((d.bank b).sparesUsed : Int), (countCells (d.bank b).tiles (·.out) : Int), ((d.bank b).rows.length : Int), rb (d.bank b).degraded]

/-- What the spares' report says of the driver strings, the wear and the ports. -/
def Dev.stringSpares (d : Dev) : List Int :=
  ((List.range 128).map fun m => match d.boot.strings.get none m with
      | some x => ((x.1 * 8 + x.2.toNat : Nat) : Int)
      | none => (-1 : Int)) ++
    ((List.range 512).flatMap fun ch =>
      let c := d.chan ch
      [(c.dacFail.toNat : Int), rb c.pmuFail, rb c.swFail, rb c.pmu.second, (c.wear0 : Int), (c.wear1 : Int)]) ++
    ((List.range 4).map fun p => ((d.port p).badLanes.toNat : Int)) ++ d.boot.figures.flatMap fun f => [(f.1 : Int), f.2]

theorem bootSpares_reports : ∃ t r, exec (.bootSpares h) s = .next t ∧ Keeps [] s t ∧ Answers s t h 0x0F05 stOk r ∧
    ∀ ch, ch < 512 → r[ch]? = some (if (s.dev.chan ch).noSlice then -1 else ((s.dev.chan ch).sliceOf ch : Int)) := by
  have same : (s.dev.takenUp h 0x0F05).pins = s.dev.pins := takenUp_pins _ _ _
  have runs : exec (.bootSpares h) s = .next { s with dev := ((s.dev.takenUp h 0x0F05).okResp h.tag
      ((List.range 512).map (s.dev.takenUp h 0x0F05).sliceInfo ++
        ((s.dev.takenUp h 0x0F05).bankSpares ++ (s.dev.takenUp h 0x0F05).stringSpares))).commit } := by
    refine (hostCmd_runs i 0x0F05 ?_ : execBootSpares h s = _)
    generalize s.dev.takenUp h 0x0F05 = d
    dsimp only
    simp only [Dev.bankSpares, Dev.stringSpares, List.append_assoc]
    rfl
  refine ⟨_, _, runs, keeps_of_takenUp (by decide) (okResp_keeps _ _ _ _), answers_okResp i 0x0F05 _ _ rfl (.inl (by decide)), fun ch low => ?_⟩
  rw [List.getElem?_append_left (by rw [List.length_map, List.length_range]; exact low), List.getElem?_map, List.getElem?_range low, Option.map_some,
    Dev.sliceInfo, chan_of_pins same]

end

/-! ### An image in S3 (R413, R418) -/

/-- A command of the recovery function that is in flight alone is taken up where its meaning may begin. -/
theorem recovery_takeUp {s : State} {h : Hdr} {f : Flight} {op : BitVec 16} (later : opClass op ≠ 0) (flights : s.dev.ctl.flights = [f])
    (tag : f.tag = h.tag) (opcode : f.opcode = op) (origin : f.origin = .recovery) (fresh : f.accepted = false) (open_ : f.done = none)
    (targets : f.targets = []) (held : s.dev.ctl.heldCpl = []) (rsv : h.rsv = false) (normal : s.dev.fc.decaf = none) :
    s.dev.takeUp h op = .ok (s.dev.advance h.t) := by
  have there : (s.dev.advance h.t).flight h.tag = some f := by simp [Dev.flight, flights, tag, open_]
  have mine : (s.dev.advance h.t).isMine f = true := by simp [Dev.isMine, targets]
  have goes : (s.dev.advance h.t).mustWait h op = false := by
    have first : (s.dev.ctl.flights.takeWhile fun f => !(f.tag == h.tag && f.done == none)) = [] := by
      rw [flights, List.takeWhile_cons_of_neg (by simp [tag, open_])]
    have alone : acceptable [] s.dev.ctl.flights = [f] := by simp [flights, acceptable, fresh, open_, opcode, later]
    unfold Dev.mustWait
    dsimp only
    rw [Dev.advance_ctl, first, alone, held]
    simp [acceptable, opcode]
  have open_gate : (s.dev.advance h.t).gate .recovery h op = none := by simp [Dev.gate, normal, rsv]
  unfold Dev.takeUp
  dsimp only
  rw [there]
  dsimp only
  rw [if_neg (by rw [mine]; simp), if_neg (by simp [fresh, opcode]), if_neg (by rw [goes]; simp), origin, open_gate]
  dsimp only
  rw [if_neg (by simp), preempt_keeps _ op later]

theorem bootImage_taken {s : State} {h : Hdr} {f : Flight} {image : Bytes} (flights : s.dev.ctl.flights = [f]) (tag : f.tag = h.tag)
    (opcode : f.opcode = 0x0F02) (origin : f.origin = .recovery) (fresh : f.accepted = false) (open_ : f.done = none)
    (targets : f.targets = []) (held : s.dev.ctl.heldCpl = []) (rsv : h.rsv = false) (step : s.dev.inStep = true)
    (waits : s.dev.boot.waitImage = true) :
    ∃ t, exec (.bootImage h image) s = .next t ∧ t.dev.boot.step = 4 ∧ t.dev.boot.image = some image := by
  have normal : s.dev.fc.decaf = none := by
    unfold Dev.inStep at step
    simp only [Bool.and_eq_true, Option.isNone_iff_eq_none] at step
    exact step.2
  have inside : (s.dev.advance h.t).inStep = true := (advance_reads Dev.inStep (fun _ _ => rfl) _ _).trans step
  have waiting : (s.dev.advance h.t).boot.waitImage = true := (advance_reads (fun d => d.boot.waitImage) (fun _ _ => rfl) _ _).trans waits
  have runs : exec (.bootImage h image) s = .next { s with
      dev := ((((s.dev.advance h.t).bootAt (s.dev.advance h.t).bootTime).takeImage (s.dev.advance h.t).bootTime image).ok h.tag).commit } := by
    change execBootImage h image s = _
    unfold execBootImage hostCmd onDev Dev.command
    dsimp only
    rw [recovery_takeUp (by decide) flights tag opcode origin fresh open_ targets held rsv normal]
    dsimp only
    rw [if_neg (by rw [inside, waiting]; simp)]
  have taken : ∀ (d : Dev) t10, (d.takeImage t10 image).boot.step = 4 ∧ (d.takeImage t10 image).boot.image = some image := fun d t10 => by
    unfold Dev.takeImage
    simp
  obtain ⟨four, kept⟩ := taken ((s.dev.advance h.t).bootAt (s.dev.advance h.t).bootTime) (s.dev.advance h.t).bootTime
  generalize Dev.takeImage _ _ image = e at *
  refine ⟨_, runs, ?_, ?_⟩
  all_goals
    dsimp only
    rw [commit_boot, Dev.ok_boot]
  · exact four
  · exact kept

/-! ### The health record in Decaf mode (R421 to R423) -/

theorem mapSlices_flash (d : Dev) (b : Nat) (fails : List Nat) : (d.mapSlices b fails).flash = d.flash :=
  forEach_leaves Dev.flash (fun _ _ => Dev.modChan_flash _ _ _) _ _

theorem mapTiles_flash (d : Dev) (b : Nat) (fails : List Nat) : (d.mapTiles b fails).flash = d.flash := by
  unfold Dev.mapTiles
  dsimp only
  exact (foldl_leaves Dev.flash (fun d k => Dev.modTile_flash d b k _) _ _).trans rfl

theorem mapStrings_flash (d : Dev) (m : Nat) (fails : List (Nat × BitVec 3)) (spareBad : Bool) : (d.mapStrings m fails spareBad).flash = d.flash := by
  unfold Dev.mapStrings
  dsimp only
  exact (forEach_leaves Dev.flash (fun _ _ => Dev.modChan_flash _ _ _) _ _).trans rfl

/-- The lane of a bank that the spare lane serves, or no longer serves. -/
def Dev.served (d : Dev) (x : Option Nat) : Dev :=
  match x with
  | some b =>
    let l := d.lane b
    ({ d with dsp := { d.dsp with idle := l } } : Dev).modLane b fun m => m.onto d.dsp.idle
  | none => d

theorem served_flash (d : Dev) (x : Option Nat) : (d.served x).flash = d.flash := by
  cases x <;> rfl

theorem applyHealth_flash (d : Dev) (r : HealthRec) : (d.applyHealth r).flash = d.flash := by
  unfold Dev.applyHealth
  dsimp only
  refine (forEach_leaves Dev.flash (fun _ _ => Dev.modPort_flash _ _ _) _ _).trans ?_
  refine (forEach_leaves Dev.flash (fun _ _ => Dev.modChan_flash _ _ _) _ _).trans ?_
  refine (forEach_leaves Dev.flash (fun _ _ => mapStrings_flash _ _ _ _) _ _).trans ?_
  refine (forEach_leaves Dev.flash (fun b e => ?_) _ _).trans ?_
  · rw [Dev.modBank_flash, Dev.modLane_flash, mapTiles_flash, mapSlices_flash]
  · change (ite _ d ((d.served _).served _)).flash = d.flash
    refine (apply_ite Dev.flash _ _ _).trans ?_
    rw [served_flash, served_flash, ite_self]

/-- A health record that finds nothing loses no microcode word. -/
theorem lostWords_nil (d : Dev) : d.lostWords [] = d := by
  unfold Dev.lostWords
  simp

theorem checkHealth_found_nothing (d : Dev) : (d.checkHealth {}).1.flash = d.flash ∧ (d.checkHealth {}).1.boot.measured = true := by
  have rows : (d.measure {}).rows = [] := List.dedup_nil
  unfold Dev.checkHealth
  dsimp only [List.foldl_nil]
  rw [rows, lostWords_nil]
  generalize measured : d.measure {} = r
  have flash := applyHealth_flash d r
  generalize d.applyHealth r = e at *
  exact ⟨flash, rfl⟩

/-- The tiles of a bank are freed and its translation buffer is emptied. -/
def Dev.bankFreed (b : Nat) (d : Dev) : Dev :=
  ((d.bank b).tiles.cells.foldl (fun d c => d.freeTile b c.1) d).modBank b fun x => { x with tlb := [] }

theorem bankFreed_leaves (b : Nat) (d : Dev) : (d.bankFreed b).flash = d.flash ∧ (d.bankFreed b).boot = d.boot := by
  have frame : SameBut [.pat, .banks] d (d.bankFreed b) :=
    (SameBut.foldl (fun d (c : Nat × Tile) => (freeTile_step d b c.1).frame) _ _).trans ((modBank_keeps _ b _).mono (by simp))
  exact ⟨(frame .flash (by simp)).symm, (frame .boot (by simp)).symm⟩

/-- A device in Decaf mode that a health record has reached. -/
def Dev.healthSeen (d : Dev) (k : Decaf) : Dev :=
  { d with fc := { d.fc with decaf := some { k with health := true } }, uc := d.uc.install [] [] }

/-- A device whose tiles are freed after a health record. -/
def Dev.healthFreed (d : Dev) (k : Decaf) : Dev := forEach (List.range 16) Dev.bankFreed ((d.healthSeen k).checkHealth {}).1

theorem healthFreed_leaves (d : Dev) (k : Decaf) : (d.healthFreed k).flash = d.flash ∧ (d.healthFreed k).boot.measured = true := by
  obtain ⟨flash, measured⟩ := checkHealth_found_nothing (d.healthSeen k)
  unfold Dev.healthFreed
  generalize ((d.healthSeen k).checkHealth {}).1 = e at *
  exact ⟨(forEach_leaves Dev.flash (fun b d => (bankFreed_leaves b d).1) _ _).trans flash,
    (congrArg Boot.measured (forEach_leaves Dev.boot (fun b d => (bankFreed_leaves b d).2) _ _)).trans measured⟩

/-- Units newly found are told of. -/
def Dev.healthTold (d : Dev) (k : Decaf) : Dev :=
  if ((d.healthSeen k).checkHealth {}).2 > 0 then (d.healthFreed k).post 610 3 [(((d.healthSeen k).checkHealth {}).2 : Int)] else d.healthFreed k

theorem healthTold_leaves (d : Dev) (k : Decaf) : (d.healthTold k).flash = d.flash ∧ (d.healthTold k).boot.measured = true := by
  obtain ⟨flash, measured⟩ := healthFreed_leaves d k
  unfold Dev.healthTold
  generalize d.healthFreed k = e at *
  split
  · rw [Dev.post_flash, Dev.post_boot]
    exact ⟨flash, measured⟩
  · exact ⟨flash, measured⟩

theorem writeHealth_writes {d : Dev} (free : d.flash.noBlock = false) (f : Health) :
    (d.writeHealth f).boot.written = true ∧ (d.writeHealth f).boot.measured = d.boot.measured := by
  unfold Dev.writeHealth
  rw [if_neg (by rw [free]; simp)]
  dsimp only
  unfold Dev.saveWear
  split <;> exact ⟨rfl, rfl⟩

theorem health_runs {s : State} {h : Hdr} (i : IdleDecaf s h) (free : s.dev.flash.noBlock = false) {k : Decaf} (decaf : s.dev.fc.decaf = some k) :
    exec (.bootHealth h {} .done) s = .next { s with dev := ((((s.dev.takenUp h 0x0F04).healthTold k).writeHealth {}).ok h.tag).commit } := by
  refine (i.hostCmd (op := 0x0F04) (by decide) (by decide) _ : execBootHealth h {} .done s = _).trans ?_
  have same : (s.dev.takenUp h 0x0F04).fc.decaf = some k := (takenUp_reads (fun d => d.fc.decaf) (fun _ _ _ => rfl) (by decide) _ _).trans decaf
  have block : (s.dev.takenUp h 0x0F04).flash = s.dev.flash := takenUp_reads Dev.flash (fun _ _ _ => rfl) (by decide) _ _
  generalize s.dev.takenUp h 0x0F04 = d at *
  have told : (d.healthTold k).flash.noBlock = false := by rw [(healthTold_leaves d k).1, block, free]
  dsimp only
  rw [same]
  dsimp only
  unfold Dev.healthTold Dev.healthFreed Dev.bankFreed Dev.healthSeen at told ⊢
  dsimp only at told
  rw [told, if_neg (by simp)]

theorem bootHealth_writes {s : State} {h : Hdr} (i : IdleDecaf s h) (free : s.dev.flash.noBlock = false) :
    ∃ t, exec (.bootHealth h {} .done) s = .next t ∧ t.dev.boot.measured = true ∧ t.dev.boot.written = true := by
  obtain ⟨k, decaf⟩ := Option.isSome_iff_exists.mp i.decaf
  have runs := health_runs i free decaf
  have block : ((s.dev.takenUp h 0x0F04).healthTold k).flash.noBlock = false := by
    rw [(healthTold_leaves _ k).1, takenUp_reads Dev.flash (fun _ _ _ => rfl) (op := 0x0F04) (by decide), free]
  obtain ⟨written, kept⟩ := writeHealth_writes block {}
  rw [(healthTold_leaves _ k).2] at kept
  generalize Dev.writeHealth _ {} = e at *
  refine ⟨_, runs, ?_, ?_⟩
  all_goals
    dsimp only
    rw [commit_boot, Dev.ok_boot]
  · exact kept
  · exact written

end Sys2Proof.Machine

open Sys2Proof Sys2Proof.Machine

/-- Settles O13, by following each command from the device that takes it up: an image from the recovery function in S3, a health record in
Decaf mode, the others on an idle device. -/
theorem bootCommands : Obligations.BootCommands :=
  fun _ _ => ⟨fun i => ⟨bootJournal_answers i, bootJournalClear_clears i,
      fun _ higher top running => bootRollback_blows i higher top running, fun _ newer => bootRollback_denies i newer, bootSpares_reports i⟩,
    fun _ _ flights tag opcode origin fresh open_ targets held rsv step waits _ =>
      bootImage_taken flights tag opcode origin fresh open_ targets held rsv step waits,
    fun _ i done free => done ▸ bootHealth_writes i free⟩

end


section
/-!
PROOFS. What a commit leaves where no record is written, and the host attachment and its recovery function (R359, R374 to R376).
-/
namespace Sys2Proof.Machine

/-! ### A commit that writes no record -/

/-- The control complex but for the sequence number and what leaves by the ports. -/
def Ctl.still (c : Ctl) : Ctl :=
  { c with seq := 0, links := .empty, sent := [], outbox := {}, upCpl := [], upEvt := [], written := [], behind := false }

/-- The device but for result packets, log items, the sequence number and what leaves by the ports. -/
def Dev.still (d : Dev) : Dev := { d with cap := d.cap.setting, ctl := d.ctl.still, log := d.log.setting }

/-- What can be read of that part is the same on devices that agree on it. -/
theorem of_still {γ : Type} (v : Dev → γ) (r : ∀ d : Dev, v d.still = v d) {a b : Dev} (h : b.still = a.still) : v b = v a :=
  (r b).symm.trans ((congrArg v h).trans (r a))

theorem takeSeq_still (d : Dev) : d.takeSeq.still = d.still := by
  unfold Dev.takeSeq
  dsimp only
  split <;> rfl

theorem pumpOne_still (d : Dev) (p : Nat) : (d.pumpOne p).still = d.still := by
  unfold Dev.pumpOne
  split
  · rfl
  · dsimp only
    split
    · exact takeSeq_still d
    · rfl

theorem pump_still (n : Nat) (d : Dev) : (d.pump n).still = d.still := by
  fun_induction Dev.pump n d with
  | case1 => rfl
  | case2 n d ih => exact ih.trans (forEach_leaves Dev.still (fun p d => pumpOne_still d p) _ d)

theorem commitPackets_nil_still (d : Dev) : (d.commitPackets []).still = d.still := by
  have marks : ∀ e : Dev, Dev.still { e with cap := e.cap.marks e.mono } = e.still := fun _ => rfl
  unfold Dev.commitPackets
  refine (marks _).trans ((pump_still 8 _).trans (forEach_leaves Dev.still (fun k d => ?_) _ d))
  rfl

theorem sendLinks_still (d : Dev) (l : List LinkMsg) : (d.sendLinks l).still = d.still := by
  unfold Dev.sendLinks
  refine (forEach_leaves Dev.still (fun p d => ?_) _ _).trans (foldl_leaves Dev.still (fun d m => ?_) _ d)
  · dsimp only
    split <;> rfl
  · rfl

/-- Commands that have not ended are not written. -/
theorem writeable_of_open (ok : Cpl → Bool) {fs : List Flight} (open_ : ∀ f ∈ fs, f.done = none) (seen : List (BitVec 5)) :
    writeable ok seen fs = [] ∧ unwritten ok seen fs = fs := by
  induction fs generalizing seen with
  | nil => exact ⟨rfl, rfl⟩
  | cons f fs ih =>
    have waits : f.settled ok = false := by rw [Flight.settled, open_ f List.mem_cons_self]; rfl
    have rest := fun seen => ih (fun g mem => open_ g (List.mem_cons_of_mem _ mem)) seen
    unfold writeable unwritten
    dsimp only
    rw [waits, Bool.false_and, if_neg Bool.false_ne_true, if_neg Bool.false_ne_true]
    exact ⟨(rest _).1, congrArg (f :: ·) (rest _).2⟩

/-- The device as its commit begins. -/
def Dev.begun (d : Dev) (fs : List Flight) : Dev :=
  { d.settleEpoch with ctl := { d.settleEpoch.ctl with
    outbox := {}, upCpl := [], upEvt := [], sent := [], written := d.ctl.outbox.written, flights := fs } }

/-- A commit of no event, no packet and no completion leaves that part. -/
theorem commit_still_of {d : Dev} (events : d.ctl.outbox.events = []) (interim : d.ctl.outbox.interim = []) (packets : d.ctl.outbox.packets = [])
    (open_ : ∀ f ∈ d.ctl.flights, f.done = none) : d.commit.still = d.still := by
  obtain ⟨none_, all⟩ := writeable_of_open d.settleEpoch.mayWrite open_ []
  have begins : d.commit = ((d.begun d.ctl.flights).commitPackets []).sendLinks d.ctl.outbox.links := by
    unfold Dev.commit Dev.begun
    dsimp only
    rw [show d.settleEpoch.ctl.outbox = d.ctl.outbox from rfl, show d.settleEpoch.ctl.flights = d.ctl.flights from rfl, none_, all, events,
      interim, packets]
    rfl
  rw [begins, sendLinks_still, commitPackets_nil_still]
  rfl

theorem commit_still {d : Dev} (outbox : d.ctl.outbox = {}) (open_ : ∀ f ∈ d.ctl.flights, f.done = none) : d.commit.still = d.still :=
  commit_still_of (by rw [outbox]) (by rw [outbox]) (by rw [outbox]) open_

/-! ### The host attachment (R359, R374, R514) -/

section
variable {s : State}

theorem linkMode_tree (d : Dev) (mode : BitVec 3) : (d.linkMode mode).tree = { d.tree with link := mode } := by
  unfold Dev.linkMode
  split
  · next same => rw [same]
  · exact Dev.post_tree _ _ _ _

theorem linkMode_keeps (d : Dev) (mode : BitVec 3) : SameBut [.tree] d (d.linkMode mode) := by
  unfold Dev.linkMode
  split
  · exact .refl _ d
  · exact (setTree_keeps d _).trans (postAt_keeps _ _ _ _ _ _ _ _)

theorem attachment_lost (n : Nat) {mode : BitVec 3} (known : mode.toNat ≤ 4) (attached : s.dev.tree.attached = true) :
    ∃ t, exec (.hostAttachmentLoss n mode true) s = .next t ∧ t.dev.tree.attached = false ∧ t.dev.tree.link = mode := by
  have runs : exec (.hostAttachmentLoss n mode true) s =
      .next { s with dev := (((s.dev.advance n).loseHost (s.dev.advance n).tree.link true).linkMode mode).commit } :=
    (onDev_runs (if_neg (by simp [attached]; omega)) : execHostAttachmentLoss n mode true s = _)
  have lost : ∀ d : Dev, (d.loseHost d.tree.link true).tree.attachLost = true := fun d => rfl
  have flag := lost (s.dev.advance n)
  generalize (s.dev.advance n).loseHost (s.dev.advance n).tree.link true = e at *
  refine ⟨_, runs, ?_, ?_⟩
  all_goals
    dsimp only
    rw [commit_tree, linkMode_tree]
  simp [Tree.attached, flag]

/-- A device whose attachment returns. -/
def Dev.attachAgain (d : Dev) : Dev := { d with tree := { d.tree with tunnel := true, attachLost := false } }

/-- The return of a lost attachment is told of. -/
def Dev.attachTold (d : Dev) (mode : BitVec 3) : Dev :=
  if d.tree.attachLost then d.pushLog (d.logItem 0x0B 1 [0] [(mode.toNat : Int)]) else d

theorem attachTold_keeps (d : Dev) (mode : BitVec 3) : SameBut [.tree] d (d.attachTold mode) := by
  unfold Dev.attachTold
  split
  exacts [pushLog_keeps _ _ _, .refl _ d]

theorem attachment_returns (n : Nat) {mode : BitVec 3} (known : mode.toNat ≤ 4) (manager : s.straps.isWorker = false)
    (away : s.dev.tree.attached = false) (up : mode ≠ 0) :
    ∃ t, exec (.hostAttachmentRestored n mode) s = .next t ∧ Keeps [.tree] s t ∧ t.dev.tree.attached = true ∧ t.dev.tree.link = mode := by
  have runs : exec (.hostAttachmentRestored n mode) s =
      .next { s with dev := ((((s.dev.advance n).attachTold mode).attachAgain).linkMode mode).commit } :=
    (onDev_runs (if_neg (by simp only [manager, away, up, Bool.false_eq_true, false_or]; omega)) : execHostAttachmentRestored n mode s = _)
  refine ⟨_, runs, keeps_commit ((((advance_keeps _ s.dev n).trans (attachTold_keeps _ mode)).trans (setTree_keeps _ _)).trans
    (linkMode_keeps _ mode)), ?_, ?_⟩
  all_goals
    dsimp only
    rw [commit_tree, linkMode_tree]
  rfl

theorem linkMode_changes (n : Nat) {mode : BitVec 3} (known : mode.toNat ≤ 4) (manager : s.straps.isWorker = false)
    (other : mode ≠ s.dev.tree.link) (up : mode ≠ 0) :
    ∃ t, exec (.hostLinkModeChange n mode) s = .next t ∧ Keeps [.tree] s t ∧ t.dev.tree.link = mode := by
  have runs : exec (.hostLinkModeChange n mode) s = .next { s with dev := ((s.dev.advance n).linkMode mode).commit } :=
    (onDev_runs (if_neg (by simp only [manager, other, up, Bool.false_eq_true, false_or, false_and, or_false]; omega)) : execHostLinkModeChange n mode s = _)
  refine ⟨_, runs, keeps_commit ((advance_keeps _ s.dev n).trans (linkMode_keeps _ mode)), ?_⟩
  dsimp only
  rw [commit_tree, linkMode_tree]

end

/-! ### The recovery function (R375, R376) -/

section
variable {s : State} (n : Nat)

/-- The recovery function of a device. -/
def Dev.recoveryWith (d : Dev) (r : Recovery) : Dev := { d with ctl := { d.ctl with recovery := r } }

theorem recoveryWith_keeps (d : Dev) (r : Recovery) : SameBut [] d (d.recoveryWith r) := sameBut_of_core (by rfl) _

theorem recovery_reads {carried : Bool} {c : Cpl} {rest : List (Bool × Cpl)} (replies : s.dev.ctl.recovery.replies = (carried, c) :: rest)
    (outbox : s.dev.ctl.outbox = {}) (flights : s.dev.ctl.flights = []) :
    ∃ t, exec (.recoveryCompletionRead n) s = .next t ∧ Keeps [] s t ∧ t.dev.ctl.recovery.replies = rest ∧
      t.dev.ctl.recovery.last = some c ∧ t.dev.ctl.recovery.busy = (s.dev.ctl.recovery.busy && !(carried && c.fin)) := by
  let r : Recovery := { s.dev.ctl.recovery with
    replies := rest, last := some c, busy := s.dev.ctl.recovery.busy && !(carried && c.fin) }
  have runs : exec (.recoveryCompletionRead n) s = .next { s with dev := ((s.dev.advance n).recoveryWith r).commit } := by
    refine (onDev_runs ?_ : execRecoveryCompletionRead n s = _)
    dsimp only
    rw [replies]
    rfl
  have still := commit_still (d := (s.dev.advance n).recoveryWith r)
    ((congrArg Ctl.outbox (advance_ctl s.dev n)).trans outbox)
    (by rw [show ((s.dev.advance n).recoveryWith r).ctl.flights = (s.dev.advance n).ctl.flights from rfl, advance_ctl, flights]; simp)
  have same := of_still (fun d => d.ctl.recovery) (fun _ => rfl) still
  refine ⟨_, runs, keeps_commit ((advance_keeps _ s.dev n).trans (recoveryWith_keeps _ r)), ?_, ?_, ?_⟩
  all_goals
    dsimp only
    rw [same]
    rfl

/-- The reply of a recovery function that carries another command. -/
def Dev.busyReply (d : Dev) (e : Entry) : Dev :=
  (d.recoveryWith { d.ctl.recovery with configured := true }).recoveryReply false
    { tag := e.tag, stream := e.stream, opcode := e.opcode, status := stBusy }

theorem busyReply_leaves (d : Dev) (e : Entry) : SameBut [] d (d.busyReply e) ∧ (d.busyReply e).ctl.outbox = d.ctl.outbox ∧
    (d.busyReply e).ctl.flights = d.ctl.flights ∧ (d.busyReply e).ctl.recovery.busy = d.ctl.recovery.busy ∧
    ∃ c, (d.busyReply e).ctl.recovery.replies = d.ctl.recovery.replies ++ [(false, c)] ∧ c.status = stBusy ∧ c.tag = e.tag := by
  generalize reply_eq : (d.recoveryWith { d.ctl.recovery with configured := true }).stampCpl
    { tag := e.tag, stream := e.stream, opcode := e.opcode, status := stBusy, position := d.tree.position } = c
  have replied : d.busyReply e = ((d.recoveryWith { d.ctl.recovery with configured := true }).takeSeq).recoveryWith
      { (d.recoveryWith { d.ctl.recovery with configured := true }).takeSeq.ctl.recovery with
        replies := (d.recoveryWith { d.ctl.recovery with configured := true }).takeSeq.ctl.recovery.replies ++ [(false, c)] } := by
    rw [← reply_eq]
    rfl
  rw [replied]
  generalize with_eq : d.recoveryWith { d.ctl.recovery with configured := true } = a at *
  have recovery : a.takeSeq.ctl.recovery = { d.ctl.recovery with configured := true } :=
    (of_still (fun d => d.ctl.recovery) (fun _ => rfl) (takeSeq_still a) : _).trans (with_eq ▸ rfl)
  have out : a.takeSeq.ctl.outbox = d.ctl.outbox := (of_quiet (fun d => d.ctl.outbox) (fun _ => rfl) (takeSeq_quiet a)).trans (with_eq ▸ rfl)
  have fs : a.takeSeq.ctl.flights = d.ctl.flights := (of_still (fun d => d.ctl.flights) (fun _ => rfl) (takeSeq_still a)).trans (with_eq ▸ rfl)
  have frame : SameBut [] d a := with_eq ▸ recoveryWith_keeps _ _
  have kept_busy : a.takeSeq.ctl.recovery.busy = d.ctl.recovery.busy := by rw [recovery]
  have kept_replies : a.takeSeq.ctl.recovery.replies = d.ctl.recovery.replies := by rw [recovery]
  refine ⟨(frame.trans (sameBut_of_core (core_of_quiet (takeSeq_quiet a)) _)).trans (recoveryWith_keeps _ _), out, fs,
    kept_busy, c, congrArg (· ++ [(false, c)]) kept_replies, ?_, ?_⟩
  · rw [← reply_eq]
    rfl
  · rw [← reply_eq]
    rfl

variable (manager : s.straps.isWorker = false)
include manager

theorem recovery_busy {entry args : Bytes} {e : Entry} (named : entryOf entry = e) (busy : s.dev.ctl.recovery.busy = true)
    (flights : s.dev.ctl.flights = []) (outbox : s.dev.ctl.outbox = {}) :
    ∃ t c, exec (.recoveryCommand n ⟨entry, args⟩) s = .next t ∧ Keeps [] s t ∧ t.dev.ctl.recovery.busy = true ∧
      t.dev.ctl.recovery.replies = s.dev.ctl.recovery.replies ++ [(false, c)] ∧ c.status = stBusy ∧ c.tag = e.tag := by
  have runs : exec (.recoveryCommand n ⟨entry, args⟩) s = .next { s with dev := ((s.dev.advance n).busyReply e).commit } := by
    refine (onDev_runs ?_ : execRecoveryCommand n ⟨entry, args⟩ s = _)
    dsimp only
    rw [if_neg (by simp [manager]), named]
    exact if_pos ((congrArg (fun c => c.recovery.busy) (advance_ctl s.dev n)).trans busy)
  obtain ⟨frame, out, fs, still_busy, c, replies, status, tag⟩ := busyReply_leaves (s.dev.advance n) e
  rw [advance_ctl] at out fs still_busy replies
  generalize (s.dev.advance n).busyReply e = d at *
  have same := of_still (fun d => d.ctl.recovery) (fun _ => rfl) (commit_still (out.trans outbox) (by rw [fs, flights]; simp))
  refine ⟨_, c, runs, keeps_commit ((advance_keeps _ s.dev n).trans frame), ?_, ?_, status, tag⟩
  · dsimp only
    rw [same]
    exact still_busy.trans busy
  · dsimp only
    rw [same]
    exact replies

/-- A command of the recovery function in flight. -/
def Dev.recoveryCarries (d : Dev) (e : Entry) : Dev :=
  { d with ctl := { d.ctl with
    recovery := { d.ctl.recovery with configured := true, busy := true, tag := e.tag }
    flights := d.ctl.flights ++ [{ tag := e.tag, stream := e.stream, opcode := e.opcode, origin := .recovery }], orphans := d.orphaned e.tag } }

theorem recovery_taken {entry args : Bytes} {e : Entry} (named : entryOf entry = e) (free : s.dev.ctl.recovery.busy = false)
    (flights : s.dev.ctl.flights = []) (outbox : s.dev.ctl.outbox = {}) (good : entryBad e = false)
    (formed : argsBad e (argBytes entry args) = false) (resp : e.respAddr = 0) (arg : e.argAddr = 0) (kind : e.tkind = 0)
    (takes : s.dev.recoveryTakes (s.straps.role == 3) e.opcode = true) :
    ∃ t f, exec (.recoveryCommand n ⟨entry, args⟩) s = .next t ∧ Keeps [] s t ∧ t.dev.ctl.recovery.busy = true ∧
      t.dev.ctl.recovery.tag = e.tag ∧ t.dev.ctl.flights = [f] ∧ f.tag = e.tag ∧ f.opcode = e.opcode ∧ f.origin = .recovery := by
  have runs : exec (.recoveryCommand n ⟨entry, args⟩) s = .next { s with dev := ((s.dev.advance n).recoveryCarries e).commit } := by
    have idle : (s.dev.advance n).ctl.recovery.busy = false := (congrArg (fun c => c.recovery.busy) (advance_ctl s.dev n)).trans free
    have none_ : (s.dev.advance n).ctl.flights = [] := (congrArg Ctl.flights (advance_ctl s.dev n)).trans flights
    have may : (s.dev.advance n).recoveryTakes (s.straps.role == 3) e.opcode = true :=
      (advance_reads (fun d => d.recoveryTakes (s.straps.role == 3) e.opcode) (fun _ _ => rfl) _ _).trans takes
    refine (onDev_runs ?_ : execRecoveryCommand n ⟨entry, args⟩ s = _)
    dsimp only
    rw [if_neg (by simp [manager]), named]
    generalize s.dev.advance n = d at *
    have new : d.flight e.tag = none := by simp [Dev.flight, none_]
    refine (if_neg (by simp [idle])).trans ((if_neg ?_).trans ((if_neg ?_).trans (if_neg ?_)))
    · change ¬ (d.flight e.tag).isSome = true
      rw [new]
      exact Bool.false_ne_true
    · rw [good, formed, resp, arg, kind]
      simp
    · change ¬ ¬ d.recoveryTakes (s.straps.role == 3) e.opcode = true
      exact not_not_intro may
  have ctl := advance_ctl s.dev n
  have start := advance_keeps [] s.dev n
  generalize s.dev.advance n = a at *
  let f : Flight := { tag := e.tag, stream := e.stream, opcode := e.opcode, origin := .recovery }
  have fs : (a.recoveryCarries e).ctl.flights = [f] := by
    rw [show (a.recoveryCarries e).ctl.flights = a.ctl.flights ++ [f] from rfl, ctl, flights]
    rfl
  have still := commit_still (d := a.recoveryCarries e) ((congrArg Ctl.outbox ctl).trans outbox) (by rw [fs]; simp [f])
  have recovery := of_still (fun d => d.ctl.recovery) (fun _ => rfl) still
  have stays := of_still (fun d => d.ctl.flights) (fun _ => rfl) still
  refine ⟨_, f, runs, keeps_commit (start.trans (sameBut_of_core (by rfl) _)), ?_, ?_, stays.trans fs, rfl, rfl, rfl⟩
  all_goals
    dsimp only
    rw [recovery]
    rfl

end

end Sys2Proof.Machine

open Sys2Proof Sys2Proof.Machine

/-- Settles O14, by following each event; what the recovery function holds is shown to be left by a commit that writes no record. -/
theorem hostAttachment : Obligations.HostAttachment :=
  ⟨fun _ n _ known => ⟨fun attached => attachment_lost n known attached,
      fun manager away up => attachment_returns n known manager away up, fun manager other up => linkMode_changes n known manager other up⟩,
    fun _ n manager => ⟨fun _ _ _ named free flights outbox good formed resp arg kind takes =>
        recovery_taken n manager named free flights outbox good formed resp arg kind takes,
      fun _ _ _ named busy flights outbox => recovery_busy n manager named busy flights outbox,
      fun _ _ _ replies outbox flights => recovery_reads n replies outbox flights⟩⟩

end


section
/-!
PROOFS. Packets, markers, training, lanes and paths of the Tyisk ports, and the reports of Brew-up (R378 to R397).
-/
namespace Sys2Proof.Machine

/-! ### Result packets from below are left by every commit -/

/-- Result packets of workers that wait for the result area. -/
def Dev.fromBelow (d : Dev) : List Packet := d.ctl.downRes

theorem takeSeq_fromBelow (d : Dev) : d.takeSeq.fromBelow = d.fromBelow := of_still Dev.fromBelow (fun _ => rfl) (takeSeq_still d)

theorem ownSeq_fromBelow (d : Dev) (has : Bool) : (if has then d else d.takeSeq).fromBelow = d.fromBelow := by
  cases has
  exacts [takeSeq_fromBelow d, rfl]

theorem signal_fromBelow (d : Dev) (v : Nat) : (d.signal v).fromBelow = d.fromBelow := by
  unfold Dev.signal Dev.message
  dsimp only
  (repeat' split) <;> rfl

theorem ringEvt_fromBelow (d : Dev) (e : Evt) : (d.ringEvt e).fromBelow = d.fromBelow := by
  rw [Dev.ringEvt, signal_fromBelow]
  exact (ownSeq_fromBelow d e.fwd :)

theorem upEvent_fromBelow (d : Dev) (e : Evt) : (d.upEvent e).fromBelow = d.fromBelow := ownSeq_fromBelow d e.fwd

theorem commitEvt_fromBelow (d : Dev) (e : Evt) : (d.commitEvt e).fromBelow = d.fromBelow := by
  unfold Dev.commitEvt
  dsimp only
  split_ifs
  exacts [upEvent_fromBelow d e, ringEvt_fromBelow d e, rfl, rfl]

theorem ringCpl_fromBelow (d : Dev) (c : Cpl) : (d.ringCpl c).fromBelow = d.fromBelow := by
  rw [Dev.ringCpl, signal_fromBelow]
  exact (ownSeq_fromBelow d (if c.fwd then c else d.stampCpl c).fwd :)

theorem commitCpl_fromBelow (d : Dev) (o : Origin) (c : Cpl) : (d.commitCpl o c).fromBelow = d.fromBelow := by
  unfold Dev.commitCpl
  cases o with
  | ring =>
    dsimp only
    split_ifs
    exacts [ringCpl_fromBelow d c, rfl, rfl]
  | tree => exact takeSeq_fromBelow d
  | recovery => exact takeSeq_fromBelow d

theorem stage_fromBelow (d : Dev) (p : Packet) : (d.stage p).fromBelow = d.fromBelow := by
  unfold Dev.stage
  split <;> rfl

theorem commitPackets_fromBelow (d : Dev) (ps : List Packet) : (d.commitPackets ps).fromBelow = d.fromBelow := by
  have marks : ∀ e : Dev, Dev.fromBelow { e with cap := e.cap.marks e.mono } = e.fromBelow := fun _ => rfl
  have pump : ∀ n (e : Dev), (e.pump n).fromBelow = e.fromBelow := fun n e => of_still Dev.fromBelow (fun _ => rfl) (pump_still n e)
  unfold Dev.commitPackets
  refine (marks _).trans ((pump 8 _).trans (forEach_leaves Dev.fromBelow (fun k d => ?_) _ d))
  exact foldl_leaves Dev.fromBelow (fun d p => (pump 1 _).trans (stage_fromBelow d p)) _ d

theorem commit_fromBelow (d : Dev) : d.commit.fromBelow = d.fromBelow := by
  have sent : ∀ (e : Dev) l, (e.sendLinks l).fromBelow = e.fromBelow := fun e l => of_still Dev.fromBelow (fun _ => rfl) (sendLinks_still e l)
  unfold Dev.commit
  dsimp only
  refine (sent _ _).trans ((commitPackets_fromBelow _ _).trans ((foldl_leaves Dev.fromBelow (fun d f => ?_) _ _).trans
    ((foldl_leaves Dev.fromBelow (fun d (c : Origin × Cpl) => commitCpl_fromBelow d c.1 c.2) _ _).trans
      (foldl_leaves Dev.fromBelow (fun d e => commitEvt_fromBelow d e) _ _))))
  split
  · exact commitCpl_fromBelow d _ _
  · rfl

/-! ### Ports -/

theorem port_of_tree {a b : Dev} (h : a.tree = b.tree) (p : Nat) : a.port p = b.port p := by rw [Dev.port, h, Dev.port]

theorem port_modPort (d : Dev) (p : Nat) (f : Port → Port) : (d.modPort p f).port p = f (d.port p) := Tab.get_mod_self ..

theorem modPort_keeps (d : Dev) (p : Nat) (f : Port → Port) : SameBut [.tree] d (d.modPort p f) := setTree_keeps d _

theorem advance_port (d : Dev) (n p : Nat) : (d.advance n).port p = d.port p := port_of_tree (Dev.advance_tree d n) p

/-- A bad packet is counted, and its replay is asked for. -/
def Dev.replayAsked (d : Dev) (p : Nat) : Dev :=
  { d.askReplay p with tree := { d.tree with replays := satAdd (2 ^ 32 - 1) d.tree.replays 1 } }

theorem retrain_keeps (d : Dev) (p cause : Nat) : SameBut [.tree] d (d.retrain p cause) :=
  ((modPort_keeps d p _).trans (setTree_keeps _ _)).trans (postAt_keeps _ _ _ _ _ _ _ _)

theorem retrain_tree (d : Dev) (p cause : Nat) : (d.retrain p cause).tree = { d.tree with
    ports := d.tree.ports.mod {} p fun x => { x with up := 1, down := some d.mono, replays := [] }
    retrains := satAdd (2 ^ 32 - 1) d.tree.retrains 1 } := Dev.post_tree _ _ _ _

theorem retrain_up (d : Dev) (p cause : Nat) : ((d.retrain p cause).port p).up = 1 := by
  rw [Dev.port, retrain_tree]
  exact congrArg Port.up (Tab.get_mod_self _ _ _ fun x : Port => { x with up := 1, down := some d.mono, replays := [] })

/-- A port that has seen a marker. -/
def Port.saw (a : Nat) (m : LinkMsg) (x : Port) : Port :=
  { x with seenMarks := (a, m) :: x.seenMarks.filter fun y => decide (y.1 + 4 * msSteps ≥ a) }

theorem saw_contains (a : Nat) (m : LinkMsg) (x : Port) : (x.saw a m).seenMarks.contains (a, m) = true := by
  simp [Port.saw]

/-- What a good marker does on a port that has not seen it. -/
def Dev.markerIn (d : Dev) (p : Nat) (m : LinkMsg) : Dev :=
  match m with
  | .arm line on rearm epoch at_ => if (d.port p).upstream then d.takeArm line.toNat on rearm epoch at_ else d
  | .release barrier at_ broken => if (d.port p).upstream then d.takeRelease barrier at_ broken else d
  | .delay total => if (d.port p).upstream then { d with tree := { d.tree with aboveDelay := total } } else d
  | _ => d

theorem saw_keeps (d : Dev) (n p a : Nat) (m : LinkMsg) : SameBut [.tree] d ((d.advance n).modPort p (Port.saw a m)) :=
  (advance_keeps _ d n).trans (modPort_keeps _ _ _)

theorem saw_port (d : Dev) (n p a : Nat) (m : LinkMsg) : ((d.advance n).modPort p (Port.saw a m)).port p = (d.port p).saw a m := by
  rw [port_modPort, advance_port]

/-- A port that has lost a lane. -/
def Port.laneLost (left : BitVec 3) (now : Nat) (x : Port) : Port :=
  { x with active := left, degraded := true, up := if left = 0 then 0 else 1, down := some now, replays := [] }

/-- A lost lane is told of, unless it was the last. -/
def Dev.laneTold (d : Dev) (p lane : Nat) (left : BitVec 3) : Dev := if left = 0 then d else d.post (601 + p) 2 [(lane : Int)]

theorem laneTold_keeps (d : Dev) (p lane : Nat) (left : BitVec 3) :
    SameBut [.tree] d (d.laneTold p lane left) ∧ (d.laneTold p lane left).tree = d.tree := by
  unfold Dev.laneTold
  split
  exacts [⟨.refl _ d, rfl⟩, ⟨postAt_keeps _ _ _ _ _ _ _ _, Dev.post_tree _ _ _ _⟩]

section
variable {s : State} (n : Nat) {p : BitVec 2}

section
variable (up : (s.dev.port p.toNat).isUp = true)
include up

/-- What a port that is up takes in. -/
theorem packet_runs (m : LinkMsg) :
    exec (.linkPacketReceived n p (some m)) s = .next { s with dev := ((s.dev.advance n).linkIn p.toNat m).commit } := by
  refine (onDev_runs ?_ : execLinkPacketReceived n p (some m) s = _)
  dsimp only
  rw [if_neg (by simp [up])]

theorem result_comes (k : Packet) (own : s.dev.tree.admitted = false) :
    ∃ t, exec (.linkPacketReceived n p (some (.result k))) s = .next t ∧ Keeps [] s t ∧ t.dev.ctl.downRes = s.dev.ctl.downRes ++ [k] := by
  let a : Dev := { s.dev.advance n with ctl := { (s.dev.advance n).ctl with downRes := (s.dev.advance n).ctl.downRes ++ [k] } }
  have taken : (s.dev.advance n).linkIn p.toNat (.result k) = a := if_neg (by rw [Dev.advance_tree, own]; simp)
  have runs := packet_runs n up (.result k)
  rw [taken] at runs
  have list : a.ctl.downRes = s.dev.ctl.downRes ++ [k] := congrArg (fun c => Ctl.downRes c ++ [k]) (advance_ctl s.dev n)
  have frame : SameBut [] s.dev a := (advance_keeps _ s.dev n).trans (sameBut_of_core (by rfl) _)
  generalize a = e at *
  exact ⟨_, runs, keeps_commit frame, (commit_fromBelow e).trans list⟩

theorem members_come (g : BitVec 5) (set : BitVec 256) :
    ∃ t, exec (.linkPacketReceived n p (some (.members g set))) s = .next t ∧ Keeps [.tree] s t ∧ t.dev.tree.groups.get 0 g.toNat = set := by
  let a : Dev := { (s.dev.advance n).linkOut (.members g set) with
    tree := { (s.dev.advance n).tree with groups := (s.dev.advance n).tree.groups.set 0 g.toNat set } }
  have runs : exec (.linkPacketReceived n p (some (.members g set))) s = .next { s with dev := a.commit } := packet_runs n up (.members g set)
  have frame : SameBut [.tree] s.dev a := ((advance_keeps _ s.dev n).trans (linkOut_keeps _ _ (.members g set))).trans (setTree_keeps _ _)
  have set_ : a.tree.groups.get 0 g.toNat = set := (Tab.get_set _ _ _ _ _).trans (if_pos rfl)
  generalize a = e at *
  refine ⟨_, runs, keeps_commit frame, ?_⟩
  dsimp only
  rw [commit_tree]
  exact set_

theorem barrier_comes (b : BitVec 5) (c : Nat) :
    ∃ t, exec (.linkPacketReceived n p (some (.barrier b c))) s = .next t ∧ Keeps [.seq] s t ∧
      (t.dev.seq.barriers.get {} b.toNat).count = c := by
  let a : Dev := { (s.dev.advance n).linkOut (.barrier b c) with
    seq := { (s.dev.advance n).seq with barriers := (s.dev.advance n).seq.barriers.mod {} b.toNat fun x => { x with count := c } } }
  have runs : exec (.linkPacketReceived n p (some (.barrier b c))) s = .next { s with dev := a.commit } := packet_runs n up (.barrier b c)
  have frame : SameBut [.seq] s.dev a := ((advance_keeps _ s.dev n).trans (linkOut_keeps _ _ (.barrier b c))).trans (setSeq_keeps _ _)
  have set_ : (a.seq.barriers.get {} b.toNat).count = c :=
    congrArg Barrier.count (Tab.get_mod_self _ _ _ fun x : Barrier => { x with count := c })
  generalize a = e at *
  refine ⟨_, runs, keeps_commit frame, ?_⟩
  dsimp only
  rw [commit_seq]
  exact set_

theorem bad_packet_counts :
    ∃ t, exec (.linkPacketReceived n p none) s = .next t ∧ Keeps [.tree] s t ∧
      t.dev.tree.replays = min (2 ^ 32 - 1) (s.dev.tree.replays + 1) := by
  let l := (s.dev.advance n).mono :: (s.dev.port p.toNat).replays.filter fun x => decide (x + msSteps > (s.dev.advance n).mono)
  let a := (s.dev.advance n).replayAsked p.toNat
  have runs : exec (.linkPacketReceived n p none) s = .next { s with dev :=
      (if l.length > 16 then a.retrain p.toNat 1 else a.modPort p.toNat fun x => { x with replays := l }).commit } := by
    refine (onDev_runs ?_ : execLinkPacketReceived n p none s = _)
    dsimp only
    rw [if_neg (by simp [up])]
    rw [show l = (s.dev.advance n).mono :: ((s.dev.advance n).port p.toNat).replays.filter fun x => decide (x + msSteps > (s.dev.advance n).mono) from
      by rw [advance_port]]
    rfl
  have frame : SameBut [.tree] s.dev a := ((advance_keeps _ s.dev n).trans (sameBut_of_core (b := (s.dev.advance n).askReplay p.toNat) (by rfl) _)).trans
    (setTree_keeps _ _)
  have counted : a.tree.replays = min (2 ^ 32 - 1) (s.dev.tree.replays + 1) := by
    rw [show a.tree.replays = satAdd (2 ^ 32 - 1) (s.dev.advance n).tree.replays 1 from rfl, Dev.advance_tree, satAdd]
  generalize a = e at *
  refine ⟨_, runs, keeps_commit (frame.trans ?_), ?_⟩
  · split
    exacts [retrain_keeps _ _ _, modPort_keeps _ _ _]
  · dsimp only
    rw [commit_tree]
    split
    · rw [retrain_tree]
      exact counted
    · exact counted

/-! ### Markers (R258, R379) -/

theorem lost_marker_retrains (a : Nat) (m : LinkMsg) :
    ∃ t, exec (.linkMarkerReceived n p a m false false) s = .next t ∧ Keeps [.tree] s t ∧ (t.dev.port p.toNat).up = 1 := by
  have runs : exec (.linkMarkerReceived n p a m false false) s = .next { s with dev := ((s.dev.advance n).retrain p.toNat 2).commit } := by
    refine (onDev_runs ?_ : execLinkMarkerReceived n p a m false false s = _)
    dsimp only
    rw [if_neg (by simp [up])]
    rfl
  refine ⟨_, runs, keeps_commit ((advance_keeps _ s.dev n).trans (retrain_keeps _ _ _)), ?_⟩
  dsimp only
  rw [port_of_tree (commit_tree _)]
  exact retrain_up _ _ _

theorem marker_runs (a : Nat) (m : LinkMsg) (g : Bool) : exec (.linkMarkerReceived n p a m true g) s = .next { s with dev :=
    (if (s.dev.port p.toNat).seenMarks.contains (a, m) then s.dev.advance n
      else ((s.dev.advance n).modPort p.toNat (Port.saw a m)).markerIn p.toNat m).commit } := by
  refine (onDev_runs ?_ : execLinkMarkerReceived n p a m true g s = _)
  dsimp only
  rw [if_neg (by simp [up]), advance_port]
  rfl

theorem marker_taken {a : Nat} {m : LinkMsg} (g : Bool) (new : (s.dev.port p.toNat).seenMarks.contains (a, m) = false) :
    exec (.linkMarkerReceived n p a m true g) s =
      .next { s with dev := (((s.dev.advance n).modPort p.toNat (Port.saw a m)).markerIn p.toNat m).commit } := by
  rw [marker_runs n up, new]
  rfl

theorem downstream_marker (a : Nat) (m : LinkMsg) (g : Bool) (down : (s.dev.port p.toNat).upstream = false) :
    ∃ t, exec (.linkMarkerReceived n p a m true g) s = .next t ∧ Keeps [.tree] s t ∧
      (t.dev.port p.toNat).seenMarks.contains (a, m) = true ∧ (t.dev.port p.toNat).up = (s.dev.port p.toNat).up := by
  by_cases seen : (s.dev.port p.toNat).seenMarks.contains (a, m) = true
  · have runs := marker_runs n up a m g
    rw [if_pos seen] at runs
    refine ⟨_, runs, keeps_commit (advance_keeps _ s.dev n), ?_, ?_⟩
    all_goals
      dsimp only
      rw [port_of_tree (commit_tree _), advance_port]
    exact seen
  · have runs := marker_taken n up g (Bool.eq_false_iff.mpr seen)
    have port := saw_port s.dev n p.toNat a m
    have frame := saw_keeps s.dev n p.toNat a m
    generalize (s.dev.advance n).modPort p.toNat (Port.saw a m) = e at *
    have stays : e.markerIn p.toNat m = e := by
      have low : (e.port p.toNat).upstream = false := by rw [port]; exact down
      unfold Dev.markerIn
      cases m <;> first | rfl | exact if_neg (by simp [low])
    rw [stays] at runs
    refine ⟨_, runs, keeps_commit frame, ?_, ?_⟩
    all_goals
      dsimp only
      rw [port_of_tree (commit_tree _), port]
    · exact saw_contains a m _
    · rfl

section
variable (above : (s.dev.port p.toNat).upstream = true)
include above

theorem release_comes {a z : Nat} {b : BitVec 5} {br : Bool} (g : Bool)
    (new : (s.dev.port p.toNat).seenMarks.contains (a, .release b z br) = false) :
    ∃ t, exec (.linkMarkerReceived n p a (.release b z br) true g) s = .next t ∧ Keeps [.tree, .seq] s t ∧
      (t.dev.seq.barriers.get {} b.toNat).release = some z := by
  have runs := marker_taken n up g new
  have port := saw_port s.dev n p.toNat a (.release b z br)
  have frame := saw_keeps s.dev n p.toNat a (.release b z br)
  generalize (s.dev.advance n).modPort p.toNat (Port.saw a _) = e at *
  have taken : e.markerIn p.toNat (.release b z br) = e.takeRelease b z br := if_pos (by rw [port]; exact above)
  rw [taken] at runs
  refine ⟨_, runs, keeps_commit ((frame.mono (by simp)).trans ((linkOut_keeps _ e _).trans ((setSeq_keeps _ _).mono (by simp)))), ?_⟩
  dsimp only
  rw [commit_seq]
  exact congrArg Barrier.release (Tab.get_mod_self _ _ _ fun x : Barrier => { x with release := some z, broken := br })

theorem arm_comes {a z : Nat} {l : BitVec 2} {r : Bool} {e : BitVec 16} (g : Bool)
    (new : (s.dev.port p.toNat).seenMarks.contains (a, .arm l true r e z) = false) (off : (s.dev.cap.xt.get {} l.toNat).armed = false) :
    ∃ t, exec (.linkMarkerReceived n p a (.arm l true r e z) true g) s = .next t ∧ Keeps [.tree, .cap] s t ∧
      (t.dev.cap.xt.get {} l.toNat).armed = true ∧ (t.dev.cap.xt.get {} l.toNat).effAt = z := by
  have runs := marker_taken n up g new
  have port := saw_port s.dev n p.toNat a (.arm l true r e z)
  have frame := saw_keeps s.dev n p.toNat a (.arm l true r e z)
  have rest : ((s.dev.advance n).modPort p.toNat (Port.saw a (.arm l true r e z))).xt l.toNat = s.dev.xt l.toNat :=
    advance_reads (fun d => d.xt l.toNat) (fun _ _ => rfl) _ _
  generalize (s.dev.advance n).modPort p.toNat (Port.saw a _) = d at *
  have taken : d.markerIn p.toNat (.arm l true r e z) = d.takeArm l.toNat true r e z := if_pos (by rw [port]; exact above)
  rw [taken] at runs
  have armed : (d.takeArm l.toNat true r e z).xt l.toNat =
      { d.xt l.toNat with armed := true, rearm := r, offAt := none, effEpoch := e, effAt := z } := by
    refine (modXt_xt_self _ _ _).trans ?_
    have idle : ((d.linkOut (.arm (BitVec.ofNat 2 l.toNat) true r e z)).xt l.toNat).armed = false := by
      rw [show (d.linkOut (.arm (BitVec.ofNat 2 l.toNat) true r e z)).xt l.toNat = d.xt l.toNat from rfl, rest]
      exact off
    rw [if_neg (by simp), if_neg (by rw [idle]; simp)]
    rfl
  have keeps : SameBut [.tree, .cap] d (d.takeArm l.toNat true r e z) := (linkOut_keeps _ d _).trans ((modXt_keeps _ _ _).mono (by simp))
  generalize d.takeArm l.toNat true r e z = x at *
  refine ⟨_, runs, keeps_commit ((frame.mono (by simp)).trans keeps), ?_, ?_⟩
  · exact congrArg Xt.armed ((commit_xt x l.toNat).trans armed)
  · exact congrArg Xt.effAt ((commit_xt x l.toNat).trans armed)

theorem delay_comes {a z : Nat} (g : Bool) (new : (s.dev.port p.toNat).seenMarks.contains (a, .delay z) = false) :
    ∃ t, exec (.linkMarkerReceived n p a (.delay z) true g) s = .next t ∧ Keeps [.tree] s t ∧ t.dev.tree.aboveDelay = z := by
  have runs := marker_taken n up g new
  have port := saw_port s.dev n p.toNat a (.delay z)
  have frame := saw_keeps s.dev n p.toNat a (.delay z)
  generalize (s.dev.advance n).modPort p.toNat (Port.saw a _) = e at *
  have taken : e.markerIn p.toNat (.delay z) = { e with tree := { e.tree with aboveDelay := z } } := if_pos (by rw [port]; exact above)
  rw [taken] at runs
  refine ⟨_, runs, keeps_commit (frame.trans (setTree_keeps _ _)), ?_⟩
  dsimp only
  rw [commit_tree]

end

/-! ### Retraining and lanes (R381, R382) -/

theorem retrain_starts {cause : BitVec 2} (real : cause ≠ 3) :
    ∃ t, exec (.portRetrainStart n p cause) s = .next t ∧ Keeps [.tree] s t ∧ (t.dev.port p.toNat).up = 1 ∧
      t.dev.tree.retrains = min (2 ^ 32 - 1) (s.dev.tree.retrains + 1) := by
  have runs : exec (.portRetrainStart n p cause) s = .next { s with dev := ((s.dev.advance n).retrain p.toNat cause.toNat).commit } :=
    (onDev_runs (if_neg (not_or.mpr ⟨not_not_intro up, real⟩)) : execPortRetrainStart n p cause s = _)
  refine ⟨_, runs, keeps_commit ((advance_keeps _ s.dev n).trans (retrain_keeps _ _ _)), ?_, ?_⟩
  · dsimp only
    rw [port_of_tree (commit_tree _)]
    exact retrain_up _ _ _
  · dsimp only
    rw [commit_tree, retrain_tree]
    dsimp only
    rw [Dev.advance_tree, satAdd]

theorem lane_fails {lane : BitVec 2} (ready : s.dev.boot.ready = true) (real : lane ≠ 3)
    (active : (s.dev.port p.toNat).active.getLsbD lane.toNat = true) :
    ∃ t, exec (.laneFailure n p lane) s = .next t ∧ Keeps [.tree] s t ∧ (t.dev.port p.toNat).degraded = true ∧
      (t.dev.port p.toNat).active.getLsbD lane.toNat = false := by
  let left : BitVec 3 := (s.dev.port p.toNat).active &&& ~~~ (1#3 <<< lane.toNat)
  have runs : exec (.laneFailure n p lane) s = .next { s with dev :=
      (((s.dev.advance n).modPort p.toNat (Port.laneLost left (s.dev.advance n).mono)).laneTold p.toNat lane.toNat left).commit } :=
    (onDev_runs (if_neg (by rintro (a | a | a | a); exacts [a ready, a up, real a, a active])) : execLaneFailure n p lane s = _)
  obtain ⟨told, tree⟩ := laneTold_keeps ((s.dev.advance n).modPort p.toNat (Port.laneLost left (s.dev.advance n).mono)) p.toNat lane.toNat left
  have gone : left.getLsbD lane.toNat = false := by
    have low : lane.toNat < 3 := by
      have := lane.isLt
      have : lane.toNat ≠ 3 := fun h => real (BitVec.eq_of_toNat_eq h)
      omega
    simp [left, low]
  refine ⟨_, runs, keeps_commit (((advance_keeps _ s.dev n).trans (modPort_keeps _ _ _)).trans told), ?_, ?_⟩
  all_goals
    dsimp only
    rw [port_of_tree ((commit_tree _).trans tree), port_modPort]
  · rfl
  · exact gone

end

/-! ### The end of a retrain, and paths (R382, R383) -/

theorem sendAgain_leaves (d : Dev) (p : Nat) : SameBut [.tree] d (d.sendAgain p) ∧ (d.sendAgain p).tree = d.tree := by
  unfold Dev.sendAgain
  dsimp only
  split
  exacts [⟨.refl _ d, rfl⟩, ⟨sameBut_of_core (by rfl) _, rfl⟩]

theorem endRetrain_of_none {d : Dev} (none_ : d.tree.resTag = []) (p : Nat) (c : Cpl) : d.endRetrain p c = d := by
  unfold Dev.endRetrain
  dsimp only
  rw [none_, List.filter_nil, List.filter_nil, List.foldl_nil, ← none_]

theorem retrain_ends (down : (s.dev.port p.toNat).up = 1) (none_ : s.dev.tree.resTag = []) :
    ∃ t, exec (.portRetrainEnd n p) s = .next t ∧ Keeps [.tree] s t ∧ (t.dev.port p.toNat).down = none ∧
      (t.dev.port p.toNat).up = (s.dev.port p.toNat).raised.up := by
  obtain ⟨frame, tree⟩ := sendAgain_leaves (s.dev.advance n) p.toNat
  have free : (((s.dev.advance n).sendAgain p.toNat).modPort p.toNat Port.raised).tree.resTag = [] := by
    rw [show (((s.dev.advance n).sendAgain p.toNat).modPort p.toNat Port.raised).tree.resTag = ((s.dev.advance n).sendAgain p.toNat).tree.resTag from rfl,
      tree, Dev.advance_tree, none_]
  have runs : exec (.portRetrainEnd n p) s =
      .next { s with dev := (((s.dev.advance n).sendAgain p.toNat).modPort p.toNat Port.raised).commit } := by
    refine (onDev_runs ?_ : execPortRetrainEnd n p s = _)
    dsimp only
    rw [if_neg (by simp [down]), endRetrain_of_none free]
  refine ⟨_, runs, keeps_commit (((advance_keeps _ s.dev n).trans frame).trans (modPort_keeps _ _ _)), ?_, ?_⟩
  all_goals
    dsimp only
    rw [port_of_tree (commit_tree _), port_modPort, port_of_tree tree, advance_port]
  rfl

theorem endShare_tree (d : Dev) (g : Tag) (c : Cpl) : (d.endShare g c).tree = d.tree := by
  unfold Dev.endShare
  cases d.flight g with
  | none => rfl
  | some f =>
    dsimp only
    (repeat' split) <;> rfl

theorem faultPosition_tree (d : Dev) (id : BitVec 8) : (d.faultPosition id).tree = d.tree :=
  foldl_leaves Dev.tree (fun d g => endShare_tree d g _) _ d

/-- A lost device is told of. -/
def Dev.lostTold (d : Dev) (m : Node) : Dev := (d.faultPosition m.id).post 600 4 [(m.id.toNat : Int)]

theorem lostTold_tree (d : Dev) (m : Node) : (d.lostTold m).tree = d.tree := (Dev.post_tree _ _ _ _).trans (faultPosition_tree d m.id)

theorem losePath_lost (d : Dev) (p : Nat) : ((d.losePath p).port p).lost = true := by
  let a : Dev := d.modPort p fun x => { x with up := 0, lost := true }
  obtain ⟨nodes, gone, loses⟩ : ∃ nodes, ∃ gone : List Node,
      d.losePath p = gone.foldl Dev.lostTold ({ a with tree := { a.tree with nodes := nodes } } : Dev) := ⟨_, _, rfl⟩
  rw [loses, port_of_tree (foldl_leaves Dev.tree lostTold_tree gone _)]
  exact congrArg Port.lost (port_modPort d p fun x => { x with up := 0, lost := true })

theorem endRetrain_ports (d : Dev) (p : Nat) (c : Cpl) (k : Nat) : (d.endRetrain p c).port k = d.port k := by
  unfold Dev.endRetrain
  dsimp only
  exact (foldl_leaves (fun d => d.port k) (fun d x => port_of_tree (Dev.finish_tree _ _ _) k) _ _).trans rfl

theorem path_lost {z : Nat} (down : (s.dev.port p.toNat).down = some z) (away : (s.dev.port p.toNat).isUp = false)
    (new : (s.dev.port p.toNat).lost = false) (late : z + s.dev.tree.linkTimeout * msSteps ≤ (s.dev.advance n).mono) :
    ∃ t, exec (.pathLost n p) s = .next t ∧ (t.dev.port p.toNat).lost = true := by
  have runs : exec (.pathLost n p) s = .next { s with dev :=
      (((s.dev.advance n).losePath p.toNat).endRetrain p.toNat { status := stFault, a := BitVec.ofNat 16 p.toNat }).commit } := by
    refine (onDev_runs ?_ : execPathLost n p s = _)
    dsimp only
    rw [down]
    exact if_neg (by simp [away, new, late])
  have lost := losePath_lost (s.dev.advance n) p.toNat
  generalize (s.dev.advance n).losePath p.toNat = e at *
  refine ⟨_, runs, ?_⟩
  dsimp only
  rw [port_of_tree (commit_tree _), endRetrain_ports]
  exact lost

/-- A port whose path returns. -/
def Port.back (x : Port) : Port := if x.active = 0 then x.train else x.raised

theorem back_not_lost (x : Port) : x.back.lost = false := by
  unfold Port.back
  split <;> rfl

theorem path_returns (lost : (s.dev.port p.toNat).lost = true) :
    ∃ t, exec (.pathRestored n p) s = .next t ∧ Keeps [.tree] s t ∧ (t.dev.port p.toNat).lost = false := by
  obtain ⟨nodes, ms, runs⟩ : ∃ nodes, ∃ ms : List Node, exec (.pathRestored n p) s = .next { s with dev := (ms.foldl
      (fun d m => d.post 600 5 [(m.id.toNat : Int)]) ({ (s.dev.advance n).modPort p.toNat Port.back with
        tree := { ((s.dev.advance n).modPort p.toNat Port.back).tree with nodes := nodes } } : Dev)).commit } :=
    ⟨_, _, (onDev_runs (if_neg (by simp [lost])) : execPathRestored n p s = _)⟩
  have posts := SameBut.foldl (l := [.tree]) (f := fun (d : Dev) (m : Node) => d.post 600 5 [(m.id.toNat : Int)])
    (fun d m => postAt_keeps _ _ _ _ _ _ _ _) ms
  have tree := foldl_leaves Dev.tree (f := fun (d : Dev) (m : Node) => d.post 600 5 [(m.id.toNat : Int)])
    (fun d m => Dev.post_tree _ _ _ _) ms
  refine ⟨_, runs, keeps_commit ((((advance_keeps _ s.dev n).trans (modPort_keeps _ _ _)).trans (setTree_keeps _ _)).trans (posts _)), ?_⟩
  dsimp only
  rw [port_of_tree ((commit_tree _).trans (tree _))]
  exact (congrArg Port.lost (Tab.get_mod_self _ _ _ Port.back)).trans (back_not_lost _)

end

/-! ### Training, admission and readiness (R384 to R397) -/

section
variable {s : State} (n : Nat)

section
variable (worker : s.straps.isWorker = true) (outside : s.dev.tree.admitted = false)
include worker outside

theorem training_taken (going : 3 ≤ s.dev.boot.step) (none_ : s.dev.tree.parentId = none) (r : BitVec 2 × BitVec 8) :
    ∃ t, exec (.trainingRequest n [r]) s = .next t ∧ Keeps [.tree] s t ∧ t.dev.tree.parentId = some r.2 ∧
      (t.dev.port r.1.toNat).upstream = true := by
  let a : Dev := (s.dev.advance n).modPort r.1.toNat fun x => { x.train with upstream := true }
  have runs : exec (.trainingRequest n [r]) s = .next { s with dev := ({ a with tree := { a.tree with parentId := some r.2 } } : Dev).commit } := by
    refine (onDev_runs ?_ : execTrainingRequest n [r] s = _)
    rw [if_neg (by simp [worker]; omega), if_neg (by simp [outside]), if_neg (by simp [none_])]
    rfl
  have frame : SameBut [.tree] s.dev a := (advance_keeps _ s.dev n).trans (modPort_keeps _ _ _)
  have own : (a.port r.1.toNat).upstream = true := congrArg Port.upstream (port_modPort _ _ fun x => { x.train with upstream := true })
  generalize a = e at *
  refine ⟨_, runs, keeps_commit (frame.trans (setTree_keeps _ _)), ?_, ?_⟩
  · dsimp only
    rw [commit_tree]
  · dsimp only
    rw [port_of_tree (commit_tree _)]
    exact own

theorem worker_admitted (asked : s.dev.tree.parentId.isSome = true) (parent : BitVec 8) (port : BitVec 2) (id : Ident) (given : id.given ≠ 0) :
    ∃ t, exec (.workerIdentification n parent port id) s = .next t ∧ Keeps [.tree, .boot] s t ∧ t.dev.tree.admitted = true ∧
      t.dev.tree.position = id.given ∧ t.dev.tree.path = id.givenPath := by
  let a : Dev := { s.dev.advance n with tree := { (s.dev.advance n).tree with admitted := true, position := id.given, path := id.givenPath } }
  have runs : exec (.workerIdentification n parent port id) s =
      .next { s with dev := ({ a with boot := { a.boot with admitAt := (s.dev.advance n).bootTime } } : Dev).commit } := by
    refine (onDev_runs ?_ : execWorkerIdentification n parent port id s = _)
    dsimp only
    obtain ⟨x, some_⟩ := Option.isSome_iff_exists.mp asked
    rw [if_pos worker, if_neg (by simp [outside, some_]), if_neg given]
  have frame : SameBut [.tree, .boot] s.dev a := (advance_keeps _ s.dev n).trans ((setTree_keeps _ _).mono (by simp))
  refine ⟨_, runs, keeps_commit (frame.trans ((setBoot_keeps _ _).mono (by simp))), ?_, ?_, ?_⟩
  all_goals
    dsimp only
    rw [commit_tree]

end

section
variable (manager : s.straps.isManager = true)
include manager

theorem manager_not_worker : s.straps.isWorker = false := by
  have one : s.straps.role = 1 := by simpa [Straps.isManager] using manager
  simp [Straps.isWorker, one]

theorem device_refused (stage : s.dev.tree.stage = 3) (port : BitVec 2) (id : Ident) (role : id.role ≠ 2) :
    ∃ t, exec (.workerIdentification n 0 port id) s = .next t ∧ Keeps [.tree] s t ∧
      t.dev.tree.notAdmitted = s.dev.tree.notAdmitted + 1 ∧ t.dev.tree.nodes = s.dev.tree.nodes := by
  have runs : exec (.workerIdentification n 0 port id) s = .next { s with dev := ((s.dev.advance n).notAdmit 2 0 port.toNat).commit } := by
    refine (onDev_runs ?_ : execWorkerIdentification n 0 port id s = _)
    rw [if_neg (by simp [manager_not_worker manager]), if_neg (by simp [manager])]
    dsimp only [Tree.pathOf]
    rw [if_pos rfl]
    dsimp only
    rw [if_neg (by simp [stage]), if_pos role]
    rfl
  have tree : ∀ d : Dev, (d.notAdmit 2 0 port.toNat).tree = { d.tree with notAdmitted := d.tree.notAdmitted + 1 } := fun d => Dev.post_tree _ _ _ _
  have frame : ∀ d : Dev, SameBut [.tree] d (d.notAdmit 2 0 port.toNat) := fun d => (setTree_keeps d _).trans (postAt_keeps _ _ _ _ _ _ _ _)
  refine ⟨_, runs, keeps_commit ((advance_keeps _ s.dev n).trans (frame _)), ?_, ?_⟩
  all_goals
    dsimp only
    rw [commit_tree, tree, Dev.advance_tree]

/-- What the manager notes of a device that reports. -/
def Node.reported (decaf : Bool) (m : Node) : Node := { m with ready := !decaf, decaf := decaf, step := if decaf then m.step else 11 }

theorem device_reports {m : Node} (decaf : Bool) (nodes : s.dev.tree.nodes = [m]) (there : m.lost = false) :
    ∃ t m', exec (.deviceReadyReport n m.id decaf) s = .next t ∧ Keeps [.tree] s t ∧ t.dev.tree.nodes = [m'] ∧
      m'.ready = !decaf ∧ m'.decaf = decaf := by
  let a : Dev := { s.dev.advance n with tree := { (s.dev.advance n).tree with nodes := [m.reported decaf] } }
  have runs : exec (.deviceReadyReport n m.id decaf) s = .next { s with dev :=
      (if a.tree.readySent ∧ ¬ decaf ∧ ¬ m.ready then a.post 600 2 [(m.id.toNat : Int)] else a).commit } := by
    have seen : (s.dev.advance n).tree.nodes = [m] := (congrArg Tree.nodes (Dev.advance_tree s.dev n)).trans nodes
    refine (onDev_runs ?_ : execDeviceReadyReport n m.id decaf s = _)
    rw [nodes, List.find?_cons_of_pos (by simp)]
    dsimp only
    rw [if_neg (by simp [manager, there]), seen, List.map_singleton, if_pos rfl]
    rfl
  have frame : SameBut [.tree] s.dev a := (advance_keeps _ s.dev n).trans (setTree_keeps _ _)
  have noted : a.tree.nodes = [m.reported decaf] := rfl
  generalize a = e at *
  refine ⟨_, m.reported decaf, runs, keeps_commit (frame.trans ?_), ?_, rfl, rfl⟩
  · split
    exacts [postAt_keeps _ _ _ _ _ _ _ _, .refl _ e]
  · dsimp only
    rw [commit_tree]
    split
    · rw [Dev.post_tree]
      exact noted
    · exact noted

/-- The tree is ready after a time, with the devices that are. -/
def Dev.treeUp (d : Dev) (us size : Nat) : Dev := { d with tree := { d.tree with readySent := true, brewTime := us, size := size } }

theorem tree_ready (unsent : s.dev.tree.readySent = false) (firmware : s.dev.boot.firmware = true) {us : Nat} (late : 1500000 ≤ us) :
    ∃ t, exec (.treeReady n us) s = .next t ∧ Keeps [.tree] s t ∧ t.dev.tree.readySent = true ∧ t.dev.tree.brewTime = us := by
  obtain ⟨size, xs, runs⟩ : ∃ size, ∃ xs : List Int, exec (.treeReady n us) s =
      .next { s with dev := (((s.dev.advance n).treeUp us size).post 600 1 xs).commit } :=
    ⟨_, _, (onDev_runs (if_neg (by simp [manager, unsent, firmware, late])) : execTreeReady n us s = _)⟩
  refine ⟨_, runs, keeps_commit (((advance_keeps _ s.dev n).trans (setTree_keeps _ _)).trans (postAt_keeps _ _ _ _ _ _ _ _)), ?_, ?_⟩
  all_goals
    dsimp only
    rw [commit_tree, Dev.post_tree]
    rfl

end

end

end Sys2Proof.Machine

open Sys2Proof Sys2Proof.Machine

/-- Settles O15, by following each event of a port and each report of Brew-up; result packets from below are shown to be left by every commit. -/
theorem treeEvents : Obligations.TreeEvents :=
  ⟨fun _ n _ => ⟨fun up => ⟨fun k own => result_comes n up k own, fun g set => members_come n up g set, fun b c => barrier_comes n up b c,
        bad_packet_counts n up, fun a m => lost_marker_retrains n up a m, fun a m g down => downstream_marker n up a m g down,
        fun _ _ _ _ g above new => release_comes n up above g new, fun _ _ _ _ _ g above new off => arm_comes n up above g new off,
        fun _ _ g above new => delay_comes n up above g new, fun _ real => retrain_starts n up real,
        fun _ ready real active => lane_fails n up ready real active⟩,
      fun down none_ => retrain_ends n down none_, fun _ down away new late => path_lost n down away new late, fun lost => path_returns n lost⟩,
    fun _ n => ⟨fun worker outside going none_ r => training_taken n worker outside going none_ r,
      fun worker outside asked parent port id given => worker_admitted n worker outside asked parent port id given,
      fun manager stage port id role => device_refused n manager stage port id role,
      fun manager _ decaf nodes there => device_reports n manager decaf nodes there,
      fun manager unsent firmware _ late => tree_ready n manager unsent firmware late⟩⟩
end


section
/-!
PROOFS. Commands carried across the tree, and the TREE commands (R349 to R351, R387, R388, R403).
-/
namespace Sys2Proof.Machine

/-! ### A completion of a worker goes on to the ring (R349, R350) -/

/-- A commit of one command that has ended writes its completion, and nothing else. -/
theorem commit_single {d : Dev} {f : Flight} {c : Cpl} (outbox : d.ctl.outbox = {}) (flights : d.ctl.flights = [f]) (done : f.done = some c)
    (may : d.settleEpoch.mayWrite c = true) : d.commit = (((d.begun []).commitCpl f.origin c).commitPackets []).sendLinks [] := by
  have settled : f.settled d.settleEpoch.mayWrite = true := by simp [Flight.settled, done, may]
  have formed : d.settleEpoch.ctl.outbox = {} := outbox
  have alone : d.settleEpoch.ctl.flights = [f] := flights
  have written : writeable d.settleEpoch.mayWrite [] [f] = [f] := by simpa [writeable] using settled
  have left : unwritten d.settleEpoch.mayWrite [] [f] = [] := by simpa [unwritten] using settled
  unfold Dev.commit Dev.begun
  dsimp only
  rw [formed, alone, written, left, outbox]
  simp only [List.foldl_nil, List.foldl_cons, done]

/-- The completion of another device goes into the ring as it stands. -/
theorem ringCpl_forwarded {d : Dev} {c : Cpl} (fwd : c.fwd = true) :
    (d.ringCpl c).ctl.cplOut = d.ctl.cplOut ++ [{ c with phase := d.ctl.cpl.phase }] := by
  unfold Dev.ringCpl
  simp only [fwd, if_true]
  exact of_quiet (·.ctl.cplOut) (fun _ => rfl) (signal_quiet _ _)

theorem commit_forwards {d : Dev} (p : PathOpen d) {f : Flight} {c : Cpl} (outbox : d.ctl.outbox = {}) (flights : d.ctl.flights = [f])
    (done : f.done = some c) (origin : f.origin = .ring) (rewind : d.tl.rewind = none) (fwd : c.fwd = true) :
    d.commit.ctl.cplOut = d.ctl.cplOut ++ [{ c with phase := d.ctl.cpl.phase }] := by
  have turn : d.settleEpoch.ctl.behind = false := by simp [Dev.settleEpoch, p.behind]
  have none_ : d.settleEpoch.tl.nextEpoch = none := by simp [Timeline.nextEpoch, Dev.settleEpoch, rewind]
  have may : d.settleEpoch.mayWrite c = true := by simp [Dev.mayWrite, Dev.inTurn, turn, none_]
  rw [commit_single outbox flights done may, origin]
  refine (of_quiet (·.ctl.cplOut) (fun _ => rfl) (leaving_quiet _ _ _)).trans ?_
  have direct : (d.begun []).commitCpl .ring c = (d.begun []).ringCpl c :=
    if_pos ⟨p.room, by simp [Dev.inTurn, Dev.begun, turn], p.held, p.held0⟩
  rw [direct, ringCpl_forwarded fwd]
  rfl

section
variable {s : State} (n : Nat)

/-- A completion of a worker as the manager's ring takes it. -/
def carriedCpl (f : Flight) (c : Cpl) : Cpl := { c with fwd := true, own := true, tag := f.tag, stream := f.stream, opcode := f.opcode }

theorem endShare_alone {d : Dev} {f : Flight} (c : Cpl) (flights : d.ctl.flights = [f]) (open_ : f.done = none) (single : f.group = false) :
    d.endShare f.tag (carriedCpl f c) = { d with ctl := { d.ctl with
      flights := [{ f with done := some (carriedCpl f c), targets := [] }] } } := by
  have there : d.flight f.tag = some f := by simp [Dev.flight, flights, open_]
  unfold Dev.endShare
  rw [there]
  dsimp only
  rw [single, if_neg (by simp), if_neg (by simp), flights]
  simp [modFlight, open_, carriedCpl, single]

theorem completion_carried {c : Cpl} {f : Flight} (manager : s.straps.isManager = true) (flights : s.dev.ctl.flights = [f]) (tag : f.tag = c.tag)
    (open_ : f.done = none) (single : f.group = false) (origin : f.origin = .ring) (targets : f.targets = [c.position])
    (other : c.position ≠ s.dev.tree.position) (fin : c.fin = true) (rewind : s.dev.tl.rewind = none) (p : PathOpen s.dev)
    (outbox : s.dev.ctl.outbox = {}) :
    ∃ t x, exec (.workerCompletionReceived n c) s = .next t ∧ Keeps [] s t ∧ t.dev.ctl.cplOut = s.dev.ctl.cplOut ++ [x] ∧
      x.tag = c.tag ∧ x.status = c.status ∧ x.resp = c.resp ∧ x.seq = c.seq ∧ x.position = c.position := by
  let a : Dev := { s.dev.advance n with ctl := { s.dev.ctl with flights := [{ f with done := some (carriedCpl f c), targets := [] }] } }
  have runs : exec (.workerCompletionReceived n c) s = .next { s with dev := a.commit } := by
    have there : s.dev.flight c.tag = some f := by simp [Dev.flight, flights, tag, open_]
    have later : (s.dev.advance n).ctl.flights = [f] := (congrArg Ctl.flights (advance_ctl s.dev n)).trans flights
    refine (onDev_runs ?_ : execWorkerCompletionReceived n c s = _)
    rw [there]
    dsimp only
    rw [if_neg (by simp [manager, other, targets]), if_pos fin]
    refine (endShare_alone c later open_ single).trans ?_
    rw [advance_ctl]
  have frame : SameBut [] s.dev a := (advance_keeps _ s.dev n).trans (sameBut_of_core (by
    rw [show a = { s.dev.advance n with ctl := { (s.dev.advance n).ctl with flights := [{ f with done := some (carriedCpl f c), targets := [] }] } } from by
      rw [advance_ctl]]
    exact (show _ = (s.dev.advance n).core from rfl)) _)
  have path : a.cplPath = s.dev.cplPath := rfl
  have out := commit_forwards (p.congr path) (c := carriedCpl f c) outbox rfl rfl origin
    ((congrArg Timeline.rewind (show a.tl = (s.dev.advance n).tl from rfl)).trans ((Dev.advance_tl_rewind s.dev n).trans rewind)) rfl
  exact ⟨_, _, runs, keeps_commit frame, out, tag, rfl, rfl, rfl, rfl⟩

/-! ### A command that goes down the tree (R351, R396) -/

/-- The flight of a command that has come down the tree. -/
def treeFlight (e : Entry) : Flight :=
  { tag := e.tag, stream := e.stream, opcode := e.opcode, origin := .tree, respLen := some e.respLen.toNat, buffers := entryBuffers e }

/-- The device with a command from above in flight. -/
def Dev.commandTaken (d : Dev) (e : Entry) : Dev :=
  { d with ctl := { d.ctl with flights := [treeFlight e], orphans := d.orphaned e.tag } }

theorem newFlight_tree (d : Dev) {e : Entry} (kind : e.tkind = 1) : d.newFlight { e with perdev := false } .tree = treeFlight e := by
  unfold Dev.newFlight treeFlight
  rw [kind]
  rfl

theorem takeEntry_tree {d : Dev} {e : Entry} (args : Bytes) (flights : d.ctl.flights = []) (good : entryBad e = false) (kind : e.tkind = 1) :
    d.takeEntry false { e with perdev := false } args .tree = d.commandTaken e := by
  have none_ : d.flight e.tag = none := by simp [Dev.flight, flights]
  have named : entryBad { e with perdev := false } = false := good
  unfold Dev.takeEntry
  dsimp only
  rw [none_, if_neg (by simp), if_neg (by rw [named]; exact Bool.false_ne_true), newFlight_tree d kind, flights]
  exact if_pos rfl

/-- A command that goes on to other positions is sent on. -/
def Dev.sentOn (d : Dev) (e : Entry) (args : Bytes) (onward : BitVec 4) (gated : Bool) : Dev :=
  if onward = 0 then d else d.linkOut (.command e args onward gated)

theorem sentOn_leaves (d : Dev) (e : Entry) (args : Bytes) (onward : BitVec 4) (gated : Bool) :
    SameBut [] d (d.sentOn e args onward gated) ∧ (d.sentOn e args onward gated).ctl.flights = d.ctl.flights := by
  unfold Dev.sentOn
  split
  exacts [⟨.refl _ d, rfl⟩, ⟨linkOut_keeps _ d _, rfl⟩]

theorem gateTaken_starts {d : Dev} {e : Entry} (there : (d.flight e.tag).isSome = true) (gated : Bool) :
    (d.gateTaken e gated).cap.heldStarts.contains e.tag = gated := by
  unfold Dev.gateTaken
  dsimp only
  rw [there]
  cases gated <;> simp

theorem commandTaken_leaves (d : Dev) (e : Entry) (gated : Bool) : SameBut [.cap] d ((d.commandTaken e).gateTaken e gated) ∧
    ((d.commandTaken e).gateTaken e gated).ctl.flights = [treeFlight e] ∧
      ((d.commandTaken e).gateTaken e gated).cap.heldStarts.contains e.tag = gated := by
  have there : ((d.commandTaken e).flight e.tag).isSome = true := by simp [Dev.flight, Dev.commandTaken, treeFlight]
  have taken : SameBut [.cap] d (d.commandTaken e) := sameBut_of_core (by rfl) _
  exact ⟨taken.trans (setCap_keeps _ _), rfl, gateTaken_starts there gated⟩

theorem commit_open_flights {d : Dev} {e : Entry} (alone : d.ctl.flights = [treeFlight e]) : d.commit.ctl.flights = [treeFlight e] := by
  have left := congrArg Prod.fst (commit_waitingPath d)
  dsimp only at left
  refine left.trans ?_
  rw [alone]
  exact (writeable_of_open _ (by simp [treeFlight]) _).2

section
variable {e : Entry} (args : Bytes) (member : Bool) (onward : BitVec 4) (gated : Bool) (inside : s.dev.tree.admitted = true)
  (kind : e.tkind = 1) (own : e.tid = s.dev.tree.position) (flights : s.dev.ctl.flights = []) (good : entryBad e = false)
include inside kind own flights good

theorem command_runs : exec (.forwardedCommand n ⟨e, args⟩ ⟨member, onward, gated⟩) s =
    .next { s with dev := ((((s.dev.advance n).sentOn e args onward gated).commandTaken e).gateTaken e gated).commit } := by
  have same := (sentOn_leaves (s.dev.advance n) e args onward gated).2
  rw [advance_ctl, flights] at same
  refine (onDev_runs ?_ : execForwardedCommand n ⟨e, args⟩ ⟨member, onward, gated⟩ s = _)
  have mine : (e.tkind == 1 && e.tid == s.dev.tree.position || e.tkind == 2 && member || e.tkind == 3) = true := by simp [kind, own]
  dsimp only
  rw [if_neg (by rw [inside, mine]; simp), if_pos mine]
  exact congrArg (fun d => d.gateTaken e gated) (takeEntry_tree args same good kind)

theorem command_taken :
    ∃ t f, exec (.forwardedCommand n ⟨e, args⟩ ⟨member, onward, gated⟩) s = .next t ∧ Keeps [.cap] s t ∧ t.dev.ctl.flights = [f] ∧
      f.tag = e.tag ∧ f.opcode = e.opcode ∧ f.origin = .tree ∧ f.accepted = false ∧ t.dev.cap.heldStarts.contains e.tag = gated := by
  have runs := command_runs n args member onward gated inside kind own flights good
  have frame := (advance_keeps [.cap] s.dev n).trans ((sentOn_leaves (s.dev.advance n) e args onward gated).1.mono (by simp))
  generalize (s.dev.advance n).sentOn e args onward gated = d at *
  obtain ⟨keeps, alone, starts⟩ := commandTaken_leaves d e gated
  generalize (d.commandTaken e).gateTaken e gated = b at *
  have stays := commit_open_flights alone
  refine ⟨_, treeFlight e, runs, keeps_commit (frame.trans keeps), ?_, rfl, rfl, rfl, rfl, ?_⟩
  all_goals dsimp only
  · exact stays
  · rw [commit_cap_of (fun c => c.heldStarts.contains e.tag) (fun _ => rfl)]
    exact starts

end

end

/-! ### The TREE commands (R387, R388, R403) -/

section
variable {s : State} {h : Hdr} (i : Idle s h)

/-- What TREE.STATE says of this device. -/
def Dev.ownState (d : Dev) (role : Nat) : List Int :=
  [(d.tree.position.toNat : Int), (pathCode d.tree.path : Int), (role : Int),
      (ctlStepping : Int), (d.boot.ended : Int), rb (d.boot.ready && d.fc.decaf.isNone), rb d.fc.decaf.isSome] ++
    ((List.range 4).flatMap fun p => (d.port p).figures) ++
    [(d.tree.hopDelay : Int), (d.tree.rootDelay : Int), rb d.tree.isAligned, (d.tree.groupsOf d.tree.position.toNat : Int)]

/-- What TREE.STATE says of another position. -/
def nodeState (groups : Node → Nat) (a : Dev × List Int) (m : Node) : Dev × List Int :=
  (a.1.fresh.2, a.2 ++ [(m.id.toNat : Int), (pathCode m.path : Int), (m.role.toNat : Int), (m.stepping.toNat : Int),
      (m.step : Int), rb m.ready, rb m.decaf] ++
    ((List.range 4).flatMap fun p =>
      [(bits a.1.fresh.1 (8 * p) 2 : Int), (bits a.1.fresh.1 (8 * p + 2) 3 : Int), (bits a.1.fresh.1 (8 * p + 5) 1 : Int),
        (bits a.1.fresh.1 (8 * p + 6) 1 : Int)]) ++
    [(bits a.1.fresh.1 32 32 : Int), (bits a.1.fresh.1 64 32 : Int), (bits a.1.fresh.1 96 1 : Int), (groups m : Int)])

theorem ownState_length (d : Dev) (role : Nat) : (d.ownState role).length = 27 := by
  have ports : ((List.range 4).flatMap fun p => (d.port p).figures).length = 16 := by
    rw [List.length_flatMap]
    rfl
  unfold Dev.ownState
  simp only [List.length_append, ports, List.length_cons, List.length_nil]

theorem nodeState_length (groups : Node → Nat) (a : Dev × List Int) (m : Node) : (nodeState groups a m).2.length = a.2.length + 27 := by
  have ports : ∀ v : Nat, ((List.range 4).flatMap fun p =>
      [(bits v (8 * p) 2 : Int), (bits v (8 * p + 2) 3 : Int), (bits v (8 * p + 5) 1 : Int), (bits v (8 * p + 6) 1 : Int)]).length = 16 := fun v => by
    rw [List.length_flatMap]
    rfl
  unfold nodeState
  simp only [List.length_append, ports, List.length_cons, List.length_nil]

/-- Values that no part of the device stands for are drawn. -/
theorem free_keeps (d : Dev) (k : Nat) : SameBut [] d { d with free := k } := fun p _ => by
  cases p <;> first | rfl | exact Timeline.kept_refl _

theorem nodeStates (groups : Node → Nat) (ms : List Node) (d : Dev) (x : Int) (xs : List Int) :
    ∃ k ys, ms.foldl (nodeState groups) (d, x :: xs) = ({ d with free := k }, x :: ys) ∧ (x :: ys).length = (x :: xs).length + 27 * ms.length := by
  induction ms generalizing d xs with
  | nil => exact ⟨d.free, xs, rfl, rfl⟩
  | cons m ms ih =>
    obtain ⟨ys, list⟩ : ∃ ys, nodeState groups (d, x :: xs) m = ({ d with free := d.free + 1 }, x :: ys) := ⟨_, rfl⟩
    have length := nodeState_length groups (d, x :: xs) m
    rw [list] at length
    obtain ⟨k, zs, folds, sum⟩ := ih { d with free := d.free + 1 } ys
    refine ⟨k, zs, ?_, ?_⟩
    · rw [List.foldl_cons, list, folds]
    · rw [sum, length]
      simp only [List.length_cons]
      omega

include i

theorem treeState_reports : ∃ t r, exec (.treeState h) s = .next t ∧ Keeps [] s t ∧ Answers s t h 0x0E00 stOk r ∧
    r.length = 27 * (1 + s.dev.tree.nodes.length) ∧ r.head? = some (s.dev.tree.position.toNat : Int) := by
  have tree : (s.dev.takenUp h 0x0E00).tree = s.dev.tree := takenUp_reads Dev.tree (fun _ _ _ => rfl) (by decide) _ _
  have kept := takenUp_keeps [] s.dev h 0x0E00 (by decide)
  have quiet : Quiet (s.dev.takenUp h 0x0E00) (s.dev.takenUp h 0x0E00) := .refl _
  have runs : exec (.treeState h) s = .next { s with dev :=
      ((((s.dev.takenUp h 0x0E00).tree.nodes.foldl (nodeState fun m => (s.dev.takenUp h 0x0E00).tree.groupsOf m.id.toNat)
        (s.dev.takenUp h 0x0E00, (s.dev.takenUp h 0x0E00).ownState s.straps.role.toNat)).1).okResp h.tag
        ((s.dev.takenUp h 0x0E00).tree.nodes.foldl (nodeState fun m => (s.dev.takenUp h 0x0E00).tree.groupsOf m.id.toNat)
        (s.dev.takenUp h 0x0E00, (s.dev.takenUp h 0x0E00).ownState s.straps.role.toNat)).2).commit } :=
    (hostCmd_runs i 0x0E00 rfl : execTreeState h s = _)
  have own := ownState_length (s.dev.takenUp h 0x0E00) s.straps.role.toNat
  obtain ⟨xs, list⟩ : ∃ xs, (s.dev.takenUp h 0x0E00).ownState s.straps.role.toNat = ((s.dev.takenUp h 0x0E00).tree.position.toNat : Int) :: xs :=
    ⟨_, rfl⟩
  rw [list] at runs own
  obtain ⟨k, ys, folds, length⟩ := nodeStates (fun m => (s.dev.takenUp h 0x0E00).tree.groupsOf m.id.toNat) (s.dev.takenUp h 0x0E00).tree.nodes
    (s.dev.takenUp h 0x0E00) ((s.dev.takenUp h 0x0E00).tree.position.toNat : Int) xs
  rw [folds] at runs
  rw [own] at length
  refine ⟨_, _, runs, keeps_of_takenUp (op := 0x0E00) (by decide) ((free_keeps _ k).trans (okResp_keeps _ _ _ _)),
    answers_okResp i 0x0E00 _ _ rfl (.inl (by decide)), ?_, ?_⟩
  · refine length.trans ?_
    rw [tree]
    omega
  · exact congrArg (fun t : Tree => some (t.position.toNat : Int)) tree

/-- A device that has set a group. -/
def Dev.groupSet (d : Dev) (g : BitVec 8) (m : BitVec 256) : Dev :=
  { d.linkOut (.members (g.setWidth 5) m) with tree := { d.tree with groups := d.tree.groups.set 0 g.toNat m } }

theorem treeGroup_sets {g : BitVec 8} {m : BitVec 256} (manager : s.straps.isManager = true) (low : g.toNat ≤ 31)
    (known : ∀ k, k < 256 → m.getLsbD k = true → k = 0 ∨ ∃ x ∈ s.dev.tree.nodes, x.id.toNat = k) :
    ∃ t, exec (.treeGroup h g m) s = .next t ∧ Keeps [.tree] s t ∧ Answers s t h 0x0E01 stOk [] ∧ t.dev.tree.groups.get 0 g.toNat = m := by
  have tree : (s.dev.takenUp h 0x0E01).tree = s.dev.tree := takenUp_reads Dev.tree (fun _ _ _ => rfl) (by decide) _ _
  have all : ((List.range 256).all fun k => !m.getLsbD k || k == 0 || (s.dev.takenUp h 0x0E01).tree.nodes.any fun x => x.id.toNat == k) = true := by
    rw [tree, List.all_eq_true]
    intro k mem
    have small := List.mem_range.mp mem
    by_cases bit : m.getLsbD k = true
    · rcases known k small bit with zero | ⟨x, there, named⟩
      · simp [zero]
      · have found : (s.dev.tree.nodes.any fun x => x.id.toNat == k) = true := List.any_eq_true.mpr ⟨x, there, by simp [named]⟩
        rw [found, Bool.or_true]
    · rw [Bool.eq_false_iff.mpr bit]
      rfl
  have runs : exec (.treeGroup h g m) s = .next { s with dev := (((s.dev.takenUp h 0x0E01).groupSet g m).ok h.tag).commit } := by
    have free : ((s.dev.takenUp h 0x0E01).ctl.flights.any fun f => f.done == none && f.gid == some (g.setWidth 5)) = false := by
      rw [takenUp_flights i]
      rfl
    refine (hostCmd_runs i 0x0E01 ?_ : execTreeGroup h g m s = _)
    generalize s.dev.takenUp h 0x0E01 = d at *
    dsimp only
    rw [if_neg (by simp [manager_not_worker manager]), if_neg (by simp [manager]), if_neg (by omega), all, if_neg (by simp), free,
      if_neg Bool.false_ne_true]
    rfl
  have frame : SameBut [.tree] (s.dev.takenUp h 0x0E01) ((s.dev.takenUp h 0x0E01).groupSet g m) := (linkOut_keeps _ _ _).trans (setTree_keeps _ _)
  have quiet : Quiet (s.dev.takenUp h 0x0E01) ((s.dev.takenUp h 0x0E01).groupSet g m) := (linkOut_quiet _ (.members (g.setWidth 5) m)).trans ⟨rfl, rfl⟩
  have set_ : ((s.dev.takenUp h 0x0E01).groupSet g m).tree.groups.get 0 g.toNat = m := (Tab.get_set _ _ _ _ _).trans (if_pos rfl)
  generalize (s.dev.takenUp h 0x0E01).groupSet g m = e at *
  refine ⟨_, runs, keeps_of_takenUp (op := 0x0E01) (by decide) (frame.trans (ok_keeps _ _ _)), quiet.answers_ok i 0x0E01, ?_⟩
  dsimp only
  rw [commit_tree, Dev.ok_tree]
  exact set_

/-- A device whose discovery begins again. -/
def Dev.rescanned (d : Dev) (g : Tag) : Dev := { d with tree := { d.tree with
  stage := 3, fixed := (d.tree.nodes.map fun x => x.id.toNat).foldl max 0, notAdmitted := 0, rescan := some (g, 0) } }

theorem treeRescan_begins (manager : s.straps.isManager = true) (idle : s.dev.allIdle = true) (none_ : s.dev.tree.rescan = none) :
    ∃ t, exec (.treeRescan h true) s = .next t ∧ Keeps [.tree] s t ∧ Waits s t h 0x0E02 ∧ t.dev.tree.stage = 3 ∧
      t.dev.tree.rescan = some (h.tag, 0) := by
  have rest : (s.dev.takenUp h 0x0E02).allIdle = true := (takenUp_reads Dev.allIdle (fun _ _ _ => rfl) (by decide) _ _).trans idle
  have free : (s.dev.takenUp h 0x0E02).tree.rescan = none := (takenUp_reads (fun d => d.tree.rescan) (fun _ _ _ => rfl) (by decide) _ _).trans none_
  have runs : exec (.treeRescan h true) s = .next { s with dev := (((s.dev.takenUp h 0x0E02).rescanned h.tag).accept h.tag).commit } := by
    refine (hostCmd_runs i 0x0E02 ?_ : execTreeRescan h true s = _)
    generalize s.dev.takenUp h 0x0E02 = d at *
    dsimp only
    rw [if_neg (by simp [manager_not_worker manager]), if_neg (by simp [manager]), if_neg (by simp [rest, free])]
    rfl
  have frame : SameBut [.tree] (s.dev.takenUp h 0x0E02) ((s.dev.takenUp h 0x0E02).rescanned h.tag) := setTree_keeps _ _
  have quiet : Quiet ((s.dev.takenUp h 0x0E02).accept h.tag) (((s.dev.takenUp h 0x0E02).rescanned h.tag).accept h.tag) := ⟨rfl, rfl⟩
  refine ⟨_, runs, keeps_of_takenUp (op := 0x0E02) (by decide) (frame.trans (accept_keeps _ _ _)), quiet.waits i, ?_, ?_⟩
  all_goals
    dsimp only
    rw [commit_tree]
    rfl

section
variable {p : BitVec 8} (low : p.toNat ≤ 3) (down : (s.dev.port p.toNat).upstream = false)
include low down

theorem treePort_reports : ∃ t, exec (.treePort h p 0 false) s = .next t ∧ Keeps [] s t ∧
    Answers s t h 0x0E03 stOk [((s.dev.port p.toNat).byte : Int)] := by
  have port : (s.dev.takenUp h 0x0E03).port p.toNat = s.dev.port p.toNat := takenUp_reads (fun d => d.port p.toNat) (fun _ _ _ => rfl) (by decide) _ _
  have runs : exec (.treePort h p 0 false) s =
      .next { s with dev := ((s.dev.takenUp h 0x0E03).okResp h.tag [((s.dev.port p.toNat).byte : Int)]).commit } := by
    refine (hostCmd_runs i 0x0E03 ?_ : execTreePort h p 0 false s = _)
    generalize s.dev.takenUp h 0x0E03 = d at *
    dsimp only
    rw [port, if_neg (by rw [down]; simp; omega), if_neg (by decide), if_pos (.inl rfl)]
  exact ⟨_, runs, keeps_of_takenUp (op := 0x0E03) (by decide) (okResp_keeps _ _ _ _), answers_okResp i 0x0E03 _ _ rfl (.inl (by decide))⟩

/-- A device that notes which command waits for a retrain. -/
def Dev.retrainAwaited (d : Dev) (g : Tag) (p : Nat) : Dev := { d with tree := { d.tree with resTag := d.tree.resTag ++ [(g, BitVec.ofNat 2 p)] } }

theorem treePort_retrains (up : (s.dev.port p.toNat).isUp = true) :
    ∃ t, exec (.treePort h p 1 true) s = .next t ∧ Keeps [.tree] s t ∧ Waits s t h 0x0E03 ∧ (t.dev.port p.toNat).up = 1 := by
  have port : (s.dev.takenUp h 0x0E03).port p.toNat = s.dev.port p.toNat := takenUp_reads (fun d => d.port p.toNat) (fun _ _ _ => rfl) (by decide) _ _
  have runs : exec (.treePort h p 1 true) s = .next { s with dev :=
      ((((s.dev.takenUp h 0x0E03).retrainAwaited h.tag p.toNat).accept h.tag).retrain p.toNat 3).commit } := by
    refine (hostCmd_runs i 0x0E03 ?_ : execTreePort h p 1 true s = _)
    generalize s.dev.takenUp h 0x0E03 = d at *
    dsimp only
    rw [port, if_neg (by rw [down]; simp; omega), if_neg (by decide), if_neg (by rw [up]; decide), if_neg (by decide)]
    rfl
  have frame : SameBut [.tree] (s.dev.takenUp h 0x0E03) ((s.dev.takenUp h 0x0E03).retrainAwaited h.tag p.toNat) := setTree_keeps _ _
  have awaits : Quiet ((s.dev.takenUp h 0x0E03).accept h.tag) (((s.dev.takenUp h 0x0E03).retrainAwaited h.tag p.toNat).accept h.tag) := ⟨rfl, rfl⟩
  have retrains : ∀ d : Dev, Quiet d (d.retrain p.toNat 3) := fun d =>
    Quiet.trans (b := ({ d.modPort p.toNat fun x => { x with up := 1, down := some d.mono, replays := [] } with
      tree := { (d.modPort p.toNat fun x => { x with up := 1, down := some d.mono, replays := [] }).tree with
        retrains := satAdd (2 ^ 32 - 1) d.tree.retrains 1 } } : Dev)) ⟨rfl, rfl⟩ (postAt_quiet _ _ _ _ _ _ _)
  refine ⟨_, runs, keeps_of_takenUp (op := 0x0E03) (by decide) ((frame.trans (accept_keeps _ _ _)).trans (retrain_keeps _ _ _)),
    (awaits.trans (retrains _)).waits i, ?_⟩
  dsimp only
  rw [port_of_tree (commit_tree _)]
  exact retrain_up _ _ _

end

end

end Sys2Proof.Machine

open Sys2Proof Sys2Proof.Machine

/-- Settles O16, by following each command; a commit of a worker's completion is shown to write it as it stands. -/
theorem treeCommands : Obligations.TreeCommands :=
  ⟨fun _ n => ⟨fun _ args member onward gated inside kind own flights good => command_taken n args member onward gated inside kind own flights good,
      fun _ _ manager flights tag open_ single origin targets behind other fin rewind room held held0 outbox =>
        completion_carried n manager flights tag open_ single origin targets other fin rewind ⟨room, held, held0, behind, by rw [outbox]⟩ outbox⟩,
    fun _ _ i => ⟨treeState_reports i, fun _ _ manager low known => treeGroup_sets i manager low known,
      fun manager idle none_ => treeRescan_begins i manager idle none_,
      fun _ low down => ⟨treePort_reports i low down, fun up => treePort_retrains i low down up⟩⟩⟩

end


section
/-!
PROOFS. The control rings: the fetch of a command, the drains of held records and result packets, DMA granules and interrupt hold-off (R344,
R347 to R355).
-/
namespace Sys2Proof.Machine

theorem setCtl_keeps (d : Dev) (x : Ctl) : SameBut [.ctl] d { d with ctl := x } :=
  sameBut_single fun p hp => by cases p <;> first | exact absurd rfl hp | rfl | exact Timeline.kept_refl _

/-! ### The fetch of a command (R344, R347) -/

section
variable {s : State} (n : Nat)

/-- The flight of a fetched command that names no target. -/
def fetchedFlight (e : Entry) : Flight :=
  { tag := e.tag, stream := e.stream, opcode := e.opcode, perdev := e.perdev, respLen := some e.respLen.toNat, buffers := entryBuffers e }

theorem newFlight_fetched (d : Dev) {e : Entry} (kind : e.tkind = 0) : d.newFlight e .ring = fetchedFlight e := by
  unfold Dev.newFlight fetchedFlight Dev.entryTargets
  rw [kind]
  rfl

theorem takeEntry_fetched {d : Dev} (standalone : Bool) {e : Entry} {args : Bytes} (flights : d.ctl.flights = []) (good : entryBad e = false)
    (right : argsBad e args = false) (kind : e.tkind = 0) :
    d.takeEntry standalone e args .ring = { d with ctl := { d.ctl with flights := [fetchedFlight e], orphans := d.orphaned e.tag } } := by
  have none_ : d.flight e.tag = none := by simp [Dev.flight, flights]
  have own : ∀ f : Dev, f.targetGood standalone e = true := fun f => by simp [Dev.targetGood, kind]
  unfold Dev.takeEntry
  dsimp only
  rw [none_, if_neg (by simp), if_neg (by rw [good, right, own]; decide), newFlight_fetched d kind, flights]
  exact if_pos rfl

/-- The device whose command ring has been read at its head, with the delay that its dispatch took. -/
def Dev.cmdRead (d : Dev) : Dev :=
  { d with
    free := d.free + 1
    ctl := { d.ctl with
      cmd := { d.ctl.cmd with head := (d.ctl.cmd.head + 1) % max 1 d.ctl.cmd.size.toNat }
      dispatchMax := max d.ctl.dispatchMax (Config.free d.free % 501) } }

/-- The device with a fetched command in flight. -/
def Dev.cmdTaken (d : Dev) (e : Entry) : Dev :=
  { d.cmdRead with ctl := { d.cmdRead.ctl with flights := [fetchedFlight e], orphans := d.cmdRead.orphaned e.tag } }

theorem fetch_runs {entry args : Bytes} {e : Entry} (named : entryOf entry = e) (up : barUp s = true) (flights : s.dev.ctl.flights = [])
    (on : s.dev.ctl.cmd.en = true) (more : s.dev.ctl.cmd.head ≠ s.dev.ctl.cmd.tail) (good : entryBad e = false)
    (right : argsBad e (argBytes entry args) = false) (kind : e.tkind = 0) :
    exec (.commandFetch n ⟨entry, args⟩) s = .next { s with dev := ((s.dev.advance n).cmdTaken e).commit } := by
  rw [← advance_ctl s.dev n] at flights on more
  refine (onBar_up up n _ : execCommandFetch n ⟨entry, args⟩ s = _).trans
    (congrArg (fun d : Dev => Host.Outcome.next { s with dev := d.commit }) ?_)
  generalize s.dev.advance n = d at *
  have empty : d.cmdRead.ctl.flights = [] := flights
  have takes := takeEntry_fetched s.straps.isStandalone empty good right kind
  dsimp only
  rw [if_neg (by simp [on, more]), named]
  exact takes

theorem command_fetched {entry args : Bytes} {e : Entry} (named : entryOf entry = e) (up : barUp s = true) (flights : s.dev.ctl.flights = [])
    (outbox : s.dev.ctl.outbox = {}) (on : s.dev.ctl.cmd.en = true) (more : s.dev.ctl.cmd.head ≠ s.dev.ctl.cmd.tail) (good : entryBad e = false)
    (right : argsBad e (argBytes entry args) = false) (kind : e.tkind = 0) :
    ∃ t f, exec (.commandFetch n ⟨entry, args⟩) s = .next t ∧ Keeps [.ctl] s t ∧
      t.dev.ctl.cmd.head = (s.dev.ctl.cmd.head + 1) % max 1 s.dev.ctl.cmd.size.toNat ∧ t.dev.ctl.flights = [f] ∧
      f.tag = e.tag ∧ f.stream = e.stream ∧ f.opcode = e.opcode ∧ f.origin = .ring ∧ f.accepted = false ∧ f.done = none := by
  have runs := fetch_runs n named up flights on more good right kind
  have frame := advance_keeps [.ctl] s.dev n
  rw [← advance_ctl s.dev n] at outbox ⊢
  generalize s.dev.advance n = d at *
  have taken : SameBut [.ctl] d (d.cmdTaken e) :=
    ((free_keeps d (d.free + 1)).mono (by simp)).trans (setCtl_keeps { d with free := d.free + 1 } (d.cmdTaken e).ctl)
  have still := commit_still (d := d.cmdTaken e) outbox (by simp [Dev.cmdTaken, fetchedFlight])
  generalize commit_eq : (d.cmdTaken e).commit = b at *
  refine ⟨_, fetchedFlight e, runs, commit_eq ▸ keeps_commit (frame.trans taken), ?_, ?_, rfl, rfl, rfl, rfl, rfl, rfl⟩
  · exact (of_still (fun d => d.ctl.cmd.head) (fun _ => rfl) still :)
  · exact (of_still (fun d => d.ctl.flights) (fun _ => rfl) still :)

end

/-! ### Held records go out (R350, R353) -/

section
variable {s : State} (n : Nat)

/-- The device but for the bytes that it is about to write into the host's memory. -/
def Dev.unsaid (d : Dev) : Dev := { d with ctl := { d.ctl with outbox := { d.ctl.outbox with written := [] } } }

theorem keepWritten_unsaid (d : Dev) : d.keepWritten.unsaid = d.unsaid := by
  unfold Dev.keepWritten
  split
  exacts [rfl, rfl]

/-- What can be read of that part is the same after the last record's bytes are kept. -/
theorem of_unsaid {γ : Type} (v : Dev → γ) (r : ∀ d : Dev, v d.unsaid = v d) (d : Dev) : v d.keepWritten = v d :=
  (r _).symm.trans ((congrArg v (keepWritten_unsaid d)).trans (r d))

/-- A record that goes out with its bytes, and no more, leaves the rest at the commit. -/
theorem keepWritten_still {d : Dev} {w : List (Nat × Bytes)} (outbox : d.ctl.outbox = { written := w }) (flights : d.ctl.flights = []) :
    d.keepWritten.commit.still = d.keepWritten.still := by
  refine commit_still_of ?_ ?_ ?_ ?_
  · rw [of_unsaid (·.ctl.outbox.events) (fun _ => rfl), outbox]
  · rw [of_unsaid (·.ctl.outbox.interim) (fun _ => rfl), outbox]
  · rw [of_unsaid (·.ctl.outbox.packets) (fun _ => rfl), outbox]
  · rw [of_unsaid (·.ctl.flights) (fun _ => rfl), flights]
    simp

/-- The device and the part of its control complex that the commit leaves, after a record has gone out. -/
theorem keepWritten_reads {γ : Type} (v : Dev → γ) (r : ∀ d : Dev, v d.still = v d) (u : ∀ d : Dev, v d.unsaid = v d) {d : Dev}
    (outbox : d.ctl.outbox = {}) (flights : d.ctl.flights = []) : v d.keepWritten.commit = v d :=
  (of_still v r (keepWritten_still (w := []) outbox flights)).trans (of_unsaid v u d)

theorem keepWritten_keeps (l : List Part) (d : Dev) : SameBut l d d.keepWritten :=
  sameBut_of_core (by unfold Dev.keepWritten; split <;> rfl) l

/-- What a completion names stays with its stamp; the response of a TL.NOW alone is formed with it. -/
theorem stampCpl_names (d : Dev) (c : Cpl) : (d.stampCpl c).tag = c.tag ∧ (d.stampCpl c).status = c.status ∧
    (c.opcode ≠ 0x0100 → (d.stampCpl c).resp = c.resp) := by
  unfold Dev.stampCpl
  dsimp only
  split
  · exact ⟨rfl, rfl, fun other => if_neg (other ·.1)⟩
  · exact ⟨rfl, rfl, fun other => if_neg (other ·.1)⟩

/-- A completion takes the next entry of its ring. -/
theorem ringCpl_appends (d : Dev) (c : Cpl) : ∃ x, (d.ringCpl c).ctl.cplOut = d.ctl.cplOut ++ [x] ∧ x.tag = c.tag ∧ x.status = c.status ∧
    (c.opcode ≠ 0x0100 → x.resp = c.resp) := by
  cases fwd : c.fwd with
  | true => exact ⟨_, ringCpl_forwarded fwd, rfl, rfl, fun _ => rfl⟩
  | false =>
    have kept : d.takeSeq.ctl.cplOut = d.ctl.cplOut := of_quiet (·.ctl.cplOut) (fun _ => rfl) (takeSeq_quiet d)
    refine ⟨{ d.stampCpl c with phase := d.ctl.cpl.phase }, ?_, stampCpl_names d c⟩
    unfold Dev.ringCpl
    rw [of_quiet (·.ctl.cplOut) (fun _ => rfl) (signal_quiet _ _)]
    simp only [stampCpl_fwd, fwd, Bool.false_eq_true, if_false, kept]

/-- The device whose first held completion has been taken out. -/
def Dev.heldTaken (d : Dev) (cs : List Cpl) : Dev := { d with ctl := { d.ctl with heldCpl := cs } }

theorem ringCpl_heldCpl (d : Dev) (c : Cpl) : (d.ringCpl c).ctl.heldCpl = d.ctl.heldCpl := by
  unfold Dev.ringCpl
  refine (of_quiet (·.ctl.heldCpl) (fun _ => rfl) (signal_quiet _ _)).trans ?_
  exact (of_quiet (·.ctl.heldCpl) (fun _ => rfl) (ownSeq_quiet d (if c.fwd then c else d.stampCpl c).fwd) :)

theorem completion_drained (flights : s.dev.ctl.flights = []) (outbox : s.dev.ctl.outbox = {}) {c : Cpl} {cs : List Cpl}
    (room : s.dev.ctl.cpl.room = true) (first : s.dev.ctl.heldCpl0 = []) (held : s.dev.ctl.heldCpl = c :: cs) (may : s.dev.mayWrite c = true) :
    ∃ t x, exec (.heldCompletionDrain n) s = .next t ∧ Keeps [] s t ∧ t.dev.ctl.heldCpl = cs ∧
      t.dev.ctl.cplOut = s.dev.ctl.cplOut ++ [x] ∧ x.tag = c.tag ∧ x.status = c.status ∧ (c.opcode ≠ 0x0100 → x.resp = c.resp) := by
  have runs : exec (.heldCompletionDrain n) s =
      .next { s with dev := ((((s.dev.advance n).heldTaken cs).ringCpl c).keepWritten).commit } := by
    refine (onDev_runs ?_ : execHeldCompletionDrain n s = _)
    dsimp only
    rw [if_neg (by simp [room]), first, held]
    dsimp only
    rw [if_pos may, Dev.heldTaken]
    dsimp only
    rw [advance_ctl, first]
  have frame := advance_keeps [] s.dev n
  rw [← advance_ctl s.dev n] at flights outbox ⊢
  generalize s.dev.advance n = b at *
  have taken : SameBut [] b (b.heldTaken cs) := sameBut_of_core (by rfl) _
  have formed : (b.heldTaken cs).ctl.outbox = {} := outbox
  have alone : (b.heldTaken cs).ctl.flights = [] := flights
  have out : (b.heldTaken cs).ctl.cplOut = b.ctl.cplOut := rfl
  have left : (b.heldTaken cs).ctl.heldCpl = cs := rfl
  generalize b.heldTaken cs = d at *
  obtain ⟨sameOutbox, sameFlights, -⟩ := ringCpl_rest d c
  obtain ⟨x, appended, names⟩ := ringCpl_appends d c
  rw [formed] at sameOutbox
  rw [alone] at sameFlights
  refine ⟨_, x, runs, keeps_commit (((frame.trans taken).trans (sameBut_of_core (ringCpl_core d c) _)).trans (keepWritten_keeps _ _)), ?_, ?_, names⟩
  · dsimp only
    refine (keepWritten_reads (·.ctl.heldCpl) (fun _ => rfl) (fun _ => rfl) sameOutbox sameFlights).trans ?_
    rw [ringCpl_heldCpl, left]
  · dsimp only
    refine (keepWritten_reads (·.ctl.cplOut) (fun _ => rfl) (fun _ => rfl) sameOutbox sameFlights).trans ?_
    rw [appended, out]

theorem ownSeq_events (d : Dev) (has : Bool) : (if has then d else d.takeSeq).ctl.heldEvt = d.ctl.heldEvt ∧
    (if has then d else d.takeSeq).ctl.evtOut = d.ctl.evtOut := by
  cases has with
  | true => exact ⟨rfl, rfl⟩
  | false => exact ⟨of_still (·.ctl.heldEvt) (fun _ => rfl) (takeSeq_still d), of_still (·.ctl.evtOut) (fun _ => rfl) (takeSeq_still d)⟩

theorem upEvent_events (d : Dev) (e : Evt) : (d.upEvent e).ctl.heldEvt = d.ctl.heldEvt ∧ (d.upEvent e).ctl.evtOut = d.ctl.evtOut :=
  ownSeq_events d e.fwd

theorem signal_heldEvt (d : Dev) (v : Nat) : (d.signal v).ctl.heldEvt = d.ctl.heldEvt := by
  unfold Dev.signal Dev.message
  dsimp only
  split <;> rfl

theorem ringEvt_heldEvt (d : Dev) (e : Evt) : (d.ringEvt e).ctl.heldEvt = d.ctl.heldEvt :=
  (signal_heldEvt _ _).trans (ownSeq_events d e.fwd).1

theorem sendEvt_quiet (d : Dev) (e : Evt) : (d.sendEvt e).quiet = d.quiet := by
  unfold Dev.sendEvt
  split
  exacts [upEvent_quiet d e, ringEvt_quiet d e]

theorem sendEvt_heldEvt (d : Dev) (e : Evt) : (d.sendEvt e).ctl.heldEvt = d.ctl.heldEvt := by
  unfold Dev.sendEvt
  split
  exacts [(upEvent_events d e).1, ringEvt_heldEvt d e]

/-- The device whose first held event has been taken out. -/
def Dev.eventTaken (d : Dev) (es : List Evt) : Dev := { d with ctl := { d.ctl with heldEvt := es } }

section
variable (flights : s.dev.ctl.flights = []) (outbox : s.dev.ctl.outbox = {}) {e : Evt} {es : List Evt} (owed : s.dev.ctl.lostOwed = 0)
  (held : s.dev.ctl.heldEvt = e :: es) (turn : s.dev.ctl.behind = false)
include flights outbox owed held turn

theorem eventDrain_runs (way : s.dev.ctl.evt.room = true ∨ s.dev.tree.admitted = true) : exec (.heldEventDrain n) s =
    .next { s with dev := ((((s.dev.advance n).eventTaken es).sendEvt e).keepWritten).commit } := by
  refine (onDev_runs ?_ : execHeldEventDrain n s = _)
  dsimp only
  rw [if_neg (by simp [way, held]), if_neg (by simp [held, Dev.inTurn, turn]), advance_ctl, if_neg (by simp [owed]), held]
  dsimp only
  rw [Dev.eventTaken, advance_ctl]

theorem event_sent (way : s.dev.ctl.evt.room = true ∨ s.dev.tree.admitted = true) :
    ∃ (t : State) (d : Dev), exec (.heldEventDrain n) s = .next t ∧ Keeps [] s t ∧ t.dev.ctl.heldEvt = es ∧ d.ctl.evtOut = s.dev.ctl.evtOut ∧ d.tree = s.dev.tree ∧
      t.dev.ctl.evtOut = (d.sendEvt e).ctl.evtOut := by
  have runs := eventDrain_runs n flights outbox owed held turn way
  have frame := advance_keeps [] s.dev n
  have inside : (s.dev.advance n).tree = s.dev.tree := advance_reads Dev.tree (fun _ _ => rfl) s.dev n
  rw [← advance_ctl s.dev n] at flights outbox ⊢
  generalize s.dev.advance n = b at *
  have taken : SameBut [] b (b.eventTaken es) := sameBut_of_core (by rfl) _
  have formed : (b.eventTaken es).ctl.outbox = {} := outbox
  have alone : (b.eventTaken es).ctl.flights = [] := flights
  have out : (b.eventTaken es).ctl.evtOut = b.ctl.evtOut := rfl
  have left : (b.eventTaken es).ctl.heldEvt = es := rfl
  have tree : (b.eventTaken es).tree = s.dev.tree := inside
  generalize b.eventTaken es = d at *
  have sentOutbox := (of_quiet (·.ctl.outbox) (fun _ => rfl) (sendEvt_quiet d e)).trans formed
  have sentFlights := (of_quiet (·.ctl.flights) (fun _ => rfl) (sendEvt_quiet d e)).trans alone
  refine ⟨_, d, runs, keeps_commit (((frame.trans taken).trans (sameBut_of_core (core_of_quiet (sendEvt_quiet d e)) _)).trans (keepWritten_keeps _ _)), ?_, out, tree, ?_⟩
  · dsimp only
    refine (keepWritten_reads (·.ctl.heldEvt) (fun _ => rfl) (fun _ => rfl) sentOutbox sentFlights).trans ?_
    rw [sendEvt_heldEvt, left]
  · dsimp only
    exact keepWritten_reads (·.ctl.evtOut) (fun _ => rfl) (fun _ => rfl) sentOutbox sentFlights

theorem event_passed (inside : s.dev.tree.admitted = true) : ∃ t, exec (.heldEventDrain n) s = .next t ∧ Keeps [] s t ∧
    t.dev.ctl.heldEvt = es ∧ t.dev.ctl.evtOut = s.dev.ctl.evtOut := by
  obtain ⟨t, d, runs, keeps, left, out, tree, sent⟩ := event_sent n flights outbox owed held turn (.inr inside)
  refine ⟨t, runs, keeps, left, ?_⟩
  rw [sent, Dev.sendEvt, if_pos (tree ▸ inside), (upEvent_events d e).2, out]

theorem event_written (outside : s.dev.tree.admitted = false) (room : s.dev.ctl.evt.room = true) : ∃ t x, exec (.heldEventDrain n) s = .next t ∧
    Keeps [] s t ∧ t.dev.ctl.heldEvt = es ∧ t.dev.ctl.evtOut = s.dev.ctl.evtOut ++ [x] ∧ x.source = e.source ∧ x.code = e.code ∧
      x.data = e.data := by
  obtain ⟨t, d, runs, keeps, left, out, tree, sent⟩ := event_sent n flights outbox owed held turn (.inl room)
  obtain ⟨x, ring, names⟩ := ringEvt_eventRing d e
  refine ⟨t, x, runs, keeps, left, ?_, names⟩
  rw [sent, Dev.sendEvt, if_neg (by simp [tree, outside]), ← out]
  exact congrArg Prod.snd ring

end

end

/-! ### Result packets and DMA (R349, R354, R355) -/

section
variable {s : State} (n : Nat)

/-- A device whose result packet has gone into the result area. -/
def Dev.packetMoved (d : Dev) (p : Packet) : Dev :=
  { d with ctl := { d.ctl with
    dmaPacket := none, downRes := if d.ctl.dmaPacket.isSome then d.ctl.downRes else d.ctl.downRes.tail
    resTail := (d.ctl.resTail + 8 * p.len) % max 1 d.ctl.resSize
    resOut := d.ctl.resOut ++ [p] } }

theorem resultBytes_unsaid (d : Dev) (bs : Bytes) : (d.resultBytes bs).unsaid = d.unsaid := by
  unfold Dev.resultBytes
  dsimp only
  split <;> rfl

/-- What a message leaves of the result area. -/
theorem signal_results (d : Dev) (v : Nat) : (d.signal v).ctl.dmaPacket = d.ctl.dmaPacket ∧ (d.signal v).ctl.downRes = d.ctl.downRes ∧
    (d.signal v).ctl.resOut = d.ctl.resOut ∧ (d.signal v).ctl.resTail = d.ctl.resTail := by
  unfold Dev.signal Dev.message
  dsimp only
  split <;> exact ⟨rfl, rfl, rfl, rfl⟩

theorem packet_moved (flights : s.dev.ctl.flights = []) (outbox : s.dev.ctl.outbox = {}) {p : Packet}
    (next : (s.dev.ctl.dmaPacket.toList ++ s.dev.ctl.downRes).head? = some p) (outside : s.dev.tree.admitted = false)
    (room : s.dev.ctl.resRoom (8 * p.len) = true) :
    ∃ t, exec (.resultPacketDma n) s = .next t ∧ Keeps [.ctl] s t ∧ t.dev.ctl.dmaPacket = none ∧
      t.dev.ctl.downRes = (if s.dev.ctl.dmaPacket.isSome then s.dev.ctl.downRes else s.dev.ctl.downRes.tail) ∧
      t.dev.ctl.resOut = s.dev.ctl.resOut ++ [p] ∧
      t.dev.ctl.resTail = (s.dev.ctl.resTail + 8 * p.len) % max 1 s.dev.ctl.resSize := by
  have runs : exec (.resultPacketDma n) s =
      .next { s with dev := (((s.dev.advance n).resultBytes (packetBytes p)).packetMoved p |>.signal 2).commit } := by
    refine (onDev_runs ?_ : execResultPacketDma n s = _)
    dsimp only
    rw [next]
    dsimp only
    rw [if_neg (by simp [outside]), if_neg (by simp [room])]
    rfl
  have frame := advance_keeps [.ctl] s.dev n
  rw [← advance_ctl s.dev n] at flights outbox ⊢
  generalize s.dev.advance n = b at *
  have same := resultBytes_unsaid b (packetBytes p)
  generalize b.resultBytes (packetBytes p) = a at *
  have reads : ∀ {γ : Type} (v : Dev → γ), (∀ d : Dev, v d.unsaid = v d) → v a = v b := fun v r =>
    (r a).symm.trans ((congrArg v same).trans (r b))
  have written : SameBut [.ctl] b ((a.packetMoved p).signal 2) := by
    refine (sameBut_of_core (reads Dev.core fun _ => rfl) _).trans (.trans (setCtl_keeps a (a.packetMoved p).ctl) ?_)
    exact sameBut_of_core (core_of_quiet (signal_quiet _ 2)) _
  have formed : ((a.packetMoved p).signal 2).ctl.outbox = a.ctl.outbox := (of_quiet (·.ctl.outbox) (fun _ => rfl) (signal_quiet (a.packetMoved p) 2) :)
  have alone : ((a.packetMoved p).signal 2).ctl.flights = a.ctl.flights := (of_quiet (·.ctl.flights) (fun _ => rfl) (signal_quiet (a.packetMoved p) 2) :)
  have still : ((a.packetMoved p).signal 2).commit.still = ((a.packetMoved p).signal 2).still := by
    refine commit_still_of ?_ ?_ ?_ ?_
    · rw [formed, reads (·.ctl.outbox.events) (fun _ => rfl), outbox]
    · rw [formed, reads (·.ctl.outbox.interim) (fun _ => rfl), outbox]
    · rw [formed, reads (·.ctl.outbox.packets) (fun _ => rfl), outbox]
    · rw [alone, reads (·.ctl.flights) (fun _ => rfl), flights]
      simp
  obtain ⟨packet, res, out, tail⟩ := signal_results (a.packetMoved p) 2
  refine ⟨_, runs, keeps_commit (frame.trans written), ?_, ?_, ?_, ?_⟩
  all_goals dsimp only
  · rw [of_still (·.ctl.dmaPacket) (fun _ => rfl) still, packet]
    rfl
  · rw [of_still (·.ctl.downRes) (fun _ => rfl) still, res]
    exact reads (fun d => if d.ctl.dmaPacket.isSome then d.ctl.downRes else d.ctl.downRes.tail) fun _ => rfl
  · rw [of_still (·.ctl.resOut) (fun _ => rfl) still, out]
    exact reads (fun d => d.ctl.resOut ++ [p]) fun _ => rfl
  · rw [of_still (·.ctl.resTail) (fun _ => rfl) still, tail]
    exact reads (fun d => (d.ctl.resTail + 8 * p.len) % max 1 d.ctl.resSize) fun _ => rfl

/-- The engine after the first granule of the only request. -/
def granuleDma (x : Dma) (c : BitVec 2) (k : Nat) : Dma :=
  { cur := some { cls := c, granule := 1, left := k - 1 }, waiting := [], lastCls := if c < 2 then x.lastCls else c }

theorem dmaWinner_single (last : BitVec 2) (r : DmaReq) : dmaWinner last [r] = some r := by
  unfold dmaWinner
  by_cases low : r.cls < 2
  · simp only [List.filter_cons, List.filter_nil, low, decide_true, if_true, List.foldl_nil]
  · rw [show [r].filter (fun r => decide (r.cls < 2)) = [] from by
      simp only [List.filter_cons, List.filter_nil, low, decide_false, Bool.false_eq_true, if_false]]
    by_cases same : r.cls = last <;> simp [same]

/-- A device whose DMA engine has moved a granule. -/
def Dev.granuleTaken (d : Dev) (e : Nat) (x : Dma) : Dev :=
  { d with ctl := { d.ctl with dma := d.ctl.dma.set {} e x, preempts := satAdd (2 ^ 32 - 1) d.ctl.preempts 0 } }

theorem granule_moved {e : BitVec 3} (c : BitVec 2) {k : Nat} (engine : e.toNat ≤ 4) (idle : (s.dev.ctl.dma.get {} e.toNat).cur = none)
    (none_ : (s.dev.ctl.dma.get {} e.toNat).waiting = []) (more : 2 ≤ k) (flights : s.dev.ctl.flights = []) (outbox : s.dev.ctl.outbox = {}) :
    ∃ t, exec (.dmaGranuleBoundary n e (some (c, k))) s = .next t ∧ Keeps [.ctl] s t ∧
      (t.dev.ctl.dma.get {} e.toNat).cur = some { cls := c, granule := 1, left := k - 1 } := by
  have runs : exec (.dmaGranuleBoundary n e (some (c, k))) s = .next { s with dev :=
      ((s.dev.advance n).granuleTaken e.toNat (granuleDma ((s.dev.advance n).ctl.dma.get {} e.toNat) c k)).commit } := by
    refine (onDev_runs ?_ : execDmaGranuleBoundary n e (some (c, k)) s = _)
    dsimp only
    rw [idle, none_, if_neg (by omega : ¬ k = 0)]
    simp only [Option.toList_none, List.nil_append, dmaWinner_single]
    rw [if_neg (by omega), if_neg (by omega)]
    simp only [Option.any_none, Bool.false_and, List.erase_cons_head]
    unfold Dev.granuleTaken granuleDma
    rw [advance_ctl]
    rfl
  have frame := advance_keeps [.ctl] s.dev n
  rw [← advance_ctl s.dev n] at flights outbox
  generalize s.dev.advance n = d at *
  have still := commit_still (d := d.granuleTaken e.toNat (granuleDma (d.ctl.dma.get {} e.toNat) c k)) outbox
    (by rw [show (d.granuleTaken e.toNat _).ctl.flights = d.ctl.flights from rfl, flights]; simp)
  refine ⟨_, runs, keeps_commit (frame.trans (setCtl_keeps _ _)), ?_⟩
  dsimp only
  rw [of_still (·.ctl.dma) (fun _ => rfl) still]
  exact congrArg Dma.cur (Tab.get_set_self ..)

theorem message_sent {v : BitVec 6} (some_ : (s.dev.ctl.irqs.get {} v.toNat).n ≠ 0) (flights : s.dev.ctl.flights = []) (outbox : s.dev.ctl.outbox = {})
    (due : (s.dev.ctl.irqs.get {} v.toNat).first + (s.dev.ctl.irqs.get {} v.toNat).holdoff * usSteps ≤ (s.dev.advance n).mono) :
    ∃ t, exec (.irqHoldoffExpiry n v) s = .next t ∧ Keeps [] s t ∧ (t.dev.ctl.irqs.get {} v.toNat).n = 0 ∧
      ((s.dev.ctl.irqs.get {} v.toNat).masked = true → (t.dev.ctl.irqs.get {} v.toNat).pending = true) ∧
      ((s.dev.ctl.irqs.get {} v.toNat).masked = false →
        (t.dev.ctl.irqs.get {} v.toNat).sent = (s.dev.ctl.irqs.get {} v.toNat).sent + 1) := by
  have runs : exec (.irqHoldoffExpiry n v) s = .next { s with dev := ((s.dev.advance n).message v.toNat).commit } :=
    (onDev_runs (if_neg (by omega)) : execIrqHoldoffExpiry n v s = _)
  have frame := advance_keeps [] s.dev n
  rw [← advance_ctl s.dev n] at flights outbox ⊢
  generalize s.dev.advance n = d at *
  have still := commit_still (d := d.message v.toNat) ((of_quiet (·.ctl.outbox) (fun _ => rfl) (message_quiet d _)).trans outbox)
    (by rw [of_quiet (·.ctl.flights) (fun _ => rfl) (message_quiet d _), flights]; simp)
  have irq : (d.message v.toNat).commit.ctl.irqs.get {} v.toNat = (if (d.ctl.irqs.get {} v.toNat).masked
      then { d.ctl.irqs.get {} v.toNat with n := 0, pending := true }
      else { d.ctl.irqs.get {} v.toNat with n := 0, sent := (d.ctl.irqs.get {} v.toNat).sent + 1 }) := by
    rw [of_still (·.ctl.irqs) (fun _ => rfl) still]
    exact Tab.get_set_self ..
  refine ⟨_, runs, keeps_commit (frame.trans (sameBut_of_core (core_of_quiet (message_quiet d _)) _)), ?_⟩
  dsimp only
  rw [irq]
  cases masked : (d.ctl.irqs.get {} v.toNat).masked <;> simp

end

end Sys2Proof.Machine

open Sys2Proof Sys2Proof.Machine

/-- Settles O19, by what a commit leaves that writes no record of a command: each drain takes the first of its list and the rest of the control
complex stands. -/
theorem controlRings : Obligations.ControlRings := by
  unfold Obligations.ControlRings
  refine ⟨fun s n entry args e named up flights outbox on more good right kind =>
    command_fetched n named up flights outbox on more good right kind, fun s n flights outbox => ⟨?_, ?_, ?_, ?_, ?_⟩⟩
  · exact fun c cs room first held may => completion_drained n flights outbox room first held may
  · exact fun e es owed held turn => ⟨event_passed n flights outbox owed held turn, event_written n flights outbox owed held turn⟩
  · exact fun p next outside room => packet_moved n flights outbox next outside room
  · exact fun e c k engine idle none_ more => granule_moved n c engine idle none_ more flights outbox
  · exact fun v some_ due => message_sent n some_ flights outbox due

end


section
/-!
PROOFS. The direct registers of a device whose BAR0 exists (R340, R505 to R511).
-/
namespace Sys2Proof.Machine

section
variable {s : State} (up : barUp s = true) (n : Nat)
include up

/-- An access to a direct register changes what it changes on the device of its stamp, and its commit leaves the core. -/
theorem onBar_leaves (l : List Part) {f : Dev → Dev} (keeps : ∀ d, SameBut l d (f d)) :
    ∃ t, onBar s n f = .next t ∧ Keeps l s t ∧ t.dev.core = (f (s.dev.advance n)).core := by
  have runs := onBar_up up n f
  have kept := keeps (s.dev.advance n)
  generalize f (s.dev.advance n) = e at *
  refine ⟨_, runs, keeps_commit ((advance_keeps l s.dev n).trans kept), ?_⟩
  dsimp only
  exact commit_core e

end

theorem setRegs_keeps (d : Dev) (x : Regs) : SameBut [.regs] d { d with regs := x } :=
  sameBut_single fun p hp => by cases p <;> first | exact absurd rfl hp | rfl | exact Timeline.kept_refl _

/-! ### Reads (R506, R507) -/

theorem advance_regs (d : Dev) (n : Nat) : (d.advance n).regs = d.regs := advance_reads Dev.regs (fun _ _ => rfl) d n

theorem readNow_keeps (d : Dev) (whole : Bool) : SameBut [.regs] d (d.readNow whole) := setRegs_keeps d _

theorem readNow_whole (d : Dev) : (d.readNow true).regs.readData = BitVec.ofNat 64 d.tl.now := by
  refine BitVec.eq_of_toNat_eq ?_
  simp [Dev.readNow, Dev.answer]

theorem answer_keeps (d : Dev) (v : Nat) : SameBut [.regs] d (d.answer v) := setRegs_keeps d _

theorem readLow_keeps (d : Dev) (off v : Nat) : SameBut [.regs] d (d.readLow off v) := (setRegs_keeps d _).trans (answer_keeps _ _)

theorem badAccess_keeps (d : Dev) : SameBut [.regs] d (d.badAccess.answer 0) := (setRegs_keeps d _).trans (answer_keeps _ 0)

theorem readReg_scratchLow (s : State) (d : Dev) : d.readReg s 0x18 false = d.readLow 0x18 d.regs.scratch.toNat := by
  simp [Dev.readReg, reg64]

theorem readReg_scratch (s : State) (d : Dev) : d.readReg s 0x18 true = d.answer d.regs.scratch.toNat := by
  simp [Dev.readReg, reg64]

theorem readReg_scratchHigh (s : State) (d : Dev) : d.readReg s 0x1C false = d.answer (d.regs.shadows.get 0 0x18).toNat := by
  simp [Dev.readReg, reg64, isReg32, isReg64]

theorem readReg_epoch (s : State) (d : Dev) : d.readReg s 0x58 false = d.answer d.tl.epoch.toNat := by
  simp [Dev.readReg, reg64, isReg32, reg32]

theorem low_half (v : BitVec 64) : BitVec.ofNat 64 (v.toNat % 2 ^ 32) = (v.setWidth 32).setWidth 64 := by
  refine BitVec.eq_of_toNat_eq ?_
  simp

theorem high_half (v : BitVec 64) : BitVec.ofNat 32 (v.toNat / 2 ^ 32) = (v >>> 32).setWidth 32 := by
  refine BitVec.eq_of_toNat_eq ?_
  simp [Nat.shiftRight_eq_div_pow]

/-- The low half of a register is answered, and its high half is latched. -/
theorem readLow_reads (d : Dev) (off : Nat) (v : BitVec 64) : (d.readLow off v.toNat).regs.readData = (v.setWidth 32).setWidth 64 ∧
    (d.readLow off v.toNat).regs.shadows.get 0 off = (v >>> 32).setWidth 32 :=
  ⟨low_half v, (Tab.get_set_self ..).trans (high_half v)⟩

/-- The device with a value in SCRATCH. -/
def Dev.scratched (d : Dev) (v : BitVec 64) : Dev := { d with regs := { d.regs with scratch := v } }

theorem barWrite_scratch (d : Dev) (v : BitVec 64) : d.barWrite 0x18 true v = d.scratched v := by
  simp [Dev.barWrite, isReg64, Dev.write64, Dev.scratched]

theorem scratched_setting (d : Dev) (v : BitVec 64) : (d.scratched v).regs.setting = { d.regs.setting with scratch := v } := rfl

/-- A device whose SCRATCH has taken a whole value, the low half of which was staged. -/
def Dev.unstaged (d : Dev) (v : BitVec 64) : Dev :=
  ({ d with regs := { d.regs with staged := d.regs.staged.set none 0x18 none } } : Dev).scratched v

theorem unstaged_leaves (d : Dev) (v : BitVec 64) : SameBut [.regs] d (d.unstaged v) ∧ (d.unstaged v).regs.scratch = v :=
  ⟨(setRegs_keeps d _).trans (setRegs_keeps _ _), rfl⟩

theorem barWrite_scratchHigh {d : Dev} {low : BitVec 32} (staged : d.regs.staged.get none 0x18 = some low) (v : BitVec 64) :
    d.barWrite 0x1C false v = d.unstaged (v.setWidth 32 ++ low) := by
  simp [Dev.barWrite, isReg64, isReg32, Dev.writeHalf, stagedRegs, staged, Dev.write64, Dev.unstaged, Dev.scratched]

theorem halves_append (v : BitVec 64) : (v >>> 32).setWidth 32 ++ v.setWidth 32 = v := by
  refine BitVec.eq_of_getLsbD_eq fun i below => ?_
  refine BitVec.getLsbD_append.trans ?_
  by_cases low : i < 32
  · simp [low]
  · have place : 32 + (i - 32) = i := by omega
    have high : i - 32 < 32 := by omega
    simp [low, place, high]

/-- A device whose FC_INJECT holds a word that waits for its granule. -/
def Dev.injectTaken (d : Dev) (word : BitVec 64) : Dev :=
  { d with
    regs := { d.regs with injWord := word }
    fc := { d.fc with inj := some { tag := none, word := word, since := d.firstGranule clk } } }

theorem injectTaken_keeps (d : Dev) (word : BitVec 64) : SameBut [.regs, .fc] d (d.injectTaken word) :=
  ((setRegs_keeps d { d.regs with injWord := word }).mono (by simp)).trans ((setFc_keeps _ _).mono (by simp))

theorem injectTaken_reads (d : Dev) (word : BitVec 64) : (d.injectTaken word).regs.injWord = word ∧
    (d.injectTaken word).fc.inj.map (·.word) = some word ∧ (d.injectTaken word).fc.inj.bind (·.tag) = none := ⟨rfl, rfl, rfl⟩

section
variable {s : State} (up : barUp s = true) (n : Nat)
include up

theorem now_read : ∃ t, exec (.tlNowRead n true) s = .next t ∧ Keeps [.regs] s t ∧
    t.dev.regs.readData = BitVec.ofNat 64 (s.dev.advance n).tl.now := by
  obtain ⟨t, runs, frame, core⟩ := onBar_leaves up n [.regs] (f := fun d => d.readNow true) (readNow_keeps · true)
  exact ⟨t, runs, frame, (of_core (·.regs.readData) (fun _ => rfl) core).trans (readNow_whole _)⟩

theorem register_read {off : BitVec 16} {wide : Bool} {f : Dev → Dev} (reads : ∀ d : Dev, d.readReg s off.toNat wide = f d)
    (keeps : ∀ d, SameBut [.regs] d (f d)) :
    ∃ t, exec (.registerLowHalfRead n ⟨off, wide⟩) s = .next t ∧ Keeps [.regs] s t ∧ t.dev.core = (f (s.dev.advance n)).core := by
  obtain ⟨t, runs, left⟩ := onBar_leaves up n [.regs] keeps
  exact ⟨t, (congrArg (onBar s n) (funext fun d => reads d)).trans runs, left⟩

theorem scratch_low_read : ∃ t, exec (.registerLowHalfRead n ⟨0x0018, false⟩) s = .next t ∧ Keeps [.regs] s t ∧
    t.dev.regs.readData = (s.dev.regs.scratch.setWidth 32).setWidth 64 ∧
    t.dev.regs.shadows.get 0 0x18 = (s.dev.regs.scratch >>> 32).setWidth 32 := by
  obtain ⟨t, runs, frame, core⟩ := register_read up n (off := 0x0018) (wide := false) (readReg_scratchLow s) fun d => readLow_keeps d _ _
  refine ⟨t, runs, frame, ?_, ?_⟩
  · rw [of_core (·.regs.readData) (fun _ => rfl) core, (readLow_reads _ _ _).1, advance_regs]
  · rw [of_core (·.regs.shadows) (fun _ => rfl) core, (readLow_reads _ _ _).2, advance_regs]

theorem answered_read {off : BitVec 16} {wide : Bool} {v : Dev → Nat} (reads : ∀ d : Dev, d.readReg s off.toNat wide = d.answer (v d)) :
    ∃ t, exec (.registerLowHalfRead n ⟨off, wide⟩) s = .next t ∧ Keeps [.regs] s t ∧
      t.dev.regs.readData = BitVec.ofNat 64 (v (s.dev.advance n)) := by
  obtain ⟨t, runs, frame, core⟩ := register_read up n reads fun d => answer_keeps d _
  exact ⟨t, runs, frame, of_core (·.regs.readData) (fun _ => rfl) core⟩

theorem scratch_high_read : ∃ t, exec (.registerLowHalfRead n ⟨0x001C, false⟩) s = .next t ∧ Keeps [.regs] s t ∧
    t.dev.regs.readData = (s.dev.regs.shadows.get 0 0x18).setWidth 64 := by
  obtain ⟨t, runs, frame, data⟩ := answered_read up n (off := 0x001C) (wide := false) (readReg_scratchHigh s)
  refine ⟨t, runs, frame, data.trans ?_⟩
  rw [advance_regs]
  exact BitVec.ofNat_toNat ..

theorem scratch_read : ∃ t, exec (.registerLowHalfRead n ⟨0x0018, true⟩) s = .next t ∧ Keeps [.regs] s t ∧
    t.dev.regs.readData = s.dev.regs.scratch := by
  obtain ⟨t, runs, frame, data⟩ := answered_read up n (off := 0x0018) (wide := true) (readReg_scratch s)
  refine ⟨t, runs, frame, data.trans ?_⟩
  rw [advance_regs, BitVec.ofNat_toNat, BitVec.setWidth_eq]

theorem epoch_read : ∃ t, exec (.registerLowHalfRead n ⟨0x0058, false⟩) s = .next t ∧ Keeps [.regs] s t ∧
    t.dev.regs.readData = s.dev.tl.epoch.setWidth 64 := by
  obtain ⟨t, runs, frame, data⟩ := answered_read up n (off := 0x0058) (wide := false) (readReg_epoch s)
  refine ⟨t, runs, frame, data.trans ?_⟩
  rw [Dev.advance_tl_epoch]
  exact BitVec.ofNat_toNat ..

theorem bad_access (off : BitVec 16) : ∃ t, exec (.badRegisterAccess n off) s = .next t ∧ Keeps [.regs] s t ∧ t.dev.regs.badAccess = true ∧
    t.dev.regs.readData = 0 := by
  obtain ⟨t, runs, frame, core⟩ := onBar_leaves up n [.regs] (f := fun d => d.badAccess.answer 0) badAccess_keeps
  exact ⟨t, runs, frame, of_core (·.regs.badAccess) (fun _ => rfl) core, of_core (·.regs.readData) (fun _ => rfl) core⟩

/-! ### Writes (R508, R509) -/

theorem scratch_written (v : BitVec 64) : ∃ t, exec (.registerWrite n 0x0018 true v) s = .next t ∧ Keeps [.regs] s t ∧
    t.dev.regs.setting = { s.dev.regs.setting with scratch := v } := by
  obtain ⟨t, runs, frame, core⟩ := onBar_leaves up n [.regs] (f := fun d => d.scratched v) fun d => setRegs_keeps d _
  refine ⟨t, (congrArg (onBar s n) (funext fun d => barWrite_scratch d v)).trans runs, frame, ?_⟩
  rw [of_core (·.regs.setting) (fun _ => rfl) core, scratched_setting, advance_regs]

theorem scratch_half_written {v : BitVec 64} (staged : s.dev.regs.staged.get none 0x18 = some (v.setWidth 32)) :
    ∃ t, exec (.registerWrite n 0x001C false (v >>> 32)) s = .next t ∧ Keeps [.regs] s t ∧ t.dev.regs.scratch = v := by
  rw [← advance_regs s.dev n] at staged
  have runs : exec (.registerWrite n 0x001C false (v >>> 32)) s = .next { s with dev := ((s.dev.advance n).unstaged v).commit } := by
    refine (onBar_up up n _ : execRegisterWrite n 0x001C false (v >>> 32) s = _).trans
      (congrArg (fun d : Dev => Host.Outcome.next { s with dev := d.commit }) ?_)
    refine (barWrite_scratchHigh staged (v >>> 32)).trans (congrArg _ (halves_append v))
  obtain ⟨keeps, taken⟩ := unstaged_leaves (s.dev.advance n) v
  generalize (s.dev.advance n).unstaged v = e at *
  exact ⟨_, runs, keeps_commit ((advance_keeps _ s.dev n).trans keeps), (of_core (·.regs.scratch) (fun _ => rfl) (commit_core e)).trans taken⟩

theorem log_index_written (v : BitVec 32) :
    ∃ t, exec (.logIndexWrite n v) s = .next t ∧ Keeps [.regs] s t ∧ t.dev.regs.logIndex = v.setWidth 8 := by
  obtain ⟨t, runs, frame, core⟩ := onBar_leaves up n [.regs] (f := fun d => d.writeLogIndex v) fun d => setRegs_keeps d _
  exact ⟨t, runs, frame, of_core (·.regs.logIndex) (fun _ => rfl) core⟩

/-! ### Faults, Decaf mode and the log (R507, R510, R511) -/

theorem decaf_key_missing {v : BitVec 32} (key : v >>> 16 ≠ 0xDECA) : ∃ t, exec (.decafReqWrite n v) s = .next t ∧ Keeps [] s t := by
  have stays : ∀ d : Dev, d.writeDecafReq v = d := fun d => if_neg fun h => key h.2
  obtain ⟨t, runs, frame, -⟩ := onBar_leaves up n [] (f := fun d => d.writeDecafReq v) fun d => by rw [stays]; exact .refl _ d
  exact ⟨t, runs, frame⟩

theorem inject_refused {word : BitVec 64} (bad : injGood word = false) :
    ∃ t, exec (.fcInjectWrite n word) s = .next t ∧ Keeps [.regs] s t ∧ t.dev.regs.refused = true := by
  have refuses : ∀ d : Dev, d.writeInject word = { d with regs := { d.regs with refused := true } } := fun d => if_pos (by simp [bad])
  obtain ⟨t, runs, frame, core⟩ := onBar_leaves up n [.regs] (f := fun d => d.writeInject word) fun d => by rw [refuses]; exact setRegs_keeps d _
  refine ⟨t, runs, frame, ?_⟩
  rw [of_core (·.regs.refused) (fun _ => rfl) core, refuses]

theorem inject_taken {word : BitVec 64} (good : injGood word = true) (free : s.dev.fc.inj = none) (normal : s.dev.fc.decaf = none) :
    ∃ t, exec (.fcInjectWrite n word) s = .next t ∧ Keeps [.regs, .fc] s t ∧ t.dev.regs.injWord = word ∧
      t.dev.fc.inj.map (·.word) = some word ∧ t.dev.fc.inj.bind (·.tag) = none := by
  have takes : (s.dev.advance n).writeInject word = (s.dev.advance n).injectTaken word := if_neg (by simp [good, free, normal])
  have runs : exec (.fcInjectWrite n word) s = .next { s with dev := ((s.dev.advance n).injectTaken word).commit } :=
    (onBar_up up n _ : execFcInjectWrite n word s = _).trans (congrArg (fun d : Dev => Host.Outcome.next { s with dev := d.commit }) takes)
  have keeps := injectTaken_keeps (s.dev.advance n) word
  obtain ⟨held, waits, host⟩ := injectTaken_reads (s.dev.advance n) word
  generalize (s.dev.advance n).injectTaken word = e at *
  refine ⟨_, runs, keeps_commit ((advance_keeps _ s.dev n).trans keeps), ?_, ?_, ?_⟩
  · exact (of_core (·.regs.injWord) (fun _ => rfl) (commit_core e)).trans held
  all_goals
    dsimp only
    rw [commit_fc]
  exacts [waits, host]

theorem log_frozen (open_ : s.dev.log.freeze = false) :
    ∃ t, exec (.logFreezeWrite n 1) s = .next t ∧ Keeps [.log] s t ∧ t.dev.log.freeze = true := by
  have freezes : ∀ d : Dev, d.log.freeze = false → d.writeLogFreeze 1 = { d with log := { d.log with freeze := true, freezeAt := d.mono } } := fun d open_ => by
    simp [Dev.writeLogFreeze, Dev.w1c, open_]
  have later : (s.dev.advance n).log.freeze = false := by rw [advance_reads Dev.log (fun _ _ => rfl), open_]
  have runs : exec (.logFreezeWrite n 1) s = .next { s with dev :=
      ({ s.dev.advance n with log := { (s.dev.advance n).log with freeze := true, freezeAt := (s.dev.advance n).mono } } : Dev).commit } :=
    (onBar_up up n _ : execLogFreezeWrite n 1 s = _).trans
      (congrArg (fun d : Dev => Host.Outcome.next { s with dev := d.commit }) (freezes _ later))
  refine ⟨_, runs, keeps_commit ((advance_keeps _ s.dev n).trans (setLog_keeps _ _)), ?_⟩
  dsimp only
  rw [commit_log_freeze]

theorem log_thawed (frozen : s.dev.log.freeze = true) :
    ∃ t, exec (.logFreezeWrite n 0) s = .next t ∧ Keeps [.log] s t ∧ t.dev.log.freeze = false := by
  have thaws : ∀ d : Dev, d.log.freeze = true → d.writeLogFreeze 0 = d.unfreeze := fun d frozen => by
    simp [Dev.writeLogFreeze, Dev.w1c, frozen]
  have later : (s.dev.advance n).log.freeze = true := by rw [advance_reads Dev.log (fun _ _ => rfl), frozen]
  have runs : exec (.logFreezeWrite n 0) s = .next { s with dev := ((s.dev.advance n).unfreeze).commit } :=
    (onBar_up up n _ : execLogFreezeWrite n 0 s = _).trans
      (congrArg (fun d : Dev => Host.Outcome.next { s with dev := d.commit }) (thaws _ later))
  obtain ⟨keeps, free⟩ := unfreeze_frees (s.dev.advance n)
  generalize (s.dev.advance n).unfreeze = e at *
  refine ⟨_, runs, keeps_commit ((advance_keeps _ s.dev n).trans keeps), ?_⟩
  dsimp only
  rw [commit_log_freeze]
  exact free

/-! ### Test interrupts (R508) -/

theorem test_interrupt {v : BitVec 6} (real : v ≠ 63) (outbox : s.dev.ctl.outbox = {}) (flights : s.dev.ctl.flights = [])
    (unmasked : (s.dev.ctl.irqs.get {} v.toNat).masked = false) :
    ∃ t, exec (.irqTestWrite n (1#64 <<< v.toNat)) s = .next t ∧ Keeps [] s t ∧ t.dev.regs.irqSummary.getLsbD v.toNat = true ∧
      (t.dev.ctl.irqs.get {} v.toNat).sent = (s.dev.ctl.irqs.get {} v.toNat).sent + 1 := by
  have other : v.toNat ≠ 63 := fun h => real (BitVec.eq_of_toNat_eq h)
  have sends : ∀ d : Dev, d.writeIrqTest (1#64 <<< v.toNat) = d.message v.toNat := fun d => by
    simp [Dev.writeIrqTest, members_singleton (n := 64) v.isLt, other]
  have runs : exec (.irqTestWrite n (1#64 <<< v.toNat)) s = .next { s with dev := ((s.dev.advance n).message v.toNat).commit } :=
    (onBar_up up n _ : execIrqTestWrite n (1#64 <<< v.toNat) s = _).trans
      (congrArg (fun d : Dev => Host.Outcome.next { s with dev := d.commit }) (sends _))
  have frame := advance_keeps [] s.dev n
  rw [← advance_ctl s.dev n] at flights outbox unmasked ⊢
  generalize s.dev.advance n = d at *
  have still := commit_still (d := d.message v.toNat) ((of_quiet (·.ctl.outbox) (fun _ => rfl) (message_quiet d _)).trans outbox)
    (by rw [of_quiet (·.ctl.flights) (fun _ => rfl) (message_quiet d _), flights]; simp)
  refine ⟨_, runs, keeps_commit (frame.trans (sameBut_of_core (core_of_quiet (message_quiet d _)) _)), ?_, ?_⟩
  all_goals dsimp only
  · rw [of_still (·.regs.irqSummary) (fun _ => rfl) still]
    unfold Dev.message
    dsimp only
    rw [unmasked, if_neg Bool.false_ne_true]
    rw [BitVec.getLsbD_or, BitVec.natCast_eq_ofNat, BitVec.getLsbD_ofNat, decide_eq_true v.isLt, Nat.testBit_shiftLeft]
    simp
  · rw [of_still (·.ctl.irqs) (fun _ => rfl) still]
    unfold Dev.message
    dsimp only
    rw [unmasked, if_neg Bool.false_ne_true, Tab.get_set_self]

end

/-! ### Bits that are cleared by a write of 1 (R509) -/

/-- What stood under a key that no other entry has; a value of 0 is not kept. -/
theorem lookup_nonzero {before after : List (Nat × Nat)} {k : Nat} (v : Nat) (front : k ∉ before.map Prod.fst) (back : k ∉ after.map Prod.fst) :
    (((before ++ (k, v) :: after).filter fun c => decide (c.2 ≠ 0)).lookup k).getD 0 = v := by
  have absent : ∀ l : List (Nat × Nat), k ∉ l.map Prod.fst → (l.filter fun c => decide (c.2 ≠ 0)).lookup k = none := fun l out => by
    refine List.lookup_eq_none_iff.mpr fun c mem => ?_
    simpa using fun same : k = c.1 => out (same ▸ List.mem_map_of_mem (List.mem_of_mem_filter mem))
  rw [List.filter_append, List.lookup_append, absent _ front]
  by_cases zero : v = 0
  · have rest := absent _ back
    simp only [decide_not] at rest
    simp [zero, rest]
  · simp [zero]

/-- The bits of FC_STATUS that a write of 1 can clear. -/
def Dev.fcBits (d : Dev) : Nat :=
  packFields [(48, d.fc.lines.toNat), (8, 0), (1, bit d.fc.c), (1, bit d.fc.u), (1, bit d.fc.f), (1, bit d.fc.overrun)]

theorem standing_fcBits (d : Dev) : d.standing.get 0 0x10300 = d.fcBits := by
  have parts : d.clearable ++ d.clearableBits = (d.clearable ++ d.clearableBits.take 2) ++ (0x10300, d.fcBits) :: d.clearableBits.drop 3 := by
    rw [List.append_assoc]
    rfl
  unfold Dev.standing Tab.get
  rw [parts]
  exact lookup_nonzero _ (by simp [Dev.clearable, Dev.clearableBits]) (by simp [Dev.clearableBits])

theorem fcBits_line (d : Dev) {k : Nat} (line : k < 48) : d.fcBits.testBit k = d.fc.lines.getLsbD k := by
  have small : d.fc.lines.toNat % 2 ^ 48 = d.fc.lines.toNat := Nat.mod_eq_of_lt d.fc.lines.isLt
  unfold Dev.fcBits
  rw [packFields, Nat.add_comm, Nat.testBit_two_pow_mul_add _ (Nat.mod_lt _ (by decide)), if_pos line, small]
  rfl

/-- The fault state after a write of FC_STATUS that clears some of its bits. -/
def Fc.without (f : Fc) (m : Nat) : Fc :=
  { f with lines := f.lines &&& ~~~ (BitVec.ofNat 48 m), c := f.c && !m.testBit 56, u := f.u && !m.testBit 57
           f := f.f && !m.testBit 58, overrun := f.overrun && !m.testBit 59 }

theorem advance_before {d : Dev} {n : Nat} (running : d.tl.running = true) (steady : d.tl.rewind = none) (later : d.tl.now < n) :
    (d.advance n).tl.before = d.standing := by
  have reach : d.tl.reach n = n := by simp [Timeline.reach, steady, Nat.le_of_lt later]
  unfold Dev.advance
  rw [if_neg (by simp [running]), if_neg (by omega)]

theorem advance_past {d : Dev} {n : Nat} (running : d.tl.running = true) (past : n ≤ d.tl.now) : d.advance n = d := by
  have reach : d.tl.reach n = d.tl.now := by
    unfold Timeline.reach
    cases d.tl.rewind with
    | none => exact max_eq_left past
    | some r => exact max_eq_left ((min_le_right r n).trans past)
  unfold Dev.advance
  rw [if_neg (by simp [running]), if_pos reach]

theorem writeFcStatus_fc (d : Dev) (v : BitVec 64) : (d.writeFcStatus v).fc = d.fc.without (d.w1c 0x0300 v.toNat) := rfl

theorem spent_keeps (d : Dev) (k x : Nat) : SameBut [] d (d.spent k x) := fun p _ => by
  cases p <;> first | rfl | exact ⟨rfl, .inl rfl⟩

theorem writeFcStatus_keeps (d : Dev) (v : BitVec 64) : SameBut [.fc] d (d.writeFcStatus v) :=
  (setFc_keeps d (d.fc.without (d.w1c 0x0300 v.toNat))).trans ((spent_keeps _ _ _).mono (by simp))

/-- A line stays unless its bit is cleared. -/
theorem without_line (f : Fc) (m : Nat) {k : Nat} (line : k < 48) : (f.without m).lines.getLsbD k = (f.lines.getLsbD k && !m.testBit k) := by
  refine BitVec.getLsbD_and.trans ?_
  rw [BitVec.getLsbD_not, BitVec.getLsbD_ofNat, decide_eq_true line, Bool.true_and, Bool.true_and]

section
variable {s : State} (up : barUp s = true) (n : Nat) (v : BitVec 64)
include up

theorem fc_written : ∃ t, exec (.registerWrite n 0x0300 true v) s = .next t ∧ Keeps [.fc] s t ∧
    t.dev.fc = s.dev.fc.without ((s.dev.advance n).w1c 0x0300 v.toNat) := by
  have writes : ∀ d : Dev, d.barWrite 0x0300 true v = d.writeFcStatus v := fun d => by simp [Dev.barWrite, isReg64, Dev.write64]
  obtain ⟨t, runs, frame, core⟩ := onBar_leaves up n [.fc] (f := fun d => d.writeFcStatus v) (writeFcStatus_keeps · v)
  refine ⟨t, (congrArg (onBar s n) (funext fun d => writes d)).trans runs, frame, ?_⟩
  rw [of_core Dev.fc (fun _ => rfl) core, writeFcStatus_fc, advance_reads Dev.fc (fun _ _ => rfl)]

theorem fc_cleared (running : s.dev.tl.running = true) (steady : s.dev.tl.rewind = none) (later : s.dev.tl.now < n) :
    ∃ t, exec (.registerWrite n 0x0300 true v) s = .next t ∧ Keeps [.fc] s t ∧
      t.dev.fc.lines = s.dev.fc.lines &&& ~~~ (v.setWidth 48) ∧ t.dev.fc.perLine = s.dev.fc.perLine := by
  obtain ⟨t, runs, frame, fc⟩ := fc_written up n v
  have stood : (s.dev.advance n).tl.before.get 0 0x10300 = s.dev.fcBits := by
    rw [advance_before running steady later, standing_fcBits]
  refine ⟨t, runs, frame, BitVec.eq_of_getLsbD_eq fun k line => ?_, by rw [fc]; rfl⟩
  have given : ((s.dev.advance n).w1c 0x0300 v.toNat).testBit k = (v.getLsbD k && s.dev.fc.lines.getLsbD k) := by
    rw [Dev.w1c, stood, Nat.testBit_and, fcBits_line s.dev line]
    rfl
  rw [fc, without_line _ _ line, given, BitVec.getLsbD_and, BitVec.getLsbD_not, BitVec.getLsbD_setWidth, decide_eq_true line]
  cases s.dev.fc.lines.getLsbD k <;> simp

theorem fc_kept (running : s.dev.tl.running = true) (past : n ≤ s.dev.tl.now) :
    ∃ t, exec (.registerWrite n 0x0300 true v) s = .next t ∧ Keeps [.fc] s t ∧
      ∀ k, k < 48 → (s.dev.tl.before.get 0 0x10300).testBit k = false → t.dev.fc.lines.getLsbD k = s.dev.fc.lines.getLsbD k := by
  obtain ⟨t, runs, frame, fc⟩ := fc_written up n v
  refine ⟨t, runs, frame, fun k line out => ?_⟩
  rw [fc, without_line _ _ line, Dev.w1c, Nat.testBit_and, advance_past running past, show 0x10000 + 0x0300 = 0x10300 from rfl, out]
  simp

end

end Sys2Proof.Machine

open Sys2Proof Sys2Proof.Machine

/-- Settles O31, by what each write and read does to the device of its stamp; a bit of FC_STATUS that was set at the stamp does not stand in
what the timeline noted before it. -/
theorem directRegisters : Obligations.DirectRegisters := by
  unfold Obligations.DirectRegisters
  exact fun s n up => ⟨now_read up n, scratch_low_read up n, scratch_high_read up n, scratch_read up n, epoch_read up n, bad_access up n,
    scratch_written up n, fun v staged => scratch_half_written up n staged,
    fun v running => ⟨fc_cleared up n v running, fc_kept up n v running⟩,
    fun word good free normal => inject_taken up n good free normal, fun word bad => inject_refused up n bad,
    fun v key => decaf_key_missing up n key, fun v real outbox flights unmasked => test_interrupt up n real outbox flights unmasked,
    log_frozen up n, log_thawed up n, log_index_written up n⟩

end
